-- ==== Sys2Proof/Word.lean ====
section
/-! DEFINITION. The word types of the Milkadal: 32-bit registers (R41), 64-bit instruction words and pairs (R29, R43), lane masks of
32 logical lanes (R80), bytes of memory (R4). -/

namespace Sys2Proof

/-- A 32-bit register value of one lane. -/
abbrev Word := BitVec 32

/-- A 64-bit value: an instruction word, a clause header or a register pair (R29, R43). -/
abbrev Word64 := BitVec 64

/-- One byte of memory. -/
abbrev Byte := BitVec 8

/-- One bit for each logical lane, lane 0 in bit 0. -/
abbrev Mask := BitVec 32

/-- The 10-bit register field of R42. -/
abbrev Fld := BitVec 10

/-- Data by key: strictly rising keys, no entry equal to what an unlisted key reads as. -/
abbrev Sparse (α : Type) := List (Nat × α)

end Sys2Proof
end

