-- ==== Sys2Proof/Config.lean ====
section
/-! DEFINITION. What the manual leaves open. Every `opaque` constant here is a free value: nothing can be proved of it, so a
claim holds whatever the hardware does. The counter `State.free` (log entry 3) numbers the uses of the first three. -/

namespace Sys2Proof.Config

/-- A free bit: which of two outcomes that the manual allows is taken (log entry 3). -/
opaque freeBit : Nat → Bool

/-- A free natural number. -/
opaque freeNat : Nat → Nat

/-- The nanoseconds that a step takes (log entry 5). -/
opaque elapsed : Nat → Nat

/-- Whether a home slice serves an access to a 64-byte sector without its far-store channel, by the moment and the sector (R89; log entry 76). -/
opaque sliceServes : Nat → Nat → Bool

/-- The section whose stacked SRAM holds a near-store word, by the word's number (R173, R323; log entry 92). -/
opaque nearSection : Nat → Nat

/-- SHA-256 of bytes (R23; log entry 10). -/
opaque sha256 : List Byte → List Byte

/-- SHA-384 of bytes (R330, R332; log entry 10). -/
opaque sha384 : List Byte → List Byte

/-- ECDSA P-384 verification: key, message, signature (R330; log entry 10). -/
opaque ecdsaOk : List Byte → List Byte → List Byte → Bool

/-- LMS verification: key, message, signature (R330; log entry 10). -/
opaque lmsOk : List Byte → List Byte → List Byte → Bool

/-- The attestation public key derived from the fused secret and SHA-384 of M (R332; log entry 10). -/
opaque attKey : List Byte → List Byte

/-- The attestation signature: derived key's SHA-384 of M, message (R332; log entry 10). -/
opaque attSign : List Byte → List Byte → List Byte

/-- What a translator gives (R22): code words; by entry, the word offset of the entry's clause, its granules and the lines of 32 words that a warp spills to
scratchpad; the index of each record's instruction among the words; the registers that virtual vector and uniform registers have. -/
structure Translation where
  words : List Word64
  slots : List (Nat × Nat × Nat)
  places : List Nat
  vregs : List (Nat × Nat)
  uregs : List (Nat × Nat)
  deriving DecidableEq, Repr

/-- The translator (R22, R28; log entry 11): portable section, view words 0 to 11, target stepping, revision. -/
opaque translator : List Byte → List Nat → Nat → Nat → Option Translation

/-- The newest translator revision of the firmware, taken as a byte, and what other revisions it has shipped, so carries (R28). -/
opaque newestRevision : Nat

opaque shippedRevision : Nat → Bool

/-- Where translated code stands in a context's addresses (R28). -/
opaque translatedBase : Nat

end Sys2Proof.Config
end

