-- ==== Sys2Proof/Machine/Sparse.lean ====
section
/-! DEFINITION. Data by key in one canonical form, byte strings in little-endian order (R4), and masks of lanes. -/

namespace Sys2Proof.Machine

/-- The value at key `k`; an unlisted key reads as `d`. -/
def sget {α : Type} (d : α) (k : Nat) : Sparse α → α
  | [] => d
  | (j, v) :: r => if j = k then v else sget d k r

/-- `k` paired with `v`, in its place. -/
def sins {α : Type} (k : Nat) (v : α) : Sparse α → Sparse α
  | [] => [(k, v)]
  | (j, w) :: r => if k < j then (k, v) :: (j, w) :: r else if k = j then (k, v) :: r else (j, w) :: sins k v r

/-- Every entry of key `k` taken out. -/
def sdel {α : Type} (k : Nat) : Sparse α → Sparse α
  | [] => []
  | (j, w) :: r => if j = k then sdel k r else (j, w) :: sdel k r

/-- `v` written at key `k`; writing the default takes the entry out. -/
def sput {α : Type} [DecidableEq α] (d : α) (k : Nat) (v : α) (m : Sparse α) : Sparse α :=
  if v = d then sdel k m else sins k v m

/-- `f` applied to the value at key `k`. -/
def supd {α : Type} [DecidableEq α] (d : α) (k : Nat) (f : α → α) (m : Sparse α) : Sparse α := sput d k (f (sget d k m)) m

/-- `f` applied to every listed value. -/
def smap {α : Type} [DecidableEq α] (d : α) (f : α → α) : Sparse α → Sparse α
  | [] => []
  | (j, w) :: r => if f w = d then smap d f r else (j, f w) :: smap d f r

/-- Keys from `lo` strictly rising, no entry equal to `d`. -/
def scanonFrom {α : Type} [DecidableEq α] (d : α) : Nat → Sparse α → Bool
  | _, [] => true
  | lo, (j, v) :: r => decide (lo ≤ j) && decide (v ≠ d) && scanonFrom d (j + 1) r

/-- The canonical form. -/
def scanon {α : Type} [DecidableEq α] (d : α) (m : Sparse α) : Bool := scanonFrom d 0 m

/-! ## Byte strings -/

/-- `n` bytes of a number, least significant first. -/
def toBytes : Nat → Nat → List Byte
  | 0, _ => []
  | n + 1, x => BitVec.ofNat 8 x :: toBytes n (x / 256)

/-- The number that bytes hold, least significant first. -/
def ofBytes : List Byte → Nat
  | [] => 0
  | b :: r => b.toNat + 256 * ofBytes r

/-- `n` bytes from address `a` of a memory none of whose entries lies below `a`. -/
def readRun : Nat → Nat → Sparse Byte → List Byte
  | 0, _, _ => []
  | n + 1, a, [] => 0 :: readRun n (a + 1) []
  | n + 1, a, (j, v) :: r => if j = a then v :: readRun n (a + 1) r else 0 :: readRun n (a + 1) ((j, v) :: r)

/-- The entries of a memory at or above an address. -/
def cellsFrom (a : Nat) : Sparse Byte → Sparse Byte
  | [] => []
  | (j, v) :: r => if j < a then cellsFrom a r else (j, v) :: r

/-- `n` bytes of a memory from address `a`. -/
def readCells (m : Sparse Byte) (a n : Nat) : List Byte := readRun n a (cellsFrom a m)

/-- Bytes from address `a` as entries of a memory. -/
def freshCells (a : Nat) : List Byte → Sparse Byte
  | [] => []
  | b :: r => if b = 0 then freshCells (a + 1) r else (a, b) :: freshCells (a + 1) r

/-- Bytes written to a memory from address `a`: what lies below stays, then the bytes, then what lies above. -/
def writeCells (a : Nat) (b : List Byte) : Sparse Byte → Sparse Byte
  | [] => freshCells a b
  | (j, v) :: r => if j < a then (j, v) :: writeCells a b r else freshCells a b ++ cellsFrom (a + b.length) ((j, v) :: r)

/-- The number in bytes `off` to `off + n - 1` of a byte string. -/
def field (l : List Byte) (off n : Nat) : Nat := ofBytes ((l.drop off).take n)

/-- Bytes `v` put at offset `off` of a byte string that reaches that far. -/
def patch (l : List Byte) (off : Nat) (v : List Byte) : List Byte := l.take off ++ v ++ l.drop (off + v.length)

/-- All of a byte string is zero. -/
def allZero (l : List Byte) : Bool := l.all fun b => b = 0

/-! ## Lane masks -/

/-- The logical lanes, ascending (R5, R6). -/
def lanes32 : List Nat :=
  [0, 1, 2, 3, 4, 5, 6, 7, 8, 9, 10, 11, 12, 13, 14, 15, 16, 17, 18, 19, 20, 21, 22, 23, 24, 25, 26, 27, 28, 29, 30, 31]

/-- The lanes for which `f` holds. -/
def maskOf (f : Nat → Bool) : Mask := lanes32.foldl (fun m l => if f l then m ||| (1#32 <<< l) else m) 0#32

/-- The lanes of a mask, ascending. -/
def lanesOf (m : Mask) : List Nat := lanes32.filter fun l => m.getLsbD l

/-- The lowest lane of a mask. -/
def lowestLane (m : Mask) : Nat := (lanesOf m).headD 0

end Sys2Proof.Machine
end

