-- ==== Sys2Proof/Syntax.lean ====
section
/-! DEFINITION. What the machine can do in one step, as syntax: ONE inductive `Instr` with a constructor for each row of
spec/opcode_table.json. Rows 0 to 129 are the instructions of the opcode map (R55), decoded from 64-bit words; rows 130 to 242
are the device's own operations and events (spec/95), which no word encodes: each carries what the outside world supplies. -/

namespace Sys2Proof

/-- The guard of R36 and R46: none, a predicate, or an inverted predicate. -/
inductive Guard where
  | always
  | onTrue (p : BitVec 4)
  | onFalse (p : BitVec 4)
  deriving DecidableEq, Repr

/-- The common fields of R36 but for the opcode. -/
structure Common where
  stall : BitVec 4
  guard : Guard
  deriving DecidableEq, Repr

/-- A permute target of R47: bit [5] of format R. -/
inductive Target where
  | srcB
  | srcA
  deriving DecidableEq, Repr

/-- The permute of R47 with its amount and target. -/
inductive Perm where
  | none
  | rot (n : BitVec 5) (t : Target)
  | bc (n : BitVec 5) (t : Target)
  | fly (n : BitVec 5) (t : Target)
  | mir (n : BitVec 5) (t : Target)
  deriving DecidableEq, Repr

/-- Format R with both sources (R37). -/
structure R3 where
  d : Fld
  a : Fld
  b : Fld
  p : Perm
  deriving DecidableEq, Repr

/-- Format R with srcB zero (R37, R40). -/
structure R2 where
  d : Fld
  a : Fld
  p : Perm
  deriving DecidableEq, Repr

/-- Format M without its modifier (R37). -/
structure MOp where
  data : Fld
  base : Fld
  off : BitVec 16
  size : BitVec 3
  deriving DecidableEq, Repr

/-- IADD and ISUB forms (R140). -/
inductive SatMode where
  | wrap
  | satS
  | satZ
  deriving DecidableEq, Repr

/-- Signed (.S) or unsigned (.Z) reading of an integer (R140). -/
inductive Sgn where
  | s
  | z
  deriving DecidableEq, Repr

/-- Integer comparison codes (R140). -/
inductive ICmp where
  | eq
  | ne
  | lt
  | le
  | gt
  | ge
  deriving DecidableEq, Repr

/-- Float comparison codes (R145, R148). -/
inductive FCmp where
  | eq
  | ne
  | lt
  | le
  | gt
  | ge
  | num
  | nan
  deriving DecidableEq, Repr

/-- Rounding modes (R124). -/
inductive RM where
  | rne
  | rz
  | rdn
  | rup
  deriving DecidableEq, Repr

/-- The formats FCLASS reads (R145). -/
inductive ClassFmt where
  | f32
  | f16
  | bf16
  deriving DecidableEq, Repr

/-- The conversions of FCVT (R150). -/
inductive Cvt where
  | f32f16
  | f32bf16
  | f16f32
  | bf16f32
  | f16bf16
  | bf16f16
  | f32e4m3
  | f32e5m2
  deriving DecidableEq, Repr

/-- FSIGN operations (R151). -/
inductive SignOp where
  | neg
  | abs
  | cpy
  | xor
  deriving DecidableEq, Repr

/-- Packed half formats (R145). -/
inductive HFmt where
  | f16
  | bf16
  deriving DecidableEq, Repr

/-- Narrow element formats (R153). -/
inductive NFmt where
  | e2m1
  | e4m3
  | e5m2
  deriving DecidableEq, Repr

/-- QXTRA forms (R153, R157). -/
inductive XOp where
  | scl
  | xval
  | setx
  deriving DecidableEq, Repr

/-- MOVXW forms (R143). -/
inductive Wide where
  | s64
  | z64
  | hi
  deriving DecidableEq, Repr

/-- SHFL forms (R159). -/
inductive Shfl where
  | idx
  | up
  | down
  | xor
  deriving DecidableEq, Repr

/-- VOTE forms (R160). -/
inductive Vote where
  | any
  | all
  | bal
  deriving DecidableEq, Repr

/-- VRED and VSCAN operations (R158). -/
inductive RedOp where
  | addF32
  | minF32
  | maxF32
  | addS32
  | minS32
  | maxS32
  | minZ32
  | maxZ32
  deriving DecidableEq, Repr

/-- The cache field of LD and ST (R182, R184, R186). -/
inductive CacheHint where
  | dflt
  | cg
  | ef
  deriving DecidableEq, Repr

/-- Atomic operations (R187). -/
inductive AtomOp where
  | add
  | minS
  | maxS
  | minZ
  | maxZ
  | and
  | or
  | xor
  | exch
  | cas
  | addF32
  | inc
  deriving DecidableEq, Repr

/-- FENCE kinds (R259). -/
inductive FenceKind where
  | acq
  | rel
  | ar
  deriving DecidableEq, Repr

/-- Scopes (R250). -/
inductive Scope where
  | blk
  | cl
  | dev
  | sys
  deriving DecidableEq, Repr

/-- NOTIFY's release (R270). -/
inductive NotifyRel where
  | none
  | dev
  | sys
  deriving DecidableEq, Repr

/-- The kind field of MMA and MMALR (R224); for INT8 the saturating mode and which operands are unsigned. -/
inductive MMKind where
  | bf16
  | f16
  | f8
  | e2m1
  | i8 (sat ua ub : Bool)
  deriving DecidableEq, Repr

/-- The state kinds HGET and HSET reach (R304). -/
inductive HKind where
  | vreg
  | pred
  | fpfl
  | fpte
  | pos
  deriving DecidableEq, Repr

/-- Where a single-bit error was corrected (R321, R324): a near-store word, with whether its scrub write succeeded; a far-store sector; an L2 slice. -/
inductive CorrSite where
  | near (die bit pa cluster core : Nat) (scrubbed : Bool)
  | far (pa : Nat)
  | slice (slice : Nat)
  deriving DecidableEq, Repr

/-- Where an uncorrectable error strikes (R319): a line of device memory met by a later reader, the writeback of a dirty L2 line,
a tag array of an L2 slice (R324), a word of a block's scratchpad met by a later reader, or other state of a warp or block, whose context is then
removed. -/
inductive ErrSite where
  | line (pa : Nat)
  | writeback (pa : Nat)
  | sliceTag (slice : Nat)
  | scratch (blk addr : Nat)
  | ctxState (ctx : Nat) (core : Nat) (accUnit : Option Nat)
  deriving DecidableEq, Repr

/-- A unit the scan of a core found failing (R313, R324). -/
inductive UnitFail where
  | lane (quad lane : Nat)
  | granule (quad gran : Nat)
  | bank (n : Nat)
  | column (n : Nat)
  | accUnit (n : Nat)
  | array (n : Nat)
  deriving DecidableEq, Repr

/-- One row of spec/opcode_table.json. Event parameters named `n` number an item in flight, in the order the state lists it. -/
inductive Instr where
  -- V integer (R140)
  | iadd (c : Common) (m : SatMode) (r : R3)
  | isub (c : Common) (m : SatMode) (r : R3)
  | imul (c : Common) (r : R3)
  | imulh (c : Common) (g : Sgn) (r : R3)
  | imad (c : Common) (r : R3)
  | imadw (c : Common) (g : Sgn) (r : R3)
  | iadd64 (c : Common) (r : R3)
  | imin (c : Common) (g : Sgn) (r : R3)
  | imax (c : Common) (g : Sgn) (r : R3)
  | iabs (c : Common) (sat : Bool) (r : R2)
  | ishl (c : Common) (r : R3)
  | ishr (c : Common) (r : R3)
  | lshr (c : Common) (r : R3)
  | rot (c : Common) (right : Bool) (r : R3)
  | and (c : Common) (r : R3)
  | or (c : Common) (r : R3)
  | xor (c : Common) (r : R3)
  | andn (c : Common) (r : R3)
  | popc (c : Common) (r : R2)
  | clz (c : Common) (r : R2)
  | brev (c : Common) (r : R2)
  | bfx (c : Common) (g : Sgn) (r : R3)
  | bfi (c : Common) (r : R3)
  | iset (c : Common) (cc : ICmp) (g : Sgn) (r : R3)
  | sel (c : Common) (inv : Bool) (p : BitVec 4) (r : R3)
  | mov (c : Common) (wide : Bool) (r : R2)
  | movi (c : Common) (d : Fld) (imm : Word)
  | iaddi (c : Common) (d a : Fld) (imm : BitVec 19)
  | movx (c : Common) (d a b : Fld)
  | movxSt (c : Common) (d a b : Fld)
  | movxw (c : Common) (k : Wide) (d : Fld) (imm : Word)
  | lea (c : Common) (g : Sgn) (sh : BitVec 3) (r : R3)
  | idot4 (c : Common) (sat ua ub : Bool) (r : R3)
  -- V float (R145)
  | fadd (c : Common) (m : RM) (r : R3)
  | fsub (c : Common) (m : RM) (r : R3)
  | fmul (c : Common) (m : RM) (r : R3)
  | ffma (c : Common) (m : RM) (r : R3)
  | fmin (c : Common) (r : R3)
  | fmax (c : Common) (r : R3)
  | fset (c : Common) (cc : FCmp) (r : R3)
  | fclass (c : Common) (f : ClassFmt) (r : R2)
  | frcp (c : Common) (m : RM) (r : R2)
  | frsq (c : Common) (m : RM) (r : R2)
  | fsqrt (c : Common) (m : RM) (r : R2)
  | fexp2 (c : Common) (m : RM) (r : R2)
  | flog2 (c : Common) (m : RM) (r : R2)
  | fdiv (c : Common) (m : RM) (r : R3)
  | frnd (c : Common) (m : RM) (r : R2)
  | fcvt (c : Common) (k : Cvt) (m : RM) (r : R2)
  | ftoi (c : Common) (g : Sgn) (m : RM) (r : R2)
  | itof (c : Common) (g : Sgn) (m : RM) (r : R2)
  | fsign (c : Common) (op : SignOp) (h2 : Bool) (r : R3)
  | hfma2 (c : Common) (f : HFmt) (m : RM) (r : R3)
  | hadd2 (c : Common) (f : HFmt) (m : RM) (r : R3)
  | hmul2 (c : Common) (f : HFmt) (m : RM) (r : R3)
  -- V narrow (R153)
  | qdec (c : Common) (f : NFmt) (hi : Bool) (r : R3)
  | qenc (c : Common) (f : NFmt) (hi sat rz : Bool) (r : R3)
  | qscale (c : Common) (f : NFmt) (hi xv : Bool) (r : R2)
  | qxtra (c : Common) (op : XOp) (hi : Bool) (r : R3)
  -- V cross-lane and predicate (R158)
  | shfl (c : Common) (k : Shfl) (wide : Bool) (r : R3)
  | vote (c : Common) (k : Vote) (neg : Bool) (d q : Fld)
  | vred (c : Common) (op : RedOp) (m : RM) (r : R2)
  | vscan (c : Common) (op : RedOp) (m : RM) (r : R2)
  | plop (c : Common) (tt : BitVec 4) (d a b : Fld)
  | pmov (c : Common) (toPred : Bool) (r : R2)
  | umov (c : Common) (first wide : Bool) (r : R3)
  -- V control (R109)
  | bra (c : Common) (off : BitVec 32)
  | brx (c : Common) (a : Fld) (p : Perm)
  | call (c : Common) (off : BitVec 32) (link : Fld)
  | ret (c : Common) (a : Fld) (p : Perm)
  | exit (c : Common)
  | cdecl (c : Common) (d a : Fld) (p : Perm)
  | cdeclIss (c : Common) (d : Fld)
  | csign (c : Common) (a : Fld)
  | csignNw (c : Common) (a : Fld)
  | yield (c : Common)
  | nop (c : Common)
  | brk (c : Common) (code : BitVec 19)
  | trap (c : Common) (code : BitVec 19)
  -- M (R182, R259, R260, R263, R268, R270)
  | ld (c : Common) (sx : Bool) (h : CacheHint) (m : MOp)
  | st (c : Common) (h : CacheHint) (m : MOp)
  | ldro (c : Common) (sx : Bool) (m : MOp)
  | lds (c : Common) (sx : Bool) (m : MOp)
  | sts (c : Common) (m : MOp)
  | atom (c : Common) (op : AtomOp) (m : MOp)
  | atoms (c : Common) (op : AtomOp) (m : MOp)
  | redo (c : Common) (op : AtomOp) (m : MOp)
  | fence (c : Common) (k : FenceKind) (sc : Scope) (d : Fld)
  | roinv (c : Common)
  | pref (c : Common) (l1 : Bool) (m : MOp)
  | bar (c : Common) (arv : Bool) (n : BitVec 4) (a : Fld) (p : Perm)
  | cbar (c : Common) (arv : Bool) (a : Fld) (p : Perm)
  | qpush (c : Common) (rlx : Bool) (r : R3)
  | qpop (c : Common) (w rlx : Bool) (r : R3)
  | notify (c : Common) (k : NotifyRel) (a b : Fld) (p : Perm)
  | gtrig (c : Common) (a : Fld) (p : Perm)
  | zline (c : Common) (m : MOp)
  -- T (R214, R239) and copies (R195)
  | tdef (c : Common) (t : BitVec 10) (aux : Fld)
  | tdefs (c : Common) (t : BitVec 10) (aux : Fld)
  | tdefa (c : Common) (d aux : Fld)
  | tkill (c : Common) (t : BitVec 10)
  | tld (c : Common) (wide : Bool) (t : BitVec 10) (d aux : Fld)
  | tst (c : Common) (k : BitVec 3) (t : BitVec 10) (aux : Fld)
  | trow (c : Common) (t : BitVec 10) (d aux : Fld)
  | rcfence (c : Common) (dev : Bool)
  | mma (c : Common) (k : MMKind) (acc : BitVec 6) (ta tb : BitVec 10) (cv : BitVec 3)
  | mmalr (c : Common) (k : MMKind) (acc : BitVec 6) (ta tb : BitVec 10) (aux : Fld) (cv : BitVec 3)
  | adapt (c : Common) (acc sacc : BitVec 6) (cb : BitVec 10) (cv : BitVec 3)
  | aclr (c : Common) (acc : BitVec 6)
  | arow (c : Common) (acc : BitVec 6) (d aux : Fld)
  | arowSt (c : Common) (acc : BitVec 6) (d aux : Fld)
  | aflag (c : Common) (keep : Bool) (acc : BitVec 6) (d : Fld)
  | adpfD (c : Common) (n : BitVec 10) (aux : Fld)
  | adpfU (c : Common) (n : BitVec 10) (aux : Fld)
  | adpfInv (c : Common)
  | adpfInvd (c : Common)
  | cpy (c : Common) (sc : Bool) (k : BitVec 3) (b : BitVec 6)
  | cpybt (c : Common) (sc : Bool) (k : BitVec 3) (b : BitVec 6)
  | tkwait (c : Common) (k : BitVec 3)
  -- S (R299)
  | featq (c : Common) (d : Fld) (w : BitVec 4)
  | livept (c : Common) (gm : BitVec 10) (b0 : BitVec 11) (l0 : BitVec 6) (b1 : BitVec 11) (l1 : BitVec 6)
  | sysr (c : Common) (d : Fld) (n : BitVec 12)
  | sysw (c : Common) (a : Fld) (n : BitVec 12)
  | hretRetry (c : Common)
  | hretSkip (c : Common)
  | hretEsc (c : Common)
  | hget (c : Common) (k : HKind) (d x : Fld)
  | hset (c : Common) (k : HKind) (d x : Fld)
  | clock (c : Common) (nsec : Bool) (d : Fld)
  | pmc (c : Common) (d : Fld) (e : BitVec 6)
  -- events of the cores (spec/95). `q` numbers a quadrant: 4 * core + quadrant, core = 8 * cluster + core in cluster
  | issueSlot (q : Nat)
  | instructionFetchFill (n : Nat)
  | handlerEntry (q : Nat)
  | loadReturn (n : Nat)
  | deferredDataAbort (n : Nat)
  | storeAck (n : Nat)
  | storeFail (n : Nat)
  | homeSliceAccess (n : Nat)
  | translationWalkEnd (n : Nat)
  | pageRequestRingRoom (g : Nat)
  | pageServiceBoundExpiry (n : Nat)
  | pageResponseWrite (g : Nat) (v : Word64)
  | flushnWrite (g : Nat) (v : Word)
  | flushComplete (g : Nat)
  | copyEngineStart (n : Nat)
  | copyLand (n : Nat)
  | copyFail (n : Nat)
  | tileDefinitionFetch (n : Nat)
  | tileDefinitionLands (n : Nat)
  | tileReaderDone (n : Nat)
  | matrixEngineEntry (n : Nat)
  | matrixCommit (n : Nat)
  | adapterFillStart (n : Nat)
  | adapterFillLands (n : Nat)
  | adapterFillFail (n : Nat)
  | adapterRowReplay (n row : Nat)
  | laneCheckFail (q lane : Nat)
  | concordanceRewriteDone (q : Nat)
  | columnCheckFail (core col : Nat)
  | columnRewriteDone (core : Nat)
  -- placement
  | schedulerPass
  | headHoldTimeout (n : Nat)
  | bandwidthWindowEnd
  | warpEnd (n : Nat)
  | blockEnd (n : Nat)
  | redoEntryArrival (n : Nat)
  | redoEntryResend (n : Nat)
  | channelDepartureStart (ch : Nat)
  | evacuatorLineStep
  | sliceDeparture (sl : Nat)
  -- the front end. `q` numbers a host queue, `g` a graph, `n` a command or item in flight
  | runCommand (q : Nat)
  | translationComplete (n : Nat)
  | runComplete (n : Nat)
  | copyCommand (q : Nat)
  | copyCommandComplete (n : Nat)
  | graphCommand (q : Nat)
  | signalCommand (q : Nat)
  | waitCommand (q : Nat)
  | waitPoll (n : Nat)
  | waitTimeout (n : Nat)
  | loadgraphCommand (q : Nat)
  | loadgraphComplete (n : Nat)
  | graphRunStart (g : Nat)
  | graphNodeRun (g : Nat)
  | graphNodeCopy (g : Nat)
  | graphNodeSignal (g : Nat)
  | graphNodeWait (g : Nat)
  | graphNodeIf (g : Nat)
  | graphNodeLoop (g : Nat)
  | graphNodeTrigger (g : Nat)
  | eventRingRoom (q : Nat)
  | tagMessageArrival (t : Nat) (payload : List Byte)
  | tagLaunch (t : Nat)
  | queueTailWrite (q : Nat) (v : Word)
  | queueEnable (q : Nat)
  | queueAck (q : Nat) (v : Word)
  | errsumClear (q : Nat) (v : Word64)
  | graphTriggerWrite (n : Nat) (v : Word64)
  | graphTriggerReset (n : Nat) (v : Word64)
  | hostInterruptWrite (n : Nat) (v : Word64)
  | hostInterruptRead (n : Nat)
  | hostInterruptTimer (n : Nat)
  | queueWakeWrite (n : Nat) (v : Word64)
  | queueWakeRead (n : Nat)
  | notifyLatchWrite (n : Nat) (v : Word64)
  | notifyWakeMerge
  | notifyClassEntryWrite (n off size : Nat) (v : Word64)
  | workQueueEnable (w : Nat) (v : Word)
  | groupEnable (g : Nat)
  | groupDisable (g : Nat)
  -- pre-emption and removal. `c` is a context id
  | pctlGo (g : Nat)
  | pctlGoMigrate (g : Nat)
  | pctlRemove (g : Nat)
  | preemptStop (c : Nat)
  | preemptBoundExpiry (c : Nat)
  | saveEngine (c : Nat)
  | removalDrainTimeout (c : Nat)
  -- inventory, errors, power, boot
  | inventoryPassStart (core : Nat)
  | inventoryDrainTimeout (core : Nat)
  | inventoryScanEnd (core : Nat) (fails : List UnitFail)
  | uncorrectableError (site : ErrSite)
  | correctedError (site : CorrSite)
  | verticalParityFail (cluster grp pa beat : Nat)
  | verticalBeatRetry (cluster : Nat) (passed : Bool)
  | wireTestEnd (cluster : Nat) (wire : Option Nat) (stuck : Option Bool)
  | ageingMonitorRead (cluster driftPermille : Nat)
  | powerSample (avg50us avg1ms tempC : Nat)
  | alarmClockStep
  | powerUpReset
  | bootgo (v : Word)
  | attgo (v : Word)
  | invctlWrite (v : Word)
  | pwrlimWrite (v : Word)
  | registerWrite (bar off size : Nat) (v : Word64)
  | hostLinkDown
  | remoteDeviceReset (node : Nat)
  | bootVerificationEnd
  | retirementRecordApplied
  | attestationReportComplete
  | notifyApertureGating
  | clockGlideEnd (cluster : Nat)
  | powerLoss
  | fabricLinkDown (node : Nat)
  deriving DecidableEq, Repr

end Sys2Proof
end

