-- ==== Sys2Proof/WellFormed.lean ====
section
/-! DEFINITION. Which instructions an encoding can stand for: the conditions on fields and modifiers whose breach is
illegal-instruction under R40 and R47 and the table of each instruction. Conditions on registers (illegal-operand, R56 cause 4)
are no part of it: they depend on the warp and its block. -/

namespace Sys2Proof

/-- R47: a permute must target a register source the instruction reads (`aOk`, `bOk`), and a mirror amount is 1 to 5. -/
def Perm.wf (aOk bOk : Bool) : Perm → Bool
  | .none => true
  | .rot _ t | .bc _ t | .fly _ t => match t with | .srcA => aOk | .srcB => bOk
  | .mir n t => (match t with | .srcA => aOk | .srcB => bOk) && decide (1 ≤ n.toNat) && decide (n.toNat ≤ 5)

def R3.wf (r : R3) : Bool := r.p.wf true true

def R2.wf (r : R2) : Bool := r.p.wf true false

/-- R182: a load's size is 000 to 100, and sign extension belongs to sizes 000 and 001. -/
def loadWf (sx : Bool) (m : MOp) : Bool := decide (m.size.toNat ≤ 4) && (!sx || decide (m.size.toNat ≤ 1))

/-- R187: atomics are of 32 or 64 bits, .ADD.F32 and .INC of 32 only. -/
def atomWf (op : AtomOp) (m : MOp) : Bool :=
  decide (m.size = 2) || (decide (m.size = 3) && match op with | .addF32 | .inc => false | _ => true)

/-- R263: REDO takes the operations 0000 to 1000 and 1010. -/
def redoOp : AtomOp → Bool
  | .cas | .inc => false
  | _ => true

/-- R158: only .ADD.F32 takes a rounding mode. -/
def redWf (op : RedOp) (m : RM) : Bool := decide (op = .addF32) || decide (m = .rne)

/-- R150: the exact conversions must name RNE. -/
def cvtWf : Cvt → RM → Bool
  | .f16f32, _ | .bf16f32, _ | .f16bf16, _ | .bf16f16, _ => true
  | _, m => decide (m = .rne)

/-- R239: MMALR takes kinds 000 to 011. -/
def MMKind.isFloat : MMKind → Bool
  | .i8 _ _ _ => false
  | _ => true

/-- R301: a range of length 0 has base 0. -/
def rangeWf (b : BitVec 11) (l : BitVec 6) : Bool := decide (l ≠ 0) || decide (b = 0)

/-- The form an encoding can have (R40, R47). Events have no encoding and are well formed. -/
def Instr.wf : Instr → Bool
  | .iadd _ _ r | .isub _ _ r | .imul _ r | .imulh _ _ r | .imad _ r | .imadw _ _ r | .iadd64 _ r | .imin _ _ r | .imax _ _ r
  | .ishl _ r | .ishr _ r | .lshr _ r | .rot _ _ r | .and _ r | .or _ r | .xor _ r | .andn _ r | .bfx _ _ r | .bfi _ r
  | .iset _ _ _ r | .sel _ _ _ r | .lea _ _ _ r | .idot4 _ _ _ _ r
  | .fadd _ _ r | .fsub _ _ r | .fmul _ _ r | .ffma _ _ r | .fmin _ r | .fmax _ r | .fset _ _ r | .fdiv _ _ r
  | .hfma2 _ _ _ r | .hadd2 _ _ _ r | .hmul2 _ _ _ r | .qdec _ _ _ r | .qpush _ _ r => r.wf
  | .iabs _ _ r | .popc _ r | .clz _ r | .brev _ r | .mov _ _ r | .fclass _ _ r | .frcp _ _ r | .frsq _ _ r | .fsqrt _ _ r
  | .fexp2 _ _ r | .flog2 _ _ r | .frnd _ _ r | .ftoi _ _ _ r | .itof _ _ _ r => r.wf
  | .fcvt _ k m r => r.wf && cvtWf k m
  | .fsign _ op _ r => match op with
    | .neg | .abs => decide (r.b = 0) && r.p.wf true false
    | .cpy | .xor => r.wf
  | .qenc _ f _ sat _ r => r.wf && (!sat || decide (f ≠ .e2m1))
  | .qscale _ f _ xv r => r.wf && (!xv || decide (f = .e2m1))
  | .qxtra _ op _ r => match op with
    | .setx => r.wf
    | .scl | .xval => decide (r.b = 0) && r.p.wf true false
  | .shfl _ _ _ r => r.p.wf false true
  | .vred _ op m r | .vscan _ op m r => r.wf && redWf op m
  | .pmov _ toPred r => if toPred then decide (r.d = 0) && r.wf else decide (r.a = 0) && decide (r.p = .none)
  | .umov _ first _ r => if first then decide (r.b = 0) && r.p.wf true false else r.wf
  | .brx _ _ p | .ret _ _ p | .cdecl _ _ _ p | .bar _ _ _ _ p | .cbar _ _ _ p | .gtrig _ _ p => p.wf true false
  | .ld _ sx _ m | .ldro _ sx m | .lds _ sx m => loadWf sx m
  | .st _ _ m | .sts _ m => decide (m.size.toNat ≤ 4)
  | .atom _ op m | .atoms _ op m => atomWf op m
  | .redo _ op m => atomWf op m && redoOp op
  | .pref _ _ m => decide (m.data = 0) && decide (m.size.toNat ≤ 2)
  | .zline _ m => decide (m.data = 0) && decide (m.size = 0)
  | .qpop _ _ _ r => r.p.wf true false
  | .notify _ _ _ _ p => p.wf true true
  | .mmalr _ k _ _ _ _ _ => k.isFloat
  | .livept _ _ b0 l0 b1 l1 => rangeWf b0 l0 && rangeWf b1 l1
  | .sysr _ _ n | .sysw _ _ n => decide (n.toNat ≤ 8)
  | .hget _ k _ x | .hset _ k _ x => decide (k = .vreg) || decide (x = 0)
  | .pmc _ _ e => decide (e.toNat < 12)
  | _ => true

end Sys2Proof
end

