-- ==== Sys2Proof/Decode.lean ====
section
/-! DEFINITION. The decoder of 64-bit instruction words and of clause headers (R30, R36, R37, R47, R55 and each chapter's
encoding table), total on every word, and after it the encoder, written from the same tables. -/

namespace Sys2Proof

/-- Why a word is no instruction: R56 cause 2 (malformed guard fields, R46) or cause 3 (R40, R47, R54). -/
inductive DecErr where
  | guard
  | instr
  deriving DecidableEq, Repr

/-- The format fields, bits [43:0] (R36). -/
abbrev Body := BitVec 44

/-- Bits [lo + n - 1 : lo] of the format fields. -/
def Body.bits (b : Body) (lo n : Nat) : BitVec n := b.extractLsb' lo n

/-- The opcode, bits [63:54] (R36). -/
def opcodeOf (w : Word64) : BitVec 10 := w.extractLsb' 54 10

/-- R36, R46: the guard fields; with guard enable 0 bits [48:44] must be zero. -/
def decGuard (w : Word64) : Option Guard :=
  let s := w.extractLsb' 48 1
  let p := w.extractLsb' 44 4
  if w.extractLsb' 49 1 = 1#1 then some (if s = 1#1 then .onFalse p else .onTrue p)
  else if s = 0#1 then if p = 0#4 then some .always else none else none

/-- R47: pattern, amount and target, for an instruction that may have srcA (`aOk`) or srcB (`bOk`) permuted. -/
def decPerm (b : Body) (aOk bOk : Bool) : Option Perm :=
  let n := b.bits 6 5
  let t := if b.bits 5 1 = 1#1 then Target.srcA else Target.srcB
  let ok (p : Perm) : Option Perm := if p.wf aOk bOk then some p else none
  match (b.bits 11 3).toNat with
  | 0 => if n = 0#5 then if t = .srcB then some .none else none else none
  | 1 => ok (.rot n t)
  | 2 => ok (.bc n t)
  | 3 => ok (.fly n t)
  | 4 => ok (.mir n t)
  | _ => none

/-- Format R with both sources. -/
def decR3 (b : Body) (aOk bOk : Bool) : Option R3 :=
  (decPerm b aOk bOk).map fun p => { d := b.bits 34 10, a := b.bits 24 10, b := b.bits 14 10, p := p }

/-- Format R with srcB zero. -/
def decR2 (b : Body) : Option R2 :=
  if b.bits 14 10 = 0#10 then (decPerm b true false).map fun p => { d := b.bits 34 10, a := b.bits 24 10, p := p } else none

/-- Format R with srcB zero, as an `R3`. -/
def decR3a (b : Body) : Option R3 := if b.bits 14 10 = 0#10 then decR3 b true false else none

/-- A check of a field that must hold (R40). -/
def need (c : Bool) : Option Unit := if c then some () else none

/-- The modifier bits [4:0] (R37). -/
def Body.md (b : Body) : BitVec 5 := b.bits 0 5

def decRM (m : BitVec 2) : RM :=
  match m.toNat with | 0 => .rne | 1 => .rz | 2 => .rdn | _ => .rup

def encRM : RM → BitVec 2
  | .rne => 0 | .rz => 1 | .rdn => 2 | .rup => 3

/-- R124: a rounding field in [1:0] with bits [4:2] zero. -/
def modRM (b : Body) : Option RM := if b.bits 2 3 = 0#3 then some (decRM (b.bits 0 2)) else none

def modSgn (b : Body) : Option Sgn := match b.md.toNat with | 0 => some .s | 1 => some .z | _ => none

def modSat (b : Body) : Option SatMode :=
  match b.md.toNat with | 0 => some .wrap | 1 => some .satS | 2 => some .satZ | _ => none

def modBool (b : Body) : Option Bool := match b.md.toNat with | 0 => some false | 1 => some true | _ => none

def bit (b : Body) (n : Nat) : Bool := b.bits n 1 = 1#1

def encBool (x : Bool) : BitVec 1 := if x then 1#1 else 0#1

def decICmp (m : BitVec 3) : Option ICmp :=
  match m.toNat with
  | 0 => some .eq | 1 => some .ne | 2 => some .lt | 3 => some .le | 4 => some .gt | 5 => some .ge | _ => none

def encICmp : ICmp → BitVec 3
  | .eq => 0 | .ne => 1 | .lt => 2 | .le => 3 | .gt => 4 | .ge => 5

def decFCmp (m : BitVec 3) : FCmp :=
  match m.toNat with
  | 0 => .eq | 1 => .ne | 2 => .lt | 3 => .le | 4 => .gt | 5 => .ge | 6 => .num | _ => .nan

def encFCmp : FCmp → BitVec 3
  | .eq => 0 | .ne => 1 | .lt => 2 | .le => 3 | .gt => 4 | .ge => 5 | .num => 6 | .nan => 7

def decClassFmt (m : BitVec 5) : Option ClassFmt :=
  match m.toNat with | 0 => some .f32 | 1 => some .f16 | 2 => some .bf16 | _ => none

def encClassFmt : ClassFmt → BitVec 5
  | .f32 => 0 | .f16 => 1 | .bf16 => 2

def decCvt (m : BitVec 3) : Cvt :=
  match m.toNat with
  | 0 => .f32f16 | 1 => .f32bf16 | 2 => .f16f32 | 3 => .bf16f32 | 4 => .f16bf16 | 5 => .bf16f16 | 6 => .f32e4m3 | _ => .f32e5m2

def encCvt : Cvt → BitVec 3
  | .f32f16 => 0 | .f32bf16 => 1 | .f16f32 => 2 | .bf16f32 => 3 | .f16bf16 => 4 | .bf16f16 => 5 | .f32e4m3 => 6 | .f32e5m2 => 7

def decSgn (x : BitVec 1) : Sgn := if x = 1#1 then .z else .s

def encSgn : Sgn → BitVec 1
  | .s => 0 | .z => 1

def decSignOp (m : BitVec 2) : SignOp :=
  match m.toNat with | 0 => .neg | 1 => .abs | 2 => .cpy | _ => .xor

def encSignOp : SignOp → BitVec 2
  | .neg => 0 | .abs => 1 | .cpy => 2 | .xor => 3

def decHFmt (x : BitVec 1) : HFmt := if x = 1#1 then .bf16 else .f16

def encHFmt : HFmt → BitVec 1
  | .f16 => 0 | .bf16 => 1

def decNFmt (m : BitVec 2) : Option NFmt :=
  match m.toNat with | 0 => some .e2m1 | 1 => some .e4m3 | 2 => some .e5m2 | _ => none

def encNFmt : NFmt → BitVec 2
  | .e2m1 => 0 | .e4m3 => 1 | .e5m2 => 2

def decXOp (m : BitVec 2) : Option XOp :=
  match m.toNat with | 0 => some .scl | 1 => some .xval | 2 => some .setx | _ => none

def encXOp : XOp → BitVec 2
  | .scl => 0 | .xval => 1 | .setx => 2

def decWide (m : BitVec 2) : Option Wide :=
  match m.toNat with | 0 => some .s64 | 1 => some .z64 | 2 => some .hi | _ => none

def encWide : Wide → BitVec 2
  | .s64 => 0 | .z64 => 1 | .hi => 2

def decShfl (m : BitVec 2) : Shfl :=
  match m.toNat with | 0 => .idx | 1 => .up | 2 => .down | _ => .xor

def encShfl : Shfl → BitVec 2
  | .idx => 0 | .up => 1 | .down => 2 | .xor => 3

def decVote (m : BitVec 2) : Option Vote :=
  match m.toNat with | 0 => some .any | 1 => some .all | 2 => some .bal | _ => none

def encVote : Vote → BitVec 2
  | .any => 0 | .all => 1 | .bal => 2

def decRedOp (m : BitVec 3) : RedOp :=
  match m.toNat with
  | 0 => .addF32 | 1 => .minF32 | 2 => .maxF32 | 3 => .addS32 | 4 => .minS32 | 5 => .maxS32 | 6 => .minZ32 | _ => .maxZ32

def encRedOp : RedOp → BitVec 3
  | .addF32 => 0 | .minF32 => 1 | .maxF32 => 2 | .addS32 => 3 | .minS32 => 4 | .maxS32 => 5 | .minZ32 => 6 | .maxZ32 => 7

def decHint (m : BitVec 2) : Option CacheHint :=
  match m.toNat with | 0 => some .dflt | 1 => some .cg | 2 => some .ef | _ => none

def encHint : CacheHint → BitVec 2
  | .dflt => 0 | .cg => 1 | .ef => 2

def decAtomOp (m : BitVec 4) : Option AtomOp :=
  match m.toNat with
  | 0 => some .add | 1 => some .minS | 2 => some .maxS | 3 => some .minZ | 4 => some .maxZ | 5 => some .and | 6 => some .or
  | 7 => some .xor | 8 => some .exch | 9 => some .cas | 10 => some .addF32 | 11 => some .inc | _ => none

def encAtomOp : AtomOp → BitVec 4
  | .add => 0 | .minS => 1 | .maxS => 2 | .minZ => 3 | .maxZ => 4 | .and => 5 | .or => 6
  | .xor => 7 | .exch => 8 | .cas => 9 | .addF32 => 10 | .inc => 11

def decFenceKind (m : BitVec 2) : Option FenceKind :=
  match m.toNat with | 0 => some .acq | 1 => some .rel | 2 => some .ar | _ => none

def encFenceKind : FenceKind → BitVec 2
  | .acq => 0 | .rel => 1 | .ar => 2

def decScope (m : BitVec 2) : Scope :=
  match m.toNat with | 0 => .blk | 1 => .cl | 2 => .dev | _ => .sys

def encScope : Scope → BitVec 2
  | .blk => 0 | .cl => 1 | .dev => 2 | .sys => 3

def decNotifyRel (m : BitVec 2) : Option NotifyRel :=
  match m.toNat with | 0 => some .none | 1 => some .dev | 2 => some .sys | _ => none

def encNotifyRel : NotifyRel → BitVec 2
  | .none => 0 | .dev => 1 | .sys => 2

/-- R224: kind in [2:0], the unsigned bits [3] and [4] for the INT8 kinds only. -/
def decMMKind (m : BitVec 5) : Option MMKind :=
  match (m.extractLsb' 0 3).toNat with
  | 0 => if m.extractLsb' 3 2 = 0#2 then some .bf16 else none
  | 1 => if m.extractLsb' 3 2 = 0#2 then some .f16 else none
  | 2 => if m.extractLsb' 3 2 = 0#2 then some .f8 else none
  | 3 => if m.extractLsb' 3 2 = 0#2 then some .e2m1 else none
  | 4 => some (.i8 false (m.extractLsb' 3 1 = 1#1) (m.extractLsb' 4 1 = 1#1))
  | 5 => some (.i8 true (m.extractLsb' 3 1 = 1#1) (m.extractLsb' 4 1 = 1#1))
  | _ => none

def encMMKind : MMKind → BitVec 5
  | .bf16 => 0 | .f16 => 1 | .f8 => 2 | .e2m1 => 3
  | .i8 sat ua ub => encBool ub ++ encBool ua ++ (if sat then 5#3 else 4#3)

def decHKind (m : BitVec 4) : Option HKind :=
  match m.toNat with
  | 0 => some .vreg | 1 => some .pred | 2 => some .fpfl | 3 => some .fpte | 4 => some .pos | _ => none

def encHKind : HKind → BitVec 4
  | .vreg => 0 | .pred => 1 | .fpfl => 2 | .fpte => 3 | .pos => 4

/-- Format M (R37). -/
def decM (b : Body) : MOp := { data := b.bits 34 10, base := b.bits 24 10, off := b.bits 8 16, size := b.bits 5 3 }


/-- V integer group (R140). -/
def decInt (c : Common) (op : Nat) (b : Body) : Option Instr :=
  match op with
  | 0x000 => do
      let m ← modSat b
      let r ← decR3 b true true
      pure (.iadd c m r)
  | 0x001 => do
      let m ← modSat b
      let r ← decR3 b true true
      pure (.isub c m r)
  | 0x002 => do
      need (b.md = 0#5)
      let r ← decR3 b true true
      pure (.imul c r)
  | 0x003 => do
      let g ← modSgn b
      let r ← decR3 b true true
      pure (.imulh c g r)
  | 0x004 => do
      need (b.md = 0#5)
      let r ← decR3 b true true
      pure (.imad c r)
  | 0x005 => do
      let g ← modSgn b
      let r ← decR3 b true true
      pure (.imadw c g r)
  | 0x006 => do
      need (b.md = 0#5)
      let r ← decR3 b true true
      pure (.iadd64 c r)
  | 0x007 => do
      let g ← modSgn b
      let r ← decR3 b true true
      pure (.imin c g r)
  | 0x008 => do
      let g ← modSgn b
      let r ← decR3 b true true
      pure (.imax c g r)
  | 0x009 => do
      let x ← modBool b
      let r ← decR2 b
      pure (.iabs c x r)
  | 0x00A => do
      need (b.md = 0#5)
      let r ← decR3 b true true
      pure (.ishl c r)
  | 0x00B => do
      need (b.md = 0#5)
      let r ← decR3 b true true
      pure (.ishr c r)
  | 0x00C => do
      need (b.md = 0#5)
      let r ← decR3 b true true
      pure (.lshr c r)
  | 0x00D => do
      let x ← modBool b
      let r ← decR3 b true true
      pure (.rot c x r)
  | 0x00E => do
      need (b.md = 0#5)
      let r ← decR3 b true true
      pure (.and c r)
  | 0x00F => do
      need (b.md = 0#5)
      let r ← decR3 b true true
      pure (.or c r)
  | 0x010 => do
      need (b.md = 0#5)
      let r ← decR3 b true true
      pure (.xor c r)
  | 0x011 => do
      need (b.md = 0#5)
      let r ← decR3 b true true
      pure (.andn c r)
  | 0x012 => do
      need (b.md = 0#5)
      let r ← decR2 b
      pure (.popc c r)
  | 0x013 => do
      need (b.md = 0#5)
      let r ← decR2 b
      pure (.clz c r)
  | 0x014 => do
      need (b.md = 0#5)
      let r ← decR2 b
      pure (.brev c r)
  | 0x015 => do
      let x ← modBool b
      let r ← decR3 b true true
      pure (.bfx c (if x then .s else .z) r)
  | 0x016 => do
      need (b.md = 0#5)
      let r ← decR3 b true true
      pure (.bfi c r)
  | 0x017 => do
      need (b.bits 0 1 = 0#1)
      let cc ← decICmp (b.bits 2 3)
      let r ← decR3 b true true
      pure (.iset c cc (decSgn (b.bits 1 1)) r)
  | 0x018 => do
      let r ← decR3 b true true
      pure (.sel c (bit b 4) (b.bits 0 4) r)
  | 0x019 => do
      let x ← modBool b
      let r ← decR2 b
      pure (.mov c x r)
  | 0x01A => do
      need (b.bits 0 2 = 0#2)
      pure (.movi c (b.bits 34 10) (b.bits 2 32))
  | 0x01B => do
      need (b.md = 0#5)
      pure (.iaddi c (b.bits 34 10) (b.bits 24 10) (b.bits 5 19))
  | 0x01C => do
      need (b.bits 5 9 = 0#9)
      let x ← modBool b
      pure (if x then .movxSt c (b.bits 34 10) (b.bits 24 10) (b.bits 14 10) else .movx c (b.bits 34 10) (b.bits 24 10) (b.bits 14 10))
  | 0x01D => do
      let k ← decWide (b.bits 0 2)
      pure (.movxw c k (b.bits 34 10) (b.bits 2 32))
  | 0x01E => do
      need (b.bits 4 1 = 0#1)
      let r ← decR3 b true true
      pure (.lea c (if bit b 3 then .s else .z) (b.bits 0 3) r)
  | 0x01F => do
      need (b.bits 3 2 = 0#2)
      let r ← decR3 b true true
      pure (.idot4 c (bit b 2) (bit b 0) (bit b 1) r)
  | _ => none

/-- V float group (R145). -/
def decFloat (c : Common) (op : Nat) (b : Body) : Option Instr :=
  match op with
  | 0x100 => do
      let m ← modRM b
      let r ← decR3 b true true
      pure (.fadd c m r)
  | 0x101 => do
      let m ← modRM b
      let r ← decR3 b true true
      pure (.fsub c m r)
  | 0x102 => do
      let m ← modRM b
      let r ← decR3 b true true
      pure (.fmul c m r)
  | 0x103 => do
      let m ← modRM b
      let r ← decR3 b true true
      pure (.ffma c m r)
  | 0x104 => do
      need (b.md = 0#5)
      let r ← decR3 b true true
      pure (.fmin c r)
  | 0x105 => do
      need (b.md = 0#5)
      let r ← decR3 b true true
      pure (.fmax c r)
  | 0x106 => do
      need (b.bits 0 2 = 0#2)
      let r ← decR3 b true true
      pure (.fset c (decFCmp (b.bits 2 3)) r)
  | 0x107 => do
      let f ← decClassFmt b.md
      let r ← decR2 b
      pure (.fclass c f r)
  | 0x108 => do
      let m ← modRM b
      let r ← decR2 b
      pure (.frcp c m r)
  | 0x109 => do
      let m ← modRM b
      let r ← decR2 b
      pure (.frsq c m r)
  | 0x10A => do
      let m ← modRM b
      let r ← decR2 b
      pure (.fsqrt c m r)
  | 0x10B => do
      let m ← modRM b
      let r ← decR2 b
      pure (.fexp2 c m r)
  | 0x10C => do
      let m ← modRM b
      let r ← decR2 b
      pure (.flog2 c m r)
  | 0x10D => do
      let m ← modRM b
      let r ← decR3 b true true
      pure (.fdiv c m r)
  | 0x10E => do
      let m ← modRM b
      let r ← decR2 b
      pure (.frnd c m r)
  | 0x10F => do
      let r ← decR2 b
      need (cvtWf (decCvt (b.bits 2 3)) (decRM (b.bits 0 2)))
      pure (.fcvt c (decCvt (b.bits 2 3)) (decRM (b.bits 0 2)) r)
  | 0x110 => do
      need (b.bits 3 2 = 0#2)
      let r ← decR2 b
      pure (.ftoi c (decSgn (b.bits 2 1)) (decRM (b.bits 0 2)) r)
  | 0x111 => do
      need (b.bits 3 2 = 0#2)
      let r ← decR2 b
      pure (.itof c (decSgn (b.bits 2 1)) (decRM (b.bits 0 2)) r)
  | 0x112 => do
      need (b.bits 3 2 = 0#2)
      let r ← (match decSignOp (b.bits 0 2) with | .neg | .abs => decR3a b | .cpy | .xor => decR3 b true true)
      pure (.fsign c (decSignOp (b.bits 0 2)) (bit b 2) r)
  | 0x113 => do
      need (b.bits 3 2 = 0#2)
      let r ← decR3 b true true
      pure (.hfma2 c (decHFmt (b.bits 2 1)) (decRM (b.bits 0 2)) r)
  | 0x114 => do
      need (b.bits 3 2 = 0#2)
      let r ← decR3 b true true
      pure (.hadd2 c (decHFmt (b.bits 2 1)) (decRM (b.bits 0 2)) r)
  | 0x115 => do
      need (b.bits 3 2 = 0#2)
      let r ← decR3 b true true
      pure (.hmul2 c (decHFmt (b.bits 2 1)) (decRM (b.bits 0 2)) r)
  | _ => none

/-- V narrow group (R153). -/
def decNarrow (c : Common) (op : Nat) (b : Body) : Option Instr :=
  match op with
  | 0x120 => do
      need (b.bits 3 2 = 0#2)
      let f ← decNFmt (b.bits 0 2)
      let r ← decR3 b true true
      pure (.qdec c f (bit b 2) r)
  | 0x121 => do
      let f ← decNFmt (b.bits 0 2)
      let r ← decR3 b true true
      need (!bit b 3 || decide (f ≠ .e2m1))
      pure (.qenc c f (bit b 2) (bit b 3) (bit b 4) r)
  | 0x122 => do
      need (b.bits 4 1 = 0#1)
      let f ← decNFmt (b.bits 0 2)
      let r ← decR2 b
      need (!bit b 3 || decide (f = .e2m1))
      pure (.qscale c f (bit b 2) (bit b 3) r)
  | 0x123 => do
      need (b.bits 3 2 = 0#2)
      let k ← decXOp (b.bits 0 2)
      let r ← (match k with | .setx => decR3 b true true | .scl | .xval => decR3a b)
      pure (.qxtra c k (bit b 2) r)
  | _ => none

/-- V cross-lane and predicate group (R158). -/
def decCross (c : Common) (op : Nat) (b : Body) : Option Instr :=
  match op with
  | 0x200 => do
      need (b.bits 3 2 = 0#2)
      let r ← decR3 b false true
      pure (.shfl c (decShfl (b.bits 0 2)) (bit b 2) r)
  | 0x201 => do
      need (b.bits 3 2 = 0#2)
      need (b.bits 5 19 = 0#19)
      let k ← decVote (b.bits 0 2)
      pure (.vote c k (bit b 2) (b.bits 34 10) (b.bits 24 10))
  | 0x202 => do
      let r ← decR2 b
      need (redWf (decRedOp (b.bits 2 3)) (decRM (b.bits 0 2)))
      pure (.vred c (decRedOp (b.bits 2 3)) (decRM (b.bits 0 2)) r)
  | 0x203 => do
      let r ← decR2 b
      need (redWf (decRedOp (b.bits 2 3)) (decRM (b.bits 0 2)))
      pure (.vscan c (decRedOp (b.bits 2 3)) (decRM (b.bits 0 2)) r)
  | 0x204 => do
      need (b.bits 4 1 = 0#1)
      need (b.bits 5 9 = 0#9)
      pure (.plop c (b.bits 0 4) (b.bits 34 10) (b.bits 24 10) (b.bits 14 10))
  | 0x205 => do
      let x ← modBool b
      let r ← decR2 b
      need (if x then decide (r.d = 0#10) else decide (r.a = 0#10) && decide (r.p = .none))
      pure (.pmov c x r)
  | 0x206 => do
      need (b.bits 2 3 = 0#3)
      let r ← (if bit b 0 then decR3a b else decR3 b true true)
      pure (.umov c (bit b 0) (bit b 1) r)
  | _ => none

/-- V control group (R109). -/
def decControl (c : Common) (op : Nat) (b : Body) : Option Instr :=
  match op with
  | 0x210 => do
      need (b.bits 0 12 = 0#12)
      pure (.bra c (b.bits 12 32))
  | 0x211 => do
      need (b.md = 0#5)
      let r ← decR2 b
      need (r.d = 0#10)
      pure (.brx c r.a r.p)
  | 0x212 => do
      need (b.bits 0 2 = 0#2)
      pure (.call c (b.bits 12 32) (b.bits 2 10))
  | 0x213 => do
      need (b.md = 0#5)
      let r ← decR2 b
      need (r.d = 0#10)
      pure (.ret c r.a r.p)
  | 0x214 => do
      need (b = 0#44)
      pure (.exit c)
  | 0x215 => do
      let x ← modBool b
      let r ← decR2 b
      if x then (if r.a = 0#10 then (if r.p = .none then some (.cdeclIss c r.d) else none) else none) else some (.cdecl c r.d r.a r.p)
  | 0x216 => do
      need (b.bits 5 19 = 0#19)
      need (b.bits 34 10 = 0#10)
      let x ← modBool b
      pure (if x then .csignNw c (b.bits 24 10) else .csign c (b.bits 24 10))
  | 0x217 => do
      need (b = 0#44)
      pure (.yield c)
  | 0x218 => do
      need (b = 0#44)
      pure (.nop c)
  | 0x219 => do
      need (b.md = 0#5)
      need (b.bits 24 20 = 0#20)
      pure (.brk c (b.bits 5 19))
  | 0x21A => do
      need (b.md = 0#5)
      need (b.bits 24 20 = 0#20)
      pure (.trap c (b.bits 5 19))
  | _ => none

/-- M class (R182, R259, R260, R263, R268, R270). -/
def decMem (c : Common) (op : Nat) (b : Body) : Option Instr :=
  match op with
  | 0x280 => do
      need (b.bits 0 2 = 0#2)
      let h ← decHint (b.bits 2 2)
      need (loadWf (bit b 4) (decM b))
      pure (.ld c (bit b 4) h (decM b))
  | 0x281 => do
      need (b.bits 4 1 = 0#1)
      need (b.bits 0 2 = 0#2)
      let h ← decHint (b.bits 2 2)
      need (decide ((decM b).size.toNat ≤ 4))
      pure (.st c h (decM b))
  | 0x282 => do
      need (b.bits 0 4 = 0#4)
      need (loadWf (bit b 4) (decM b))
      pure (.ldro c (bit b 4) (decM b))
  | 0x283 => do
      need (b.bits 0 4 = 0#4)
      need (loadWf (bit b 4) (decM b))
      pure (.lds c (bit b 4) (decM b))
  | 0x284 => do
      need (b.md = 0#5)
      need (decide ((decM b).size.toNat ≤ 4))
      pure (.sts c (decM b))
  | 0x285 => do
      need (b.bits 0 1 = 0#1)
      let o ← decAtomOp (b.bits 1 4)
      need (atomWf o (decM b))
      pure (.atom c o (decM b))
  | 0x286 => do
      need (b.bits 0 1 = 0#1)
      let o ← decAtomOp (b.bits 1 4)
      need (atomWf o (decM b))
      pure (.atoms c o (decM b))
  | 0x287 => do
      need (b.bits 0 1 = 0#1)
      let o ← decAtomOp (b.bits 1 4)
      need (atomWf o (decM b) && redoOp o)
      pure (.redo c o (decM b))
  | 0x288 => do
      need (b.bits 4 1 = 0#1)
      need (b.bits 5 29 = 0#29)
      let k ← decFenceKind (b.bits 0 2)
      pure (.fence c k (decScope (b.bits 2 2)) (b.bits 34 10))
  | 0x289 => do
      need (b = 0#44)
      pure (.roinv c)
  | 0x28A => do
      need (b.bits 1 4 = 0#4)
      need (decide ((decM b).data = 0#10) && decide ((decM b).size.toNat ≤ 2))
      pure (.pref c (bit b 0) (decM b))
  | 0x28B => do
      let r ← decR2 b
      need (r.d = 0#10)
      pure (.bar c (bit b 4) (b.bits 0 4) r.a r.p)
  | 0x28C => do
      let r ← decR2 b
      need (r.d = 0#10)
      let x ← modBool b
      pure (.cbar c x r.a r.p)
  | 0x28D => do
      need (b.bits 0 1 = 0#1)
      need (b.bits 2 3 = 0#3)
      let r ← decR3 b true true
      pure (.qpush c (bit b 1) r)
  | 0x28E => do
      need (b.bits 2 3 = 0#3)
      let r ← decR3 b true false
      pure (.qpop c (bit b 0) (bit b 1) r)
  | 0x28F => do
      need (b.bits 2 3 = 0#3)
      let k ← decNotifyRel (b.bits 0 2)
      let r ← decR3 b true true
      need (r.d = 0#10)
      pure (.notify c k r.a r.b r.p)
  | 0x290 => do
      need (b.md = 0#5)
      let r ← decR2 b
      need (r.d = 0#10)
      pure (.gtrig c r.a r.p)
  | 0x291 => do
      need (b.md = 0#5)
      need (decide ((decM b).data = 0#10) && decide ((decM b).size = 0#3))
      pure (.zline c (decM b))
  | _ => none

/-- T class (R195, R214, R239). -/
def decTile (c : Common) (op : Nat) (b : Body) : Option Instr :=
  match op with
  | 0x300 => do
      need (b.md = 0#5)
      need (b.bits 38 6 = 0#6)
      need (b.bits 18 10 = 0#10)
      need (b.bits 5 3 = 0#3)
      pure (.tdef c (b.bits 28 10) (b.bits 8 10))
  | 0x301 => do
      need (b.md = 0#5)
      need (b.bits 38 6 = 0#6)
      need (b.bits 18 10 = 0#10)
      need (b.bits 5 3 = 0#3)
      pure (.tdefs c (b.bits 28 10) (b.bits 8 10))
  | 0x302 => do
      need (b.md = 0#5)
      need (b.bits 38 6 = 0#6)
      need (b.bits 28 10 = 0#10)
      need (b.bits 5 3 = 0#3)
      pure (.tdefa c (b.bits 18 10) (b.bits 8 10))
  | 0x303 => do
      need (b.md = 0#5)
      need (b.bits 38 6 = 0#6)
      need (b.bits 18 10 = 0#10)
      need (b.bits 8 10 = 0#10)
      need (b.bits 5 3 = 0#3)
      pure (.tkill c (b.bits 28 10))
  | 0x304 => do
      need (b.bits 38 6 = 0#6)
      need (b.bits 5 3 = 0#3)
      let x ← modBool b
      pure (.tld c x (b.bits 28 10) (b.bits 18 10) (b.bits 8 10))
  | 0x305 => do
      need (b.bits 38 6 = 0#6)
      need (b.bits 18 10 = 0#10)
      need (b.bits 5 3 = 0#3)
      need (b.bits 3 2 = 0#2)
      pure (.tst c (b.bits 0 3) (b.bits 28 10) (b.bits 8 10))
  | 0x306 => do
      need (b.md = 0#5)
      need (b.bits 38 6 = 0#6)
      need (b.bits 5 3 = 0#3)
      pure (.trow c (b.bits 28 10) (b.bits 18 10) (b.bits 8 10))
  | 0x307 => do
      need (b.bits 38 6 = 0#6)
      need (b.bits 28 10 = 0#10)
      need (b.bits 18 10 = 0#10)
      need (b.bits 8 10 = 0#10)
      need (b.bits 5 3 = 0#3)
      let x ← modBool b
      pure (.rcfence c x)
  | 0x308 => do
      need (b.bits 8 10 = 0#10)
      let k ← decMMKind b.md
      pure (.mma c k (b.bits 38 6) (b.bits 28 10) (b.bits 18 10) (b.bits 5 3))
  | 0x309 => do
      let k ← decMMKind b.md
      need k.isFloat
      pure (.mmalr c k (b.bits 38 6) (b.bits 28 10) (b.bits 18 10) (b.bits 8 10) (b.bits 5 3))
  | 0x30A => do
      need (b.md = 0#5)
      need (b.bits 34 4 = 0#4)
      need (b.bits 8 10 = 0#10)
      pure (.adapt c (b.bits 38 6) (b.bits 28 6) (b.bits 18 10) (b.bits 5 3))
  | 0x30B => do
      need (b.md = 0#5)
      need (b.bits 28 10 = 0#10)
      need (b.bits 18 10 = 0#10)
      need (b.bits 8 10 = 0#10)
      need (b.bits 5 3 = 0#3)
      pure (.aclr c (b.bits 38 6))
  | 0x30C => do
      need (b.bits 28 10 = 0#10)
      need (b.bits 5 3 = 0#3)
      let x ← modBool b
      pure (if x then .arowSt c (b.bits 38 6) (b.bits 18 10) (b.bits 8 10) else .arow c (b.bits 38 6) (b.bits 18 10) (b.bits 8 10))
  | 0x30D => do
      need (b.bits 28 10 = 0#10)
      need (b.bits 18 10 = 0#10)
      need (b.bits 5 3 = 0#3)
      let x ← modBool b
      pure (.aflag c x (b.bits 38 6) (b.bits 8 10))
  | 0x30E => do
      need (b.bits 38 6 = 0#6)
      need (b.bits 18 10 = 0#10)
      need (b.bits 5 3 = 0#3)
      need (b.bits 2 3 = 0#3)
      match (b.bits 0 2).toNat with | 0 => some (.adpfD c (b.bits 28 10) (b.bits 8 10)) | 1 => some (.adpfU c (b.bits 28 10) (b.bits 8 10)) | 2 => (if b.bits 28 10 = 0#10 then (if b.bits 8 10 = 0#10 then some (.adpfInv c) else none) else none) | _ => (if b.bits 28 10 = 0#10 then (if b.bits 8 10 = 0#10 then some (.adpfInvd c) else none) else none)
  | 0x30F => do
      need (b.bits 1 34 = 0#34)
      pure (.cpy c (bit b 0) (b.bits 41 3) (b.bits 35 6))
  | 0x310 => do
      need (b.bits 1 34 = 0#34)
      pure (.cpybt c (bit b 0) (b.bits 41 3) (b.bits 35 6))
  | 0x311 => do
      need (b.bits 0 41 = 0#41)
      pure (.tkwait c (b.bits 41 3))
  | _ => none

/-- S class (R299). -/
def decSys (c : Common) (op : Nat) (b : Body) : Option Instr :=
  match op with
  | 0x380 => do
      need (b.bits 24 10 = 0#10)
      need (b.bits 4 20 = 0#20)
      pure (.featq c (b.bits 34 10) (b.bits 0 4))
  | 0x381 => do
      need (rangeWf (b.bits 23 11) (b.bits 17 6) && rangeWf (b.bits 6 11) (b.bits 0 6))
      pure (.livept c (b.bits 34 10) (b.bits 23 11) (b.bits 17 6) (b.bits 6 11) (b.bits 0 6))
  | 0x382 => do
      need (b.bits 24 10 = 0#10)
      need (b.bits 12 12 = 0#12)
      need (decide ((b.bits 0 12).toNat ≤ 8))
      pure (.sysr c (b.bits 34 10) (b.bits 0 12))
  | 0x383 => do
      need (b.bits 34 10 = 0#10)
      need (b.bits 12 12 = 0#12)
      need (decide ((b.bits 0 12).toNat ≤ 8))
      pure (.sysw c (b.bits 24 10) (b.bits 0 12))
  | 0x384 => do
      need (b.bits 2 42 = 0#42)
      match (b.bits 0 2).toNat with | 0 => some (.hretRetry c) | 1 => some (.hretSkip c) | 2 => some (.hretEsc c) | _ => none
  | 0x385 => do
      need (b.bits 4 20 = 0#20)
      let k ← decHKind (b.bits 0 4)
      need (decide (k = .vreg) || decide (b.bits 24 10 = 0#10))
      pure (.hget c k (b.bits 34 10) (b.bits 24 10))
  | 0x386 => do
      need (b.bits 4 20 = 0#20)
      let k ← decHKind (b.bits 0 4)
      need (decide (k = .vreg) || decide (b.bits 24 10 = 0#10))
      pure (.hset c k (b.bits 34 10) (b.bits 24 10))
  | 0x387 => do
      need (b.bits 24 10 = 0#10)
      need (b.bits 1 23 = 0#23)
      pure (.clock c (bit b 0) (b.bits 34 10))
  | 0x388 => do
      need (b.bits 24 10 = 0#10)
      need (b.bits 6 18 = 0#18)
      need (decide ((b.bits 0 6).toNat < 12))
      pure (.pmc c (b.bits 34 10) (b.bits 0 6))
  | _ => none

/-- R54: the group of an opcode, by its place in the map. Unassigned opcodes are illegal-instruction. -/
def decOp (c : Common) (op : Nat) (b : Body) : Option Instr :=
  if op < 0x100 then decInt c op b
  else if op < 0x120 then decFloat c op b
  else if op < 0x200 then decNarrow c op b
  else if op < 0x210 then decCross c op b
  else if op < 0x280 then decControl c op b
  else if op < 0x300 then decMem c op b
  else if op < 0x380 then decTile c op b
  else if op < 0x3C0 then decSys c op b
  else none

/-- An instruction word, with R56's causes 2 and 3 told apart. -/
def decode (w : Word64) : Except DecErr Instr :=
  match decGuard w with
  | none => .error .guard
  | some g =>
    match decOp { stall := w.extractLsb' 50 4, guard := g } (opcodeOf w).toNat (w.extractLsb' 0 44) with
    | none => .error .instr
    | some i => .ok i

/-- A word in memory is little-endian (R4); bytes past the list read as zero. -/
def wordOfBytes : List Byte → Nat
  | [] => 0
  | x :: xs => x.toNat + 256 * wordOfBytes xs

/-- The instruction that eight bytes of code hold (R29, R4); shorter lists hold none. -/
def decodeBytes (l : List Byte) : Except DecErr Instr :=
  if l.length < 8 then .error .instr else decode (BitVec.ofNat 64 (wordOfBytes (l.take 8)))

/-- R54: the engine class of an opcode: 0 V, 1 M, 2 T, 3 S; none for 0x3C0 to 0x3FF. -/
def classOf (op : Nat) : Option Nat :=
  if op < 0x280 then some 0 else if op < 0x300 then some 1 else if op < 0x380 then some 2 else if op < 0x3C0 then some 3 else none

/-- R55: the group bit of an opcode. -/
def groupOf (op : Nat) : Nat :=
  if op < 0x100 then 0 else if op < 0x120 then 1 else if op < 0x200 then 2 else if op < 0x210 then 3
  else if op < 0x280 then 4 else if op < 0x300 then 5 else if op < 0x380 then 6 else 7

/-- A clause header (R30). -/
structure Header where
  cls : BitVec 3
  count : BitVec 4
  wait : BitVec 8
  yield : Bool
  stg0b : Fld
  stg0l : BitVec 6
  stg1b : Fld
  stg1l : BitVec 6
  rsvd : BitVec 16
  deriving DecidableEq, Repr

def decHeader (w : Word64) : Header where
  cls := w.extractLsb' 61 3
  count := w.extractLsb' 57 4
  wait := w.extractLsb' 49 8
  yield := w.extractLsb' 48 1 = 1#1
  stg0b := w.extractLsb' 38 10
  stg0l := w.extractLsb' 32 6
  stg1b := w.extractLsb' 22 10
  stg1l := w.extractLsb' 16 6
  rsvd := w.extractLsb' 0 16

/-- R33: a stage range lies within v0 to v639 and the warp's granules; a range of length zero has base zero. -/
def stageOk (granules : Nat) (base : Fld) (len : BitVec 6) : Bool :=
  if len = 0#6 then base = 0#10 else base.toNat + len.toNat ≤ min 640 (64 * granules)

/-- R34, R52: what a header itself may break when it is fetched. -/
def Header.legal (h : Header) (interlocked : Bool) (granules : Nat) : Bool :=
  h.cls.toNat ≤ 3 && h.rsvd = 0#16 &&
    (interlocked || (stageOk granules h.stg0b h.stg0l && stageOk granules h.stg1b h.stg1l))

/-- R35: a walk stops at a word whose CLASS is 4 to 7 or whose bits [15:0] are nonzero. -/
def Header.walks (h : Header) : Bool := h.cls.toNat ≤ 3 && h.rsvd = 0#16

def encHeader (h : Header) : Word64 :=
  h.cls ++ h.count ++ h.wait ++ encBool h.yield ++ h.stg0b ++ h.stg0l ++ h.stg1b ++ h.stg1l ++ h.rsvd

/-! ## The encoder -/

def encGuard : Guard → BitVec 6
  | .always => 0
  | .onTrue p => 1#1 ++ 0#1 ++ p
  | .onFalse p => 1#1 ++ 1#1 ++ p

def encTarget : Target → BitVec 1
  | .srcB => 0
  | .srcA => 1

def encPerm : Perm → BitVec 9
  | .none => 0
  | .rot n t => 1#3 ++ n ++ encTarget t
  | .bc n t => 2#3 ++ n ++ encTarget t
  | .fly n t => 3#3 ++ n ++ encTarget t
  | .mir n t => 4#3 ++ n ++ encTarget t

/-- Opcode, common fields and format fields in one word (R36). -/
def encWord (op : BitVec 10) (c : Common) (b : Body) : Word64 := op ++ c.stall ++ encGuard c.guard ++ b

def encR (d a b : Fld) (p : Perm) (m : BitVec 5) : Body := d ++ a ++ b ++ encPerm p ++ m

def R3.enc (r : R3) (m : BitVec 5) : Body := encR r.d r.a r.b r.p m

def R2.enc (r : R2) (m : BitVec 5) : Body := encR r.d r.a 0 r.p m

def MOp.enc (o : MOp) (m : BitVec 5) : Body := o.data ++ o.base ++ o.off ++ o.size ++ m

def encT (acc : BitVec 6) (ta tb : BitVec 10) (aux : Fld) (cv : BitVec 3) (m : BitVec 5) : Body := acc ++ ta ++ tb ++ aux ++ cv ++ m

/-- A rounding field in modifier [1:0]. -/
def mRM (m : RM) : BitVec 5 := 0#3 ++ encRM m

def mBool (x : Bool) : BitVec 5 := 0#4 ++ encBool x

def mSgn (g : Sgn) : BitVec 5 := 0#4 ++ encSgn g

def mSat : SatMode → BitVec 5
  | .wrap => 0 | .satS => 1 | .satZ => 2

def zOf : Sgn → Bool
  | .s => true
  | .z => false

/-- The word of an instruction; events have none. -/
def encode : Instr → Option Word64
  | .iadd c m r => some (encWord 0x000 c (r.enc (mSat m)))
  | .isub c m r => some (encWord 0x001 c (r.enc (mSat m)))
  | .imul c r => some (encWord 0x002 c (r.enc 0))
  | .imulh c g r => some (encWord 0x003 c (r.enc (mSgn g)))
  | .imad c r => some (encWord 0x004 c (r.enc 0))
  | .imadw c g r => some (encWord 0x005 c (r.enc (mSgn g)))
  | .iadd64 c r => some (encWord 0x006 c (r.enc 0))
  | .imin c g r => some (encWord 0x007 c (r.enc (mSgn g)))
  | .imax c g r => some (encWord 0x008 c (r.enc (mSgn g)))
  | .iabs c x r => some (encWord 0x009 c (r.enc (mBool x)))
  | .ishl c r => some (encWord 0x00A c (r.enc 0))
  | .ishr c r => some (encWord 0x00B c (r.enc 0))
  | .lshr c r => some (encWord 0x00C c (r.enc 0))
  | .rot c x r => some (encWord 0x00D c (r.enc (mBool x)))
  | .and c r => some (encWord 0x00E c (r.enc 0))
  | .or c r => some (encWord 0x00F c (r.enc 0))
  | .xor c r => some (encWord 0x010 c (r.enc 0))
  | .andn c r => some (encWord 0x011 c (r.enc 0))
  | .popc c r => some (encWord 0x012 c (r.enc 0))
  | .clz c r => some (encWord 0x013 c (r.enc 0))
  | .brev c r => some (encWord 0x014 c (r.enc 0))
  | .bfx c g r => some (encWord 0x015 c (r.enc (mBool (zOf g))))
  | .bfi c r => some (encWord 0x016 c (r.enc 0))
  | .iset c cc g r => some (encWord 0x017 c (r.enc (encICmp cc ++ encSgn g ++ 0#1)))
  | .sel c inv p r => some (encWord 0x018 c (r.enc (encBool inv ++ p)))
  | .mov c x r => some (encWord 0x019 c (r.enc (mBool x)))
  | .movi c d imm => some (encWord 0x01A c (d ++ imm ++ 0#2))
  | .iaddi c d a imm => some (encWord 0x01B c (d ++ a ++ imm ++ 0#5))
  | .movx c d a b => some (encWord 0x01C c (encR d a b .none 0))
  | .movxSt c d a b => some (encWord 0x01C c (encR d a b .none 1))
  | .movxw c k d imm => some (encWord 0x01D c (d ++ imm ++ encWide k))
  | .lea c g sh r => some (encWord 0x01E c (r.enc (0#1 ++ encBool (zOf g) ++ sh)))
  | .idot4 c sat ua ub r => some (encWord 0x01F c (r.enc (0#2 ++ encBool sat ++ encBool ub ++ encBool ua)))
  | .fadd c m r => some (encWord 0x100 c (r.enc (mRM m)))
  | .fsub c m r => some (encWord 0x101 c (r.enc (mRM m)))
  | .fmul c m r => some (encWord 0x102 c (r.enc (mRM m)))
  | .ffma c m r => some (encWord 0x103 c (r.enc (mRM m)))
  | .fmin c r => some (encWord 0x104 c (r.enc 0))
  | .fmax c r => some (encWord 0x105 c (r.enc 0))
  | .fset c cc r => some (encWord 0x106 c (r.enc (encFCmp cc ++ 0#2)))
  | .fclass c f r => some (encWord 0x107 c (r.enc (encClassFmt f)))
  | .frcp c m r => some (encWord 0x108 c (r.enc (mRM m)))
  | .frsq c m r => some (encWord 0x109 c (r.enc (mRM m)))
  | .fsqrt c m r => some (encWord 0x10A c (r.enc (mRM m)))
  | .fexp2 c m r => some (encWord 0x10B c (r.enc (mRM m)))
  | .flog2 c m r => some (encWord 0x10C c (r.enc (mRM m)))
  | .fdiv c m r => some (encWord 0x10D c (r.enc (mRM m)))
  | .frnd c m r => some (encWord 0x10E c (r.enc (mRM m)))
  | .fcvt c k m r => some (encWord 0x10F c (r.enc (encCvt k ++ encRM m)))
  | .ftoi c g m r => some (encWord 0x110 c (r.enc (0#2 ++ encSgn g ++ encRM m)))
  | .itof c g m r => some (encWord 0x111 c (r.enc (0#2 ++ encSgn g ++ encRM m)))
  | .fsign c op h2 r => some (encWord 0x112 c (r.enc (0#2 ++ encBool h2 ++ encSignOp op)))
  | .hfma2 c f m r => some (encWord 0x113 c (r.enc (0#2 ++ encHFmt f ++ encRM m)))
  | .hadd2 c f m r => some (encWord 0x114 c (r.enc (0#2 ++ encHFmt f ++ encRM m)))
  | .hmul2 c f m r => some (encWord 0x115 c (r.enc (0#2 ++ encHFmt f ++ encRM m)))
  | .qdec c f hi r => some (encWord 0x120 c (r.enc (0#2 ++ encBool hi ++ encNFmt f)))
  | .qenc c f hi sat rz r => some (encWord 0x121 c (r.enc (encBool rz ++ encBool sat ++ encBool hi ++ encNFmt f)))
  | .qscale c f hi xv r => some (encWord 0x122 c (r.enc (0#1 ++ encBool xv ++ encBool hi ++ encNFmt f)))
  | .qxtra c op hi r => some (encWord 0x123 c (r.enc (0#2 ++ encBool hi ++ encXOp op)))
  | .shfl c k w r => some (encWord 0x200 c (r.enc (0#2 ++ encBool w ++ encShfl k)))
  | .vote c k neg d q => some (encWord 0x201 c (encR d q 0 .none (0#2 ++ encBool neg ++ encVote k)))
  | .vred c op m r => some (encWord 0x202 c (r.enc (encRedOp op ++ encRM m)))
  | .vscan c op m r => some (encWord 0x203 c (r.enc (encRedOp op ++ encRM m)))
  | .plop c tt d a b => some (encWord 0x204 c (encR d a b .none (0#1 ++ tt)))
  | .pmov c x r => some (encWord 0x205 c (r.enc (mBool x)))
  | .umov c first w r => some (encWord 0x206 c (r.enc (0#3 ++ encBool w ++ encBool first)))
  | .bra c off => some (encWord 0x210 c (off ++ 0#12))
  | .brx c a p => some (encWord 0x211 c (encR 0 a 0 p 0))
  | .call c off link => some (encWord 0x212 c (off ++ link ++ 0#2))
  | .ret c a p => some (encWord 0x213 c (encR 0 a 0 p 0))
  | .exit c => some (encWord 0x214 c (0))
  | .cdecl c d a p => some (encWord 0x215 c (encR d a 0 p 0))
  | .cdeclIss c d => some (encWord 0x215 c (encR d 0 0 .none 1))
  | .csign c a => some (encWord 0x216 c (encR 0 a 0 .none 0))
  | .csignNw c a => some (encWord 0x216 c (encR 0 a 0 .none 1))
  | .yield c => some (encWord 0x217 c (0))
  | .nop c => some (encWord 0x218 c (0))
  | .brk c code => some (encWord 0x219 c (0#20 ++ code ++ 0#5))
  | .trap c code => some (encWord 0x21A c (0#20 ++ code ++ 0#5))
  | .ld c sx h m => some (encWord 0x280 c (m.enc (encBool sx ++ encHint h ++ 0#2)))
  | .st c h m => some (encWord 0x281 c (m.enc (0#1 ++ encHint h ++ 0#2)))
  | .ldro c sx m => some (encWord 0x282 c (m.enc (encBool sx ++ 0#4)))
  | .lds c sx m => some (encWord 0x283 c (m.enc (encBool sx ++ 0#4)))
  | .sts c m => some (encWord 0x284 c (m.enc 0))
  | .atom c op m => some (encWord 0x285 c (m.enc (encAtomOp op ++ 0#1)))
  | .atoms c op m => some (encWord 0x286 c (m.enc (encAtomOp op ++ 0#1)))
  | .redo c op m => some (encWord 0x287 c (m.enc (encAtomOp op ++ 0#1)))
  | .fence c k sc d => some (encWord 0x288 c (encR d 0 0 .none (0#1 ++ encScope sc ++ encFenceKind k)))
  | .roinv c => some (encWord 0x289 c (0))
  | .pref c l1 m => some (encWord 0x28A c (m.enc (mBool l1)))
  | .bar c arv n a p => some (encWord 0x28B c (encR 0 a 0 p (encBool arv ++ n)))
  | .cbar c arv a p => some (encWord 0x28C c (encR 0 a 0 p (mBool arv)))
  | .qpush c rlx r => some (encWord 0x28D c (r.enc (0#3 ++ encBool rlx ++ 0#1)))
  | .qpop c w rlx r => some (encWord 0x28E c (r.enc (0#3 ++ encBool rlx ++ encBool w)))
  | .notify c k a b p => some (encWord 0x28F c (encR 0 a b p (0#3 ++ encNotifyRel k)))
  | .gtrig c a p => some (encWord 0x290 c (encR 0 a 0 p 0))
  | .zline c m => some (encWord 0x291 c (m.enc 0))
  | .tdef c t aux => some (encWord 0x300 c (encT 0 t 0 aux 0 0))
  | .tdefs c t aux => some (encWord 0x301 c (encT 0 t 0 aux 0 0))
  | .tdefa c d aux => some (encWord 0x302 c (encT 0 0 d aux 0 0))
  | .tkill c t => some (encWord 0x303 c (encT 0 t 0 0 0 0))
  | .tld c w t d aux => some (encWord 0x304 c (encT 0 t d aux 0 (mBool w)))
  | .tst c k t aux => some (encWord 0x305 c (encT 0 t 0 aux 0 (0#2 ++ k)))
  | .trow c t d aux => some (encWord 0x306 c (encT 0 t d aux 0 0))
  | .rcfence c dev => some (encWord 0x307 c (encT 0 0 0 0 0 (mBool dev)))
  | .mma c k acc ta tb cv => some (encWord 0x308 c (encT acc ta tb 0 cv (encMMKind k)))
  | .mmalr c k acc ta tb aux cv => some (encWord 0x309 c (encT acc ta tb aux cv (encMMKind k)))
  | .adapt c acc sacc cb cv => some (encWord 0x30A c (encT acc (0#4 ++ sacc) cb 0 cv 0))
  | .aclr c acc => some (encWord 0x30B c (encT acc 0 0 0 0 0))
  | .arow c acc d aux => some (encWord 0x30C c (encT acc 0 d aux 0 0))
  | .arowSt c acc d aux => some (encWord 0x30C c (encT acc 0 d aux 0 1))
  | .aflag c keep acc d => some (encWord 0x30D c (encT acc 0 0 d 0 (mBool keep)))
  | .adpfD c n aux => some (encWord 0x30E c (encT 0 n 0 aux 0 0))
  | .adpfU c n aux => some (encWord 0x30E c (encT 0 n 0 aux 0 1))
  | .adpfInv c => some (encWord 0x30E c (encT 0 0 0 0 0 2))
  | .adpfInvd c => some (encWord 0x30E c (encT 0 0 0 0 0 3))
  | .cpy c sc k b => some (encWord 0x30F c (k ++ b ++ 0#34 ++ encBool sc))
  | .cpybt c sc k b => some (encWord 0x310 c (k ++ b ++ 0#34 ++ encBool sc))
  | .tkwait c k => some (encWord 0x311 c (k ++ 0#41))
  | .featq c d w => some (encWord 0x380 c (d ++ 0#30 ++ w))
  | .livept c gm b0 l0 b1 l1 => some (encWord 0x381 c (gm ++ b0 ++ l0 ++ b1 ++ l1))
  | .sysr c d n => some (encWord 0x382 c (d ++ 0#22 ++ n))
  | .sysw c a n => some (encWord 0x383 c (0#10 ++ a ++ 0#12 ++ n))
  | .hretRetry c => some (encWord 0x384 c (0))
  | .hretSkip c => some (encWord 0x384 c (1))
  | .hretEsc c => some (encWord 0x384 c (2))
  | .hget c k d x => some (encWord 0x385 c (d ++ x ++ 0#20 ++ encHKind k))
  | .hset c k d x => some (encWord 0x386 c (d ++ x ++ 0#20 ++ encHKind k))
  | .clock c nsec d => some (encWord 0x387 c (d ++ 0#33 ++ encBool nsec))
  | .pmc c d e => some (encWord 0x388 c (d ++ 0#28 ++ e))
  | _ => none

/-- The instruction the decoder reads from a word whose bits are `w`: its eight bytes are laid out in memory order and decoded. -/
def decodeTableWord (_nbits w : Nat) : Option Instr :=
  match decodeBytes ((List.range 8).map fun k => BitVec.ofNat 8 (w / 256 ^ k)) with
  | .ok i => some i
  | .error _ => none

end Sys2Proof
end

