-- ==== Sys2Proof/Machine/State.lean ====
section
/-! DEFINITION. Everything the manual gives the machine, as plain data, and the state after reset. Each field's docstring names the
rule that gives it. Addresses, counts and times are `Nat`; register contents are bit vectors. -/

namespace Sys2Proof.Machine

/-! ## Spaces and requests -/

/-- Where an access goes once translated (R169): device memory, a host window's bus address, a fabric window's node and physical
address. -/
inductive Tgt where
  | dev (pa : Nat)
  | host (ba : Nat)
  | fab (node pa : Nat)
  deriving DecidableEq, Repr

/-- The kinds of access a translation is made for (R169, R171). -/
inductive Acc where
  | read
  | write
  | fetch
  | atomic
  | copy (wr : Bool)
  deriving DecidableEq, Repr

/-- Where an operation comes from: the store-origin record of R292 (position, image, block, sv.warp, lanes) with the identities that
its report needs. `warp` and `blk` are the model's identities, `seq` the order of issue. -/
structure Origin where
  seq : Nat
  core : Nat
  ctx : Nat
  grid : Nat
  group : Nat
  blk : Nat
  warp : Nat
  wi : Nat
  lin : Nat
  img : Nat
  pos : Nat
  lanes : Mask
  deriving DecidableEq, Repr

/-- What a request in flight asks for (R182 to R191, R263, R361). -/
inductive ReqK where
  /-- A load of `n` bytes into field `d` (R184): sign extension, whether the read-only cache takes it, whether L1 does. -/
  | load (d : Fld) (n : Nat) (sx ro l1 : Bool) (ef : Bool)
  /-- A store of bytes (R186). -/
  | store (data : List Byte) (ef : Bool)
  /-- An atomic of `n` bytes (R187): operand, second operand of CAS. -/
  | atom (op : AtomOp) (d : Fld) (n : Nat) (x y : Nat)
  /-- A zeroed line (R191). -/
  | zline
  /-- An ordered-reduction entry on its way to its order point (R264); `void` advances NEXT only (R265). -/
  | redo (op : AtomOp) (n x ticket stream rdst : Nat) (tgtVa : Nat) (void : Bool)
  deriving DecidableEq, Repr

/-- How far a request has come: on its way, served at its point of coherence with the bytes it returns, or failed with a CAUSE of
R258. -/
inductive ReqSt where
  | sent
  | served (data : List Byte) (sector : List Byte)
  | failed (cause : Nat)
  deriving DecidableEq, Repr

/-- One lane's request in flight (R183, R252). `hnd`: issued in handler mode. `uni`: the lanes a uniform operation
made it for, else none. `poison`: its fill no longer enters a cache. `stamp`: when it was served, in the order of service. -/
structure Req where
  k : ReqK
  tgt : Tgt
  va : Nat
  lane : Nat
  uni : Mask
  hnd : Bool
  word : Word64
  hdr : Nat
  idx : Nat
  org : Origin
  st : ReqSt
  stamp : Nat
  poison : Bool
  counted : Bool
  deriving DecidableEq, Repr

/-! ## Lanes and warps -/

/-- Why a lane is parked (R103): a convergence register (R115), a synchronising instruction on one (R107), a trap pending (R288), its handler
running (R289), a barrier (R261), the cluster barrier, a tile name or a definer's wait (R208, R215), the free order (R215), a work queue
(R269), a token (R200), page service (R171), a LIVEPT stop (R295). `due`: released from register `c` into the issue of its synchronising
instruction, which is the warp's next (R107, R240). -/
inductive Park where
  | run
  | conv (c : Nat)
  | sync (c : Nat)
  | due (c : Nat)
  | trap
  | handler
  | bar (n : Nat)
  | cbar
  | tile
  | head
  | queue (w : Nat)
  | token (k : Nat)
  | page
  | stop
  deriving DecidableEq, Repr

/-- One logical lane (R80, R100, R104, R129). -/
structure Lane where
  hdr : Nat
  idx : Nat
  exited : Bool
  park : Park
  passed : Nat
  fpte : BitVec 5
  fpfl : BitVec 5
  deriving DecidableEq, Repr

/-- One lane of a trapped sub-warp and what its handler receives (R289). `noSkip`: raised at a header or on a fetch (R291). `redo`: the ticket, stream
and RDST of a REDO whose place the lane keeps (R265). -/
structure TrapLane where
  lane : Nat
  cause : Nat
  addr : Nat
  info : Nat
  more : Nat
  word : Word64
  noSkip : Bool
  redo : Option (Nat × Nat × Nat)
  fpos : Nat
  fidx : Nat
  deriving DecidableEq, Repr

/-- A trapped sub-warp (R288): its class, when it trapped, its lanes. -/
structure SubWarp where
  cls : Nat
  since : Nat
  lanes : List TrapLane
  deriving DecidableEq, Repr

/-- A fixed-latency result not yet due (R49, R51): register key, cycle of issue, lanes that wrote it, cycle due, the
values before it in each lane. -/
structure Fixed where
  reg : Nat
  issued : Nat
  lanes : Mask
  due : Nat
  old : List Word
  deriving DecidableEq, Repr

/-- A failure record (R256): count saturating at 255, cause of the first, with the origins still to be entered in a ring. -/
structure FailRec where
  count : Nat
  cause : Nat
  orgs : List (Origin × Nat × Nat × Nat)
  deriving DecidableEq, Repr

/-- How a warp or handler stands in its quadrant's issue order (R48, R105, R32). `readyFrom`: the cycle from which readiness counts. -/
structure Pace where
  notBefore : Nat
  readyFrom : Nat
  readySince : Option Nat
  yielded : Bool
  starved : Nat
  deriving DecidableEq, Repr

/-- A warp (R64, R80). `v` keys are 32 × register + lane; `p`, `s`, `decl`, `signed`, `tok` keys are register numbers. `acq`: an acquire is owed
before its next issue (R254); `recs`: words of a tile record that it has come to read, by address (R207). -/
structure Warp where
  id : Nat
  ctx : Nat
  blk : Nat
  wi : Nat
  core : Nat
  quad : Nat
  slot : Nat
  gran : Nat
  gmap : List Nat
  lanes : List Lane
  v : Sparse Word
  s : Sparse Word
  p : Sparse Mask
  decl : Sparse Mask
  signed : Sparse Mask
  tok : Sparse Nat
  pace : Pace
  fixed : List Fixed
  movx : Nat
  fail : FailRec
  traps : List SubWarp
  acq : Bool
  recs : List (Nat × List Byte)
  liveG : BitVec 10
  liveR : List (Nat × Nat)
  deriving DecidableEq, Repr

/-- A quadrant's handler bank at work (R289, R290): the warp, its sub-warp, handler positions, the warp's positions at entry, the lanes whose
retry position HSET has written, h0 to h63 (key 32 × register + lane). -/
structure Bank where
  warp : Nat
  sub : SubWarp
  lanes : List Lane
  entry : List (Nat × Nat)
  posSet : Mask
  h : Sparse Word
  pace : Pace
  movx : Nat
  deriving DecidableEq, Repr

/-- What discarding an issue puts back (R95, R106): every lane as it stood, the convergence registers, and by key the registers' values in all lanes;
`lanes` issued. -/
structure Undo where
  lanes : Mask
  before : List Lane
  regs : List (Nat × List Word)
  decl : Sparse Mask
  signed : Sparse Mask
  deriving DecidableEq, Repr

/-- An instruction that a quadrant has issued and that has not committed (R93): the issuing warp, whether in its handler, the cycle of issue and of
commit, its stall count, its instruction, and what discarding it puts back where that can be; its requests carry `seq`. -/
structure Recent where
  seq : Nat
  instr : Option Instr
  warp : Nat
  hnd : Bool
  issued : Nat
  commit : Nat
  stall : Nat
  undo : Option Undo
  deriving DecidableEq, Repr

/-- A quadrant (R91, R93, R105, R306). `slotAt` is the cycle of its next issue slot, `recent` what has not committed, oldest first. -/
structure Quad where
  cycle : Nat
  slotAt : Nat
  recent : List Recent
  lastSlot : Nat
  dead : List Nat
  badGran : List Nat
  rewriting : Bool
  bank : Option Bank
  deriving DecidableEq, Repr

/-! ## Blocks, groups, contexts -/

/-- A barrier (R65, R261). -/
structure Bar where
  arrivals : Nat
  expected : Nat
  deriving DecidableEq, Repr

/-- A resident block (R65, R80, R87). `badWords`: aligned 4-byte words of its scratchpad that are uncorrectable (R319).
`acc` keys are 16384 × accumulator + 128 × row + column. `atEntry` and `voided` are R316 and R315. `missed`: quadrant
cycles that PMC event 8 has counted and that another quadrant of the core has yet to pass (R306). -/
structure Block where
  id : Nat
  ctx : Nat
  lin : Nat
  pos : Nat
  cg : Nat
  core : Nat
  scratch : Sparse Byte
  badWords : List Nat
  bars : Sparse Bar
  acc : Sparse Word
  aflags : Sparse (BitVec 8)
  fail : FailRec
  voided : Bool
  atEntry : Bool
  warpsLeft : Nat
  pmc : Sparse Nat
  missed : List Nat
  deriving DecidableEq, Repr

/-- The states of a tile name (R208). -/
inductive TSt where
  | free
  | defining
  | live
  | draining
  deriving DecidableEq, Repr

/-- What an issue parked on a tile name asks for, with its operands as read at issue: a reader or a definer (R208). -/
inductive TileAsk where
  | tld (wide : Bool) (d : Fld) (xs : List (Nat × Nat))
  | trow (d : Fld) (xs : List (Nat × Nat))
  | tst (k : Nat) (trec : List Byte)
  | define (trec : List Byte) (scratch : Bool)
  /-- A matrix operation's reader of this tile; `m` numbers the operation. -/
  | mat (m : Nat)
  deriving DecidableEq, Repr

/-- An issue parked on a name: `gen` is the definition it reads, `lanes` the lanes parked. -/
structure Waiter where
  gen : Nat
  lanes : Mask
  ask : TileAsk
  org : Origin
  hdr : Nat
  idx : Nat
  word : Word64
  deriving DecidableEq, Repr

/-- A catalogue entry (R202, R208). `img` is the tile image of 36,864 bytes; `gen` counts definitions. -/
structure Entry where
  st : TSt
  kill : Bool
  faulted : Bool
  trec : List Byte
  img : Sparse Byte
  gen : Nat
  waiters : List Waiter
  deriving DecidableEq, Repr

/-- A definer waiting for the free order (R215). -/
structure HeadWait where
  lanes : Mask
  d : Fld
  trec : List Byte
  org : Origin
  hdr : Nat
  idx : Nat
  word : Word64
  deriving DecidableEq, Repr

/-- How far a leaf's pre-emption of a cluster group has come (R95, R312). -/
inductive LeafSt where
  | none
  | stopping (since : Nat)
  | saving
  deriving DecidableEq, Repr

/-- A resident cluster group (R66, R81, R210). `again`: it is to be replayed once it has stopped or ended (R317). -/
structure CGroup where
  id : Nat
  ctx : Nat
  gidx : Nat
  cluster : Nat
  size : Nat
  left : Nat
  hasRec : Bool
  cbar : Bar
  names : Nat
  entries : Sparse Entry
  free : List Nat
  heads : List HeadWait
  leaf : LeafSt
  again : Bool
  deriving DecidableEq, Repr

/-- The header fields of a context image (R63). -/
structure Img where
  kind : Nat
  flags : Nat
  code : Nat
  entry : Nat
  variant : Nat
  gran : Nat
  gx : Nat
  gy : Nat
  gz : Nat
  warps : Nat
  gsize : Nat
  scratch : Nat
  accs : Nat
  bars : Nat
  names : Nat
  args : Nat
  argSize : Nat
  group : Nat
  htab : Nat
  cbud : Nat
  pbud : Nat
  bbud : Nat
  view : List Nat
  cursor : Nat
  nw : Nat
  nb : Nat
  ng : Nat
  cause : Nat
  woff : Nat
  boff : Nat
  goff : Nat
  size : Nat
  adtb : Nat
  rdst : Nat
  qsel : Nat
  fpte : Nat
  tstep : Nat
  trev : Nat
  dbase : Nat
  dsize : Nat
  deriving DecidableEq, Repr

/-- What launched a grid or caused a command (R58, R71, R72, R317). -/
inductive Src where
  | queue (q tag : Nat) (event : Bool)
  | graph (g node : Nat) (event : Bool)
  | tag (t : Nat)
  | leaf
  deriving DecidableEq, Repr

/-- How far a context has come (R295, R296, R298). A stop carries the time asked for, whether the driver asked, and the save cause. -/
inductive Phase where
  | running
  | stopping (since : Nat) (driver : Bool) (cause : Nat)
  | saving (driver : Bool) (cause : Nat)
  | removing (since : Nat) (cause : Nat) (ended : Nat)
  deriving DecidableEq, Repr

/-- A running context (R62 to R69, R302). `heads` are the recorded clause headers (R35); `tcode` is translated code (R28), `tat` where near store holds it (R23, R173);
`lins` the blocks that a replay context runs (R317). -/
structure Ctx where
  id : Nat
  grid : Nat
  group : Nat
  img : Nat
  h : Img
  src : Src
  phase : Phase
  code : Nat
  codeEnd : Nat
  entry : Nat
  heads : List Nat
  tcode : List Word64
  tat : Option Nat
  variant : Nat
  tstep : Nat
  trev : Nat
  idem : Bool
  chk : Bool
  inter : Bool
  governed : Bool
  adtb : Nat
  htab : Nat
  rdst : Nat
  qsel : Nat
  cursor : Nat
  done : Nat
  roFresh : List Nat
  lins : List Nat
  deriving DecidableEq, Repr

/-- A cluster group or block waiting for placement (R82, R86), in order of arrival: a fresh one, or one that a leaf saved (R95). `hold` is the
held cores of R86. -/
structure Wait where
  ctx : Nat
  gidx : Nat
  lins : List Nat
  since : Nat
  saved : Option (CGroup × List Block × List Warp)
  replay : Bool
  hold : List Nat
  leaf : Option Nat
  deriving DecidableEq, Repr

/-- A grid and its completion record (R308 to R310). State 0: not yet written. `set`: the core set with, for each core, whether a later scan has
passed; `ran`: blocks that had a warp on a core since its last passing scan, with the core;
`unrep`: blocks that R316 does not let replay; `winNow` and `winLast` its far-store bytes (R89). -/
structure Grid where
  id : Nat
  group : Nat
  img : Nat
  h : Img
  comp : Nat
  event : Bool
  src : Src
  state : Nat
  exited : List Nat
  replays : Nat
  replayed : Bool
  suspects : List Nat
  nsus : Nat
  faulted : Bool
  tprov : Nat
  tfinal : Nat
  set : List (Nat × Bool)
  ran : List (Nat × Nat)
  unrep : List Nat
  pendingReplay : List Nat
  removed : Bool
  winNow : Nat
  winLast : Nat
  ctx0 : Ctx
  deriving DecidableEq, Repr

/-! ## Cores and clusters -/

/-- An L1 sector of 64 bytes (R174); `sec` is its physical address over 64. -/
structure L1Sec where
  sec : Nat
  data : List Byte
  ef : Bool
  deriving DecidableEq, Repr

/-- A translation-cache entry (R170): group, page, page bits, the leaf. -/
structure TlbEnt where
  group : Nat
  page : Nat
  bits : Nat
  pte : Word64
  deriving DecidableEq, Repr

/-- How far a core's inventory pass has come (R312): draining, or scanned once empty, from a time. -/
inductive Inv where
  | idle
  | draining (since : Nat)
  deriving DecidableEq, Repr

/-- A core (R98, R170, R174, R185, R226, R229, R306, R312). `ic` holds cached code lines: group and line address over 256, 32 words. `cyc` is the
main-clock count last read; `colmap` the column concordance; `narrow` the mode in which the engine started the operation it has under way; `passOk` the grids that had no warp on the core when its pass began (R310); `final` a final scan owed (R314). -/
structure Core where
  l1 : List L1Sec
  ro : List (Nat × List Byte)
  ic : List (Nat × List Word64)
  tlb : List TlbEnt
  cyc : Nat
  badBank : List Nat
  deadCol : List Nat
  colmap : Sparse Nat
  colRewrite : Bool
  narrow : Option Bool
  badAcc : List Nat
  badArr : List Nat
  retired : Bool
  inv : Inv
  lastPass : Nat
  passOk : List Nat
  final : Bool
  deriving DecidableEq, Repr

/-- A shelf entry (R234): tag, the table entry's copy, the 256r bytes of data; `dying` entries go when no entered operation uses them. -/
structure Shelf where
  group : Nat
  adtb : Nat
  g : Nat
  slice : Nat
  cb : Nat
  tent : List Byte
  data : List Byte
  dying : Bool
  deriving DecidableEq, Repr

/-- A cluster (R207, R234, R326, R339). `recs`: group, record address, record bytes. -/
structure Cluster where
  recs : List (Nat × Nat × List Byte)
  shelf : List Shelf
  drift : Nat
  retired : Bool
  clock : Nat
  gliding : Bool
  deriving DecidableEq, Repr

/-- A dirty or marked L2 tag (R175, R319): zero flag, first-evict mark, the group that wrote last, memory beneath the line. -/
structure Tag where
  line : Nat
  zero : Bool
  ef : Bool
  group : Nat
  below : List Byte
  deriving DecidableEq, Repr

/-- The departed far-store channel (R178 to R180): whether its slot is GONE, the moved lines, the lines its old home aborts. -/
structure Depart where
  ch : Nat
  gone : Bool
  moved : List Nat
  kept : List Nat
  next : Nat
  deriving DecidableEq, Repr

/-! ## Operations in flight -/

/-- An instruction-cache fill (R98). `pre`: a prefetch. -/
structure Fetch where
  core : Nat
  group : Nat
  line : Nat
  pre : Bool
  deriving DecidableEq, Repr

/-- Who waits for a page (R171): a lane of a warp with the access's address and the number of its issue (0 for a fetch), or an engine's operation by its number. -/
inductive PageUser where
  | lane (warp lane va : Nat) (hnd : Bool) (word : Word64) (fetch : Bool) (seq : Nat)
  | engine (op : Nat)
  deriving DecidableEq, Repr

/-- A page-service request (R171): waiting for ring room since a time, asked with its sequence and time, answered, or ended in a fault. -/
inductive PageSt where
  | noRoom (t : Nat)
  | asked (seq t : Nat)
  | answered
  | failed
  deriving DecidableEq, Repr

structure Page where
  group : Nat
  page : Nat
  acc : Acc
  core : Nat
  users : List PageUser
  st : PageSt
  deriving DecidableEq, Repr

/-- What a copy moves (R193, R194, R219). -/
inductive CopyK where
  | cpy (sc : Bool) (desc : List Word)
  | cpybt (sc : Bool) (desc : List Word)
  | tst (trec : List Byte) (img : Option (Sparse Byte))
  deriving DecidableEq, Repr

/-- A copy or TST in flight (R192). `snap`: the source bytes as read when the engine started. -/
structure Copy where
  id : Nat
  k : CopyK
  tok : Nat
  org : Origin
  started : Bool
  snap : List (Nat × List Byte)
  deriving DecidableEq, Repr

/-- A tile definition in flight (R211). `snap`: sources as read so far, by address; `sealed`: words read for good, ahead of a later store of the defining
warp (R275). -/
structure Def where
  cg : Nat
  name : Nat
  gen : Nat
  trec : List Byte
  scratch : Bool
  org : Origin
  fetched : Bool
  snap : List (Nat × List Byte)
  sealed : List (Nat × List Byte)
  deriving DecidableEq, Repr

/-- An outstanding tile reader (R208): `ask` as in `Waiter`. -/
structure Reader where
  cg : Nat
  name : Nat
  ask : TileAsk
  org : Origin
  deriving DecidableEq, Repr

/-- What a matrix operation computes (R239). -/
inductive MatK where
  | mma (k : MMKind) (acc ta tb : Nat)
  | mmalr (k : MMKind) (acc ta tb : Nat) (ids : List Nat)
  | adapt (acc sacc cb : Nat)
  deriving DecidableEq, Repr

/-- A matrix operation (R223, R227, R237, R240): waiting for its tiles with the lanes parked at it, or entered; a tile whose definition failed;
rows that it has reached, rows held, rows whose fill failed; shelf entries taken; ADTB as it stood at the issue (R302). `slow`: the mode in which it runs, narrowed or
in full, from when the engine starts it (R231); `replays`: rows of it replayed (R242). -/
structure Mat where
  id : Nat
  lanes : Mask
  bad : Bool
  k : MatK
  adtb : Nat
  org : Origin
  cg : Nat
  hdr : Nat
  idx : Nat
  word : Word64
  readyA : Bool
  readyB : Bool
  seen : List Nat
  entered : Bool
  held : List Nat
  failed : List Nat
  took : List Shelf
  slow : Option Bool
  replays : Nat
  deriving DecidableEq, Repr

/-- A shelf fill (R234, R237): tag, the operation that caused it (none for ADPF). -/
structure Fill where
  cluster : Nat
  group : Nat
  adtb : Nat
  g : Nat
  slice : Nat
  cb : Nat
  op : Option Nat
  org : Origin
  started : Bool
  tent : List Byte
  data : List Byte
  deriving DecidableEq, Repr

/-- An entry at its order point (R264): held, or sent back to wait at its core. -/
structure Held where
  req : Req
  atCore : Bool
  deriving DecidableEq, Repr

/-- A QPOP.W lane waiting on a queue (R269). -/
structure PopWait where
  q : Nat
  warp : Nat
  lane : Nat
  d : Fld
  p : Nat
  acq : Bool
  deriving DecidableEq, Repr

/-! ## Front end -/

/-- An event record (R77). -/
structure EvRec where
  kind : Nat
  srcK : Nat
  src : Nat
  tag : Nat
  status : Nat
  group : Nat
  detail : Nat
  deriving DecidableEq, Repr

/-- A front-end operation begun and not complete (R58, R60, R71). -/
inductive CmdK where
  | run (ctx : Nat)
  /-- `todo`: pieces not yet moved, as offset and length. -/
  | copy (src dst len : Nat) (todo : List (Nat × Nat))
  | wait (addr val cmp : Nat) (w32 : Bool) (deadline : Option Nat)
  /-- `early`: the node array where it was read when the load started. -/
  | load (g n addr : Nat) (early : Option (List Byte))
  | xlate (img ovr : Nat)
  deriving DecidableEq, Repr

structure Cmd where
  id : Nat
  src : Src
  group : Nat
  k : CmdK
  comp : Nat
  notify : Nat
  deriving DecidableEq, Repr

/-- A host queue (R57). `held`: a completion or warning waiting for ring room (R79). -/
structure HQueue where
  ring : Nat
  slots : Nat
  en : Bool
  tail : Word
  head : Word
  group : Nat
  stopped : Bool
  errsum : Word64
  held : List EvRec
  deriving DecidableEq, Repr

/-- A work queue (R266). -/
structure WQueue where
  ring : Nat
  slots : Nat
  en : Bool
  head : Word
  tail : Word
  group : Nat
  wake : Nat
  deriving DecidableEq, Repr

/-- A resident graph (R70, R71): nodes as their 32 bytes; `pc` is the node that the run has come to, `async` that it came from an ASYNC node just
started; `tag` the tag whose message caused the run; `due` the tags whose messages' triggers are pending, each with the number of runs to start up to
and with its own. -/
structure Graph where
  pending : Nat
  ovf : Bool
  loaded : Bool
  loading : Bool
  running : Bool
  faulted : Bool
  group : Nat
  nodes : List (List Byte)
  pc : Nat
  async : Bool
  ctrs : Sparse Nat
  tag : Option Nat
  due : List (Nat × Nat)
  deriving DecidableEq, Repr

/-- Writes held in a wake latch that arrived under one class entry (R75, R336): that entry, the OR of what they wrote, their number. -/
structure Latched where
  cls : Nat
  thresh : Nat
  timer : Nat
  target : Nat
  bits : Word64
  count : Nat
  deriving DecidableEq, Repr

/-- A notify register with its class entry and wake latch (R73 to R75, R336). `lParts` are the latched writes by the class entry they arrived under. -/
structure NReg where
  value : Word64
  count : Nat
  due : Option Nat
  cls : Nat
  thresh : Nat
  timer : Nat
  target : Nat
  group : Nat
  lOr : Word64
  lLast : Word64
  lCount : Nat
  lParts : List Latched
  deriving DecidableEq, Repr

/-- A tag-table entry (R72): its 32 bytes, the busy slots, payload messages waiting for launch (slot numbers, in order), whether a launch runs. -/
structure TagEnt where
  bytes : List Byte
  busy : List Nat
  queue : List Nat
  live : Option Nat
  deriving DecidableEq, Repr

/-- A flush under way (R172): FLUSHVA and FLUSHN as written, and once the caches have dropped their entries, the number from which requests were issued
after that. -/
structure Flush where
  va : Nat
  n : Nat
  dropped : Option Nat
  deriving DecidableEq, Repr

/-- A context group block (R294, R335). -/
structure Grp where
  en : Bool
  pimg : Nat
  psize : Nat
  pbound : Nat
  go : Bool
  migrate : Bool
  remove : Bool
  pstate : Nat
  pneed : Nat
  ptodo : List Nat
  pend : Nat
  pbad : Nat
  troot : Nat
  cbud : Nat
  pbud : Nat
  bbud : Nat
  tquota : Nat
  prbound : Nat
  prbase : Nat
  prsize : Nat
  prnotify : Nat
  prresp : Nat
  flushva : Nat
  flushn : Option Flush
  cfbase : Nat
  cfsize : Nat
  prseq : Nat
  winNow : Nat
  winLast : Nat
  deriving DecidableEq, Repr

/-- A translation-cache entry of the front end (R23); `pa`: where near store holds its code (R173). -/
structure Xlat where
  group : Nat
  form : List Byte
  step : Nat
  rev : Nat
  view : List Byte
  words : List Word64
  slots : List (Nat × Nat × Nat)
  kib : Nat
  pa : Nat
  used : Nat
  deriving DecidableEq, Repr

/-- A translation under way (R22, R25): its key, the portable section, the commands that wait for it. -/
structure XRun where
  group : Nat
  form : List Byte
  step : Nat
  rev : Nat
  view : List Byte
  sect : List Byte
  ents : List Nat
  words : List Nat
  cmds : List Nat
  deriving DecidableEq, Repr

/-! ## Errors, power, boot -/

/-- The retirement record (R325): everything retired, steered and capped. -/
structure Record where
  lanes : List (Nat × Nat)
  grans : List (Nat × Nat)
  banks : List (Nat × Nat)
  cols : List (Nat × Nat)
  cores : List Nat
  slices : List Nat
  chan : Option Nat
  wires : List (Nat × Nat × Nat)
  caps : List (Nat × Nat)
  clusters : List Nat
  deriving DecidableEq, Repr

/-- A log ring of R323: records written in all, the last 256 of them by index. -/
structure Log where
  total : Nat
  recs : Sparse (List Byte)
  deriving DecidableEq, Repr

/-- A vertical channel at work on a bad beat (R322): group, address, beat, retries done. -/
structure Beat where
  cluster : Nat
  grp : Nat
  pa : Nat
  beat : Nat
  retries : Nat
  deriving DecidableEq, Repr

/-- The instruction that a quadrant's slot has issued (R103, R105): the model's own latch between choosing and acting. `early`: register lanes that
this issue reads as they stood before a result not yet due (R51). `sync`: the one issue of a synchronising instruction for its set (R107), or its clause
error (R34): no arrival. -/
structure Issue where
  q : Nat
  warp : Nat
  hnd : Bool
  lanes : Mask
  hdr : Nat
  idx : Nat
  count : Nat
  now : Nat
  sync : Bool
  word : Word64
  instr : Option Instr
  early : Sparse (Option Word)
  deriving DecidableEq, Repr

/-- The ordering forms of R1. -/
inductive Form where
  | m360
  | p360
  | d90
  deriving DecidableEq, Repr

/-- The machine. -/
structure State where
  /-- The order in which parties act (the model's own; log entry 2). -/
  agenda : List Instr
  /-- The quadrant whose slot comes next when the agenda is empty (the model's own; log entry 2). -/
  turn : Nat
  /-- The counter of free values (the model's own; log entry 3). -/
  free : Nat
  /-- The issue between choosing and acting (the model's own; log entry 2). -/
  iss : Issue
  /-- The next identity to give (the model's own; log entry 2). -/
  nextId : Nat
  /-- Ordering form (R1). -/
  form : Form
  /-- Device stepping (R300 word 1). -/
  stepping : BitVec 5
  /-- The fused key hashes, rollback count and device identifier (R330, R332). -/
  keyHash1 : List Byte
  keyHash2 : List Byte
  rollback : Nat
  devId : List Byte
  /-- BOOTST (R329 to R331). -/
  bootst : Nat
  /-- The boot window (R329). -/
  bootWin : Sparse Byte
  /-- A BOOTGO under verification (R330). -/
  verifying : Bool
  /-- The accepted image's SHA-384 of M and SVN (R332). -/
  bootHash : List Byte
  svn : Nat
  /-- The two flash copies of the retirement record, newer first where it checks (R331). -/
  flash : List (Option Record)
  /-- The retirement record in force (R325). -/
  retRec : Record
  /-- Attestation (R332, R334). -/
  attNonce : List Byte
  attGo : Bool
  attReport : List Byte
  /-- INVCTL, PWRLIM, EVBASE, EVSIZE, NODEID (R334). -/
  invctl : Nat
  pwrlim : Nat
  evbase : Nat
  evsize : Nat
  nodeid : Nat
  /-- The smallest channel capacity in 256 MiB units on MLK-90-D (R173). -/
  farCap : Nat
  /-- Device time in ns since bring-up (R306), and the bandwidth window that it has reached (R89). -/
  ns : Nat
  window : Nat
  /-- Device memory (R173), host memory (R76, R169), other devices' memory keyed 2^52 × node + address (R169). -/
  mem : List Host.Cell
  host : List Host.Cell
  remote : List Host.Cell
  /-- Lines whose data is uncorrectable (R319). -/
  badLines : List Nat
  /-- L2 tags that are dirty or marked (R175). -/
  l2 : List Tag
  /-- The far-store channel departure (R180) and the departed slices (R181). -/
  depart : Option Depart
  slices : List Nat
  /-- Error times for the thresholds of R324: slice corrected, channel corrected, channel uncorrectable lines. -/
  sliceErr : List (Nat × Nat)
  chanErr : List (Nat × Nat)
  chanBad : List (Nat × Nat × Nat)
  /-- Cores by 8 × cluster + core, quadrants by 4 × core + quadrant, clusters. -/
  cores : Sparse Core
  quads : Sparse Quad
  clusters : Sparse Cluster
  /-- Work in being. -/
  ctxs : List Ctx
  grids : List Grid
  waits : List Wait
  cgroups : List CGroup
  blocks : List Block
  warps : List Warp
  /-- Operations in flight. -/
  net : List Req
  fetches : List Fetch
  pages : List Page
  copies : List Copy
  defs : List Def
  readers : List Reader
  mats : List Mat
  fills : List Fill
  redos : List Held
  pops : List PopWait
  /-- The front end. -/
  cmds : List Cmd
  hq : Sparse HQueue
  wq : Sparse WQueue
  graphs : Sparse Graph
  nregs : Sparse NReg
  gated : Bool
  /-- What the host's last read of a class 2 or 3 notify register returned (R73). -/
  hostGot : Word64
  tags : Sparse TagEnt
  groups : Sparse Grp
  xcache : List Xlat
  xruns : List XRun
  /-- MSI-X vectors sent, newest first (R74, R320). -/
  msix : List Nat
  /-- Logs (R323): array logs by section, vertical logs by cluster; error counts at words; wires steered (cluster, wire, spare); beats in retry. -/
  alogs : Sparse Log
  vlogs : Sparse Log
  wordErr : Sparse Nat
  beats : List Beat
  /-- Power (R339): alarm holds, since when, alarm clock steps taken, when the last was taken, whether the last 50 µs average was above the limit;
  thermal reset; links (R333, R338). -/
  alarm : Option Nat
  steps : Nat
  stepAt : Nat
  hot : Bool
  tripped : Bool
  linkUp : Bool
  deadNodes : List Nat
  deriving DecidableEq, Repr

/-- Why a run of the model can stop with a fault. -/
inductive Fault where
  /-- Raised by no meaning: the manual gives every step of this device an effect. Safe. -/
  | unspecified
  deriving DecidableEq, Repr

/-- Why the model refuses an instruction. -/
inductive Refusal where
  /-- An arm of `exec` that has no meaning yet, by its mnemonic. Safe: nothing is claimed of it. -/
  | notModelled (mnemonic : String)
  deriving DecidableEq, Repr

/-- What a step answers. -/
abbrev Out := Host.Outcome State Fault Refusal

/-! ## Values before anything is written -/

def Lane.init : Lane := { hdr := 0, idx := 0, exited := false, park := .run, passed := 0, fpte := 0, fpfl := 0 }

def Pace.init : Pace := { notBefore := 0, readyFrom := 0, readySince := none, yielded := false, starved := 0 }

def FailRec.none : FailRec := { count := 0, cause := 0, orgs := [] }

def Bar.idle : Bar := { arrivals := 0, expected := 0 }

def Quad.init : Quad := { cycle := 0, slotAt := 0, recent := [], lastSlot := 0, dead := [], badGran := [], rewriting := false, bank := none }

def Core.init : Core :=
  { l1 := [], ro := [], ic := [], tlb := [], cyc := 0, badBank := [], deadCol := [], colmap := [], colRewrite := false, narrow := none, badAcc := [], badArr := [],
    retired := false, inv := .idle, lastPass := 0, passOk := [], final := false }

def Cluster.init : Cluster := { recs := [], shelf := [], drift := 0, retired := false, clock := 850, gliding := false }

def Entry.init : Entry := { st := .free, kill := false, faulted := false, trec := [], img := [], gen := 0, waiters := [] }

def HQueue.init : HQueue :=
  { ring := 0, slots := 16, en := false, tail := 0, head := 0, group := 0, stopped := false, errsum := 0, held := [] }

def WQueue.init : WQueue := { ring := 0, slots := 64, en := false, head := 0, tail := 0, group := 0, wake := 0xFFFF }

def Graph.init : Graph :=
  { pending := 0, ovf := false, loaded := false, loading := false, running := false, faulted := false, group := 0xFFFFFFFF, nodes := [],
    pc := 0, async := false, ctrs := [], tag := none, due := [] }

def NReg.init : NReg :=
  { value := 0, count := 0, due := none, cls := 0, thresh := 0, timer := 0, target := 0, group := 0, lOr := 0, lLast := 0, lCount := 0, lParts := [] }

def TagEnt.init : TagEnt := { bytes := List.replicate 32 0, busy := [], queue := [], live := none }

def Grp.init : Grp :=
  { en := false, pimg := 0, psize := 0, pbound := 0, go := false, migrate := false, remove := false, pstate := 0, pneed := 0, ptodo := [],
    pend := 0, pbad := 0, troot := 0, cbud := 0, pbud := 0, bbud := 0, tquota := 0, prbound := 0, prbase := 0, prsize := 0, prnotify := 0,
    prresp := 0, flushva := 0, flushn := none, cfbase := 0, cfsize := 0, prseq := 0, winNow := 0, winLast := 0 }

def Img.init : Img :=
  { kind := 0, flags := 0, code := 0, entry := 0, variant := 0, gran := 0, gx := 0, gy := 0, gz := 0, warps := 0, gsize := 0, scratch := 0, accs := 0,
    bars := 0, names := 0, args := 0, argSize := 0, group := 0, htab := 0, cbud := 0, pbud := 0, bbud := 0, view := [], cursor := 0, nw := 0, nb := 0,
    ng := 0, cause := 0, woff := 0, boff := 0, goff := 0, size := 0, adtb := 0, rdst := 0, qsel := 0, fpte := 0, tstep := 0, trev := 0, dbase := 0,
    dsize := 0 }

def Ctx.init : Ctx :=
  { id := 0, grid := 0, group := 0, img := 0, h := Img.init, src := .leaf, phase := .running, code := 0, codeEnd := 0, entry := 0, heads := [],
    tcode := [], tat := none, variant := 0, tstep := 0, trev := 0, idem := false, chk := false, inter := false, governed := false, adtb := 0, htab := 0,
    rdst := 0, qsel := 0, cursor := 0, done := 0, roFresh := [], lins := [] }

def Record.init : Record :=
  { lanes := [], grans := [], banks := [], cols := [], cores := [], slices := [], chan := none, wires := [], caps := [], clusters := [] }

def Log.init : Log := { total := 0, recs := [] }

def Issue.none : Issue :=
  { q := 0, warp := 0, hnd := false, lanes := 0, hdr := 0, idx := 0, count := 0, now := 0, sync := false, word := 0, instr := Option.none, early := [] }

/-- The machine right after reset, as the boot ROM leaves it (R329): arrays cleared, BOOTST 1, waiting for a firmware image. -/
def State.reset : State :=
  { agenda := [], turn := 0, free := 0, iss := Issue.none, nextId := 1, form := .m360, stepping := 0,
    keyHash1 := List.replicate 48 0, keyHash2 := List.replicate 32 0, rollback := 0, devId := List.replicate 16 0,
    bootst := 1, bootWin := [], verifying := false, bootHash := List.replicate 48 0, svn := 0,
    flash := [some Record.init, some Record.init], retRec := Record.init,
    attNonce := List.replicate 32 0, attGo := false, attReport := List.replicate 512 0,
    invctl := 100, pwrlim := 2600, evbase := 0, evsize := 0, nodeid := 0, farCap := 0, ns := 0, window := 0,
    mem := [], host := [], remote := [], badLines := [], l2 := [], depart := none, slices := [], sliceErr := [], chanErr := [], chanBad := [],
    cores := [], quads := [], clusters := [], ctxs := [], grids := [], waits := [], cgroups := [], blocks := [], warps := [],
    net := [], fetches := [], pages := [], copies := [], defs := [], readers := [], mats := [], fills := [], redos := [], pops := [],
    cmds := [], hq := [], wq := [], graphs := [], nregs := [], gated := false, hostGot := 0, tags := [], groups := [], xcache := [], xruns := [],
    msix := [], alogs := [], vlogs := [], wordErr := [], beats := [], alarm := none, steps := 0, stepAt := 0, hot := false, tripped := false, linkUp := true,
    deadNodes := [] }

end Sys2Proof.Machine
end

