-- ==== Sys2Proof/Machine/Access.lean ====
section
/-! DEFINITION. Reading and replacing the parts of the state by identity, free values, time, and what follows from a core's live units
(R91, R92, R96). -/

namespace Sys2Proof.Machine

/-! ## Parts by identity -/

def State.warp? (s : State) (i : Nat) : Option Warp := s.warps.find? fun w => w.id = i

def State.block? (s : State) (i : Nat) : Option Block := s.blocks.find? fun b => b.id = i

def State.ctx? (s : State) (i : Nat) : Option Ctx := s.ctxs.find? fun c => c.id = i

def State.cgroup? (s : State) (i : Nat) : Option CGroup := s.cgroups.find? fun c => c.id = i

def State.grid? (s : State) (i : Nat) : Option Grid := s.grids.find? fun c => c.id = i

/-- `f` on the warp of identity `i`, if there is one. -/
def State.onWarp (s : State) (i : Nat) (f : Warp → Warp) : State := { s with warps := s.warps.map fun w => if w.id = i then f w else w }

def State.onBlock (s : State) (i : Nat) (f : Block → Block) : State :=
  { s with blocks := s.blocks.map fun b => if b.id = i then f b else b }

def State.onCtx (s : State) (i : Nat) (f : Ctx → Ctx) : State := { s with ctxs := s.ctxs.map fun c => if c.id = i then f c else c }

def State.onCGroup (s : State) (i : Nat) (f : CGroup → CGroup) : State :=
  { s with cgroups := s.cgroups.map fun c => if c.id = i then f c else c }

def State.onGrid (s : State) (i : Nat) (f : Grid → Grid) : State := { s with grids := s.grids.map fun c => if c.id = i then f c else c }

def State.core (s : State) (k : Nat) : Core := sget Core.init k s.cores

def State.onCore (s : State) (k : Nat) (f : Core → Core) : State := { s with cores := supd Core.init k f s.cores }

def State.quad (s : State) (q : Nat) : Quad := sget Quad.init q s.quads

def State.onQuad (s : State) (q : Nat) (f : Quad → Quad) : State := { s with quads := supd Quad.init q f s.quads }

def State.cluster (s : State) (c : Nat) : Cluster := sget Cluster.init c s.clusters

def State.onCluster (s : State) (c : Nat) (f : Cluster → Cluster) : State := { s with clusters := supd Cluster.init c f s.clusters }

def State.grp (s : State) (g : Nat) : Grp := sget Grp.init g s.groups

def State.onGrp (s : State) (g : Nat) (f : Grp → Grp) : State := { s with groups := supd Grp.init g f s.groups }

def State.hqueue (s : State) (q : Nat) : HQueue := sget HQueue.init q s.hq

def State.onHq (s : State) (q : Nat) (f : HQueue → HQueue) : State := { s with hq := supd HQueue.init q f s.hq }

def State.wqueue (s : State) (q : Nat) : WQueue := sget WQueue.init q s.wq

def State.onWq (s : State) (q : Nat) (f : WQueue → WQueue) : State := { s with wq := supd WQueue.init q f s.wq }

def State.graph (s : State) (g : Nat) : Graph := sget Graph.init g s.graphs

def State.onGraph (s : State) (g : Nat) (f : Graph → Graph) : State := { s with graphs := supd Graph.init g f s.graphs }

def State.nreg (s : State) (n : Nat) : NReg := sget NReg.init n s.nregs

def State.onNreg (s : State) (n : Nat) (f : NReg → NReg) : State := { s with nregs := supd NReg.init n f s.nregs }

def State.tagEnt (s : State) (t : Nat) : TagEnt := sget TagEnt.init t s.tags

def State.onTag (s : State) (t : Nat) (f : TagEnt → TagEnt) : State := { s with tags := supd TagEnt.init t f s.tags }

/-- A fresh identity. -/
def State.fresh (s : State) : Nat × State := (s.nextId, { s with nextId := s.nextId + 1 })

/-! ## Free values (log entry 3) -/

/-- A free bit, and the counter moved on. -/
def State.draw (s : State) : Bool × State := (Config.freeBit s.free, { s with free := s.free + 1 })

/-- A free number below `n`. -/
def State.drawNat (s : State) (n : Nat) : Nat × State := (Config.freeNat s.free % n, { s with free := s.free + 1 })

/-- `a` or `b`, freely; when they are equal nothing is free. -/
def State.pick {α : Type} [DecidableEq α] (s : State) (a b : α) : α × State :=
  if a = b then (a, s) else if (s.draw).1 then (a, (s.draw).2) else (b, (s.draw).2)

/-- Device time in µs (R77). -/
def State.us (s : State) : Nat := s.ns / 1000

/-! ## Form (R1) and live units -/

def State.nClusters (s : State) : Nat := match s.form with | .d90 => 12 | _ => 48

def State.nSlices (s : State) : Nat := match s.form with | .d90 => 96 | _ => 384

def State.nChans (s : State) : Nat := match s.form with | .d90 => 24 | _ => 96

/-- The live physical lanes of a quadrant, ascending (R91, R92). -/
def Quad.live (q : Quad) : List Nat := (List.range 18).filter fun l => !q.dead.contains l

/-- Lanes used in a beat (R92). -/
def Quad.perBeat (q : Quad) : Nat := min 16 q.live.length

/-- The beat count b of R92; 15 where no lane is live (R95). -/
def Quad.beats (q : Quad) : Nat := if q.perBeat = 0 then 15 else (32 + q.perBeat - 1) / q.perBeat

/-- A quadrant's part of the live width (R96). -/
def Quad.width (q : Quad) : Nat := if q.perBeat = 0 then 0 else 256 / q.beats

/-- WIDTH of a core (R96). -/
def State.coreWidth (s : State) (k : Nat) : Nat :=
  (s.quad (4 * k)).width + (s.quad (4 * k + 1)).width + (s.quad (4 * k + 2)).width + (s.quad (4 * k + 3)).width

/-- The concordance of R92: the beat and physical lane of logical lane `l`. -/
def Quad.place (q : Quad) (l : Nat) : Nat × Nat := (l / q.perBeat, q.live.getD (l % q.perBeat) 0)

/-- The cores of the part, by 8 × cluster + core. -/
def State.allCores (s : State) : List Nat := List.range (8 * s.nClusters)

/-- FEATQ word 12 (R300). -/
def State.liveCores (s : State) : Nat := (s.allCores.filter fun k => !(s.core k).retired).length

/-- The clock a cluster may run at: its ageing cap, lowered by 25 MHz for each of the alarm's steps, to 750 MHz at least (R326, R339). -/
def State.cap (s : State) (c : Nat) : Nat :=
  let d := (s.cluster c).drift
  let age := if d < 60 then 850 else if d < 90 then 825 else if d < 120 then 800 else if d < 150 then 775 else 750
  max 750 (age - 25 * s.steps)

/-- What a quadrant has issued and not committed at its cycle, oldest first (R93). -/
def Quad.open (q : Quad) : List Recent := q.recent.filter fun r => decide (q.cycle ≤ r.commit)

/-- What an issue asks of other units leaves its core once the issue has committed (R93). -/
def State.uncommitted (s : State) (o : Origin) : Bool := [0, 1, 2, 3].any fun k => (s.quad (4 * o.core + k)).open.any fun r => decide (r.seq = o.seq)

/-! ## Small helpers -/

/-- The `n`-th item taken out of a list. -/
def dropAt {α : Type} (n : Nat) (l : List α) : List α := l.take n ++ l.drop (n + 1)

/-- The `n`-th item replaced. -/
def setAt {α : Type} (n : Nat) (x : α) (l : List α) : List α := l.set n x

/-- Sorted insertion without repeats. -/
def insNat (n : Nat) : List Nat → List Nat
  | [] => [n]
  | m :: r => if n < m then n :: m :: r else if n = m then m :: r else m :: insNat n r

/-- Sorted insertion by a key. -/
def insBy {α : Type} (k : α → Nat) (x : α) : List α → List α
  | [] => [x]
  | y :: r => if k x < k y then x :: y :: r else y :: insBy k x r

def sortBy {α : Type} (k : α → Nat) (l : List α) : List α := l.foldl (fun r x => insBy k x r) []

/-- Add one, saturating at 255. -/
def sat255 (n : Nat) : Nat := min 255 n

/-- Fold over a list with the state. -/
def State.each {α : Type} (s : State) (l : List α) (f : State → α → State) : State := l.foldl f s

/-- Whether a number is a power of two within bounds. -/
def isPow2 (lo hi n : Nat) : Bool := (List.range 21).any fun k => decide (n = 2 ^ k) && decide (lo ≤ n) && decide (n ≤ hi)

end Sys2Proof.Machine
end

