-- ==== Sys2Proof/Machine/Home.lean ====
section
/-! DEFINITION. Physical memory (R173), the home slices' view of it (R175 to R181, R319), translation (R168 to R170) and accesses by
virtual address that the front end and the engines make. -/

namespace Sys2Proof.Machine

/-! ## The map of R173 -/

/-- The addressable far store F in bytes. -/
def State.farF (s : State) : Nat :=
  match s.form with
  | .d90 => (23 * s.farCap * 0x10000000) / 0x100000000 * 0x100000000
  | _ => 0x17C00000000

/-- End of the far store that contexts may map. -/
def State.farTop (s : State) : Nat := s.farF - 0x20000000

/-- End of the near store that contexts may map. -/
def State.nearTop (s : State) : Nat := match s.form with | .d90 => 0x20060000000 | _ => 0x20160000000

/-- End of the near store. -/
def State.nearEnd (s : State) : Nat := match s.form with | .d90 => 0x20080000000 | _ => 0x20200000000

def nearBase : Nat := 0x20000000000

def apertureBase : Nat := 0x30001000000

def tagBase : Nat := 0x30000000000

/-- Device memory exists at an address. -/
def State.exists? (s : State) (pa : Nat) : Bool := decide (pa < s.farF) || (decide (nearBase ≤ pa) && decide (pa < s.nearEnd))

/-- An address in the page that holds the notify aperture (R361). -/
def inAperture (pa : Nat) : Bool := decide (apertureBase ≤ pa)

/-- R173: a context may map `size` bytes at `pa`. -/
def State.mappable (s : State) (pa size : Nat) : Bool :=
  decide (pa + size ≤ s.farTop) || (decide (nearBase ≤ pa) && decide (pa + size ≤ s.nearTop)) || decide (pa = apertureBase)

def State.isFar (s : State) (pa : Nat) : Bool := decide (pa < s.farF)

/-! ## Homes (R177, R178, R181) -/

/-- H of R177. -/
def hashLine (pa : Nat) : Nat := (pa / 256) ^^^ (pa / 256 / 4096)

/-- Where each channel's annex begins: after its home lines. On MLK-90-D, where the firmware places it, it does too (log entry 87). -/
def State.annexBase (s : State) : Nat := (s.farF / 256 + s.nChans - 1) / s.nChans * 256

/-- The home channel and channel-local address of a far-store line: its own, or its annex place once its slot has left (R178). -/
def State.farHome (s : State) (pa : Nat) : Nat × Nat :=
  let n := s.nChans
  let h := hashLine pa
  let moved := match s.depart with
    | some d => decide (h % n = d.ch) && (d.gone || d.moved.contains (pa / 256))
    | none => false
  if moved then
    let live := (List.range n).filter fun c => some c ≠ s.depart.map (·.ch)
    (live.getD (h / n % (n - 1)) 0, s.annexBase + h / n / (n - 1) * 256)
  else (h % n, h / n * 256)

/-- The home slice of a line (R177, R178). -/
def State.sliceHome (s : State) (pa : Nat) : Nat :=
  let n := s.nSlices
  let h := hashLine pa
  if s.slices.contains (h % n) then
    let live := (List.range n).filter fun c => !s.slices.contains c
    live.getD (h / n % live.length) 0
  else h % n

/-! ## Device memory through the home slices -/

/-- The lines that bytes touch. -/
def linesOf (pa n : Nat) : List Nat := if n = 0 then [] else (List.range ((pa + n - 1) / 256 - pa / 256 + 1)).map (· + pa / 256)

/-- Bytes of device memory, or nothing when a line of them is uncorrectable (R319). -/
def State.readDev (s : State) (pa n : Nat) : Option (List Byte) :=
  if (linesOf pa n).any s.badLines.contains then none else some (readCells s.mem pa n)

/-- A line's bytes. -/
def State.lineBytes (s : State) (line : Nat) : List Byte := readCells s.mem (256 * line) 256

/-- The tag that a write leaves (R175, R319): dirty, the group that wrote, and the memory beneath: what it was when the line became
dirty, or any contents since (a writeback happens at no stated moment; log entry 19). -/
def State.touchLine (s : State) (line group : Nat) (zero ef : Bool) : State :=
  match s.l2.find? fun t => t.line = line with
  | none => { s with l2 := { line := line, zero := zero, ef := ef, group := group, below := s.lineBytes line } :: s.l2 }
  | some t =>
    let r := s.pick t.below (s.lineBytes line)
    { r.2 with l2 := r.2.l2.map fun u => if u.line = line then { u with zero := zero, ef := u.ef || ef, group := group, below := r.1 } else u }

/-- The far-store bookkeeping of a write (R179): a line of the departing slot becomes moved. -/
def State.moveLine (s : State) (line : Nat) : State :=
  match s.depart with
  | none => s
  | some d =>
    if s.isFar (256 * line) && decide (hashLine (256 * line) % s.nChans = d.ch) && !d.gone && !d.moved.contains line then
      { s with depart := some { d with moved := insNat line d.moved, kept := d.kept.filter (· ≠ line) } }
    else s

/-- The bandwidth windows brought up to the present (R89): a window that ended just now is the last completed one; of windows passed over without an
access the last has no bytes. -/
def State.rollWindow (s : State) : State :=
  if s.ns / 10000 = s.window then s
  else
    let last (n : Nat) : Nat := if s.ns / 10000 = s.window + 1 then n else 0
    { s with window := s.ns / 10000, groups := smap Grp.init (fun g => { g with winLast := last g.winNow, winNow := 0 }) s.groups,
             grids := s.grids.map fun g => { g with winLast := last g.winNow, winNow := 0 } }

/-- The 64-byte sectors that an access touches. -/
def sectorsOf (pa n : Nat) : List Nat := if n = 0 then [] else (List.range ((pa + n - 1) / 64 - pa / 64 + 1)).map (· + pa / 64)

/-- Bytes of an access at a far-store channel: its sectors, but for those that the home slice serves (R89; log entry 76). -/
def State.channelBytes (s : State) (pa n : Nat) : Nat := 64 * ((sectorsOf pa n).filter fun k => !Config.sliceServes s.free k).length

/-- Far-store bytes charged to the bandwidth window of a group, and of a grid where one makes the access (R89). -/
def State.chargeGrid (s : State) (grid pa n : Nat) : State :=
  if s.isFar pa then s.rollWindow.onGrid grid fun g => { g with winNow := g.winNow + s.channelBytes pa n } else s

def State.chargeGroup (s : State) (group pa n : Nat) : State :=
  if s.isFar pa then s.rollWindow.onGrp group fun g => { g with winNow := g.winNow + s.channelBytes pa n } else s

def State.charge (s : State) (o : Origin) (pa n : Nat) : State := (s.chargeGroup o.group pa n).chargeGrid o.grid pa n

/-- One write within a line at its home slice: nothing when the line must be read and is uncorrectable (R319). -/
def State.writeLine (s : State) (pa : Nat) (b : List Byte) (group : Nat) (ef : Bool) : Option State :=
  let line := pa / 256
  let full := decide (b.length = 256)
  if s.badLines.contains line && !full then none
  else
    let s := (s.touchLine line group (full && allZero b) ef).moveLine line
    some { s with badLines := if full then s.badLines.filter (· ≠ line) else s.badLines, mem := writeCells pa b s.mem }

/-- Bytes cut at line ends: address and bytes of each piece. -/
def pieces : Nat → Nat → List Byte → List (Nat × List Byte)
  | 0, _, _ => []
  | fuel + 1, pa, b =>
    if b.isEmpty then [] else
      let k := 256 - pa % 256
      (pa, b.take k) :: pieces fuel (pa + k) (b.drop k)

/-- Ranges cut at line ends: address and length of each piece. -/
def spans : Nat → Nat → Nat → List (Nat × Nat)
  | 0, _, _ => []
  | fuel + 1, a, n => if n = 0 then [] else (a, min n (256 - a % 256)) :: spans fuel (a + min n (256 - a % 256)) (n - min n (256 - a % 256))

/-- How many pieces a range can have. -/
def nSpans (n : Nat) : Nat := n / 256 + 2

/-! ## Translation tables (R168, R169) -/

/-- A leaf found: the page's virtual address, its size as a power of two, the entry. -/
structure Leaf where
  page : Nat
  bits : Nat
  pte : Word64
  deriving DecidableEq, Repr

/-- How a walk ends (R170, R319). -/
inductive WalkEnd where
  | leaf (l : Leaf)
  | fault (cause : Nat)
  | svc
  | abort (pa : Nat)
  deriving DecidableEq, Repr

/-- Translation-fault causes (R286). -/
def cNOMAP : Nat := 1
def cNONCANON : Nat := 2
def cBADPTE : Nat := 3
def cWRITE : Nat := 4
def cNOEXEC : Nat := 5

def pteTarget (e : Word64) : Nat := (e.extractLsb' 60 3).toNat
def pteNode (e : Word64) : Nat := (e.extractLsb' 52 8).toNat
def pteAddr (e : Word64) : Nat := 256 * (e.extractLsb' 8 44).toNat
def pteBit (e : Word64) (n : Nat) : Bool := e.getLsbD n

/-- R169: the form of a valid entry at a level whose leaf maps 2^bits bytes. -/
def State.pteOk (s : State) (e : Word64) (leafOk leafMust : Bool) (bits : Nat) : Bool :=
  let leaf := pteBit e 4
  let t := pteTarget e
  !pteBit e 63 && decide ((e.extractLsb' 6 2) = 0#2) && !(pteBit e 1 && pteBit e 2) &&
    (if leaf then
      leafOk && decide (t ≤ 2) && (decide (t = 2) || decide (pteNode e = 0)) && (decide (t = 1) || !pteBit e 5) &&
        decide (pteAddr e % 2 ^ bits = 0) && (decide (t ≠ 0) || s.mappable (pteAddr e) (2 ^ bits))
     else !leafMust && decide (t = 0) && decide (pteNode e = 0) && !pteBit e 5)

/-- The levels of R168: lowest virtual bit, index bits. -/
def levels : List (Nat × Nat) := [(39, 13), (30, 9), (21, 9), (16, 5)]

/-- A walk from a table. -/
def State.walkFrom (s : State) (va : Nat) : List (Nat × Nat) → Nat → WalkEnd
  | [], _ => .fault cBADPTE
  | (lo, n) :: r, tab =>
    match s.readDev (tab + 8 * (va / 2 ^ lo % 2 ^ n)) 8 with
    | none => .abort (tab + 8 * (va / 2 ^ lo % 2 ^ n))
    | some b =>
      let e : Word64 := BitVec.ofNat 64 (ofBytes b)
      if !pteBit e 0 then (if pteBit e 3 then .svc else .fault cNOMAP)
      else if !s.pteOk e (decide (lo ≠ 39)) (decide (lo = 16)) lo then .fault cBADPTE
      else if pteBit e 4 then .leaf { page := va / 2 ^ lo * 2 ^ lo, bits := lo, pte := e }
      else s.walkFrom va r (pteAddr e)

/-- The walk of a virtual address of a group. -/
def State.walk (s : State) (group va : Nat) : WalkEnd := s.walkFrom va levels (s.grp group).troot

/-- What a translation answers: where, and whether atomics may go to the root; a fault; service; an abort of the walk. -/
inductive Xl where
  | ok (t : Tgt) (ao : Bool)
  | fault (cause : Nat)
  | svc
  | abort (pa : Nat)
  deriving DecidableEq, Repr

/-- The place of an address under a leaf. -/
def Leaf.tgt (l : Leaf) (va : Nat) : Tgt :=
  let a := pteAddr l.pte + va % 2 ^ l.bits
  match pteTarget l.pte with
  | 0 => .dev a
  | 1 => .host a
  | _ => .fab (pteNode l.pte) a

def Acc.writes : Acc → Bool
  | .write | .atomic | .copy true => true
  | _ => false

/-- Permission of a leaf for an access (R169). -/
def Leaf.use (l : Leaf) (va : Nat) (a : Acc) : Xl :=
  if a.writes && !pteBit l.pte 1 then .fault cWRITE
  else if decide (a = .fetch) && !pteBit l.pte 2 then .fault cNOEXEC
  else .ok (l.tgt va) (pteBit l.pte 5)

/-- A walk's end as a translation. -/
def WalkEnd.use (w : WalkEnd) (va : Nat) (a : Acc) : Xl :=
  match w with
  | .leaf l => l.use va a
  | .fault c => .fault c
  | .svc => .svc
  | .abort pa => .abort pa

/-- A translation that reads the tables anew (the front end's and the engines'). -/
def State.xl (s : State) (group va : Nat) (a : Acc) : Xl := (s.walk group va).use va a

/-- The cached leaf for an address, if the core's translation cache holds it (R170). -/
def State.tlbHit (s : State) (core group va : Nat) : Option Leaf :=
  ((s.core core).tlb.find? fun t => decide (t.group = group) && decide (va / 2 ^ t.bits * 2 ^ t.bits = t.page)).map
    fun t => { page := t.page, bits := t.bits, pte := t.pte }

/-- A leaf put into a core's translation cache. -/
def State.tlbFill (s : State) (core group : Nat) (l : Leaf) : State :=
  s.onCore core fun c => { c with tlb := { group := group, page := l.page, bits := l.bits, pte := l.pte } ::
    (c.tlb.filter fun t => !(decide (t.group = group) && decide (t.page = l.page) && decide (t.bits = l.bits))).take 511 }

/-- A core's translation (R170): a cached leaf, unless it has been evicted, else a walk that fills the cache. Also whether it missed. -/
def State.coreXl (s : State) (core group va : Nat) (a : Acc) : Xl × Bool × State :=
  let miss (s : State) : Xl × Bool × State :=
    match s.walk group va with
    | .leaf l => (l.use va a, true, s.tlbFill core group l)
    | w => (w.use va a, true, s)
  match s.tlbHit core group va with
  | some l => let r := s.draw; if r.1 then (l.use va a, false, r.2) else miss r.2
  | none => miss s

/-! ## Accesses to a place -/

/-- CAUSE codes of R258. -/
def fLINK : Nat := 1
def fREFUSED : Nat := 2
def fABORT : Nat := 3
def fRESET : Nat := 4
def fXLATE : Nat := 5
def fDESC : Nat := 6

/-- The key of another device's memory. -/
def farKey (node pa : Nat) : Nat := 2 ^ 52 * node + pa

/-- Bytes at a place, or the CAUSE of R258. -/
def State.readTgt (s : State) (t : Tgt) (n : Nat) : Except Nat (List Byte) :=
  match t with
  | .dev pa => if inAperture pa then .error fREFUSED else match s.readDev pa n with | some b => .ok b | none => .error fABORT
  | .host ba => if s.linkUp then .ok (readCells s.host ba n) else .error fLINK
  | .fab node pa =>
    if s.deadNodes.contains node then .error fLINK
    else if tagBase ≤ pa then .error fREFUSED else .ok (readCells s.remote (farKey node pa) n)

/-- Bytes written at a place, or the CAUSE. Pieces do not cross lines. -/
def State.writeTgt (s : State) (t : Tgt) (b : List Byte) (group : Nat) (ef : Bool) : Except Nat State :=
  match t with
  | .dev pa =>
    if inAperture pa then .error fREFUSED
    else match s.writeLine pa b group ef with | some s => .ok s | none => .error fABORT
  | .host ba => if s.linkUp then .ok { s with host := writeCells ba b s.host } else .error fLINK
  | .fab node pa =>
    if s.deadNodes.contains node then .error fLINK
    else if tagBase ≤ pa then .error fREFUSED
    else .ok { s with remote := writeCells (farKey node pa) b s.remote }

/-! ## Accesses by virtual address -/

/-- Why an access by virtual address ended early: a CAUSE of R258, or service needed (cause 0), and the address. -/
structure VaErr where
  cause : Nat
  va : Nat
  deriving DecidableEq, Repr

/-- The place of a virtual address for the front end or an engine. -/
def State.place (s : State) (group va : Nat) (a : Acc) : Except VaErr Tgt :=
  if 2 ^ 52 ≤ va then .error { cause := fXLATE, va := va }
  else match s.xl group va a with
  | .ok t _ => .ok t
  | .svc => .error { cause := 0, va := va }
  | .fault _ => .error { cause := fXLATE, va := va }
  | .abort _ => .error { cause := fABORT, va := va }

/-- `n` bytes of a group's virtual memory. -/
def State.readVa (s : State) (group va n : Nat) (a : Acc) : Except VaErr (List Byte) :=
  (spans (nSpans n) va n).foldlM (init := []) fun acc p => do
    let t ← s.place group p.1 a
    match s.readTgt t p.2 with
    | .ok b => pure (acc ++ b)
    | .error c => throw { cause := c, va := p.1 }

/-- Bytes at a place charged to a group's bandwidth window (R89). -/
def State.chargeTgt (s : State) (group : Nat) (t : Tgt) (n : Nat) : State := match t with | .dev pa => s.chargeGroup group pa n | _ => s

/-- Bytes written to a group's virtual memory; the pieces before a failure stay written. -/
def State.writeVa (s : State) (group va : Nat) (b : List Byte) (a : Acc) : State × Option VaErr :=
  (pieces (nSpans b.length) va b).foldl (init := (s, none)) fun r p =>
    match r.2 with
    | some _ => r
    | none =>
      match r.1.place group p.1 a with
      | .error e => (r.1, some e)
      | .ok t =>
        match r.1.writeTgt t p.2 group false with
        | .ok s => (s.chargeTgt group t p.2.length, none)
        | .error c => (r.1, some { cause := c, va := p.1 })

/-- A number read by virtual address. -/
def State.readVaN (s : State) (group va n : Nat) : Option Nat :=
  match s.readVa group va n .read with
  | .ok b => some (ofBytes b)
  | .error _ => none

end Sys2Proof.Machine
end

