-- ==== Sys2Proof/Machine/Events.lean ====
section
/-! DEFINITION. What the device tells the outside world: the event ring (R76 to R79), MSI-X messages and notify registers (R70, R73 to R75), the
context fault ring (R293), and the failure records that lead to it (R256, R292). -/

namespace Sys2Proof.Machine

/-! ## The event ring -/

/-- Status codes (R78, R311). -/
def stTQUOTA : Nat := 4
def stBADCMD : Nat := 8
def stACCESS : Nat := 9
def stGBUSY : Nat := 10
def stTIMEOUT : Nat := 11
def stBUSY : Nat := 12
def stTOOLONG : Nat := 13
def stNOTAG : Nat := 14
def stCTXFAULT : Nat := 15
def stFINAL : Nat := 16
def stCORRECTED : Nat := 17
def stUNCORR : Nat := 18
def stRETIRED : Nat := 19
def stCAPLOW : Nat := 20
def stPREEMPTED : Nat := 21

/-- A number in host memory. -/
def State.hostN (s : State) (a n : Nat) : Nat := ofBytes (readCells s.host a n)

def State.putHost (s : State) (a : Nat) (b : List Byte) : State := { s with host := writeCells a b s.host }

/-- The ring is full (R76). -/
def State.ringFull (s : State) : Bool := decide ((s.hostN (s.evbase + 4) 4 + 1) % s.evsize = s.hostN s.evbase 4 % s.evsize)

/-- The 32 bytes of a record (R77). -/
def EvRec.bytes (r : EvRec) (us : Nat) : List Byte :=
  toBytes 1 r.kind ++ toBytes 1 r.srcK ++ toBytes 2 r.src ++ toBytes 4 r.tag ++ toBytes 4 r.status ++ toBytes 4 r.group ++ toBytes 8 r.detail ++
    toBytes 8 us

/-- The record written, then the tail advanced (R76). -/
def State.ringPut (s : State) (r : EvRec) : State :=
  let tail := s.hostN (s.evbase + 4) 4
  (s.putHost (s.evbase + 64 + 32 * (tail % s.evsize)) (r.bytes s.us)).putHost (s.evbase + 4) (toBytes 4 ((tail + 1) % s.evsize))

/-- A record lost: the overflow bit and the lost count (R76, R79). -/
def State.ringLose (s : State) : State :=
  (s.putHost (s.evbase + 8) (toBytes 4 (s.hostN (s.evbase + 8) 4 ||| 1))).putHost (s.evbase + 16) (toBytes 8 (s.hostN (s.evbase + 16) 8 + 1))

/-- A record falls due (R79). A queue's completion or warning waits for room; every other record is lost while the ring is full. A queue's error record sets its
ERRSUM bit, though no ring takes it (R57; log entry 86). -/
def State.post (s : State) (r : EvRec) : State :=
  let s := if r.srcK = 1 && r.kind = 2 then s.onHq r.src fun q => { q with errsum := q.errsum ||| (1#64 <<< r.status) } else s
  if s.evsize = 0 then s
  else if r.srcK = 1 && r.kind ≠ 2 && (s.ringFull || !(s.hqueue r.src).held.isEmpty) then s.onHq r.src fun q => { q with held := q.held ++ [r] }
  else if s.ringFull then s.ringLose
  else s.ringPut r

/-- A record from the device itself. -/
def State.postDev (s : State) (kind src tag status group detail : Nat) : State :=
  s.post { kind := kind, srcK := 4, src := src, tag := tag, status := status, group := group, detail := detail }

/-- The unit field of R311's tag. -/
def unitTag (kind core quad : Nat) : Nat := kind + 256 * core + 65536 * quad

/-! ## Uncorrectable errors met by a read (R320, R323) -/

/-- The section whose SRAM holds a near-store word: its place is fixed and invisible (R173). A single-die part is one section. -/
def State.section_ (s : State) (pa : Nat) : Nat := match s.form with | .d90 => 0 | _ => Config.nearSection (pa / 8) % 4

/-- A record added to an array log. -/
def Log.add (l : Log) (b : List Byte) : Log := { total := l.total + 1, recs := sput [] (l.total % 256) b l.recs }

/-- The 32 bytes of an array-log record (R323). -/
def arrayRec (kind section_ die bit addr count cluster core us : Nat) : List Byte :=
  toBytes 1 kind ++ toBytes 1 section_ ++ toBytes 1 die ++ toBytes 1 bit ++ toBytes 4 0 ++ toBytes 8 addr ++ toBytes 4 count ++ toBytes 1 cluster ++
    toBytes 1 core ++ toBytes 2 0 ++ toBytes 8 us

/-- A detection that concerns no address of memory (R320): the event record and the message on vector 0. -/
def State.detectUnit (s : State) (src tag group detail : Nat) : State :=
  let s := s.postDev 2 src tag stUNCORR group detail
  { s with msix := 0 :: s.msix }

/-- One detection of an uncorrectable error at a physical address (R320): the near-store log, the event record, the message on vector 0. `core`: the core of
the cluster that read, or 0xFF (R323). The log names the 64-bit word. -/
def State.detect (s : State) (pa cluster core group : Nat) : State :=
  let near := decide (nearBase ≤ pa)
  let a := pa / 8 * 8
  let n := sget 0 a s.wordErr + 1
  let sec := s.section_ pa
  let s := if near then
      { s with wordErr := sput 0 a n s.wordErr,
               alogs := supd Log.init sec (fun l => l.add (arrayRec 2 sec (hashLine pa % 2) 0xFF a n cluster core s.us)) s.alogs }
    else
      let ch := (s.farHome pa).1
      { s with chanBad := (s.chanBad.filter fun x => !(decide (x.1 = ch) && decide (x.2.1 = pa / 256))) ++ [(ch, pa / 256, s.ns)] }
  let s := s.postDev 2 (if near then cluster else 0xFFFF) (unitTag (if near then 9 else 8) (if near then core else 0xFF) 0xFF) stUNCORR group pa
  { s with msix := 0 :: s.msix }

/-- The same for an access by virtual address. -/
def State.detectVa (s : State) (group va cluster core : Nat) : State :=
  match s.xl group va .read with
  | .ok (.dev pa) _ => s.detect pa cluster core group
  | .abort pa => s.detect pa cluster core group
  | _ => s

/-! ## Notify registers -/

/-- An MSI-X message on a vector; vector 0 belongs to R320 and a notify register bound to it sends none. -/
def State.interrupt (s : State) (v : Nat) : State := if v = 0 then s else { s with msix := v :: s.msix }

/-- A tag's launch has ended (R72): its slot is free and the next waiting message may launch. -/
def State.tagDone (s : State) (t : Nat) : State :=
  s.onTag t fun e => match e.live with | some slot => { e with live := none, busy := e.busy.erase slot } | none => e

/-- R70: a trigger of graph `g`. -/
def State.trigger (s : State) (g : Nat) : State :=
  s.onGraph g fun x => if x.pending < 255 then { x with pending := x.pending + 1 } else { x with ovf := true }

/-- R70: a write with bit 63 set. A tag's message whose trigger it clears causes no run, and its launch has ended (R72). -/
def State.untrigger (s : State) (g : Nat) : State :=
  let t := s.onGraph g fun x => { x with pending := 0, faulted := false, ovf := false, due := [] }
  t.each (s.graph g).due fun t d => t.tagDone d.1

/-- The group of a notify register's class entry (R336). -/
def State.classGroup (s : State) (n : Nat) : Nat := if n < 64 then (s.graph n).group else (s.nreg n).group

/-- The threshold test of R74. -/
def State.thresh (s : State) (n : Nat) : State :=
  let r := s.nreg n
  if r.thresh ≤ r.count && r.count ≠ 0 then (s.onNreg n fun r => { r with count := 0, due := none }).interrupt r.target else s

/-- A timer started by a first counted write (R74). -/
def NReg.start (r : NReg) (ns : Nat) : NReg := if r.due = none && r.timer ≠ 0 then { r with due := some (ns + 1000 * r.timer) } else r

/-- R73: a write to host-interrupt register `n`. -/
def State.writeInt (s : State) (n : Nat) (v : Word64) : State :=
  (s.onNreg n fun r => NReg.start { r with value := r.value ||| v, count := min (r.count + 1) 255 } s.ns).thresh n

/-- The detail of a command's record: the address concerned, or zero (R77). -/
def State.detail (s : State) (status a : Nat) : Nat × State := if status = stPREEMPTED then (a, s) else s.pick a 0

/-- Reports the end of a queue's command or a graph's node where its EVENT flag asks for it (R58, R71). -/
def State.complete (s0 : State) (src : Src) (status group a : Nat) : State :=
  let detail := (s0.detail status a).1
  let s := (s0.detail status a).2
  match src with
  | .queue q tag true => s.post { kind := 1, srcK := 1, src := q, tag := tag, status := status, group := group, detail := detail }
  | .graph g node true => s.post { kind := 1, srcK := 2, src := g, tag := node, status := status, group := group, detail := detail }
  | _ => s

/-- The comparison of WAIT and IF (R59). -/
def cmpHolds (cmp x v : Nat) : Bool :=
  match cmp with | 0 => x = v | 1 => x ≠ v | 2 => v ≤ x | _ => x < v

/-- Nodes of a graph that have been started and have not completed. -/
def State.graphBusy (s : State) (g : Nat) : Bool := s.cmds.any fun c => match c.src with | .graph h _ _ => decide (h = g) | _ => false

/-- A run ends once it has passed its last node (R70, R71). -/
def State.graphEnd (s : State) (g : Nat) : State :=
  let x := s.graph g
  if x.running && decide (x.nodes.length ≤ x.pc) && !s.graphBusy g then
    let t := s.onGraph g fun x => { x with running := false, tag := none }
    match x.tag with | some k => t.tagDone k | none => t
  else s

/-- The run goes on to a place; `async`: from an ASYNC node just started. -/
def State.graphGo (s : State) (g n : Nat) (async : Bool) : State := (s.onGraph g fun x => { x with pc := n, async := async }).graphEnd g

/-- A node's ASYNC flag (R71). -/
def Graph.asyncAt (x : Graph) (node : Nat) : Bool := ((x.nodes.getD node []).getD 1 0).getLsbD 0

/-- A node that has completed: a synchronous one lets the run go on (R71). -/
def State.nodeDone (s : State) (src : Src) : State :=
  match src with
  | .graph g node _ =>
    let x := s.graph g
    if x.running && x.pc = node && !x.asyncAt node then s.graphGo g (node + 1) false else s.graphEnd g
  | _ => s

/-- A command, node or tagged launch has failed (R61, R70, R79): an error record, and its queue stops or its graph becomes faulted. -/
def State.fail (s0 : State) (src : Src) (status group a : Nat) : State :=
  let detail := (s0.detail status a).1
  let s := (s0.detail status a).2
  match src with
  | .queue q tag _ =>
    (s.onHq q fun h => { h with stopped := true }).post { kind := 2, srcK := 1, src := q, tag := tag, status := status, group := group, detail := detail }
  | .graph g node _ =>
    let x := s.graph g
    let t := (if x.running then s.onGraph g fun x => { x with running := false, faulted := true, tag := none } else s).post
      { kind := 2, srcK := 2, src := g, tag := node, status := status, group := group, detail := detail }
    match x.tag with | some k => t.tagDone k | none => t
  | .tag t => (s.post { kind := 2, srcK := 3, src := t, tag := 0, status := status, group := group, detail := detail }).tagDone t
  | .leaf => s

/-- An error that the front end's or an engine's access met at a home slice: one detection (R320). -/
def State.engineErr (s : State) (group : Nat) (e : VaErr) : State :=
  if e.cause ≠ fABORT then s
  else match s.xl group e.va .read with
  | .ok (.dev pa) _ => s.detect pa (s.sliceHome pa / 8) 0xFF group
  | .abort pa => s.detect pa (s.sliceHome pa / 8) 0xFF group
  | _ => s

/-- A write by virtual address made, and an error that it met detected (R319, R320). -/
def State.putMet (s : State) (group va : Nat) (b : List Byte) : State :=
  match s.writeVa group va b .write with
  | (s, none) => s
  | (s, some e) => s.engineErr group e

/-- A command in flight has ended. -/
def State.dropCmd (s : State) (i : Nat) : State := { s with cmds := s.cmds.filter fun d => d.id ≠ i }

/-- A WAIT reads its word once (R60): it completes where the comparison holds, and fails where the word cannot be read. -/
def State.pollWait (s : State) (c : Cmd) : State :=
  match c.k with
  | .wait a v cmp w32 dl =>
    if (dl.map fun d => decide (d ≤ s.ns)).getD false then s
    else match s.readVa c.group a (if w32 then 4 else 8) .read with
    | .ok b => if cmpHolds cmp (ofBytes b) v then ((s.dropCmd c.id).complete c.src 0 c.group a).nodeDone c.src else s
    | .error e => ((s.dropCmd c.id).engineErr c.group e).fail c.src stACCESS c.group a
  | _ => s

/-- The WAITs of queue `q` read again at once (R60, R73). -/
def State.wakeQueue (s : State) (q : Nat) : State :=
  s.each (s.cmds.filter fun c => match c.src with | .queue p _ _ => p = q | _ => false) State.pollWait

/-- R73: a write to queue-wake register `n`. -/
def State.writeWake (s : State) (n : Nat) (v : Word64) : State :=
  (s.onNreg n fun r => { r with value := r.value ||| v }).wakeQueue (s.nreg n).target

/-- A write joins those latched under the same class entry (R336). -/
def NReg.parts (r : NReg) (v : Word64) : List Latched :=
  match r.lParts.getLast? with
  | some p =>
    if decide (p.cls = r.cls) && decide (p.thresh = r.thresh) && decide (p.timer = r.timer) && decide (p.target = r.target) then
      r.lParts.dropLast ++ [{ p with bits := p.bits ||| v, count := sat255 (p.count + 1) }]
    else r.lParts ++ [{ cls := r.cls, thresh := r.thresh, timer := r.timer, target := r.target, bits := v, count := 1 }]
  | none => [{ cls := r.cls, thresh := r.thresh, timer := r.timer, target := r.target, bits := v, count := 1 }]

/-- R75: a write that arrives while the aperture is gated goes to the wake latch. -/
def State.latch (s : State) (n : Nat) (v : Word64) : State :=
  s.onNreg n fun r => { r with lOr := r.lOr ||| v, lLast := v, lCount := sat255 (r.lCount + 1), lParts := r.parts v }

/-- A write to notify register `n` (R70, R73, R75, R361). -/
def State.notify (s : State) (n : Nat) (v : Word64) : State :=
  if s.gated then s.latch n v
  else if n < 64 then (if v.getLsbD 63 then s.untrigger n else s.trigger n)
  else match (s.nreg n).cls with
  | 2 => s.writeInt n v
  | 3 => s.writeWake n v
  | _ => s

/-- A trigger register's value (R70). -/
def Graph.word (g : Graph) : Nat :=
  g.pending + (if g.running then 2 ^ 8 else 0) + (if g.faulted then 2 ^ 9 else 0) + (if g.ovf then 2 ^ 10 else 0) +
    (if g.loaded then 2 ^ 11 else 0) + (if g.loading then 2 ^ 12 else 0)

/-- A read of notify register `n` with its effect (R70, R73, R74). -/
def State.readNotify (s : State) (n : Nat) : Word64 × State :=
  if n < 64 then (BitVec.ofNat 64 (s.graph n).word, s)
  else
    let r := s.nreg n
    if r.cls = 2 then (r.value, s.onNreg n fun r => { r with value := 0, count := 0, due := none })
    else if r.cls = 3 then (r.value, s.onNreg n fun r => { r with value := 0 })
    else (0, s)

/-! ## The context fault ring -/

/-- What a record of R293 holds, but for the time. -/
structure CfRec where
  kind : Nat
  cause : Nat
  flags : Nat
  warp : Nat
  lanes : Nat
  pos : Nat
  block : Nat
  count : Nat
  image : Nat
  addr : Nat
  deriving DecidableEq, Repr

def CfRec.bytes (r : CfRec) (us : Nat) : List Byte :=
  toBytes 1 r.kind ++ toBytes 1 r.cause ++ toBytes 1 r.flags ++ toBytes 1 r.warp ++ toBytes 4 r.lanes ++ toBytes 8 r.pos ++ toBytes 4 r.block ++
    toBytes 4 r.count ++ toBytes 8 r.image ++ toBytes 8 r.addr ++ toBytes 8 us ++ toBytes 16 0

/-- The event that follows a record (R293). -/
def State.cfEvent (s : State) (group detail : Nat) : State := s.postDev 2 0xFFFF 0 stCTXFAULT group detail

/-- A word of a group's memory that the front end reads, or the access that failed. -/
def State.groupWord (s : State) (group va n : Nat) : Except VaErr Nat := match s.readVa group va n .read with | .ok b => .ok (ofBytes b) | .error e => .error e

/-- A record of the ring that a failure shares: of kind 1 or 4, with its origin and cause, entered no more than 1 µs before. -/
def CfRec.shares (r : CfRec) (us : Nat) (b : List Byte) : Bool :=
  (decide (r.kind = 1) || decide (r.kind = 4)) && decide (b.take 20 = (r.bytes 0).take 20) && decide ((b.drop 24).take 8 = toBytes 8 r.image) &&
    decide (us ≤ field b 40 8 + 1)

/-- The latest of the ring's unread records, from `head` to `tail`, that a failure shares (R293): its address and count. -/
def State.cfShare (s : State) (group head tail : Nat) (r : CfRec) : Option (Nat × Nat) :=
  let g := s.grp group
  (List.range ((tail + g.cfsize - head % g.cfsize) % g.cfsize)).reverse.findSome? fun k =>
    let a := g.cfbase + 64 + 64 * ((head + k) % g.cfsize)
    match s.readVa group a 64 .read with
    | .ok b => if r.shares s.us b then some (a, field b 20 4) else none
    | .error _ => none

/-- A record lost: the CONTEXT-FAULT event has no address. -/
def State.cfLost (s : State) (group : Nat) (e : VaErr) : State := (s.engineErr group e).cfEvent group 0

/-- The ring is full: the record is counted as lost (R76). -/
def State.cfFull (s : State) (group : Nat) : State :=
  let a := (s.grp group).cfbase
  match s.groupWord group (a + 8) 4, s.groupWord group (a + 16) 8 with
  | .ok fl, .ok lost =>
    ((((s.writeVa group (a + 8) (toBytes 4 (fl ||| 1)) .write).1).writeVa group (a + 16) (toBytes 8 (lost + 1)) .write).1).cfEvent group 0
  | .error e, _ | _, .error e => s.cfLost group e

/-- A record entered in the ring of R293 and its event posted. The grid is FAULTED once the ring holds a record of it (R308). -/
def State.cfEnter (s : State) (group grid : Nat) (r : CfRec) : State :=
  let g := s.grp group
  let held (s : State) : State := s.onGrid grid fun x => { x with faulted := true }
  match s.groupWord group g.cfbase 4, s.groupWord group (g.cfbase + 4) 4 with
  | .ok head, .ok tail =>
    (match s.cfShare group (head % g.cfsize) (tail % g.cfsize) r with
    | some (a, n) =>
      (match s.writeVa group (a + 20) (toBytes 4 (sat255 (n + r.count))) .write with
      | (s, some e) => s.cfLost group e
      | (s, none) => held s)
    | none =>
      if (tail + 1) % g.cfsize = head % g.cfsize then s.cfFull group
      else
        let a := g.cfbase + 64 + 64 * (tail % g.cfsize)
        match s.writeVa group a (r.bytes s.us) .write with
        | (s, some e) => s.cfLost group e
        | (s, none) =>
          match s.writeVa group (g.cfbase + 4) (toBytes 4 ((tail + 1) % g.cfsize)) .write with
          | (s, some e) => s.cfLost group e
          | (s, none) => (held s).cfEvent group a)
  | .error e, _ | _, .error e => s.cfLost group e

/-! ## Failures (R256, R292) -/

/-- A failed store as a ring record. -/
def Origin.cf (o : Origin) (kind cause flags count addr : Nat) : CfRec :=
  { kind := kind, cause := cause, flags := flags, warp := o.wi, lanes := o.lanes.toNat, pos := o.pos, block := o.lin, count := count,
    image := o.img, addr := addr }

/-- A failure joined to a record. -/
def FailRec.join (f : FailRec) (o : Origin) (cause flags addr : Nat) : FailRec :=
  { count := sat255 (f.count + 1), cause := if f.count = 0 then cause else f.cause, orgs := f.orgs ++ [(o, cause, flags, addr)] }

/-- All lanes of a warp have executed EXIT (R113). -/
def Warp.allExited (w : Warp) : Bool := w.lanes.all fun l => l.exited

/-- A failure becomes known (R256, R292, R296 step 2, R298 step 4). `flags` are bits 2 to 4 of R293. -/
def State.failStore (s : State) (o : Origin) (cause flags addr : Nat) : State :=
  match s.ctx? o.ctx with
  | none =>
    -- the context is gone: saved (kind 4) or ended; a removed context's failures are dropped
    if (s.grids.any fun g => g.id = o.grid && g.removed) then s else s.cfEnter o.group o.grid (o.cf 4 cause flags 1 addr)
  | some _ =>
    -- no identity is 0: the issuer has been saved by its leaf
    if o.blk = 0 then s.cfEnter o.group o.grid (o.cf 4 cause flags 1 addr)
    else
    let alive := match s.warp? o.warp with | some w => !w.allExited | none => false
    if alive then s.onWarp o.warp fun w => { w with fail := w.fail.join o cause flags addr }
    else
      match s.block? o.blk with
      | some _ =>
        (s.onBlock o.blk fun b => { b with fail := b.fail.join o cause flags addr }).cfEnter o.group o.grid (o.cf 1 cause (flags ||| 1) 1 addr)
      | none => s.cfEnter o.group o.grid (o.cf 1 cause (flags ||| 1) 1 addr)

/-- The last lane of a warp has exited: its unreported failures move to its block's record and enter the ring (R256, R292). -/
def State.moveFails (s : State) (w : Warp) : State :=
  let s := s.each w.fail.orgs fun s x => s.cfEnter x.1.group x.1.grid (x.1.cf 1 x.2.1 (x.2.2.1 ||| 1) 1 x.2.2.2)
  let s := s.onBlock w.blk fun b => { b with fail :=
    { count := sat255 (b.fail.count + w.fail.count), cause := if b.fail.count = 0 then w.fail.cause else b.fail.cause,
      orgs := b.fail.orgs ++ w.fail.orgs } }
  s.onWarp w.id fun w => { w with fail := FailRec.none }

end Sys2Proof.Machine
end

