-- ==== Sys2Proof/Machine/Complete.lean ====
section
/-! DEFINITION. How a grid's completion record is written (R308, R309), how a launch ends (R60), and how a context is removed (R298). -/

namespace Sys2Proof.Machine

/-- The 256 bytes of a completion record (R308). -/
def Grid.bytes (g : Grid) : List Byte :=
  let listed := g.suspects.take 48
  toBytes 4 g.state ++
    toBytes 4 ((if g.replayed then 1 else 0) + (if 48 < g.nsus then 2 else 0) + (if g.faulted then 4 else 0)) ++
    toBytes 8 g.img ++ toBytes 8 g.exited.length ++ toBytes 4 g.replays ++ toBytes 4 g.nsus ++ toBytes 8 g.tprov ++ toBytes 8 g.tfinal ++
    toBytes 4 (if g.state = 1 then (g.set.filter fun c => !c.2).length else 0) ++ toBytes 12 0 ++
    listed.flatMap (toBytes 4) ++ List.replicate (4 * (48 - listed.length)) 0

/-- The record written: every other field, then STATE with a release at system scope (R309). -/
def State.writeComp (s : State) (g : Grid) : State :=
  if g.comp = 0 then s
  else
    let b := g.bytes
    (s.putMet g.group (g.comp + 4) (b.drop 4)).putMet g.group g.comp (b.take 4)

def State.writeGrid (s : State) (i : Nat) : State := match s.grid? i with | some g => s.writeComp g | none => s

/-- The record's write would fail (R61). -/
def State.compFails (s : State) (i : Nat) : Bool :=
  match s.grid? i with | some g => decide (g.comp ≠ 0) && (s.writeVa g.group g.comp g.bytes .write).2.isSome | none => false

/-- PENDING rewritten on its own (R309). -/
def State.writePending (s : State) (i : Nat) : State :=
  match s.grid? i with
  | some g => if g.comp = 0 || g.state ≠ 1 then s else s.putMet g.group (g.comp + 48) (toBytes 4 (g.set.filter fun c => !c.2).length)
  | none => s

/-- A grid in STATE 1 whose cores have all passed a later scan and whose replays are done becomes final, with its event (R309 to R311). -/
def State.finalise (s : State) (i : Nat) : State :=
  match s.grid? i with
  | some g =>
    if decide (g.state = 1) && (g.set.all fun c => c.2) && g.pendingReplay.isEmpty then
      let t := (s.onGrid i fun g => { g with state := if g.nsus = 0 then 2 else 3, tfinal := s.us }).writeGrid i
      if g.comp = 0 then t
      else match g.src with
      | .queue q tag true => t.post { kind := 1, srcK := 1, src := q, tag := tag, status := stFINAL, group := g.group, detail := g.comp }
      | .graph h node true => t.post { kind := 1, srcK := 2, src := h, tag := node, status := stFINAL, group := g.group, detail := g.comp }
      | _ => t
    else s
  | none => s

/-- A launch completes (R60): its notify register is written with 1, then its completion event is posted; a graph goes on. -/
def State.endRun (s : State) (ctx status detail : Nat) : State :=
  match s.cmds.find? fun c => c.k = .run ctx with
  | none => s
  | some c =>
    let s := { s with cmds := s.cmds.filter fun d => d.id ≠ c.id }
    let s := if c.notify = 0xFFFF then s else s.notify c.notify 1
    let s := (s.complete c.src status c.group detail).nodeDone c.src
    match c.src with
    | .tag t => s.tagDone t
    | _ => s

/-! ## Core set (R310) -/

/-- A grid's warp becomes resident on a core: no earlier pass counts. -/
def Grid.enter (g : Grid) (k : Nat) : Grid :=
  if g.set.any fun c => c.1 = k then { g with set := g.set.map fun c => if c.1 = k then (k, false) else c } else { g with set := g.set ++ [(k, false)] }

/-! ## Freeing a context's work -/

/-- A quadrant's bank freed where its sub-warp's warp is gone. -/
def State.freeBanks (s : State) (gone : Warp → Bool) : State :=
  { s with quads := smap Quad.init (fun q => match q.bank with
      | some b => if s.warps.any fun w => decide (w.id = b.warp) && gone w then { q with bank := none } else q
      | none => q) s.quads }

/-- Shelf entries marked to go that no entered operation uses (R234, R246). -/
def State.sweepShelf (s : State) : State :=
  { s with clusters := smap Cluster.init (fun c => { c with shelf := c.shelf.filter fun e =>
      !e.dying || (s.mats.any fun m => m.entered && m.took.contains { e with dying := false }) }) s.clusters }

/-- Every copy, definition, reader, matrix operation, fill and waiting lane of the warps `p` picks is cancelled (R298 step 3, R249, R221). -/
def State.cancelWork (s : State) (p : Origin → Bool) : State :=
  { s with copies := s.copies.filter fun x => !p x.org, defs := s.defs.filter fun x => !p x.org, readers := s.readers.filter fun x => !p x.org,
           mats := s.mats.filter fun x => !p x.org, fills := s.fills.filter fun x => !p x.org, redos := s.redos.filter fun x => !p x.req.org }

/-- Counted operations of a context still unacknowledged (R252). -/
def State.counting (s : State) (ctx : Nat) : Bool := s.net.any fun r => r.counted && decide (r.org.ctx = ctx)

/-- A warp's page requests and queue waits dropped. -/
def State.dropWaits (s : State) (p : Nat → Bool) : State :=
  { s with pops := s.pops.filter fun x => !p x.warp,
           pages := s.pages.map fun g => { g with users := g.users.filter fun u => match u with | .lane w _ _ _ _ _ _ => !p w | .engine _ => true } }

/-- Whether a warp belongs to a context. -/
def State.ofCtx (s : State) (ctx w : Nat) : Bool := s.warps.any fun x => decide (x.id = w) && decide (x.ctx = ctx)

/-- The parts of a context freed: warps, blocks, groups, waiting heads, the context itself (R298 step 5). -/
def State.freeCtx (s : State) (ctx : Nat) : State :=
  let s := s.freeBanks fun w => w.ctx = ctx
  let s := s.dropWaits (s.ofCtx ctx)
  { s with warps := s.warps.filter fun w => w.ctx ≠ ctx, blocks := s.blocks.filter fun b => b.ctx ≠ ctx,
           cgroups := s.cgroups.filter fun c => c.ctx ≠ ctx, waits := s.waits.filter fun w => w.ctx ≠ ctx,
           ctxs := s.ctxs.filter fun c => c.id ≠ ctx }

/-- A context of a pre-emption request has been taken; after the last, the action ends (R294, R296). -/
def State.takePreempt (s : State) (group ctx bad : Nat) : State :=
  let g := s.grp group
  if !g.ptodo.contains ctx then s
  else
    let todo := g.ptodo.erase ctx
    let bad := max g.pbad bad
    s.onGrp group fun g => if todo.isEmpty then { g with ptodo := [], pbad := bad, go := false, pstate := if bad = 0 then 3 else bad }
      else { g with ptodo := todo, pbad := bad }

/-- Blocks of a grid. -/
def Img.total (h : Img) : Nat := h.gx * h.gy * h.gz

/-- The blocks of group `g` that a grid holds. -/
def Img.groupLins (h : Img) (g : Nat) : List Nat := (List.range (min h.gsize (h.total - g * h.gsize))).map (g * h.gsize + ·)

/-- Blocks listed SUSPECT (R318). -/
def Grid.suspect (g : Grid) (lins : List Nat) : Grid :=
  let l := lins.foldl (fun l n => insNat n l) g.suspects
  { g with suspects := l, nsus := l.length, pendingReplay := g.pendingReplay.filter fun n => !lins.contains n }

/-- The last step of a removal (R298 step 5, R309). -/
def State.finishRemoval (s : State) (ctx : Nat) : State :=
  match s.ctx? ctx with
  | none => s
  | some c =>
    match c.phase with
    | .removing _ cause ended =>
      let s := s.freeCtx ctx
      let s := s.cfEnter c.group c.grid { kind := 3, cause := cause, flags := 0, warp := 0xFF, lanes := 0, pos := 0, block := 0xFFFFFFFF,
                                          count := ended, image := c.img, addr := 0 }
      let s := match c.src with
        | .leaf => -- a replay context: its blocks are listed SUSPECT (R318)
          (s.onGrid c.grid fun g => g.suspect c.lins).finalise c.grid
        | _ => s.onGrid c.grid fun g => { g with state := 4, tprov := 0, tfinal := s.us, suspects := [], nsus := 0, faulted := true, removed := true }
      let s := if c.src = .leaf then s else s.writeGrid c.grid
      let s := (s.endRun ctx stCTXFAULT c.img).takePreempt c.group ctx 0
      if s.ctxs.any fun d => decide (d.group = c.group) && match d.phase with | .removing _ _ _ => true | _ => false then s
      else s.onGrp c.group fun g => { g with remove := false }
    | _ => s

/-- A removal begins (R298 steps 1 to 4): handlers are abandoned, every lane exits, waits end, engines' work is cancelled. -/
def State.startRemoval (s : State) (ctx cause : Nat) : State :=
  match s.ctx? ctx with
  | none => s
  | some c =>
    match c.phase with
    | .removing _ _ _ => s
    | _ =>
      let ws := s.warps.filter fun w => w.ctx = ctx
      let ended := ws.length
      let s := ws.foldl (fun s w => s.moveFails w) s
      let s := s.onCtx ctx fun c => { c with phase := .removing s.ns cause ended }
      let s := s.freeBanks fun w => w.ctx = ctx
      let s := s.dropWaits (s.ofCtx ctx)
      let s : State := { s with warps := s.warps.map (fun (w : Warp) => if w.ctx = ctx then
                          { w with lanes := w.lanes.map (fun l => { l with exited := true, park := .run, passed := 0 }), traps := [] } else w),
                                waits := s.waits.filter (fun (w : Wait) => w.ctx ≠ ctx),
                                cgroups := s.cgroups.map (fun (g : CGroup) => if g.ctx = ctx then { g with entries := [], heads := [] } else g) }
      let s := (s.cancelWork fun o => o.ctx = ctx).sweepShelf
      if s.counting ctx then s else s.finishRemoval ctx

/-- An operation of a context being removed has ended: the removal may finish (R298 step 4). -/
def State.removalCheck (s : State) (ctx : Nat) : State :=
  match s.ctx? ctx with
  | some c => match c.phase with | .removing _ _ _ => if s.counting ctx then s else s.finishRemoval ctx | _ => s
  | none => s

end Sys2Proof.Machine
end

