-- ==== Sys2Proof/Machine/Ops.lean ====
section
/-! DEFINITION. The named operations over lanes and registers, and the one operation that takes a trap (R288 to R291), with entry into a handler
and the return from it. -/

namespace Sys2Proof.Machine

/-! ## Lanes -/

/-- `f` on the lanes of a mask; `n` numbers the first lane of the list. -/
def mapLanesFrom (m : Mask) (f : Lane → Lane) : Nat → List Lane → List Lane
  | _, [] => []
  | n, x :: r => (if m.getLsbD n then f x else x) :: mapLanesFrom m f (n + 1) r

def mapLanes (m : Mask) (f : Lane → Lane) (l : List Lane) : List Lane := mapLanesFrom m f 0 l

def laneAt (l : List Lane) (n : Nat) : Lane := l.getD n Lane.init

/-- The quadrant number of a warp. -/
def Warp.q (w : Warp) : Nat := 4 * w.core + w.quad

/-- A position's address (R100). -/
def Lane.addr (l : Lane) : Nat := l.hdr + 8 * l.idx

/-- `f` on the handler-bank lanes of a quadrant. -/
def State.onBank (s : State) (q : Nat) (f : Bank → Bank) : State := s.onQuad q fun x => { x with bank := x.bank.map f }

/-- `f` on the lanes of a mask of a warp, or of its sub-warp in handler mode. -/
def State.onLanes (s : State) (w : Warp) (hnd : Bool) (m : Mask) (f : Lane → Lane) : State :=
  if hnd then s.onBank w.q fun b => { b with lanes := mapLanes m f b.lanes }
  else s.onWarp w.id fun x => { x with lanes := mapLanes m f x.lanes }

/-- The position after an instruction at (H, i) of a clause of `count` + 1 instructions (R101). -/
def nextPos (hdr idx count : Nat) : Nat × Nat := if idx ≤ count then (hdr, idx + 1) else (hdr + 8 * (count + 2), 0)

/-- A lane moved to a position. -/
def Lane.goto (p : Nat × Nat) (l : Lane) : Lane := { l with hdr := p.1, idx := p.2 }

/-- The issuing warp. -/
def State.issWarp (s : State) : Option Warp := s.warp? s.iss.warp

/-- The issuing lanes of a mask moved past the instruction (R101). -/
def State.advance (s : State) (w : Warp) (m : Mask) : State :=
  s.onLanes w s.iss.hnd m (Lane.goto (nextPos s.iss.hdr s.iss.idx s.iss.count))

/-- The address of the issuing instruction. -/
def Issue.pos (i : Issue) : Nat := i.hdr + 8 * i.idx

/-! ## Origins (R292) -/

def State.origin (s : State) (w : Warp) (pos : Nat) (lanes : Mask) : Origin :=
  let c := s.ctx? w.ctx
  { seq := s.nextId, core := w.core, ctx := w.ctx, grid := (c.map (·.grid)).getD 0, group := (c.map (·.group)).getD 0, blk := w.blk, warp := w.id, wi := w.wi,
    lin := ((s.block? w.blk).map (·.lin)).getD 0, img := (c.map (·.img)).getD 0, pos := pos, lanes := lanes }

/-! ## Counts of PMC (R306) -/

def State.count (s : State) (blk e n : Nat) : State := s.onBlock blk fun b => { b with pmc := supd 0 e (· + n) b.pmc }

/-! ## Taking a trap -/

/-- What a handler receives of a trap of one lane, the rest zero. -/
def TrapLane.of (lane cause addr info : Nat) (word : Word64) : TrapLane :=
  { lane := lane, cause := cause, addr := addr, info := info, more := 0, word := word, noSkip := false, redo := none, fpos := 0, fidx := 0 }

def trapMask (ts : List TrapLane) : Mask := ts.foldl (fun m t => m ||| (1#32 <<< t.lane)) 0#32

/-- A sub-warp that escalates (R291, R293): its lanes are recorded with kind 2 and the context is removed. -/
def State.escalate (s : State) (w : Warp) (cls cause : Nat) (m : Mask) (pos addr : Nat) : State :=
  match s.ctx? w.ctx with
  | none => s
  | some c =>
    match c.phase with
    | .removing _ _ _ => s
    | _ => (s.cfEnter c.group c.grid ((s.origin w pos m).cf 2 cls 0 cause addr)).startRemoval w.ctx 1

/-- A trap joined to the sub-warps: one sub-warp for each class of an issue (R288). -/
def joinTrap (cls since : Nat) (ts : List TrapLane) : List SubWarp → List SubWarp
  | [] => [{ cls := cls, since := since, lanes := ts }]
  | x :: r => if x.cls = cls && x.since = since && cls ≠ 8 then { x with lanes := x.lanes ++ ts } :: r else x :: joinTrap cls since ts r

/-- Taking a trap (R288, R290): the lanes leave the warp's selection, parked with Trap pending, their positions as they stand, in a sub-warp of
the class; a trap in handler mode escalates with the new class. -/
def State.takeTrap (s : State) (w : Warp) (hnd : Bool) (cls : Nat) (ts : List TrapLane) : State :=
  match ts with
  | [] => s
  | t :: _ =>
    if hnd then s.escalate w cls t.cause (trapMask ts) s.iss.pos t.addr
    else
      (s.onLanes w false (trapMask ts) fun l => { l with park := .trap, passed := 0 }).onWarp w.id fun x =>
        { x with traps := joinTrap cls s.nextId ts x.traps }

/-- A trap of one class and cause in each lane of a mask at the issuing instruction. -/
def State.trapAll (s : State) (w : Warp) (m : Mask) (cls cause addr info : Nat) : State :=
  s.takeTrap w s.iss.hnd cls ((lanesOf m).map fun l => TrapLane.of l cause addr info s.iss.word)

/-- Trap classes (R286). -/
def tARITH : Nat := 0
def tILLEGAL : Nat := 1
def tOPERAND : Nat := 2
def tCLAUSE : Nat := 3
def tSTALL : Nat := 4
def tXLATE : Nat := 5
def tALIGN : Nat := 6
def tABORT : Nat := 7
def tDEFER : Nat := 8
def tTILE : Nat := 9
def tBREAK : Nat := 10
def tSOFT : Nat := 11

/-- Data-abort causes (R286). -/
def aRANGE : Nat := 1
def aDESC : Nat := 2
def aACCESS : Nat := 3
def aBARCOUNT : Nat := 4
def aQUEUE : Nat := 5
def aFAULT : Nat := 6
def aTYPE : Nat := 7
def aABORT : Nat := 8
def aREFUSED : Nat := 9

/-! ## Entering a handler (R287, R289) -/

/-- The words h0 to h7 that a lane receives. -/
def handlerWords (cls : Nat) (t : TrapLane) : List Word :=
  [BitVec.ofNat 32 cls, BitVec.ofNat 32 t.cause, BitVec.ofNat 32 t.addr, BitVec.ofNat 32 (t.addr / 2 ^ 32), BitVec.ofNat 32 t.info,
   BitVec.ofNat 32 t.more, t.word.extractLsb' 0 32, t.word.extractLsb' 32 32]

/-- The bank as the entry leaves it. -/
def bankH (cls : Nat) (ts : List TrapLane) : Sparse Word :=
  ts.foldl (fun h t => (handlerWords cls t).foldl (fun a x => (sput 0 (32 * a.2 + t.lane) x a.1, a.2 + 1)) (h, 0) |>.1) []

/-- A sub-warp enters its handler at a header (R289): the bank is its own, its lanes stand at (header, 0). -/
def State.enterHandler (s : State) (w : Warp) (x : SubWarp) (entry : Nat) : State :=
  let m := trapMask x.lanes
  let s := (s.onLanes w false m fun l => { l with park := .handler }).onWarp w.id fun y => { y with traps := y.traps.erase x }
  let lanes := (List.range 32).map fun n => if m.getLsbD n then { Lane.init with hdr := entry } else { Lane.init with exited := true }
  s.onQuad w.q fun q =>
    let b : Bank := { warp := w.id, sub := x, entry := w.lanes.map fun l => (l.hdr, l.idx), posSet := 0, h := bankH x.cls x.lanes, movx := 0, lanes := lanes,
                      pace := { Pace.init with notBefore := q.cycle, readySince := some q.cycle } }
    { q with bank := some b }

/-- A handler lane leaves handler mode for a position (R291); the bank is freed when the last has left. -/
def State.leaveHandler (s : State) (w : Warp) (m : Mask) (pos : Nat → Lane → Nat × Nat) : State :=
  let f (p : Nat × Lane) : Lane := if m.getLsbD p.1 then { Lane.goto (pos p.1 p.2) p.2 with park := .run, passed := 0 } else p.2
  let s := s.onWarp w.id fun x => { x with lanes := (lanes32.zip x.lanes).map f }
  let g (b : Bank) : Option Bank :=
    let l := mapLanes m (fun l => { l with exited := true }) b.lanes
    if l.all (·.exited) then none else some { b with lanes := l }
  s.onQuad w.q fun q => { q with bank := q.bank.bind g }

/-! ## Headers and code -/

/-- A recorded clause header of a context's running code (R35). -/
def Ctx.recorded (c : Ctx) (a : Nat) : Bool := c.heads.contains a

/-- The line of an address of code: native code by virtual address, translated code by the physical line that holds it (R23). -/
def Ctx.lineOf (c : Ctx) (va : Nat) : Nat :=
  match c.tat with
  | some pa => 2 ^ 90 + (pa + (va - c.code)) / 256
  | none => va / 256

/-- The word of code at an address, as the instruction cache holds it (R98). Translated code for which near store had no room is at hand (log entry 84). -/
def State.codeWord (s : State) (c : Ctx) (core va : Nat) : Option Word64 :=
  if !c.tcode.isEmpty && (decide (va < c.code) || c.tat.isNone) then (if va < c.code then none else c.tcode[(va - c.code) / 8]?)
  else ((s.core core).ic.find? fun l => l.1 = 2 ^ 48 * c.group + c.lineOf va).bind fun l => l.2[va % 256 / 8]?

/-- The word of code at an address as memory holds it. -/
def State.codeMem (s : State) (c : Ctx) (va : Nat) : Word64 :=
  if c.tcode.isEmpty then BitVec.ofNat 64 ((s.readVaN c.group va 8).getD 0) else if va < c.code then 0 else (c.tcode[(va - c.code) / 8]?).getD 0

/-- COUNT of the clause whose header stands at an address (R30), as the core last fetched it, else as memory holds it. -/
def State.countAt (s : State) (w : Warp) (hdr : Nat) : Nat :=
  match s.ctx? w.ctx with
  | none => 0
  | some c =>
    match s.codeWord c w.core hdr with
    | some x => (decHeader x).count.toNat
    | none => (decHeader (s.codeMem c hdr)).count.toNat

/-- Parked lanes released past their instruction (R101, R107, R200, R261, R269). -/
def State.passLanes (s : State) (w : Warp) (m : Mask) : State :=
  s.onLanes w false m fun l => { Lane.goto (nextPos l.hdr l.idx (s.countAt w l.hdr)) l with park := .run, passed := 0 }

/-- The lanes of a warp that are parked for a reason. -/
def Warp.parkedFor (w : Warp) (p : Park) : Mask := maskOf fun n => !(laneAt w.lanes n).exited && decide ((laneAt w.lanes n).park = p)

/-- The issuing lanes of a mask parked at the instruction. -/
def State.parkHere (s : State) (w : Warp) (m : Mask) (p : Park) : State :=
  s.onLanes w s.iss.hnd m fun l => { l with park := p, passed := 0 }

/-- Whether a warp runs interlocked (R52, R290). -/
def State.interlocked (s : State) (w : Warp) (hnd : Bool) : Bool :=
  hnd || ((s.ctx? w.ctx).map (·.inter)).getD false || decide (3 ≤ (s.quad w.q).beats)

end Sys2Proof.Machine
end

