-- ==== Sys2Proof/Machine/Operands.lean ====
section
/-! DEFINITION. Register operands: which fields each instruction names (R42, R43, R45, R137), whether they are legal, and how they are read and
written, with permutes (R47), special values (R44) and results not yet due (R51). -/

namespace Sys2Proof

/-- Elements per lane of a narrow format (R153). -/
def NFmt.n : NFmt → Nat
  | .e2m1 => 8
  | _ => 4

/-- The guard predicate's key. -/
def Guard.keys : Guard → List Nat
  | .always => []
  | .onTrue p | .onFalse p => [1024 + p.toNat]

/-- The lane that lane `i` reads under a permute (R47). -/
def Perm.lane (p : Perm) (t : Target) (i : Nat) : Nat :=
  match p with
  | .none => i
  | .rot n u => if u = t then (i + n.toNat) % 32 else i
  | .bc n u => if u = t then n.toNat else i
  | .fly n u => if u = t then i ^^^ n.toNat else i
  | .mir n u => if u = t then let g := 2 ^ n.toNat; i - i % g + (g - 1 - i % g) else i

/-- A permute adds a cycle (R49). -/
def Perm.cost : Perm → Nat
  | .none => 0
  | _ => 1

end Sys2Proof

namespace Sys2Proof.Machine

/-! ## Operand signatures -/

/-- What a register field holds. -/
inductive Kind where
  /-- A register or special value, read as R45 says. -/
  | reg
  /-- Vector only: v or h. -/
  | vec
  /-- v only (MOVX bases, id pairs). -/
  | vonly
  /-- Uniform: an s register; as a source also a special value other than sv.lane. -/
  | uni
  /-- h only (R304). -/
  | hreg
  /-- An h or s register or a special value, never v (R304). -/
  | nov
  /-- A v, s or h register, never a special value (R112). -/
  | nosp
  /-- A predicate number. -/
  | pred
  /-- A convergence register number. -/
  | conv
  deriving DecidableEq, Repr

/-- One operand: its field, how many registers it names, whether it is read and written. -/
structure Opnd where
  f : Fld
  n : Nat
  rd : Bool
  wr : Bool
  k : Kind
  deriving DecidableEq, Repr

def Opnd.src (f : Fld) (n : Nat := 1) (k : Kind := .reg) : Opnd := { f := f, n := n, rd := true, wr := false, k := k }
def Opnd.dst (f : Fld) (n : Nat := 1) (k : Kind := .reg) : Opnd := { f := f, n := n, rd := false, wr := true, k := k }
def Opnd.acc (f : Fld) (n : Nat := 1) (k : Kind := .reg) : Opnd := { f := f, n := n, rd := true, wr := true, k := k }

def aaa (r : R3) : List Opnd := [.dst r.d, .src r.a, .src r.b]
def aa (r : R2) : List Opnd := [.dst r.d, .src r.a]

/-- Registers that a memory data field names (R37, R39). -/
def sizeRegs (z : BitVec 3) : Nat := if z.toNat ≤ 2 then 1 else if z = 3 then 2 else 4

def memLd (m : MOp) (base : Nat) : List Opnd := [.dst m.data (sizeRegs m.size), .src m.base base]
def memSt (m : MOp) (base : Nat) : List Opnd := [.src m.data (sizeRegs m.size), .src m.base base]

/-- Registers of an atomic's data field: operand and result, or both operands of CAS (R187). -/
def atomRegs (op : AtomOp) (m : MOp) : Nat := if op = .cas then (if m.size = 2 then 2 else 4) else (if m.size = 2 then 1 else 2)

/-- The register fields of each instruction (R109, R140, R145, R153, R158, R182, R214, R239, R260, R268, R270, R299). -/
def opnds : Instr → List Opnd
  | .iadd _ _ r | .isub _ _ r | .imul _ r | .imulh _ _ r | .imin _ _ r | .imax _ _ r | .ishl _ r | .ishr _ r | .lshr _ r | .rot _ _ r
  | .and _ r | .or _ r | .xor _ r | .andn _ r | .bfx _ _ r | .fadd _ _ r | .fsub _ _ r | .fmul _ _ r | .fmin _ r | .fmax _ r | .fdiv _ _ r
  | .hadd2 _ _ _ r | .hmul2 _ _ _ r => aaa r
  | .imad _ r | .bfi _ r | .idot4 _ _ _ _ r | .ffma _ _ r | .hfma2 _ _ _ r => [.acc r.d, .src r.a, .src r.b]
  | .imadw _ _ r => [.acc r.d 2, .src r.a, .src r.b]
  | .iadd64 _ r => [.dst r.d 2, .src r.a 2, .src r.b 2]
  | .lea _ _ _ r => [.dst r.d 2, .src r.a 2, .src r.b]
  | .iabs _ _ r | .popc _ r | .clz _ r | .brev _ r | .fclass _ _ r | .frcp _ _ r | .frsq _ _ r | .fsqrt _ _ r | .fexp2 _ _ r | .flog2 _ _ r
  | .frnd _ _ r | .fcvt _ _ _ r | .ftoi _ _ _ r | .itof _ _ _ r | .vred _ _ _ r => aa r
  | .iset _ _ _ r | .fset _ _ r => [.dst r.d 1 .pred, .src r.a, .src r.b]
  | .sel _ _ p r => [.dst r.d 1 .vec, .src r.a, .src r.b, .src (p.zeroExtend 10) 1 .pred]
  | .mov _ w r => [.dst r.d (if w then 2 else 1), .src r.a (if w then 2 else 1)]
  | .movi _ d _ => [.dst d]
  | .iaddi _ d a _ => [.dst d, .src a]
  | .movx _ d a b => [.dst d 1 .vonly, .src a 1 .vonly, .src b]
  | .movxSt _ d a b => [.dst d 1 .vonly, .src a, .src b]
  | .movxw _ _ d _ => [.dst d 2]
  | .fsign _ op _ r => match op with | .neg | .abs => [.dst r.d, .src r.a] | .cpy | .xor => aaa r
  | .qdec _ f _ r => [.dst r.d f.n .vec, .src r.a, .src r.b]
  | .qenc _ f _ _ _ r => [.dst r.d 1 .vec, .src r.a f.n .vec, .src r.b]
  | .qscale _ f _ _ r => [.acc r.d 1 .vec, .src r.a f.n .vec]
  | .qxtra _ op _ r => match op with | .setx => [.dst r.d 1 .vec, .src r.a, .src r.b] | _ => [.dst r.d 1 .vec, .src r.a]
  | .shfl _ _ w r => [.dst r.d (if w then 2 else 1) .vec, .src r.a (if w then 2 else 1), .src r.b]
  | .vote _ k _ d q => [match k with | .bal => .dst d | _ => .dst d 1 .pred, .src q 1 .pred]
  | .vscan _ _ _ r => [.dst r.d 1 .vec, .src r.a]
  | .plop _ _ d a b => [.dst d 1 .pred, .src a 1 .pred, .src b 1 .pred]
  | .pmov _ p r => if p then [.src r.a] else [.dst r.d 1 .vec]
  | .umov _ first w r =>
    if first then [.dst r.d (if w then 2 else 1) .uni, .src r.a (if w then 2 else 1)]
    else [.dst r.d (if w then 2 else 1) .uni, .src r.a (if w then 2 else 1), .src r.b 1 .uni]
  | .brx _ a _ | .ret _ a _ => [.src a 2 .nosp]
  | .call _ _ link => [.dst link 2]
  | .cdecl _ d a _ => [.dst d 1 .conv, .src a 1 .uni]
  | .cdeclIss _ d => [.dst d 1 .conv]
  | .csign _ a | .csignNw _ a => [.src a 1 .conv]
  | .ld _ _ _ m | .ldro _ _ m => memLd m 2
  | .lds _ _ m => memLd m 1
  | .st _ _ m => memSt m 2
  | .sts _ m => memSt m 1
  | .atom _ op m => [.acc m.data (atomRegs op m), .src m.base 2]
  | .atoms _ op m => [.acc m.data (atomRegs op m), .src m.base]
  | .redo _ _ m => [.src m.data 4, .src m.base 2]
  | .pref _ _ m | .zline _ m => [.src m.base 2]
  | .fence _ _ _ d => [.dst d 1 .uni]
  | .bar _ _ _ a _ | .cbar _ _ a _ | .gtrig _ a _ => [.src a 1 .uni]
  | .qpush _ _ r => [.dst r.d 1 .pred, .src r.a 2, .src r.b]
  | .qpop _ _ _ r => [.dst r.d 2 .vec, .src r.a, .dst r.b 1 .pred]
  | .notify _ _ a b _ => [.src a 2 .uni, .src b 1 .uni]
  | .tdef _ _ aux => [.src aux 2 .uni]
  | .tdefs _ _ aux => [.src aux 1 .uni]
  | .tdefa _ d aux => [.dst d 1 .uni, .src aux 2 .uni]
  | .tld _ w _ d aux => [.dst d (if w then 2 else 1) .vec, .src aux]
  | .tst _ _ _ aux => [.src aux 2 .uni]
  | .trow _ _ d aux => [.dst d 2 .vec, .src aux]
  | .mmalr _ _ _ _ _ aux _ => [.src aux 2 .vonly]
  | .adpfD _ _ aux | .adpfU _ _ aux => [.src aux 2 .vonly]
  | .arow _ _ d aux => [.dst d 4 .vec, .src aux]
  | .arowSt _ _ d aux => [.src d 4 .vec, .src aux]
  | .aflag _ _ _ d => [.dst d 1 .uni]
  | .cpy _ _ _ b | .cpybt _ _ _ b => (List.range 8).map fun k => .src (BitVec.ofNat 10 (640 + b.toNat + k)) 1 .uni
  | .featq _ d _ => [.dst d]
  | .sysr _ d n => [.dst d (if 3 ≤ n.toNat && n.toNat ≤ 5 then 2 else 1) (if n.toNat ≤ 1 then .vec else .reg)]
  | .sysw _ a n => [.src a (if 3 ≤ n.toNat && n.toNat ≤ 5 then 2 else 1) (if 2 ≤ n.toNat && n.toNat ≤ 6 then .uni else .reg)]
  | .hget _ k d x => match k with | .vreg => [.dst d 1 .hreg, .src x 1 .nov] | .pos => [.dst d 2 .hreg] | _ => [.dst d 1 .hreg]
  | .hset _ k d x => match k with | .vreg => [.src d 1 .hreg, .src x 1 .nov] | .pos => [.src d 2 .hreg] | _ => [.src d 1 .hreg]
  | .clock _ _ d | .pmc _ d _ => [.dst d 2]
  | _ => []

/-- The instructions whose uniform result may come from per-lane sources (R45). -/
def mixes : Instr → Bool
  | .vote _ _ _ _ _ | .vred _ _ _ _ | .umov _ _ _ _ => true
  | _ => false

/-- A field that names a uniform register. -/
def isS (n : Nat) : Bool := decide (640 ≤ n) && decide (n < 704)

/-- A source that supplies one value to every lane (R45). -/
def isUni (n : Nat) : Bool := isS n || (decide (768 < n) && decide (n ≤ 782))

/-- An operand's field is of its kind, for a warp of `g` granules, in handler mode or not (R41 to R43, R137). -/
def Opnd.ok (o : Opnd) (g : Nat) (hnd : Bool) : Bool :=
  let n := o.f.toNat
  let al := decide (n % o.n = 0)
  let v := decide (n + o.n ≤ min 640 (64 * g))
  let u := isS n && decide (n + o.n ≤ 704)
  let h := hnd && decide (704 ≤ n) && decide (n + o.n ≤ 768)
  let sp := !o.wr && ((decide (o.n = 1) && decide (768 ≤ n) && decide (n ≤ 782)) || (decide (o.n = 2) && decide (n = 780)))
  match o.k with
  | .pred => decide (n < 16)
  | .conv => decide (n < 8)
  | .reg => al && (v || u || h || sp) && !(decide (o.n = 8) && u)
  | .vec => al && (v || h)
  | .vonly => al && v
  | .uni => al && (u || (sp && decide (n ≠ 768)))
  | .hreg => al && h
  | .nov => al && (u || h || sp)
  | .nosp => al && (v || u || h)

/-- The uniform-operation rule (R45): a uniform destination takes no per-lane register source. -/
def uniOk (i : Instr) : Bool :=
  let l := opnds i
  mixes i || !(l.any fun o => o.wr && decide (o.k = .reg) && isS o.f.toNat) ||
    l.all fun o => o.wr || decide (o.k = .pred) || isUni o.f.toNat

/-- Cause 4 of R56 for the register fields of an instruction. -/
def regsOk (i : Instr) (g : Nat) (hnd : Bool) : Bool := ((opnds i).all fun o => o.ok g hnd) && uniOk i

/-! ## Keys of registers for the scoreboard and the stall check -/

/-- Registers are keyed by field value, predicates from 1024. -/
def Opnd.keys (o : Opnd) : List Nat :=
  match o.k with
  | .pred => [1024 + o.f.toNat]
  | .conv => []
  | _ => (List.range o.n).map (o.f.toNat + ·)

/-- The predicates that PMOV moves together (R164). -/
def allPreds : List Nat := (List.range 16).map (1024 + ·)

/-- The common fields of an instruction. -/
def common : Instr → Common
  | .iadd c _ _ | .isub c _ _ | .imul c _ | .imulh c _ _ | .imad c _ | .imadw c _ _ | .iadd64 c _ | .imin c _ _ | .imax c _ _
  | .iabs c _ _ | .ishl c _ | .ishr c _ | .lshr c _ | .rot c _ _ | .and c _ | .or c _ | .xor c _ | .andn c _ | .popc c _ | .clz c _
  | .brev c _ | .bfx c _ _ | .bfi c _ | .iset c _ _ _ | .sel c _ _ _ | .mov c _ _ | .movi c _ _ | .iaddi c _ _ _ | .movx c _ _ _
  | .movxSt c _ _ _ | .movxw c _ _ _ | .lea c _ _ _ | .idot4 c _ _ _ _
  | .fadd c _ _ | .fsub c _ _ | .fmul c _ _ | .ffma c _ _ | .fmin c _ | .fmax c _ | .fset c _ _ | .fclass c _ _ | .frcp c _ _
  | .frsq c _ _ | .fsqrt c _ _ | .fexp2 c _ _ | .flog2 c _ _ | .fdiv c _ _ | .frnd c _ _ | .fcvt c _ _ _ | .ftoi c _ _ _
  | .itof c _ _ _ | .fsign c _ _ _ | .hfma2 c _ _ _ | .hadd2 c _ _ _ | .hmul2 c _ _ _
  | .qdec c _ _ _ | .qenc c _ _ _ _ _ | .qscale c _ _ _ _ | .qxtra c _ _ _
  | .shfl c _ _ _ | .vote c _ _ _ _ | .vred c _ _ _ | .vscan c _ _ _ | .plop c _ _ _ _ | .pmov c _ _ | .umov c _ _ _
  | .bra c _ | .brx c _ _ | .call c _ _ | .ret c _ _ | .exit c | .cdecl c _ _ _ | .cdeclIss c _ | .csign c _ | .csignNw c _ | .yield c
  | .nop c | .brk c _ | .trap c _
  | .ld c _ _ _ | .st c _ _ | .ldro c _ _ | .lds c _ _ | .sts c _ | .atom c _ _ | .atoms c _ _ | .redo c _ _ | .fence c _ _ _ | .roinv c
  | .pref c _ _ | .bar c _ _ _ _ | .cbar c _ _ _ | .qpush c _ _ | .qpop c _ _ _ | .notify c _ _ _ _ | .gtrig c _ _ | .zline c _
  | .tdef c _ _ | .tdefs c _ _ | .tdefa c _ _ | .tkill c _ | .tld c _ _ _ _ | .tst c _ _ _ | .trow c _ _ _ | .rcfence c _
  | .mma c _ _ _ _ _ | .mmalr c _ _ _ _ _ _ | .adapt c _ _ _ _ | .aclr c _ | .arow c _ _ _ | .arowSt c _ _ _ | .aflag c _ _ _
  | .adpfD c _ _ | .adpfU c _ _ | .adpfInv c | .adpfInvd c | .cpy c _ _ _ | .cpybt c _ _ _ | .tkwait c _
  | .featq c _ _ | .livept c _ _ _ _ _ | .sysr c _ _ | .sysw c _ _ | .hretRetry c | .hretSkip c | .hretEsc c | .hget c _ _ _
  | .hset c _ _ _ | .clock c _ _ | .pmc c _ _ => c
  | _ => { stall := 0, guard := .always }

/-- Registers an instruction reads, guard included. -/
def readKeys (i : Instr) : List Nat :=
  (common i).guard.keys ++ (opnds i).flatMap (fun o => if o.rd then o.keys else []) ++
    (match i with | .pmov _ false _ => allPreds | _ => [])

/-- Registers an instruction writes. -/
def writeKeys (i : Instr) : List Nat :=
  (opnds i).flatMap (fun o => if o.wr then o.keys else []) ++ (match i with | .pmov _ true _ => allPreds | _ => [])

/-! ## Reading -/

/-- A special value (R44). -/
def State.special (s : State) (w : Warp) (n lane : Nat) : Word :=
  let c := s.ctx? w.ctx
  let b := s.block? w.blk
  let lin := (b.map (·.lin)).getD 0
  let h (f : Img → Nat) : Nat := (c.map fun c => f c.h).getD 0
  BitVec.ofNat 32 <| match n with
  | 768 => lane
  | 769 => w.wi
  | 770 => lin % h (·.gx)
  | 771 => lin / h (·.gx) % h (·.gy)
  | 772 => lin / (h (·.gx) * h (·.gy))
  | 773 => h (·.gx)
  | 774 => h (·.gy)
  | 775 => h (·.gz)
  | 776 => h (·.warps)
  | 777 => w.core / 8
  | 778 => w.core % 8
  | 779 => (b.map (·.pos)).getD 0
  | 780 => h (·.args) % 2 ^ 32
  | 781 => h (·.args) / 2 ^ 32 % 2 ^ 20
  | _ => 1024 * h (·.scratch)

/-- The handler bank's registers of a quadrant. -/
def State.bankRegs (s : State) (q : Nat) : Sparse Word := match (s.quad q).bank with | some b => b.h | none => []

/-- A register field as it stands in a lane. -/
def State.reg (s : State) (w : Warp) (n lane : Nat) : Word :=
  if n < 640 then sget 0 (32 * n + lane) w.v
  else if n < 704 then sget 0 (n - 640) w.s
  else if n < 768 then sget 0 (32 * (n - 704) + lane) (s.bankRegs w.q)
  else s.special w n lane

/-- A register as the issue reads it: a result not yet due may read as it stood (R51). -/
def State.rd (s : State) (w : Warp) (n lane : Nat) : Word :=
  match sget none (32 * n + lane) s.iss.early with
  | some x => x
  | none => s.reg w n lane

def Warp.pred (w : Warp) (n lane : Nat) : Bool := (sget 0 n w.p).getLsbD lane

/-- A predicate as the issue reads it. -/
def State.rdP (s : State) (w : Warp) (n lane : Nat) : Bool :=
  match sget none (32 * (1024 + n) + lane) s.iss.early with
  | some x => x ≠ 0
  | none => w.pred n lane

/-- A pair (R43). -/
def State.rd2 (s : State) (w : Warp) (n lane : Nat) : Word64 := s.rd w (n + 1) lane ++ s.rd w n lane

end Sys2Proof.Machine

namespace Sys2Proof

/-- Format R's srcA and srcB in a lane. -/
def R3.va (r : R3) (s : Machine.State) (w : Machine.Warp) (l : Nat) : Word := s.rd w r.a.toNat (r.p.lane .srcA l)
def R3.vb (r : R3) (s : Machine.State) (w : Machine.Warp) (l : Nat) : Word := s.rd w r.b.toNat (r.p.lane .srcB l)
def R3.vd (r : R3) (s : Machine.State) (w : Machine.Warp) (l : Nat) : Word := s.rd w r.d.toNat l
def R2.va (r : R2) (s : Machine.State) (w : Machine.Warp) (l : Nat) : Word := s.rd w r.a.toNat (r.p.lane .srcA l)

def R3.va2 (r : R3) (s : Machine.State) (w : Machine.Warp) (l : Nat) : Word64 := s.rd2 w r.a.toNat (r.p.lane .srcA l)
def R3.vb2 (r : R3) (s : Machine.State) (w : Machine.Warp) (l : Nat) : Word64 := s.rd2 w r.b.toNat (r.p.lane .srcB l)

end Sys2Proof

namespace Sys2Proof.Machine

/-- The words of a 64-bit value. -/
def words2 (x : Word64) : List Word := [x.extractLsb' 0 32, x.extractLsb' 32 32]

/-- A number as `n` words. -/
def wordsN : Nat → Nat → List Word
  | 0, _ => []
  | n + 1, x => BitVec.ofNat 32 x :: wordsN n (x / 2 ^ 32)

/-! ## Guards (R46) -/

def State.guardOk (s : State) (w : Warp) (g : Guard) (lane : Nat) : Bool :=
  match g with
  | .always => true
  | .onTrue p => s.rdP w p.toNat lane
  | .onFalse p => !s.rdP w p.toNat lane

/-- The issuing lanes whose guard holds. -/
def State.guarded (s : State) (w : Warp) (g : Guard) : Mask := maskOf fun l => s.iss.lanes.getLsbD l && s.guardOk w g l

/-! ## Writing -/

/-- Words put in consecutive registers of one lane, or in uniform registers. -/
def putWords (stride base lane : Nat) : Nat → List Word → Sparse Word → Sparse Word
  | _, [], m => m
  | n, x :: r, m => putWords stride base lane (n + 1) r (sput 0 (stride * (base + n) + lane) x m)

/-- Results written: for each lane, words into the registers from field `n` on. A uniform register is written by each in turn. -/
def State.wr (s : State) (w : Warp) (n : Nat) (vals : List (Nat × List Word)) : State :=
  if n < 640 then s.onWarp w.id fun x => { x with v := vals.foldl (fun m v => putWords 32 n v.1 0 v.2 m) x.v }
  else if n < 704 then s.onWarp w.id fun x => { x with s := vals.foldl (fun m v => putWords 1 (n - 640) 0 0 v.2 m) x.s }
  else if n < 768 then s.onBank w.q fun b => { b with h := vals.foldl (fun m v => putWords 32 (n - 704) v.1 0 v.2 m) b.h }
  else s

/-- A result written in a lane, or in uniform registers. -/
def State.put (s : State) (w : Warp) (d lane : Nat) (ws : List Word) : State := s.wr w d [(lane, ws)]

/-- A bit of a mask set or cleared. -/
def setBit (m : Mask) (l : Nat) (b : Bool) : Mask := if b then m ||| (1#32 <<< l) else m &&& ~~~(1#32 <<< l)

/-- A predicate written in lanes. -/
def State.wrP (s : State) (w : Warp) (n : Nat) (vals : List (Nat × Bool)) : State :=
  s.onWarp w.id fun x => { x with p := supd 0 n (fun m => vals.foldl (fun m v => setBit m v.1 v.2) m) x.p }

end Sys2Proof.Machine
end

