-- ==== Sys2Proof/Machine/Flags.lean ====
section
/-! DEFINITION. The exception sets of R129, how a lane's result meets FPTE and FPFL (R130), and the saturating integer results. -/

namespace Sys2Proof.Machine

/-- A set of exceptions, in the layout of R129 bits [4:0]. -/
abbrev Exc := BitVec 5

def eIV : Exc := 1
def eDZ : Exc := 2
def eOF : Exc := 4
def eUF : Exc := 8
def eNX : Exc := 16

/-- The SAT bit of an accumulator's flags (R129, R132). -/
def eSAT : BitVec 8 := 32

/-- FPTE of a lane of a warp. -/
def Warp.fpte (w : Warp) (l : Nat) : Exc := (laneAt w.lanes l).fpte

/-- Whether exceptions trap in a lane (R130). -/
def Warp.traps? (w : Warp) (l : Nat) (e : Exc) : Bool := decide (e &&& w.fpte l ≠ 0#5)

/-- FPFL of lanes grown by their exceptions (R130). -/
def State.orFlags (s : State) (w : Warp) (es : List (Nat × Exc)) : State :=
  es.foldl (fun s x => if x.2 = 0#5 then s else
    s.onWarp w.id fun y => { y with lanes := mapLanes (1#32 <<< x.1) (fun l => { l with fpfl := l.fpfl ||| x.2 }) y.lanes }) s

/-- The arithmetic traps of lanes (R130, R286, R289). -/
def State.arithTrap (s : State) (w : Warp) (es : List (Nat × Exc)) : State :=
  s.takeTrap w s.iss.hnd tARITH (es.map fun x => TrapLane.of x.1 0 0 x.2.toNat s.iss.word)

/-- clamp_s of R141. -/
def clampS (x : Int) : Word := BitVec.ofInt 32 (max (-2147483648) (min 2147483647 x))

/-- clamp_z of R141. -/
def clampZ (x : Int) : Word := BitVec.ofInt 32 (max 0 (min 4294967295 x))

/-- A value read under a sign: sx or zx (R141). -/
def ext (g : Sgn) (x : Word) : Int := match g with | .s => x.toInt | .z => x.toNat

end Sys2Proof.Machine
end

