-- ==== Sys2Proof/Machine/Perform.lean ====
section
/-! DEFINITION. What every instruction shares when it acts: guards (R46), the order of causes (R56), the stall-count check (R51), latencies
(R49, R138, R307), results by lane or once (R45, R130), and the advance of positions (R101). -/

namespace Sys2Proof.Machine

/-! ## Latencies -/

/-- The permute of an instruction. -/
def permOf : Instr → Perm
  | .iadd _ _ r | .isub _ _ r | .imul _ r | .imulh _ _ r | .imad _ r | .imadw _ _ r | .iadd64 _ r | .imin _ _ r | .imax _ _ r
  | .ishl _ r | .ishr _ r | .lshr _ r | .rot _ _ r | .and _ r | .or _ r | .xor _ r | .andn _ r | .bfx _ _ r | .bfi _ r
  | .iset _ _ _ r | .sel _ _ _ r | .lea _ _ _ r | .idot4 _ _ _ _ r
  | .fadd _ _ r | .fsub _ _ r | .fmul _ _ r | .ffma _ _ r | .fmin _ r | .fmax _ r | .fset _ _ r | .fsign _ _ _ r
  | .hfma2 _ _ _ r | .hadd2 _ _ _ r | .hmul2 _ _ _ r | .qdec _ _ _ r | .qenc _ _ _ _ _ r | .qxtra _ _ _ r | .shfl _ _ _ r
  | .umov _ _ _ r => r.p
  | .iabs _ _ r | .popc _ r | .clz _ r | .brev _ r | .mov _ _ r | .fclass _ _ r | .frcp _ _ r | .frsq _ _ r | .fexp2 _ _ r
  | .flog2 _ _ r | .frnd _ _ r | .fcvt _ _ _ r | .ftoi _ _ _ r | .itof _ _ _ r | .qscale _ _ _ _ r | .pmov _ _ r => r.p
  | _ => .none

/-- Fixed latencies at nominal fold (R49, R118, R138, R307); `none` for results the scoreboard tracks, or no result. -/
def nominal : Instr → Option Nat
  | .iadd _ _ _ | .isub _ _ _ | .iadd64 _ _ | .imin _ _ _ | .imax _ _ _ | .iabs _ _ _ | .ishl _ _ | .ishr _ _ | .lshr _ _ | .rot _ _ _
  | .and _ _ | .or _ _ | .xor _ _ | .andn _ _ | .popc _ _ | .clz _ _ | .brev _ _ | .bfx _ _ _ | .bfi _ _ | .iset _ _ _ _ | .sel _ _ _ _
  | .mov _ _ _ | .movi _ _ _ | .iaddi _ _ _ _ | .movxw _ _ _ _ | .lea _ _ _ _ | .fset _ _ _ | .plop _ _ _ _ _ | .pmov _ _ _
  | .vote _ _ _ _ _ | .umov _ _ _ _ | .call _ _ _ => some 2
  | .imul _ _ | .imulh _ _ _ | .imad _ _ | .imadw _ _ _ | .idot4 _ _ _ _ _ | .fadd _ _ _ | .fsub _ _ _ | .fmul _ _ _ | .ffma _ _ _
  | .hfma2 _ _ _ _ | .hadd2 _ _ _ _ | .hmul2 _ _ _ _ | .fcvt _ _ _ _ | .ftoi _ _ _ _ | .itof _ _ _ _ | .fmin _ _ | .fmax _ _
  | .fclass _ _ _ | .frnd _ _ _ | .fsign _ _ _ _ | .qdec _ _ _ _ | .qenc _ _ _ _ _ _ | .qxtra _ _ _ _ | .shfl _ _ _ _ | .featq _ _ _
  | .sysr _ _ _ | .hget _ _ _ _ | .clock _ _ _ | .pmc _ _ _ => some 4
  | .qscale _ _ _ _ _ => some 6
  | .frcp _ _ _ | .frsq _ _ _ | .fexp2 _ _ _ | .flog2 _ _ _ => some 8
  | _ => none

/-- The latency on a quadrant of `b` beats (R49). -/
def latency (i : Instr) (b : Nat) : Option Nat := (nominal i).map fun n => n + (permOf i).cost + (b - 2)

/-! ## Handler mode (R290, R304, R305) -/

/-- Instructions of the tile file and the matrix engine. -/
def isTile : Instr → Bool
  | .tdef _ _ _ | .tdefs _ _ _ | .tdefa _ _ _ | .tkill _ _ | .tld _ _ _ _ _ | .tst _ _ _ _ | .trow _ _ _ _ | .rcfence _ _
  | .mma _ _ _ _ _ _ | .mmalr _ _ _ _ _ _ _ | .adapt _ _ _ _ _ | .aclr _ _ | .arow _ _ _ _ | .arowSt _ _ _ _ | .aflag _ _ _ _
  | .adpfD _ _ _ | .adpfU _ _ _ | .adpfInv _ | .adpfInvd _ => true
  | _ => false

/-- Whether the mode allows an instruction: some raise illegal-instruction in a handler, some outside one. -/
def modeOk (i : Instr) (hnd : Bool) : Bool :=
  match i with
  | .cdecl _ _ _ _ | .cdeclIss _ _ | .csign _ _ | .csignNw _ _ | .exit _ | .bar _ _ _ _ _ | .cbar _ _ _ _ | .qpop _ true _ _
  | .tkwait _ _ => !hnd
  | .hretRetry _ | .hretSkip _ | .hretEsc _ | .hget _ _ _ _ | .hset _ _ _ _ => hnd
  | _ => !(isTile i && hnd)

/-! ## Results not yet due (R51) -/

/-- A fixed-latency result of a register that is not due at a cycle. -/
def Warp.undue (w : Warp) (now key : Nat) : Bool := w.fixed.any fun f => decide (f.reg = key) && decide (now < f.due)

/-- STALL-UNDERSIZED: a register read before its result is due, or written, by its issue, before an earlier write has landed (log entry 74). -/
def stallShort (w : Warp) (now : Nat) (i : Instr) : Bool :=
  match i with
  | .movx _ _ _ _ | .movxSt _ _ _ _ => false
  | _ => (readKeys i ++ writeKeys i).any (w.undue now)

/-- The value of a key in a lane: a register or a predicate as 0 or 1. -/
def State.keyVal (s : State) (w : Warp) (key lane : Nat) : Word :=
  if key < 1024 then s.reg w key lane else if w.pred (key - 1024) lane then 1 else 0

/-- Which value each early read of some keys receives: the whole old one or the whole new one, freely (R51). -/
def State.lookKeys (s : State) (w : Warp) (keys : List Nat) : State :=
  let ks := keys.filter (w.undue s.iss.now)
  ks.foldl (fun s k => lanes32.foldl (fun s l =>
    let r := (w.fixed.filter fun f => decide (f.reg = k) && decide (s.iss.now < f.due)).foldl
      (fun (r : Word × State) f => r.2.pick r.1 (f.old.getD l 0)) (s.keyVal w k l, s)
    { r.2 with iss := { r.2.iss with early := sput none (32 * k + l) (some r.1) r.2.iss.early } }) s) s

/-- The early reads of an instruction. -/
def State.lookEarly (s : State) (w : Warp) (i : Instr) : State := s.lookKeys w (readKeys i)

/-- A value put back in a lane of a key: the earlier write that landed last (R51). -/
def State.putKey (s : State) (w : Warp) (key lane : Nat) (x : Word) : State :=
  if key < 1024 then s.wr w key [(lane, [x])] else s.wrP w (key - 1024) [(lane, x ≠ 0)]

/-- A write to key `k` that lands before an earlier fixed-latency write of it is due leaves either value in each lane that both wrote (R51): `x` is
the later write's and `y` the earlier one's. -/
def State.overtake (s : State) (wi k : Nat) (fs : List Fixed) (y : Nat → Word) (l : Nat) : State :=
  match s.warp? wi with
  | none => s
  | some w =>
    let x := s.keyVal w k l
    if fs.any fun f => decide (f.reg = k) && (isS k || f.lanes.getLsbD l) then
      let r := s.pick x (y l)
      if r.1 = x then r.2 else r.2.putKey w k l r.1
    else s

/-- The lanes of a mask in which an instruction that has acted did not trap. -/
def State.wrote (s : State) (wi : Nat) (act : Mask) : Mask :=
  match s.warp? wi with
  | none => 0
  | some w => maskOf fun l => act.getLsbD l && decide ((laneAt w.lanes l).park ≠ .trap)

/-- After an instruction: its own fixed-latency results are noted in the lanes that wrote, and where an earlier result lands after this one, either
value is left. A result of variable latency made at issue lands before every earlier one not yet due, or after it, freely. -/
def State.note (s0 : State) (w : Warp) (act : Mask) (i : Instr) (s : State) : State :=
  let now := s0.iss.now
  let m := s.wrote w.id act
  let n := latency i (s0.quad w.q).beats
  if m = 0#32 then s
  else
    (writeKeys i).foldl (fun s k =>
      let fs := w.fixed.filter fun f => decide (now + n.getD 0 < f.due)
      let s := (if isS k then [lowestLane m] else lanesOf m).foldl (fun s l => s.overtake w.id k fs (s0.keyVal w k) l) s
      match n with
      | none => s
      | some n => s.onWarp w.id fun x => { x with fixed := { reg := k, issued := now, lanes := m, due := now + n, old := lanes32.map (s0.keyVal w k) } ::
        (x.fixed.filter fun f => decide (now < f.due)) }) s

/-- A result of variable latency that comes later lands in a lane (R184, R208): before an earlier fixed-latency write not yet due, or after it. -/
def State.putLate (s : State) (w : Warp) (n lane : Nat) (ws : List Word) : State :=
  let fs := w.fixed.filter fun f => decide ((s.quad w.q).cycle < f.due)
  (List.range ws.length).foldl (fun t j => t.overtake w.id (n + j) fs (s.keyVal w (n + j)) lane) (s.put w n lane ws)

/-! ## The frame of every instruction -/

/-- The instructions that void a block's idempotence once one of its lanes issues them (R315). -/
def voids : Instr → Bool
  | .atom _ _ _ | .redo _ _ _ | .qpush _ _ _ | .qpop _ _ _ _ | .notify _ _ _ _ _ | .gtrig _ _ _ => true
  | _ => false

/-- The cluster group of a warp's block. -/
def State.warpGroup (s : State) (w : Warp) : Option CGroup := (s.block? w.blk).bind fun b => s.cgroup? b.cg

/-- A group that waits to be stopped and started again cannot be once a block of it is voided: its blocks are listed SUSPECT (R318). -/
def State.keepGroup (s : State) (w : Warp) : State :=
  match s.warpGroup w, s.ctx? w.ctx with
  | some g, some c => if g.again then (s.onCGroup g.id fun x => { x with again := false }).onGrid c.grid fun x => x.suspect (c.h.groupLins g.gidx) else s
  | _, _ => s

/-- The block of a warp voided by an instruction's issue, whether or not it then traps. -/
def State.void (s : State) (w : Warp) (i : Instr) : State :=
  if voids i then (s.onBlock w.blk fun b => { b with voided := true }).keepGroup w else s

/-- `i` acts: `extra` is what its description adds to illegal-operand, `body` its effect on the warp with the guarded issuing lanes. The checks stand
in the order of R56. Where no guard holds, no lane can raise illegal-operand, and the stall check alone applies (log entry 74). -/
def performWith (i : Instr) (extra : State → Warp → Bool) (body : Warp → Mask → State → State) (s : State) : State :=
  match s.issWarp with
  | none => s
  | some w =>
    if s.iss.lanes = 0#32 then s
    else
      let native := !s.interlocked w s.iss.hnd
      let chk := ((s.ctx? w.ctx).map (·.chk)).getD false
      let s := if native && !chk then s.lookEarly w i else s
      let act := s.guarded w (common i).guard
      let s := if act = 0#32 then s else s.void w i
      let rest := s.iss.lanes &&& ~~~act
      if act ≠ 0#32 && !modeOk i s.iss.hnd then (s.trapAll w act tILLEGAL 0 0 0).advance w rest
      else if act ≠ 0#32 && !(regsOk i w.gran s.iss.hnd && extra s w) then (s.trapAll w act tOPERAND 0 0 0).advance w rest
      else if native && chk && stallShort w s.iss.now i then s.trapAll w s.iss.lanes tSTALL 0 0 0
      else if act = 0#32 then s.advance w s.iss.lanes
      else
        s.note w act i (body w act s)

def perform (i : Instr) (body : Warp → Mask → State → State) (s : State) : Out := .next (performWith i (fun _ _ => true) body s)

/-- Results by lane (R45, R130, R136): `f` gives each lane's words and exceptions. With a uniform destination it is computed once and every
guarded lane sees the same exceptions. -/
def laneResults (w : Warp) (act : Mask) (d : Nat) (f : Nat → List Word × Exc) (s : State) : State :=
  let rs : List (Nat × List Word × Exc) :=
    if isS d then (let r := f (lowestLane act); (lanesOf act).map fun l => (l, r)) else (lanesOf act).map fun l => (l, f l)
  let bad := rs.filter fun r => w.traps? r.1 r.2.2
  let ok := rs.filter fun r => !w.traps? r.1 r.2.2
  let s := (s.wr w d (ok.map fun r => (r.1, r.2.1))).orFlags w (ok.map fun r => (r.1, r.2.2))
  let m := maskOf fun l => bad.any fun r => r.1 = l
  (s.arithTrap w (bad.map fun r => (r.1, r.2.2))).advance w (s.iss.lanes &&& ~~~m)

/-- A vector instruction whose result in lane `l` is `f s w l`. -/
def vop (i : Instr) (d : Fld) (f : State → Warp → Nat → List Word × Exc) (s : State) : Out :=
  perform i (fun w act s => laneResults w act d.toNat (f s w) s) s

/-- A vector instruction that raises nothing and gives one word. -/
def vop1 (i : Instr) (d : Fld) (f : State → Warp → Nat → Word) (s : State) : Out := vop i d (fun s w l => ([f s w l], 0)) s

/-- A vector instruction that raises nothing and gives a pair. -/
def vop2 (i : Instr) (d : Fld) (f : State → Warp → Nat → Word64) (s : State) : Out := vop i d (fun s w l => (words2 (f s w l), 0)) s

/-- A predicate written by lane, with exceptions (R143, R148). -/
def lanePreds (w : Warp) (act : Mask) (d : Nat) (f : Nat → Bool × Exc) (s : State) : State :=
  let rs := (lanesOf act).map fun l => (l, f l)
  let bad := rs.filter fun r => w.traps? r.1 r.2.2
  let ok := rs.filter fun r => !w.traps? r.1 r.2.2
  let s := (s.wrP w d (ok.map fun r => (r.1, r.2.1))).orFlags w (ok.map fun r => (r.1, r.2.2))
  let m := maskOf fun l => bad.any fun r => r.1 = l
  (s.arithTrap w (bad.map fun r => (r.1, r.2.2))).advance w (s.iss.lanes &&& ~~~m)

def pop (i : Instr) (d : Fld) (f : State → Warp → Nat → Bool × Exc) (s : State) : Out :=
  perform i (fun w act s => lanePreds w act d.toNat (f s w) s) s

end Sys2Proof.Machine
end

