-- ==== Sys2Proof/Machine/Float.lean ====
section
/-! DEFINITION. Numbers to the bit (R119 to R129): the formats and their values, exact quantities, the one rounding of R125 with its exceptions, and
the exact functions of R146 and R149. -/

namespace Sys2Proof.Machine

/-- A floating-point format (R119): exponent and fraction bits, bias, whether it has an infinity, largest finite magnitude, canonical NaN (R120),
whether it has signalling NaNs. -/
structure Fmt where
  eb : Nat
  mb : Nat
  bias : Nat
  hasInf : Bool
  big : Nat
  nan : Nat
  snan : Bool
  deriving DecidableEq, Repr

def F32 : Fmt := { eb := 8, mb := 23, bias := 127, hasInf := true, big := 0x7F7FFFFF, nan := 0x7FC00000, snan := true }
def F16 : Fmt := { eb := 5, mb := 10, bias := 15, hasInf := true, big := 0x7BFF, nan := 0x7E00, snan := true }
def BF16 : Fmt := { eb := 8, mb := 7, bias := 127, hasInf := true, big := 0x7F7F, nan := 0x7FC0, snan := true }
def E4M3 : Fmt := { eb := 4, mb := 3, bias := 7, hasInf := false, big := 0x7E, nan := 0x7F, snan := false }
def E5M2 : Fmt := { eb := 5, mb := 2, bias := 15, hasInf := true, big := 0x7B, nan := 0x7E, snan := false }

/-- The value of an encoding: NaN (signalling or not), infinity, or (−1)^s × m × 2^e. -/
inductive FV where
  | nan (sig : Bool)
  | inf (s : Bool)
  | num (s : Bool) (m : Nat) (e : Int)
  deriving DecidableEq, Repr

/-- A quantity to round: as `FV`, and with `st` a magnitude strictly between m × 2^e and (m + 1) × 2^e. -/
inductive Qty where
  | nan
  | inf (s : Bool)
  | fin (s : Bool) (m : Nat) (e : Int) (st : Bool)
  deriving DecidableEq, Repr

/-- The exponent of a format's smallest subnormal. -/
def Fmt.qmin (f : Fmt) : Int := 1 - (f.bias : Int) - f.mb

/-- R119: an encoding's value. -/
def Fmt.dec (f : Fmt) (x : Nat) : FV :=
  let s := decide (x / 2 ^ (f.eb + f.mb) % 2 = 1)
  let e := x / 2 ^ f.mb % 2 ^ f.eb
  let m := x % 2 ^ f.mb
  if f.hasInf && decide (e = 2 ^ f.eb - 1) then (if m = 0 then .inf s else .nan (f.snan && decide (m < 2 ^ (f.mb - 1))))
  else if !f.hasInf && decide (x % 2 ^ (f.eb + f.mb) = f.nan) then .nan false
  else if e = 0 then .num s m f.qmin
  else .num s (2 ^ f.mb + m) (f.qmin + e - 1)

/-! ## Rounding -/

/-- m × 2^(−d) rounded to an integer under a mode, sign `s`, with whether it changed (R125). -/
def roundAt (m : RM) (s : Bool) (x : Nat) (d : Int) (st : Bool) : Nat × Bool :=
  if d ≤ 0 then
    (x * 2 ^ (-d).toNat + (if st && decide (m = (if s then RM.rdn else RM.rup)) then 1 else 0), st)
  else
    let p := 2 ^ d.toNat
    let n := x / p
    let r := x % p
    let inx := st || decide (r ≠ 0)
    let up := match m with
      | .rne => decide (p < 2 * r) || (decide (2 * r = p) && (st || decide (n % 2 = 1)))
      | .rz => false
      | .rdn => s && inx
      | .rup => !s && inx
    (if up then n + 1 else n, inx)

/-- Bits in a number. -/
def bitLen (m : Nat) : Nat := if m = 0 then 0 else Nat.log2 m + 1

/-- The sign bit of a format. -/
def Fmt.sign (f : Fmt) (s : Bool) : Nat := if s then 2 ^ (f.eb + f.mb) else 0

/-- The infinity or what stands for it (R126). -/
def Fmt.infBits (f : Fmt) (s sat : Bool) : Nat :=
  if sat then f.sign s + f.big else if f.hasInf then f.sign s + (2 ^ f.eb - 1) * 2 ^ f.mb else f.nan

/-- The overflow result (R126). -/
def Fmt.overflow (f : Fmt) (m : RM) (s sat : Bool) : Nat :=
  let toInf := match m with | .rne => true | .rz => false | .rdn => s | .rup => !s
  if toInf then f.infBits s sat else f.sign s + f.big

/-- Whether a magnitude is tiny (R127): rounded with an unbounded exponent range it is below the smallest normal. -/
def Fmt.tiny (f : Fmt) (m : RM) (s : Bool) (x : Nat) (e : Int) (st : Bool) : Bool :=
  let q := e + bitLen x - (f.mb + 1)
  decide (q < f.qmin) && (let n := (roundAt m s x (q - e) st).1; decide (q + 1 < f.qmin) || decide (n < 2 ^ (f.mb + 1)))

/-- round_m of R125 into a format, with the exceptions of R126, R127 and R129. -/
def Fmt.round (f : Fmt) (m : RM) (sat : Bool) (x : Qty) : Nat × Exc :=
  match x with
  | .nan => (f.nan, 0)
  | .inf s => (f.infBits s sat, 0)
  | .fin s n e st =>
    if n = 0 && !st then (f.sign s, 0)
    else
      let k := max (e + bitLen n - (f.mb + 1)) f.qmin
      let r := roundAt m s n (k - e) st
      let code := (k - f.qmin).toNat * 2 ^ f.mb + r.1
      if f.big < code then (f.overflow m s sat, eOF ||| eNX)
      else (f.sign s + code, if r.2 then eNX ||| (if f.tiny m s n e st then eUF else 0) else 0)

/-! ## Exact arithmetic -/

def FV.isNan : FV → Bool
  | .nan _ => true
  | _ => false

def FV.isSig : FV → Bool
  | .nan g => g
  | _ => false

def FV.neg : FV → FV
  | .nan g => .nan g
  | .inf s => .inf !s
  | .num s m e => .num (!s) m e

/-- IV where an operand is a signalling NaN (R129). -/
def sigExc (l : List FV) : Exc := if l.any FV.isSig then eIV else 0

def FV.qty : FV → Qty
  | .nan _ => .nan
  | .inf s => .inf s
  | .num s m e => .fin s m e false

/-- A signed number at exponent `e`, which is no greater than its own. -/
def scaled (s : Bool) (m : Nat) (e0 e : Int) : Int := let v : Int := (m * 2 ^ (e0 - e).toNat : Nat); if s then -v else v

/-- The exact sum of two numbers; the sign of a zero sum is R125's: under RDN −0, else +0, and −0 of two −0. -/
def sumQ (m : RM) (s1 : Bool) (m1 : Nat) (e1 : Int) (s2 : Bool) (m2 : Nat) (e2 : Int) : Qty :=
  let e := min e1 e2
  let v := scaled s1 m1 e1 e + scaled s2 m2 e2 e
  if v = 0 then .fin (decide (m = .rdn) || (decide (m1 = 0) && s1 && s2)) 0 0 false else .fin (decide (v < 0)) v.natAbs e false

def addQ (m : RM) (a b : FV) : Qty × Exc :=
  match a, b with
  | .nan _, _ | _, .nan _ => (.nan, sigExc [a, b])
  | .inf s, .inf t => if s = t then (.inf s, 0) else (.nan, eIV)
  | .inf s, _ | _, .inf s => (.inf s, 0)
  | .num s1 m1 e1, .num s2 m2 e2 => (sumQ m s1 m1 e1 s2 m2 e2, 0)

/-- The exact difference (R125): one that is exactly zero is +0, and −0 under RDN, though the operands are −0 and +0. -/
def subQ (m : RM) (a b : FV) : Qty × Exc :=
  match addQ m a b.neg with
  | (.fin _ 0 e x, q) => (.fin (decide (m = .rdn)) 0 e x, q)
  | r => r

/-- The exact product as a value; 0 × ∞ is a signalling NaN here, so that it raises IV wherever it is used. -/
def mulV (a b : FV) : FV :=
  match a, b with
  | .nan g, .nan h => .nan (g || h)
  | .nan g, _ | _, .nan g => .nan g
  | .inf s, .inf t => .inf (s != t)
  | .inf s, .num t m _ | .num t m _, .inf s => if m = 0 then .nan true else .inf (s != t)
  | .num s1 m1 e1, .num s2 m2 e2 => .num (s1 != s2) (m1 * m2) (e1 + e2)

def mulQ (a b : FV) : Qty × Exc := let p := mulV a b; (p.qty, sigExc [p])

/-- fma of R146: the product is exact. -/
def fmaQ (m : RM) (a b c : FV) : Qty × Exc := addQ m (mulV a b) c

/-- A quotient of magnitudes, 64 bits beyond the point. -/
def ratio (s : Bool) (m1 : Nat) (e1 : Int) (m2 : Nat) (e2 : Int) : Qty :=
  .fin s (m1 * 2 ^ 64 / m2) (e1 - e2 - 64) (decide (m1 * 2 ^ 64 % m2 ≠ 0))

/-- FDIV (R146). -/
def divQ (a b : FV) : Qty × Exc :=
  match a, b with
  | .nan _, _ | _, .nan _ => (.nan, sigExc [a, b])
  | .inf _, .inf _ => (.nan, eIV)
  | .inf s, .num t _ _ => (.inf (s != t), 0)
  | .num s _ _, .inf t => (.fin (s != t) 0 0 false, 0)
  | .num s m1 e1, .num t m2 e2 =>
    if m2 = 0 then (if m1 = 0 then (.nan, eIV) else (.inf (s != t), eDZ)) else (ratio (s != t) m1 e1 m2 e2, 0)

/-- The integer square root of a number below 4^fuel, from root `r`. -/
def isqrtFrom : Nat → Nat → Nat → Nat
  | 0, _, r => r
  | k + 1, n, r => isqrtFrom k n (if (r + 2 ^ k) * (r + 2 ^ k) ≤ n then r + 2 ^ k else r)

def isqrt (fuel n : Nat) : Nat := isqrtFrom fuel n 0

/-- A magnitude with an even exponent. -/
def evenExp (m : Nat) (e : Int) : Nat × Int := if e % 2 = 0 then (m, e) else (2 * m, e - 1)

/-- FSQRT (R146). -/
def sqrtQ (a : FV) : Qty × Exc :=
  match a with
  | .nan _ => (.nan, sigExc [a])
  | .inf s => if s then (.nan, eIV) else (.inf false, 0)
  | .num s m e =>
    if m = 0 then (.fin s 0 0 false, 0)
    else if s then (.nan, eIV)
    else
      let p := evenExp m e
      let n := p.1 * 2 ^ 64
      let r := isqrt 48 n
      (.fin false r (p.2 / 2 - 32) (decide (r * r ≠ n)), 0)

/-- FRCP (R149). -/
def rcpQ (a : FV) : Qty × Exc :=
  match a with
  | .nan _ => (.nan, sigExc [a])
  | .inf s => (.fin s 0 0 false, 0)
  | .num s m e => if m = 0 then (.inf s, eDZ) else (ratio s 1 0 m e, 0)

/-- FRSQ (R149). -/
def rsqQ (a : FV) : Qty × Exc :=
  match a with
  | .nan _ => (.nan, sigExc [a])
  | .inf s => if s then (.nan, eIV) else (.fin false 0 0 false, 0)
  | .num s m e =>
    if m = 0 then (.inf s, eDZ)
    else if s then (.nan, eIV)
    else
      let p := evenExp m e
      let r := isqrt 65 (2 ^ 128 / p.1)
      (.fin false r (-64 - p.2 / 2) (decide (r * r * p.1 ≠ 2 ^ 128)), 0)

/-- ln 2 × 2^320, rounded down. -/
def ln2 : Nat := 0xb17217f7d1cf79abc9e3b39803f2f6af40f343267298b62d8a0d175b8baafa2be7b876206debac98

/-- The terms of the exponential series added up: `t` is the n-th term, y the argument, at 320 bits. -/
def expSum : Nat → Nat → Nat → Nat → Nat
  | 0, _, _, _ => 0
  | k + 1, n, t, y => t + expSum k (n + 1) (t * y / 2 ^ 320 / (n + 1)) y

/-- FEXP2 (R149; log entry 13). -/
def exp2Q (a : FV) : Qty × Exc :=
  match a with
  | .nan _ => (.nan, sigExc [a])
  | .inf s => (if s then .fin false 0 0 false else .inf false, 0)
  | .num s m e =>
    if m = 0 then (.fin false 1 0 false, 0)
    else if 9 ≤ e + bitLen m then (.fin false 1 (if s then -400 else 400) true, 0)
    else
      let q : Nat := 2 ^ (-e).toNat
      let w : Int := (m * 2 ^ e.toNat : Nat)
      let v : Int := if s then -w else w
      let n := v / q
      let f := (v - n * q).toNat
      if f = 0 then (.fin false 1 n false, 0)
      else (.fin false (expSum 100 0 (2 ^ 320) (f * ln2 / q)) (n - 320) true, 0)

/-- The binary digits of log2 of y / 2^320, y from 2^320 to below 2^321, as `k` bits after `acc`. -/
def log2Digits : Nat → Nat → Nat → Nat
  | 0, _, acc => acc
  | k + 1, y, acc =>
    let z := y * y / 2 ^ 320
    if 2 ^ 321 ≤ z then log2Digits k (z / 2) (2 * acc + 1) else log2Digits k z (2 * acc)

/-- FLOG2 (R149; log entry 13). -/
def log2Q (a : FV) : Qty × Exc :=
  match a with
  | .nan _ => (.nan, sigExc [a])
  | .inf s => if s then (.nan, eIV) else (.inf false, 0)
  | .num s m e =>
    if m = 0 then (.inf true, eDZ)
    else if s then (.nan, eIV)
    else
      let l := Nat.log2 m
      let n : Int := e + l
      if m = 2 ^ l then (.fin (decide (n < 0)) n.natAbs 0 false, 0)
      else
        let t := n * 2 ^ 128 + log2Digits 128 (m * 2 ^ 320 / 2 ^ l) 0
        (if 0 ≤ t then .fin false t.toNat (-128) true else .fin true (t.natAbs - 1) (-128) true, 0)

/-! ## Results in FP32 -/

/-- A 32-bit register read as FP32. -/
def f32 (x : Word) : FV := F32.dec x.toNat

/-- A quantity and its exceptions rounded into FP32. -/
def to32 (m : RM) (q : Qty × Exc) : Word × Exc := let r := F32.round m false q.1; (BitVec.ofNat 32 r.1, r.2 ||| q.2)

/-- The order of FP32 encodings that are not NaN, −0 below +0 (R147). -/
def order32 (x : Word) : Int := let m : Int := x.toNat % 2 ^ 31; if x.msb then -m - 1 else m

/-- FMIN and FMAX (R147). -/
def minMax (mx : Bool) (a b : Word) : Word × Exc :=
  (match f32 a, f32 b with
   | .nan _, .nan _ => BitVec.ofNat 32 F32.nan
   | .nan _, _ => b
   | _, .nan _ => a
   | _, _ => if decide (order32 a ≤ order32 b) != mx then a else b, sigExc [f32 a, f32 b])

/-- The comparison of two values that are not NaN: −1, 0 or 1 (R148). -/
def cmpV (a b : FV) : Int :=
  match a, b with
  | .inf s, .inf t => if s = t then 0 else if s then -1 else 1
  | .inf s, _ => if s then -1 else 1
  | _, .inf s => if s then 1 else -1
  | .num s1 m1 e1, .num s2 m2 e2 =>
    let e := min e1 e2
    let d := scaled s1 m1 e1 e - scaled s2 m2 e2 e
    if d < 0 then -1 else if d = 0 then 0 else 1
  | _, _ => 0

/-- FSET (R148). -/
def fcmp (cc : FCmp) (a b : Word) : Bool × Exc :=
  let x := f32 a
  let y := f32 b
  let un := x.isNan || y.isNan
  let c := cmpV x y
  (match cc with
   | .eq => !un && decide (c = 0)
   | .ne => un || decide (c ≠ 0)
   | .lt => !un && decide (c < 0)
   | .le => !un && decide (c ≤ 0)
   | .gt => !un && decide (0 < c)
   | .ge => !un && decide (0 ≤ c)
   | .num => !un
   | .nan => un, sigExc [x, y])

/-- FCLASS (R148). -/
def fclass (f : Fmt) (x : Nat) : Nat :=
  match f.dec x with
  | .nan g => if g then 2 ^ 8 else 2 ^ 9
  | .inf s => if s then 2 ^ 0 else 2 ^ 7
  | .num s m _ =>
    if m = 0 then (if s then 2 ^ 3 else 2 ^ 4)
    else if m < 2 ^ f.mb then (if s then 2 ^ 2 else 2 ^ 5)
    else if s then 2 ^ 1 else 2 ^ 6

/-- FRND (R150). -/
def frnd (m : RM) (a : Word) : Word × Exc :=
  match f32 a with
  | .nan g => (BitVec.ofNat 32 F32.nan, if g then eIV else 0)
  | .inf _ => (a, 0)
  | .num s n e => if n = 0 || decide (0 ≤ e) then (a, 0) else ((to32 .rne (.fin s (roundAt m s n (-e) false).1 0 false, 0)).1, 0)

/-- FTOI (R150). -/
def ftoi (g : Sgn) (m : RM) (a : Word) : Word × Exc :=
  let lo : Int := match g with | .s => -2147483648 | .z => 0
  let hi : Int := match g with | .s => 2147483647 | .z => 4294967295
  match f32 a with
  | .nan _ => (0, eIV)
  | .inf s => (BitVec.ofInt 32 (if s then lo else hi), eIV)
  | .num s n e =>
    let r := roundAt m s n (-e) false
    let v : Int := if s then -(r.1 : Int) else r.1
    if v < lo then (BitVec.ofInt 32 lo, eIV) else if hi < v then (BitVec.ofInt 32 hi, eIV) else (BitVec.ofInt 32 v, if r.2 then eNX else 0)

/-- ITOF (R150). -/
def itof (g : Sgn) (m : RM) (a : Word) : Word × Exc := let v := ext g a; to32 m (.fin (decide (v < 0)) v.natAbs 0 false, 0)

/-- FCVT (R150): source format and width, destination format. -/
def cvtFmts : Cvt → Fmt × Fmt
  | .f32f16 => (F16, F32)
  | .f32bf16 => (BF16, F32)
  | .f16f32 => (F32, F16)
  | .bf16f32 => (F32, BF16)
  | .f16bf16 => (BF16, F16)
  | .bf16f16 => (F16, BF16)
  | .f32e4m3 => (E4M3, F32)
  | .f32e5m2 => (E5M2, F32)

def fcvt (k : Cvt) (m : RM) (a : Word) : Word × Exc :=
  let f := cvtFmts k
  let x := f.1.dec (a.toNat % 2 ^ (1 + f.1.eb + f.1.mb))
  let r := f.2.round m false x.qty
  (BitVec.ofNat 32 r.1, r.2 ||| sigExc [x])

end Sys2Proof.Machine
end

