-- ==== Sys2Proof/Machine/Memory.lean ====
section
/-! DEFINITION. The memory instructions at issue (R166 to R171, R182 to R191, R361): addresses, translation, the L1 and read-only caches, page-service
requests, and the requests that leave the core. -/

namespace Sys2Proof.Machine

/-! ## Page service (R171) -/

/-- The record of a page request written to the group's ring, with the write of its notify register; the request waits while the ring is full. -/
def State.askPage (s : State) (p : Page) : PageSt × State :=
  let g := s.grp p.group
  let word (s : State) (a : Nat) : Nat × State := match s.readVa p.group a 4 .read with | .ok b => (ofBytes b, s) | .error e => (0, s.engineErr p.group e)
  let put (s : State) (a : Nat) (b : List Byte) : State := match s.writeVa p.group a b .write with | (s, none) => s | (s, some e) => s.engineErr p.group e
  let h := word s g.prbase
  let t := word h.2 (g.prbase + 4)
  let (head, tail, s) := (h.1, t.1, t.2)
  if (tail + 1) % g.prsize = head % g.prsize then (p.st, s)
  else
    let seq := g.prseq + 1
    let acc := match p.acc with | .read => 1 | .write => 2 | .fetch => 3 | .atomic => 4 | .copy _ => 5
    let b := toBytes 8 seq ++ toBytes 8 p.page ++ toBytes 1 acc ++ toBytes 1 (p.core / 8) ++ toBytes 1 (p.core % 8) ++ toBytes 13 0
    let s := s.onGrp p.group fun g => { g with prseq := seq }
    let s := put s (g.prbase + 64 + 32 * (tail % g.prsize)) b
    let s := put s (g.prbase + 4) (toBytes 4 ((tail + 1) % g.prsize))
    (.asked seq s.ns, s.notify g.prnotify 1)

/-- A request that covers an address: of the same cluster, group and page. -/
def Page.covers (p : Page) (group core va : Nat) : Bool :=
  decide (p.group = group) && decide (p.core / 8 = core / 8) && decide (p.page = va / 65536 * 65536)

/-- The request under way that covers an address; one that has failed takes nobody more. -/
def State.pageAt (s : State) (group core va : Nat) : Option Page := s.pages.find? fun p => p.covers group core va && decide (p.st ≠ .failed)

/-- A failed request of which an engine's operation has yet to hear. -/
def State.pageLost (s : State) (group core va op : Nat) : Option Page :=
  s.pages.find? fun p => p.covers group core va && decide (p.st = .failed) && p.users.contains (.engine op)

/-- A service request: joined to the cluster's request for the page, or a new record. -/
def State.wantPage (s : State) (group core va : Nat) (acc : Acc) (u : PageUser) : State :=
  match s.pageAt group core va with
  | some p => { s with pages := s.pages.map fun q => if q = p && !q.users.contains u then { q with users := q.users ++ [u] } else q }
  | none =>
    let p : Page := { group := group, page := va / 65536 * 65536, acc := acc, core := core, users := [u], st := .noRoom s.ns }
    let r := s.askPage p
    { r.2 with pages := r.2.pages ++ [{ p with st := r.1 }] }

/-! ## The place that a faulting REDO keeps (R263, R265) -/

/-- The stream, ticket and operand of a REDO in a lane. -/
def redoStream (s : State) (w : Warp) (m : MOp) (l : Nat) : Nat := (s.rd w (m.data.toNat + 3) l).toNat
def redoTicket (s : State) (w : Warp) (m : MOp) (l : Nat) : Nat := (s.rd w (m.data.toNat + 2) l).toNat
def redoX (s : State) (w : Warp) (m : MOp) (l : Nat) : Nat :=
  if m.size = 2 then (s.rd w m.data.toNat l).toNat else (s.rd2 w m.data.toNat l).toNat

def State.rdst (s : State) (w : Warp) : Nat := ((s.ctx? w.ctx).map (·.rdst)).getD 0

/-- The ticket, stream and RDST of the REDO whose word a lane stands at; of a uniform one, its lowest lane of a mask keeps the place. -/
def State.redoPlace (s : State) (w : Warp) (word : Word64) (act : Mask) (l : Nat) : Option (Nat × Nat × Nat) :=
  match decode word with
  | .ok (.redo _ _ m) =>
    if 4096 ≤ redoStream s w m l || (isUni m.data.toNat && isUni m.base.toNat && lowestLane act ≠ l) then none
    else some (redoTicket s w m l, redoStream s w m l, s.rdst w)
  | _ => none

/-! ## A lane's access -/

/-- Where a lane's access goes, or the trap or wait it meets (R167, R170). -/
inductive Reach where
  | trap (cls cause : Nat)
  | page
  | go (t : Tgt) (ao : Bool)
  deriving DecidableEq, Repr

def State.groupOf (s : State) (w : Warp) : Nat := ((s.ctx? w.ctx).map (·.group)).getD 0

/-- The checks of R167 and R170 in their order: canonical address, alignment, translation. -/
def State.reach (s : State) (w : Warp) (va : Word64) (size : Nat) (a : Acc) : Reach × State :=
  if va.extractLsb' 52 12 ≠ 0#12 then (.trap tXLATE cNONCANON, s)
  else if va.toNat % size ≠ 0 then (.trap tALIGN 0, s)
  else
    let r := s.coreXl w.core (s.groupOf w) va.toNat a
    let s := if r.2.1 then r.2.2.count w.blk 10 1 else r.2.2
    match r.1 with
    | .ok t ao => (.go t ao, s)
    | .fault c => (.trap tXLATE c, s)
    | .svc => (.page, s)
    | .abort pa => (.trap tABORT aABORT, s.detect pa (w.core / 8) (w.core % 8) (s.groupOf w))

/-- How one lane of a memory instruction ends at issue. -/
inductive Ends where
  | done
  | trap (cls cause va : Nat)
  | page (va : Nat)
  deriving DecidableEq, Repr

/-- `f` for each acting lane in ascending order, or once for a uniform operation (R183). Lanes that trap are precise, lanes that wait for a page are
parked at the instruction, all others advance. -/
def memLanes (w : Warp) (act uni : Mask) (a : Acc) (f : Nat → State → Ends × State) (s : State) : State :=
  let ls := if uni ≠ 0#32 then [lowestLane act] else lanesOf act
  let r := ls.foldl (fun (r : List (Nat × Ends) × State) l => let x := f l r.2; (r.1 ++ [(l, x.1)], x.2)) ([], s)
  let es : List (Nat × Ends) := if uni ≠ 0#32 then (match r.1 with | (_, e) :: _ => (lanesOf act).map fun l => (l, e) | [] => []) else r.1
  let tr (cls : Nat) : List TrapLane := es.filterMap fun x => match x.2 with
    | .trap c k va => if c = cls then some { TrapLane.of x.1 k va 0 s.iss.word with redo := s.redoPlace w s.iss.word act x.1 } else none
    | _ => none
  let bad := maskOf fun l => es.any fun x => decide (x.1 = l) && decide (x.2 ≠ .done)
  let t := [tXLATE, tALIGN, tABORT].foldl (fun t c => t.takeTrap w s.iss.hnd c (tr c)) r.2
  let t := es.foldl (fun t x => match x.2 with
    | .page va =>
      (t.onLanes w s.iss.hnd (1#32 <<< x.1) fun l => { l with park := .page, passed := 0 }).wantPage (t.groupOf w) w.core va a
        (.lane w.id x.1 va s.iss.hnd s.iss.word false s.nextId)
    | _ => t) t
  t.advance w (s.iss.lanes &&& ~~~bad)

/-- The global address of a lane (R167). -/
def MOpAddr (m : MOp) (s : State) (w : Warp) (l : Nat) : Word64 := s.rd2 w m.base.toNat l + m.off.signExtend 64

/-- Bytes of an access. -/
def sizeBytes (z : BitVec 3) : Nat := 2 ^ z.toNat

/-- An access to the notify aperture that R361 admits: 8 aligned bytes of one register. -/
def apertureOk (t : Tgt) (n : Nat) : Bool :=
  match t with
  | .dev pa => !inAperture pa || (decide (n = 8) && decide (pa + 8 ≤ apertureBase + 0x8000))
  | _ => true

/-- An access to the aperture. -/
def toAperture : Tgt → Bool
  | .dev pa => inAperture pa
  | _ => false

/-! ## L1 (R174) and the read-only cache (R185) -/

def State.l1find (s : State) (core pa : Nat) : Option L1Sec := (s.core core).l1.find? fun x => x.sec = pa / 64

/-- Fills in flight that a change of memory by this core, or an invalidation, keeps out of its L1. -/
def State.poison (s : State) (p : Req → Bool) : State := { s with net := s.net.map fun r => if p r then { r with poison := true } else r }

/-- A device request of a core whose address lies in the bytes from `a` to below `b`. -/
def Req.within (r : Req) (core a b : Nat) : Bool :=
  decide (r.org.core = core) && match r.tgt with | .dev pa => decide (a ≤ pa) && decide (pa < b) | _ => false

def Req.l1fill (r : Req) : Bool := match r.k with | .load _ _ _ _ l1 _ => l1 | _ => false

def Req.roFill (r : Req) : Bool := match r.k with | .load _ _ _ ro _ _ => ro | _ => false

/-- L1 copies of the sectors or lines at addresses from `a` to below `b` thrown away, fills in flight too. -/
def State.l1drop (s : State) (core a b : Nat) : State :=
  (s.onCore core fun c => { c with l1 := c.l1.filter fun x => !(decide (a ≤ 64 * x.sec) && decide (64 * x.sec < b)) }).poison
    fun r => r.l1fill && r.within core a b

/-- L1 invalidated whole (R254). -/
def State.l1clear (s : State) (core : Nat) : State :=
  (s.onCore core fun c => { c with l1 := [] }).poison fun r => r.l1fill && decide (r.org.core = core)

/-- A store's update of a present L1 copy (R174). -/
def State.l1write (s : State) (core pa : Nat) (b : List Byte) : State :=
  (s.onCore core fun c => { c with l1 := c.l1.map fun x => if x.sec = pa / 64 then { x with data := patch x.data (pa % 64) b } else x }).poison
    fun r => r.l1fill && r.within core (pa / 64 * 64) (pa / 64 * 64 + 64)

/-- A sector put into L1: at most 4,096 of them, an .EF sector leaving first. -/
def State.l1fill (s : State) (core : Nat) (x : L1Sec) : State :=
  s.onCore core fun c =>
    let l := c.l1.filter fun y => y.sec ≠ x.sec
    { c with l1 := x :: (if l.length < 4096 then l else match l.find? (·.ef) with | some y => l.erase y | none => l.take 4095) }

/-- A line put into the read-only cache: at most 256 of them. -/
def State.roFill (s : State) (core line : Nat) (b : List Byte) : State :=
  s.onCore core fun c => { c with ro := (line, b) :: (c.ro.filter fun x => x.1 ≠ line).take 255 }

/-! ## Loads (R184, R185) -/

/-- The words that loaded bytes give the destination (R184). -/
def loadWords (n : Nat) (sx : Bool) (b : List Byte) : List Word :=
  let x := ofBytes (b.take n)
  if n = 1 then [if sx then (BitVec.ofNat 8 x).signExtend 32 else BitVec.ofNat 32 x]
  else if n = 2 then [if sx then (BitVec.ofNat 16 x).signExtend 32 else BitVec.ofNat 32 x]
  else wordsN (n / 4) x

/-- A request of the issuing instruction. -/
def State.request (s : State) (w : Warp) (k : ReqK) (t : Tgt) (va lane : Nat) (uni : Mask) (counted : Bool) : Req :=
  { k := k, tgt := t, va := va, lane := lane, uni := uni, hnd := s.iss.hnd, word := s.iss.word, hdr := s.iss.hdr, idx := s.iss.idx,
    org := s.origin w s.iss.pos s.iss.lanes, st := .sent, stamp := 0, poison := false, counted := counted }

/-- A request leaves the core, behind the core's earlier ones (R251). -/
def State.send (s : State) (w : Warp) (r : Req) : State :=
  let s := match r.tgt with | .dev _ => s.count w.blk 4 1 | _ => s
  { s with net := s.net ++ [r] }

/-- A load or atomic of the warp to a sector has not returned: a later load of the warp goes behind it, and no copy answers it first (R251, R272). -/
def State.ahead (s : State) (w : Warp) (pa : Nat) : Bool :=
  s.net.any fun r => decide (r.org.warp = w.id) && (match r.k with | .load _ _ _ _ _ _ | .atom _ _ _ _ _ => true | _ => false) &&
    r.within w.core (pa / 64 * 64) (pa / 64 * 64 + 64)

/-- One lane's load through L1: a present sector that has not been evicted returns at once; all else leaves the core. -/
def loadL1 (w : Warp) (d n : Nat) (sx : Bool) (h : CacheHint) (uni : Mask) (lane va pa : Nat) (s : State) : State :=
  let out (s : State) : State :=
    s.send w (s.request w (.load (BitVec.ofNat 10 d) n sx false (decide (h ≠ .cg)) (decide (h = .ef))) (.dev pa) va lane uni false)
  if h = .cg then out s
  else match s.l1find w.core pa with
  | some x =>
    let r := s.draw
    if s.ahead w pa then out (s.count w.blk 3 1)
    else if r.1 then (r.2.put w d lane (loadWords n sx (x.data.drop (pa % 64)))).count w.blk 2 1
    else out ((r.2.onCore w.core fun c => { c with l1 := c.l1.erase x }).count w.blk 3 1)
  | none => out (s.count w.blk 3 1)

/-- One lane's load through the read-only cache. -/
def loadRo (w : Warp) (d n : Nat) (sx : Bool) (uni : Mask) (lane va pa : Nat) (s : State) : State :=
  let out (s : State) : State := s.send w (s.request w (.load (BitVec.ofNat 10 d) n sx true false false) (.dev pa) va lane uni false)
  match (s.core w.core).ro.find? fun x => x.1 = pa / 256 with
  | some x =>
    let r := s.draw
    if r.1 then r.2.put w d lane (loadWords n sx (x.2.drop (pa % 256)))
    else out (r.2.onCore w.core fun c => { c with ro := c.ro.erase x })
  | none => out s

/-- One lane of LD or LDRO. -/
def loadLane (w : Warp) (m : MOp) (sx ro : Bool) (h : CacheHint) (uni : Mask) (l : Nat) (s : State) : Ends × State :=
  let va := MOpAddr m s w l
  let n := sizeBytes m.size
  match s.reach w va n .read with
  | (.trap c k, s) => (.trap c k va.toNat, s)
  | (.page, s) => (.page va.toNat, s)
  | (.go t _, s) =>
    if !apertureOk t n then (.trap tABORT aACCESS va.toNat, s)
    else match t with
    | .dev pa =>
      if inAperture pa then
        (.done, s.send w (s.request w (.load m.data n sx false false false) t va.toNat l uni false))
      else if ro then (.done, loadRo w m.data.toNat n sx uni l va.toNat pa s)
      else (.done, loadL1 w m.data.toNat n sx h uni l va.toNat pa s)
    | _ => (.done, s.send w (s.request w (.load m.data n sx false false false) t va.toNat l uni false))

def execLd (c : Common) (sx : Bool) (h : CacheHint) (m : MOp) (s : State) : Out :=
  perform (.ld c sx h m) (fun w act s => let u := if isS m.data.toNat then act else 0#32; memLanes w act u .read (loadLane w m sx false h u) s) s

def execLdro (c : Common) (sx : Bool) (m : MOp) (s : State) : Out :=
  perform (.ldro c sx m) (fun w act s => let u := if isS m.data.toNat then act else 0#32; memLanes w act u .read (loadLane w m sx true .dflt u) s) s

/-! ## Stores (R186) -/

/-- The bytes that a store's data field gives. -/
def storeBytes (s : State) (w : Warp) (m : MOp) (l : Nat) : List Byte :=
  (((List.range (sizeRegs m.size)).flatMap fun k => toBytes 4 (s.rd w (m.data.toNat + k) l).toNat)).take (sizeBytes m.size)

/-- A data source and base that are both uniform make one access (R183). -/
def uniStore (m : MOp) : Bool := isUni m.data.toNat && isUni m.base.toNat

/-- One lane of ST. -/
def storeLane (w : Warp) (m : MOp) (h : CacheHint) (uni : Mask) (l : Nat) (s : State) : Ends × State :=
  let va := MOpAddr m s w l
  let n := sizeBytes m.size
  match s.reach w va n .write with
  | (.trap c k, s) => (.trap c k va.toNat, s)
  | (.page, s) => (.page va.toNat, s)
  | (.go t _, s) =>
    if !apertureOk t n then (.trap tABORT aACCESS va.toNat, s)
    else
      let b := storeBytes s w m l
      let s := match t with
        | .dev pa =>
          if inAperture pa then s
          else if h = CacheHint.cg then s.l1drop w.core (pa / 256 * 256) (pa / 256 * 256 + 256) else s.l1write w.core pa b
        | _ => s
      (.done, s.send w (s.request w (.store b (decide (h = CacheHint.ef))) t va.toNat l uni true))

def execSt (c : Common) (h : CacheHint) (m : MOp) (s : State) : Out :=
  perform (.st c h m) (fun w act s => let u := if uniStore m then act else 0#32; memLanes w act u .write (storeLane w m h u) s) s

/-! ## Atomics (R187, R188) -/

/-- A number of `n` bytes read as two's complement. -/
def signedN (n x : Nat) : Int := if 2 * x < 2 ^ (8 * n) then x else (x : Int) - 2 ^ (8 * n)

/-- The new value of an atomic from the old value and its operands, on `n` bytes (R187). -/
def atomNew (op : AtomOp) (n o x y : Nat) : Nat :=
  match op with
  | .add => (o + x) % 2 ^ (8 * n)
  | .minS => if signedN n o ≤ signedN n x then o else x
  | .maxS => if signedN n x ≤ signedN n o then o else x
  | .minZ => min o x
  | .maxZ => max o x
  | .and => o &&& x
  | .or => o ||| x
  | .xor => o ^^^ x
  | .exch => x
  | .cas => if o = x then y else o
  | .addF32 => (to32 .rne (addQ .rne (F32.dec o) (F32.dec x))).1.toNat
  | .inc => if x ≤ o then 0 else o + 1

/-- The ops a host root performs (R187). -/
def hostOp : AtomOp → Bool
  | .add | .exch | .cas => true
  | _ => false

/-- The operands of an atomic in a lane: x, and y of CAS. -/
def atomArgs (s : State) (w : Warp) (op : AtomOp) (m : MOp) (l : Nat) : Nat × Nat :=
  let d := m.data.toNat
  if m.size = 2 then ((s.rd w d l).toNat, if op = .cas then (s.rd w (d + 1) l).toNat else 0)
  else ((s.rd2 w d l).toNat, if op = .cas then (s.rd2 w (d + 2) l).toNat else 0)

/-- One lane of ATOM. -/
def atomLane (w : Warp) (op : AtomOp) (m : MOp) (uni : Mask) (l : Nat) (s : State) : Ends × State :=
  let va := MOpAddr m s w l
  let n := sizeBytes m.size
  match s.reach w va n .atomic with
  | (.trap c k, s) => (.trap c k va.toNat, s)
  | (.page, s) => (.page va.toNat, s)
  | (.go t ao, s) =>
    let refused := toAperture t || (match t with | .host _ => !(ao && hostOp op) | _ => false)
    if refused then (.trap tABORT aACCESS va.toNat, s)
    else
      let x := atomArgs s w op m l
      let s := match t with | .dev pa => s.l1drop w.core (pa / 64 * 64) (pa / 64 * 64 + 64) | _ => s
      (.done, s.send w (s.request w (.atom op m.data n x.1 x.2) t va.toNat l uni true))

def execAtom (c : Common) (op : AtomOp) (m : MOp) (s : State) : Out :=
  perform (.atom c op m) (fun w act s => let u := if isS m.data.toNat then act else 0#32; memLanes w act u .atomic (atomLane w op m u) s) s

/-! ## The scratchpad (R166, R167) -/

/-- Bytes of scratchpad a block declares. -/
def State.scratchSize (s : State) (w : Warp) : Nat := ((s.ctx? w.ctx).map fun c => 1024 * c.h.scratch).getD 0

/-- Scratchpad bytes of a block; nothing where a word of them is uncorrectable (R319). -/
def State.scratchGet (s : State) (blk a n : Nat) : Option (List Byte) :=
  match s.block? blk with
  | none => some (List.replicate n 0)
  | some b => if b.badWords.any fun w => decide (4 * w < a + n) && decide (a < 4 * w + 4) then none else some (readCells b.scratch a n)

/-- Bytes put into a block's scratchpad. A word that they cover whole is correct again (log entry 88). -/
def Block.scratchPut (b : Block) (a : Nat) (d : List Byte) : Block :=
  { b with scratch := writeCells a d b.scratch, badWords := b.badWords.filter fun w => !(decide (a ≤ 4 * w) && decide (4 * w + 4 ≤ a + d.length)) }

/-- The detection of an error in a core's scratchpad (R320): a bank (R324). -/
def State.scratchErr (s : State) (core group : Nat) : State := s.detectUnit (core / 8) (unitTag 3 (core % 8) 0xFF) group 0

/-- A lane's LDS or ATOMS that met an uncorrectable word: its deferred data abort is on its way (R189, R319). -/
def State.scratchLost (s : State) (w : Warp) (m : MOp) (lane a : Nat) (uni : Mask) : State :=
  let s := s.scratchErr w.core (s.groupOf w)
  { s with net := s.net ++ [{ s.request w (.load m.data (sizeBytes m.size) false false false false) (.host 0) a lane uni false with st := .failed fABORT }] }

/-- One lane's scratchpad access: `f` gets the address. -/
def scratchLane (w : Warp) (m : MOp) (f : Nat → State → State) (l : Nat) (s : State) : Ends × State :=
  let a := (s.rd w m.base.toNat l + m.off.signExtend 32).toNat
  let n := sizeBytes m.size
  if a % n ≠ 0 then (.trap tALIGN 0 a, s)
  else if s.scratchSize w < a + n then (.trap tABORT aRANGE a, s)
  else (.done, f a s)

def execLds (c : Common) (sx : Bool) (m : MOp) (s : State) : Out :=
  perform (.lds c sx m) (fun w act s =>
    let u := if isS m.data.toNat then act else 0#32
    memLanes w act u .read (fun l => scratchLane w m (fun a t =>
      match t.scratchGet w.blk a (sizeBytes m.size) with
      | some b => t.put w m.data.toNat l (loadWords (sizeBytes m.size) sx b)
      | none => t.scratchLost w m l a u) l) s) s

def execSts (c : Common) (m : MOp) (s : State) : Out :=
  perform (.sts c m) (fun w act s =>
    memLanes w act (if uniStore m then act else 0#32) .write (fun l => scratchLane w m (fun a t =>
      t.onBlock w.blk fun b => b.scratchPut a (storeBytes t w m l)) l) s) s

def execAtoms (c : Common) (op : AtomOp) (m : MOp) (s : State) : Out :=
  perform (.atoms c op m) (fun w act s =>
    let n := sizeBytes m.size
    -- operands are read before any lane's result is written (R136)
    let args (l : Nat) : Nat × Nat := atomArgs s w op m l
    let u := if isS m.data.toNat then act else 0#32
    memLanes w act u .atomic (fun l => scratchLane w m (fun a t =>
      match t.scratchGet w.blk a n with
      | some b =>
        let o := ofBytes b
        (t.onBlock w.blk fun x => x.scratchPut a (toBytes n (atomNew op n o (args l).1 (args l).2))).put w m.data.toNat l (wordsN (n / 4) o)
      | none => t.scratchLost w m l a u) l) s) s

/-! ## ROINV, PREF and ZLINE (R190, R191) -/

def execRoinv (c : Common) (s : State) : Out :=
  perform (.roinv c) (fun w _ s =>
    ((s.onCore w.core fun k => { k with ro := [] }).poison fun r => r.roFill && decide (r.org.core = w.core)).advance w s.iss.lanes) s

/-- PREF changes time only; an uncorrectable line that it reads is detected and dropped (R319, R320). -/
def prefLane (w : Warp) (n : Nat) (m : MOp) (l : Nat) (s : State) : State :=
  let va := MOpAddr m s w l
  if va.extractLsb' 52 12 ≠ 0#12 then s
  else (List.range n).foldl (fun s k =>
    match s.xl (s.groupOf w) (va.toNat / 256 * 256 + 256 * k) .read with
    | .ok (.dev pa) _ => if s.badLines.contains (pa / 256) then s.detect pa (w.core / 8) (w.core % 8) (s.groupOf w)
        else s.charge (s.origin w s.iss.pos s.iss.lanes) (pa / 256 * 256) 256
    | _ => s) s

def execPref (c : Common) (l1 : Bool) (m : MOp) (s : State) : Out :=
  perform (.pref c l1 m) (fun w act s =>
    let n := match m.size.toNat with | 0 => 1 | 1 => 4 | _ => 16
    ((lanesOf act).foldl (fun s l => prefLane w n m l s) s).advance w s.iss.lanes) s

/-- One lane of ZLINE. -/
def zlineLane (w : Warp) (m : MOp) (l : Nat) (s : State) : Ends × State :=
  let va := MOpAddr m s w l
  match s.reach w va 256 .write with
  | (.trap c k, s) => (.trap c k va.toNat, s)
  | (.page, s) => (.page va.toNat, s)
  | (.go t _, s) =>
    if toAperture t then (.trap tABORT aACCESS va.toNat, s)
    else
      let s := match t with | .dev pa => s.l1drop w.core pa (pa + 256) | _ => s
      (.done, s.send w (s.request w .zline t va.toNat l 0#32 true))

def execZline (c : Common) (m : MOp) (s : State) : Out :=
  perform (.zline c m) (fun w act s => memLanes w act 0#32 .write (zlineLane w m) s) s

end Sys2Proof.Machine
end

