-- ==== Sys2Proof/Machine/Net.lean ====
section
/-! DEFINITION. Requests beyond the core: home slices, links and the notify aperture (R175 to R179, R183, R251, R361), returns,
acknowledgements, failures and deferred data aborts (R184, R189, R252, R256, R362), and the end of page service and flushes (R171, R172). -/

namespace Sys2Proof.Machine

/-! ## Order (R251) -/

/-- The line a request goes to. -/
def Tgt.line : Tgt → Nat × Nat × Nat
  | .dev pa => (0, 0, pa / 256)
  | .host ba => (1, 0, ba / 256)
  | .fab n pa => (2, n, pa / 256)

def ReqK.isRedo : ReqK → Bool
  | .redo _ _ _ _ _ _ _ _ => true
  | _ => false

/-- The request is the oldest unserved one from its core to its line. -/
def State.foremost (s : State) (n : Nat) (r : Req) : Bool :=
  !((s.net.take n).any fun q => decide (q.st = .sent) && !q.k.isRedo && decide (q.org.core = r.org.core) && decide (q.tgt.line = r.tgt.line))

/-- A request's new state, numbered in the order of service. -/
def State.setReq (s : State) (n : Nat) (st : ReqSt) : State :=
  { s with net := s.net.zipIdx.map (fun x => if x.2 = n then { x.1 with st := st, stamp := s.nextId } else x.1), nextId := s.nextId + 1 }

/-- A request taken out; a removal that waited for it may end (R298 step 4). -/
def State.retire (s : State) (n : Nat) (r : Req) : State :=
  let s := { s with net := dropAt n s.net }
  if r.counted then s.removalCheck r.org.ctx else s

/-! ## Service -/

/-- A request served in device memory: the new state and how it ends. -/
def State.serveDev (s : State) (r : Req) (pa : Nat) : State × ReqSt :=
  let g := r.org.group
  let bad (s : State) : State × ReqSt := (s.detect pa (r.org.core / 8) (r.org.core % 8) g, .failed fABORT)
  match r.k with
  | .load _ n _ ro l1 _ =>
    let w := if ro then 256 else if l1 then 64 else n
    match s.readDev pa n with
    | some b => ((s.charge r.org (pa / w * w) w), .served b (readCells s.mem (pa / w * w) w))
    | none => bad s
  | .store b ef => match (s.charge r.org pa b.length).writeLine pa b g ef with | some s => (s, .served [] []) | none => bad s
  | .zline => match (s.charge r.org pa 256).writeLine pa (List.replicate 256 0) g false with | some s => (s, .served [] []) | none => bad s
  | .atom op _ n x y =>
    match s.readDev pa n with
    | some b =>
      match (s.charge r.org pa n).writeLine pa (toBytes n (atomNew op n (ofBytes b) x y)) g false with
      | some s => (s, .served b [])
      | none => bad s
    | none => bad s
  | .redo _ _ _ _ _ _ _ _ => (s, r.st)

/-- A request served at the notify aperture (R361). -/
def State.serveAperture (s : State) (r : Req) (pa : Nat) : State × ReqSt :=
  let k := (pa - apertureBase) / 8
  if s.classGroup k ≠ r.org.group then (s, .failed fREFUSED)
  else match r.k with
    | .store b _ => (s.notify k (BitVec.ofNat 64 (ofBytes b)), .served [] [])
    | _ => let x := s.readNotify k; (x.2, .served (toBytes 8 x.1.toNat) [])

/-- A request served by other memory of bytes (R176, R188): the memory after it, and what it returns. -/
def serveCells (m : Sparse Byte) (a : Nat) (k : ReqK) : Sparse Byte × List Byte :=
  match k with
  | .load _ n _ _ _ _ => (m, readCells m a n)
  | .store b _ => (writeCells a b m, [])
  | .zline => (writeCells a (List.replicate 256 0) m, [])
  | .atom op _ n x y => let o := readCells m a n; (writeCells a (toBytes n (atomNew op n (ofBytes o) x y)) m, o)
  | .redo op n x _ _ _ _ _ => (writeCells a (toBytes n (atomNew op n (ofBytes (readCells m a n)) x 0)) m, [])

def State.serve (s : State) (r : Req) : State × ReqSt :=
  match r.tgt with
  | .dev pa => if inAperture pa then s.serveAperture r pa else s.serveDev r pa
  | .host ba =>
    if s.linkUp then let x := serveCells s.host ba r.k; ({ s with host := x.1 }, .served x.2 []) else (s, .failed fLINK)
  | .fab node pa =>
    if s.deadNodes.contains node then (s, .failed fLINK)
    else if tagBase ≤ pa then (s, .failed fREFUSED)
    else let x := serveCells s.remote (farKey node pa) r.k; ({ s with remote := x.1 }, .served x.2 [])

/-! ## Returns (R184) -/

def ReqK.dst : ReqK → Option (Fld × Nat × Bool)
  | .load d n sx _ _ _ => some (d, n, sx)
  | .atom _ d n _ _ => some (d, n, false)
  | _ => none

/-- A result written into the warp that asked: an h register only while the lane is still in its handler. -/
def State.land (s : State) (r : Req) (d : Fld) (ws : List Word) : State :=
  match s.warp? r.org.warp with
  | none => s
  | some w =>
    let live := d.toNat < 704 || match (s.quad w.q).bank with | some b => decide (b.warp = w.id) && !(laneAt b.lanes r.lane).exited | none => false
    if live then s.putLate w d.toNat r.lane ws else s

def ReqSt.isServed : ReqSt → Bool
  | .served _ _ => true
  | _ => false

/-- The sector of a returned load enters L1, and fills of it that were served before no longer do: a copy never gives way to an older one (R272). -/
def State.l1take (s : State) (r : Req) (pa : Nat) (x : L1Sec) : State :=
  if r.poison then s
  else (s.l1fill r.org.core x).poison fun q => q.l1fill && q.st.isServed && decide (q.stamp < r.stamp) && q.within r.org.core (pa / 64 * 64) (pa / 64 * 64 + 64)

/-- LOAD_RETURN (R184): the result lands and its fill enters the cache it is for. -/
def execLoadReturn (n : Nat) (s : State) : Out :=
  .next (match s.net[n]? with
    | some r =>
      match r.st, r.k.dst with
      | .served b sec, some (d, k, sx) =>
        if s.uncommitted r.org then s else
        let s := s.land r d (loadWords k sx b)
        let s := match r.k, r.tgt with
          | .load _ _ _ true _ _, .dev pa => if r.poison || inAperture pa then s else s.roFill r.org.core (pa / 256) sec
          | .load _ _ _ false true ef, .dev pa => s.l1take r pa { sec := pa / 64, data := sec, ef := ef }
          | _, _ => s
        s.retire n r
      | _, _ => s
    | none => s)

/-! ## Deferred data aborts (R189, R362) -/

/-- A lane leaves whatever it waits for: its signature, its place at a queue, at a page or in a tile name's list. -/
def TileAsk.without (l : Nat) : TileAsk → TileAsk
  | .tld w d xs => .tld w d (xs.filter fun x => x.1 ≠ l)
  | .trow d xs => .trow d (xs.filter fun x => x.1 ≠ l)
  | a => a

/-- A waiter stays while a lane waits; a matrix operation's reader stays with its operation. -/
def Waiter.stays (x : Waiter) : Bool := decide (x.lanes ≠ 0#32) || match x.ask with | .mat _ => true | _ => false

def State.withdraw (s : State) (w : Warp) (l : Nat) : State :=
  let s := match (laneAt w.lanes l).park with
    | .conv c | .sync c => s.onWarp w.id fun x => { x with signed := supd 0 c (fun m => setBit m l false) x.signed }
    | _ => s
  { s with pops := s.pops.filter fun p => !(decide (p.warp = w.id) && decide (p.lane = l)),
           pages := s.pages.map (fun (p : Page) =>
             { p with users := p.users.filter fun u => match u with | .lane v k _ h _ _ _ => !(decide (v = w.id) && decide (k = l) && !h) | .engine _ => true }),
           mats := s.mats.map (fun (m : Mat) => if m.org.warp = w.id then { m with lanes := setBit m.lanes l false } else m),
           cgroups := s.cgroups.map (fun (g : CGroup) => { g with
             heads := (g.heads.map fun h => if h.org.warp = w.id then { h with lanes := setBit h.lanes l false } else h).filter fun h =>
               decide (h.lanes ≠ 0#32),
             entries := smap Entry.init (fun (e : Entry) => { e with waiters := (e.waiters.map fun x => if x.org.warp = w.id then
               { x with ask := x.ask.without l, lanes := setBit x.lanes l false } else x).filter fun x => x.stays }) g.entries }) }

/-- One lane's deferred data abort (R189, R362): `k` is its data-abort cause, `c` its CAUSE of R258. -/
def State.defer (s : State) (w : Warp) (r : Req) (k c l : Nat) : State :=
  let t : TrapLane :=
    { lane := l, cause := k, addr := r.va, info := 0, more := 0, word := r.word, noSkip := false, redo := none, fpos := r.hdr, fidx := r.idx }
  let has (x : SubWarp) : Bool := x.lanes.any fun y => y.lane = l
  if w.traps.any fun x => decide (x.cls = tDEFER) && has x then
    -- a further one: entered in the ring, counted for h5
    let s := s.cfEnter r.org.group r.org.grid (r.org.cf 1 c 0 1 r.va)
    s.onWarp w.id fun x => { x with traps := x.traps.map fun y =>
      if y.cls = tDEFER then { y with lanes := y.lanes.map fun z => if z.lane = l then { z with more := z.more + 1 } else z } else y }
  else
    let s := (s.withdraw w l).onWarp w.id fun x =>
      { x with lanes := mapLanes (1#32 <<< l) (fun y => { y with park := .trap, passed := 0 }) x.lanes,
               traps := (x.traps.map fun y => { y with lanes := y.lanes.filter fun z => z.lane ≠ l }).filter (fun y => !y.lanes.isEmpty) ++
                 [{ cls := tDEFER, since := s.nextId, lanes := [t] }] }
    (s.fresh).2

/-- A failed load or atomic is known at its core with a CAUSE of R258 (R189, R362, R290). An atomic is an operation of R252, and so joins the failure
record once, whether or not its lanes have exited (R256). -/
def State.deferAll (s : State) (r : Req) (c : Nat) : State :=
  let k := if c = fABORT then aABORT else aREFUSED
  match s.warp? r.org.warp with
  | none => s.failStore r.org c 0 r.va
  | some w =>
    let ls := if r.uni ≠ 0#32 then lanesOf r.uni else [r.lane]
    let live := ls.filter fun l => !(laneAt w.lanes l).exited
    let s := if live.isEmpty || r.counted then s.failStore r.org c 0 r.va else s
    if live.isEmpty then s
    else if r.hnd then s.escalate w tDEFER k (maskOf live.contains) r.org.pos r.va
    else live.foldl (fun s l => match s.warp? w.id with | some w => s.defer w r k c l | none => s) s

/-- DEFERRED_DATA_ABORT (R189): a load or atomic that failed, or that the host root or a remote device refuses. -/
def execDeferredDataAbort (n : Nat) (s : State) : Out :=
  .next (match s.net[n]? with
    | some r =>
      match r.k.dst, r.st, r.tgt with
      | some _, .failed c, _ => ({ s with net := dropAt n s.net }.deferAll r c).removalCheck r.org.ctx
      | some _, .sent, .host _ | some _, .sent, .fab _ _ => ({ s with net := dropAt n s.net }.deferAll r fREFUSED).removalCheck r.org.ctx
      | _, _, _ => s
    | none => s)

/-! ## Acknowledgement and failure of stores (R252, R256) -/

/-- STORE_ACK (R252): the warp's count falls. -/
def execStoreAck (n : Nat) (s : State) : Out :=
  .next (match s.net[n]? with
    | some r => match r.k.dst, r.st with | none, .served _ _ => s.retire n r | _, _ => s
    | none => s)

/-- STORE_FAIL (R256): a failure, or a refusal by the host root or a remote device, becomes known. -/
def execStoreFail (n : Nat) (s : State) : Out :=
  .next (match s.net[n]? with
    | some r =>
      match r.k.dst, r.st, r.tgt with
      | none, .failed c, _ => ({ s with net := dropAt n s.net }.failStore r.org c 0 r.va).removalCheck r.org.ctx
      | none, .sent, .host _ | none, .sent, .fab _ _ =>
        if r.k.isRedo then s else ({ s with net := dropAt n s.net }.failStore r.org fREFUSED 0 r.va).removalCheck r.org.ctx
      | _, _, _ => s
    | none => s)

/-! ## Page service (R171) -/

/-- A lane parked for a page: not one released into a synchronised issue, which waits where it is. -/
def Lane.isPage (l : Lane) : Bool := decide (l.park = .page)

/-- A lane's wait for a page ends: it issues its instruction again. -/
def State.pageGo (s : State) (u : PageUser) : State :=
  match u with
  | .engine _ => s
  | .lane wi l _ hnd _ _ _ => match s.warp? wi with
    | some w => s.onLanes w hnd (1#32 <<< l) fun x => if x.isPage then { x with park := .run } else x
    | none => s

/-- A lane's wait for a page ends in a translation fault with cause NOMAP. -/
def State.pageTrap (s : State) (u : PageUser) : State :=
  match u with
  | .engine _ => s
  | .lane wi l va hnd word fetch _ =>
    match s.warp? wi with
    | none => s
    | some w =>
      let t := { TrapLane.of l cNOMAP va 0 word with noSkip := fetch, redo := if fetch then none else s.redoPlace w word (1#32 <<< l) l }
      if hnd then
        let p := match (s.quad w.q).bank with | some b => (laneAt b.lanes l).addr | none => 0
        s.escalate w tXLATE cNOMAP (1#32 <<< l) p va
      else s.takeTrap w false tXLATE [t]

def PageUser.isEngine : PageUser → Bool
  | .engine _ => true
  | .lane _ _ _ _ _ _ _ => false

/-- The issue of a user: its warp, its number, and where the lane stands, for a fetch in place of a number. -/
def State.userAt (s : State) : PageUser → Nat × Nat × Nat × Bool
  | .engine _ => (0, 0, 0, false)
  | .lane wi l _ hnd _ _ seq => (wi, seq, ((s.warp? wi).map fun w => (laneAt w.lanes l).addr).getD 0, hnd)

/-- The users' waits end in a fault. Lanes of one issue trap in one sub-warp; each other issue has its own (R288). -/
def State.pageTraps (s : State) (us : List PageUser) : State :=
  let at_ := us.map fun u => (s.userAt u, u)
  let keys := at_.foldl (fun l x => if l.contains x.1 then l else l ++ [x.1]) []
  keys.foldl (fun s k => ((at_.filter fun x => x.1 = k).foldl (fun s x => s.pageTrap x.2) s).fresh.2) s

/-- A request ends: every lane goes on or faults; an engine's operation finds a failed request marked. -/
def State.endPage (s : State) (p : Page) (ok : Bool) : State :=
  let es := p.users.filter PageUser.isEngine
  let s : State := { s with pages := if ok || es.isEmpty then s.pages.filter (· ≠ p)
                                      else s.pages.map fun (q : Page) => if q = p then { q with st := .failed, users := es } else q }
  if ok then p.users.foldl (fun s u => s.pageGo u) s else s.pageTraps p.users

/-- TRANSLATION_WALK_END (R170, R171): the new walk of an answered request ends; a second service request is NOMAP. -/
def execTranslationWalkEnd (n : Nat) (s : State) : Out :=
  .next (match s.pages[n]? with
    | some p => if p.st = .answered then s.endPage p (decide (s.walk p.group p.page ≠ .svc)) else s
    | none => s)

def Page.unasked (p : Page) : Bool := match p.st with | .noRoom _ => true | _ => false

/-- PAGE_REQUEST_RING_ROOM (R171): the first waiting request of a group is written. -/
def execPageRequestRingRoom (g : Nat) (s : State) : Out :=
  .next (match s.pages.find? fun p => decide (p.group = g) && p.unasked with
    | some p =>
      let r := s.askPage p
      { r.2 with pages := r.2.pages.map fun q => if q = p then { q with st := r.1 } else q }
    | none => s)

/-- PAGE_SERVICE_BOUND_EXPIRY (R171): a request, waiting for ring room or asked, that no response has covered within PRBOUND ms. -/
def execPageServiceBoundExpiry (n : Nat) (s : State) : Out :=
  .next (match s.pages[n]? with
    | some p =>
      match p.st with
      | .asked _ t | .noRoom t =>
        let b := (s.grp p.group).prbound
        if t + 1000000 * (if b = 0 then 100 else b) ≤ s.ns then s.endPage p false else s
      | _ => s
    | none => s)

/-- PAGE_RESPONSE_WRITE (R171, R335): every request of the group at or below the number walks again. -/
def execPageResponseWrite (g : Nat) (v : Word64) (s : State) : Out :=
  let s := s.onGrp g fun x => { x with prresp := v.toNat }
  .next { s with pages := s.pages.map fun p => match p.st with
    | .asked q _ => if p.group = g && q ≤ v.toNat then { p with st := .answered } else p
    | _ => p }

/-! ## Flushes (R172) -/

/-- FLUSHN_WRITE: a flush of the pages from FLUSHVA on begins. Behind one that has not ended, a flush of the whole space takes in both (log entry 79). -/
def execFlushnWrite (g : Nat) (v : Word) (s : State) : Out :=
  .next (s.onGrp g fun x => { x with flushn := some (match x.flushn with
    | none => { va := x.flushva, n := v.toNat, dropped := none }
    | some _ => { va := 0, n := 0, dropped := none }) })

/-- A translation-cache entry that a flush drops. -/
def Flush.hits (f : Flush) (g : Nat) (t : TlbEnt) : Bool :=
  decide (t.group = g) && (decide (f.n = 0) || (decide (t.page < f.va + 65536 * f.n) && decide (f.va < t.page + 2 ^ t.bits)))

/-- Every translation cache and the walkers have dropped a flush's entries, every record cache and shelf all entries of the group. -/
def State.flushDrop (s : State) (g : Nat) (f : Flush) : State :=
  let t : State := { s with
    cores := smap Core.init (fun c => { c with tlb := c.tlb.filter fun t => !f.hits g t }) s.cores,
    clusters := smap Cluster.init (fun c => { c with
      recs := c.recs.filter (fun r => r.1 ≠ g), shelf := c.shelf.map fun e => if e.group = g then { e with dying := true } else e }) s.clusters,
    warps := s.warps.map fun (w : Warp) => if s.groupOf w = g then { w with recs := [] } else w }
  (t.onGrp g fun x => { x with flushn := some { f with dropped := some s.nextId } }).sweepShelf

/-- Nothing that was translated or taken before the drop is still in use: no request of the group on its way or held at an order
point, no shelf entry marked to go. -/
def State.flushed (s : State) (g seq : Nat) : Bool :=
  !(s.net.any fun r => decide (r.org.group = g) && decide (r.org.seq ≤ seq) && decide (r.st = .sent)) &&
    !(s.redos.any fun h => decide (h.req.org.group = g) && decide (h.req.org.seq ≤ seq)) &&
    !s.clusters.any fun c => c.2.shelf.any fun e => decide (e.group = g) && e.dying

/-- FLUSH_COMPLETE: the caches drop the entries; once nothing read before is in use, FLUSHN reads 0. -/
def execFlushComplete (g : Nat) (s : State) : Out :=
  .next (match (s.grp g).flushn with
    | none => s
    | some f =>
      let t := if f.dropped.isNone then s.flushDrop g f else s
      if t.flushed g (f.dropped.getD s.nextId) then t.onGrp g fun x => { x with flushn := none } else t)

end Sys2Proof.Machine
end

