-- ==== Sys2Proof/Machine/Copy.lean ====
section
/-! DEFINITION. Copies and tokens (R192 to R200): the descriptors and their checks at issue, the copy engine, TKWAIT. Each word of a copy is read once
and written once, each at any moment at which the engine works, the landing the last (log entry 18). The engine's work stands in Engine.lean, with TST's. -/

namespace Sys2Proof.Machine

/-! ## Descriptors (R193, R194) -/

def dw (d : List Word) (k : Nat) : Nat := (d.getD k 0).toNat
def dAddr (d : List Word) (k : Nat) : Nat := dw d k + 2 ^ 32 * dw d (k + 1)
def dLo (d : List Word) (k : Nat) : Nat := dw d k % 2 ^ 16
def dHi (d : List Word) (k : Nat) : Nat := dw d k / 2 ^ 16

/-- SPACE of a side. -/
def isScratch (a : Nat) : Bool := decide (2 ^ 63 ≤ a)

/-- The reserved bits of a side are zero. -/
def sideOk (a : Nat) : Bool := if isScratch a then decide (a - 2 ^ 63 < 2 ^ 32) else decide (a < 2 ^ 52)

/-- One word moved: its number, where it comes from (none: zeros of a hole, or the tile), where it goes. -/
structure CWord where
  n : Nat
  src : Option Nat
  dst : Nat
  deriving DecidableEq, Repr

/-- The words of a CPY. -/
def cpyWords (sc : Bool) (d : List Word) : List CWord :=
  let e0 := dLo d 4 / 4
  let e1 := dHi d 4
  let e2 := dLo d 5
  let e3 := dHi d 5
  let s1 := dw d 6
  let s2 := 256 * dLo d 7
  let s3 := 256 * dHi d 7
  (List.range e3).flatMap fun i3 => (List.range e2).flatMap fun i2 => (List.range e1).flatMap fun i1 => (List.range e0).map fun i0 =>
    let n := i0 + e0 * (i1 + e1 * (i2 + e2 * i3))
    let st := 4 * i0 + i1 * s1 + i2 * s2 + i3 * s3
    if sc then { n := n, src := some (dAddr d 0 + 4 * n), dst := dAddr d 2 + st }
    else { n := n, src := some (dAddr d 0 + st), dst := dAddr d 2 + 4 * n }

/-- The words of block `i2` of a CPYBT whose base is `b`. -/
def btWords (sc : Bool) (d : List Word) (i2 b : Nat) : List CWord :=
  let e0 := dLo d 4 / 4
  let e1 := dHi d 4
  let s1 := dw d 6
  if sc && decide (b = 0) then []
  else (List.range e1).flatMap fun i1 => (List.range e0).map fun i0 =>
    let n := i0 + e0 * (i1 + e1 * i2)
    let dense := dAddr d 2 + 4 * n
    let blk := b + 4 * i0 + i1 * s1
    if sc then { n := n, src := some dense, dst := blk } else { n := n, src := if b = 0 then none else some blk, dst := dense }

/-- Bytes that a side spans beyond its base. -/
def stridedSpan (d : List Word) : Nat :=
  dLo d 4 + (dHi d 4 - 1) * dw d 6 + (dLo d 5 - 1) * (256 * dLo d 7) + (dHi d 5 - 1) * (256 * dHi d 7)

/-- A fault of a descriptor: class, cause, address. -/
abbrev DescErr := Nat × Nat × Nat

/-- The range checks of one side that spans `n` bytes. -/
def sideRange (scratch a n : Nat) : Option DescErr :=
  if isScratch a then (if scratch < a - 2 ^ 63 + n then some (tABORT, aRANGE, a - 2 ^ 63) else none)
  else if 2 ^ 52 < a + n then some (tXLATE, cNONCANON, a) else none

/-- The checks of R196 on a CPY descriptor, in their order. -/
def cpyCheck (sc : Bool) (d : List Word) (scratch : Nat) : Option DescErr :=
  let src := dAddr d 0
  let dst := dAddr d 2
  let e0 := dLo d 4
  let total := e0 * dHi d 4 * dLo d 5 * dHi d 5
  if e0 < 4 || e0 % 4 ≠ 0 || total = 0 || 2 ^ 32 < total || !sideOk src || !sideOk dst then some (tABORT, aDESC, 0)
  else if src % 4 ≠ 0 then some (tALIGN, 0, src % 2 ^ 63)
  else if dst % 4 ≠ 0 then some (tALIGN, 0, dst % 2 ^ 63)
  else if dw d 6 % 4 ≠ 0 then some (tALIGN, 0, src % 2 ^ 63)
  else
    let sp (strided : Bool) : Nat := if strided then stridedSpan d else total
    (sideRange scratch src (sp !sc)).or (sideRange scratch dst (sp sc))

/-- The checks of R196 on a CPYBT descriptor. -/
def btCheck (d : List Word) (scratch : Nat) : Option DescErr :=
  let tab := dAddr d 0
  let dense := dAddr d 2
  let e0 := dLo d 4
  let total := e0 * dHi d 4 * dLo d 5
  if e0 < 4 || e0 % 4 ≠ 0 || total = 0 || 2 ^ 32 < total || dHi d 5 ≠ 0 || 2 ^ 52 ≤ tab || !sideOk dense then some (tABORT, aDESC, 0)
  else if tab % 8 ≠ 0 then some (tALIGN, 0, tab)
  else if dense % 4 ≠ 0 then some (tALIGN, 0, dense % 2 ^ 63)
  else if dw d 6 % 4 ≠ 0 then some (tALIGN, 0, tab)
  else sideRange scratch dense total

/-! ## Issue (R196) -/

/-- The eight registers of a descriptor. -/
def descRegs (s : State) (w : Warp) (b : BitVec 6) : List Word := (List.range 8).map fun k => s.rd w (640 + b.toNat + k) 0

/-- A copy issued on a token, once for the warp. -/
def State.issueCopy (s : State) (w : Warp) (tok : Nat) (k : CopyK) : State :=
  let r := s.fresh
  let c : Copy := { id := r.1, k := k, tok := tok, org := s.origin w s.iss.pos s.iss.lanes, started := false, snap := [] }
  let t : State := { r.2 with copies := r.2.copies ++ [c] }
  (t.onWarp w.id fun x => { x with tok := supd 0 tok (· + 1) x.tok }).advance w s.iss.lanes

/-- A trap in every guarded issuing lane; the others advance. -/
def State.trapWhole (s : State) (w : Warp) (act : Mask) (e : DescErr) : State :=
  (s.trapAll w act e.1 e.2.1 e.2.2 0).advance w (s.iss.lanes &&& ~~~act)

def execCpy (c : Common) (sc : Bool) (k : BitVec 3) (b : BitVec 6) (s : State) : Out :=
  perform (.cpy c sc k b) (fun w act s =>
    let d := descRegs s w b
    match cpyCheck sc d (s.scratchSize w) with
    | some e => s.trapWhole w act e
    | none => s.issueCopy w k.toNat (.cpy sc d)) s

def execCpybt (c : Common) (sc : Bool) (k : BitVec 3) (b : BitVec 6) (s : State) : Out :=
  perform (.cpybt c sc k b) (fun w act s =>
    let d := descRegs s w b
    match btCheck d (s.scratchSize w) with
    | some e => s.trapWhole w act e
    | none => s.issueCopy w k.toNat (.cpybt sc d)) s

/-- TKWAIT (R200). -/
def execTkwait (c : Common) (k : BitVec 3) (s : State) : Out :=
  perform (.tkwait c k) (fun w act s =>
    if sget 0 k.toNat w.tok = 0 then s.advance w s.iss.lanes
    else (s.parkHere w act (.token k.toNat)).advance w (s.iss.lanes &&& ~~~act)) s

/-! ## The engine -/

/-- A read of one side. -/
def State.readSide (s : State) (o : Origin) (a n : Nat) : Except VaErr (List Byte) :=
  if isScratch a then (match s.scratchGet o.blk (a - 2 ^ 63) n with | some b => .ok b | none => .error { cause := fABORT, va := a })
  else s.readVa o.group a n (.copy false)

/-- The detection of an error that an engine met at an address of its origin's group, or in its block's scratchpad (R320). -/
def State.engineMet (s : State) (o : Origin) (scratch : Bool) (va : Nat) : State :=
  if scratch then s.scratchErr o.core o.group else s.detectVa o.group va (o.core / 8) 0xFF

/-- A tagged message to a remote device (R338): its bytes go to that device and to no memory. -/
def tagPlace (t : Tgt) : Bool := match t with | .fab _ pa => decide (tagBase ≤ pa) && decide (pa < apertureBase) | _ => false

/-- A place beyond a link that is down (R333, R338). -/
def State.linkDead (s : State) (t : Tgt) : Bool :=
  match t with
  | .dev _ => false
  | .host _ => !s.linkUp
  | .fab node _ => s.deadNodes.contains node

/-- A write of one side, within a line. `msg`: the copy is a tagged message, which crosses a live link alone. -/
def State.writeSide (s : State) (o : Origin) (msg : Bool) (a : Nat) (b : List Byte) : Except VaErr State :=
  if isScratch a then .ok (s.onBlock o.blk fun x => x.scratchPut (a - 2 ^ 63) b)
  else match s.place o.group a (.copy true) with
  | .error e => .error e
  | .ok t =>
    if tagPlace t then (if !msg then .error { cause := fREFUSED, va := a } else if s.linkDead t then .error { cause := fLINK, va := a } else .ok s)
    else match s.writeTgt t b o.group false with
    | .ok s => .ok s
    | .error c => .error { cause := c, va := a }

/-- A copy that becomes one tagged message: its destination begins at the first byte of a tag's 64 KiB and lies within it. -/
def State.isMsg (s : State) (o : Origin) (dst span : Nat) : Bool :=
  !isScratch dst && decide (span ≤ 65536) && match s.place o.group dst (.copy true) with
    | .ok (.fab _ pa) => decide (tagBase ≤ pa) && decide (pa < apertureBase) && decide (pa % 65536 = 0)
    | _ => false

/-- The sectors, by number, of the global addresses that some ranges touch. -/
def vaSectors (ps : List (Nat × Nat)) : List Nat := (ps.flatMap fun p => if isScratch p.1 then [] else sectorsOf p.1 p.2).foldl (fun l k => insNat k l) []

/-- Sectors of a group's addresses that an engine read or wrote, charged (R89). -/
def State.chargeSectors (s : State) (o : Origin) (l : List Nat) : State :=
  l.foldl (fun s k => match s.place o.group (64 * k) (.copy false) with | .ok (.dev pa) => s.charge o pa 64 | _ => s) s

/-- The number under which a word that has been read and not yet written stands in a copy's notes. -/
def readKey (n : Nat) : Nat := 2 ^ 65 + n

/-- The number under which an entry of the block table stands in a copy's notes. -/
def entryKey (i2 : Nat) : Nat := 2 ^ 64 + i2

/-- A page the engine misses is asked for; a failed request ends the operation. -/
def State.engineMiss (s : State) (o : Origin) (va : Nat) (acc : Acc) : State × Bool :=
  match s.pageLost o.group o.core va o.seq with
  | some p =>
    let us := p.users.erase (.engine o.seq)
    ({ s with pages := if us.isEmpty then s.pages.filter (· ≠ p) else s.pages.map fun q => if q = p then { q with users := us } else q }, true)
  | none =>
    if ((s.pageAt o.group o.core va).map fun p => p.users.contains (.engine o.seq)).getD false then (s, false)
    else (s.wantPage o.group o.core va acc (.engine o.seq), false)

/-- A token falls by one; at zero its waiting lanes go on (R198 to R200). -/
def State.dropToken (s : State) (warp tok : Nat) : State :=
  let s := s.onWarp warp fun x => { x with tok := supd 0 tok (· - 1) x.tok }
  match s.warp? warp with
  | some w => if sget 0 tok w.tok = 0 then s.passLanes w (w.parkedFor (.token tok)) else s
  | none => s

/-- L1 lines of a core dropped for global destination words. -/
def State.dropLines (s : State) (o : Origin) (ls : List Nat) : State :=
  ls.foldl (fun s a => if isScratch a then s else match s.place o.group a (.copy true) with
    | .ok (.dev pa) => s.l1drop o.core (pa / 256 * 256) (pa / 256 * 256 + 256)
    | _ => s) s

end Sys2Proof.Machine
end

