-- ==== Sys2Proof/Machine/Sync.lean ====
section
/-! DEFINITION. Synchronising (R250 to R270): FENCE, barriers, ordered reductions and their order points, work queues, notify and graph triggers. A
release is the hold of Hold.lean before the instruction issues (R253). -/

namespace Sys2Proof.Machine

/-! ## FENCE (R256, R257, R259) -/

/-- The status word that a warp's and a block's records give. -/
def statusWord (w b : FailRec) : Word :=
  let n := sat255 (w.count + b.count)
  let c := if w.count ≠ 0 then w.cause else b.cause
  BitVec.ofNat 32 (if n = 0 then 0 else 256 * n + 2 * c + 1)

def blockFail (s : State) (blk : Nat) : FailRec := ((s.block? blk).map (·.fail)).getD FailRec.none

/-- An acquire's effect on L1 (R254). -/
def State.acquire (s : State) (core : Nat) (sc : Scope) : State := match sc with | .blk => s | _ => s.l1clear core

def execFence (c : Common) (k : FenceKind) (sc : Scope) (d : Fld) (s : State) : Out :=
  perform (.fence c k sc d) (fun w _ s =>
    let t := match k with | .rel => s | .acq | .ar => s.acquire w.core sc
    let t := t.put w d.toNat 0 [statusWord w.fail (blockFail s w.blk)]
    let t := (t.onWarp w.id fun x => { x with fail := FailRec.none }).onBlock w.blk fun b => { b with fail := FailRec.none }
    t.advance w s.iss.lanes) s

/-! ## Barriers (R260, R261) -/

/-- An arrival at a barrier: refused, counted, or the last. -/
def Bar.arrive (b : Bar) (e : Nat) : Option (Bar × Bool) :=
  if e = 0 || 65535 < e || (b ≠ Bar.idle && b.expected ≠ e) then none
  else if b.arrivals + 1 = e then some (Bar.idle, true)
  else some ({ arrivals := b.arrivals + 1, expected := e }, false)

/-- An acquire that a warp owes before it issues again (R254, R261, R269): it waits for the warp's earlier loads first. -/
def State.oweAcquire (s : State) (w : Warp) (sc : Scope) : State :=
  match sc with
  | .blk => s
  | _ => s.onWarp w.id fun x => { x with acq := true }

/-- Every lane of the warps `p` picks that is parked for `k` released past its instruction, with an acquire before it goes on. -/
def State.releaseAll (s : State) (p : Warp → Bool) (k : Park) (sc : Scope) : State :=
  (s.warps.filter fun w => p w && decide (w.parkedFor k ≠ 0#32)).foldl (fun s w => (s.passLanes w (w.parkedFor k)).oweAcquire w sc) s

/-- What an arrival does to the issuing lanes. -/
def State.arrived (s : State) (w : Warp) (act : Mask) (arv last : Bool) (k : Park) : State :=
  if arv || last then s.advance w s.iss.lanes else (s.parkHere w act k).advance w (s.iss.lanes &&& ~~~act)

def execBar (c : Common) (arv : Bool) (n : BitVec 4) (a : Fld) (p : Perm) (s : State) : Out :=
  .next (performWith (.bar c arv n a p)
    (fun s w => decide (n.toNat < ((s.ctx? w.ctx).map fun c => c.h.bars).getD 0))
    (fun w act s =>
      let b := sget Bar.idle n.toNat (((s.block? w.blk).map (·.bars)).getD [])
      match b.arrive (s.rd w a.toNat 0).toNat with
      | none => s.trapWhole w act (tABORT, aBARCOUNT, 0)
      | some (b', last) =>
        let t := s.onBlock w.blk fun x => { x with bars := sput Bar.idle n.toNat b' x.bars }
        let t := if last then t.releaseAll (fun v => v.blk = w.blk) (.bar n.toNat) .blk else t
        t.arrived w act arv last (.bar n.toNat)) s)

def State.blockCg (s : State) (blk : Nat) : Nat := ((s.block? blk).map (·.cg)).getD 0

def execCbar (c : Common) (arv : Bool) (a : Fld) (p : Perm) (s : State) : Out :=
  .next (performWith (.cbar c arv a p)
    (fun s w => ((s.warpGroup w).map (·.hasRec)).getD false)
    (fun w act s =>
      match s.warpGroup w with
      | none => s
      | some g =>
        match g.cbar.arrive ((s.rd w a.toNat 0).toNat * g.size) with
        | none => s.trapWhole w act (tABORT, aBARCOUNT, 0)
        | some (b', last) =>
          let t := s.onCGroup g.id fun x => { x with cbar := b' }
          let t := if last then t.releaseAll (fun v => s.blockCg v.blk = g.id) .cbar .cl else t
          let t := if last && !arv then t.acquire w.core .cl else t
          t.arrived w act arv last .cbar) s)

/-! ## REDO (R262 to R265) -/

/-- The entry of a lane, on its way to its order point. -/
def redoReq (s : State) (w : Warp) (op : AtomOp) (m : MOp) (t : Tgt) (va l : Nat) (uni : Mask) (void : Bool) : Req :=
  s.request w (.redo op (sizeBytes m.size) (redoX s w m l) (redoTicket s w m l) (redoStream s w m l) (s.rdst w) va void) t va l uni true

def redoLane (w : Warp) (op : AtomOp) (m : MOp) (uni : Mask) (l : Nat) (s : State) : Ends × State :=
  let va := MOpAddr m s w l
  if 4096 ≤ redoStream s w m l then (.trap tABORT aDESC va.toNat, s)
  else match s.reach w va (sizeBytes m.size) .atomic with
  | (.trap c k, s) => (.trap c k va.toNat, s)
  | (.page, s) => (.page va.toNat, s)
  | (.go t ao, s) =>
    let refused := toAperture t || (match t with | .host _ => !(ao && decide (op = .add ∨ op = .exch)) | _ => false)
    if refused then (.trap tABORT aACCESS va.toNat, s)
    else (.done, s.send w (redoReq s w op m t va.toNat l uni false))

def execRedo (c : Common) (op : AtomOp) (m : MOp) (s : State) : Out :=
  perform (.redo c op m) (fun w act s => let u := if uniStore m then act else 0#32; memLanes w act u .atomic (redoLane w op m u) s) s

/-- The void entry that a skip of a faulted REDO sends, with the ticket, stream and RDST of the fault (R265). -/
def State.redoSkip (s : State) (w : Warp) (t : TrapLane) : State :=
  match t.redo, decode t.word with
  | some (ticket, stream, rdst), .ok (.redo _ op m) =>
    s.send w (s.request w (.redo op (sizeBytes m.size) 0 ticket stream rdst t.addr true) (.dev 0) t.addr t.lane 0#32 true)
  | _, _ => s

/-! ## The order point (R264) -/

/-- The parts of an entry. -/
structure OrderEntry where
  op : AtomOp
  n : Nat
  x : Nat
  ticket : Nat
  word : Nat
  void : Bool
  deriving DecidableEq, Repr

def ReqK.entry : ReqK → Option OrderEntry
  | .redo op n x t st rdst _ v => some { op := op, n := n, x := x, ticket := t, word := rdst + 8 * st, void := v }
  | _ => none

/-- Two entries of one stream. -/
def sameStream (a b : Req) : Bool :=
  decide (a.org.group = b.org.group) && match a.k.entry, b.k.entry with | some x, some y => decide (x.word = y.word) | _, _ => false

/-- NEXT of an entry's stream, in a word that the order point may write; a fault that it meets, or cause 0 for a page that needs service (R258). -/
def State.nextTicket (s : State) (r : Req) : Except VaErr Nat :=
  match r.k.entry with
  | none => .error { cause := fXLATE, va := r.va }
  | some e =>
    match s.place r.org.group e.word .atomic with
    | .error x => .error x
    | .ok t => match s.readTgt t 8 with
      | .ok b => .ok (ofBytes b % 2 ^ 32)
      | .error c => .error { cause := c, va := e.word }

/-- The order point's number: the home slice of the stream's word. -/
def State.orderPoint (s : State) (r : Req) : Nat :=
  match r.k.entry with
  | some e => match s.place r.org.group e.word .write with | .ok (.dev pa) => s.sliceHome pa | _ => 0
  | none => 0

/-- A refusal by the host root or a remote device (R258): nothing here says when it refuses, so it may refuse any entry. -/
def State.serveWindow (s : State) (r : Req) : State × ReqSt :=
  let d := s.draw
  if d.1 then d.2.serve r else (d.2, .failed fREFUSED)

/-- An entry performed at its target, and NEXT moved on: a failure or refusal at the target makes it void in its place (R265). -/
def State.applyRedo (s : State) (r : Req) : State × ReqSt :=
  match r.k.entry with
  | none => (s, r.st)
  | some e =>
    let q : State × ReqSt :=
      if e.void then (s, .served [] [])
      else match r.tgt with
      | .dev pa =>
        (match s.readDev pa e.n with
         | some b =>
           match (s.charge r.org pa e.n).writeLine pa (toBytes e.n (atomNew e.op e.n (ofBytes b) e.x 0)) r.org.group false with
           | some s => (s, .served [] [])
           | none => (s, .failed fABORT)
         | none => (s.detect pa (r.org.core / 8) (r.org.core % 8) r.org.group, .failed fABORT))
      | _ => s.serveWindow r
    match s.nextTicket r with
    | .ok n => ((q.1.writeVa r.org.group e.word (toBytes 8 ((n + 1) % 2 ^ 32)) .write).1, match q.2 with | .served _ _ => .served [] [] | x => x)
    | .error x => (q.1, .failed x.cause)

/-- Held entries whose turn has come, applied one after another. -/
def State.drainRedo : Nat → Req → State → State
  | 0, _, s => s
  | fuel + 1, r, s =>
    match s.nextTicket r with
    | .error _ => s
    | .ok n =>
      match s.redos.find? fun h => !h.atCore && sameStream h.req r && decide ((h.req.k.entry.map (·.ticket)) = some n) with
      | none => s
      | some h =>
        let a := { s with redos := s.redos.erase h }.applyRedo h.req
        drainRedo fuel r { a.1 with net := a.1.net ++ [{ h.req with st := a.2 }] }

/-- An entry at its order point: applied, held, sent back to wait, or stale. While the page of the stream's word is in service it waits and is sent
again (R171). -/
def State.orderEntry (s : State) (r : Req) : State :=
  let put (s : State) (st : ReqSt) : State := { s with net := s.net ++ [{ r with st := st }] }
  match r.k.entry, s.nextTicket r with
  | some e, .ok n =>
    let d := (e.ticket + 2 ^ 32 - n) % 2 ^ 32
    if d = 0 then let a := s.applyRedo r; State.drainRedo s.redos.length r (put a.1 a.2)
    else if 2 ^ 31 ≤ d then put s (.failed fABORT)
    else if s.redos.any fun h => !h.atCore && sameStream h.req r && decide ((h.req.k.entry.map (·.ticket)) = some e.ticket) then put s (.failed fABORT)
    else
      let full := decide (256 ≤ (s.redos.filter fun h => !h.atCore && decide (s.orderPoint h.req = s.orderPoint r)).length)
      { s with redos := s.redos ++ [{ req := r, atCore := full }] }
  | some _, .error x =>
    if x.cause = 0 then
      let m := s.engineMiss { r.org with seq := 2 ^ 65 + 32 * r.org.seq + r.lane } x.va .atomic
      if m.2 then put m.1 (.failed fXLATE) else { m.1 with redos := m.1.redos ++ [{ req := r, atCore := true }] }
    else put (if x.cause = fABORT then s.detectVa r.org.group x.va (s.orderPoint r / 8) 0xFF else s) (.failed x.cause)
  | none, _ => s

/-- REDO_ENTRY_ARRIVAL (R264): entry `n` reaches its order point, behind its core's earlier entries of the stream. -/
def execRedoEntryArrival (n : Nat) (s : State) : Out :=
  .next (match s.net[n]? with
    | some r =>
      if r.st = .sent && r.k.isRedo && !s.uncommitted r.org && !((s.net.take n).any fun q => decide (q.st = .sent) && sameStream q r && decide (q.org.core = r.org.core)) then
        { s with net := dropAt n s.net }.orderEntry r
      else s
    | none => s)

/-- REDO_ENTRY_RESEND (R264): an entry that waited at its core is sent again. -/
def execRedoEntryResend (n : Nat) (s : State) : Out :=
  .next (match s.redos[n]? with
    | some h => if h.atCore then { s with redos := dropAt n s.redos }.orderEntry h.req else s
    | none => s)

/-! ## Work queues (R266 to R269) -/

def WQueue.count (q : WQueue) : Nat := (q.tail - q.head).toNat

/-- The hardware queue of a lane's queue number, or the trap. -/
def State.queueOf (s : State) (w : Warp) (n : Nat) : Except Nat Nat :=
  match s.ctx? w.ctx with
  | none => .error aQUEUE
  | some c =>
    if c.qsel / 256 % 128 ≤ n then .error aQUEUE
    else
      let q := c.qsel % 64 + n
      if (s.wqueue q).en && decide ((s.wqueue q).group = c.group) then .ok q else .error aACCESS

/-- The address of a queue's entry. -/
def WQueue.slot (q : WQueue) (n : Word) : Nat := q.ring + 8 * (n.toNat % q.slots)

/-- The entry at HEAD taken; one that its memory withholds (R319, R320) is a free value (log entry 41). -/
def State.popEntry (s : State) (q : Nat) : Word64 × State :=
  let x := s.wqueue q
  let r := match s.readVa x.group (x.slot x.head) 8 .read with | .ok b => (ofBytes b, s) | .error e => (s.engineErr x.group e).drawNat (2 ^ 64)
  (BitVec.ofNat 64 r.1, r.2.onWq q fun y => { y with head := y.head + 1 })

/-- A pop's results in a lane. -/
def State.popDone (s : State) (w : Warp) (l : Nat) (d : Fld) (p : Nat) (v : Word64) : State := (s.put w d.toNat l (words2 v)).wrP w p [(l, true)]

/-- Waiting lanes served in order of their parking while entries remain. -/
def State.servePops : Nat → Nat → State → State
  | 0, _, s => s
  | fuel + 1, q, s =>
    if (s.wqueue q).count = 0 then s
    else match s.pops.find? fun x => x.q = q with
      | none => s
      | some x =>
        match s.warp? x.warp with
        | none => servePops fuel q { s with pops := s.pops.erase x }
        | some w =>
          let r := { s with pops := s.pops.erase x }.popEntry q
          let t := (r.2.popDone w x.lane x.d x.p r.1).passLanes w (1#32 <<< x.lane)
          servePops fuel q (if x.acq then t.oweAcquire w .dev else t)

/-- An entry pushed: WAKE is written, then waiting lanes are served. -/
def State.push (s : State) (q : Nat) (v : Word64) : State :=
  let x := s.wqueue q
  let s := match s.writeVa x.group (x.slot x.tail) (toBytes 8 v.toNat) .write with | (s, none) => s | (s, some e) => s.engineErr x.group e
  let s := s.onWq q fun y => { y with tail := y.tail + 1 }
  let s := if x.wake = 0xFFFF then s else s.notify x.wake 1
  State.servePops (s.pops.length) q s

/-- A trap of one lane of a queue operation. -/
def queueTraps (w : Warp) (bad : List (Nat × Nat)) (s : State) : State :=
  s.takeTrap w s.iss.hnd tABORT (bad.map fun x => TrapLane.of x.1 x.2 0 0 s.iss.word)

def execQpush (c : Common) (rlx : Bool) (r : R3) (s : State) : Out :=
  perform (.qpush c rlx r) (fun w act s =>
    let go (a : State × List (Nat × Nat)) (l : Nat) : State × List (Nat × Nat) :=
      match s.queueOf w (r.vb s w l).toNat with
      | .error k => (a.1, a.2 ++ [(l, k)])
      | .ok q =>
        let room := decide ((a.1.wqueue q).count < (a.1.wqueue q).slots)
        ((if room then a.1.push q (r.va2 s w l) else a.1).wrP w r.d.toNat [(l, room)], a.2)
    let x := (lanesOf act).foldl go (s, [])
    let bad := maskOf fun l => x.2.any fun y => y.1 = l
    (queueTraps w x.2 x.1).advance w (s.iss.lanes &&& ~~~bad)) s

def execQpop (c : Common) (wait rlx : Bool) (r : R3) (s : State) : Out :=
  perform (.qpop c wait rlx r) (fun w act s =>
    let go (a : State × List (Nat × Nat) × List Nat) (l : Nat) : State × List (Nat × Nat) × List Nat :=
      match s.queueOf w (r.va s w l).toNat with
      | .error k => (a.1, a.2.1 ++ [(l, k)], a.2.2)
      | .ok q =>
        if (a.1.wqueue q).count ≠ 0 then
          let e := a.1.popEntry q
          (e.2.popDone w l r.d (r.b.toNat % 16) e.1, a.2)
        else if wait then
          let x : PopWait := { q := q, warp := w.id, lane := l, d := r.d, p := r.b.toNat % 16, acq := !rlx }
          let t : State := { a.1 with pops := a.1.pops ++ [x] }
          (t.parkHere w (1#32 <<< l) (.queue q), a.2.1, l :: a.2.2)
        else (a.1.wrP w (r.b.toNat % 16) [(l, false)], a.2)
    let x := (lanesOf act).foldl go (s, [], [])
    let still := maskOf fun l => (x.2.1.any fun y => y.1 = l) || x.2.2.contains l
    let t := (queueTraps w x.2.1 x.1).advance w (s.iss.lanes &&& ~~~still)
    if rlx then t else t.l1clear w.core) s

/-! ## NOTIFY and GTRIG (R270) -/

def execNotify (c : Common) (k : NotifyRel) (a b : Fld) (p : Perm) (s : State) : Out :=
  perform (.notify c k a b p) (fun w act s =>
    let n := (s.rd w b.toNat 0).toNat
    if 4095 < n then s.trapWhole w act (tABORT, aRANGE, 0)
    else if s.classGroup n ≠ s.groupOf w then s.trapWhole w act (tABORT, aACCESS, 0)
    else (s.notify n (s.rd2 w a.toNat 0)).advance w s.iss.lanes) s

def execGtrig (c : Common) (a : Fld) (p : Perm) (s : State) : Out :=
  perform (.gtrig c a p) (fun w act s =>
    let n := (s.rd w a.toNat 0).toNat
    if 63 < n then s.trapWhole w act (tABORT, aRANGE, 0)
    else if s.classGroup n ≠ s.groupOf w then s.trapWhole w act (tABORT, aACCESS, 0)
    else (s.notify n 0).advance w s.iss.lanes) s

end Sys2Proof.Machine
end

