-- ==== Sys2Proof/Machine/Tile.lean ====
section
/-! DEFINITION. The cluster tile file (R201 to R221): records and their cache, the catalogue's names, definitions, and readers. -/

namespace Sys2Proof.Machine

/-! ## Records (R203 to R206) -/

def tBase (t : List Byte) : Nat := field t 0 8
def tFormat (t : List Byte) : Nat := field t 8 1
def tScaled (t : List Byte) : Bool := decide (field t 9 1 % 2 = 1)
def tExtent (t : List Byte) : Nat := field t 10 2
def tBpr (t : List Byte) : Nat := field t 12 2
def tStride (t : List Byte) : Nat := field t 16 8
def tTable (t : List Byte) : Nat := field t 24 8
def tBr (t : List Byte) : Nat := field t 32 2
def tScale (t : List Byte) : Nat := field t 40 8

/-- R206 step 3. -/
def recOk (t : List Byte) : Bool :=
  let f := tFormat t
  decide (field t 14 2 = 0) && decide (field t 34 6 = 0) && decide (field t 48 16 = 0) && decide (field t 9 1 ≤ 1) &&
    decide (1 ≤ f) && decide (f ≤ 8) && decide (1 ≤ tExtent t) && decide (tExtent t ≤ 128) &&
    decide (4 ≤ tBpr t) && decide (tBpr t ≤ 256) && decide (tBpr t % 4 = 0) && decide (tBase t % 4 = 0) && decide (tStride t % 4 = 0) &&
    decide (tTable t % 8 = 0) && (if tTable t = 0 then decide (tBr t = 0) else decide (1 ≤ tBr t) && decide (tBr t ≤ 128)) &&
    (if tScaled t then decide (tScale t % 32 = 0) else decide (tScale t = 0)) &&
    (if f = 5 then tScaled t else !tScaled t || decide (f = 3) || decide (f = 4))

/-- Blocks in a full row, and bytes of a block (R204, R205). -/
def tBlocks (t : List Byte) : Nat × Nat := if tFormat t = 5 then (16, 16) else (8, 32)

/-- Blocks that start below byte BPR. -/
def tHeads (t : List Byte) : Nat := if tScaled t then (tBpr t + (tBlocks t).2 - 1) / (tBlocks t).2 else 0

/-- row_address of R205; `e` is the row's table entry. -/
def rowAddr (t : List Byte) (r : Nat) (e : Option Nat) : Option Nat :=
  if tTable t = 0 then some ((tBase t + r * tStride t) % 2 ^ 64)
  else match e with
  | none | some 0 => none
  | some x => some ((x + tBase t + r % tBr t * tStride t) % 2 ^ 64)

/-- Address of row r's headers. -/
def headAddr (t : List Byte) (r : Nat) : Nat := (tScale t + 32 * r) % 2 ^ 64

/-- Rows of the image that a record's table names: the entries' numbers. -/
def tEntries (t : List Byte) : List Nat := if tTable t = 0 then [] else List.range ((tExtent t + tBr t - 1) / tBr t)

/-- R206 steps 4 and 5, with R215's rule on BASE and SCALE: the cause, if any. -/
def scratchRec (t : List Byte) (size : Nat) : Option Nat :=
  if tTable t ≠ 0 || 2 ^ 32 ≤ tBase t || 2 ^ 32 ≤ tScale t then some aDESC
  else if (List.range (tExtent t)).any fun r =>
      decide (size < ((rowAddr t r none).getD 0) + tBpr t) || (tScaled t && decide (size < headAddr t r + 2 * tHeads t)) then some aRANGE
  else none

/-! ## Reading a record (R206, R207) -/

/-- What reading a record gives: its bytes, a trap, or a wait for a page. -/
inductive RecEnd where
  | ok (t : List Byte)
  | trap (e : DescErr)
  | page (va : Nat)
  deriving DecidableEq, Repr

/-- A record's 64 bytes: each 8-byte word as the warp came to read it before this issue, else as it stands now (R207). -/
def Warp.recWords (w : Warp) (a : Nat) (now : List Byte) : List Byte :=
  (List.range 8).flatMap fun k => match w.recs.find? fun x => x.1 = a + 8 * k with | some x => x.2 | none => (now.drop (8 * k)).take 8

/-- Words of the record at `a` read before the instruction issues, each freely. -/
def State.recLook (s : State) (w : Warp) (a : Nat) : State :=
  if a % 64 ≠ 0 || 2 ^ 52 ≤ a then s
  else (List.range 8).foldl (fun s k =>
    let d := s.draw
    if !d.1 || (w.recs.any fun x => x.1 = a + 8 * k) then d.2
    else match d.2.readVa (s.groupOf w) (a + 8 * k) 8 .read with
      | .ok b => d.2.onWarp w.id fun x => { x with recs := (a + 8 * k, b) :: x.recs }
      | .error _ => d.2) s

/-- The records of the warps that a test picks are to be read anew. -/
def State.recDrop (s : State) (p : Warp → Bool) : State := { s with warps := s.warps.map fun w => if p w then { w with recs := [] } else w }

/-- A record from global memory, through the cluster's record cache where it lies in device memory. -/
def State.globalRec (s : State) (w : Warp) (a : Word64) : RecEnd × State :=
  match s.reach w a 64 .read with
  | (.trap c k, s) => (.trap (c, k, a.toNat), s)
  | (.page, s) => (.page a.toNat, s)
  | (.go t _, s) =>
    let g := s.groupOf w
    let k := w.core / 8
    let read (s : State) : RecEnd × State :=
      match s.readTgt t 64 with
      | .error c =>
        let s := match t with | .dev pa => if c = fABORT then s.detect pa k (w.core % 8) g else s | _ => s
        (.trap (tABORT, (if c = fREFUSED then aACCESS else aABORT), a.toNat), s)
      | .ok now =>
        let b := w.recWords a.toNat now
        let s := match t with
          | .dev pa => (s.charge (s.origin w 0 0) pa 64).onCluster k fun c => { c with recs := (g, a.toNat, b) :: c.recs.take 255 }
          | _ => s
        (.ok b, s)
    match (s.cluster k).recs.find? fun r => decide (r.1 = g) && decide (r.2.1 = a.toNat) with
    | none => read s
    | some r =>
      let d := s.draw
      if d.1 then (.ok r.2.2, d.2) else read (d.2.onCluster k fun c => { c with recs := c.recs.erase r })

/-- The alignment of R206 comes before the canonical test. -/
def State.readRec (s : State) (w : Warp) (a : Word64) : RecEnd × State :=
  if a.toNat % 64 ≠ 0 then (.trap (tALIGN, 0, a.toNat), s)
  else match s.globalRec w a with
  | (.ok t, s) => (if recOk t then .ok t else .trap (tABORT, aDESC, a.toNat), s)
  | x => x

/-- A record from the scratchpad (R215). -/
def State.readRecS (s : State) (w : Warp) (a : Nat) : RecEnd × State :=
  let size := s.scratchSize w
  if a % 64 ≠ 0 then (.trap (tALIGN, 0, a), s)
  else if size < a + 64 then (.trap (tABORT, aRANGE, a), s)
  else match s.scratchGet w.blk a 64 with
  | none => (.trap (tABORT, aABORT, a), s.scratchErr w.core (s.groupOf w))
  | some t =>
    if !recOk t then (.trap (tABORT, aDESC, a), s)
    else match scratchRec t size with
    | some c => (.trap (tABORT, c, a), s)
    | none => (.ok t, s)

/-- The guarded lanes wait for a page at the instruction; the others advance (R171). -/
def State.pageWhole (s : State) (w : Warp) (act : Mask) (va : Nat) : State :=
  let t := (s.parkHere w act .page).advance w (s.iss.lanes &&& ~~~act)
  (lanesOf act).foldl (fun t l => t.wantPage (t.groupOf w) w.core va .read (.lane w.id l va false s.iss.word false s.nextId)) t

/-! ## Names (R208 to R210) -/

def CGroup.entry (g : CGroup) (n : Nat) : Entry := sget Entry.init n g.entries

def State.entry (s : State) (cg n : Nat) : Entry := match s.cgroup? cg with | some g => g.entry n | none => Entry.init

def State.onEntry (s : State) (cg n : Nat) (f : Entry → Entry) : State :=
  s.onCGroup cg fun g => { g with entries := supd Entry.init n f g.entries }

/-- A definition arrives at a free name (R208): it becomes defining and leaves the free order. -/
def State.beginDef (s : State) (cg n : Nat) (trec : List Byte) (scratch : Bool) (org : Origin) : State :=
  let e := s.entry cg n
  let s := (s.onEntry cg n fun e => { e with st := .defining, kill := false, faulted := false, trec := trec, img := [], gen := e.gen + 1 }).onCGroup
    cg fun g => { g with free := g.free.erase n }
  let d : Def := { cg := cg, name := n, gen := e.gen + 1, trec := trec, scratch := scratch, org := org, fetched := false, snap := [], sealed := [] }
  { s with defs := s.defs ++ [d] }

/-- A trap in lanes parked at a tile instruction. -/
def State.trapParked (s : State) (wi : Nat) (m : Mask) (cls cause addr : Nat) (word : Word64) : State :=
  match s.warp? wi with
  | none => s
  | some w => (s.takeTrap w false cls ((lanesOf m).map fun l => TrapLane.of l cause addr 0 word)).fresh.2

/-- Lanes parked at a tile instruction go on. -/
def State.passParked (s : State) (wi : Nat) (m : Mask) : State := match s.warp? wi with | some w => s.passLanes w m | none => s

/-- Lanes that wait for the free order take its head while it has one (R210, R215). -/
def State.serveHeads : Nat → Nat → State → State
  | 0, _, s => s
  | fuel + 1, cg, s =>
    match s.cgroup? cg with
    | none => s
    | some g =>
      match g.free, g.heads with
      | n :: _, h :: r =>
        let s := (s.onCGroup cg fun g => { g with heads := r }).beginDef cg n h.trec false h.org
        let s := match s.warp? h.org.warp with | some w => s.put w h.d.toNat 0 [BitVec.ofNat 32 n] | none => s
        serveHeads fuel cg (s.passParked h.org.warp h.lanes)
      | _, _ => s

def TileAsk.defines : TileAsk → Bool
  | .define _ _ => true
  | _ => false

/-- Definers parked on a name, in order: the first takes it, the others meet the defining state. -/
def State.serveDefiners (s : State) (cg n : Nat) : List Waiter → State
  | [] => s
  | x :: r =>
    match x.ask with
    | .define t sc =>
      let s := (s.beginDef cg n t sc x.org).passParked x.org.warp x.lanes
      r.foldl (fun s y => s.trapParked y.org.warp y.lanes tTILE 1 0 y.word) s
    | _ => s

/-- A name becomes free (R208, R210). -/
def State.freeName (s : State) (cg n : Nat) : State :=
  let ds := (s.entry cg n).waiters.filter fun x => x.ask.defines
  let s := (s.onEntry cg n fun e =>
    { e with st := .free, kill := false, faulted := false, trec := [], img := [], waiters := e.waiters.filter fun x => !x.ask.defines }).onCGroup
    cg fun g => { g with free := g.free ++ [n] }
  let s := s.serveDefiners cg n ds
  State.serveHeads ((s.cgroup? cg).map (·.heads.length) |>.getD 0) cg s

/-- Whether a reader of a name is outstanding. -/
def State.reading (s : State) (cg n : Nat) : Bool := s.readers.any fun r => decide (r.cg = cg) && decide (r.name = n)

/-- A kill at a name (R208). -/
def State.killName (s : State) (cg n : Nat) : State :=
  match (s.entry cg n).st with
  | .defining => s.onEntry cg n fun e => { e with kill := true }
  | .live => if s.reading cg n then s.onEntry cg n fun e => { e with st := .draining } else s.freeName cg n
  | .free | .draining => s

/-- A reader has taken all it reads. -/
def State.endReader (s : State) (r : Reader) : State :=
  let s : State := { s with readers := s.readers.erase r }
  if (s.entry r.cg r.name).st = .draining && !s.reading r.cg r.name then s.freeName r.cg r.name else s

/-! ## Readers (R208, R212, R217, R219) -/

/-- A matrix operation's reader is readable. -/
def State.matReady (s : State) (cg n m : Nat) (faulted : Bool) : State :=
  let s : State := { s with mats := s.mats.map (fun (x : Mat) =>
    if x.id ≠ m then x else { x with bad := x.bad || faulted, readyB := x.readyA, readyA := true }) }
  match s.mats.find? fun x => x.id = m with
  | some x => if faulted then s else { s with readers := s.readers ++ [{ cg := cg, name := n, ask := .mat m, org := x.org }] }
  | none => s

/-- A reader whose definition is live proceeds: its lanes, parked at the instruction, trap or go on. -/
def State.serveReader (s : State) (cg n : Nat) (x : Waiter) : State :=
  let e := s.entry cg n
  match x.ask with
  | .mat m => s.matReady cg n m e.faulted
  | .define _ _ => s
  | .tld _ _ _ | .trow _ _ =>
    if e.faulted then s.trapParked x.org.warp x.lanes tABORT aFAULT 0 x.word
    else
      let u : State := { s with readers := s.readers ++ [{ cg := cg, name := n, ask := x.ask, org := x.org }] }
      u.passParked x.org.warp x.lanes
  | .tst k t =>
    if e.faulted then s.trapParked x.org.warp x.lanes tABORT aFAULT 0 x.word
    else if tFormat t ≠ tFormat e.trec || tScaled t != tScaled e.trec then s.trapParked x.org.warp x.lanes tABORT aDESC 0 x.word
    else
      let r := s.fresh
      let c : Copy := { id := r.1, k := .tst t none, tok := k, org := x.org, started := false, snap := [] }
      let u : State := { r.2 with copies := r.2.copies ++ [c], readers := r.2.readers ++ [{ cg := cg, name := n, ask := .tst r.1 t, org := x.org }] }
      (u.onWarp x.org.warp fun y => { y with tok := supd 0 k (· + 1) y.tok }).passParked x.org.warp x.lanes

/-- A reader arrives at a name (R208): it proceeds on a live one, else it waits for the definition the entry's state assigns. -/
def State.offerReader (s : State) (w : Warp) (cg n : Nat) (ask : TileAsk) (m : Mask) (org : Origin) : State :=
  let e := s.entry cg n
  let x (gen : Nat) : Waiter := { gen := gen, lanes := m, ask := ask, org := org, hdr := s.iss.hdr, idx := s.iss.idx, word := s.iss.word }
  let wait (gen : Nat) : State := (s.onEntry cg n fun e => { e with waiters := e.waiters ++ [x gen] }).count w.blk 9 1
  match e.st with
  | .live => s.serveReader cg n (x e.gen)
  | .defining => wait (if e.kill then e.gen + 1 else e.gen)
  | .free | .draining => wait (e.gen + 1)

/-- A definition lands (R208): its parked readers are released, then a pending kill acts. -/
def State.landDef (s : State) (cg n gen : Nat) (img : Sparse Byte) (faulted : Bool) : State :=
  let e := s.entry cg n
  if e.st = .defining && e.gen = gen then
    let now := e.waiters.filter fun x => decide (x.gen = gen) && !x.ask.defines
    let s := s.onEntry cg n fun e =>
      { e with st := .live, faulted := faulted, img := img, kill := false, waiters := e.waiters.filter fun x => !(decide (x.gen = gen) && !x.ask.defines) }
    let s := now.foldl (fun s x => s.serveReader cg n x) s
    if e.kill then s.killName cg n else s
  else s

/-! ## TDEF, TDEFS, TDEFA, TKILL (R215, R216) -/

/-- A definition offered to a named entry. -/
def State.offerDef (s : State) (w : Warp) (act : Mask) (g : CGroup) (n : Nat) (t : List Byte) (scratch : Bool) : State :=
  let org := s.origin w s.iss.pos s.iss.lanes
  match (g.entry n).st with
  | .free => (s.beginDef g.id n t scratch org).advance w s.iss.lanes
  | .defining | .live => s.trapWhole w act (tTILE, 1, 0)
  | .draining =>
    let x : Waiter := { gen := 0, lanes := act, ask := .define t scratch, org := org, hdr := s.iss.hdr, idx := s.iss.idx, word := s.iss.word }
    ((s.onEntry g.id n fun e => { e with waiters := e.waiters ++ [x] }).parkHere w act .tile).advance w (s.iss.lanes &&& ~~~act)

/-- The group of the issuing warp and a name in its slice (R201). -/
def State.slice (s : State) (w : Warp) (n : Nat) : Option CGroup := (s.warpGroup w).bind fun g => if n < g.names then some g else none

def execTdef (c : Common) (t : BitVec 10) (aux : Fld) (s : State) : Out :=
  perform (.tdef c t aux) (fun w act s =>
    match s.slice w t.toNat with
    | none => s.trapWhole w act (tTILE, 2, 0)
    | some g =>
      match s.readRec w (s.rd2 w aux.toNat 0) with
      | (.trap e, s) => s.trapWhole w act e
      | (.page va, s) => s.pageWhole w act va
      | (.ok r, s) => s.offerDef w act g t.toNat r false) s

def execTdefs (c : Common) (t : BitVec 10) (aux : Fld) (s : State) : Out :=
  perform (.tdefs c t aux) (fun w act s =>
    match s.slice w t.toNat with
    | none => s.trapWhole w act (tTILE, 2, 0)
    | some g =>
      match s.readRecS w (s.rd w aux.toNat 0).toNat with
      | (.trap e, s) => s.trapWhole w act e
      | (.page va, s) => s.pageWhole w act va
      | (.ok r, s) => s.offerDef w act g t.toNat r true) s

def execTdefa (c : Common) (d aux : Fld) (s : State) : Out :=
  perform (.tdefa c d aux) (fun w act s =>
    match s.readRec w (s.rd2 w aux.toNat 0) with
    | (.trap e, s) => s.trapWhole w act e
    | (.page va, s) => s.pageWhole w act va
    | (.ok r, s) =>
      match s.slice w 0 with
      | none => s.trapWhole w act (tTILE, 2, 0)
      | some g =>
        let org := s.origin w s.iss.pos s.iss.lanes
        match g.free with
        | n :: _ => ((s.beginDef g.id n r false org).put w d.toNat 0 [BitVec.ofNat 32 n]).advance w s.iss.lanes
        | [] =>
          let h : HeadWait := { lanes := act, d := d, trec := r, org := org, hdr := s.iss.hdr, idx := s.iss.idx, word := s.iss.word }
          ((s.onCGroup g.id fun g => { g with heads := g.heads ++ [h] }).parkHere w act .head).advance w (s.iss.lanes &&& ~~~act)) s

def execTkill (c : Common) (t : BitVec 10) (s : State) : Out :=
  perform (.tkill c t) (fun w act s =>
    match s.slice w t.toNat with
    | none => s.trapWhole w act (tTILE, 2, 0)
    | some g => (s.advance w s.iss.lanes).killName g.id t.toNat) s

/-! ## TLD, TROW, TST, RCFENCE (R217 to R219) -/

/-- One reader for the lanes whose operand passes its check; the others trap. `bad` gives a lane's class and cause. -/
def tileRead (w : Warp) (act : Mask) (t : BitVec 10) (aux : Fld) (bad : Nat → Option (Nat × Nat)) (ask : List (Nat × Nat) → TileAsk)
    (s : State) : State :=
  match s.slice w t.toNat with
  | none => s.trapWhole w act (tTILE, 2, 0)
  | some g =>
    let x (l : Nat) : Nat := (s.rd w aux.toNat l).toNat
    let tr (cls : Nat) : List TrapLane := (lanesOf act).filterMap fun l => match bad (x l) with
      | some (c, k) => if c = cls then some (TrapLane.of l k 0 0 s.iss.word) else none
      | none => none
    let ok := maskOf fun l => act.getLsbD l && decide (bad (x l) = none)
    let u := ([tALIGN, tABORT].foldl (fun u c => u.takeTrap w false c (tr c)) s).advance w (s.iss.lanes &&& ~~~act)
    if ok = 0#32 then u
    else (u.parkHere w ok .tile).offerReader w g.id t.toNat (ask ((lanesOf ok).map fun l => (l, x l))) ok (s.origin w s.iss.pos s.iss.lanes)

def execTld (c : Common) (wide : Bool) (t : BitVec 10) (d aux : Fld) (s : State) : Out :=
  perform (.tld c wide t d aux) (fun w act s =>
    tileRead w act t aux (fun x => if 36864 ≤ x then some (tABORT, aRANGE) else if x % (if wide then 8 else 4) ≠ 0 then some (tALIGN, 0) else none)
      (.tld wide d) s) s

def execTrow (c : Common) (t : BitVec 10) (d aux : Fld) (s : State) : Out :=
  perform (.trow c t d aux) (fun w act s =>
    tileRead w act t aux (fun x => if 128 ≤ x then some (tABORT, aRANGE) else none) (.trow d) s) s

def execTst (c : Common) (k : BitVec 3) (t : BitVec 10) (aux : Fld) (s : State) : Out :=
  perform (.tst c k t aux) (fun w act s =>
    match s.slice w t.toNat with
    | none => s.trapWhole w act (tTILE, 2, 0)
    | some g =>
      match s.readRec w (s.rd2 w aux.toNat 0) with
      | (.trap e, s) => s.trapWhole w act e
      | (.page va, s) => s.pageWhole w act va
      | (.ok r, s) =>
        ((s.parkHere w act .tile).advance w (s.iss.lanes &&& ~~~act)).offerReader w g.id t.toNat (.tst k.toNat r) act
          (s.origin w s.iss.pos s.iss.lanes)) s

def execRcfence (c : Common) (dev : Bool) (s : State) : Out :=
  perform (.rcfence c dev) (fun w _ s =>
    ((if dev then { s with clusters := smap Cluster.init (fun k => { k with recs := [] }) s.clusters }
      else s.onCluster (w.core / 8) fun k => { k with recs := [] }).recDrop fun v => dev || decide (v.core / 8 = w.core / 8)).advance w s.iss.lanes) s

/-! ## The tile fetcher (R205, R211, R212) -/

/-- Earlier stores, atomics and ZLINEs of a warp that are not acknowledged (R211, R234). -/
def State.owes (s : State) (o : Origin) : Bool :=
  s.net.any fun r => r.counted && !r.k.isRedo && decide (r.org.warp = o.warp) && decide (r.org.seq < o.seq)

/-- Bytes of a source as they stand. -/
def Def.read (d : Def) (s : State) (a n : Nat) : Except VaErr (List Byte) :=
  if d.scratch then (match s.scratchGet d.org.blk a n with | some b => .ok b | none => .error { cause := fABORT, va := a })
  else s.readVa d.org.group a n (.copy false)

/-- The sources of a row: its bytes and its headers. -/
def rowSpans (t : List Byte) (r : Nat) (e : Option Nat) : List (Nat × Nat × Nat) :=
  (match rowAddr t r e with | some a => [(256 * r, a, tBpr t)] | none => []) ++
    (if tScaled t then [(32768 + 32 * r, headAddr t r, 2 * tHeads t)] else [])

/-- The bytes from address `a` that a look at a source finds: each aligned 4-byte word as it was found before or as it stands now, freely; one address
has one choice. -/
def mixWords (free a : Nat) (old new : List Byte) : List Byte :=
  (old.zip new).zipIdx.map fun x => if Config.freeBit (free + (a + x.2) / 4) then x.1.1 else x.1.2

/-- How many free bits one look may use: one for each word and one for each table entry. -/
def mixSpan : Nat := 2 ^ 63

/-- Bytes from address `a` with the words read for good in their places. -/
def Def.keep (d : Def) (a : Nat) (b : List Byte) : List Byte :=
  if d.sealed.isEmpty then b
  else b.zipIdx.map fun x => match d.sealed.find? fun y => decide (y.1 ≤ a + x.2) && decide (a + x.2 < y.1 + y.2.length) with
    | some y => y.2.getD (a + x.2 - y.1) 0
    | none => x.1

/-- A source as a look finds it: mixed with what an earlier one found there. -/
def Def.late (d : Def) (s : State) (a n : Nat) : Except VaErr (List Byte) :=
  match d.read s a n with
  | .error e => .error e
  | .ok b => match d.snap.find? fun x => decide (x.1 = a) && decide (x.2.length = n) with
    | some x => .ok (d.keep a (if x.2 = b then b else mixWords s.free a x.2 b))
    | none => .ok (d.keep a b)

/-- A table entry as a look finds it, whole. -/
def Def.lateEntry (d : Def) (s : State) (k : Nat) : Except VaErr Nat := do
  let a := tTable d.trec + 8 * k
  let b ← d.read s a 8
  let e := ofBytes (d.keep a (match d.snap.find? fun x => decide (x.1 = entryKey k) && decide (x.2.length = 8) with
    | some x => if Config.freeBit (s.free + 2 ^ 62 + k) then x.2 else b
    | none => b))
  if 2 ^ 52 ≤ e then throw { cause := fDESC, va := a } else pure e

/-- The image of R205. -/
def Def.image (d : Def) (s : State) : Except VaErr (Sparse Byte) := do
  let es ← (tEntries d.trec).mapM (d.lateEntry s)
  (List.range (tExtent d.trec)).foldlM (init := []) fun m r =>
    (rowSpans d.trec r (if tTable d.trec = 0 then none else es[r / tBr d.trec]?)).foldlM (init := m) fun m p => do
      let b ← d.late s p.2.1 p.2.2
      pure (writeCells p.1 b m)

/-- What a look finds of the entries and rows that can be read at that moment; a hole has no row. -/
def Def.early (d : Def) (s : State) : List (Nat × List Byte) :=
  let es := (tEntries d.trec).filterMap fun k => match d.lateEntry s k with | .ok e => some (entryKey k, toBytes 8 e) | .error _ => none
  let look (r : Nat) : Option Nat := (es.find? fun x => x.1 = entryKey (r / tBr d.trec)).map fun x => ofBytes x.2
  es ++ (List.range (tExtent d.trec)).flatMap fun r => (rowSpans d.trec r (look r)).filterMap fun p =>
    match d.late s p.2.1 p.2.2 with | .ok b => some (p.2.1, b) | .error _ => none

/-- The sources in windows of other memories, which may refuse: the part of each range in each line, by its address (R212). -/
def State.windows (s : State) (g : Nat) (ps : List (Nat × Nat)) : List Nat :=
  ((ps.flatMap fun p => spans (nSpans p.2) p.1 p.2).map (·.1)).filter fun a =>
    match s.place g a (.copy false) with | .ok (.dev _) => false | .ok _ => true | .error _ => false

/-- One of some addresses, freely: the one that another memory refuses. -/
def State.refused (s : State) (as : List Nat) : Nat × State := let r := s.drawNat as.length; (as.getD r.1 0, r.2)

/-- The sources that a definition reads: address and length. -/
def Def.places (d : Def) (s : State) : List (Nat × Nat) :=
  if d.scratch then []
  else ((tEntries d.trec).map fun k => (tTable d.trec + 8 * k, 8)) ++ (List.range (tExtent d.trec)).flatMap fun r =>
    let e := if tTable d.trec = 0 then none else match d.lateEntry s (r / tBr d.trec) with | .ok e => some e | .error _ => none
    (rowSpans d.trec r e).map (·.2)

/-- The sources that a definition reads before the one that holds an address. -/
def Def.upTo (d : Def) (s : State) (va : Nat) : List (Nat × Nat) := (d.places s).takeWhile fun p => decide (va < p.1) || decide (p.1 + p.2 ≤ va)

/-- TILE_DEFINITION_FETCH (R211): the fetcher reads, for the first time once the warp's earlier stores are acknowledged, and at any moment from then
until the definition lands. -/
def execTileDefinitionFetch (n : Nat) (s : State) : Out :=
  .next (match s.defs[n]? with
    | some d =>
      if s.uncommitted d.org || (!d.fetched && s.owes d.org) then s
      else { s with defs := setAt n { d with fetched := true, snap := d.early s } s.defs, free := s.free + mixSpan }
    | none => s)

/-- A definition has failed (R212). -/
def State.loseDef (s : State) (n : Nat) (d : Def) (e : VaErr) : State :=
  (({ s with defs := dropAt n s.defs } : State).failStore d.org e.cause 8 e.va).landDef d.cg d.name d.gen [] true

/-- A definition ends with an image or a failure of R212. -/
def State.endDef (s : State) (n : Nat) (d : Def) (r : Except VaErr (Sparse Byte)) : State :=
  match r with
  | .ok m => ({ s with defs := dropAt n s.defs } : State).landDef d.cg d.name d.gen m false
  | .error e => (if e.cause = fABORT then s.engineMet d.org d.scratch e.va else s).loseDef n d e

/-- Far-store bytes of the sources that a definition has read, charged (R89, R211). -/
def Def.charge (d : Def) (ps : List (Nat × Nat)) (s : State) : State := s.chargeSectors d.org (vaSectors ps)

/-- TILE_DEFINITION_LANDS (R208, R211, R212). A definition that fails has read its sources up to the one that failed. -/
def execTileDefinitionLands (n : Nat) (s : State) : Out :=
  .next (match s.defs[n]? with
    | some d =>
      if !d.fetched then s
      else
      let s0 := s
      let r := d.image s
      let s : State := { s with free := s.free + mixSpan }
      match r with
      | .ok m =>
        let u := s.draw
        let ws := s.windows d.org.group (d.places s0)
        if !ws.isEmpty && !u.1 then let x := u.2.refused ws; (d.charge (d.upTo s0 x.1) x.2).endDef n d (.error { cause := fREFUSED, va := x.1 })
        else (d.charge (d.places s0) u.2).endDef n d (.ok m)
      | .error e =>
        if e.cause = 0 then
          let r := s.engineMiss d.org e.va (.copy false)
          if r.2 then (d.charge (d.upTo s0 e.va) r.1).endDef n d (.error { cause := fXLATE, va := e.va }) else r.1
        else (d.charge (d.upTo s0 e.va) s).endDef n d (.error e)
    | none => s)

/-! ## The defining warp's later stores (R275) -/

/-- The words of a source that lie in device bytes from `pa` on, `n` of them. -/
def State.wordsIn (s : State) (g a len pa n : Nat) : List Nat :=
  (spans (nSpans len) a len).flatMap fun p => match s.place g p.1 (.copy false) with
    | .ok (.dev q) => ((List.range ((p.2 + 3) / 4)).map fun k => (p.1 + 4 * k, q + 4 * k)).filterMap fun x =>
        if x.2 < pa + n && pa < x.2 + 4 then some x.1 else none
    | _ => []

/-- The words of a definition's sources that a store would change are read for good before it is served. -/
def Def.seal (d : Def) (s : State) (pa n : Nat) : Def :=
  let ws := (d.places s).flatMap fun p => s.wordsIn d.org.group p.1 p.2 pa n
  ws.foldl (fun d a => match d.late s a 4 with
    | .ok b => if d.sealed.any fun y => y.1 = a then d else { d with sealed := (a, b) :: d.sealed }
    | .error _ => d) d

/-- A store that the warp of a definition issued after it. -/
def Def.after (d : Def) (r : Req) : Bool :=
  !d.scratch && decide (r.org.warp = d.org.warp) && decide (d.org.seq < r.org.seq) && match r.k, r.tgt with | .store _ _, .dev _ => true | _, _ => false

/-- Before a store is served, each earlier definition of its warp in flight has read what the store changes. -/
def State.sealDefs (s : State) (r : Req) : State :=
  match r.tgt, r.k with
  | .dev pa, .store b _ => if s.defs.any fun d => d.after r then { s with defs := s.defs.map fun d => if d.after r then d.seal s pa b.length else d } else s
  | _, _ => s

/-- A definition that may not read yet keeps a later store of its warp waiting. -/
def State.defsWait (s : State) (r : Req) : Bool := s.defs.any fun d => d.after r && !d.fetched && s.owes d.org

/-- HOME_SLICE_ACCESS (R175): request `n` is served, in order of arrival at its line, once no earlier definition of its warp can miss what it changes. -/
def execHomeSliceAccess (n : Nat) (s : State) : Out :=
  .next (match s.net[n]? with
    | some r => if r.st = .sent && !r.k.isRedo && s.foremost n r && !s.uncommitted r.org && !s.defsWait r then let x := (s.sealDefs r).serve r; x.1.setReq n x.2 else s
    | none => s)

/-! ## The end of a reader (R208, R217, R219) -/

/-- Bytes of a tile image. -/
def imgBytes (m : Sparse Byte) (a n : Nat) : List Byte := readCells m a n

/-- TILE_READER_DONE: TLD and TROW receive their bytes, TST has read the image. -/
def execTileReaderDone (n : Nat) (s : State) : Out :=
  .next (match s.readers[n]? with
    | none => s
    | some r =>
      if s.uncommitted r.org then s else
      let img := (s.entry r.cg r.name).img
      let land (d : Fld) (vals : List (Nat × List Word)) : State := match s.warp? r.org.warp with
        | some w => vals.foldl (fun t v => t.putLate w d.toNat v.1 v.2) s
        | none => s
      match r.ask with
      | .tld wide d xs =>
        let k := if wide then 8 else 4
        (land d (xs.map fun x => (x.1, wordsN (k / 4) (ofBytes (imgBytes img x.2 k))))).endReader r
      | .trow d xs => (land d (xs.map fun x => (x.1, wordsN 2 (ofBytes (imgBytes img (256 * x.2 + 8 * x.1) 8))))).endReader r
      | .tst k t =>
        let t : State := { s with copies := s.copies.map (fun (c : Copy) => if c.id = k then { c with k := .tst t (some img) } else c) }
        t.endReader r
      | .define _ _ | .mat _ => s)

end Sys2Proof.Machine
end

