-- ==== Sys2Proof/Machine/Engine.lean ====
section
/-! DEFINITION. The copy engine at work on CPY, CPYBT and TST (R194 to R199, R219): each entry of a table and each word is come to once, at any moment at which the
engine works, the landing the last (log entry 18). -/

namespace Sys2Proof.Machine

/-! ## Tables -/

def Copy.isTst (c : Copy) : Bool := match c.k with | .tst _ _ => true | _ => false

/-- The entries of its table that a copy or TST reads, by number. -/
def Copy.blocks (c : Copy) : List Nat :=
  match c.k with
  | .cpybt _ d => List.range (dLo d 5)
  | .tst t _ => tEntries t
  | .cpy _ _ => []

/-- Where an entry of the table stands. -/
def Copy.entryAt (c : Copy) (i : Nat) : Nat :=
  match c.k with
  | .cpybt _ d => dAddr d 0 + 8 * (dw d 7 + i)
  | .tst t _ => tTable t + 8 * i
  | .cpy _ _ => 0

/-- An entry of the table (R194, R205). -/
def State.readEntry (s : State) (c : Copy) (i : Nat) : Except VaErr Nat :=
  match s.readVa c.org.group (c.entryAt i) 8 (.copy false) with
  | .error e => .error e
  | .ok b => if 2 ^ 52 ≤ ofBytes b then .error { cause := fDESC, va := c.entryAt i } else .ok (ofBytes b)

/-- An entry that has been read. -/
def Copy.entry (c : Copy) (i : Nat) : Option Nat := (c.snap.find? fun x => x.1 = entryKey i).map fun x => ofBytes x.2

def Copy.keepEntry (c : Copy) (i e : Nat) : Copy := { c with snap := (entryKey i, toBytes 8 e) :: c.snap }

/-! ## Words -/

/-- The words of a TST's row, and of its headers where the record is scaled: word n holds the image's bytes from 4 × n on. -/
def tstRow (t : List Byte) (r : Nat) (e : Option Nat) : List CWord :=
  ((match rowAddr t r e with
    | some a => (List.range (tBpr t / 4)).map fun k => { n := 64 * r + k, src := none, dst := a + 4 * k }
    | none => []) ++
   (if tScaled t then (List.range ((tBlocks t).1 / 2)).map fun k => { n := 8192 + 8 * r + k, src := none, dst := headAddr t r + 4 * k } else []))

/-- The words whose places are known. -/
def Copy.words (c : Copy) : List CWord :=
  match c.k with
  | .cpy sc d => cpyWords sc d
  | .cpybt sc d => (List.range (dLo d 5)).flatMap fun i2 => match c.entry i2 with | some b => btWords sc d i2 b | none => []
  | .tst t (some _) => (List.range (tExtent t)).flatMap fun r =>
      if tTable t = 0 then tstRow t r none else match c.entry (r / tBr t) with | some e => tstRow t r (some e) | none => []
  | .tst _ none => []

/-- A word's bytes where the engine has them: the tile's, or read already. -/
def Copy.held (c : Copy) (n : Nat) : Option (List Byte) :=
  match c.k with
  | .tst _ (some m) => some (readCells m (4 * n) 4)
  | _ => (c.snap.find? fun x => x.1 = readKey n).map (·.2)

/-- A word that has been written. -/
def Copy.done (c : Copy) (n : Nat) : Bool := c.snap.any fun x => x.1 = n

def Copy.finish (c : Copy) (ns : List Nat) : Copy := { c with snap := ns.map (fun n => (n, [])) ++ c.snap }

/-- A copy's lowest destination and the bytes from there that it spans; none but for a CPY. -/
def Copy.dstSpan (c : Copy) : Option (Nat × Nat) :=
  match c.k with
  | .cpy sc d => some (dAddr d 2, if sc then stridedSpan d else dLo d 4 * dHi d 4 * dLo d 5 * dHi d 5)
  | _ => none

def State.copyMsg (s : State) (c : Copy) : Bool := match c.dstSpan with | some x => s.isMsg c.org x.1 x.2 | none => false

/-- The source of a word read, zeros for a hole. -/
def State.readWord (s : State) (o : Origin) (x : CWord) : Except VaErr (List Byte) :=
  match x.src with
  | none => .ok [0, 0, 0, 0]
  | some a => s.readSide o a 4

/-- The bytes of a word: those that the engine has, else its source's. -/
def State.wordBytes (s : State) (c : Copy) (x : CWord) : Except VaErr (List Byte) :=
  match c.held x.n with
  | some b => .ok b
  | none => s.readWord c.org x

/-- One word written; a TST writes no scratchpad. -/
def State.putWord (s : State) (c : Copy) (msg : Bool) (x : CWord) (b : List Byte) : Except VaErr State :=
  if c.isTst && decide (2 ^ 52 ≤ x.dst) then .error { cause := fXLATE, va := x.dst } else s.writeSide c.org msg x.dst b

/-- One word moved, by itself. -/
def State.moveWord (s : State) (c : Copy) (msg : Bool) (x : CWord) : Except VaErr State :=
  match s.wordBytes c x with
  | .ok b => s.putWord c msg x b
  | .error e => .error e

/-! ## Lines that are uncorrectable (R319) -/

/-- The destination of a word lies in an uncorrectable line. -/
def State.badAt (s : State) (c : Copy) (x : CWord) : Bool :=
  if isScratch x.dst then false
  else match s.place c.org.group x.dst (.copy true) with
    | .ok (.dev pa) => s.badLines.contains (pa / 256)
    | _ => false

/-- The words that fill a line of the destination, in its order, where the copy covers it whole and has written none of it. -/
def Copy.lineWords (c : Copy) (line : Nat) : Option (List CWord) :=
  let l := (List.range 64).filterMap fun k => c.words.find? fun x => x.dst = 256 * line + 4 * k
  if decide (l.length = 64) && l.all fun x => !c.done x.n then some l else none

/-- A line written whole: its bytes read word by word, and its error cleared. -/
def State.moveWhole (s : State) (c : Copy) (line : Nat) (l : List CWord) : Except VaErr State :=
  match l.mapM (s.wordBytes c) with
  | .error e => .error e
  | .ok bs => s.writeSide c.org false (256 * line) bs.flatten

/-! ## The engine at work -/

/-- A word as the copy ends: moved unless it has been, with its whole line where the line is uncorrectable and the copy covers it. -/
def State.endWord (s : State) (c : Copy) (msg : Bool) (x : CWord) : Except VaErr (State × Copy) :=
  if c.done x.n then .ok (s, c)
  else match (if s.badAt c x then c.lineWords (x.dst / 256) else none) with
  | some l => (match s.moveWhole c (x.dst / 256) l with | .ok t => .ok (t, c.finish (l.map (·.n))) | .error e => .error e)
  | none => match s.moveWord c msg x with | .ok t => .ok (t, c.finish [x.n]) | .error e => .error e

/-- The engine comes to an entry of the table at a moment of its own: it reads it, or leaves it, freely. -/
def State.touchEntry (q : State × Copy) (i : Nat) : State × Copy :=
  let d := q.1.draw
  if d.1 && (q.2.entry i).isNone then (match d.2.readEntry q.2 i with | .ok e => (d.2, q.2.keepEntry i e) | .error _ => (d.2, q.2)) else (d.2, q.2)

/-- The engine comes to a word at a moment of its own: it moves it, reads it alone, or leaves it, freely (R197). Where that cannot be done yet, it
leaves it. -/
def State.touchWord (q : State × Copy) (x : CWord) : State × Copy :=
  let c := q.2
  if c.done x.n then q
  else
    let d := q.1.draw
    let e := d.2.draw
    if !d.1 then (d.2, c)
    else if e.1 then (match e.2.moveWord c false x with | .ok t => (t, c.finish [x.n]) | .error _ => (e.2, c))
    else if (c.held x.n).isSome then (e.2, c)
    else (match e.2.readWord c.org x with | .ok b => (e.2, { c with snap := (readKey x.n, b) :: c.snap }) | .error _ => (e.2, c))

/-- The engine at work at some moment before the landing: entries of the table and words come to. A tagged message goes as one at its landing. -/
def State.startCopy (s : State) (c : Copy) : State × Copy :=
  let r := c.blocks.foldl State.touchEntry (s, c)
  let c := { r.2 with started := true }
  if s.copyMsg c then (r.1, c) else c.words.foldl State.touchWord (r.1, c)

/-- The rest of a copy's table, in order, up to the first entry that cannot be read or is no address. -/
def State.readTable (s : State) (c : Copy) : Copy × Option VaErr :=
  c.blocks.foldl (fun (r : Copy × Option VaErr) i =>
    if r.2.isSome || (r.1.entry i).isSome then r
    else match s.readEntry c i with
      | .ok e => (r.1.keepEntry i e, none)
      | .error e => (r.1, some e)) (c, none)

/-- All that a copy has left to do, up to the first failure. -/
def State.runCopy (s : State) (c : Copy) : State × Copy × Option VaErr :=
  let r := s.readTable c
  r.1.words.foldl (fun (q : State × Copy × Option VaErr) x =>
    if q.2.2.isSome then q
    else match q.1.endWord q.2.1 (s.copyMsg c) x with
      | .ok u => (u.1, u.2, none)
      | .error e => (q.1, q.2.1, some e)) (s, r.1, r.2)

/-! ## What a copy counts, and how it ends -/

/-- The ranges that a copy has read, and those that it has written. -/
def Copy.reads (c : Copy) : List (Nat × Nat) :=
  (c.blocks.filter fun i => (c.entry i).isSome).map (fun i => (c.entryAt i, 8)) ++
    (c.words.filter fun x => c.done x.n || (c.held x.n).isSome).filterMap fun x => x.src.map fun a => (a, 4)

def Copy.writes (c : Copy) : List (Nat × Nat) := (c.words.filter fun x => c.done x.n).map fun x => (x.dst, 4)

/-- The far-store sectors that a copy has come to between two moments, charged: each once as read, and once as written (R89, R196). -/
def State.payCopy (s : State) (c c' : Copy) : State :=
  (s.chargeSectors c.org ((vaSectors c'.reads).filter fun k => !(vaSectors c.reads).contains k)).chargeSectors c.org
    ((vaSectors c'.writes).filter fun k => !(vaSectors c.writes).contains k)

/-- Where a copy writes, and how many bytes. -/
def Copy.written (c : Copy) : List Nat × Nat := (c.words.map (·.dst), 4 * c.words.length)

/-- Every range of global addresses that a copy touches, its table's entries first. -/
def Copy.ranges (c : Copy) : List (Nat × Nat) :=
  (c.blocks.map (fun i => (c.entryAt i, 8)) ++ (c.words.filterMap fun (x : CWord) => x.src.map fun a => (a, 4)) ++ c.words.map fun (x : CWord) => (x.dst, 4)).filter
    fun p => !isScratch p.1

/-- A TST whose tile it has not yet read cannot begin. -/
def Copy.ready (c : Copy) : Bool := match c.k with | .tst _ none => false | _ => true

/-- COPY_ENGINE_START (R194, R196, R197): the engine begins, or comes to some more of the copy's words. -/
def execCopyEngineStart (n : Nat) (s : State) : Out :=
  .next (match s.copies[n]? with
    | some c =>
      if !c.ready || s.uncommitted c.org then s
      else let r := s.startCopy c; ({ r.1 with copies := setAt n r.2 r.1.copies } : State).payCopy c r.2
    | none => s)

/-- A copy that has ended leaves, and its token falls. -/
def State.endCopy (s : State) (n : Nat) (c : Copy) : State := { s with copies := dropAt n s.copies }.dropToken c.org.warp c.tok

/-- A copy ended as failed (R199). -/
def State.loseCopy (s : State) (n : Nat) (c : Copy) (cause va : Nat) : State :=
  ((s.dropLines c.org c.written.1).failStore c.org cause 4 va).endCopy n c

/-- A copy that failed: an error of memory is detected. -/
def State.failCopy (s : State) (n : Nat) (c : Copy) (cause va : Nat) : State :=
  (if cause = fABORT then s.engineMet c.org (isScratch va) va else s).loseCopy n c cause va

/-- The engine waits for a page, or finds that its request has failed. -/
def State.copyMiss (s : State) (n : Nat) (c : Copy) (va : Nat) : State :=
  let r := s.engineMiss c.org va (.copy true)
  if r.2 then r.1.failCopy n c fXLATE va else r.1

/-- COPY_LAND (R198). -/
def execCopyLand (n : Nat) (s : State) : Out :=
  .next (match s.copies[n]? with
    | some c =>
      if !c.started then s
      else match s.runCopy c with
      | (t, c', none) => (((t.payCopy c c').dropLines c.org c'.written.1).count c.org.blk 11 c'.written.2).endCopy n c
      | (_, _, some e) => if e.cause = 0 then s.copyMiss n c e.va else s
    | none => s)

/-- COPY_FAIL (R199): a fault, an abort, a refusal or a bad entry; the words already written stay written. -/
def execCopyFail (n : Nat) (s : State) : Out :=
  .next (match s.copies[n]? with
    | some c =>
      if !c.started then s
      else match s.runCopy c with
      | (t, c', some e) => if e.cause = 0 then s.copyMiss n c e.va else (t.payCopy c c').failCopy n c' e.cause e.va
      | (_, c', none) =>
        let ws := s.windows c.org.group c'.ranges
        if ws.isEmpty then s else let x := s.refused ws; x.2.failCopy n c fREFUSED x.1
    | none => s)

end Sys2Proof.Machine
end

