-- ==== Sys2Proof/Machine/Narrow.lean ====
section
/-! DEFINITION. Narrow elements, block headers (R121 to R123, R128) and the V narrow group (R153 to R157). -/

namespace Sys2Proof.Machine

/-! ## Headers and elements -/

/-- The value of an E5M3 block scale as significand and exponent; none for NaN (R122). -/
def scaleV (x : Nat) : Option (Nat × Int) :=
  if x = 255 then none else if x < 8 then some (x, -17) else some (8 + x % 8, (x / 8 : Nat) - 18)

/-- Twice the magnitudes of the regular E2M1 codes (R121). -/
def e2m1Mag : List Nat := [0, 1, 2, 3, 4, 6, 8, 12]

/-- An E2M1 code's value under a header, not yet scaled (R121). -/
def codeV (c hd : Nat) : FV := if c = 8 then E4M3.dec (hd / 256) else .num (decide (8 ≤ c)) (e2m1Mag.getD (c % 8) 0) (-1)

/-- An element's value as its unscaled format gives it; the header supplies the extra value. -/
def rawV (f : NFmt) (c hd : Nat) : FV :=
  match f with
  | .e2m1 => codeV c hd
  | .e4m3 => E4M3.dec c
  | .e5m2 => E5M2.dec c

/-- The exact value of an element under its header (R121, R122); a signalling NaN stands for the invalid case of R122. -/
def elemV (f : NFmt) (c hd : Nat) : FV :=
  match scaleV (hd % 256) with
  | none => .nan false
  | some (m, e) => mulV (rawV f c hd) (.num false m e)

/-- Bits of an element. -/
def elemBits : NFmt → Nat
  | .e2m1 => 4
  | _ => 8

/-- The block of a lane (R123). -/
def blockOf (f : NFmt) (l : Nat) : Nat := match f with | .e2m1 => l / 4 | _ => l / 8

/-- The number of blocks of a register (R123). -/
def nBlocks : NFmt → Nat
  | .e2m1 => 8
  | _ => 4

/-- The selected half of a scale register. -/
def header (hi : Bool) (x : Word) : Nat := x.toNat / (if hi then 2 ^ 16 else 1) % 2 ^ 16

/-! ## Encoding -/

/-- The candidates of R128 for a sign or both: value as a signed number at exponent `e`, and code. The regular codes stand first. -/
def candidates (hd : Nat) (e : Int) : List (Int × Nat) :=
  ([0, 1, 2, 3, 4, 5, 6, 7, 9, 10, 11, 12, 13, 14, 15, 8].filterMap fun c =>
    match elemV .e2m1 c hd with
    | .num s m q => some (scaled s m q e, c)
    | _ => none)

/-- Whether a code counts as clear in a tie (R128). -/
def clearCode (c : Nat) : Bool := decide (c % 2 = 0)

/-- The greatest candidate not above `v`, the least not below it, the greatest and least of all; earlier codes win ties. -/
def best (better : Int → Int → Bool) : List (Int × Nat) → Option (Int × Nat)
  | [] => none
  | x :: r => match best better r with | none => some x | some y => if better y.1 x.1 then some y else some x

/-- E2M1 encoding (R128) of a value in a block of header `hd`. -/
def encE2m1 (rz : Bool) (x : FV) (hd : Nat) : Nat × Exc :=
  match scaleV (hd % 256), x with
  | none, _ | _, .nan _ => (0, eIV)
  | some _, .inf s =>
    ((match best (fun a b => if s then decide (a < b) else decide (b < a)) (candidates hd (-40)) with | some y => y.2 | none => 0), eIV)
  | some _, .num s m e =>
    if m = 0 then (0, 0)
    else
      let q := min e (-40)
      let v := scaled s m e q
      let l := candidates hd q
      let lo := best (fun a b => decide (b < a)) (l.filter fun y => decide (y.1 ≤ v))
      let hi := best (fun a b => decide (a < b)) (l.filter fun y => decide (v ≤ y.1))
      match lo, hi with
      | some a, some b =>
        if a.1 = v then (a.2, 0)
        else if rz then ((if 0 < v then a.2 else b.2), eNX)
        else if v - a.1 < b.1 - v then (a.2, eNX)
        else if b.1 - v < v - a.1 then (b.2, eNX)
        else if clearCode a.2 != clearCode b.2 then ((if clearCode a.2 then a.2 else b.2), eNX)
        else ((if a.1.natAbs < b.1.natAbs then a.2 else b.2), eNX)
      | some a, none => (a.2, eOF ||| eNX)
      | none, some b => (b.2, eOF ||| eNX)
      | none, none => (0, 0)

/-- E4M3 and E5M2 encoding under a scale (R155). -/
def encScaled (f : Fmt) (m : RM) (sat : Bool) (x : FV) (sc : Nat) : Nat × Exc :=
  match scaleV sc, x with
  | none, x => (f.nan, if x = .nan false then 0 else eIV)
  | some _, .nan g => (f.nan, if g then eIV else 0)
  | some _, .inf s => (f.infBits s sat, 0)
  | some (sm, se), .num s n e =>
    if n = 0 then (f.sign s, 0)
    else if sm = 0 then (f.sign s, eUF ||| eNX)
    else f.round m sat (ratio s n e sm se)

/-- The encoding of one element of QENC. -/
def encElem (f : NFmt) (sat rz : Bool) (x : FV) (hd : Nat) : Nat × Exc :=
  let m := if rz then RM.rz else RM.rne
  match f with
  | .e2m1 => encE2m1 rz x hd
  | .e4m3 => encScaled E4M3 m sat x (hd % 256)
  | .e5m2 => encScaled E5M2 m sat x (hd % 256)

/-! ## The group -/

/-- QDEC (R154). -/
def execQdec (c : Common) (f : NFmt) (hi : Bool) (r : R3) (s : State) : Out :=
  vop (.qdec c f hi r) r.d (fun s w l =>
    let hd := header hi (r.vb s w (blockOf f l))
    let x := (r.va s w l).toNat
    let es := (List.range f.n).map fun i => to32 .rne (let v := elemV f (x / 2 ^ (elemBits f * i) % 2 ^ elemBits f) hd; (v.qty, sigExc [v]))
    (es.map (·.1), es.foldl (fun a y => a ||| y.2) 0)) s

/-- QENC (R155). -/
def execQenc (c : Common) (f : NFmt) (hi sat rz : Bool) (r : R3) (s : State) : Out :=
  vop (.qenc c f hi sat rz r) r.d (fun s w l =>
    let hd := header hi (r.vb s w (blockOf f l))
    let es := (List.range f.n).map fun i => encElem f sat rz (f32 (s.rd w (r.a.toNat + i) (r.p.lane .srcA l))) hd
    ([BitVec.ofNat 32 (es.foldr (fun y a => a * 2 ^ elemBits f + y.1) 0)], es.foldl (fun a y => a ||| y.2) 0)) s

/-- The largest finite value of a format (R156). -/
def fmaxV : NFmt → Nat
  | .e2m1 => 6
  | .e4m3 => 448
  | .e5m2 => 57344

/-- The smallest scale code whose range holds a magnitude (R156). -/
def scaleFor (f : NFmt) (amax : FV) : Nat :=
  match amax with
  | .inf _ => 0xFE
  | .num _ m e =>
    if m = 0 then 0
    else ((List.range 254).map (· + 1)).find? (fun c => match scaleV c with
      | some (sm, se) => decide (cmpV (.num false m e) (.num false (fmaxV f * sm) se) ≤ 0)
      | none => false) |>.getD 0xFE
  | .nan _ => 0xFF

/-- The magnitude of an FP32 register without its sign. -/
def absW (x : Word) : Word := x &&& 0x7FFFFFFF#32

/-- The header of 32 elements (R156). -/
def qscale (f : NFmt) (xv : Bool) (xs : List Word) : Nat :=
  let sc := if xs.any fun x => (f32 x).isNan then 0xFF
    else scaleFor f (f32 (xs.foldl (fun m x => if m.toNat < (absW x).toNat then absW x else m) 0))
  let amax := xs.foldl (fun m x => if m.toNat < (absW x).toNat then absW x else m) 0
  let ex := if xv && sc ≠ 0 && sc ≠ 0xFF then
      (match scaleV sc, f32 ((xs.find? fun x => absW x = amax).getD 0) with
       | some (sm, se), .num s m e => (E4M3.round .rne true (ratio s m e sm se)).1
       | _, .inf s => E4M3.infBits s true
       | _, _ => 0)
    else 0
  ex * 256 + sc

/-- QSCALE (R156): header `j` is written in lane j alone. -/
def execQscale (c : Common) (f : NFmt) (hi xv : Bool) (r : R2) (s : State) : Out :=
  perform (.qscale c f hi xv r) (fun w act s =>
    let per := 32 / nBlocks f
    let vals := ((lanesOf act).filter (· < nBlocks f)).map fun j =>
      let xs := ((List.range per).map (· + per * j)).flatMap fun m => (List.range f.n).map fun i =>
        s.rd w (r.a.toNat + i) (r.p.lane .srcA m)
      let h := BitVec.ofNat 16 (qscale f xv xs)
      let old := s.rd w r.d.toNat j
      (j, [if hi then h ++ old.extractLsb' 0 16 else old.extractLsb' 16 16 ++ h])
    (s.wr w r.d.toNat vals).advance w s.iss.lanes) s

/-- QXTRA (R157). -/
def execQxtra (c : Common) (op : XOp) (hi : Bool) (r : R3) (s : State) : Out :=
  vop (.qxtra c op hi r) r.d (fun s w l =>
    let a := r.va s w l
    let hd := header hi a
    match op with
    | .scl => ([(to32 .rne ((elemV .e2m1 2 hd).qty, 0)).1], 0)
    | .xval => ([(to32 .rne ((elemV .e2m1 8 hd).qty, 0)).1], 0)
    | .setx =>
      let x := f32 (r.vb s w l)
      let e := E4M3.round .rne true x.qty
      let b : Byte := BitVec.ofNat 8 e.1
      ([if hi then b ++ a.extractLsb' 0 24 else a.extractLsb' 16 16 ++ b ++ a.extractLsb' 0 8], e.2 ||| sigExc [x])) s

end Sys2Proof.Machine
end

