-- ==== Sys2Proof/Machine/Matrix.lean ====
section
/-! DEFINITION. The matrix engine and per-row adapters (R222 to R249): operands, the chains of R132 and R134, entry and commit, the shelf and its
fills, and the instructions on accumulators. The synchronised issue of MMA, MMALR and ADAPT is Converge.lean's. -/

namespace Sys2Proof.Machine

/-! ## Dense views -/

/-- `n` values from key `a` on of data whose keys are not below `a`. -/
def denseFrom {α : Type} (d : α) : Nat → Nat → Sparse α → List α
  | 0, _, _ => []
  | n + 1, a, [] => d :: denseFrom d n (a + 1) []
  | n + 1, a, (j, v) :: r => if j = a then v :: denseFrom d n (a + 1) r else d :: denseFrom d n (a + 1) ((j, v) :: r)

/-- `n` values from key `a` on. -/
def dense {α : Type} (d : α) (a n : Nat) (m : Sparse α) : List α := denseFrom d n a (m.filter fun x => decide (a ≤ x.1))

/-- `n` rows of `w` items. -/
def rowsOf {α : Type} (w n : Nat) (l : List α) : List (List α) := (List.range n).map fun r => (l.drop (w * r)).take w

/-! ## Operands (R224, R225) -/

/-- K of a kind. -/
def kOf : MMKind → Nat
  | .bf16 | .f16 => 128
  | .f8 | .i8 _ _ _ => 256
  | .e2m1 => 512

/-- FORMAT codes that a kind accepts. -/
def kindTakes (k : MMKind) (f : Nat) : Bool :=
  match k with
  | .bf16 => decide (f = 1)
  | .f16 => decide (f = 2)
  | .f8 => decide (f = 3) || decide (f = 4)
  | .e2m1 => decide (f = 5)
  | .i8 _ _ _ => decide (f = 6)

/-- A tile as an operation reads it: its record and its rows. -/
structure TileView where
  trec : List Byte
  rows : List (List Byte)
  heads : List (List Byte)
  deriving DecidableEq, Repr

def Entry.view (e : Entry) : TileView :=
  { trec := e.trec, rows := rowsOf 256 128 (dense 0 0 32768 e.img), heads := rowsOf 32 128 (dense 0 32768 4096 e.img) }

/-- A 16-bit number at an offset. -/
def half16 (l : List Byte) (o : Nat) : Nat := (l.getD o 0).toNat + 256 * (l.getD (o + 1) 0).toNat

/-- elem of R225 as a float. -/
def elemF (t : List Byte) (row heads : List Byte) (k : Nat) : FV :=
  let hd := half16 heads (2 * (k / 32))
  let c8 := (row.getD k 0).toNat
  match tFormat t with
  | 1 => BF16.dec (half16 row (2 * k))
  | 2 => F16.dec (half16 row (2 * k))
  | 3 => if tScaled t then elemV .e4m3 c8 hd else E4M3.dec c8
  | 4 => if tScaled t then elemV .e5m2 c8 hd else E5M2.dec c8
  | _ => elemV .e2m1 ((row.getD (k / 2) 0).toNat / (if k % 2 = 0 then 1 else 16) % 16) hd

/-- The float values of a tile's rows. -/
def TileView.floats (v : TileView) (n : Nat) : List (List FV) :=
  (v.rows.zip v.heads).map fun x => (List.range n).map (elemF v.trec x.1 x.2)

/-- The integer values of a tile's rows (R132). -/
def TileView.ints (v : TileView) (uns : Bool) : List (List Int) :=
  v.rows.map fun r => r.map fun b => if uns then (b.toNat : Int) else b.toInt

/-! ## Chains -/

/-- An element with the exceptions of its steps. -/
abbrev Elem := Word × BitVec 8

/-- A float step of R134 with an exact product. -/
def fStep (x : Elem) (p : FV) : Elem := let r := to32 .rne (addQ .rne p (f32 x.1)); (r.1, x.2 ||| r.2.zeroExtend 8)

/-- An integer step of R132. -/
def iStep (sat : Bool) (x : Elem) (p : Int) : Elem :=
  let t := x.1.toInt + p
  if sat then (clampS t, x.2 ||| (if (clampS t).toInt = t then 0 else eSAT)) else (BitVec.ofInt 32 t, x.2)

def fChain (x : Elem) (a b : List FV) : Elem := (a.zip b).foldl (fun x p => fStep x (mulV p.1 p.2)) x

def iChain (sat : Bool) (x : Elem) (a b : List Int) : Elem := (a.zip b).foldl (fun x p => iStep sat x (p.1 * p.2)) x

/-- The main chains of a row of the accumulator (R241). -/
def mainRows (k : MMKind) (a b : TileView) (acc : List (List Word)) : List (List Elem) :=
  match k with
  | .i8 sat ua ub =>
    let bs := b.ints ub
    (acc.zip (a.ints ua)).map fun r => (r.1.zip bs).map fun c => iChain sat (c.1, 0) r.2 c.2
  | _ =>
    let bs := b.floats (kOf k)
    (acc.zip (a.floats (kOf k))).map fun r => (r.1.zip bs).map fun c => fChain (c.1, 0) r.2 c.2

/-! ## Accumulators (R226, R235) -/

/-- The rows of an accumulator. -/
def Block.accRows (b : Block) (a : Nat) : List (List Word) := rowsOf 128 128 (dense 0 (16384 * a) 16384 b.acc)

/-- An accumulator replaced. -/
def accPut (m : Sparse Word) (a : Nat) (l : List Word) : Sparse Word :=
  (m.filter fun x => decide (x.1 < 16384 * a)) ++ ((l.take 16384).zipIdx (16384 * a)).filterMap (fun x => if x.1 = 0 then none else some (x.2, x.1)) ++
    m.filter fun x => decide (16384 * (a + 1) ≤ x.1)

/-- Rows written to an accumulator, their exceptions joined to its flags (R131, R227). -/
def Block.putAcc (b : Block) (a : Nat) (rows : List (List Elem)) : Block :=
  let l := rows.flatten
  { b with acc := accPut b.acc a (l.map (·.1)), aflags := supd 0 a (fun f => l.foldl (fun f x => f ||| x.2) f) b.aflags }

/-- The fields of a side row that fix its adapter (R235). -/
structure Side where
  bound : Nat
  kpos : Nat
  failed : Bool
  deriving DecidableEq, Repr

def sideOf (row : List Word) : Side :=
  { bound := (row.getD 64 0).toNat, kpos := (row.getD 65 0).toNat, failed := decide (row.getD 66 0 ≠ 0) }

def Block.side (b : Block) (a i : Nat) : Side := sideOf (dense 0 (16384 * a + 128 * i) 128 b.acc)

/-! ## Operations -/

def Mat.acc (m : Mat) : Nat := match m.k with | .mma _ a _ _ => a | .mmalr _ a _ _ _ => a | .adapt a _ _ => a

/-- The side accumulator. -/
def Mat.side (m : Mat) : Option Nat := match m.k with | .mma _ _ _ _ => none | .mmalr _ a _ _ _ => some (a + 1) | .adapt _ a _ => some a

/-- The accumulators an operation reads or writes. -/
def Mat.touches (m : Mat) : List Nat := m.acc :: m.side.toList

def Mat.isLr (m : Mat) : Bool := match m.k with | .mmalr _ _ _ _ _ => true | _ => false

/-- Operations on a common accumulator. -/
def Mat.meets (m n : Mat) : Bool := decide (m.org.blk = n.org.blk) && m.touches.any n.touches.contains

/-- Operations on an accumulator of the same block entered before operation `m` and not committed. -/
def State.before (s : State) (m : Mat) : List Mat := (s.mats.takeWhile fun x => decide (x.id ≠ m.id)).filter fun x => x.entered && x.meets m

/-- What an MMALR leaves of a side row (R241). -/
def Side.step (x : Side) (k id : Nat) (fails : Bool) : Side :=
  { bound := if x.kpos = 0 then id else x.bound, kpos := (x.kpos + k) % 2 ^ 32, failed := x.failed || fails }

/-- A row's id (R236). -/
def idOf (ids : List Nat) (i : Nat) : Nat := ids.getD i 0

/-- An operation writes a side row otherwise than as an MMALR's side. -/
def Mat.spoils (m : Mat) (a : Nat) : Bool := decide (m.acc = a)

/-- A row is done: computed, its replay included (R227). -/
def Mat.rowDone (m : Mat) (i : Nat) : Bool := m.seen.contains i && !m.held.contains i

/-- The engine has started an operation. -/
def Mat.begun (m : Mat) : Bool := m.slow.isSome

/-- The side row that operation `m` finds at row `i`, once every earlier operation has done that row (R227, R242). -/
def State.sideAt (s : State) (m : Mat) (i : Nat) : Option Side :=
  match m.side, s.block? m.org.blk with
  | some a, some b =>
    let es := s.before m
    if es.any fun e => !e.rowDone i || e.spoils a then none
    else some (es.foldl (fun x e => match e.k with
      | .mmalr k c _ _ ids => if c + 1 = a then x.step (kOf k) (idOf ids i) (e.failed.contains i) else x
      | _ => x) (b.side a i))
  | _, _ => none

/-- A shelf tag but for group and table: id, slice, column block. -/
abbrev Tag3 := Nat × Nat × Nat

/-- The down slices of a row's steps (R241). -/
def downTags (g kpos k : Nat) : List Tag3 := (List.range ((kpos + k - 1) / 128 - kpos / 128 + 1)).map fun j => (g, kpos / 128 + j, 0xFFFF)

/-- The adapter data that a row needs (R237). -/
def Mat.needs (m : Mat) (i : Nat) (x : Side) : List Tag3 :=
  match m.k with
  | .mma _ _ _ _ => []
  | .mmalr k _ _ _ ids =>
    let g := if x.kpos = 0 then idOf ids i else x.bound
    if g = 0 || x.failed then [] else downTags g x.kpos (kOf k)
  | .adapt _ _ cb => if x.bound = 0 || x.failed then [] else [(x.bound, 0xFFFF, cb)]

def State.adtb (s : State) (ctx : Nat) : Nat := ((s.ctx? ctx).map (·.adtb)).getD 0

def Shelf.tag (e : Shelf) : Tag3 := (e.g, e.slice, e.cb)

def Mat.has (m : Mat) (t : Tag3) : Option Shelf := m.took.find? fun e => e.tag = t

/-- A fill in flight for a tag. -/
def State.filling (s : State) (cluster group adtb : Nat) (t : Tag3) : Bool :=
  s.fills.any fun f => decide (f.cluster = cluster) && decide (f.group = group) && decide (f.adtb = adtb) && decide ((f.g, f.slice, f.cb) = t)

/-- A fill started unless one is in flight (R234, R237). -/
def State.startFill (s : State) (o : Origin) (adtb : Nat) (t : Tag3) (op : Option Nat) : State :=
  if s.filling (o.core / 8) o.group adtb t then s
  else { s with fills := s.fills ++ [{ cluster := o.core / 8, group := o.group, adtb := adtb, g := t.1, slice := t.2.1, cb := t.2.2, op := op,
                                       org := o, started := false, tent := [], data := [] }] }

/-- A live shelf entry of a tag. -/
def State.onShelf (s : State) (cluster group adtb : Nat) (t : Tag3) : Option Shelf :=
  (s.cluster cluster).shelf.find? fun e => !e.dying && decide (e.group = group) && decide (e.adtb = adtb) && decide (e.tag = t)

/-- An entered operation uses an entry. -/
def State.shelfUsed (s : State) (e : Shelf) : Bool := s.mats.any fun m => m.entered && m.took.contains { e with dying := false }

/-- An entry used: the shelf is kept in order of use, the latest first (R234). -/
def State.useShelf (s : State) (c : Nat) (e : Shelf) : State := s.onCluster c fun k => { k with shelf := e :: k.shelf.erase e }

/-- An entry evicted: every entry that no entered operation uses and that was used before it went first (R234). -/
def State.evictShelf (s : State) (c : Nat) (e : Shelf) : State :=
  s.onCluster c fun k => { k with shelf := k.shelf.takeWhile (fun x => x ≠ e) ++ (k.shelf.dropWhile fun x => x ≠ e).filter s.shelfUsed }

/-- One tag sought for an operation: taken, or missing with a fill in flight. An unused entry may have been evicted. -/
def State.seek (s : State) (m : Mat) (t : Tag3) : State × Mat :=
  if (m.has t).isSome then (s, m)
  else
    let c := m.org.core / 8
    match s.onShelf c m.org.group m.adtb t with
    | none => (s.startFill m.org m.adtb t (some m.id), m)
    | some e =>
      let d := s.draw
      if s.shelfUsed e || d.1 then (d.2.useShelf c e, { m with took := m.took ++ [e] })
      else ((d.2.evictShelf c e).startFill m.org m.adtb t (some m.id), m)

/-- All that a row needs sought; whether the operation has it. -/
def State.seekAll (s : State) (m : Mat) (ts : List Tag3) : State × Mat × Bool :=
  let r := ts.foldl (fun (r : State × Mat) t => r.1.seek r.2 t) (s, m)
  (r.1, r.2, ts.all fun t => (r.2.has t).isSome)

def State.putMat (s : State) (m : Mat) : State := { s with mats := s.mats.map fun x => if x.id = m.id then m else x }

/-- The engine can run a row of an operation that has entered: it has not reached it, and every earlier operation has done it (R227). -/
def State.canRun (s : State) (m : Mat) (i : Nat) : Bool :=
  !m.seen.contains i && if m.side.isNone then (s.before m).all (·.rowDone i) else (s.sideAt m i).isSome

/-- A held row's data has come (R237). -/
def State.canReplay (s : State) (m : Mat) (i : Nat) : Bool :=
  m.held.contains i && match s.sideAt m i with | some x => (m.needs i x).all fun t => (m.has t).isSome | none => false

def rows128 : List Nat := List.range 128

/-- The engine's turn comes to an operation (R223, R237): no operation that entered its core before has a row left that it can run, and, unless it has been
started, no held row waits to be replayed. -/
def State.matTurn (s : State) (m : Mat) : Bool :=
  let on (x : Mat) : Bool := x.entered && decide (x.org.core = m.org.core)
  !(s.mats.takeWhile fun x => decide (x.id ≠ m.id)).any (fun x => on x && rows128.any (s.canRun x)) &&
    (m.begun || !s.mats.any fun x => on x && rows128.any (s.canReplay x))

/-- The operation runs each row that it has reached: a row whose data is absent is held back (R237). -/
def State.examine (s : State) (m : Mat) : State × Mat :=
  if m.side.isNone then
    let m' : Mat := { m with seen := m.seen ++ rows128.filter (s.canRun m) }
    (s.putMat m', m')
  else
    let r := (List.range 128).foldl (fun (r : State × Mat) i =>
      if r.2.seen.contains i then
        -- a held row whose fill has gone with its context starts another
        (if r.2.held.contains i then (match r.1.sideAt r.2 i with
          | some x => let q := (r.2.needs i x).foldl (fun (s : State) t =>
              if (r.2.has t).isSome || (s.onShelf (m.org.core / 8) m.org.group m.adtb t).isSome then s
              else s.startFill m.org m.adtb t (some m.id)) r.1; (q, r.2)
          | none => r) else r)
      else match r.1.sideAt r.2 i with
      | none => r
      | some x =>
        let q := r.1.seekAll r.2 (r.2.needs i x)
        (q.1, { q.2.1 with seen := q.2.1.seen ++ [i], held := if q.2.2 then q.2.1.held else q.2.1.held ++ [i] })) (s, m)
    (r.1.putMat r.2, r.2)

/-! ## Entry (R223, R240) -/

/-- The guard of the word of an instruction in lanes that wait at it. -/
def State.guardsOf (w : Warp) (word : Word64) (m : Mask) : Mask :=
  match decGuard word with
  | some (.onTrue p) => maskOf fun l => m.getLsbD l && w.pred p.toNat l
  | some (.onFalse p) => maskOf fun l => m.getLsbD l && !w.pred p.toNat l
  | _ => m

/-- A matrix operation that does not enter: its readers end. -/
def State.dropMat (s : State) (m : Mat) : State :=
  let rs := s.readers.filter fun r => decide (r.ask = .mat m.id)
  let s : State := { s with mats := s.mats.filter fun x => x.id ≠ m.id,
                            cgroups := s.cgroups.map fun g => if g.id = m.cg then { g with entries := smap Entry.init (fun (e : Entry) =>
                              { e with waiters := e.waiters.filter fun x => x.ask ≠ .mat m.id }) g.entries } else g }
  ((rs.mergeSort fun a b => decide (a.name ≤ b.name))).foldl (fun s r => s.endReader r) s

/-- A trap of R240 step 4: precise in the lanes whose guard holds; the others go on. -/
def State.trapMat (s : State) (m : Mat) (cause : Nat) : State :=
  match s.warp? m.org.warp with
  | none => s.dropMat m
  | some w =>
    let g := State.guardsOf w m.word m.lanes
    ((s.trapParked w.id g tABORT cause 0 m.word).passParked w.id (m.lanes &&& ~~~g)).dropMat m

/-- TILE-TYPE (R224). -/
def State.typeBad (s : State) (m : Mat) : Bool :=
  match m.k with
  | .mma k _ a b | .mmalr k _ a b _ => !(kindTakes k (tFormat (s.entry m.cg a).trec) && kindTakes k (tFormat (s.entry m.cg b).trec))
  | .adapt _ _ _ => false

/-- A core's engine has started an operation that has not committed. -/
def State.engineBusy (s : State) (core : Nat) : Bool := s.mats.any fun m => m.begun && decide (m.org.core = core)

/-- The mode of a core's engine for operations that are not governed (R231): it is chosen as each operation starts, and with none started it follows the alarm. -/
def State.narrow (s : State) (core : Nat) : Bool :=
  if s.engineBusy core then ((s.core core).narrow).getD s.alarm.isSome else s.alarm.isSome

/-- MATRIX_ENGINE_ENTRY (R223, R240): operation `n` is checked once its tiles are readable and enters behind the earlier ones of its warp. -/
def execMatrixEngineEntry (n : Nat) (s : State) : Out :=
  .next (match s.mats[n]? with
    | none => s
    | some m =>
      if m.entered || !m.readyA || !m.readyB || s.uncommitted m.org then s
      else if m.lanes = 0#32 then s.dropMat m
      else if m.bad then s.trapMat m aFAULT
      else if s.typeBad m then s.trapMat m aTYPE
      else if (s.mats.take n).any fun x => !x.entered && decide (x.org.warp = m.org.warp) then s
      else
        let s := s.passParked m.org.warp m.lanes
        { s with mats := (s.mats.filter fun x => x.id ≠ m.id) ++ [{ m with entered := true, lanes := 0#32 }] })

/-! ## Results -/

/-- A BF16 value in a shelf entry's data. -/
def bf (l : List Byte) (o : Nat) : FV := BF16.dec (half16 l o)

/-- RANK and ALPHA of a table entry. -/
def adRank (t : List Byte) : Nat := field t 16 1
def adAlpha (t : List Byte) : FV := F32.dec (field t 20 4)

/-- The side chain of one column of a row (R241): the steps whose slice has the rank for it. -/
def sideChain (m : Mat) (g kpos q : Nat) (a : List FV) (x : Elem) : Elem :=
  a.zipIdx.foldl (fun x p =>
    let j := kpos + p.2
    match m.has (g, j / 128, 0xFFFF) with
    | some e => let r := adRank e.tent; if q < r then fStep x (mulV p.1 (bf e.data (2 * r * (j % 128) + 2 * q))) else x
    | none => x) x

/-- The side row after MMALR's step (R238, R241). -/
def sideRow (m : Mat) (k : Nat) (ids : List Nat) (i : Nat) (a : List FV) (row : List Word) : List Elem :=
  let x := sideOf row
  let fails := m.failed.contains i
  let y := x.step k (idOf ids i) fails
  let on := decide (y.bound ≠ 0) && !y.failed
  row.zipIdx.map fun p =>
    if p.2 < 64 then (if on then sideChain m y.bound x.kpos p.2 a (p.1, 0) else (p.1, 0))
    else if p.2 = 64 then (BitVec.ofNat 32 y.bound, 0)
    else if p.2 = 65 then (BitVec.ofNat 32 y.kpos, 0)
    else if p.2 = 66 then (if fails then 1 else p.1, 0)
    else (p.1, 0)

/-- ADAPT's steps on one row of the output (R242). -/
def adaptRow (m : Mat) (cb i : Nat) (side row : List Word) : List Elem :=
  let x := sideOf side
  if x.bound = 0 || x.failed || m.failed.contains i then row.map fun v => (v, 0)
  else match m.has (x.bound, 0xFFFF, cb) with
  | none => row.map fun v => (v, 0)
  | some e =>
    let ts := (List.range (adRank e.tent)).map fun q =>
      let p := mulQ (f32 (side.getD q 0)) (adAlpha e.tent)
      let r := BF16.round .rne false p.1
      (BF16.dec r.1, p.2 ||| r.2)
    let fl := ts.foldl (fun f t => f ||| t.2.zeroExtend 8) (0 : BitVec 8)
    row.zipIdx.map fun v => ts.zipIdx.foldl (fun x t => fStep x (mulV t.1.1 (bf e.data (256 * t.2 + 2 * v.2)))) (v.1, fl)

/-- The block as the operation's commit leaves it. -/
def State.result (s : State) (m : Mat) (b : Block) : Block :=
  match m.k with
  | .mma k a ta tb => b.putAcc a (mainRows k (s.entry m.cg ta).view (s.entry m.cg tb).view (b.accRows a))
  | .mmalr k a ta tb ids =>
    let va := (s.entry m.cg ta).view
    let main := mainRows k va (s.entry m.cg tb).view (b.accRows a)
    let side := ((b.accRows (a + 1)).zip (va.floats (kOf k))).zipIdx.map fun r => sideRow m (kOf k) ids r.2 r.1.2 r.1.1
    (b.putAcc a main).putAcc (a + 1) side
  | .adapt a sa cb => b.putAcc a (((b.accRows sa).zip (b.accRows a)).zipIdx.map fun r => adaptRow m cb r.2 r.1.1 r.1.2)

/-- The engine of a core runs in column passes: a column has failed with no live spare (R230). -/
def Core.passes (c : Core) : Bool := decide (4 < c.deadCol.length)

/-- The engine of a core runs narrowed for a context (R230 to R232). -/
def State.narrowed (s : State) (core : Nat) (governed : Bool) : Bool := (s.narrow core && !governed) || (s.core core).passes

/-- The physical column that carries a logical column; 0 in the map stands for its own number. -/
def Core.col (c : Core) (l : Nat) : Nat := let p := sget 0 l c.colmap; if p = 0 then l else p

/-- The carriers of the two passes after the fifth dead column (R230): those of logical columns 0 to 63, a dead one replaced by the lowest live column
not otherwise in use. -/
def Core.passCols (c : Core) : List Nat :=
  let want := (List.range 64).map c.col
  want.foldl (fun l p =>
    if c.deadCol.contains p then l ++ (((List.range 132).filter fun q => !c.deadCol.contains q && !want.contains q && !l.contains q).take 1) else l ++ [p]) []

/-- The carriers under the alarm (R231): the 64 lowest live physical columns that carry a logical column. -/
def Core.alarmCols (c : Core) : List Nat :=
  ((List.range 132).filter fun p => !c.deadCol.contains p && (List.range 128).any fun l => decide (c.col l = p)).take 64

/-- The physical columns that compute an operation, in one pass or in two. -/
def State.carriers (s : State) (core : Nat) (governed : Bool) : List Nat :=
  let c := s.core core
  if c.passes then c.passCols else if s.narrow core && !governed then c.alarmCols else (List.range 128).map c.col

/-- Engine cycles of an operation (R224, R242): twice as many where it runs in two passes. An ADAPT takes as many again for each held row replayed. -/
def Mat.cycles (m : Mat) : Nat :=
  (match m.k with | .adapt _ _ _ => (m.took.foldl (fun n e => max n (adRank e.tent)) 0) * (1 + m.replays) | _ => 256) * (if m.slow = some true then 2 else 1)

/-- An operation starts in the mode of the moment (R231). -/
def State.begin (s : State) (m : Mat) : State × Mat :=
  if m.begun then (s, m)
  else
    let k := m.org.core
    let m' : Mat := { m with slow := some ((s.alarm.isSome && !((s.ctx? m.org.ctx).map (·.governed)).getD false) || (s.core k).passes) }
    ((s.onCore k fun c => { c with narrow := some s.alarm.isSome }).putMat m', m')

/-- An operation commits (R227, R228): its readers end, its shelf entries are released, and the engine is between operations. -/
def State.commit (s : State) (m : Mat) : State :=
  ((((s.onBlock m.org.blk (s.result m)).count m.org.blk 5 m.cycles).dropMat m).sweepShelf).onCore m.org.core fun c => { c with narrow := some s.alarm.isSome }

/-- MATRIX_COMMIT (R223, R227, R237): in its turn operation `n` runs the rows it has reached, and commits when every row is done and it is the first on its
accumulators. While the concordance is rewritten the engine starts no work (R229). -/
def execMatrixCommit (n : Nat) (s : State) : Out :=
  .next (match s.mats[n]? with
    | none => s
    | some m =>
      if !m.entered || (s.core m.org.core).colRewrite || !s.matTurn m then s
      else
        let b := s.begin m
        let r := b.1.examine b.2
        if decide (r.2.seen.length = 128) && r.2.held.isEmpty && (r.1.before r.2).isEmpty then r.1.commit r.2 else r.1)

/-- ADAPTER_ROW_REPLAY (R237): a held row whose data has come is computed. -/
def execAdapterRowReplay (n row : Nat) (s : State) : Out :=
  .next (match s.mats[n]? with
    | none => s
    | some m =>
      if !(m.entered && m.held.contains row) || (s.core m.org.core).colRewrite then s
      else match s.sideAt m row with
      | none => s
      | some x =>
        let r := s.seekAll m (m.needs row x)
        if r.2.2 then (r.1.putMat { r.2.1 with held := r.2.1.held.erase row, replays := r.2.1.replays + 1 }).count m.org.blk 6 1 else r.1.putMat r.2.1)

/-- COLUMN_REWRITE_DONE (R229): the engine starts work again. -/
def execColumnRewriteDone (core : Nat) (s : State) : Out := .next (s.onCore core fun c => { c with colRewrite := false })

/-! ## Fills (R233, R234, R238) -/

/-- A table entry that is not bad. -/
def adOk (t : List Byte) : Bool :=
  let r := adRank t
  decide (field t 17 3 = 0) && (decide (r = 8) || decide (r = 16) || decide (r = 32) || decide (r = 64)) && decide (field t 0 8 % 16 = 0) &&
    decide (field t 8 8 % 256 = 0) && decide (field t 24 4 % 16 = 0) && decide (2 * r ≤ field t 24 4) && decide (field t 28 4 % 256 = 0)

/-- The sources of a fill under a table entry. -/
def fillSpans (t : List Byte) (slice cb : Nat) : List (Nat × Nat) :=
  let r := adRank t
  if cb = 0xFFFF then (List.range 128).map fun j => (field t 0 8 + (128 * slice + j) * field t 24 4, 2 * r)
  else (List.range r).map fun q => (field t 8 8 + q * field t 28 4 + 256 * cb, 256)

/-- The place of a fill's table entry. -/
def Fill.place (f : Fill) : Nat := f.adtb + 32 * f.g

/-- The bytes of several sources. -/
def State.gather (s : State) (g : Nat) (l : List (Nat × Nat)) : Except VaErr (List Byte) :=
  l.foldlM (init := []) fun acc p => do
    let b ← s.readVa g p.1 p.2 (.copy false)
    pure (acc ++ b)


/-- Bytes as the start or the landing found them, freely by aligned 8-byte word; `base` numbers the free bits. -/
def mix8 (base : Nat) (old new : List Byte) : List Byte :=
  if old.length ≠ new.length || old = new then new
  else (old.zip new).zipIdx.map fun x => if Config.freeBit (base + x.2 / 8) then x.1.1 else x.1.2

/-- What a fill brings: the table entry and the data. -/
def Fill.fetch (f : Fill) (s : State) : Except VaErr (List Byte × List Byte) := do
  let b ← s.readVa f.group f.place 32 (.copy false)
  let t := mix8 s.free f.tent b
  if !adOk t then throw { cause := fDESC, va := f.place }
  else
    let d ← s.gather f.group (fillSpans t f.slice f.cb)
    pure (t, if t = f.tent then mix8 (s.free + 4) f.data d else d)

/-- What a fill reads, the data once its table entry is good. -/
def Fill.sources (f : Fill) (s : State) : List (Nat × Nat) :=
  (f.place, 32) :: match s.readVa f.group f.place 32 (.copy false) with
    | .ok b => let t := mix8 s.free f.tent b; if adOk t then fillSpans t f.slice f.cb else []
    | .error _ => []

/-- The far-store sectors that a fill has read when it fails at an address, charged (R89). -/
def Fill.pay (f : Fill) (s0 : State) (va : Nat) (s : State) : State :=
  s.chargeSectors f.org (vaSectors ((f.sources s0).takeWhile fun p => decide (va < p.1) || decide (p.1 + p.2 ≤ va)))

/-- The fetcher's first look: the table entry, then the data it names, as they stand; what cannot be read yet is left. -/
def Fill.look (f : Fill) (s : State) : Fill :=
  let t := match s.readVa f.group f.place 32 (.copy false) with | .ok b => b | .error _ => []
  let d := if t.isEmpty || !adOk t then [] else match s.gather f.group (fillSpans t f.slice f.cb) with | .ok b => b | .error _ => []
  { f with started := true, tent := t, data := d }

/-- A later look: each aligned 8-byte word as it was found before or as it stands now, freely. -/
def Fill.again (f : Fill) (s : State) : Fill := match f.fetch s with | .ok (t, d) => { f with tent := t, data := d } | .error _ => f

/-- ADAPTER_FILL_START (R234): the fetcher reads, for the first time once the causing warp's earlier stores are acknowledged, and at any moment from
then until the fill lands. -/
def execAdapterFillStart (n : Nat) (s : State) : Out :=
  .next (match s.fills[n]? with
    | none => s
    | some f =>
      if f.started then { s with fills := setAt n (f.again s) s.fills, free := s.free + 2 ^ 20 }
      else if s.owes f.org || s.uncommitted f.org then s
      else { s with fills := setAt n (f.look s) s.fills })

/-- Granules of an entry (R234). -/
def Shelf.granules (e : Shelf) : Nat := max 1 (256 * adRank e.tent / 4096)

/-- Unused entries dropped, the least recently used first (R234), until the granules suffice. -/
def State.fitShelf (s : State) (c : Nat) : Nat → State
  | 0 => s
  | k + 1 =>
    let l := (s.cluster c).shelf
    if l.foldl (fun n e => n + e.granules) 0 ≤ 1024 then s
    else match l.reverse.find? fun e => !s.shelfUsed e with
    | none => s
    | some e => (s.onCluster c fun x => { x with shelf := x.shelf.erase e }).fitShelf c k

/-- Whether a held row of an operation waits for a tag. -/
def State.waitsFor (s : State) (m : Mat) (f : Fill) (i : Nat) : Bool :=
  m.entered && decide (m.org.core / 8 = f.cluster) && decide (m.org.group = f.group) && decide (m.adtb = f.adtb) && m.held.contains i &&
    (match s.sideAt m i with | some x => (m.needs i x).contains (f.g, f.slice, f.cb) | none => false)

/-- The number by which a fill asks for pages: one instruction may have several in flight. -/
def Fill.asks (f : Fill) : Nat := 2 ^ 66 + ((f.org.seq * 2 ^ 16 + f.g) * 2 ^ 16 + f.slice) * 2 ^ 16 + f.cb

/-- The engine's miss, or the end of a page's wait as a failure. -/
def State.fillMiss (s : State) (f : Fill) (va : Nat) : State × Bool := s.engineMiss { f.org with group := f.group, seq := f.asks } va (.copy false)

/-- A fill has landed: the entry stands on the shelf, and every operation with a row that waits for it has it. -/
def State.fillLand (s : State) (n : Nat) (f : Fill) (t d : List Byte) : State :=
  let e : Shelf := { group := f.group, adtb := f.adtb, g := f.g, slice := f.slice, cb := f.cb, tent := t, data := d, dying := false }
  let s0 := s
  let s : State := { s with fills := dropAt n s.fills, free := s.free + 2 ^ 20,
                            mats := s.mats.map (fun (m : Mat) => if (List.range 128).any (s0.waitsFor m f) && (m.has e.tag).isNone then
                              { m with took := m.took ++ [e] } else m) }
  let other (x : Shelf) : Bool := x.dying || decide (x.tag ≠ e.tag) || decide (x.group ≠ e.group) || decide (x.adtb ≠ e.adtb)
  let s := s.onCluster f.cluster fun c => { c with shelf := e :: c.shelf.filter other }
  s.fitShelf f.cluster (s.cluster f.cluster).shelf.length

/-- A fill has failed (R238): the rows that wait for it go on without their adapter step. -/
def State.loseFill (s : State) (n : Nat) (f : Fill) (cause va : Nat) : State :=
  let s0 := s
  let s : State := { s with fills := dropAt n s.fills, free := s.free + 2 ^ 20,
                            mats := s.mats.map (fun (m : Mat) =>
                              let l := (List.range 128).filter (s0.waitsFor m f); { m with held := m.held.filter fun i => !l.contains i, failed := m.failed ++ l }) }
  if f.op.isNone then s else s.failStore f.org cause 16 va

/-- A fill that met a failure: an error of memory is detected. -/
def State.fillFail (s : State) (n : Nat) (f : Fill) (cause va : Nat) : State :=
  (if cause = fABORT then s.detectVa f.group va f.cluster 0xFF else s).loseFill n f cause va

/-- ADAPTER_FILL_LANDS (R234, R237). -/
def execAdapterFillLands (n : Nat) (s : State) : Out :=
  .next (match s.fills[n]? with
    | none => s
    | some f =>
      if !f.started then s
      else match f.fetch s with
      | .ok (t, d) => (s.chargeSectors f.org (vaSectors ((f.place, 32) :: fillSpans t f.slice f.cb))).fillLand n f t d
      | .error e => if e.cause = 0 then let r := s.fillMiss f e.va; if r.2 then (f.pay s e.va r.1).fillFail n f fXLATE e.va else r.1 else s)

/-- ADAPTER_FILL_FAIL (R238): a bad entry, a fault, an abort, or a refusal by another memory. -/
def execAdapterFillFail (n : Nat) (s : State) : Out :=
  .next (match s.fills[n]? with
    | none => s
    | some f =>
      if !f.started then s
      else match f.fetch s with
      | .error e =>
        if e.cause = 0 then let r := s.fillMiss f e.va; if r.2 then (f.pay s e.va r.1).fillFail n f fXLATE e.va else r.1
        else (f.pay s e.va s).fillFail n f e.cause e.va
      | .ok (t, _) =>
        let ws := s.windows f.group ((f.place, 32) :: fillSpans t f.slice f.cb)
        if ws.isEmpty then s else let x := s.refused ws; (f.pay s x.1 x.2).fillFail n f fREFUSED x.1)

/-! ## Instructions on accumulators (R239, R243 to R246) -/

/-- An accumulator that the block has been allotted. -/
def State.accOk (s : State) (w : Warp) (a : Nat) : Bool := decide (a < ((s.ctx? w.ctx).map (·.h.accs)).getD 0)

def execAclr (c : Common) (acc : BitVec 6) (s : State) : Out :=
  .next (performWith (.aclr c acc) (fun s w => s.accOk w acc.toNat)
    (fun w _ s => (s.onBlock w.blk fun b => { b with acc := accPut b.acc acc.toNat [], aflags := sput 0 acc.toNat 0 b.aflags }).advance w s.iss.lanes) s)

/-- AROW's rows and range checks: `f` acts for the lanes in range. -/
def arowLanes (w : Warp) (act : Mask) (aux : Fld) (f : List (Nat × Nat) → State → State) (s : State) : State :=
  let x (l : Nat) : Nat := (s.rd w aux.toNat l).toNat
  let bad := (lanesOf act).filter fun l => 128 ≤ x l
  let ok := (lanesOf act).filter fun l => x l < 128
  let t := f (ok.map fun l => (l, x l)) (s.takeTrap w s.iss.hnd tABORT (bad.map fun l => TrapLane.of l aRANGE 0 0 s.iss.word))
  t.advance w (s.iss.lanes &&& ~~~(maskOf bad.contains))

def execArow (c : Common) (acc : BitVec 6) (d aux : Fld) (s : State) : Out :=
  .next (performWith (.arow c acc d aux) (fun s w => s.accOk w acc.toNat)
    (fun w act s => arowLanes w act aux (fun xs s =>
      let m := ((s.block? w.blk).map (·.acc)).getD []
      s.wr w d.toNat (xs.map fun x => (x.1, (List.range 4).map fun k => sget 0 (16384 * acc.toNat + 128 * x.2 + 4 * x.1 + k) m))) s) s)

def execArowSt (c : Common) (acc : BitVec 6) (d aux : Fld) (s : State) : Out :=
  .next (performWith (.arowSt c acc d aux) (fun s w => s.accOk w acc.toNat)
    (fun w act s => arowLanes w act aux (fun xs t =>
      t.onBlock w.blk fun b => { b with acc := xs.foldl (fun m x => (List.range 4).foldl (fun m k =>
        sput 0 (16384 * acc.toNat + 128 * x.2 + 4 * x.1 + k) (s.rd w (d.toNat + k) x.1) m) m) b.acc }) s) s)

def execAflag (c : Common) (keep : Bool) (acc : BitVec 6) (d : Fld) (s : State) : Out :=
  .next (performWith (.aflag c keep acc d) (fun s w => s.accOk w acc.toNat)
    (fun w _ s =>
      let f := sget 0 acc.toNat (((s.block? w.blk).map (·.aflags)).getD [])
      let t := s.put w d.toNat 0 [f.zeroExtend 32]
      (if keep then t else t.onBlock w.blk fun b => { b with aflags := sput 0 acc.toNat 0 b.aflags }).advance w s.iss.lanes) s)

/-- The ids of the 128 rows (R236). -/
def rowIds (s : State) (w : Warp) (aux : Fld) : List Nat :=
  lanes32.flatMap fun l => [(s.rd w aux.toNat l).toNat % 65536, (s.rd w aux.toNat l).toNat / 65536,
    (s.rd w (aux.toNat + 1) l).toNat % 65536, (s.rd w (aux.toNat + 1) l).toNat / 65536]

/-- A fill for every distinct nonzero id whose entry is absent. -/
def adpf (w : Warp) (aux : Fld) (tag : Nat → Tag3) (s : State) : State :=
  let ids := (rowIds s w aux).foldl (fun l g => if g = 0 then l else insNat g l) []
  let a := s.adtb w.ctx
  let o := s.origin w s.iss.pos s.iss.lanes
  (ids.foldl (fun s g => if (s.onShelf (w.core / 8) o.group a (tag g)).isSome then s else s.startFill o a (tag g) none) s).advance w s.iss.lanes

def execAdpfD (c : Common) (n : BitVec 10) (aux : Fld) (s : State) : Out :=
  perform (.adpfD c n aux) (fun w _ s => adpf w aux (fun g => (g, n.toNat, 0xFFFF)) s) s

def execAdpfU (c : Common) (n : BitVec 10) (aux : Fld) (s : State) : Out :=
  perform (.adpfU c n aux) (fun w _ s => adpf w aux (fun g => (g, 0xFFFF, n.toNat)) s) s

/-- Every shelf entry of the clusters picked goes, or goes when its users commit; fills in flight begin anew (R246). -/
def State.invShelf (s : State) (p : Nat → Bool) : State :=
  let cs := s.clusters.map fun x => if p x.1 then (x.1, { x.2 with shelf := x.2.shelf.map fun e => { e with dying := true } }) else x
  let t : State := { s with clusters := cs, fills := s.fills.map fun f => if p f.cluster then { f with started := false, tent := [], data := [] } else f }
  t.sweepShelf

def execAdpfInv (c : Common) (s : State) : Out :=
  perform (.adpfInv c) (fun w _ s => (s.invShelf fun k => k = w.core / 8).advance w s.iss.lanes) s

def execAdpfInvd (c : Common) (s : State) : Out := perform (.adpfInvd c) (fun w _ s => (s.invShelf fun _ => true).advance w s.iss.lanes) s

/-! ## The synchronised issue's effects (R240) -/

/-- An operation created, its readers arriving: A, then B in the same step. -/
def State.newMat (s : State) (w : Warp) (k : MatK) (cg : Nat) (tiles : List Nat) : State :=
  let r := s.fresh
  let o := s.origin w s.iss.pos s.iss.lanes
  let none_ := tiles.isEmpty
  let m : Mat := { id := r.1, lanes := s.iss.lanes, bad := false, k := k, adtb := s.adtb w.ctx, org := o, cg := cg, hdr := s.iss.hdr, idx := s.iss.idx, word := s.iss.word,
                   readyA := none_, readyB := none_, seen := [], entered := false, held := [], failed := [], took := [], slow := none, replays := 0 }
  let t : State := { r.2 with mats := r.2.mats ++ [m] }
  tiles.foldl (fun t n => t.offerReader w cg n (.mat m.id) s.iss.lanes o) (t.parkHere w s.iss.lanes .tile)

/-- The body of MMA and MMALR. -/
def mmBody (ta tb : BitVec 10) (k : State → Warp → MatK) (w : Warp) (act : Mask) (s : State) : State :=
  match s.slice w ta.toNat, s.slice w tb.toNat with
  | some g, some _ => s.newMat w (k s w) g.id [ta.toNat, tb.toNat]
  | _, _ => s.trapWhole w act (tTILE, 2, 0)

def mmaIssue (c : Common) (k : MMKind) (acc : BitVec 6) (ta tb : BitVec 10) (cv : BitVec 3) (s : State) : State :=
  performWith (.mma c k acc ta tb cv) (fun s w => s.accOk w acc.toNat)
    (mmBody ta tb fun _ _ => .mma k acc.toNat ta.toNat tb.toNat) s

def mmalrIssue (c : Common) (k : MMKind) (acc : BitVec 6) (ta tb : BitVec 10) (aux : Fld) (cv : BitVec 3) (s : State) : State :=
  performWith (.mmalr c k acc ta tb aux cv) (fun s w => decide (acc.toNat % 2 = 0) && s.accOk w acc.toNat && s.accOk w (acc.toNat + 1))
    (mmBody ta tb fun s w => .mmalr k acc.toNat ta.toNat tb.toNat (rowIds s w aux)) s

def adaptIssue (c : Common) (acc sacc : BitVec 6) (cb : BitVec 10) (cv : BitVec 3) (s : State) : State :=
  performWith (.adapt c acc sacc cb cv)
    (fun s w => decide (sacc.toNat % 2 = 1) && decide (sacc ≠ acc) && s.accOk w acc.toNat && s.accOk w sacc.toNat)
    (fun w _ s => s.newMat w (.adapt acc.toNat sacc.toNat cb.toNat) 0 []) s

end Sys2Proof.Machine
end

