-- ==== Sys2Proof/Machine/Converge.lean ====
section
/-! DEFINITION. Convergence registers (R107, R108), the synchronised issue of matrix instructions (R240), and the control instructions (R109 to
R118). -/

namespace Sys2Proof.Machine

/-! ## Completion (R107) -/

/-- The lanes of a warp that have not exited. -/
def Warp.active (w : Warp) : Mask := maskOf fun l => !(laneAt w.lanes l).exited

/-- The set of a convergence register is complete. -/
def Warp.complete (w : Warp) (c : Nat) : Bool :=
  let g := sget 0 c w.signed
  decide (g ≠ 0#32) && decide (sget 0 c w.decl &&& w.active &&& ~~~g = 0#32)

/-- The word that stands at a position, as the core holds it, else as memory does. -/
def State.wordAt (s : State) (w : Warp) (a : Nat) : Word64 :=
  match s.ctx? w.ctx with
  | none => 0
  | some c => match s.codeWord c w.core a with
    | some x => x
    | none => s.codeMem c a

/-- Lanes released at one position: past a CSIGN, or into the one issue of their synchronising instruction (R107, R240). -/
def State.releaseAt (s : State) (wi c : Nat) (p : Nat × Nat) : State :=
  match s.warp? wi with
  | none => s
  | some w =>
    let here (k : Park) : Mask := maskOf fun l => let x := laneAt w.lanes l; decide ((x.hdr, x.idx) = p) && !x.exited && decide (x.park = k)
    let a := here (.conv c)
    let s := if a ≠ 0#32 then s.passLanes w a else s
    s.onLanes w false (here (.sync c)) fun l => { l with park := .due c, passed := 0 }

/-- Sorted insertion of a position by its address, without repeats. -/
def insPos (p : Nat × Nat) : List (Nat × Nat) → List (Nat × Nat)
  | [] => [p]
  | q :: r => if p = q then q :: r else if p.1 + 8 * p.2 < q.1 + 8 * q.2 then p :: q :: r else q :: insPos p r

/-- The positions of lanes parked on a convergence register, ascending. -/
def Warp.convPositions (w : Warp) (c : Nat) : List (Nat × Nat) :=
  w.lanes.foldl (fun l x => if !x.exited && (decide (x.park = .conv c) || decide (x.park = .sync c)) then insPos (x.hdr, x.idx) l else l) []

/-- The completion test of R107 on one register. -/
def State.converge (s : State) (wi c : Nat) : State :=
  match s.warp? wi with
  | none => s
  | some w =>
    if w.complete c then
      (w.convPositions c).foldl (fun s p => s.releaseAt wi c p) (s.onWarp wi fun x => { x with signed := sput 0 c 0 x.signed })
    else s

/-- The test on every register, in ascending order. -/
def State.convergeAll (s : State) (wi : Nat) : State := [0, 1, 2, 3, 4, 5, 6, 7].foldl (fun s c => s.converge wi c) s

/-! ## CDECL and CSIGN (R114, R115) -/

/-- CDECL of a mask. Where it raises illegal-operand it stops there: the other lanes stay at it. -/
def cdeclWith (d : Fld) (mask : Warp → Mask → State → Mask) (w : Warp) (act : Mask) (s : State) : State :=
  let c := d.toNat % 8
  if sget 0 c w.signed ≠ 0#32 then s.trapAll w act tOPERAND 0 0 0
  else ((s.onWarp w.id fun x => { x with decl := sput 0 c (mask w act s) x.decl }).advance w s.iss.lanes).converge w.id c

def execCdecl (c : Common) (d a : Fld) (p : Perm) (s : State) : Out :=
  perform (.cdecl c d a p) (cdeclWith d fun w _ s => s.rd w a.toNat 0) s

def execCdeclIss (c : Common) (d : Fld) (s : State) : Out := perform (.cdeclIss c d) (cdeclWith d fun _ act _ => act) s

/-- Lanes of a mask sign a register. -/
def State.sign (s : State) (w : Warp) (c : Nat) (m : Mask) : State := s.onWarp w.id fun x => { x with signed := supd 0 c (· ||| m) x.signed }

def execCsign (c : Common) (a : Fld) (s : State) : Out :=
  perform (.csign c a) (fun w act s =>
    let n := a.toNat % 8
    let m := act &&& sget 0 n w.decl
    (((s.sign w n m).parkHere w m (.conv n)).advance w (s.iss.lanes &&& ~~~m)).converge w.id n) s

def execCsignNw (c : Common) (a : Fld) (s : State) : Out :=
  perform (.csignNw c a) (fun w act s =>
    let n := a.toNat % 8
    ((s.sign w n (act &&& sget 0 n w.decl)).advance w s.iss.lanes).converge w.id n) s

/-! ## Arrival at a synchronising instruction, and its one issue (R107, R108, R240) -/

/-- Lanes arrive: those of DECL sign and park whatever the guard; of the others, those whose guard holds take `bad`, and the rest go on. -/
def State.arrive (s : State) (w : Warp) (c : Nat) (act : Mask) (bad : Mask → State → State) : State :=
  let d := sget 0 c w.decl
  let m := s.iss.lanes &&& d
  let t := bad (act &&& ~~~d) ((s.sign w c m).parkHere w m (.sync c))
  (t.advance w (s.iss.lanes &&& ~~~d &&& ~~~act)).converge w.id c

/-- Issuing lanes reach a synchronising instruction: a lane not in DECL raises illegal-operand (R6, R56), a handler illegal-instruction (R290). An
arrival is not checked for stall counts; the one issue is (log entry 74). -/
def State.arriveSync (s : State) (i : Instr) (c : Nat) : State :=
  match s.issWarp with
  | none => s
  | some w =>
    let s := if s.interlocked w s.iss.hnd then s else s.lookEarly w i
    let act := s.guarded w (common i).guard
    if s.iss.hnd then (s.trapAll w act tILLEGAL 0 0 0).advance w (s.iss.lanes &&& ~~~act)
    else s.arrive w c act fun m t => t.trapAll w m tOPERAND 0 0 0

def execMma (c : Common) (k : MMKind) (acc : BitVec 6) (ta tb : BitVec 10) (cv : BitVec 3) (s : State) : Out :=
  .next (if s.iss.sync then mmaIssue c k acc ta tb cv s else s.arriveSync (.mma c k acc ta tb cv) cv.toNat)

def execMmalr (c : Common) (k : MMKind) (acc : BitVec 6) (ta tb : BitVec 10) (aux : Fld) (cv : BitVec 3) (s : State) : Out :=
  .next (if s.iss.sync then mmalrIssue c k acc ta tb aux cv s else s.arriveSync (.mmalr c k acc ta tb aux cv) cv.toNat)

def execAdapt (c : Common) (acc sacc : BitVec 6) (cb : BitVec 10) (cv : BitVec 3) (s : State) : Out :=
  .next (if s.iss.sync then adaptIssue c acc sacc cb cv s else s.arriveSync (.adapt c acc sacc cb cv) cv.toNat)

/-! ## Transfers (R110 to R112) -/

/-- The address H + 8 × Offset, where it is one (R38). -/
def branchTo (hdr : Nat) (off : BitVec 32) : Option Nat := let t : Int := (hdr : Int) + 8 * off.toInt; if t < 0 then none else some t.toNat

/-- A recorded clause header of the issuing context. -/
def State.recorded (s : State) (w : Warp) (t : Nat) : Bool := ((s.ctx? w.ctx).map fun c => c.recorded t).getD false

/-- The issuing lanes of a mask moved to a target. -/
def State.goTo (s : State) (w : Warp) (m : Mask) (t : Nat) : State := s.onLanes w s.iss.hnd m (Lane.goto (t, 0))

/-- A target that is a recorded header. -/
def State.target (s : State) (w : Warp) (t : Option Nat) : Option Nat := match t with | some a => if s.recorded w a then some a else none | none => none

def execBra (c : Common) (off : BitVec 32) (s : State) : Out :=
  perform (.bra c off) (fun w act s =>
    match s.target w (branchTo s.iss.hdr off) with
    | some t => (s.goTo w act t).advance w (s.iss.lanes &&& ~~~act)
    | none => s.trapWhole w act (tCLAUSE, 0, 0)) s

/-- CALL (R111): where the target is no recorded header it stops, and no lane moves. -/
def execCall (c : Common) (off : BitVec 32) (link : Fld) (s : State) : Out :=
  perform (.call c off link) (fun w act s =>
    match s.target w (branchTo s.iss.hdr off) with
    | none => s.trapAll w act tCLAUSE 0 0 0
    | some t =>
      let ret := words2 (BitVec.ofNat 64 (s.iss.hdr + 8 * (s.iss.count + 2)))
      let ls := if isS link.toNat then [lowestLane act] else lanesOf act
      ((s.wr w link.toNat (ls.map fun l => (l, ret))).goTo w act t).advance w (s.iss.lanes &&& ~~~act)) s

/-- BRX and RET: each lane goes to its own pair's address, or traps. -/
def jumpLanes (a : Fld) (p : Perm) (w : Warp) (act : Mask) (s : State) : State :=
  let x (l : Nat) : Word64 := s.rd2 w a.toNat (p.lane .srcA l)
  let ok := maskOf fun l => act.getLsbD l && decide ((x l).toNat < 2 ^ 52) && s.recorded w (x l).toNat
  let t := (lanesOf ok).foldl (fun t l => t.goTo w (1#32 <<< l) (x l).toNat) s
  (t.trapAll w (act &&& ~~~ok) tCLAUSE 0 0 0).advance w (s.iss.lanes &&& ~~~act)

def execBrx (c : Common) (a : Fld) (p : Perm) (s : State) : Out := perform (.brx c a p) (jumpLanes a p) s

def execRet (c : Common) (a : Fld) (p : Perm) (s : State) : Out := perform (.ret c a p) (jumpLanes a p) s

/-! ## EXIT, YIELD, NOP, BRK, TRAP (R113, R116, R117) -/

/-- The last lane of a warp has exited: its failures move to its block's record. -/
def State.exited (s : State) (wi : Nat) : State := match s.warp? wi with | some w => if w.allExited then s.moveFails w else s | none => s

def execExit (c : Common) (s : State) : Out :=
  perform (.exit c) (fun w act s =>
    (((s.onLanes w false act fun l => { l with exited := true }).advance w (s.iss.lanes &&& ~~~act)).exited w.id).convergeAll w.id) s

/-- The pace of the issuing warp or handler. -/
def State.onPace (s : State) (w : Warp) (hnd : Bool) (f : Pace → Pace) : State :=
  if hnd then s.onBank w.q fun b => { b with pace := f b.pace } else s.onWarp w.id fun x => { x with pace := f x.pace }

def execYield (c : Common) (s : State) : Out :=
  perform (.yield c) (fun w _ s => (s.onPace w s.iss.hnd fun p => { p with yielded := true }).advance w s.iss.lanes) s

def execNop (c : Common) (s : State) : Out := perform (.nop c) (fun w _ s => s.advance w s.iss.lanes) s

def execBrk (c : Common) (code : BitVec 19) (s : State) : Out :=
  perform (.brk c code) (fun w act s => (s.trapAll w act tBREAK 0 0 code.toNat).advance w (s.iss.lanes &&& ~~~act)) s

def execTrap (c : Common) (code : BitVec 19) (s : State) : Out :=
  perform (.trap c code) (fun w act s => (s.trapAll w act tSOFT 0 0 code.toNat).advance w (s.iss.lanes &&& ~~~act)) s

end Sys2Proof.Machine
end

