-- ==== Sys2Proof/Machine/Integer.lean ====
section
/-! DEFINITION. The V integer group (R140 to R144). -/

namespace Sys2Proof.Machine

/-- A three-operand member: its result from the two sources. -/
def int3 (i : Instr) (r : R3) (f : Word → Word → Word) (s : State) : Out := vop1 i r.d (fun s w l => f (r.va s w l) (r.vb s w l)) s

/-- A two-operand member. -/
def int2 (i : Instr) (r : R2) (f : Word → Word) (s : State) : Out := vop1 i r.d (fun s w l => f (r.va s w l)) s

/-- IADD and ISUB (R141). -/
def addSat (m : SatMode) (a b : Word) : Word :=
  match m with
  | .wrap => a + b
  | .satS => clampS (a.toInt + b.toInt)
  | .satZ => clampZ (a.toNat + b.toNat)

def subSat (m : SatMode) (a b : Word) : Word :=
  match m with
  | .wrap => a - b
  | .satS => clampS (a.toInt - b.toInt)
  | .satZ => clampZ ((a.toNat : Int) - b.toNat)

/-- Bits [63:32] of a product (R141). -/
def mulHi (g : Sgn) (a b : Word) : Word := (BitVec.ofInt 64 (ext g a * ext g b)).extractLsb' 32 32

/-- The lesser and greater under a sign (R141). -/
def minI (g : Sgn) (a b : Word) : Word := if ext g a ≤ ext g b then a else b
def maxI (g : Sgn) (a b : Word) : Word := if ext g b ≤ ext g a then a else b

/-- IABS (R141). -/
def absI (sat : Bool) (a : Word) : Word := if a = 0x80000000#32 then (if sat then 0x7FFFFFFF#32 else a) else if a.msb then -a else a

/-- Shifts by a register count (R142). -/
def shl (a b : Word) : Word := if b.toNat < 32 then a <<< b.toNat else 0
def shrZ (a b : Word) : Word := if b.toNat < 32 then a >>> b.toNat else 0
def shrS (a b : Word) : Word := if b.toNat < 32 then a.sshiftRight b.toNat else if a.msb then 0xFFFFFFFF#32 else 0

def rotI (right : Bool) (a b : Word) : Word := if right then a.rotateRight (b.toNat % 32) else a.rotateLeft (b.toNat % 32)

/-- Counts and reversal (R142). -/
def popcount (a : Word) : Nat := (lanes32.filter a.getLsbD).length
def leadingZeros (a : Word) : Nat := (lanes32.reverse.takeWhile fun k => !a.getLsbD k).length
def reverseBits (a : Word) : Word := maskOf fun k => a.getLsbD (31 - k)

/-- Position and length of a field description (R142). -/
def fieldPos (b : Word) : Nat := b.toNat % 256
def fieldLen (b : Word) : Nat := min (b.toNat / 256 % 256) 32

/-- BFX (R142). The shift of a sign-extended value fills with its sign (log entry 21). -/
def bitExtract (g : Sgn) (a b : Word) : Word :=
  let n := fieldLen b
  let e : Int := match g with | .z => a.toNat | .s => a.toInt
  let f := (e / 2 ^ min (fieldPos b) 63 % 2 ^ n).toNat
  if n = 0 then 0
  else match g with
  | .z => BitVec.ofNat 32 f
  | .s => if 2 ^ (n - 1) ≤ f then BitVec.ofInt 32 ((f : Int) - 2 ^ n) else BitVec.ofNat 32 f

/-- BFI (R142). -/
def bitInsert (d a b : Word) : Word :=
  let p := fieldPos b
  let n := fieldLen b
  if n = 0 || 32 ≤ p then d
  else
    let m : Word := BitVec.ofNat 32 ((2 ^ n - 1) * 2 ^ p)
    (d &&& ~~~m) ||| ((a <<< p) &&& m)

/-- The comparisons of ISET (R140). -/
def icmp (cc : ICmp) (g : Sgn) (a b : Word) : Bool :=
  match cc with
  | .eq => ext g a = ext g b
  | .ne => ext g a ≠ ext g b
  | .lt => ext g a < ext g b
  | .le => ext g a ≤ ext g b
  | .gt => ext g b < ext g a
  | .ge => ext g b ≤ ext g a

/-- Byte `i` of a word under a sign (R141). -/
def byteI (u : Bool) (i : Nat) (a : Word) : Int := let b : Byte := a.extractLsb' (8 * i) 8; if u then b.toNat else b.toInt

/-- IDOT4 (R141). -/
def dot4 (sat ua ub : Bool) (d a b : Word) : Word :=
  let t := d.toInt + byteI ua 0 a * byteI ub 0 b + byteI ua 1 a * byteI ub 1 b + byteI ua 2 a * byteI ub 2 b + byteI ua 3 a * byteI ub 3 b
  if sat then clampS t else BitVec.ofInt 32 t

def ext64 (g : Sgn) (x : Word) : Word64 := match g with | .s => x.signExtend 64 | .z => x.zeroExtend 64

def execIadd (c : Common) (m : SatMode) (r : R3) (s : State) : Out := int3 (.iadd c m r) r (addSat m) s
def execIsub (c : Common) (m : SatMode) (r : R3) (s : State) : Out := int3 (.isub c m r) r (subSat m) s
def execImul (c : Common) (r : R3) (s : State) : Out := int3 (.imul c r) r (· * ·) s
def execImulh (c : Common) (g : Sgn) (r : R3) (s : State) : Out := int3 (.imulh c g r) r (mulHi g) s
def execImad (c : Common) (r : R3) (s : State) : Out := vop1 (.imad c r) r.d (fun s w l => r.vd s w l + r.va s w l * r.vb s w l) s

def execImadw (c : Common) (g : Sgn) (r : R3) (s : State) : Out :=
  vop2 (.imadw c g r) r.d (fun s w l => s.rd2 w r.d.toNat l + ext64 g (r.va s w l) * ext64 g (r.vb s w l)) s

def execIadd64 (c : Common) (r : R3) (s : State) : Out := vop2 (.iadd64 c r) r.d (fun s w l => r.va2 s w l + r.vb2 s w l) s
def execImin (c : Common) (g : Sgn) (r : R3) (s : State) : Out := int3 (.imin c g r) r (minI g) s
def execImax (c : Common) (g : Sgn) (r : R3) (s : State) : Out := int3 (.imax c g r) r (maxI g) s
def execIabs (c : Common) (sat : Bool) (r : R2) (s : State) : Out := int2 (.iabs c sat r) r (absI sat) s
def execIshl (c : Common) (r : R3) (s : State) : Out := int3 (.ishl c r) r shl s
def execIshr (c : Common) (r : R3) (s : State) : Out := int3 (.ishr c r) r shrS s
def execLshr (c : Common) (r : R3) (s : State) : Out := int3 (.lshr c r) r shrZ s
def execRot (c : Common) (right : Bool) (r : R3) (s : State) : Out := int3 (.rot c right r) r (rotI right) s
def execAnd (c : Common) (r : R3) (s : State) : Out := int3 (.and c r) r (· &&& ·) s
def execOr (c : Common) (r : R3) (s : State) : Out := int3 (.or c r) r (· ||| ·) s
def execXor (c : Common) (r : R3) (s : State) : Out := int3 (.xor c r) r (· ^^^ ·) s
def execAndn (c : Common) (r : R3) (s : State) : Out := int3 (.andn c r) r (fun a b => a &&& ~~~b) s
def execPopc (c : Common) (r : R2) (s : State) : Out := int2 (.popc c r) r (fun a => BitVec.ofNat 32 (popcount a)) s
def execClz (c : Common) (r : R2) (s : State) : Out := int2 (.clz c r) r (fun a => BitVec.ofNat 32 (leadingZeros a)) s
def execBrev (c : Common) (r : R2) (s : State) : Out := int2 (.brev c r) r reverseBits s
def execBfx (c : Common) (g : Sgn) (r : R3) (s : State) : Out := int3 (.bfx c g r) r (bitExtract g) s
def execBfi (c : Common) (r : R3) (s : State) : Out := vop1 (.bfi c r) r.d (fun s w l => bitInsert (r.vd s w l) (r.va s w l) (r.vb s w l)) s

def execIset (c : Common) (cc : ICmp) (g : Sgn) (r : R3) (s : State) : Out :=
  pop (.iset c cc g r) r.d (fun s w l => (icmp cc g (r.va s w l) (r.vb s w l), 0)) s

/-- SEL (R143). -/
def execSel (c : Common) (inv : Bool) (p : BitVec 4) (r : R3) (s : State) : Out :=
  vop1 (.sel c inv p r) r.d (fun s w l => if s.rdP w p.toNat l != inv then r.va s w l else r.vb s w l) s

/-- MOV and MOV.64 (R143). -/
def execMov (c : Common) (wide : Bool) (r : R2) (s : State) : Out :=
  if wide then vop2 (.mov c wide r) r.d (fun s w l => s.rd2 w r.a.toNat (r.p.lane .srcA l)) s
  else int2 (.mov c wide r) r id s

def execMovi (c : Common) (d : Fld) (imm : Word) (s : State) : Out := vop1 (.movi c d imm) d (fun _ _ _ => imm) s

def execIaddi (c : Common) (d a : Fld) (imm : BitVec 19) (s : State) : Out :=
  vop1 (.iaddi c d a imm) d (fun s w l => s.rd w a.toNat l + imm.signExtend 32) s

/-- MOVXW (R143). -/
def execMovxw (c : Common) (k : Wide) (d : Fld) (imm : Word) (s : State) : Out :=
  vop2 (.movxw c k d imm) d (fun _ _ _ => match k with | .s64 => imm.signExtend 64 | .z64 => imm.zeroExtend 64 | .hi => imm ++ 0#32) s

def execLea (c : Common) (g : Sgn) (sh : BitVec 3) (r : R3) (s : State) : Out :=
  vop2 (.lea c g sh r) r.d (fun s w l => r.va2 s w l + ext64 g (r.vb s w l) <<< sh.toNat) s

def execIdot4 (c : Common) (sat ua ub : Bool) (r : R3) (s : State) : Out :=
  vop1 (.idot4 c sat ua ub r) r.d (fun s w l => dot4 sat ua ub (r.vd s w l) (r.va s w l) (r.vb s w l)) s

/-- MOVX holds the warp's next instruction until its writes have landed (R144, R138). -/
def State.movxHold (s : State) (w : Warp) : State :=
  let t := s.iss.now + 2 + ((s.quad w.q).beats - 2)
  if s.iss.hnd then s.onBank w.q fun b => { b with movx := t } else s.onWarp w.id fun x => { x with movx := t }

/-- The lanes of a MOVX whose computed register exists, and those that raise illegal-operand (R144). -/
def movxLanes (w : Warp) (act : Mask) (reg : Nat → Nat) (f : List Nat → State → State) (s : State) : State :=
  let ok (l : Nat) : Bool := decide (reg l < min 640 (64 * w.gran))
  let bad := maskOf fun l => act.getLsbD l && !ok l
  ((f ((lanesOf act).filter ok) s).trapAll w bad tOPERAND 0 0 0).advance w (s.iss.lanes &&& ~~~bad)

/-- MOVX, read form (R144). -/
def execMovx (c : Common) (d a b : Fld) (s : State) : Out :=
  perform (.movx c d a b) (fun w act s =>
    let reg (l : Nat) : Nat := a.toNat + (s.rd w b.toNat l).toNat
    (movxLanes w act reg (fun ls s => s.wr w d.toNat (ls.map fun l => (l, [s.rd w (reg l) l]))) s).movxHold w) s

/-- MOVX.ST (R144). -/
def execMovxSt (c : Common) (d a b : Fld) (s : State) : Out :=
  perform (.movxSt c d a b) (fun w act s =>
    let reg (l : Nat) : Nat := d.toNat + (s.rd w b.toNat l).toNat
    (movxLanes w act reg (fun ls t => ls.foldl (fun t l => t.wr w (reg l) [(l, [s.rd w a.toNat l])]) t) s).movxHold w) s

end Sys2Proof.Machine
end

