-- ==== Sys2Proof/Machine/CrossLane.lean ====
section
/-! DEFINITION. The V cross-lane and predicate group (R158 to R165), and the fixed orders of R133. -/

namespace Sys2Proof.Machine

/-- combine_m of R158. -/
def combine (op : RedOp) (m : RM) (x y : Word) : Word × Exc :=
  match op with
  | .addF32 => to32 m (addQ m (f32 x) (f32 y))
  | .minF32 => minMax false x y
  | .maxF32 => minMax true x y
  | .addS32 => (x + y, 0)
  | .minS32 => (minI .s x y, 0)
  | .maxS32 => (maxI .s x y, 0)
  | .minZ32 => (minI .z x y, 0)
  | .maxZ32 => (maxI .z x y, 0)

/-- Two slots of a level combined; an absent one leaves the other (R133). -/
def pairUp (f : Word → Word → Word × Exc) (a b : Option (Word × Exc)) : Option (Word × Exc) :=
  match a, b with
  | some x, some y => let r := f x.1 y.1; some (r.1, r.2 ||| x.2 ||| y.2)
  | some x, none => some x
  | none, y => y

/-- One level of the tree. -/
def level (f : Word → Word → Word × Exc) : List (Option (Word × Exc)) → List (Option (Word × Exc))
  | a :: b :: r => pairUp f a b :: level f r
  | l => l

/-- tree of R133: five levels over 32 slots; exceptions united. -/
def tree (f : Word → Word → Word × Exc) (l : List (Option (Word × Exc))) : Word × Exc :=
  match level f (level f (level f (level f (level f l)))) with
  | some x :: _ => x
  | _ => (0, 0)

/-- scan of R133 over the contributing lanes in order: each lane's running result, with the exceptions up to it. -/
def scanFrom (f : Word → Word → Word × Exc) : Option (Word × Exc) → List (Nat × Word) → List (Nat × Word × Exc)
  | _, [] => []
  | run, (l, x) :: r =>
    match run with
    | none => (l, x, 0) :: scanFrom f (some (x, 0)) r
    | some y => let z := f y.1 x; (l, z.1, z.2 ||| y.2) :: scanFrom f (some (z.1, z.2 ||| y.2)) r

/-- The source lane of SHFL (R159). -/
def shflLane (k : Shfl) (t l : Nat) : Nat :=
  match k with
  | .idx => t % 32
  | .up => if t ≤ l then l - t else l
  | .down => if l + t ≤ 31 then l + t else l
  | .xor => l ^^^ (t % 32)

def execShfl (c : Common) (k : Shfl) (wide : Bool) (r : R3) (s : State) : Out :=
  vop (.shfl c k wide r) r.d (fun s w l =>
    let g := shflLane k (r.vb s w l).toNat l
    (if wide then words2 (s.rd2 w r.a.toNat g) else [s.rd w r.a.toNat g], 0)) s

/-- VOTE (R160). -/
def execVote (c : Common) (k : Vote) (neg : Bool) (d q : Fld) (s : State) : Out :=
  perform (.vote c k neg d q) (fun w act s =>
    let yes (l : Nat) : Bool := act.getLsbD l && (s.rdP w q.toNat l != neg)
    match k with
    | .any => lanePreds w act d.toNat (fun _ => (lanes32.any yes, 0)) s
    | .all => lanePreds w act d.toNat (fun _ => ((lanesOf act).all yes, 0)) s
    | .bal => laneResults w act d.toNat (fun _ => ([maskOf yes], 0)) s) s

/-- VRED (R161). -/
def execVred (c : Common) (op : RedOp) (m : RM) (r : R2) (s : State) : Out :=
  perform (.vred c op m r) (fun w act s =>
    let x := tree (combine op m) (lanes32.map fun l => if act.getLsbD l then some (r.va s w l, 0) else none)
    laneResults w act r.d.toNat (fun _ => ([x.1], x.2)) s) s

/-- VSCAN (R162). -/
def execVscan (c : Common) (op : RedOp) (m : RM) (r : R2) (s : State) : Out :=
  perform (.vscan c op m r) (fun w act s =>
    let ys := scanFrom (combine op m) none ((lanesOf act).map fun l => (l, r.va s w l))
    laneResults w act r.d.toNat (fun l => match ys.find? fun y => y.1 = l with | some y => ([y.2.1], y.2.2) | none => ([], 0)) s) s

/-- PLOP (R163). -/
def execPlop (c : Common) (tt : BitVec 4) (d a b : Fld) (s : State) : Out :=
  pop (.plop c tt d a b) d (fun s w l =>
    (tt.getLsbD ((if s.rdP w a.toNat l then 2 else 0) + (if s.rdP w b.toNat l then 1 else 0)), 0)) s

/-- PMOV (R164). -/
def execPmov (c : Common) (toPred : Bool) (r : R2) (s : State) : Out :=
  perform (.pmov c toPred r) (fun w act s =>
    if toPred then
      let vals (n : Nat) : List (Nat × Bool) := (lanesOf act).map fun l => (l, (r.va s w l).getLsbD n)
      (((List.range 16).foldl (fun t n => t.wrP w n (vals n)) s)).advance w s.iss.lanes
    else laneResults w act r.d.toNat (fun l => ([maskOf fun n => decide (n < 16) && s.rdP w n l], 0)) s) s

/-- UMOV (R165). -/
def execUmov (c : Common) (first wide : Bool) (r : R3) (s : State) : Out :=
  perform (.umov c first wide r) (fun w act s =>
    let k := if first then lowestLane act else (s.rd w r.b.toNat 0).toNat % 32
    let l := r.p.lane .srcA k
    laneResults w act r.d.toNat (fun _ => (if wide then words2 (s.rd2 w r.a.toNat l) else [s.rd w r.a.toNat l], 0)) s) s

end Sys2Proof.Machine
end

