-- ==== Sys2Proof/Machine/Hold.lean ====
section
/-! DEFINITION. What holds an instruction back before it issues: the scoreboard (R50), interlocked issue (R52), MOVX (R144), releases and acquires
(R253, R254), copies and tokens (R192, R196), RCFENCE and ADPF.INV (R218, R246), accumulators (R223), store-origin records (R292). A hold changes time
only. -/

namespace Sys2Proof.Machine

/-! ## The scoreboard (R50) -/

/-- Registers from field `d` on that a result of `n` bytes fills. -/
def dstKeys (d n : Nat) : List Nat := (List.range (max 1 (n / 4))).map (d + ·)

/-- Registers of a warp with a variable-latency result outstanding. -/
def State.pending (s : State) (w : Warp) : List Nat :=
  s.net.flatMap (fun r => if r.org.warp = w.id then (match r.k.dst with | some (d, n, _) => dstKeys d.toNat n | none => []) else []) ++
    s.readers.flatMap fun r => if r.org.warp = w.id then (match r.ask with
      | .tld wide d _ => dstKeys d.toNat (if wide then 8 else 4)
      | .trow d _ => dstKeys d.toNat 8
      | _ => []) else []

/-- The scoreboard, and under interlock results not yet due, hold what reads or writes some of these keys (R50, R52). -/
def State.keysHeld (s : State) (w : Warp) (hnd : Bool) (ks : List Nat) (now : Nat) : Bool :=
  let pend := s.pending w
  ks.any fun k => pend.contains k || (s.interlocked w hnd && w.undue now k)

/-- The scoreboard and the interlock hold an instruction. -/
def State.regsHeld (s : State) (w : Warp) (hnd : Bool) (i : Instr) (now : Nat) : Bool :=
  let pend := s.pending w
  s.keysHeld w hnd (readKeys i ++ writeKeys i) now ||
    match i with
    | .movx _ _ _ _ | .movxSt _ _ _ _ | .hget _ .vreg _ _ | .hset _ .vreg _ _ => (pend.any fun k => k < 640) || w.fixed.any fun f => decide (f.reg < 640) && decide (now < f.due)
    | _ => false

/-! ## Releases, acquires and engines -/

/-- Loads and atomics of a warp that have not returned. -/
def State.loading (s : State) (w : Warp) : Bool := s.net.any fun r => decide (r.org.warp = w.id) && r.k.dst.isSome

/-- Counted operations of a warp that are not acknowledged (R252); with `win`, those that a release at block scope waits for. -/
def State.unacked (s : State) (w : Warp) (win : Bool) : Bool :=
  (s.net.any fun r => r.counted && decide (r.org.warp = w.id) && (!win || r.k.isRedo || match r.tgt with | .dev _ => false | _ => true)) ||
    s.redos.any fun h => decide (h.req.org.warp = w.id)

/-- A release at a scope (R253). -/
def State.releaseHeld (s : State) (w : Warp) (sc : Scope) : Bool := s.loading w || s.unacked w (decide (sc = .blk))

/-- Earlier stores, atomics and ZLINEs that are not acknowledged. -/
def State.storesHeld (s : State) (w : Warp) : Bool := s.net.any fun r => r.counted && !r.k.isRedo && decide (r.org.warp = w.id)

/-- TSTs of a warp parked on a name that will count on a token. -/
def State.parkedTst (s : State) (p : Origin → Nat → Bool) : Nat :=
  s.cgroups.foldl (fun n g => g.entries.foldl (fun n e => n + (e.2.waiters.filter fun x => match x.ask with | .tst k _ => p x.org k | _ => false).length) n) 0

/-- A copy is held (R192, R196). -/
def State.copyHeld (s : State) (w : Warp) (tok : Nat) : Bool :=
  s.storesHeld w || decide (255 ≤ sget 0 tok w.tok + s.parkedTst fun o k => decide (o.warp = w.id) && decide (k = tok)) ||
    decide (256 ≤ (s.copies.filter fun c => c.org.core = w.core).length + s.parkedTst fun o _ => decide (o.core = w.core))

/-- An operation on an accumulator waits for those on it that entered before, and for every operation of its own warp still to enter (R223). -/
def State.accHeld (s : State) (w : Warp) (a : Nat) : Bool :=
  s.mats.any fun m => if m.entered then decide (m.org.blk = w.blk) && m.touches.contains a else decide (m.org.warp = w.id)

/-- Store-origin records that a core has in use (R292). -/
def State.origins (s : State) (core : Nat) : Nat :=
  (s.net.filter fun r => r.counted && decide (r.org.core = core)).length + (s.redos.filter fun h => h.req.org.core = core).length +
    (s.copies.filter fun c => c.org.core = core).length + (s.defs.filter fun d => d.org.core = core).length +
    (s.fills.filter fun f => f.org.core = core).length

/-- No record is free for an issue of so many lanes. -/
def State.originHeld (s : State) (w : Warp) (m : Mask) : Bool := decide (3072 < s.origins w.core + (lanesOf m).length)

/-- The holds of an instruction's own description, once a guard holds in an issuing lane. -/
def State.ownHeld (s : State) (w : Warp) (m : Mask) (i : Instr) : Bool :=
  match i with
  | .fence _ .acq _ _ => s.loading w
  | .fence _ _ sc _ => s.releaseHeld w sc
  | .bar _ _ _ _ _ => s.releaseHeld w .blk
  | .cbar _ _ _ _ => s.releaseHeld w .cl
  | .gtrig _ _ _ => s.releaseHeld w .dev
  | .notify _ k _ _ _ => decide (k ≠ .none) && s.releaseHeld w .dev
  | .qpush _ rlx _ => !rlx && s.releaseHeld w .dev
  | .qpop _ _ rlx _ => !rlx && s.loading w
  | .cpy _ _ k _ | .cpybt _ _ k _ => s.copyHeld w k.toNat
  | .tst _ k _ _ => s.copyHeld w k.toNat
  | .rcfence _ _ | .adpfInv _ | .adpfInvd _ => s.storesHeld w
  | .aclr _ a | .arow _ a _ _ | .arowSt _ a _ _ | .aflag _ _ a _ => s.accHeld w a.toNat
  | .st _ _ _ | .atom _ _ _ | .redo _ _ _ | .zline _ _ => s.originHeld w m
  | _ => false

/-- The guard of an instruction in lanes as the predicates stand. -/
def Warp.guarded (w : Warp) (g : Guard) (m : Mask) : Mask :=
  match g with
  | .always => m
  | .onTrue p => maskOf fun l => m.getLsbD l && w.pred p.toNat l
  | .onFalse p => maskOf fun l => m.getLsbD l && !w.pred p.toNat l

/-- An acquire that the warp owes is done once its earlier loads have returned (R254). -/
def State.payAcquire (s : State) (w : Warp) : State :=
  if w.acq && !s.loading w then (s.l1clear w.core).onWarp w.id fun x => { x with acq := false } else s

/-- Whether an instruction must wait before lanes `m` of a warp issue it. -/
def State.held (s : State) (w : Warp) (hnd : Bool) (m : Mask) (i : Instr) (now : Nat) : Bool :=
  w.acq || s.regsHeld w hnd i now || (decide (w.guarded (common i).guard m ≠ 0#32) && s.ownHeld w m i)

end Sys2Proof.Machine
end

