-- ==== Sys2Proof/Machine/Issue.lean ====
section
/-! DEFINITION. Fetching and issuing (R31 to R35, R48, R52, R54, R56, R98 to R105, R232): lane-group selection, header tests, readiness, the choice of a
warp, the encoding causes, and what follows an issue. -/

namespace Sys2Proof.Machine

/-! ## Issuers: the warps of a quadrant, and a sub-warp in its handler (R103, R290) -/

/-- A warp, or the sub-warp of it that runs its handler, as the quadrant sees it. -/
structure Issuer where
  w : Warp
  hnd : Bool
  lanes : List Lane
  pace : Pace
  movx : Nat
  deriving DecidableEq, Repr

/-- A context whose warps may issue (R295, R298). -/
def Ctx.issues (c : Ctx) : Bool := match c.phase with | .running | .stopping _ _ _ => true | _ => false

def State.issuesCtx (s : State) (i : Nat) : Bool := ((s.ctx? i).map (·.issues)).getD false

/-- A warp whose cluster group its leaf is saving issues nothing (R95, R295). -/
def State.leafSaving (s : State) (w : Warp) : Bool := match s.warpGroup w with | some g => decide (g.leaf = .saving) | none => false

/-- A warp that may issue. -/
def State.mayIssue (s : State) (w : Warp) : Bool := s.issuesCtx w.ctx && !s.leafSaving w

/-- The issuers of a quadrant. -/
def State.issuers (s : State) (q : Nat) : List Issuer :=
  (s.warps.filter fun w => decide (w.q = q) && s.mayIssue w).map (fun w => { w := w, hnd := false, lanes := w.lanes, pace := w.pace, movx := w.movx }) ++
    match (s.quad q).bank with
    | none => []
    | some b => match s.warp? b.warp with
      | some w => if s.mayIssue w then [{ w := w, hnd := true, lanes := b.lanes, pace := b.pace, movx := b.movx }] else []
      | none => []

/-- Active lanes that are not parked. -/
def Lane.going (l : Lane) : Bool := !l.exited && decide (l.park = .run)

def goingMask (ls : List Lane) : Mask := maskOf fun n => n < ls.length && (laneAt ls n).going

/-- Active lanes released into the one issue of their synchronising instruction (R107). -/
def Lane.isDue (l : Lane) : Bool := !l.exited && match l.park with | .due _ => true | _ => false

/-- The lowest position address of lanes (R103). -/
def lowAddr (ls : List Lane) : Nat := ls.foldl (fun m l => min m l.addr) (2 ^ 64)

/-- The address of the selected group: the escape of R104 where it is due, else the lowest. -/
def groupAddr (ls : List Lane) : Nat :=
  let g := ls.filter Lane.going
  let top := g.foldl (fun m l => max m l.passed) 0
  lowAddr (if 64 ≤ top then g.filter fun l => l.passed = top else g)

/-- The lanes at an address that a test picks. -/
def lanesAt (ls : List Lane) (p : Lane → Bool) (a : Nat) : Mask := maskOf fun n => n < ls.length && p (laneAt ls n) && decide ((laneAt ls n).addr = a)

/-- The group that issues next: the released lanes of a synchronising instruction, position by position in ascending address (R107), before the
selected group of R103 and R104. -/
def groupMask (ls : List Lane) : Mask :=
  if ls.any Lane.isDue then lanesAt ls Lane.isDue (lowAddr (ls.filter Lane.isDue)) else lanesAt ls Lane.going (groupAddr ls)

/-- The position of the selected group. -/
def Issuer.pos (i : Issuer) : Nat × Nat := let l := laneAt i.lanes (lowestLane (groupMask i.lanes)); (l.hdr, l.idx)

/-! ## Fetch (R98) -/

/-- A demand fetch of a line of code, unless one is in flight. -/
def State.demand (s : State) (core group line : Nat) : State :=
  let f : Fetch := { core := core, group := group, line := line, pre := false }
  if s.fetches.contains f then s else { s with fetches := s.fetches ++ [f] }

/-- Lanes of an issuer that trap on a fetch or at a header: no skip of the trap (R291). -/
def State.fetchTrap (s : State) (i : Issuer) (m : Mask) (cls cause addr : Nat) (word : Word64) : State :=
  let ts := (lanesOf m).map fun l => { TrapLane.of l cause addr 0 word with noSkip := true }
  if i.hnd then s.escalate i.w cls cause m (lowAddr ((lanesOf m).map (laneAt i.lanes))) addr
  else (s.takeTrap i.w false cls ts).fresh.2

/-- What a walk from a header finds wrong with it (R34, R35, R52). -/
def State.headerBad (s : State) (i : Issuer) (c : Ctx) (hdr : Nat) (h : Header) : Bool :=
  !h.legal (s.interlocked i.w i.hnd) i.w.gran || decide (c.codeEnd < hdr + 8 * (h.count.toNat + 2))

/-- Every token named in WAIT reads zero (R31). -/
def tokensClear (w : Warp) (wait : BitVec 8) : Bool := (List.range 8).all fun k => !wait.getLsbD k || decide (sget 0 k w.tok = 0)

/-- The header of an issuer's selected group: fetched, checked and tested (R31, R34, R35, R98, R99, R290). -/
def State.headerTest (s : State) (i : Issuer) : State :=
  let m := groupMask i.lanes
  if m = 0#32 then s
  else match s.ctx? i.w.ctx with
  | none => s
  | some c =>
    let p := i.pos
    if !c.recorded p.1 then s.fetchTrap i m tCLAUSE 0 0 (s.wordAt i.w p.1)
    else match s.codeWord c i.w.core p.1 with
    | none => s.demand i.w.core c.group (c.lineOf p.1)
    | some x =>
      let h := decHeader x
      if s.headerBad i c p.1 h then s.fetchTrap i m tCLAUSE 0 0 x
      else if p.2 ≠ 0 then s
      else if i.hnd && h.wait ≠ 0#8 then s.fetchTrap i m tILLEGAL 0 0 x
      else if tokensClear i.w h.wait then s.onLanes i.w i.hnd m fun l => { l with idx := 1 }
      else s

/-! ## The encoding causes (R54, R56) -/

/-- What an instruction word is where it stands. -/
inductive Fate where
  | run (i : Instr)
  /-- Cause 1. -/
  | clause
  /-- Cause 2. -/
  | guard
  /-- Cause 3. -/
  | illegal
  deriving DecidableEq, Repr

/-- R56's causes 1 to 3 in their order; `idx` and `h` place the word in its clause, `view` is the feature view. -/
def fate (view : List Nat) (h : Header) (idx : Nat) (x : Word64) : Fate :=
  let op := (opcodeOf x).toNat
  if classOf op ≠ some h.cls.toNat || (decide (op = 0x212) && decide (idx ≠ h.count.toNat + 1)) then .clause
  else match decode x with
  | .error .guard => .guard
  | .error .instr => .illegal
  | .ok i => if (view.getD 2 0).testBit (groupOf op) then .run i else .illegal

/-! ## Readiness and choice (R103, R105, R232) -/

/-- What an issuer would issue: its group, whether it was released into the issue (R107), the word and its header. -/
structure Offer where
  i : Issuer
  m : Mask
  sync : Bool
  hdr : Nat
  idx : Nat
  h : Header
  word : Word64
  fate : Fate
  deriving DecidableEq, Repr

/-- The offer of an issuer whose header test has passed and whose word has come. -/
def State.offer (s : State) (i : Issuer) : Option Offer :=
  let m := groupMask i.lanes
  if m = 0#32 then none
  else match s.ctx? i.w.ctx with
  | none => none
  | some c =>
    let p := i.pos
    if p.2 = 0 || !c.recorded p.1 then none
    else match s.codeWord c i.w.core p.1, s.codeWord c i.w.core (p.1 + 8 * p.2) with
    | some hx, some x =>
      let h := decHeader hx
      if s.headerBad i c p.1 h then none
      else some { i := i, m := m, sync := i.lanes.any Lane.isDue, hdr := p.1, idx := p.2, h := h, word := x, fate := fate c.h.view h p.2 x }
    | _, _ => none

/-- A word that has not been fetched is asked for. -/
def State.wordFetch (s : State) (i : Issuer) : State :=
  if groupMask i.lanes = 0#32 then s
  else match s.ctx? i.w.ctx with
  | none => s
  | some c =>
    let p := i.pos
    if p.2 = 0 || !c.recorded p.1 || (s.codeWord c i.w.core p.1).isNone then s
    else if (s.codeWord c i.w.core (p.1 + 8 * p.2)).isNone then s.demand i.w.core c.group (c.lineOf (p.1 + 8 * p.2)) else s

/-- Opcodes of the synchronising instructions (R108, R239). -/
def syncOp (x : Word64) : Bool := let n := (opcodeOf x).toNat; decide (0x308 ≤ n) && decide (n ≤ 0x30A)

/-- The convergence field of a format-T word (R37). -/
def convOf (x : Word64) : Nat := (x.extractLsb' 5 3).toNat

/-- An offer that only brings its lanes to a synchronising instruction, which issues later for the set (R107). A word out of its class is raised at once, before
any lane signs (R34). -/
def Offer.arrives (o : Offer) : Bool := syncOp o.word && !o.sync && !o.i.hnd && decide (o.fate ≠ .clause)

/-- A record that the instruction an issuer stands at will read is come to before the issue (R207, R356). -/
def State.recFetch (s : State) (i : Issuer) : State :=
  match s.offer i with
  | some o => match o.fate with
    | .run (.tdef _ _ aux) | .run (.tdefa _ _ aux) | .run (.tst _ _ _ aux) =>
      if i.hnd then s else s.recLook i.w (s.reg i.w (aux.toNat + 1) 0 ++ s.reg i.w aux.toNat 0).toNat
    | _ => s
  | none => s

/-- The stall count, MOVX's hold and the interlocks let an offer issue once its issuer's last slot is over; of an arrival, and of a word
that only traps, the guard alone is read. -/
def State.ready (s : State) (o : Offer) (now : Nat) : Bool :=
  (s.interlocked o.i.w o.i.hnd || decide (o.i.pace.notBefore ≤ now)) && decide (o.i.pace.readyFrom ≤ now) && decide (o.i.movx ≤ now) &&
    match o.fate with
    | .run i => if o.arrives then !s.keysHeld o.i.w o.i.hnd (common i).guard.keys now else !s.held o.i.w o.i.hnd o.m i now
    | .illegal => !s.keysHeld o.i.w o.i.hnd (((decGuard o.word).map Guard.keys).getD []) now
    | _ => true

/-- The pace of an issuer changed. -/
def State.pace (s : State) (i : Issuer) (f : Pace → Pace) : State :=
  if i.hnd then s.onBank i.w.q fun b => { b with pace := f b.pace } else s.onWarp i.w.id fun x => { x with pace := f x.pace }

/-- A governed warp while the alarm holds (R232). -/
def State.governs (s : State) (w : Warp) : Bool := s.alarm.isSome && ((s.ctx? w.ctx).map (·.governed)).getD false

/-- An offer that a slot may be given to: a governed warp sits out three ready slots of four. -/
def State.eligible (s : State) (o : Offer) : Bool := !(s.governs o.i.w && decide (o.i.pace.starved ≠ 0))

/-- The order of R105: earliest ready-since time, then slots counted onward from the last issuer's, then the warp before its handler. -/
def choiceKey (last : Nat) (o : Offer) (now : Nat) : Nat :=
  (o.i.pace.readySince.getD now) * 64 + (o.i.w.slot + 31 - last) % 16 * 2 + (if o.i.hnd then 1 else 0)

/-- The first offer of least key. -/
def leastOffer (key : Offer → Nat) : List Offer → Option Offer
  | [] => none
  | o :: r => match leastOffer key r with | none => some o | some p => if key p < key o then some p else some o

/-- The offer that takes the slot (R32, R105). -/
def choose (last now : Nat) (l : List Offer) : Option Offer :=
  let fresh := l.filter fun o => !o.i.pace.yielded
  leastOffer (choiceKey last · now) (if fresh.isEmpty then l else fresh)

/-! ## The issue -/

/-- The passed counts after an issue of lanes `m` (R104). -/
def passCounts (m : Mask) (n : Nat) : List Lane → List Lane
  | [] => []
  | l :: r => (if m.getLsbD n then { l with passed := 0 } else if l.going then { l with passed := l.passed + 1 } else { l with passed := 0 }) ::
      passCounts m (n + 1) r

/-- The latch of an offer; a word out of its class is no arrival (R34). -/
def Offer.latch (o : Offer) (q now : Nat) : Issue :=
  { q := q, warp := o.i.w.id, hnd := o.i.hnd, lanes := o.m, hdr := o.hdr, idx := o.idx, count := o.h.count.toNat, now := now,
    sync := o.sync || decide (o.fate = .clause), word := o.word,
    instr := match o.fate with | .run i => some i | _ => none, early := [] }

/-- The guard of a word read at its issue, in native mode with no check of stall counts perhaps as it stood before a result not yet due (R51). -/
def State.lookGuard (s : State) (o : Offer) : State :=
  if s.interlocked o.i.w o.i.hnd || ((s.ctx? o.i.w.ctx).map (·.chk)).getD false then s
  else s.lookKeys o.i.w (((decGuard o.word).map Guard.keys).getD [])

/-- The lanes of a mask in which a word's guard holds. -/
def State.wordGuard (s : State) (o : Offer) (m : Mask) : Mask :=
  match decGuard o.word with
  | some g => s.guarded o.i.w g &&& m
  | none => m

/-- An encoding cause raised (R56) in lanes `m` of an offer: causes 1 and 2 in all of them, cause 3 in those whose guard holds; then the others advance. -/
def State.encTrap (s : State) (o : Offer) (m : Mask) : State :=
  let g := s.wordGuard o m
  match o.fate with
  | .run _ => s
  | .clause => s.trapAll o.i.w m tCLAUSE 0 0 0
  | .guard => s.trapAll o.i.w m tILLEGAL 0 0 0
  | .illegal => (s.trapAll o.i.w g tILLEGAL 0 0 0).advance o.i.w (m &&& ~~~g)

/-- A word with an encoding cause acts at once. At a synchronising instruction of its class the lanes of DECL sign first, and the cause is raised at the one issue
(R107, R240 step 1); the others raise it here. -/
def State.badWord (s : State) (o : Offer) : State :=
  if o.arrives then s.arrive o.i.w (convOf o.word) (s.wordGuard o o.m) fun m t => t.encTrap o m
  else s.encTrap o o.m

/-- The instruction latched is the arrival at a synchronising instruction, not an issue (R107). -/
def Issue.arrives (i : Issue) : Bool := syncOp i.word && !i.sync && !i.hnd

/-- The stall count of a word (R36). -/
def stallOf (x : Word64) : Nat := (x.extractLsb' 50 4).toNat

/-- An instruction that acts on its warp alone, or asks of memory what its discarding can take back (R93, R95). -/
def undoable (i : Instr) : Bool :=
  (nominal i).isSome || match i with
    | .bra _ _ | .brx _ _ _ | .ret _ _ _ | .nop _ | .yield _ | .exit _ | .cdecl _ _ _ _ | .cdeclIss _ _ | .csign _ _ | .csignNw _ _ | .fsqrt _ _ _
    | .fdiv _ _ _ | .vred _ _ _ _ | .vscan _ _ _ _ | .ld _ _ _ _ | .ldro _ _ _ | .st _ _ _ | .atom _ _ _ | .redo _ _ _ | .zline _ _ | .pref _ _ _
    | .roinv _ | .lds _ _ _ | .tkwait _ _ | .arow _ _ _ _ => true
    | _ => false

/-- The cycle at which an issue commits (log entry 75): when its fixed-latency result is due, else when its last beat has passed, and not before what its warp
issued earlier. -/
def State.commitAt (s : State) (i : Issue) : Nat :=
  ((s.quad i.q).open.filter fun r => r.warp = i.warp).foldl (fun n r => max n r.commit)
    (i.now + match i.instr.bind fun x => latency x (s.quad i.q).beats with | some n => n | none => (s.quad i.q).beats)

/-- What discarding an issue puts back, as the state before it has it. An encoding cause (R56) acts on its lanes alone; a trap in a handler is not taken back. -/
def State.undoOf (s0 : State) (i : Issue) (s : State) : Option Undo :=
  match s0.warp? i.warp with
  | some w =>
    if (i.instr.map undoable).getD true && (!i.hnd || s.issuesCtx w.ctx) then
      some { lanes := i.lanes, before := if i.hnd then (((s0.quad i.q).bank.map (·.lanes)).getD []) else w.lanes,
             regs := ((i.instr.map writeKeys).getD []).map fun k => (k, lanes32.map (s0.keyVal w k)), decl := w.decl, signed := w.signed }
    else none
  | none => none

/-- An issue noted until it commits (R93): `s0` is the state before it. -/
def State.remember (s0 : State) (i : Issue) (s : State) : State :=
  let r : Recent := { seq := s0.nextId, instr := i.instr, warp := i.warp, hnd := i.hnd, issued := i.now, commit := s0.commitAt i, stall := stallOf i.word,
                      undo := s0.undoOf i s }
  s.onQuad i.q fun q => { q with recent := (q.recent.filter fun x => decide (i.now ≤ x.commit)) ++ [r] }

/-- What follows an issue (R32, R48, R105, R232): the stall count runs, and the latch is empty. `s0` is the state before it. An arrival is no issue. -/
def State.finishIssue (s : State) (s0 : State) : State :=
  let i := s.iss
  match s.warp? i.warp with
  | none => { s with iss := Issue.none }
  | some w =>
    if i.arrives then { s with iss := Issue.none }
    else
      let b := (s.quad i.q).beats
      let y := (s.codeWord ((s.ctx? w.ctx).getD Ctx.init) w.core i.hdr).map fun x => (decHeader x).yield && decide (i.idx = i.count + 1)
      let t := s.onPace w i.hnd fun p => { p with notBefore := i.now + stallOf i.word, readySince := none, readyFrom := i.now + b,
                                                  yielded := p.yielded || y.getD false, starved := if s.governs w then 3 else 0 }
      let t := t.onWarp w.id fun x => { x with recs := [] }
      { s0.remember i t with iss := Issue.none }

/-- What an issue counts (R104, R105, R306); the lanes released into it are no longer parked. -/
def State.counts (s : State) (o : Offer) (q : Nat) : State :=
  let w := o.i.w
  let s := s.onLanes w o.i.hnd o.m fun l => { l with park := .run }
  let s := if o.i.hnd then s.onBank q fun b => { b with lanes := passCounts o.m 0 b.lanes }
    else s.onWarp w.id fun x => { x with lanes := passCounts o.m 0 x.lanes }
  let s := (s.count w.blk 0 1).count w.blk 1 (lanesOf o.m).length
  (s.pace o.i fun p => { p with yielded := false }).onQuad q fun x => { x with lastSlot := w.slot }

/-- An offer takes the slot: counts, latch, and the encoding causes at once. -/
def State.take (s : State) (o : Offer) (q now : Nat) : State :=
  let s := if o.arrives then s else s.counts o q
  let t : State := { s with iss := o.latch q now, nextId := s.nextId + 1 }
  match o.fate with
  | .run _ => t
  | .illegal => ((t.lookGuard o).badWord o).finishIssue t
  | _ => (t.badWord o).finishIssue t

/-- Blocks with a warp that was ready and not chosen. -/
def blocksOf (l : List Offer) : List Nat := l.foldl (fun m o => insNat o.i.w.blk m) []

/-- A block counts a cycle in which a warp of it was ready and not chosen, once for all quadrants of its core (R306). -/
def State.countMissed (s : State) (q now blk : Nat) : State :=
  let first := [1, 2, 3].foldl (fun n k => min n (s.quad (q / 4 * 4 + k)).cycle) (s.quad (q / 4 * 4)).cycle
  s.onBlock blk fun b => if b.missed.contains now then b else { b with pmc := supd 0 8 (· + 1) b.pmc, missed := now :: b.missed.filter fun n => decide (first ≤ n) }

/-- The quadrant issues nothing while its concordance is rewritten, or with no live lane (R93, R95). -/
def State.quadOff (s : State) (q : Nat) : Bool := (s.quad q).rewriting || decide ((s.quad q).perBeat = 0)

/-- Ready-since times at a cycle (R105): kept while the issuer stays ready, begun at the first cycle of readiness after its issue slot. -/
def State.noteReady (s : State) (is : List Issuer) (offers : List Offer) (now : Nat) : State :=
  is.foldl (fun s i => s.pace i fun p =>
    { p with readySince := if offers.any fun o => o.i = i then some (p.readySince.getD now) else none }) s

/-- An issuer whose slot another has taken: one that yielded is passed over once, and ready since the cycle after the slot (R105). -/
def Pace.passedOver (p : Pace) (next : Nat) : Pace :=
  { p with readySince := if p.yielded then some next else p.readySince, starved := p.starved - 1 }

/-- The issue slot of a cycle given to one of the offers (R105), or to none. -/
def State.slot (s : State) (q now b : Nat) (is : List Issuer) (offers : List Offer) : State :=
  let clear (s : State) : State := is.foldl (fun s i => s.pace i fun p => { p with yielded := false }) s
  let s := s.onQuad q fun x => { x with slotAt := now + b }
  match choose (s.quad q).lastSlot now (offers.filter s.eligible) with
  | none => clear (offers.foldl (fun s o => s.pace o.i fun p => { p with starved := p.starved - 1 }) s)
  | some o => (clear ((offers.filter fun x => x ≠ o).foldl (fun s x => s.pace x.i fun p => p.passedOver (now + b)) s)).take o q now

/-- ISSUE_SLOT (R105): one cycle of quadrant `q`. Acquires that are owed are done, headers tested, words fetched, readiness noted; and where the cycle is that of the next issue slot,
one ready warp takes it. -/
def execIssueSlot (q : Nat) (s : State) : Out :=
  let now := (s.quad q).cycle
  let tick (s : State) : State := s.onQuad q fun x => { x with cycle := x.cycle + 1 }
  .next <|
    if (s.quad q).rewriting then s
    else if s.quadOff q then tick s
    else
      let s := (s.issuers q).foldl (fun s i => s.payAcquire i.w) s
      let s := (s.issuers q).foldl (fun s i => s.headerTest i) s
      let s := (s.issuers q).foldl (fun s i => s.wordFetch i) s
      let s := (s.issuers q).foldl (fun s i => s.recFetch i) s
      let is := s.issuers q
      let s := s.noteReady is ((is.filterMap s.offer).filter fun o => s.ready o now) now
      let offers := ((s.issuers q).filterMap s.offer).filter fun o => s.ready o now
      let slot := decide ((s.quad q).slotAt ≤ now)
      let won := if slot then choose (s.quad q).lastSlot now (offers.filter s.eligible) else none
      let s := (blocksOf (offers.filter fun x => some x ≠ won)).foldl (fun s k => s.countMissed q now k) s
      tick (if slot then s.slot q now (s.quad q).beats (s.issuers q) offers else s)

/-! ## Fills (R98, R171) -/

/-- The lanes of an issuer whose position or header lies in a line of code. -/
def Issuer.lanesIn (i : Issuer) (c : Ctx) (line : Nat) : Mask :=
  maskOf fun n => n < i.lanes.length &&
    (let l := laneAt i.lanes n; (l.going || l.isDue) && (decide (c.lineOf l.addr = line) || decide (c.lineOf l.hdr = line)))

/-- What a lane wants of a line that did not come: the word at its position, else its header. -/
def Issuer.fetchAddr (i : Issuer) (c : Ctx) (line l : Nat) : Nat :=
  let x := laneAt i.lanes l
  if c.lineOf x.addr = line then x.addr else x.hdr

/-- The words of a line. -/
def codeWords (b : List Byte) : List Word64 := (List.range 32).map fun k => BitVec.ofNat 64 (field b (8 * k) 8)

/-- Lines that a fetched line makes the quadrant prefetch: the next, and those of the format-B targets of its recorded clauses. -/
def State.prefetchLines (s : State) (f : Fetch) : List Nat :=
  (f.line + 1) :: (s.ctxs.filter fun c => c.group = f.group).flatMap fun c =>
    (c.heads.filter fun h => decide (c.lineOf h = f.line) || decide (c.lineOf h + 1 = f.line)).flatMap fun h =>
      match s.codeWord c f.core h with
      | none => []
      | some x => (List.range ((decHeader x).count.toNat + 1)).filterMap fun k => do
          let y ← s.codeWord c f.core (h + 8 + 8 * k)
          let t ← if (opcodeOf y).toNat = 0x210 || (opcodeOf y).toNat = 0x212 then branchTo h (y.extractLsb' 12 32) else none
          if c.code ≤ t then some (c.lineOf t) else none

/-- Whether a core holds a line of code. -/
def State.hasLine (s : State) (core group line : Nat) : Bool := (s.core core).ic.any fun l => decide (l.1 = 2 ^ 48 * group + line)

/-- Lines that the instruction cache holds (R98). -/
def icLines : Nat := 512

/-- A line put into the instruction cache; where it is full, any line leaves (log entry 12). -/
def State.icFill (s : State) (f : Fetch) (ws : List Word64) : State :=
  let old := (s.core f.core).ic.filter fun l => l.1 ≠ 2 ^ 48 * f.group + f.line
  let r := if old.length < icLines then (old, s) else let d := s.drawNat icLines; (dropAt d.1 old, d.2)
  r.2.onCore f.core fun c => { c with ic := (2 ^ 48 * f.group + f.line, ws) :: r.1 }

/-- Prefetches begun. -/
def State.prefetch (s : State) (f : Fetch) : State :=
  (s.prefetchLines f).foldl (fun s k =>
    if s.hasLine f.core f.group k || (s.fetches.any fun g => decide (g.core = f.core) && decide (g.group = f.group) && decide (g.line = k)) then s
    else { s with fetches := s.fetches ++ [{ f with line := k, pre := true }] }) s

/-- Every issuer of a core in a group. -/
def State.coreIssuers (s : State) (core group : Nat) : List Issuer :=
  ([0, 1, 2, 3].flatMap fun k => s.issuers (4 * core + k)).filter fun i => s.groupOf i.w = group

/-- Lanes whose code failed trap: each address is the lane's fetch address. -/
def State.fetchFail (s : State) (f : Fetch) (cls cause : Nat) : State :=
  (s.coreIssuers f.core f.group).foldl (fun s i =>
    let c := (s.ctx? i.w.ctx).getD Ctx.init
    let m := i.lanesIn c f.line
    let r := s.drawNat (2 ^ 64)
    if m = 0#32 then s
    else if i.hnd then s.fetchTrap i m cls cause (i.fetchAddr c f.line (lowestLane m)) 0
    else (r.2.takeTrap i.w false cls ((lanesOf m).map fun l =>
      { TrapLane.of l cause (i.fetchAddr c f.line l) 0 (BitVec.ofNat 64 r.1) with noSkip := true })).fresh.2) s

/-- Lanes whose code page needs service are parked. -/
def State.fetchPage (s : State) (f : Fetch) : State :=
  (s.coreIssuers f.core f.group).foldl (fun s i =>
    let c := (s.ctx? i.w.ctx).getD Ctx.init
    (lanesOf (i.lanesIn c f.line)).foldl (fun s l =>
      let a := i.fetchAddr c f.line l
      (s.onLanes i.w i.hnd (1#32 <<< l) fun x => if x.isDue then x else { x with park := .page, passed := 0 }).wantPage f.group f.core a .fetch
        (.lane i.w.id l a i.hnd 0 true 0)) s) s

/-- The grids whose lanes wait for a line of code. -/
def State.fetchGrids (s : State) (f : Fetch) : List Nat :=
  (s.coreIssuers f.core f.group).foldl (fun l i =>
    let c := (s.ctx? i.w.ctx).getD Ctx.init
    if i.lanesIn c f.line = 0#32 then l else insNat c.grid l) []

/-- A line of code read at a far-store channel counts for its group and for the grids whose lanes wait for it (R89; log entry 76). -/
def State.chargeFetch (s : State) (f : Fetch) (pa : Nat) : State :=
  (s.fetchGrids f).foldl (fun s g => s.chargeGrid g pa 256) (s.chargeGroup f.group pa 256)

/-- A fill's bytes come from device memory at a physical address, or an abort completion does. -/
def State.fillFrom (s : State) (f : Fetch) (t : Tgt) : State :=
  match s.readTgt t 256 with
  | .ok b => ((match t with | .dev pa => s.chargeFetch f pa | _ => s).icFill f (codeWords b)).prefetch f
  | .error _ =>
    let s := match t with | .dev pa => if inAperture pa then s else s.detect pa (f.core / 8) (f.core % 8) f.group | _ => s
    if f.pre then s else s.fetchFail f tABORT aABORT

/-- INSTRUCTION_FETCH_FILL (R98, R171): fill `n` returns; a prefetch never traps. Translated code is read where near store holds it (R23). -/
def execInstructionFetchFill (n : Nat) (s : State) : Out :=
  .next (match s.fetches[n]? with
    | none => s
    | some f =>
      let s : State := { s with fetches := dropAt n s.fetches }
      if 2 ^ 90 ≤ f.line then s.fillFrom f (.dev (256 * (f.line - 2 ^ 90)))
      else
      let r := s.coreXl f.core f.group (256 * f.line) .fetch
      let s := r.2.2
      match r.1 with
      | .ok t _ => s.fillFrom f t
      | .abort pa => let s := s.detect pa (f.core / 8) (f.core % 8) f.group; if f.pre then s else s.fetchFail f tABORT aABORT
      | .fault c => if f.pre then s else s.fetchFail f tXLATE c
      | .svc => if f.pre then s else s.fetchPage f)

end Sys2Proof.Machine
end

