-- ==== Sys2Proof/Machine/System.lean ====
section
/-! DEFINITION. The system instructions (R299 to R307): the feature view, control registers, LIVEPT, the counters, and what a handler does: its lanes'
state, its return (R291), with the entry of a sub-warp into its handler (R287, R289). -/

namespace Sys2Proof.Machine

/-! ## FEATQ (R300) -/

/-- A word of the feature view: 0 to 11 frozen, 12 to 15 read at issue. -/
def State.feature (s : State) (w : Warp) (k : Nat) : Nat :=
  let c := (s.ctx? w.ctx).getD Ctx.init
  match k with
  | 12 => s.liveCores
  | 13 => s.coreWidth w.core
  | 14 => (s.cluster (w.core / 8)).clock
  | 15 => if s.governs w then 2 else if s.narrowed w.core c.governed then 1 else 0
  | _ => c.h.view.getD k 0

def execFeatq (c : Common) (d : Fld) (k : BitVec 4) (s : State) : Out :=
  vop1 (.featq c d k) d (fun s w _ => BitVec.ofNat 32 (s.feature w k.toNat)) s

/-! ## LIVEPT (R295, R301) -/

/-- A pre-emption of a warp's context, or of its cluster group by its leaf, is stopping it. -/
def State.stopping (s : State) (w : Warp) : Bool :=
  (match s.ctx? w.ctx with | some c => (match c.phase with | .stopping _ _ _ => true | _ => false) | none => false) ||
    match s.warpGroup w with | some g => (match g.leaf with | .stopping _ => true | _ => false) | none => false

/-- The checks of R301 on granules and ranges. -/
def liveOk (gm : BitVec 10) (b0 l0 b1 l1 : Nat) (s : State) (w : Warp) : Bool :=
  let kib := ((s.ctx? w.ctx).map fun c => c.h.scratch).getD 0
  ((List.range 10).all fun n => !gm.getLsbD n || decide (n < w.gran)) && decide (b0 + l0 ≤ kib) && decide (b1 + l1 ≤ kib)

/-- The ranges of a LIVEPT that hold something. -/
def liveRanges (b0 l0 b1 l1 : Nat) : List (Nat × Nat) := [(b0, l0), (b1, l1)].filter fun r => r.2 ≠ 0

/-- The guarded lanes stop at the position after the LIVEPT while a pre-emption is stopping the warp. -/
def liveStop (gm : BitVec 10) (rs : List (Nat × Nat)) (w : Warp) (act : Mask) (s : State) : State :=
  let t := s.advance w s.iss.lanes
  if s.iss.hnd || !s.stopping w then t
  else (t.onLanes w false act fun l => { l with park := .stop, passed := 0 }).onWarp w.id fun x => { x with liveG := x.liveG ||| gm, liveR := x.liveR ++ rs }

def execLivept (c : Common) (gm : BitVec 10) (b0 : BitVec 11) (l0 : BitVec 6) (b1 : BitVec 11) (l1 : BitVec 6) (s : State) : Out :=
  .next (performWith (.livept c gm b0 l0 b1 l1) (liveOk gm b0.toNat l0.toNat b1.toNat l1.toNat)
    (liveStop gm (liveRanges b0.toNat l0.toNat b1.toNat l1.toNat)) s)

/-! ## SYSR and SYSW (R302, R303, R96) -/

def bitN (b : Bool) (n : Nat) : Nat := if b then 2 ^ n else 0

/-- STAT (R303). -/
def State.stat (s : State) (w : Warp) (hnd : Bool) : Nat :=
  let c := (s.ctx? w.ctx).getD Ctx.init
  256 * w.quad + bitN (s.stopping w) 5 + bitN hnd 4 + bitN (s.interlocked w hnd) 3 + bitN (s.core w.core).retired 2 + bitN (s.governs w) 1 +
    bitN (s.narrowed w.core c.governed) 0

/-- LWID (R96). -/
def State.lwid (s : State) (core : Nat) : Nat :=
  let b (k : Nat) : Nat := min 15 (s.quad (4 * core + k)).beats
  65536 * s.coreWidth core + 4096 * b 3 + 256 * b 2 + 16 * b 1 + b 0

/-- CHKM (R51, R52). -/
def Ctx.chkm (c : Ctx) : Nat := bitN c.chk 0 + bitN c.inter 1

/-- What SYSR reads in a lane. -/
def State.control (s : State) (w : Warp) (hnd : Bool) (n lane : Nat) : List Word :=
  let c := (s.ctx? w.ctx).getD Ctx.init
  let one (x : Nat) : List Word := [BitVec.ofNat 32 x]
  let two (x : Nat) : List Word := words2 (BitVec.ofNat 64 x)
  match n with
  | 0 => [(laneAt w.lanes lane).fpte.zeroExtend 32]
  | 1 => [(laneAt w.lanes lane).fpfl.zeroExtend 32]
  | 2 => one c.chkm
  | 3 => two c.adtb
  | 4 => two c.htab
  | 5 => two c.rdst
  | 6 => one c.qsel
  | 7 => one (s.stat w hnd)
  | _ => one (s.lwid w.core)

def execSysr (c : Common) (d : Fld) (n : BitVec 12) (s : State) : Out :=
  vop (.sysr c d n) d (fun s w l => (s.control w s.iss.hnd n.toNat l, 0)) s

/-- The alignment of a pair register. -/
def ctlAlign : Nat → Nat
  | 3 => 32
  | 4 => 128
  | _ => 8

/-- A QSEL that R267 admits. -/
def qselOk (x : Nat) : Bool := decide (x % 64 + x / 256 % 128 ≤ 64)

/-- The bits of QSEL that hold something. -/
def qselBits (x : Nat) : Nat := x % 64 + 256 * (x / 256 % 128)

/-- A lane's FPTE and FPFL set. -/
def setFp (te : Bool) (x : BitVec 5) (l : Lane) : Lane := if te then { l with fpte := x } else { l with fpfl := x }

/-- SYSW's effect: a lane's register by lane, a context's register once; the others none. -/
def sysw (n : Nat) (a : Fld) (w : Warp) (act : Mask) (s : State) : State :=
  let x := (s.rd w a.toNat 0).toNat
  let y := (s.rd2 w a.toNat 0).toNat
  let ctx (f : Ctx → Ctx) : State := (s.onCtx w.ctx f).advance w s.iss.lanes
  let desc := s.trapWhole w act (tABORT, aDESC, 0)
  match n with
  | 0 | 1 => ((lanesOf act).foldl (fun t l => t.onLanes w false (1#32 <<< l) (setFp (n = 0) ((s.rd w a.toNat l).extractLsb' 0 5))) s).advance w s.iss.lanes
  | 3 => if y % ctlAlign 3 ≠ 0 then desc else ctx fun c => { c with adtb := y }
  | 4 => if y % ctlAlign 4 ≠ 0 then desc else ctx fun c => { c with htab := y }
  | 5 => if y % ctlAlign 5 ≠ 0 then desc else ctx fun c => { c with rdst := y }
  | 6 => if !qselOk x then desc else ctx fun c => { c with qsel := qselBits x }
  | _ => s.advance w s.iss.lanes

def execSysw (c : Common) (a : Fld) (n : BitVec 12) (s : State) : Out := perform (.sysw c a n) (sysw n.toNat a) s

/-! ## CLOCK and PMC (R306) -/

/-- A core's count of main-clock cycles, read: some amount past what it last read, and past the issuing quadrant's cycle (log entry 6). -/
def State.cycNow (s : State) (core : Nat) : Nat × State :=
  let r := s.drawNat (2 ^ 64)
  let v := max (s.core core).cyc s.iss.now + r.1
  (v, r.2.onCore core fun c => { c with cyc := v })

/-- What CLOCK reads at issue. -/
def State.clockNow (s : State) (w : Warp) (nsec : Bool) : Nat × State := if nsec then (s.ns, s) else s.cycNow w.core

def execClock (c : Common) (nsec : Bool) (d : Fld) (s : State) : Out :=
  perform (.clock c nsec d) (fun w act s =>
    laneResults w act d.toNat (fun _ => (words2 (BitVec.ofNat 64 (s.clockNow w nsec).1), 0)) (s.clockNow w nsec).2) s

def execPmc (c : Common) (d : Fld) (e : BitVec 6) (s : State) : Out :=
  vop2 (.pmc c d e) d (fun s w _ => BitVec.ofNat 64 (sget 0 e.toNat (((s.block? w.blk).map (·.pmc)).getD []))) s

/-! ## HGET and HSET (R304) -/

/-- The register that a VREG access reaches in a lane. -/
def hIndex (s : State) (w : Warp) (x : Fld) (l : Nat) : Nat := (s.rd w x.toNat l).toNat

/-- Lanes whose VREG index the warp does not hold: illegal-operand. -/
def hBad (k : HKind) (x : Fld) (w : Warp) (act : Mask) (s : State) : Mask :=
  if k = .vreg then maskOf fun l => act.getLsbD l && decide (64 * w.gran ≤ hIndex s w x l) else 0

/-- The sixteen predicates of a lane. -/
def Warp.preds (w : Warp) (l : Nat) : Nat := (List.range 16).foldl (fun n k => n + bitN (w.pred k l) k) 0

/-- A lane's position as HGET POS reads it. -/
def Lane.posWord (l : Lane) : Word64 := BitVec.ofNat 64 (l.hdr % 2 ^ 52 + 2 ^ 56 * (l.idx % 32))

/-- What HGET reads in a lane. -/
def hRead (k : HKind) (x : Fld) (s : State) (w : Warp) (l : Nat) : List Word :=
  match k with
  | .vreg => [s.reg w (hIndex s w x l) l]
  | .pred => [BitVec.ofNat 32 (w.preds l)]
  | .fpfl => [(laneAt w.lanes l).fpfl.zeroExtend 32]
  | .fpte => [(laneAt w.lanes l).fpte.zeroExtend 32]
  | .pos => words2 (laneAt w.lanes l).posWord

def execHget (c : Common) (k : HKind) (d x : Fld) (s : State) : Out :=
  perform (.hget c k d x) (fun w act s =>
    let bad := hBad k x w act s
    if bad ≠ 0#32 then s.trapAll w bad tOPERAND 0 0 0
    else (s.wr w d.toNat ((lanesOf act).map fun l => (l, hRead k x s w l))).advance w s.iss.lanes) s

/-- What HSET writes in a lane. -/
def hWrite (k : HKind) (d x : Fld) (w : Warp) (t s : State) (l : Nat) : State :=
  let m : Mask := 1#32 <<< l
  let v := s.rd w d.toNat l
  match k with
  | .vreg => t.wr w (hIndex s w x l) [(l, [v])]
  | .pred => (List.range 16).foldl (fun t n => t.wrP w n [(l, v.getLsbD n)]) t
  | .fpfl => t.onLanes w false m (setFp false (v.extractLsb' 0 5))
  | .fpte => t.onLanes w false m (setFp true (v.extractLsb' 0 5))
  | .pos =>
    let p := s.rd2 w d.toNat l
    (t.onLanes w false m fun y => { y with hdr := (p.extractLsb' 0 52).toNat, idx := (p.extractLsb' 56 5).toNat }).onBank w.q fun b =>
      { b with posSet := b.posSet ||| m }

def execHset (c : Common) (k : HKind) (d x : Fld) (s : State) : Out :=
  perform (.hset c k d x) (fun w act s =>
    let bad := hBad k x w act s
    if bad ≠ 0#32 then s.trapAll w bad tOPERAND 0 0 0
    else ((lanesOf act).foldl (fun t l => hWrite k d x w t s l) s).advance w s.iss.lanes) s

/-! ## HRET (R291, R305) -/

/-- The sub-warp whose handler runs in a warp's quadrant. -/
def State.bankSub (s : State) (w : Warp) : SubWarp :=
  match (s.quad w.q).bank with | some b => b.sub | none => { cls := 0, since := 0, lanes := [] }

/-- What the handler received of a lane's trap. -/
def SubWarp.lane (x : SubWarp) (l : Nat) : TrapLane := (x.lanes.find? fun t => t.lane = l).getD (TrapLane.of l 0 0 0 0)

/-- Lanes whose retry position HSET wrote to no instruction of a recorded clause (R304). -/
def State.posBad (s : State) (w : Warp) (act : Mask) : Mask :=
  let set := match (s.quad w.q).bank with | some b => b.posSet | none => 0
  maskOf fun l => act.getLsbD l && set.getLsbD l &&
    (let p := laneAt w.lanes l; !s.recorded w p.hdr || decide (s.countAt w p.hdr + 1 < p.idx))

/-- The lanes return by retry: to their positions. -/
def retryLanes (w : Warp) (act : Mask) (s : State) : State :=
  (s.advance w (s.iss.lanes &&& ~~~act)).leaveHandler w act fun _ l => (l.hdr, l.idx)

/-- The lanes return by skip: past the instruction at their positions, or to them for a deferred data abort; a REDO that faulted sends a void entry. -/
def skipLanes (w : Warp) (act : Mask) (s : State) : State :=
  let x := s.bankSub w
  let held := x.cls = tXLATE || x.cls = tALIGN || x.cls = tABORT
  let redo := if held then (lanesOf act).foldl (fun t l => t.redoSkip w (x.lane l)) s else s
  (redo.advance w (s.iss.lanes &&& ~~~act)).leaveHandler w act fun _ l =>
    if x.cls = tDEFER then (l.hdr, l.idx) else nextPos l.hdr l.idx (s.countAt w l.hdr)

/-- Where a lane stood when its handler was entered: at the instruction that trapped, whatever HSET has written since. -/
def State.entryPos (s : State) (w : Warp) (l : Nat) : Nat × Nat := ((s.quad w.q).bank.bind fun b => b.entry[l]?).getD (0, 0)

/-- Lanes of a running handler escalate with their own trap (R291). -/
def State.escHandler (s : State) (w : Warp) (m : Mask) : State :=
  let x := s.bankSub w
  let t := x.lane (lowestLane m)
  let p := if x.cls = tDEFER then (t.fpos, t.fidx) else s.entryPos w (lowestLane m)
  s.escalate w x.cls t.cause m (p.1 + 8 * p.2) t.addr

def execHretRetry (c : Common) (s : State) : Out :=
  perform (.hretRetry c) (fun w act s =>
    let bad := s.posBad w act
    if bad ≠ 0#32 then s.trapAll w bad tCLAUSE 0 0 0 else retryLanes w act s) s

def execHretSkip (c : Common) (s : State) : Out :=
  perform (.hretSkip c) (fun w act s =>
    let no := maskOf fun l => act.getLsbD l && ((s.bankSub w).lane l).noSkip
    let bad := s.posBad w act
    if bad ≠ 0#32 then s.trapAll w bad tCLAUSE 0 0 0
    else if no ≠ 0#32 then s.escHandler w no
    else skipLanes w act s) s

def execHretEsc (c : Common) (s : State) : Out :=
  perform (.hretEsc c) (fun w act s =>
    let bad := s.posBad w act
    if bad ≠ 0#32 then s.trapAll w bad tCLAUSE 0 0 0 else s.escHandler w act) s

/-! ## HANDLER_ENTRY (R287, R289, R362) -/

/-- Every load and atomic that the lanes of a sub-warp issued has ended, and none of the quadrant's handlers is in flight. -/
def State.entryReady (s : State) (w : Warp) (x : SubWarp) : Bool :=
  !s.net.any fun r => r.k.dst.isSome && (match s.warp? r.org.warp with
    | some v => decide (v.q = w.q) && (r.hnd || (decide (v.id = w.id) && (if r.uni = 0#32 then (trapMask x.lanes).getLsbD r.lane
        else decide (r.uni &&& trapMask x.lanes ≠ 0#32))))
    | none => false)

/-- The order in which trapped sub-warps take the bank. -/
def subBefore (a b : Warp × SubWarp) : Bool :=
  decide (a.2.since < b.2.since) || (decide (a.2.since = b.2.since) &&
    (decide (a.1.slot < b.1.slot) || (decide (a.1.slot = b.1.slot) && decide (a.2.cls < b.2.cls))))

def firstSub : List (Warp × SubWarp) → Option (Warp × SubWarp)
  | [] => none
  | a :: r => match firstSub r with | none => some a | some b => if subBefore b a then some b else some a

/-- The sub-warp that takes a quadrant's bank next. -/
def State.nextSub (s : State) (q : Nat) : Option (Warp × SubWarp) :=
  firstSub ((s.warps.filter fun w => decide (w.q = q) && s.mayIssue w).flatMap fun w => w.traps.map fun x => (w, x))

/-- A sub-warp that finds no handler escalates with its own trap. -/
def State.noHandler (s : State) (w : Warp) (x : SubWarp) : State :=
  match x.lanes with
  | [] => s
  | t :: _ => s.escalate w x.cls t.cause (trapMask x.lanes)
      (if x.cls = tDEFER then t.fpos + 8 * t.fidx else (laneAt w.lanes t.lane).addr) t.addr

/-- The table's page is asked for; a request that failed makes the entry unreadable. -/
def State.tablePage (s : State) (w : Warp) (x : SubWarp) (va : Nat) : State :=
  let r := s.engineMiss { s.origin w 0 0 with seq := 2 ^ 64 + w.id } va .read
  if r.2 then r.1.noHandler w x else r.1

/-- A sub-warp reads its class's entry of the handler table and enters, or escalates. -/
def State.enterTable (s : State) (w : Warp) (x : SubWarp) : State :=
  let c := (s.ctx? w.ctx).getD Ctx.init
  let va := c.htab + 8 * x.cls
  if c.htab = 0 || 2 ^ 52 ≤ va then s.noHandler w x
  else
    let r := s.coreXl w.core c.group va .read
    let s := r.2.2
    match r.1 with
    | .fault _ => s.noHandler w x
    | .abort pa => (s.detect pa (w.core / 8) (w.core % 8) c.group).noHandler w x
    | .svc => s.tablePage w x va
    | .ok t _ =>
      match s.readTgt t 8 with
      | .error k => (match t with
          | .dev pa => if k = fABORT then (s.detect pa (w.core / 8) (w.core % 8) c.group).noHandler w x else s.noHandler w x
          | _ => s.noHandler w x)
      | .ok b => if ofBytes b ≠ 0 && c.recorded (ofBytes b) then s.enterHandler w x (ofBytes b) else s.noHandler w x

/-- HANDLER_ENTRY: the bank of a quadrant, when free, goes to the sub-warp that trapped first. -/
def execHandlerEntry (q : Nat) (s : State) : Out :=
  .next (if (s.quad q).bank.isSome || s.quadOff q then s
    else match s.nextSub q with
      | some (w, x) => if s.entryReady w x then s.enterTable w x else s
      | none => s)

end Sys2Proof.Machine
end

