-- ==== Sys2Proof/Machine/Place.lean ====
section
/-! DEFINITION. Placing (R80 to R90, R94, R97): what is free, which cluster, cores and quadrants a head gets, holds, budgets, and the end of warps and
blocks (R113). -/

namespace Sys2Proof.Machine

/-! ## What is free (R84, R87, R88, R94) -/

/-- The 32 granules that a quadrant draws from those that work. -/
def Quad.pool (q : Quad) : List Nat := ((List.range 34).filter fun g => !q.badGran.contains g).take 32

def State.residents (s : State) (q : Nat) : List Warp := s.warps.filter fun w => w.q = q

def State.freeSlots (s : State) (q : Nat) : List Nat := (List.range 16).filter fun k => !(s.residents q).any fun w => w.slot = k

def State.freeGran (s : State) (q : Nat) : List Nat :=
  (s.quad q).pool.filter fun g => !(s.residents q).any fun w => (w.gmap.take w.gran).contains g

/-- Warps of `g` granules that a quadrant can still take. -/
def State.quadFit (s : State) (q g : Nat) : Nat := min (s.freeSlots q).length ((s.freeGran q).length / g)

def State.coreFit (s : State) (core g : Nat) : Nat := [0, 1, 2, 3].foldl (fun n k => n + s.quadFit (4 * core + k) g) 0

def State.coreWarps (s : State) (core : Nat) : Nat := (s.warps.filter fun w => w.core = core).length

/-- The image of a resident block. -/
def State.blockImg (s : State) (b : Block) : Img := ((s.ctx? b.ctx).map (·.h)).getD Img.init

/-- A sum over the resident blocks of a core. -/
def State.coreSum (s : State) (core : Nat) (f : Img → Nat) : Nat :=
  (s.blocks.filter fun b => b.core = core).foldl (fun n b => n + f (s.blockImg b)) 0

/-- A core that blocks may be placed on (R83). -/
def State.eligibleCore (s : State) (core : Nat) : Bool :=
  let c := s.core core
  !c.retired && decide (c.inv = .idle)

/-- A core is held for a block (R86). -/
def State.heldCore (s : State) (core : Nat) : Bool := s.waits.any fun w => w.hold.contains core

/-- The resources for a block of an image are free on a core (R84). -/
def State.coreRoom (s : State) (core : Nat) (h : Img) : Bool :=
  s.eligibleCore core && decide (h.warps ≤ s.coreFit core h.gran) && decide (s.coreSum core (·.scratch) + h.scratch ≤ 1536) &&
    decide (s.coreSum core (·.accs) + h.accs ≤ 32)

/-- Tile names of a cluster that no group holds. -/
def State.freeNames (s : State) (cl : Nat) : Nat := 1024 - (s.cgroups.filter fun g => g.cluster = cl).foldl (fun n g => n + g.names) 0

/-! ## Choice (R83, R84) -/

/-- A load as a fraction: 512 × warps, width. -/
abbrev Load := Nat × Nat

/-- One load below another; a width of zero is above all. -/
def Load.lt (a b : Load) : Bool := decide (a.2 ≠ 0) && (decide (b.2 = 0) || decide (a.1 * b.2 < b.1 * a.2))

/-- The first item of least load. -/
def leastLoad (f : Nat → Load) : List Nat → Option Nat
  | [] => none
  | a :: r => match leastLoad f r with | none => some a | some b => if Load.lt (f b) (f a) then some b else some a

def coresOf (cl : Nat) : List Nat := (List.range 8).map (8 * cl + ·)

/-- The load of a cluster. -/
def State.load (s : State) (cl : Nat) : Load :=
  let live := (coresOf cl).filter fun k => !(s.core k).retired
  (512 * (coresOf cl).foldl (fun n k => n + s.coreWarps k) 0, live.foldl (fun n k => n + s.coreWidth k) 0)

/-- The leaf's choice of `n` distinct cores for the blocks of a group, one after another. -/
def State.leafPick (s : State) (cl : Nat) (h : Img) : Nat → List Nat → Option (List Nat)
  | 0, got => some got
  | n + 1, got =>
    match leastLoad (fun k => (512 * (s.coreWarps k + h.warps), s.coreWidth k))
        ((coresOf cl).filter fun k => !got.contains k && !s.heldCore k && s.coreRoom k h) with
    | some k => leafPick s cl h n (got ++ [k])
    | none => none

/-! ## Budgets (R89, R90) -/

/-- The power charge of a block. -/
def Img.watts (h : Img) : Nat := h.warps + 3 * h.accs + (h.scratch + 127) / 128

/-- A charge of the blocks that `p` picks, with `n` more of an image. -/
def State.watts (s : State) (p : Block → Bool) (n : Nat) (h : Img) : Nat :=
  (s.blocks.filter p).foldl (fun k b => k + (s.blockImg b).watts) (n * h.watts)

/-- The distinct cores of the blocks that `p` picks and of others. -/
def State.coreCount (s : State) (p : Block → Bool) (more : List Nat) : Nat :=
  ((s.blocks.filter p).foldl (fun l b => insNat b.core l) (more.foldl (fun l k => insNat k l) [])).length

/-- Whether a block is of a context group, or of a grid. -/
def State.ofGroup (s : State) (g : Nat) (b : Block) : Bool := match s.ctx? b.ctx with | some c => decide (c.group = g) | none => false

def State.ofGrid (s : State) (g : Nat) (b : Block) : Bool := match s.ctx? b.ctx with | some c => decide (c.grid = g) | none => false

/-- Both sets of budgets admit blocks of a context on some cores. -/
def State.admits (s : State) (c : Ctx) (cores : List Nat) : Bool :=
  let t := s.rollWindow
  let g := t.grp c.group
  let grid := (t.grid? c.grid).map (·.winLast)
  let n := cores.length
  decide (s.coreCount (s.ofGroup c.group) cores ≤ g.cbud) && decide (s.coreCount (s.ofGrid c.grid) cores ≤ c.h.cbud) &&
    decide (s.watts (s.ofGroup c.group) n c.h ≤ g.pbud) && decide (s.watts (s.ofGrid c.grid) n c.h ≤ c.h.pbud) &&
    (decide (g.bbud = 0) || decide (g.winLast < g.bbud)) && (decide (c.h.bbud = 0) || decide (grid.getD 0 < c.h.bbud))

/-- A grid that its budgets could never admit (R90). -/
def State.neverAdmits (s : State) (h : Img) : Bool :=
  let g := s.grp h.group
  decide (min g.cbud h.cbud < h.gsize) || decide (min g.pbud h.pbud < h.gsize * h.watts)

/-! ## Placing a group (R82, R84, R85, R87, R88) -/

/-- The open quadrant of least value for a warp of `g` granules. -/
def State.bestQuad (s : State) (core g : Nat) : Option Nat :=
  ([0, 1, 2, 3].filter fun k => decide (0 < s.quadFit (4 * core + k) g)).foldl (fun best k =>
    let v (k : Nat) : Nat := (s.residents (4 * core + k)).length * (s.quad (4 * core + k)).beats
    match best with | none => some k | some b => if v k < v b then some k else some b) none

/-- A warp given a quadrant, a slot and granules of a core. -/
def State.placeWarp (s : State) (w : Warp) (core : Nat) : State :=
  match s.bestQuad core w.gran with
  | none => s
  | some k =>
    let q := 4 * core + k
    let v : Warp := { w with core := core, quad := k, slot := (s.freeSlots q).headD 0, gmap := (s.freeGran q).take w.gran,
                             pace := { Pace.init with notBefore := (s.quad q).cycle }, movx := 0, fixed := [] }
    { s with warps := s.warps ++ [v] }

/-- A warp as a block starts it. -/
def freshWarp (c : Ctx) (id blk wi : Nat) : Warp :=
  { id := id, ctx := c.id, blk := blk, wi := wi, core := 0, quad := 0, slot := 0, gran := c.h.gran, gmap := [],
    lanes := List.replicate 32 { Lane.init with hdr := c.entry, fpte := BitVec.ofNat 5 c.h.fpte }, v := [], s := [], p := [], decl := [], signed := [],
    tok := [], pace := Pace.init, fixed := [], movx := 0, fail := FailRec.none, traps := [], acq := false, recs := [], liveG := 0, liveR := [] }

/-- A block as it starts. -/
def freshBlock (c : Ctx) (id lin pos cg : Nat) : Block :=
  { id := id, ctx := c.id, lin := lin, pos := pos, cg := cg, core := 0, scratch := [], badWords := [], bars := [], acc := [], aflags := [], fail := FailRec.none,
    voided := false, atEntry := true, warpsLeft := c.h.warps, pmc := [], missed := [] }

/-- A cluster group as it starts (R81, R210). -/
def freshGroup (c : Ctx) (id gidx size : Nat) : CGroup :=
  { id := id, ctx := c.id, gidx := gidx, cluster := 0, size := size, left := size, hasRec := decide (c.h.names ≠ 0) || decide (1 < c.h.gsize),
    cbar := Bar.idle, names := c.h.names, entries := [], free := List.range c.h.names, heads := [], leaf := .none, again := false }

/-- The first block of a restored image on a core empties its read-only cache (R185). -/
def State.freshRo (s : State) (ctx core : Nat) : State :=
  match s.ctx? ctx with
  | some c =>
    if c.roFresh.contains core then s
    else ((s.onCtx ctx fun c => { c with roFresh := core :: c.roFresh }).onCore core fun k => { k with ro := [] }).poison
      fun r => r.roFill && decide (r.org.core = core)
  | none => s

/-- The grid's notes of a block on a core: its core set (R310), and what R316 asks. -/
def Grid.note (g : Grid) (lin core : Nat) (ok : Bool) : Grid :=
  let e := g.enter core
  { e with ran := if e.ran.contains (lin, core) then e.ran else e.ran ++ [(lin, core)], unrep := if ok then e.unrep else insNat lin e.unrep }

/-- A block and its warps placed on a core. -/
def State.placeBlock (s : State) (c : Ctx) (b : Block) (ws : List Warp) (core : Nat) : State :=
  let s := s.freshRo c.id core
  let s := s.onGrid c.grid fun g => g.note b.lin core (c.idem && b.atEntry && !b.voided)
  let t : State := { s with blocks := s.blocks ++ [{ b with core := core }] }
  ws.foldl (fun s w => s.placeWarp w core) t

/-- A fresh group placed on cores. -/
def State.placeFresh (s : State) (c : Ctx) (gidx cl : Nat) (lins cores : List Nat) : State :=
  let r := s.fresh
  let g := { freshGroup c r.1 gidx lins.length with cluster := cl }
  let t : State := { r.2 with cgroups := r.2.cgroups ++ [g] }
  (lins.zip cores).foldl (fun s x =>
    let b := s.fresh
    let ws := (List.range c.h.warps).foldl (fun (p : List Warp × State) wi =>
      let i := p.2.fresh; (p.1 ++ [freshWarp c i.1 b.1 wi], i.2)) ([], b.2)
    ws.2.placeBlock c (freshBlock c b.1 x.1 (x.1 % c.h.gsize) g.id) ws.1 x.2) t

/-- A saved group placed again. A set saved complete is released at once (R107, R248). -/
def State.placeSaved (s : State) (c : Ctx) (cl : Nat) (v : CGroup × List Block × List Warp) (cores : List Nat) : State :=
  let t : State := { s with cgroups := s.cgroups ++ [{ v.1 with cluster := cl, leaf := .none }] }
  let u := (v.2.1.zip cores).foldl (fun s x => s.placeBlock c x.1 (v.2.2.filter fun w => w.blk = x.1.id) x.2) t
  v.2.2.foldl (fun s w => s.convergeAll w.id) u

/-- How many blocks a waiting head places. -/
def Wait.size (w : Wait) : Nat := match w.saved with | some v => v.2.1.length | none => w.lins.length

/-- A waiting head placed: it leaves the waiting heads, the next of its grid begins to wait as a head, and the dispatch cursor passes fresh blocks. -/
def State.placeWait (s : State) (c : Ctx) (w : Wait) (cl : Nat) (cores : List Nat) : State :=
  let t : State := { s with waits := (s.waits.erase w).map fun x => if x.ctx = w.ctx then { x with since := s.ns } else x }
  match w.saved with
  | some v => t.placeSaved c cl v cores
  | none =>
    let u := t.placeFresh c w.gidx cl w.lins cores
    if w.replay then u else u.onCtx c.id fun c => { c with cursor := c.cursor + w.lins.length }

/-! ## SCHEDULER_PASS (R82, R83, R86, R97) -/

/-- The head of a grid: groups that re-enter before those not yet dispatched, in the order in which they were saved
(log entry 90). Nothing of the grid is handed over before it is placed (R82). -/
def State.headOf (s : State) (c : Ctx) : Option Wait :=
  let l := s.waits.filter fun w => w.ctx = c.id
  match l.find? fun w => w.saved.isSome || w.replay with
  | some w => some w
  | none => l.head?

/-- The head of the blocks not yet dispatched joins the waiting heads, once nothing of its grid waits before it. -/
def State.offerFresh (s : State) (c : Ctx) : State :=
  if c.src = .leaf || c.h.total ≤ c.cursor || (s.waits.any fun w => w.ctx = c.id) then s
  else
    let g := c.cursor / c.h.gsize
    let w : Wait := { ctx := c.id, gidx := g, lins := c.h.groupLins g, since := s.ns, saved := none, replay := false, hold := [], leaf := none }
    { s with waits := s.waits ++ [w] }

/-- A head that has a hold is placed where it is held once all its blocks fit. Log entry 90: while a group that re-enters stands before it (R82) it waits, and
a held core that is retired stays held. -/
def State.tryHeld (s : State) (w : Wait) : State :=
  match s.ctx? w.ctx, w.leaf with
  | some c, some cl =>
    if decide (c.phase = .running) && decide (s.headOf c = some w) && (w.hold.all fun k => s.coreRoom k c.h) && decide (c.h.names ≤ s.freeNames cl) && s.admits c w.hold then
      s.placeWait c w cl w.hold
    else s
  | _, _ => s

/-- The clusters that can take a head, with the cores that their leaves would choose. -/
def State.takers (s : State) (c : Ctx) (n : Nat) : List (Nat × List Nat) :=
  (List.range s.nClusters).filterMap fun cl =>
    match s.leafPick cl c.h n [] with
    | some cores => if decide (c.h.names ≤ s.freeNames cl) && s.admits c cores then some (cl, cores) else none
    | none => none

/-- A head offered to every cluster. -/
def State.tryHead (s : State) (c : Ctx) (w : Wait) : State :=
  let l := s.takers c w.size
  match leastLoad s.load (l.map (·.1)) with
  | some cl => (match l.find? fun x => x.1 = cl with | some x => s.placeWait c w cl x.2 | none => s)
  | none => s

/-- Contexts in order of grid arrival. -/
def insCtx (c : Ctx) : List Ctx → List Ctx
  | [] => [c]
  | d :: r => if (c.grid, c.id).1 < d.grid || (c.grid = d.grid && c.id < d.id) then c :: d :: r else d :: insCtx c r

def execSchedulerPass (s : State) : Out :=
  let s := s.waits.foldl (fun s w => if w.hold.isEmpty then s else s.tryHeld w) s
  let cs := (s.ctxs.filter fun c => c.phase = .running).foldl (fun l c => insCtx c l) []
  .next (cs.foldl (fun s c =>
    match s.ctx? c.id with
    | none => s
    | some c =>
      let s := s.offerFresh c
      match s.headOf c with
      | some w => if w.hold.isEmpty then s.tryHead c w else s
      | none => s) s)

/-! ## HEAD_HOLD_TIMEOUT (R86) -/

/-- The eligible unheld core with most free granules. -/
def State.roomiest (s : State) (l : List Nat) : Option Nat :=
  let free (k : Nat) : Nat := [0, 1, 2, 3].foldl (fun n i => n + (s.freeGran (4 * k + i)).length) 0
  l.foldl (fun best k => match best with | none => some k | some b => if free b < free k then some k else some b) none

/-- The cores that a leaf would hold for `n` blocks. -/
def State.holdPick (s : State) (cl : Nat) : Nat → List Nat → Option (List Nat)
  | 0, got => some got
  | n + 1, got =>
    match s.roomiest ((coresOf cl).filter fun k => !got.contains k && s.eligibleCore k && !s.heldCore k) with
    | some k => holdPick s cl n (got ++ [k])
    | none => none

/-- Some cluster has cores for every block of a head. What budgets or tile names deny it gives it no hold. -/
def State.fitsSome (s : State) (c : Ctx) (w : Wait) : Bool := (List.range s.nClusters).any fun cl => (s.leafPick cl c.h w.size []).isSome

/-- Waiting head `n` has waited 2 ms and fits nowhere: a leaf holds cores for it, of the clusters that have enough cores to hold (log entry 90). -/
def execHeadHoldTimeout (n : Nat) (s : State) : Out :=
  .next (match s.waits[n]? with
    | none => s
    | some w =>
      let due := w.hold.isEmpty && decide (w.since + 2000000 ≤ s.ns)
      match s.ctx? w.ctx with
      | none => s
      | some c =>
        if !due || decide (c.phase ≠ .running) || decide (s.headOf c ≠ some w) || s.fitsSome c w then s
        else
          let l := (List.range s.nClusters).filter fun cl => (s.holdPick cl w.size []).isSome
          match leastLoad s.load l with
          | none => s
          | some cl =>
            let cores := (s.holdPick cl w.size []).getD []
            { s with waits := s.waits.map fun x => if x = w then { x with hold := cores, leaf := some cl } else x })

/-- BANDWIDTH_WINDOW_END (R89): a window of 10 µs of the device clock has ended. -/
def execBandwidthWindowEnd (s : State) : Out :=
  .next s.rollWindow

/-! ## WARP_END and BLOCK_END (R113) -/

/-- A context being removed ends by its own steps (R298). -/
def State.removingCtx (s : State) (ctx : Nat) : Bool :=
  match s.ctx? ctx with | some c => (match c.phase with | .removing _ _ _ => true | _ => false) | none => false

def execWarpEnd (n : Nat) (s : State) : Out :=
  .next (match s.warps[n]? with
    | some w =>
      if w.allExited && (s.pending w).isEmpty && w.traps.isEmpty && !s.removingCtx w.ctx then
        { s with warps := dropAt n s.warps }.onBlock w.blk fun b => { b with warpsLeft := b.warpsLeft - 1 }
      else s
    | none => s)

/-- Work of a block that has not landed, failed or committed. -/
def State.blockBusy (s : State) (b : Nat) : Bool :=
  (s.copies.any fun x => x.org.blk = b) || (s.defs.any fun x => x.org.blk = b) || (s.readers.any fun x => x.org.blk = b) ||
    (s.mats.any fun x => x.org.blk = b)

/-- Blocks replayed, counted as their group starts again (R308, R317). -/
def State.noteReplay (s : State) (ctx : Nat) (lins : List Nat) : State :=
  match s.ctx? ctx with
  | some c => s.onGrid c.grid fun g => { g with replayed := true, replays := g.replays + lins.length }
  | none => s

/-- A group that is to start again joins the waiting heads (R317). -/
def State.replayWait (s : State) (ctx gidx : Nat) (lins : List Nat) : State :=
  let w : Wait := { ctx := ctx, gidx := gidx, lins := lins, since := s.ns, saved := none, replay := true, hold := [], leaf := none }
  { s with waits := s.waits ++ [w] }

/-- A block ended: its resources are free; the last of its group frees the group's names. -/
def State.endBlock (s : State) (b : Block) : State :=
  let again := ((s.cgroup? b.cg).map (·.again)).getD false
  let s := match s.ctx? b.ctx with
    | some c => s.onGrid c.grid fun g => { g with exited := insNat b.lin g.exited,
                                                  pendingReplay := if again then g.pendingReplay else g.pendingReplay.erase b.lin,
                                                  unrep := if b.voided then insNat b.lin g.unrep else g.unrep }
    | none => s
  let s := (s.onCtx b.ctx fun c => { c with done := c.done + 1 }).onCGroup b.cg fun g => { g with left := g.left - 1 }
  let last := (s.cgroups.filter fun g => decide (g.id = b.cg) && decide (g.left = 0)).head?
  let t : State := { s with blocks := s.blocks.filter (fun x => x.id ≠ b.id), cgroups := s.cgroups.filter fun g => !(decide (g.id = b.cg) && decide (g.left = 0)) }
  match last with
  | some g =>
    let lins := ((s.ctx? g.ctx).map fun c => c.h.groupLins g.gidx).getD []
    if g.again then (t.noteReplay g.ctx lins).replayWait g.ctx g.gidx lins else t
  | none => t

def execBlockEnd (n : Nat) (s : State) : Out :=
  .next (match s.blocks[n]? with
    | some b => if decide (b.warpsLeft = 0) && !s.blockBusy b.id && !s.removingCtx b.ctx then s.endBlock b else s
    | none => s)

end Sys2Proof.Machine
end

