-- ==== Sys2Proof/Machine/Object.lean ====
section
/-! DEFINITION. Code objects (R10 to R15, R353), the clause-header walk (R35), the portable form's structural errors (R17 to R21) and the translation cache
(R22 to R25, R28). -/

namespace Sys2Proof.Machine

/-! ## Sections (R10 to R12) -/

structure Sect where
  kind : Nat
  mode : Nat
  mask : Nat
  off : Nat
  size : Nat
  req : Nat
  rsv : Nat
  deriving DecidableEq, Repr

/-- A code object as read: its address and bytes. -/
structure Obj where
  va : Nat
  raw : List Byte
  deriving DecidableEq, Repr

def Obj.n (o : Obj) (off k : Nat) : Nat := field o.raw off k

def Obj.nSect (o : Obj) : Nat := o.n 6 2
def Obj.nEnt (o : Obj) : Nat := o.n 16 4

def Obj.sect (o : Obj) (i : Nat) : Sect :=
  let a := o.n 8 8 + 32 * i
  { kind := o.n a 1, mode := o.n (a + 1) 1, rsv := o.n (a + 2) 2, mask := o.n (a + 4) 4, off := o.n (a + 8) 8, size := o.n (a + 16) 8, req := o.n (a + 24) 8 }

def Obj.sects (o : Obj) : List Sect := (List.range o.nSect).map o.sect

def Obj.kinds (o : Obj) (k : Nat) : List Sect := o.sects.filter fun x => x.kind = k

/-- The first section of a kind. -/
def Obj.one (o : Obj) (k : Nat) : Sect := ((o.kinds k).head?).getD { kind := 0, mode := 0, mask := 0, off := 0, size := 0, req := 0, rsv := 0 }

/-- A stretch of bytes is zero. -/
def Obj.zero (o : Obj) (off n : Nat) : Bool := allZero ((o.raw.drop off).take n)

/-- R10's header. A section table that runs past the object, or an object shorter than its header, is refused with it (log entry 83). -/
def Obj.headOk (o : Obj) : Bool :=
  decide (o.raw.take 4 = toBytes 4 0x424F434B) && decide (o.n 4 2 = 1) && decide (1 ≤ o.nSect) && decide (o.nSect ≤ 64) && decide (o.n 8 8 % 8 = 0) &&
    decide (1 ≤ o.nEnt) && decide (o.nEnt ≤ 4096) && decide (o.n 20 4 < 2) && o.zero 32 32 && decide (64 ≤ o.n 24 8) &&
    decide (o.n 8 8 + 32 * o.nSect ≤ o.n 24 8)

/-- R11's record, within the object. -/
def Sect.ok (x : Sect) (size : Nat) : Bool :=
  decide (1 ≤ x.kind) && decide (x.kind ≤ 5) && decide (x.rsv = 0) && decide (x.mode < 4) && decide (x.off + x.size ≤ size) &&
    decide (x.off % (if x.kind = 1 then 256 else 16) = 0) && (decide (x.kind = 1) || (decide (x.mask = 0) && decide (x.req = 0)))

/-- Two stretches of bytes share none. -/
def apart (a n b m : Nat) : Bool := decide (n = 0) || decide (m = 0) || decide (a + n ≤ b) || decide (b + m ≤ a)

def pairwiseApart : List (Nat × Nat) → Bool
  | [] => true
  | x :: r => (r.all fun y => apart x.1 x.2 y.1 y.2) && pairwiseApart r

/-- The section counts of R12. -/
def Obj.countsOk (o : Obj) : Bool :=
  let n (k : Nat) : Nat := (o.kinds k).length
  decide (n 3 = 1) && decide (n 4 = 1) && decide (n 2 ≤ 1) && decide (1 ≤ n 1 + n 2) && decide (o.n 20 4 % 2 = n 2)

/-! ## Entries, resources, slots (R13, R14) -/

/-- An entry record: resource index, portable index, flags. -/
def Obj.entry (o : Obj) (k : Nat) : Nat × Nat × Nat := let a := (o.one 3).off + 32 * k; (o.n (a + 8) 4, o.n (a + 12) 4, o.n (a + 16) 4)

/-- The address of a resource record within the object. -/
def Obj.resAt (o : Obj) (k : Nat) : Nat := (o.one 4).off + 32 * k

def Obj.resOk (o : Obj) (k : Nat) : Bool :=
  let a := o.resAt k
  decide (1 ≤ o.n a 1) && decide (o.n a 1 ≤ 32) && decide (1 ≤ o.n (a + 1) 1) && decide (o.n (a + 1) 1 ≤ 8) && decide (o.n (a + 2) 2 ≤ 1536) &&
    decide (o.n (a + 4) 1 ≤ 32) && decide (o.n (a + 5) 1 ≤ 16) && decide (o.n (a + 6) 2 ≤ 1024) && o.zero (a + 8) 24

def Obj.tablesOk (o : Obj) : Bool :=
  let e := o.one 3
  let r := o.one 4
  decide (e.size = 32 * o.nEnt) && decide (r.size ≠ 0) && decide (r.size % 32 = 0) && ((List.range (r.size / 32)).all o.resOk) &&
    (List.range o.nEnt).all fun k => decide ((o.entry k).1 < r.size / 32) && decide ((o.entry k).2.2 < 2) && o.zero (e.off + 32 * k + 20) 12

/-- A native variant's slot of an entry: code offset, granules. -/
def Obj.slot (o : Obj) (x : Sect) (k : Nat) : Nat × Nat := (o.n (x.off + 16 * k) 4, o.n (x.off + 16 * k + 4) 1)

def Obj.nativeOk (o : Obj) (x : Sect) : Bool :=
  decide (16 * o.nEnt ≤ x.size) && (List.range o.nEnt).all fun k =>
    let s := o.slot x k
    decide (s.1 % 8 = 0) && decide (s.1 < x.size) && decide (1 ≤ s.2) && decide (s.2 ≤ 10) && o.zero (x.off + 16 * k + 5) 11

/-! ## Initial data (R353) -/

/-- Where the payload of an initial-data section begins within it. -/
def payloadAt (nrel : Nat) : Nat := (16 + 4 * nrel + 15) / 16 * 16

def Obj.relocs (o : Obj) (x : Sect) : List Nat := (List.range (o.n (x.off + 8) 4)).map fun k => o.n (x.off + 16 + 4 * k) 4

def Obj.dataOk (o : Obj) (x : Sect) : Bool :=
  let nr := o.n (x.off + 8) 4
  let al := o.n (x.off + 4) 4
  decide (16 ≤ x.size) && decide (payloadAt nr ≤ x.size) && decide (3 ≤ al) && decide (al ≤ 16) && decide (o.n (x.off + 12) 4 = 0) &&
    (o.relocs x).all fun r => decide (r % 8 = 0) && decide (r + 8 ≤ x.size - payloadAt nr)

/-- The loader's checks of a whole object (R12). -/
def Obj.ok (o : Obj) : Bool :=
  o.headOk && (o.sects.all fun x => x.ok (o.n 24 8)) && pairwiseApart (o.sects.map fun x => (x.off, x.size)) && o.countsOk && o.tablesOk &&
    (o.kinds 1).all o.nativeOk && (o.kinds 5).all o.dataOk

/-- The object at an address: ACCESS where a byte of it cannot be read, BAD-OBJECT where it breaks a rule (R12, R360 step 5). -/
def State.loadObj (s : State) (group va : Nat) : Except Nat Obj :=
  match s.readVa group va 64 .read with
  | .error _ => .error stACCESS
  | .ok h =>
    match s.readVa group va (max 64 (field h 24 8)) .read with
    | .error _ => .error stACCESS
    | .ok b => let o : Obj := { va := va, raw := b }; if o.ok then .ok o else .error 1

/-! ## Variant choice (R15) -/

/-- The code that a context runs: a native variant by its section, interlocked or not, governed or not; or a translation for a stepping by a revision. -/
inductive Pick where
  | native (k : Nat) (inter gov : Bool)
  | portable (step rev : Nat) (inter : Bool)
  deriving DecidableEq, Repr

/-- The highest bit of a mask, plus one. -/
def topBit (m : Nat) : Nat := ((List.range 32).filter m.testBit).foldl (fun _ k => k + 1) 0

def Obj.eligible (o : Obj) (groups k : Nat) : Bool := let x := o.sect k; decide (x.kind = 1) && decide (x.req &&& groups = x.req)

/-- R15's choice among native variants for a stepping. -/
def Obj.choose (o : Obj) (groups step : Nat) : Option (Nat × Bool) :=
  let l := (List.range o.nSect).filter (o.eligible groups)
  match l.find? fun k => (o.sect k).mask.testBit step with
  | some k => some (k, (o.sect k).mode.testBit 0)
  | none =>
    ((l.filter fun k => decide (0 < topBit (o.sect k).mask) && decide (topBit (o.sect k).mask ≤ step)).foldl (fun (b : Option Nat) k =>
      match b with | none => some k | some j => if topBit (o.sect j).mask < topBit (o.sect k).mask then some k else some j) none).map fun k => (k, true)

/-- The firmware's newest translator revision, a byte (R63), and whether the firmware carries a revision: every one it has shipped (R28). -/
def newest : Nat := Config.newestRevision % 256

def carries (rev : Nat) : Bool := decide (rev = newest) || Config.shippedRevision rev

/-- The code of an image's Variant field (R15, R28, R68); `saved`: the stepping and revision that a saved image records. -/
def State.pickCode (s : State) (o : Obj) (variant groups : Nat) (saved : Option (Nat × Nat)) : Except Nat Pick :=
  let step := s.stepping.toNat
  let has := !(o.kinds 2).isEmpty
  let fresh : Pick := .portable step newest false
  if variant = 0xFF then
    match o.choose groups step with
    | some (k, i) => .ok (.native k i ((o.sect k).mode.testBit 1))
    | none => if has then .ok fresh else .error 2
  else if variant = 0xFE then
    if !has then .error 6
    else match saved with
    | none => .ok fresh
    | some (st, rev) => if carries rev then .ok (.portable st rev (decide (st ≠ step))) else .error 6
  else if decide (variant < o.nSect) && o.eligible groups variant then
    let x := o.sect variant
    .ok (.native variant (x.mode.testBit 0 || !x.mask.testBit step) (x.mode.testBit 1))
  else .error 6

/-! ## Clause headers (R35) -/

/-- The headers of a list of code words whose first stands at `a`. -/
def walkHeads : Nat → Nat → List Word64 → List Nat
  | 0, _, _ => []
  | fuel + 1, a, ws =>
    match ws with
    | [] => []
    | x :: _ =>
      let h := decHeader x
      if 4 ≤ h.cls.toNat || h.rsvd ≠ 0 then [a] else a :: walkHeads fuel (a + 8 * (h.count.toNat + 2)) (ws.drop (h.count.toNat + 2))

/-- The words of a native section after its slots. -/
def Obj.words (o : Obj) (x : Sect) : List Word64 :=
  (List.range ((x.size - 16 * o.nEnt) / 8)).map fun k => BitVec.ofNat 64 (o.n (x.off + 16 * o.nEnt + 8 * k) 8)

/-! ## The portable form (R17 to R21) -/

/-- Bits `hi` to `lo` of a record. -/
def recBits (r hi lo : Nat) : Nat := r / 2 ^ lo % 2 ^ (hi + 1 - lo)

/-- The formats of R37. -/
inductive PFmt where
  | r | i | w | m | b | t | c | s
  deriving DecidableEq, Repr

/-- The format of an assigned opcode (R55). -/
def fmtOf (op : Nat) : Option PFmt :=
  if op = 0x01A ∨ op = 0x01D then some .w
  else if op = 0x01B ∨ op = 0x219 ∨ op = 0x21A then some .i
  else if op = 0x210 ∨ op = 0x212 then some .b
  else if op ≤ 0x1F ∨ (0x100 ≤ op ∧ op ≤ 0x115) ∨ (0x120 ≤ op ∧ op ≤ 0x123) ∨ (0x200 ≤ op ∧ op ≤ 0x206) ∨ (0x211 ≤ op ∧ op ≤ 0x218) then some .r
  else if (0x280 ≤ op ∧ op ≤ 0x287) ∨ op = 0x28A ∨ op = 0x291 then some .m
  else if 0x288 ≤ op ∧ op ≤ 0x290 then some .r
  else if 0x300 ≤ op ∧ op ≤ 0x30E then some .t
  else if 0x30F ≤ op ∧ op ≤ 0x311 then some .c
  else if 0x380 ≤ op ∧ op ≤ 0x388 then some .s
  else none

/-- The bits that a format's remainder lists (R19). -/
def remMask (f : PFmt) (op : Nat) : Nat :=
  match f with
  | .r => 0
  | .i | .m => 2 ^ 19 - 1
  | .w => 2 ^ 32 - 1
  | .b => if op = 0x210 then 2 ^ 32 - 1 else 7 * 2 ^ 41 + (2 ^ 36 - 1)
  | .t => 2 ^ 9 - 1
  | .c => 2 ^ 38 - 1
  | .s => if op = 0x381 then 2 ^ 44 - 1 else 2 ^ 24 - 1

/-- The native word that a record's fields make with registers `d`, `a`, `b`, but for a branch's offset. A CALL's link register comes from dst, added to
what aux and the modifier give its field: one of the two is zero (R109; log entry 83). -/
def portWord (f : PFmt) (r d a b : Nat) : Word64 :=
  let md := recBits r 117 113
  let x := recBits r 43 0
  BitVec.ofNat 64 (2 ^ 54 * recBits r 127 118 + 2 ^ 44 * recBits r 112 107 % 2 ^ 50 +
    match f with
    | .r => 2 ^ 34 * d + 2 ^ 24 * a + 2 ^ 14 * b + 2 ^ 11 * recBits r 58 56 + 2 ^ 6 * recBits r 55 51 + 2 ^ 5 * recBits r 50 50 + md
    | .i => 2 ^ 34 * d + 2 ^ 24 * a + 2 ^ 5 * recBits x 18 0 + md
    | .w => 2 ^ 34 * d + 4 * recBits x 31 0 + md % 4
    | .m => 2 ^ 34 * d + 2 ^ 24 * a + 2 ^ 8 * recBits x 15 0 + 2 ^ 5 * recBits x 18 16 + md
    | .b => 4 * d + 2 ^ 8 * recBits x 35 32 + 2 ^ 5 * recBits x 43 41 + md
    | .t => 2 ^ 38 * recBits x 5 0 + 2 ^ 28 * a + 2 ^ 18 * b + 2 ^ 8 * d + 2 ^ 5 * recBits x 8 6 + md
    | .c => 2 ^ 41 * recBits x 37 35 + 2 ^ 35 * (a % 64) + recBits x 34 0
    | .s => 2 ^ 34 * d + 2 ^ 24 * a + x)

/-- A stand-in for operand `k` of a record, aligned for any tuple. -/
def standIn (k : Nat) : Nat := 64 * (k + 1)

/-- The operands of a record: value and kind of dst, srcA, srcB. -/
def portOps (r : Nat) : List (Nat × Nat) := [(recBits r 106 91, recBits r 49 48), (recBits r 90 75, recBits r 47 46), (recBits r 74 59, recBits r 45 44)]

def portOp (r k : Nat) : Nat × Nat := (portOps r).getD k (0, 0)

/-- The opcode of a record. -/
def recOp (r : Nat) : Nat := recBits r 127 118

/-- A record's word with values in its operand fields. -/
def portWith (f : PFmt) (r : Nat) (v : Nat → Nat) : Word64 := portWord f r (v 0) (v 1) (v 2)

def decodes (x : Word64) : Option Instr := match decode x with | .ok i => some i | .error _ => none

/-- A CALL whose aux and modifier bits name its link register as a native word does; else dst names it (R109; log entry 83). -/
def linkBits (r : Nat) : Bool := decide (recBits r 43 41 ≠ 0) || decide (recBits r 35 32 ≠ 0) || decide (4 ≤ recBits r 117 113)

/-- The operands for which a record's format has no field. -/
def absentOps (f : PFmt) (r : Nat) : List Nat :=
  match f with
  | .w => [1, 2]
  | .i | .m => [2]
  | .s => if recOp r = 0x381 then [0, 1, 2] else [2]
  | .b => if recOp r = 0x210 || linkBits r then [0, 1, 2] else [1, 2]
  | .c => if recOp r = 0x311 then [0, 1, 2] else [0, 2]
  | .r | .t => []

/-- The record itself where its modifier, permute and remainder make an instruction, else its opcode alone: what decides which fields an instruction uses. -/
def recModel (f : PFmt) (r : Nat) : Nat := if (decodes (portWith f r fun _ => 0)).isSome then r else 2 ^ 118 * recOp r

/-- The record's instruction uses operand `k`: its word may have a nonzero field there, a register's or a narrower one's. -/
def recUses (f : PFmt) (r k : Nat) : Bool :=
  let q := recModel f r
  let may (x : Nat) : Bool := (decodes (portWith f q fun j => if j = k then x else 0)).isSome
  !(absentOps f r).contains k && (may (standIn k) || may 1 || (decodes (portWith f q fun _ => 0)).isNone)

/-- What an operand of a record is: not used; `n` registers that begin at a multiple of `al`; a predicate or convergence register in a register field; or a
tile name or adapter slot below `top` in a field of its own. -/
inductive Role where
  | none
  | reg (n al : Nat) (rd wr : Bool)
  | num
  | tile (top : Nat)
  deriving DecidableEq, Repr

/-- The role of operand `k` of a record. -/
def recRole (f : PFmt) (r k : Nat) : Role :=
  if !recUses f r k then .none
  else if f = .c then .reg 8 1 true false
  else
    let v (j : Nat) : Nat := if !recUses f r j then 0 else if recOp r = 0x30A then 1 else standIn j
    match (decodes (portWith f (recModel f r) v)).bind fun i => (opnds i).find? fun x => decide (x.f.toNat = v k) with
    | some x => if decide (x.k = .pred) || decide (x.k = .conv) then .num else .reg x.n x.n x.rd x.wr
    | none => if f = .t then .tile (if recOp r = 0x30A && k = 1 then 64 else 1024) else .num

/-- Fields of a record's remainder that its instruction does not use: low bit in the record, width, low bit in the native word (R21, R40). -/
def idleFields (f : PFmt) : List (Nat × Nat × Nat) :=
  match f with
  | .t => [(0, 6, 38), (6, 3, 5)]
  | .m => [(0, 16, 8)]
  | _ => []

/-- A nonzero field of the remainder where the instruction has none. -/
def recIdle (f : PFmt) (r : Nat) : Bool :=
  let q := 2 ^ 118 * recOp r + 2 ^ 113 * recBits r 117 113
  let z := portWith f q fun _ => 0
  (decodes z).isSome && (idleFields f).any fun x => decide (r / 2 ^ x.1 % 2 ^ x.2.1 ≠ 0) && (decodes (z ||| BitVec.ofNat 64 (2 ^ x.2.2))).isNone

/-- A structural error of a record in a section of `n` records (R21). A guard with its enable 0 and its other bits not is no unused field here: its instruction
raises illegal-instruction when issued, as R46 says of the native word (log entry 83). -/
def recBad (n r : Nat) : Bool :=
  (portOps r).any (fun o => o.2 = 3) ||
    match fmtOf (recOp r) with
    | none => false
    | some f =>
      decide (recBits r 43 0 &&& remMask f (recOp r) ≠ recBits r 43 0) || (decide (f = .w) && decide (4 ≤ recBits r 117 113)) ||
        ((decide (f = .c) || decide (f = .s)) && decide (recBits r 117 113 ≠ 0)) || (decide (f ≠ .r) && decide (recBits r 58 50 ≠ 0)) ||
        (decide (f = .b) && decide (n ≤ recBits r 31 0)) || recIdle f r || [0, 1, 2].any fun k =>
          match recRole f r k with
          | .none => decide (portOp r k ≠ (0, 0))
          | .reg _ al _ _ => decide (2 ≤ al) && decide ((portOp r k).2 < 2) && decide ((portOp r k).1 % 2 = 1)
          | _ => false

/-- The records of a portable section. -/
def portRecs (b : List Byte) : List Nat := (List.range (b.length / 16)).map fun k => field b (16 * k) 16

/-- The bytes of the portable section. -/
def Obj.portable (o : Obj) : List Byte := let x := o.one 2; (o.raw.drop x.off).take x.size

/-- No structural error: record count, records, entries. A section whose size makes no whole number of records, or whose count R17 does not allow, fails the
translation too (log entry 83). -/
def Obj.portOk (o : Obj) : Bool :=
  let x := o.one 2
  let rs := portRecs o.portable
  decide (x.size % 16 = 0) && decide (1 ≤ rs.length) && decide (rs.length ≤ 2 ^ 24) && !rs.any (recBad rs.length) &&
    (List.range o.nEnt).all fun k => decide ((o.entry k).2.1 < rs.length)

/-! ## The code that runs -/

/-- The chosen code: its section, first clause word, words, recorded headers, how it runs, and each entry's header offset, granules and spill. -/
structure Code where
  base : Nat
  stop : Nat
  first : Nat
  words : List Word64
  heads : List Nat
  translated : Bool
  variant : Nat
  tstep : Nat
  trev : Nat
  inter : Bool
  gov : Bool
  slots : List (Nat × Nat × Nat)
  deriving DecidableEq, Repr

/-- A native variant's code. -/
def Obj.native (o : Obj) (k : Nat) (inter gov : Bool) : Code :=
  let x := o.sect k
  let ws := o.words x
  let base := o.va + x.off
  let first := base + 16 * o.nEnt
  { base := base, stop := base + x.size, first := first, words := ws, heads := walkHeads ws.length first ws, translated := false, variant := k,
    tstep := 0, trev := 0, inter := inter, gov := gov, slots := (List.range o.nEnt).map fun e => let s := o.slot x e; (s.1, s.2, 0) }

/-- KiB that blocks of `warps` warps need for what each of their warps spills, in lines of 32 words (R22). -/
def spillKib (warps lines : Nat) : Nat := (128 * lines * warps + 1023) / 1024

/-- Translated code (R28). -/
def transCode (step rev : Nat) (inter : Bool) (warps : Nat) (r : List Word64 × List (Nat × Nat × Nat)) : Code :=
  let base := 256 * Config.translatedBase
  { base := base, stop := base + 8 * r.1.length, first := base, words := r.1, heads := walkHeads r.1.length base r.1, translated := true, variant := 0xFE,
    tstep := step, trev := rev, inter := inter, gov := false, slots := r.2.map fun x => (x.1, x.2.1, spillKib warps x.2.2) }

/-- The word of code at an address. -/
def Code.word (c : Code) (a : Nat) : Word64 := if a < c.first then 0 else (c.words[(a - c.first) / 8]?).getD 0

/-! ## The translation cache (R23, R24, R28) -/

/-- The key of a translation: tenant, form hash, stepping, revision, view hash. -/
structure XKey where
  group : Nat
  form : List Byte
  step : Nat
  rev : Nat
  view : List Byte
  deriving DecidableEq, Repr

def Xlat.key (x : Xlat) : XKey := { group := x.group, form := x.form, step := x.step, rev := x.rev, view := x.view }

def XRun.key (x : XRun) : XKey := { group := x.group, form := x.form, step := x.step, rev := x.rev, view := x.view }

def viewBytes (view : List Nat) : List Byte := view.flatMap (toBytes 4)

def xkey (group : Nat) (sect : List Byte) (step rev : Nat) (view : List Nat) : XKey :=
  { group := group, form := Config.sha256 sect, step := step, rev := rev, view := Config.sha256 (viewBytes view) }

/-- A cached translation, and its use noted. -/
def State.cached (s : State) (k : XKey) : Option Xlat := s.xcache.find? fun x => x.key = k

def State.useXlat (s : State) (k : XKey) : State :=
  { s with xcache := s.xcache.map (fun (x : Xlat) => if x.key = k then { x with used := s.nextId } else x), nextId := s.nextId + 1 }

/-- A live context refers to a translation (R24). -/
def State.refers (s : State) (x : Xlat) : Bool := s.ctxs.any fun c => decide (c.tat = some x.pa)

/-- KiB that a group's translations take. -/
def State.xkib (s : State) (g : Nat) : Nat := (s.xcache.filter fun x => x.group = g).foldl (fun n x => n + x.kib) 0

def State.quota (s : State) (g : Nat) : Nat := let q := (s.grp g).tquota; if q = 0 then 65536 else q

/-- The tenant's least recently used entry that no live context refers to (R24). -/
def State.oldestXlat (s : State) (g : Nat) : Option Xlat :=
  (s.xcache.filter fun x => decide (x.group = g) && !s.refers x).foldl (fun (b : Option Xlat) x =>
    match b with | none => some x | some y => if x.used < y.used then some x else some y) none

/-- The near store that holds the translation cache, and the firmware's working state (R173). -/
def State.xlatRange (s : State) : Nat × Nat := match s.form with | .d90 => (0x2007C000000, 0x20080000000) | _ => (0x201D0000000, 0x201DC000000)

def State.workRange (s : State) : Nat × Nat := match s.form with | .d90 => (0x2007C000000, 0x20080000000) | _ => (0x201DC000000, 0x20200000000)

/-- Bytes that code words take in whole lines. -/
def codeSpan (ws : List Word64) : Nat := (8 * ws.length + 255) / 256 * 256

/-- The stretches of near store that hold translated code: cached, or run by a context. -/
def State.codeHeld (s : State) : List (Nat × Nat) :=
  s.xcache.map (fun x => (x.pa, codeSpan x.words)) ++ s.ctxs.filterMap fun c => c.tat.map fun a => (a, codeSpan c.tcode)

/-- The lowest place of a range for `n` bytes: its start, or the end of a stretch held. -/
def State.codeRoom (s : State) (range : Nat × Nat) (n : Nat) : Option Nat :=
  ((range.1 :: s.codeHeld.map fun h => h.1 + h.2).filter fun a =>
    decide (range.1 ≤ a) && decide (a + n ≤ range.2) && s.codeHeld.all fun h => apart a n h.1 h.2).foldl (fun b a =>
      match b with | none => some a | some c => some (min a c)) none

/-- Lines of translated code at a place that is given to other code leave every instruction cache: what a core fetches there is what the home slice holds (R98). -/
def State.icDrop (s : State) (pa n : Nat) : State :=
  let stale (k : Nat) : Bool := decide (2 ^ 90 ≤ k) && decide (pa / 256 ≤ k % 2 ^ 48) && decide (256 * (k % 2 ^ 48) < pa + n)
  { s with cores := smap Core.init (fun c => { c with ic := c.ic.filter fun l => !stale l.1 }) s.cores }

/-- Code words written to whole lines of near store. -/
def State.putCode (s0 : State) (pa : Nat) (ws : List Word64) : State :=
  let s := s0.icDrop pa (codeSpan ws)
  let b := ws.flatMap fun x => toBytes 8 x.toNat
  (pieces (nSpans (codeSpan ws)) pa (b ++ List.replicate (codeSpan ws - b.length) 0)).foldl (fun s p => (s.writeLine p.1 p.2 0xFFFFFFFF false).getD s) s

/-- Evictions of the tenant's own unreferenced entries until `kib` more fit in its quota, and `n` bytes in the range (R24). -/
def State.evictXlat : Nat → Nat → Nat → Nat → State → State
  | 0, _, _, _, s => s
  | fuel + 1, g, kib, n, s =>
    if s.xkib g + kib ≤ s.quota g && (s.codeRoom s.xlatRange n).isSome then s
    else match s.oldestXlat g with
      | some x => evictXlat fuel g kib n { s with xcache := s.xcache.erase x }
      | none => s

/-- R24: a translation put into the cache, where its tenant's quota and the range have room; else nothing is cached and the second part is true. The tenant's
entries that no live context refers to go one after another, though all of them may not free enough (log entry 84). -/
def State.cacheXlat (s : State) (x : Xlat) : State × Bool :=
  let n := codeSpan x.words
  let t := State.evictXlat s.xcache.length x.group x.kib n s
  match t.codeRoom t.xlatRange n with
  | some pa =>
    if t.xkib x.group + x.kib ≤ t.quota x.group then
      ({ t.putCode pa x.words with xcache := t.xcache ++ [{ x with pa := pa, used := t.nextId }], nextId := t.nextId + 1 }, false)
    else (t, true)
  | none => (t, true)

end Sys2Proof.Machine
end

