-- ==== Sys2Proof/Machine/Translate.lean ====
section
/-! DEFINITION. What a translation of the portable form is (R17 to R22): native code whose every record's instruction is the record's own, with registers
renamed alike everywhere, clauses begun and ended where R20 says, stall counts that suffice, and results in record order. The translator's choices are free
among such code (log entry 11). -/

namespace Sys2Proof.Machine

open Sys2Proof.Config (Translation)

/-! ## A record as a native word (R17 to R19, R21) -/

/-- What a fixed operand puts into a register field: a special value, else a value that raises illegal-operand (R18, R21). -/
def fixedReg (v : Nat) : Nat := if decide (768 ≤ v) && decide (v ≤ 782) then v else 1023

/-- Where virtual registers stand: vector registers 0 to 639, uniform registers 0 to 63. -/
structure RegMap where
  v : Nat → Option Nat
  u : Nat → Option Nat

/-- A tuple of `n` virtual registers that stands in a native tuple, begun at a multiple of `al`, below `top`. -/
def tupleAt (f : Nat → Option Nat) (top n al x : Nat) : Option Nat :=
  match f x with
  | some y => if decide (y % al = 0) && decide (y + n ≤ top) && (List.range n).all (fun j => f (x + j) = some (y + j)) then some y else none
  | none => none

/-- Where the field of an operand comes from: a value, a word that raises illegal-instruction, or registers that have no place of their own. -/
inductive Loc where
  | at (v : Nat)
  | bad
  | lost
  deriving DecidableEq, Repr

/-- The native field of operand `k` of a record. A fixed or misplaced operand whose value no field may carry raises its trap when issued: illegal-operand from a
register field or a descriptor base, illegal-instruction from a tile's field (R18, R21; log entry 11). -/
def opField (m : RegMap) (f : PFmt) (r k : Nat) : Loc :=
  let o := portOp r k
  match recRole f r k with
  | .none => .at 0
  | .reg n al _ _ =>
    if f = .c then (if o.2 = 1 then (match tupleAt m.u 64 8 1 o.1 with | some y => .at y | none => .lost) else .at 63)
    else if o.2 = 0 then (match tupleAt m.v 640 n al o.1 with | some y => .at y | none => .lost)
    else if o.2 = 1 then (match tupleAt m.u 64 n al o.1 with | some y => .at (640 + y) | none => .lost)
    else .at (fixedReg o.1)
  | .num => .at (if o.2 = 2 then min o.1 1023 else 1023)
  | .tile top => if o.2 = 2 ∧ o.1 < top then .at o.1 else .bad

/-- A word of an opcode that keeps a record's guard and raises illegal-instruction: all its lower bits are 1. -/
def badRec (r : Nat) : Word64 := BitVec.ofNat 64 (2 ^ 54 * recOp r + 2 ^ 44 * (recBits r 112 107 % 64) + (2 ^ 44 - 1))

/-- A branch's offset in words, in its field. -/
def offBits (f : PFmt) (off : Int) : Word64 := if f = .b then (BitVec.ofInt 32 off).zeroExtend 64 <<< 12 else 0

/-- A record's native word, its stall count zero, with its operands' fields as `g` gives them. An opcode that is not assigned keeps its guard. -/
def recWordWith (g : PFmt → Nat → Loc) (off : Int) (r : Nat) : Option Word64 :=
  match fmtOf (recOp r) with
  | none => some (BitVec.ofNat 64 (2 ^ 54 * recOp r + 2 ^ 44 * (recBits r 112 107 % 64)))
  | some f =>
    if g f 0 = .bad ∨ g f 1 = .bad ∨ g f 2 = .bad then some (badRec r)
    else match g f 0, g f 1, g f 2 with
    | .at d, .at a, .at b => some (portWord f r d a b ||| offBits f off)
    | _, _, _ => none

/-- A record's native word with registers renamed; nothing where a virtual register has no place. `off`: a branch's offset in words. -/
def recWord (m : RegMap) (off : Int) (r : Nat) : Option Word64 := recWordWith (fun f k => opField m f r k) off r

/-- A word without its stall count. -/
def noStall (x : Word64) : Word64 := x &&& ~~~(0xF#64 <<< 50)

/-! ## Control flow among records (R20) -/

def isBranch (r : Nat) : Bool := decide (recOp r = 0x210) || decide (recOp r = 0x212)

/-- Records that begin a clause: targets, entries, and what follows a CALL. -/
def leaders (rs ents : List Nat) : List Nat :=
  ents ++ (rs.filter isBranch).map (recBits · 31 0) ++ (rs.zipIdx.filter fun r => decide (recOp r.1 = 0x212)).map fun r => r.2 + 1

/-- Records that may come next after record `k`. -/
def nextRecs (rs ents : List Nat) (k : Nat) : List Nat :=
  let r := rs.getD k 0
  (k + 1) :: if isBranch r then [recBits r 31 0] else if decide (recOp r = 0x211) || decide (recOp r = 0x213) then leaders rs ents else []

/-! ## Virtual vector registers that hold values at once -/

/-- The register tuples that a record names: operand, kind, first register, registers, alignment, whether read and written. -/
def recTuples (r : Nat) : List (Nat × Nat × Nat × Nat × Nat × Bool × Bool) :=
  match fmtOf (recOp r) with
  | none => []
  | some f => [0, 1, 2].filterMap fun k =>
      match recRole f r k with
      | .reg n al rd wr => if (portOp r k).2 < 2 then some (k, (portOp r k).2, (portOp r k).1, n, if f = .c then 1 else al, rd, wr) else none
      | _ => none

/-- Virtual vector registers that a record reads, or writes. -/
def recRegs (r : Nat) (wr : Bool) : List Nat :=
  (recTuples r).flatMap fun x => if decide (x.2.1 = 0) && (if wr then x.2.2.2.2.2.2 else x.2.2.2.2.2.1) then (List.range x.2.2.2.1).map (x.2.2.1 + ·) else []

/-- The registers that hold a value still to be read as record `k` begins, from those as its successors begin. A guarded write keeps the old value. -/
def liveStep (rs ents : List Nat) (live : List (List Nat)) (k : Nat) : List Nat :=
  let r := rs.getD k 0
  let out := (nextRecs rs ents k).flatMap fun j => live.getD j []
  (recRegs r false ++ out.filter fun x => recBits r 112 112 = 1 || !(recRegs r true).contains x).foldl (fun l x => insNat x l) []

/-- One backward pass over the records. -/
def livePass (rs ents : List Nat) (live : List (List Nat)) : List (List Nat) :=
  (List.range rs.length).reverse.foldl (fun l k => l.set k (liveStep rs ents l k)) live

/-- Passes until one adds nothing. -/
def livePasses (rs ents : List Nat) : Nat → List (List Nat) → List (List Nat)
  | 0, l => l
  | n + 1, l => let m := livePass rs ents l; if m = l then l else livePasses rs ents n m

/-- The registers that hold a value still to be read as each record begins. -/
def liveIn (rs ents : List Nat) : List (List Nat) := livePasses rs ents (12 * rs.length * rs.length + 1) (List.replicate rs.length [])

/-- No write falls on another virtual register's value that is still to be read. -/
def noClash (rs ents : List Nat) (m : RegMap) : Bool :=
  let live := liveIn rs ents
  (List.range rs.length).all fun k =>
    let out := (nextRecs rs ents k).flatMap fun j => live.getD j []
    (recRegs (rs.getD k 0) true).all fun d => out.all fun y => decide (y = d) || decide (m.v y ≠ m.v d)

/-! ## Stall counts (R22, R49) -/

/-- From a record on, `left` cycles before a fixed-latency result of the keys `ks` is due: nothing touches them, and no transfer is taken, before. -/
def settled (ks : List Nat) : Nat → List Word64 → Bool
  | 0, _ => true
  | _, [] => true
  | left, x :: r =>
    match decodes x with
    | none => settled ks (left - (x.extractLsb' 50 4).toNat) r
    | some i =>
      let op := (x.extractLsb' 54 10).toNat
      !(readKeys i ++ writeKeys i).any ks.contains && !(decide (0x210 ≤ op) && decide (op ≤ 0x213)) && settled ks (left - (x.extractLsb' 50 4).toNat) r

/-- The stall counts of code words suffice on a quadrant of two beats. -/
def stallsOk : List Word64 → Bool
  | [] => true
  | x :: r =>
    (match (decodes x).bind fun i => (latency i 2).map fun n => (n, writeKeys i) with
     | some (n, ks) =>
       let left := n - (x.extractLsb' 50 4).toNat
       if decide ((x.extractLsb' 54 10).toNat = 0x212) then decide (left = 0) else settled ks left r
     | none => true) && stallsOk r

/-! ## Translations -/

/-- The records of a portable section and the records that its entries name. -/
structure Section where
  recs : List Nat
  ents : List Nat

/-- The indexes of clause headers among code words. -/
def headIdx (ws : List Word64) : List Nat := (walkHeads ws.length 0 ws).map (· / 8)

/-- The index of the header of the clause that a word stands in. -/
def headOf (hs : List Nat) (k : Nat) : Nat := (hs.filter fun h => h < k).foldl max 0

/-- The map that a translation gives. -/
def mapOf (t : Translation) : RegMap := { v := fun n => (t.vregs.find? fun x => x.1 = n).map (·.2), u := fun n => (t.uregs.find? fun x => x.1 = n).map (·.2) }

def spills (t : Translation) : Bool := t.slots.any fun x => x.2.2 ≠ 0

/-- The clauses: whole, legal, without a wait; one begins at each leader, and ends after each CALL. -/
def clausesOk (p : Section) (t : Translation) : Bool :=
  let hs := headIdx t.words
  let word (k : Nat) : Word64 := t.words.getD k 0
  let at_ (k : Nat) : Nat := t.places.getD k 0
  let ends := hs.map fun h => h + (decHeader (word h)).count.toNat + 2
  (hs.all fun h => let x := decHeader (word h); t.slots.all (fun y => x.legal false y.2.1) && decide (x.wait = 0)) && ends.all (fun e => hs.contains e || decide (e = t.words.length)) &&
    decide (t.places.length = p.recs.length) && (List.range p.recs.length).all (fun k => (decide (k = 0) || decide (at_ (k - 1) < at_ k)) &&
      decide (at_ k < t.words.length) && !hs.contains (at_ k) &&
      (match classOf (recOp (p.recs.getD k 0)) with | some c => decide ((decHeader (word (headOf hs (at_ k)))).cls.toNat = c) | none => true) &&
      (decide (recOp (p.recs.getD k 0) ≠ 0x212) || ends.contains (at_ k + 1))) &&
    (leaders p.recs p.ents).all (fun k => decide (p.recs.length ≤ k) || (decide (1 ≤ at_ k) && hs.contains (at_ k - 1)))

/-- A record whose register's number a lane computes (R144). -/
def isMovx (r : Nat) : Bool := decide (recOp r = 0x01C)

/-- Each record's word is its own and there is no other word; registers are renamed alike everywhere, by one shift where a lane may compute a number, and
stall counts suffice. -/
def wordsOk (p : Section) (t : Translation) : Bool :=
  let hs := headIdx t.words
  let at_ (k : Nat) : Nat := t.places.getD k 0
  let own (m : RegMap) (k : Nat) : Bool :=
    let r := p.recs.getD k 0
    recWord m ((at_ (recBits r 31 0) : Int) - 1 - headOf hs (at_ k)) r = some (noStall (t.words.getD (at_ k) 0))
  (List.range p.recs.length).all (own (mapOf t)) && ((List.range t.words.length).all fun k => hs.contains k || t.places.contains k) &&
    noClash p.recs p.ents (mapOf t) && (t.uregs.all fun x => t.uregs.all fun y => decide (x.1 = y.1) || decide (x.2 ≠ y.2)) &&
    (!p.recs.any isMovx || t.vregs.all fun x => t.vregs.all fun y => decide (x.2 + y.1 = y.2 + x.1)) &&
    stallsOk (t.places.map fun k => t.words.getD k 0)

/-- Each entry starts at its record's clause with granules for every register. -/
def slotsOk (p : Section) (t : Translation) : Bool :=
  decide (t.slots.length = p.ents.length) && (t.slots.zip p.ents).all fun x =>
    decide (x.1.1 + 1 = t.places.getD x.2 0) && decide (1 ≤ x.1.2.1) && decide (x.1.2.1 ≤ 10) && t.vregs.all fun y => decide (y.2 < 64 * x.1.2.1)

/-- A faithful translation that does not spill. -/
def faithful (p : Section) (t : Translation) : Bool := !spills t && clausesOk p t && wordsOk p t && slotsOk p t

/-! ## Places for virtual registers (R22) -/

/-- Virtual registers that tuples keep together: the first, the end, and the tuples' starts and alignments. -/
structure Chunk where
  lo : Nat
  hi : Nat
  starts : List (Nat × Nat)
  deriving DecidableEq, Repr

def Chunk.len (c : Chunk) : Nat := c.hi - c.lo

/-- The chunks of a kind of register that records name, ascending. -/
def chunks (rs : List Nat) (kind : Nat) : List Chunk :=
  let ts := sortBy (fun (x : Nat × Nat × Nat) => x.1) (rs.flatMap fun r => (recTuples r).filterMap fun x =>
    if x.2.1 = kind then some (x.2.2.1, x.2.2.2.1, x.2.2.2.2.1) else none)
  (ts.foldl (fun (l : List Chunk) t =>
    match l with
    | c :: q => if t.1 < c.hi then { c with hi := max c.hi (t.1 + t.2.1), starts := insNew (t.1, t.2.2) c.starts } :: q
                else { lo := t.1, hi := t.1 + t.2.1, starts := [(t.1, t.2.2)] } :: l
    | [] => [{ lo := t.1, hi := t.1 + t.2.1, starts := [(t.1, t.2.2)] }]) []).reverse
where
  insNew (x : Nat × Nat) (l : List (Nat × Nat)) : List (Nat × Nat) := if l.contains x then l else x :: l

/-- The lowest place for a chunk among those placed, below `top`: its tuples aligned, and on no register of a chunk that it clashes with. -/
def roomFor (clash : Chunk → Chunk → Bool) (top : Nat) (placed : List (Chunk × Nat)) (c : Chunk) : Option Nat :=
  (List.range top).find? fun p => decide (p + c.len ≤ top) && (c.starts.all fun x => (p + x.1 - c.lo) % x.2 = 0) &&
    placed.all fun q => apart p c.len q.2 q.1.len || !clash c q.1

/-- Chunks placed one after another; those that find no place are left out. -/
def placeAll (clash : Chunk → Chunk → Bool) (top : Nat) (l : List Chunk) : List (Chunk × Nat) :=
  l.foldl (fun placed c => match roomFor clash top placed c with | some p => placed ++ [(c, p)] | none => placed) []

/-- Where a register stands among placed chunks. -/
def placeOf (l : List (Chunk × Nat)) (n : Nat) : Option Nat :=
  (l.find? fun q => decide (q.1.lo ≤ n) && decide (n < q.1.hi)).map fun q => q.2 + (n - q.1.lo)

/-- Two chunks of vector registers that hold values at once: one is written where the other is still to be read. -/
def lifeClash (p : Section) : Chunk → Chunk → Bool :=
  let live := liveIn p.recs p.ents
  let pairs := (List.range p.recs.length).flatMap fun k =>
    let out := (nextRecs p.recs p.ents k).flatMap fun j => live.getD j []
    (recRegs (p.recs.getD k 0) true).map fun d => (d, out)
  let inC (c : Chunk) (n : Nat) : Bool := decide (c.lo ≤ n) && decide (n < c.hi)
  fun c d => pairs.any fun x => (inC c x.1 && x.2.any (inC d)) || (inC d x.1 && x.2.any (inC c))

def plainMap : RegMap := { v := fun n => if n < 640 then some n else none, u := fun n => if n < 64 then some n else none }

/-- Places for every register that a section names: its own number, else the chunks one after another, else with registers shared whose values are not live
together; nothing where that does not do. -/
def mapFor (p : Section) : Option RegMap :=
  let vs := chunks p.recs 0
  let us := chunks p.recs 1
  let fits (m : RegMap) : Bool := p.recs.all fun r => (recTuples r).all fun x =>
    (tupleAt (if x.2.1 = 0 then m.v else m.u) (if x.2.1 = 0 then 640 else 64) x.2.2.2.1 x.2.2.2.2.1 x.2.2.1).isSome
  let all_ (_ _ : Chunk) : Bool := true
  let m (c : Chunk → Chunk → Bool) : RegMap := { v := placeOf (placeAll c 640 vs), u := placeOf (placeAll all_ 64 us) }
  if fits plainMap then some plainMap
  else if p.recs.any isMovx then none
  else if fits (m all_) then some (m all_)
  else if fits (m (lifeClash p)) then some (m (lifeClash p))
  else none

/-! ## A plain translation -/

/-- A stall count that covers every fixed latency at two beats. -/
def fullStall : Word64 := 9#64 <<< 50

/-- A clause of one instruction of a class. -/
def oneClause (cls : Nat) (w : Word64) : List Word64 :=
  [encHeader { cls := BitVec.ofNat 3 cls, count := 0, wait := 0, yield := false, stg0b := 0, stg0l := 0, stg1b := 0, stg1l := 0, rsvd := 0 }, w ||| fullStall]

/-- The class of a record's clause. -/
def recClass (r : Nat) : Nat := (classOf (recOp r)).getD 0

/-- Each record in a clause of its own. -/
def plain (p : Section) (m : RegMap) : Option (List Word64 × List (Nat × Nat × Nat)) := do
  let ws ← p.recs.zipIdx.mapM fun x => recWord m (2 * ((recBits x.1 31 0 : Int) - x.2)) x.1
  let top := p.recs.foldl (fun n r => ((recRegs r true ++ recRegs r false).filterMap m.v).foldl max n) 0
  pure ((p.recs.zip ws).flatMap fun x => oneClause (recClass x.1) x.2, p.ents.map fun e => (2 * e, top / 64 + 1, 0))

/-! ## A translation that spills (R22): each record between loads of its registers from scratchpad and stores of what it writes -/

/-- Where a spilling translation keeps values: registers with a place of their own (vector below 576, uniform below 24), and lines of scratchpad. -/
structure Spill where
  m : RegMap
  lines : List (Nat × Nat)

/-- An instruction of the translator's own: its class and word. -/
def own (i : Instr) : Nat × Word64 := ((match (encode i).map opcodeOf with | some o => (classOf o.toNat).getD 0 | none => 0), (encode i).getD 0)

def always : Common := { stall := 0, guard := .always }

def fldOf (n : Nat) : Fld := BitVec.ofNat 10 n

def three (d a b : Nat) : R3 := { d := fldOf d, a := fldOf a, b := fldOf b, p := .none }

/-- Records from which an HRET follows without an indirect transfer: handlers, whose registers for values in passing are their own. -/
def handlerRecs (rs : List Nat) : List Bool :=
  let step (l : List Bool) : List Bool := rs.zipIdx.map fun x => decide (recOp x.1 = 0x384) || (decide (recOp x.1 ≠ 0x211) && decide (recOp x.1 ≠ 0x213) &&
    decide (recOp x.1 ≠ 0x214) && (l.getD (x.2 + 1) false || (isBranch x.1 && l.getD (recBits x.1 31 0) false)))
  rs.foldl (fun l _ => step l) (List.replicate rs.length false)

/-- The register that a kind's values pass through: for operand `k`, or as an address (`k` = 3). -/
def passReg (h : Bool) (kind k : Nat) : Nat :=
  if kind = 0 then (if h then 592 else 576) + (if k = 3 then 1 else 4 + 4 * k)
  else 640 + (if h then 44 else 24) + (match k with | 0 => 0 | 1 => 4 | 2 => 12 | _ => 16)

/-- The registers that hold the address of a lane's, or a warp's, lines. -/
def lineBase (kind : Nat) : Nat := if kind = 0 then 576 else 703

/-- The byte of a virtual register's line. -/
def lineOf (x : Spill) (kind n : Nat) : Word := BitVec.ofNat 32 (128 * (x.lines.findIdx fun y => y = (kind, n)))

/-- A virtual register brought into a register, or put back from it, in lanes of a guard. -/
def passOne (x : Spill) (h : Bool) (g : Guard) (load : Bool) (kind n t : Nat) : List (Nat × Word64) :=
  let c : Common := { stall := 0, guard := g }
  let a := passReg h kind 3
  match (if kind = 0 then x.m.v n else (x.m.u n).map (640 + ·)) with
  | some y => [own (.mov c false { d := fldOf (if load then t else y), a := fldOf (if load then y else t), p := .none })]
  | none =>
    let m : MOp := { data := fldOf t, base := fldOf a, off := 0, size := 2 }
    [own (.movi always (fldOf a) (lineOf x kind n)), own (.iadd always .wrap (three a (lineBase kind) a)), own (if load then .lds c false m else .sts c m)]

/-- The guard of a record. -/
def recGuard (r : Nat) : Guard :=
  let p := BitVec.ofNat 4 (recBits r 110 107)
  if recBits r 112 112 = 0 then .always else if recBits r 111 111 = 0 then .onTrue p else .onFalse p

/-- The field of an operand: its own place, or where its value passes. -/
def spillField (x : Spill) (h : Bool) (r : Nat) (f : PFmt) (k : Nat) : Loc :=
  match opField x.m f r k with
  | .lost => .at (passReg h (portOp r k).2 k % if f = .c then 640 else 1024)
  | l => l

/-- A record's own instruction, its branch `off` clauses away, between loads and stores. A uniform result goes back only where the guard holds. -/
def spillRec (x : Spill) (h : Bool) (off : Int) (r : Nat) : List (Nat × Word64) × List (Nat × Word64) × List (Nat × Word64) :=
  let lost := (recTuples r).filter fun t => match fmtOf (recOp r) with | some f => opField x.m f r t.1 = .lost | none => false
  let pass (t : Nat × Nat × Nat × Nat × Nat × Bool × Bool) (g : Guard) (load : Bool) : List (Nat × Word64) :=
    (List.range t.2.2.2.1).flatMap fun j => passOne x h g load t.2.1 (t.2.2.1 + j) (passReg h t.2.1 t.1 + j)
  (lost.flatMap fun t => pass t .always true, [(recClass r, (recWordWith (fun f k => spillField x h r f k) (2 * off) r).getD 0)],
    (lost.filter fun t => t.2.2.2.2.2.2).flatMap fun t => pass t (if t.2.1 = 1 then recGuard r else .always) false)

/-- What a warp does on its way in: the lines of its block's last scratchpad that are its own; then to a record's clause, `off` clauses away. -/
def spillEntry (x : Spill) (off : Int) : List (Nat × Word64) :=
  let u := lineBase 1
  let a := passReg false 1 3
  let t := passReg false 0 3
  [own (.isub always .wrap (three u 776 769)), own (.movi always (fldOf a) (BitVec.ofNat 32 (128 * x.lines.length))), own (.imul always (three u u a)),
    own (.isub always .wrap (three u 782 u)), own (.movi always (fldOf t) 2), own (.ishl always (three t 768 t)), own (.iadd always .wrap (three (lineBase 0) u t)),
    own (.bra always (BitVec.ofInt 32 (2 * off)))]

/-- Registers whose value another clause or another lane takes where it stands: a CALL's link, a permuted source, the sources of cross-lane instructions. -/
def recPinned (r : Nat) : List (Nat × Nat) :=
  (recTuples r).filterMap fun x =>
    if decide (recOp r = 0x212) || (decide (recBits r 58 56 ≠ 0) && x.2.2.2.2.2.1) || (decide (0x200 ≤ recOp r) && decide (recOp r < 0x210)) || isMovx r then
      some (x.2.1, x.2.2.1) else none

/-- Places below the registers in passing, for as many registers as they hold: pinned ones first. -/
def spillPlaces (p : Section) : RegMap :=
  let pins := p.recs.flatMap recPinned
  let order (kind : Nat) : List Chunk :=
    let l := chunks p.recs kind
    let pinned (c : Chunk) : Bool := pins.any fun x => decide (x.1 = kind) && decide (c.lo ≤ x.2) && decide (x.2 < c.hi)
    l.filter pinned ++ l.filter fun c => !pinned c
  { v := placeOf (placeAll (lifeClash p) 576 (order 0)), u := placeOf (placeAll (fun _ _ => true) 24 (order 1)) }

/-- The places that a translator chose, where they may serve. -/
def spillOk (p : Section) (t : Translation) : Bool :=
  (t.vregs.all fun x => decide (x.2 < 576)) && (t.uregs.all fun x => decide (x.2 < 24)) && noClash p.recs p.ents (mapOf t) &&
    (t.uregs.all fun x => t.uregs.all fun y => decide (x.1 = y.1) || decide (x.2 ≠ y.2))

/-- The spilling translation with places for some registers: entries first, then the records; nothing where a CALL's link has no place. -/
def spilled (p : Section) (m : RegMap) : Option (List Word64 × List (Nat × Nat × Nat)) :=
  let used := p.recs.flatMap fun r => (recTuples r).flatMap fun x => (List.range x.2.2.2.1).map fun j => (x.2.1, x.2.2.1 + j)
  let lines := (used.filter fun y => (if y.1 = 0 then m.v y.2 else m.u y.2).isNone).foldl (fun l y => if l.contains y then l else l ++ [y]) []
  let x : Spill := { m := m, lines := lines }
  let hs := handlerRecs p.recs
  let body (k : Nat) (off : Int) := spillRec x (hs.getD k false) off (p.recs.getD k 0)
  let size (k : Nat) : Nat := let b := body k 0; b.1.length + b.2.1.length + b.2.2.length
  let from_ := (List.range p.recs.length).foldl (fun (l : List Nat × Nat) k => (l.1 ++ [l.2], l.2 + size k)) ([], 8 * p.ents.length)
  let at_ (k : Nat) : Int := (from_.1.getD k 0 : Int)
  let recs := (List.range p.recs.length).flatMap fun k =>
    let here := at_ k + ((body k 0).1.length : Int)
    let b := body k (at_ (recBits (p.recs.getD k 0) 31 0) - here)
    b.1 ++ b.2.1 ++ b.2.2
  let ents := p.ents.zipIdx.flatMap fun e => spillEntry x (at_ e.1 - (8 * e.2 + 7 : Int))
  if p.recs.any fun r => decide (recOp r = 0x212) && (spillRec x false 0 r).2.2 ≠ [] then none
  else some ((ents ++ recs).flatMap fun y => oneClause y.1 y.2, p.ents.zipIdx.map fun e => (16 * e.2, 10, lines.length))

/-- The translation of a section (R22): the translator's, where it does not spill and is faithful; else one where every register has a place; else, where there
are more than that, one that spills, with the translator's places or others. -/
def translate (p : Section) (sect : List Byte) (view : List Nat) (step rev : Nat) : Option (List Word64 × List (Nat × Nat × Nat)) :=
  let t := Config.translator sect view step rev
  match t.filter (faithful p) with
  | some t => some (t.words, t.slots)
  | none =>
    match mapFor p with
    | some m => plain p m
    | none =>
      match t.filter (spillOk p) with
      | some t => (spilled p (mapOf t)).or (spilled p (spillPlaces p))
      | none => spilled p (spillPlaces p)

/-- The records and entries of an object. -/
def Obj.section_ (o : Obj) : Section := { recs := portRecs o.portable, ents := (List.range o.nEnt).map fun k => (o.entry k).2.1 }

end Sys2Proof.Machine
end

