-- ==== Sys2Proof/Machine/Image.lean ====
section
/-! DEFINITION. Context images (R62 to R69): the header, the records, the checks of a restore in the order of R360, and the lanes that a restore puts back
(R108, R297). -/

namespace Sys2Proof.Machine

/-! ## The header (R63) -/

/-- The fields of a header of 256 bytes. -/
def Img.parse (b : List Byte) : Img :=
  let n (o k : Nat) : Nat := field b o k
  { kind := n 6 1, flags := n 7 1, code := n 8 8, entry := n 16 2, variant := n 18 1, gran := n 19 1, gx := n 20 4, gy := n 24 4, gz := n 28 4,
    warps := n 32 1, gsize := n 33 1, scratch := n 34 2, accs := n 36 1, bars := n 37 1, names := n 38 2, args := n 40 8, argSize := n 48 4,
    group := n 52 4, htab := n 56 8, cbud := n 64 4, pbud := n 68 4, bbud := n 72 8, view := (List.range 12).map fun k => n (80 + 4 * k) 4,
    cursor := n 128 8, nw := n 136 4, nb := n 140 4, ng := n 144 4, cause := n 148 4, woff := n 152 8, boff := n 160 8, goff := n 168 8, size := n 176 8,
    adtb := n 184 8, rdst := n 192 8, qsel := n 200 4, fpte := n 204 4, tstep := n 208 1, trev := n 209 1, dbase := n 216 8, dsize := n 224 8 }

def imgMagic (b : List Byte) : Bool := decide (b.take 4 = toBytes 4 0x474D494B) && decide (field b 4 2 = 1) && decide (1 ≤ field b 6 1) && decide (field b 6 1 ≤ 2)

/-- The counts and limits of R63. A cursor past the grid's last block, which R63 gives no range, is refused with them (log entry 83). -/
def Img.rangesOk (h : Img) : Bool :=
  decide (h.flags < 4) && decide (1 ≤ h.gran) && decide (h.gran ≤ 10) && decide (1 ≤ h.gx) && decide (1 ≤ h.gy) && decide (1 ≤ h.gz) &&
    decide (h.total ≤ 2 ^ 31) && decide (1 ≤ h.warps) && decide (h.warps ≤ 32) && decide (1 ≤ h.gsize) && decide (h.gsize ≤ 8) &&
    decide (h.scratch ≤ 1536) && decide (h.accs ≤ 32) && decide (h.bars ≤ 16) && decide (h.names ≤ 1024) && decide (h.args % 8 = 0) &&
    decide (h.argSize ≤ 65536) && decide (1 ≤ h.cbud) && decide (h.cbud ≤ 384) && decide (1 ≤ h.pbud) && decide (h.pbud ≤ 2600) &&
    decide (h.cursor ≤ h.total) && decide (h.woff % 256 = 0) && decide (h.boff % 256 = 0) && decide (h.goff % 256 = 0) && decide (256 ≤ h.size) &&
    decide (h.fpte < 32) && qselOk h.qsel && decide (qselBits h.qsel = h.qsel)

/-- What the kind of an image asks of its header. -/
def Img.kindOk (h : Img) : Bool :=
  if h.kind = 1 then
    decide (h.nw = 0) && decide (h.nb = 0) && decide (h.ng = 0) && decide (h.cursor = 0) && decide (h.cause = 0) && decide (h.tstep = 0) && decide (h.trev = 0)
  else
    decide (1 ≤ h.cause) && decide (h.cause ≤ 2) && decide (h.variant ≠ 0xFF) && (decide (h.variant = 0xFE) || (decide (h.tstep = 0) && decide (h.trev = 0)))

/-- R360 step 2: the header alone. -/
def headerOk (b : List Byte) : Bool :=
  let h := Img.parse b
  imgMagic b && allZero ((b.drop 210).take 6) && allZero ((b.drop 232).take 24) && h.rangesOk && h.kindOk

/-! ## The feature view (R26, R27, R55) -/

/-- The device's own stable words (R300). -/
def State.features (s : State) : List Nat :=
  let near := match s.form with | .d90 => 8 | _ => 32
  let far := match s.form with | .d90 => s.farF / 2 ^ 32 | _ => 380
  [0x0100, s.stepping.toNat, 0xFF, 0xFF, 0x0410400A, 1536 + 2048 * near + 2 ^ 21 * far, 0x20102040, 0, 0, 0, 0, 0]

/-- The limit and size fields of words 4 to 6: word, low bit, width. -/
def limitFields : List (Nat × Nat × Nat) :=
  [(4, 0, 4), (4, 4, 11), (4, 15, 6), (4, 21, 6), (5, 0, 11), (5, 11, 10), (5, 21, 11), (6, 0, 7), (6, 7, 7), (6, 14, 7), (6, 21, 9)]

/-- A view that the device's words include; a fresh context's words 0 and 1 must be the device's own. -/
def viewOk (dev v : List Nat) (saved : Bool) : Bool :=
  let w (l : List Nat) (k : Nat) : Nat := l.getD k 0
  let fld (l : List Nat) (f : Nat × Nat × Nat) : Nat := w l f.1 / 2 ^ f.2.1 % 2 ^ f.2.2
  decide (w v 2 &&& 0x31 = 0x31) && decide (w v 2 &&& w dev 2 = w v 2) && decide (w v 3 &&& w dev 3 = w v 3) &&
    (limitFields.all fun f => decide (fld v f ≤ fld dev f)) && ([7, 8, 9, 10, 11].all fun k => decide (w v k = 0)) &&
    if saved then decide (w v 0 / 256 = w dev 0 / 256) && decide (w v 0 % 256 ≤ w dev 0 % 256) else decide (w v 0 = w dev 0) && decide (w v 1 = w dev 1)

/-! ## Records (R64 to R66) -/

structure GRec where
  gidx : Nat
  cbar : Bar
  live : List (Nat × List Byte × List Byte)
  free : List Nat
  deriving DecidableEq, Repr

structure BRec where
  lin : Nat
  grp : Nat
  pos : Nat
  bars : List Bar
  accs : List (Nat × List Byte)
  flags : List Byte
  data : List (Nat × List Byte)
  deriving DecidableEq, Repr

structure WRec where
  blk : Nat
  wi : Nat
  exited : Mask
  parked : Mask
  tpend : Mask
  pos : List (Nat × Nat)
  preds : List Mask
  unis : List Word
  conv : List (Mask × Mask)
  fpte : List (BitVec 5)
  fpfl : List (BitVec 5)
  late : List (Nat × Nat × (Nat × Nat) × Nat)
  gran : List (Nat × List Byte)
  deriving DecidableEq, Repr

/-- The next multiple of 256. -/
def pad256 (n : Nat) : Nat := (n + 255) / 256 * 256

/-- `n` bytes of an image from an offset within it. -/
def cut (b : List Byte) (o n : Nat) : List Byte := (b.drop o).take n

def maskN (b : List Byte) (o : Nat) : Mask := BitVec.ofNat 32 (field b o 4)

/-- The bits of a number, ascending. -/
def bitsOf (n m : Nat) : List Nat := (List.range n).filter m.testBit

/-- A barrier word (R65, R68): idle, or arrivals below a count that is not zero. -/
def barOf (x : Nat) : Option Bar :=
  if x = 0 then some Bar.idle
  else if x % 2 ^ 16 < x / 2 ^ 16 then some { arrivals := x % 2 ^ 16, expected := x / 2 ^ 16 } else none

/-- A resume point: a header at an offset and an index. -/
def posOf (c : Code) (x : Nat) : Option (Nat × Nat) :=
  let h := c.base + x % 2 ^ 48
  let i := x / 2 ^ 48 % 32
  if decide (x < 2 ^ 53) && c.heads.contains h && decide (i ≤ (decHeader (c.word h)).count.toNat + 1) then some (h, i) else none

/-- A record kept where its checks hold. -/
def keep {α : Type} (ok : Bool) (x : α) : Option α := if ok then some x else none

/-- A group record at an offset, and where it ends. -/
def groupRec (h : Img) (b : List Byte) (o : Nat) : Option (GRec × Nat) := do
  let m := field b (o + 8) 2
  let f := field b (o + 10) 2
  let e (j : Nat) : Nat := o + 256 + 128 * j
  let dat := o + 256 + pad256 (128 * m + 2 * f)
  let fin := dat + 36864 * m
  let bar ← barOf (field b (o + 4) 4)
  let live := (List.range m).map fun j => (field b (e j) 2, cut b (e j + 8) 64, cut b (dat + 36864 * j) 36864)
  let free := (List.range f).map fun k => field b (o + 256 + 128 * m + 2 * k) 2
  let names := live.map (·.1) ++ free
  let ok := decide (fin ≤ h.size) && allZero (cut b (o + 12) 244) && ((List.range m).all fun j => allZero (cut b (e j + 2) 6) && allZero (cut b (e j + 72) 56)) &&
    decide (field b o 4 * h.gsize < h.total) && decide (names.length = h.names) && ((List.range h.names).all names.contains)
  keep ok ({ gidx := field b o 4, cbar := bar, live := live, free := free }, fin)

/-- A block record. Padding is not checked, and a byte of accumulator flags has six bits (log entry 89). -/
def blockRec (h : Img) (gs : List GRec) (b : List Byte) (o : Nat) : Option (BRec × Nat) := do
  let lin := field b o 4
  let g := field b (o + 4) 4
  let am := field b (o + 12) 4
  let n := field b (o + 112) 4
  let rg := (List.range n).map fun k => field b (o + 256 + 4 * k) 4
  let base (x : Nat) : Nat := x % 2 ^ 11
  let len (x : Nat) : Nat := x / 2 ^ 11 % 2 ^ 11
  let accAt := o + 256 + pad256 (4 * n)
  let as := bitsOf 32 am
  let scAt := accAt + 65536 * as.length
  let bars ← (List.range 16).mapM fun k => barOf (field b (o + 16 + 4 * k) 4)
  let r := rg.foldl (fun (r : List (Nat × List Byte) × Nat) x => (r.1 ++ [(1024 * base x, cut b r.2 (1024 * len x))], r.2 + 1024 * len x)) ([], scAt)
  let needs := decide (h.names ≠ 0) || decide (1 < h.gsize)
  let ok := decide (r.2 ≤ h.size) && allZero (cut b (o + 9) 3) && allZero (cut b (o + 116) 140) && decide (lin < h.cursor) && decide (n ≤ 64) &&
    decide (field b (o + 8) 1 = lin % h.gsize) && decide (am < 2 ^ h.accs) && ((bars.drop h.bars).all fun x => decide (x = Bar.idle)) &&
    ((cut b (o + 80) 32).all fun x => decide (x.toNat < 64)) &&
    (rg.all fun x => decide (x < 2 ^ 22) && decide (1 ≤ len x) && decide (len x ≤ 1536) && decide (base x + len x ≤ h.scratch)) &&
    (if needs then (match gs[g]? with | some y => decide (y.gidx = lin / h.gsize) | none => false) else decide (g = 2 ^ 32 - 1))
  let x : BRec := { lin := lin, grp := g, pos := field b (o + 8) 1, bars := bars,
                    accs := as.zipIdx.map fun x => (x.1, cut b (accAt + 65536 * x.2) 65536), flags := cut b (o + 80) 32, data := r.1 }
  keep ok (x, r.2)

/-- A warp record. -/
def warpRec (h : Img) (c : Code) (b : List Byte) (o : Nat) : Option (WRec × Nat) := do
  let gm := field b (o + 24) 2
  let dm := field b (o + 752) 4
  let gs := bitsOf 16 gm
  let ds := bitsOf 32 dm
  let dAt := o + 768 + 8192 * gs.length
  let fin := o + pad256 (768 + 8192 * gs.length + 32 * ds.length)
  let pos ← (List.range 32).mapM fun l => posOf c (field b (o + 32 + 8 * l) 8)
  let late ← ds.zipIdx.mapM fun x => do
    let a := dAt + 32 * x.2
    let p ← posOf c (field b (a + 8) 8)
    let k := field b (a + 16) 1
    keep ((decide (k = 8) || decide (k = 9)) && allZero (cut b (a + 17) 15)) (x.1, field b a 8, p, k)
  let fp (at_ : Nat) : List (BitVec 5) := (List.range 32).map fun l => BitVec.ofNat 5 (field b (o + at_ + l) 1)
  let ok := decide (fin ≤ h.size) && allZero (cut b (o + 5) 3) && allZero (cut b (o + 26) 6) && allZero (cut b (o + 756) 12) &&
    allZero (cut b (o + 672) 16) && decide (field b o 4 < h.nb) && decide (field b (o + 4) 1 < h.warps) && decide (gm < 2 ^ h.gran) &&
    decide (dm &&& field b (o + 16) 4 = dm) && ((cut b (o + 688) 64).all fun x => decide (x.toNat < 32))
  let x : WRec :=
    { blk := field b o 4, wi := field b (o + 4) 1, exited := maskN b (o + 8), parked := maskN b (o + 12), tpend := maskN b (o + 16), pos := pos,
       preds := (List.range 16).map fun k => maskN b (o + 288 + 4 * k), unis := (List.range 64).map fun k => maskN b (o + 352 + 4 * k),
       conv := (List.range 8).map fun k => (maskN b (o + 608 + 8 * k), maskN b (o + 612 + 8 * k)), fpte := fp 688, fpfl := fp 720, late := late,
       gran := gs.zipIdx.map fun x => (x.1, cut b (o + 768 + 8192 * x.2) 8192) }
  keep ok (x, fin)

/-- `n` records one after another from an offset. -/
def records {α : Type} (f : Nat → Option (α × Nat)) : Nat → Nat → Option (List α × Nat)
  | 0, o => some ([], o)
  | n + 1, o => do
    let x ← f o
    let r ← records f n x.2
    pure (x.1 :: r.1, r.2)

/-- The records of a saved image (R360 step 7). -/
def imageRecs (h : Img) (c : Code) (b : List Byte) : Option (List GRec × List BRec × List WRec) := do
  let g ← records (groupRec h b) h.ng h.goff
  let k ← records (blockRec h g.1 b) h.nb h.boff
  let w ← records (warpRec h c b) h.nw h.woff
  keep (pairwiseApart [(0, 256), (h.goff, g.2 - h.goff), (h.boff, k.2 - h.boff), (h.woff, w.2 - h.woff)]) (g.1, k.1, w.1)

/-! ## What the code needs (R69) -/

/-- An image falls short of its code in nothing; an entry that the object lacks is refused with the same status (log entry 83). -/
def resourcesOk (h : Img) (o : Obj) (c : Code) : Bool :=
  match c.slots[h.entry]? with
  | none => false
  | some (_, gran, spill) =>
    let a := o.resAt (o.entry h.entry).1
    decide (h.entry < o.nEnt) && decide (gran ≤ h.gran) && decide (o.n (a + 2) 2 + spill ≤ h.scratch) && decide (o.n (a + 4) 1 ≤ h.accs) &&
      decide (o.n (a + 5) 1 ≤ h.bars) && decide (o.n (a + 6) 2 ≤ h.names)

/-! ## Lanes put back (R108, R261, R297) -/

/-- Where a parked lane without a trap is parked again: on the register that a wait-form CSIGN or a synchronising instruction names (R108), at its barrier
(R261); its other waits are made anew by its instruction. -/
def repark (w : WRec) (c : Code) (l : Nat) : Park :=
  let p := w.pos.getD l (0, 0)
  if p.2 = 0 then .run
  else match decode (c.word (p.1 + 8 * p.2)) with
  | .ok (.csign _ a) => .conv (a.toNat % 8)
  | .ok (.mma _ _ _ _ _ cv) | .ok (.mmalr _ _ _ _ _ _ cv) | .ok (.adapt _ _ _ _ cv) => .sync cv.toNat
  | .ok (.bar _ false n _ _) => .bar n.toNat
  | .ok (.cbar _ false _ _) => .cbar
  | _ => .run

/-- A restored lane. -/
def restoreLane (w : WRec) (c : Code) (l : Nat) : Lane :=
  let p := w.pos.getD l (0, 0)
  let ex := w.exited.getLsbD l
  { hdr := p.1, idx := p.2, exited := ex, passed := 0, fpte := w.fpte.getD l 0, fpfl := w.fpfl.getD l 0,
    park := if ex then .run else if w.late.any (fun d => d.1 = l) then .trap
      else if w.parked.getLsbD l && !w.tpend.getLsbD l then repark w c l else .run }

/-- Sparse data from values by key. -/
def sparseOf {α : Type} [DecidableEq α] (d : α) (l : List (Nat × α)) : Sparse α := l.foldl (fun m x => sput d x.1 x.2 m) []

/-- The words of bytes, keyed from `k`. -/
def wordsAt (k : Nat) (b : List Byte) : List (Nat × Word) := (List.range (b.length / 4)).map fun j => (k + j, BitVec.ofNat 32 (field b (4 * j) 4))

/-- A sub-warp of one deferred data abort. -/
def lateSub (c : Code) (since : Nat) (d : Nat × Nat × (Nat × Nat) × Nat) : SubWarp :=
  { cls := tDEFER, since := since,
    lanes := [{ lane := d.1, cause := d.2.2.2, addr := d.2.1, info := 0, more := 0, word := c.word (d.2.2.1.1 + 8 * d.2.2.1.2), noSkip := false, redo := none,
                fpos := d.2.2.1.1, fidx := d.2.2.1.2 }] }

/-- A restored warp, unplaced. What its new core's L1 holds may be older than what it has read, so an acquire comes first (R272; log entry 12). -/
def restoreWarp (x : Ctx) (c : Code) (w : WRec) (id blk since : Nat) : Warp :=
  { freshWarp x id blk w.wi with
    lanes := lanes32.map (restoreLane w c)
    v := sparseOf 0 (w.gran.flatMap fun g => wordsAt (2048 * g.1) g.2)
    s := sparseOf 0 (w.unis.zipIdx.map fun y => (y.2, y.1))
    p := sparseOf 0 (w.preds.zipIdx.map fun y => (y.2, y.1))
    decl := sparseOf 0 (w.conv.zipIdx.map fun y => (y.2, y.1.1))
    signed := sparseOf 0 (w.conv.zipIdx.map fun y => (y.2, y.1.2))
    traps := w.late.zipIdx.map fun d => lateSub c (since + d.2) d.1
    acq := true }

end Sys2Proof.Machine
end

