-- ==== Sys2Proof/Machine/Launch.lean ====
section
/-! DEFINITION. Launching: every launch is the restore of a context image (R62, R68), checked in the order of R360, with its initial data (R353), and the
translations that a launch may wait for (R22 to R25). -/

namespace Sys2Proof.Machine

/-! ## Reading -/

/-- R360 step 1: the header, and the whole of an image that is one. The image is read at one moment: a restore never meets a mixture of older and newer words
of an image that changes meanwhile, which R68 neither rules out nor asks for (log entry 85). -/
def State.readImage (s : State) (group img : Nat) : Except VaErr (List Byte) :=
  match s.readVa group img 256 .read with
  | .error e => .error e
  | .ok h => if imgMagic h then s.readVa group img (max 256 (Img.parse h).size) .read else .ok h

/-- A read of an object noted where it met an uncorrectable error (R319, R320). -/
def State.noteRead (s : State) (group va n : Nat) : State :=
  match s.readVa group va (max 64 n) .read with
  | .error e => s.engineErr group e
  | .ok _ => s

/-! ## Initial data (R353) -/

/-- The next multiple of `k` at or after an address. -/
def alignUp (a k : Nat) : Nat := (a + k - 1) / k * k

/-- The payloads laid out from an address: section, address, size. -/
def Obj.layout (o : Obj) : Nat → List Sect → List (Sect × Nat × Nat)
  | _, [] => []
  | a, x :: r =>
    let n := x.size - payloadAt (o.n (x.off + 8) 4)
    let p := alignUp a (2 ^ o.n (x.off + 4) 4)
    (x, p, n) :: o.layout (p + n) r

/-- A payload with its address added to each relocated field. -/
def Obj.payload (o : Obj) (x : Sect) (a : Nat) : List Byte :=
  let b := (o.raw.drop (x.off + payloadAt (o.n (x.off + 8) 4))).take (x.size - payloadAt (o.n (x.off + 8) 4))
  (o.relocs x).foldl (fun b r => patch b r (toBytes 8 (field b r 8 + a))) b

/-- R360 step 9: the payloads copied and their addresses written, or the refusal; what has been copied stays. -/
def State.putData (s : State) (h : Img) (o : Obj) : State × Option Nat :=
  let l := o.layout h.dbase (o.kinds 5)
  if h.kind ≠ 1 || l.isEmpty then (s, none)
  else if h.dbase % 8 ≠ 0 || (l.any fun x => h.dbase + h.dsize < x.2.1 + x.2.2) || (l.any fun x => h.argSize < o.n x.1.off 4 + 8) then (s, some 6)
  else l.foldl (fun (r : State × Option Nat) x =>
    match r.2 with
    | some _ => r
    | none =>
      match r.1.writeVa h.group x.2.1 (o.payload x.1 x.2.1) .write with
      | (s, some e) => (s.engineErr h.group e, some stACCESS)
      | (s, none) =>
        match s.writeVa h.group (h.args + o.n x.1.off 4) (toBytes 8 x.2.1) .write with
        | (s, some e) => (s.engineErr h.group e, some stACCESS)
        | (s, none) => (s, none)) (s, none)

/-! ## The checks of R360 -/

/-- A translation's result. -/
abbrev Made := List Word64 × List (Nat × Nat × Nat)

/-- How a launch's checks end. -/
inductive Prep where
  | refuse (status : Nat)
  | xlate (k : XKey) (sect : List Byte) (ents view : List Nat)
  | go (h : Img) (o : Obj) (c : Code) (recs : List GRec × List BRec × List WRec)
  deriving DecidableEq, Repr

/-- A translation that fits every entry of blocks of `warps` warps (R22). -/
def Obj.fits (o : Obj) (warps : Nat) (r : Made) : Bool :=
  !r.1.isEmpty && (List.range o.nEnt).all fun k => match r.2[k]? with
    | some x => decide (1 ≤ x.2.1) && decide (x.2.1 ≤ 10) && decide (o.n (o.resAt (o.entry k).1 + 2) 2 + spillKib warps x.2.2 ≤ 1536)
    | none => false

/-- R360 step 6: the code, or a translation to wait for. `made` is a result just made, cached or not. -/
def State.codeFor (s : State) (group : Nat) (h : Img) (o : Obj) (made : Option (XKey × Option Made)) : Except Nat (Code ⊕ XKey) :=
  match s.pickCode o h.variant (h.view.getD 2 0) (if h.kind = 2 then some (h.tstep, h.trev) else none) with
  | .error n => .error n
  | .ok (.native k i g) => .ok (.inl (o.native k i g))
  | .ok (.portable step rev i) =>
    let k := xkey group o.portable step rev h.view
    let use (r : Made) : Except Nat (Code ⊕ XKey) := if o.fits h.warps r then .ok (.inl (transCode step rev i h.warps r)) else .error 3
    if !o.portOk then .error 3
    else match s.cached k with
    | some x => use (x.words, x.slots)
    | none => match made with
      | some (j, r) => if j = k then (match r with | some r => use r | none => .error 3) else .ok (.inr k)
      | none => .ok (.inr k)

/-- R360 steps 7 to 9. An argument override, an address that the command names, is translated last (R61; log entry 85). -/
def State.prepLast (s : State) (h : Img) (b : List Byte) (o : Obj) (c : Code) (ovr : Nat) : State × Prep :=
  match (if h.kind = 2 then imageRecs h c b else some ([], [], [])) with
  | none => (s, .refuse 6)
  | some recs =>
    if !resourcesOk h o c || s.neverAdmits h then (s, .refuse 6)
    else match s.putData h o with
    | (s, some n) => (s, .refuse n)
    | (s, none) =>
      match (if ovr = 0 then .ok (.dev 0) else s.place h.group ovr .read) with
      | .error e => (s.engineErr h.group e, .refuse stACCESS)
      | .ok _ => (s, .go h o c recs)

/-- The checks of a launch of an image by a source's group, with an argument override, whose alignment nothing checks (R59; log entry 85). -/
def State.prepare (s : State) (group img ovr : Nat) (made : Option (XKey × Option Made)) : State × Prep :=
  match s.readImage group img with
  | .error e => (s.engineErr group e, .refuse stACCESS)
  | .ok b =>
    let h0 := Img.parse b
    let h := if ovr = 0 then h0 else { h0 with args := ovr }
    if !headerOk b then (s, .refuse 6)
    else if h.group ≠ group || !(s.grp group).en || s.bootst ≠ 8 then (s, .refuse stACCESS)
    else if !viewOk s.features h.view (decide (h.kind = 2)) then (s, .refuse 5)
    else match s.loadObj group h.code with
    | .error n =>
      let t := if n = stACCESS then (s.noteRead group h.code 64).noteRead group h.code ((s.readVaN group (h.code + 24) 8).getD 0) else s
      (t, .refuse n)
    | .ok o =>
      match s.codeFor group h o made with
      | .error n => (s, .refuse n)
      | .ok (.inr k) => (s, .xlate k o.portable o.section_.ents h.view)
      | .ok (.inl c) => s.prepLast h b o c ovr

/-! ## Creating the context -/

/-- Where an entry's code begins. -/
def Code.start (c : Code) (e : Nat) : Nat :=
  let off := ((c.slots[e]?).getD (0, 0, 0)).1
  c.base + if c.translated then 8 * off else off

/-- The context of a launch. -/
def newCtx (id grid group img : Nat) (src : Src) (h : Img) (o : Obj) (c : Code) : Ctx :=
  { Ctx.init with
    id := id, grid := grid, group := group, img := img, h := { h with variant := c.variant }, src := src, code := c.base, codeEnd := c.stop,
    entry := c.start h.entry, heads := c.heads, tcode := if c.translated then c.words else [], tat := none, variant := c.variant, tstep := c.tstep, trev := c.trev,
    idem := (o.entry h.entry).2.2.testBit 0, chk := h.flags.testBit 0, inter := h.flags.testBit 1 || c.inter, governed := c.gov, adtb := h.adtb,
    htab := h.htab, rdst := h.rdst, qsel := h.qsel, cursor := h.cursor }

/-- The grid of a launch. -/
def newGrid (x : Ctx) (comp : Nat) (event : Bool) : Grid :=
  { id := x.grid, group := x.group, img := x.img, h := x.h, comp := comp, event := event, src := x.src, state := 0, exited := [], replays := 0,
    replayed := false, suspects := [], nsus := 0, faulted := false, tprov := 0, tfinal := 0, set := [], ran := [], unrep := [], pendingReplay := [], removed := false,
    winNow := 0, winLast := 0, ctx0 := x }

/-- A restored block. -/
def restoreBlock (x : Ctx) (b : BRec) (id cg n : Nat) : Block :=
  { freshBlock x id b.lin b.pos cg with
    scratch := sparseOf 0 (b.data.flatMap fun d => d.2.zipIdx.map fun y => (d.1 + y.2, y.1))
    bars := sparseOf Bar.idle (b.bars.zipIdx.map fun y => (y.2, y.1))
    acc := sparseOf 0 (b.accs.flatMap fun a => wordsAt (16384 * a.1) a.2)
    aflags := sparseOf 0 (b.flags.zipIdx.map fun y => (y.2, y.1))
    atEntry := false, warpsLeft := n }

/-- A restored name: live, faulted where bit 7 of its record's FLAGS byte says so (R221). -/
def restoreEntry (e : Nat × List Byte × List Byte) : Entry :=
  let f := e.2.1.getD 9 0
  { Entry.init with st := .live, faulted := f.getLsbD 7, trec := e.2.1.set 9 (f &&& 0x7F), img := sparseOf 0 (e.2.2.zipIdx.map fun y => (y.2, y.1)), gen := 1 }

/-- A restored cluster group (R66, R67): every name is live or free. -/
def restoreGroup (x : Ctx) (gs : List GRec) (id gidx left : Nat) : CGroup :=
  let g := { freshGroup x id gidx (x.h.groupLins gidx).length with left := left }
  match gs.find? fun r => r.gidx = gidx with
  | none => g
  | some r => { g with cbar := r.cbar, free := r.free, entries := r.live.foldl (fun m e => sput Entry.init e.1 (restoreEntry e) m) [] }

/-- The groups that a saved image's blocks form, ascending. -/
def savedGroups (h : Img) (bs : List BRec) : List Nat := bs.foldl (fun l b => insNat (b.lin / h.gsize) l) []

/-- One saved group joins the waiting heads. -/
def State.restoreOne (s : State) (x : Ctx) (c : Code) (recs : List GRec × List BRec × List WRec) (gidx : Nat) : State :=
  let bs := sortBy (fun (b : BRec × Nat) => b.1.lin) (recs.2.1.zipIdx.filter fun b => b.1.lin / x.h.gsize = gidx)
  let i := s.fresh
  let g := restoreGroup x recs.1 i.1 gidx bs.length
  let r := bs.foldl (fun (r : List Block × List Warp × State) b =>
    let j := r.2.2.fresh
    let ws := (sortBy (·.wi) (recs.2.2.filter fun w => w.blk = b.2)).foldl (fun (q : List Warp × State) w =>
      let k := q.2.fresh
      (q.1 ++ [restoreWarp x c w k.1 j.1 s.nextId], k.2)) ([], j.2)
    (r.1 ++ [restoreBlock x b.1 j.1 g.id ws.1.length], r.2.1 ++ ws.1, ws.2)) ([], [], i.2)
  let w : Wait := { ctx := x.id, gidx := gidx, lins := r.1.map (·.lin), since := s.ns, saved := some (g, r.1, r.2.1), replay := false, hold := [], leaf := none }
  { r.2.2 with waits := r.2.2.waits ++ [w] }

/-- Where near store holds a context's translated code: the cached translation's place, else the lowest place of the firmware's own range, where its words
are written; nowhere where that has no room (R23, R28, R173; log entry 84). -/
def State.holdCode (s : State) (k : XKey) (c : Code) : State × Option Nat :=
  match s.cached k with
  | some x => (s.useXlat k, some x.pa)
  | none =>
    match s.codeRoom s.workRange (codeSpan c.words) with
    | some a => (s.putCode a c.words, some a)
    | none => (s, none)

/-- A launch accepted: the context and its grid, and the saved groups of a saved image, waiting for placement. -/
def State.create (s : State) (group img comp : Nat) (event : Bool) (src : Src) (h : Img) (o : Obj) (c : Code)
    (recs : List GRec × List BRec × List WRec) : Nat × State :=
  let g := s.fresh
  let i := g.2.fresh
  let x := newCtx i.1 g.1 group img src h o c
  let p := if c.translated then i.2.holdCode (xkey group o.portable c.tstep c.trev h.view) c else (i.2, none)
  let x : Ctx := { x with tat := p.2 }
  let t : State := { p.1 with ctxs := p.1.ctxs ++ [x], grids := p.1.grids ++ [newGrid x comp event] }
  (i.1, (savedGroups x.h recs.2.1).foldl (fun s gidx => s.restoreOne x c recs gidx) t)

/-! ## Launches -/

def Src.event : Src → Bool
  | .queue _ _ e => e
  | .graph _ _ e => e
  | _ => false

/-- A translation asked for: joined where one is under way for the same key (R25), else begun. -/
def State.askXlat (s : State) (k : XKey) (sect : List Byte) (ents view : List Nat) (cmd : Nat) : State :=
  if s.xruns.any fun r => r.key = k then
    { s with xruns := s.xruns.map fun (r : XRun) => if r.key = k then { r with cmds := r.cmds ++ [cmd] } else r }
  else
    let r : XRun := { group := k.group, form := k.form, step := k.step, rev := k.rev, view := k.view, sect := sect, ents := ents, words := view, cmds := [cmd] }
    { s with xruns := s.xruns ++ [r] }

/-- A launch started, waiting for its translation, or failed. `c` holds its source, group, record and notify register. -/
def State.launch (s : State) (c : Cmd) (img ovr : Nat) (made : Option (XKey × Option Made)) : State :=
  match s.prepare c.group img ovr made with
  | (s, .refuse n) => s.fail c.src n c.group img
  | (s, .xlate k sect ents view) =>
    let t : State := { s with cmds := s.cmds ++ [{ c with k := .xlate img ovr }] }
    t.askXlat k sect ents view c.id
  | (s, .go h o code recs) =>
    let r := s.create c.group img c.comp c.src.event c.src h o code recs
    { r.2 with cmds := r.2.cmds ++ [{ c with k := .run r.1 }] }

/-! ## TRANSLATION_COMPLETE (R22 to R25) -/

/-- The warning of R24, by the source whose launch asked. -/
def State.warnQuota (s : State) (c : Cmd) : State :=
  let r (k src tag : Nat) : EvRec := { kind := 3, srcK := k, src := src, tag := tag, status := stTQUOTA, group := c.group, detail := 0 }
  match c.src with
  | .queue q tag _ => s.post (r 1 q tag)
  | .graph g node _ => s.post (r 2 g node)
  | .tag t => s.post (r 3 t 0)
  | .leaf => s

/-- One of the two translator cores finishes: translation `n` of those under way. An entry takes the KiB of its code words, rounded up (log entry 84). A
translation that finds no room is used all the same, and the warning of R24 is posted. -/
def execTranslationComplete (n : Nat) (s : State) : Out :=
  .next (match (s.xruns.take 2)[n]? with
    | none => s
    | some r =>
      let res := translate { recs := portRecs r.sect, ents := r.ents } r.sect r.words r.step r.rev
      let s : State := { s with xruns := dropAt n s.xruns }
      let cs := r.cmds.filterMap fun i => s.cmds.find? fun c => c.id = i
      let put : State × Bool := match res with
        | some m => s.cacheXlat { group := r.group, form := r.form, step := r.step, rev := r.rev, view := r.view, words := m.1, slots := m.2,
                                  kib := (8 * m.1.length + 1023) / 1024, pa := 0, used := 0 }
        | none => (s, false)
      let t := if put.2 then (match cs.head? with | some c => put.1.warnQuota c | none => put.1) else put.1
      t.each cs fun s c => match c.k with
        | .xlate img ovr => (s.dropCmd c.id).launch c img ovr (some (r.key, res))
        | _ => s)

end Sys2Proof.Machine
end

