-- ==== Sys2Proof/Machine/Front.lean ====
section
/-! DEFINITION. The front end: commands of host queues (R57 to R61), resident graphs (R70, R71) and tagged messages (R72, R338). -/

namespace Sys2Proof.Machine

/-! ## Command slots (R57 to R59) -/

/-- The next command of a queue that may take one: its 64 bytes, or why they cannot be read. -/
def State.cmdSlot (s : State) (q : Nat) : Option (Except VaErr (List Byte)) :=
  let h := s.hqueue q
  let a := h.ring + 64 * (h.head.toNat % h.slots)
  if !h.en || h.stopped || !h.held.isEmpty || h.head = h.tail then none
  else if !(s.grp h.group).en then some (.error { cause := fXLATE, va := a })
  else some (s.readVa h.group a 64 .read)

def Src.ofQueue (q : Nat) : Src → Bool
  | .queue p _ _ => decide (p = q)
  | _ => false

def CmdK.isLoad : CmdK → Bool
  | .load _ _ _ _ => true
  | _ => false

/-- R58: whether a command's start may follow those before it. -/
def State.mayStart (s : State) (q : Nat) (b : List Byte) : Bool :=
  let k := field b 0 1
  let out := s.cmds.filter fun c => c.src.ofQueue q
  ((!(field b 1 1).testBit 0 && k ≠ 4 && k ≠ 5) || out.isEmpty) && (k ≠ 3 || !out.any fun c => c.k.isLoad)

/-- The fields of each body: offset, size. -/
def bodyOf : Nat → List (Nat × Nat)
  | 1 => [(8, 8), (16, 8), (24, 8), (32, 2)]
  | 2 => [(8, 8), (16, 8), (24, 8)]
  | 3 => [(8, 1)]
  | 4 => [(8, 8), (16, 8), (24, 1), (25, 1), (26, 2)]
  | 5 => [(8, 8), (16, 8), (24, 1), (25, 1), (28, 4)]
  | 6 => [(8, 1), (9, 1), (16, 8)]
  | _ => []

def notifyOk (n : Nat) : Bool := decide (n ≤ 4095) || decide (n = 0xFFFF)

/-- R58, R59: a command of a known kind within its limits, its reserved bytes zero. -/
def cmdOk (b : List Byte) : Bool :=
  let k := field b 0 1
  let n (o m : Nat) : Nat := field b o m
  let body := bodyOf k
  decide (1 ≤ k) && decide (k ≤ 6) && decide (n 1 1 < 4) && decide (n 2 2 = 0) &&
    ((List.range 56).all fun j => (body.any fun f => decide (f.1 ≤ j + 8) && decide (j + 8 < f.1 + f.2)) || decide (n (j + 8) 1 = 0)) &&
    match k with
    | 1 => notifyOk (n 32 2) && decide (n 16 8 % 64 = 0)
    | 2 => decide (1 ≤ n 24 8) && decide (n 24 8 % 4 = 0) && decide (n 24 8 ≤ 2 ^ 40)
    | 3 => decide (n 8 1 ≤ 63)
    | 6 => decide (n 8 1 ≤ 63) && decide (1 ≤ n 9 1) && decide (n 9 1 ≤ 128) && decide (n 16 8 % 32 = 0)
    | _ => decide (n 24 1 ≤ if k = 4 then 1 else 3) && decide (n 25 1 ≤ 1) && decide (n 8 8 % (if n 25 1 = 1 then 4 else 8) = 0) &&
        (decide (n 25 1 = 0) || decide (n 16 8 < 2 ^ 32)) && (decide (k = 5) || notifyOk (n 26 2))

/-- A queue takes its next command where that is of the event's kind; other kinds count with RUN. A slot that cannot be read fails its queue with ACCESS, tag 0
and EVENT clear, which R58 leaves open; the event of kind RUN takes it (log entry 86). -/
def State.takeCmd (s : State) (q kind : Nat) (f : State → Src → Nat → List Byte → State) : State :=
  let h := s.hqueue q
  let go (s : State) : State := s.onHq q fun h => { h with head := h.head + 1 }
  match s.cmdSlot q with
  | none => s
  | some (.error e) => if kind = 1 then ((go s).engineErr h.group e).fail (.queue q 0 false) stACCESS h.group e.va else s
  | some (.ok b) =>
    let k := field b 0 1
    let src : Src := .queue q (field b 4 4) ((field b 1 1).testBit 1)
    if !(decide (k = kind) || (decide (kind = 1) && (decide (k = 0) || decide (6 < k)))) || !s.mayStart q b then s
    else if !cmdOk b then (go s).fail src stBADCMD h.group 0
    else f (go s) src h.group b

/-- R61: a notify register that another group's class entry holds. -/
def State.notifyBad (s : State) (n group : Nat) : Bool := decide (n ≠ 0xFFFF) && decide (s.classGroup n ≠ group)

/-- A command in flight. -/
def State.addCmd (s : State) (src : Src) (group : Nat) (k : CmdK) : State :=
  let r := s.fresh
  { r.2 with cmds := r.2.cmds ++ [{ id := r.1, src := src, group := group, k := k, comp := 0, notify := 0xFFFF }] }

/-! ## RUN (R60 to R69) -/

/-- A RUN started. -/
def State.runImage (s : State) (src : Src) (group img comp ovr notify : Nat) : State :=
  if s.notifyBad notify group then s.fail src stACCESS group img
  else
    let r := s.fresh
    r.2.launch { id := r.1, src := src, group := group, k := .xlate img ovr, comp := comp, notify := notify } img ovr none

def execRunCommand (q : Nat) (s : State) : Out :=
  .next (s.takeCmd q 1 fun s src group b => s.runImage src group (field b 8 8) (field b 16 8) (field b 24 8) (field b 32 2))

/-- Every block of a context has ended and every counted operation is done (R60). -/
def State.runDone (s : State) (c : Ctx) : Bool :=
  (decide (c.src = .leaf) || decide (c.h.total ≤ c.cursor)) && !(s.waits.any fun w => w.ctx = c.id) && !(s.blocks.any fun b => b.ctx = c.id) &&
    !s.counting c.id && !s.redos.any fun r => r.req.org.ctx = c.id

/-- A launch whose completion record cannot be written fails (R61). -/
def State.failRun (s : State) (ctx : Nat) : State :=
  match s.cmds.find? fun c => c.k = .run ctx with
  | none => s
  | some c => (s.dropCmd c.id).fail c.src stACCESS c.group c.comp

/-- A context whose work is done, ended: the record in STATE 1, the notify register, the completion (R60, R309). -/
def State.endGrid (s0 : State) (c : Ctx) : State :=
  let s := s0.takePreempt c.group c.id 0
  if c.src = .leaf then (s.freeCtx c.id).finalise c.grid
  else
    let s := s.onGrid c.grid fun g => { g with state := 1, tprov := s.us }
    let bad := s.compFails c.grid
    let s := (s.writeGrid c.grid).freeCtx c.id
    (if bad then s.failRun c.id else s.endRun c.id 0 c.img).finalise c.grid

/-- RUN_COMPLETE for the `n`-th context. -/
def execRunComplete (n : Nat) (s : State) : Out :=
  .next (match s.ctxs[n]? with
    | some c => (match c.phase with
      | .running | .stopping _ _ _ => if s.runDone c then s.endGrid c else s
      | _ => s)
    | none => s)

/-! ## COPY (R59, R60, R338) -/

/-- A copy whose destination is one tagged message to a remote device. -/
def State.frontMsg (s : State) (group dst len : Nat) : Bool :=
  decide (len ≤ 65536) && match s.place group dst (.copy true) with
    | .ok (.fab n pa) => tagPlace (.fab n pa) && decide (pa % 65536 = 0)
    | _ => false

/-- One piece of the destination moved; a message's bytes go to no memory of this device. -/
def State.movePiece (s : State) (group src dst : Nat) (msg : Bool) (p : Nat × Nat) : State × Option VaErr :=
  match s.readVa group (src + p.1) p.2 (.copy false) with
  | .error e => (s, some e)
  | .ok b =>
    let s := match s.place group (src + p.1) (.copy false) with | .ok (.dev pa) => s.chargeGroup group pa p.2 | _ => s
    if msg then (match s.place group dst (.copy true) with | .ok t => if s.linkDead t then (s, some { cause := fLINK, va := dst }) else (s, none) | .error e => (s, some e))
    else s.writeVa group (dst + p.1) b (.copy true)

/-- A COPY started: each piece moves freely now or at the completion. -/
def State.copyStart (s : State) (src : Src) (group a d len : Nat) : State :=
  let msg := s.frontMsg group d len
  let ps := (spans (nSpans len) d len).map fun p => (p.1 - d, p.2)
  let r := ps.foldl (fun (r : State × List (Nat × Nat)) p =>
    let t := r.1.draw
    if msg || !t.1 then (t.2, r.2 ++ [p])
    else match t.2.movePiece group a d false p with | (u, none) => (u, r.2) | (_, some _) => (t.2, r.2 ++ [p])) (s, [])
  r.1.addCmd src group (.copy a d len r.2)

def execCopyCommand (q : Nat) (s : State) : Out :=
  .next (s.takeCmd q 2 fun s src group b => s.copyStart src group (field b 8 8) (field b 16 8) (field b 24 8))

/-- COPY_COMMAND_COMPLETE for the `n`-th command in flight. A message that its receiver refuses fails. -/
def execCopyCommandComplete (n : Nat) (s : State) : Out :=
  .next (match s.cmds[n]? with
    | some c => (match c.k with
      | .copy a d len todo =>
        let msg := s.frontMsg c.group d len
        let r := todo.foldl (fun (r : State × Option VaErr) p =>
          match r.2 with | some _ => r | none => r.1.movePiece c.group a d msg p) (s.dropCmd c.id, none)
        (match r.2 with
        | some e => (r.1.engineErr c.group e).fail c.src stACCESS c.group e.va
        | none =>
          let t := r.1.draw
          if msg && t.1 then t.2.fail c.src stACCESS c.group d else (t.2.complete c.src 0 c.group d).nodeDone c.src)
      | _ => s)
    | none => s)

/-! ## GRAPH, SIGNAL, WAIT (R59, R60) -/

def execGraphCommand (q : Nat) (s : State) : Out :=
  .next (s.takeCmd q 3 fun s src group b => (s.trigger (field b 8 1)).complete src 0 group 0)

/-- The write of a SIGNAL, or why it fails. -/
def State.signalWrite (s : State) (group a v : Nat) (add w32 : Bool) : Except VaErr State :=
  let n := if w32 then 4 else 8
  let refused := add && match s.xl group a .atomic with | .ok (.host _) ao => !ao | _ => false
  if refused then .error { cause := fREFUSED, va := a }
  else
    let acc : Acc := if add then .atomic else .write
    match (if add then s.readVa group a n .atomic else .ok []) with
    | .error e => .error e
    | .ok b => match s.writeVa group a (toBytes n (ofBytes b + v)) acc with
      | (t, none) => .ok t
      | (_, some e) => .error e

/-- A SIGNAL performed. -/
def State.signal (s : State) (src : Src) (group a v : Nat) (add w32 : Bool) (notify : Nat) : State :=
  if s.notifyBad notify group then s.fail src stACCESS group a
  else match s.signalWrite group a v add w32 with
  | .error e => (s.engineErr group e).fail src stACCESS group a
  | .ok t => ((if notify = 0xFFFF then t else t.notify notify 1).complete src 0 group a).nodeDone src

def execSignalCommand (q : Nat) (s : State) : Out :=
  .next (s.takeCmd q 4 fun s src group b =>
    s.signal src group (field b 8 8) (field b 16 8) (decide (field b 24 1 = 1)) (decide (field b 25 1 = 1)) (field b 26 2))

/-- A WAIT started, with its timeout in µs. -/
def State.waitStart (s : State) (src : Src) (group a v cmp : Nat) (w32 : Bool) (us : Nat) : State :=
  s.addCmd src group (.wait a v cmp w32 (if us = 0 then none else some (s.ns + 1000 * us)))

def execWaitCommand (q : Nat) (s : State) : Out :=
  .next (s.takeCmd q 5 fun s src group b =>
    s.waitStart src group (field b 8 8) (field b 16 8) (field b 24 1) (decide (field b 25 1 = 1)) (field b 28 4))

/-- WAIT_POLL for the `n`-th command in flight. -/
def execWaitPoll (n : Nat) (s : State) : Out :=
  .next (match s.cmds[n]? with | some c => s.pollWait c | none => s)

def execWaitTimeout (n : Nat) (s : State) : Out :=
  .next (match s.cmds[n]? with
    | some c => (match c.k with
      | .wait a _ _ _ (some d) => if d ≤ s.ns then (s.dropCmd c.id).fail c.src stTIMEOUT c.group a else s
      | _ => s)
    | none => s)

/-! ## LOADGRAPH (R59, R70, R71) -/

/-- The limits of a node among `n`. -/
def nodeOk (n : Nat) (b : List Byte) : Bool :=
  let f (o k : Nat) : Nat := field b o k
  let k := f 0 1
  let fl := f 1 1
  let w32 := fl.testBit 3
  let word := decide (k = 3) || decide (k = 4) || decide (k = 5)
  decide (1 ≤ k) && decide (k ≤ 7) && decide (fl < 16) && decide (f 2 1 < n) && (!w32 || word) &&
    decide (f 3 1 ≤ match k with | 3 => 1 | 4 | 5 => 3 | _ => 0) &&
    (if k = 6 then decide (1 ≤ f 4 4) && decide (f 4 4 ≤ 65535) else decide (f 4 4 = 0)) &&
    (!word || (decide (f 8 8 % (if w32 then 4 else 8) = 0) && (!w32 || decide (f 16 8 < 2 ^ 32)))) &&
    (decide (k = 1) || decide (f 28 4 = 0)) &&
    match k with
    | 1 => notifyOk (f 24 2) && decide (f 24 8 < 2 ^ 62)
    | 2 => decide (1 ≤ f 24 4) && decide (f 24 4 % 4 = 0)
    | 3 => decide (f 26 2 = 0) && notifyOk (f 24 2)
    | 5 => decide (f 24 4 = 0)
    | 6 => decide (f 8 8 = 0) && decide (f 16 8 = 0) && decide (f 24 4 = 0)
    | 7 => decide (f 8 8 ≤ 63) && decide (f 16 8 = 0) && decide (f 24 4 = 0)
    | _ => true

def execLoadgraphCommand (q : Nat) (s : State) : Out :=
  .next (s.takeCmd q 6 fun s src group b =>
    let g := field b 8 1
    let n := field b 9 1
    let a := field b 16 8
    let x := s.graph g
    if x.running || x.loading || (x.loaded && x.pending ≠ 0) then s.fail src stGBUSY group a
    else
      let t := s.draw
      let early := if t.1 then (match t.2.readVa group a (32 * n) .read with | .ok b => some b | .error _ => none) else none
      (t.2.onGraph g fun x => { x with loading := true }).addCmd src group (.load g n a early))

/-- The nodes of an array. -/
def nodesOf (n : Nat) (b : List Byte) : List (List Byte) := (List.range n).map fun k => (b.drop (32 * k)).take 32

/-- A node's notify register, or 0xFFFF. -/
def nodeNotify (b : List Byte) : Nat := if field b 0 1 = 1 || field b 0 1 = 3 then field b 24 2 else 0xFFFF

/-- The loaded graph. -/
def Graph.load (x : Graph) (group : Nat) (nodes : List (List Byte)) : Graph :=
  { x with loaded := true, faulted := false, group := group, nodes := nodes, pc := 0, async := false, ctrs := [] }

/-- LOADGRAPH_COMPLETE for the `n`-th command in flight. -/
def execLoadgraphComplete (n : Nat) (s : State) : Out :=
  .next (match s.cmds[n]? with
    | some c => (match c.k with
      | .load g n a early =>
        let t := (s.dropCmd c.id).onGraph g fun x => { x with loading := false }
        let got : Except VaErr (List Byte) := match early with | some b => .ok b | none => s.readVa c.group a (32 * n) .read
        (match got with
        | .error e => (t.engineErr c.group e).fail c.src stACCESS c.group e.va
        | .ok b =>
          let ns := nodesOf n b
          if !ns.all (nodeOk n) then t.fail c.src stBADCMD c.group a
          else if ns.any fun x => s.notifyBad (nodeNotify x) c.group then t.fail c.src stACCESS c.group a
          else (t.onGraph g fun x => x.load c.group ns).complete c.src 0 c.group a)
      | _ => s)
    | none => s)

/-! ## Graph runs (R70, R71) -/

/-- GRAPH_RUN_START. -/
def execGraphRunStart (g : Nat) (s : State) : Out :=
  let x := s.graph g
  let due := x.due.map fun (d : Nat × Nat) => (d.1, d.2 - 1)
  .next (if x.loaded && !x.loading && !x.running && !x.faulted && x.pending ≠ 0 && !s.graphBusy g then
      s.onGraph g fun x => { x with pending := x.pending - 1, running := true, pc := 0, async := false, ctrs := [],
                                    tag := (due.find? fun d => d.2 = 0).map (·.1), due := due.filter fun d => d.2 ≠ 0 }
    else s)

/-- The node that a run has come to, where it is of the event's kind and may start. -/
def State.nodeAt (s : State) (g kind : Nat) : Option (Nat × List Byte) :=
  let x := s.graph g
  match x.nodes[x.pc]? with
  | some b =>
    let fl := field b 1 1
    let mine := s.cmds.any fun c => match c.src with | .graph h n _ => decide (h = g) && decide (n = x.pc) | _ => false
    if x.running && decide (field b 0 1 = kind) && (!s.graphBusy g || (x.async && !fl.testBit 1)) && (fl.testBit 0 || !mine) then some (x.pc, b) else none
  | none => none

/-- A started node: an ASYNC one lets the run go on at once. -/
def State.started (s : State) (g node : Nat) (b : List Byte) : State :=
  let x := s.graph g
  if (field b 1 1).testBit 0 && x.running && x.pc = node then s.graphGo g (node + 1) true else s

/-- The source of a node's records. -/
def nodeSrc (g node : Nat) (b : List Byte) : Src := .graph g node ((field b 1 1).testBit 2)

/-- A node of a kind starts. -/
def State.startNode (s : State) (g kind : Nat) (f : State → Src → Nat → List Byte → State) : State :=
  match s.nodeAt g kind with
  | some (n, b) => (f s (nodeSrc g n b) (s.graph g).group b).started g n b
  | none => s

def execGraphNodeRun (g : Nat) (s : State) : Out :=
  .next (s.startNode g 1 fun s src group b =>
    s.runImage src group (field b 8 8) (field b 24 8 / 2 ^ 16 % 2 ^ 46 * 64) (field b 16 8) (field b 24 2))

def execGraphNodeCopy (g : Nat) (s : State) : Out :=
  .next (s.startNode g 2 fun s src group b => s.copyStart src group (field b 8 8) (field b 16 8) (field b 24 4))

def execGraphNodeSignal (g : Nat) (s : State) : Out :=
  .next (s.startNode g 3 fun s src group b =>
    s.signal src group (field b 8 8) (field b 16 8) (decide (field b 3 1 = 1)) ((field b 1 1).testBit 3) (field b 24 2))

def execGraphNodeWait (g : Nat) (s : State) : Out :=
  .next (s.startNode g 4 fun s src group b =>
    s.waitStart src group (field b 8 8) (field b 16 8) (field b 3 1) ((field b 1 1).testBit 3) (field b 24 4))

/-- A node that ends where it starts, with the place at which the run goes on. -/
def State.jumpNode (s : State) (src : Src) (group a g dest : Nat) (b : List Byte) : State :=
  (s.complete src 0 group a).graphGo g dest ((field b 1 1).testBit 0)

def execGraphNodeIf (g : Nat) (s : State) : Out :=
  .next (match s.nodeAt g 5 with
    | some (n, b) =>
      let group := (s.graph g).group
      let src := nodeSrc g n b
      let a := field b 8 8
      (match s.readVa group a (if (field b 1 1).testBit 3 then 4 else 8) .read with
      | .error e => (s.engineErr group e).fail src stACCESS group a
      | .ok v => s.jumpNode src group a g (if cmpHolds (field b 3 1) (ofBytes v) (field b 16 8) then field b 2 1 else n + 1) b)
    | none => s)

def execGraphNodeLoop (g : Nat) (s : State) : Out :=
  .next (match s.nodeAt g 6 with
    | some (n, b) =>
      let k := sget 0 n (s.graph g).ctrs
      let jump := decide (k + 1 < field b 4 4)
      let t := s.onGraph g fun x => { x with ctrs := sput 0 n (if jump then k + 1 else 0) x.ctrs }
      t.jumpNode (nodeSrc g n b) (s.graph g).group 0 g (if jump then field b 2 1 else n + 1) b
    | none => s)

def execGraphNodeTrigger (g : Nat) (s : State) : Out :=
  .next (match s.nodeAt g 7 with
    | some (n, b) => (s.trigger (field b 8 8)).jumpNode (nodeSrc g n b) (s.graph g).group 0 g (n + 1) b
    | none => s)

/-! ## Tagged messages (R72, R338) -/

def TagEnt.n (e : TagEnt) (o k : Nat) : Nat := field e.bytes o k

/-- An entry that names a launch; its argument slot is a multiple of 8 and its buffer 256-byte aligned. -/
def TagEnt.valid (e : TagEnt) : Bool :=
  (decide (e.n 0 1 = 1) || (decide (e.n 0 1 = 2) && decide (e.n 1 1 ≤ 63))) && decide (1 ≤ e.n 24 2) && decide (e.n 24 2 ≤ 256) &&
    decide (1 ≤ e.n 26 2) && decide (e.n 26 2 ≤ 256) && decide (e.n 2 2 % 8 = 0) && decide (e.n 16 8 % 256 = 0)

/-- The argument slot lies below the argument size of the image, where that can be read (log entry 82); an error that the read meets is detected. -/
def State.slotFits (s : State) (e : TagEnt) : Bool × State :=
  match s.readVa (e.n 4 4) (e.n 8 8 + 48) 4 .read with
  | .ok b => (decide (e.n 2 2 < ofBytes b), s)
  | .error x => (true, s.engineErr (e.n 4 4) x)

/-- A message refused back to its sender. -/
def State.refuseMsg (s : State) (t status a : Nat) : State :=
  let r := s.detail status a
  r.2.post { kind := 4, srcK := 3, src := t, tag := 0, status := status, group := (s.tagEnt t).n 4 4, detail := r.1 }

/-- The address of a slot. -/
def TagEnt.slotAt (e : TagEnt) (k : Nat) : Nat := e.n 16 8 + k * e.n 24 2 * 256

/-- TAG_MESSAGE_ARRIVAL: steps 1 and 2 of R72, or a refusal, which leaves nothing of the payload (R338). -/
def execTagMessageArrival (t : Nat) (payload : List Byte) (s : State) : Out :=
  let e := s.tagEnt t
  let k := e.n 28 2 % e.n 26 2
  let f := s.slotFits e
  .next (if 256 ≤ t then s
    else if !e.valid then s.refuseMsg t stNOTAG 0
    else
    let s := f.2
    if !f.1 then s.refuseMsg t stNOTAG 0
    else if !(s.grp (e.n 4 4)).en then s.refuseMsg t stACCESS 0
    else if 256 * e.n 24 2 < payload.length then s.refuseMsg t stTOOLONG 0
    else if e.busy.contains k then s.refuseMsg t stBUSY 0
    else match s.writeVa (e.n 4 4) (e.slotAt k) payload .write with
    | (_, some err) => (s.engineErr (e.n 4 4) err).refuseMsg t stACCESS err.va
    | (u, none) => u.onTag t fun e => { e with bytes := patch e.bytes 28 (toBytes 2 ((k + 1) % e.n 26 2)), busy := e.busy ++ [k], queue := e.queue ++ [k] })

/-- TAG_LAUNCH: steps 3 and 4 of R72, for the oldest message, once the launch before it has ended. An argument slot that the image has no room for fails
the launch (log entry 82). -/
def execTagLaunch (t : Nat) (s : State) : Out :=
  let e := s.tagEnt t
  let group := e.n 4 4
  .next (match e.live, e.queue with
    | none, k :: r =>
      let s := s.onTag t fun e => { e with live := some k, queue := r }
      if !(s.grp group).en then s.fail (.tag t) stACCESS group 0
      else match s.readVa group (e.n 8 8 + 40) 12 .read with
      | .error err => (s.engineErr group err).fail (.tag t) stACCESS group (e.n 8 8)
      | .ok b =>
        if field b 8 4 ≤ e.n 2 2 then s.fail (.tag t) stACCESS group (e.n 8 8)
        else match s.writeVa group (field b 0 8 + e.n 2 2) (toBytes 8 (e.slotAt k)) .write with
        | (s, some err) => (s.engineErr group err).fail (.tag t) stACCESS group err.va
        | (s, none) =>
          if e.n 0 1 = 1 then s.runImage (.tag t) group (e.n 8 8) 0 0 0xFFFF
          else
            let g := e.n 1 1
            let p := (s.graph g).pending
            if p < 255 then (s.trigger g).onGraph g fun x => { x with due := x.due ++ [(t, p + 1)] } else (s.trigger g).tagDone t
    | _, _ => s)

end Sys2Proof.Machine
end

