-- ==== Sys2Proof/Machine/Queue.lean ====
section
/-! DEFINITION. Registers that the outside world writes and that act: host-queue control blocks (R57, R61, R79), notify registers with their latches and
class entries (R70, R73 to R75, R336), work queues (R266) and context groups (R335). -/

namespace Sys2Proof.Machine

/-! ## Host queues -/

/-- EVENT_RING_ROOM: a waiting queue's records are written while they fit (R79). -/
def State.flushHeld (s : State) (q : Nat) : List EvRec → State
  | [] => s.onHq q fun h => { h with held := [] }
  | r :: l => if s.evsize ≠ 0 && s.ringFull then s.onHq q fun h => { h with held := r :: l }
              else (if s.evsize = 0 then s else s.ringPut r).flushHeld q l

def execEventRingRoom (q : Nat) (s : State) : Out := .next (s.flushHeld q (s.hqueue q).held)

/-- QUEUE_TAIL_WRITE: the doorbell, or a failure of the queue where the ring would overfill (R57). -/
def execQueueTailWrite (q : Nat) (v : Word) (s : State) : Out :=
  let h := s.hqueue q
  .next (if 64 ≤ q then s
    else if (v - h.head).toNat ≤ h.slots then s.onHq q fun h => { h with tail := v }
    else (s.onHq q fun h => { h with stopped := true }).post
      { kind := 2, srcK := 1, src := q, tag := 0, status := stBADCMD, group := h.group, detail := v.toNat })

/-- QUEUE_ENABLE: HEAD takes TAIL's value (R57); ignored while there is no event ring or the firmware has not come up (R76, R330). -/
def execQueueEnable (q : Nat) (s : State) : Out :=
  .next (if decide (q < 64) && !(s.hqueue q).en && decide (s.evsize ≠ 0) && decide (s.bootst = 8) then
      s.onHq q fun h => { h with en := true, head := h.tail }
    else s)

/-- QUEUE_ACK (R57, R61). -/
def execQueueAck (q : Nat) (v : Word) (s : State) : Out := .next (if v = 1 then s.onHq q fun h => { h with stopped := false } else s)

/-- ERRSUM_CLEAR (R57). -/
def execErrsumClear (q : Nat) (v : Word64) (s : State) : Out := .next (if v = 0 then s.onHq q fun h => { h with errsum := 0 } else s)

/-- QSTATE (R57). -/
def State.qstate (s : State) (q : Nat) : Nat :=
  let h := s.hqueue q
  let out := s.cmds.filter fun c => c.src.ofQueue q
  if h.stopped then 3
  else if !h.held.isEmpty || out.any (fun c => match c.k with | .wait _ _ _ _ _ => true | _ => false) then 2
  else if !out.isEmpty || (h.en && h.head ≠ h.tail) then 1 else 0

/-! ## Notify registers -/

/-- GRAPH_TRIGGER_WRITE: bit 63 clear (R70). -/
def execGraphTriggerWrite (n : Nat) (v : Word64) (s : State) : Out := .next (if n < 64 && !v.getLsbD 63 then s.notify n v else s)

/-- GRAPH_TRIGGER_RESET: bit 63 set (R70). -/
def execGraphTriggerReset (n : Nat) (v : Word64) (s : State) : Out := .next (if n < 64 && v.getLsbD 63 then s.notify n v else s)

/-- A register of a class. -/
def State.isCls (s : State) (n c : Nat) : Bool := decide (64 ≤ n) && decide (n < 4096) && decide ((s.nreg n).cls = c)

def execHostInterruptWrite (n : Nat) (v : Word64) (s : State) : Out := .next (if s.isCls n 2 then s.notify n v else s)

/-- The host reads a register of class 2 or 3: the value is returned. -/
def State.hostRead (s : State) (n : Nat) : State := { (s.readNotify n).2 with hostGot := (s.readNotify n).1 }

def execHostInterruptRead (n : Nat) (s : State) : Out := .next (if s.isCls n 2 then s.hostRead n else s)

/-- HOST_INTERRUPT_TIMER (R74). -/
def execHostInterruptTimer (n : Nat) (s : State) : Out :=
  let r := s.nreg n
  .next (match r.due with
    | some d => if s.isCls n 2 && decide (d ≤ s.ns) then (s.onNreg n fun r => { r with count := 0, due := none }).interrupt r.target else s
    | none => s)

def execQueueWakeWrite (n : Nat) (v : Word64) (s : State) : Out := .next (if s.isCls n 3 then s.notify n v else s)

def execQueueWakeRead (n : Nat) (s : State) : Out := .next (if s.isCls n 3 then s.hostRead n else s)

/-- NOTIFY_LATCH_WRITE (R75). -/
def execNotifyLatchWrite (n : Nat) (v : Word64) (s : State) : Out := .next (if s.gated && decide (n < 4096) then s.latch n v else s)

/-- Latched writes merged as the class entry that they arrived under says (R75, R336). -/
def State.mergePart (s : State) (n : Nat) (p : Latched) : State :=
  match p.cls with
  | 2 =>
    let s := s.onNreg n fun x => { NReg.start { x with value := x.value ||| p.bits, count := min (x.count + p.count) 255, timer := p.timer } s.ns with timer := x.timer }
    let r := s.nreg n
    if p.thresh ≤ r.count && r.count ≠ 0 then (s.onNreg n fun r => { r with count := 0, due := none }).interrupt p.target else s
  | 3 => (s.onNreg n fun x => { x with value := x.value ||| p.bits }).wakeQueue p.target
  | _ => s

/-- One latch merged into its register, and cleared (R75). -/
def State.merge (s : State) (n : Nat) : State :=
  let r := s.nreg n
  let s := s.onNreg n fun r => { r with lOr := 0, lLast := 0, lCount := 0, lParts := [] }
  if r.lCount = 0 then s
  else if n < 64 then
    s.onGraph n fun x => { x with pending := min (x.pending + r.lCount) 255, ovf := x.ovf || decide (255 < x.pending + r.lCount) }
  else s.each r.lParts fun s p => s.mergePart n p

/-- NOTIFY_WAKE_MERGE: the aperture wakes. -/
def execNotifyWakeMerge (s : State) : Out :=
  .next (if s.gated then { s with gated := false }.each (s.nregs.map fun (x : Nat × NReg) => x.1) State.merge else s)

/-- NOTIFY_APERTURE_GATING: later writes go to the latches (R75). -/
def execNotifyApertureGating (s : State) : Out := .next { s with gated := true }

/-- A class entry's bytes (R336). -/
def NReg.entry (r : NReg) : List Byte :=
  toBytes 1 r.cls ++ toBytes 1 r.thresh ++ toBytes 2 r.timer ++ toBytes 2 r.target ++ toBytes 2 0 ++ toBytes 4 r.group ++ toBytes 4 0

/-- The entry that bytes leave, and what a change of class clears. -/
def NReg.setEntry (r : NReg) (b : List Byte) (thresh : Bool) : NReg :=
  let n (o k : Nat) : Nat := field b o k
  let target := n 4 2
  let want := if n 0 1 = 2 || n 0 1 = 3 then n 0 1 else 0
  let cls := if (want = 2 && !(decide (1 ≤ target) && decide (target ≤ 2047))) || (want = 3 && 63 < target) then 0 else want
  let x := { r with cls := cls, thresh := if thresh && n 1 1 = 0 then 1 else n 1 1, timer := n 2 2, target := target, group := n 8 4 }
  if cls = r.cls then x else { x with value := 0, count := 0, due := none }

/-- NOTIFY_CLASS_ENTRY_WRITE: `size` bytes of `v` at offset `off` of entry `n` (R336). -/
def execNotifyClassEntryWrite (n off size : Nat) (v : Word64) (s : State) : Out :=
  .next (if decide (64 ≤ n) && decide (n < 4096) && decide (off + size ≤ 16) && decide (size ≤ 8) then
      s.onNreg n fun r => r.setEntry (patch r.entry off (toBytes size v.toNat)) (decide (off ≤ 1) && decide (1 < off + size))
    else s)

/-! ## Work queues (R266) -/

/-- An address of a group in near-store memory. -/
def State.isNear (s : State) (group va : Nat) : Bool :=
  match s.place group va .read with
  | .ok (.dev pa) => decide (nearBase ≤ pa) && decide (pa < s.nearEnd)
  | _ => false

/-- The whole ring lies in near-store memory of its group. -/
def State.ringNear (s : State) (w : WQueue) : Bool :=
  (s.grp w.group).en && (List.range ((w.ring + 8 * w.slots - 1) / 65536 - w.ring / 65536 + 1)).all fun k =>
    s.isNear w.group (if k = 0 then w.ring else (w.ring / 65536 + k) * 65536)

/-- WORK_QUEUE_ENABLE: a write of WFLAGS. -/
def execWorkQueueEnable (w : Nat) (v : Word) (s : State) : Out :=
  let x := s.wqueue w
  .next (if 64 ≤ w then s
    else if !v.getLsbD 0 then s.onWq w fun x => { x with en := false }
    else if x.en || (s.ringNear x && (x.wake = 0xFFFF || s.classGroup x.wake = x.group)) then s.onWq w fun x => { x with en := true }
    else s)

/-! ## Context groups (R335) -/

/-- Every field is within its range (R294, R335). -/
def Grp.ok (g : Grp) : Bool :=
  decide (g.troot % 65536 = 0) && decide (1 ≤ g.cbud) && decide (g.cbud ≤ 384) && decide (1 ≤ g.pbud) && decide (g.pbud ≤ 2600) &&
    decide (g.prbound ≤ 10000) && decide (g.prbase % 32 = 0) && isPow2 64 65536 g.prsize && decide (g.cfbase % 64 = 0) && isPow2 64 65536 g.cfsize &&
    decide (g.prbase < 2 ^ 52) && decide (g.prnotify < 4096) && decide (g.cfbase < 2 ^ 52) && decide (g.pbound ≤ 1000) && decide (g.pimg % 256 = 0)

/-- GROUP_ENABLE. -/
def execGroupEnable (g : Nat) (s : State) : Out := .next (if g < 256 && (s.grp g).ok then s.onGrp g fun x => { x with en := true } else s)

/-- GROUP_DISABLE: ignored while a context of the group runs; else the group and its translations go. -/
def execGroupDisable (g : Nat) (s : State) : Out :=
  .next (if s.ctxs.any fun c => c.group = g then s
    else { s with xcache := s.xcache.filter fun x => x.group ≠ g }.onGrp g fun x => { x with en := false })

end Sys2Proof.Machine
end

