-- ==== Sys2Proof/Machine/Preempt.lean ====
section
/-! DEFINITION. Pre-emption (R294 to R297, R67, R248) by the driver and by a leaf (R95, R312), with the saved images that it writes (R63 to R66), and
removal at the driver's request (R298). -/

namespace Sys2Proof.Machine

def zeros (n : Nat) : List Byte := List.replicate n 0

/-- Bytes with zero padding up to a multiple of 256. -/
def padBytes (b : List Byte) : List Byte := b ++ zeros (pad256 b.length - b.length)

/-! ## What a saved image holds (R64 to R66, R295) -/

/-- Lanes of a warp for which `f` holds. -/
def Warp.lanesWith (w : Warp) (f : Lane → Bool) : Mask := maskOf fun n => f (laneAt w.lanes n)

def Lane.tpend (l : Lane) : Bool := !l.exited && (decide (l.park = .trap) || decide (l.park = .handler))

/-- A lane that a record gives as parked. -/
def Lane.held (l : Lane) : Bool := !l.exited && decide (l.park ≠ .run) && decide (l.park ≠ .stop)

/-- A warp whose every active lane is stopped at a LIVEPT; one of a quadrant with no live lane is saved whole (R95). -/
def State.atLive (s : State) (w : Warp) : Bool := decide ((s.quad w.q).perBeat ≠ 0) && w.lanes.all fun l => l.exited || decide (l.park = .stop)

/-- The granules of a warp that are saved. -/
def State.keptGran (s : State) (w : Warp) : List Nat := (List.range w.gran).filter fun n => !s.atLive w || w.liveG.getLsbD n

/-- A granule's bytes. -/
def Warp.granBytes (w : Warp) (n : Nat) : List Byte := (List.range 2048).flatMap fun k => toBytes 4 (sget 0 (2048 * n + k) w.v).toNat

/-- Lanes of a register's set released at a matrix instruction that has not issued, or whose operation waits for a tile: they offer themselves again after the
restore (R240, R248), so the set is saved complete (log entry 77). -/
def State.setOpen (s : State) (w : Warp) (c : Nat) : Bool :=
  decide (sget 0 c w.signed = 0) && ((w.lanes.any fun l => l.isDue && decide (l.park = .due c)) ||
    s.mats.any fun m => decide (m.org.warp = w.id) && !m.entered && decide (m.lanes ≠ 0) && decide (convOf m.word = c))

/-- SIGNED as it is saved. -/
def State.savedSign (s : State) (w : Warp) (c : Nat) : Mask := if s.setOpen w c then sget 0 c w.decl else sget 0 c w.signed

/-- A warp's record; `bi` is the index of its block's record. -/
def State.warpRecOf (s : State) (w : Warp) (bi : Nat) : WRec :=
  { blk := bi, wi := w.wi, exited := w.lanesWith (·.exited), parked := w.lanesWith Lane.held, tpend := w.lanesWith Lane.tpend,
    pos := w.lanes.map fun l => (l.hdr, l.idx), preds := (List.range 16).map fun k => sget 0 k w.p, unis := (List.range 64).map fun k => sget 0 k w.s,
    conv := (List.range 8).map fun k => (sget 0 k w.decl, s.savedSign w k), fpte := w.lanes.map (·.fpte), fpfl := w.lanes.map (·.fpfl),
    late := lanes32.filterMap fun n => ((w.traps.filter fun x => x.cls = tDEFER).flatMap (·.lanes)).find? (fun t => t.lane = n) |>.map
      fun t => (n, t.addr, (t.fpos, t.fidx), t.cause),
    gran := (s.keptGran w).map fun n => (n, w.granBytes n) }

/-- A position as an offset and an index. -/
def posWord (code : Nat) (p : Nat × Nat) : Nat := (p.1 + 2 ^ 64 - code) % 2 ^ 48 + 2 ^ 48 * (p.2 % 32)

def WRec.lateMask (w : WRec) : Mask := maskOf fun n => w.late.any fun d => d.1 = n

/-- The bytes of a warp record (R64). -/
def WRec.bytes (w : WRec) (code : Nat) : List Byte :=
  let m (x : Mask) : List Byte := toBytes 4 x.toNat
  padBytes (toBytes 4 w.blk ++ toBytes 1 w.wi ++ zeros 3 ++ m w.exited ++ m w.parked ++ m w.tpend ++
    m (maskOf fun n => decide ((w.pos.getD n (0, 0)).2 ≠ 0)) ++ toBytes 2 (w.gran.foldl (fun k g => k + 2 ^ g.1) 0) ++ zeros 6 ++
    (w.pos.flatMap fun p => toBytes 8 (posWord code p)) ++ w.preds.flatMap m ++ w.unis.flatMap m ++ (w.conv.flatMap fun c => m c.1 ++ m c.2) ++ zeros 16 ++
    w.fpte.map (·.zeroExtend 8) ++ w.fpfl.map (·.zeroExtend 8) ++ m w.lateMask ++ zeros 12 ++ w.gran.flatMap (·.2) ++
    w.late.flatMap fun d => toBytes 8 d.2.1 ++ toBytes 8 (posWord code d.2.2.1) ++ toBytes 1 d.2.2.2 ++ zeros 15)

/-- A range put into ascending ranges. -/
def insRange (x : Nat × Nat) : List (Nat × Nat) → List (Nat × Nat)
  | [] => [x]
  | y :: r => if x.1 ≤ y.1 then x :: y :: r else y :: insRange x r

/-- Ascending ranges merged. -/
def joinRanges : List (Nat × Nat) → List (Nat × Nat)
  | [] => []
  | x :: r =>
    match joinRanges r with
    | [] => [x]
    | y :: t => if y.1 ≤ x.1 + x.2 then (x.1, max (x.1 + x.2) (y.1 + y.2) - x.1) :: t else x :: y :: t

/-- The scratchpad ranges of a block that are saved, in KiB (R295). -/
def State.keptRanges (s : State) (kib : Nat) (ws : List Warp) : List (Nat × Nat) :=
  let whole := if kib = 0 then [] else [(0, kib)]
  if ws.any fun w => !s.atLive w then whole
  else
    let r := joinRanges ((ws.flatMap (·.liveR)).foldl (fun l x => insRange x l) [])
    if 64 < r.length then whole else r

/-- The bytes of a block record (R65). `all`: accumulators that are zero are saved too. -/
def State.blockBytes (s : State) (b : Block) (h : Img) (gi : Nat) (ws : List Warp) (all : Bool) : List Byte :=
  let as := (List.range h.accs).filter fun a => all || b.acc.any fun e => e.1 / 16384 = a
  let rs := s.keptRanges h.scratch ws
  toBytes 4 b.lin ++ toBytes 4 gi ++ toBytes 1 b.pos ++ zeros 3 ++ toBytes 4 (as.foldl (fun k a => k + 2 ^ a) 0) ++
    ((List.range 16).flatMap fun n => let x := sget Bar.idle n b.bars; toBytes 2 x.arrivals ++ toBytes 2 x.expected) ++
    ((List.range 32).map fun n => sget 0 n b.aflags) ++ toBytes 4 rs.length ++ zeros 140 ++ padBytes (rs.flatMap fun r => toBytes 4 (r.1 + 2 ^ 11 * r.2)) ++
    (as.flatMap fun a => (List.range 16384).flatMap fun k => toBytes 4 (sget 0 (16384 * a + k) b.acc).toNat) ++
    rs.flatMap fun r => readCells b.scratch (1024 * r.1) (1024 * r.2)

/-- The saved record of a name: bit 7 of FLAGS says that it is faulted (R221). -/
def Entry.saved (e : Entry) : List Byte := if e.faulted then e.trec.set 9 (e.trec.getD 9 0 ||| 0x80) else e.trec

/-- The bytes of a group record (R66). `img` gives a faulted name's image bytes. -/
def CGroup.bytes (g : CGroup) (img : Nat → Byte) : List Byte :=
  let live := g.entries.filter fun e => e.2.st = .live
  toBytes 4 g.gidx ++ toBytes 2 g.cbar.arrivals ++ toBytes 2 g.cbar.expected ++ toBytes 2 live.length ++ toBytes 2 g.free.length ++ zeros 244 ++
    padBytes ((live.flatMap fun e => toBytes 2 e.1 ++ zeros 6 ++ e.2.saved ++ zeros 56) ++ g.free.flatMap (toBytes 2)) ++
    live.flatMap fun e => if e.2.faulted then (List.range 36864).map img else readCells e.2.img 0 36864

/-- The header's bytes (R63). -/
def Img.bytes (h : Img) : List Byte :=
  toBytes 4 0x474D494B ++ toBytes 2 1 ++ toBytes 1 h.kind ++ toBytes 1 h.flags ++ toBytes 8 h.code ++ toBytes 2 h.entry ++ toBytes 1 h.variant ++
    toBytes 1 h.gran ++ toBytes 4 h.gx ++ toBytes 4 h.gy ++ toBytes 4 h.gz ++ toBytes 1 h.warps ++ toBytes 1 h.gsize ++ toBytes 2 h.scratch ++
    toBytes 1 h.accs ++ toBytes 1 h.bars ++ toBytes 2 h.names ++ toBytes 8 h.args ++ toBytes 4 h.argSize ++ toBytes 4 h.group ++ toBytes 8 h.htab ++
    toBytes 4 h.cbud ++ toBytes 4 h.pbud ++ toBytes 8 h.bbud ++ h.view.flatMap (toBytes 4) ++ toBytes 8 h.cursor ++ toBytes 4 h.nw ++ toBytes 4 h.nb ++
    toBytes 4 h.ng ++ toBytes 4 h.cause ++ toBytes 8 h.woff ++ toBytes 8 h.boff ++ toBytes 8 h.goff ++ toBytes 8 h.size ++ toBytes 8 h.adtb ++
    toBytes 8 h.rdst ++ toBytes 4 h.qsel ++ toBytes 4 h.fpte ++ toBytes 1 h.tstep ++ toBytes 1 h.trev ++ zeros 6 ++ toBytes 8 h.dbase ++
    toBytes 8 h.dsize ++ zeros 24

/-! ## The parts of a context -/

/-- A warp that has ended but for its event. -/
def Warp.over (w : Warp) : Bool := w.allExited && w.traps.isEmpty

/-- A cluster group with its unfinished blocks and their unfinished warps. -/
abbrev Part := CGroup × List (Block × List Warp)

/-- A group as it is saved: a name that drains has no reader but matrix operations that have not entered, which offer themselves again, so it is free (R67). -/
def CGroup.settled (g : CGroup) : CGroup :=
  { g with entries := g.entries.filter fun e => e.2.st ≠ .draining, free := g.free ++ (g.entries.filter fun e => e.2.st = .draining).map (·.1) }

/-- A group's parts from its blocks and warps. -/
def partOf (g : CGroup) (bs : List Block) (ws : List Warp) : Part :=
  (g.settled, (sortBy (·.lin) bs).map fun b => (b, sortBy (·.wi) (ws.filter fun w => decide (w.blk = b.id) && !w.over)))

/-- A group that is to start again (R317). -/
def replayPart (c : Ctx) (gidx : Nat) (lins : List Nat) : Part :=
  (freshGroup c 0 gidx lins.length, lins.map fun n => (freshBlock c 0 n (n % c.h.gsize) 0, (List.range c.h.warps).map (freshWarp c 0 0)))

def State.parts (s : State) (c : Ctx) : List Part :=
  let here := (s.cgroups.filter fun g => g.ctx = c.id).map fun g =>
    if g.again then replayPart c g.gidx (c.h.groupLins g.gidx) else partOf g (s.blocks.filter fun b => b.cg = g.id) s.warps
  let away := (s.waits.filter fun w => w.ctx = c.id).filterMap fun w =>
    match w.saved with
    | some v => some (partOf v.1 v.2.1 v.2.2)
    | none => if w.replay then some (replayPart c w.gidx w.lins) else none
  (sortBy (fun (p : Part) => p.1.gidx) (here ++ away)).filter fun p => !p.2.isEmpty

/-- Warps and blocks that have finished are ended first. -/
def State.endFinished (s : State) (ctx : Nat) : State :=
  let s := (s.warps.filter fun w => decide (w.ctx = ctx) && w.over).foldl (fun (s : State) w =>
    { s with warps := s.warps.filter fun x => x.id ≠ w.id }.onBlock w.blk fun b => { b with warpsLeft := b.warpsLeft - 1 }) s
  (s.blocks.filter fun b => decide (b.ctx = ctx) && decide (b.warpsLeft = 0)).foldl (fun s b => s.endBlock b) s

/-- A whole image: header, warp records, block records, group records. -/
def State.imageOf (s : State) (c : Ctx) (cause : Nat) (all : Bool) (img : Nat → Byte) : List Byte :=
  let ps := s.parts c
  let bs := ps.zipIdx.flatMap fun p => p.1.2.map fun b => (b.1, b.2, if p.1.1.hasRec then p.2 else 2 ^ 32 - 1)
  let ws := bs.zipIdx.flatMap fun b => b.1.2.1.map fun w => (s.warpRecOf w b.2).bytes c.code
  let gs := (ps.filter fun p => p.1.hasRec).map fun p => p.1.bytes img
  let wb := ws.flatten
  let bb := bs.flatMap fun b => s.blockBytes b.1 c.h b.2.2 b.2.1 all
  let gb := gs.flatten
  let h := { c.h with kind := 2, flags := c.chkm, variant := c.variant, tstep := c.tstep, trev := c.trev, htab := c.htab, adtb := c.adtb, rdst := c.rdst,
                      qsel := c.qsel, cursor := c.cursor, cause := cause, nw := ws.length, nb := bs.length, ng := gs.length, woff := 256,
                      boff := 256 + wb.length, goff := 256 + pad256 (wb.length + bb.length), size := 256 + pad256 (wb.length + bb.length) + gb.length }
  h.bytes ++ wb ++ padBytes bb ++ gb

/-! ## Stopping (R295) -/

/-- A warp is stopped: no active lane can issue, and no handler of it runs. -/
def State.stopped (s : State) (w : Warp) : Bool :=
  (w.lanes.all fun l => !l.going && !l.isDue) &&
    match (s.quad w.q).bank with
    | some b => decide (b.warp ≠ w.id) || b.lanes.all fun l => !l.going
    | none => true

/-- A quadrant with no live lane issues nothing, and its warps count as stopped (R95). -/
def State.halted (s : State) (w : Warp) : Bool := s.stopped w || decide ((s.quad w.q).perBeat = 0) || s.leafSaving w

/-- A running handler abandoned: its lanes are trap pending again at their trap positions (R295). -/
def State.abandon (s : State) (w : Warp) : State :=
  match (s.quad w.q).bank with
  | some b =>
    if b.warp ≠ w.id then s
    else
      let m := maskOf fun n => !(laneAt b.lanes n).exited
      let at_ (p : Nat × Lane) : Lane := if m.getLsbD p.1 then { Lane.goto (b.entry.getD p.1 (0, 0)) p.2 with park := .trap, passed := 0 } else p.2
      let sub := { b.sub with lanes := b.sub.lanes.filter fun t => m.getLsbD t.lane }
      (s.onWarp w.id fun x => { x with lanes := (lanes32.zip x.lanes).map at_, traps := sub :: x.traps }).onQuad w.q fun q => { q with bank := none }
  | none => s

def State.abandonAll (s : State) (p : Warp → Bool) : State := (s.warps.filter p).foldl (fun s w => s.abandon w) s

/-- Warps of a cluster group. -/
def State.inGroup (s : State) (g : Nat) (w : Warp) : Bool := decide (s.blockCg w.blk = g)

/-- The context issues nothing more. -/
def State.haltCtx (s : State) (c : Ctx) (driver : Bool) (cause : Nat) : State :=
  ((s.abandonAll fun w => w.ctx = c.id).onCtx c.id fun x => { x with phase := .saving driver cause }).onGrp c.group fun g =>
    if driver then { g with pstate := 2 } else g

def State.haltGroup (s : State) (g : CGroup) : State :=
  (s.abandonAll fun w => s.inGroup g.id w).onCGroup g.id fun x => { x with leaf := .saving }

/-- PREEMPT_STOP: a context, or a group that its leaf is stopping, whose warps are all stopped, stops. -/
def execPreemptStop (c : Nat) (s : State) : Out :=
  .next (match s.ctx? c with
    | none => s
    | some x =>
      let s := match x.phase with
        | .stopping _ d k => if s.warps.all fun w => decide (w.ctx ≠ c) || s.halted w then s.haltCtx x d k else s
        | _ => s
      (s.cgroups.filter fun g => g.ctx = c).foldl (fun s g => match g.leaf with
        | .stopping _ => if s.warps.all fun w => !s.inGroup g.id w || s.halted w then s.haltGroup g else s
        | _ => s) s)

/-- The hint bound of a group in ns (R294). -/
def Grp.bound (g : Grp) : Nat := 1000 * if g.pbound = 0 then 20 else g.pbound

/-- PREEMPT_BOUND_EXPIRY: the bound has passed; a leaf's bound is the default. -/
def execPreemptBoundExpiry (c : Nat) (s : State) : Out :=
  .next (match s.ctx? c with
    | none => s
    | some x =>
      let s := match x.phase with
        | .stopping t d k => if t + (s.grp x.group).bound ≤ s.ns then s.haltCtx x d k else s
        | _ => s
      (s.cgroups.filter fun g => g.ctx = c).foldl (fun s g => match g.leaf with
        | .stopping t => if t + 20000 ≤ s.ns then s.haltGroup g else s
        | _ => s) s)

/-! ## Requests (R294) -/

/-- A pre-emption of every running context of a group. -/
def State.preempt (s : State) (g cause : Nat) (migrate : Bool) : State :=
  let cs := (s.ctxs.filter fun c => decide (c.group = g) && decide (c.phase = .running)).map (·.id)
  let s := s.onGrp g fun x =>
    let y := if x.ptodo.isEmpty then { x with pneed := 0, pend := 0, pbad := 0 } else x
    let todo := y.ptodo ++ cs
    { y with ptodo := todo, go := !todo.isEmpty, migrate := migrate, pstate := if todo.isEmpty then 3 else if y.ptodo.isEmpty then 1 else y.pstate }
  let t : State := { s with ctxs := s.ctxs.map fun (c : Ctx) => if cs.contains c.id then { c with phase := .stopping s.ns true cause } else c }
  { t with warps := t.warps.map fun (w : Warp) => if cs.contains w.ctx && !(w.lanes.any fun l => l.park = .stop) then { w with liveG := 0, liveR := [] } else w }

def execPctlGo (g : Nat) (s : State) : Out := .next (if (s.grp g).en then s.preempt g 1 false else s)

def execPctlGoMigrate (g : Nat) (s : State) : Out := .next (if (s.grp g).en then s.preempt g 2 true else s)

/-- PCTL_REMOVE (R298): every running context of the group is removed, cause 2. -/
def execPctlRemove (g : Nat) (s : State) : Out :=
  let cs := (s.ctxs.filter fun c => c.group = g).map (·.id)
  .next (if !(s.grp g).en || cs.isEmpty then s else (s.onGrp g fun x => { x with remove := true }).each cs fun s c => s.startRemoval c 2)

/-- A leaf begins to pre-empt a cluster group (R95, R312); LIVEPT records of an earlier stop are dropped. -/
def State.leafPreempt (s : State) (g : Nat) : State :=
  let s := s.onCGroup g fun x => if x.leaf = .none then { x with leaf := .stopping s.ns } else x
  { s with warps := s.warps.map fun (w : Warp) => if s.inGroup g w && !(w.lanes.any fun l => l.park = .stop) then { w with liveG := 0, liveR := [] } else w }

/-! ## The save engine (R296) -/

/-- A reader that a save waits for: not one of a matrix operation that has not entered (R248). -/
def State.savesBehind (s : State) (x : Reader) : Bool :=
  match x.ask with
  | .mat m => s.mats.any fun y => decide (y.id = m) && y.entered
  | _ => true

/-- What the save of some warps waits for: requests, copies, definitions, readers, fills, and matrix operations that have entered. Entries held at an order
point are not waited for. -/
def State.draining (s : State) (p : Origin → Bool) : Bool :=
  (s.net.any fun r => p r.org) || (s.redos.any fun h => p h.req.org && h.atCore) || (s.copies.any fun x => p x.org) || (s.defs.any fun x => p x.org) ||
    (s.readers.any fun x => p x.org && s.savesBehind x) || (s.fills.any fun x => p x.org) || s.mats.any fun x => p x.org && x.entered

/-- The unreported failures of warps entered with kind 4 (R256, R296). -/
def State.enterFails (s : State) (ws : List Warp) : State :=
  ws.foldl (fun s w => s.each w.fail.orgs fun s x => s.cfEnter x.1.group x.1.grid (x.1.cf 4 x.2.1 x.2.2.1 1 x.2.2.2)) s

/-- The failures still unreported in block records, entered likewise: taken from a block record, their issuers exited (R293; log entry 22). -/
def State.enterBlockFails (s : State) (bs : List Block) : State :=
  bs.foldl (fun s b => s.each b.fail.orgs fun s x => s.cfEnter x.1.group x.1.grid (x.1.cf 4 x.2.1 (x.2.2.1 ||| 3) 1 x.2.2.2)) s

/-- A context that keeps running: its LIVEPT lanes are unstopped, but for groups that a leaf is stopping. -/
def State.resumeCtx (s : State) (c : Ctx) : State :=
  let s := s.onCtx c.id fun x => { x with phase := .running }
  let mine (w : Warp) : Bool := decide (w.ctx = c.id) && (((s.warpGroup w).map fun g => decide (g.leaf = .none)).getD true)
  { s with warps := s.warps.map fun (w : Warp) => if mine w then
      { w with lanes := w.lanes.map fun (l : Lane) => (if l.park = .stop then { l with park := .run } else l), liveG := 0, liveR := [] } else w }

/-- A driver's context saved, or left running where its image does not fit or cannot be written. -/
def State.saveCtx (s : State) (c : Ctx) (cause : Nat) : State :=
  let s := s.endFinished c.id
  let r := s.draw
  let k := Config.freeNat r.2.free
  let s : State := { r.2 with free := r.2.free + 1 }
  let b := s.imageOf c cause r.1 fun i => BitVec.ofNat 8 (k / 256 ^ i)
  let g := s.grp c.group
  let off := pad256 g.pend
  let s := s.onGrp c.group fun x => { x with pneed := min (2 ^ 32 - 1) (x.pneed + b.length) }
  if g.psize < off + b.length then (s.resumeCtx c).takePreempt c.group c.id 4
  else match s.writeVa c.group (g.pimg + off) b .write with
  | (s, some e) => (((s.engineErr c.group e).resumeCtx c).postDev 2 0xFFFF 0 stACCESS c.group e.va).takePreempt c.group c.id 5
  | (s, none) =>
    let va := g.pimg + off
    let s := s.onGrp c.group fun x => { x with pend := off + b.length }
    let s := (s.enterFails (s.warps.filter fun w => w.ctx = c.id)).enterBlockFails (s.blocks.filter fun b => b.ctx = c.id)
    let s := (s.cgroups.filter fun g => decide (g.ctx = c.id) && g.again).foldl (fun s g => s.noteReplay c.id (c.h.groupLins g.gidx)) s
    let s : State := { s with mats := s.mats.filter (fun m => m.org.ctx ≠ c.id), readers := s.readers.filter fun x => x.org.ctx ≠ c.id }
    let s := (s.freeCtx c.id).postDev 1 0xFFFF 0 0 c.group va
    let s := if c.src = .leaf then (s.onGrid c.grid fun x => x.suspect c.lins).finalise c.grid else s.endRun c.id stPREEMPTED va
    s.takePreempt c.group c.id 0

/-- The code of a context, as the leaf reads it again. -/
def State.codeOf (s : State) (c : Ctx) : Code :=
  let n := (c.codeEnd - c.code) / 8
  { base := c.code, stop := c.codeEnd, first := c.code,
    words := if c.tcode.isEmpty then (List.range n).map fun k => s.codeMem c (c.code + 8 * k) else c.tcode,
    heads := c.heads, translated := !c.tcode.isEmpty, variant := c.variant, tstep := c.tstep, trev := c.trev, inter := c.inter, gov := c.governed,
    slots := [] }

/-- Scratchpad bytes within ranges of KiB. -/
def keepScratch (rs : List (Nat × Nat)) (m : Sparse Byte) : Sparse Byte := m.filter fun e => rs.any fun r => decide (r.1 ≤ e.1 / 1024) && decide (e.1 / 1024 < r.1 + r.2)

/-- A held entry whose issuer has been saved (R296 step 2): a failure of it is entered with kind 4. -/
def Held.leave (h : Held) : Held := { h with req := { h.req with org := { h.req.org with warp := 0, blk := 0 } } }

/-- A block whose saved scratchpad holds an uncorrectable word. -/
def State.lostScratch (s : State) (kib : Nat) (b : Block) : Bool :=
  let rs := s.keptRanges kib (s.warps.filter fun w => w.blk = b.id)
  b.badWords.any fun w => rs.any fun r => decide (r.1 ≤ w / 256) && decide (w / 256 < r.1 + r.2)

/-- The save engine met an uncorrectable error in one of a context's blocks: the context is removed, cause 3 (R319, R320). -/
def State.loseSaved (s : State) (c : Ctx) (bs : List Block) (f : State → State) : State :=
  match bs.find? (s.lostScratch c.h.scratch) with
  | some b => (s.scratchErr b.core c.group).startRemoval c.id 3
  | none => f s

/-- A leaf's save of a group (R95, R221): it waits for placement as its image would restore it. -/
def State.saveGroup (s : State) (c : Ctx) (g : CGroup) : State :=
  let p := partOf g (s.blocks.filter fun b => b.cg = g.id) s.warps
  let code := s.codeOf c
  let i := s.fresh
  let s := (i.2.enterFails (p.2.flatMap (·.2))).enterBlockFails (p.2.map (·.1))
  let bs := p.2.map fun b => { b.1 with scratch := keepScratch (s.keptRanges c.h.scratch b.2) b.1.scratch, pmc := [], missed := [], fail := FailRec.none, warpsLeft := b.2.length }
  let ws := p.2.flatMap fun b => b.2.map fun w => restoreWarp c code (s.warpRecOf w 0) w.id w.blk i.1
  let e := p.1.entries.filterMap fun (x : Nat × Entry) => if x.2.st = .live then some (x.1, { x.2 with waiters := [] }) else none
  let v := { p.1 with entries := e, heads := [], leaf := .none, left := bs.length }
  let w : Wait := { ctx := c.id, gidx := g.gidx, lins := bs.map (·.lin), since := s.ns, saved := some (v, bs, ws), replay := false, hold := [], leaf := none }
  let again := g.again
  let mine (x : Nat) : Bool := ws.any fun y => y.id = x
  let s := (s.freeBanks fun y => mine y.id).dropWaits mine
  let t : State := { s with mats := s.mats.filter (fun m => !mine m.org.warp), readers := s.readers.filter (fun x => !mine x.org.warp),
                            redos := s.redos.map (fun (h : Held) => if mine h.req.org.warp then h.leave else h), warps := s.warps.filter (fun y => !mine y.id),
                            blocks := s.blocks.filter (fun b => b.cg ≠ g.id), cgroups := s.cgroups.filter (fun y => y.id ≠ g.id),
                            waits := if again || bs.isEmpty then s.waits else s.waits ++ [w] }
  let lins := c.h.groupLins g.gidx
  if again then (t.noteReplay c.id lins).replayWait c.id g.gidx lins else t

/-- SAVE_ENGINE: acts for context `c` once what it waits for has ended. A request's contexts are taken in the order of their launch. -/
def execSaveEngine (c : Nat) (s : State) : Out :=
  .next (match s.ctx? c with
    | none => s
    | some x =>
      match x.phase with
      | .saving _ k =>
        let todo := (s.grp x.group).ptodo.filter fun i => (s.ctx? i).isSome
        if s.draining (fun o => o.ctx = c) || todo.head? ≠ some c then s else s.loseSaved x (s.blocks.filter fun b => b.ctx = c) fun s => s.saveCtx x k
      | .removing _ _ _ => s
      | _ => (s.cgroups.filter fun g => decide (g.ctx = c) && decide (g.leaf = .saving)).foldl (fun s g =>
          if s.draining fun o => decide (s.blockCg o.blk = g.id) then s
          else
            let t := s.endFinished c
            match t.cgroup? g.id with
            | some g => t.loseSaved x (t.blocks.filter fun b => b.cg = g.id) fun s => s.saveGroup x g
            | none => t) s)

/-- REMOVAL_DRAIN_TIMEOUT (R298): after 100 µs what is unacknowledged is dropped. -/
def execRemovalDrainTimeout (c : Nat) (s : State) : Out :=
  .next (match s.ctx? c with
    | none => s
    | some x =>
      match x.phase with
      | .removing t _ _ => if t + 100000 ≤ s.ns then { s with net := s.net.filter fun r => r.org.ctx ≠ c }.finishRemoval c else s
      | _ => s)

end Sys2Proof.Machine
end

