-- ==== Sys2Proof/Machine/Units.lean ====
section
/-! DEFINITION. Units that fail and are retired (R91 to R95, R229, R230, R324, R325), and the departures of a far-store channel and of L2 slices (R178 to
R181). -/

namespace Sys2Proof.Machine

/-- A retirement's warning (R311, R324). -/
def State.unitRetired (s : State) (kind cluster core quad detail : Nat) : State :=
  s.postDev 3 cluster (unitTag kind core quad) stRETIRED 0xFFFFFFFF detail

/-- A new entry of the retirement record (R325, R331): one flash copy holds it as it takes effect, so no power loss loses it; the other may hold what it did,
or it too (log entry 68). -/
def State.onRec (s0 : State) (f : Record → Record) : State :=
  let r := s0.draw
  let s := r.2
  -- before the firmware has applied the record, the copy that it will apply is what is added to (R325)
  let old := if s.bootst < 8 then (s.flash.filterMap id).head?.getD s.retRec else s.retRec
  let new : Option Record := some (f old)
  { s with retRec := f old, flash := [new, if r.1 then new else (s.flash.head?).getD none] }

/-! ## Cores (R95, R230, R314, R324) -/

/-- Cluster groups with a block on a core. -/
def State.groupsOn (s : State) (core : Nat) : List Nat := (s.blocks.filter fun b => b.core = core).foldl (fun l b => insNat b.cg l) []

/-- A core retired as a whole: its groups are pre-empted by the leaf, and it owes a final scan. -/
def State.retireCore (s : State) (k : Nat) : State :=
  if (s.core k).retired then s
  else ((s.onCore k fun c => { c with retired := true, final := true }).onRec fun r => { r with cores := insNat k r.cores }).each
    (s.groupsOn k) State.leafPreempt

/-- What remains of a core falls short of R95, or a column has failed with no live spare (R230). -/
def State.short (s : State) (k : Nat) : Bool :=
  ([0, 1, 2, 3].any fun j => let q := s.quad (4 * k + j); decide (q.live.length < 8) || decide (34 < q.badGran.length + 32)) ||
    decide (50 < (s.core k).badBank.length + 48) || decide (4 < (s.core k).deadCol.length) || !(s.core k).badAcc.isEmpty || !(s.core k).badArr.isEmpty

def State.checkCore (s : State) (k : Nat) : State := if s.short k then s.retireCore k else s

/-! ## Lanes (R93) -/

/-- A physical lane marked dead. -/
def State.failLane (s : State) (q l : Nat) : State :=
  if (s.quad q).dead.contains l || 18 ≤ l then s
  else (((s.onQuad q fun x => { x with dead := insNat l x.dead }).onRec fun r => { r with lanes := r.lanes ++ [(q, l)] }).unitRetired 1 (q / 32)
    (q / 4 % 8) (q % 4) l).checkCore (q / 4)

/-- A discarded instruction reissued at cycle `t` on `b` beats, `b0` before: its results come due, and its stall count is measured, from there. -/
def Recent.again (r : Recent) (t b0 b : Nat) : Recent := { r with issued := t, commit := t + (r.commit - r.issued) + b - b0 }

/-- The times of an issuer and of its results after a reissue at `t`; `last`: it has issued nothing since. -/
def State.reissue (s : State) (q : Nat) (r : Recent) (last : Bool) (t b0 b : Nat) : State :=
  let p (x : Pace) : Pace := { x with notBefore := t + r.stall, readyFrom := t + b }
  let mv (x : Nat) : Nat := if decide (r.issued < x) then x + (t - r.issued) else x
  let f (x : Fixed) : Fixed := if x.issued = r.issued then { x with issued := t, due := t + (x.due - x.issued) + b - b0 } else x
  let s := s.onWarp r.warp fun x => { x with fixed := x.fixed.map f }
  if !last then s
  else if r.hnd then s.onBank q fun x => { x with pace := p x.pace, movx := mv x.movx }
  else s.onWarp r.warp fun x => { x with pace := p x.pace, movx := mv x.movx }

/-- How long after its issue one uncommitted instruction keeps back another of its issuer: in native mode for its stall count, under interlock until a result
that the other touches is due (R48, R52). -/
def State.gap (s : State) (b : Nat) (r y : Recent) : Nat :=
  match s.warp? r.warp, r.instr, y.instr with
  | some w, some i, some j =>
    if s.interlocked w r.hnd then (if (readKeys j ++ writeKeys j).any (writeKeys i).contains then (latency i b).getD b else 0) else r.stall
  | _, _, _ => r.stall

/-- The cycles at which uncommitted instructions issue again, oldest first, one to an issue slot from `t` on, those of one issuer as far apart as R48 and R52
ask (R93). -/
def State.reissueAt (s : State) (b : Nat) : Nat → List (Recent × Nat) → List Recent → List (Recent × Nat)
  | _, got, [] => got
  | t, got, y :: r =>
    let at' := got.foldl (fun n x => if x.1.warp = y.warp && x.1.hnd = y.hnd then max n (x.2 + s.gap b x.1 y) else n) t
    s.reissueAt b (at' + b) (got ++ [(y, at')]) r

/-- Uncommitted instructions reissued in their order once the 32 cycles of the rewrite are over (R93). -/
def State.reissueAll (s : State) (q b0 : Nat) : State :=
  let x := s.quad q
  let rs := s.reissueAt x.beats (x.cycle + 32) [] x.open
  let last (r : Recent) : Bool := (x.open.filter fun y => decide (y.warp = r.warp) && decide (y.hnd = r.hnd)).getLast? = some r
  (rs.foldl (fun s r => s.reissue q r.1 (last r.1) r.2 b0 x.beats) s).onQuad q fun y =>
    { y with slotAt := (rs.getLast?.map fun r => r.2 + x.beats).getD (x.cycle + 32), recent := rs.map fun r => r.1.again r.2 b0 x.beats }

/-- A lane as a discarded instruction's undoing leaves it: as it stood, but what other units have released stays, a lane in its handler too, and a deferred data abort
stands (R189). -/
def Lane.undo (before now : Lane) (late : Bool) : Lane :=
  if now.park = .handler then now
  else match before.park with
  | .run | .conv _ | .sync _ | .due _ => if late then { before with park := .trap, passed := 0 } else before
  | _ => now

/-- A lane has a deferred data abort pending (R189). -/
def lateTrap (ts : List SubWarp) (l : Nat) : Bool := ts.any fun x => decide (x.cls = tDEFER) && x.lanes.any fun y => y.lane = l

/-- Sub-warps without the lanes that no longer stand trapped. -/
def trapsOf (ls : List Lane) (ts : List SubWarp) : List SubWarp :=
  (ts.map fun y => { y with lanes := y.lanes.filter fun z => decide ((laneAt ls z.lane).park = .trap) }).filter fun y => !y.lanes.isEmpty

/-- A discarded instruction undone (R95, R106): its lanes stand at it again, its traps, its requests and its waits for pages are gone, and the registers are as they
were. -/
def State.undone (s : State) (r : Recent) (u : Undo) : State :=
  match s.warp? r.warp with
  | none => s
  | some w =>
    let here := if r.hnd then ((s.quad w.q).bank.map (·.lanes)).getD [] else w.lanes
    let m := maskOf fun l => u.lanes.getLsbD l && decide ((laneAt here l).park ≠ .handler)
    let ls := here.zipIdx.map fun x => Lane.undo (laneAt u.before x.2) x.1 (!r.hnd && lateTrap w.traps x.2)
    let s := if r.hnd then s.onBank w.q fun b => if b.warp = w.id then { b with lanes := ls } else b
      else s.onWarp w.id fun x => { x with lanes := ls, decl := u.decl, signed := u.signed, traps := trapsOf ls x.traps }
    let s := u.regs.foldl (fun s k => (if isS k.1 then [lowestLane u.lanes] else lanesOf m).foldl (fun s l => s.putKey w k.1 l (k.2.getD l 0)) s) s
    let s := s.onWarp w.id fun x => { x with fixed := x.fixed.filter fun f => f.issued ≠ r.issued }
    ({ s with net := s.net.filter fun q => q.org.seq ≠ r.seq,
              pages := s.pages.map fun (p : Page) => { p with users := p.users.filter fun u => match u with
                | .lane v k _ h _ _ _ => !(decide (v = w.id) && m.getLsbD k && decide (h = r.hnd)) | .engine _ => true } } : State).removalCheck w.ctx

/-- With no live lane left, a quadrant's uncommitted instructions are discarded, the latest first (R95). -/
def State.undoAll (s : State) (q : Nat) : State :=
  ((s.quad q).open.reverse.foldl (fun s r => match r.undo with | some u => s.undone r u | none => s) s).onQuad q fun y => { y with recent := [] }

/-- LANE_CHECK_FAIL: results not committed are discarded and made again under the new concordance, with the same bits, after the 32 cycles of the
rewrite. While a quadrant rewrites, or with no live lane, it checks nothing; the last live lane fails only where all that is uncommitted can be undone (log entry
75). -/
def execLaneCheckFail (q lane : Nat) (s : State) : Out :=
  .next (if decide (18 ≤ lane) || (s.quad q).dead.contains lane || decide (32 * s.nClusters ≤ q) || s.quadOff q then s
    else
      let t := (s.failLane q lane).onQuad q fun x => { x with rewriting := true }
      if (t.quad q).perBeat ≠ 0 then t.reissueAll q (s.quad q).beats
      else if (s.quad q).open.all (·.undo.isSome) then t.undoAll q
      else s)

/-- CONCORDANCE_REWRITE_DONE: after 32 quadrant cycles the quadrant issues again. -/
def execConcordanceRewriteDone (q : Nat) (s : State) : Out :=
  .next (if (s.quad q).rewriting then
      (s.onQuad q fun x => { x with rewriting := false, cycle := x.cycle + 32 }).each
        ((s.warps.filter fun w => w.q = q).foldl (fun l w => insNat w.blk l) []) fun s b => s.count b 7 1
    else s)

/-! ## Matrix columns (R229, R230) -/

/-- The lowest live spare. -/
def Core.spare (c : Core) : Option Nat :=
  ([128, 129, 130, 131].filter fun p => !c.deadCol.contains p && !(List.range 128).any fun l => c.col l = p).head?

/-- A physical column marked dead; its logical column moves to the lowest live spare. -/
def Core.failCol (c : Core) (p : Nat) : Core :=
  let d := { c with deadCol := insNat p c.deadCol }
  match (List.range 128).find? fun l => c.col l = p, d.spare with
  | some l, some sp => { d with colmap := sput 0 l sp d.colmap }
  | _, _ => d

def State.failColumn (s : State) (k p : Nat) : State :=
  if (s.core k).deadCol.contains p || 132 ≤ p then s
  else (((s.onCore k fun c => c.failCol p).onRec fun r => { r with cols := r.cols ++ [(k, p)] }).unitRetired 4 (k / 8) (k % 8) 0xFF p).checkCore k

/-- COLUMN_CHECK_FAIL: operations that have not committed start again from the untouched accumulators, with the same bits; the engine starts no work until
the rewrite is done. -/
def execColumnCheckFail (core col : Nat) (s : State) : Out :=
  .next (if decide (132 ≤ col) || (s.core core).deadCol.contains col || decide (8 * s.nClusters ≤ core) then s
    else (s.failColumn core col).onCore core fun c => { c with colRewrite := true })

/-! ## Units that a scan or an error retires (R324) -/

def State.failGranule (s : State) (q g : Nat) : State :=
  if (s.quad q).badGran.contains g || 34 ≤ g then s
  else (((s.onQuad q fun x => { x with badGran := insNat g x.badGran }).onRec fun r => { r with grans := r.grans ++ [(q, g)] }).unitRetired 2 (q / 32)
    (q / 4 % 8) (q % 4) g).checkCore (q / 4)

def State.failBank (s : State) (k b : Nat) : State :=
  if (s.core k).badBank.contains b || 50 ≤ b then s
  else (((s.onCore k fun c => { c with badBank := insNat b c.badBank }).onRec fun r => { r with banks := r.banks ++ [(k, b)] }).unitRetired 3 (k / 8)
    (k % 8) 0xFF b).checkCore k

def State.failAcc (s : State) (k n : Nat) : State :=
  if (s.core k).badAcc.contains n then s
  else ((s.onCore k fun c => { c with badAcc := insNat n c.badAcc }).unitRetired 5 (k / 8) (k % 8) 0xFF n).checkCore k

def State.failArray (s : State) (k n : Nat) : State :=
  if (s.core k).badArr.contains n then s
  else ((s.onCore k fun c => { c with badArr := insNat n c.badArr }).unitRetired 6 (k / 8) (k % 8) 0xFF n).checkCore k

/-! ## The far-store channel (R179, R180) -/

def hourNs : Nat := 3600000000000

/-- A channel has reached a threshold of R324. -/
def State.channelDue (s : State) (ch : Nat) : Bool :=
  decide (1000 < (s.chanErr.filter fun x => decide (x.1 = ch) && decide (s.ns ≤ x.2 + hourNs)).length) ||
    decide (2 ≤ (s.chanBad.filter fun x => decide (x.1 = ch) && decide (s.ns ≤ x.2.2 + 24 * hourNs)).length)

/-- CHANNEL_DEPARTURE_START: the one departure in the life of a device. -/
def execChannelDepartureStart (ch : Nat) (s : State) : Out :=
  .next (if s.depart.isNone && s.retRec.chan.isNone && decide (ch < s.nChans) && s.channelDue ch then
      (({ s with depart := some { ch := ch, gone := false, moved := [], kept := [], next := 0 } }).onRec fun r => { r with chan := some ch }).unitRetired
        8 0xFFFF 0xFF 0xFF ch
    else s)

/-- The next line of the departing slot at or after a line. -/
def State.slotLine (s : State) (ch n : Nat) : Option Nat :=
  ((List.range 8192).map (n + ·)).find? fun l => decide (256 * l < s.farTop) && decide (hashLine (256 * l) % s.nChans = ch)

/-- EVACUATOR_LINE_STEP: the next line moves, unless it has moved or its old home aborts; after the last, with none kept back, the slot is GONE. -/
def execEvacuatorLineStep (s : State) : Out :=
  .next (match s.depart with
    | none => s
    | some d =>
      if d.gone then s
      else match s.slotLine d.ch d.next with
      | none => if d.kept.isEmpty then { s with depart := some { d with gone := true, moved := [] } } else s
      | some l =>
        let d := { d with next := l + 1 }
        if d.moved.contains l then { s with depart := some d }
        else if s.badLines.contains l then { s with depart := some { d with kept := insNat l d.kept } }.detect (256 * l) (s.sliceHome (256 * l) / 8) 0xFF 0xFFFFFFFF
        else { s with depart := some { d with moved := insNat l d.moved } })

/-! ## L2 slices (R181) -/

def State.sliceDue (s : State) (sl : Nat) : Bool :=
  decide (100 < (s.sliceErr.filter fun x => decide (x.1 = sl) && decide (s.ns ≤ x.2 + hourNs)).length) || (s.cluster (sl / 8)).retired

/-- A slice departs: the lines of its slot, and of every slot that has left, are written back and dropped. -/
def State.sliceGone (s : State) (sl : Nat) : State :=
  if s.slices.contains sl || s.nSlices ≤ sl || s.nSlices ≤ s.slices.length + 1 then s
  else
    let left := insNat sl s.slices
    let t : State := { s with slices := left, l2 := s.l2.filter fun t => !left.contains (hashLine (256 * t.line) % s.nSlices) }
    (t.onRec fun r => { r with slices := left }).unitRetired 7 (sl / 8) 0xFF 0xFF sl

/-- SLICE_DEPARTURE. -/
def execSliceDeparture (sl : Nat) (s : State) : Out := .next (if s.sliceDue sl then s.sliceGone sl else s)

end Sys2Proof.Machine
end

