-- ==== Sys2Proof/Machine/Inventory.lean ====
section
/-! DEFINITION. The inventory round (R312 to R314): passes over the cores, what a passing scan promotes (R310), and what a failing one replays or lists
(R315 to R318). -/

namespace Sys2Proof.Machine

/-! ## Passes -/

/-- The core whose pass comes next in a cluster: the live core whose last pass is longest ago, ties to the lowest number. -/
def State.nextPass (s : State) (cl : Nat) : Option Nat :=
  ((coresOf cl).filter fun k => !(s.core k).retired).foldl (fun (b : Option Nat) k =>
    match b with | none => some k | some j => if (s.core k).lastPass < (s.core j).lastPass then some k else some j) none

/-- The cluster's timer has come to its next pass: an interval over 8 after the last. -/
def State.passDue (s : State) (cl : Nat) : Bool :=
  let last := (coresOf cl).foldl (fun m k => max m (s.core k).lastPass) 0
  decide (last + s.invctl * 125000 ≤ s.ns) && (coresOf cl).all fun k => decide ((s.core k).inv = .idle)

/-- A warp of a grid is on a core. -/
def State.gridOn (s : State) (g core : Nat) : Bool :=
  s.warps.any fun w => decide (w.core = core) && ((s.ctx? w.ctx).map fun c => decide (c.grid = g)).getD false

/-- A pass begins: grids with no warp on the core may count it. It is the final scan of a core retired before it. -/
def State.beginPass (s : State) (k : Nat) : State :=
  let ok := (s.grids.filter fun g => (g.set.any fun c => c.1 = k) && !s.gridOn g.id k).map (·.id)
  s.onCore k fun c => { c with inv := .draining s.ns, lastPass := s.ns, passOk := ok, final := false }

/-- INVENTORY_PASS_START: the timer's next core, or a retired core's final scan once its work has moved away (R314). -/
def execInventoryPassStart (core : Nat) (s : State) : Out :=
  let c := s.core core
  let last := c.retired && c.final && decide (c.inv = .idle) && !(s.blocks.any fun b => b.core = core)
  .next (if 8 * s.nClusters ≤ core then s
    else if last || (!c.retired && s.passDue (core / 8) && decide (s.nextPass (core / 8) = some core)) then s.beginPass core
    else s)

/-- INVENTORY_DRAIN_TIMEOUT: after 500 µs the leaf pre-empts the groups still on the core. -/
def execInventoryDrainTimeout (core : Nat) (s : State) : Out :=
  .next (match (s.core core).inv with
    | .draining t => if t + 500000 ≤ s.ns then s.each (s.groupsOn core) State.leafPreempt else s
    | .idle => s)

/-! ## A passing scan (R310) -/

/-- A core of a grid's set counted as done. -/
def Grid.passed (g : Grid) (k : Nat) : Grid := { g with set := g.set.map fun c => if c.1 = k then (k, true) else c }

/-- Each grid whose PENDING fell has it rewritten, and may become final. -/
def State.promote (s : State) (before : List Grid) : State :=
  s.each before fun s g =>
    match s.grid? g.id with
    | some h =>
      let n (x : Grid) : Nat := (x.set.filter fun c => !c.2).length
      let t := if n h < n g then s.writePending g.id else s
      t.finalise g.id
    | none => s

def State.passScan (s : State) (k : Nat) : State :=
  let ok := (s.core k).passOk
  let f (g : Grid) : Grid :=
    let h := { g with ran := g.ran.filter fun r => r.2 ≠ k }
    if ok.contains g.id then h.passed k else h
  let t : State := { s with grids := s.grids.map f }
  t.promote s.grids

/-! ## A failing scan (R316 to R318) -/

/-- A grid that a failing scan concerns: in STATE 1, or still running. -/
def State.concerned (s : State) (g : Grid) : Bool :=
  decide (g.state = 1) || (decide (g.state = 0) && s.ctxs.any fun c => decide (c.id = g.ctx0.id) && match c.phase with | .removing _ _ _ => false | _ => true)

/-- The groups of a grid that hold an affected block. -/
def Grid.affected (g : Grid) (k : Nat) : List Nat := (g.ran.filter fun r => r.2 = k).foldl (fun l r => insNat (r.1 / g.h.gsize) l) []

/-- Blocks of a grid that are voided where they stand. -/
def State.voidedNow (s : State) (g : Grid) (lin : Nat) : Bool :=
  let mine (c : Nat) : Bool := s.ctxs.any fun x => decide (x.id = c) && decide (x.grid = g.id)
  (s.blocks.any fun b => decide (b.lin = lin) && mine b.ctx && b.voided) || s.waits.any fun w => mine w.ctx && match w.saved with
    | some v => v.2.1.any fun b => decide (b.lin = lin) && b.voided
    | none => false

/-- R316. -/
def State.replayable (s : State) (g : Grid) (lins : List Nat) : Bool :=
  g.ctx0.idem && !g.removed && lins.all fun n => !g.unrep.contains n && !s.voidedNow g n

/-- The context that a group of a grid is dispatched in again: the grid's own where it still runs, else a replay context. -/
def State.replayCtx (s : State) (g : Grid) : Nat × State :=
  match s.ctxs.find? fun c => decide (c.grid = g.id) && match c.phase with | .removing _ _ _ => false | _ => true with
  | some c => (c.id, s)
  | none =>
    let r := s.fresh
    let c := { g.ctx0 with id := r.1, src := .leaf, phase := .running, cursor := g.h.total, lins := [], roFresh := [] }
    (r.1, { r.2 with ctxs := r.2.ctxs ++ [c] })

/-- A group replayed (R317): its saved state is discarded; a group still resident is stopped first, and counts once it starts again, as one that already waits to
start again does. -/
def State.replayGroup (s : State) (g : Grid) (gidx : Nat) (lins : List Nat) : State :=
  let s := s.onGrid g.id fun x => { x with pendingReplay := lins.foldl (fun l n => insNat n l) x.pendingReplay }
  let r := s.replayCtx g
  let s := r.2.onCtx r.1 fun c => if c.src = .leaf then { c with lins := lins.foldl (fun l n => insNat n l) c.lins } else c
  let mine (c : Nat) : Bool := s.ctxs.any fun x => decide (x.id = c) && decide (x.grid = g.id)
  let waiting := s.waits.any fun w => mine w.ctx && decide (w.gidx = gidx) && w.replay
  let s : State := { s with waits := s.waits.filter fun w => !(mine w.ctx && decide (w.gidx = gidx) && (w.saved.isSome || w.replay)) }
  match s.cgroups.find? fun y => mine y.ctx && decide (y.gidx = gidx) with
  | some y => (s.onCGroup y.id fun z => { z with again := true }).leafPreempt y.id
  | none => (if waiting then s else s.noteReplay r.1 lins).replayWait r.1 gidx lins

/-- One grid's affected groups replayed or listed. -/
def State.failGrid (s : State) (k : Nat) (g : Grid) : State :=
  if !s.concerned g || !(g.set.any fun c => c.1 = k) then s
  else
    let s := (g.affected k).foldl (fun s gidx =>
      let lins := g.h.groupLins gidx
      match s.grid? g.id with
      | some h => if s.replayable h lins then s.replayGroup h gidx lins else s.onGrid g.id fun x => x.suspect lins
      | none => s) s
    s.onGrid g.id fun x => { x.passed k with ran := x.ran.filter fun r => r.2 ≠ k }

def State.failScan (s : State) (k : Nat) : State := (s.grids.foldl (fun s g => s.failGrid k g) s).promote s.grids

/-! ## The end of a scan -/

/-- A unit that failed the scan is retired, its spare in its place. -/
def State.failUnit (s : State) (k : Nat) : UnitFail → State
  | .lane q l => s.failLane (4 * k + q % 4) l
  | .granule q g => s.failGranule (4 * k + q % 4) g
  | .bank n => s.failBank k n
  | .column n => s.failColumn k n
  | .accUnit n => s.failAcc k (n % 32)
  | .array n => s.failArray k (n % 5)

/-- INVENTORY_SCAN_END: the scan of an empty core ends with the units that failed. A core retired since its pass began has passed only by the final scan that it
still owes (R310). -/
def execInventoryScanEnd (core : Nat) (fails : List UnitFail) (s : State) : Out :=
  .next (match (s.core core).inv with
    | .idle => s
    | .draining _ =>
      if s.blocks.any fun b => b.core = core then s
      else
        let owed := (s.core core).retired && (s.core core).final
        let t := if fails.isEmpty then (if owed then s else s.passScan core) else (fails.foldl (fun s f => s.failUnit core f) s).failScan core
        t.onCore core fun c => { c with inv := .idle, passOk := [] })

end Sys2Proof.Machine
end

