-- ==== Sys2Proof/Machine/Errors.lean ====
section
/-! DEFINITION. Errors of arrays and channels as they arise (R319 to R323), their thresholds (R324), and ageing (R326, R327). -/

namespace Sys2Proof.Machine

/-! ## Uncorrectable errors (R319, R320) -/

/-- Every running context of a group is removed, cause 3. -/
def State.removeGroup (s : State) (g cause : Nat) : State :=
  s.each ((s.ctxs.filter fun c => c.group = g).map (·.id)) fun s c => s.startRemoval c cause

/-- UNCORRECTABLE_ERROR. A line that L2 holds may hide the error in the memory beneath it. -/
def execUncorrectableError (site : ErrSite) (s : State) : Out :=
  .next (match site with
    | .line pa =>
      if !s.exists? pa then s
      else
        let r := s.draw
        if (s.l2.any fun t => t.line = pa / 256) && r.1 then r.2
        else { r.2 with badLines := if r.2.badLines.contains (pa / 256) then r.2.badLines else (pa / 256) :: r.2.badLines }
    | .writeback pa =>
      match s.l2.find? fun t => t.line = pa / 256 with
      | some t =>
        let u : State := { s with l2 := s.l2.filter (fun x => x.line ≠ t.line), mem := writeCells (256 * t.line) t.below s.mem }
        (u.detectUnit (s.sliceHome pa / 8) (unitTag 7 0xFF 0xFF) t.group pa).removeGroup t.group 3
      | none => s
    | .scratch b a => s.onBlock b fun x => { x with badWords := insNat (a / 4) x.badWords }
    | .sliceTag sl => if s.nSlices ≤ sl then s else (s.detectUnit (sl / 8) (unitTag 7 0xFF 0xFF) 0xFFFFFFFF 0).sliceGone sl
    | .ctxState c core acc =>
      match s.ctx? c with
      | none => s
      | some x =>
        let t := (s.detectUnit (core / 8) (unitTag (if acc.isSome then 5 else 0) (core % 8) 0xFF) x.group 0).startRemoval c 3
        match acc with | some n => t.failAcc core (n % 32) | none => t)

/-! ## Corrected errors (R311, R321, R323, R324) -/

def State.logArray (s : State) (sec : Nat) (b : List Byte) : State := { s with alogs := supd Log.init sec (fun l => l.add b) s.alogs }

def State.logVert (s : State) (cl : Nat) (b : List Byte) : State := { s with vlogs := supd Log.init cl (fun l => l.add b) s.vlogs }

/-- CORRECTED_ERROR: at a near-store word, logged and scrubbed, with one warning for a new word; elsewhere counted towards R324. -/
def execCorrectedError (site : CorrSite) (s : State) : Out :=
  .next (match site with
    | .near die bit pa cluster core scrubbed =>
      if !(decide (nearBase ≤ pa) && decide (pa < s.nearEnd)) || 72 ≤ bit then s
      else
        let a := pa / 8 * 8
        let n := sget 0 a s.wordErr + 1
        let sec := s.section_ pa
        let t := ({ s with wordErr := sput 0 a n s.wordErr }).logArray sec (arrayRec 1 sec (die % 2) bit a n cluster core s.us)
        let t := if scrubbed then t else t.logArray sec (arrayRec 3 sec (die % 2) 0xFF a n cluster core s.us)
        if n = 1 then t.postDev 3 cluster (unitTag 9 core 0xFF) stCORRECTED 0xFFFFFFFF a else t
    | .far pa => if s.isFar pa then { s with chanErr := s.chanErr ++ [((s.farHome pa).1, s.ns)] } else s
    | .slice sl => if sl < s.nSlices then { s with sliceErr := s.sliceErr ++ [(sl, s.ns)] } else s)

/-! ## Vertical channels (R322, R323) -/

/-- Spare wires of a cluster's channel in use. -/
def State.sparesUsed (s : State) (cl : Nat) : Nat := (s.retRec.wires.filter fun w => w.1 = cl).length

/-- The 32 bytes of a vertical-channel record. -/
def vertRec (kind cluster grp wire spare retries pa beat stuck used us : Nat) : List Byte :=
  toBytes 1 kind ++ toBytes 1 cluster ++ toBytes 2 grp ++ toBytes 2 wire ++ toBytes 1 spare ++ toBytes 1 retries ++ toBytes 8 pa ++ toBytes 1 beat ++
    toBytes 1 stuck ++ toBytes 1 used ++ zeros 5 ++ toBytes 8 us

/-- VERTICAL_PARITY_FAIL: the beat is held for retry. -/
def execVerticalParityFail (cluster grp pa beat : Nat) (s : State) : Out :=
  .next (if s.nClusters ≤ cluster || 256 ≤ grp then s
    else { s with beats := s.beats ++ [{ cluster := cluster, grp := grp, pa := pa, beat := beat, retries := 0 }] })

/-- The beat that a cluster's channel is at work on: beats are delivered in order. -/
def State.beatOf (s : State) (cl : Nat) : Option Beat := s.beats.find? fun b => b.cluster = cl

def State.dropBeat (s : State) (b : Beat) : State := { s with beats := s.beats.erase b }

/-- VERTICAL_BEAT_RETRY: up to three. -/
def execVerticalBeatRetry (cluster : Nat) (passed : Bool) (s : State) : Out :=
  .next (match s.beatOf cluster with
    | none => s
    | some b =>
      if 3 ≤ b.retries then s
      else if passed then
        (s.dropBeat b).logVert cluster (vertRec 1 cluster b.grp 0xFFFF 0xFF (b.retries + 1) b.pa b.beat 0xFF (s.sparesUsed cluster) s.us)
      else { s with beats := s.beats.map fun x => if x = b then { b with retries := b.retries + 1 } else x })

/-- The first byte of a beat: `beat` of its transfer. -/
def Beat.at (b : Beat) : Nat := b.pa + 1024 * b.beat

/-- Bytes of device memory that lie in a beat. -/
def Beat.meets (b : Beat) (pa n : Nat) : Bool := decide (pa < b.at + 1024) && decide (b.at < pa + n)

/-- The table entries that a walk reads. -/
def State.walkReads (s : State) (va : Nat) : List (Nat × Nat) → Nat → List Nat
  | [], _ => []
  | (lo, n) :: r, tab =>
    let pa := tab + 8 * (va / 2 ^ lo % 2 ^ n)
    pa :: match s.readDev pa 8 with
      | some b => let e : Word64 := BitVec.ofNat 64 (ofBytes b); if pteBit e 0 && !pteBit e 4 then s.walkReads va r (pteAddr e) else []
      | none => []

/-- A source of a group that lies in a beat's bytes, or whose walk reads a table entry there. -/
def State.inBeat (s : State) (b : Beat) (group : Nat) (a : Nat × Nat) : Bool :=
  (match s.place group a.1 (.copy false) with
  | .ok (.dev pa) => b.meets pa a.2
  | _ => false) || (s.walkReads a.1 levels (s.grp group).troot).any fun pa => b.meets pa 8

/-- The device bytes that a request concerns at its home. -/
def ReqK.span (k : ReqK) (pa : Nat) : Nat × Nat :=
  match k with
  | .load _ n _ ro l1 _ => let w := if ro then 256 else if l1 then 64 else n; (pa / w * w, w)
  | .store b _ => (pa, b.length)
  | .zline => (pa, 256)
  | .atom _ _ n _ _ => (pa, n)
  | .redo _ n _ _ _ _ _ _ => (pa, n)

/-- The 64 KiB pages of a range of addresses. -/
def pagesOf (va n : Nat) : List Nat := (List.range ((va + n) / 65536 - va / 65536 + 1)).map fun k => 65536 * (va / 65536 + k)

/-- A save is under way whose bytes may be a beat's: a driver's, to its image's place, or a leaf's, in the firmware's working state (R95, R173). -/
def State.savesIn (s : State) (b : Beat) (c : Ctx) : Bool :=
  let g := s.grp c.group
  (match c.phase with | .saving _ _ => (pagesOf g.pimg g.psize).any fun a => s.inBeat b c.group (a, 65536) | _ => false) ||
    (decide (s.workRange.1 ≤ b.at) && decide (b.at < s.workRange.2) && s.cgroups.any fun x => decide (x.ctx = c.id) && decide (x.leaf = .saving))

/-- Who may have asked for a beat's bytes: a request in flight, a copy, a tile definition, an adapter fill, a fetch of code, a COPY or LOADGRAPH, a launch that waits for its
translation, a save; each with its group and how the abort completion ends it (R319; log entry 69). -/
def State.beatUsers (s : State) (b : Beat) : List (Nat × (State → State)) :=
  (s.net.zipIdx.filterMap fun x => match x.1.st, x.1.tgt with
    | .sent, .dev pa => if b.meets (x.1.k.span pa).1 (x.1.k.span pa).2 then some (x.1.org.group, fun (s : State) => s.setReq x.2 (.failed fABORT)) else none
    | _, _ => none) ++
  (s.copies.zipIdx.filterMap fun x => do
    let a ← (x.1.words.filterMap fun w => w.src).find? fun a => s.inBeat b x.1.org.group (a, 4)
    if x.1.started then some (x.1.org.group, fun (s : State) => s.loseCopy x.2 x.1 fABORT a) else none) ++
  (s.defs.zipIdx.filterMap fun x => do
    let p ← (x.1.places s).find? (s.inBeat b x.1.org.group)
    if x.1.fetched then some (x.1.org.group, fun (s : State) => s.loseDef x.2 x.1 { cause := fABORT, va := p.1 }) else none) ++
  (s.fills.zipIdx.filterMap fun x => do
    let p ← ((x.1.place, 32) :: (match x.1.fetch s with | .ok (t, _) => fillSpans t x.1.slice x.1.cb | .error _ => [])).find? (s.inBeat b x.1.group)
    if x.1.started then some (x.1.group, fun (s : State) => s.loseFill x.2 x.1 fABORT p.1) else none) ++
  (s.fetches.zipIdx.filterMap fun x =>
    let hit := if 2 ^ 90 ≤ x.1.line then b.meets ((x.1.line - 2 ^ 90) * 256) 256 else s.inBeat b x.1.group (256 * x.1.line, 256)
    if hit then some (x.1.group, fun (s : State) =>
      let s : State := { s with fetches := dropAt x.2 s.fetches }
      if x.1.pre then s else s.fetchFail x.1 tABORT aABORT) else none) ++
  (s.cmds.filterMap fun c =>
    let hit (ps : List (Nat × Nat)) : Option Nat := (ps.find? fun p => s.inBeat b c.group p).map (·.1)
    let lost (a : Nat) : Nat × (State → State) := (c.group, fun (s : State) => (s.dropCmd c.id).fail c.src stACCESS c.group a)
    match c.k with
    | .copy a _ _ todo => (hit (todo.map fun p => (a + p.1, p.2))).map lost
    | .load g n a none => (hit (spans (nSpans (32 * n)) a (32 * n))).map fun x =>
        (c.group, fun (s : State) => ((s.dropCmd c.id).onGraph g fun y => { y with loading := false }).fail c.src stACCESS c.group x)
    | .xlate img _ => (hit [(img, 256)]).map fun _ => lost img
    | _ => none) ++
  s.ctxs.filterMap fun c => if s.savesIn b c then some (c.group, fun (s : State) => s.startRemoval c.id 3) else none

/-- The requester of a beat that cannot be delivered receives an abort completion: one of those that may have asked for it. Its group, where there is one. -/
def State.abortBeat (s : State) (b : Beat) : Nat × State :=
  let l := s.beatUsers b
  let r := s.drawNat l.length
  match l[r.1]? with
  | some x => (x.1, x.2 r.2)
  | none => (0xFFFFFFFF, s)

/-- A beat given up (R322 step 3): recorded, its requester aborted, and the error posted. -/
def State.loseBeat (s : State) (b : Beat) (rec : List Byte) (detail : Nat) : State :=
  let r := ((s.dropBeat b).logVert b.cluster rec).abortBeat b
  r.2.detectUnit b.cluster (unitTag 10 0xFF 0xFF) r.1 detail

/-- WIRE_TEST_END: a stuck wire is steered to the lowest unused spare, else the beat aborts. -/
def execWireTestEnd (cluster : Nat) (wire : Option Nat) (stuck : Option Bool) (s : State) : Out :=
  .next (match s.beatOf cluster with
    | none => s
    | some b =>
      let used := s.sparesUsed cluster
      let v := match stuck with | some x => (if x then 1 else 0) | none => 0xFF
      let inGroup (w : Nat) : Bool := decide (w / 32 = b.grp) && decide (w < 8192) || decide (w = 8192 + b.grp)
      let note (kind w spare n : Nat) : List Byte := vertRec kind cluster b.grp w spare 3 b.pa b.beat v n s.us
      let tag := unitTag 10 0xFF 0xFF
      if b.retries ≠ 3 then s
      else match wire with
      | some w =>
        if !inGroup w then s
        else if used < 32 then
          let t := ((s.dropBeat b).onRec fun r => { r with wires := r.wires ++ [(cluster, w, used)] }).logVert cluster (note 2 w used (used + 1))
          (t.postDev 3 cluster tag stCORRECTED 0xFFFFFFFF w).unitRetired 10 cluster 0xFF 0xFF w
        else s.loseBeat b (note 4 w 0xFF used) w
      | none => s.loseBeat b (note 3 0xFFFF 0xFF used) 0xFFFF)

/-! ## Ageing (R326, R327) -/

/-- The cap that a drift in tenths of a percent gives. -/
def ageCap (d : Nat) : Nat := if d < 60 then 850 else if d < 90 then 825 else if d < 120 then 800 else if d < 150 then 775 else 750

/-- A cluster retired: its cores are retired, and its slices may depart one at a time. -/
def State.retireCluster (s : State) (cl : Nat) : State :=
  if (s.cluster cl).retired then s
  else (((s.onCluster cl fun c => { c with retired := true }).onRec fun r => { r with clusters := insNat cl r.clusters }).unitRetired 11 cl 0xFF 0xFF
    cl).each (coresOf cl) State.retireCore

/-- AGEING_MONITOR_READ, once the firmware runs: a cap never rises. -/
def execAgeingMonitorRead (cluster driftPermille : Nat) (s : State) : Out :=
  .next (if s.nClusters ≤ cluster || s.bootst < 8 then s
    else
      let old := (s.cluster cluster).drift
      let d := max old driftPermille
      let t := s.onCluster cluster fun c => { c with drift := d }
      let t := if ageCap d < ageCap old then
          ((t.onCluster cluster fun c => { c with gliding := true }).onRec fun r => { r with caps := r.caps.filter (fun x => x.1 ≠ cluster) ++ [(cluster, d)] }).postDev
            3 cluster (unitTag 11 0xFF 0xFF) stCAPLOW 0xFFFFFFFF (ageCap d)
        else t
      if 180 ≤ d then t.retireCluster cluster else t)

/-- CLOCK_GLIDE_END: the cluster runs at its cap (R327, R339). -/
def execClockGlideEnd (cluster : Nat) (s : State) : Out :=
  .next (if (s.cluster cluster).gliding then s.onCluster cluster fun c => { c with gliding := false, clock := s.cap cluster } else s)

end Sys2Proof.Machine
end

