-- ==== Sys2Proof/Machine/FloatVec.lean ====
section
/-! DEFINITION. The V float group (R145 to R152). -/

namespace Sys2Proof.Machine

/-- A two-source FP32 member. -/
def flt3 (i : Instr) (r : R3) (f : Word → Word → Word × Exc) (s : State) : Out :=
  vop i r.d (fun s w l => let x := f (r.va s w l) (r.vb s w l); ([x.1], x.2)) s

/-- A one-source member. -/
def flt2 (i : Instr) (r : R2) (f : Word → Word × Exc) (s : State) : Out :=
  vop i r.d (fun s w l => let x := f (r.va s w l); ([x.1], x.2)) s

/-- Half `h` of a packed operand. -/
def half (f : Fmt) (h : Nat) (x : Word) : FV := f.dec (x.toNat / 2 ^ (16 * h) % 2 ^ 16)

/-- R152: both halves of a packed result and the union of their exceptions. -/
def halves (f : Fmt) (m : RM) (g : Nat → Qty × Exc) : List Word × Exc :=
  let lo := f.round m false (g 0).1
  let hi := f.round m false (g 1).1
  ([BitVec.ofNat 32 (hi.1 * 2 ^ 16 + lo.1)], lo.2 ||| hi.2 ||| (g 0).2 ||| (g 1).2)

def HFmt.fmt : HFmt → Fmt
  | .f16 => F16
  | .bf16 => BF16

/-- FSIGN's new sign of a half or a word (R151): the sign bits of a and b. -/
def newSign (op : SignOp) (a b : Bool) : Bool :=
  match op with
  | .neg => !a
  | .abs => false
  | .cpy => b
  | .xor => a != b

/-- FSIGN (R151). -/
def fsign (op : SignOp) (h2 : Bool) (a b : Word) : Word :=
  let x := setBit a 31 (newSign op (a.getLsbD 31) (b.getLsbD 31))
  if h2 then setBit x 15 (newSign op (a.getLsbD 15) (b.getLsbD 15)) else x

def execFadd (c : Common) (m : RM) (r : R3) (s : State) : Out :=
  flt3 (.fadd c m r) r (fun a b => to32 m (addQ m (f32 a) (f32 b))) s

def execFsub (c : Common) (m : RM) (r : R3) (s : State) : Out :=
  flt3 (.fsub c m r) r (fun a b => to32 m (subQ m (f32 a) (f32 b))) s

def execFmul (c : Common) (m : RM) (r : R3) (s : State) : Out :=
  flt3 (.fmul c m r) r (fun a b => to32 m (mulQ (f32 a) (f32 b))) s

def execFfma (c : Common) (m : RM) (r : R3) (s : State) : Out :=
  vop (.ffma c m r) r.d (fun s w l =>
    let x := to32 m (fmaQ m (f32 (r.va s w l)) (f32 (r.vb s w l)) (f32 (r.vd s w l)))
    ([x.1], x.2)) s

def execFmin (c : Common) (r : R3) (s : State) : Out := flt3 (.fmin c r) r (minMax false) s

def execFmax (c : Common) (r : R3) (s : State) : Out := flt3 (.fmax c r) r (minMax true) s

def execFset (c : Common) (cc : FCmp) (r : R3) (s : State) : Out :=
  pop (.fset c cc r) r.d (fun s w l => fcmp cc (r.va s w l) (r.vb s w l)) s

/-- FCLASS (R148). -/
def execFclass (c : Common) (f : ClassFmt) (r : R2) (s : State) : Out :=
  flt2 (.fclass c f r) r (fun a =>
    (BitVec.ofNat 32 (match f with
      | .f32 => fclass F32 a.toNat
      | .f16 => fclass F16 (a.toNat % 2 ^ 16)
      | .bf16 => fclass BF16 (a.toNat % 2 ^ 16)), 0)) s

def execFrcp (c : Common) (m : RM) (r : R2) (s : State) : Out := flt2 (.frcp c m r) r (fun a => to32 m (rcpQ (f32 a))) s
def execFrsq (c : Common) (m : RM) (r : R2) (s : State) : Out := flt2 (.frsq c m r) r (fun a => to32 m (rsqQ (f32 a))) s
def execFsqrt (c : Common) (m : RM) (r : R2) (s : State) : Out := flt2 (.fsqrt c m r) r (fun a => to32 m (sqrtQ (f32 a))) s
def execFexp2 (c : Common) (m : RM) (r : R2) (s : State) : Out := flt2 (.fexp2 c m r) r (fun a => to32 m (exp2Q (f32 a))) s
def execFlog2 (c : Common) (m : RM) (r : R2) (s : State) : Out := flt2 (.flog2 c m r) r (fun a => to32 m (log2Q (f32 a))) s

def execFdiv (c : Common) (m : RM) (r : R3) (s : State) : Out :=
  flt3 (.fdiv c m r) r (fun a b => to32 m (divQ (f32 a) (f32 b))) s

def execFrnd (c : Common) (m : RM) (r : R2) (s : State) : Out := flt2 (.frnd c m r) r (frnd m) s
def execFcvt (c : Common) (k : Cvt) (m : RM) (r : R2) (s : State) : Out := flt2 (.fcvt c k m r) r (fcvt k m) s
def execFtoi (c : Common) (g : Sgn) (m : RM) (r : R2) (s : State) : Out := flt2 (.ftoi c g m r) r (ftoi g m) s
def execItof (c : Common) (g : Sgn) (m : RM) (r : R2) (s : State) : Out := flt2 (.itof c g m r) r (itof g m) s

def execFsign (c : Common) (op : SignOp) (h2 : Bool) (r : R3) (s : State) : Out :=
  flt3 (.fsign c op h2 r) r (fun a b => (fsign op h2 a b, 0)) s

def execHfma2 (c : Common) (f : HFmt) (m : RM) (r : R3) (s : State) : Out :=
  vop (.hfma2 c f m r) r.d (fun s w l =>
    let x := HFmt.fmt f
    halves x m fun h => fmaQ m (half x h (r.va s w l)) (half x h (r.vb s w l)) (half x h (r.vd s w l))) s

def execHadd2 (c : Common) (f : HFmt) (m : RM) (r : R3) (s : State) : Out :=
  vop (.hadd2 c f m r) r.d (fun s w l =>
    let x := HFmt.fmt f
    halves x m fun h => addQ m (half x h (r.va s w l)) (half x h (r.vb s w l))) s

def execHmul2 (c : Common) (f : HFmt) (m : RM) (r : R3) (s : State) : Out :=
  vop (.hmul2 c f m r) r.d (fun s w l =>
    let x := HFmt.fmt f
    halves x m fun h => mulQ (half x h (r.va s w l)) (half x h (r.vb s w l))) s

end Sys2Proof.Machine
end

