-- ==== Sys2Proof/Machine/Power.lean ====
section
/-! DEFINITION. Power and temperature (R339), reset and power loss (R329, R331), the firmware's verification (R330), the retirement record at boot (R325,
R331, R173), and attestation (R332). -/

namespace Sys2Proof.Machine

/-! ## Reset -/

/-- The machine cold: what power and reset leave. Far-store contents may or may not survive. -/
def State.cold (s : State) (bootst : Nat) : State :=
  let far (a : Nat) : Bool := Config.freeBit s.free && decide (a < s.farF)
  { State.reset with
    agenda := s.agenda, turn := s.turn, free := s.free + 1, nextId := s.nextId, form := s.form, stepping := s.stepping, keyHash1 := s.keyHash1,
    keyHash2 := s.keyHash2, rollback := s.rollback, devId := s.devId, bootst := bootst, flash := s.flash,
    pwrlim := (match s.form with | .d90 => 650 | _ => 2600), farCap := s.farCap, mem := s.mem.filter (fun c => far c.1), host := s.host,
    remote := s.remote, badLines := s.badLines.filter (fun l => far (256 * l)), msix := s.msix, tripped := s.tripped, linkUp := s.linkUp,
    deadNodes := s.deadNodes }

/-- The flash copies as power goes while the firmware runs: the newer whole, the other as it stood, or torn by the write that was under way, or equal to it
by now (R331). -/
def State.tear (s : State) : State :=
  let r := s.drawNat 3
  match s.flash with
  | [some a, x] => if 8 ≤ s.bootst ∧ x ≠ some a then { r.2 with flash := [some a, match r.1 with | 0 => x | 1 => none | _ => some a] } else s
  | _ => s

/-- POWER_LOSS: nothing runs until power returns. -/
def execPowerLoss (s : State) : Out := .next (s.tear.cold 0)

/-- POWER_UP_RESET: the boot ROM has cleared every SRAM array and waits for an image, which the host writes through its link. -/
def execPowerUpReset (s : State) : Out := .next { s.tear.cold 1 with tripped := false, linkUp := true, deadNodes := [] }

/-! ## Power (R339) -/

/-- After the trip: every context removed, then the device holds in reset. -/
def State.hold (s : State) : State :=
  let t := s.each (s.ctxs.map (·.id)) fun s c => s.startRemoval c 4
  let t := { t with tripped := true, bootst := 0 }
  if t.ctxs.isEmpty then t.cold 0 else t

/-- POWER_SAMPLE: averages in watts over 50 µs and 1 ms, junction temperature in °C. -/
def execPowerSample (avg50us avg1ms tempC : Nat) (s : State) : Out :=
  let over50 := decide (s.pwrlim < avg50us)
  .next (if s.tripped || 115 < tempC then s.hold
    else if over50 || 105 < tempC then { s with hot := over50, alarm := some (s.alarm.getD s.ns) }
    else if 100 * avg1ms < 95 * s.pwrlim then { s with hot := false, alarm := none }
    else { s with hot := false })

/-- Every cluster glides to its cap. -/
def State.glideAll (s : State) : State := (List.range s.nClusters).foldl (fun s c => s.onCluster c fun x => { x with gliding := true }) s

/-- ALARM_CLOCK_STEP: down every 100 µs from 200 µs into an alarm that still exceeds the limit; up again once it has cleared. -/
def execAlarmClockStep (s : State) : Out :=
  let due := decide (s.stepAt + 100000 ≤ s.ns)
  .next (match s.alarm with
    | some t => if s.hot && due && decide (t + 200000 ≤ s.ns) && decide (s.steps < 4) then { s with steps := s.steps + 1, stepAt := s.ns }.glideAll else s
    | none => if due && decide (0 < s.steps) then { s with steps := s.steps - 1, stepAt := s.ns }.glideAll else s)

/-! ## Firmware (R329, R330) -/

/-- `n` bytes of the boot window. -/
def State.winBytes (s : State) (o n : Nat) : List Byte := readCells s.bootWin o n

/-- M: the header without its signatures, then the body. -/
def State.bootM (s : State) : List Byte :=
  s.winBytes 0 169 ++ zeros 2764 ++ s.winBytes 2933 1163 ++ s.winBytes 4096 (ofBytes (s.winBytes 12 4))

/-- The refusal code of the image in the boot window, or 7. -/
def State.bootCheck (s : State) : Nat :=
  let n (o k : Nat) : Nat := ofBytes (s.winBytes o k)
  let m := s.bootM
  if n 0 4 ≠ 0x4957464B || n 4 4 ≠ 1 || 255 < n 8 4 || 2 ^ 26 - 4096 < n 12 4 || !allZero (s.winBytes 2933 1163) then 2
  else if Config.sha384 (s.winBytes 16 97) ≠ s.keyHash1 || Config.sha256 (s.winBytes 113 56) ≠ s.keyHash2 then 3
  else if !Config.ecdsaOk (s.winBytes 16 97) m (s.winBytes 169 96) then 4
  else if !Config.lmsOk (s.winBytes 113 56) m (s.winBytes 265 2668) then 5
  else if n 8 4 < s.rollback then 6
  else 7

/-- The boot ROM waits for an image. -/
def State.waiting (s : State) : Bool := decide (1 ≤ s.bootst) && decide (s.bootst ≤ 6) && !s.verifying

/-- BOOTGO. -/
def execBootgo (v : Word) (s : State) : Out := .next (if v = 1 && s.waiting then { s with verifying := true } else s)

/-- BOOT_VERIFICATION_END. -/
def execBootVerificationEnd (s : State) : Out :=
  let c := s.bootCheck
  let svn := ofBytes (s.winBytes 8 4)
  .next (if !s.verifying then s
    else if c ≠ 7 then { s with verifying := false, bootst := c, bootWin := [] }
    else { s with verifying := false, bootst := 7, bootHash := Config.sha384 s.bootM, svn := svn, rollback := max s.rollback svn })

/-! ## The retirement record at boot (R325, R331) -/

/-- A record applied to a machine just booted. -/
def State.apply (s : State) (r : Record) : State :=
  let s := r.lanes.foldl (fun (s : State) x => s.onQuad x.1 fun q => { q with dead := insNat x.2 q.dead }) s
  let s := r.grans.foldl (fun (s : State) x => s.onQuad x.1 fun q => { q with badGran := insNat x.2 q.badGran }) s
  let s := r.banks.foldl (fun (s : State) x => s.onCore x.1 fun c => { c with badBank := insNat x.2 c.badBank }) s
  let s := r.cols.foldl (fun (s : State) x => s.onCore x.1 fun c => c.failCol x.2) s
  let s := r.cores.foldl (fun (s : State) k => s.onCore k fun c => { c with retired := true }) s
  let s := r.caps.foldl (fun (s : State) x => s.onCluster x.1 fun c => { c with drift := x.2, clock := ageCap x.2 }) s
  let s := r.clusters.foldl (fun (s : State) k => s.onCluster k fun c => { c with retired := true }) s
  { s with retRec := r, slices := r.slices, depart := r.chan.map fun ch => { ch := ch, gone := true, moved := [], kept := [], next := 0 } }

/-- MLK-90-D: a far store that cannot be used (R173). -/
def State.farBad (s : State) : Bool := match s.form with | .d90 => decide (s.farCap < 4) | _ => false

/-- RETIREMENT_RECORD_APPLIED: the newer copy that checks. -/
def execRetirementRecordApplied (s : State) : Out :=
  .next (if s.bootst ≠ 7 then s
    else match s.flash.filterMap id with
    | [] => { s with bootst := 9 }
    | r :: _ => { s.apply r with bootst := if s.farBad then 10 else 8 })

/-! ## Attestation (R332) -/

def fit (n : Nat) (l : List Byte) : List Byte := (l ++ zeros n).take n

/-- The retirement record as bytes to hash. -/
def Record.code (r : Record) : List Byte :=
  let one (l : List Nat) : List Byte := toBytes 4 l.length ++ l.flatMap (toBytes 4)
  let two (l : List (Nat × Nat)) : List Byte := one (l.flatMap fun x => [x.1, x.2])
  two r.lanes ++ two r.grans ++ two r.banks ++ two r.cols ++ one r.cores ++ one r.slices ++ one (match r.chan with | some c => [c] | none => []) ++
    one (r.wires.flatMap fun x => [x.1, x.2.1, x.2.2]) ++ two r.caps ++ one r.clusters

/-- The report. -/
def State.attest (s : State) : List Byte :=
  let m := toBytes 4 0x5454414B ++ toBytes 2 s.stepping.toNat ++ toBytes 2 s.svn ++ fit 32 s.attNonce ++ fit 48 s.bootHash ++
    fit 48 (Config.sha384 s.retRec.code) ++ fit 16 s.devId ++ toBytes 4 s.liveCores ++ fit 97 (Config.attKey s.bootHash)
  m ++ fit 96 (Config.attSign s.bootHash m) ++ zeros 163

/-- ATTGO: once firmware runs; ignored while a report is being made. -/
def execAttgo (v : Word) (s : State) : Out := .next (if v = 1 && decide (7 ≤ s.bootst) then { s with attGo := true } else s)

/-- ATTESTATION_REPORT_COMPLETE. -/
def execAttestationReportComplete (s : State) : Out := .next (if s.attGo then { s with attReport := s.attest, attGo := false } else s)

end Sys2Proof.Machine
end

