-- ==== Sys2Proof/Machine/Register.lean ====
section
/-! DEFINITION. The register map that the host reads and writes (R333 to R336): writes of registers with no behaviour of their own, reads, INVCTL (R312),
PWRLIM (R339), and the loss of the host link, of a fabric link and of a remote device (R258, R333, R338). -/

namespace Sys2Proof.Machine

/-! ## INVCTL and PWRLIM -/

/-- INVCTL_WRITE: the interval in bits [10:0], 20 to 1,000 (R312). -/
def execInvctlWrite (v : Word) (s : State) : Out :=
  .next (if decide (20 ≤ v.toNat) && decide (v.toNat ≤ 1000) then { s with invctl := v.toNat } else s)

/-- The range of PWRLIM (R339). -/
def State.pwrRange (s : State) : Nat × Nat := match s.form with | .d90 => (150, 650) | _ => (600, 2600)

/-- PWRLIM_WRITE: a value outside the range changes nothing (R7 lets the device accept no other; log entry 80). -/
def execPwrlimWrite (v : Word) (s : State) : Out :=
  .next (if decide (s.pwrRange.1 ≤ v.toNat) && decide (v.toNat ≤ s.pwrRange.2) then { s with pwrlim := v.toNat } else s)

/-! ## Fields of a block -/

/-- `size` bytes `b` written at `off` of a block, as they fall on the field of `k` bytes at `o` that holds `old`: its new value, or nothing where
the write does not touch it. -/
def fieldWrite (o k old off : Nat) (b : List Byte) : Option Nat :=
  if off < o + k && o < off + b.length then
    some (ofBytes ((toBytes k old).zipIdx.map fun (x : Byte × Nat) => if off ≤ o + x.2 && o + x.2 < off + b.length then b.getD (o + x.2 - off) 0 else x.1))
  else none

/-- A field taken where its value is in range, else kept. -/
def takeField (old : Nat) (new : Option Nat) (ok : Nat → Bool) : Nat :=
  match new with | some v => if ok v then v else old | none => old

/-! ## BAR2 (R57, R266, R335, R72) -/

/-- A host-queue block (R57). TAIL, ACK, ERRSUM and a set enable have behaviours of their own. -/
def HQueue.wr (h : HQueue) (off : Nat) (b : List Byte) : HQueue :=
  let f (o k old : Nat) : Option Nat := fieldWrite o k old off b
  { h with
    ring := takeField h.ring (f 0 8 h.ring) (fun v => decide (v % 256 = 0)),
    slots := takeField h.slots (f 8 4 h.slots) (isPow2 16 65536),
    en := (match f 12 4 (if h.en then 1 else 0) with | some v => h.en && decide (v % 2 = 1) | none => h.en),
    group := if h.en then h.group else takeField h.group (f 24 4 h.group) (fun _ => true) }

/-- A work-queue block (R266): written only while enable is clear. -/
def WQueue.wr (w : WQueue) (off : Nat) (b : List Byte) : WQueue :=
  let f (o k old : Nat) : Option Nat := fieldWrite o k old off b
  if w.en then w
  else { w with
    ring := takeField w.ring (f 0 8 w.ring) (fun v => decide (v % 256 = 0)),
    slots := takeField w.slots (f 8 4 w.slots) (isPow2 64 1048576),
    head := BitVec.ofNat 32 ((f 16 4 w.head.toNat).getD w.head.toNat),
    tail := BitVec.ofNat 32 ((f 20 4 w.tail.toNat).getD w.tail.toNat),
    group := (f 24 4 w.group).getD w.group,
    wake := (f 28 2 w.wake).getD w.wake }

/-- A context-group block (R294, R335). While the group exists the locked fields keep their values, and so does a field to which a value outside its
range is written (R7; log entry 80). -/
def Grp.wr (g : Grp) (off : Nat) (b : List Byte) : Grp :=
  let f (o k old : Nat) : Option Nat := fieldWrite o k old off b
  let locked (o k old : Nat) : Nat := if g.en then old else (f o k old).getD old
  let open_ (o k old : Nat) (ok : Nat → Bool) : Nat :=
    takeField old (f o k old) fun v => !g.en || ok v
  { g with
    pimg := open_ 0 8 g.pimg (fun v => decide (v % 256 = 0)),
    psize := open_ 8 8 g.psize (fun _ => true),
    pbound := open_ 16 4 g.pbound (fun v => decide (v ≤ 1000)),
    troot := locked 40 8 g.troot,
    cbud := open_ 48 4 g.cbud (fun v => decide (1 ≤ v) && decide (v ≤ 384)),
    pbud := open_ 52 4 g.pbud (fun v => decide (1 ≤ v) && decide (v ≤ 2600)),
    bbud := open_ 56 8 g.bbud (fun _ => true),
    tquota := locked 64 4 g.tquota,
    prbound := open_ 68 4 g.prbound (fun v => decide (v ≤ 10000)),
    prbase := locked 72 8 g.prbase,
    prsize := locked 80 4 g.prsize,
    prnotify := locked 84 2 g.prnotify,
    flushva := open_ 96 8 g.flushva (fun _ => true),
    cfbase := locked 112 8 g.cfbase,
    cfsize := locked 120 4 g.cfsize }

/-- A write to BAR2. -/
def State.writeBar2 (s : State) (o : Nat) (b : List Byte) : State :=
  if o < 0x1000 then s.onHq (o / 64) fun h => h.wr (o % 64) b
  else if o < 0x1800 then s.onWq ((o - 0x1000) / 32) fun w => w.wr (o % 32) b
  else if 0x10000 ≤ o && o < 0x20000 then s.onGrp ((o - 0x10000) / 256) fun g => g.wr (o % 256) b
  else if 0x130000 ≤ o && o < 0x132000 then
    s.onTag ((o - 0x130000) / 32) fun t => { t with bytes := (patch t.bytes (o % 32) b).take 30 ++ zeros 2 }
  else s

/-! ## BAR0 (R334), BAR4 (R333) -/

/-- A write to BAR0. -/
def State.writeBar0 (s : State) (o : Nat) (b : List Byte) : State :=
  let on := s.hq.any fun (x : Nat × HQueue) => x.2.en
  if o < 0x4000000 then { s with bootWin := writeCells o (b.take (0x4000000 - o)) s.bootWin }
  else if 0x4000010 ≤ o && o + b.length ≤ 0x4000030 then { s with attNonce := patch s.attNonce (o - 0x4000010) b }
  else if on then s
  else
    let f (p k old : Nat) : Option Nat := fieldWrite p k old o b
    { s with
      evbase := takeField s.evbase (f 0x4000080 8 s.evbase) (fun v => decide (v % 64 = 0)),
      evsize := takeField s.evsize (f 0x4000088 4 s.evsize) (isPow2 64 65536),
      nodeid := takeField s.nodeid (f 0x400008C 4 s.nodeid) (fun v => decide (v ≤ 255)) }

/-- A write to BAR4: the near store, at device scope; the ranges kept by firmware ignore it. -/
def State.writeBar4 (s : State) (o : Nat) (b : List Byte) : State :=
  (pieces (nSpans b.length) (nearBase + o) b).foldl (fun s p =>
    if s.nearTop ≤ p.1 then s
    else match s.writeLine p.1 p.2 0xFFFFFFFF false with
      | some t => t
      | none => s.detect p.1 (s.sliceHome p.1 / 8) 0xFF 0xFFFFFFFF) s

/-- REGISTER_WRITE: `size` bytes of `v` at offset `off`. A register with a behaviour of its own has its own event; a write that takes in two registers is
the events of both. Bars 16 and 17 stand for the host's and the other devices' own writes of their memories. -/
def execRegisterWrite (bar off size : Nat) (v : Word64) (s : State) : Out :=
  let b := toBytes (min size 8) v.toNat
  .next (match bar with
    | 0 => s.writeBar0 off b
    | 2 => s.writeBar2 off b
    | 4 => s.writeBar4 off b
    | 16 => { s with host := writeCells off b s.host }
    | 17 => { s with remote := writeCells off b s.remote }
    | _ => s)

/-! ## Reads -/

/-- The bytes of a host-queue block (R57). -/
def State.hqBytes (s : State) (q : Nat) : List Byte :=
  let h := s.hqueue q
  toBytes 8 h.ring ++ toBytes 4 h.slots ++ toBytes 4 (if h.en then 1 else 0) ++ toBytes 4 h.tail.toNat ++ toBytes 4 h.head.toNat ++ toBytes 4 h.group ++
    toBytes 4 (s.qstate q) ++ toBytes 8 h.errsum.toNat ++ zeros 24

/-- The bytes of a work-queue block (R266). -/
def WQueue.bytes (w : WQueue) : List Byte :=
  toBytes 8 w.ring ++ toBytes 4 w.slots ++ toBytes 4 (if w.en then 1 else 0) ++ toBytes 4 w.head.toNat ++ toBytes 4 w.tail.toNat ++ toBytes 4 w.group ++
    toBytes 2 w.wake ++ zeros 2

/-- The bytes of a context-group block (R294, R335); a zero that reads as a default does so. -/
def Grp.bytes (g : Grp) : List Byte :=
  let d (v k : Nat) : Nat := if v = 0 then k else v
  toBytes 8 g.pimg ++ toBytes 8 g.psize ++ toBytes 4 (d g.pbound 20) ++
    toBytes 4 ((if g.go then 1 else 0) + (if g.migrate then 2 else 0) + (if g.remove then 4 else 0)) ++ toBytes 4 g.pstate ++ toBytes 4 g.pneed ++
    toBytes 4 (if g.en then 1 else 0) ++ zeros 4 ++ toBytes 8 g.troot ++ toBytes 4 g.cbud ++ toBytes 4 g.pbud ++ toBytes 8 g.bbud ++
    toBytes 4 (d g.tquota 65536) ++ toBytes 4 (d g.prbound 100) ++ toBytes 8 g.prbase ++ toBytes 4 g.prsize ++ toBytes 2 g.prnotify ++ zeros 2 ++
    toBytes 8 g.prresp ++ toBytes 8 g.flushva ++ toBytes 4 (if g.flushn.isSome then 1 else 0) ++ zeros 4 ++ toBytes 8 g.cfbase ++ toBytes 4 g.cfsize ++ zeros 132

/-- A wake latch's status (R334). -/
def NReg.latchBytes (r : NReg) : List Byte := toBytes 8 r.lLast.toNat ++ toBytes 1 r.lCount ++ toBytes 1 (if r.lCount = 0 then 0 else 1) ++ zeros 6

/-- A class entry as it reads (R336). -/
def State.classBytes (s : State) (n : Nat) : List Byte :=
  if n < 64 then toBytes 1 1 ++ zeros 7 ++ toBytes 4 (s.graph n).group ++ zeros 4 else (s.nreg n).entry

/-- A log of R323 as it is mapped: the header, then the ring. -/
def Log.byte (l : Log) (o : Nat) : Byte :=
  if o < 16 then (toBytes 8 l.total ++ toBytes 4 (l.total % 256) ++ zeros 4).getD o 0
  else if o < 8208 then (sget [] ((o - 16) / 32) l.recs).getD ((o - 16) % 32) 0 else 0

/-- The 8 bytes of notify register `n` as a host read returns them (R70, R73). -/
def State.nregBytes (s : State) (n : Nat) : List Byte :=
  toBytes 8 (if n < 64 then (s.graph n).word else if decide ((s.nreg n).cls = 2) || decide ((s.nreg n).cls = 3) then (s.nreg n).value.toNat else 0)

/-- A byte of BAR0 as it reads (R334). -/
def State.bar0 (s : State) (o : Nat) : Byte :=
  if o < 0x4000000 then 0
  else if o < 0x4000004 then (toBytes 4 s.bootst).getD (o % 4) 0
  else if 0x4000030 ≤ o && o < 0x4000034 then (toBytes 4 (if s.attGo then 1 else 0)).getD (o % 4) 0
  else if 0x4000040 ≤ o && o < 0x4000048 then (toBytes 4 s.invctl ++ toBytes 4 s.pwrlim).getD (o % 8) 0
  else if 0x4000080 ≤ o && o < 0x4000090 then (toBytes 8 s.evbase ++ toBytes 4 s.evsize ++ toBytes 4 s.nodeid).getD (o % 16) 0
  else if 0x4001000 ≤ o && o < 0x4001200 then s.attReport.getD (o % 512) 0
  else if 0x4010000 ≤ o && o < 0x4020000 then (sget Log.init ((o - 0x4010000) / 0x4000) s.alogs).byte (o % 0x4000)
  else if 0x4020000 ≤ o && o < 0x40E0000 then (sget Log.init ((o - 0x4020000) / 0x4000) s.vlogs).byte (o % 0x4000)
  else 0

/-- A byte of BAR2 as it reads (R334). -/
def State.bar2 (s : State) (o : Nat) : Byte :=
  if o < 0x1000 then (s.hqBytes (o / 64)).getD (o % 64) 0
  else if o < 0x1800 then (s.wqueue ((o - 0x1000) / 32)).bytes.getD (o % 32) 0
  else if 0x10000 ≤ o && o < 0x20000 then (s.grp ((o - 0x10000) / 256)).bytes.getD (o % 256) 0
  else if 0x100000 ≤ o && o < 0x108000 then (s.nregBytes ((o - 0x100000) / 8)).getD (o % 8) 0
  else if 0x110000 ≤ o && o < 0x120000 then (s.nreg ((o - 0x110000) / 16)).latchBytes.getD (o % 16) 0
  else if 0x120000 ≤ o && o < 0x130000 then (s.classBytes ((o - 0x120000) / 16)).getD (o % 16) 0
  else if 0x130000 ≤ o && o < 0x132000 then (s.tagEnt ((o - 0x130000) / 32)).bytes.getD (o % 32) 0
  else 0

/-- A byte read through a BAR (R334), or nothing where the read takes an abort completion: the home slice withholds an uncorrectable line (R319, R333).
Reading a register of class 2 or 3 has an effect, in its own event. -/
def State.barByte (s : State) (bar o : Nat) : Option Byte :=
  match bar with
  | 0 => some (s.bar0 o)
  | 2 => some (s.bar2 o)
  | 4 => if nearBase + o < s.nearTop then (s.readDev (nearBase + o) 1).bind (·.head?) else some 0
  | _ => some 0

/-! ## Links (R258, R333, R338) -/

/-- Every outstanding access of a window fails with a CAUSE of R258. -/
def State.failWindow (s : State) (hit : Tgt → Bool) (cause : Nat) : State :=
  { s with net := s.net.map fun r =>
      if hit r.tgt && !r.k.isRedo then { r with st := match r.st with | .failed c => .failed c | _ => .failed cause } else r }

/-- HOST_LINK_DOWN (R333). -/
def execHostLinkDown (s : State) : Out :=
  .next ({ s with linkUp := false }.failWindow (fun t => match t with | .host _ => true | _ => false) fLINK)

def isNode (node : Nat) (t : Tgt) : Bool := match t with | .fab n _ => decide (n = node) | _ => false

/-- FABRIC_LINK_DOWN (R258). -/
def execFabricLinkDown (node : Nat) (s : State) : Out :=
  .next ({ s with deadNodes := insNat node s.deadNodes }.failWindow (isNode node) fLINK)

/-- The first address of an engine's ranges, line by line, that lies in a node. -/
def State.reaches (s : State) (group node : Nat) (ps : List (Nat × Nat)) : Option Nat :=
  ((ps.flatMap fun p => spans (nSpans p.2) p.1 p.2).map (·.1)).find? fun a => match s.place group a (.copy false) with | .ok t => isNode node t | .error _ => false

/-- A line of code lies in a node. -/
def State.reachesCode (s : State) (group node a : Nat) : Option Nat :=
  match s.place group a .fetch with | .ok t => if isNode node t then some a else none | .error _ => none

/-- An engine's operation under way, with requests outstanding or none; `f` fails it at an address. -/
def State.resetOne (s : State) (started : Bool) (at_ : Option Nat) (f : State → Nat → State) : State :=
  match at_ with
  | some a => if started then let d := s.draw; if d.1 then f d.2 a else d.2 else s
  | none => s

/-- REMOTE_DEVICE_RESET (R338): outstanding requests fail, and so do the engines' operations that have one. -/
def execRemoteDeviceReset (node : Nat) (s : State) : Out :=
  let s := s.failWindow (isNode node) fRESET
  let s := s.each (List.range s.copies.length).reverse fun s n =>
    match s.copies[n]? with
    | some c => s.resetOne c.started (s.reaches c.org.group node c.ranges) fun s a => s.failCopy n c fRESET a
    | none => s
  let s := s.each (List.range s.defs.length).reverse fun s n =>
    match s.defs[n]? with
    | some d => s.resetOne d.fetched (s.reaches d.org.group node (d.places s)) fun s a => s.endDef n d (.error { cause := fRESET, va := a })
    | none => s
  let s := s.each (List.range s.fills.length).reverse fun s n =>
    match s.fills[n]? with
    | some f =>
      s.resetOne f.started (s.reaches f.group node ((f.place, 32) :: (match f.fetch s with
        | .ok (t, _) => fillSpans t f.slice f.cb | .error _ => []))) fun s a => s.fillFail n f fRESET a
    | none => s
  let s := s.each (List.range s.fetches.length).reverse fun s n =>
    match s.fetches[n]? with
    | some f => if f.line < 2 ^ 90 then s.resetOne true (s.reachesCode f.group node (256 * f.line)) fun s _ =>
        let s : State := { s with fetches := dropAt n s.fetches }
        if f.pre then s else s.fetchFail f tABORT aABORT
      else s
    | none => s
  .next (s.each s.cmds fun s c => match c.k with
    | .load g n a none => s.resetOne true (s.reaches c.group node [(a, 32 * n)]) fun s x =>
        ((s.dropCmd c.id).onGraph g fun y => { y with loading := false }).fail c.src stACCESS c.group x
    | .copy a d _ todo => s.resetOne true (s.reaches c.group node (todo.flatMap fun p => [(a + p.1, p.2), (d + p.1, p.2)])) fun s x => (s.dropCmd c.id).fail c.src stACCESS c.group x
    | _ => s)

end Sys2Proof.Machine
end

