-- ==== Sys2Proof/Machine/Dispatch.lean ====
section
/-! DEFINITION. One arm for each constructor of `Instr`: the meaning of an instruction, or of an event of the device. -/

namespace Sys2Proof.Machine

def exec (i : Instr) (s : State) : Host.Outcome State Fault Refusal :=
  match i with
  | .iadd c m r => Sys2Proof.Machine.execIadd c m r s
  | .isub c m r => Sys2Proof.Machine.execIsub c m r s
  | .imul c r => Sys2Proof.Machine.execImul c r s
  | .imulh c g r => Sys2Proof.Machine.execImulh c g r s
  | .imad c r => Sys2Proof.Machine.execImad c r s
  | .imadw c g r => Sys2Proof.Machine.execImadw c g r s
  | .iadd64 c r => Sys2Proof.Machine.execIadd64 c r s
  | .imin c g r => Sys2Proof.Machine.execImin c g r s
  | .imax c g r => Sys2Proof.Machine.execImax c g r s
  | .iabs c sat r => Sys2Proof.Machine.execIabs c sat r s
  | .ishl c r => Sys2Proof.Machine.execIshl c r s
  | .ishr c r => Sys2Proof.Machine.execIshr c r s
  | .lshr c r => Sys2Proof.Machine.execLshr c r s
  | .rot c right r => Sys2Proof.Machine.execRot c right r s
  | .and c r => Sys2Proof.Machine.execAnd c r s
  | .or c r => Sys2Proof.Machine.execOr c r s
  | .xor c r => Sys2Proof.Machine.execXor c r s
  | .andn c r => Sys2Proof.Machine.execAndn c r s
  | .popc c r => Sys2Proof.Machine.execPopc c r s
  | .clz c r => Sys2Proof.Machine.execClz c r s
  | .brev c r => Sys2Proof.Machine.execBrev c r s
  | .bfx c g r => Sys2Proof.Machine.execBfx c g r s
  | .bfi c r => Sys2Proof.Machine.execBfi c r s
  | .iset c cc g r => Sys2Proof.Machine.execIset c cc g r s
  | .sel c inv p r => Sys2Proof.Machine.execSel c inv p r s
  | .mov c wide r => Sys2Proof.Machine.execMov c wide r s
  | .movi c d imm => Sys2Proof.Machine.execMovi c d imm s
  | .iaddi c d a imm => Sys2Proof.Machine.execIaddi c d a imm s
  | .movx c d a b => Sys2Proof.Machine.execMovx c d a b s
  | .movxSt c d a b => Sys2Proof.Machine.execMovxSt c d a b s
  | .movxw c k d imm => Sys2Proof.Machine.execMovxw c k d imm s
  | .lea c g sh r => Sys2Proof.Machine.execLea c g sh r s
  | .idot4 c sat ua ub r => Sys2Proof.Machine.execIdot4 c sat ua ub r s
  | .fadd c m r => Sys2Proof.Machine.execFadd c m r s
  | .fsub c m r => Sys2Proof.Machine.execFsub c m r s
  | .fmul c m r => Sys2Proof.Machine.execFmul c m r s
  | .ffma c m r => Sys2Proof.Machine.execFfma c m r s
  | .fmin c r => Sys2Proof.Machine.execFmin c r s
  | .fmax c r => Sys2Proof.Machine.execFmax c r s
  | .fset c cc r => Sys2Proof.Machine.execFset c cc r s
  | .fclass c f r => Sys2Proof.Machine.execFclass c f r s
  | .frcp c m r => Sys2Proof.Machine.execFrcp c m r s
  | .frsq c m r => Sys2Proof.Machine.execFrsq c m r s
  | .fsqrt c m r => Sys2Proof.Machine.execFsqrt c m r s
  | .fexp2 c m r => Sys2Proof.Machine.execFexp2 c m r s
  | .flog2 c m r => Sys2Proof.Machine.execFlog2 c m r s
  | .fdiv c m r => Sys2Proof.Machine.execFdiv c m r s
  | .frnd c m r => Sys2Proof.Machine.execFrnd c m r s
  | .fcvt c k m r => Sys2Proof.Machine.execFcvt c k m r s
  | .ftoi c g m r => Sys2Proof.Machine.execFtoi c g m r s
  | .itof c g m r => Sys2Proof.Machine.execItof c g m r s
  | .fsign c op h2 r => Sys2Proof.Machine.execFsign c op h2 r s
  | .hfma2 c f m r => Sys2Proof.Machine.execHfma2 c f m r s
  | .hadd2 c f m r => Sys2Proof.Machine.execHadd2 c f m r s
  | .hmul2 c f m r => Sys2Proof.Machine.execHmul2 c f m r s
  | .qdec c f hi r => Sys2Proof.Machine.execQdec c f hi r s
  | .qenc c f hi sat rz r => Sys2Proof.Machine.execQenc c f hi sat rz r s
  | .qscale c f hi xv r => Sys2Proof.Machine.execQscale c f hi xv r s
  | .qxtra c op hi r => Sys2Proof.Machine.execQxtra c op hi r s
  | .shfl c k wide r => Sys2Proof.Machine.execShfl c k wide r s
  | .vote c k neg d q => Sys2Proof.Machine.execVote c k neg d q s
  | .vred c op m r => Sys2Proof.Machine.execVred c op m r s
  | .vscan c op m r => Sys2Proof.Machine.execVscan c op m r s
  | .plop c tt d a b => Sys2Proof.Machine.execPlop c tt d a b s
  | .pmov c toPred r => Sys2Proof.Machine.execPmov c toPred r s
  | .umov c first wide r => Sys2Proof.Machine.execUmov c first wide r s
  | .bra c off => Sys2Proof.Machine.execBra c off s
  | .brx c a p => Sys2Proof.Machine.execBrx c a p s
  | .call c off link => Sys2Proof.Machine.execCall c off link s
  | .ret c a p => Sys2Proof.Machine.execRet c a p s
  | .exit c => Sys2Proof.Machine.execExit c s
  | .cdecl c d a p => Sys2Proof.Machine.execCdecl c d a p s
  | .cdeclIss c d => Sys2Proof.Machine.execCdeclIss c d s
  | .csign c a => Sys2Proof.Machine.execCsign c a s
  | .csignNw c a => Sys2Proof.Machine.execCsignNw c a s
  | .yield c => Sys2Proof.Machine.execYield c s
  | .nop c => Sys2Proof.Machine.execNop c s
  | .brk c code => Sys2Proof.Machine.execBrk c code s
  | .trap c code => Sys2Proof.Machine.execTrap c code s
  | .ld c sx h m => Sys2Proof.Machine.execLd c sx h m s
  | .st c h m => Sys2Proof.Machine.execSt c h m s
  | .ldro c sx m => Sys2Proof.Machine.execLdro c sx m s
  | .lds c sx m => Sys2Proof.Machine.execLds c sx m s
  | .sts c m => Sys2Proof.Machine.execSts c m s
  | .atom c op m => Sys2Proof.Machine.execAtom c op m s
  | .atoms c op m => Sys2Proof.Machine.execAtoms c op m s
  | .redo c op m => Sys2Proof.Machine.execRedo c op m s
  | .fence c k sc d => Sys2Proof.Machine.execFence c k sc d s
  | .roinv c => Sys2Proof.Machine.execRoinv c s
  | .pref c l1 m => Sys2Proof.Machine.execPref c l1 m s
  | .bar c arv n a p => Sys2Proof.Machine.execBar c arv n a p s
  | .cbar c arv a p => Sys2Proof.Machine.execCbar c arv a p s
  | .qpush c rlx r => Sys2Proof.Machine.execQpush c rlx r s
  | .qpop c w rlx r => Sys2Proof.Machine.execQpop c w rlx r s
  | .notify c k a b p => Sys2Proof.Machine.execNotify c k a b p s
  | .gtrig c a p => Sys2Proof.Machine.execGtrig c a p s
  | .zline c m => Sys2Proof.Machine.execZline c m s
  | .tdef c t aux => Sys2Proof.Machine.execTdef c t aux s
  | .tdefs c t aux => Sys2Proof.Machine.execTdefs c t aux s
  | .tdefa c d aux => Sys2Proof.Machine.execTdefa c d aux s
  | .tkill c t => Sys2Proof.Machine.execTkill c t s
  | .tld c wide t d aux => Sys2Proof.Machine.execTld c wide t d aux s
  | .tst c k t aux => Sys2Proof.Machine.execTst c k t aux s
  | .trow c t d aux => Sys2Proof.Machine.execTrow c t d aux s
  | .rcfence c dev => Sys2Proof.Machine.execRcfence c dev s
  | .mma c k acc ta tb cv => Sys2Proof.Machine.execMma c k acc ta tb cv s
  | .mmalr c k acc ta tb aux cv => Sys2Proof.Machine.execMmalr c k acc ta tb aux cv s
  | .adapt c acc sacc cb cv => Sys2Proof.Machine.execAdapt c acc sacc cb cv s
  | .aclr c acc => Sys2Proof.Machine.execAclr c acc s
  | .arow c acc d aux => Sys2Proof.Machine.execArow c acc d aux s
  | .arowSt c acc d aux => Sys2Proof.Machine.execArowSt c acc d aux s
  | .aflag c keep acc d => Sys2Proof.Machine.execAflag c keep acc d s
  | .adpfD c n aux => Sys2Proof.Machine.execAdpfD c n aux s
  | .adpfU c n aux => Sys2Proof.Machine.execAdpfU c n aux s
  | .adpfInv c => Sys2Proof.Machine.execAdpfInv c s
  | .adpfInvd c => Sys2Proof.Machine.execAdpfInvd c s
  | .cpy c sc k b => Sys2Proof.Machine.execCpy c sc k b s
  | .cpybt c sc k b => Sys2Proof.Machine.execCpybt c sc k b s
  | .tkwait c k => Sys2Proof.Machine.execTkwait c k s
  | .featq c d w => Sys2Proof.Machine.execFeatq c d w s
  | .livept c gm b0 l0 b1 l1 => Sys2Proof.Machine.execLivept c gm b0 l0 b1 l1 s
  | .sysr c d n => Sys2Proof.Machine.execSysr c d n s
  | .sysw c a n => Sys2Proof.Machine.execSysw c a n s
  | .hretRetry c => Sys2Proof.Machine.execHretRetry c s
  | .hretSkip c => Sys2Proof.Machine.execHretSkip c s
  | .hretEsc c => Sys2Proof.Machine.execHretEsc c s
  | .hget c k d x => Sys2Proof.Machine.execHget c k d x s
  | .hset c k d x => Sys2Proof.Machine.execHset c k d x s
  | .clock c nsec d => Sys2Proof.Machine.execClock c nsec d s
  | .pmc c d e => Sys2Proof.Machine.execPmc c d e s
  | .issueSlot q => Sys2Proof.Machine.execIssueSlot q s
  | .instructionFetchFill n => Sys2Proof.Machine.execInstructionFetchFill n s
  | .handlerEntry q => Sys2Proof.Machine.execHandlerEntry q s
  | .loadReturn n => Sys2Proof.Machine.execLoadReturn n s
  | .deferredDataAbort n => Sys2Proof.Machine.execDeferredDataAbort n s
  | .storeAck n => Sys2Proof.Machine.execStoreAck n s
  | .storeFail n => Sys2Proof.Machine.execStoreFail n s
  | .homeSliceAccess n => Sys2Proof.Machine.execHomeSliceAccess n s
  | .translationWalkEnd n => Sys2Proof.Machine.execTranslationWalkEnd n s
  | .pageRequestRingRoom g => Sys2Proof.Machine.execPageRequestRingRoom g s
  | .pageServiceBoundExpiry n => Sys2Proof.Machine.execPageServiceBoundExpiry n s
  | .pageResponseWrite g v => Sys2Proof.Machine.execPageResponseWrite g v s
  | .flushnWrite g v => Sys2Proof.Machine.execFlushnWrite g v s
  | .flushComplete g => Sys2Proof.Machine.execFlushComplete g s
  | .copyEngineStart n => Sys2Proof.Machine.execCopyEngineStart n s
  | .copyLand n => Sys2Proof.Machine.execCopyLand n s
  | .copyFail n => Sys2Proof.Machine.execCopyFail n s
  | .tileDefinitionFetch n => Sys2Proof.Machine.execTileDefinitionFetch n s
  | .tileDefinitionLands n => Sys2Proof.Machine.execTileDefinitionLands n s
  | .tileReaderDone n => Sys2Proof.Machine.execTileReaderDone n s
  | .matrixEngineEntry n => Sys2Proof.Machine.execMatrixEngineEntry n s
  | .matrixCommit n => Sys2Proof.Machine.execMatrixCommit n s
  | .adapterFillStart n => Sys2Proof.Machine.execAdapterFillStart n s
  | .adapterFillLands n => Sys2Proof.Machine.execAdapterFillLands n s
  | .adapterFillFail n => Sys2Proof.Machine.execAdapterFillFail n s
  | .adapterRowReplay n row => Sys2Proof.Machine.execAdapterRowReplay n row s
  | .laneCheckFail q lane => Sys2Proof.Machine.execLaneCheckFail q lane s
  | .concordanceRewriteDone q => Sys2Proof.Machine.execConcordanceRewriteDone q s
  | .columnCheckFail core col => Sys2Proof.Machine.execColumnCheckFail core col s
  | .columnRewriteDone core => Sys2Proof.Machine.execColumnRewriteDone core s
  | .schedulerPass => Sys2Proof.Machine.execSchedulerPass s
  | .headHoldTimeout n => Sys2Proof.Machine.execHeadHoldTimeout n s
  | .bandwidthWindowEnd => Sys2Proof.Machine.execBandwidthWindowEnd s
  | .warpEnd n => Sys2Proof.Machine.execWarpEnd n s
  | .blockEnd n => Sys2Proof.Machine.execBlockEnd n s
  | .redoEntryArrival n => Sys2Proof.Machine.execRedoEntryArrival n s
  | .redoEntryResend n => Sys2Proof.Machine.execRedoEntryResend n s
  | .channelDepartureStart ch => Sys2Proof.Machine.execChannelDepartureStart ch s
  | .evacuatorLineStep => Sys2Proof.Machine.execEvacuatorLineStep s
  | .sliceDeparture sl => Sys2Proof.Machine.execSliceDeparture sl s
  | .runCommand q => Sys2Proof.Machine.execRunCommand q s
  | .translationComplete n => Sys2Proof.Machine.execTranslationComplete n s
  | .runComplete n => Sys2Proof.Machine.execRunComplete n s
  | .copyCommand q => Sys2Proof.Machine.execCopyCommand q s
  | .copyCommandComplete n => Sys2Proof.Machine.execCopyCommandComplete n s
  | .graphCommand q => Sys2Proof.Machine.execGraphCommand q s
  | .signalCommand q => Sys2Proof.Machine.execSignalCommand q s
  | .waitCommand q => Sys2Proof.Machine.execWaitCommand q s
  | .waitPoll n => Sys2Proof.Machine.execWaitPoll n s
  | .waitTimeout n => Sys2Proof.Machine.execWaitTimeout n s
  | .loadgraphCommand q => Sys2Proof.Machine.execLoadgraphCommand q s
  | .loadgraphComplete n => Sys2Proof.Machine.execLoadgraphComplete n s
  | .graphRunStart g => Sys2Proof.Machine.execGraphRunStart g s
  | .graphNodeRun g => Sys2Proof.Machine.execGraphNodeRun g s
  | .graphNodeCopy g => Sys2Proof.Machine.execGraphNodeCopy g s
  | .graphNodeSignal g => Sys2Proof.Machine.execGraphNodeSignal g s
  | .graphNodeWait g => Sys2Proof.Machine.execGraphNodeWait g s
  | .graphNodeIf g => Sys2Proof.Machine.execGraphNodeIf g s
  | .graphNodeLoop g => Sys2Proof.Machine.execGraphNodeLoop g s
  | .graphNodeTrigger g => Sys2Proof.Machine.execGraphNodeTrigger g s
  | .eventRingRoom q => Sys2Proof.Machine.execEventRingRoom q s
  | .tagMessageArrival t payload => Sys2Proof.Machine.execTagMessageArrival t payload s
  | .tagLaunch t => Sys2Proof.Machine.execTagLaunch t s
  | .queueTailWrite q v => Sys2Proof.Machine.execQueueTailWrite q v s
  | .queueEnable q => Sys2Proof.Machine.execQueueEnable q s
  | .queueAck q v => Sys2Proof.Machine.execQueueAck q v s
  | .errsumClear q v => Sys2Proof.Machine.execErrsumClear q v s
  | .graphTriggerWrite n v => Sys2Proof.Machine.execGraphTriggerWrite n v s
  | .graphTriggerReset n v => Sys2Proof.Machine.execGraphTriggerReset n v s
  | .hostInterruptWrite n v => Sys2Proof.Machine.execHostInterruptWrite n v s
  | .hostInterruptRead n => Sys2Proof.Machine.execHostInterruptRead n s
  | .hostInterruptTimer n => Sys2Proof.Machine.execHostInterruptTimer n s
  | .queueWakeWrite n v => Sys2Proof.Machine.execQueueWakeWrite n v s
  | .queueWakeRead n => Sys2Proof.Machine.execQueueWakeRead n s
  | .notifyLatchWrite n v => Sys2Proof.Machine.execNotifyLatchWrite n v s
  | .notifyWakeMerge => Sys2Proof.Machine.execNotifyWakeMerge s
  | .notifyClassEntryWrite n off size v => Sys2Proof.Machine.execNotifyClassEntryWrite n off size v s
  | .workQueueEnable w v => Sys2Proof.Machine.execWorkQueueEnable w v s
  | .groupEnable g => Sys2Proof.Machine.execGroupEnable g s
  | .groupDisable g => Sys2Proof.Machine.execGroupDisable g s
  | .pctlGo g => Sys2Proof.Machine.execPctlGo g s
  | .pctlGoMigrate g => Sys2Proof.Machine.execPctlGoMigrate g s
  | .pctlRemove g => Sys2Proof.Machine.execPctlRemove g s
  | .preemptStop c => Sys2Proof.Machine.execPreemptStop c s
  | .preemptBoundExpiry c => Sys2Proof.Machine.execPreemptBoundExpiry c s
  | .saveEngine c => Sys2Proof.Machine.execSaveEngine c s
  | .removalDrainTimeout c => Sys2Proof.Machine.execRemovalDrainTimeout c s
  | .inventoryPassStart core => Sys2Proof.Machine.execInventoryPassStart core s
  | .inventoryDrainTimeout core => Sys2Proof.Machine.execInventoryDrainTimeout core s
  | .inventoryScanEnd core fails => Sys2Proof.Machine.execInventoryScanEnd core fails s
  | .uncorrectableError site => Sys2Proof.Machine.execUncorrectableError site s
  | .correctedError site => Sys2Proof.Machine.execCorrectedError site s
  | .verticalParityFail cluster grp pa beat => Sys2Proof.Machine.execVerticalParityFail cluster grp pa beat s
  | .verticalBeatRetry cluster passed => Sys2Proof.Machine.execVerticalBeatRetry cluster passed s
  | .wireTestEnd cluster wire stuck => Sys2Proof.Machine.execWireTestEnd cluster wire stuck s
  | .ageingMonitorRead cluster driftPermille => Sys2Proof.Machine.execAgeingMonitorRead cluster driftPermille s
  | .powerSample avg50us avg1ms tempC => Sys2Proof.Machine.execPowerSample avg50us avg1ms tempC s
  | .alarmClockStep => Sys2Proof.Machine.execAlarmClockStep s
  | .powerUpReset => Sys2Proof.Machine.execPowerUpReset s
  | .bootgo v => Sys2Proof.Machine.execBootgo v s
  | .attgo v => Sys2Proof.Machine.execAttgo v s
  | .invctlWrite v => Sys2Proof.Machine.execInvctlWrite v s
  | .pwrlimWrite v => Sys2Proof.Machine.execPwrlimWrite v s
  | .registerWrite bar off size v => Sys2Proof.Machine.execRegisterWrite bar off size v s
  | .hostLinkDown => Sys2Proof.Machine.execHostLinkDown s
  | .remoteDeviceReset node => Sys2Proof.Machine.execRemoteDeviceReset node s
  | .bootVerificationEnd => Sys2Proof.Machine.execBootVerificationEnd s
  | .retirementRecordApplied => Sys2Proof.Machine.execRetirementRecordApplied s
  | .attestationReportComplete => Sys2Proof.Machine.execAttestationReportComplete s
  | .notifyApertureGating => Sys2Proof.Machine.execNotifyApertureGating s
  | .clockGlideEnd cluster => Sys2Proof.Machine.execClockGlideEnd cluster s
  | .powerLoss => Sys2Proof.Machine.execPowerLoss s
  | .fabricLinkDown node => Sys2Proof.Machine.execFabricLinkDown node s

end Sys2Proof.Machine
end

