-- ==== Sys2Proof/Machine/Plant.lean ====
section
/-! DEFINITION. A program loaded from outside (log entry 9): a running context whose one warp stands, alone in quadrant 0 of core 0, at a clause of one
given instruction that the core has fetched. -/

namespace Sys2Proof.Machine

/-- The address of the planted clause. -/
def plantAt : Nat := 0x1000

/-- A feature view with every group (R300). -/
def fullView : List Nat := [0x0100, 0, 0xFF, 0xFF, 0x0410400A, 0x2F810600, 0x20102040, 0, 0, 0, 0, 0]

/-- The image header of the planted context. -/
def plantImg (view : List Nat) : Img :=
  { Img.init with code := plantAt, entry := plantAt, gran := 10, gx := 1, gy := 1, gz := 1, warps := 1, gsize := 1, scratch := 64, accs := 32, bars := 16,
                  names := 16, view := view }

/-- A clause header of one instruction of an opcode's class. -/
def plantHeader (x : Word64) : Word64 :=
  encHeader { cls := BitVec.ofNat 3 ((classOf (opcodeOf x).toNat).getD 0), count := 0, wait := 0, yield := false, stg0b := 0, stg0l := 0, stg1b := 0,
              stg1l := 0, rsvd := 0 }

def plantCtx (id : Nat) (view : List Nat) : Ctx :=
  { Ctx.init with id := id, h := plantImg view, code := plantAt, codeEnd := plantAt + 16, entry := plantAt, heads := [plantAt], inter := true }

def plantGroup (id ctx : Nat) : CGroup :=
  { id := id, ctx := ctx, gidx := 0, cluster := 0, size := 1, left := 1, hasRec := true, cbar := Bar.idle, names := 16, entries := [],
    free := List.range 16, heads := [], leaf := .none, again := false }

def plantBlock (id ctx cg : Nat) : Block :=
  { id := id, ctx := ctx, lin := 0, pos := 0, cg := cg, core := 0, scratch := [], badWords := [], bars := [], acc := [], aflags := [], fail := FailRec.none,
    voided := false, atEntry := true, warpsLeft := 1, pmc := [], missed := [] }

def plantWarp (id ctx blk cycle : Nat) : Warp :=
  { id := id, ctx := ctx, blk := blk, wi := 0, core := 0, quad := 0, slot := 0, gran := 10, gmap := List.range 10,
    lanes := List.replicate 32 { Lane.init with hdr := plantAt }, v := [], s := [], p := [], decl := [], signed := [], tok := [],
    pace := { Pace.init with notBefore := cycle }, fixed := [], movx := 0, fail := FailRec.none, traps := [], acq := false, recs := [], liveG := 0, liveR := [] }

/-- The planted line of code. -/
def plantLine (x : Word64) : Nat × List Word64 := (plantAt / 256, plantHeader x :: x :: List.replicate 30 0)

/-- The machine about to issue instruction `x`. -/
def State.plant (s : State) (x : Word64) : State :=
  let i := s.nextId
  let t : State := { s with agenda := [], turn := 0, iss := Issue.none, nextId := i + 4,
                            ctxs := plantCtx i fullView :: s.ctxs, cgroups := plantGroup (i + 1) i :: s.cgroups,
                            blocks := plantBlock (i + 2) i (i + 1) :: s.blocks,
                            warps := plantWarp (i + 3) i (i + 2) (s.quad 0).cycle :: s.warps.filter fun w => w.q ≠ 0 }
  (t.onQuad 0 fun q => { q with bank := none, rewriting := false, slotAt := q.cycle }).onCore 0 fun c =>
    { c with ic := plantLine x :: c.ic }

end Sys2Proof.Machine
end

