-- ==== Sys2Proof/Machine/Step.lean ====
section
/-! DEFINITION. One step of the machine: the next party of the agenda acts, or the next quadrant's slot; an instruction that the slot has issued acts in
the same step; time goes on (log entries 2 and 5). -/

namespace Sys2Proof.Machine

/-- The event of the next step, and the state without it. -/
def State.nextEvent (s : State) : Instr × State :=
  match s.agenda with
  | e :: r => (e, { s with agenda := r })
  | [] => (.issueSlot s.turn, { s with turn := (s.turn + 1) % (32 * s.nClusters) })

/-- Time goes on by a free amount. -/
def State.settle (s : State) : State := { s with ns := s.ns + Config.elapsed s.free, free := s.free + 1 }

/-- The latched instruction acts, and its issue is finished. -/
def issued (t : State) : Host.Outcome State Fault Refusal :=
  match t.iss.instr with
  | none => .next t.settle
  | some i => match exec i t with
    | .next u => .next (u.finishIssue t).settle
    | .fault f => .fault f
    | .refused r => .refused r

def step (s : State) : Host.Outcome State Fault Refusal :=
  match exec s.nextEvent.1 s.nextEvent.2 with
  | .next t => issued t
  | .fault f => .fault f
  | .refused r => .refused r

/-- The state about to issue the instruction whose eight bytes hold `w` (log entry 9). -/
def State.withFetchWord (s : State) (_nbits w : Nat) : State := s.plant (BitVec.ofNat 64 w)

end Sys2Proof.Machine
end

