-- ==== Sys2Proof/Safety.lean ====
section
/-! DEFINITION. What counts as a safe step, and the terms that claims use: when an instruction acts, and what one that writes registers or a predicate
leaves behind. -/

namespace Sys2Proof.Machine

/-- A step goes on: neither a fault nor a refusal. -/
def State.goesOn (s : State) : Prop := ∃ t, step s = .next t

/-- Device, host and remote memory in their canonical form. -/
abbrev Memory.wf (s : State) : Prop := scanon 0 s.mem = true ∧ scanon 0 s.host = true ∧ scanon 0 s.remote = true

/-- The lanes of an issue stand as R80 says: 32 of the warp, and in handler mode 32 of the quadrant's bank. -/
abbrev lanesWhole (s : State) (w : Warp) : Prop :=
  w.lanes.length = 32 ∧ (s.iss.hnd = true → ((s.quad w.q).bank.map fun b => b.lanes.length) = some 32)

/-- The latched instruction `i` of warp `w` acts in lanes `act`: its guard holds there (R46), the mode allows it and its registers are legal (R56), every
result it touches is due (R51). -/
abbrev Acts (i : Instr) (s : State) (w : Warp) (act : Mask) : Prop :=
  s.issWarp = some w ∧ act = s.guarded w (common i).guard ∧ act ≠ 0#32 ∧ s.iss.early = [] ∧ modeOk i s.iss.hnd = true ∧
    regsOk i w.gran s.iss.hnd = true ∧ (readKeys i ++ writeKeys i).any (w.undue s.iss.now) = false ∧ lanesWhole s w

/-- A lane of the issue after it: moved past the instruction if it issued (R101). -/
def State.movedLane (s : State) (n : Nat) (l : Lane) : Lane :=
  if s.iss.lanes.getLsbD n then Lane.goto (nextPos s.iss.hdr s.iss.idx s.iss.count) l else l

/-- What every instruction that only computes or transfers control leaves alone, and how its lanes move: `w` has become `w'`, `mv` moves each lane of the
issue, and `e` gives each lane's new exception flags (R130). -/
structure Moved (s : State) (w : Warp) (mv : Nat → Lane → Lane) (e : Nat → Exc) (t : State) (w' : Warp) : Prop where
  only : t = { s with warps := t.warps, quads := t.quads }
  warp : t.warp? w.id = some w'
  same : w' = { w with v := w'.v, s := w'.s, p := w'.p, lanes := w'.lanes, fixed := w'.fixed }
  others : ∀ j, j ≠ w.id → t.warp? j = s.warp? j
  quads : ∀ q, q ≠ w.q → t.quad q = s.quad q
  quad : t.quad w.q = { s.quad w.q with bank := (t.quad w.q).bank }
  lanes : ∀ n, n < 32 → laneAt w'.lanes n =
    { (if s.iss.hnd then laneAt w.lanes n else mv n (laneAt w.lanes n)) with fpfl := (laneAt w.lanes n).fpfl ||| e n }
  noBank : s.iss.hnd = false → t.quads = s.quads
  bank : s.iss.hnd = true → ∀ b, (s.quad w.q).bank = some b → ∃ b', (t.quad w.q).bank = some b' ∧ b' = { b with lanes := b'.lanes, h := b'.h } ∧
    ∀ n, n < 32 → laneAt b'.lanes n = mv n (laneAt b.lanes n)

/-- `n` registers from `d` on written in lanes `act`, a uniform one once (R45); `val` gives a lane's words. Every other register and predicate stands. -/
structure WroteReg (s : State) (w : Warp) (act : Mask) (d n : Nat) (val : Nat → Nat → Word) (e : Nat → Exc) (t : State) (w' : Warp) : Prop where
  moved : Moved s w s.movedLane e t w'
  preds : w'.p = w.p
  dest : ∀ l, l < 32 → act.getLsbD l = true → ∀ k, k < n → t.reg w' (d + k) l = val (if isS d then lowestLane act else l) k
  rest : ∀ r l, l < 32 → ¬(d ≤ r ∧ r < d + n ∧ (isS d = true ∨ act.getLsbD l = true)) → t.reg w' r l = s.reg w r l

/-- Predicate `d` written in lanes `act`; every register and every other predicate bit stands. -/
structure WrotePred (s : State) (w : Warp) (act : Mask) (d : Nat) (val : Nat → Bool) (e : Nat → Exc) (t : State) (w' : Warp) : Prop where
  moved : Moved s w s.movedLane e t w'
  preds : ∀ q l, l < 32 → w'.pred q l = if q = d ∧ act.getLsbD l = true then val l else w.pred q l
  regs : ∀ r l, l < 32 → t.reg w' r l = s.reg w r l

end Sys2Proof.Machine
end

