-- ==== Sys2Proof/Certificates/Slice0/Obligations.lean ====
section
/-! DEFINITION. The statements for the provers, and the tables of results that they speak of. -/

namespace Sys2Proof.Claims

open Machine

/-! ## Operands of the tables (R37, R45, R47) -/

/-- srcA, srcB and dst of format R as lane `l` reads them. -/
def va (r : R3) (s : State) (w : Warp) (l : Nat) : Word := s.reg w r.a.toNat (r.p.lane .srcA l)
def vb (r : R3) (s : State) (w : Warp) (l : Nat) : Word := s.reg w r.b.toNat (r.p.lane .srcB l)
def vd (r : R3) (s : State) (w : Warp) (l : Nat) : Word := s.reg w r.d.toNat l
def ua (r : R2) (s : State) (w : Warp) (l : Nat) : Word := s.reg w r.a.toNat (r.p.lane .srcA l)

/-- A register pair in a lane (R43). -/
def pair (s : State) (w : Warp) (n l : Nat) : Word64 := s.reg w (n + 1) l ++ s.reg w n l

/-- A result of two sources. -/
def two (r : R3) (f : Word → Word → Word) : Option (Fld × (State → Warp → Nat → Word)) := some (r.d, fun s w l => f (va r s w l) (vb r s w l))

/-- A result of one source. -/
def one (r : R2) (f : Word → Word) : Option (Fld × (State → Warp → Nat → Word)) := some (r.d, fun s w l => f (ua r s w l))

/-- A word under a sign. -/
def val (g : Sgn) (x : Word) : Int := match g with | .s => x.toInt | .z => x.toNat

/-- Clamping to a range of integers. -/
def clamp (lo hi x : Int) : Word := BitVec.ofInt 32 (max lo (min hi x))

/-- The word whose bit `k` is `f k`. -/
def bitsFrom (f : Nat → Bool) : Word := BitVec.ofNat 32 (∑ k ∈ Finset.range 32, if f k then 2 ^ k else 0)

/-- Bit `j` of a source extended to 64 bits, and shifted in beyond them, under a sign (R142; log entry 21). -/
def extBit (g : Sgn) (a : Word) (j : Nat) : Bool := if j < 32 then a.getLsbD j else match g with | .s => a.getLsbD 31 | .z => false

/-- BFX: `n` bits from bit `p` on, the rest zero, or under .S32 the highest of them (R142). -/
def fieldOut (g : Sgn) (a b : Word) : Word :=
  let p := min (b.toNat % 256) 63
  let n := min (b.toNat / 256 % 256) 32
  bitsFrom fun k => if k < n then extBit g a (p + k) else match g with | .s => decide (n ≠ 0) && extBit g a (p + n - 1) | .z => false

/-- BFI: bits `p` to `p + n - 1` of the destination are the low bits of the source; a field that begins past bit 31 inserts none (R142). -/
def fieldIn (d a b : Word) : Word :=
  let p := b.toNat % 256
  let n := min (b.toNat / 256 % 256) 32
  bitsFrom fun k => if p ≤ k ∧ k < p + n then a.getLsbD (k - p) else d.getLsbD k

/-- A byte of a word, signed unless it is Z8. -/
def byteVal (unsigned : Bool) (x : Word) (i : Nat) : Int := let y : BitVec 8 := x.extractLsb' (8 * i) 8; if unsigned then y.toNat else y.toInt

/-! ## V integer results of one register (R141 to R143) -/

/-- The destination and the result in a lane of every integer instruction that writes one register. -/
def intWord : Instr → Option (Fld × (State → Warp → Nat → Word))
  | .iadd _ m r => two r fun a b => match m with
    | .wrap => a + b
    | .satS => clamp (-2 ^ 31) (2 ^ 31 - 1) (a.toInt + b.toInt)
    | .satZ => clamp 0 (2 ^ 32 - 1) (a.toNat + b.toNat)
  | .isub _ m r => two r fun a b => match m with
    | .wrap => a - b
    | .satS => clamp (-2 ^ 31) (2 ^ 31 - 1) (a.toInt - b.toInt)
    | .satZ => clamp 0 (2 ^ 32 - 1) ((a.toNat : Int) - b.toNat)
  | .imul _ r => two r fun a b => a * b
  | .imulh _ g r => two r fun a b => BitVec.ofInt 32 (val g a * val g b / 2 ^ 32)
  | .imad _ r => some (r.d, fun s w l => vd r s w l + va r s w l * vb r s w l)
  | .imin _ g r => two r fun a b => if val g a ≤ val g b then a else b
  | .imax _ g r => two r fun a b => if val g a ≤ val g b then b else a
  | .iabs _ sat r => one r fun a => if a = 0x80000000#32 then (if sat then 0x7FFFFFFF#32 else a) else BitVec.ofInt 32 |a.toInt|
  | .ishl _ r => two r fun a b => if b.toNat < 32 then a <<< b.toNat else 0
  | .lshr _ r => two r fun a b => if b.toNat < 32 then a >>> b.toNat else 0
  | .ishr _ r => two r fun a b => BitVec.ofInt 32 (a.toInt / 2 ^ min b.toNat 31)
  | .rot _ right r => two r fun a b => if right then a.rotateRight (b.toNat % 32) else a.rotateLeft (b.toNat % 32)
  | .and _ r => two r fun a b => a &&& b
  | .or _ r => two r fun a b => a ||| b
  | .xor _ r => two r fun a b => a ^^^ b
  | .andn _ r => two r fun a b => a &&& ~~~b
  | .popc _ r => one r fun a => BitVec.ofNat 32 ((List.range 32).filter a.getLsbD).length
  | .clz _ r => one r fun a => BitVec.ofNat 32 (if a = 0 then 32 else 31 - a.toNat.log2)
  | .brev _ r => one r fun a => bitsFrom fun k => a.getLsbD (31 - k)
  | .bfx _ g r => two r (fieldOut g)
  | .bfi _ r => some (r.d, fun s w l => fieldIn (vd r s w l) (va r s w l) (vb r s w l))
  | .sel _ inv p r => some (r.d, fun s w l => if w.pred p.toNat l != inv then va r s w l else vb r s w l)
  | .mov _ false r => one r id
  | .movi _ d imm => some (d, fun _ _ _ => imm)
  | .iaddi _ d a imm => some (d, fun s w l => s.reg w a.toNat l + imm.signExtend 32)
  | .idot4 _ sat ua ub r => some (r.d, fun s w l =>
      let x : Int := (vd r s w l).toInt + ∑ i ∈ Finset.range 4, byteVal ua (va r s w l) i * byteVal ub (vb r s w l) i
      if sat then clamp (-2 ^ 31) (2 ^ 31 - 1) x else BitVec.ofInt 32 x)
  | _ => none

/-! ## V integer results of a pair (R141, R143) -/

/-- A word widened to 64 bits under a sign. -/
def wide (g : Sgn) (x : Word) : Word64 := BitVec.ofInt 64 (val g x)

/-- The destination and the result of every integer instruction that writes a pair. -/
def intPair : Instr → Option (Fld × (State → Warp → Nat → Word64))
  | .imadw _ g r => some (r.d, fun s w l => pair s w r.d.toNat l + wide g (va r s w l) * wide g (vb r s w l))
  | .iadd64 _ r => some (r.d, fun s w l => pair s w r.a.toNat (r.p.lane .srcA l) + pair s w r.b.toNat (r.p.lane .srcB l))
  | .mov _ true r => some (r.d, fun s w l => pair s w r.a.toNat (r.p.lane .srcA l))
  | .movxw _ k d imm => some (d, fun _ _ _ => match k with
    | .s64 => BitVec.ofInt 64 imm.toInt
    | .z64 => BitVec.ofNat 64 imm.toNat
    | .hi => BitVec.ofNat 64 (imm.toNat * 2 ^ 32))
  | .lea _ g sh r => some (r.d, fun s w l => pair s w r.a.toNat (r.p.lane .srcA l) + wide g (vb r s w l) * BitVec.ofNat 64 (2 ^ sh.toNat))
  | _ => none

/-- The words of a pair, the even register first (R43). -/
def word (x : Word64) (k : Nat) : Word := if k = 0 then x.extractLsb' 0 32 else x.extractLsb' 32 32

/-! ## V float and narrow results (R145 to R157) -/

/-- A result of F32 sources with its exceptions. -/
abbrev FRes := Fld × Nat × (State → Warp → Nat → List Word × Exc)

def f2 (r : R3) (f : Word → Word → Word × Exc) : Option FRes :=
  some (r.d, 1, fun s w l => let x := f (va r s w l) (vb r s w l); ([x.1], x.2))

def f1 (r : R2) (f : Word → Word × Exc) : Option FRes := some (r.d, 1, fun s w l => let x := f (ua r s w l); ([x.1], x.2))

/-- Exact quantities once rounded (R125): the arithmetic of R146, R149 and R152. -/
def fltWord : Instr → Option FRes
  | .fadd _ m r => f2 r fun a b => to32 m (addQ m (f32 a) (f32 b))
  | .fsub _ m r => f2 r fun a b => to32 m (subQ m (f32 a) (f32 b))
  | .fmul _ m r => f2 r fun a b => to32 m (mulQ (f32 a) (f32 b))
  | .ffma _ m r => some (r.d, 1, fun s w l =>
      let x := to32 m (fmaQ m (f32 (va r s w l)) (f32 (vb r s w l)) (f32 (vd r s w l))); ([x.1], x.2))
  | .fdiv _ m r => f2 r fun a b => to32 m (divQ (f32 a) (f32 b))
  | .frcp _ m r => f1 r fun a => to32 m (rcpQ (f32 a))
  | .frsq _ m r => f1 r fun a => to32 m (rsqQ (f32 a))
  | .fsqrt _ m r => f1 r fun a => to32 m (sqrtQ (f32 a))
  | .fexp2 _ m r => f1 r fun a => to32 m (exp2Q (f32 a))
  | .flog2 _ m r => f1 r fun a => to32 m (log2Q (f32 a))
  | .hfma2 _ f m r => some (r.d, 1, fun s w l => halves (HFmt.fmt f) m fun h =>
      fmaQ m (half (HFmt.fmt f) h (va r s w l)) (half (HFmt.fmt f) h (vb r s w l)) (half (HFmt.fmt f) h (vd r s w l)))
  | .hadd2 _ f m r => some (r.d, 1, fun s w l => halves (HFmt.fmt f) m fun h => addQ m (half (HFmt.fmt f) h (va r s w l)) (half (HFmt.fmt f) h (vb r s w l)))
  | .hmul2 _ f m r => some (r.d, 1, fun s w l => halves (HFmt.fmt f) m fun h => mulQ (half (HFmt.fmt f) h (va r s w l)) (half (HFmt.fmt f) h (vb r s w l)))
  | _ => none

/-- The float instructions that choose, classify or convert (R147, R148, R150, R151). -/
def fltMove : Instr → Option FRes
  | .fmin _ r => f2 r (minMax false)
  | .fmax _ r => f2 r (minMax true)
  | .fclass _ f r => f1 r fun a => (BitVec.ofNat 32 (match f with
    | .f32 => fclass F32 a.toNat
    | .f16 => fclass F16 (a.toNat % 2 ^ 16)
    | .bf16 => fclass BF16 (a.toNat % 2 ^ 16)), 0)
  | .frnd _ m r => f1 r (frnd m)
  | .fcvt _ k m r => f1 r (fcvt k m)
  | .ftoi _ g m r => f1 r (ftoi g m)
  | .itof _ g m r => f1 r (itof g m)
  | _ => none

/-- The sign that FSIGN gives (R151) from the signs of a and b. -/
def signOf : SignOp → Bool → Bool → Bool
  | .neg, a, _ => !a
  | .abs, _, _ => false
  | .cpy, _, b => b
  | .xor, a, b => a != b

/-- The narrow instructions that act lane by lane (R153 to R155, R157): a header comes from the lane of its block. -/
def narrow : Instr → Option FRes
  | .qdec _ f hi r => some (r.d, f.n, fun s w l =>
      let es := (List.range f.n).map fun i =>
        let v := elemV f ((va r s w l).toNat / 2 ^ (elemBits f * i) % 2 ^ elemBits f) (header hi (vb r s w (blockOf f l)))
        to32 .rne (v.qty, sigExc [v])
      (es.map (·.1), es.foldl (fun a y => a ||| y.2) 0))
  | .qenc _ f hi sat rz r => some (r.d, 1, fun s w l =>
      let es := (List.range f.n).map fun i =>
        encElem f sat rz (f32 (s.reg w (r.a.toNat + i) (r.p.lane .srcA l))) (header hi (vb r s w (blockOf f l)))
      ([BitVec.ofNat 32 (es.foldr (fun y a => a * 2 ^ elemBits f + y.1) 0)], es.foldl (fun a y => a ||| y.2) 0))
  | .qxtra _ op hi r => some (r.d, 1, fun s w l =>
      let a := va r s w l
      match op with
      | .scl => ([(to32 .rne ((elemV .e2m1 2 (header hi a)).qty, 0)).1], 0)
      | .xval => ([(to32 .rne ((elemV .e2m1 8 (header hi a)).qty, 0)).1], 0)
      | .setx =>
        let x := f32 (vb r s w l)
        let e := E4M3.round .rne true x.qty
        let b : Byte := BitVec.ofNat 8 e.1
        ([if hi then b ++ a.extractLsb' 0 24 else a.extractLsb' 16 16 ++ b ++ a.extractLsb' 0 8], e.2 ||| sigExc [x]))
  | _ => none

/-- What an instruction whose results come lane by lane leaves, when no exception that it raises is enabled to trap (R130). -/
def LaneResult (i : Instr) (s : State) (w : Warp) (act : Mask) (d : Fld) (n : Nat) (f : Nat → List Word × Exc) : Prop :=
  (∀ l, act.getLsbD l = true → (f (if isS d.toNat then lowestLane act else l)).2 &&& (laneAt w.lanes l).fpte = 0) →
    ∃ t w', exec i s = .next t ∧ WroteReg s w act d.toNat n (fun l k => (f l).1.getD k 0)
      (fun l => if act.getLsbD l then (f (if isS d.toNat then lowestLane act else l)).2 else 0) t w'

/-! ## Cross-lane results (R159 to R165) -/

/-- The instructions whose result every acting lane shares, as one value: destination, registers, words and exceptions. -/
def shared (s : State) (w : Warp) (act : Mask) : Instr → Option (Fld × Nat × (List Word × Exc))
  | .vote _ .bal neg d q => some (d, 1, [maskOf fun l => act.getLsbD l && (w.pred q.toNat l != neg)], 0)
  | .vred _ op m r => some (r.d, 1,
      let x := tree (combine op m) (lanes32.map fun l => if act.getLsbD l then some (ua r s w l, 0) else none)
      ([x.1], x.2))
  | .umov _ first wide r => some (r.d, if wide then 2 else 1,
      let k := if first then lowestLane act else (s.reg w r.b.toNat 0).toNat % 32
      let l := r.p.lane .srcA k
      (if wide then [s.reg w r.a.toNat l, s.reg w (r.a.toNat + 1) l] else [s.reg w r.a.toNat l], 0))
  | _ => none

/-- The lane that SHFL reads (R159). -/
def shflFrom (k : Shfl) (t l : Nat) : Nat :=
  match k with
  | .idx => t % 32
  | .up => if t ≤ l then l - t else l
  | .down => if l + t ≤ 31 then l + t else l
  | .xor => l ^^^ (t % 32)

/-- The cross-lane instructions whose result differs by lane. -/
def perLane (act : Mask) : Instr → Option FRes
  | .shfl _ k wide r => some (r.d, if wide then 2 else 1, fun s w l =>
      let g := shflFrom k (vb r s w l).toNat l
      (if wide then [s.reg w r.a.toNat g, s.reg w (r.a.toNat + 1) g] else [s.reg w r.a.toNat g], 0))
  | .vscan _ op m r => some (r.d, 1, fun s w l =>
      match (scanFrom (combine op m) none ((lanesOf act).map fun j => (j, ua r s w j))).find? fun y => y.1 = l with
      | some y => ([y.2.1], y.2.2)
      | none => ([], 0))
  | _ => none

/-! ## Predicate results (R143, R148, R160, R163) -/

/-- The destination, the value in a lane and the exceptions of every instruction that writes one predicate. -/
def predOf (act : Mask) : Instr → Option (Fld × (State → Warp → Nat → Bool × Exc))
  | .iset _ cc g r => some (r.d, fun s w l =>
      let a := val g (va r s w l)
      let b := val g (vb r s w l)
      (match cc with | .eq => a = b | .ne => a ≠ b | .lt => a < b | .le => a ≤ b | .gt => b < a | .ge => b ≤ a, 0))
  | .fset _ cc r => some (r.d, fun s w l => fcmp cc (va r s w l) (vb r s w l))
  | .plop _ tt d a b => some (d, fun _ w l => (tt.getLsbD ((if w.pred a.toNat l then 2 else 0) + (if w.pred b.toNat l then 1 else 0)), 0))
  | .vote _ .any neg d q => some (d, fun _ w _ => (lanes32.any fun l => act.getLsbD l && (w.pred q.toNat l != neg), 0))
  | .vote _ .all neg d q => some (d, fun _ w _ => (lanes32.all fun l => !act.getLsbD l || (w.pred q.toNat l != neg), 0))
  | _ => none

end Sys2Proof.Claims

open Sys2Proof Sys2Proof.Machine Sys2Proof.Claims

/-! # Results by lane -/

/-- R141 to R143: an integer instruction that acts writes its result in the acting lanes, a uniform one once, moves its issuing lanes past itself and
changes nothing else. -/
def Sys2Proof.Claims.IntegerWordResult : Prop :=
  ∀ i s w act d f, intWord i = some (d, f) → Acts i s w act →
    ∃ t w', exec i s = .next t ∧ WroteReg s w act d.toNat 1 (fun l _ => f s w l) (fun _ => 0) t w'

/-- R141, R143, R43: the same of the integer instructions that write a pair. -/
def Sys2Proof.Claims.IntegerPairResult : Prop :=
  ∀ i s w act d f, intPair i = some (d, f) → Acts i s w act →
    ∃ t w', exec i s = .next t ∧ WroteReg s w act d.toNat 2 (fun l k => word (f s w l) k) (fun _ => 0) t w'

/-- R43, R141 to R143: an integer or bit instruction that acts writes its result, a word or a pair, in the acting lanes, a uniform one once, moves its issuing
lanes past itself and changes nothing else. That BFX.S32 shifts in the sign beyond bit 63 of its extended source is the model's choice (log entry 21, DEDUCED). -/
def Obligations.IntegerResult : Prop := Sys2Proof.Claims.IntegerWordResult ∧ Sys2Proof.Claims.IntegerPairResult

/-- R130, R143, R148, R160, R163: a predicate is written in the acting lanes, with FSET's exceptions, when none of them is enabled to trap. -/
def Obligations.PredicateResult : Prop :=
  ∀ i s w act d f, predOf act i = some (d, f) → Acts i s w act →
    (∀ l, act.getLsbD l = true → (f s w l).2 &&& (laneAt w.lanes l).fpte = 0) →
    ∃ t w', exec i s = .next t ∧ WrotePred s w act d.toNat (fun l => (f s w l).1) (fun l => if act.getLsbD l then (f s w l).2 else 0) t w'

/-- R125, R130, R146, R149, R152: float arithmetic writes the exact quantity once rounded, and grows FPFL of the acting lanes by its exceptions. -/
def Sys2Proof.Claims.FloatArithmeticResult : Prop :=
  ∀ i s w act d n f, fltWord i = some (d, n, f) → Acts i s w act → LaneResult i s w act d n (f s w)

/-- R147, R148, R150: the same of the float instructions that choose, classify, round to integers or convert. -/
def Sys2Proof.Claims.FloatMoveResult : Prop :=
  ∀ i s w act d n f, fltMove i = some (d, n, f) → Acts i s w act → LaneResult i s w act d n (f s w)

/-- R125, R130, R146 to R150, R152: float arithmetic, comparison, choice, classification, rounding and conversion write their result in the acting lanes and grow
FPFL by its exceptions; nothing else changes. -/
def Obligations.FloatResult : Prop := Sys2Proof.Claims.FloatArithmeticResult ∧ Sys2Proof.Claims.FloatMoveResult

/-- R151: FSIGN gives bit 31, and with .H2 bit 15 too, the sign that its operation names, moves every other bit unchanged and raises nothing; srcB of .NEG
and .ABS is zero. -/
def Obligations.FsignMovesSigns : Prop :=
  (∀ c op h2 r, Instr.wf (.fsign c op h2 r) = true → op = .neg ∨ op = .abs → r.b = 0) ∧
  ∀ c op h2 r s w act, Acts (.fsign c op h2 r) s w act →
    ∃ t w', exec (.fsign c op h2 r) s = .next t ∧ ∃ v : Nat → Word, WroteReg s w act r.d.toNat 1 (fun l _ => v l) (fun _ => 0) t w' ∧
      ∀ l k, k < 32 → (v l).getLsbD k =
        if k = 31 ∨ (h2 = true ∧ k = 15) then signOf op ((va r s w l).getLsbD k) ((vb r s w l).getLsbD k) else (va r s w l).getLsbD k

/-- R130, R153 to R155, R157: QDEC, QENC and QXTRA write their elements. -/
def Obligations.NarrowResult : Prop :=
  ∀ i s w act d n f, narrow i = some (d, n, f) → Acts i s w act → LaneResult i s w act d n (f s w)

/-- R156: QSCALE writes header j of its block in lane j alone, in the half that it names; the other half stands. -/
def Obligations.QscaleWritesHeaders : Prop :=
  ∀ c f hi xv r s w act, Acts (.qscale c f hi xv r) s w act →
    ∃ t w', exec (.qscale c f hi xv r) s = .next t ∧ Moved s w s.movedLane (fun _ => 0) t w' ∧ w'.p = w.p ∧
      ∀ n l, l < 32 → t.reg w' n l =
        if n = r.d.toNat ∧ act.getLsbD l = true ∧ l < nBlocks f then
          (let per := 32 / nBlocks f
           let xs := ((List.range per).map (· + per * l)).flatMap fun m => (List.range f.n).map fun k => s.reg w (r.a.toNat + k) (r.p.lane .srcA m)
           let h := BitVec.ofNat 16 (qscale f xv xs)
           let old := s.reg w n l
           if hi then h ++ old.extractLsb' 0 16 else old.extractLsb' 16 16 ++ h)
        else s.reg w n l

/-- R159 to R162, R165: SHFL and VSCAN write each acting lane's own result; VOTE.BAL, VRED and UMOV give every acting lane one result. -/
def Obligations.CrossLaneResult : Prop :=
  (∀ i s w act d n f, perLane act i = some (d, n, f) → Acts i s w act → LaneResult i s w act d n (f s w)) ∧
  (∀ i s w act d n x, shared s w act i = some (d, n, x) → Acts i s w act → LaneResult i s w act d n (fun _ => x))

/-- R164: PMOV.R gives each acting lane the number whose bits 0 to 15 are its sixteen predicates, and takes no uniform destination; PMOV.P gives each
acting lane the sixteen predicates that bits 0 to 15 of its source hold, every register stands, and its dst field is zero. -/
def Obligations.PmovMovesPredicates : Prop :=
  (∀ c r s w act, Acts (.pmov c false r) s w act →
    ∃ t w', exec (.pmov c false r) s = .next t ∧ WroteReg s w act r.d.toNat 1
      (fun l _ => BitVec.ofNat 32 (∑ n ∈ Finset.range 16, if w.pred n l then 2 ^ n else 0)) (fun _ => 0) t w') ∧
  (∀ c r g hnd, isS r.d.toNat = true → regsOk (.pmov c false r) g hnd = false) ∧
  (∀ c r s w act, Acts (.pmov c true r) s w act →
    ∃ t w', exec (.pmov c true r) s = .next t ∧ Moved s w s.movedLane (fun _ => 0) t w' ∧
      (∀ n l, l < 32 → w'.pred n l = if n < 16 ∧ act.getLsbD l = true then (ua r s w l).getLsbD n else w.pred n l) ∧
      ∀ n l, l < 32 → t.reg w' n l = s.reg w n l) ∧
  ∀ c r, Instr.wf (.pmov c true r) = true → r.d = 0

/-! # Movement, causes and control -/

namespace Sys2Proof.Claims

/-- Every register and predicate of a warp stands. -/
def Still (s : State) (w : Warp) (t : State) (w' : Warp) : Prop := w'.p = w.p ∧ ∀ n l, l < 32 → t.reg w' n l = s.reg w n l

/-- Lanes of `m` moved by `f`. -/
def inMask (m : Mask) (f : Nat → Lane → Lane) (n : Nat) (l : Lane) : Lane := if m.getLsbD n then f n l else l

/-- How lanes move where those of `act` transfer to their targets and the other issuing lanes go on (R110 to R112). -/
def goes (s : State) (act : Mask) (target : Nat → Nat) (n : Nat) (l : Lane) : Lane :=
  if act.getLsbD n then { l with hdr := target n, idx := 0 } else s.movedLane n l

/-- The instructions that a warp issues, but for those that synchronise on a convergence register (R108). -/
def ordinary (i : Instr) : Bool :=
  (encode i).isSome && match i with | .mma _ _ _ _ _ _ | .mmalr _ _ _ _ _ _ _ | .adapt _ _ _ _ _ => false | _ => true

/-- The instructions whose descriptions add to illegal-operand a condition on the warp's block (R239, R260, R301). -/
def asksBlock : Instr → Bool
  | .livept _ _ _ _ _ _ | .bar _ _ _ _ _ | .cbar _ _ _ _ | .aclr _ _ | .arow _ _ _ _ | .arowSt _ _ _ _ | .aflag _ _ _ _ => true
  | _ => false

/-- The guarded lanes trap, and the other issuing lanes go on (R56, R288). -/
def trapped (s : State) (w : Warp) (act : Mask) (cls cause addr info : Nat) : State :=
  (s.trapAll w act cls cause addr info).advance w (s.iss.lanes &&& ~~~act)

end Sys2Proof.Claims

/-- R101: lanes of the issue that advance take the next position, and nothing else of the machine changes. -/
def Sys2Proof.Claims.AdvanceMovesLanes : Prop :=
  ∀ (s : State) (w : Warp) m, s.issWarp = some w → lanesWhole s w →
    ∃ w', Moved s w (inMask m fun _ => Lane.goto (nextPos s.iss.hdr s.iss.idx s.iss.count)) (fun _ => 0) (s.advance w m) w' ∧
      Still s w (s.advance w m) w'

/-- R288: outside a handler the lanes of a trap are parked with their positions and join one sub-warp of their class and issue; nothing else changes. -/
def Sys2Proof.Claims.TrapParksLanes : Prop :=
  ∀ (s : State) (w : Warp) cls ts, s.warp? w.id = some w → w.lanes.length = 32 → ts ≠ [] →
    ∃ w', s.takeTrap w false cls ts = { s with warps := (s.takeTrap w false cls ts).warps } ∧ (s.takeTrap w false cls ts).warp? w.id = some w' ∧
      (∀ j, j ≠ w.id → (s.takeTrap w false cls ts).warp? j = s.warp? j) ∧
      w' = { w with lanes := w'.lanes, traps := joinTrap cls s.nextId ts w.traps } ∧
      ∀ n, n < 32 → laneAt w'.lanes n =
        if ts.any (fun t => t.lane = n) then { laneAt w.lanes n with park := .trap, passed := 0 } else laneAt w.lanes n

/-- R290, R291, R293, R298: a trap in a handler escalates: a record of kind 2 with the trap's class and cause, and the removal of the context. -/
def Sys2Proof.Claims.TrapInHandlerEscalates : Prop :=
  ∀ (s : State) (w : Warp) c cls t ts, s.ctx? w.ctx = some c → c.phase = .running →
    s.takeTrap w true cls (t :: ts) =
      (s.cfEnter c.group c.grid { kind := 2, cause := cls, flags := 0, warp := w.wi, lanes := (trapMask (t :: ts)).toNat, pos := s.iss.hdr + 8 * s.iss.idx,
                                  block := ((s.block? w.blk).map (·.lin)).getD 0, count := t.cause, image := c.img, addr := t.addr }).startRemoval w.ctx 1

/-- R288, R290, R291, R293, R298: a trap outside a handler parks its lanes as one sub-warp of its class; a trap in a handler escalates. -/
def Obligations.TrapsPark : Prop := Sys2Proof.Claims.TrapParksLanes ∧ Sys2Proof.Claims.TrapInHandlerEscalates

/-- R6, R46, R51, R56, R315: the causes in their order: an instruction that the mode forbids, one with an illegal register, and, where it is checked, one that
does not keep its stall counts; with no guarded lane it only advances, or traps for its stall counts alone (log entry 74, the model's). An instruction that voids
its block's idempotence does so whether or not it then traps. -/
def Obligations.CausesInOrder : Prop :=
  ∀ i (s : State) w act, ordinary i = true → s.issWarp = some w → s.iss.lanes ≠ 0#32 → act = s.guarded w (common i).guard →
    ((readKeys i).any (w.undue s.iss.now) = false ∨ s.interlocked w s.iss.hnd = true ∨ ((s.ctx? w.ctx).map (·.chk)).getD false = true) →
    let u := if act = 0#32 then s else s.void w i
    (act ≠ 0#32 → modeOk i s.iss.hnd = false → exec i s = .next (trapped u w act tILLEGAL 0 0 0)) ∧
    (act ≠ 0#32 → modeOk i s.iss.hnd = true → regsOk i w.gran s.iss.hnd = false → exec i s = .next (trapped u w act tOPERAND 0 0 0)) ∧
    (act = 0#32 ∨ (modeOk i s.iss.hnd = true ∧ regsOk i w.gran s.iss.hnd = true ∧ asksBlock i = false) →
      s.interlocked w s.iss.hnd = false → ((s.ctx? w.ctx).map (·.chk)).getD false = true → stallShort w s.iss.now i = true →
      exec i s = .next (u.trapAll w s.iss.lanes tSTALL 0 0 0)) ∧
    (act = 0#32 → stallShort w s.iss.now i = false ∨ s.interlocked w s.iss.hnd = true → exec i s = .next (s.advance w s.iss.lanes))

/-- R51: outside a checked context, a register or predicate read before its result is due gives the old value or the new one, whole in each lane: what is
recorded for a lane is one of them, it is recorded for every key that the instruction reads too early and for no other, and the issue reads what is recorded. -/
def Obligations.EarlyReadIsOldOrNew : Prop :=
  (∀ (s : State) w i k l, s.iss.early = [] → l < 32 →
    (∀ x, sget none (32 * k + l) (s.lookEarly w i).iss.early = some x →
      x = s.keyVal w k l ∨ ∃ f ∈ w.fixed, f.reg = k ∧ s.iss.now < f.due ∧ x = f.old.getD l 0) ∧
    (k ∈ readKeys i → (∃ f ∈ w.fixed, f.reg = k ∧ s.iss.now < f.due) → (sget none (32 * k + l) (s.lookEarly w i).iss.early).isSome = true) ∧
    (k ∉ readKeys i ∨ (∀ f ∈ w.fixed, f.reg = k → f.due ≤ s.iss.now) → sget none (32 * k + l) (s.lookEarly w i).iss.early = none)) ∧
  ∀ (s : State) w n l,
    (∀ x, sget none (32 * n + l) s.iss.early = some x → s.rd w n l = x) ∧ (sget none (32 * n + l) s.iss.early = none → s.rd w n l = s.reg w n l) ∧
    (∀ x, sget none (32 * (1024 + n) + l) s.iss.early = some x → s.rdP w n l = decide (x ≠ 0)) ∧
    (sget none (32 * (1024 + n) + l) s.iss.early = none → s.rdP w n l = w.pred n l)

namespace Sys2Proof.Claims

/-- The acting lanes of which `p` holds. -/
def picked (act : Mask) (p : Nat → Prop) [DecidablePred p] : Mask := maskOf fun l => act.getLsbD l && decide (p l)

/-- The registers of lanes written as `val` says where `here` holds; nothing else changes, but for results not yet due. -/
def WroteSome (s : State) (w : Warp) (here : Nat → Nat → Prop) (val : Nat → Nat → Word) (u : State) : Prop :=
  ∃ w', Moved s w (fun _ l => l) (fun _ => 0) u w' ∧ w'.p = w.p ∧
    ∀ n l, l < 32 → (here n l → u.reg w' n l = val n l) ∧ (¬here n l → u.reg w' n l = s.reg w n l)

/-- The warp's results not yet due noted by `g`. -/
def noted (s : State) (w : Warp) (g : List Fixed → List Fixed) : State := s.onWarp w.id fun x => { x with fixed := g x.fixed }

end Sys2Proof.Claims

/-- R144: MOVX reads, and MOVX.ST writes, the register whose number a lane computes; the warp's next instruction waits for MOVX's writes. A lane whose number
names no register of the warp traps, that lane alone; the others take their results. -/
def Obligations.MovxResult : Prop :=
  (∀ c d a b s w act, Acts (.movx c d a b) s w act →
    let no (l : Nat) : Nat := a.toNat + (s.reg w b.toNat l).toNat
    let bad := picked act fun l => min 640 (64 * w.gran) ≤ no l
    ∃ u g, WroteSome s w (fun n l => n = d.toNat ∧ act.getLsbD l = true ∧ no l < min 640 (64 * w.gran)) (fun _ l => s.reg w (no l) l) u ∧
      exec (.movx c d a b) s = .next (noted (((u.trapAll w bad 2 0 0 0).advance w (s.iss.lanes &&& ~~~bad)).movxHold w) w g)) ∧
  (∀ c d a b s w act, Acts (.movxSt c d a b) s w act →
    let no (l : Nat) : Nat := d.toNat + (s.reg w b.toNat l).toNat
    let bad := picked act fun l => min 640 (64 * w.gran) ≤ no l
    ∃ u g, WroteSome s w (fun n l => n = no l ∧ act.getLsbD l = true ∧ no l < min 640 (64 * w.gran)) (fun _ l => s.reg w a.toNat l) u ∧
      exec (.movxSt c d a b) s = .next (noted (((u.trapAll w bad 2 0 0 0).advance w (s.iss.lanes &&& ~~~bad)).movxHold w) w g)) ∧
  (∀ c d a b s w act, Acts (.movx c d a b) s w act →
    (∀ l, act.getLsbD l = true → a.toNat + (s.reg w b.toNat l).toNat < min 640 (64 * w.gran)) →
    ∃ t w', exec (.movx c d a b) s = .next (t.movxHold w) ∧
      WroteReg s w act d.toNat 1 (fun l _ => s.reg w (a.toNat + (s.reg w b.toNat l).toNat) l) (fun _ => 0) t w') ∧
  ∀ c d a b s w act, Acts (.movxSt c d a b) s w act →
    (∀ l, act.getLsbD l = true → d.toNat + (s.reg w b.toNat l).toNat < min 640 (64 * w.gran)) →
    ∃ t w', exec (.movxSt c d a b) s = .next (t.movxHold w) ∧ Moved s w s.movedLane (fun _ => 0) t w' ∧ w'.p = w.p ∧
      ∀ n l, l < 32 → t.reg w' n l =
        if act.getLsbD l = true ∧ n = d.toNat + (s.reg w b.toNat l).toNat then s.reg w a.toNat l else s.reg w n l

namespace Sys2Proof.Claims

/-- Every instruction that raises floating-point exceptions and writes registers: destination, registers, and each lane's words and exceptions. -/
def raising (s : State) (w : Warp) (act : Mask) (i : Instr) : Option (Fld × Nat × (Nat → List Word × Exc)) :=
  match fltWord i, fltMove i, narrow i, perLane act i, shared s w act i with
  | some (d, n, f), _, _, _, _ | none, some (d, n, f), _, _, _ | none, none, some (d, n, f), _, _ | none, none, none, some (d, n, f), _ => some (d, n, f s w)
  | none, none, none, none, some (d, n, x) => some (d, n, fun _ => x)
  | _, _, _, _, _ => none

/-- Lanes of the issue whose exceptions their FPTE enables. -/
def enabled (w : Warp) (act : Mask) (e : Nat → Exc) (l : Nat) : Bool := act.getLsbD l && decide (e l &&& (laneAt w.lanes l).fpte ≠ (0 : Exc))

/-- What an issue with enabled exceptions leaves of its warp (R130): the lanes that raise one have joined a sub-warp of class 0, parked where they stand; every
other issuing lane has moved on, its flags grown; `w'` is the warp. -/
structure SomeTrapped (s : State) (w : Warp) (act : Mask) (e : Nat → Exc) (t : State) (w' : Warp) : Prop where
  only : t = { s with warps := t.warps }
  warp : t.warp? w.id = some w'
  others : ∀ j, j ≠ w.id → t.warp? j = s.warp? j
  same : w' = { w with v := w'.v, s := w'.s, p := w'.p, lanes := w'.lanes, fixed := w'.fixed, traps := w'.traps }
  traps : w'.traps = joinTrap tARITH s.nextId (((List.range 32).filter (enabled w act e)).map fun l => TrapLane.of l 0 0 (e l).toNat s.iss.word) w.traps
  lanes : ∀ l, l < 32 → laneAt w'.lanes l =
    if enabled w act e l then { laneAt w.lanes l with park := .trap, passed := 0 }
    else { s.movedLane l (laneAt w.lanes l) with fpfl := (laneAt w.lanes l).fpfl ||| if act.getLsbD l then e l else 0 }

end Sys2Proof.Claims

/-- R130: outside a handler, a lane with an exception that its FPTE enables traps with its exceptions as the cause's information and keeps its destination and FPFL;
the other lanes take their results. A uniform destination is written as long as one guarded lane does not trap. The same holds of float arithmetic, conversions,
narrow formats, reductions and scans, and of FSET's predicate. -/
def Obligations.EnabledExceptionsTrap : Prop :=
  (∀ i s w act d n f, raising s w act i = some (d, n, f) → Acts i s w act → s.iss.hnd = false →
    let g (l : Nat) : List Word × Exc := f (if isS d.toNat then lowestLane act else l)
    let bad := enabled w act fun l => (g l).2
    (∃ l, l < 32 ∧ bad l = true) →
    ∃ t w', exec i s = .next t ∧ SomeTrapped s w act (fun l => (g l).2) t w' ∧ w'.p = w.p ∧
      ∀ r l, l < 32 → t.reg w' r l =
        if d.toNat ≤ r ∧ r < d.toNat + n ∧ (if isS d.toNat then ∃ k, k < 32 ∧ act.getLsbD k = true ∧ bad k = false else act.getLsbD l = true ∧ bad l = false)
        then (g l).1.getD (r - d.toNat) 0 else s.reg w r l) ∧
  ∀ c cc r s w act d f, predOf act (.fset c cc r) = some (d, f) → Acts (.fset c cc r) s w act → s.iss.hnd = false →
    let bad := enabled w act fun l => (f s w l).2
    (∃ l, l < 32 ∧ bad l = true) →
    ∃ t w', exec (.fset c cc r) s = .next t ∧ SomeTrapped s w act (fun l => (f s w l).2) t w' ∧
      (∀ q l, l < 32 → w'.pred q l = if q = d.toNat ∧ act.getLsbD l = true ∧ bad l = false then (f s w l).1 else w.pred q l) ∧
      ∀ q l, l < 32 → t.reg w' q l = s.reg w q l

/-- R110: BRA takes every guarded lane to the recorded clause header at H + 8 × Offset, or raises illegal-clause in each of them with its position left;
the other issuing lanes go on. -/
def Obligations.BraTransfersLanes : Prop :=
  (∀ c off s w act, Acts (.bra c off) s w act →
    (∀ a : Nat, (a : Int) = s.iss.hdr + 8 * off.toInt → s.recorded w a = true →
      ∃ t w', exec (.bra c off) s = .next t ∧ Moved s w (goes s act fun _ => a) (fun _ => 0) t w' ∧ Still s w t w') ∧
    ((∀ a : Nat, (a : Int) = s.iss.hdr + 8 * off.toInt → s.recorded w a = false) → exec (.bra c off) s = .next (trapped s w act tCLAUSE 0 0 0))) ∧
  decode 0x8402_0000_0000_6000#64 = .ok (.bra { stall := 0, guard := .onTrue 0 } 6)

/-- R111: CALL writes the next clause header's address to its link pair and takes every guarded lane to its target; where the target is no recorded
header it raises illegal-clause and stops. -/
def Obligations.CallLinksAndTransfers : Prop :=
  ∀ c off link s w act, Acts (.call c off link) s w act →
    (∀ a : Nat, (a : Int) = s.iss.hdr + 8 * off.toInt → s.recorded w a = true →
      ∃ t w', exec (.call c off link) s = .next t ∧ Moved s w (goes s act fun _ => a) (fun _ => 0) t w' ∧ w'.p = w.p ∧
        (∀ l, l < 32 → act.getLsbD l = true → ∀ k, k < 2 →
          t.reg w' (link.toNat + k) l = word (BitVec.ofNat 64 (s.iss.hdr + 8 * (s.iss.count + 2))) k) ∧
        ∀ r l, l < 32 → ¬(link.toNat ≤ r ∧ r < link.toNat + 2 ∧ (isS link.toNat = true ∨ act.getLsbD l = true)) → t.reg w' r l = s.reg w r l) ∧
    ((∀ a : Nat, (a : Int) = s.iss.hdr + 8 * off.toInt → s.recorded w a = false) →
      exec (.call c off link) s = .next (s.trapAll w act tCLAUSE 0 0 0))

/-- R112: BRX and RET take each guarded lane to the recorded header that its own pair names, and raise illegal-clause in the others, whether all of them, some or
none name one. -/
def Obligations.IndirectTransfer : Prop :=
  ∀ i c a p s w act, i = Instr.brx c a p ∨ i = Instr.ret c a p → Acts i s w act →
    let x (l : Nat) : Nat := (pair s w a.toNat (p.lane .srcA l)).toNat
    ((∀ l, act.getLsbD l = true → x l < 2 ^ 52 ∧ s.recorded w (x l) = true) →
      ∃ t w', exec i s = .next t ∧ Moved s w (goes s act x) (fun _ => 0) t w' ∧ Still s w t w') ∧
    ((∀ l, act.getLsbD l = true → 2 ^ 52 ≤ x l ∨ s.recorded w (x l) = false) → exec i s = .next (trapped s w act tCLAUSE 0 0 0)) ∧
    let bad := picked act fun l => 2 ^ 52 ≤ x l ∨ s.recorded w (x l) = false
    ∃ t w', Moved s w (inMask (act &&& ~~~bad) fun n l => { l with hdr := x n, idx := 0 }) (fun _ => 0) t w' ∧ Still s w t w' ∧
      exec i s = .next ((t.trapAll w bad tCLAUSE 0 0 0).advance w (s.iss.lanes &&& ~~~act))

/-- R48, R105, R116: NOP has no effect beyond advancing the issuing lanes, its stall count holds the warp's next issue, and YIELD also gives up the next
slot; every field of [43:0] of both is zero. -/
def Sys2Proof.Claims.NopAndYieldAdvance : Prop :=
  (∀ c s w act, Acts (.nop c) s w act → exec (.nop c) s = .next (s.advance w s.iss.lanes)) ∧
  (∀ c s w act, Acts (.yield c) s w act → s.iss.hnd = false →
    exec (.yield c) s = .next ((s.onWarp w.id fun x => { x with pace := { x.pace with yielded := true } }).advance w s.iss.lanes)) ∧
  (∀ c s w act, Acts (.yield c) s w act → s.iss.hnd = true →
    exec (.yield c) s = .next ((s.onBank w.q fun x => { x with pace := { x.pace with yielded := true } }).advance w s.iss.lanes)) ∧
  (∀ (s s0 : State) w w', s.issWarp = some w → s.iss.hnd = false → s.iss.arrives = false → (s.finishIssue s0).warp? w.id = some w' →
    w'.pace.notBefore = s.iss.now + (s.iss.word.extractLsb' 50 4).toNat ∧ w'.pace.readySince = none) ∧
  ∀ w c, decode w = .ok (.nop c) ∨ decode w = .ok (.yield c) → w.extractLsb' 0 44 = 0#44

/-- R48, R101, R105, R116: lanes that advance take the next position and nothing else changes; NOP and YIELD have no other effect. -/
def Obligations.LanesAdvance : Prop := Sys2Proof.Claims.AdvanceMovesLanes ∧ Sys2Proof.Claims.NopAndYieldAdvance

/-- R107, R113, R256, R292: EXIT marks each guarded lane exited, the other issuing lanes go on, the failures of a warp whose last lane has exited move to its block
(R256, R292), and the completion test runs on every convergence register (R107). -/
def Obligations.ExitRemovesLanes : Prop :=
  ∀ c s w act, Acts (.exit c) s w act →
    ∃ t w', Moved s w (fun n l => if act.getLsbD n then { l with exited := true } else s.movedLane n l) (fun _ => 0) t w' ∧ Still s w t w' ∧
      exec (.exit c) s = .next ([0, 1, 2, 3, 4, 5, 6, 7].foldl (fun u k => u.converge w.id k) (if w'.allExited then t.moveFails w' else t))

/-- R107, R114: CDECL gives DECL its mask and the completion test runs; while the register is signed it raises illegal-operand and stops, the other issuing lanes
staying at it (log entry 40, DEDUCED). -/
def Sys2Proof.Claims.CdeclDeclares : Prop :=
  (∀ c d a p s w act, Acts (.cdecl c d a p) s w act → sget 0 d.toNat w.signed = 0#32 →
    exec (.cdecl c d a p) s =
      .next (((s.onWarp w.id fun x => { x with decl := sput 0 d.toNat (s.reg w a.toNat 0) x.decl }).advance w s.iss.lanes).converge w.id d.toNat)) ∧
  (∀ c d s w act, Acts (.cdeclIss c d) s w act → sget 0 d.toNat w.signed = 0#32 →
    exec (.cdeclIss c d) s =
      .next (((s.onWarp w.id fun x => { x with decl := sput 0 d.toNat act x.decl }).advance w s.iss.lanes).converge w.id d.toNat)) ∧
  (∀ c d a p s w act, Acts (.cdecl c d a p) s w act → sget 0 d.toNat w.signed ≠ 0#32 →
    exec (.cdecl c d a p) s = .next (s.trapAll w act tOPERAND 0 0 0)) ∧
  ∀ c d s w act, Acts (.cdeclIss c d) s w act → sget 0 d.toNat w.signed ≠ 0#32 → exec (.cdeclIss c d) s = .next (s.trapAll w act tOPERAND 0 0 0)

/-- R107, R115: the guarded lanes of DECL sign; with CSIGN they park, with CSIGN.NW they go on; then the completion test runs. -/
def Sys2Proof.Claims.CsignSigns : Prop :=
  (∀ c a s w act, Acts (.csign c a) s w act →
    ∃ (t : State) (w' : Warp), exec (.csign c a) s = .next (t.converge w.id a.toNat) ∧ t = { s with warps := t.warps } ∧ t.warp? w.id = some w' ∧
      (∀ j, j ≠ w.id → t.warp? j = s.warp? j) ∧
      w' = { w with lanes := w'.lanes, signed := sput 0 a.toNat (sget 0 a.toNat w.signed ||| (act &&& sget 0 a.toNat w.decl)) w.signed } ∧
      ∀ n, n < 32 → laneAt w'.lanes n =
        if (act &&& sget 0 a.toNat w.decl).getLsbD n then { laneAt w.lanes n with park := .conv a.toNat, passed := 0 }
        else s.movedLane n (laneAt w.lanes n)) ∧
  ∀ c a s w act, Acts (.csignNw c a) s w act →
    exec (.csignNw c a) s = .next (((s.onWarp w.id fun x =>
      { x with signed := sput 0 a.toNat (sget 0 a.toNat x.signed ||| (act &&& sget 0 a.toNat w.decl)) x.signed }).advance w s.iss.lanes).converge w.id a.toNat)

/-- R107: the completion test releases nothing while a declared lane that has not exited has not signed, or none has signed; when every one has, SIGNED
falls to zero, lanes parked at a CSIGN go on past it, and lanes parked at a synchronising instruction are released into its one issue. -/
def Sys2Proof.Claims.CompletionReleasesTheSet : Prop :=
  ∀ (s : State) (w : Warp) c, s.warp? w.id = some w → w.lanes.length = 32 →
    let g := sget 0 c w.signed
    let due (n : Nat) : Bool := (sget 0 c w.decl).getLsbD n && !(laneAt w.lanes n).exited
    ((g = 0#32 ∨ ∃ n, due n = true ∧ g.getLsbD n = false) → s.converge w.id c = s) ∧
    (g ≠ 0#32 → (∀ n, due n = true → g.getLsbD n = true) →
      ∃ w', (s.converge w.id c).warp? w.id = some w' ∧ sget 0 c w'.signed = 0#32 ∧
        ∀ n, n < 32 → laneAt w'.lanes n =
          let l := laneAt w.lanes n
          if l.exited = false ∧ l.park = .conv c then
            { l with hdr := (nextPos l.hdr l.idx (s.countAt w l.hdr)).1, idx := (nextPos l.hdr l.idx (s.countAt w l.hdr)).2, park := .run, passed := 0 }
          else if l.exited = false ∧ l.park = .sync c then { l with park := .due c, passed := 0 }
          else l)

/-- R107, R114, R115, and log entry 40 (DEDUCED: where CDECL traps the other issuing lanes stay at it): a convergence set is declared and signed, and it is released
once every declared lane has signed or exited. -/
def Obligations.ConvergenceSets : Prop := Sys2Proof.Claims.CdeclDeclares ∧ Sys2Proof.Claims.CsignSigns ∧ Sys2Proof.Claims.CompletionReleasesTheSet

/-- R117, R286: BRK and TRAP raise the breakpoint and the software class in each guarded lane, with imm19 as the information that the handler receives; the
other issuing lanes go on. -/
def Obligations.BrkAndTrapTrap : Prop :=
  (∀ c code s w act, Acts (.brk c code) s w act → exec (.brk c code) s = .next (trapped s w act 10 0 0 code.toNat)) ∧
  ∀ c code s w act, Acts (.trap c code) s w act → exec (.trap c code) s = .next (trapped s w act 11 0 0 code.toNat)

/-! # System instructions -/

namespace Sys2Proof.Claims

/-- The context of a warp. -/
def ctxOf (s : State) (w : Warp) : Ctx := (s.ctx? w.ctx).getD Ctx.init

/-- The engine of a core runs narrowed for a context (R230 to R232): a fifth column has failed, or the context is not governed and the alarm holds, as it stood
when the operation under way was last started (log entry 91). -/
def engineNarrow (s : State) (core : Nat) (governed : Bool) : Bool :=
  decide (4 < (s.core core).deadCol.length) || (!governed &&
    if s.mats.any fun m => m.slow.isSome && decide (m.org.core = core) then ((s.core core).narrow).getD s.alarm.isSome else s.alarm.isSome)

/-- A control register's words in a lane (R302, R303). -/
def control (s : State) (w : Warp) (n l k : Nat) : Word :=
  match n with
  | 0 => (laneAt w.lanes l).fpte.zeroExtend 32
  | 1 => (laneAt w.lanes l).fpfl.zeroExtend 32
  | 2 => BitVec.ofNat 32 ((if (ctxOf s w).chk then 1 else 0) + if (ctxOf s w).inter then 2 else 0)
  | 3 => word (BitVec.ofNat 64 (ctxOf s w).adtb) k
  | 4 => word (BitVec.ofNat 64 (ctxOf s w).htab) k
  | 5 => word (BitVec.ofNat 64 (ctxOf s w).rdst) k
  | 6 => BitVec.ofNat 32 (ctxOf s w).qsel
  | 7 => BitVec.ofNat 32 (256 * w.quad + (if s.stopping w then 32 else 0) + (if s.iss.hnd then 16 else 0) +
      (if s.interlocked w s.iss.hnd then 8 else 0) + (if (s.core w.core).retired then 4 else 0) + (if s.governs w then 2 else 0) +
      if engineNarrow s w.core (ctxOf s w).governed then 1 else 0)
  | _ => BitVec.ofNat 32 (2 ^ 16 * s.coreWidth w.core + ∑ j ∈ Finset.range 4, 16 ^ j * min 15 (s.quad (4 * w.core + j)).beats)

/-- The destination and words of every instruction that reads the machine (R300 to R303, R306), but for CLOCK.CYC. -/
def sysRead : Instr → Option (Fld × Nat × (State → Warp → Nat → Nat → Word))
  | .featq _ d n => some (d, 1, fun s w _ _ => BitVec.ofNat 32 (match n.toNat with
    | 12 => (s.allCores.filter fun c => !(s.core c).retired).length
    | 13 => s.coreWidth w.core
    | 14 => (s.cluster (w.core / 8)).clock
    | 15 => if s.governs w then 2 else if engineNarrow s w.core (ctxOf s w).governed then 1 else 0
    | k => (ctxOf s w).h.view.getD k 0))
  | .sysr _ d n => if n.toNat ≤ 8 then some (d, if 3 ≤ n.toNat ∧ n.toNat ≤ 5 then 2 else 1, fun s w => control s w n.toNat) else none
  | .clock _ true d => some (d, 2, fun s _ _ => word (BitVec.ofNat 64 s.ns))
  | .pmc _ d e => some (d, 2, fun s w _ => word (BitVec.ofNat 64 (sget 0 e.toNat (((s.block? w.blk).map (·.pmc)).getD []))))
  | _ => none

/-- What HGET reads in a lane (R304). -/
def handled (k : HKind) (x : Fld) (s : State) (w : Warp) (l j : Nat) : Word :=
  match k with
  | .vreg => s.reg w (s.reg w x.toNat l).toNat l
  | .pred => BitVec.ofNat 32 (∑ n ∈ Finset.range 16, if w.pred n l then 2 ^ n else 0)
  | .fpfl => (laneAt w.lanes l).fpfl.zeroExtend 32
  | .fpte => (laneAt w.lanes l).fpte.zeroExtend 32
  | .pos => word (BitVec.ofNat 64 ((laneAt w.lanes l).hdr % 2 ^ 52 + 2 ^ 56 * ((laneAt w.lanes l).idx % 32))) j

/-- Each lane of the warp changed by `f`, then the issuing lanes moved past the instruction; nothing else changes. -/
def SetLanes (s : State) (w : Warp) (f : Nat → Lane → Lane) (t : State) : Prop :=
  ∃ (u : State) (w' : Warp), t = u.advance w s.iss.lanes ∧ u = { s with warps := u.warps } ∧ u.warp? w.id = some w' ∧
    (∀ j, j ≠ w.id → u.warp? j = s.warp? j) ∧ w' = { w with lanes := w'.lanes } ∧ w'.lanes.length = 32 ∧
    ∀ n, n < 32 → laneAt w'.lanes n = f n (laneAt w.lanes n)

/-- One control register of the warp's context set, and the issuing lanes moved on. -/
def setCtx (s : State) (w : Warp) (f : Ctx → Ctx) : State := (s.onCtx w.ctx f).advance w s.iss.lanes

/-- Lanes whose VREG index the warp does not hold (R304). -/
def outside (x : Fld) (s : State) (w : Warp) (act : Mask) : Mask :=
  maskOf fun l => act.getLsbD l && decide (64 * w.gran ≤ (s.reg w x.toNat l).toNat)

/-- A record of kind 2: lanes that escalate (R291, R293). -/
def escalated (s : State) (w : Warp) (c : Ctx) (m : Mask) (cls cause pos addr : Nat) : State :=
  (s.cfEnter c.group c.grid { kind := 2, cause := cls, flags := 0, warp := w.wi, lanes := m.toNat, pos := pos,
                              block := ((s.block? w.blk).map (·.lin)).getD 0, count := cause, image := c.img, addr := addr }).startRemoval w.ctx 1

end Sys2Proof.Claims

/-- R300 to R303, R306: FEATQ, SYSR, CLOCK and PMC write what they read in the acting lanes. FEATQ word 15 and STAT give a governed warp's own state before the
narrowed engine's (log entry 33, DEDUCED). CLOCK.CYC reads its core's count of cycles, never below what that core last read nor below the issuing quadrant's own
cycle, and by what amount above them is free (log entry 6, DESIGN CHOICE). -/
def Sys2Proof.Claims.SystemReads : Prop :=
  (∀ i s w act d n f, sysRead i = some (d, n, f) → Acts i s w act →
    ∃ t w', exec i s = .next t ∧ WroteReg s w act d.toNat n (fun l k => f s w l k) (fun _ => 0) t w') ∧
  ∀ c d s w act, Acts (.clock c false d) s w act →
    ∃ (v : Nat) (t : State) (w' : Warp), exec (.clock c false d) s = .next t ∧ (s.core w.core).cyc ≤ v ∧ s.iss.now ≤ v ∧
      t.core w.core = { s.core w.core with cyc := v } ∧ (∀ k, k ≠ w.core → t.core k = s.core k) ∧
      WroteReg { s with cores := t.cores, free := t.free } w act d.toNat 2 (fun _ k => word (BitVec.ofNat 64 v) k) (fun _ => 0) t w'

/-- R302, R303, R267: SYSW writes FPTE or FPFL of each guarded lane, or one of the context's registers; a misaligned address or a slice of queues that does
not fit is a data abort of cause 2; of the other registers a write has no effect but the advance (log entry 32, DEDUCED). -/
def Sys2Proof.Claims.SystemWrites : Prop :=
  ∀ c a n s w act, Acts (.sysw c a n) s w act →
    let y := (pair s w a.toNat 0).toNat
    let x := (s.reg w a.toNat 0).toNat
    let bad := trapped s w act 7 2 0 0
    (n = 0 → ∃ t, exec (.sysw c a n) s = .next t ∧
      SetLanes s w (fun l y => if act.getLsbD l then { y with fpte := (s.reg w a.toNat l).extractLsb' 0 5 } else y) t) ∧
    (n = 1 → ∃ t, exec (.sysw c a n) s = .next t ∧
      SetLanes s w (fun l y => if act.getLsbD l then { y with fpfl := (s.reg w a.toNat l).extractLsb' 0 5 } else y) t) ∧
    (n = 3 → exec (.sysw c a n) s = .next (if y % 32 = 0 then setCtx s w fun c => { c with adtb := y } else bad)) ∧
    (n = 4 → exec (.sysw c a n) s = .next (if y % 128 = 0 then setCtx s w fun c => { c with htab := y } else bad)) ∧
    (n = 5 → exec (.sysw c a n) s = .next (if y % 8 = 0 then setCtx s w fun c => { c with rdst := y } else bad)) ∧
    (n = 6 → exec (.sysw c a n) s = .next
      (if x % 64 + x / 256 % 128 ≤ 64 then setCtx s w fun c => { c with qsel := x % 64 + 256 * (x / 256 % 128) } else bad)) ∧
    (n ∉ [0, 1, 3, 4, 5, 6] → exec (.sysw c a n) s = .next (s.advance w s.iss.lanes))

/-- R230 to R232, R267, R300 to R303, R306, with log entries 6 (CLOCK.CYC's amount), 32 (SYSW of a register that only reads) and 33 (FEATQ word 15 and STAT): what
FEATQ, SYSR, CLOCK and PMC read, and what SYSW writes. -/
def Obligations.SystemRegisters : Prop := Sys2Proof.Claims.SystemReads ∧ Sys2Proof.Claims.SystemWrites

/-- R304: HGET reads a register, the predicates, the flags or the position of the trapped lane, and HSET writes them, each guarded lane its own; a register
that the warp does not hold is illegal. -/
def Sys2Proof.Claims.HandlerLaneState : Prop :=
  (∀ c k d x s w act, Acts (.hget c k d x) s w act →
    (k = .vreg ∧ outside x s w act ≠ 0#32 → exec (.hget c k d x) s = .next (s.trapAll w (outside x s w act) 2 0 0 0)) ∧
    (k ≠ .vreg ∨ outside x s w act = 0#32 →
      ∃ t w', exec (.hget c k d x) s = .next t ∧ WroteReg s w act d.toNat (if k = .pos then 2 else 1) (handled k x s w) (fun _ => 0) t w')) ∧
  (∀ c k d x s w act, Acts (.hset c k d x) s w act →
    let v (l : Nat) : Word := s.reg w d.toNat l
    let p (l : Nat) : Word64 := pair s w d.toNat l
    (k = .vreg → outside x s w act ≠ 0#32 → exec (.hset c k d x) s = .next (s.trapAll w (outside x s w act) 2 0 0 0)) ∧
    (k = .vreg → (∀ l, act.getLsbD l = true → (s.reg w x.toNat l).toNat < min 640 (64 * w.gran)) →
      ∃ t w', exec (.hset c k d x) s = .next t ∧ Moved s w s.movedLane (fun _ => 0) t w' ∧ w'.p = w.p ∧
        ∀ n l, l < 32 → t.reg w' n l = if act.getLsbD l = true ∧ n = (s.reg w x.toNat l).toNat then v l else s.reg w n l) ∧
    (k = .pred → ∃ t w', exec (.hset c k d x) s = .next t ∧ Moved s w s.movedLane (fun _ => 0) t w' ∧
      (∀ n l, l < 32 → w'.pred n l = if n < 16 ∧ act.getLsbD l = true then (v l).getLsbD n else w.pred n l) ∧
      ∀ n l, l < 32 → t.reg w' n l = s.reg w n l) ∧
    (k = .fpfl → ∃ t, exec (.hset c k d x) s = .next t ∧
      SetLanes s w (fun l y => if act.getLsbD l then { y with fpfl := (v l).extractLsb' 0 5 } else y) t) ∧
    (k = .fpte → ∃ t, exec (.hset c k d x) s = .next t ∧
      SetLanes s w (fun l y => if act.getLsbD l then { y with fpte := (v l).extractLsb' 0 5 } else y) t) ∧
    (k = .pos → ∃ t, exec (.hset c k d x) s = .next t ∧
      SetLanes (s.onBank w.q fun b => { b with posSet := b.posSet ||| act }) w
        (fun l y => if act.getLsbD l then { y with hdr := ((p l).extractLsb' 0 52).toNat, idx := ((p l).extractLsb' 56 5).toNat } else y) t))

/-- R291, R305: HRET.RETRY takes each guarded lane back to its position, and HRET.SKIP past the instruction there, or, for a deferred data abort, to it; a
REDO that faulted then sends its void entry (R265; log entry 34, DEDUCED: SKIP after HSET POS counts from the position set, and one entry is sent for a uniform
REDO); a lane whose trap admits no skip, and every lane of HRET.ESC, escalates, with the place at which its handler was entered, whatever HSET has written; each
of them first raises illegal-clause in the lanes to which HSET gave a position of no instruction; the bank is free once the last lane has left it. -/
def Sys2Proof.Claims.HretReturns : Prop :=
  (∀ c s w act, Acts (.hretRetry c) s w act → s.posBad w act = 0#32 →
    exec (.hretRetry c) s = .next ((s.advance w (s.iss.lanes &&& ~~~act)).leaveHandler w act fun _ l => (l.hdr, l.idx))) ∧
  (∀ c s w act, Acts (.hretSkip c) s w act → s.posBad w act = 0#32 →
    (∀ l, act.getLsbD l = true → ((s.bankSub w).lane l).noSkip = false) →
    let cls := (s.bankSub w).cls
    let t := if cls = 5 ∨ cls = 6 ∨ cls = 7 then (lanesOf act).foldl (fun t l => t.redoSkip w ((s.bankSub w).lane l)) s else s
    exec (.hretSkip c) s = .next ((t.advance w (s.iss.lanes &&& ~~~act)).leaveHandler w act fun _ l =>
      if cls = 8 then (l.hdr, l.idx) else nextPos l.hdr l.idx (s.countAt w l.hdr))) ∧
  (∀ c i s w act, i = Instr.hretRetry c ∨ i = Instr.hretSkip c ∨ i = Instr.hretEsc c →
    Acts i s w act → s.posBad w act ≠ 0#32 →
    exec i s = .next (s.trapAll w (s.posBad w act) 3 0 0 0)) ∧
  (∀ c i s w act m x, Acts i s w act → s.ctx? w.ctx = some x → x.phase = .running →
    s.posBad w act = 0#32 → (i = Instr.hretEsc c ∧ m = act) ∨ (i = Instr.hretSkip c ∧ m ≠ 0#32 ∧ m = maskOf fun l => act.getLsbD l && ((s.bankSub w).lane l).noSkip) →
    let u := (s.bankSub w).lane (lowestLane m)
    exec i s = .next (escalated s w x m (s.bankSub w).cls u.cause
      (if (s.bankSub w).cls = 8 then u.fpos + 8 * u.fidx else
        let p := ((s.quad w.q).bank.bind fun b => b.entry[lowestLane m]?).getD (0, 0)
        p.1 + 8 * p.2) u.addr)) ∧
  ∀ (s : State) (w : Warp) (b : Bank) m p, s.warp? w.id = some w → w.lanes.length = 32 → (s.quad w.q).bank = some b → b.lanes.length = 32 →
    let t := s.leaveHandler w m p
    ∃ w', t = { s with warps := t.warps, quads := t.quads } ∧ t.warp? w.id = some w' ∧ w' = { w with lanes := w'.lanes } ∧
      (∀ n, n < 32 → laneAt w'.lanes n =
        let l := laneAt w.lanes n
        if m.getLsbD n then { l with hdr := (p n l).1, idx := (p n l).2, park := .run, passed := 0 } else l) ∧
      ((∀ n, n < 32 → m.getLsbD n = true ∨ (laneAt b.lanes n).exited = true) → (t.quad w.q).bank = none) ∧
      ((∃ n, n < 32 ∧ m.getLsbD n = false ∧ (laneAt b.lanes n).exited = false) →
        ∃ b', (t.quad w.q).bank = some b' ∧ b' = { b with lanes := b'.lanes } ∧
          ∀ n, n < 32 → laneAt b'.lanes n = if m.getLsbD n then { laneAt b.lanes n with exited := true } else laneAt b.lanes n)

/-- R265, R291, R304, R305, with log entry 34 (DEDUCED): a handler reads and writes the state of its trapped lanes, and returns them. -/
def Obligations.HandlersRunAndReturn : Prop := Sys2Proof.Claims.HandlerLaneState ∧ Sys2Proof.Claims.HretReturns

/-- R295, R301: LIVEPT advances; where a pre-emption is stopping the warp, its guarded lanes stop after it, with the granules and the ranges of the scratchpad
that it names noted; granules and ranges beyond the warp's are illegal. -/
def Obligations.LiveptStops : Prop :=
  ∀ c gm b0 l0 b1 l1 s w act, Acts (.livept c gm b0 l0 b1 l1) s w act →
    let i := Instr.livept c gm b0 l0 b1 l1
    let fits := (∀ n, n < 10 → gm.getLsbD n = true → n < w.gran) ∧ b0.toNat + l0.toNat ≤ ((s.ctx? w.ctx).map fun c => c.h.scratch).getD 0 ∧
      b1.toNat + l1.toNat ≤ ((s.ctx? w.ctx).map fun c => c.h.scratch).getD 0
    (¬fits → exec i s = .next (trapped s w act 2 0 0 0)) ∧
    (fits → s.iss.hnd = true ∨ s.stopping w = false → exec i s = .next (s.advance w s.iss.lanes)) ∧
    (fits → s.iss.hnd = false → s.stopping w = true →
      ∃ (t : State) (w' : Warp), exec i s = .next t ∧ t = { s with warps := t.warps } ∧ t.warp? w.id = some w' ∧
        (∀ j, j ≠ w.id → t.warp? j = s.warp? j) ∧
        w' = { w with lanes := w'.lanes, liveG := w.liveG ||| gm,
                      liveR := w.liveR ++ [(b0.toNat, l0.toNat), (b1.toNat, l1.toNat)].filter fun r => r.2 ≠ 0 } ∧
        ∀ n, n < 32 → laneAt w'.lanes n =
          if act.getLsbD n then { s.movedLane n (laneAt w.lanes n) with park := .stop, passed := 0 } else s.movedLane n (laneAt w.lanes n))

/-! # Memory -/

namespace Sys2Proof.Claims

/-- The instructions whose issue voids the idempotence of their block (R315). -/
def voiding : Instr → Bool
  | .atom _ _ _ | .redo _ _ _ | .qpush _ _ _ | .qpop _ _ _ _ | .notify _ _ _ _ _ | .gtrig _ _ _ => true
  | _ => false

/-- The block of a warp, its idempotence voided (R315). -/
def voided (s : State) (w : Warp) : State := s.onBlock w.blk fun b => { b with voided := true }

/-- The lanes that access memory: every guarded one, or the lowest for all of them in a uniform operation (R183). -/
def accessors (act : Mask) (u : Bool) : List Nat := if u then [lowestLane act] else lanesOf act

/-- The instructions on global memory: operands, bytes, kind of access, whether one access serves every lane, and a lane's access. -/
def globalOp (w : Warp) (act : Mask) : Instr → Option (MOp × Nat × Acc × Bool × (Nat → State → Ends × State))
  | .ld _ sx h m => some (m, sizeBytes m.size, .read, isS m.data.toNat, loadLane w m sx false h (if isS m.data.toNat then act else 0#32))
  | .ldro _ sx m => some (m, sizeBytes m.size, .read, isS m.data.toNat, loadLane w m sx true .dflt (if isS m.data.toNat then act else 0#32))
  | .st _ h m => some (m, sizeBytes m.size, .write, uniStore m, storeLane w m h (if uniStore m then act else 0#32))
  | .atom _ op m => some (m, sizeBytes m.size, .atomic, isS m.data.toNat, atomLane w op m (if isS m.data.toNat then act else 0#32))
  | .redo _ op m => some (m, sizeBytes m.size, .atomic, uniStore m, redoLane w op m (if uniStore m then act else 0#32))
  | .zline _ m => some (m, 256, .write, false, zlineLane w m)
  | _ => none

/-- The accesses of several lanes, one after another; none where one does not complete. -/
def runs (f : Nat → State → Ends × State) : List Nat → State → Option State
  | [], s => some s
  | l :: r, s => match f l s with
    | (.done, t) => runs f r t
    | _ => none

/-- How the accesses of several lanes end, one after another, and the state after them. -/
def endsOf (f : Nat → State → Ends × State) : List Nat → State → List (Nat × Ends) × State
  | [], s => ([], s)
  | l :: r, s => ((l, (f l s).1) :: (endsOf f r (f l s).2).1, (endsOf f r (f l s).2).2)

/-- What a lane's end hands to the handler of a class, if it is a trap of it. -/
def trapOf (cls l : Nat) (mk : Nat → Nat → Nat → TrapLane) : Ends → Option TrapLane
  | .trap c k va => if c = cls then some (mk k va l) else none
  | _ => none

/-- The 64-bit address of a lane (R167). -/
def address (m : MOp) (s : State) (w : Warp) (l : Nat) : Word64 := pair s w m.base.toNat l + m.off.signExtend 64

/-- REDO looks at its stream before its address (R263). -/
def streamOk (i : Instr) (m : MOp) (s : State) (w : Warp) (l : Nat) : Bool :=
  match i with | .redo _ _ _ => decide (redoStream s w m l < 4096) | _ => true

/-- The request that a lane sends to device memory of which its core holds no copy, and whether it is counted (R252). -/
def sends (s : State) (w : Warp) (l : Nat) : Instr → Option (ReqK × Bool)
  | .ld _ sx h m => some (.load m.data (sizeBytes m.size) sx false (decide (h ≠ .cg)) (decide (h = .ef)), false)
  | .ldro _ sx m => some (.load m.data (sizeBytes m.size) sx true false false, false)
  | .st _ h m => some (.store (storeBytes s w m l) (decide (h = .ef)), true)
  | .atom _ op m => some (.atom op m.data (sizeBytes m.size) (atomArgs s w op m l).1 (atomArgs s w op m l).2, true)
  | .redo _ op m =>
    some (.redo op (sizeBytes m.size) (redoX s w m l) (redoTicket s w m l) (redoStream s w m l) (s.rdst w) (address m s w l).toNat false, true)
  | .zline _ _ => some (.zline, true)
  | _ => none

/-- A scratchpad instruction: operands, and whether one access serves every lane. -/
def scratchOp : Instr → Option (MOp × Bool)
  | .lds _ _ m => some (m, isS m.data.toNat)
  | .sts _ m => some (m, uniStore m)
  | .atoms _ _ m => some (m, isS m.data.toNat)
  | _ => none

/-- A lane's address in the scratchpad (R166). -/
def scratchAddr (m : MOp) (s : State) (w : Warp) (l : Nat) : Nat := (s.reg w m.base.toNat l + m.off.signExtend 32).toNat

/-- Scratchpad bytes of the warp's block. -/
def scratchAt (s : State) (w : Warp) (a n : Nat) : List Byte := readCells (((s.block? w.blk).map (·.scratch)).getD []) a n

/-- No word of the scratchpad of the warp's block is in error (R319). -/
def sound (s : State) (w : Warp) : Prop := ∀ b, s.block? w.blk = some b → b.badWords = []

/-- What a memory instruction's trap hands to the handler of a lane, with the place of a REDO that it may skip (R265). -/
def memTrap (s : State) (w : Warp) (act : Mask) (cause va l : Nat) : TrapLane :=
  { TrapLane.of l cause va 0 s.iss.word with redo := s.redoPlace w s.iss.word act l }

/-- The access keeps its alignment and lies in the block's scratchpad. -/
abbrev scratchFits (m : MOp) (s : State) (w : Warp) (l : Nat) : Prop :=
  scratchAddr m s w l % sizeBytes m.size = 0 ∧ scratchAddr m s w l + sizeBytes m.size ≤ s.scratchSize w

/-- Bytes written to the scratchpad of the warp's block, in order. -/
def scratched (s : State) (w : Warp) (ws : List (Nat × List Byte)) : State :=
  s.onBlock w.blk fun b => ws.foldl (fun b x => b.scratchPut x.1 x.2) b

/-- ATOMS's accesses in order: what each lane found, and what it wrote where. -/
def atomsRun (s : State) (w : Warp) (op : AtomOp) (m : MOp) : List Nat → Sparse Byte → List (Nat × Nat) × List (Nat × List Byte)
  | [], _ => ([], [])
  | l :: r, b =>
    let n := sizeBytes m.size
    let a := scratchAddr m s w l
    let o := ofBytes (readCells b a n)
    let v := toBytes n (atomNew op n o (atomArgs s w op m l).1 (atomArgs s w op m l).2)
    let q := atomsRun s w op m r (writeCells a v b)
    ((l, o) :: q.1, (a, v) :: q.2)

end Sys2Proof.Claims

/-- R167, R170, R183: where the accesses of all its lanes complete, LD, LDRO, ST, ATOM, REDO or ZLINE advances its issuing lanes. R315, R318: an ATOM, REDO, QPUSH,
QPOP, NOTIFY or GTRIG voids the idempotence of its block, and no other instruction does; of a group that waits to be stopped and started again the blocks are then
listed SUSPECT. -/
def Obligations.GlobalAccessCompletes : Prop :=
  (∀ i s w act m n a u f t, globalOp w act i = some (m, n, a, u, f) → Acts i s w act →
    runs f (accessors act u) (s.void w i) = some t → exec i s = .next (t.advance w s.iss.lanes)) ∧
  ∀ (s : State) w i,
    (voiding i = false → s.void w i = s) ∧
    (voiding i = true → (∀ g, s.warpGroup w = some g → g.again = false) → s.void w i = voided s w) ∧
    ∀ g c, voiding i = true → s.warpGroup w = some g → g.again = true → s.ctx? w.ctx = some c →
      s.void w i = ((voided s w).onCGroup g.id fun x => { x with again := false }).onGrid c.grid fun x => x.suspect (c.h.groupLins g.gidx)

/-- R167, R170: a lane's access is refused where bits 63 to 52 of its address are not zero, then where it is not aligned, then where its translation fails,
or waits for its page; it leaves memory and registers alone. Of one issue the lanes that trap form a sub-warp for each class, with their own causes and addresses,
and the others have their accesses and go on, whichever lanes they are. -/
def Obligations.GlobalAccessChecks : Prop :=
  (∀ i (t : State) w act m n a u f l, globalOp w act i = some (m, n, a, u, f) → t.iss.early = [] → streamOk i m t w l = true →
    let va := address m t w l
    let x := (t.coreXl w.core (t.groupOf w) va.toNat a).1
    (va.extractLsb' 52 12 ≠ 0#12 → f l t = (.trap 5 2 va.toNat, t)) ∧
    (va.extractLsb' 52 12 = 0#12 → va.toNat % n ≠ 0 → f l t = (.trap 6 0 va.toNat, t)) ∧
    (va.extractLsb' 52 12 = 0#12 → va.toNat % n = 0 →
      (∀ c, x = .fault c → (f l t).1 = .trap 5 c va.toNat) ∧ (x = .svc → (f l t).1 = .page va.toNat) ∧
      (∀ pa, x = .abort pa → (f l t).1 = .trap 7 8 va.toNat) ∧ ((∀ y ao, x ≠ .ok y ao) → (f l t).2.mem = t.mem ∧ (f l t).2.warps = t.warps))) ∧
  (∀ i (s : State) w act m n a u f, globalOp w act i = some (m, n, a, u, f) → Acts i s w act →
    let at_ (l : Nat) : Nat := if u then lowestLane act else l
    (∀ l ∈ accessors act u, streamOk i m s w l = true ∧ (address m s w l).extractLsb' 52 12 ≠ 0#12) →
    exec i s = .next (((s.void w i).takeTrap w s.iss.hnd 5 ((lanesOf act).map fun l =>
      memTrap s w act 2 (address m s w (at_ l)).toNat l)).advance w (s.iss.lanes &&& ~~~act))) ∧
  ∀ i (s : State) w act m n a u f, globalOp w act i = some (m, n, a, u, f) → Acts i s w act →
    let q := endsOf f (accessors act u) (s.void w i)
    let how (l : Nat) : Ends := ((q.1.find? fun x => x.1 = if u then lowestLane act else l).map (·.2)).getD .done
    (∀ x ∈ q.1, ∀ va, x.2 ≠ .page va) →
    exec i s = .next (([5, 6, 7].foldl (fun t cls => t.takeTrap w s.iss.hnd cls
      ((lanesOf act).filterMap fun l => trapOf cls l (memTrap s w act) (how l))) q.2).advance w (s.iss.lanes &&& ~~~picked act fun l => how l ≠ .done))

/-- R174, R183 to R191, R251: an access to device memory of which the core holds no copy leaves the core as one request, which holds the bytes, operands or
destination of its lane (that an access is one request, served later, is log entry 37, DESIGN CHOICE); a load that finds its sector in L1 may be answered by it at
once (whether it is, is free: log entry 12, DESIGN CHOICE), but not while an earlier load or atomic of its warp to the sector is out. -/
def Obligations.GlobalAccessRequests : Prop :=
  ∀ i (t : State) w act m n a u f l pa ao k counted, globalOp w act i = some (m, n, a, u, f) → sends t w l i = some (k, counted) → t.iss.early = [] →
    streamOk i m t w l = true →
    let va := address m t w l
    va.extractLsb' 52 12 = 0#12 → va.toNat % n = 0 → (t.coreXl w.core (t.groupOf w) va.toNat a).1 = .ok (.dev pa) ao → inAperture pa = false →
    let r := f l t
    let sent := r.1 = .done ∧ r.2.net.length = t.net.length + 1 ∧
      r.2.net.getLast? = some (t.request w k (.dev pa) va.toNat l (if u then act else 0#32) counted) ∧ r.2.mem = t.mem ∧ r.2.warps = t.warps
    (t.l1find w.core pa = none → (∀ x ∈ (t.core w.core).ro, x.1 ≠ pa / 256) → sent) ∧
    ∀ c sx h x, i = .ld c sx h m → h ≠ .cg → t.l1find w.core pa = some x →
      sent ∨ (r.1 = .done ∧ (∀ q ∈ t.net, q.org.warp = w.id → q.k.dst ≠ none → ¬∃ a, q.tgt = .dev a ∧ q.org.core = w.core ∧ a / 64 = pa / 64) ∧
        ∃ v : State, v.warps = t.warps ∧ v.net = t.net ∧ v.quads = t.quads ∧ v.mem = t.mem ∧ v.host = t.host ∧ v.remote = t.remote ∧
        r.2 = (v.put w m.data.toNat l (loadWords n sx (x.data.drop (pa % 64)))).count w.blk 2 1)

/-- R166, R167, R319: LDS gives each lane the bytes at its address; STS writes its bytes there, lanes in ascending order; ATOMS does both, each lane after the ones
below it; an access that is not aligned, or that leaves the block's scratchpad, traps in its lane, and in the other lanes it is done; an LDS or ATOMS that meets a
word in error goes on, and its deferred data abort is on its way. -/
def Obligations.ScratchpadResult : Prop :=
  (∀ c sx m s w act, Acts (.lds c sx m) s w act → m.size.toNat ≤ 4 → (∀ l ∈ accessors act (isS m.data.toNat), scratchFits m s w l) → sound s w →
    ∃ t w', exec (.lds c sx m) s = .next t ∧ WroteReg s w act m.data.toNat (sizeRegs m.size)
      (fun l k => (loadWords (sizeBytes m.size) sx (scratchAt s w (scratchAddr m s w l) (sizeBytes m.size))).getD k 0) (fun _ => 0) t w') ∧
  (∀ c m s w act, Acts (.sts c m) s w act → (∀ l ∈ accessors act (uniStore m), scratchFits m s w l) →
    exec (.sts c m) s = .next ((scratched s w ((accessors act (uniStore m)).map fun l =>
      (scratchAddr m s w l, storeBytes s w m l))).advance w s.iss.lanes)) ∧
  (∀ c op m s w act b, Acts (.atoms c op m) s w act → m.size = 2#3 ∨ m.size = 3#3 → (∀ l ∈ accessors act (isS m.data.toNat), scratchFits m s w l) →
    s.block? w.blk = some b → b.badWords = [] →
    let q := atomsRun s w op m (accessors act (isS m.data.toNat)) b.scratch
    ∃ t w', exec (.atoms c op m) s = .next t ∧
      WroteReg (scratched s w q.2) w act m.data.toNat
        (sizeBytes m.size / 4) (fun l k => (wordsN (sizeBytes m.size / 4) (((q.1.find? fun x => x.1 = l).map (·.2)).getD 0)).getD k 0) (fun _ => 0) t w') ∧
  (∀ i s w act m u, scratchOp i = some (m, u) → u = isS m.data.toNat → (∀ c, i ≠ .sts c m) → Acts i s w act → (∀ l ∈ accessors act u, scratchFits m s w l) →
    (∀ l ∈ accessors act u, s.scratchGet w.blk (scratchAddr m s w l) (sizeBytes m.size) = none) →
    exec i s = .next (((accessors act u).foldl (fun t l => t.scratchLost w m l (scratchAddr m s w l) (if u then act else 0#32)) s).advance w s.iss.lanes)) ∧
  (∀ (s : State) blk a n b, s.block? blk = some b →
    (s.scratchGet blk a n = none ↔ ∃ k ∈ b.badWords, 4 * k < a + n ∧ a < 4 * k + 4) ∧ ∀ d, s.scratchGet blk a n = some d → d = readCells b.scratch a n) ∧
  (∀ (s : State) w m l a uni, ∃ t : State, s.scratchLost w m l a uni = t ∧ t.msix = 0 :: s.msix ∧ t.warps = s.warps ∧ t.blocks = s.blocks ∧ t.mem = s.mem ∧
    t.net.length = s.net.length + 1 ∧ ∀ r, t.net.getLast? = some r → r.st = .failed 3 ∧ r.k.dst.isSome = true ∧ r.org.warp = w.id ∧ r.lane = l ∧ r.uni = uni ∧
      r.va = a ∧ r.hnd = s.iss.hnd ∧ r.word = s.iss.word ∧ r.hdr = s.iss.hdr ∧ r.idx = s.iss.idx) ∧
  (∀ i s w act m, scratchOp i = some (m, false) → Acts i s w act → sound s w →
    let fit := (lanesOf act).filter fun l => decide (scratchFits m s w l)
    let bent := (lanesOf act).filter fun l => decide (scratchAddr m s w l % sizeBytes m.size ≠ 0)
    let out := (lanesOf act).filter fun l => decide (scratchAddr m s w l % sizeBytes m.size = 0 ∧ s.scratchSize w < scratchAddr m s w l + sizeBytes m.size)
    let ends (u : State) : Host.Outcome State Fault Refusal :=
      .next (((u.takeTrap w s.iss.hnd 6 (bent.map fun l => memTrap s w act 0 (scratchAddr m s w l) l)).takeTrap w s.iss.hnd 7
        (out.map fun l => memTrap s w act 1 (scratchAddr m s w l) l)).advance w (maskOf fun l => s.iss.lanes.getLsbD l && !bent.contains l && !out.contains l))
    let here (n l : Nat) : Prop := m.data.toNat ≤ n ∧ l ∈ fit
    (∀ c sx, i = .lds c sx m → m.size.toNat ≤ 4 →
      ∃ u, exec i s = ends u ∧ WroteSome s w (fun n l => here n l ∧ n < m.data.toNat + sizeRegs m.size) (fun n l =>
        (loadWords (sizeBytes m.size) sx (scratchAt s w (scratchAddr m s w l) (sizeBytes m.size))).getD (n - m.data.toNat) 0) u) ∧
    (∀ c, i = .sts c m → exec i s = ends (scratched s w (fit.map fun l => (scratchAddr m s w l, storeBytes s w m l)))) ∧
    ∀ c op b, i = .atoms c op m → m.size = 2#3 ∨ m.size = 3#3 → s.block? w.blk = some b →
      let q := atomsRun s w op m fit b.scratch
      ∃ u, exec i s = ends u ∧ WroteSome (scratched s w q.2) w (fun n l => here n l ∧ n < m.data.toNat + sizeBytes m.size / 4) (fun n l =>
        (wordsN (sizeBytes m.size / 4) (((q.1.find? fun x => x.1 = l).map (·.2)).getD 0)).getD (n - m.data.toNat) 0) u) ∧
  ∀ i s w act m u, scratchOp i = some (m, u) → Acts i s w act →
    let at_ (l : Nat) : Nat := scratchAddr m s w (if u then lowestLane act else l)
    ((∀ l ∈ accessors act u, scratchAddr m s w l % sizeBytes m.size ≠ 0) →
      exec i s = .next ((s.takeTrap w s.iss.hnd 6 ((lanesOf act).map fun l => memTrap s w act 0 (at_ l) l)).advance w
        (s.iss.lanes &&& ~~~act))) ∧
    ((∀ l ∈ accessors act u, scratchAddr m s w l % sizeBytes m.size = 0 ∧ s.scratchSize w < scratchAddr m s w l + sizeBytes m.size) →
      exec i s = .next ((s.takeTrap w s.iss.hnd 7 ((lanesOf act).map fun l => memTrap s w act 1 (at_ l) l)).advance w
        (s.iss.lanes &&& ~~~act)))

namespace Sys2Proof.Claims

/-- The fills in flight of a core's read-only cache no longer enter it. -/
def roPoisoned (s : State) (core : Nat) : State :=
  { s with net := s.net.map fun r => if r.roFill = true ∧ r.org.core = core then { r with poison := true } else r }

/-- The adapters that a prefetch names: the distinct nonzero ids of its rows, ascending (R236, R245). -/
def namedIds (s : State) (w : Warp) (aux : Fld) : List Nat := (List.range 65536).filter fun g => g ≠ 0 ∧ g ∈ rowIds s w aux

/-- The fills that a prefetch starts. -/
def newFills (s : State) (w : Warp) (aux : Fld) (tag : Nat → Tag3) : List Fill :=
  let o := s.origin w s.iss.pos s.iss.lanes
  let a := (ctxOf s w).adtb
  ((namedIds s w aux).filter fun g => (s.onShelf (w.core / 8) o.group a (tag g)).isNone && !s.filling (w.core / 8) o.group a (tag g)).map fun g =>
    { cluster := w.core / 8, group := o.group, adtb := a, g := (tag g).1, slice := (tag g).2.1, cb := (tag g).2.2, op := none, org := o, started := false,
      tent := [], data := [] }

end Sys2Proof.Claims

/-- R185, R190, R218, R236, R245, R246, R319, R320: ROINV empties its core's read-only cache and RCFENCE the record cache of its cluster or of every cluster, with what
warps there have read of records ahead of their issue; PREF changes nothing but what a detected error leaves; ADPF starts a fill for every adapter that it names and
that is neither on the shelf nor on its way; ADPF.INV takes the entries of its cluster's shelf away, and ADPF.INVD those of every cluster's, but for one that an
entered operation uses, which goes when that commits, and fills in flight there begin anew (log entry 51, DEDUCED); nothing else of any cluster changes. -/
def Obligations.CacheInstructions : Prop :=
  (∀ c s w act, Acts (.roinv c) s w act →
    exec (.roinv c) s = .next ((roPoisoned (s.onCore w.core fun k => { k with ro := [] }) w.core).advance w s.iss.lanes)) ∧
  (∀ c l1 m s w act, Acts (.pref c l1 m) s w act → (s.badLines = [] → exec (.pref c l1 m) s = .next (s.advance w s.iss.lanes)) ∧
    ∃ t : State, exec (.pref c l1 m) s = .next (t.advance w s.iss.lanes) ∧
      t = { s with wordErr := t.wordErr, alogs := t.alogs, chanBad := t.chanBad, host := t.host, msix := t.msix }) ∧
  (∀ c dev s w act, Acts (.rcfence c dev) s w act → ∃ t : State, exec (.rcfence c dev) s = .next (t.advance w s.iss.lanes) ∧
    t = { s with clusters := t.clusters, warps := s.warps.map fun v => if dev = true ∨ v.core / 8 = w.core / 8 then { v with recs := [] } else v } ∧
    (scanon Cluster.init s.clusters = true →
      ∀ k, t.cluster k = if dev = true ∨ k = w.core / 8 then { s.cluster k with recs := [] } else s.cluster k)) ∧
  (∀ c n aux s w act, Acts (.adpfD c n aux) s w act → exec (.adpfD c n aux) s =
    .next ({ s with fills := s.fills ++ newFills s w aux fun g => (g, n.toNat, 0xFFFF) }.advance w s.iss.lanes)) ∧
  (∀ c n aux s w act, Acts (.adpfU c n aux) s w act → exec (.adpfU c n aux) s =
    .next ({ s with fills := s.fills ++ newFills s w aux fun g => (g, 0xFFFF, n.toNat) }.advance w s.iss.lanes)) ∧
  ∀ c i all s w act, i = Instr.adpfInv c ∧ all = false ∨ i = Instr.adpfInvd c ∧ all = true → Acts i s w act →
    let mine (k : Nat) : Prop := all = true ∨ k = w.core / 8
    ∃ t : State, exec i s = .next (t.advance w s.iss.lanes) ∧
      t = { s with clusters := t.clusters,
                   fills := s.fills.map fun f => if all || decide (f.cluster = w.core / 8) then { f with started := false, tent := [], data := [] } else f } ∧
      (scanon Cluster.init s.clusters = true → ∀ k,
        (mine k → t.cluster k = { s.cluster k with shelf := ((s.cluster k).shelf.map fun e => { e with dying := true }).filter s.shelfUsed }) ∧
        (¬mine k → t.cluster k = { s.cluster k with shelf := (s.cluster k).shelf.filter fun e => !e.dying || s.shelfUsed e }))

/-! # Synchronising -/

/-- R256, R257, R259, R254: FENCE writes the status word of its warp's and its block's failures and clears both; an acquire beyond the block throws the
core's L1 copies away. -/
def Obligations.FenceResult : Prop :=
  ∀ c k sc d s w act, Acts (.fence c k sc d) s w act →
    let n := min 255 (w.fail.count + (blockFail s w.blk).count)
    let cause := if w.fail.count ≠ 0 then w.fail.cause else (blockFail s w.blk).cause
    let a := if k = .rel ∨ sc = .blk then s else s.l1clear w.core
    let u := (a.onWarp w.id fun x => { x with fail := FailRec.none }).onBlock w.blk fun b => { b with fail := FailRec.none }
    ∃ t w', exec (.fence c k sc d) s = .next t ∧ WroteReg u { w with fail := FailRec.none } act d.toNat 1
      (fun _ _ => BitVec.ofNat 32 (if n = 0 then 0 else 1 + 2 * cause + 256 * n)) (fun _ => 0) t w'

namespace Sys2Proof.Claims

/-- An arrival that is refused: an expected count of 0, of more than 65,535, or another one than the barrier stands at (R260). -/
def miscounted (b : Bar) (e : Nat) : Prop := e = 0 ∨ 65535 < e ∨ (b ≠ Bar.idle ∧ b.expected ≠ e)

/-- The barrier that a BAR names, as it stands. -/
def barOf (s : State) (w : Warp) (n : BitVec 4) : Bar := sget Bar.idle n.toNat (((s.block? w.blk).map (·.bars)).getD [])

/-- The barrier set in the warp's block. -/
def setBar (s : State) (w : Warp) (n : BitVec 4) (b : Bar) : State := s.onBlock w.blk fun x => { x with bars := sput Bar.idle n.toNat b x.bars }

/-- The guarded lanes wait, the other issuing lanes go on. -/
def waits (s : State) (w : Warp) (act : Mask) (k : Park) : State := (s.parkHere w act k).advance w (s.iss.lanes &&& ~~~act)

end Sys2Proof.Claims

/-- R101, R260, R261: BAR counts an arrival of its warp, its lanes wait unless it is an arrival only, and the last arrival releases every waiting lane of the
block; a wrong count is a data abort, a barrier that the block lacks an illegal operand; a trap stops no other lane (log entry 49, DEDUCED). CBAR does so over the
blocks of its cluster group. A release moves the lanes that wait for its reason past their instruction, and no other lane; a warp that it releases from a CBAR owes
an acquire before it issues again (R254). -/
def Obligations.BarrierResult : Prop :=
  ((∀ c arv n a p s w act, Acts (.bar c arv n a p) s w act →
    let i := Instr.bar c arv n a p
    let e := (s.reg w a.toNat 0).toNat
    let b := barOf s w n
    let has := n.toNat < ((s.ctx? w.ctx).map fun c => c.h.bars).getD 0
    (¬has → exec i s = .next (trapped s w act 2 0 0 0)) ∧
    (has → miscounted b e → exec i s = .next (trapped s w act 7 4 0 0)) ∧
    (has → ¬miscounted b e → b.arrivals + 1 ≠ e →
      let t := setBar s w n { arrivals := b.arrivals + 1, expected := e }
      exec i s = .next (if arv then t.advance w s.iss.lanes else waits t w act (.bar n.toNat))) ∧
    (has → ¬miscounted b e → b.arrivals + 1 = e →
      exec i s = .next (((setBar s w n Bar.idle).releaseAll (fun v => v.blk = w.blk) (.bar n.toNat) .blk).advance w s.iss.lanes))) ∧
  ∀ c arv a p s w act, Acts (.cbar c arv a p) s w act →
    let i := Instr.cbar c arv a p
    ((∀ g, s.warpGroup w = some g → g.hasRec = false) → exec i s = .next (trapped s w act 2 0 0 0)) ∧
    ∀ g, s.warpGroup w = some g → g.hasRec = true →
      let e := (s.reg w a.toNat 0).toNat * g.size
      (miscounted g.cbar e → exec i s = .next (trapped s w act 7 4 0 0)) ∧
      (¬miscounted g.cbar e → g.cbar.arrivals + 1 ≠ e →
        let t := s.onCGroup g.id fun x => { x with cbar := { arrivals := g.cbar.arrivals + 1, expected := e } }
        exec i s = .next (if arv then t.advance w s.iss.lanes else waits t w act .cbar)) ∧
      (¬miscounted g.cbar e → g.cbar.arrivals + 1 = e →
        let t := s.onCGroup g.id fun x => { x with cbar := Bar.idle }
        let u := t.releaseAll (fun v => s.blockCg v.blk = g.id) .cbar .cl
        exec i s = .next ((if arv then u else u.l1clear w.core).advance w s.iss.lanes))) ∧
  (∀ (s : State) p k sc (v : Warp), (s.warps.map (·.id)).Nodup → v ∈ s.warps → v.lanes.length = 32 →
    let t := s.releaseAll p k sc
    ∃ v', t.warp? v.id = some v' ∧ (sc = .blk → v' = { v with lanes := v'.lanes }) ∧
      (sc ≠ .blk → v' = { v with lanes := v'.lanes, acq := v.acq || (p v && (List.range 32).any fun n => !(laneAt v.lanes n).exited &&
        decide ((laneAt v.lanes n).park = k)) }) ∧
      ∀ n, n < 32 → laneAt v'.lanes n =
        let l := laneAt v.lanes n
        let q := nextPos l.hdr l.idx (s.countAt v l.hdr)
        if p v = true ∧ l.exited = false ∧ l.park = k then { l with hdr := q.1, idx := q.2, park := .run, passed := 0 } else l)

namespace Sys2Proof.Claims

/-- A queue that a lane names, where its context may use one. -/
def queueNo (s : State) (w : Warp) (x : Word) : Nat := match s.queueOf w x.toNat with | .ok q => q | .error _ => 0

/-- One lane's QPUSH to a queue that admits it: an entry where there is room, and whether there was. -/
def pushLane (s : State) (w : Warp) (r : R3) (t : State) (l : Nat) : State :=
  match s.queueOf w (s.reg w r.b.toNat (r.p.lane .srcB l)).toNat with
  | .ok q =>
    let room := decide ((t.wqueue q).count < (t.wqueue q).slots)
    (if room then t.push q (pair s w r.a.toNat (r.p.lane .srcA l)) else t).wrP w r.d.toNat [(l, room)]
  | .error _ => t

/-- One lane's QPOP without a wait: the entry at HEAD, or a false predicate where there is none. -/
def popLane (s : State) (w : Warp) (r : R3) (t : State) (l : Nat) : State :=
  match s.queueOf w (s.reg w r.a.toNat (r.p.lane .srcA l)).toNat with
  | .ok q =>
    if (t.wqueue q).count = 0 then t.wrP w (r.b.toNat % 16) [(l, false)]
    else let e := t.popEntry q; (e.2.put w r.d.toNat l [word e.1 0, word e.1 1]).wrP w (r.b.toNat % 16) [(l, true)]
  | .error _ => t

/-- The lanes of a QPOP.WAIT in order: one that finds an entry pops it, one that finds none notes what it waits for and parks, whatever the lanes before it
found; the state that they leave and the lanes that wait. -/
def popsOrWaits (s : State) (w : Warp) (rlx : Bool) (r : R3) : List Nat → State → State × List Nat
  | [], t => (t, [])
  | l :: ls, t => match s.queueOf w (s.reg w r.a.toNat (r.p.lane .srcA l)).toNat with
    | .ok q =>
      if (t.wqueue q).count = 0 then
        let x : PopWait := { q := q, warp := w.id, lane := l, d := r.d, p := r.b.toNat % 16, acq := !rlx }
        let z := popsOrWaits s w rlx r ls (({ t with pops := t.pops ++ [x] } : State).parkHere w (1#32 <<< l) (.queue q))
        (z.1, l :: z.2)
      else popsOrWaits s w rlx r ls (popLane s w r t l)
    | .error _ => popsOrWaits s w rlx r ls t

/-- The lanes whose queue number refuses them, with the cause. -/
def refused (s : State) (w : Warp) (act : Mask) (n : Nat → Nat) : List TrapLane :=
  (lanesOf act).filterMap fun l => match s.queueOf w (n l) with | .error k => some (TrapLane.of l k 0 0 s.iss.word) | .ok _ => none

end Sys2Proof.Claims

/-- R254, R267 to R269, R315: QPUSH and QPOP act lane by lane, in ascending order, on the queues that their lanes name; QPOP.WAIT of an empty queue parks its lane
where it stands and notes what it waits for, and changes no register, predicate or memory; a queue that the context may not use traps. Entries are pushed at TAIL,
popped at HEAD, and both indices move on by one. Lanes of one issue that find entries, find none and may not use their queues each have their own end. A lane that
waits is served when an entry comes: it receives it and goes on. -/
def Obligations.QueuesPushAndPop : Prop :=
  (∀ c rlx r s w act, Acts (.qpush c rlx r) s w act →
    (∀ l, act.getLsbD l = true → ∃ q, s.queueOf w (s.reg w r.b.toNat (r.p.lane .srcB l)).toNat = .ok q) →
    exec (.qpush c rlx r) s = .next (((lanesOf act).foldl (pushLane s w r) (s.void w (.qpush c rlx r))).advance w s.iss.lanes)) ∧
  (∀ c wait rlx r s w act, Acts (.qpop c wait rlx r) s w act →
    (∀ l, act.getLsbD l = true → ∃ q, s.queueOf w (s.reg w r.a.toNat (r.p.lane .srcA l)).toNat = .ok q) →
    wait = false ∨ (∀ l q, act.getLsbD l = true → s.queueOf w (s.reg w r.a.toNat (r.p.lane .srcA l)).toNat = .ok q → 32 ≤ (s.wqueue q).count) →
    let t := ((lanesOf act).foldl (popLane s w r) (s.void w (.qpop c wait rlx r))).advance w s.iss.lanes
    exec (.qpop c wait rlx r) s = .next (if rlx then t else t.l1clear w.core)) ∧
  (∀ c rlx r s w act, Acts (.qpop c true rlx r) s w act →
    (∀ l, act.getLsbD l = true → ∃ q, s.queueOf w (s.reg w r.a.toNat (r.p.lane .srcA l)).toNat = .ok q ∧ (s.wqueue q).count = 0) →
    let q (l : Nat) : Nat := queueNo s w (s.reg w r.a.toNat (r.p.lane .srcA l))
    let u := s.void w (.qpop c true rlx r)
    ∃ (t : State) (w' : Warp), exec (.qpop c true rlx r) s = .next (if rlx then t else t.l1clear w.core) ∧
      t = { u with warps := t.warps, pops := s.pops ++ (lanesOf act).map fun l =>
        { q := q l, warp := w.id, lane := l, d := r.d, p := r.b.toNat % 16, acq := !rlx } } ∧
      t.warp? w.id = some w' ∧ (∀ j, j ≠ w.id → t.warp? j = s.warp? j) ∧ w' = { w with lanes := w'.lanes } ∧
      ∀ n, n < 32 → laneAt w'.lanes n =
        if act.getLsbD n then { laneAt w.lanes n with park := .queue (q n), passed := 0 } else s.movedLane n (laneAt w.lanes n)) ∧
  (∀ c rlx r s w act k, Acts (.qpush c rlx r) s w act →
    (∀ l, act.getLsbD l = true → s.queueOf w (s.reg w r.b.toNat (r.p.lane .srcB l)).toNat = .error k) →
    exec (.qpush c rlx r) s = .next (trapped (s.void w (.qpush c rlx r)) w act 7 k 0 0)) ∧
  (∀ c wait rlx r s w act k, Acts (.qpop c wait rlx r) s w act →
    (∀ l, act.getLsbD l = true → s.queueOf w (s.reg w r.a.toNat (r.p.lane .srcA l)).toNat = .error k) →
    let t := trapped (s.void w (.qpop c wait rlx r)) w act 7 k 0 0
    exec (.qpop c wait rlx r) s = .next (if rlx then t else t.l1clear w.core)) ∧
  (∀ c rlx r s w act, Acts (.qpush c rlx r) s w act →
    let bad := refused s w act fun l => (s.reg w r.b.toNat (r.p.lane .srcB l)).toNat
    exec (.qpush c rlx r) s = .next ((((lanesOf act).foldl (pushLane s w r) (s.void w (.qpush c rlx r))).takeTrap w s.iss.hnd 7 bad).advance w
      (s.iss.lanes &&& ~~~trapMask bad))) ∧
  (∀ c wait rlx r s w act, Acts (.qpop c wait rlx r) s w act →
    let bad := refused s w act fun l => (s.reg w r.a.toNat (r.p.lane .srcA l)).toNat
    let u := s.void w (.qpop c wait rlx r)
    let z := if wait then popsOrWaits s w rlx r (lanesOf act) u else ((lanesOf act).foldl (popLane s w r) u, [])
    let t := (z.1.takeTrap w s.iss.hnd 7 bad).advance w (maskOf fun l => s.iss.lanes.getLsbD l && !(trapMask bad).getLsbD l && !z.2.contains l)
    exec (.qpop c wait rlx r) s = .next (if rlx then t else t.l1clear w.core)) ∧
  (∀ (s : State) q v u, s.pops = [] →
    let x := s.wqueue q
    s.writeVa x.group (x.ring + 8 * (x.tail.toNat % x.slots)) (toBytes 8 v.toNat) .write = (u, none) →
    let t := u.onWq q fun y => { y with tail := y.tail + 1 }
    s.push q v = if x.wake = 0xFFFF then t else t.notify x.wake 1) ∧
  (∀ (s : State) q b, let x := s.wqueue q
    s.readVa x.group (x.ring + 8 * (x.head.toNat % x.slots)) 8 .read = .ok b →
    s.popEntry q = (BitVec.ofNat 64 (ofBytes b), s.onWq q fun y => { y with head := y.head + 1 })) ∧
  ∀ (s : State) q x w, s.pops = [x] → x.q = q → (s.wqueue q).count ≠ 0 → s.warp? x.warp = some w →
    let e := ({ s with pops := [] } : State).popEntry q
    let t := ((e.2.put w x.d.toNat x.lane [word e.1 0, word e.1 1]).wrP w x.p [(x.lane, true)]).passLanes w (1#32 <<< x.lane)
    State.servePops 1 q s = if x.acq then t.onWarp w.id fun y => { y with acq := true } else t

/-- R270: NOTIFY writes its pair to the notify register that it names, GTRIG writes 0 to a graph's trigger; a number out of range, or a register of another
group's class, is a data abort. -/
def Obligations.NotifyAndGtrig : Prop :=
  (∀ c k a b p s w act, Acts (.notify c k a b p) s w act →
    let n := (s.reg w b.toNat 0).toNat
    exec (.notify c k a b p) s = .next (
      let u := s.void w (.notify c k a b p)
      if 4095 < n then trapped u w act 7 1 0 0
      else if s.classGroup n ≠ s.groupOf w then trapped u w act 7 3 0 0
      else (u.notify n (pair s w a.toNat 0)).advance w s.iss.lanes)) ∧
  ∀ c a p s w act, Acts (.gtrig c a p) s w act →
    let n := (s.reg w a.toNat 0).toNat
    exec (.gtrig c a p) s = .next (
      let u := s.void w (.gtrig c a p)
      if 63 < n then trapped u w act 7 1 0 0
      else if s.classGroup n ≠ s.groupOf w then trapped u w act 7 3 0 0
      else (u.notify n 0).advance w s.iss.lanes)

/-! # Copies, tiles and the matrix engine -/

namespace Sys2Proof.Claims

/-- The copy instructions: token, descriptor's first register, the check of R196 and the copy. -/
def copyOp (s : State) (w : Warp) : Instr → Option (BitVec 3 × Option DescErr × CopyK)
  | .cpy _ sc k b => some (k, cpyCheck sc (descRegs s w b) (s.scratchSize w), .cpy sc (descRegs s w b))
  | .cpybt _ sc k b => some (k, btCheck (descRegs s w b) (s.scratchSize w), .cpybt sc (descRegs s w b))
  | _ => none

/-- The bytes from a side's base that a copy spans lie in its space. -/
def spans (scratch a n : Nat) : Prop := if 2 ^ 63 ≤ a then a - 2 ^ 63 + n ≤ scratch else a + n ≤ 2 ^ 52

/-- A side's address has zeros where its space has no address bits, and is aligned. -/
def sideAligned (a : Nat) : Prop := (if 2 ^ 63 ≤ a then a - 2 ^ 63 < 2 ^ 32 else a < 2 ^ 52) ∧ a % 4 = 0

/-- The warp's token one higher. -/
def moreToken (s : State) (w : Warp) (k : Nat) : State := s.onWarp w.id fun x => { x with tok := supd 0 k (· + 1) x.tok }

/-- A copy in flight, once for its warp. -/
def copying (s : State) (w : Warp) (tok : Nat) (k : CopyK) : State :=
  { s with nextId := s.nextId + 1, copies := s.copies ++ [{ id := s.nextId, k := k, tok := tok, org := s.origin w s.iss.pos s.iss.lanes,
                                                            started := false, snap := [] }] }

end Sys2Proof.Claims

/-- R192, R196, R198, R200: a copy whose descriptor passes its checks leaves the warp, its token counts it, and the issuing lanes go on; else every guarded
lane traps. A CPY's extents, addresses, alignment and ranges are what the checks ask for. TKWAIT goes on while its token is zero; else its guarded lanes
wait. -/
def Obligations.CopiesAndTokens : Prop :=
  ((∀ i s w act k e y, copyOp s w i = some (k, e, y) → Acts i s w act →
    (e = none → exec i s = .next ((moreToken (copying s w k.toNat y) w k.toNat).advance w s.iss.lanes)) ∧
    ∀ x, e = some x → exec i s = .next (trapped s w act x.1 x.2.1 x.2.2 0)) ∧
  ∀ sc d scratch, cpyCheck sc d scratch = none ↔
    let total := dLo d 4 * dHi d 4 * dLo d 5 * dHi d 5
    4 ≤ dLo d 4 ∧ dLo d 4 % 4 = 0 ∧ 1 ≤ total ∧ total ≤ 2 ^ 32 ∧ sideAligned (dAddr d 0) ∧ sideAligned (dAddr d 2) ∧ dw d 6 % 4 = 0 ∧
      spans scratch (dAddr d 0) (if sc then total else stridedSpan d) ∧ spans scratch (dAddr d 2) (if sc then stridedSpan d else total)) ∧
  (∀ c k s w act, Acts (.tkwait c k) s w act →
    exec (.tkwait c k) s = .next (if sget 0 k.toNat w.tok = 0 then s.advance w s.iss.lanes else waits s w act (.token k.toNat)))

namespace Sys2Proof.Claims

/-- What reading its record gives TDEF, TDEFS or TST: the name, whether the record and its tile lie in the scratchpad, the record, the state after. -/
def recordOf (s : State) (w : Warp) : Instr → Option (Nat × Bool × RecEnd × State)
  | .tdef _ t aux => some (t.toNat, false, (s.readRec w (pair s w aux.toNat 0)).1, (s.readRec w (pair s w aux.toNat 0)).2)
  | .tdefs _ t aux => some (t.toNat, true, (s.readRecS w (s.reg w aux.toNat 0).toNat).1, (s.readRecS w (s.reg w aux.toNat 0).toNat).2)
  | .tst _ _ t aux => some (t.toNat, false, (s.readRec w (pair s w aux.toNat 0)).1, (s.readRec w (pair s w aux.toNat 0)).2)
  | _ => none

/-- A definition at a name of a group (R208): the entry defining in its next generation, the name out of the free order, the record for the fetcher. -/
def Begun (s : State) (g : CGroup) (n : Nat) (r : List Byte) (scratch : Bool) (o : Origin) (t : State) : Prop :=
  t = { s with cgroups := t.cgroups, defs := t.defs } ∧
    t.defs = s.defs ++ [{ cg := g.id, name := n, gen := (g.entry n).gen + 1, trec := r, scratch := scratch, org := o, fetched := false, snap := [], sealed := [] }] ∧
    ∃ g', t.cgroup? g.id = some g' ∧ g' = { g with entries := g'.entries, free := g.free.erase n } ∧
      g'.entry n = { g.entry n with st := .defining, kill := false, faulted := false, trec := r, img := [], gen := (g.entry n).gen + 1 } ∧
      ∀ m, m ≠ n → g'.entry m = g.entry m

/-- The issue as a tile's waiting list keeps it. -/
def waiter (s : State) (w : Warp) (act : Mask) (gen : Nat) (ask : TileAsk) : Waiter :=
  { gen := gen, lanes := act, ask := ask, org := s.origin w s.iss.pos s.iss.lanes, hdr := s.iss.hdr, idx := s.iss.idx, word := s.iss.word }

/-- A waiter added to an entry. -/
def queued (s : State) (g : CGroup) (n : Nat) (x : Waiter) : State := s.onEntry g.id n fun e => { e with waiters := e.waiters ++ [x] }

/-- The generation that a reader waits for (R208). -/
def awaited (e : Entry) : Nat := if e.st = .defining ∧ e.kill = false then e.gen else e.gen + 1

/-- The readers: name, operand, the class and cause of a lane's bad operand, and what they ask for. -/
def reader (s : State) (w : Warp) (act : Mask) : Instr → Option (Nat × Fld × (Nat → Option (Nat × Nat)) × TileAsk)
  | .tld _ wide t d aux => some (t.toNat, aux,
      fun x => if 36864 ≤ x then some (7, 1) else if x % (if wide then 8 else 4) ≠ 0 then some (6, 0) else none,
      .tld wide d ((lanesOf act).map fun l => (l, (s.reg w aux.toNat l).toNat)))
  | .trow _ t d aux => some (t.toNat, aux, fun x => if 128 ≤ x then some (7, 1) else none,
      .trow d ((lanesOf act).map fun l => (l, (s.reg w aux.toNat l).toNat)))
  | _ => none

end Sys2Proof.Claims

/-- R201, R206, R208, R215, R216: a definition begins at a free name, traps at one that is defining or live, and waits at one that is draining; a name outside
the slice, and a record that cannot be read or is bad, trap. TDEFA takes the head of the free order, gives it to its register, or waits for one. TKILL of a
defining name acts at its landing, of a live name once its readers are done, and of any other name not at all; a free name without waiters joins the end
of the free order. -/
def Sys2Proof.Claims.TileNames : Prop :=
  ((∀ i c t aux s w act n sc x s', i = Instr.tdef c t aux ∨ i = Instr.tdefs c t aux → recordOf s w i = some (n, sc, x, s') → Acts i s w act →
    (s.slice w n = none → exec i s = .next (trapped s w act 9 2 0 0)) ∧
    ∀ g, s.slice w n = some g →
      (∀ e, x = .trap e → exec i s = .next (trapped s' w act e.1 e.2.1 e.2.2 0)) ∧
      (∀ va, x = .page va → exec i s = .next (s'.pageWhole w act va)) ∧
      ∀ r, x = .ok r →
        ((g.entry n).st = .free → ∃ t, exec i s = .next (t.advance w s.iss.lanes) ∧ Begun s' g n r sc (s'.origin w s.iss.pos s.iss.lanes) t) ∧
        ((g.entry n).st = .defining ∨ (g.entry n).st = .live → exec i s = .next (trapped s' w act 9 1 0 0)) ∧
        ((g.entry n).st = .draining → exec i s = .next (waits (queued s' g n (waiter s' w act 0 (.define r sc))) w act .tile))) ∧
  ∀ c d aux s w act x s', Acts (.tdefa c d aux) s w act → s.readRec w (pair s w aux.toNat 0) = (x, s') →
    let i := Instr.tdefa c d aux
    (∀ e, x = .trap e → exec i s = .next (trapped s' w act e.1 e.2.1 e.2.2 0)) ∧
    (∀ va, x = .page va → exec i s = .next (s'.pageWhole w act va)) ∧
    ∀ r, x = .ok r → (s'.slice w 0 = none → exec i s = .next (trapped s' w act 9 2 0 0)) ∧
      ∀ g, s'.slice w 0 = some g →
        (∀ n q, g.free = n :: q → ∃ t, exec i s = .next ((t.put w d.toNat 0 [BitVec.ofNat 32 n]).advance w s.iss.lanes) ∧
          Begun s' g n r false (s'.origin w s.iss.pos s.iss.lanes) t) ∧
        (g.free = [] → exec i s = .next (waits (s'.onCGroup g.id fun g =>
          { g with heads := g.heads ++ [{ lanes := act, d := d, trec := r, org := s'.origin w s.iss.pos s.iss.lanes, hdr := s.iss.hdr, idx := s.iss.idx,
                                          word := s.iss.word }] }) w act .head))) ∧
  ((∀ c t s w act, Acts (.tkill c t) s w act →
    let i := Instr.tkill c t
    let u := s.advance w s.iss.lanes
    let n := t.toNat
    (s.slice w n = none → exec i s = .next (trapped s w act 9 2 0 0)) ∧
    ∀ g, s.slice w n = some g → exec i s = .next (
      match (g.entry n).st with
      | .defining => u.onEntry g.id n fun e => { e with kill := true }
      | .live => if s.reading g.id n then u.onEntry g.id n fun e => { e with st := .draining } else u.freeName g.id n
      | .free | .draining => u)) ∧
  ∀ (s : State) g n, s.cgroup? g.id = some g → g.heads = [] → (g.entry n).waiters = [] →
    let t := s.freeName g.id n
    t = { s with cgroups := t.cgroups } ∧ ∃ g', t.cgroup? g.id = some g' ∧ g' = { g with entries := g'.entries, free := g.free ++ [n] } ∧
      (g'.entry n).st = .free ∧ (g'.entry n).gen = (g.entry n).gen ∧ ∀ m, m ≠ n → g'.entry m = g.entry m)

/-- R208, R212, R217, R219: TLD, TROW and TST read a live tile and go on, trap where its definition has faulted, and wait for the definition that the entry's
state assigns; lanes with an operand out of range or not aligned trap. -/
def Sys2Proof.Claims.TileReaders : Prop :=
  (∀ i s w act n aux bad ask, reader s w act i = some (n, aux, bad, ask) → Acts i s w act →
    let x (l : Nat) : Nat := (s.reg w aux.toNat l).toNat
    let u := (s.advance w (s.iss.lanes &&& ~~~act)).parkHere w act .tile
    (s.slice w n = none → exec i s = .next (trapped s w act 9 2 0 0)) ∧
    ∀ g, s.slice w n = some g →
      (∀ cls cause, (∀ l, act.getLsbD l = true → bad (x l) = some (cls, cause)) → exec i s = .next (trapped s w act cls cause 0 0)) ∧
      ((∀ l, act.getLsbD l = true → bad (x l) = none) →
        ((g.entry n).st = .live → (g.entry n).faulted = true → exec i s = .next (u.trapParked w.id act 7 6 0 s.iss.word)) ∧
        ((g.entry n).st = .live → (g.entry n).faulted = false →
          let v : State := { u with readers := u.readers ++ [{ cg := g.id, name := n, ask := ask, org := s.origin w s.iss.pos s.iss.lanes }] }
          exec i s = .next (v.passParked w.id act)) ∧
        ((g.entry n).st ≠ .live → exec i s = .next ((queued u g n (waiter s w act (awaited (g.entry n)) ask)).count w.blk 9 1)))) ∧
  ∀ c k t aux s w act n sc x s', recordOf s w (.tst c k t aux) = some (n, sc, x, s') → Acts (.tst c k t aux) s w act →
    let i := Instr.tst c k t aux
    let u := waits s' w act .tile
    let o := s'.origin w s.iss.pos s.iss.lanes
    (s.slice w n = none → exec i s = .next (trapped s w act 9 2 0 0)) ∧
    ∀ g, s.slice w n = some g →
      (∀ e, x = .trap e → exec i s = .next (trapped s' w act e.1 e.2.1 e.2.2 0)) ∧
      (∀ va, x = .page va → exec i s = .next (s'.pageWhole w act va)) ∧
      ∀ r, x = .ok r →
        ((g.entry n).st = .live → (g.entry n).faulted = true → exec i s = .next (u.trapParked w.id act 7 6 0 s.iss.word)) ∧
        ((g.entry n).st = .live → (g.entry n).faulted = false → tFormat r ≠ tFormat (g.entry n).trec ∨ tScaled r ≠ tScaled (g.entry n).trec →
          exec i s = .next (u.trapParked w.id act 7 2 0 s.iss.word)) ∧
        ((g.entry n).st = .live → (g.entry n).faulted = false → tFormat r = tFormat (g.entry n).trec → tScaled r = tScaled (g.entry n).trec →
          let c : Copy := { id := s'.nextId, k := .tst r none, tok := k.toNat, org := o, started := false, snap := [] }
          let v : State := { u with nextId := s'.nextId + 1, copies := s'.copies ++ [c],
                                    readers := s'.readers ++ [{ cg := g.id, name := n, ask := .tst s'.nextId r, org := o }] }
          exec i s = .next ((moreToken v w k.toNat).passParked w.id act)) ∧
        ((g.entry n).st ≠ .live → exec i s = .next ((queued u g n (waiter s' w act (awaited (g.entry n)) (.tst k.toNat r))).count w.blk 9 1))

/-- R201 to R219: tile names are defined, killed and moved, and tiles are read, or their lanes wait or trap. -/
def Obligations.TilesActs : Prop := Sys2Proof.Claims.TileNames ∧ Sys2Proof.Claims.TileReaders

namespace Sys2Proof.Claims

/-- The convergence register of a synchronising instruction. -/
def syncReg : Instr → Option (BitVec 3)
  | .mma _ _ _ _ _ cv | .mmalr _ _ _ _ _ _ cv | .adapt _ _ _ _ cv => some cv
  | _ => none

/-- The accumulators of an operation, as its block must hold them (R235, R239). -/
def matFits (s : State) (w : Warp) : Instr → Prop
  | .mma _ _ a _ _ _ => a.toNat < (ctxOf s w).h.accs
  | .mmalr _ _ a _ _ _ _ => a.toNat % 2 = 0 ∧ a.toNat + 1 < (ctxOf s w).h.accs
  | .adapt _ a b _ _ => b.toNat % 2 = 1 ∧ b ≠ a ∧ a.toNat < (ctxOf s w).h.accs ∧ b.toNat < (ctxOf s w).h.accs
  | _ => False

/-- What a synchronised issue does (R240): the operation, and the names that it reads. -/
def operation (s : State) (w : Warp) : Instr → Option (MatK × List Nat)
  | .mma _ k a ta tb _ => some (.mma k a.toNat ta.toNat tb.toNat, [ta.toNat, tb.toNat])
  | .mmalr _ k a ta tb aux _ => some (.mmalr k a.toNat ta.toNat tb.toNat (rowIds s w aux), [ta.toNat, tb.toNat])
  | .adapt _ a b cb _ => some (.adapt a.toNat b.toNat cb.toNat, [])
  | _ => none

end Sys2Proof.Claims

/-- R107, R108, R224, R235, R236, R239, R240: lanes that arrive at MMA, MMALR or ADAPT sign its convergence register and wait, whatever the guard; guarded
lanes outside the declared set trap, other lanes outside it go on (log entry 23, DEDUCED); then the completion test runs. The one issue of the set creates its
operation, whose lanes wait while its tiles' readers arrive, A before B; an accumulator that the block lacks is an illegal operand, a name outside the slice a tile
trap. -/
def Obligations.MatrixSynchronises : Prop :=
  (∀ i cv (s : State) w act, syncReg i = some cv → s.iss.sync = false → s.issWarp = some w → w.lanes.length = 32 → act = s.guarded w (common i).guard →
    (readKeys i).any (w.undue s.iss.now) = false ∨ s.interlocked w s.iss.hnd = true →
    let d := sget 0 cv.toNat w.decl
    let bad := act &&& ~~~d
    (s.iss.hnd = true → exec i s = .next (trapped s w act 1 0 0 0)) ∧
    (s.iss.hnd = false → ∃ (t : State) (w' : Warp), exec i s = .next (t.converge w.id cv.toNat) ∧ t = { s with warps := t.warps } ∧
      t.warp? w.id = some w' ∧ (∀ j, j ≠ w.id → t.warp? j = s.warp? j) ∧
      w' = { w with lanes := w'.lanes, signed := sput 0 cv.toNat (sget 0 cv.toNat w.signed ||| (s.iss.lanes &&& d)) w.signed,
                    traps := if bad = 0#32 then w.traps else
                      joinTrap 2 s.nextId ((lanesOf bad).map fun l => TrapLane.of l 0 0 0 s.iss.word) w.traps } ∧
      ∀ n, n < 32 → laneAt w'.lanes n =
        if (s.iss.lanes &&& d).getLsbD n then { laneAt w.lanes n with park := .sync cv.toNat, passed := 0 }
        else if bad.getLsbD n then { laneAt w.lanes n with park := .trap, passed := 0 }
        else s.movedLane n (laneAt w.lanes n))) ∧
  ∀ i cv s w act k ns, syncReg i = some cv → operation s w i = some (k, ns) → Acts i s w act → s.iss.sync = true →
    let o := s.origin w s.iss.pos s.iss.lanes
    (¬matFits s w i → exec i s = .next (trapped s w act 2 0 0 0)) ∧
    (matFits s w i → (∃ n ∈ ns, s.slice w n = none) → exec i s = .next (trapped s w act 9 2 0 0)) ∧
    (matFits s w i → (∀ n ∈ ns, (s.slice w n).isSome = true) →
      let cg := if ns = [] then 0 else ((s.warpGroup w).map (·.id)).getD 0
      let m : Mat := { id := s.nextId, lanes := s.iss.lanes, bad := false, k := k, adtb := ((s.ctx? w.ctx).map (·.adtb)).getD 0, org := o, cg := cg, hdr := s.iss.hdr,
                       idx := s.iss.idx, word := s.iss.word,
                       readyA := ns.isEmpty, readyB := ns.isEmpty, seen := [], entered := false, held := [], failed := [], took := [], slow := none, replays := 0 }
      let t : State := { s with nextId := s.nextId + 1, mats := s.mats ++ [m] }
      exec i s = .next (ns.foldl (fun t n => t.offerReader w cg n (.mat s.nextId) s.iss.lanes o) (t.parkHere w s.iss.lanes .tile)))

namespace Sys2Proof.Claims

/-- The accumulator that an instruction names. -/
def accOf : Instr → Option (BitVec 6)
  | .aclr _ a | .arow _ a _ _ | .arowSt _ a _ _ | .aflag _ _ a _ => some a
  | _ => none

/-- A word of an accumulator of the warp's block. -/
def accWord (s : State) (w : Warp) (k : Nat) : Word := sget 0 k (((s.block? w.blk).map (·.acc)).getD [])

/-- Only the accumulators and their flags of one block change. -/
def AccOnly (s : State) (w : Warp) (b : Block) (t : State) (b' : Block) : Prop :=
  t = { s with blocks := t.blocks } ∧ s.block? w.blk = some b ∧ t.block? w.blk = some b' ∧ b' = { b with acc := b'.acc, aflags := b'.aflags } ∧
    ∀ j, j ≠ w.blk → t.block? j = s.block? j

end Sys2Proof.Claims

/-- R239, R243 to R246: ACLR zeroes an accumulator and its flags; AROW reads four words of a row in each lane and AROW.ST writes them, a row beyond 127 traps in
its lane and the other lanes are done;
AFLAG reads the flags, and clears them unless it keeps them; an accumulator that the block lacks is an illegal operand. -/
def Obligations.AccumulatorAccess : Prop :=
  (∀ i a s w act, accOf i = some a → Acts i s w act → (ctxOf s w).h.accs ≤ a.toNat → exec i s = .next (trapped s w act 2 0 0 0)) ∧
  (∀ c a s w act b, Acts (.aclr c a) s w act → a.toNat < (ctxOf s w).h.accs → s.block? w.blk = some b →
    ∃ t b', exec (.aclr c a) s = .next (t.advance w s.iss.lanes) ∧ AccOnly s w b t b' ∧ b'.aflags = sput 0 a.toNat 0 b.aflags ∧
      ∀ k, sget 0 k b'.acc = if k / 16384 = a.toNat then 0 else sget 0 k b.acc) ∧
  (∀ c a d aux s w act, Acts (.arow c a d aux) s w act → a.toNat < (ctxOf s w).h.accs →
    (∀ l, act.getLsbD l = true → (s.reg w aux.toNat l).toNat < 128) →
    ∃ t w', exec (.arow c a d aux) s = .next t ∧ WroteReg s w act d.toNat 4
      (fun l k => accWord s w (16384 * a.toNat + 128 * (s.reg w aux.toNat l).toNat + 4 * l + k)) (fun _ => 0) t w') ∧
  (∀ c a d aux s w act b, Acts (.arowSt c a d aux) s w act → a.toNat < (ctxOf s w).h.accs →
    (∀ l, act.getLsbD l = true → (s.reg w aux.toNat l).toNat < 128) → s.block? w.blk = some b →
    ∃ t b', exec (.arowSt c a d aux) s = .next (t.advance w s.iss.lanes) ∧ AccOnly s w b t b' ∧ b'.aflags = b.aflags ∧
      ∀ k, sget 0 k b'.acc =
        let l := k % 128 / 4
        if k / 16384 = a.toNat ∧ act.getLsbD l = true ∧ k % 16384 / 128 = (s.reg w aux.toNat l).toNat then s.reg w (d.toNat + k % 4) l
        else sget 0 k b.acc) ∧
  (∀ i c a d aux s w act, i = Instr.arow c a d aux ∨ i = Instr.arowSt c a d aux → Acts i s w act → a.toNat < (ctxOf s w).h.accs →
    let bad := picked act fun l => 128 ≤ (s.reg w aux.toNat l).toNat
    (bad = act → exec i s = .next (trapped s w act 7 1 0 0)) ∧
    (i = Instr.arow c a d aux → ∃ u,
      WroteSome s w (fun n l => d.toNat ≤ n ∧ n < d.toNat + 4 ∧ act.getLsbD l = true ∧ bad.getLsbD l = false)
        (fun n l => accWord s w (16384 * a.toNat + 128 * (s.reg w aux.toNat l).toNat + 4 * l + (n - d.toNat))) u ∧
      exec i s = .next ((u.trapAll w bad 7 1 0 0).advance w (s.iss.lanes &&& ~~~bad))) ∧
    (i = Instr.arowSt c a d aux → ∀ b, s.block? w.blk = some b →
      ∃ t b', exec i s = .next ((t.trapAll w bad 7 1 0 0).advance w (s.iss.lanes &&& ~~~bad)) ∧ AccOnly s w b t b' ∧ b'.aflags = b.aflags ∧
        ∀ k, sget 0 k b'.acc =
          let l := k % 128 / 4
          if k / 16384 = a.toNat ∧ act.getLsbD l = true ∧ bad.getLsbD l = false ∧ k % 16384 / 128 = (s.reg w aux.toNat l).toNat then s.reg w (d.toNat + k % 4) l
          else sget 0 k b.acc)) ∧
  ∀ c keep a d s w act, Acts (.aflag c keep a d) s w act → a.toNat < (ctxOf s w).h.accs →
    let u := if keep then s else s.onBlock w.blk fun b => { b with aflags := sput 0 a.toNat 0 b.aflags }
    ∃ t w', exec (.aflag c keep a d) s = .next t ∧ WroteReg u w act d.toNat 1
      (fun _ _ => (sget (0 : BitVec 8) a.toNat (((s.block? w.blk).map (·.aflags)).getD [])).zeroExtend 32) (fun _ => 0) t w'

/-! # Decoding, issuing and the step -/

/-- R36 to R40, R46, R47, R55, R140: the words that the manual writes out decode to the instructions that it gives them for. -/
def Obligations.DecodeWords : Prop :=
  decode 0x4012100803010000#64 =
    .ok (.fadd { stall := 4, guard := .onTrue 1 } .rne { d := 2, a := 3, b := 4, p := .none }) ∧
  decode 0x06C8000000FFFFE0#64 = .ok (.iaddi { stall := 2, guard := .always } 0 0 0x7FFFF#19) ∧
  decode 0x05C8000400004008#64 = .ok (.iset { stall := 2, guard := .always } .lt .s { d := 1, a := 0, b := 1, p := .none }) ∧
  decode 0x8402000000006000#64 = .ok (.bra { stall := 0, guard := .onTrue 0 } 6) ∧
  decode 0x8480000000004020#64 = .ok (.call { stall := 0, guard := .always } 4 8) ∧
  decode 0x485000C8280F0000#64 = .ok (.qenc { stall := 4, guard := .always } .e2m1 false false false { d := 50, a := 40, b := 60, p := .none }) ∧
  decode 0xA000002814000040#64 = .ok (.ld { stall := 0, guard := .always } false .dflt { data := 10, base := 20, off := 0, size := 2 }) ∧
  decode 0xC3C0024000000000#64 = .ok (.cpy { stall := 0, guard := .always } false 1 8) ∧
  decode 0xC100000050A02900#64 = .ok (.tld { stall := 0, guard := .always } false 5 40 41) ∧
  decode 0xC200000000040000#64 = .ok (.mma { stall := 0, guard := .always } .bf16 0 0 1 0) ∧
  decode 0xA2000A1C0000000A#64 = .ok (.fence { stall := 0, guard := .always } .ar .dev 647) ∧
  decode 0xE0000A100000000D#64 = .ok (.featq { stall := 0, guard := .always } 644 13) ∧
  decode 0x8500000000000000#64 = .ok (.exit { stall := 0, guard := .always })

/-- R36 to R47, R55: decoding the word of an instruction, with every operand at every value that its field holds, gives back the instruction. -/
def Obligations.DecodeEncodeRoundTrip : Prop := ∀ (i : Instr) (w : Word64), i.wf = true → encode i = some w → decode w = .ok i

/-- R99, R101, R103, R105, with log entries 2 and 5 (the model's): the next party of the agenda acts, or the next quadrant's slot where the agenda is empty; an
instruction that the slot latched acts in the same step, its issue is finished, and time goes on. -/
def Obligations.StepRunsIssued : Prop :=
  (∀ (s : State) e r, s.agenda = e :: r → s.nextEvent = (e, { s with agenda := r })) ∧
  (∀ s : State, s.agenda = [] → s.nextEvent = (.issueSlot s.turn, { s with turn := (s.turn + 1) % (32 * s.nClusters) })) ∧
  (∀ s : State, ∃ d, s.settle = { s with ns := s.ns + d, free := s.free + 1 }) ∧
  (∀ s e u t, s.nextEvent = (e, u) → exec e u = .next t → t.iss.instr = none → step s = .next t.settle) ∧
  ∀ s e u t i v, s.nextEvent = (e, u) → exec e u = .next t → t.iss.instr = some i → exec i t = .next v → step s = .next (v.finishIssue t).settle

namespace Sys2Proof.Claims

/-- A lane that may issue, and one that was released into the issue of its synchronising instruction. -/
def mayGo (l : Lane) : Prop := l.exited = false ∧ l.park = .run
def mayDue (l : Lane) : Prop := l.exited = false ∧ ∃ c, l.park = .due c

/-- A position's address. -/
def posOf (ls : List Lane) (n : Nat) : Nat := (laneAt ls n).hdr + 8 * (laneAt ls n).idx

/-- An issuer of quadrant `q` none of whose lanes runs, which owes no acquire, and whose pace holds nothing of earlier slots. -/
structure Idle (s : State) (q : Nat) (j : Issuer) : Prop where
  empty : groupMask j.lanes = 0#32
  paid : j.w.acq = false
  pace : j.pace.readySince = none ∧ j.pace.yielded = false
  home : j.w.q = q
  own : ∀ v ∈ s.warps, v.id = j.w.id → v = j.w

/-- A quadrant of one issuer that is not idle, whose selected group stands past its header test. The words of a record that its instruction will read have come to
it, which makes the state `r`; there its offer `o` may take the slot of this cycle. -/
structure Lone (s r : State) (q : Nat) (i : Issuer) (o : Offer) : Prop where
  tested : ∀ j ∈ s.issuers q, Idle s q j ∨ (j.w.acq = false ∧ j.pos.2 ≠ 0 ∧ (s.offer j).isSome = true)
  came : (s.issuers q).foldl (fun s j => s.recFetch j) s = r
  one : (r.issuers q).filter (fun j => decide (j = i)) = [i]
  rest : ∀ j ∈ r.issuers q, j ≠ i → Idle r q j
  offer : r.offer i = some o
  ready : r.ready o (r.quad q).cycle = true
  may : r.eligible o = true
  slot : (r.quad q).slotAt ≤ (r.quad q).cycle
  home : i.w.q = q
  on : (s.quad q).rewriting = false ∧ s.quadOff q = false
  canon : scanon Quad.init r.quads = true

/-- The issuer as it stands when its offer takes the slot: it has been ready since some cycle, and has not yielded. -/
def readied (s : State) (i : Issuer) (now : Nat) : State :=
  s.pace i fun p => { p with readySince := some (p.readySince.getD now), yielded := false }

/-- The counts that an issue leaves: its lanes wait for nothing, lanes that wait in other groups are passed once more, instructions and lanes issued, and the slot that
issued last. -/
def counted (s : State) (q : Nat) (i : Issuer) (m : Mask) : State :=
  let u := s.onLanes i.w i.hnd m fun l => { l with park := .run }
  let u := if i.hnd then u.onBank q fun b => { b with lanes := passCounts m 0 b.lanes }
    else u.onWarp i.w.id fun x => { x with lanes := passCounts m 0 x.lanes }
  ((u.count i.w.blk 0 1).count i.w.blk 1 (lanesOf m).length).onQuad q fun x => { x with lastSlot := i.w.slot }

/-- What a word with an encoding cause does in lanes `m` of its issue (R54, R56, R240). -/
def caused (t : State) (o : Offer) (m : Mask) : State :=
  let g := match decGuard o.word with | some g => o.i.w.guarded g m | none => m
  match o.fate with
  | .run _ => t
  | .clause => t.trapAll o.i.w m 3 0 0 0
  | .guard => t.trapAll o.i.w m 1 0 0 0
  | .illegal => (t.trapAll o.i.w g 1 0 0 0).advance o.i.w (m &&& ~~~g)

/-- A quadrant of any number of issuers, each idle or past its header test with its word come, whose slot is due and none of which reads a record. -/
structure Several (s : State) (q : Nat) : Prop where
  tested : ∀ j ∈ s.issuers q, j.w.acq = false ∧ j.w.q = q ∧ (groupMask j.lanes = 0#32 ∨ (j.pos.2 ≠ 0 ∧ (s.offer j).isSome = true))
  came : ∀ j ∈ s.issuers q, s.recFetch j = s
  ids : (s.warps.map (·.id)).Nodup
  slot : (s.quad q).slotAt ≤ (s.quad q).cycle
  on : (s.quad q).rewriting = false ∧ s.quadOff q = false
  canon : scanon Quad.init s.quads = true

/-- The offers that the slot of this cycle may be given to. -/
def rivals (s : State) (q : Nat) : List Offer :=
  (((s.issuers q).filterMap s.offer).filter fun o => s.ready o (s.quad q).cycle).filter s.eligible

/-- One offer goes before another: ready since an earlier cycle; of one cycle, the slot that comes first after the last issuer's; of one slot, the warp before
its handler (R105). -/
def goesBefore (last now : Nat) (o p : Offer) : Prop :=
  let since (x : Offer) : Nat := x.i.pace.readySince.getD now
  let turn (x : Offer) : Nat := (x.i.w.slot + 31 - last) % 16
  since o < since p ∨ (since o = since p ∧ (turn o < turn p ∨ (turn o = turn p ∧ o.i.hnd = false ∧ p.i.hnd = true)))

end Sys2Proof.Claims

/-- R103, R104, R107: the lanes released into a synchronised issue go first, position by position; else those of lowest address issue, but for the lanes passed most
often once some lane has been passed 64 times; each issue sets the count of its lanes to zero and raises that of every other lane that could have issued. -/
def Sys2Proof.Claims.GroupsAreSelected : Prop :=
  (∀ (ls : List Lane), ls.length = 32 → (∀ n, n < 32 → posOf ls n < 2 ^ 64) →
    ((∃ k, k < 32 ∧ mayDue (laneAt ls k)) → ∀ n, n < 32 →
      ((groupMask ls).getLsbD n = true ↔ mayDue (laneAt ls n) ∧ ∀ k, k < 32 → mayDue (laneAt ls k) → posOf ls n ≤ posOf ls k)) ∧
    ((∀ k, k < 32 → ¬mayDue (laneAt ls k)) → (∀ k, k < 32 → mayGo (laneAt ls k) → (laneAt ls k).passed < 64) → ∀ n, n < 32 →
      ((groupMask ls).getLsbD n = true ↔ mayGo (laneAt ls n) ∧ ∀ k, k < 32 → mayGo (laneAt ls k) → posOf ls n ≤ posOf ls k)) ∧
    ∀ m, m < 32 → (∀ k, k < 32 → ¬mayDue (laneAt ls k)) → mayGo (laneAt ls m) → 64 ≤ (laneAt ls m).passed →
      (∀ k, k < 32 → mayGo (laneAt ls k) → (laneAt ls k).passed ≤ (laneAt ls m).passed ∧
        ((laneAt ls k).passed = (laneAt ls m).passed → posOf ls m ≤ posOf ls k)) → ∀ n, n < 32 →
      ((groupMask ls).getLsbD n = true ↔ mayGo (laneAt ls n) ∧ posOf ls n = posOf ls m)) ∧
  ∀ m (ls : List Lane) n, n < ls.length → laneAt (passCounts m 0 ls) n =
    let l := laneAt ls n
    { l with passed := if m.getLsbD n = false ∧ l.exited = false ∧ l.park = .run then l.passed + 1 else 0 }

/-- R32, R56, R103, R105, R107, R207, R240: the one ready warp or handler of a quadrant takes its slot. A word that is an instruction is latched with its lanes and
place, for the step to run; at a clause error every issuing lane traps, at a malformed guard too, and at an illegal instruction those whose guard holds; lanes that
only arrive at a synchronising instruction sign first, but at a clause error. The next slot comes after the beats of this one; with nothing to issue the cycle goes on, and while the
quadrant's concordance is rewritten nothing does. Of several that are ready the slot goes to the one ready longest, then to the slot that comes first after the last
issuer's, one that yielded standing back once. R16, R54: a word whose class is not its header's, or a CALL that is not last, is a clause error; then a guard that
the encoding does not allow, then a word that decodes to nothing or whose feature group the context lacks. -/
def Sys2Proof.Claims.SlotTakesOffer : Prop :=
  (∀ view h idx x,
    let op := (opcodeOf x).toNat
    let misplaced := classOf op ≠ some h.cls.toNat ∨ (op = 0x212 ∧ idx ≠ h.count.toNat + 1)
    (misplaced → fate view h idx x = .clause) ∧
    (¬misplaced → decode x = .error .guard → fate view h idx x = .guard) ∧
    (¬misplaced → decode x = .error .instr → fate view h idx x = .illegal) ∧
    ∀ i, ¬misplaced → decode x = .ok i → fate view h idx x = if (view.getD 2 0).testBit (groupOf op) then .run i else .illegal) ∧
  (∀ s r q i o, Lone s r q i o → (o.fate = .illegal → ∀ g, decGuard o.word = some g → g.keys.any (i.w.undue (r.quad q).cycle) = false) →
    let now := (r.quad q).cycle
    let p := readied (r.onQuad q fun x => { x with slotAt := now + x.beats }) i now
    let p := if o.arrives then p else counted p q i o.m
    let t : State := { p with nextId := p.nextId + 1, iss := o.latch q now }
    let act := match decGuard o.word with | some g => o.i.w.guarded g o.m | none => o.m
    let u := match o.fate with
      | .run _ => t
      | _ => (if o.arrives then t.arrive o.i.w (convOf o.word) act fun m t => caused t o m else caused t o o.m).finishIssue t
    (o.arrives = true ↔ 0x308 ≤ (opcodeOf o.word).toNat ∧ (opcodeOf o.word).toNat ≤ 0x30A ∧ o.sync = false ∧ i.hnd = false ∧ o.fate ≠ .clause) ∧
    o.m = groupMask i.lanes ∧ (o.hdr, o.idx) = i.pos ∧ o.sync = i.lanes.any Lane.isDue ∧ (∀ ins, o.fate = .run ins → decode o.word = .ok ins) ∧
    exec (.issueSlot q) s = .next (u.onQuad q fun x => { x with cycle := x.cycle + 1 })) ∧
  (∀ s q o i, Several s q → o ∈ rivals s q → o.fate = .run i →
    let now := (s.quad q).cycle
    let next := now + (s.quad q).beats
    (o.i.pace.yielded = false ∨ ∀ p ∈ rivals s q, p.i.pace.yielded = true) →
    (∀ p ∈ rivals s q, p ≠ o → p.i.pace.yielded = o.i.pace.yielded → goesBefore (s.quad q).lastSlot now o p) →
    ∃ t, exec (.issueSlot q) s = .next t ∧ t.iss = o.latch q now ∧ (t.quad q).slotAt = next ∧
      (o.arrives = false → (t.quad q).lastSlot = o.i.w.slot) ∧
      ∀ p ∈ rivals s q, p ≠ o → p.i.hnd = false → ∃ v, t.warp? p.i.w.id = some v ∧ v.pace.yielded = false ∧
        v.pace.readySince = some (if p.i.pace.yielded then next else p.i.pace.readySince.getD now)) ∧
  (∀ (s : State) q, Several s q → rivals s q = [] → ∃ t, exec (.issueSlot q) s = .next t ∧ t.iss = s.iss) ∧
  (∀ (s : State) q, (∀ j ∈ s.issuers q, Idle s q j) → (s.quad q).rewriting = false → scanon Quad.init s.quads = true →
    exec (.issueSlot q) s = .next (s.onQuad q fun x =>
      { x with cycle := x.cycle + 1, slotAt := if s.quadOff q = false ∧ x.slotAt ≤ x.cycle then x.cycle + x.beats else x.slotAt })) ∧
  (∀ (s : State) q, (s.quad q).rewriting = true → exec (.issueSlot q) s = .next s) ∧
  ∀ (s : State) i, ∃ (t : State) (f : Warp → List (Nat × List Byte)), s.recFetch i = t ∧
    t = { s with free := t.free, warps := s.warps.map fun w => { w with recs := f w } } ∧ ∀ w, w.id ≠ i.w.id → f w = w.recs

/-- R16, R32, R54, R56, R103 to R105, R107, R207, R240: which lanes issue next, and what the slot does with them. -/
def Obligations.SlotIssuesTheOffer : Prop := Sys2Proof.Claims.GroupsAreSelected ∧ Sys2Proof.Claims.SlotTakesOffer

/-! # Reset and memory -/

/-- R57, R76, R266, R312, R329, R334, R339: after reset the boot ROM waits for an image; the event ring's registers and the node number read zero, the inventory
interval is 100 ms and the package limit 2,600 W; every field of a host or work queue reads zero but SLOTS and WAKE; no work is in being, and every memory is
in its canonical form. -/
def Obligations.ResetState : Prop :=
  let s := State.reset
  s.bootst = 1 ∧ s.verifying = false ∧ s.bootWin = [] ∧ s.evbase = 0 ∧ s.evsize = 0 ∧ s.nodeid = 0 ∧ s.invctl = 100 ∧ s.pwrlim = 2600 ∧ s.ns = 0 ∧
    (∀ q, sget HQueue.init q s.hq =
      { ring := 0, slots := 16, en := false, tail := 0, head := 0, group := 0, stopped := false, errsum := 0, held := [] }) ∧
    (∀ w, sget WQueue.init w s.wq = { ring := 0, slots := 64, en := false, head := 0, tail := 0, group := 0, wake := 0xFFFF }) ∧
    s.ctxs = [] ∧ s.grids = [] ∧ s.blocks = [] ∧ s.warps = [] ∧ s.net = [] ∧ s.cmds = [] ∧ s.msix = [] ∧ Memory.wf s

/-- The model's canonical form of memory (R173, R169, R76), which every step keeps: in device, host and remote memory each address is listed at most once, in
rising order, and never with the value that an unlisted address reads as. -/
def Obligations.StepKeepsMemory : Prop := ∀ s t, Memory.wf s → step s = .next t → Memory.wf t

namespace Sys2Proof.Claims

/-- The memory that a place lies in, and its key there. -/
def spot : Tgt → Nat × Nat
  | .dev pa => (0, pa)
  | .host ba => (1, ba)
  | .fab node pa => (2, 2 ^ 52 * node + pa)

/-- Device, host and remote memory by number. -/
def memNo (s : State) (k : Nat) : Sparse Byte := if k = 0 then s.mem else if k = 1 then s.host else s.remote

end Sys2Proof.Claims

/-- R173, R175, R176, R319, R338, R361: a write that succeeds puts its bytes at its place and leaves every other byte of every memory as it was; a read that
succeeds returns the bytes that stand at its place. In device memory a read fails at the aperture or on an uncorrectable line, and a write on one unless it
covers all of it; in host memory each fails while the link is down, and on another device while it is unreachable or at its tag-message aperture. -/
def Obligations.MemoryReadAfterWrite : Prop :=
  (∀ s t b g ef u, Memory.wf s → s.writeTgt t b g ef = .ok u → Memory.wf u ∧ ∀ k a, k < 3 → sget 0 a (memNo u k) =
    if k = (spot t).1 ∧ (spot t).2 ≤ a ∧ a < (spot t).2 + b.length then b.getD (a - (spot t).2) 0 else sget 0 a (memNo s k)) ∧
  (∀ s t n b, Memory.wf s → s.readTgt t n = .ok b → b = (List.range n).map fun k => sget 0 ((spot t).2 + k) (memNo s (spot t).1)) ∧
  (∀ (s : State) (t : Tgt) n, 0 < n → ((s.readTgt t n).isOk = false ↔ match t with
    | .dev pa => 0x30001000000 ≤ pa ∨ ∃ l, pa / 256 ≤ l ∧ l ≤ (pa + n - 1) / 256 ∧ l ∈ s.badLines
    | .host _ => s.linkUp = false
    | .fab node pa => node ∈ s.deadNodes ∨ 0x30000000000 ≤ pa)) ∧
  ∀ (s : State) (t : Tgt) b g ef, (s.writeTgt t b g ef).isOk = false ↔ match t with
    | .dev pa => 0x30001000000 ≤ pa ∨ (pa / 256 ∈ s.badLines ∧ b.length ≠ 256)
    | .host _ => s.linkUp = false
    | .fab node pa => node ∈ s.deadNodes ∨ 0x30000000000 ≤ pa

/-! # What happens outside the cores' slots: requests and pages -/

namespace Sys2Proof.Claims

/-- The bytes that a request reads, or covers. -/
def reqSize : ReqK → Nat
  | .load _ n _ _ _ _ => n
  | .store b _ => b.length
  | .atom _ _ n _ _ => n
  | .zline => 256
  | .redo _ _ _ _ _ _ _ _ => 0

/-- The bytes that a request leaves where `old` stood (R186, R187, R191); a load leaves them alone. -/
def reqNew : ReqK → List Byte → List Byte
  | .store b _, _ => b
  | .zline, _ => List.replicate 256 0
  | .atom op _ n x y, old => toBytes n (atomNew op n (ofBytes old) x y)
  | _, old => old

/-- The bytes that a request returns. -/
def reqAnswer : ReqK → List Byte → List Byte
  | .load _ _ _ _ _ _, old | .atom _ _ _ _ _, old => old
  | _, _ => []

/-- Memory serves a request's place: no uncorrectable line there but one that is written whole, no link down, no aperture. -/
def serves (s : State) (r : Req) : Prop :=
  match r.tgt with
  | .dev pa => pa < 0x30001000000 ∧
    ((∀ l ∈ s.badLines, l < pa / 256 ∨ (pa + reqSize r.k - 1) / 256 < l) ∨ r.k = .zline ∨ ∃ b ef, r.k = .store b ef ∧ b.length = 256)
  | .host _ => s.linkUp = true
  | .fab node pa => node ∉ s.deadNodes ∧ pa < 0x30000000000

/-- The oldest request from its core to its line that is still on its way (R251). -/
def oldest (s : State) (n : Nat) (r : Req) : Prop :=
  ∀ m q, m < n → s.net[m]? = some q → q.st = .sent → q.k.isRedo = false → q.org.core = r.org.core → q.tgt.line ≠ r.tgt.line

/-- Request `n` has come so far. -/
def reached (s : State) (n : Nat) (st : ReqSt) : State :=
  { s with net := s.net.modify n fun r => { r with st := st, stamp := s.nextId }, nextId := s.nextId + 1 }

/-- No tile definition of its warp keeps a store waiting that was issued after it: each has begun to read or owes nothing (R275). -/
def undefining (s : State) (r : Req) : Prop := ∀ d ∈ s.defs, d.after r = true → d.fetched = true ∨ s.owes d.org = false

/-- The state in which each such definition has read what the store changes (R275). -/
def read (s : State) (r : Req) : State := { s with defs := (s.sealDefs r).defs }

/-- A list of requests but for the marks of fills that no longer enter a cache. -/
def unpoisoned (l : List Req) : List Req := l.map fun r => { r with poison := false }

/-- Request `n` is no more. -/
def without (s : State) (n : Nat) : State := { s with net := dropAt n s.net }

/-- A failure record once a request's failure with a cause has joined it (R256). -/
def joined (f : FailRec) (r : Req) (c : Nat) : FailRec :=
  { count := min 255 (f.count + 1), cause := if f.count = 0 then c else f.cause, orgs := f.orgs ++ [(r.org, c, 0, r.va)] }

/-- The context of an identity is not being removed. -/
def staying (s : State) (i : Nat) : Prop := ∀ c a b d, s.ctx? i = some c → c.phase ≠ .removing a b d

/-- The state after an ordered-reduction entry has acted on its target (R264): a void entry does nothing there. -/
def reduced (s : State) (r : Req) (e : OrderEntry) : Option State :=
  let x (o : List Byte) : List Byte := toBytes e.n (atomNew e.op e.n (ofBytes o) e.x 0)
  if e.void then some s
  else match r.tgt with
  | .dev pa => (s.readDev pa e.n).bind fun o => (s.charge r.org pa e.n).writeLine pa (x o) r.org.group false
  | .host ba => if s.linkUp then some { s with host := writeCells ba (x (readCells s.host ba e.n)) s.host } else none
  | .fab node pa =>
    if node ∈ s.deadNodes ∨ 0x30000000000 ≤ pa then none
    else some { s with remote := writeCells (2 ^ 52 * node + pa) (x (readCells s.remote (2 ^ 52 * node + pa) e.n)) s.remote }

end Sys2Proof.Claims

/-- R175, R176, R183, R186 to R188, R251, R275, R361: the oldest request of a core for a line is served where its bytes live, once no tile definition that its
warp issued before it has still to begin reading: it reads the bytes that stand there and
leaves what its operation says, and nothing else in any memory changes; where memory withholds the bytes, a link is down or an aperture is met it fails with
its cause, and a request at the notify aperture writes or reads its register if the register is of its group. While its instruction has not committed it stays at
its core (R93; log entry 75). -/
def Sys2Proof.Claims.RequestsServed : Prop :=
  (∀ (s : State) o, s.uncommitted o = true ↔ ∃ k r, k < 4 ∧ r ∈ (s.quad (4 * o.core + k)).recent ∧ r.seq = o.seq ∧ (s.quad (4 * o.core + k)).cycle ≤ r.commit) ∧
  (∀ (s : State) n r, s.net[n]? = some r → s.uncommitted r.org = true → exec (.homeSliceAccess n) s = .next s) ∧
  (∀ (s : State) n r, Memory.wf s → s.net[n]? = some r → r.st = .sent → r.k.isRedo = false → s.uncommitted r.org = false → oldest s n r → undefining s r → 0 < reqSize r.k → serves s r →
    let old := (List.range (reqSize r.k)).map fun k => sget 0 ((spot r.tgt).2 + k) (memNo s (spot r.tgt).1)
    ∃ t sec, exec (.homeSliceAccess n) s = .next t ∧
      t = { reached (read s r) n (.served (reqAnswer r.k old) sec) with mem := t.mem, host := t.host, remote := t.remote, l2 := t.l2, free := t.free, depart := t.depart, badLines := t.badLines, groups := t.groups, grids := t.grids, window := t.window } ∧
      ∀ k a, k < 3 → sget 0 a (memNo t k) =
        if k = (spot r.tgt).1 ∧ (spot r.tgt).2 ≤ a ∧ a < (spot r.tgt).2 + (reqNew r.k old).length then (reqNew r.k old).getD (a - (spot r.tgt).2) 0
        else sget 0 a (memNo s k)) ∧
  ∀ (s0 : State) n r, s0.net[n]? = some r → r.st = .sent → r.k.isRedo = false → s0.uncommitted r.org = false → oldest s0 n r → undefining s0 r →
    let s := read s0 r
    (∀ pa, r.tgt = .dev pa → pa < 0x30001000000 → (∃ l ∈ s.badLines, pa / 256 ≤ l ∧ l ≤ (pa + reqSize r.k - 1) / 256) → r.k ≠ .zline →
      (∀ b ef, r.k = .store b ef → pa / 256 ∈ s.badLines ∧ b.length ≠ 256) → 0 < reqSize r.k →
      exec (.homeSliceAccess n) s0 = .next (reached (s.detect pa (r.org.core / 8) (r.org.core % 8) r.org.group) n (.failed 3))) ∧
    (∀ pa, r.tgt = .dev pa → 0x30001000000 ≤ pa →
      let k := (pa - 0x30001000000) / 8
      exec (.homeSliceAccess n) s0 = .next (
        if s.classGroup k ≠ r.org.group then reached s n (.failed 2)
        else match r.k with
        | .store b _ => reached (s.notify k (BitVec.ofNat 64 (ofBytes b))) n (.served [] [])
        | _ => reached (s.readNotify k).2 n (.served (toBytes 8 (s.readNotify k).1.toNat) []))) ∧
    (∀ ba, r.tgt = .host ba → s.linkUp = false → exec (.homeSliceAccess n) s0 = .next (reached s n (.failed 1))) ∧
    ∀ node pa, r.tgt = .fab node pa →
      (node ∈ s.deadNodes → exec (.homeSliceAccess n) s0 = .next (reached s n (.failed 1))) ∧
      (node ∉ s.deadNodes → 0x30000000000 ≤ pa → exec (.homeSliceAccess n) s0 = .next (reached s n (.failed 2)))

/-- R51, R184, R189, R252, R256, R292, R296, R362: a load's or atomic's result lands in its registers and in no other (a register that an earlier
fixed-latency result not yet due writes may keep what it held); an acknowledged store leaves nothing behind; a failed
load or atomic traps its lane with a deferred data abort that carries its address, instruction and place, and an atomic joins the failure record besides; a
failed store joins its warp's failure record, or its block's and the context fault ring once the warp has exited, or the ring alone, as kind 4, once the
issuer has been saved; a refusal by the host root or another device is such a failure. -/
def Sys2Proof.Claims.RequestsReturn : Prop :=
  (∀ x y z u : Byte, loadWords 1 true [x] = [x.signExtend 32] ∧ loadWords 1 false [x] = [x.zeroExtend 32] ∧
    loadWords 2 true [x, y] = [(y ++ x).signExtend 32] ∧ loadWords 2 false [x, y] = [(y ++ x).zeroExtend 32] ∧
    ∀ g, loadWords 4 g [x, y, z, u] = [u ++ z ++ y ++ x]) ∧
  (∀ g b, (loadWords 8 g b = loadWords 4 g b ++ loadWords 4 g (b.drop 4)) ∧ loadWords 16 g b = loadWords 8 g b ++ loadWords 8 g (b.drop 8)) ∧
  (∀ (s : State) n r b sec x, s.net[n]? = some r → r.st = .served b sec → r.k.dst = some x → s.uncommitted r.org = true → exec (.loadReturn n) s = .next s) ∧
  (∀ (s : State) n r w b sec d k sx, s.net[n]? = some r → r.st = .served b sec → r.k.dst = some (d, k, sx) → s.uncommitted r.org = false → s.warp? r.org.warp = some w →
    r.lane < 32 → staying s r.org.ctx →
    let ws := loadWords k sx b
    d.toNat + ws.length ≤ 640 ∨ (640 ≤ d.toNat ∧ d.toNat + ws.length ≤ 704) →
    ∃ (t : State) (w' : Warp), exec (.loadReturn n) s = .next t ∧ t = { without s n with warps := t.warps, cores := t.cores, net := t.net, free := t.free } ∧
      unpoisoned t.net = unpoisoned (without s n).net ∧ t.warp? w.id = some w' ∧
      w' = { w with v := w'.v, s := w'.s } ∧ (∀ j, j ≠ w.id → t.warp? j = s.warp? j) ∧
      ∀ x l, l < 32 → t.reg w' x l =
          (if d.toNat ≤ x ∧ x < d.toNat + ws.length ∧ (isS d.toNat = true ∨ l = r.lane) then ws.getD (x - d.toNat) 0 else s.reg w x l) ∨
        ((∃ f ∈ w.fixed, f.reg = x ∧ (s.quad w.q).cycle < f.due) ∧ t.reg w' x l = s.reg w x l)) ∧
  (∀ (s : State) n r b sec, s.net[n]? = some r → r.st = .served b sec → r.k.dst = none → staying s r.org.ctx →
    exec (.storeAck n) s = .next (without s n)) ∧
  ∀ (s : State) n r c, s.net[n]? = some r → (r.st = .failed c ∨ (r.st = .sent ∧ c = 2 ∧ r.k.isRedo = false ∧ ∀ pa, r.tgt ≠ .dev pa)) →
    staying s r.org.ctx →
    (∀ w, r.k.dst ≠ none → s.warp? r.org.warp = some w → w.lanes.length = 32 → r.lane < 32 → r.hnd = false → r.uni = 0#32 →
      (laneAt w.lanes r.lane).exited = false → (r.counted = true → (s.ctx? r.org.ctx).isSome = true ∧ r.org.blk ≠ 0) → (∀ x ∈ w.traps, x.cls = 8 → ∀ y ∈ x.lanes, y.lane ≠ r.lane) →
      let x : TrapLane := { lane := r.lane, cause := if c = 3 then 8 else 9, addr := r.va, info := 0, more := 0, word := r.word, noSkip := false, redo := none,
                            fpos := r.hdr, fidx := r.idx }
      ∃ (t : State) (w' : Warp), exec (.deferredDataAbort n) s = .next t ∧
        t = { without s n with warps := t.warps, pops := t.pops, pages := t.pages, mats := t.mats, cgroups := t.cgroups, nextId := s.nextId + 1 } ∧
        t.warp? w.id = some w' ∧ (∀ j, j ≠ w.id → t.warp? j = s.warp? j) ∧
        w' = { w with signed := w'.signed, lanes := w'.lanes, fail := if r.counted then joined w.fail r c else w.fail,
                      traps := ((w.traps.map fun y => { y with lanes := y.lanes.filter fun z => z.lane ≠ r.lane }).filter fun y => !y.lanes.isEmpty) ++
                        [{ cls := 8, since := s.nextId, lanes := [x] }] } ∧
        ∀ l, l < 32 → laneAt w'.lanes l = if l = r.lane then { laneAt w.lanes l with park := .trap, passed := 0 } else laneAt w.lanes l) ∧
    (r.k.dst = none → (r.org.blk = 0 ∧ (s.ctx? r.org.ctx).isSome = true) ∨ (s.ctx? r.org.ctx = none ∧ ∀ g ∈ s.grids, g.id = r.org.grid → g.removed = false) →
      exec (.storeFail n) s = .next ((without s n).cfEnter r.org.group r.org.grid
        { kind := 4, cause := c, flags := 0, warp := r.org.wi, lanes := r.org.lanes.toNat, pos := r.org.pos, block := r.org.lin, count := 1,
          image := r.org.img, addr := r.va })) ∧
    (r.k.dst = none → (s.ctx? r.org.ctx).isSome = true → r.org.blk ≠ 0 →
      (∀ w, s.warp? r.org.warp = some w → w.allExited = false → exec (.storeFail n) s = .next ((without s n).onWarp w.id fun x =>
        { x with fail := joined x.fail r c })) ∧
      ((∀ w, s.warp? r.org.warp = some w → w.allExited = true) →
        exec (.storeFail n) s = .next (((without s n).onBlock r.org.blk fun b =>
          { b with fail := joined b.fail r c }).cfEnter r.org.group r.org.grid
            { kind := 1, cause := c, flags := 1, warp := r.org.wi, lanes := r.org.lanes.toNat, pos := r.org.pos, block := r.org.lin, count := 1,
              image := r.org.img, addr := r.va })))

/-- R175 to R189, R251 to R256, R292, R361, R362: requests are served where their bytes live, and what comes back lands or fails. -/
def Obligations.RequestsActs : Prop := Sys2Proof.Claims.RequestsServed ∧ Sys2Proof.Claims.RequestsReturn

namespace Sys2Proof.Claims

/-- NEXT of an entry's stream written, one above `next`. -/
def movedOn (s : State) (r : Req) (e : OrderEntry) (next : Nat) : State :=
  (s.writeVa r.org.group e.word (toBytes 8 ((next + 1) % 2 ^ 32)) .write).1

/-- An entry's answer on its way back to its core. -/
def answered (a : State × ReqSt) (r : Req) : State := { a.1 with net := a.1.net ++ [{ r with st := a.2 }] }

/-- The state in which a host root or another device has made up its mind: nothing says when it refuses. -/
def asked (s : State) : State := { s with free := s.free + 1 }

/-- An entry at its order point acts, and NEXT moves on whatever becomes of it (R264, R265): a void one does nothing at its target; one that memory
withholds, that a link or an aperture turns away or that the other side refuses is void there. -/
def Applies : Prop :=
  ∀ (s : State) r e next, r.k.entry = some e → s.nextTicket r = .ok next →
    (e.void = true → s.applyRedo r = (movedOn s r e next, .served [] [])) ∧
    (e.void = false → (∃ pa, r.tgt = .dev pa) → ∀ u, reduced s r e = some u → s.applyRedo r = (movedOn u r e next, .served [] [])) ∧
    (∀ pa, e.void = false → r.tgt = .dev pa → reduced s r e = none →
      s.applyRedo r = (movedOn (s.detect pa (r.org.core / 8) (r.org.core % 8) r.org.group) r e next, .failed 3)) ∧
    (e.void = false → (∀ pa, r.tgt ≠ .dev pa) →
      s.applyRedo r = (movedOn (asked s) r e next, .failed 2) ∨
      (∃ u, reduced (asked s) r e = some u ∧ s.applyRedo r = (movedOn u r e next, .served [] [])) ∨
      (((∃ ba, r.tgt = .host ba ∧ s.linkUp = false) ∨ ∃ node pa, r.tgt = .fab node pa ∧ node ∈ s.deadNodes) ∧
        s.applyRedo r = (movedOn (asked s) r e next, .failed 1)))

end Sys2Proof.Claims

/-- R258, R263 to R265: an ordered-reduction entry that arrives with the stream's ticket acts on its target, moves NEXT on and is acknowledged, and then so
does each held entry whose turn has come; a void one, or one that fails at its target, only moves NEXT on; one that arrives early is held, one whose ticket
has passed fails; an entry that waited at its core arrives again; where the stream's word cannot be reached the entry fails with that cause; while its
instruction has not committed, an entry stays at its core (log entry 75). -/
def Obligations.OrderedReduction : Prop :=
  (∀ (s : State) n r, s.net[n]? = some r → s.uncommitted r.org = true → exec (.redoEntryArrival n) s = .next s) ∧
  (∀ (s : State) n r, s.net[n]? = some r → r.st = .sent → r.k.isRedo = true → s.uncommitted r.org = false →
    (∀ m q, m < n → s.net[m]? = some q → q.st = .sent → q.org.core = r.org.core → sameStream q r = false) →
    exec (.redoEntryArrival n) s = .next ((without s n).orderEntry r)) ∧
  (∀ (s : State) n h, s.redos[n]? = some h → h.atCore = true →
    exec (.redoEntryResend n) s = .next ({ s with redos := dropAt n s.redos }.orderEntry h.req)) ∧
  Sys2Proof.Claims.Applies ∧
  (∀ (s : State) r e next, r.k.entry = some e → s.nextTicket r = .ok next → e.ticket < 2 ^ 32 → next < 2 ^ 32 →
    let d := (e.ticket + 2 ^ 32 - next) % 2 ^ 32
    (d = 0 → s.orderEntry r = State.drainRedo s.redos.length r (answered (s.applyRedo r) r)) ∧
    (2 ^ 31 ≤ d → s.orderEntry r = answered (s, .failed 3) r) ∧
    (0 < d → d < 2 ^ 31 → (∃ h ∈ s.redos, h.atCore = false ∧ sameStream h.req r = true ∧ (h.req.k.entry.map (·.ticket)) = some e.ticket) →
      s.orderEntry r = answered (s, .failed 3) r) ∧
    (0 < d → d < 2 ^ 31 → (∀ h ∈ s.redos, h.atCore = false → sameStream h.req r = true → (h.req.k.entry.map (·.ticket)) ≠ some e.ticket) →
      ∃ full, s.orderEntry r = { s with redos := s.redos ++ [{ req := r, atCore := full }] } ∧
        (full = true ↔ 256 ≤ (s.redos.filter fun h => !h.atCore && decide (s.orderPoint h.req = s.orderPoint r)).length))) ∧
  (∀ (s : State) k r next, s.nextTicket r = .ok next →
    let due (h : Held) : Prop := h.atCore = false ∧ sameStream h.req r = true ∧ (h.req.k.entry.map (·.ticket)) = some next
    ((∀ h ∈ s.redos, ¬ due h) → State.drainRedo k r s = s) ∧
    ((∃ h ∈ s.redos, due h) → ∃ h ∈ s.redos, due h ∧
      State.drainRedo (k + 1) r s = State.drainRedo k r (answered ({ s with redos := s.redos.erase h }.applyRedo h.req) h.req))) ∧
  ∀ (s : State) r e x, r.k.entry = some e → s.nextTicket r = .error x →
    (x.cause = 3 → s.orderEntry r = answered (s.detectVa r.org.group x.va (s.orderPoint r / 8) 0xFF, .failed 3) r) ∧
    (x.cause ≠ 0 → x.cause ≠ 3 → s.orderEntry r = answered (s, .failed x.cause) r) ∧
    (x.cause = 0 → (∀ p ∈ s.pages, p.group = r.org.group → p.page = x.va / 65536 * 65536 → p.st ≠ .failed) →
      ∃ t : State, s.orderEntry r = { t with redos := s.redos ++ [{ req := r, atCore := true }] } ∧
        ((t = s ∧ ∃ p ∈ s.pages, p.group = r.org.group ∧ p.page = x.va / 65536 * 65536 ∧ .engine (2 ^ 65 + 32 * r.org.seq + r.lane) ∈ p.users) ∨
          t = s.wantPage r.org.group r.org.core x.va .atomic (.engine (2 ^ 65 + 32 * r.org.seq + r.lane))))

namespace Sys2Proof.Claims

/-- The pages that wait, without one of them. -/
def settled (s : State) (p : Page) : State := { s with pages := s.pages.filter (· ≠ p) }

/-- A page request's user when its wait ends well, and when it ends in NOMAP: a lane that waits there goes on to its instruction again; a lane traps. -/
def goesOn (s : State) : PageUser → State
  | .engine _ => s
  | .lane i l _ hnd _ _ _ => match s.warp? i with
    | some w => s.onLanes w hnd (1#32 <<< l) fun x => if x.park = .page then { x with park := .run } else x
    | none => s

def traps (s : State) : PageUser → State
  | .engine _ => s
  | .lane i l va hnd word fetch _ => match s.warp? i with
    | none => s
    | some w =>
      if hnd then s.escalate w 5 1 (1#32 <<< l) (match (s.quad w.q).bank with | some b => (laneAt b.lanes l).addr | none => 0) va
      else s.takeTrap w false 5 [{ TrapLane.of l 1 va 0 word with noSkip := fetch, redo := if fetch then none else s.redoPlace w word (1#32 <<< l) l }]

/-- The issue that a user waits in: its warp, its number (0 of a fetch, which is of no issue), its place and its mode. -/
def issueOf (s : State) : PageUser → Nat × Nat × Nat × Bool
  | .engine _ => (0, 0, 0, false)
  | .lane i l _ hnd _ _ seq => (i, seq, match s.warp? i with | some w => (laneAt w.lanes l).addr | none => 0, hnd)

/-- Users trapped, those of one issue together (R288). -/
def noMap (s : State) (us : List PageUser) : State :=
  (us.foldl (fun l u => if issueOf s u ∈ l then l else l ++ [issueOf s u]) []).foldl
    (fun t k => ((us.filter fun u => issueOf s u = k).foldl traps t).fresh.2) s

/-- Bytes written for the front end, and the detection of an uncorrectable line that the write met (R320). -/
def written (s : State) (g a : Nat) (b : List Byte) : State :=
  match s.writeVa g a b .write with | (s, none) => s | (s, some e) => s.engineErr g e

/-- A translation that a flush of `n` pages from `a` names; 0 is all of the group (R172). -/
def named (g n a : Nat) (x : TlbEnt) : Bool := x.group = g ∧ (n = 0 ∨ (x.page < a + 65536 * n ∧ a < x.page + 2 ^ x.bits))

/-- A shelf without the group's entries that no entered operation holds (R234). -/
def keptShelf (s : State) (g : Nat) (l : List Shelf) : List Shelf :=
  (l.map fun e => if e.group = g then { e with dying := true } else e).filter fun e =>
    !e.dying || s.mats.any fun m => m.entered && m.took.contains { e with dying := false }

/-- Something that a flush has dropped is still in use: a request of the group from before, an ordered-reduction entry of it from before that is held, or a shelf
entry of it that an operation holds. -/
def stillUsed (s : State) (g seq : Nat) : Prop :=
  (∃ r ∈ s.net, r.org.group = g ∧ r.org.seq ≤ seq ∧ r.st = .sent) ∨ (∃ h ∈ s.redos, h.req.org.group = g ∧ h.req.org.seq ≤ seq) ∨ ∃ c ∈ s.clusters, ∃ e ∈ c.2.shelf, e.group = g ∧ e.dying = true

/-- R172, R207, R234: a flush begins when FLUSHN is written, one of the whole space where another has not ended (log entry 79); every core drops the
translations of the group that it names, every record cache and warp the group's records, and every shelf the group's entries that no entered operation
holds; FLUSHN is free again once nothing from before is in use. -/
def Flushes : Prop :=
  (∀ g v (s : State), ((s.grp g).flushn = none →
      exec (.flushnWrite g v) s = .next (s.onGrp g fun x => { x with flushn := some { va := x.flushva, n := v.toNat, dropped := none } })) ∧
    ((s.grp g).flushn ≠ none → exec (.flushnWrite g v) s = .next (s.onGrp g fun x => { x with flushn := some { va := 0, n := 0, dropped := none } }))) ∧
  (∀ (s : State) g f, (s.grp g).flushn = some f → f.dropped = none → scanon Core.init s.cores = true → scanon Cluster.init s.clusters = true →
    ∃ t : State, exec (.flushComplete g) s = .next t ∧ t = { s with cores := t.cores, clusters := t.clusters, groups := t.groups, warps := t.warps } ∧
      (∀ k, t.core k = { s.core k with tlb := (s.core k).tlb.filter fun x => !named g f.n f.va x }) ∧
      (∀ k, t.cluster k = { s.cluster k with recs := (s.cluster k).recs.filter (fun r => r.1 ≠ g), shelf := keptShelf s g (s.cluster k).shelf }) ∧
      t.warps = s.warps.map (fun (w : Warp) => if s.groupOf w = g then { w with recs := [] } else w) ∧
      (∀ h, h ≠ g → t.grp h = s.grp h) ∧
      (¬ stillUsed t g s.nextId → t.grp g = { s.grp g with flushn := none }) ∧
      (stillUsed t g s.nextId → t.grp g = { s.grp g with flushn := some { f with dropped := some s.nextId } })) ∧
  ∀ (s : State) g f k, (s.grp g).flushn = some f → f.dropped = some k →
    (¬ stillUsed s g k → exec (.flushComplete g) s = .next (s.onGrp g fun x => { x with flushn := none })) ∧
    (stillUsed s g k → exec (.flushComplete g) s = .next s)

end Sys2Proof.Claims

/-- R171, R288, R335: a page request that had no room is written to its group's ring when there is room; a response covers every request up to its number;
once the walk after it ends the waiting lanes issue again, or trap with NOMAP where service is still needed or the bound has run out; an engine's operation
then finds the request failed. The ring's header and records and the first number are log entry 36. R170, R172, R207, R234: flushes. -/
def Obligations.PageService : Prop :=
  (∀ (s : State) g p head tail, (s.pages.find? fun p => decide (p.group = g) && p.unasked) = some p →
    s.readVaN g (s.grp g).prbase 4 = some head → s.readVaN g ((s.grp g).prbase + 4) 4 = some tail →
    let size := (s.grp g).prsize
    (tail + 1) % size ≠ head % size →
    let seq := (s.grp g).prseq + 1
    let acc := match p.acc with | .read => 1 | .write => 2 | .fetch => 3 | .atomic => 4 | .copy _ => 5
    let b := toBytes 8 seq ++ toBytes 8 p.page ++ toBytes 1 acc ++ toBytes 1 (p.core / 8) ++ toBytes 1 (p.core % 8) ++ List.replicate 13 0
    let u := written (s.onGrp g fun x => { x with prseq := seq }) g ((s.grp g).prbase + 64 + 32 * (tail % size)) b
    let v := written u g ((s.grp g).prbase + 4) (toBytes 4 ((tail + 1) % size))
    exec (.pageRequestRingRoom g) s = .next { v.notify (s.grp g).prnotify 1 with
      pages := (v.notify (s.grp g).prnotify 1).pages.map fun q => if q = p then { q with st := .asked seq v.ns } else q }) ∧
  (∀ g v (s : State), exec (.pageResponseWrite g v) s = .next { s.onGrp g fun x => { x with prresp := v.toNat } with
    pages := s.pages.map fun p => match p.st with
      | .asked q _ => if p.group = g ∧ q ≤ v.toNat then { p with st := .answered } else p
      | _ => p }) ∧
  (∀ (s : State) n p, s.pages[n]? = some p → p.st = .answered → s.walk p.group p.page ≠ .svc →
    exec (.translationWalkEnd n) s = .next (p.users.foldl goesOn (settled s p))) ∧
  (∀ (s : State) n p ev, s.pages[n]? = some p →
    (ev = .translationWalkEnd n ∧ p.st = .answered ∧ s.walk p.group p.page = .svc) ∨
      (∃ t, ev = .pageServiceBoundExpiry n ∧ (p.st = .noRoom t ∨ ∃ q, p.st = .asked q t) ∧
        t + 1000000 * (if (s.grp p.group).prbound = 0 then 100 else (s.grp p.group).prbound) ≤ s.ns) →
    ((∀ k, .engine k ∉ p.users) → exec ev s = .next (noMap (settled s p) p.users)) ∧
    ((∃ k, .engine k ∈ p.users) → exec ev s = .next (noMap { s with
      pages := s.pages.map fun q => if q = p then { q with st := .failed, users := p.users.filter PageUser.isEngine } else q } p.users))) ∧
  Sys2Proof.Claims.Flushes

/-! # Engines: copies, tiles, the matrix engine and adapters -/

namespace Sys2Proof.Claims

/-- The entries of a copy's table, by number, and their addresses (R194, R205). -/
def tableOf (c : Copy) : List Nat × (Nat → Nat) :=
  match c.k with
  | .cpy _ _ => ([], fun _ => 0)
  | .cpybt _ d => (List.range (dLo d 5), fun i => dAddr d 0 + 8 * (dw d 7 + i))
  | .tst t _ => (tEntries t, fun i => tTable t + 8 * i)

/-- What reading entry `i` of a copy's table gives: an address, or the failure that it is. -/
def entryNow (s : State) (c : Copy) (i : Nat) : Except VaErr Nat :=
  match s.readVa c.org.group ((tableOf c).2 i) 8 (.copy false) with
  | .error e => .error e
  | .ok b => if 2 ^ 52 ≤ ofBytes b then .error { cause := 6, va := (tableOf c).2 i } else .ok (ofBytes b)

/-- The entries that the engine has not read yet are read in order, up to the first that cannot be read or that is no address. -/
def entered (s : State) : List Nat → Copy → Copy × Option VaErr
  | [], c => (c, none)
  | i :: r, c =>
    if (c.entry i).isSome then entered s r c
    else match entryNow s c i with
      | .error e => (c, some e)
      | .ok e => entered s r { c with snap := (2 ^ 64 + i, toBytes 8 e) :: c.snap }

/-- The words that a copy has still to move, one after another, up to the first failure. -/
def endAll (msg : Bool) : List CWord → State × Copy → State × Copy × Option VaErr
  | [], q => (q.1, q.2, none)
  | x :: r, q => match q.1.endWord q.2 msg x with
    | .ok u => endAll msg r u
    | .error e => (q.1, q.2, some e)

/-- What a copy that has been started does when it ends: the rest of its table, then the words not yet moved. -/
def carried (s : State) (c : Copy) : State × Copy × Option VaErr :=
  match entered s (tableOf c).1 c with
  | (c', some e) => (s, c', some e)
  | (c', none) => endAll (s.copyMsg c) c'.words (s, c')

/-- A copy leaves: its token falls by one, and at zero the lanes that wait for it go on (R198 to R200). -/
def tokenFalls (s : State) (n : Nat) (c : Copy) : State :=
  let u : State := { s with copies := dropAt n s.copies }.onWarp c.org.warp fun x => { x with tok := supd 0 c.tok (· - 1) x.tok }
  match u.warp? c.org.warp with
  | some w => if sget 0 c.tok w.tok = 0 then u.passLanes w (w.parkedFor (.token c.tok)) else u
  | none => u

/-- The four bytes that a word of a copy brings: zeros from a hole, else from the side that its address names. -/
def brings (s : State) (o : Origin) (x : CWord) (b : List Byte) : Prop :=
  match x.src with
  | none => b = [0, 0, 0, 0]
  | some a => if 2 ^ 63 ≤ a then s.scratchGet o.blk (a - 2 ^ 63) 4 = some b else s.readVa o.group a 4 (.copy false) = .ok b

/-- The four bytes that a word of a copy writes: those that the engine has, of the tile's image for a TST and else of its own earlier reading, or what the word's
source brings now. -/
def gives (s : State) (c : Copy) (x : CWord) (b : List Byte) : Prop :=
  match c.k with
  | .tst _ (some m) => b = readCells m (4 * x.n) 4
  | _ => match c.snap.find? fun y => y.1 = 2 ^ 65 + x.n with
    | some y => b = y.2
    | none => brings s c.org x b

/-- The words of a TST (R205, R219): each row's words in the order of the tile's image, to the row's place, and where the record is scaled its headers'; a hole
writes no row. `e` is the row's entry where the record has a table. -/
def TstWords : Prop :=
  ∀ (t : List Byte) r e (x : CWord), r < tExtent t → (tTable t = 0 → e = none) → (tTable t ≠ 0 → ∃ y, e = some y) →
    (x ∈ tstRow t r e ↔ x.src = none ∧
      ((∃ k, k < tBpr t / 4 ∧ x.n = 64 * r + k ∧ ((e = none ∧ x.dst = (tBase t + r * tStride t) % 2 ^ 64 + 4 * k) ∨
          ∃ y, e = some y ∧ y ≠ 0 ∧ x.dst = (y + tBase t + r % tBr t * tStride t) % 2 ^ 64 + 4 * k)) ∨
        (tScaled t = true ∧ ∃ k, k < (tBlocks t).1 / 2 ∧ x.n = 8192 + 8 * r + k ∧ x.dst = (tScale t + 32 * r) % 2 ^ 64 + 4 * k)))

/-- What one word of a copy does (R193, R194, R219, R319, R338): its bytes go to the scratchpad, or by the group's tables to memory; a word of a tagged message
goes to the other device alone, and a TST writes no scratchpad. A line that is uncorrectable takes bytes only whole: where the copy covers it with words of which
none has been written, all of them go at once. -/
def WordMoves : Prop :=
  (∀ (s : State) o x b, s.readWord o x = .ok b ↔ brings s o x b) ∧
  (∀ (s : State) (c : Copy) x b, c.ready = true → (s.wordBytes c x = .ok b ↔ gives s c x b)) ∧
  (∀ (s : State) (c : Copy) msg x, (∀ b, s.wordBytes c x = .ok b → s.moveWord c msg x = s.putWord c msg x b) ∧
    ∀ e, s.wordBytes c x = .error e → s.moveWord c msg x = .error e) ∧
  (∀ (s : State) (c : Copy) msg x b,
    (c.isTst = true → 2 ^ 52 ≤ x.dst → s.putWord c msg x b = .error { cause := 5, va := x.dst }) ∧
    (c.isTst = false → 2 ^ 63 ≤ x.dst → s.putWord c msg x b = .ok (s.onBlock c.org.blk fun k => { k with
      scratch := writeCells (x.dst - 2 ^ 63) b k.scratch
      badWords := k.badWords.filter fun w => !(decide (x.dst - 2 ^ 63 ≤ 4 * w) && decide (4 * w + 4 ≤ x.dst - 2 ^ 63 + b.length)) })) ∧
    (c.isTst = false ∨ x.dst < 2 ^ 52 → x.dst < 2 ^ 63 → (∀ e, s.place c.org.group x.dst (.copy true) = .error e → s.putWord c msg x b = .error e) ∧
      ∀ p, s.place c.org.group x.dst (.copy true) = .ok p →
        (∀ node pa, p = .fab node pa → 0x30000000000 ≤ pa → pa < 0x30001000000 →
          s.putWord c msg x b = if msg = false then .error { cause := 2, va := x.dst } else if node ∈ s.deadNodes then .error { cause := 1, va := x.dst } else .ok s) ∧
        ((∀ node pa, p = .fab node pa → pa < 0x30000000000 ∨ 0x30001000000 ≤ pa) →
          (∀ u, s.writeTgt p b c.org.group false = .ok u → s.putWord c msg x b = .ok u) ∧
          ∀ k, s.writeTgt p b c.org.group false = .error k → s.putWord c msg x b = .error { cause := k, va := x.dst }))) ∧
  (∀ (s : State) (c : Copy) msg x,
    (c.done x.n = true → s.endWord c msg x = .ok (s, c)) ∧
    (c.done x.n = false → s.badAt c x = false ∨ c.lineWords (x.dst / 256) = none →
      (∀ u, s.moveWord c msg x = .ok u → s.endWord c msg x = .ok (u, { c with snap := (x.n, []) :: c.snap })) ∧
      ∀ e, s.moveWord c msg x = .error e → s.endWord c msg x = .error e) ∧
    ∀ l, c.done x.n = false → s.badAt c x = true → c.lineWords (x.dst / 256) = some l →
      (∀ e, l.mapM (s.wordBytes c) = .error e → s.endWord c msg x = .error e) ∧ ∀ bs, l.mapM (s.wordBytes c) = .ok bs → (∀ u, s.writeSide c.org false (256 * (x.dst / 256)) bs.flatten = .ok u →
        s.endWord c msg x = .ok (u, { c with snap := l.map (fun y => (y.n, [])) ++ c.snap })) ∧
      ∀ e, s.writeSide c.org false (256 * (x.dst / 256)) bs.flatten = .error e → s.endWord c msg x = .error e) ∧
  (∀ (s : State) (c : Copy) x,
    (s.badAt c x = true ↔ x.dst < 2 ^ 63 ∧ ∃ pa, s.place c.org.group x.dst (.copy true) = .ok (.dev pa) ∧ pa / 256 ∈ s.badLines)) ∧
  ∀ (c : Copy) line,
    (∀ l, c.lineWords line = some l → l.length = 64 ∧ ∀ k x, l[k]? = some x → x ∈ c.words ∧ x.dst = 256 * line + 4 * k ∧ c.done x.n = false) ∧
    ((∀ k, k < 64 → ∃ x ∈ c.words, x.dst = 256 * line + 4 * k) → (∀ x ∈ c.words, x.dst / 256 = line → c.done x.n = false) → (c.lineWords line).isSome = true)

/-- The entries of a copy's table that `pick` names, read now where they can be. -/
def peeks (s : State) (pick : Nat → Bool) (c : Copy) : Copy :=
  (tableOf c).1.foldl (fun c i => if pick i ∧ (c.entry i).isNone then
    (match entryNow s c i with | .ok e => { c with snap := (2 ^ 64 + i, toBytes 8 e) :: c.snap } | .error _ => c) else c) c

/-- The engine comes to a word: it moves it where `mv` says so, reads it alone where `rd` does, and leaves it otherwise or where it cannot (R197). `fr` is
the model's counter of free values as it then stands. -/
def comesTo (mv rd : Bool) (fr : Nat) (q : State × Copy) (x : CWord) : State × Copy :=
  let s : State := { q.1 with free := fr }
  if q.2.done x.n then q
  else if mv then (match s.moveWord q.2 false x with | .ok t => (t, { q.2 with snap := (x.n, []) :: q.2.snap }) | .error _ => q)
  else if rd ∧ (q.2.held x.n).isNone then
    (match s.readWord q.2.org x with | .ok b => (s, { q.2 with snap := (2 ^ 65 + x.n, b) :: q.2.snap }) | .error _ => q)
  else q

/-- A copy has come to a range: an entry of its table read, a source whose word it has read or moved, or a destination written. -/
def hasRead (c : Copy) (p : Nat × Nat) : Prop :=
  (∃ i ∈ (tableOf c).1, (c.entry i).isSome = true ∧ p = ((tableOf c).2 i, 8)) ∨
    ∃ x ∈ c.words, (c.done x.n = true ∨ (c.held x.n).isSome = true) ∧ ∃ a, x.src = some a ∧ p = (a, 4)
def hasWritten (c : Copy) (p : Nat × Nat) : Prop := ∃ x ∈ c.words, c.done x.n = true ∧ p = (x.dst, 4)

/-- Some range of global addresses touches a sector. -/
def touches (P : Nat × Nat → Prop) (k : Nat) : Prop := ∃ p, P p ∧ p.1 < 2 ^ 63 ∧ 0 < p.2 ∧ p.1 / 64 ≤ k ∧ k ≤ (p.1 + p.2 - 1) / 64

/-- Far-store sectors of a group's addresses charged to it and to its grid (R89). -/
def sectorsPaid (s : State) (o : Origin) (l : List Nat) : State :=
  l.foldl (fun t k => match t.place o.group (64 * k) (.copy false) with | .ok (.dev pa) => t.charge o pa 64 | _ => t) s

/-- A copy's far-store bytes are counted by sectors (R89, R196): each sector once as it is first read, and once as it is first written. -/
def Pays : Prop :=
  ∀ (s : State) (c c' : Copy), ∃ rs ws : List Nat, rs.Nodup ∧ ws.Nodup ∧ (∀ k, k ∈ rs ↔ touches (hasRead c') k ∧ ¬touches (hasRead c) k) ∧
    (∀ k, k ∈ ws ↔ touches (hasWritten c') k ∧ ¬touches (hasWritten c) k) ∧ s.payCopy c c' = sectorsPaid (sectorsPaid s c.org rs) c.org ws

/-- The engine at work before the landing (R197, R219; log entry 18): some entries of the table are read, and then, in the order of the layout, some words are
moved, some read alone and some left; a tagged message is left whole. Nothing but those words' places changes, and what serving them changes. A copy whose issue
may yet be discarded does not begin (R93; log entry 75), nor a TST whose tile has not been read. -/
def Starts : Prop :=
  (∀ (s : State) n c, s.copies[n]? = some c → c.ready = false ∨ s.uncommitted c.org = true → exec (.copyEngineStart n) s = .next s) ∧
  ∀ (s : State) n c, s.copies[n]? = some c → c.ready = true → s.uncommitted c.org = false → ∃ (ent mv rd : Nat → Bool) (fr : Nat → Nat) (t : State),
    let c' : Copy := { peeks s ent c with started := true }
    let q := if s.copyMsg c' then (s, c') else c'.words.zipIdx.foldl (fun q y => comesTo (mv y.2) (rd y.2) (fr y.2) q y.1) (s, c')
    t = { q.1 with copies := s.copies.set n q.2, free := t.free } ∧ exec (.copyEngineStart n) s = .next (t.payCopy c q.2)

/-- A failed page request of which an operation has now heard (R171). -/
def heard (s : State) (p : Page) (op : Nat) : State :=
  { s with pages := if p.users.erase (.engine op) = [] then s.pages.filter (· ≠ p)
                    else s.pages.map fun q => if q = p then { q with users := p.users.erase (.engine op) } else q }

/-- An error of memory that an engine met is detected at its unit (R320). -/
def met (s : State) (o : Origin) (scratch : Bool) (va cause : Nat) : State :=
  if cause ≠ 3 then s
  else if scratch then s.detectUnit (o.core / 8) (unitTag 3 (o.core % 8) 0xFF) o.group 0
  else s.detectVa o.group va (o.core / 8) 0xFF

/-- A copy ends as failed (R199): it has left its destination lines, its failure is recorded, and its token falls. -/
def copyLost (s : State) (n : Nat) (c c' : Copy) (cause va : Nat) : State :=
  tokenFalls (((met s c.org (decide (2 ^ 63 ≤ va)) va cause).dropLines c.org c'.written.1).failStore c.org cause 4 va) n c

end Sys2Proof.Claims

/-- R89, R192 to R199, R219, R319, R338: the words of CPY, CPYBT and TST, each from its place in one layout to its place in the other; the engine reads and writes
some of them, and reads entries of the table, at moments of its own; a copy lands when every word has moved, and its token falls; a copy that meets a
failure ends with it, the words moved before staying, as does one that another memory refuses; one that needs a page asks for it, and ends once the request
has failed. When each word is read and written is log entry 18, that nothing begins before its issue commits log entry 75, and how sectors are counted log
entry 76: the model's choices. -/
def Obligations.CopyEngine : Prop :=
  (∀ sc d x, x ∈ cpyWords sc d ↔ ∃ i0 i1 i2 i3, i0 < dLo d 4 / 4 ∧ i1 < dHi d 4 ∧ i2 < dLo d 5 ∧ i3 < dHi d 5 ∧
    let n := i0 + dLo d 4 / 4 * (i1 + dHi d 4 * (i2 + dLo d 5 * i3))
    let st := 4 * i0 + i1 * dw d 6 + i2 * (256 * dLo d 7) + i3 * (256 * dHi d 7)
    x = { n := n, src := some (dAddr d 0 + if sc then 4 * n else st), dst := dAddr d 2 + if sc then st else 4 * n }) ∧
  (∀ sc d i2 b x, x ∈ btWords sc d i2 b ↔ (sc = false ∨ b ≠ 0) ∧ ∃ i0 i1, i0 < dLo d 4 / 4 ∧ i1 < dHi d 4 ∧
    let n := i0 + dLo d 4 / 4 * (i1 + dHi d 4 * i2)
    let blk := b + 4 * i0 + i1 * dw d 6
    x = { n := n, src := if sc then some (dAddr d 2 + 4 * n) else if b = 0 then none else some blk, dst := if sc then blk else dAddr d 2 + 4 * n }) ∧
  Sys2Proof.Claims.TstWords ∧ Sys2Proof.Claims.WordMoves ∧ Sys2Proof.Claims.Pays ∧ Sys2Proof.Claims.Starts ∧
  ∀ (s : State) n c, s.copies[n]? = some c → c.started = true →
    let r := carried s c
    let paid := r.1.payCopy c r.2.1
    (r.2.2 = none → exec (.copyLand n) s = .next (tokenFalls ((paid.dropLines c.org r.2.1.written.1).count c.org.blk 11 r.2.1.written.2) n c)) ∧
    (∀ e, r.2.2 = some e → e.cause ≠ 0 → exec (.copyFail n) s = .next (copyLost paid n c r.2.1 e.cause e.va)) ∧
    (r.2.2 = none → let ws := s.windows c.org.group r.2.1.ranges
      ws ≠ [] → ∃ a ∈ ws, exec (.copyFail n) s = .next (copyLost (asked s) n c c 2 a)) ∧
    ∀ e ev, r.2.2 = some e → e.cause = 0 → ev = .copyLand n ∨ ev = .copyFail n →
      (∀ p, s.pageLost c.org.group c.org.core e.va c.org.seq = some p → exec ev s = .next (copyLost (heard s p c.org.seq) n c c 5 e.va)) ∧
      (s.pageLost c.org.group c.org.core e.va c.org.seq = none → s.pageAt c.org.group c.org.core e.va = none →
        exec ev s = .next (s.wantPage c.org.group c.org.core e.va (.copy true) (.engine c.org.seq)))

namespace Sys2Proof.Claims

/-- Where a tile definition's row and its headers come from, and go to in the image: image place, source, length (R205). `e` is the row's entry where the
record has a table; a hole has no row. -/
def rowParts (t : List Byte) (r e : Nat) : List (Nat × Nat × Nat) :=
  (if tTable t = 0 then [(256 * r, (tBase t + r * tStride t) % 2 ^ 64, tBpr t)]
   else if e = 0 then [] else [(256 * r, (e + tBase t + r % tBr t * tStride t) % 2 ^ 64, tBpr t)]) ++
  if tScaled t then [(32768 + 32 * r, (tScale t + 32 * r) % 2 ^ 64, 2 * tHeads t)] else []

/-- Byte `i` of the `n` bytes at `a` as the fetcher finds it: one that it has read for good, ahead of a store (R275), or else as it stands now or as the last
look found it under `key` (R211). -/
def looked (s : State) (d : Def) (key a n i : Nat) (v : Byte) : Prop :=
  (∃ y ∈ d.sealed, y.1 ≤ a + i ∧ a + i < y.1 + y.2.length ∧ v = y.2.getD (a + i - y.1) 0) ∨
  ((∀ y ∈ d.sealed, ¬(y.1 ≤ a + i ∧ a + i < y.1 + y.2.length)) ∧
    ((∃ b, d.read s a n = .ok b ∧ v = b.getD i 0) ∨ ∃ x ∈ d.snap, x.1 = key ∧ x.2.length = n ∧ v = x.2.getD i 0))

/-- An address that the fetcher may find in entry `k` of the record's table. -/
def entryIs (s : State) (d : Def) (k e : Nat) : Prop :=
  e < 2 ^ 52 ∧ ∃ v : List Byte, e = ofBytes v ∧ v.length = 8 ∧ ∀ i, i < 8 → looked s d (2 ^ 64 + k) (tTable d.trec + 8 * k) 8 i (v.getD i 0)

/-- What a look of the fetcher takes down: entries, and the bytes of rows and headers, each as `looked` has it (R211). -/
def Looks : Prop :=
  (∀ (s : State) (d : Def) x, recOk d.trec = true → x ∈ d.early s →
    (∃ k ∈ tEntries d.trec, ∃ e, x = (2 ^ 64 + k, toBytes 8 e) ∧ entryIs s d k e) ∨
    ∃ r e, ∃ p ∈ rowParts d.trec r e, r < tExtent d.trec ∧ (tTable d.trec = 0 ∨ (2 ^ 64 + r / tBr d.trec, toBytes 8 e) ∈ d.early s) ∧
      x.1 = p.2.1 ∧ x.2.length = p.2.2 ∧ ∀ i, i < p.2.2 → looked s d p.2.1 p.2.1 p.2.2 i (x.2.getD i 0)) ∧
  (∀ (s : State) (d : Def) r, recOk d.trec = true → tTable d.trec = 0 → r < tExtent d.trec → ∀ p ∈ rowParts d.trec r 0, (d.read s p.2.1 p.2.2).isOk = true →
    ∃ b, (p.2.1, b) ∈ d.early s) ∧
  ∀ (s : State) (d : Def) m, recOk d.trec = true → d.image s = .ok m → ∃ es : Nat → Nat, (∀ k ∈ tEntries d.trec, entryIs s d k (es k)) ∧
    (∀ r, r < tExtent d.trec → ∀ p ∈ rowParts d.trec r (es (r / tBr d.trec)), ∀ i, i < p.2.2 → looked s d p.2.1 p.2.1 p.2.2 i (sget 0 (p.1 + i) m)) ∧
    ∀ k, (∀ r, r < tExtent d.trec → ∀ p ∈ rowParts d.trec r (es (r / tBr d.trec)), k < p.1 ∨ p.1 + p.2.2 ≤ k) → sget 0 k m = 0

/-- R275: a store of the defining warp issued after its TDEF waits until the definition may read, and each source word that it changes is read for good before
the store is served. -/
def Seals : Prop :=
  (∀ (s : State) n r d, s.net[n]? = some r → d ∈ s.defs → d.after r = true → d.fetched = false → s.owes d.org = true →
    exec (.homeSliceAccess n) s = .next s) ∧
  (∀ (s : State) r pa b ef, r.tgt = .dev pa → r.k = .store b ef →
    s.sealDefs r = { s with defs := s.defs.map fun d => if d.after r then d.seal s pa b.length else d }) ∧
  ∀ (s : State) (d : Def) pa n, let d' := d.seal s pa n
    d' = { d with sealed := d'.sealed } ∧ (∀ y ∈ d.sealed, y ∈ d'.sealed) ∧
    (∀ y ∈ d'.sealed, y ∉ d.sealed → ∃ p ∈ d.places s, y.1 ∈ s.wordsIn d.org.group p.1 p.2 pa n) ∧
    ∀ p ∈ d.places s, ∀ a ∈ s.wordsIn d.org.group p.1 p.2 pa n, (d.read s a 4).isOk = true → ∃ b, (a, b) ∈ d'.sealed

/-- The definition of a name has come in: its entry is live, its waiting readers are served, then a kill that waits acts (R208). -/
def landed (s : State) (d : Def) (img : Sparse Byte) (faulted : Bool) : State :=
  let e := s.entry d.cg d.name
  let mine (x : Waiter) : Bool := decide (x.gen = d.gen) && !x.ask.defines
  let u := s.onEntry d.cg d.name fun e => { e with st := .live, faulted := faulted, img := img, kill := false, waiters := e.waiters.filter fun x => !mine x }
  let u := (e.waiters.filter mine).foldl (fun u x => u.serveReader d.cg d.name x) u
  if e.kill then u.killName d.cg d.name else u

/-- A reader has taken all that it reads; the last reader of a draining name frees it (R208). -/
def readerGone (s : State) (r : Reader) : State :=
  let u : State := { s with readers := s.readers.erase r }
  if (u.entry r.cg r.name).st = .draining ∧ u.reading r.cg r.name = false then u.freeName r.cg r.name else u

/-- The bytes of a reader's result in a lane: image place and words, for TLD and TROW (R217). -/
def readerOf : TileAsk → Option (Fld × Nat × List (Nat × Nat))
  | .tld wide d xs => some (d, if wide then 2 else 1, xs)
  | .trow d xs => some (d, 2, xs.map fun x => (x.1, 256 * x.2 + 8 * x.1))
  | _ => none

/-- The far-store sectors that some ranges of an operation touch are counted, each once; the model's counter of free values moves on. -/
def sectorCounts (s : State) (o : Origin) (ps : List (Nat × Nat)) (u : State) : Prop :=
  ∃ fr, ∃ l : List Nat, l.Nodup ∧ (∀ k, k ∈ l ↔ touches (· ∈ ps) k) ∧ u = sectorsPaid { s with free := fr } o l

/-- The sources before the one that holds an address. -/
def before (ps : List (Nat × Nat)) (va : Nat) : List (Nat × Nat) := ps.takeWhile fun p => decide (va < p.1 ∨ p.1 + p.2 ≤ va)

end Sys2Proof.Claims

/-- R89, R205, R208, R211, R212, R217, R219, R275: the fetcher looks at a definition's sources once the warp's earlier stores are acknowledged, and at any moment
from then on; when it lands, each row and header of the image holds bytes of its source, found at one of those moments or now, holes and the rest are zero,
and the entry becomes live with it, or faulted with the failure recorded, where a source cannot be read or lies where another memory refuses it; the sectors that it
has read are counted. TLD and TROW receive the image's words; TST takes the image for its copy. Nothing begins before its issue commits (log entry 75); sectors are
counted as log entry 76 says. -/
def Obligations.TileFetcher : Prop :=
  (∀ (s : State) n d, s.defs[n]? = some d → s.uncommitted d.org = false →
    (d.fetched = true ∨ ∀ r ∈ s.net, r.counted = true → r.k.isRedo = false → r.org.warp = d.org.warp → d.org.seq ≤ r.org.seq) →
    ∃ t : State, exec (.tileDefinitionFetch n) s = .next t ∧
      t = { s with defs := s.defs.set n { d with fetched := true, snap := d.early s }, free := t.free }) ∧
  (∀ (s : State) n d, s.defs[n]? = some d → s.uncommitted d.org = true ∨ (d.fetched = false ∧
    ∃ r ∈ s.net, r.counted = true ∧ r.k.isRedo = false ∧ r.org.warp = d.org.warp ∧ r.org.seq < d.org.seq) → exec (.tileDefinitionFetch n) s = .next s) ∧
  Sys2Proof.Claims.Looks ∧ Sys2Proof.Claims.Seals ∧
  (∀ (s : State) g ps a, a ∈ s.windows g ps ↔
    (∃ p ∈ ps, p.1 ≤ a ∧ a < p.1 + p.2 ∧ (a = p.1 ∨ a % 256 = 0)) ∧ ∃ t, s.place g a (.copy false) = .ok t ∧ ∀ pa, t ≠ .dev pa) ∧
  (∀ (s : State) n d m, s.defs[n]? = some d → d.fetched = true → d.image s = .ok m → (s.entry d.cg d.name).st = .defining → (s.entry d.cg d.name).gen = d.gen →
    (∃ u, sectorCounts s d.org (d.places s) u ∧ exec (.tileDefinitionLands n) s = .next (landed { u with defs := dropAt n s.defs } d m false)) ∨
      ∃ a ∈ s.windows d.org.group (d.places s), ∃ u, sectorCounts s d.org (before (d.places s) a) u ∧
        exec (.tileDefinitionLands n) s = .next (landed (({ u with defs := dropAt n s.defs } : State).failStore d.org 2 8 a) d [] true)) ∧
  (∀ (s : State) n d e, s.defs[n]? = some d → d.fetched = true → d.image s = .error e → (s.entry d.cg d.name).st = .defining →
    (s.entry d.cg d.name).gen = d.gen →
    (e.cause ≠ 0 → ∃ u, sectorCounts s d.org (before (d.places s) e.va) u ∧ exec (.tileDefinitionLands n) s = .next (landed
      (({ met u d.org d.scratch e.va e.cause with defs := dropAt n s.defs } : State).failStore d.org e.cause 8 e.va) d [] true)) ∧
    (∀ p, e.cause = 0 → s.pageLost d.org.group d.org.core e.va d.org.seq = some p →
      ∃ u, sectorCounts (heard s p d.org.seq) d.org (before (d.places s) e.va) u ∧ exec (.tileDefinitionLands n) s = .next (landed
        (({ u with defs := dropAt n s.defs } : State).failStore d.org 5 8 e.va) d [] true)) ∧
    (e.cause = 0 → s.pageLost d.org.group d.org.core e.va d.org.seq = none → s.pageAt d.org.group d.org.core e.va = none →
      ∃ fr, exec (.tileDefinitionLands n) s = .next (({ s with free := fr } : State).wantPage d.org.group d.org.core e.va (.copy false) (.engine d.org.seq)))) ∧
  (∀ (s : State) n r, s.readers[n]? = some r → s.uncommitted r.org = true → exec (.tileReaderDone n) s = .next s) ∧
  (∀ (s : State) n r w d k xs, s.readers[n]? = some r → s.uncommitted r.org = false → readerOf r.ask = some (d, k, xs) → s.warp? r.org.warp = some w → d.toNat + k ≤ 640 →
    (∀ x ∈ xs, x.1 < 32) → (xs.map (·.1)).Nodup → scanon 0 (s.entry r.cg r.name).img = true →
    ∃ (u : State) (w' : Warp), exec (.tileReaderDone n) s = .next (readerGone u r) ∧ u = { s with warps := u.warps, free := u.free } ∧ u.warp? w.id = some w' ∧
      w' = { w with v := w'.v } ∧ (∀ j, j ≠ w.id → u.warp? j = s.warp? j) ∧
      (∀ x ∈ xs, ∀ i, i < k → u.reg w' (d.toNat + i) x.1 = BitVec.ofNat 32 (ofBytes (readCells (s.entry r.cg r.name).img (x.2 + 4 * i) 4)) ∨
        ((∃ f ∈ w.fixed, f.reg = d.toNat + i ∧ (s.quad w.q).cycle < f.due) ∧ u.reg w' (d.toNat + i) x.1 = s.reg w (d.toNat + i) x.1)) ∧
      ∀ y l, l < 32 → ¬(d.toNat ≤ y ∧ y < d.toNat + k ∧ l ∈ xs.map (·.1)) → u.reg w' y l = s.reg w y l) ∧
  ∀ (s : State) n r k t, s.readers[n]? = some r → s.uncommitted r.org = false → r.ask = .tst k t →
    exec (.tileReaderDone n) s = .next (readerGone { s with copies := s.copies.map fun c =>
      if c.id = k then { c with k := .tst t (some (s.entry r.cg r.name).img) } else c } r)

namespace Sys2Proof.Claims

/-- Element `k` of row `i` of a tile as a float (R225). -/
def fElem (e : Entry) (i k : Nat) : FV :=
  elemF e.trec ((List.range 256).map fun o => sget 0 (256 * i + o) e.img) ((List.range 32).map fun o => sget 0 (32768 + 32 * i + o) e.img) k

/-- Byte `k` of row `i` of a tile as an integer (R132). -/
def iElem (uns : Bool) (e : Entry) (i k : Nat) : Int := let b := sget 0 (256 * i + k) e.img; if uns then (b.toNat : Int) else b.toInt

/-- Element (i, j) of an accumulator after the K steps of its chain: each adds one exact product and rounds once, to nearest; or each adds one integer product,
wrapping or saturating. With it, the exceptions of the steps (R132, R134, R241). -/
def chain (k : MMKind) (a b : Entry) (i j : Nat) (x : Word) : Word × BitVec 8 :=
  (List.range (kOf k)).foldl (fun x n => match k with
    | .i8 sat ua ub =>
      let y := x.1.toInt + iElem ua a i n * iElem ub b j n
      let z := if sat then max (-2 ^ 31) (min (2 ^ 31 - 1) y) else y
      (BitVec.ofInt 32 z, if sat ∧ z ≠ y then x.2 ||| eSAT else x.2)
    | _ =>
      let r := to32 .rne (addQ .rne (mulV (fElem a i n) (fElem b j n)) (f32 x.1))
      (r.1, x.2 ||| r.2.zeroExtend 8)) (x, 0)

/-- A row of an accumulator. -/
def accRow (b : Block) (a i : Nat) : List Word := (List.range 128).map fun j => sget 0 (16384 * a + 128 * i + j) b.acc

/-- Every element of an accumulator, with its exceptions, as an operation leaves it: the main chains, the side rows of MMALR, the rows of ADAPT. -/
def committed (s : State) (m : Mat) (b : Block) (a i j : Nat) : Option (Word × BitVec 8) :=
  match m.k with
  | .mma k c ta tb => if a = c then some (chain k (s.entry m.cg ta) (s.entry m.cg tb) i j (sget 0 (16384 * a + 128 * i + j) b.acc)) else none
  | .mmalr k c ta tb ids =>
    if a = c then some (chain k (s.entry m.cg ta) (s.entry m.cg tb) i j (sget 0 (16384 * a + 128 * i + j) b.acc))
    else if a = c + 1 then (sideRow m (kOf k) ids i ((List.range (kOf k)).map (fElem (s.entry m.cg ta) i)) (accRow b a i))[j]?
    else none
  | .adapt c sa cb => if a = c then (adaptRow m cb i (accRow b sa i) (accRow b c i))[j]? else none

/-- A physical column that is live and carries a logical column. -/
def carries (c : Core) (p : Nat) : Prop := p < 132 ∧ p ∉ c.deadCol ∧ ∃ l, l < 128 ∧ c.col l = p

/-- R230, R231: which columns compute. With a fifth column dead the carriers of the 64 low logical columns do, a live one each for its own; under
the alarm the 64 lowest live carriers; else all 128. The alarm changes the mode only between operations. -/
def Columns : Prop :=
  (∀ (s : State) k g, s.carriers k g = if 4 < (s.core k).deadCol.length then (s.core k).passCols
    else if s.narrow k = true ∧ g = false then (s.core k).alarmCols else (List.range 128).map (s.core k).col) ∧
  (∀ (s : State) k, s.narrow k = if s.mats.any (fun x => x.slow.isSome && decide (x.org.core = k)) then ((s.core k).narrow).getD s.alarm.isSome else s.alarm.isSome) ∧
  (∀ (c : Core) l, l < 64 → c.deadCol.length ≤ 68 → ∃ p, c.passCols[l]? = some p ∧ (c.col l ∉ c.deadCol → p = c.col l) ∧ p ∉ c.deadCol) ∧
  ∀ (c : Core) p, p ∈ c.alarmCols ↔ carries c p ∧ ∃ l : List Nat, l.Nodup ∧ l.length < 64 ∧ ∀ q, q ∈ l ↔ carries c q ∧ q < p

/-- An operation has a row that it can run: it has not reached it, and every earlier operation on its accumulators has done it (R227, R242). -/
def mayRun (s : State) (x : Mat) (i : Nat) : Prop :=
  i ∉ x.seen ∧ if x.side = none then ∀ e ∈ s.before x, i ∈ e.seen ∧ i ∉ e.held else (s.sideAt x i).isSome = true

/-- A held row whose data has come (R237). -/
def mayReplay (s : State) (x : Mat) (i : Nat) : Prop := i ∈ x.held ∧ ∃ y, s.sideAt x i = some y ∧ ∀ t ∈ x.needs i y, (x.has t).isSome = true

/-- The engine's turn comes to an operation (R223, R237): none that entered its core before has a row to run, and, where it has not been started, no held row
waits to be replayed. -/
def turn (s : State) (m : Mat) : Prop :=
  (∀ x ∈ s.mats.takeWhile (fun x => decide (x.id ≠ m.id)), x.entered = true → x.org.core = m.org.core → ∀ i, i < 128 → ¬mayRun s x i) ∧
    (m.slow.isSome = true ∨ ∀ x ∈ s.mats, x.entered = true → x.org.core = m.org.core → ∀ i, i < 128 → ¬mayReplay s x i)

/-- The mode that an operation runs in, chosen as it starts: narrowed, by the alarm unless its context is governed, or in two passes (R230 to R232). -/
def slowly (s : State) (m : Mat) : Bool :=
  m.slow.getD ((s.alarm.isSome && !((s.ctx? m.org.ctx).map (·.governed)).getD false) || decide (4 < (s.core m.org.core).deadCol.length))

/-- A row lacks data of an adapter (R237). -/
def lacks (m : Mat) (b : Block) (i : Nat) : Bool := (m.needs i (b.side (m.side.getD 0) i)).any fun t => (m.has t).isNone

/-- The operation once it has run its rows with no earlier one on its accumulators: those that lack data are held. -/
def ran (s : State) (m : Mat) (b : Block) : Mat :=
  { m with slow := some (slowly s m), seen := m.seen ++ (List.range 128).filter (fun i => i ∉ m.seen),
           held := m.held ++ (List.range 128).filter fun i => decide (i ∉ m.seen) && lacks m b i }

/-- The engine has started an operation: its core's mode is the moment's. -/
def startedMat (s : State) (m : Mat) : State :=
  if m.slow.isSome then s else s.onCore m.org.core fun c => { c with narrow := some s.alarm.isSome }

/-- Engine cycles (R224, R242): 256, or for ADAPT the highest rank of its rows, as many again for each row replayed; twice as many narrowed. -/
def cyclesOf (s : State) (m : Mat) : Nat :=
  (match m.k with | .adapt _ _ _ => (m.took.foldl (fun n e => max n (field e.tent 16 1)) 0) * (1 + m.replays) | _ => 256) * if slowly s m then 2 else 1

end Sys2Proof.Claims

/-- R223, R224, R227 to R231, R237, R240 to R242: an operation whose tiles are readable enters behind its warp's earlier ones and its lanes go on, once its issue has
committed (log entry 75); a tile whose definition failed, or whose format its kind does not take, traps its guarded lanes; one whose lanes have all left ends. The
engine takes operations in their order of entry, one at a time, and none while a column is rewritten: in its turn an operation runs the rows that it has reached, in
the mode that it starts in, and holds those whose adapter data is absent, for which it starts fills (log entry 91, the model's); the first on its accumulators whose
rows are all done commits: every element of each accumulator that it writes becomes what its chain gives, its flags join the chain's exceptions, and nothing else of
the block changes. A held row whose adapter data has come is computed. -/
def Sys2Proof.Claims.MatrixEngine : Prop :=
  Columns ∧
  (∀ (s : State) n m, s.mats[n]? = some m → s.uncommitted m.org = true → exec (.matrixEngineEntry n) s = .next s) ∧
  (∀ (s : State) n m, s.mats[n]? = some m → m.entered = false → m.readyA = true → m.readyB = true → s.uncommitted m.org = false → m.lanes = 0#32 →
    exec (.matrixEngineEntry n) s = .next (s.dropMat m)) ∧
  (∀ (s : State) n m, s.mats[n]? = some m → m.entered = false → m.readyA = true → m.readyB = true → s.uncommitted m.org = false → m.lanes ≠ 0#32 →
    (m.bad = true → exec (.matrixEngineEntry n) s = .next (s.trapMat m 6)) ∧
    (m.bad = false → s.typeBad m = true → exec (.matrixEngineEntry n) s = .next (s.trapMat m 7)) ∧
    (m.bad = false → s.typeBad m = false → (∀ x ∈ s.mats.take n, x.entered = false → x.org.warp ≠ m.org.warp) →
      let u := match s.warp? m.org.warp with | some w => s.passLanes w m.lanes | none => s
      exec (.matrixEngineEntry n) s = .next { u with
        mats := (s.mats.filter fun x => x.id ≠ m.id) ++ [{ m with entered := true, lanes := 0#32 }] }) ∧
    (m.bad = false → s.typeBad m = false → (∃ x ∈ s.mats.take n, x.entered = false ∧ x.org.warp = m.org.warp) → exec (.matrixEngineEntry n) s = .next s)) ∧
  (∀ (s : State) m cause, (s.warp? m.org.warp).isSome = true → ∃ w, s.warp? m.org.warp = some w ∧
    let g := match decGuard m.word with
      | some (.onTrue p) => maskOf fun l => m.lanes.getLsbD l && w.pred p.toNat l
      | some (.onFalse p) => maskOf fun l => m.lanes.getLsbD l && !w.pred p.toNat l
      | _ => m.lanes
    s.trapMat m cause = ((s.trapParked w.id g 7 cause 0 m.word).passParked w.id (m.lanes &&& ~~~g)).dropMat m) ∧
  (∀ (s : State) n m, s.mats[n]? = some m → m.entered = true → (∀ x ∈ s.mats, x.id = m.id → x = m) →
    (s.core m.org.core).colRewrite = true ∨ ¬turn s m → exec (.matrixCommit n) s = .next s) ∧
  (∀ (s : State) n m b, s.mats[n]? = some m → m.entered = true → (∀ x ∈ s.mats, x.id = m.id → x = m) → (s.core m.org.core).colRewrite = false → turn s m →
    s.before m = [] → s.block? m.org.blk = some b → m.seen.Nodup → (∀ i ∈ m.seen, i < 128) → (∀ i ∈ m.held, i ∈ m.seen) →
    (∀ i, i < 128 → ∀ t ∈ m.needs i (b.side (m.side.getD 0) i), (m.has t).isSome = true ∨ s.onShelf (m.org.core / 8) m.org.group m.adtb t = none) →
    let m' := ran s m b
    let u := startedMat s m
    (m'.held ≠ [] → ∃ t : State, exec (.matrixCommit n) s = .next t ∧
      t = { u with mats := s.mats.map (fun x => if x.id = m.id then m' else x), fills := t.fills } ∧ (∃ l, t.fills = s.fills ++ l) ∧
      ∀ i ∈ m'.held, ∀ g ∈ m.needs i (b.side (m.side.getD 0) i), m.has g = none → t.filling (m.org.core / 8) m.org.group m.adtb g = true) ∧
    (m'.held = [] → scanon 0 b.acc = true → (∀ t, scanon 0 (s.entry m.cg t).img = true) →
      ∃ f : Block → Block, exec (.matrixCommit n) s = .next (((((u.onBlock m.org.blk f).count m.org.blk 5 (cyclesOf s m)).dropMat m).sweepShelf).onCore m.org.core
        fun c => { c with narrow := some s.alarm.isSome }) ∧
      f b = { b with acc := (f b).acc, aflags := (f b).aflags } ∧
      (∀ a i j, i < 128 → j < 128 → sget 0 (16384 * a + 128 * i + j) (f b).acc =
        ((committed s m b a i j).map (·.1)).getD (sget 0 (16384 * a + 128 * i + j) b.acc)) ∧
      ∀ a e, e < 8 → (sget (0 : BitVec 8) a (f b).aflags).getLsbD e = ((sget (0 : BitVec 8) a b.aflags).getLsbD e ||
        (List.range 16384).any fun n => match committed s m b a (n / 128) (n % 128) with | some x => x.2.getLsbD e | none => false))) ∧
  (∀ (s : State) n m row, s.mats[n]? = some m → (s.core m.org.core).colRewrite = true → exec (.adapterRowReplay n row) s = .next s) ∧
  (∀ (s : State) n m row x, s.mats[n]? = some m → m.entered = true → (s.core m.org.core).colRewrite = false → row ∈ m.held → s.sideAt m row = some x →
    (∀ t ∈ m.needs row x, (m.has t).isSome = true) →
    exec (.adapterRowReplay n row) s = .next ((s.putMat { m with held := m.held.erase row, replays := m.replays + 1 }).count m.org.blk 6 1)) ∧
  ∀ (s : State) k, exec (.columnRewriteDone k) s = .next (s.onCore k fun c => { c with colRewrite := false })

namespace Sys2Proof.Claims

/-- An operation once a fill has landed, and once it has failed (R237, R238). -/
def given (s : State) (f : Fill) (e : Shelf) (m : Mat) : Mat :=
  if (List.range 128).any (s.waitsFor m f) = true ∧ m.has e.tag = none then { m with took := m.took ++ [e] } else m

def denied (s : State) (f : Fill) (m : Mat) : Mat :=
  { m with held := m.held.filter fun i => !(decide (i < 128) && s.waitsFor m f i), failed := m.failed ++ (List.range 128).filter (s.waitsFor m f) }

/-- The fetcher's first look: the table entry as it stands, and the data that a good entry names; what cannot be read is left. -/
def firstLook (s : State) (f : Fill) : Fill :=
  let b := match s.readVa f.group (f.adtb + 32 * f.g) 32 (.copy false) with | .ok b => b | .error _ => []
  let d := if adOk b = false then [] else match s.gather f.group (fillSpans b f.slice f.cb) with | .ok d => d | .error _ => []
  { f with started := true, tent := b, data := if b = [] then [] else d }

/-- A fill that fails (R238): the rows that wait for it go on without their adapter step, and the failure is recorded for the operation that caused it. -/
def fillLost (s : State) (n : Nat) (f : Fill) (cause va : Nat) : State :=
  let u := if cause = 3 then s.detectVa f.group va f.cluster 0xFF else s
  let v : State := { u with fills := dropAt n u.fills, free := u.free + 2 ^ 20, mats := u.mats.map (denied u f) }
  if f.op = none then v else v.failStore f.org cause 16 va

end Sys2Proof.Claims

/-- R233, R234, R237, R238: a fill starts once the causing warp's earlier stores are acknowledged, and looks at its table entry and data then and at any moment
until it lands (log entries 50, 51 and 73), and not before its issue commits (log entry 75); when it lands, they are those that the last look found or that stand now, each aligned 8-byte word from one of
them; the entry heads the cluster's shelf, and every operation with a row that waits for it has it.
The sectors that a fill reads are counted (R89; log entry 76). A fill that fails lets those rows go on without their adapter, and is recorded for the operation that caused it; one that needs a page asks for it. -/
def Sys2Proof.Claims.AdapterFills : Prop :=
  (∀ (s : State) n f, s.fills[n]? = some f → f.started = false → s.uncommitted f.org = true → exec (.adapterFillStart n) s = .next s) ∧
  (∀ (s : State) n f, s.fills[n]? = some f → f.started = false → s.uncommitted f.org = false →
    (∀ r ∈ s.net, r.counted = true → r.k.isRedo = false → r.org.warp = f.org.warp → f.org.seq ≤ r.org.seq) →
    exec (.adapterFillStart n) s = .next { s with fills := s.fills.set n (firstLook s f) }) ∧
  (∀ (s : State) n f, s.fills[n]? = some f → f.started = true →
    (∀ t d, f.fetch s = .ok (t, d) →
      exec (.adapterFillStart n) s = .next { s with fills := s.fills.set n { f with tent := t, data := d }, free := s.free + 2 ^ 20 }) ∧
    ∀ e, f.fetch s = .error e → exec (.adapterFillStart n) s = .next { s with free := s.free + 2 ^ 20 }) ∧
  (∀ (s : State) (f : Fill) t d, f.fetch s = .ok (t, d) →
    ∃ b e, s.readVa f.group (f.adtb + 32 * f.g) 32 (.copy false) = .ok b ∧ adOk t = true ∧ s.gather f.group (fillSpans t f.slice f.cb) = .ok e ∧
      t.length = b.length ∧ d.length = e.length ∧ (∀ i, t.getD i 0 = b.getD i 0 ∨ t.getD i 0 = f.tent.getD i 0) ∧
      ∀ i, d.getD i 0 = e.getD i 0 ∨ d.getD i 0 = f.data.getD i 0) ∧
  (∀ (s : State) n f t d, s.fills[n]? = some f → f.started = true → f.fetch s = .ok (t, d) →
    f.sources s = (f.adtb + 32 * f.g, 32) :: fillSpans t f.slice f.cb ∧
      ∃ u, sectorCounts s f.org (f.sources s) u ∧ exec (.adapterFillLands n) s = .next (u.fillLand n f t d)) ∧
  (∀ (s : State) n (f : Fill) t d,
    let e : Shelf := { group := f.group, adtb := f.adtb, g := f.g, slice := f.slice, cb := f.cb, tent := t, data := d, dying := false }
    let shelf := e :: (s.cluster f.cluster).shelf.filter fun x => x.dying || decide (x.tag ≠ e.tag ∨ x.group ≠ f.group ∨ x.adtb ≠ f.adtb)
    let v : State := { s with fills := dropAt n s.fills, free := s.free + 2 ^ 20, mats := s.mats.map (given s f e) }
    s.fillLand n f t d = (v.onCluster f.cluster fun c => { c with shelf := shelf }).fitShelf f.cluster shelf.length) ∧
  (∀ (s : State) n f e, s.fills[n]? = some f → f.started = true → f.fetch s = .error e → e.cause ≠ 0 →
    ∃ u, sectorCounts s f.org (before (f.sources s) e.va) u ∧ exec (.adapterFillFail n) s = .next (fillLost u n f e.cause e.va)) ∧
  (∀ (s : State) n f t d, s.fills[n]? = some f → f.started = true → f.fetch s = .ok (t, d) →
    let ws := s.windows f.group (f.sources s)
    ws ≠ [] → ∃ a ∈ ws, ∃ u, sectorCounts s f.org (before (f.sources s) a) u ∧ exec (.adapterFillFail n) s = .next (fillLost u n f 2 a)) ∧
  ∀ (s : State) n f e ev, s.fills[n]? = some f → f.started = true → f.fetch s = .error e → e.cause = 0 → ev = .adapterFillLands n ∨ ev = .adapterFillFail n →
    let k := 2 ^ 66 + ((f.org.seq * 2 ^ 16 + f.g) * 2 ^ 16 + f.slice) * 2 ^ 16 + f.cb
    (∀ p, s.pageLost f.group f.org.core e.va k = some p →
      ∃ u, sectorCounts (heard s p k) f.org (before (f.sources s) e.va) u ∧ exec ev s = .next (fillLost u n f 5 e.va)) ∧
    (s.pageLost f.group f.org.core e.va k = none → s.pageAt f.group f.org.core e.va = none →
      exec ev s = .next (s.wantPage f.group f.org.core e.va (.copy false) (.engine k)))

/-- R223 to R242: an operation enters, commits in order and replays its rows; adapter fills land or fail. -/
def Obligations.MatrixEngineActs : Prop := Sys2Proof.Claims.MatrixEngine ∧ Sys2Proof.Claims.AdapterFills

/-! # Cores and placing -/

namespace Sys2Proof.Claims

/-- A core that holds a line of code besides others, its words as the line's bytes give them (R98). -/
def withLine (c : Core) (key : Nat) (b : List Byte) (rest : List (Nat × List Word64)) : Core :=
  { c with ic := (key, (List.range 32).map fun k => BitVec.ofNat 64 (ofBytes ((b.drop (8 * k)).take 8))) :: rest }

/-- A fetched line that comes from far store is counted for its group, and for each grid with lanes that wait for it (R89; log entry 76). -/
def fetchPaid (u : State) (f : Fetch) (t : Tgt) (p : State) : Prop :=
  match t with
  | .dev pa => ∃ gs : List Nat, gs.Nodup ∧
      (∀ g, g ∈ gs ↔ ∃ i ∈ u.coreIssuers f.core f.group, i.lanesIn ((u.ctx? i.w.ctx).getD Ctx.init) f.line ≠ 0#32 ∧ ((u.ctx? i.w.ctx).getD Ctx.init).grid = g) ∧
      p = gs.foldl (fun s g => s.chargeGrid g pa 256) (u.chargeGroup f.group pa 256)
  | _ => p = u

/-- A fetched line is read at a place: translated code where near store holds it, other code by its group's tables (R23, R98). -/
def fetchedAt (s : State) (f : Fetch) (t : Tgt) (u : State) : Prop :=
  (2 ^ 90 ≤ f.line ∧ t = .dev (256 * (f.line - 2 ^ 90)) ∧ u = s) ∨
    (f.line < 2 ^ 90 ∧ ∃ ao miss, s.coreXl f.core f.group (256 * f.line) .fetch = (.ok t ao, miss, u))

end Sys2Proof.Claims

/-- R98, R171, R287, R289, R291, R319: a fetched line enters the instruction cache, which holds 512 lines (another leaves a full one: log entry 12), and more
lines are asked for ahead; a demand fetch whose address does not translate, or whose line memory withholds,
traps the lanes that stand there (their word is free: log entry 24), one whose page needs service parks them, and a prefetch is dropped. The order in which
trapped sub-warps enter is log entry 26. When a quadrant's bank is free, the trapped sub-warp that trapped first enters its class's handler: its
lanes stand at the handler's header with h0 to h7 holding the class, cause, address, info, count and word of each lane's trap; a class without a handler
escalates. -/
def Sys2Proof.Claims.FetchesAndHandlers : Prop :=
  (∀ (s : State) n f t u, s.fetches[n]? = some f → fetchedAt { s with fetches := dropAt n s.fetches } f t u →
    (∀ b, u.readTgt t 256 = .ok b →
      let key := 2 ^ 48 * f.group + f.line
      let old := (u.core f.core).ic.filter fun l => l.1 ≠ key
      ∃ (p v : State) (more : List Fetch) (rest : List (Nat × List Word64)), exec (.instructionFetchFill n) s = .next v ∧ fetchPaid u f t p ∧
        v = { p with cores := v.cores, fetches := u.fetches ++ more, free := v.free } ∧
        (∀ k, k ≠ f.core → v.core k = u.core k) ∧ v.core f.core = withLine (u.core f.core) key b rest ∧
        (old.length < 512 → rest = old) ∧ (512 ≤ old.length → ∃ k, k < 512 ∧ rest = dropAt k old) ∧
        (∀ g ∈ more, g.core = f.core ∧ g.group = f.group ∧ g.pre = true ∧ g.line ∈ v.prefetchLines f) ∧
        ∀ k ∈ v.prefetchLines f, v.hasLine f.core f.group k = true ∨ ∃ g ∈ v.fetches, g.core = f.core ∧ g.group = f.group ∧ g.line = k) ∧
    (∀ c, u.readTgt t 256 = .error c →
      let v := match t with | .dev pa => if 0x30001000000 ≤ pa then u else u.detect pa (f.core / 8) (f.core % 8) f.group | _ => u
      exec (.instructionFetchFill n) s = .next (if f.pre then v else v.fetchFail f 7 8))) ∧
  (∀ (s : State) n f miss u, s.fetches[n]? = some f → f.line < 2 ^ 90 →
    (({ s with fetches := dropAt n s.fetches } : State).coreXl f.core f.group (256 * f.line) .fetch = (.svc, miss, u) →
      exec (.instructionFetchFill n) s = .next (if f.pre then u else u.fetchPage f)) ∧
    ∀ pa, ({ s with fetches := dropAt n s.fetches } : State).coreXl f.core f.group (256 * f.line) .fetch = (.abort pa, miss, u) →
      let v := u.detect pa (f.core / 8) (f.core % 8) f.group
      exec (.instructionFetchFill n) s = .next (if f.pre then v else v.fetchFail f 7 8)) ∧
  (∀ (s : State) n f c miss u, s.fetches[n]? = some f → f.line < 2 ^ 90 →
    ({ s with fetches := dropAt n s.fetches } : State).coreXl f.core f.group (256 * f.line) .fetch = (.fault c, miss, u) →
    exec (.instructionFetchFill n) s = .next (if f.pre then u else u.fetchFail f 5 c)) ∧
  (∀ (s : State) q w x, s.nextSub q = some (w, x) → w ∈ s.warps ∧ w.q = q ∧ s.mayIssue w = true ∧ x ∈ w.traps ∧
    ∀ v ∈ s.warps, v.q = q → s.mayIssue v = true → ∀ y ∈ v.traps,
      x.since < y.since ∨ (x.since = y.since ∧ (w.slot < v.slot ∨ (w.slot = v.slot ∧ x.cls ≤ y.cls)))) ∧
  (∀ (s : State) q w x c, (s.quad q).bank = none → s.quadOff q = false → s.nextSub q = some (w, x) → s.entryReady w x = true → s.ctx? w.ctx = some c →
    s.warp? w.id = some w → w.lanes.length = 32 →
    (c.htab = 0 → exec (.handlerEntry q) s = .next (s.noHandler w x)) ∧
    ∀ t ao miss u b, c.htab ≠ 0 → c.htab + 8 * x.cls < 2 ^ 52 → s.coreXl w.core c.group (c.htab + 8 * x.cls) .read = (.ok t ao, miss, u) →
      u.readTgt t 8 = .ok b → ofBytes b ≠ 0 → ofBytes b ∈ c.heads →
      ∃ (v : State) (k : Bank) (w' : Warp), exec (.handlerEntry q) s = .next v ∧ v = { u with warps := v.warps, quads := v.quads } ∧
        v.quad q = { u.quad q with bank := some k } ∧ (∀ j, j ≠ q → v.quad j = u.quad j) ∧
        v.warp? w.id = some w' ∧ (∀ j, j ≠ w.id → v.warp? j = s.warp? j) ∧ w' = { w with lanes := w'.lanes, traps := w.traps.erase x } ∧
        k.warp = w.id ∧ k.sub = x ∧ k.posSet = 0 ∧ k.movx = 0 ∧ (k.entry = w.lanes.map fun l => (l.hdr, l.idx)) ∧
        (∀ l, l < 32 → laneAt w'.lanes l = if (trapMask x.lanes).getLsbD l then { laneAt w.lanes l with park := .handler } else laneAt w.lanes l) ∧
        (∀ l, l < 32 → laneAt k.lanes l =
          if (trapMask x.lanes).getLsbD l then { Lane.init with hdr := ofBytes b } else { Lane.init with exited := true }) ∧
        ∀ y ∈ x.lanes, (∀ z ∈ x.lanes, z.lane < 32 ∧ (z.lane = y.lane → z = y)) → ∀ j, j < 8 → sget 0 (32 * j + y.lane) k.h =
          [BitVec.ofNat 32 x.cls, BitVec.ofNat 32 y.cause, BitVec.ofNat 32 y.addr, BitVec.ofNat 32 (y.addr / 2 ^ 32), BitVec.ofNat 32 y.info,
            BitVec.ofNat 32 y.more, y.word.extractLsb' 0 32, y.word.extractLsb' 32 32].getD j 0)

namespace Sys2Proof.Claims

/-- How long after its issue one uncommitted instruction keeps back a later one of its issuer (R48, R52): for its stall count, or under interlock until a
fixed-latency result that the later one touches is due. -/
def keepsBack (s : State) (b : Nat) (r y : Recent) : Nat :=
  match s.warp? r.warp, r.instr, y.instr with
  | some w, some i, some j =>
    if s.interlocked w r.hnd then (if ∃ k ∈ readKeys j ++ writeKeys j, k ∈ writeKeys i then (latency i b).getD b else 0) else r.stall
  | _, _, _ => r.stall

/-- The cycles at which a quadrant's uncommitted instructions issue again (R93): each at the first slot after the rewrite's 32 cycles and after the one before
it that what its own issuer issued before allows. -/
def Spaced (s : State) (x : Quad) (ts : List Nat) : Prop :=
  ts.length = x.open.length ∧ ∀ k t, ts[k]? = some t →
    let ok (n : Nat) : Prop := x.cycle + 32 ≤ n ∧ (∀ u, 0 < k → ts[k - 1]? = some u → u + x.beats ≤ n) ∧
      ∀ (j u : Nat) (r y : Recent), j < k → ts[j]? = some u → x.open[j]? = some r → x.open[k]? = some y → r.warp = y.warp → r.hnd = y.hnd → u + keepsBack s x.beats r y ≤ n
    ok t ∧ ∀ n, ok n → t ≤ n

/-- What a quadrant that still has a live lane does about its uncommitted instructions when another lane has died (R93; log entry 44): each issues again, in its
order; its stall count and its result's delay run from there, on the new beats (`b0` before), and no register changes. -/
def Reissues : Prop :=
  ∀ (s : State) q b0, let x := s.quad q
    let t := s.reissueAll q b0
    ∃ ts : List Nat, Spaced s x ts ∧
      t = { s with warps := t.warps, quads := t.quads } ∧ (∀ j, j ≠ q → t.quad j = s.quad j) ∧
      (t.quad q).slotAt = (ts.getLast?.map fun n => n + x.beats).getD (x.cycle + 32) ∧
      (t.quad q).recent = (x.open.zip ts).map (fun r => { r.1 with issued := r.2, commit := r.2 + (r.1.commit - r.1.issued) + x.beats - b0 }) ∧
      ∀ i w, s.warp? i = some w → ∃ w', t.warp? i = some w' ∧ w' = { w with pace := w'.pace, fixed := w'.fixed, movx := w'.movx } ∧
        ((∀ r : Recent, r ∈ x.open → r.warp ≠ i) → w' = w) ∧ ((∀ r : Recent, r ∈ x.open → r.warp = i → r.hnd = true) → w'.pace = w.pace ∧ w'.movx = w.movx) ∧
        ∀ (k : Nat) (r : Recent) (n : Nat), x.open[k]? = some r → r.warp = i → ts[k]? = some n →
          (r.hnd = false → (∀ (j : Nat) (y : Recent), x.open[j]? = some y → y.warp = i → y.hnd = false → j ≤ k) →
            w'.pace.notBefore = n + r.stall ∧ w'.pace.readyFrom = n + x.beats) ∧
          ((∀ (j : Nat) (y : Recent), x.open[j]? = some y → y.warp = i → j = k) → w'.fixed = w.fixed.map fun f =>
            if f.issued = r.issued then { f with issued := n, due := n + (f.due - f.issued) + x.beats - b0 } else f)

/-- What a quadrant does about its one uncommitted instruction when its last lane has died (R95, R106; log entry 75): its lanes stand at it as they stood, its
convergence registers, registers and predicates are as they were, and its traps, requests and waits for pages are gone; a lane that has entered a handler stays
there, and one whose deferred data abort has come stays trapped. -/
def Discards : Prop :=
  ∀ (s : State) q r u w, (s.quad q).open = [r] → r.undo = some u → r.hnd = false → s.warp? r.warp = some w → w.id = r.warp → w.lanes.length = 32 →
    (u.regs.map (·.1)).Nodup → (∀ k ∈ u.regs, k.1 < 704 ∨ 1024 ≤ k.1) → staying s w.ctx →
    let t := s.undoAll q
    let away (l : Nat) : Prop := (laneAt w.lanes l).park = .handler
    let ours (l : Nat) : Prop := ∃ c, (laneAt u.before l).park ∈ [.run, .conv c, .sync c, .due c]
    let late (l : Nat) : Prop := ∃ x ∈ w.traps, x.cls = 8 ∧ ∃ y ∈ x.lanes, y.lane = l
    let old (n : Nat) : Option (List Word) := (u.regs.find? fun k => k.1 = n).map (·.2)
    t = { s with warps := t.warps, quads := t.quads, net := s.net.filter (fun y => y.org.seq ≠ r.seq), pages := s.pages.map fun p =>
        { p with users := p.users.filter fun v => match v with
          | .lane i k _ h _ _ _ => !(decide (i = w.id) && !h && u.lanes.getLsbD k && decide ((laneAt w.lanes k).park ≠ .handler))
          | .engine _ => true } } ∧
      (t.quad q).recent = [] ∧ (∀ j, j ≠ q → t.quad j = s.quad j) ∧ ∃ w', t.warp? r.warp = some w' ∧
        w' = { w with lanes := w'.lanes, v := w'.v, s := w'.s, p := w'.p, decl := u.decl, signed := u.signed,
                      traps := (w.traps.map fun y => { y with lanes := y.lanes.filter fun z => decide ((laneAt w'.lanes z.lane).park = .trap) }).filter
                        fun y => !y.lanes.isEmpty,
                      fixed := w.fixed.filter fun f => f.issued ≠ r.issued } ∧
        ∀ l, l < 32 →
          (away l ∨ ¬ours l → laneAt w'.lanes l = laneAt w.lanes l) ∧ (¬away l → ours l → ¬late l → laneAt w'.lanes l = laneAt u.before l) ∧
          (¬away l → ours l → late l → laneAt w'.lanes l = { laneAt u.before l with park := .trap, passed := 0 }) ∧
          (∀ n x, n < 640 → old n = some x → u.lanes.getLsbD l = true → ¬away l → t.reg w' n l = x.getD l 0) ∧
          (∀ n, n < 640 → old n = none ∨ u.lanes.getLsbD l = false ∨ away l → t.reg w' n l = s.reg w n l) ∧
          (∀ n, 640 ≤ n → n < 704 → t.reg w' n l = match old n with | some x => x.getD (lowestLane u.lanes) 0 | none => s.reg w n l) ∧
          ∀ n, w'.pred n l = match old (1024 + n) with
            | some x => if u.lanes.getLsbD l = true ∧ (laneAt w.lanes l).park ≠ .handler then decide (x.getD l 0 ≠ 0) else w.pred n l
            | none => w.pred n l

end Sys2Proof.Claims

/-- R91 to R95, R229, R230, R324: a lane that fails its check is dead, recorded and reported; its quadrant issues nothing until its concordance is rewritten, and
then issues its uncommitted instructions again, or, with no live lane left, discards them (log entry 44), where each can be undone (log entry 75); a core of which
too little remains is retired; a matrix column that fails hands its work to the lowest live spare,
and the engine starts nothing until the rewrite is done. Which instructions have committed is log entry 75. -/
def Sys2Proof.Claims.LanesAndColumnsFail : Prop :=
  Reissues ∧ Discards ∧
  (∀ (s : State) q l, l < 18 → l ∉ (s.quad q).dead → q < 32 * s.nClusters → s.quadOff q = false →
    let u := ((s.onQuad q fun x => { x with dead := insNat l x.dead }).onRec fun r => { r with lanes := r.lanes ++ [(q, l)] }).postDev 3 (q / 32)
      (1 + 256 * (q / 4 % 8) + 65536 * (q % 4)) 19 0xFFFFFFFF l
    let v : State := (if u.short (q / 4) then u.retireCore (q / 4) else u).onQuad q fun x => { x with rewriting := true }
    ((v.quad q).perBeat ≠ 0 → exec (.laneCheckFail q l) s = .next (v.reissueAll q (s.quad q).beats)) ∧
    ((v.quad q).perBeat = 0 → (∀ r ∈ (s.quad q).open, r.undo.isSome = true) → exec (.laneCheckFail q l) s = .next (v.undoAll q)) ∧
    ((v.quad q).perBeat = 0 → (∃ r ∈ (s.quad q).open, r.undo = none) → exec (.laneCheckFail q l) s = .next s)) ∧
  (∀ (s : State) q l, s.quadOff q = true → exec (.laneCheckFail q l) s = .next s) ∧
  (∀ (s : State) q, (s.quad q).rewriting = true → exec (.concordanceRewriteDone q) s = .next
    (((s.warps.filter fun w => w.q = q).foldl (fun l w => insNat w.blk l) []).foldl (fun s b => s.count b 7 1)
      (s.onQuad q fun x => { x with rewriting := false, cycle := x.cycle + 32 }))) ∧
  (∀ (s : State) k p, p < 132 → p ∉ (s.core k).deadCol → k < 8 * s.nClusters →
    let u := ((s.onCore k fun c => c.failCol p).onRec fun r => { r with cols := r.cols ++ [(k, p)] }).postDev 3 (k / 8)
      (4 + 256 * (k % 8) + 65536 * 0xFF) 19 0xFFFFFFFF p
    u.short k = false → exec (.columnCheckFail k p) s = .next (u.onCore k fun c => { c with colRewrite := true })) ∧
  ∀ (c : Core) p l sp, l < 128 → c.col l = p → (∀ k, k < 128 → c.col k = p → k = l) →
    (128 ≤ sp ∧ sp < 132 ∧ sp ≠ p ∧ sp ∉ c.deadCol ∧ (∀ k, k < 128 → c.col k ≠ sp)) →
    (∀ r, 128 ≤ r → r < sp → r = p ∨ r ∈ c.deadCol ∨ ∃ k, k < 128 ∧ c.col k = r) →
    (∀ k, k < 128 → (c.failCol p).col k = if k = l then sp else c.col k) ∧ (c.failCol p).deadCol = insNat p c.deadCol

/-- R91 to R93, R98, R171, R229, R230, R287 to R291, R324: fetched lines, handler entry, and the lanes and columns that fail their check. -/
def Obligations.FrontOfCore : Prop := Sys2Proof.Claims.FetchesAndHandlers ∧ Sys2Proof.Claims.LanesAndColumnsFail

/-- R80 to R90, R97, R113: a scheduler pass offers the head of the blocks not yet dispatched to the clusters that can take it, and places it on the one of least
load, on the cores that its leaf picks; of a grid's waiting groups, one that re-enters goes first, and none is offered before the head is placed; a head that
fits nowhere for 2 ms holds cores, and is placed there once it fits (what a hold is given for is log entry 52); a bandwidth window ends; a warp whose lanes have exited and that waits
for nothing ends, and a block ends with its last warp once its work has landed, the last block of a group freeing the group. -/
def Obligations.Placing : Prop :=
  (∀ (s : State) c, s.ctxs = [c] → s.waits = [] → c.phase = .running → c.src ≠ .leaf → c.cursor < c.h.gx * c.h.gy * c.h.gz →
    let g := c.cursor / c.h.gsize
    let lins := c.h.groupLins g
    let u : State := { s with waits := [{ ctx := c.id, gidx := g, lins := lins, since := s.ns, saved := none, replay := false, hold := [], leaf := none }] }
    (u.takers c lins.length = [] → exec .schedulerPass s = .next u) ∧
    ∀ cl cores, leastLoad u.load ((u.takers c lins.length).map (·.1)) = some cl → (cl, cores) ∈ u.takers c lins.length →
      exec .schedulerPass s = .next ((s.placeFresh c g cl lins cores).onCtx c.id fun c => { c with cursor := c.cursor + lins.length })) ∧
  (∀ (s : State) c, s.headOf c = ((s.waits.filter fun w => decide (w.ctx = c.id) && (w.saved.isSome || w.replay)) ++ s.waits.filter fun w => w.ctx = c.id).head? ∧
    ((∃ w ∈ s.waits, w.ctx = c.id) → s.offerFresh c = s)) ∧
  (∀ (s : State) c w, s.ctxs = [c] → s.waits = [w] → w.ctx = c.id → c.phase = .running →
    let done (cl : Nat) (cores : List Nat) : State := match w.saved with
      | some v => ({ s with waits := [] } : State).placeSaved c cl v cores
      | none => let u := ({ s with waits := [] } : State).placeFresh c w.gidx cl w.lins cores
        if w.replay then u else u.onCtx c.id fun c => { c with cursor := c.cursor + w.lins.length }
    (w.hold = [] → s.takers c w.size = [] → exec .schedulerPass s = .next s) ∧
    (∀ cl cores, w.hold = [] → leastLoad s.load ((s.takers c w.size).map (·.1)) = some cl → (cl, cores) ∈ s.takers c w.size →
      exec .schedulerPass s = .next (done cl cores)) ∧
    ∀ cl, w.hold ≠ [] → w.leaf = some cl → ¬((∀ k ∈ w.hold, s.coreRoom k c.h = true) ∧ c.h.names ≤ s.freeNames cl ∧ s.admits c w.hold = true) →
      exec .schedulerPass s = .next s) ∧
  (∀ (s : State) w c cl, s.ctx? w.ctx = some c → w.leaf = some cl → c.phase = .running → s.headOf c = some w → (∀ k ∈ w.hold, s.coreRoom k c.h = true) →
    c.h.names ≤ s.freeNames cl → s.admits c w.hold = true → s.tryHeld w = s.placeWait c w cl w.hold) ∧
  (∀ (s : State) c n cl cores, (cl, cores) ∈ s.takers c n ↔
    cl < s.nClusters ∧ s.leafPick cl c.h n [] = some cores ∧ c.h.names ≤ s.freeNames cl ∧ s.admits c cores = true) ∧
  (∀ (s : State) c g cl lins cores,
    let t := s.placeFresh c g cl lins cores
    t.cgroups = s.cgroups ++ [{ freshGroup c s.nextId g lins.length with cluster := cl }] ∧
    (t.blocks.drop s.blocks.length).map (fun b => (b.lin, b.pos, b.core, b.warpsLeft, b.cg)) =
      (lins.zip cores).map fun x => (x.1, x.1 % c.h.gsize, x.2, c.h.warps, s.nextId)) ∧
  (∀ (s : State) n w c cl cores, s.waits[n]? = some w → w.hold = [] → w.since + 2000000 ≤ s.ns → s.ctx? w.ctx = some c → c.phase = .running → s.headOf c = some w →
    (∀ k, k < s.nClusters → s.leafPick k c.h w.size [] = none) →
    leastLoad s.load ((List.range s.nClusters).filter fun k => (s.holdPick k w.size []).isSome) = some cl → s.holdPick cl w.size [] = some cores →
    exec (.headHoldTimeout n) s = .next { s with waits := s.waits.map fun x => if x = w then { x with hold := cores, leaf := some cl } else x }) ∧
  (∀ s : State, s.ns / 10000 ≠ s.window → scanon Grp.init s.groups = true →
    let last (n : Nat) : Nat := if s.ns / 10000 = s.window + 1 then n else 0
    ∃ t : State, exec .bandwidthWindowEnd s = .next t ∧ t = { s with window := s.ns / 10000, groups := t.groups, grids := s.grids.map fun g =>
        { g with winLast := last g.winNow, winNow := 0 } } ∧ ∀ g, t.grp g = { s.grp g with winLast := last (s.grp g).winNow, winNow := 0 }) ∧
  (∀ (s : State) n w, s.warps[n]? = some w → w.allExited = true → s.pending w = [] → w.traps = [] → staying s w.ctx →
    exec (.warpEnd n) s = .next ({ s with warps := dropAt n s.warps }.onBlock w.blk fun b => { b with warpsLeft := b.warpsLeft - 1 })) ∧
  ∀ (s : State) n b c g, s.blocks[n]? = some b → b.warpsLeft = 0 → s.blockBusy b.id = false → staying s b.ctx → s.ctx? b.ctx = some c →
    s.cgroup? b.cg = some g → g.again = false → (∀ h ∈ s.cgroups, h.id = g.id → h = g) → 0 < g.left →
    exec (.blockEnd n) s = .next { s with
      grids := s.grids.map fun x => if x.id = c.grid then { x with exited := insNat b.lin x.exited, pendingReplay := x.pendingReplay.erase b.lin,
                                                                   unrep := if b.voided then insNat b.lin x.unrep else x.unrep } else x
      ctxs := s.ctxs.map fun x => if x.id = b.ctx then { x with done := x.done + 1 } else x
      blocks := s.blocks.filter fun x => x.id ≠ b.id
      cgroups := if g.left = 1 then s.cgroups.filter fun h => h.id ≠ g.id else s.cgroups.map fun h => if h.id = g.id then { h with left := h.left - 1 } else h }

/-! # The front end -/

namespace Sys2Proof.Claims

/-- Host queue `q` takes its next command, `b`, of kind `k` (R57 to R59). -/
structure Takes (s : State) (q k : Nat) (b : List Byte) : Prop where
  on : (s.hqueue q).en = true ∧ (s.hqueue q).stopped = false ∧ (s.hqueue q).held = [] ∧ (s.hqueue q).head ≠ (s.hqueue q).tail
  group : (s.grp (s.hqueue q).group).en = true
  slot : s.readVa (s.hqueue q).group ((s.hqueue q).ring + 64 * ((s.hqueue q).head.toNat % (s.hqueue q).slots)) 64 .read = .ok b
  kind : field b 0 1 = k
  may : s.mayStart q b = true
  ok : cmdOk b = true

/-- The queue's HEAD has passed the command. -/
def passed (s : State) (q : Nat) : State := s.onHq q fun h => { h with head := h.head + 1 }

/-- Where a queue's command comes from. -/
def from_ (q : Nat) (b : List Byte) : Src := .queue q (field b 4 4) ((field b 1 1).testBit 1)

/-- A command in flight: its number is new. -/
def inFlight (s : State) (src : Src) (group : Nat) (k : CmdK) : State :=
  { s with nextId := s.nextId + 1, cmds := s.cmds ++ [{ id := s.nextId, src := src, group := group, k := k, comp := 0, notify := 0xFFFF }] }

/-- A command is done: it is reported where its event is asked for, and a graph's run goes on. -/
def done (s : State) (c : Cmd) (a : Nat) : State := (s.complete c.src 0 c.group a).nodeDone c.src

/-- The command is no longer in flight. -/
def ended (s : State) (c : Cmd) : State := { s with cmds := s.cmds.filter fun d => d.id ≠ c.id }

/-- A queue whose record waits for room in the ring (R79). -/
def holds (r : EvRec) (h : HQueue) : HQueue := { h with held := h.held ++ [r] }

/-- A graph whose load has begun (R70). -/
def loading (s : State) (g : Nat) : State := s.onGraph g fun x => { x with loading := true }

/-- A graph whose load has ended (R70). -/
def unloading (x : Graph) : Graph := { x with loading := false }

/-- The loaded graph (R70, R71). -/
def loaded (group : Nat) (ns : List (List Byte)) (x : Graph) : Graph :=
  { x with loaded := true, faulted := false, group := group, nodes := ns, pc := 0, async := false, ctrs := [] }

/-- A place beyond a link that is down (R333, R338). -/
def beyond (s : State) : Tgt → Bool
  | .dev _ => false
  | .host _ => !s.linkUp
  | .fab node _ => s.deadNodes.contains node

/-- The pieces of a COPY moved one after another: read where the source stands, and written at the same offset of the destination. A tagged message's bytes go
to no memory here. -/
def movedPieces (group a d : Nat) (msg : Bool) : List (Nat × Nat) → State → State × Option VaErr
  | [], s => (s, none)
  | p :: r, s => match s.readVa group (a + p.1) p.2 (.copy false) with
    | .error e => (s, some e)
    | .ok b =>
      let u := match s.place group (a + p.1) (.copy false) with | .ok (.dev pa) => s.chargeGroup group pa p.2 | _ => s
      if msg then (match u.place group d (.copy true) with
        | .ok t => if beyond u t then (u, some { cause := 1, va := d }) else movedPieces group a d msg r u
        | .error e => (u, some e))
      else match u.writeVa group (d + p.1) b (.copy true) with
        | (v, none) => movedPieces group a d msg r v
        | (v, some e) => (v, some e)

/-- A COPY's start (R60): of the pieces of its destination, those that `mv` names are moved where they can be, the others left for its completion. `fr` is the
model's counter of free values at each. -/
def begins (mv : Nat → Bool) (fr : Nat → Nat) (group a d len : Nat) (s : State) : State × List (Nat × Nat) :=
  ((Machine.spans (nSpans len) d len).map fun p => (p.1 - d, p.2)).foldl (fun (q : State × List (Nat × Nat)) (p : Nat × Nat) =>
    if s.frontMsg group d len = true ∨ mv p.1 = false then (q.1, q.2 ++ [p])
    else match movedPieces group a d false [p] { q.1 with free := fr p.1 } with
      | (u, none) => (u, q.2)
      | (_, some _) => (q.1, q.2 ++ [p])) (s, [])

/-- A tagged message sent back (R72, R338): its record of the receiver's side. -/
def turnedAway (s : State) (t status : Nat) : State :=
  let r := s.detail status 0
  r.2.post { kind := 4, srcK := 3, src := t, tag := 0, status := status, group := field (s.tagEnt t).bytes 4 4, detail := r.1 }

/-- The event that takes a command of a kind; a kind that is none counts with RUN. -/
def takes (k q : Nat) : Instr :=
  if k = 2 then .copyCommand q else if k = 3 then .graphCommand q else if k = 4 then .signalCommand q else if k = 5 then .waitCommand q
  else if k = 6 then .loadgraphCommand q else .runCommand q

/-- A queue that may take a command, but for its slot. -/
def mayTake (s : State) (q : Nat) : Prop :=
  (s.hqueue q).en = true ∧ (s.hqueue q).stopped = false ∧ (s.hqueue q).held = [] ∧ (s.hqueue q).head ≠ (s.hqueue q).tail

/-- R57, R58: what becomes of a command that is none, and of a slot that cannot be read (its status, tag and kind are log entry 86). -/
def BadCommands : Prop :=
  (∀ (s : State) q b, mayTake s q → (s.grp (s.hqueue q).group).en = true →
    s.readVa (s.hqueue q).group ((s.hqueue q).ring + 64 * ((s.hqueue q).head.toNat % (s.hqueue q).slots)) 64 .read = .ok b → s.mayStart q b = true →
    cmdOk b = false → exec (takes (field b 0 1) q) s = .next ((passed s q).fail (from_ q b) 8 (s.hqueue q).group 0)) ∧
  ∀ (s : State) q e, mayTake s q →
    (let a := (s.hqueue q).ring + 64 * ((s.hqueue q).head.toNat % (s.hqueue q).slots)
     ((s.grp (s.hqueue q).group).en = false ∧ e = { cause := 5, va := a }) ∨
       ((s.grp (s.hqueue q).group).en = true ∧ s.readVa (s.hqueue q).group a 64 .read = .error e)) →
    exec (.runCommand q) s = .next (((passed s q).engineErr (s.hqueue q).group e).fail (.queue q 0 false) 9 (s.hqueue q).group e.va)

end Sys2Proof.Claims

/-- R57 to R61, R73, R79: a queue's command is taken in its turn; one that is none, and a slot that cannot be read, fail. COPY, WAIT and LOADGRAPH are in flight
until they complete; GRAPH triggers its graph; SIGNAL writes or adds its word and then its notify register. A WAIT completes when a read finds its comparison to
hold, and times out at its deadline; a graph is loaded from an array whose nodes are all in order. A completion is posted where its EVENT flag asks for it; a
queue's record waits while the ring is full. Model's choices, of which the rules say nothing: each piece of a COPY moves at its start or at its completion, and
LOADGRAPH reads its array at its start or at its completion (log entry 57); the detail of a completion is the address or 0 (log entry 56); how an unreadable slot is
reported (log entry 86). -/
def Obligations.CommandsAct : Prop :=
  Sys2Proof.Claims.BadCommands ∧
  (∀ (s : State) q b, Takes s q 2 b → ∃ (mv : Nat → Bool) (fr : Nat → Nat) (t : State), exec (.copyCommand q) s = .next t ∧
    let r := begins mv fr (s.hqueue q).group (field b 8 8) (field b 16 8) (field b 24 8) (passed s q)
    t = { inFlight r.1 (from_ q b) (s.hqueue q).group (.copy (field b 8 8) (field b 16 8) (field b 24 8) r.2) with free := t.free }) ∧
  (∀ (s : State) n c a d len todo, s.cmds[n]? = some c → c.k = .copy a d len todo →
    let r := movedPieces c.group a d (s.frontMsg c.group d len) todo (ended s c)
    (∀ e, r.2 = some e → exec (.copyCommandComplete n) s = .next ((r.1.engineErr c.group e).fail c.src 9 c.group e.va)) ∧
    (r.2 = none → exec (.copyCommandComplete n) s = .next (done { r.1 with free := r.1.free + 1 } c d) ∨
      (s.frontMsg c.group d len = true ∧ exec (.copyCommandComplete n) s = .next ((asked r.1).fail c.src 9 c.group d)))) ∧
  (∀ (s : State) q b, Takes s q 3 b →
    exec (.graphCommand q) s = .next (((passed s q).trigger (field b 8 1)).complete (from_ q b) 0 (s.hqueue q).group 0)) ∧
  (∀ (s : State) q b, Takes s q 4 b →
    let g := (s.hqueue q).group
    let n := if field b 25 1 = 1 then 4 else 8
    let notify := field b 26 2
    let told (u : State) : State := (if notify = 0xFFFF then u else u.notify notify 1).complete (from_ q b) 0 g (field b 8 8)
    (notify = 0xFFFF ∨ s.classGroup notify = g) →
    (∀ u, field b 24 1 = 0 → (passed s q).writeVa g (field b 8 8) (toBytes n (field b 16 8)) .write = (u, none) →
      exec (.signalCommand q) s = .next (told u)) ∧
    ∀ o u, field b 24 1 = 1 → (∀ ba, s.xl g (field b 8 8) .atomic ≠ .ok (.host ba) false) → s.readVa g (field b 8 8) n .atomic = .ok o →
      (passed s q).writeVa g (field b 8 8) (toBytes n (ofBytes o + field b 16 8)) .atomic = (u, none) → exec (.signalCommand q) s = .next (told u)) ∧
  (∀ (s : State) q b, Takes s q 5 b → exec (.waitCommand q) s = .next (inFlight (passed s q) (from_ q b) (s.hqueue q).group
    (.wait (field b 8 8) (field b 16 8) (field b 24 1) (decide (field b 25 1 = 1))
      (if field b 28 4 = 0 then none else some (s.ns + 1000 * field b 28 4))))) ∧
  (∀ (s : State) n c a v cmp w32 dl, s.cmds[n]? = some c → c.k = .wait a v cmp w32 dl →
    (∀ b, (∀ d, dl = some d → s.ns < d) → s.readVa c.group a (if w32 then 4 else 8) .read = .ok b →
      let x := ofBytes b
      let holds := if cmp = 0 then x = v else if cmp = 1 then x ≠ v else if cmp = 2 then v ≤ x else x < v
      exec (.waitPoll n) s = .next (if holds then done (ended s c) c a else s)) ∧
    (∀ d, dl = some d → d ≤ s.ns → exec (.waitTimeout n) s = .next ((ended s c).fail c.src 11 c.group a))) ∧
  (∀ (s : State) q b, Takes s q 6 b →
    let g := field b 8 1
    let x := s.graph g
    let grp := (s.hqueue q).group
    ((x.running = true ∨ x.loading = true ∨ (x.loaded = true ∧ x.pending ≠ 0)) →
      exec (.loadgraphCommand q) s = .next ((passed s q).fail (from_ q b) 10 grp (field b 16 8))) ∧
    (x.running = false → x.loading = false → (x.loaded = true → x.pending = 0) → ∃ early,
      (early = none ∨ ∃ v, s.readVa grp (field b 16 8) (32 * field b 9 1) .read = .ok v ∧ early = some v) ∧ exec (.loadgraphCommand q) s = .next
      (inFlight (loading { passed s q with free := s.free + 1 } g) (from_ q b) grp (.load g (field b 9 1) (field b 16 8) early)))) ∧
  (∀ (s : State) n c g k a early b, s.cmds[n]? = some c → c.k = .load g k a early →
    (early = some b ∨ (early = none ∧ s.readVa c.group a (32 * k) .read = .ok b)) →
    let ns := (List.range k).map fun j => (b.drop (32 * j)).take 32
    let t := (ended s c).onGraph g unloading
    ((∃ x ∈ ns, nodeOk k x = false) → exec (.loadgraphComplete n) s = .next (t.fail c.src 8 c.group a)) ∧
    ((∀ x ∈ ns, nodeOk k x = true ∧ (nodeNotify x = 0xFFFF ∨ s.classGroup (nodeNotify x) = c.group)) → exec (.loadgraphComplete n) s = .next ((t.onGraph g (loaded c.group ns)).complete c.src 0 c.group a))) ∧
  (∀ (s : State) q r, (s.hqueue q).held = [r] → s.evsize ≠ 0 → s.ringFull = false →
    exec (.eventRingRoom q) s = .next ((s.ringPut r).onHq q fun h => { h with held := [] })) ∧
  (∀ (s : State) r, let tail := ofBytes (readCells s.host (s.evbase + 4) 4)
    let b := toBytes 1 r.kind ++ toBytes 1 r.srcK ++ toBytes 2 r.src ++ toBytes 4 r.tag ++ toBytes 4 r.status ++ toBytes 4 r.group ++ toBytes 8 r.detail ++
      toBytes 8 (s.ns / 1000)
    let m := writeCells (s.evbase + 64 + 32 * (tail % s.evsize)) b s.host
    s.ringPut r = { s with host := writeCells (s.evbase + 4) (toBytes 4 ((tail + 1) % s.evsize)) m }) ∧
  ∀ (s : State) q tag status group a, s.evsize ≠ 0 → status ≠ 21 →
    let r (d : Nat) : EvRec := { kind := 1, srcK := 1, src := q, tag := tag, status := status, group := group, detail := d }
    (s.ringFull = false → (s.hqueue q).held = [] → ∃ u : State, u = { s with free := u.free } ∧
      (s.complete (.queue q tag true) status group a = u.ringPut (r a) ∨ s.complete (.queue q tag true) status group a = u.ringPut (r 0))) ∧
    (s.ringFull = true → ∃ d, (d = a ∨ d = 0) ∧ ∃ u : State, u = { s with free := u.free } ∧
      s.complete (.queue q tag true) status group a = u.onHq q (holds (r d)))

/-- R22 to R25, R60, R62, R68, R72, R308 to R310, R338, R360: a RUN whose image passes its checks makes a context and a grid, waiting for placement; one whose image
does not is refused with the check's status; one whose code must be translated waits, and is checked again with the result. When its work is done its record is
written, its notify register, its completion, and the context is free. A tagged message is put in its entry's next slot, or sent back, and its launch starts in turn. How many
KiB a translation takes, what is evicted, and where near store holds its code are log entry 84; readings of images and launches are log
entries 53 and 54, the argument slot's check is log entry 82. -/
def Obligations.LaunchesAct : Prop :=
  (∀ (s : State) q b, Takes s q 1 b →
    let g := (s.hqueue q).group
    let img := field b 8 8
    let notify := field b 32 2
    let c : Cmd := { id := s.nextId, src := from_ q b, group := g, k := .xlate img (field b 24 8), comp := field b 16 8, notify := notify }
    (notify ≠ 0xFFFF → s.classGroup notify ≠ g → exec (.runCommand q) s = .next ((passed s q).fail (from_ q b) 9 g img)) ∧
    ((notify = 0xFFFF ∨ s.classGroup notify = g) →
      let u : State := { passed s q with nextId := s.nextId + 1 }
      exec (.runCommand q) s = .next (u.launch c img (field b 24 8) none))) ∧
  (∀ (s : State) (c : Cmd) img ovr made,
    (∀ u n, s.prepare c.group img ovr made = (u, .refuse n) → s.launch c img ovr made = u.fail c.src n c.group img) ∧
    (∀ u k sect ents view, s.prepare c.group img ovr made = (u, .xlate k sect ents view) →
      let v : State := { u with cmds := u.cmds ++ [{ c with k := .xlate img ovr }] }
      s.launch c img ovr made = v.askXlat k sect ents view c.id) ∧
    ∀ u h o code recs, s.prepare c.group img ovr made = (u, .go h o code recs) → ∃ (v : State) (x : Ctx) (y : Grid),
      s.launch c img ovr made = { v with cmds := u.cmds ++ [{ c with k := .run x.id }] } ∧
      v = { u with ctxs := u.ctxs ++ [x], grids := u.grids ++ [y], waits := v.waits, nextId := v.nextId, xcache := v.xcache, mem := v.mem, l2 := v.l2, free := v.free, depart := v.depart, badLines := v.badLines } ∧
      (code.translated = false → v.mem = u.mem ∧ v.xcache = u.xcache ∧ v.badLines = u.badLines ∧ x.tat = none) ∧
      (∀ i, code.translated = true → s.cached (xkey c.group o.portable code.tstep code.trev h.view) = some i → x.tat = some i.pa) ∧
      x.group = c.group ∧ x.grid = y.id ∧ x.img = img ∧ x.phase = .running ∧ x.done = 0 ∧ x.src = c.src ∧ x.entry = code.start h.entry ∧
      y.state = 0 ∧ y.comp = c.comp ∧ y.img = img ∧ y.group = c.group ∧ (recs.2.1 = [] → v.waits = u.waits)) ∧
  (∀ (s : State) group img ovr made,
    (∀ e, s.readImage group img = .error e → (s.prepare group img ovr made).2 = .refuse 9) ∧
    ∀ b, s.readImage group img = .ok b →
      (headerOk b = false → (s.prepare group img ovr made).2 = .refuse 6) ∧
      (headerOk b = true → (Img.parse b).group ≠ group ∨ (s.grp group).en = false ∨ s.bootst ≠ 8 → (s.prepare group img ovr made).2 = .refuse 9)) ∧
  (∀ (s : State) n r i c img ovr m, s.xruns[n]? = some r → n < 2 → r.cmds = [i] → (s.cmds.find? fun c => c.id = i) = some c → c.k = .xlate img ovr →
    let s0 : State := { s with xruns := dropAt n s.xruns }
    let made := translate { recs := portRecs r.sect, ents := r.ents } r.sect r.words r.step r.rev
    (made = none → exec (.translationComplete n) s = .next ((ended s0 c).launch c img ovr (some (r.key, none)))) ∧
    (made = some m → let kib := (8 * m.1.length + 1023) / 1024
      (∀ pa, s.xkib r.group + kib ≤ s.quota r.group → s.codeRoom s.xlatRange (codeSpan m.1) = some pa →
        let e : Xlat := { group := r.group, form := r.form, step := r.step, rev := r.rev, view := r.view, words := m.1, slots := m.2, kib := kib, pa := pa, used := s.nextId }
        let u : State := { ended (s0.putCode pa m.1) c with xcache := s.xcache ++ [e], nextId := s.nextId + 1 }
        exec (.translationComplete n) s = .next (u.launch c img ovr (some (r.key, some m)))) ∧
      ((s.quota r.group < s.xkib r.group + kib ∨ s.codeRoom s.xlatRange (codeSpan m.1) = none) → (∀ x ∈ s.xcache, x.group = r.group → s.refers x = true) →
        exec (.translationComplete n) s = .next ((ended (s0.warnQuota c) c).launch c img ovr (some (r.key, some m)))))) ∧
  (∀ (s : State) g x, s.oldestXlat g = some x → x ∈ s.xcache ∧ x.group = g ∧ s.refers x = false ∧
    ∀ y ∈ s.xcache, y.group = g → s.refers y = false → x.used ≤ y.used) ∧
  (∀ (s : State) n c, s.ctxs[n]? = some c → c.phase = .running → s.runDone c = true → c.src ≠ .leaf → c.id ∉ (s.grp c.group).ptodo →
    let u := s.onGrid c.grid fun g => { g with state := 1, tprov := s.ns / 1000 }
    u.compFails c.grid = false →
    exec (.runComplete n) s = .next ((((u.writeGrid c.grid).freeCtx c.id).endRun c.id 0 c.img).finalise c.grid)) ∧
  (∀ (s : State) i c, (s.cmds.find? fun c => c.k = .run i) = some c → (∀ t, c.src ≠ .tag t) →
    ∀ a, s.endRun i 0 a = done (if c.notify = 0xFFFF then ended s c else (ended s c).notify c.notify 1) c a) ∧
  (∀ (g : Grid), g.bytes.length = 256 ∧ field g.bytes 0 4 = g.state % 2 ^ 32 ∧ field g.bytes 8 8 = g.img % 2 ^ 64 ∧
    field g.bytes 16 8 = g.exited.length % 2 ^ 64 ∧ field g.bytes 24 4 = g.replays % 2 ^ 32 ∧ field g.bytes 28 4 = g.nsus % 2 ^ 32 ∧
    field g.bytes 32 8 = g.tprov % 2 ^ 64 ∧ field g.bytes 40 8 = g.tfinal % 2 ^ 64) ∧
  (∀ (s : State) t p u, t < 256 →
    let e := s.tagEnt t
    let grp := field e.bytes 4 4
    let k := field e.bytes 28 2 % field e.bytes 26 2
    (e.valid = false → exec (.tagMessageArrival t p) s = .next (turnedAway s t 14)) ∧
    (∀ b, e.valid = true → s.readVa grp (field e.bytes 8 8 + 48) 4 .read = .ok b → ofBytes b ≤ field e.bytes 2 2 →
      exec (.tagMessageArrival t p) s = .next (turnedAway s t 14)) ∧
    (∀ b, s.readVa grp (field e.bytes 8 8 + 48) 4 .read = .ok b → field e.bytes 2 2 < ofBytes b → s.slotFits e = (true, s)) ∧
    (∀ x, s.readVa grp (field e.bytes 8 8 + 48) 4 .read = .error x → s.slotFits e = (true, s.engineErr grp x)) ∧
    (e.valid = true → (s.slotFits e).1 = true → (s.grp grp).en = true →
      (256 * field e.bytes 24 2 < p.length → exec (.tagMessageArrival t p) s = .next (turnedAway (s.slotFits e).2 t 13)) ∧
      (p.length ≤ 256 * field e.bytes 24 2 → k ∈ e.busy → exec (.tagMessageArrival t p) s = .next (turnedAway (s.slotFits e).2 t 12))) ∧
    (e.valid = true → (s.slotFits e).1 = true → (s.grp grp).en = true → p.length ≤ 256 * field e.bytes 24 2 → k ∉ e.busy →
    (s.slotFits e).2.writeVa grp (field e.bytes 16 8 + k * field e.bytes 24 2 * 256) p .write = (u, none) →
    exec (.tagMessageArrival t p) s = .next (u.onTag t fun e =>
      { e with bytes := patch e.bytes 28 (toBytes 2 ((k + 1) % field e.bytes 26 2)), busy := e.busy ++ [k], queue := e.queue ++ [k] }))) ∧
  ∀ (s : State) t k r b u, (s.tagEnt t).live = none → (s.tagEnt t).queue = k :: r →
    let e := s.tagEnt t
    let grp := field e.bytes 4 4
    let v := s.onTag t fun e => { e with live := some k, queue := r }
    (s.grp grp).en = true → s.readVa grp (field e.bytes 8 8 + 40) 12 .read = .ok b → field e.bytes 2 2 < field b 8 4 →
    v.writeVa grp (field b 0 8 + field e.bytes 2 2) (toBytes 8 (field e.bytes 16 8 + k * field e.bytes 24 2 * 256)) .write = (u, none) →
    (field e.bytes 0 1 = 1 → exec (.tagLaunch t) s = .next (u.runImage (.tag t) grp (field e.bytes 8 8) 0 0 0xFFFF)) ∧
    (field e.bytes 0 1 = 2 → (s.graph (field e.bytes 1 1)).pending < 255 → exec (.tagLaunch t) s = .next (u.onGraph (field e.bytes 1 1) fun x =>
      { x with pending := x.pending + 1, due := x.due ++ [(t, x.pending + 1)] }))

namespace Sys2Proof.Claims

/-- The run of graph `g` has come to node `n`, whose bytes are `b`, of kind `k`, and it may start (R71): no node of the graph is outstanding, or the run came here
from an ASYNC node just started and this node does not wait for it; a synchronous node does not start again while it is itself outstanding. -/
structure AtNode (s : State) (g k n : Nat) (b : List Byte) : Prop where
  running : (s.graph g).running = true
  pc : (s.graph g).pc = n
  node : (s.graph g).nodes[n]? = some b
  kind : field b 0 1 = k
  free : s.graphBusy g = false ∨ ((s.graph g).async = true ∧ (field b 1 1).testBit 1 = false)
  alone : (field b 1 1).testBit 0 = true ∨ ∀ c ∈ s.cmds, ∀ e, c.src ≠ .graph g n e

/-- A started node: where it is ASYNC the run goes on at once. -/
def goOn (g n : Nat) (b : List Byte) (s : State) : State :=
  if (field b 1 1).testBit 0 = true ∧ (s.graph g).running = true ∧ (s.graph g).pc = n then s.graphGo g (n + 1) true else s

/-- Where a node's records come from. -/
def ofNode (g n : Nat) (b : List Byte) : Src := .graph g n ((field b 1 1).testBit 2)

/-- The run goes to a place, its node reported where its EVENT flag asks for it. -/
def jumps (s : State) (g n dest a : Nat) (b : List Byte) : State :=
  (s.complete (ofNode g n b) 0 (s.graph g).group a).graphGo g dest ((field b 1 1).testBit 0)

/-- A graph's run begins (R70, R72): one trigger fewer, every counter zero; the run is a tagged message's where its turn has come. -/
def runs_ (x : Graph) : Graph :=
  let due := x.due.map fun d => (d.1, d.2 - 1)
  { x with pending := x.pending - 1, running := true, pc := 0, async := false, ctrs := [], tag := (due.find? fun d => d.2 = 0).map (·.1),
           due := due.filter fun d => d.2 ≠ 0 }

end Sys2Proof.Claims

/-- R70, R71: a loaded graph with a trigger pending starts a run when no run of it is going and no node outstanding. A node to which a run has come starts where
it may: RUN, COPY, SIGNAL and WAIT act as the commands do, IF goes to its target when its comparison holds, LOOP until its count is used up, TRIGGER triggers
another graph; the run goes on after the last node only to end. Model's choice: each piece of a COPY node moves at its start or at its completion (log entry 57). -/
def Obligations.GraphsRun : Prop :=
  (∀ (s : State) g, (s.graph g).loaded = true → (s.graph g).loading = false → (s.graph g).running = false → (s.graph g).faulted = false →
    (s.graph g).pending ≠ 0 → (∀ c ∈ s.cmds, ∀ n e, c.src ≠ .graph g n e) → exec (.graphRunStart g) s = .next (s.onGraph g runs_)) ∧
  (∀ (s : State) g n b, AtNode s g 1 n b → exec (.graphNodeRun g) s = .next (goOn g n b
    (s.runImage (ofNode g n b) (s.graph g).group (field b 8 8) (64 * (field b 24 8 / 2 ^ 16 % 2 ^ 46)) (field b 16 8) (field b 24 2)))) ∧
  (∀ (s : State) g n b, AtNode s g 2 n b → ∃ (mv : Nat → Bool) (fr : Nat → Nat) (t : State), exec (.graphNodeCopy g) s = .next (goOn g n b t) ∧
    let r := begins mv fr (s.graph g).group (field b 8 8) (field b 16 8) (field b 24 4) s
    t = { inFlight r.1 (ofNode g n b) (s.graph g).group (.copy (field b 8 8) (field b 16 8) (field b 24 4) r.2) with free := t.free }) ∧
  (∀ (s : State) g n b u, AtNode s g 3 n b →
    let grp := (s.graph g).group
    let size := if (field b 1 1).testBit 3 then 4 else 8
    let notify := field b 24 2
    let told (u : State) : State := goOn g n b
      (((if notify = 0xFFFF then u else u.notify notify 1).complete (ofNode g n b) 0 grp (field b 8 8)).nodeDone (ofNode g n b))
    (notify = 0xFFFF ∨ s.classGroup notify = grp) →
    (field b 3 1 = 0 → s.writeVa grp (field b 8 8) (toBytes size (field b 16 8)) .write = (u, none) → exec (.graphNodeSignal g) s = .next (told u)) ∧
    ∀ o, field b 3 1 = 1 → (∀ ba, s.xl grp (field b 8 8) .atomic ≠ .ok (.host ba) false) → s.readVa grp (field b 8 8) size .atomic = .ok o →
      s.writeVa grp (field b 8 8) (toBytes size (ofBytes o + field b 16 8)) .atomic = (u, none) → exec (.graphNodeSignal g) s = .next (told u)) ∧
  (∀ (s : State) g n b, AtNode s g 4 n b → exec (.graphNodeWait g) s = .next (goOn g n b (inFlight s (ofNode g n b) (s.graph g).group
    (.wait (field b 8 8) (field b 16 8) (field b 3 1) ((field b 1 1).testBit 3)
      (if field b 24 4 = 0 then none else some (s.ns + 1000 * field b 24 4)))))) ∧
  (∀ (s : State) g n b, AtNode s g 5 n b →
    (∀ v, s.readVa (s.graph g).group (field b 8 8) (if (field b 1 1).testBit 3 then 4 else 8) .read = .ok v →
      let k := field b 3 1
      let x := ofBytes v
      let y := field b 16 8
      let holds : Bool := if k = 0 then x = y else if k = 1 then x ≠ y else if k = 2 then y ≤ x else x < y
      exec (.graphNodeIf g) s = .next (jumps s g n (if holds then field b 2 1 else n + 1) (field b 8 8) b)) ∧
    ∀ e, s.readVa (s.graph g).group (field b 8 8) (if (field b 1 1).testBit 3 then 4 else 8) .read = .error e →
      exec (.graphNodeIf g) s = .next ((s.engineErr (s.graph g).group e).fail (ofNode g n b) 9 (s.graph g).group (field b 8 8))) ∧
  (∀ (s : State) g n b, AtNode s g 6 n b →
    let k := sget 0 n (s.graph g).ctrs
    (k + 1 < field b 4 4 → exec (.graphNodeLoop g) s = .next (jumps (s.onGraph g fun x => { x with ctrs := sput 0 n (k + 1) x.ctrs }) g n (field b 2 1) 0 b)) ∧
    (field b 4 4 ≤ k + 1 → exec (.graphNodeLoop g) s = .next (jumps (s.onGraph g fun x => { x with ctrs := sput 0 n 0 x.ctrs }) g n (n + 1) 0 b))) ∧
  (∀ (s : State) g n b, AtNode s g 7 n b → exec (.graphNodeTrigger g) s = .next (jumps (s.trigger (field b 8 8)) g n (n + 1) 0 b)) ∧
  (∀ (s : State) g, s.trigger g = s.onGraph g fun x => if x.pending < 255 then { x with pending := x.pending + 1 } else { x with ovf := true }) ∧
  ∀ (s : State) g n a, (s.graph g).running = true →
    let u := s.onGraph g fun x => { x with pc := n, async := a }
    (n < (s.graph g).nodes.length ∨ s.graphBusy g = true → s.graphGo g n a = u) ∧
    ((s.graph g).nodes.length ≤ n → s.graphBusy g = false → (s.graph g).tag = none →
      s.graphGo g n a = u.onGraph g fun x => { x with running := false, tag := none })

/-! # Registers that the outside world writes -/

namespace Sys2Proof.Claims

/-- A host-interrupt register after a counted write (R73, R74). -/
def counts (v : Word64) (ns : Nat) (r : NReg) : NReg :=
  { r with value := r.value ||| v, count := min (r.count + 1) 255, due := if r.due = none ∧ r.timer ≠ 0 then some (ns + 1000 * r.timer) else r.due }

/-- Its count and timer at rest. -/
def rests (r : NReg) : NReg := { r with count := 0, due := none }

/-- A message on a vector; vector 0 sends none (R74, R320). -/
def message (s : State) (v : Nat) : State := if v = 0 then s else { s with msix := v :: s.msix }

/-- A register's wake latch emptied (R75). -/
def unlatched (r : NReg) : NReg := { r with lOr := 0, lLast := 0, lCount := 0, lParts := [] }

/-- Writes latched under a register's class entry as it stands (R336). -/
def underNow (r : NReg) (bits : Word64) (n : Nat) : Latched := { cls := r.cls, thresh := r.thresh, timer := r.timer, target := r.target, bits := bits, count := n }

/-- One more write latched: it joins the last ones where they arrived under the same class entry. -/
def latchedMore (r : NReg) (v : Word64) : List Latched :=
  match r.lParts.getLast? with
  | some p => if p = underNow r p.bits p.count then r.lParts.dropLast ++ [underNow r (p.bits ||| v) (min 255 (p.count + 1))] else r.lParts ++ [underNow r v 1]
  | none => [underNow r v 1]

/-- Latched writes merged into their register under the class entry that they arrived under (R75, R336). -/
def arrive (n : Nat) (u : State) (p : Latched) : State :=
  if p.cls = 2 then
    let w := u.onNreg n fun r => { r with value := r.value ||| p.bits, count := min (r.count + p.count) 255, due := if r.due = none ∧ p.timer ≠ 0 then some (u.ns + 1000 * p.timer) else r.due }
    if p.thresh ≤ (w.nreg n).count ∧ (w.nreg n).count ≠ 0 then message (w.onNreg n rests) p.target else w
  else if p.cls = 3 then (u.onNreg n fun r => { r with value := r.value ||| p.bits }).wakeQueue p.target
  else u

end Sys2Proof.Claims

namespace Sys2Proof.Claims

/-- Every field of a context group within its range (R294, R335). -/
def InRange (g : Grp) : Prop :=
  g.troot % 65536 = 0 ∧ (1 ≤ g.cbud ∧ g.cbud ≤ 384) ∧ (1 ≤ g.pbud ∧ g.pbud ≤ 2600) ∧ g.prbound ≤ 10000 ∧
    (g.prbase % 32 = 0 ∧ g.prbase < 2 ^ 52) ∧ (∃ n, g.prsize = 2 ^ n ∧ 6 ≤ n ∧ n ≤ 16) ∧ g.prnotify ≤ 4095 ∧
    (g.cfbase % 64 = 0 ∧ g.cfbase < 2 ^ 52) ∧ (∃ n, g.cfsize = 2 ^ n ∧ 6 ≤ n ∧ n ≤ 16) ∧ g.pbound ≤ 1000 ∧ g.pimg % 256 = 0

end Sys2Proof.Claims

/-- R57, R61, R70, R73 to R76, R312, R330, R334 to R336, R339: what a write of each register does: the doorbell, enable, acknowledgement and error summary of a
host queue; a trigger register counting or clearing; a host-interrupt register collecting, counting and raising its vector at its threshold or timer; a
queue-wake register making its queue's WAITs read again; the wake latches while the aperture is gated, and their merging; work queues and context groups enabled
and disabled; INVCTL and PWRLIM in their ranges, a value outside them ignored, as one is in a field of an enabled group (log entry 80); the other registers of
BAR0 and BAR2, FLUSHN and the trigger registers as they read, the boot window and the near store. Readings of these rules are log entries 60 and 61. -/
def Obligations.RegistersAct : Prop :=
  (∀ (s : State) q v, q < 64 →
    ((v - (s.hqueue q).head).toNat ≤ (s.hqueue q).slots → exec (.queueTailWrite q v) s = .next (s.onHq q fun h => { h with tail := v })) ∧
    ((s.hqueue q).slots < (v - (s.hqueue q).head).toNat → exec (.queueTailWrite q v) s = .next ((s.onHq q fun h => { h with stopped := true }).post
      { kind := 2, srcK := 1, src := q, tag := 0, status := 8, group := (s.hqueue q).group, detail := v.toNat })) ∧
    ((s.hqueue q).en = false → s.evsize ≠ 0 → s.bootst = 8 → exec (.queueEnable q) s = .next (s.onHq q fun h => { h with en := true, head := h.tail })) ∧
    (s.evsize = 0 ∨ s.bootst ≠ 8 ∨ (s.hqueue q).en = true → exec (.queueEnable q) s = .next s)) ∧
  (∀ (s : State) q, exec (.queueAck q 1) s = .next (s.onHq q fun h => { h with stopped := false }) ∧
    exec (.errsumClear q 0) s = .next (s.onHq q fun h => { h with errsum := 0 }) ∧
    (∀ v, v ≠ 1 → exec (.queueAck q v) s = .next s) ∧ ∀ v, v ≠ 0 → exec (.errsumClear q v) s = .next s) ∧
  (∀ (s : State) n v, n < 64 → s.gated = false →
    (v.getLsbD 63 = false → exec (.graphTriggerWrite n v) s = .next (s.onGraph n fun x =>
      if x.pending < 255 then { x with pending := x.pending + 1 } else { x with ovf := true })) ∧
    (v.getLsbD 63 = true → (s.graph n).due = [] → exec (.graphTriggerReset n v) s = .next (s.onGraph n fun x =>
      { x with pending := 0, faulted := false, ovf := false, due := [] }))) ∧
  (∀ (s : State) n v, 64 ≤ n → n < 4096 → (s.nreg n).cls = 2 →
    (s.gated = false → (s.nreg n).thresh ≤ min ((s.nreg n).count + 1) 255 →
      exec (.hostInterruptWrite n v) s = .next (message (s.onNreg n fun r => rests (counts v s.ns r)) (s.nreg n).target)) ∧
    (s.gated = false → min ((s.nreg n).count + 1) 255 < (s.nreg n).thresh → exec (.hostInterruptWrite n v) s = .next (s.onNreg n (counts v s.ns))) ∧
    exec (.hostInterruptRead n) s = .next { s.onNreg n (fun r => { rests r with value := 0 }) with hostGot := (s.nreg n).value } ∧
    ∀ d, (s.nreg n).due = some d → d ≤ s.ns → exec (.hostInterruptTimer n) s = .next (message (s.onNreg n rests) (s.nreg n).target)) ∧
  (∀ (s : State) n v, 64 ≤ n → n < 4096 → (s.nreg n).cls = 3 →
    (s.gated = false → exec (.queueWakeWrite n v) s = .next ((s.onNreg n fun r => { r with value := r.value ||| v }).wakeQueue (s.nreg n).target)) ∧
    exec (.queueWakeRead n) s = .next { s.onNreg n (fun r => { r with value := 0 }) with hostGot := (s.nreg n).value }) ∧
  (∀ (s : State) q, (∀ c ∈ s.cmds, ∀ t e, c.src ≠ .queue q t e) → s.wakeQueue q = s) ∧
  (∀ (s : State) q c, (s.cmds.filter fun c => match c.src with | .queue p _ _ => p = q | _ => false) = [c] → s.wakeQueue q = s.pollWait c) ∧
  (∀ (s : State) n v, s.gated = true → n < 4096 → exec (.notifyLatchWrite n v) s = .next (s.onNreg n fun r =>
    { r with lOr := r.lOr ||| v, lLast := v, lCount := min 255 (r.lCount + 1), lParts := latchedMore r v })) ∧
  (∀ s : State, exec .notifyApertureGating s = .next { s with gated := true }) ∧
  (∀ (s : State) n, s.gated = true → s.nregs.map (·.1) = [n] →
    let k := (s.nreg n).lCount
    let u : State := { s with gated := false }.onNreg n unlatched
    (n < 64 → 0 < k → exec .notifyWakeMerge s = .next (u.onGraph n fun x =>
      { x with pending := min (x.pending + k) 255, ovf := x.ovf || decide (255 < x.pending + k) })) ∧
    (64 ≤ n → 0 < k → exec .notifyWakeMerge s = .next ((s.nreg n).lParts.foldl (arrive n) u)) ∧
    (k = 0 → exec .notifyWakeMerge s = .next u)) ∧
  (∀ (s : State) n off size v, 64 ≤ n → n < 4096 → off + size ≤ 16 → size ≤ 8 → exec (.notifyClassEntryWrite n off size v) s = .next (s.onNreg n fun r =>
    let b := patch (toBytes 1 r.cls ++ toBytes 1 r.thresh ++ toBytes 2 r.timer ++ toBytes 2 r.target ++ [0, 0] ++ toBytes 4 r.group ++ [0, 0, 0, 0]) off
      (toBytes size v.toNat)
    let k := field b 0 1
    let target := field b 4 2
    let cls := if k = 2 ∧ 1 ≤ target ∧ target ≤ 2047 ∨ k = 3 ∧ target ≤ 63 then k else 0
    let x := { r with cls := cls, thresh := if off ≤ 1 ∧ 1 < off + size ∧ field b 1 1 = 0 then 1 else field b 1 1, timer := field b 2 2, target := target,
                      group := field b 8 4 }
    if cls = r.cls then x else { rests x with value := 0 })) ∧
  (∀ (s : State) w v, w < 64 →
    (v.getLsbD 0 = false → exec (.workQueueEnable w v) s = .next (s.onWq w fun x => { x with en := false })) ∧
    (v.getLsbD 0 = true → s.ringNear (s.wqueue w) = true → ((s.wqueue w).wake = 0xFFFF ∨ s.classGroup (s.wqueue w).wake = (s.wqueue w).group) →
      exec (.workQueueEnable w v) s = .next (s.onWq w fun x => { x with en := true })) ∧
    (v.getLsbD 0 = true → (s.wqueue w).en = false → s.ringNear (s.wqueue w) = false ∨
      (s.wqueue w).wake ≠ 0xFFFF ∧ s.classGroup (s.wqueue w).wake ≠ (s.wqueue w).group → exec (.workQueueEnable w v) s = .next s) ∧
    (2 ^ 52 ≤ (s.wqueue w).ring → s.ringNear (s.wqueue w) = false) ∧
    (s.ringNear (s.wqueue w) = true → (s.grp (s.wqueue w).group).en = true ∧
      ∀ a, (s.wqueue w).ring ≤ a → a < (s.wqueue w).ring + 8 * (s.wqueue w).slots → a = (s.wqueue w).ring ∨ a % 65536 = 0 →
        ∃ pa, s.place (s.wqueue w).group a .read = .ok (.dev pa) ∧ 0x20000000000 ≤ pa ∧ pa < s.nearEnd)) ∧
  (∀ (s : State) g, (g < 256 → (s.grp g).ok = true → exec (.groupEnable g) s = .next (s.onGrp g fun x => { x with en := true })) ∧
    ((s.grp g).ok = false → exec (.groupEnable g) s = .next s) ∧
    ((s.grp g).ok = true ↔ InRange (s.grp g)) ∧
    ((∀ c ∈ s.ctxs, c.group ≠ g) →
      let u : State := { s with xcache := s.xcache.filter fun x => x.group ≠ g }
      exec (.groupDisable g) s = .next (u.onGrp g fun x => { x with en := false })) ∧
    ((∃ c ∈ s.ctxs, c.group = g) → exec (.groupDisable g) s = .next s)) ∧
  (∀ (s : State) v, (20 ≤ v.toNat ∧ v.toNat ≤ 1000 → exec (.invctlWrite v) s = .next { s with invctl := v.toNat }) ∧
    (v.toNat < 20 ∨ 1000 < v.toNat → exec (.invctlWrite v) s = .next s)) ∧
  (∀ (s : State) v, let lo := if s.form = .d90 then 150 else 600
    let hi := if s.form = .d90 then 650 else 2600
    (lo ≤ v.toNat ∧ v.toNat ≤ hi → exec (.pwrlimWrite v) s = .next { s with pwrlim := v.toNat }) ∧
    (v.toNat < lo ∨ hi < v.toNat → exec (.pwrlimWrite v) s = .next s)) ∧
  (∀ (s : State) off size v, size ≤ 8 → off + size ≤ 0x4000000 →
    exec (.registerWrite 0 off size v) s = .next { s with bootWin := writeCells off (toBytes size v.toNat) s.bootWin }) ∧
  (∀ (s : State) v, (∀ q, (s.hqueue q).en = false) → scanon HQueue.init s.hq = true →
    (v.toNat % 64 = 0 → exec (.registerWrite 0 0x4000080 8 v) s = .next { s with evbase := v.toNat }) ∧
    (v.toNat % 64 ≠ 0 → exec (.registerWrite 0 0x4000080 8 v) s = .next s) ∧
    (∀ k, 6 ≤ k → k ≤ 16 → exec (.registerWrite 0 0x4000088 4 (BitVec.ofNat 64 (2 ^ k))) s = .next { s with evsize := 2 ^ k }) ∧
    (v.toNat ≤ 255 → exec (.registerWrite 0 0x400008C 4 v) s = .next { s with nodeid := v.toNat })) ∧
  (∀ (s : State) q v, (∃ k, (s.hqueue k).en = true) →
    exec (.registerWrite 0 0x4000080 8 v) s = .next s ∧ exec (.registerWrite 0 0x4000088 4 v) s = .next s ∧ exec (.registerWrite 0 0x400008C 4 v) s = .next s ∧
    (q < 64 → v.toNat % 256 = 0 → exec (.registerWrite 2 (64 * q) 8 v) s = .next (s.onHq q fun h => { h with ring := v.toNat }))) ∧
  (∀ (s : State) w v, w < 64 → (s.wqueue w).en = false →
    exec (.registerWrite 2 (0x1000 + 32 * w + 16) 4 v) s = .next (s.onWq w fun x => { x with head := v.setWidth 32 }) ∧
    exec (.registerWrite 2 (0x1000 + 32 * w + 20) 4 v) s = .next (s.onWq w fun x => { x with tail := v.setWidth 32 })) ∧
  (∀ (s : State) g v, g < 256 → (s.grp g).en = false →
    exec (.registerWrite 2 (0x10000 + 256 * g + 40) 8 v) s = .next (s.onGrp g fun x => { x with troot := v.toNat }) ∧
    exec (.registerWrite 2 (0x10000 + 256 * g + 112) 8 v) s = .next (s.onGrp g fun x => { x with cfbase := v.toNat })) ∧
  (∀ (s : State) g (v : Word64), g < 256 → (s.grp g).en = true → scanon Grp.init s.groups = true →
    let n := v.toNat % 2 ^ 32
    (exec (.registerWrite 2 (0x10000 + 256 * g + 40) 8 v) s = .next s) ∧
    (1 ≤ n ∧ n ≤ 384 → exec (.registerWrite 2 (0x10000 + 256 * g + 48) 4 v) s = .next (s.onGrp g fun x => { x with cbud := n })) ∧
    (n = 0 ∨ 384 < n → exec (.registerWrite 2 (0x10000 + 256 * g + 48) 4 v) s = .next s) ∧
    (n ≤ 1000 → exec (.registerWrite 2 (0x10000 + 256 * g + 16) 4 v) s = .next (s.onGrp g fun x => { x with pbound := n })) ∧
    (1000 < n → exec (.registerWrite 2 (0x10000 + 256 * g + 16) 4 v) s = .next s)) ∧
  (∀ (s : State) g n k, g < 256 → n < 64 →
    (k < 4 → s.barByte 2 (0x10000 + 256 * g + 104 + k) = some (if k = 0 ∧ (s.grp g).flushn ≠ none then 1 else 0)) ∧
    (k < 8 → s.barByte 2 (0x100000 + 8 * n + k) = some ((toBytes 8 (s.graph n).word).getD k 0))) ∧
  ∀ (s : State) off v, 256 ∣ off → 0x20000000000 + off < s.nearTop → (0x20000000000 + off) / 256 ∉ s.badLines → Memory.wf s →
    ∃ t : State, exec (.registerWrite 4 off 8 v) s = .next t ∧ t = { s with mem := t.mem, l2 := t.l2, free := t.free, depart := t.depart } ∧
      ∀ a, sget 0 a t.mem = if 0x20000000000 + off ≤ a ∧ a < 0x20000000000 + off + 8 then (toBytes 8 v.toNat).getD (a - (0x20000000000 + off)) 0 else sget 0 a s.mem

/-! # Pre-emption and removal -/

namespace Sys2Proof.Claims

/-- A context to stop at its LIVEPTs, from now (R294, R295). -/
def stops (ns cause : Nat) (c : Ctx) : Ctx := { c with phase := .stopping ns true cause }

/-- A warp that has passed no LIVEPT since the request: earlier records of live state are dropped (R294). -/
def unmarked (w : Warp) : Warp := if w.lanes.any fun l => l.park = .stop then w else { w with liveG := 0, liveR := [] }

/-- What a save's image holds, as the machine draws its free parts (R63 to R66, R296). -/
def savedImage (s : State) (c : Ctx) (cause : Nat) : List Byte :=
  ({ s with free := s.free + 2 } : State).imageOf c cause (Config.freeBit s.free) fun i => BitVec.ofNat 8 (Config.freeNat (s.free + 1) / 256 ^ i)

/-- The state in which an image's place is found: PNEED has grown by its size (R294). -/
def measured (s : State) (g n : Nat) : State := { s with free := s.free + 2 }.onGrp g fun x => { x with pneed := min (2 ^ 32 - 1) (x.pneed + n) }

/-- A warp removed: its lanes have exited, and no trap waits (R298). -/
def cleared (w : Warp) : Prop := (∀ l ∈ w.lanes, l.exited = true) ∧ w.traps = []

end Sys2Proof.Claims

/-- R63, R67, R294 to R298: GO and GO-MIGRATE ask the running contexts of an enabled group to stop, with their cause, and complete at once where there is none;
a context whose warps have all stopped, or whose bound has passed, is halted, handlers still running giving their sub-warp back at its trap positions. The save
engine waits for work in flight, then leaves a context running whose image does not fit, or frees it with its image written, its failures entered and its launch
ended; a leaf's save takes a group off its cores; a save that meets an uncorrectable scratchpad word removes the context (R319). REMOVE ends every lane, trap,
wait and engine operation of the context, each warp's unreported failures moving to its block's record and the ring; after 100 µs what is unacknowledged is
dropped. Readings of these rules are log entries 65 and 66. -/
def Obligations.PreemptionActs : Prop :=
  (∀ (s : State) g, (s.grp g).en = false →
    exec (.pctlGo g) s = .next s ∧ exec (.pctlGoMigrate g) s = .next s ∧ exec (.pctlRemove g) s = .next s) ∧
  (∀ (s : State) g ev cause m, ev = .pctlGo g ∧ cause = 1 ∧ m = false ∨ ev = .pctlGoMigrate g ∧ cause = 2 ∧ m = true → (s.grp g).en = true →
    (s.grp g).ptodo = [] →
    ((∀ c ∈ s.ctxs, c.group ≠ g) →
      exec ev s = .next (s.onGrp g fun x => { x with pneed := 0, pend := 0, pbad := 0, go := false, migrate := m, pstate := 3 })) ∧
    ∀ c, s.ctxs = [c] → c.group = g → c.phase = .running →
      let u : State := { s with ctxs := [stops s.ns cause c], warps := s.warps.map fun w => if w.ctx = c.id then unmarked w else w }
      exec ev s = .next (u.onGrp g fun x => { x with pneed := 0, pend := 0, pbad := 0, ptodo := [c.id], go := true, migrate := m, pstate := 1 })) ∧
  (∀ (s : State) g c, (s.grp g).en = true → s.ctxs = [c] → c.group = g → (∀ a b k, c.phase ≠ .removing a b k) →
    (∃ r ∈ s.net, r.counted = true ∧ r.org.ctx = c.id) → (∀ w ∈ s.warps, w.ctx = c.id) →
    ∃ t : State, exec (.pctlRemove g) s = .next t ∧ t.ctxs = [{ c with phase := .removing s.ns 2 s.warps.length }] ∧
      (t.grp g).remove = true ∧ t.net = s.net ∧ t.mem = (s.warps.foldl (fun u w => u.moveFails w) s).mem ∧
      (∀ w ∈ t.warps, cleared w ∧ w.fail = FailRec.none) ∧ t.warps.length = s.warps.length ∧
      (∀ w ∈ t.waits, w.ctx ≠ c.id) ∧ (∀ x ∈ t.cgroups, x.ctx = c.id → x.entries = [] ∧ x.heads = []) ∧
      (∀ x ∈ t.copies, x.org.ctx ≠ c.id) ∧ (∀ x ∈ t.defs, x.org.ctx ≠ c.id) ∧ (∀ x ∈ t.readers, x.org.ctx ≠ c.id) ∧
      (∀ x ∈ t.mats, x.org.ctx ≠ c.id) ∧ (∀ x ∈ t.fills, x.org.ctx ≠ c.id) ∧ (∀ x ∈ t.redos, x.req.org.ctx ≠ c.id)) ∧
  (∀ (s : State) c x a k n, s.ctx? c = some x → x.phase = .removing a k n →
    (s.ns < a + 100000 → exec (.removalDrainTimeout c) s = .next s) ∧
    (a + 100000 ≤ s.ns →
      let u : State := { s with net := s.net.filter fun r => r.org.ctx ≠ c }
      exec (.removalDrainTimeout c) s = .next (u.finishRemoval c))) ∧
  (∀ (s : State) c x a k n, s.ctx? c = some x → x.phase = .removing a k n → x.src ≠ .leaf →
    let u := (s.freeCtx c).cfEnter x.group x.grid { kind := 3, cause := k, flags := 0, warp := 0xFF, lanes := 0, pos := 0, block := 0xFFFFFFFF, count := n,
                                                    image := x.img, addr := 0 }
    let v := (u.onGrid x.grid fun g => { g with state := 4, tprov := 0, tfinal := u.us, suspects := [], nsus := 0, faulted := true, removed := true }).writeGrid
      x.grid
    let w := (v.endRun c 15 x.img).takePreempt x.group c 0
    (∀ y ∈ w.ctxs, y.group ≠ x.group) → s.finishRemoval c = w.onGrp x.group fun g => { g with remove := false }) ∧
  (∀ (s : State) c x a d k, s.ctx? c = some x → x.phase = .stopping a d k → (∀ g ∈ s.cgroups, g.leaf = .none) →
    (∀ w ∈ s.warps, ∀ b, (s.quad w.q).bank = some b → b.warp ≠ w.id) →
    let u : State := s.onCtx c fun y => { y with phase := .saving d k }
    let v : State := u.onGrp x.group fun g => if d then { g with pstate := 2 } else g
    ((∀ w ∈ s.warps, w.ctx = c → s.halted w = true) → exec (.preemptStop c) s = .next v) ∧
    ((∃ w ∈ s.warps, w.ctx = c ∧ s.halted w = false) → exec (.preemptStop c) s = .next s) ∧
    (a + (s.grp x.group).bound ≤ s.ns → exec (.preemptBoundExpiry c) s = .next v) ∧
    (s.ns < a + (s.grp x.group).bound → exec (.preemptBoundExpiry c) s = .next s)) ∧
  (∀ (s : State) w b, (s.quad w.q).bank = some b → b.warp = w.id → (s.warps.filter fun x => x.id = w.id) = [w] → w.lanes.length = 32 →
    ∃ (t : State) (v : Warp), s.abandon w = t ∧ t = { s with warps := t.warps, quads := t.quads } ∧ t.warp? w.id = some v ∧
      t.quad w.q = { s.quad w.q with bank := none } ∧
      ∀ n, n < 32 → laneAt v.lanes n = if (laneAt b.lanes n).exited then laneAt w.lanes n
        else { Lane.goto (b.entry.getD n (0, 0)) (laneAt w.lanes n) with park := .trap, passed := 0 }) ∧
  (∀ (s : State) c x d k, s.ctx? c = some x → x.phase = .saving d k → (s.draining fun o => o.ctx = c) = true → exec (.saveEngine c) s = .next s) ∧
  (∀ (s : State) c x d k r, s.ctx? c = some x → x.phase = .saving d k → (s.draining fun o => o.ctx = c) = false → (s.grp x.group).ptodo = c :: r →
    s.endFinished x.id = s → (∀ b ∈ s.blocks, b.badWords = []) → (∀ g ∈ s.cgroups, g.ctx = c → g.again = false) →
    let b := savedImage s x k
    let at_ := (s.grp x.group).pimg + pad256 (s.grp x.group).pend
    let u := measured s x.group b.length
    b.take 7 = [0x4B, 0x49, 0x4D, 0x47, 1, 0, 2] ∧
    ((s.grp x.group).psize < pad256 (s.grp x.group).pend + b.length →
      exec (.saveEngine c) s = .next ((u.resumeCtx x).takePreempt x.group x.id 4)) ∧
    (∀ v e, pad256 (s.grp x.group).pend + b.length ≤ (s.grp x.group).psize → u.writeVa x.group at_ b .write = (v, some e) →
      exec (.saveEngine c) s = .next ((((v.engineErr x.group e).resumeCtx x).postDev 2 0xFFFF 0 9 x.group e.va).takePreempt x.group x.id 5)) ∧
    ∀ v, pad256 (s.grp x.group).pend + b.length ≤ (s.grp x.group).psize → u.writeVa x.group at_ b .write = (v, none) → x.src ≠ .leaf →
      (∀ w ∈ v.warps, w.ctx = x.id → w.fail.orgs = []) → (∀ y ∈ v.blocks, y.ctx = x.id → y.fail.orgs = []) →
      let f : State := v.onGrp x.group fun g => { g with pend := pad256 (s.grp x.group).pend + b.length }
      let g : State := { f with mats := f.mats.filter (fun m => m.org.ctx ≠ x.id), readers := f.readers.filter fun y => y.org.ctx ≠ x.id }
      exec (.saveEngine c) s = .next
        ((((g.freeCtx x.id).postDev 1 0xFFFF 0 0 x.group at_).endRun x.id 21 at_).takePreempt x.group x.id 0)) ∧
  (∀ (s : State) c x g, s.ctx? c = some x → x.phase = .running → s.cgroups = [g] → g.ctx = c → g.leaf = .saving → s.endFinished c = s → (∀ b ∈ s.blocks, b.badWords = []) →
    exec (.saveEngine c) s = .next (if s.draining fun o => decide (s.blockCg o.blk = g.id) then s else s.saveGroup x g)) ∧
  (∀ (s : State) c x d k r b, s.ctx? c = some x → x.phase = .saving d k → (s.draining fun o => o.ctx = c) = false → (s.grp x.group).ptodo = c :: r →
    (s.blocks.find? fun b => b.ctx = c) = some b → s.lostScratch x.h.scratch b = true →
    exec (.saveEngine c) s = .next ((s.detectUnit (b.core / 8) (unitTag 3 (b.core % 8) 0xFF) x.group 0).startRemoval c 3)) ∧
  ∀ (s : State) c, (s.freeCtx c).ctx? c = none ∧ (∀ w ∈ (s.freeCtx c).warps, w.ctx ≠ c) ∧ (∀ b ∈ (s.freeCtx c).blocks, b.ctx ≠ c) ∧
    ∀ g ∈ (s.freeCtx c).cgroups, g.ctx ≠ c

/-! # The device's upkeep -/

namespace Sys2Proof.Claims

/-- A new entry of the retirement record: one flash copy holds it as it takes effect; the other holds what it did, or it too (R325, R331; log entry 68). Before the
firmware runs, it adds to the newest whole copy of the flash (log entry 93). -/
def filed (s : State) (f : Record → Record) : State :=
  let old := if 8 ≤ s.bootst then s.retRec else ((s.flash.filterMap id).head?).getD s.retRec
  let new : Option Record := some (f old)
  { s with free := s.free + 1, retRec := f old, flash := [new, if Config.freeBit s.free then new else (s.flash.head?).getD none] }

/-- A unit's retirement reported (R311, R324). -/
def told (s : State) (src tag detail : Nat) : State := s.postDev 3 src tag 19 0xFFFFFFFF detail

/-- Grids of which a core is one and that have no warp there: the pass will count for them (R310). -/
def countable (s : State) (k : Nat) : List Nat := (s.grids.filter fun g => (g.set.any fun c => c.1 = k) && !s.gridOn g.id k).map (·.id)

/-- A core at rest after its scan. -/
def rested (c : Core) : Core := { c with inv := .idle, passOk := [] }

/-- A core whose pass begins now (R312, R314). -/
def draining (s : State) (k : Nat) (c : Core) : Core := { c with inv := .draining s.ns, lastPass := s.ns, passOk := countable s k, final := false }

/-- Numbers added to an ascending list. -/
def addAll (l lins : List Nat) : List Nat := lins.foldl (fun l n => insNat n l) l

/-- The head of the waiting groups that a replay joins (R317). -/
def replayHead (s : State) (ctx gidx : Nat) (lins : List Nat) : Wait :=
  { ctx := ctx, gidx := gidx, lins := lins, since := s.ns, saved := none, replay := true, hold := [], leaf := none }

/-- A grid whose core `k` failed its scan, with its affected blocks dealt with (R310). -/
def dealt (k : Nat) (g : Grid) : Grid :=
  { g with set := g.set.map (fun c => if c.1 = k then (k, true) else c), ran := g.ran.filter fun r => r.2 ≠ k }

/-- A group's blocks await their replay, and count as replayed (R308, R317). -/
def owing (lins : List Nat) (g : Grid) : Grid := { g with pendingReplay := addAll g.pendingReplay lins }
def tallied (lins : List Nat) (g : Grid) : Grid := { g with replayed := true, replays := g.replays + lins.length }

/-- A failing scan of core `k` concerns the group `n` of `g`, the only grid, which is replayable (R316). -/
structure Replays (s : State) (k n : Nat) (g : Grid) : Prop where
  grid : s.grids = [g]
  concerned : s.concerned g = true
  core : ∃ c ∈ g.set, c.1 = k
  group : g.affected k = [n]
  may : s.replayable g (g.h.groupLins n) = true

/-- A request to a window that fails; one that has failed, or a REDO entry at its order point, is left as it is. -/
def failing (code : Nat) (hit : Tgt → Bool) (r : Req) : Req :=
  if hit r.tgt && !r.k.isRedo then match r.st with | .failed _ => r | _ => { r with st := .failed code } else r

/-- A vertical-channel record of a beat that is given up or delivered (R323). -/
def beatLog (s : State) (b : Beat) (kind wire spare retries v n : Nat) : State :=
  { s with vlogs := supd Log.init b.cluster (fun l => l.add (vertRec kind b.cluster b.grp wire spare retries b.pa b.beat v n (s.ns / 1000))) s.vlogs }

/-- The error of a vertical wire posted, with its message (R311, R320). -/
def wireErr (s : State) (b : Beat) (group detail : Nat) : State :=
  let u := s.postDev 2 b.cluster (10 + 256 * 0xFF + 65536 * 0xFF) 18 group detail
  { u with msix := 0 :: u.msix }

/-- `n` bytes at a physical address lie in part in a beat, 1,024 bytes at its index of the transfer (R322). -/
def inBeat (b : Beat) (pa n : Nat) : Prop := pa < b.pa + 1024 * b.beat + 1024 ∧ b.pa + 1024 * b.beat < pa + n

/-- The device bytes that a request asks its home for: a line for one kept, a sector for one through L1, else its own (R322). -/
def asksFor : ReqK → Nat → Nat × Nat
  | .load _ n _ ro l1 _, pa => if ro then (pa / 256 * 256, 256) else if l1 then (pa / 64 * 64, 64) else (pa / n * n, n)
  | .store b _, pa => (pa, b.length)
  | .zline, pa => (pa, 256)
  | .atom _ _ n _ _, pa => (pa, n)
  | .redo _ n _ _ _ _ _ _, pa => (pa, n)

/-- No context and no group is being saved. -/
def Unsaved (s : State) : Prop := ∀ c ∈ s.ctxs, (∀ i k, c.phase ≠ .saving i k) ∧ ∀ g ∈ s.cgroups, g.leaf ≠ .saving

/-- What a cold machine keeps and what it does not (R329, R331): fuses, flash, what the host and other devices hold. The newer flash copy stays; a write to the
other that power cuts short leaves it torn. -/
structure Cold (s t : State) (bootst : Nat) : Prop where
  boot : t.bootst = bootst
  fuses : t.keyHash1 = s.keyHash1 ∧ t.keyHash2 = s.keyHash2 ∧ t.rollback = s.rollback ∧ t.devId = s.devId ∧ t.form = s.form ∧ t.stepping = s.stepping
  flash : ∀ r x, s.flash = [some r, x] → t.flash = [some r, x] ∨ 8 ≤ s.bootst ∧ (t.flash = [some r, none] ∨ t.flash = [some r, some r])
  unwritten : s.bootst < 8 ∨ (∀ r x, s.flash ≠ [some r, x]) → t.flash = s.flash
  others : t.host = s.host ∧ t.remote = s.remote
  mem : ∀ a, s.farF ≤ a → sget 0 a t.mem = 0
  work : t.ctxs = [] ∧ t.cmds = [] ∧ t.warps = [] ∧ t.blocks = [] ∧ t.grids = [] ∧ t.net = [] ∧ t.copies = [] ∧ t.defs = [] ∧ t.readers = [] ∧ t.mats = []
  regs : t.groups = [] ∧ t.hq = [] ∧ t.wq = [] ∧ t.nregs = [] ∧ t.graphs = [] ∧ t.evsize = 0 ∧ t.l2 = []

end Sys2Proof.Claims

/-- R310, R312 to R314, R316 to R318: a cluster's timer starts a pass on its next core, or on a retired core once it is empty; after 500 µs its groups are stopped;
a scan that passes counts for the grids that had no warp there, and frees the core; for a core retired since the pass began only the final scan that it
still owes counts; a scan that fails retires its units,
replays a replayable group, from its start, in its own context or a new one, ahead of its grid's other blocks, or lists it, and counts likewise. A group still on a
core is stopped first, and counts among the replays once it starts again; blocks voided meanwhile are listed (O10). R179 to R181: a channel departs once, moving line
after line but what aborts; an L2 slice departs at its threshold. Model's choices: when the flash is written (log entry 68); the order of the passes and what a scan
tests at once (log entry 67). -/
def Obligations.InventoryAndDepartures : Prop :=
  (∀ (s : State) k, k < 8 * s.nClusters → (s.core k).retired = false →
    (s.passDue (k / 8) = true → s.nextPass (k / 8) = some k → exec (.inventoryPassStart k) s = .next (s.onCore k (draining s k))) ∧
    (s.passDue (k / 8) = false ∨ s.nextPass (k / 8) ≠ some k → exec (.inventoryPassStart k) s = .next s)) ∧
  (∀ (s : State) k, k < 8 * s.nClusters → (s.core k).retired = true → (s.core k).final = true → (s.core k).inv = .idle → (∀ b ∈ s.blocks, b.core ≠ k) →
    exec (.inventoryPassStart k) s = .next (s.onCore k (draining s k))) ∧
  (∀ (s : State) k t, (s.core k).inv = .draining t →
    (s.ns < t + 500000 → exec (.inventoryDrainTimeout k) s = .next s) ∧
    ∀ g, t + 500000 ≤ s.ns → s.groupsOn k = [g] → (∀ x ∈ s.cgroups, x.id = g → x.leaf = .none) →
      let u : State := { s with warps := s.warps.map fun w => if s.blockCg w.blk = g then unmarked w else w }
      exec (.inventoryDrainTimeout k) s = .next (u.onCGroup g fun x => { x with leaf := .stopping s.ns })) ∧
  (∀ (s : State) k t f, (s.core k).inv = .draining t → (∃ b ∈ s.blocks, b.core = k) → exec (.inventoryScanEnd k f) s = .next s) ∧
  (∀ (s : State) k t, (s.core k).inv = .draining t → (∀ b ∈ s.blocks, b.core ≠ k) →
    ((s.core k).retired = true → (s.core k).final = true → exec (.inventoryScanEnd k []) s = .next (s.onCore k rested)) ∧
    (s.grids = [] → exec (.inventoryScanEnd k []) s = .next (s.onCore k rested)) ∧
    ∀ g, (s.core k).retired = false ∨ (s.core k).final = false → s.grids = [g] → g.state = 0 → let h := { g with ran := g.ran.filter fun r => r.2 ≠ k }
      let h := if g.id ∈ (s.core k).passOk then { h with set := h.set.map fun c => if c.1 = k then (k, true) else c } else h
      exec (.inventoryScanEnd k []) s = .next ({ s with grids := [h] }.onCore k rested)) ∧
  (∀ (s : State) k t f u, (s.core k).inv = .draining t → (∀ b ∈ s.blocks, b.core ≠ k) → s.failUnit k f = u →
    (u.grids = [] → exec (.inventoryScanEnd k [f]) s = .next (u.onCore k rested)) ∧
    ∀ g v, u.grids = [g] → u.failGrid k g = v → (∀ h ∈ v.grids, h.state = 0) → exec (.inventoryScanEnd k [f]) s = .next (v.onCore k rested)) ∧
  (∀ (s : State) k q n,
    (n < 34 → n ∉ (s.quad (4 * k + q % 4)).badGran →
      let u := told (filed (s.onQuad (4 * k + q % 4) fun x => { x with badGran := insNat n x.badGran }) fun r =>
        { r with grans := r.grans ++ [(4 * k + q % 4, n)] }) (k / 8) (2 + 256 * (k % 8) + 65536 * (q % 4)) n
      s.failUnit k (.granule q n) = if u.short k = true then u.retireCore k else u) ∧
    (n < 50 → n ∉ (s.core k).badBank →
      let u := told (filed (s.onCore k fun x => { x with badBank := insNat n x.badBank }) fun r => { r with banks := r.banks ++ [(k, n)] }) (k / 8)
        (3 + 256 * (k % 8) + 65536 * 0xFF) n
      s.failUnit k (.bank n) = if u.short k = true then u.retireCore k else u) ∧
    (n % 32 ∉ (s.core k).badAcc → s.failUnit k (.accUnit n) = (told (s.onCore k fun x => { x with badAcc := insNat (n % 32) x.badAcc }) (k / 8) (5 + 256 * (k % 8) + 65536 * 0xFF)
      (n % 32)).checkCore k) ∧
    (n % 5 ∉ (s.core k).badArr → s.failUnit k (.array n) = (told (s.onCore k fun x => { x with badArr := insNat (n % 5) x.badArr }) (k / 8) (6 + 256 * (k % 8) + 65536 * 0xFF)
      (n % 5)).checkCore k)) ∧
  (∀ (s : State) k q n,
    (n ∈ (s.quad (4 * k + q % 4)).dead → s.failUnit k (.lane q n) = s) ∧ (n ∈ (s.quad (4 * k + q % 4)).badGran → s.failUnit k (.granule q n) = s) ∧
    (n ∈ (s.core k).badBank → s.failUnit k (.bank n) = s) ∧ (n ∈ (s.core k).deadCol → s.failUnit k (.column n) = s) ∧
    (n % 32 ∈ (s.core k).badAcc → s.failUnit k (.accUnit n) = s) ∧ (n % 5 ∈ (s.core k).badArr → s.failUnit k (.array n) = s)) ∧
  (∀ (s : State) k, (s.core k).retired = false → s.groupsOn k = [] →
    s.retireCore k = filed (s.onCore k fun c => { c with retired := true, final := true }) fun r => { r with cores := insNat k r.cores }) ∧
  (∀ (s : State) k g n, s.grids = [g] → s.concerned g = true → (∃ c ∈ g.set, c.1 = k) → g.affected k = [n] → s.replayable g (g.h.groupLins n) = false →
    s.failGrid k g = { s with grids := [dealt k (g.suspect (g.h.groupLins n))] }) ∧
  (∀ (s : State) k n g, Replays s k n g → let lins := g.h.groupLins n
    (∀ c, s.ctxs = [c] → c.grid = g.id → c.phase = .running → c.src ≠ .leaf → s.waits = [] →
      (s.cgroups = [] → s.failGrid k g = { s with grids := [dealt k (tallied lins (owing lins g))], waits := [replayHead s c.id n lins] }) ∧
      ∀ y, s.cgroups = [y] → y.ctx = c.id → y.gidx = n →
        s.failGrid k g = (({ s with grids := [dealt k (owing lins g)] } : State).onCGroup y.id fun z => { z with again := true }).leafPreempt y.id) ∧
    (∀ c w, s.ctxs = [c] → c.grid = g.id → c.phase = .running → c.src ≠ .leaf → s.cgroups = [] → s.waits = [w] → w.ctx = c.id → w.gidx = n →
      (w.replay = true → s.failGrid k g = { s with grids := [dealt k (owing lins g)], waits := [replayHead s c.id n lins] }) ∧
      (w.replay = false → w.saved.isSome = true →
        s.failGrid k g = { s with grids := [dealt k (tallied lins (owing lins g))], waits := [replayHead s c.id n lins] })) ∧
    (s.ctxs = [] → s.cgroups = [] → s.waits = [] →
      let c : Ctx := { g.ctx0 with id := s.nextId, grid := g.id, src := .leaf, phase := .running, cursor := g.h.total, lins := addAll [] lins, roFresh := [] }
      let h := dealt k (tallied lins (owing lins g))
      g.ctx0.grid = g.id → s.failGrid k g = { s with nextId := s.nextId + 1, ctxs := [c], grids := [h], waits := [replayHead s s.nextId n lins] })) ∧
  (∀ (s : State) b c g r, s.blocks = [b] → b.warpsLeft = 0 → s.blockBusy b.id = false → s.ctxs = [c] → b.ctx = c.id → c.phase = .running → s.cgroups = [g] →
    b.cg = g.id → g.ctx = c.id → g.again = true → g.left = 1 → s.grids = [r] → r.id = c.grid →
    let lins := c.h.groupLins g.gidx
    let h := tallied lins { r with exited := insNat b.lin r.exited, unrep := if b.voided then insNat b.lin r.unrep else r.unrep }
    let w := replayHead s c.id g.gidx lins
    exec (.blockEnd 0) s = .next { s with blocks := [], cgroups := [], ctxs := [{ c with done := c.done + 1 }], grids := [h], waits := s.waits ++ [w] }) ∧
  (∀ (s : State) g lins, s.replayable g lins = true ↔ g.ctx0.idem = true ∧ g.removed = false ∧ ∀ n ∈ lins, n ∉ g.unrep ∧ s.voidedNow g n = false) ∧
  (∀ (s : State) g n, s.voidedNow g n = true ↔
    (∃ b ∈ s.blocks, b.lin = n ∧ b.voided = true ∧ ∃ x ∈ s.ctxs, x.id = b.ctx ∧ x.grid = g.id) ∨
    ∃ w ∈ s.waits, (∃ x ∈ s.ctxs, x.id = w.ctx ∧ x.grid = g.id) ∧ ∃ v, w.saved = some v ∧ ∃ b ∈ v.2.1, b.lin = n ∧ b.voided = true) ∧
  (∀ (s : State) ch, s.depart = none → s.retRec.chan = none → ch < s.nChans → s.channelDue ch = true →
    exec (.channelDepartureStart ch) s = .next (told (filed { s with depart := some { ch := ch, gone := false, moved := [], kept := [], next := 0 } }
      fun r => { r with chan := some ch }) 0xFFFF (8 + 256 * 0xFF + 65536 * 0xFF) ch)) ∧
  (∀ (s : State) d ch, s.depart = some d → exec (.channelDepartureStart ch) s = .next s) ∧
  (∀ (s : State) d, s.depart = some d → d.gone = false →
    (∀ l, s.slotLine d.ch d.next = some l → l ∉ s.badLines ∨ l ∈ d.moved →
      exec .evacuatorLineStep s = .next { s with depart := some { d with next := l + 1, moved := if l ∈ d.moved then d.moved else insNat l d.moved } }) ∧
    (∀ l, s.slotLine d.ch d.next = some l → l ∈ s.badLines → l ∉ d.moved →
      let u : State := { s with depart := some { d with next := l + 1, kept := insNat l d.kept } }
      exec .evacuatorLineStep s = .next (u.detect (256 * l) (s.sliceHome (256 * l) / 8) 0xFF 0xFFFFFFFF)) ∧
    (s.slotLine d.ch d.next = none → d.kept = [] → exec .evacuatorLineStep s = .next { s with depart := some { d with gone := true, moved := [] } }) ∧
    (s.slotLine d.ch d.next = none → d.kept ≠ [] → exec .evacuatorLineStep s = .next s)) ∧
  ∀ (s : State) n,
    (s.sliceDue n = true → n ∉ s.slices → n < s.nSlices → s.slices.length + 1 < s.nSlices →
      let u : State := { s with slices := insNat n s.slices, l2 := s.l2.filter fun t => !(insNat n s.slices).contains (hashLine (256 * t.line) % s.nSlices) }
      exec (.sliceDeparture n) s = .next (told (filed u fun r => { r with slices := insNat n s.slices }) (n / 8) (7 + 256 * 0xFF + 65536 * 0xFF) n)) ∧
    (s.sliceDue n = false → exec (.sliceDeparture n) s = .next s)

/-- R311, R319 to R323, R326, R327: an uncorrectable error marks its line or scratchpad word, loses the dirty line and removes its group's contexts, drops a
slice, or removes the context it strikes, each reported; a corrected error is counted, logged and reported once per word; a beat of a vertical channel that fails
its parity is retried three times, then its wire is replaced by a spare, or its requester, which it names, receives an abort; a cluster's cap falls as it ages, and
its clock glides there, 25 MHz lower for each step of an alarm (R339). Model's choices and readings: when L2 hides an error, and who asked for a beat (log entry 69),
the clock that glides down from the cluster's own cap, never below 750 (log entry 70, DEDUCED), when the flash is written (log entry 68), the scratchpad's words (log
entry 88), the section of a near-store word (log entry 92), the record before the firmware runs (log entry 93). -/
def Obligations.ErrorsAct : Prop :=
  (∀ (s : State) pa, s.exists? pa = true → (∀ t ∈ s.l2, t.line ≠ pa / 256) → pa / 256 ∉ s.badLines →
    exec (.uncorrectableError (.line pa)) s = .next { s with free := s.free + 1, badLines := pa / 256 :: s.badLines }) ∧
  (∀ (s : State) pa, s.exists? pa = true → (∃ t ∈ s.l2, t.line = pa / 256) → pa / 256 ∉ s.badLines →
    exec (.uncorrectableError (.line pa)) s = .next (if Config.freeBit s.free then { s with free := s.free + 1 }
      else { s with free := s.free + 1, badLines := pa / 256 :: s.badLines })) ∧
  (∀ (s : State) pa, s.exists? pa = false → exec (.uncorrectableError (.line pa)) s = .next s) ∧
  (∀ (s : State) b a, exec (.uncorrectableError (.scratch b a)) s = .next (s.onBlock b fun x => { x with badWords := insNat (a / 4) x.badWords })) ∧
  (∀ (s : State) pa t, s.l2 = [t] → t.line = pa / 256 →
    let u : State := { s with l2 := [], mem := writeCells (256 * t.line) t.below s.mem }
    let w := u.postDev 2 (s.sliceHome pa / 8) (7 + 256 * 0xFF + 65536 * 0xFF) 18 t.group pa
    let v : State := { w with msix := 0 :: w.msix }
    ((∀ x ∈ s.ctxs, x.group ≠ t.group) → exec (.uncorrectableError (.writeback pa)) s = .next v) ∧
    ∀ p x q, s.ctxs = p ++ x :: q → x.group = t.group → (∀ y ∈ p ++ q, y.group ≠ t.group) →
      exec (.uncorrectableError (.writeback pa)) s = .next (v.startRemoval x.id 3)) ∧
  (∀ (s : State) pa, (∀ t ∈ s.l2, t.line ≠ pa / 256) → exec (.uncorrectableError (.writeback pa)) s = .next s) ∧
  (∀ (s : State) n, n ∉ s.slices → n < s.nSlices → s.slices.length + 1 < s.nSlices →
    let u := s.postDev 2 (n / 8) (7 + 256 * 0xFF + 65536 * 0xFF) 18 0xFFFFFFFF 0
    let v : State := { u with msix := 0 :: u.msix, slices := insNat n s.slices,
                              l2 := u.l2.filter fun t => !(insNat n s.slices).contains (hashLine (256 * t.line) % s.nSlices) }
    exec (.uncorrectableError (.sliceTag n)) s = .next (told (filed v fun r => { r with slices := insNat n s.slices }) (n / 8)
      (7 + 256 * 0xFF + 65536 * 0xFF) n)) ∧
  (∀ (s : State) c x k, s.ctx? c = some x →
    let u := s.postDev 2 (k / 8) (256 * (k % 8) + 65536 * 0xFF) 18 x.group 0
    let v : State := { u with msix := 0 :: u.msix }
    exec (.uncorrectableError (.ctxState c k none)) s = .next (v.startRemoval c 3)) ∧
  (∀ (s : State) c x k n, s.ctx? c = some x →
    let u := s.postDev 2 (k / 8) (5 + 256 * (k % 8) + 65536 * 0xFF) 18 x.group 0
    let v : State := { u with msix := 0 :: u.msix }
    exec (.uncorrectableError (.ctxState c k (some n))) s = .next ((v.startRemoval c 3).failAcc k (n % 32))) ∧
  (∀ (s : State) die bit pa cl k scrubbed, 0x20000000000 ≤ pa → pa < s.nearEnd → bit < 72 →
    let a := pa / 8 * 8
    let n := sget 0 a s.wordErr + 1
    let rec_ (kind b : Nat) := arrayRec kind (s.section_ pa) (die % 2) b a n cl k (s.ns / 1000)
    let two (l : Log) : Log := if scrubbed then l.add (rec_ 1 bit) else (l.add (rec_ 1 bit)).add (rec_ 3 0xFF)
    let u : State := { s with wordErr := sput 0 a n s.wordErr, alogs := supd Log.init (s.section_ pa) two s.alogs }
    scanon Log.init s.alogs = true → s.section_ pa = (if s.form = .d90 then 0 else Config.nearSection (pa / 8) % 4) ∧
    exec (.correctedError (.near die bit pa cl k scrubbed)) s = .next (if n = 1 then u.postDev 3 cl (9 + 256 * k + 65536 * 0xFF) 17 0xFFFFFFFF a else u)) ∧
  (∀ (s : State) pa, s.isFar pa = true →
    exec (.correctedError (.far pa)) s = .next { s with chanErr := s.chanErr ++ [((s.farHome pa).1, s.ns)] }) ∧
  (∀ (s : State) n, n < s.nSlices → exec (.correctedError (.slice n)) s = .next { s with sliceErr := s.sliceErr ++ [(n, s.ns)] }) ∧
  (∀ (s : State) cl grp pa beat, cl < s.nClusters → grp < 256 → exec (.verticalParityFail cl grp pa beat) s = .next
    { s with beats := s.beats ++ [{ cluster := cl, grp := grp, pa := pa, beat := beat, retries := 0 }] }) ∧
  (∀ (s : State) b, s.beats = [b] →
    (b.retries < 3 → exec (.verticalBeatRetry b.cluster false) s = .next { s with beats := [{ b with retries := b.retries + 1 }] } ∧
      exec (.verticalBeatRetry b.cluster true) s = .next (beatLog { s with beats := [] } b 1 0xFFFF 0xFF (b.retries + 1) 0xFF (s.sparesUsed b.cluster))) ∧
    (3 ≤ b.retries → ∀ p, exec (.verticalBeatRetry b.cluster p) s = .next s) ∧
    (b.retries = 3 → ∀ w v, w / 32 = b.grp ∧ w < 8192 ∨ w = 8192 + b.grp → s.sparesUsed b.cluster < 32 →
      let n := s.sparesUsed b.cluster
      let u := filed { s with beats := [] } fun r => { r with wires := r.wires ++ [(b.cluster, w, n)] }
      let x := beatLog u b 2 w n 3 (if v = true then 1 else 0) (n + 1)
      exec (.wireTestEnd b.cluster (some w) (some v)) s = .next
        (told (x.postDev 3 b.cluster (10 + 256 * 0xFF + 65536 * 0xFF) 17 0xFFFFFFFF w) b.cluster (10 + 256 * 0xFF + 65536 * 0xFF) w)) ∧
    (b.retries ≠ 3 → ∀ w v, exec (.wireTestEnd b.cluster w v) s = .next s) ∧
    (b.retries = 3 → s.copies = [] → s.defs = [] → s.fills = [] → s.fetches = [] → s.cmds = [] → Unsaved s →
      let lost (w : Option Nat) := beatLog { s with beats := [] } b (if w = none then 3 else 4) (w.getD 0xFFFF) 0xFF 3 0xFF (s.sparesUsed b.cluster)
      ∀ w, w = none ∨ 32 ≤ s.sparesUsed b.cluster ∧ (∃ x, w = some x ∧ (x / 32 = b.grp ∧ x < 8192 ∨ x = 8192 + b.grp)) →
        (s.net = [] → exec (.wireTestEnd b.cluster w none) s = .next (wireErr (lost w) b 0xFFFFFFFF (w.getD 0xFFFF))) ∧
        ∀ r pa, s.net = [r] → r.tgt = .dev pa → r.st = .sent → inBeat b (asksFor r.k pa).1 (asksFor r.k pa).2 →
          exec (.wireTestEnd b.cluster w none) s =
            .next (wireErr { lost w with free := s.free + 1, nextId := s.nextId + 1, net := [{ r with st := .failed 3, stamp := s.nextId }] } b r.org.group
              (w.getD 0xFFFF))) ∧
    (b.retries = 3 → s.net = [] → s.defs = [] → s.fills = [] → Unsaved s →
      let lost := beatLog { s with beats := [] } b 3 0xFFFF 0xFF 3 0xFF (s.sparesUsed b.cluster)
      (∀ c w a pa, s.copies = [c] → s.fetches = [] → s.cmds = [] → c.started = true → c.words = [w] → w.src = some a → s.place c.org.group a (.copy false) = .ok (.dev pa) →
        inBeat b pa 4 →
        exec (.wireTestEnd b.cluster none none) s = .next (wireErr ({ lost with free := s.free + 1 }.loseCopy 0 c 3 a) b c.org.group 0xFFFF)) ∧
      (∀ f pa, s.copies = [] → s.fetches = [f] → s.cmds = [] → f.line < 2 ^ 90 → s.place f.group (256 * f.line) (.copy false) = .ok (.dev pa) →
        inBeat b pa 256 →
        let u : State := { lost with free := s.free + 1, fetches := [] }
        exec (.wireTestEnd b.cluster none none) s = .next (wireErr (if f.pre then u else u.fetchFail f 7 8) b f.group 0xFFFF)) ∧
      ∀ c a pa, s.copies = [] → s.fetches = [] → s.cmds = [c] → s.place c.group a (.copy false) = .ok (.dev pa) →
        let u : State := { lost with free := s.free + 1, cmds := [] }
        (∀ x d len k n, c.k = .copy x d len [(k, n)] → a = x + k → inBeat b pa n →
          exec (.wireTestEnd b.cluster none none) s = .next (wireErr (u.fail c.src 9 c.group a) b c.group 0xFFFF)) ∧
        (∀ img ovr, c.k = .xlate img ovr → a = img → inBeat b pa 256 →
          exec (.wireTestEnd b.cluster none none) s = .next (wireErr (u.fail c.src 9 c.group img) b c.group 0xFFFF)) ∧
        ∀ g k, c.k = .load g k a none → 1 ≤ k → a % 256 + 32 * k ≤ 256 → inBeat b pa (32 * k) →
          exec (.wireTestEnd b.cluster none none) s =
            .next (wireErr ((u.onGraph g fun y => { y with loading := false }).fail c.src 9 c.group a) b c.group 0xFFFF)) ∧
    (b.retries = 3 → s.net = [] → s.copies = [] → s.defs = [] → s.fills = [] → s.fetches = [] → s.cmds = [] →
      let lost := beatLog { s with beats := [] } b 3 0xFFFF 0xFF 3 0xFF (s.sparesUsed b.cluster)
      ∀ c i k pa, s.ctxs = [c] → c.phase = .saving i k → s.cgroups = [] → (s.grp c.group).pimg % 65536 = 0 → 0 < (s.grp c.group).psize →
        s.place c.group (s.grp c.group).pimg (.copy false) = .ok (.dev pa) → inBeat b pa 65536 →
        exec (.wireTestEnd b.cluster none none) s = .next (wireErr ({ lost with free := s.free + 1 }.startRemoval c.id 3) b c.group 0xFFFF))) ∧
  (∀ (s : State) cl d, s.bootst < 8 → exec (.ageingMonitorRead cl d) s = .next s) ∧
  (∀ (s : State) cl d, 8 ≤ s.bootst → cl < s.nClusters →
    let old := (s.cluster cl).drift
    (d ≤ old → old < 180 → exec (.ageingMonitorRead cl d) s = .next (s.onCluster cl fun c => { c with drift := old })) ∧
    (old < d → d < 180 → ageCap d = ageCap old → exec (.ageingMonitorRead cl d) s = .next (s.onCluster cl fun c => { c with drift := d })) ∧
    (old < d → d < 180 → ageCap d < ageCap old → scanon Cluster.init s.clusters = true → exec (.ageingMonitorRead cl d) s = .next
      ((filed (s.onCluster cl fun c => { c with drift := d, gliding := true }) fun r => { r with caps := r.caps.filter (fun x => x.1 ≠ cl) ++ [(cl, d)] }).postDev
        3 cl (11 + 256 * 0xFF + 65536 * 0xFF) 20 0xFFFFFFFF (ageCap d))) ∧
    (180 ≤ d → (s.cluster cl).retired = false → ∃ t : State, exec (.ageingMonitorRead cl d) s = .next t ∧ (t.cluster cl).retired = true ∧
      cl ∈ t.retRec.clusters ∧ (∀ k, k / 8 = cl → (s.core k).retired = false → k ∈ t.retRec.cores) ∧
      ∀ k, k / 8 = cl → (t.core k).retired = true)) ∧
  (∀ d : Nat, ageCap d = 850 ∧ d < 60 ∨ ageCap d = 825 ∧ 60 ≤ d ∧ d < 90 ∨ ageCap d = 800 ∧ 90 ≤ d ∧ d < 120 ∨ ageCap d = 775 ∧ 120 ≤ d ∧ d < 150 ∨
    ageCap d = 750 ∧ 150 ≤ d) ∧
  ∀ (s : State) cl, ((s.cluster cl).gliding = true → exec (.clockGlideEnd cl) s = .next (s.onCluster cl fun c =>
      { c with gliding := false, clock := max 750 (ageCap (s.cluster cl).drift - 25 * s.steps) })) ∧
    ((s.cluster cl).gliding = false → exec (.clockGlideEnd cl) s = .next s)

namespace Sys2Proof.Claims

/-- A range of bytes, address and length, by its lines: its first address, then the start of each later line that it touches. -/
def linesOf (p : Nat × Nat) : List Nat :=
  if p.2 = 0 then [] else p.1 :: (List.range ((p.1 + p.2 - 1) / 256 - p.1 / 256)).map fun k => 256 * (p.1 / 256 + k + 1)

end Sys2Proof.Claims

/-- R258, R325, R329 to R333, R338, R339: an average above the limit or a junction above 105 °C raises the alarm, which clears below 95 percent, and the clocks step
down while it lasts and up after; above 115 °C every context is removed, then the device holds in reset; power lost or restored leaves the machine cold, with the
newer copy of the retirement record whole; the boot ROM verifies the image in its window, and the newer good record is applied: units, columns, caps and wires; an
attestation report is made on request; when a link goes down, or a remote device resets, the requests to it fail with their code, and so do copies, fetches and
commands that have one outstanding. Readings and choices of the model: BOOTST's values (log entry 8), hashes and keys (log entry 10), links (log entry 63), the flash
(log entry 68), what far store keeps and the alarm (log entry 70), the image's checks (log entry 71). -/
def Obligations.PowerAndBootAct : Prop :=
  (∀ (s : State) a b c, s.tripped = false → c ≤ 115 →
    (s.pwrlim < a ∨ 105 < c → exec (.powerSample a b c) s = .next { s with hot := decide (s.pwrlim < a), alarm := some (s.alarm.getD s.ns) }) ∧
    (a ≤ s.pwrlim → c ≤ 105 → exec (.powerSample a b c) s = .next (if 100 * b < 95 * s.pwrlim then { s with hot := false, alarm := none }
      else { s with hot := false }))) ∧
  (∀ (s : State) a b c, s.tripped = true ∨ 115 < c →
    (s.ctxs = [] → ∃ t : State, exec (.powerSample a b c) s = .next t ∧ t.bootst = 0 ∧ t.tripped = true ∧ t.warps = [] ∧ t.groups = []) ∧
    ∀ x, s.ctxs = [x] → (∀ p q r, x.phase ≠ .removing p q r) → (∃ r ∈ s.net, r.counted = true ∧ r.org.ctx = x.id) →
      ∃ (t : State) (n : Nat), exec (.powerSample a b c) s = .next t ∧ t.bootst = 0 ∧ t.tripped = true ∧ t.ctxs = [{ x with phase := .removing s.ns 4 n }]) ∧
  (∀ (s : State) t, s.alarm = some t → s.hot = true → s.stepAt + 100000 ≤ s.ns → t + 200000 ≤ s.ns → s.steps < 4 →
    exec .alarmClockStep s = .next ({ s with steps := s.steps + 1, stepAt := s.ns } : State).glideAll) ∧
  (∀ s : State, s.alarm = none → s.stepAt + 100000 ≤ s.ns → 0 < s.steps →
    exec .alarmClockStep s = .next ({ s with steps := s.steps - 1, stepAt := s.ns } : State).glideAll) ∧
  (∀ s : State, s.ns < s.stepAt + 100000 ∨ s.alarm = none ∧ s.steps = 0 ∨ (∃ t, s.alarm = some t ∧ (s.hot = false ∨ s.ns < t + 200000 ∨ 4 ≤ s.steps)) →
    exec .alarmClockStep s = .next s) ∧
  (∀ s : State, (∃ t : State, exec .powerLoss s = .next t ∧ Cold s t 0) ∧
    ∃ t : State, exec .powerUpReset s = .next t ∧ Cold s t 1 ∧ t.tripped = false ∧ t.linkUp = true ∧ t.deadNodes = []) ∧
  (∀ (s : State) v,
    (v = 1 → 1 ≤ s.bootst → s.bootst ≤ 6 → s.verifying = false → exec (.bootgo v) s = .next { s with verifying := true }) ∧
    (v ≠ 1 ∨ s.bootst = 0 ∨ 6 < s.bootst ∨ s.verifying = true → exec (.bootgo v) s = .next s)) ∧
  (∀ s : State, s.verifying = true →
    (s.bootCheck ≠ 7 → exec .bootVerificationEnd s = .next { s with verifying := false, bootst := s.bootCheck, bootWin := [] }) ∧
    (s.bootCheck = 7 → let n := ofBytes (readCells s.bootWin 8 4)
      exec .bootVerificationEnd s = .next { s with verifying := false, bootst := 7, bootHash := Config.sha384 s.bootM, svn := n, rollback := max s.rollback n })) ∧
  (∀ s : State, 2 ≤ s.bootCheck ∧ s.bootCheck ≤ 7 ∧
    (s.bootCheck = 7 → ofBytes (readCells s.bootWin 0 4) = 0x4957464B ∧ ofBytes (readCells s.bootWin 4 4) = 1 ∧
      Config.sha384 (readCells s.bootWin 16 97) = s.keyHash1 ∧ Config.sha256 (readCells s.bootWin 113 56) = s.keyHash2 ∧
      Config.ecdsaOk (readCells s.bootWin 16 97) s.bootM (readCells s.bootWin 169 96) = true ∧
      Config.lmsOk (readCells s.bootWin 113 56) s.bootM (readCells s.bootWin 265 2668) = true ∧ s.rollback ≤ ofBytes (readCells s.bootWin 8 4))) ∧
  (∀ s : State, s.bootst = 7 →
    (s.flash.filterMap id = [] → exec .retirementRecordApplied s = .next { s with bootst := 9 }) ∧
    ∀ r x, s.flash.filterMap id = r :: x → ∃ t : State, exec .retirementRecordApplied s = .next t ∧ t.retRec = r ∧ t.slices = r.slices ∧
      t.bootst = (if s.form = .d90 ∧ s.farCap < 4 then 10 else 8) ∧
      t.depart = r.chan.map (fun ch => { ch := ch, gone := true, moved := [], kept := [], next := 0 }) ∧
      t = { s with bootst := t.bootst, quads := t.quads, cores := t.cores, clusters := t.clusters, retRec := r, slices := r.slices, depart := t.depart } ∧
      (∀ y ∈ r.caps, (r.caps.filter fun z => z.1 = y.1) = [y] → (t.cluster y.1).drift = y.2 ∧ (t.cluster y.1).clock = ageCap y.2) ∧
      (∀ k, (∀ y ∈ r.caps, y.1 ≠ k) → (t.cluster k).drift = (s.cluster k).drift ∧ (t.cluster k).clock = (s.cluster k).clock) ∧
      (∀ y ∈ r.cols, y.2 ∈ (t.core y.1).deadCol) ∧
      (∀ k p, (r.cols.filter fun y => y.1 = k) = [(k, p)] → p < 128 → (s.core k).deadCol = [] → (s.core k).colmap = [] →
        ∀ l, l < 128 → (t.core k).col l = if l = p then 128 else l) ∧
      (∀ cl, t.sparesUsed cl = (r.wires.filter fun w => w.1 = cl).length) ∧
      (∀ k ∈ r.cores, (t.core k).retired = true) ∧ (∀ k ∈ r.clusters, (t.cluster k).retired = true) ∧ (∀ y ∈ r.lanes, y.2 ∈ (t.quad y.1).dead) ∧
      (∀ y ∈ r.grans, y.2 ∈ (t.quad y.1).badGran) ∧ ∀ y ∈ r.banks, y.2 ∈ (t.core y.1).badBank) ∧
  (∀ (s : State) v,
    (v = 1 → 7 ≤ s.bootst → exec (.attgo v) s = .next { s with attGo := true }) ∧ (v ≠ 1 ∨ s.bootst < 7 → exec (.attgo v) s = .next s)) ∧
  (∀ s : State, s.attGo = true →
    exec .attestationReportComplete s = .next { s with attReport := s.attest, attGo := false } ∧
    s.attest.length = 512 ∧ s.attest.take 4 = [0x4B, 0x41, 0x54, 0x54]) ∧
  (∀ (s : State) n,
    exec .hostLinkDown s = .next { s with linkUp := false, net := s.net.map (failing 1 fun t => match t with | .host _ => true | _ => false) } ∧
    exec (.fabricLinkDown n) s = .next { s with deadNodes := insNat n s.deadNodes,
                                                net := s.net.map (failing 1 fun t => match t with | .fab m _ => decide (m = n) | _ => false) } ∧
    (s.copies = [] → s.defs = [] → s.fills = [] → s.fetches = [] → (∀ c ∈ s.cmds, (∀ a d len p, c.k ≠ .copy a d len p) ∧ ∀ g k a, c.k ≠ .load g k a none) →
      exec (.remoteDeviceReset n) s = .next
        { s with net := s.net.map (failing 4 fun t => match t with | .fab m _ => decide (m = n) | _ => false) })) ∧
  (∀ (s : State) g n ps a, s.reaches g n ps = some a ↔ ∃ p q, ps.flatMap linesOf = p ++ a :: q ∧ (∃ o, s.place g a (.copy false) = .ok (.fab n o)) ∧
    ∀ x ∈ p, ∀ o, s.place g x (.copy false) ≠ .ok (.fab n o)) ∧
  (∀ (c : Copy) p, p ∈ c.ranges ↔ isScratch p.1 = false ∧
    ((∃ i ∈ c.blocks, p = (c.entryAt i, 8)) ∨ ∃ x ∈ c.words, p.2 = 4 ∧ (x.src = some p.1 ∨ x.dst = p.1))) ∧
  ∀ (s : State) n a, s.net = [] → s.defs = [] → s.fills = [] →
    let u : State := { s with free := s.free + 1 }
    (∀ c, s.copies = [c] → s.fetches = [] → s.cmds = [] → c.started = true → s.reaches c.org.group n c.ranges = some a →
      (Config.freeBit s.free = false → exec (.remoteDeviceReset n) s = .next u) ∧
      (Config.freeBit s.free = true → ∀ t, u.failCopy 0 c 4 a = t → t.defs = [] → t.fills = [] → t.fetches = [] → t.cmds = [] →
        exec (.remoteDeviceReset n) s = .next t)) ∧
    (∀ f o, s.copies = [] → s.fetches = [f] → s.cmds = [] → f.line < 2 ^ 90 → s.place f.group (256 * f.line) .fetch = .ok (.fab n o) →
      exec (.remoteDeviceReset n) s = .next (if Config.freeBit s.free = false then u
        else if f.pre then { u with fetches := [] } else ({ u with fetches := [] } : State).fetchFail f 7 8)) ∧
    (∀ c x d len p, s.copies = [] → s.fetches = [] → s.cmds = [c] → c.k = .copy x d len p →
      s.reaches c.group n (p.flatMap fun y => [(x + y.1, y.2), (d + y.1, y.2)]) = some a →
      exec (.remoteDeviceReset n) s = .next (if Config.freeBit s.free = false then u else ({ u with cmds := [] } : State).fail c.src 9 c.group a)) ∧
    ∀ c g k x, s.copies = [] → s.fetches = [] → s.cmds = [c] → c.k = .load g k x none → s.reaches c.group n [(x, 32 * k)] = some a →
      exec (.remoteDeviceReset n) s = .next (if Config.freeBit s.free = false then u
        else (({ u with cmds := [] } : State).onGraph g fun y => { y with loading := false }).fail c.src 9 c.group a)

/-! # Operands -/

namespace Sys2Proof.Claims

/-- `k` registers from field value `n`, a multiple of `k`, that a warp of `g` granules may name: v it holds, s, or in handler mode h (R41 to R43). -/
def Named (g : Nat) (hnd : Bool) (k : Nat) (f : Fld) : Prop :=
  let n := f.toNat
  n % k = 0 ∧ (n + k ≤ 64 * g ∧ n + k ≤ 640 ∨ 640 ≤ n ∧ n + k ≤ 704 ∨ hnd = true ∧ 704 ≤ n ∧ n + k ≤ 768)

/-- Registers of which each lane has its own: v and h. -/
def PerLane (g : Nat) (hnd : Bool) (k : Nat) (f : Fld) : Prop := Named g hnd k f ∧ ¬(640 ≤ f.toNat ∧ f.toNat < 704)

/-- What a source may name: registers, a special value, or the pair 780 (R42 to R44). -/
def Source (g : Nat) (hnd : Bool) (k : Nat) (f : Fld) : Prop :=
  Named g hnd k f ∨ k = 1 ∧ 768 ≤ f.toNat ∧ f.toNat ≤ 782 ∨ k = 2 ∧ f.toNat = 780

/-- What supplies one value to every lane: s, and special values but sv.lane (R45). -/
def OneValue (f : Fld) : Prop := 640 ≤ f.toNat ∧ f.toNat < 704 ∨ 768 < f.toNat ∧ f.toNat ≤ 782

/-- A uniform destination takes no per-lane source (R45). -/
def Uniform (d : Fld) (srcs : List Fld) : Prop := 640 ≤ d.toNat → d.toNat < 704 → ∀ x ∈ srcs, OneValue x

/-- Instructions of one destination and two sources of a register each, of V and its floats. -/
def threeRegs : Instr → Option R3
  | .iadd _ _ r | .isub _ _ r | .imul _ r | .imulh _ _ r | .imad _ r | .imin _ _ r | .imax _ _ r | .ishl _ r | .ishr _ r | .lshr _ r | .rot _ _ r | .and _ r
  | .or _ r | .xor _ r | .andn _ r | .bfx _ _ r | .bfi _ r | .idot4 _ _ _ _ r | .fadd _ _ r | .fsub _ _ r | .fmul _ _ r | .ffma _ _ r | .fmin _ r | .fmax _ r
  | .fdiv _ _ r | .hfma2 _ _ _ r | .hadd2 _ _ _ r | .hmul2 _ _ _ r | .fsign _ .cpy _ r | .fsign _ .xor _ r => some r
  | _ => none

/-- Instructions of one destination and one source of a register each. -/
def twoRegs : Instr → Option (Fld × Fld)
  | .iabs _ _ r | .popc _ r | .clz _ r | .brev _ r | .mov _ false r | .fclass _ _ r | .frcp _ _ r | .frsq _ _ r | .fsqrt _ _ r | .fexp2 _ _ r | .flog2 _ _ r
  | .frnd _ _ r | .fcvt _ _ _ r | .ftoi _ _ _ r | .itof _ _ _ r => some (r.d, r.a)
  | .fsign _ .neg _ r | .fsign _ .abs _ r => some (r.d, r.a)
  | .iaddi _ d a _ => some (d, a)
  | _ => none

/-- Registers that a memory size names (R37, R39): one up to 32 bits, a pair, a quad. -/
def dataRegs (z : BitVec 3) : Nat := match z.toNat with | 0 | 1 | 2 => 1 | 3 => 2 | _ => 4

/-- The lane that a permuted source is read from (R47). -/
def Reads (p : Perm) (t : Target) (l x : Nat) : Prop :=
  match p with
  | .none => x = l
  | .rot n u => if u = t then (l + n.toNat < 32 → x = l + n.toNat) ∧ (32 ≤ l + n.toNat → x + 32 = l + n.toNat) else x = l
  | .bc n u => if u = t then x = n.toNat else x = l
  | .fly n u => if u = t then ∀ k, x.testBit k = (l.testBit k != n.toNat.testBit k) else x = l
  | .mir n u => if u = t then x / 2 ^ n.toNat = l / 2 ^ n.toNat ∧ x % 2 ^ n.toNat + l % 2 ^ n.toNat + 1 = 2 ^ n.toNat else x = l

end Sys2Proof.Claims

/-- R8, R37, R39, R41 to R47: what a register field reads, the special values, the lane that a permuted source comes from, the lanes where a guard holds, and the
fields that an instruction may name without illegal-operand (O10): registers that the warp holds, pairs and quads by their first, special values as sources, no
per-lane source under a uniform destination but in VOTE, VRED and UMOV; and R112, no special pair as a transfer's target. -/
def Obligations.OperandRules : Prop :=
  (∀ (s : State) (w : Warp) n l,
    (n < 640 → s.reg w n l = sget 0 (32 * n + l) w.v) ∧
    (640 ≤ n → n < 704 → ∀ k, s.reg w n l = sget 0 (n - 640) w.s ∧ s.reg w n k = s.reg w n l) ∧
    (∀ b, 704 ≤ n → n < 768 → (s.quad w.q).bank = some b → s.reg w n l = sget 0 (32 * (n - 704) + l) b.h)) ∧
  (∀ (s : State) (w : Warp) c b l, s.ctx? w.ctx = some c → s.block? w.blk = some b →
    let h := c.h
    let v (n x : Nat) : Prop := s.reg w n l = BitVec.ofNat 32 x
    (l < 32 → (s.reg w 768 l).toNat = l) ∧ (∀ n k, 768 < n → n ≤ 782 → s.reg w n k = s.reg w n l) ∧
    v 769 w.wi ∧ (∀ x y z, b.lin = x + h.gx * (y + h.gy * z) → x < h.gx → y < h.gy → v 770 x ∧ v 771 y ∧ v 772 z) ∧ v 773 h.gx ∧ v 774 h.gy ∧ v 775 h.gz ∧
    v 776 h.warps ∧ v 777 (w.core / 8) ∧ v 778 (w.core % 8) ∧ v 779 b.pos ∧ v 782 (1024 * h.scratch) ∧
    (h.args < 2 ^ 52 → (s.reg w 781 l).toNat * 2 ^ 32 + (s.reg w 780 l).toNat = h.args)) ∧
  (∀ (p : Perm) t l, l < 32 → Reads p t l (p.lane t l)) ∧
  (∀ (s : State) (w : Warp) l, l < 32 → s.iss.early = [] →
    (s.guarded w .always).getLsbD l = s.iss.lanes.getLsbD l ∧
    ∀ p, (s.guarded w (.onTrue p)).getLsbD l = (s.iss.lanes.getLsbD l && (sget 0 p.toNat w.p).getLsbD l) ∧
      (s.guarded w (.onFalse p)).getLsbD l = (s.iss.lanes.getLsbD l && !(sget 0 p.toNat w.p).getLsbD l)) ∧
  (∀ i r g h, threeRegs i = some r → (regsOk i g h = true ↔ Named g h 1 r.d ∧ Source g h 1 r.a ∧ Source g h 1 r.b ∧ Uniform r.d [r.a, r.b])) ∧
  (∀ i d a g h, twoRegs i = some (d, a) → (regsOk i g h = true ↔ Named g h 1 d ∧ Source g h 1 a ∧ Uniform d [a])) ∧
  (∀ (c : Common) (r : R3) g h, let p (x y z : Nat) : Prop := Named g h x r.d ∧ Source g h y r.a ∧ Source g h z r.b ∧ Uniform r.d [r.a, r.b]
    (∀ m, regsOk (.imadw c m r) g h = true ↔ p 2 1 1) ∧ (regsOk (.iadd64 c r) g h = true ↔ p 2 2 2) ∧ (∀ m k, regsOk (.lea c m k r) g h = true ↔ p 2 2 1) ∧
    (∀ m n, regsOk (.iset c m n r) g h = true ↔ r.d.toNat < 16 ∧ Source g h 1 r.a ∧ Source g h 1 r.b) ∧
    (∀ m, regsOk (.fset c m r) g h = true ↔ r.d.toNat < 16 ∧ Source g h 1 r.a ∧ Source g h 1 r.b) ∧
    (∀ m p, regsOk (.sel c m p r) g h = true ↔ PerLane g h 1 r.d ∧ Source g h 1 r.a ∧ Source g h 1 r.b) ∧
    ∀ m w, regsOk (.shfl c m w r) g h = true ↔
      PerLane g h (if w = true then 2 else 1) r.d ∧ Source g h (if w = true then 2 else 1) r.a ∧ Source g h 1 r.b) ∧
  (∀ (c : Common) (r : R2) g h,
    (regsOk (.mov c true r) g h = true ↔ Named g h 2 r.d ∧ Source g h 2 r.a ∧ Uniform r.d [r.a]) ∧
    (∀ k m, regsOk (.vred c k m r) g h = true ↔ Named g h 1 r.d ∧ Source g h 1 r.a) ∧
    (∀ k m, regsOk (.vscan c k m r) g h = true ↔ PerLane g h 1 r.d ∧ Source g h 1 r.a)) ∧
  (∀ (c : Common) d g h, (∀ x, regsOk (.movi c d x) g h = true ↔ Named g h 1 d) ∧ (∀ k x, regsOk (.movxw c k d x) g h = true ↔ Named g h 2 d)) ∧
  (∀ (c : Common) (m : MOp) g h, let k := dataRegs m.size
    (∀ x y, regsOk (.ld c x y m) g h = true ↔ Named g h k m.data ∧ Source g h 2 m.base ∧ Uniform m.data [m.base]) ∧
    (∀ x, regsOk (.ldro c x m) g h = true ↔ Named g h k m.data ∧ Source g h 2 m.base ∧ Uniform m.data [m.base]) ∧
    (∀ x, regsOk (.lds c x m) g h = true ↔ Named g h k m.data ∧ Source g h 1 m.base ∧ Uniform m.data [m.base]) ∧
    (∀ x, regsOk (.st c x m) g h = true ↔ Source g h k m.data ∧ Source g h 2 m.base) ∧
    (regsOk (.sts c m) g h = true ↔ Source g h k m.data ∧ Source g h 1 m.base) ∧
    (regsOk (.zline c m) g h = true ↔ Source g h 2 m.base)) ∧
  (∀ (c : Common) a x g h, (regsOk (.brx c a x) g h = true ↔ Named g h 2 a) ∧ (regsOk (.ret c a x) g h = true ↔ Named g h 2 a) ∧
    (∀ o, regsOk (.call c o a) g h = true ↔ Named g h 2 a)) ∧
  ∀ (c : Common) sc k b g h, (regsOk (.cpy c sc k b) g h = true ↔ b.toNat ≤ 56) ∧ (regsOk (.cpybt c sc k b) g h = true ↔ b.toNat ≤ 56)
end

