-- ==== Sys2Proof/Laws/Encoding.lean ====
section
/-! SUPPORT. The fields of an encoded word read back as they were put in, format by format (R36, R37), and operands decode to what was encoded. -/

namespace Sys2Proof

/-! ## Parts of a concatenation -/

theorem ext_hi {a b : Nat} (x : BitVec a) (y : BitVec b) (k n : Nat) (h : b ≤ k) : (x ++ y).extractLsb' k n = x.extractLsb' (k - b) n := by
  ext i hi
  simp only [BitVec.getElem_extractLsb', BitVec.getLsbD_append]
  rw [if_neg (by omega)]; congr 1; omega

theorem ext_lo {a b : Nat} (x : BitVec a) (y : BitVec b) (k n : Nat) (h : k + n ≤ b) : (x ++ y).extractLsb' k n = y.extractLsb' k n := by
  ext i hi
  simp only [BitVec.getElem_extractLsb', BitVec.getLsbD_append]
  rw [if_pos (by omega)]

theorem ext_all {a : Nat} (x : BitVec a) : x.extractLsb' 0 a = x := by ext i hi; simp

theorem op_enc (op : BitVec 10) (c : Common) (b : Body) : opcodeOf (encWord op c b) = op := by
  unfold opcodeOf encWord
  rw [ext_hi (a := 20) (b := 44) _ _ _ _ (by decide), ext_hi (a := 14) (b := 6) _ _ _ _ (by decide), ext_hi (a := 10) (b := 4) _ _ _ _ (by decide)]
  exact ext_all op

theorem body_enc (op : BitVec 10) (c : Common) (b : Body) : (encWord op c b).extractLsb' 0 44 = b := by
  unfold encWord
  rw [ext_lo (a := 20) (b := 44) _ _ _ _ (by decide), ext_all]

theorem stall_enc (op : BitVec 10) (c : Common) (b : Body) : (encWord op c b).extractLsb' 50 4 = c.stall := by
  unfold encWord
  rw [ext_hi (a := 20) (b := 44) _ _ _ _ (by decide), ext_hi (a := 14) (b := 6) _ _ _ _ (by decide), ext_lo (a := 10) (b := 4) _ _ _ _ (by decide)]
  exact ext_all c.stall

theorem guard_bits (op : BitVec 10) (c : Common) (b : Body) (k n : Nat) (h : 44 ≤ k) (h2 : k + n ≤ 50) :
    (encWord op c b).extractLsb' k n = (encGuard c.guard).extractLsb' (k - 44) n := by
  unfold encWord
  rw [ext_hi (a := 20) (b := 44) _ _ _ _ h, ext_lo (a := 14) (b := 6) _ _ _ _ (by omega)]

theorem guard_enc (op : BitVec 10) (c : Common) (b : Body) : decGuard (encWord op c b) = some c.guard := by
  unfold decGuard
  rw [guard_bits _ _ _ 48 1 (by decide) (by decide), guard_bits _ _ _ 44 4 (by decide) (by decide), guard_bits _ _ _ 49 1 (by decide) (by decide)]
  rcases c with ⟨st, g⟩
  have key : ∀ g : Guard, (let s := (encGuard g).extractLsb' (48 - 44) 1
    let p := (encGuard g).extractLsb' (44 - 44) 4
    if (encGuard g).extractLsb' (49 - 44) 1 = 1#1 then some (if s = 1#1 then Guard.onFalse p else Guard.onTrue p)
    else if s = 0#1 then if p = 0#4 then some Guard.always else none else none) = some g := by
    intro g
    cases g with
    | always => decide
    | onTrue p => revert p; decide
    | onFalse p => revert p; decide
  exact key g

theorem decode_enc (op : BitVec 10) (c : Common) (b : Body) (i : Instr) (h : decOp c op.toNat b = some i) : decode (encWord op c b) = .ok i := by
  simp only [decode, guard_enc, op_enc, body_enc, stall_enc]
  rw [show ({ stall := c.stall, guard := c.guard } : Common) = c from rfl, h]

theorem encR_d (d a b : Fld) (p : Perm) (m : BitVec 5) : (encR d a b p m).bits 34 10 = d := by
  unfold Body.bits encR
  rw [ext_hi (a := 39) (b := 5) _ _ _ _ (by decide), ext_hi (a := 30) (b := 9) _ _ _ _ (by decide), ext_hi (a := 20) (b := 10) _ _ _ _ (by decide),
    ext_hi (a := 10) (b := 10) _ _ _ _ (by decide)]
  exact ext_all d

theorem encR_a (d a b : Fld) (p : Perm) (m : BitVec 5) : (encR d a b p m).bits 24 10 = a := by
  unfold Body.bits encR
  rw [ext_hi (a := 39) (b := 5) _ _ _ _ (by decide), ext_hi (a := 30) (b := 9) _ _ _ _ (by decide), ext_hi (a := 20) (b := 10) _ _ _ _ (by decide),
    ext_lo (a := 10) (b := 10) _ _ _ _ (by decide)]
  exact ext_all a

theorem encR_b (d a b : Fld) (p : Perm) (m : BitVec 5) : (encR d a b p m).bits 14 10 = b := by
  unfold Body.bits encR
  rw [ext_hi (a := 39) (b := 5) _ _ _ _ (by decide), ext_hi (a := 30) (b := 9) _ _ _ _ (by decide), ext_lo (a := 20) (b := 10) _ _ _ _ (by decide)]
  exact ext_all b

theorem encR_m (d a b : Fld) (p : Perm) (m : BitVec 5) (k n : Nat) (h : k + n ≤ 5) : (encR d a b p m).bits k n = m.extractLsb' k n := by
  unfold Body.bits encR
  rw [ext_lo (a := 39) (b := 5) _ _ _ _ h]

theorem encR_pb (d a b : Fld) (p : Perm) (m : BitVec 5) (k n : Nat) (h : 5 ≤ k) (h2 : k + n ≤ 14) :
    (encR d a b p m).bits k n = (encPerm p).extractLsb' (k - 5) n := by
  unfold Body.bits encR
  rw [ext_hi (a := 39) (b := 5) _ _ _ _ h, ext_lo (a := 30) (b := 9) _ _ _ _ (by omega)]

/-- The permute that nine bits stand for. -/
def permBits (x : BitVec 9) (aOk bOk : Bool) : Option Perm :=
  let n := x.extractLsb' 1 5
  let t := if x.extractLsb' 0 1 = 1#1 then Target.srcA else Target.srcB
  let ok (p : Perm) : Option Perm := if p.wf aOk bOk then some p else none
  match (x.extractLsb' 6 3).toNat with
  | 0 => if n = 0#5 then if t = .srcB then some .none else none else none
  | 1 => ok (.rot n t)
  | 2 => ok (.bc n t)
  | 3 => ok (.fly n t)
  | 4 => ok (.mir n t)
  | _ => none

theorem permBits_enc (p : Perm) (aOk bOk : Bool) (h : p.wf aOk bOk = true) : permBits (encPerm p) aOk bOk = some p := by
  cases p with
  | none => decide +revert
  | rot n t => revert h; cases aOk <;> cases bOk <;> cases t <;> revert n <;> decide
  | bc n t => revert h; cases aOk <;> cases bOk <;> cases t <;> revert n <;> decide
  | fly n t => revert h; cases aOk <;> cases bOk <;> cases t <;> revert n <;> decide
  | mir n t => revert h; cases aOk <;> cases bOk <;> cases t <;> revert n <;> decide

theorem encR_p (d a b : Fld) (p : Perm) (m : BitVec 5) (aOk bOk : Bool) (h : p.wf aOk bOk = true) : decPerm (encR d a b p m) aOk bOk = some p := by
  have := permBits_enc p aOk bOk h
  unfold decPerm
  rw [encR_pb _ _ _ _ _ 6 5 (by decide) (by decide), encR_pb _ _ _ _ _ 5 1 (by decide) (by decide), encR_pb _ _ _ _ _ 11 3 (by decide) (by decide)]
  exact this

theorem R3_md (r : R3) (m : BitVec 5) : (r.enc m).md = m := by unfold Body.md R3.enc; rw [encR_m _ _ _ _ _ _ _ (by decide), ext_all]

theorem R2_md (r : R2) (m : BitVec 5) : (r.enc m).md = m := by unfold Body.md R2.enc; rw [encR_m _ _ _ _ _ _ _ (by decide), ext_all]

theorem encR_md (d a b : Fld) (p : Perm) (m : BitVec 5) : (encR d a b p m).md = m := by unfold Body.md; rw [encR_m _ _ _ _ _ _ _ (by decide), ext_all]

theorem R3_bits (r : R3) (m : BitVec 5) (k n : Nat) (h : k + n ≤ 5) : (r.enc m).bits k n = m.extractLsb' k n := encR_m _ _ _ _ _ _ _ h

theorem R2_bits (r : R2) (m : BitVec 5) (k n : Nat) (h : k + n ≤ 5) : (r.enc m).bits k n = m.extractLsb' k n := encR_m _ _ _ _ _ _ _ h

theorem decR3_enc (r : R3) (m : BitVec 5) (aOk bOk : Bool) (h : r.p.wf aOk bOk = true) : decR3 (r.enc m) aOk bOk = some r := by
  unfold decR3 R3.enc; rw [encR_p _ _ _ _ _ _ _ h, encR_d, encR_a, encR_b]; rfl

theorem decR2_encR (d a : Fld) (p : Perm) (m : BitVec 5) (h : p.wf true false = true) : decR2 (encR d a 0 p m) = some { d := d, a := a, p := p } := by
  unfold decR2; rw [encR_b, if_pos (by rfl), encR_p _ _ _ _ _ _ _ h, encR_d, encR_a]; rfl

theorem decR2_enc (r : R2) (m : BitVec 5) (h : r.wf = true) : decR2 (r.enc m) = some r := decR2_encR _ _ _ _ h

theorem decR3a_enc (r : R3) (m : BitVec 5) (hb : r.b = 0) (h : r.p.wf true false = true) : decR3a (r.enc m) = some r := by
  unfold decR3a; rw [show (r.enc m).bits 14 10 = r.b from encR_b .., if_pos (by exact hb), decR3_enc _ _ _ _ h]

theorem decR3_encR (d a b : Fld) (p : Perm) (m : BitVec 5) (aOk bOk : Bool) (h : p.wf aOk bOk = true) :
    decR3 (encR d a b p m) aOk bOk = some { d := d, a := a, b := b, p := p } := by
  unfold decR3; rw [encR_p _ _ _ _ _ _ _ h, encR_d, encR_a, encR_b]; rfl

/-! ## Format M -/

theorem M_bits (o : MOp) (m : BitVec 5) (k n : Nat) (h : k + n ≤ 5) : (o.enc m).bits k n = m.extractLsb' k n := by
  unfold Body.bits MOp.enc; rw [ext_lo (a := 39) (b := 5) _ _ _ _ h]

theorem M_md (o : MOp) (m : BitVec 5) : (o.enc m).md = m := by unfold Body.md; rw [M_bits _ _ _ _ (by decide), ext_all]

theorem decM_enc (o : MOp) (m : BitVec 5) : decM (o.enc m) = o := by
  unfold decM Body.bits MOp.enc
  rw [ext_hi (a := 39) (b := 5) _ _ _ _ (by decide), ext_hi (a := 39) (b := 5) _ _ _ _ (by decide), ext_hi (a := 39) (b := 5) _ _ _ _ (by decide),
    ext_hi (a := 39) (b := 5) _ _ _ _ (by decide), ext_hi (a := 36) (b := 3) _ _ _ _ (by decide), ext_hi (a := 36) (b := 3) _ _ _ _ (by decide),
    ext_hi (a := 36) (b := 3) _ _ _ _ (by decide), ext_lo (a := 36) (b := 3) _ _ _ _ (by decide), ext_hi (a := 20) (b := 16) _ _ _ _ (by decide),
    ext_hi (a := 20) (b := 16) _ _ _ _ (by decide), ext_lo (a := 20) (b := 16) _ _ _ _ (by decide), ext_hi (a := 10) (b := 10) _ _ _ _ (by decide),
    ext_lo (a := 10) (b := 10) _ _ _ _ (by decide)]
  show MOp.mk (o.data.extractLsb' 0 10) (o.base.extractLsb' 0 10) (o.off.extractLsb' 0 16) (o.size.extractLsb' 0 3) = o
  rw [ext_all, ext_all, ext_all, ext_all]

/-! ## Format T -/

section

variable (acc : BitVec 6) (ta tb : BitVec 10) (aux : Fld) (cv : BitVec 3) (m : BitVec 5)

theorem T_bits (k n : Nat) (h : k + n ≤ 5) : (encT acc ta tb aux cv m).bits k n = m.extractLsb' k n := by
  unfold Body.bits encT; rw [ext_lo (a := 39) (b := 5) _ _ _ _ h]

theorem T_md : (encT acc ta tb aux cv m).md = m := by unfold Body.md; rw [T_bits _ _ _ _ _ _ _ _ (by decide), ext_all]

theorem T_cv : (encT acc ta tb aux cv m).bits 5 3 = cv := by
  unfold Body.bits encT
  rw [ext_hi (a := 39) (b := 5) _ _ _ _ (by decide), ext_lo (a := 36) (b := 3) _ _ _ _ (by decide)]; exact ext_all cv

theorem T_aux : (encT acc ta tb aux cv m).bits 8 10 = aux := by
  unfold Body.bits encT
  rw [ext_hi (a := 39) (b := 5) _ _ _ _ (by decide), ext_hi (a := 36) (b := 3) _ _ _ _ (by decide), ext_lo (a := 26) (b := 10) _ _ _ _ (by decide)]; exact ext_all aux

theorem T_tb : (encT acc ta tb aux cv m).bits 18 10 = tb := by
  unfold Body.bits encT
  rw [ext_hi (a := 39) (b := 5) _ _ _ _ (by decide), ext_hi (a := 36) (b := 3) _ _ _ _ (by decide), ext_hi (a := 26) (b := 10) _ _ _ _ (by decide),
    ext_lo (a := 16) (b := 10) _ _ _ _ (by decide)]; exact ext_all tb

theorem T_taBits (k n : Nat) (h : 28 ≤ k) (h2 : k + n ≤ 38) : (encT acc ta tb aux cv m).bits k n = ta.extractLsb' (k - 28) n := by
  unfold Body.bits encT
  rw [ext_hi (a := 39) (b := 5) _ _ _ _ (by omega), ext_hi (a := 36) (b := 3) _ _ _ _ (by omega), ext_hi (a := 26) (b := 10) _ _ _ _ (by omega),
    ext_hi (a := 16) (b := 10) _ _ _ _ (by omega), ext_lo (a := 6) (b := 10) _ _ _ _ (by omega)]; rfl

theorem T_ta : (encT acc ta tb aux cv m).bits 28 10 = ta := by
  rw [T_taBits _ _ _ _ _ _ _ _ (by decide) (by decide)]; exact ext_all ta

theorem T_acc : (encT acc ta tb aux cv m).bits 38 6 = acc := by
  unfold Body.bits encT
  rw [ext_hi (a := 39) (b := 5) _ _ _ _ (by decide), ext_hi (a := 36) (b := 3) _ _ _ _ (by decide), ext_hi (a := 26) (b := 10) _ _ _ _ (by decide),
    ext_hi (a := 16) (b := 10) _ _ _ _ (by decide), ext_hi (a := 6) (b := 10) _ _ _ _ (by decide)]; exact ext_all acc

end

theorem ext_cat {a b : Nat} (x : BitVec a) (y : BitVec b) (n : Nat) : (x ++ y).extractLsb' 0 (n + b) = x.extractLsb' 0 n ++ y := by
  ext i hi
  simp only [BitVec.getElem_extractLsb', BitVec.getLsbD_append, BitVec.getElem_append, Nat.zero_add]
  split
  · next h => exact BitVec.getLsbD_eq_getElem h
  · rfl

theorem encR_low19 (d a : Fld) (m : BitVec 5) : (encR d a 0 .none m).bits 5 19 = 0#19 := by
  unfold Body.bits encR
  rw [ext_hi (a := 39) (b := 5) _ _ _ _ (by decide)]
  show ((d ++ a ++ (0 : Fld)) ++ (0 : BitVec 9)).extractLsb' 0 (10 + 9) = _
  rw [ext_cat, ext_lo (a := 20) (b := 10) _ _ _ _ (by decide)]; rfl

theorem encR_low29 (d : Fld) (m : BitVec 5) : (encR d 0 0 .none m).bits 5 29 = 0#29 := by
  unfold Body.bits encR
  rw [ext_hi (a := 39) (b := 5) _ _ _ _ (by decide)]
  show ((d ++ (0 : Fld) ++ (0 : Fld)) ++ (0 : BitVec 9)).extractLsb' 0 (20 + 9) = _
  rw [ext_cat]
  show ((d ++ (0 : Fld) ++ (0 : Fld)).extractLsb' 0 (10 + 10)) ++ (0 : BitVec 9) = _
  rw [ext_cat, ext_lo (a := 10) (b := 10) _ _ _ _ (by decide)]; rfl

/-- A word encoded from fields that decode to an instruction decodes to it. -/
theorem decodes_of {i : Instr} {op : BitVec 10} {c : Common} {b : Body} (he : encode i = some (encWord op c b))
    (h : i.wf = true → decOp c op.toNat b = some i) (hw : i.wf = true) (w : Word64) (hx : encode i = some w) : decode w = .ok i := by
  rw [he] at hx; cases hx; exact decode_enc _ _ _ _ (h hw)

end Sys2Proof
end

