-- ==== Sys2Proof/Laws/Sparse.lean ====
section
/-! SUPPORT. Laws of data by key: read after write, the canonical form kept by every operation, and byte runs as reads and writes of single
bytes. -/

namespace Sys2Proof.Machine

variable {α : Type}

/-! ## Read after write -/

@[simp] theorem sget_nil (d : α) (k : Nat) : sget d k [] = d := rfl

theorem sget_sins (d : α) (k j : Nat) (v : α) (m : Sparse α) : sget d j (sins k v m) = if j = k then v else sget d j m := by
  induction m with
  | nil => simp only [sins, sget]; by_cases h : k = j <;> simp [h, eq_comm]
  | cons x r ih =>
    obtain ⟨a, w⟩ := x
    simp only [sins]
    split
    · simp only [sget]; by_cases h : k = j <;> simp [h, eq_comm]
    · split
      · next h => subst h; simp only [sget]; by_cases h : k = j <;> simp [h, eq_comm]
      · next h1 h2 =>
        simp only [sget, ih]
        by_cases h : a = j
        · subst h; simp [Ne.symm h2]
        · simp [h]

theorem sget_sdel (d : α) (k j : Nat) (m : Sparse α) : sget d j (sdel k m) = if j = k then d else sget d j m := by
  induction m with
  | nil => simp [sdel]
  | cons x r ih =>
    obtain ⟨a, w⟩ := x
    simp only [sdel]
    split
    · next h => subst h; rw [ih]; simp only [sget]; by_cases h : j = a <;> simp [h, eq_comm]
    · next h =>
      simp only [sget, ih]
      by_cases h' : a = j
      · subst h'; simp [h]
      · simp [h']

/-- What a write leaves at every key. -/
theorem sget_sput [DecidableEq α] (d : α) (k j : Nat) (v : α) (m : Sparse α) : sget d j (sput d k v m) = if j = k then v else sget d j m := by
  unfold sput
  split
  · next h => rw [sget_sdel, h]
  · rw [sget_sins]

@[simp] theorem sget_sput_same [DecidableEq α] (d : α) (k : Nat) (v : α) (m : Sparse α) : sget d k (sput d k v m) = v := by simp [sget_sput]

theorem sget_sput_other [DecidableEq α] (d : α) {k j : Nat} (h : j ≠ k) (v : α) (m : Sparse α) : sget d j (sput d k v m) = sget d j m := by
  simp [sget_sput, h]

theorem sget_supd [DecidableEq α] (d : α) (k j : Nat) (f : α → α) (m : Sparse α) :
    sget d j (supd d k f m) = if j = k then f (sget d k m) else sget d j m := sget_sput ..

@[simp] theorem sget_supd_same [DecidableEq α] (d : α) (k : Nat) (f : α → α) (m : Sparse α) : sget d k (supd d k f m) = f (sget d k m) := by
  simp [sget_supd]

/-! ## The canonical form -/

theorem scanonFrom_mono [DecidableEq α] {d : α} {lo hi : Nat} {m : Sparse α} (h : scanonFrom d hi m) (l : lo ≤ hi) : scanonFrom d lo m := by
  cases m with
  | nil => rfl
  | cons x r =>
    simp only [scanonFrom, Bool.and_eq_true, decide_eq_true_eq] at h ⊢
    exact ⟨⟨by omega, h.1.2⟩, h.2⟩

theorem sget_below [DecidableEq α] {d : α} {lo k : Nat} {m : Sparse α} (h : scanonFrom d lo m) (l : k < lo) : sget d k m = d := by
  induction m generalizing lo with
  | nil => rfl
  | cons x r ih =>
    simp only [scanonFrom, Bool.and_eq_true, decide_eq_true_eq] at h
    have : x.1 ≠ k := by omega
    simp only [sget, this, if_false]
    exact ih h.2 (by omega)

theorem sins_canonFrom [DecidableEq α] {d v : α} (hv : v ≠ d) {lo k : Nat} {m : Sparse α} (h : scanonFrom d lo m) (l : lo ≤ k) :
    scanonFrom d lo (sins k v m) := by
  induction m generalizing lo with
  | nil => simp [sins, scanonFrom, hv, l]
  | cons x r ih =>
    obtain ⟨a, w⟩ := x
    simp only [scanonFrom, Bool.and_eq_true, decide_eq_true_eq] at h
    simp only [sins]
    split
    · simp only [scanonFrom, Bool.and_eq_true, decide_eq_true_eq]; exact ⟨⟨l, hv⟩, ⟨by omega, h.1.2⟩, h.2⟩
    · split
      · next e => subst e; simp only [scanonFrom, Bool.and_eq_true, decide_eq_true_eq]; exact ⟨⟨l, hv⟩, h.2⟩
      · simp only [scanonFrom, Bool.and_eq_true, decide_eq_true_eq]; exact ⟨h.1, ih h.2 (by omega)⟩

theorem sdel_canonFrom [DecidableEq α] {d : α} {lo k : Nat} {m : Sparse α} (h : scanonFrom d lo m) : scanonFrom d lo (sdel k m) := by
  induction m generalizing lo with
  | nil => rfl
  | cons x r ih =>
    obtain ⟨a, w⟩ := x
    simp only [scanonFrom, Bool.and_eq_true, decide_eq_true_eq] at h
    simp only [sdel]
    split
    · exact scanonFrom_mono (ih h.2) (by omega)
    · simp only [scanonFrom, Bool.and_eq_true, decide_eq_true_eq]; exact ⟨h.1, ih h.2⟩

/-- A write keeps the canonical form. -/
theorem sput_canon [DecidableEq α] {d : α} {m : Sparse α} (h : scanon d m) (k : Nat) (v : α) : scanon d (sput d k v m) := by
  unfold sput
  split
  · exact sdel_canonFrom h
  · next hv => exact sins_canonFrom hv h (Nat.zero_le _)

theorem supd_canon [DecidableEq α] {d : α} {m : Sparse α} (h : scanon d m) (k : Nat) (f : α → α) : scanon d (supd d k f m) := sput_canon h ..

theorem smap_canonFrom [DecidableEq α] {d : α} (f : α → α) {lo : Nat} {m : Sparse α} (h : scanonFrom d lo m) : scanonFrom d lo (smap d f m) := by
  induction m generalizing lo with
  | nil => rfl
  | cons x r ih =>
    obtain ⟨a, w⟩ := x
    simp only [scanonFrom, Bool.and_eq_true, decide_eq_true_eq] at h
    simp only [smap]
    split
    · exact scanonFrom_mono (ih h.2) (by omega)
    · next e => simp only [scanonFrom, Bool.and_eq_true, decide_eq_true_eq]; exact ⟨⟨h.1.1, e⟩, ih h.2⟩

theorem smap_canon [DecidableEq α] {d : α} (f : α → α) {m : Sparse α} (h : scanon d m) : scanon d (smap d f m) := smap_canonFrom f h

/-- Equal reads of canonical data are equal data. -/
theorem canonFrom_ext [DecidableEq α] {d : α} {lo : Nat} {m n : Sparse α} (hm : scanonFrom d lo m) (hn : scanonFrom d lo n)
    (h : ∀ k, sget d k m = sget d k n) : m = n := by
  induction m generalizing lo n with
  | nil =>
    cases n with
    | nil => rfl
    | cons x r =>
      simp only [scanonFrom, Bool.and_eq_true, decide_eq_true_eq] at hn
      exact absurd (h x.1).symm (by simp [sget, hn.1.2])
  | cons x r ih =>
    obtain ⟨a, w⟩ := x
    have hm' := hm
    simp only [scanonFrom, Bool.and_eq_true, decide_eq_true_eq] at hm
    cases n with
    | nil => exact absurd (h a) (by simp [sget, hm.1.2])
    | cons y q =>
      obtain ⟨b, u⟩ := y
      have hn' := hn
      simp only [scanonFrom, Bool.and_eq_true, decide_eq_true_eq] at hn
      have hab : a = b := by
        rcases Nat.lt_trichotomy a b with g | g | g
        · have := h a
          rw [show sget d a ((b, u) :: q) = d from sget_below (lo := b) (by simp only [scanonFrom, Bool.and_eq_true, decide_eq_true_eq]; exact ⟨⟨le_refl _, hn.1.2⟩, hn.2⟩) g] at this
          exact absurd this (by simp [sget, hm.1.2])
        · exact g
        · have := h b
          rw [show sget d b ((a, w) :: r) = d from sget_below (lo := a) (by simp only [scanonFrom, Bool.and_eq_true, decide_eq_true_eq]; exact ⟨⟨le_refl _, hm.1.2⟩, hm.2⟩) g] at this
          exact absurd this.symm (by simp [sget, hn.1.2])
      subst hab
      have hwu : w = u := by simpa [sget] using h a
      subst hwu
      congr 1
      refine ih hm.2 hn.2 fun k => ?_
      by_cases hk : a = k
      · subst hk; rw [sget_below hm.2 (by omega), sget_below hn.2 (by omega)]
      · simpa [sget, hk] using h k

theorem canon_ext [DecidableEq α] {d : α} {m n : Sparse α} (hm : scanon d m) (hn : scanon d n) (h : ∀ k, sget d k m = sget d k n) : m = n :=
  canonFrom_ext hm hn h

/-! ## Runs of bytes -/

@[simp] theorem readRun_length (n a : Nat) (m : Sparse Byte) : (readRun n a m).length = n := by
  induction n generalizing a m with
  | zero => rfl
  | succ n ih =>
    cases m with
    | nil => simp [readRun, ih]
    | cons x r => simp only [readRun]; split <;> simp [ih]

@[simp] theorem readCells_length (m : Sparse Byte) (a n : Nat) : (readCells m a n).length = n := readRun_length ..

theorem cellsFrom_canon {lo : Nat} {m : Sparse Byte} (h : scanonFrom 0 lo m) (a : Nat) : scanonFrom 0 (max lo a) (cellsFrom a m) := by
  induction m generalizing lo with
  | nil => rfl
  | cons x r ih =>
    obtain ⟨j, v⟩ := x
    simp only [scanonFrom, Bool.and_eq_true, decide_eq_true_eq] at h
    simp only [cellsFrom]
    split
    · exact scanonFrom_mono (ih h.2) (by omega)
    · simp only [scanonFrom, Bool.and_eq_true, decide_eq_true_eq]; exact ⟨⟨by omega, h.1.2⟩, h.2⟩

theorem sget_cellsFrom {lo : Nat} {m : Sparse Byte} (h : scanonFrom 0 lo m) (a k : Nat) :
    sget 0 k (cellsFrom a m) = if k < a then 0 else sget 0 k m := by
  induction m generalizing lo with
  | nil => simp [cellsFrom]
  | cons x r ih =>
    obtain ⟨j, v⟩ := x
    have h' := h
    simp only [scanonFrom, Bool.and_eq_true, decide_eq_true_eq] at h
    simp only [cellsFrom]
    split
    · rw [ih h.2]
      split
      · rfl
      · rw [sget, if_neg (by omega)]
    · split
      · exact sget_below (lo := j) (by simp only [scanonFrom, Bool.and_eq_true, decide_eq_true_eq]; exact ⟨⟨le_refl _, h.1.2⟩, h.2⟩) (by omega)
      · rfl

theorem readRun_getElem {n a : Nat} {m : Sparse Byte} (h : scanonFrom 0 a m) (i : Nat) (hi : i < n) : (readRun n a m).getD i 0 = sget 0 (a + i) m := by
  induction n generalizing a m i with
  | zero => omega
  | succ n ih =>
    cases m with
    | nil =>
      cases i with
      | zero => simp [readRun]
      | succ i => simpa [readRun] using ih (a := a + 1) (m := []) rfl i (by omega)
    | cons x r =>
      obtain ⟨j, v⟩ := x
      have h' := h
      simp only [scanonFrom, Bool.and_eq_true, decide_eq_true_eq] at h
      simp only [readRun]
      split
      · next e =>
        subst e
        cases i with
        | zero => simp [sget]
        | succ i =>
          simp only [List.getD_cons_succ, sget, if_neg (show j ≠ j + (i + 1) by omega)]
          rw [ih h.2 i (by omega)]; congr 1; omega
      · next e =>
        have h2 : scanonFrom 0 (a + 1) ((j, v) :: r) := by
          simp only [scanonFrom, Bool.and_eq_true, decide_eq_true_eq]; exact ⟨⟨by omega, h.1.2⟩, h.2⟩
        cases i with
        | zero => simp only [List.getD_cons_zero, Nat.add_zero]; exact (sget_below h2 (by omega)).symm
        | succ i =>
          simp only [List.getD_cons_succ]
          rw [ih h2 i (by omega)]; congr 1; omega

/-- Byte `i` of a run read from a canonical memory is the byte at that address. -/
theorem readCells_getD {m : Sparse Byte} (h : scanon 0 m) (a n i : Nat) (hi : i < n) : (readCells m a n).getD i 0 = sget 0 (a + i) m := by
  have hc : scanonFrom 0 a (cellsFrom a m) := scanonFrom_mono (cellsFrom_canon (lo := 0) h a) (by omega)
  rw [readCells, readRun_getElem hc i hi, sget_cellsFrom h, if_neg (by omega)]

theorem freshCells_canon (a : Nat) (b : List Byte) : scanonFrom 0 a (freshCells a b) := by
  induction b generalizing a with
  | nil => rfl
  | cons x r ih =>
    simp only [freshCells]
    split
    · exact scanonFrom_mono (ih (a + 1)) (by omega)
    · next e => simp only [scanonFrom, Bool.and_eq_true, decide_eq_true_eq]; exact ⟨⟨le_refl _, e⟩, ih (a + 1)⟩

theorem sget_freshCells (a k : Nat) (b : List Byte) : sget 0 k (freshCells a b) = if a ≤ k then b.getD (k - a) 0 else 0 := by
  induction b generalizing a with
  | nil => simp [freshCells]
  | cons x r ih =>
    simp only [freshCells]
    by_cases hk : a = k
    · subst hk
      split
      · next e => rw [ih, if_neg (by omega)]; simp [e]
      · simp [sget]
    · have hs : sget 0 k (freshCells (a + 1) r) = if a ≤ k then (x :: r).getD (k - a) 0 else 0 := by
        rw [ih]
        by_cases h : a ≤ k
        · obtain ⟨c, hc⟩ : ∃ c, k - a = c + 1 := ⟨k - a - 1, by omega⟩
          rw [if_pos (by omega), if_pos h, hc, List.getD_cons_succ]; congr 1; omega
        · rw [if_neg (by omega), if_neg h]
      split
      · exact hs
      · rw [sget, if_neg hk]; exact hs

theorem freshCells_append_canon {a : Nat} {b : List Byte} {m : Sparse Byte} (h : scanonFrom 0 (a + b.length) m) :
    scanonFrom 0 a (freshCells a b ++ m) := by
  induction b generalizing a with
  | nil => simpa [freshCells] using h
  | cons x r ih =>
    have h' : scanonFrom 0 (a + 1 + r.length) m := scanonFrom_mono h (by simp; omega)
    simp only [freshCells]
    split
    · exact scanonFrom_mono (ih h') (by omega)
    · next e =>
      rw [List.cons_append]
      simp only [scanonFrom, Bool.and_eq_true, decide_eq_true_eq]; exact ⟨⟨le_refl _, e⟩, ih h'⟩

theorem sget_append_fresh (a k : Nat) (b : List Byte) (m : Sparse Byte) (h : scanonFrom 0 (a + b.length) m) :
    sget 0 k (freshCells a b ++ m) = if a ≤ k ∧ k < a + b.length then b.getD (k - a) 0 else sget 0 k m := by
  induction b generalizing a with
  | nil =>
    rw [if_neg (by simp)]; rfl
  | cons x r ih =>
    have h' : scanonFrom 0 (a + 1 + r.length) m := scanonFrom_mono h (by simp; omega)
    simp only [freshCells]
    have hlen : (x :: r).length = r.length + 1 := rfl
    by_cases hk : a = k
    · subst hk
      rw [if_pos (show a ≤ a ∧ a < a + (x :: r).length from ⟨le_refl _, by omega⟩)]
      split
      · next e =>
        rw [ih _ h', if_neg (by omega)]
        simp only [Nat.sub_self, List.getD_cons_zero, e]
        exact sget_below h' (by omega)
      · simp [sget]
    · have hs : sget 0 k (freshCells (a + 1) r ++ m) = if a ≤ k ∧ k < a + (x :: r).length then (x :: r).getD (k - a) 0 else sget 0 k m := by
        rw [ih _ h']
        by_cases hi : a ≤ k ∧ k < a + (x :: r).length
        · obtain ⟨c, hc⟩ : ∃ c, k - a = c + 1 := ⟨k - a - 1, by omega⟩
          rw [if_pos (by omega), if_pos hi, hc, List.getD_cons_succ]; congr 1; omega
        · rw [if_neg (by omega), if_neg hi]
      split
      · exact hs
      · rw [List.cons_append, sget, if_neg hk]; exact hs

theorem writeCells_canonFrom {lo : Nat} {m : Sparse Byte} (h : scanonFrom 0 lo m) (a : Nat) (b : List Byte) (l : lo ≤ a) :
    scanonFrom 0 lo (writeCells a b m) := by
  induction m generalizing lo with
  | nil => exact scanonFrom_mono (freshCells_canon a b) l
  | cons x r ih =>
    obtain ⟨j, v⟩ := x
    have h0 := h
    simp only [scanonFrom, Bool.and_eq_true, decide_eq_true_eq] at h
    simp only [writeCells]
    split
    · simp only [scanonFrom, Bool.and_eq_true, decide_eq_true_eq]; exact ⟨h.1, ih h.2 (by omega)⟩
    · exact scanonFrom_mono (freshCells_append_canon (scanonFrom_mono (cellsFrom_canon h0 _) (by omega))) l

/-- Writing bytes keeps the canonical form. -/
theorem writeCells_canon {m : Sparse Byte} (h : scanon 0 m) (a : Nat) (b : List Byte) : scanon 0 (writeCells a b m) :=
  writeCells_canonFrom h a b (Nat.zero_le _)

theorem sget_writeCells_from {lo : Nat} {m : Sparse Byte} (h : scanonFrom 0 lo m) (a k : Nat) (b : List Byte) :
    sget 0 k (writeCells a b m) = if a ≤ k ∧ k < a + b.length then b.getD (k - a) 0 else sget 0 k m := by
  induction m generalizing lo with
  | nil =>
    rw [writeCells, sget_freshCells]
    by_cases hk : a ≤ k
    · by_cases h2 : k < a + b.length
      · simp [hk, h2]
      · rw [if_pos hk, if_neg (by omega), List.getD_eq_default _ _ (by omega)]; rfl
    · rw [if_neg hk, if_neg (by omega)]; rfl
  | cons x r ih =>
    obtain ⟨j, v⟩ := x
    have h0 := h
    simp only [scanonFrom, Bool.and_eq_true, decide_eq_true_eq] at h
    simp only [writeCells]
    split
    · simp only [sget]
      split
      · next e => rw [if_neg (by omega)]
      · exact ih h.2
    · next hj =>
      rw [sget_append_fresh _ _ _ _ (scanonFrom_mono (cellsFrom_canon h0 _) (by omega)), sget_cellsFrom h0]
      split
      · rfl
      · split
        · exact (sget_below (lo := j) (by simp only [scanonFrom, Bool.and_eq_true, decide_eq_true_eq]; exact ⟨⟨le_refl _, h.1.2⟩, h.2⟩) (by omega)).symm
        · rfl

/-- What writing bytes leaves at every address of a canonical memory. -/
theorem sget_writeCells {m : Sparse Byte} (h : scanon 0 m) (a k : Nat) (b : List Byte) :
    sget 0 k (writeCells a b m) = if a ≤ k ∧ k < a + b.length then b.getD (k - a) 0 else sget 0 k m := sget_writeCells_from h a k b

/-! ## Byte strings -/

@[simp] theorem toBytes_length (n x : Nat) : (toBytes n x).length = n := by induction n generalizing x <;> simp [toBytes, *]

theorem ofBytes_toBytes (n x : Nat) : ofBytes (toBytes n x) = x % 256 ^ n := by
  induction n generalizing x with
  | zero => simp [toBytes, ofBytes, Nat.mod_one]
  | succ n ih =>
    simp only [toBytes, ofBytes, ih, BitVec.toNat_ofNat]
    rw [show (2 : Nat) ^ 8 = 256 from rfl, show (256 : Nat) ^ (n + 1) = 256 * 256 ^ n by rw [Nat.pow_succ, Nat.mul_comm], Nat.mod_mul]

end Sys2Proof.Machine
end

