-- ==== Sys2Proof/Laws/State.lean ====
section
/-! SUPPORT. What each named update of the state leaves: every field but its own, one lemma for each field and update, and the lookups of parts
by identity after an update. -/

namespace Sys2Proof.Machine

variable (s : State)

/-! ### onWarp -/

@[simp] theorem onWarp_agenda (i : Nat) (f : Warp → Warp) : (s.onWarp i f).agenda = s.agenda := rfl
@[simp] theorem onWarp_turn (i : Nat) (f : Warp → Warp) : (s.onWarp i f).turn = s.turn := rfl
@[simp] theorem onWarp_free (i : Nat) (f : Warp → Warp) : (s.onWarp i f).free = s.free := rfl
@[simp] theorem onWarp_iss (i : Nat) (f : Warp → Warp) : (s.onWarp i f).iss = s.iss := rfl
@[simp] theorem onWarp_nextId (i : Nat) (f : Warp → Warp) : (s.onWarp i f).nextId = s.nextId := rfl
@[simp] theorem onWarp_form (i : Nat) (f : Warp → Warp) : (s.onWarp i f).form = s.form := rfl
@[simp] theorem onWarp_stepping (i : Nat) (f : Warp → Warp) : (s.onWarp i f).stepping = s.stepping := rfl
@[simp] theorem onWarp_keyHash1 (i : Nat) (f : Warp → Warp) : (s.onWarp i f).keyHash1 = s.keyHash1 := rfl
@[simp] theorem onWarp_keyHash2 (i : Nat) (f : Warp → Warp) : (s.onWarp i f).keyHash2 = s.keyHash2 := rfl
@[simp] theorem onWarp_rollback (i : Nat) (f : Warp → Warp) : (s.onWarp i f).rollback = s.rollback := rfl
@[simp] theorem onWarp_devId (i : Nat) (f : Warp → Warp) : (s.onWarp i f).devId = s.devId := rfl
@[simp] theorem onWarp_bootst (i : Nat) (f : Warp → Warp) : (s.onWarp i f).bootst = s.bootst := rfl
@[simp] theorem onWarp_bootWin (i : Nat) (f : Warp → Warp) : (s.onWarp i f).bootWin = s.bootWin := rfl
@[simp] theorem onWarp_verifying (i : Nat) (f : Warp → Warp) : (s.onWarp i f).verifying = s.verifying := rfl
@[simp] theorem onWarp_bootHash (i : Nat) (f : Warp → Warp) : (s.onWarp i f).bootHash = s.bootHash := rfl
@[simp] theorem onWarp_svn (i : Nat) (f : Warp → Warp) : (s.onWarp i f).svn = s.svn := rfl
@[simp] theorem onWarp_flash (i : Nat) (f : Warp → Warp) : (s.onWarp i f).flash = s.flash := rfl
@[simp] theorem onWarp_retRec (i : Nat) (f : Warp → Warp) : (s.onWarp i f).retRec = s.retRec := rfl
@[simp] theorem onWarp_attNonce (i : Nat) (f : Warp → Warp) : (s.onWarp i f).attNonce = s.attNonce := rfl
@[simp] theorem onWarp_attGo (i : Nat) (f : Warp → Warp) : (s.onWarp i f).attGo = s.attGo := rfl
@[simp] theorem onWarp_attReport (i : Nat) (f : Warp → Warp) : (s.onWarp i f).attReport = s.attReport := rfl
@[simp] theorem onWarp_invctl (i : Nat) (f : Warp → Warp) : (s.onWarp i f).invctl = s.invctl := rfl
@[simp] theorem onWarp_pwrlim (i : Nat) (f : Warp → Warp) : (s.onWarp i f).pwrlim = s.pwrlim := rfl
@[simp] theorem onWarp_evbase (i : Nat) (f : Warp → Warp) : (s.onWarp i f).evbase = s.evbase := rfl
@[simp] theorem onWarp_evsize (i : Nat) (f : Warp → Warp) : (s.onWarp i f).evsize = s.evsize := rfl
@[simp] theorem onWarp_nodeid (i : Nat) (f : Warp → Warp) : (s.onWarp i f).nodeid = s.nodeid := rfl
@[simp] theorem onWarp_farCap (i : Nat) (f : Warp → Warp) : (s.onWarp i f).farCap = s.farCap := rfl
@[simp] theorem onWarp_ns (i : Nat) (f : Warp → Warp) : (s.onWarp i f).ns = s.ns := rfl
@[simp] theorem onWarp_window (i : Nat) (f : Warp → Warp) : (s.onWarp i f).window = s.window := rfl
@[simp] theorem onWarp_mem (i : Nat) (f : Warp → Warp) : (s.onWarp i f).mem = s.mem := rfl
@[simp] theorem onWarp_host (i : Nat) (f : Warp → Warp) : (s.onWarp i f).host = s.host := rfl
@[simp] theorem onWarp_remote (i : Nat) (f : Warp → Warp) : (s.onWarp i f).remote = s.remote := rfl
@[simp] theorem onWarp_badLines (i : Nat) (f : Warp → Warp) : (s.onWarp i f).badLines = s.badLines := rfl
@[simp] theorem onWarp_l2 (i : Nat) (f : Warp → Warp) : (s.onWarp i f).l2 = s.l2 := rfl
@[simp] theorem onWarp_depart (i : Nat) (f : Warp → Warp) : (s.onWarp i f).depart = s.depart := rfl
@[simp] theorem onWarp_slices (i : Nat) (f : Warp → Warp) : (s.onWarp i f).slices = s.slices := rfl
@[simp] theorem onWarp_sliceErr (i : Nat) (f : Warp → Warp) : (s.onWarp i f).sliceErr = s.sliceErr := rfl
@[simp] theorem onWarp_chanErr (i : Nat) (f : Warp → Warp) : (s.onWarp i f).chanErr = s.chanErr := rfl
@[simp] theorem onWarp_chanBad (i : Nat) (f : Warp → Warp) : (s.onWarp i f).chanBad = s.chanBad := rfl
@[simp] theorem onWarp_cores (i : Nat) (f : Warp → Warp) : (s.onWarp i f).cores = s.cores := rfl
@[simp] theorem onWarp_quads (i : Nat) (f : Warp → Warp) : (s.onWarp i f).quads = s.quads := rfl
@[simp] theorem onWarp_clusters (i : Nat) (f : Warp → Warp) : (s.onWarp i f).clusters = s.clusters := rfl
@[simp] theorem onWarp_ctxs (i : Nat) (f : Warp → Warp) : (s.onWarp i f).ctxs = s.ctxs := rfl
@[simp] theorem onWarp_grids (i : Nat) (f : Warp → Warp) : (s.onWarp i f).grids = s.grids := rfl
@[simp] theorem onWarp_waits (i : Nat) (f : Warp → Warp) : (s.onWarp i f).waits = s.waits := rfl
@[simp] theorem onWarp_cgroups (i : Nat) (f : Warp → Warp) : (s.onWarp i f).cgroups = s.cgroups := rfl
@[simp] theorem onWarp_blocks (i : Nat) (f : Warp → Warp) : (s.onWarp i f).blocks = s.blocks := rfl
@[simp] theorem onWarp_net (i : Nat) (f : Warp → Warp) : (s.onWarp i f).net = s.net := rfl
@[simp] theorem onWarp_fetches (i : Nat) (f : Warp → Warp) : (s.onWarp i f).fetches = s.fetches := rfl
@[simp] theorem onWarp_pages (i : Nat) (f : Warp → Warp) : (s.onWarp i f).pages = s.pages := rfl
@[simp] theorem onWarp_copies (i : Nat) (f : Warp → Warp) : (s.onWarp i f).copies = s.copies := rfl
@[simp] theorem onWarp_defs (i : Nat) (f : Warp → Warp) : (s.onWarp i f).defs = s.defs := rfl
@[simp] theorem onWarp_readers (i : Nat) (f : Warp → Warp) : (s.onWarp i f).readers = s.readers := rfl
@[simp] theorem onWarp_mats (i : Nat) (f : Warp → Warp) : (s.onWarp i f).mats = s.mats := rfl
@[simp] theorem onWarp_fills (i : Nat) (f : Warp → Warp) : (s.onWarp i f).fills = s.fills := rfl
@[simp] theorem onWarp_redos (i : Nat) (f : Warp → Warp) : (s.onWarp i f).redos = s.redos := rfl
@[simp] theorem onWarp_pops (i : Nat) (f : Warp → Warp) : (s.onWarp i f).pops = s.pops := rfl
@[simp] theorem onWarp_cmds (i : Nat) (f : Warp → Warp) : (s.onWarp i f).cmds = s.cmds := rfl
@[simp] theorem onWarp_hq (i : Nat) (f : Warp → Warp) : (s.onWarp i f).hq = s.hq := rfl
@[simp] theorem onWarp_wq (i : Nat) (f : Warp → Warp) : (s.onWarp i f).wq = s.wq := rfl
@[simp] theorem onWarp_graphs (i : Nat) (f : Warp → Warp) : (s.onWarp i f).graphs = s.graphs := rfl
@[simp] theorem onWarp_nregs (i : Nat) (f : Warp → Warp) : (s.onWarp i f).nregs = s.nregs := rfl
@[simp] theorem onWarp_gated (i : Nat) (f : Warp → Warp) : (s.onWarp i f).gated = s.gated := rfl
@[simp] theorem onWarp_tags (i : Nat) (f : Warp → Warp) : (s.onWarp i f).tags = s.tags := rfl
@[simp] theorem onWarp_groups (i : Nat) (f : Warp → Warp) : (s.onWarp i f).groups = s.groups := rfl
@[simp] theorem onWarp_xcache (i : Nat) (f : Warp → Warp) : (s.onWarp i f).xcache = s.xcache := rfl
@[simp] theorem onWarp_xruns (i : Nat) (f : Warp → Warp) : (s.onWarp i f).xruns = s.xruns := rfl
@[simp] theorem onWarp_msix (i : Nat) (f : Warp → Warp) : (s.onWarp i f).msix = s.msix := rfl
@[simp] theorem onWarp_alogs (i : Nat) (f : Warp → Warp) : (s.onWarp i f).alogs = s.alogs := rfl
@[simp] theorem onWarp_vlogs (i : Nat) (f : Warp → Warp) : (s.onWarp i f).vlogs = s.vlogs := rfl
@[simp] theorem onWarp_wordErr (i : Nat) (f : Warp → Warp) : (s.onWarp i f).wordErr = s.wordErr := rfl
@[simp] theorem onWarp_beats (i : Nat) (f : Warp → Warp) : (s.onWarp i f).beats = s.beats := rfl
@[simp] theorem onWarp_alarm (i : Nat) (f : Warp → Warp) : (s.onWarp i f).alarm = s.alarm := rfl
@[simp] theorem onWarp_steps (i : Nat) (f : Warp → Warp) : (s.onWarp i f).steps = s.steps := rfl
@[simp] theorem onWarp_stepAt (i : Nat) (f : Warp → Warp) : (s.onWarp i f).stepAt = s.stepAt := rfl
@[simp] theorem onWarp_hot (i : Nat) (f : Warp → Warp) : (s.onWarp i f).hot = s.hot := rfl
@[simp] theorem onWarp_tripped (i : Nat) (f : Warp → Warp) : (s.onWarp i f).tripped = s.tripped := rfl
@[simp] theorem onWarp_linkUp (i : Nat) (f : Warp → Warp) : (s.onWarp i f).linkUp = s.linkUp := rfl
@[simp] theorem onWarp_deadNodes (i : Nat) (f : Warp → Warp) : (s.onWarp i f).deadNodes = s.deadNodes := rfl

/-! ### onBlock -/

@[simp] theorem onBlock_agenda (i : Nat) (f : Block → Block) : (s.onBlock i f).agenda = s.agenda := rfl
@[simp] theorem onBlock_turn (i : Nat) (f : Block → Block) : (s.onBlock i f).turn = s.turn := rfl
@[simp] theorem onBlock_free (i : Nat) (f : Block → Block) : (s.onBlock i f).free = s.free := rfl
@[simp] theorem onBlock_iss (i : Nat) (f : Block → Block) : (s.onBlock i f).iss = s.iss := rfl
@[simp] theorem onBlock_nextId (i : Nat) (f : Block → Block) : (s.onBlock i f).nextId = s.nextId := rfl
@[simp] theorem onBlock_form (i : Nat) (f : Block → Block) : (s.onBlock i f).form = s.form := rfl
@[simp] theorem onBlock_stepping (i : Nat) (f : Block → Block) : (s.onBlock i f).stepping = s.stepping := rfl
@[simp] theorem onBlock_keyHash1 (i : Nat) (f : Block → Block) : (s.onBlock i f).keyHash1 = s.keyHash1 := rfl
@[simp] theorem onBlock_keyHash2 (i : Nat) (f : Block → Block) : (s.onBlock i f).keyHash2 = s.keyHash2 := rfl
@[simp] theorem onBlock_rollback (i : Nat) (f : Block → Block) : (s.onBlock i f).rollback = s.rollback := rfl
@[simp] theorem onBlock_devId (i : Nat) (f : Block → Block) : (s.onBlock i f).devId = s.devId := rfl
@[simp] theorem onBlock_bootst (i : Nat) (f : Block → Block) : (s.onBlock i f).bootst = s.bootst := rfl
@[simp] theorem onBlock_bootWin (i : Nat) (f : Block → Block) : (s.onBlock i f).bootWin = s.bootWin := rfl
@[simp] theorem onBlock_verifying (i : Nat) (f : Block → Block) : (s.onBlock i f).verifying = s.verifying := rfl
@[simp] theorem onBlock_bootHash (i : Nat) (f : Block → Block) : (s.onBlock i f).bootHash = s.bootHash := rfl
@[simp] theorem onBlock_svn (i : Nat) (f : Block → Block) : (s.onBlock i f).svn = s.svn := rfl
@[simp] theorem onBlock_flash (i : Nat) (f : Block → Block) : (s.onBlock i f).flash = s.flash := rfl
@[simp] theorem onBlock_retRec (i : Nat) (f : Block → Block) : (s.onBlock i f).retRec = s.retRec := rfl
@[simp] theorem onBlock_attNonce (i : Nat) (f : Block → Block) : (s.onBlock i f).attNonce = s.attNonce := rfl
@[simp] theorem onBlock_attGo (i : Nat) (f : Block → Block) : (s.onBlock i f).attGo = s.attGo := rfl
@[simp] theorem onBlock_attReport (i : Nat) (f : Block → Block) : (s.onBlock i f).attReport = s.attReport := rfl
@[simp] theorem onBlock_invctl (i : Nat) (f : Block → Block) : (s.onBlock i f).invctl = s.invctl := rfl
@[simp] theorem onBlock_pwrlim (i : Nat) (f : Block → Block) : (s.onBlock i f).pwrlim = s.pwrlim := rfl
@[simp] theorem onBlock_evbase (i : Nat) (f : Block → Block) : (s.onBlock i f).evbase = s.evbase := rfl
@[simp] theorem onBlock_evsize (i : Nat) (f : Block → Block) : (s.onBlock i f).evsize = s.evsize := rfl
@[simp] theorem onBlock_nodeid (i : Nat) (f : Block → Block) : (s.onBlock i f).nodeid = s.nodeid := rfl
@[simp] theorem onBlock_farCap (i : Nat) (f : Block → Block) : (s.onBlock i f).farCap = s.farCap := rfl
@[simp] theorem onBlock_ns (i : Nat) (f : Block → Block) : (s.onBlock i f).ns = s.ns := rfl
@[simp] theorem onBlock_window (i : Nat) (f : Block → Block) : (s.onBlock i f).window = s.window := rfl
@[simp] theorem onBlock_mem (i : Nat) (f : Block → Block) : (s.onBlock i f).mem = s.mem := rfl
@[simp] theorem onBlock_host (i : Nat) (f : Block → Block) : (s.onBlock i f).host = s.host := rfl
@[simp] theorem onBlock_remote (i : Nat) (f : Block → Block) : (s.onBlock i f).remote = s.remote := rfl
@[simp] theorem onBlock_badLines (i : Nat) (f : Block → Block) : (s.onBlock i f).badLines = s.badLines := rfl
@[simp] theorem onBlock_l2 (i : Nat) (f : Block → Block) : (s.onBlock i f).l2 = s.l2 := rfl
@[simp] theorem onBlock_depart (i : Nat) (f : Block → Block) : (s.onBlock i f).depart = s.depart := rfl
@[simp] theorem onBlock_slices (i : Nat) (f : Block → Block) : (s.onBlock i f).slices = s.slices := rfl
@[simp] theorem onBlock_sliceErr (i : Nat) (f : Block → Block) : (s.onBlock i f).sliceErr = s.sliceErr := rfl
@[simp] theorem onBlock_chanErr (i : Nat) (f : Block → Block) : (s.onBlock i f).chanErr = s.chanErr := rfl
@[simp] theorem onBlock_chanBad (i : Nat) (f : Block → Block) : (s.onBlock i f).chanBad = s.chanBad := rfl
@[simp] theorem onBlock_cores (i : Nat) (f : Block → Block) : (s.onBlock i f).cores = s.cores := rfl
@[simp] theorem onBlock_quads (i : Nat) (f : Block → Block) : (s.onBlock i f).quads = s.quads := rfl
@[simp] theorem onBlock_clusters (i : Nat) (f : Block → Block) : (s.onBlock i f).clusters = s.clusters := rfl
@[simp] theorem onBlock_ctxs (i : Nat) (f : Block → Block) : (s.onBlock i f).ctxs = s.ctxs := rfl
@[simp] theorem onBlock_grids (i : Nat) (f : Block → Block) : (s.onBlock i f).grids = s.grids := rfl
@[simp] theorem onBlock_waits (i : Nat) (f : Block → Block) : (s.onBlock i f).waits = s.waits := rfl
@[simp] theorem onBlock_cgroups (i : Nat) (f : Block → Block) : (s.onBlock i f).cgroups = s.cgroups := rfl
@[simp] theorem onBlock_warps (i : Nat) (f : Block → Block) : (s.onBlock i f).warps = s.warps := rfl
@[simp] theorem onBlock_net (i : Nat) (f : Block → Block) : (s.onBlock i f).net = s.net := rfl
@[simp] theorem onBlock_fetches (i : Nat) (f : Block → Block) : (s.onBlock i f).fetches = s.fetches := rfl
@[simp] theorem onBlock_pages (i : Nat) (f : Block → Block) : (s.onBlock i f).pages = s.pages := rfl
@[simp] theorem onBlock_copies (i : Nat) (f : Block → Block) : (s.onBlock i f).copies = s.copies := rfl
@[simp] theorem onBlock_defs (i : Nat) (f : Block → Block) : (s.onBlock i f).defs = s.defs := rfl
@[simp] theorem onBlock_readers (i : Nat) (f : Block → Block) : (s.onBlock i f).readers = s.readers := rfl
@[simp] theorem onBlock_mats (i : Nat) (f : Block → Block) : (s.onBlock i f).mats = s.mats := rfl
@[simp] theorem onBlock_fills (i : Nat) (f : Block → Block) : (s.onBlock i f).fills = s.fills := rfl
@[simp] theorem onBlock_redos (i : Nat) (f : Block → Block) : (s.onBlock i f).redos = s.redos := rfl
@[simp] theorem onBlock_pops (i : Nat) (f : Block → Block) : (s.onBlock i f).pops = s.pops := rfl
@[simp] theorem onBlock_cmds (i : Nat) (f : Block → Block) : (s.onBlock i f).cmds = s.cmds := rfl
@[simp] theorem onBlock_hq (i : Nat) (f : Block → Block) : (s.onBlock i f).hq = s.hq := rfl
@[simp] theorem onBlock_wq (i : Nat) (f : Block → Block) : (s.onBlock i f).wq = s.wq := rfl
@[simp] theorem onBlock_graphs (i : Nat) (f : Block → Block) : (s.onBlock i f).graphs = s.graphs := rfl
@[simp] theorem onBlock_nregs (i : Nat) (f : Block → Block) : (s.onBlock i f).nregs = s.nregs := rfl
@[simp] theorem onBlock_gated (i : Nat) (f : Block → Block) : (s.onBlock i f).gated = s.gated := rfl
@[simp] theorem onBlock_tags (i : Nat) (f : Block → Block) : (s.onBlock i f).tags = s.tags := rfl
@[simp] theorem onBlock_groups (i : Nat) (f : Block → Block) : (s.onBlock i f).groups = s.groups := rfl
@[simp] theorem onBlock_xcache (i : Nat) (f : Block → Block) : (s.onBlock i f).xcache = s.xcache := rfl
@[simp] theorem onBlock_xruns (i : Nat) (f : Block → Block) : (s.onBlock i f).xruns = s.xruns := rfl
@[simp] theorem onBlock_msix (i : Nat) (f : Block → Block) : (s.onBlock i f).msix = s.msix := rfl
@[simp] theorem onBlock_alogs (i : Nat) (f : Block → Block) : (s.onBlock i f).alogs = s.alogs := rfl
@[simp] theorem onBlock_vlogs (i : Nat) (f : Block → Block) : (s.onBlock i f).vlogs = s.vlogs := rfl
@[simp] theorem onBlock_wordErr (i : Nat) (f : Block → Block) : (s.onBlock i f).wordErr = s.wordErr := rfl
@[simp] theorem onBlock_beats (i : Nat) (f : Block → Block) : (s.onBlock i f).beats = s.beats := rfl
@[simp] theorem onBlock_alarm (i : Nat) (f : Block → Block) : (s.onBlock i f).alarm = s.alarm := rfl
@[simp] theorem onBlock_steps (i : Nat) (f : Block → Block) : (s.onBlock i f).steps = s.steps := rfl
@[simp] theorem onBlock_stepAt (i : Nat) (f : Block → Block) : (s.onBlock i f).stepAt = s.stepAt := rfl
@[simp] theorem onBlock_hot (i : Nat) (f : Block → Block) : (s.onBlock i f).hot = s.hot := rfl
@[simp] theorem onBlock_tripped (i : Nat) (f : Block → Block) : (s.onBlock i f).tripped = s.tripped := rfl
@[simp] theorem onBlock_linkUp (i : Nat) (f : Block → Block) : (s.onBlock i f).linkUp = s.linkUp := rfl
@[simp] theorem onBlock_deadNodes (i : Nat) (f : Block → Block) : (s.onBlock i f).deadNodes = s.deadNodes := rfl

/-! ### onCtx -/

@[simp] theorem onCtx_agenda (i : Nat) (f : Ctx → Ctx) : (s.onCtx i f).agenda = s.agenda := rfl
@[simp] theorem onCtx_turn (i : Nat) (f : Ctx → Ctx) : (s.onCtx i f).turn = s.turn := rfl
@[simp] theorem onCtx_free (i : Nat) (f : Ctx → Ctx) : (s.onCtx i f).free = s.free := rfl
@[simp] theorem onCtx_iss (i : Nat) (f : Ctx → Ctx) : (s.onCtx i f).iss = s.iss := rfl
@[simp] theorem onCtx_nextId (i : Nat) (f : Ctx → Ctx) : (s.onCtx i f).nextId = s.nextId := rfl
@[simp] theorem onCtx_form (i : Nat) (f : Ctx → Ctx) : (s.onCtx i f).form = s.form := rfl
@[simp] theorem onCtx_stepping (i : Nat) (f : Ctx → Ctx) : (s.onCtx i f).stepping = s.stepping := rfl
@[simp] theorem onCtx_keyHash1 (i : Nat) (f : Ctx → Ctx) : (s.onCtx i f).keyHash1 = s.keyHash1 := rfl
@[simp] theorem onCtx_keyHash2 (i : Nat) (f : Ctx → Ctx) : (s.onCtx i f).keyHash2 = s.keyHash2 := rfl
@[simp] theorem onCtx_rollback (i : Nat) (f : Ctx → Ctx) : (s.onCtx i f).rollback = s.rollback := rfl
@[simp] theorem onCtx_devId (i : Nat) (f : Ctx → Ctx) : (s.onCtx i f).devId = s.devId := rfl
@[simp] theorem onCtx_bootst (i : Nat) (f : Ctx → Ctx) : (s.onCtx i f).bootst = s.bootst := rfl
@[simp] theorem onCtx_bootWin (i : Nat) (f : Ctx → Ctx) : (s.onCtx i f).bootWin = s.bootWin := rfl
@[simp] theorem onCtx_verifying (i : Nat) (f : Ctx → Ctx) : (s.onCtx i f).verifying = s.verifying := rfl
@[simp] theorem onCtx_bootHash (i : Nat) (f : Ctx → Ctx) : (s.onCtx i f).bootHash = s.bootHash := rfl
@[simp] theorem onCtx_svn (i : Nat) (f : Ctx → Ctx) : (s.onCtx i f).svn = s.svn := rfl
@[simp] theorem onCtx_flash (i : Nat) (f : Ctx → Ctx) : (s.onCtx i f).flash = s.flash := rfl
@[simp] theorem onCtx_retRec (i : Nat) (f : Ctx → Ctx) : (s.onCtx i f).retRec = s.retRec := rfl
@[simp] theorem onCtx_attNonce (i : Nat) (f : Ctx → Ctx) : (s.onCtx i f).attNonce = s.attNonce := rfl
@[simp] theorem onCtx_attGo (i : Nat) (f : Ctx → Ctx) : (s.onCtx i f).attGo = s.attGo := rfl
@[simp] theorem onCtx_attReport (i : Nat) (f : Ctx → Ctx) : (s.onCtx i f).attReport = s.attReport := rfl
@[simp] theorem onCtx_invctl (i : Nat) (f : Ctx → Ctx) : (s.onCtx i f).invctl = s.invctl := rfl
@[simp] theorem onCtx_pwrlim (i : Nat) (f : Ctx → Ctx) : (s.onCtx i f).pwrlim = s.pwrlim := rfl
@[simp] theorem onCtx_evbase (i : Nat) (f : Ctx → Ctx) : (s.onCtx i f).evbase = s.evbase := rfl
@[simp] theorem onCtx_evsize (i : Nat) (f : Ctx → Ctx) : (s.onCtx i f).evsize = s.evsize := rfl
@[simp] theorem onCtx_nodeid (i : Nat) (f : Ctx → Ctx) : (s.onCtx i f).nodeid = s.nodeid := rfl
@[simp] theorem onCtx_farCap (i : Nat) (f : Ctx → Ctx) : (s.onCtx i f).farCap = s.farCap := rfl
@[simp] theorem onCtx_ns (i : Nat) (f : Ctx → Ctx) : (s.onCtx i f).ns = s.ns := rfl
@[simp] theorem onCtx_window (i : Nat) (f : Ctx → Ctx) : (s.onCtx i f).window = s.window := rfl
@[simp] theorem onCtx_mem (i : Nat) (f : Ctx → Ctx) : (s.onCtx i f).mem = s.mem := rfl
@[simp] theorem onCtx_host (i : Nat) (f : Ctx → Ctx) : (s.onCtx i f).host = s.host := rfl
@[simp] theorem onCtx_remote (i : Nat) (f : Ctx → Ctx) : (s.onCtx i f).remote = s.remote := rfl
@[simp] theorem onCtx_badLines (i : Nat) (f : Ctx → Ctx) : (s.onCtx i f).badLines = s.badLines := rfl
@[simp] theorem onCtx_l2 (i : Nat) (f : Ctx → Ctx) : (s.onCtx i f).l2 = s.l2 := rfl
@[simp] theorem onCtx_depart (i : Nat) (f : Ctx → Ctx) : (s.onCtx i f).depart = s.depart := rfl
@[simp] theorem onCtx_slices (i : Nat) (f : Ctx → Ctx) : (s.onCtx i f).slices = s.slices := rfl
@[simp] theorem onCtx_sliceErr (i : Nat) (f : Ctx → Ctx) : (s.onCtx i f).sliceErr = s.sliceErr := rfl
@[simp] theorem onCtx_chanErr (i : Nat) (f : Ctx → Ctx) : (s.onCtx i f).chanErr = s.chanErr := rfl
@[simp] theorem onCtx_chanBad (i : Nat) (f : Ctx → Ctx) : (s.onCtx i f).chanBad = s.chanBad := rfl
@[simp] theorem onCtx_cores (i : Nat) (f : Ctx → Ctx) : (s.onCtx i f).cores = s.cores := rfl
@[simp] theorem onCtx_quads (i : Nat) (f : Ctx → Ctx) : (s.onCtx i f).quads = s.quads := rfl
@[simp] theorem onCtx_clusters (i : Nat) (f : Ctx → Ctx) : (s.onCtx i f).clusters = s.clusters := rfl
@[simp] theorem onCtx_grids (i : Nat) (f : Ctx → Ctx) : (s.onCtx i f).grids = s.grids := rfl
@[simp] theorem onCtx_waits (i : Nat) (f : Ctx → Ctx) : (s.onCtx i f).waits = s.waits := rfl
@[simp] theorem onCtx_cgroups (i : Nat) (f : Ctx → Ctx) : (s.onCtx i f).cgroups = s.cgroups := rfl
@[simp] theorem onCtx_blocks (i : Nat) (f : Ctx → Ctx) : (s.onCtx i f).blocks = s.blocks := rfl
@[simp] theorem onCtx_warps (i : Nat) (f : Ctx → Ctx) : (s.onCtx i f).warps = s.warps := rfl
@[simp] theorem onCtx_net (i : Nat) (f : Ctx → Ctx) : (s.onCtx i f).net = s.net := rfl
@[simp] theorem onCtx_fetches (i : Nat) (f : Ctx → Ctx) : (s.onCtx i f).fetches = s.fetches := rfl
@[simp] theorem onCtx_pages (i : Nat) (f : Ctx → Ctx) : (s.onCtx i f).pages = s.pages := rfl
@[simp] theorem onCtx_copies (i : Nat) (f : Ctx → Ctx) : (s.onCtx i f).copies = s.copies := rfl
@[simp] theorem onCtx_defs (i : Nat) (f : Ctx → Ctx) : (s.onCtx i f).defs = s.defs := rfl
@[simp] theorem onCtx_readers (i : Nat) (f : Ctx → Ctx) : (s.onCtx i f).readers = s.readers := rfl
@[simp] theorem onCtx_mats (i : Nat) (f : Ctx → Ctx) : (s.onCtx i f).mats = s.mats := rfl
@[simp] theorem onCtx_fills (i : Nat) (f : Ctx → Ctx) : (s.onCtx i f).fills = s.fills := rfl
@[simp] theorem onCtx_redos (i : Nat) (f : Ctx → Ctx) : (s.onCtx i f).redos = s.redos := rfl
@[simp] theorem onCtx_pops (i : Nat) (f : Ctx → Ctx) : (s.onCtx i f).pops = s.pops := rfl
@[simp] theorem onCtx_cmds (i : Nat) (f : Ctx → Ctx) : (s.onCtx i f).cmds = s.cmds := rfl
@[simp] theorem onCtx_hq (i : Nat) (f : Ctx → Ctx) : (s.onCtx i f).hq = s.hq := rfl
@[simp] theorem onCtx_wq (i : Nat) (f : Ctx → Ctx) : (s.onCtx i f).wq = s.wq := rfl
@[simp] theorem onCtx_graphs (i : Nat) (f : Ctx → Ctx) : (s.onCtx i f).graphs = s.graphs := rfl
@[simp] theorem onCtx_nregs (i : Nat) (f : Ctx → Ctx) : (s.onCtx i f).nregs = s.nregs := rfl
@[simp] theorem onCtx_gated (i : Nat) (f : Ctx → Ctx) : (s.onCtx i f).gated = s.gated := rfl
@[simp] theorem onCtx_tags (i : Nat) (f : Ctx → Ctx) : (s.onCtx i f).tags = s.tags := rfl
@[simp] theorem onCtx_groups (i : Nat) (f : Ctx → Ctx) : (s.onCtx i f).groups = s.groups := rfl
@[simp] theorem onCtx_xcache (i : Nat) (f : Ctx → Ctx) : (s.onCtx i f).xcache = s.xcache := rfl
@[simp] theorem onCtx_xruns (i : Nat) (f : Ctx → Ctx) : (s.onCtx i f).xruns = s.xruns := rfl
@[simp] theorem onCtx_msix (i : Nat) (f : Ctx → Ctx) : (s.onCtx i f).msix = s.msix := rfl
@[simp] theorem onCtx_alogs (i : Nat) (f : Ctx → Ctx) : (s.onCtx i f).alogs = s.alogs := rfl
@[simp] theorem onCtx_vlogs (i : Nat) (f : Ctx → Ctx) : (s.onCtx i f).vlogs = s.vlogs := rfl
@[simp] theorem onCtx_wordErr (i : Nat) (f : Ctx → Ctx) : (s.onCtx i f).wordErr = s.wordErr := rfl
@[simp] theorem onCtx_beats (i : Nat) (f : Ctx → Ctx) : (s.onCtx i f).beats = s.beats := rfl
@[simp] theorem onCtx_alarm (i : Nat) (f : Ctx → Ctx) : (s.onCtx i f).alarm = s.alarm := rfl
@[simp] theorem onCtx_steps (i : Nat) (f : Ctx → Ctx) : (s.onCtx i f).steps = s.steps := rfl
@[simp] theorem onCtx_stepAt (i : Nat) (f : Ctx → Ctx) : (s.onCtx i f).stepAt = s.stepAt := rfl
@[simp] theorem onCtx_hot (i : Nat) (f : Ctx → Ctx) : (s.onCtx i f).hot = s.hot := rfl
@[simp] theorem onCtx_tripped (i : Nat) (f : Ctx → Ctx) : (s.onCtx i f).tripped = s.tripped := rfl
@[simp] theorem onCtx_linkUp (i : Nat) (f : Ctx → Ctx) : (s.onCtx i f).linkUp = s.linkUp := rfl
@[simp] theorem onCtx_deadNodes (i : Nat) (f : Ctx → Ctx) : (s.onCtx i f).deadNodes = s.deadNodes := rfl

/-! ### onCGroup -/

@[simp] theorem onCGroup_agenda (i : Nat) (f : CGroup → CGroup) : (s.onCGroup i f).agenda = s.agenda := rfl
@[simp] theorem onCGroup_turn (i : Nat) (f : CGroup → CGroup) : (s.onCGroup i f).turn = s.turn := rfl
@[simp] theorem onCGroup_free (i : Nat) (f : CGroup → CGroup) : (s.onCGroup i f).free = s.free := rfl
@[simp] theorem onCGroup_iss (i : Nat) (f : CGroup → CGroup) : (s.onCGroup i f).iss = s.iss := rfl
@[simp] theorem onCGroup_nextId (i : Nat) (f : CGroup → CGroup) : (s.onCGroup i f).nextId = s.nextId := rfl
@[simp] theorem onCGroup_form (i : Nat) (f : CGroup → CGroup) : (s.onCGroup i f).form = s.form := rfl
@[simp] theorem onCGroup_stepping (i : Nat) (f : CGroup → CGroup) : (s.onCGroup i f).stepping = s.stepping := rfl
@[simp] theorem onCGroup_keyHash1 (i : Nat) (f : CGroup → CGroup) : (s.onCGroup i f).keyHash1 = s.keyHash1 := rfl
@[simp] theorem onCGroup_keyHash2 (i : Nat) (f : CGroup → CGroup) : (s.onCGroup i f).keyHash2 = s.keyHash2 := rfl
@[simp] theorem onCGroup_rollback (i : Nat) (f : CGroup → CGroup) : (s.onCGroup i f).rollback = s.rollback := rfl
@[simp] theorem onCGroup_devId (i : Nat) (f : CGroup → CGroup) : (s.onCGroup i f).devId = s.devId := rfl
@[simp] theorem onCGroup_bootst (i : Nat) (f : CGroup → CGroup) : (s.onCGroup i f).bootst = s.bootst := rfl
@[simp] theorem onCGroup_bootWin (i : Nat) (f : CGroup → CGroup) : (s.onCGroup i f).bootWin = s.bootWin := rfl
@[simp] theorem onCGroup_verifying (i : Nat) (f : CGroup → CGroup) : (s.onCGroup i f).verifying = s.verifying := rfl
@[simp] theorem onCGroup_bootHash (i : Nat) (f : CGroup → CGroup) : (s.onCGroup i f).bootHash = s.bootHash := rfl
@[simp] theorem onCGroup_svn (i : Nat) (f : CGroup → CGroup) : (s.onCGroup i f).svn = s.svn := rfl
@[simp] theorem onCGroup_flash (i : Nat) (f : CGroup → CGroup) : (s.onCGroup i f).flash = s.flash := rfl
@[simp] theorem onCGroup_retRec (i : Nat) (f : CGroup → CGroup) : (s.onCGroup i f).retRec = s.retRec := rfl
@[simp] theorem onCGroup_attNonce (i : Nat) (f : CGroup → CGroup) : (s.onCGroup i f).attNonce = s.attNonce := rfl
@[simp] theorem onCGroup_attGo (i : Nat) (f : CGroup → CGroup) : (s.onCGroup i f).attGo = s.attGo := rfl
@[simp] theorem onCGroup_attReport (i : Nat) (f : CGroup → CGroup) : (s.onCGroup i f).attReport = s.attReport := rfl
@[simp] theorem onCGroup_invctl (i : Nat) (f : CGroup → CGroup) : (s.onCGroup i f).invctl = s.invctl := rfl
@[simp] theorem onCGroup_pwrlim (i : Nat) (f : CGroup → CGroup) : (s.onCGroup i f).pwrlim = s.pwrlim := rfl
@[simp] theorem onCGroup_evbase (i : Nat) (f : CGroup → CGroup) : (s.onCGroup i f).evbase = s.evbase := rfl
@[simp] theorem onCGroup_evsize (i : Nat) (f : CGroup → CGroup) : (s.onCGroup i f).evsize = s.evsize := rfl
@[simp] theorem onCGroup_nodeid (i : Nat) (f : CGroup → CGroup) : (s.onCGroup i f).nodeid = s.nodeid := rfl
@[simp] theorem onCGroup_farCap (i : Nat) (f : CGroup → CGroup) : (s.onCGroup i f).farCap = s.farCap := rfl
@[simp] theorem onCGroup_ns (i : Nat) (f : CGroup → CGroup) : (s.onCGroup i f).ns = s.ns := rfl
@[simp] theorem onCGroup_window (i : Nat) (f : CGroup → CGroup) : (s.onCGroup i f).window = s.window := rfl
@[simp] theorem onCGroup_mem (i : Nat) (f : CGroup → CGroup) : (s.onCGroup i f).mem = s.mem := rfl
@[simp] theorem onCGroup_host (i : Nat) (f : CGroup → CGroup) : (s.onCGroup i f).host = s.host := rfl
@[simp] theorem onCGroup_remote (i : Nat) (f : CGroup → CGroup) : (s.onCGroup i f).remote = s.remote := rfl
@[simp] theorem onCGroup_badLines (i : Nat) (f : CGroup → CGroup) : (s.onCGroup i f).badLines = s.badLines := rfl
@[simp] theorem onCGroup_l2 (i : Nat) (f : CGroup → CGroup) : (s.onCGroup i f).l2 = s.l2 := rfl
@[simp] theorem onCGroup_depart (i : Nat) (f : CGroup → CGroup) : (s.onCGroup i f).depart = s.depart := rfl
@[simp] theorem onCGroup_slices (i : Nat) (f : CGroup → CGroup) : (s.onCGroup i f).slices = s.slices := rfl
@[simp] theorem onCGroup_sliceErr (i : Nat) (f : CGroup → CGroup) : (s.onCGroup i f).sliceErr = s.sliceErr := rfl
@[simp] theorem onCGroup_chanErr (i : Nat) (f : CGroup → CGroup) : (s.onCGroup i f).chanErr = s.chanErr := rfl
@[simp] theorem onCGroup_chanBad (i : Nat) (f : CGroup → CGroup) : (s.onCGroup i f).chanBad = s.chanBad := rfl
@[simp] theorem onCGroup_cores (i : Nat) (f : CGroup → CGroup) : (s.onCGroup i f).cores = s.cores := rfl
@[simp] theorem onCGroup_quads (i : Nat) (f : CGroup → CGroup) : (s.onCGroup i f).quads = s.quads := rfl
@[simp] theorem onCGroup_clusters (i : Nat) (f : CGroup → CGroup) : (s.onCGroup i f).clusters = s.clusters := rfl
@[simp] theorem onCGroup_ctxs (i : Nat) (f : CGroup → CGroup) : (s.onCGroup i f).ctxs = s.ctxs := rfl
@[simp] theorem onCGroup_grids (i : Nat) (f : CGroup → CGroup) : (s.onCGroup i f).grids = s.grids := rfl
@[simp] theorem onCGroup_waits (i : Nat) (f : CGroup → CGroup) : (s.onCGroup i f).waits = s.waits := rfl
@[simp] theorem onCGroup_blocks (i : Nat) (f : CGroup → CGroup) : (s.onCGroup i f).blocks = s.blocks := rfl
@[simp] theorem onCGroup_warps (i : Nat) (f : CGroup → CGroup) : (s.onCGroup i f).warps = s.warps := rfl
@[simp] theorem onCGroup_net (i : Nat) (f : CGroup → CGroup) : (s.onCGroup i f).net = s.net := rfl
@[simp] theorem onCGroup_fetches (i : Nat) (f : CGroup → CGroup) : (s.onCGroup i f).fetches = s.fetches := rfl
@[simp] theorem onCGroup_pages (i : Nat) (f : CGroup → CGroup) : (s.onCGroup i f).pages = s.pages := rfl
@[simp] theorem onCGroup_copies (i : Nat) (f : CGroup → CGroup) : (s.onCGroup i f).copies = s.copies := rfl
@[simp] theorem onCGroup_defs (i : Nat) (f : CGroup → CGroup) : (s.onCGroup i f).defs = s.defs := rfl
@[simp] theorem onCGroup_readers (i : Nat) (f : CGroup → CGroup) : (s.onCGroup i f).readers = s.readers := rfl
@[simp] theorem onCGroup_mats (i : Nat) (f : CGroup → CGroup) : (s.onCGroup i f).mats = s.mats := rfl
@[simp] theorem onCGroup_fills (i : Nat) (f : CGroup → CGroup) : (s.onCGroup i f).fills = s.fills := rfl
@[simp] theorem onCGroup_redos (i : Nat) (f : CGroup → CGroup) : (s.onCGroup i f).redos = s.redos := rfl
@[simp] theorem onCGroup_pops (i : Nat) (f : CGroup → CGroup) : (s.onCGroup i f).pops = s.pops := rfl
@[simp] theorem onCGroup_cmds (i : Nat) (f : CGroup → CGroup) : (s.onCGroup i f).cmds = s.cmds := rfl
@[simp] theorem onCGroup_hq (i : Nat) (f : CGroup → CGroup) : (s.onCGroup i f).hq = s.hq := rfl
@[simp] theorem onCGroup_wq (i : Nat) (f : CGroup → CGroup) : (s.onCGroup i f).wq = s.wq := rfl
@[simp] theorem onCGroup_graphs (i : Nat) (f : CGroup → CGroup) : (s.onCGroup i f).graphs = s.graphs := rfl
@[simp] theorem onCGroup_nregs (i : Nat) (f : CGroup → CGroup) : (s.onCGroup i f).nregs = s.nregs := rfl
@[simp] theorem onCGroup_gated (i : Nat) (f : CGroup → CGroup) : (s.onCGroup i f).gated = s.gated := rfl
@[simp] theorem onCGroup_tags (i : Nat) (f : CGroup → CGroup) : (s.onCGroup i f).tags = s.tags := rfl
@[simp] theorem onCGroup_groups (i : Nat) (f : CGroup → CGroup) : (s.onCGroup i f).groups = s.groups := rfl
@[simp] theorem onCGroup_xcache (i : Nat) (f : CGroup → CGroup) : (s.onCGroup i f).xcache = s.xcache := rfl
@[simp] theorem onCGroup_xruns (i : Nat) (f : CGroup → CGroup) : (s.onCGroup i f).xruns = s.xruns := rfl
@[simp] theorem onCGroup_msix (i : Nat) (f : CGroup → CGroup) : (s.onCGroup i f).msix = s.msix := rfl
@[simp] theorem onCGroup_alogs (i : Nat) (f : CGroup → CGroup) : (s.onCGroup i f).alogs = s.alogs := rfl
@[simp] theorem onCGroup_vlogs (i : Nat) (f : CGroup → CGroup) : (s.onCGroup i f).vlogs = s.vlogs := rfl
@[simp] theorem onCGroup_wordErr (i : Nat) (f : CGroup → CGroup) : (s.onCGroup i f).wordErr = s.wordErr := rfl
@[simp] theorem onCGroup_beats (i : Nat) (f : CGroup → CGroup) : (s.onCGroup i f).beats = s.beats := rfl
@[simp] theorem onCGroup_alarm (i : Nat) (f : CGroup → CGroup) : (s.onCGroup i f).alarm = s.alarm := rfl
@[simp] theorem onCGroup_steps (i : Nat) (f : CGroup → CGroup) : (s.onCGroup i f).steps = s.steps := rfl
@[simp] theorem onCGroup_stepAt (i : Nat) (f : CGroup → CGroup) : (s.onCGroup i f).stepAt = s.stepAt := rfl
@[simp] theorem onCGroup_hot (i : Nat) (f : CGroup → CGroup) : (s.onCGroup i f).hot = s.hot := rfl
@[simp] theorem onCGroup_tripped (i : Nat) (f : CGroup → CGroup) : (s.onCGroup i f).tripped = s.tripped := rfl
@[simp] theorem onCGroup_linkUp (i : Nat) (f : CGroup → CGroup) : (s.onCGroup i f).linkUp = s.linkUp := rfl
@[simp] theorem onCGroup_deadNodes (i : Nat) (f : CGroup → CGroup) : (s.onCGroup i f).deadNodes = s.deadNodes := rfl

/-! ### onGrid -/

@[simp] theorem onGrid_agenda (i : Nat) (f : Grid → Grid) : (s.onGrid i f).agenda = s.agenda := rfl
@[simp] theorem onGrid_turn (i : Nat) (f : Grid → Grid) : (s.onGrid i f).turn = s.turn := rfl
@[simp] theorem onGrid_free (i : Nat) (f : Grid → Grid) : (s.onGrid i f).free = s.free := rfl
@[simp] theorem onGrid_iss (i : Nat) (f : Grid → Grid) : (s.onGrid i f).iss = s.iss := rfl
@[simp] theorem onGrid_nextId (i : Nat) (f : Grid → Grid) : (s.onGrid i f).nextId = s.nextId := rfl
@[simp] theorem onGrid_form (i : Nat) (f : Grid → Grid) : (s.onGrid i f).form = s.form := rfl
@[simp] theorem onGrid_stepping (i : Nat) (f : Grid → Grid) : (s.onGrid i f).stepping = s.stepping := rfl
@[simp] theorem onGrid_keyHash1 (i : Nat) (f : Grid → Grid) : (s.onGrid i f).keyHash1 = s.keyHash1 := rfl
@[simp] theorem onGrid_keyHash2 (i : Nat) (f : Grid → Grid) : (s.onGrid i f).keyHash2 = s.keyHash2 := rfl
@[simp] theorem onGrid_rollback (i : Nat) (f : Grid → Grid) : (s.onGrid i f).rollback = s.rollback := rfl
@[simp] theorem onGrid_devId (i : Nat) (f : Grid → Grid) : (s.onGrid i f).devId = s.devId := rfl
@[simp] theorem onGrid_bootst (i : Nat) (f : Grid → Grid) : (s.onGrid i f).bootst = s.bootst := rfl
@[simp] theorem onGrid_bootWin (i : Nat) (f : Grid → Grid) : (s.onGrid i f).bootWin = s.bootWin := rfl
@[simp] theorem onGrid_verifying (i : Nat) (f : Grid → Grid) : (s.onGrid i f).verifying = s.verifying := rfl
@[simp] theorem onGrid_bootHash (i : Nat) (f : Grid → Grid) : (s.onGrid i f).bootHash = s.bootHash := rfl
@[simp] theorem onGrid_svn (i : Nat) (f : Grid → Grid) : (s.onGrid i f).svn = s.svn := rfl
@[simp] theorem onGrid_flash (i : Nat) (f : Grid → Grid) : (s.onGrid i f).flash = s.flash := rfl
@[simp] theorem onGrid_retRec (i : Nat) (f : Grid → Grid) : (s.onGrid i f).retRec = s.retRec := rfl
@[simp] theorem onGrid_attNonce (i : Nat) (f : Grid → Grid) : (s.onGrid i f).attNonce = s.attNonce := rfl
@[simp] theorem onGrid_attGo (i : Nat) (f : Grid → Grid) : (s.onGrid i f).attGo = s.attGo := rfl
@[simp] theorem onGrid_attReport (i : Nat) (f : Grid → Grid) : (s.onGrid i f).attReport = s.attReport := rfl
@[simp] theorem onGrid_invctl (i : Nat) (f : Grid → Grid) : (s.onGrid i f).invctl = s.invctl := rfl
@[simp] theorem onGrid_pwrlim (i : Nat) (f : Grid → Grid) : (s.onGrid i f).pwrlim = s.pwrlim := rfl
@[simp] theorem onGrid_evbase (i : Nat) (f : Grid → Grid) : (s.onGrid i f).evbase = s.evbase := rfl
@[simp] theorem onGrid_evsize (i : Nat) (f : Grid → Grid) : (s.onGrid i f).evsize = s.evsize := rfl
@[simp] theorem onGrid_nodeid (i : Nat) (f : Grid → Grid) : (s.onGrid i f).nodeid = s.nodeid := rfl
@[simp] theorem onGrid_farCap (i : Nat) (f : Grid → Grid) : (s.onGrid i f).farCap = s.farCap := rfl
@[simp] theorem onGrid_ns (i : Nat) (f : Grid → Grid) : (s.onGrid i f).ns = s.ns := rfl
@[simp] theorem onGrid_window (i : Nat) (f : Grid → Grid) : (s.onGrid i f).window = s.window := rfl
@[simp] theorem onGrid_mem (i : Nat) (f : Grid → Grid) : (s.onGrid i f).mem = s.mem := rfl
@[simp] theorem onGrid_host (i : Nat) (f : Grid → Grid) : (s.onGrid i f).host = s.host := rfl
@[simp] theorem onGrid_remote (i : Nat) (f : Grid → Grid) : (s.onGrid i f).remote = s.remote := rfl
@[simp] theorem onGrid_badLines (i : Nat) (f : Grid → Grid) : (s.onGrid i f).badLines = s.badLines := rfl
@[simp] theorem onGrid_l2 (i : Nat) (f : Grid → Grid) : (s.onGrid i f).l2 = s.l2 := rfl
@[simp] theorem onGrid_depart (i : Nat) (f : Grid → Grid) : (s.onGrid i f).depart = s.depart := rfl
@[simp] theorem onGrid_slices (i : Nat) (f : Grid → Grid) : (s.onGrid i f).slices = s.slices := rfl
@[simp] theorem onGrid_sliceErr (i : Nat) (f : Grid → Grid) : (s.onGrid i f).sliceErr = s.sliceErr := rfl
@[simp] theorem onGrid_chanErr (i : Nat) (f : Grid → Grid) : (s.onGrid i f).chanErr = s.chanErr := rfl
@[simp] theorem onGrid_chanBad (i : Nat) (f : Grid → Grid) : (s.onGrid i f).chanBad = s.chanBad := rfl
@[simp] theorem onGrid_cores (i : Nat) (f : Grid → Grid) : (s.onGrid i f).cores = s.cores := rfl
@[simp] theorem onGrid_quads (i : Nat) (f : Grid → Grid) : (s.onGrid i f).quads = s.quads := rfl
@[simp] theorem onGrid_clusters (i : Nat) (f : Grid → Grid) : (s.onGrid i f).clusters = s.clusters := rfl
@[simp] theorem onGrid_ctxs (i : Nat) (f : Grid → Grid) : (s.onGrid i f).ctxs = s.ctxs := rfl
@[simp] theorem onGrid_waits (i : Nat) (f : Grid → Grid) : (s.onGrid i f).waits = s.waits := rfl
@[simp] theorem onGrid_cgroups (i : Nat) (f : Grid → Grid) : (s.onGrid i f).cgroups = s.cgroups := rfl
@[simp] theorem onGrid_blocks (i : Nat) (f : Grid → Grid) : (s.onGrid i f).blocks = s.blocks := rfl
@[simp] theorem onGrid_warps (i : Nat) (f : Grid → Grid) : (s.onGrid i f).warps = s.warps := rfl
@[simp] theorem onGrid_net (i : Nat) (f : Grid → Grid) : (s.onGrid i f).net = s.net := rfl
@[simp] theorem onGrid_fetches (i : Nat) (f : Grid → Grid) : (s.onGrid i f).fetches = s.fetches := rfl
@[simp] theorem onGrid_pages (i : Nat) (f : Grid → Grid) : (s.onGrid i f).pages = s.pages := rfl
@[simp] theorem onGrid_copies (i : Nat) (f : Grid → Grid) : (s.onGrid i f).copies = s.copies := rfl
@[simp] theorem onGrid_defs (i : Nat) (f : Grid → Grid) : (s.onGrid i f).defs = s.defs := rfl
@[simp] theorem onGrid_readers (i : Nat) (f : Grid → Grid) : (s.onGrid i f).readers = s.readers := rfl
@[simp] theorem onGrid_mats (i : Nat) (f : Grid → Grid) : (s.onGrid i f).mats = s.mats := rfl
@[simp] theorem onGrid_fills (i : Nat) (f : Grid → Grid) : (s.onGrid i f).fills = s.fills := rfl
@[simp] theorem onGrid_redos (i : Nat) (f : Grid → Grid) : (s.onGrid i f).redos = s.redos := rfl
@[simp] theorem onGrid_pops (i : Nat) (f : Grid → Grid) : (s.onGrid i f).pops = s.pops := rfl
@[simp] theorem onGrid_cmds (i : Nat) (f : Grid → Grid) : (s.onGrid i f).cmds = s.cmds := rfl
@[simp] theorem onGrid_hq (i : Nat) (f : Grid → Grid) : (s.onGrid i f).hq = s.hq := rfl
@[simp] theorem onGrid_wq (i : Nat) (f : Grid → Grid) : (s.onGrid i f).wq = s.wq := rfl
@[simp] theorem onGrid_graphs (i : Nat) (f : Grid → Grid) : (s.onGrid i f).graphs = s.graphs := rfl
@[simp] theorem onGrid_nregs (i : Nat) (f : Grid → Grid) : (s.onGrid i f).nregs = s.nregs := rfl
@[simp] theorem onGrid_gated (i : Nat) (f : Grid → Grid) : (s.onGrid i f).gated = s.gated := rfl
@[simp] theorem onGrid_tags (i : Nat) (f : Grid → Grid) : (s.onGrid i f).tags = s.tags := rfl
@[simp] theorem onGrid_groups (i : Nat) (f : Grid → Grid) : (s.onGrid i f).groups = s.groups := rfl
@[simp] theorem onGrid_xcache (i : Nat) (f : Grid → Grid) : (s.onGrid i f).xcache = s.xcache := rfl
@[simp] theorem onGrid_xruns (i : Nat) (f : Grid → Grid) : (s.onGrid i f).xruns = s.xruns := rfl
@[simp] theorem onGrid_msix (i : Nat) (f : Grid → Grid) : (s.onGrid i f).msix = s.msix := rfl
@[simp] theorem onGrid_alogs (i : Nat) (f : Grid → Grid) : (s.onGrid i f).alogs = s.alogs := rfl
@[simp] theorem onGrid_vlogs (i : Nat) (f : Grid → Grid) : (s.onGrid i f).vlogs = s.vlogs := rfl
@[simp] theorem onGrid_wordErr (i : Nat) (f : Grid → Grid) : (s.onGrid i f).wordErr = s.wordErr := rfl
@[simp] theorem onGrid_beats (i : Nat) (f : Grid → Grid) : (s.onGrid i f).beats = s.beats := rfl
@[simp] theorem onGrid_alarm (i : Nat) (f : Grid → Grid) : (s.onGrid i f).alarm = s.alarm := rfl
@[simp] theorem onGrid_steps (i : Nat) (f : Grid → Grid) : (s.onGrid i f).steps = s.steps := rfl
@[simp] theorem onGrid_stepAt (i : Nat) (f : Grid → Grid) : (s.onGrid i f).stepAt = s.stepAt := rfl
@[simp] theorem onGrid_hot (i : Nat) (f : Grid → Grid) : (s.onGrid i f).hot = s.hot := rfl
@[simp] theorem onGrid_tripped (i : Nat) (f : Grid → Grid) : (s.onGrid i f).tripped = s.tripped := rfl
@[simp] theorem onGrid_linkUp (i : Nat) (f : Grid → Grid) : (s.onGrid i f).linkUp = s.linkUp := rfl
@[simp] theorem onGrid_deadNodes (i : Nat) (f : Grid → Grid) : (s.onGrid i f).deadNodes = s.deadNodes := rfl

/-! ### onCore -/

@[simp] theorem onCore_agenda (i : Nat) (f : Core → Core) : (s.onCore i f).agenda = s.agenda := rfl
@[simp] theorem onCore_turn (i : Nat) (f : Core → Core) : (s.onCore i f).turn = s.turn := rfl
@[simp] theorem onCore_free (i : Nat) (f : Core → Core) : (s.onCore i f).free = s.free := rfl
@[simp] theorem onCore_iss (i : Nat) (f : Core → Core) : (s.onCore i f).iss = s.iss := rfl
@[simp] theorem onCore_nextId (i : Nat) (f : Core → Core) : (s.onCore i f).nextId = s.nextId := rfl
@[simp] theorem onCore_form (i : Nat) (f : Core → Core) : (s.onCore i f).form = s.form := rfl
@[simp] theorem onCore_stepping (i : Nat) (f : Core → Core) : (s.onCore i f).stepping = s.stepping := rfl
@[simp] theorem onCore_keyHash1 (i : Nat) (f : Core → Core) : (s.onCore i f).keyHash1 = s.keyHash1 := rfl
@[simp] theorem onCore_keyHash2 (i : Nat) (f : Core → Core) : (s.onCore i f).keyHash2 = s.keyHash2 := rfl
@[simp] theorem onCore_rollback (i : Nat) (f : Core → Core) : (s.onCore i f).rollback = s.rollback := rfl
@[simp] theorem onCore_devId (i : Nat) (f : Core → Core) : (s.onCore i f).devId = s.devId := rfl
@[simp] theorem onCore_bootst (i : Nat) (f : Core → Core) : (s.onCore i f).bootst = s.bootst := rfl
@[simp] theorem onCore_bootWin (i : Nat) (f : Core → Core) : (s.onCore i f).bootWin = s.bootWin := rfl
@[simp] theorem onCore_verifying (i : Nat) (f : Core → Core) : (s.onCore i f).verifying = s.verifying := rfl
@[simp] theorem onCore_bootHash (i : Nat) (f : Core → Core) : (s.onCore i f).bootHash = s.bootHash := rfl
@[simp] theorem onCore_svn (i : Nat) (f : Core → Core) : (s.onCore i f).svn = s.svn := rfl
@[simp] theorem onCore_flash (i : Nat) (f : Core → Core) : (s.onCore i f).flash = s.flash := rfl
@[simp] theorem onCore_retRec (i : Nat) (f : Core → Core) : (s.onCore i f).retRec = s.retRec := rfl
@[simp] theorem onCore_attNonce (i : Nat) (f : Core → Core) : (s.onCore i f).attNonce = s.attNonce := rfl
@[simp] theorem onCore_attGo (i : Nat) (f : Core → Core) : (s.onCore i f).attGo = s.attGo := rfl
@[simp] theorem onCore_attReport (i : Nat) (f : Core → Core) : (s.onCore i f).attReport = s.attReport := rfl
@[simp] theorem onCore_invctl (i : Nat) (f : Core → Core) : (s.onCore i f).invctl = s.invctl := rfl
@[simp] theorem onCore_pwrlim (i : Nat) (f : Core → Core) : (s.onCore i f).pwrlim = s.pwrlim := rfl
@[simp] theorem onCore_evbase (i : Nat) (f : Core → Core) : (s.onCore i f).evbase = s.evbase := rfl
@[simp] theorem onCore_evsize (i : Nat) (f : Core → Core) : (s.onCore i f).evsize = s.evsize := rfl
@[simp] theorem onCore_nodeid (i : Nat) (f : Core → Core) : (s.onCore i f).nodeid = s.nodeid := rfl
@[simp] theorem onCore_farCap (i : Nat) (f : Core → Core) : (s.onCore i f).farCap = s.farCap := rfl
@[simp] theorem onCore_ns (i : Nat) (f : Core → Core) : (s.onCore i f).ns = s.ns := rfl
@[simp] theorem onCore_window (i : Nat) (f : Core → Core) : (s.onCore i f).window = s.window := rfl
@[simp] theorem onCore_mem (i : Nat) (f : Core → Core) : (s.onCore i f).mem = s.mem := rfl
@[simp] theorem onCore_host (i : Nat) (f : Core → Core) : (s.onCore i f).host = s.host := rfl
@[simp] theorem onCore_remote (i : Nat) (f : Core → Core) : (s.onCore i f).remote = s.remote := rfl
@[simp] theorem onCore_badLines (i : Nat) (f : Core → Core) : (s.onCore i f).badLines = s.badLines := rfl
@[simp] theorem onCore_l2 (i : Nat) (f : Core → Core) : (s.onCore i f).l2 = s.l2 := rfl
@[simp] theorem onCore_depart (i : Nat) (f : Core → Core) : (s.onCore i f).depart = s.depart := rfl
@[simp] theorem onCore_slices (i : Nat) (f : Core → Core) : (s.onCore i f).slices = s.slices := rfl
@[simp] theorem onCore_sliceErr (i : Nat) (f : Core → Core) : (s.onCore i f).sliceErr = s.sliceErr := rfl
@[simp] theorem onCore_chanErr (i : Nat) (f : Core → Core) : (s.onCore i f).chanErr = s.chanErr := rfl
@[simp] theorem onCore_chanBad (i : Nat) (f : Core → Core) : (s.onCore i f).chanBad = s.chanBad := rfl
@[simp] theorem onCore_quads (i : Nat) (f : Core → Core) : (s.onCore i f).quads = s.quads := rfl
@[simp] theorem onCore_clusters (i : Nat) (f : Core → Core) : (s.onCore i f).clusters = s.clusters := rfl
@[simp] theorem onCore_ctxs (i : Nat) (f : Core → Core) : (s.onCore i f).ctxs = s.ctxs := rfl
@[simp] theorem onCore_grids (i : Nat) (f : Core → Core) : (s.onCore i f).grids = s.grids := rfl
@[simp] theorem onCore_waits (i : Nat) (f : Core → Core) : (s.onCore i f).waits = s.waits := rfl
@[simp] theorem onCore_cgroups (i : Nat) (f : Core → Core) : (s.onCore i f).cgroups = s.cgroups := rfl
@[simp] theorem onCore_blocks (i : Nat) (f : Core → Core) : (s.onCore i f).blocks = s.blocks := rfl
@[simp] theorem onCore_warps (i : Nat) (f : Core → Core) : (s.onCore i f).warps = s.warps := rfl
@[simp] theorem onCore_net (i : Nat) (f : Core → Core) : (s.onCore i f).net = s.net := rfl
@[simp] theorem onCore_fetches (i : Nat) (f : Core → Core) : (s.onCore i f).fetches = s.fetches := rfl
@[simp] theorem onCore_pages (i : Nat) (f : Core → Core) : (s.onCore i f).pages = s.pages := rfl
@[simp] theorem onCore_copies (i : Nat) (f : Core → Core) : (s.onCore i f).copies = s.copies := rfl
@[simp] theorem onCore_defs (i : Nat) (f : Core → Core) : (s.onCore i f).defs = s.defs := rfl
@[simp] theorem onCore_readers (i : Nat) (f : Core → Core) : (s.onCore i f).readers = s.readers := rfl
@[simp] theorem onCore_mats (i : Nat) (f : Core → Core) : (s.onCore i f).mats = s.mats := rfl
@[simp] theorem onCore_fills (i : Nat) (f : Core → Core) : (s.onCore i f).fills = s.fills := rfl
@[simp] theorem onCore_redos (i : Nat) (f : Core → Core) : (s.onCore i f).redos = s.redos := rfl
@[simp] theorem onCore_pops (i : Nat) (f : Core → Core) : (s.onCore i f).pops = s.pops := rfl
@[simp] theorem onCore_cmds (i : Nat) (f : Core → Core) : (s.onCore i f).cmds = s.cmds := rfl
@[simp] theorem onCore_hq (i : Nat) (f : Core → Core) : (s.onCore i f).hq = s.hq := rfl
@[simp] theorem onCore_wq (i : Nat) (f : Core → Core) : (s.onCore i f).wq = s.wq := rfl
@[simp] theorem onCore_graphs (i : Nat) (f : Core → Core) : (s.onCore i f).graphs = s.graphs := rfl
@[simp] theorem onCore_nregs (i : Nat) (f : Core → Core) : (s.onCore i f).nregs = s.nregs := rfl
@[simp] theorem onCore_gated (i : Nat) (f : Core → Core) : (s.onCore i f).gated = s.gated := rfl
@[simp] theorem onCore_tags (i : Nat) (f : Core → Core) : (s.onCore i f).tags = s.tags := rfl
@[simp] theorem onCore_groups (i : Nat) (f : Core → Core) : (s.onCore i f).groups = s.groups := rfl
@[simp] theorem onCore_xcache (i : Nat) (f : Core → Core) : (s.onCore i f).xcache = s.xcache := rfl
@[simp] theorem onCore_xruns (i : Nat) (f : Core → Core) : (s.onCore i f).xruns = s.xruns := rfl
@[simp] theorem onCore_msix (i : Nat) (f : Core → Core) : (s.onCore i f).msix = s.msix := rfl
@[simp] theorem onCore_alogs (i : Nat) (f : Core → Core) : (s.onCore i f).alogs = s.alogs := rfl
@[simp] theorem onCore_vlogs (i : Nat) (f : Core → Core) : (s.onCore i f).vlogs = s.vlogs := rfl
@[simp] theorem onCore_wordErr (i : Nat) (f : Core → Core) : (s.onCore i f).wordErr = s.wordErr := rfl
@[simp] theorem onCore_beats (i : Nat) (f : Core → Core) : (s.onCore i f).beats = s.beats := rfl
@[simp] theorem onCore_alarm (i : Nat) (f : Core → Core) : (s.onCore i f).alarm = s.alarm := rfl
@[simp] theorem onCore_steps (i : Nat) (f : Core → Core) : (s.onCore i f).steps = s.steps := rfl
@[simp] theorem onCore_stepAt (i : Nat) (f : Core → Core) : (s.onCore i f).stepAt = s.stepAt := rfl
@[simp] theorem onCore_hot (i : Nat) (f : Core → Core) : (s.onCore i f).hot = s.hot := rfl
@[simp] theorem onCore_tripped (i : Nat) (f : Core → Core) : (s.onCore i f).tripped = s.tripped := rfl
@[simp] theorem onCore_linkUp (i : Nat) (f : Core → Core) : (s.onCore i f).linkUp = s.linkUp := rfl
@[simp] theorem onCore_deadNodes (i : Nat) (f : Core → Core) : (s.onCore i f).deadNodes = s.deadNodes := rfl

/-! ### onQuad -/

@[simp] theorem onQuad_agenda (i : Nat) (f : Quad → Quad) : (s.onQuad i f).agenda = s.agenda := rfl
@[simp] theorem onQuad_turn (i : Nat) (f : Quad → Quad) : (s.onQuad i f).turn = s.turn := rfl
@[simp] theorem onQuad_free (i : Nat) (f : Quad → Quad) : (s.onQuad i f).free = s.free := rfl
@[simp] theorem onQuad_iss (i : Nat) (f : Quad → Quad) : (s.onQuad i f).iss = s.iss := rfl
@[simp] theorem onQuad_nextId (i : Nat) (f : Quad → Quad) : (s.onQuad i f).nextId = s.nextId := rfl
@[simp] theorem onQuad_form (i : Nat) (f : Quad → Quad) : (s.onQuad i f).form = s.form := rfl
@[simp] theorem onQuad_stepping (i : Nat) (f : Quad → Quad) : (s.onQuad i f).stepping = s.stepping := rfl
@[simp] theorem onQuad_keyHash1 (i : Nat) (f : Quad → Quad) : (s.onQuad i f).keyHash1 = s.keyHash1 := rfl
@[simp] theorem onQuad_keyHash2 (i : Nat) (f : Quad → Quad) : (s.onQuad i f).keyHash2 = s.keyHash2 := rfl
@[simp] theorem onQuad_rollback (i : Nat) (f : Quad → Quad) : (s.onQuad i f).rollback = s.rollback := rfl
@[simp] theorem onQuad_devId (i : Nat) (f : Quad → Quad) : (s.onQuad i f).devId = s.devId := rfl
@[simp] theorem onQuad_bootst (i : Nat) (f : Quad → Quad) : (s.onQuad i f).bootst = s.bootst := rfl
@[simp] theorem onQuad_bootWin (i : Nat) (f : Quad → Quad) : (s.onQuad i f).bootWin = s.bootWin := rfl
@[simp] theorem onQuad_verifying (i : Nat) (f : Quad → Quad) : (s.onQuad i f).verifying = s.verifying := rfl
@[simp] theorem onQuad_bootHash (i : Nat) (f : Quad → Quad) : (s.onQuad i f).bootHash = s.bootHash := rfl
@[simp] theorem onQuad_svn (i : Nat) (f : Quad → Quad) : (s.onQuad i f).svn = s.svn := rfl
@[simp] theorem onQuad_flash (i : Nat) (f : Quad → Quad) : (s.onQuad i f).flash = s.flash := rfl
@[simp] theorem onQuad_retRec (i : Nat) (f : Quad → Quad) : (s.onQuad i f).retRec = s.retRec := rfl
@[simp] theorem onQuad_attNonce (i : Nat) (f : Quad → Quad) : (s.onQuad i f).attNonce = s.attNonce := rfl
@[simp] theorem onQuad_attGo (i : Nat) (f : Quad → Quad) : (s.onQuad i f).attGo = s.attGo := rfl
@[simp] theorem onQuad_attReport (i : Nat) (f : Quad → Quad) : (s.onQuad i f).attReport = s.attReport := rfl
@[simp] theorem onQuad_invctl (i : Nat) (f : Quad → Quad) : (s.onQuad i f).invctl = s.invctl := rfl
@[simp] theorem onQuad_pwrlim (i : Nat) (f : Quad → Quad) : (s.onQuad i f).pwrlim = s.pwrlim := rfl
@[simp] theorem onQuad_evbase (i : Nat) (f : Quad → Quad) : (s.onQuad i f).evbase = s.evbase := rfl
@[simp] theorem onQuad_evsize (i : Nat) (f : Quad → Quad) : (s.onQuad i f).evsize = s.evsize := rfl
@[simp] theorem onQuad_nodeid (i : Nat) (f : Quad → Quad) : (s.onQuad i f).nodeid = s.nodeid := rfl
@[simp] theorem onQuad_farCap (i : Nat) (f : Quad → Quad) : (s.onQuad i f).farCap = s.farCap := rfl
@[simp] theorem onQuad_ns (i : Nat) (f : Quad → Quad) : (s.onQuad i f).ns = s.ns := rfl
@[simp] theorem onQuad_window (i : Nat) (f : Quad → Quad) : (s.onQuad i f).window = s.window := rfl
@[simp] theorem onQuad_mem (i : Nat) (f : Quad → Quad) : (s.onQuad i f).mem = s.mem := rfl
@[simp] theorem onQuad_host (i : Nat) (f : Quad → Quad) : (s.onQuad i f).host = s.host := rfl
@[simp] theorem onQuad_remote (i : Nat) (f : Quad → Quad) : (s.onQuad i f).remote = s.remote := rfl
@[simp] theorem onQuad_badLines (i : Nat) (f : Quad → Quad) : (s.onQuad i f).badLines = s.badLines := rfl
@[simp] theorem onQuad_l2 (i : Nat) (f : Quad → Quad) : (s.onQuad i f).l2 = s.l2 := rfl
@[simp] theorem onQuad_depart (i : Nat) (f : Quad → Quad) : (s.onQuad i f).depart = s.depart := rfl
@[simp] theorem onQuad_slices (i : Nat) (f : Quad → Quad) : (s.onQuad i f).slices = s.slices := rfl
@[simp] theorem onQuad_sliceErr (i : Nat) (f : Quad → Quad) : (s.onQuad i f).sliceErr = s.sliceErr := rfl
@[simp] theorem onQuad_chanErr (i : Nat) (f : Quad → Quad) : (s.onQuad i f).chanErr = s.chanErr := rfl
@[simp] theorem onQuad_chanBad (i : Nat) (f : Quad → Quad) : (s.onQuad i f).chanBad = s.chanBad := rfl
@[simp] theorem onQuad_cores (i : Nat) (f : Quad → Quad) : (s.onQuad i f).cores = s.cores := rfl
@[simp] theorem onQuad_clusters (i : Nat) (f : Quad → Quad) : (s.onQuad i f).clusters = s.clusters := rfl
@[simp] theorem onQuad_ctxs (i : Nat) (f : Quad → Quad) : (s.onQuad i f).ctxs = s.ctxs := rfl
@[simp] theorem onQuad_grids (i : Nat) (f : Quad → Quad) : (s.onQuad i f).grids = s.grids := rfl
@[simp] theorem onQuad_waits (i : Nat) (f : Quad → Quad) : (s.onQuad i f).waits = s.waits := rfl
@[simp] theorem onQuad_cgroups (i : Nat) (f : Quad → Quad) : (s.onQuad i f).cgroups = s.cgroups := rfl
@[simp] theorem onQuad_blocks (i : Nat) (f : Quad → Quad) : (s.onQuad i f).blocks = s.blocks := rfl
@[simp] theorem onQuad_warps (i : Nat) (f : Quad → Quad) : (s.onQuad i f).warps = s.warps := rfl
@[simp] theorem onQuad_net (i : Nat) (f : Quad → Quad) : (s.onQuad i f).net = s.net := rfl
@[simp] theorem onQuad_fetches (i : Nat) (f : Quad → Quad) : (s.onQuad i f).fetches = s.fetches := rfl
@[simp] theorem onQuad_pages (i : Nat) (f : Quad → Quad) : (s.onQuad i f).pages = s.pages := rfl
@[simp] theorem onQuad_copies (i : Nat) (f : Quad → Quad) : (s.onQuad i f).copies = s.copies := rfl
@[simp] theorem onQuad_defs (i : Nat) (f : Quad → Quad) : (s.onQuad i f).defs = s.defs := rfl
@[simp] theorem onQuad_readers (i : Nat) (f : Quad → Quad) : (s.onQuad i f).readers = s.readers := rfl
@[simp] theorem onQuad_mats (i : Nat) (f : Quad → Quad) : (s.onQuad i f).mats = s.mats := rfl
@[simp] theorem onQuad_fills (i : Nat) (f : Quad → Quad) : (s.onQuad i f).fills = s.fills := rfl
@[simp] theorem onQuad_redos (i : Nat) (f : Quad → Quad) : (s.onQuad i f).redos = s.redos := rfl
@[simp] theorem onQuad_pops (i : Nat) (f : Quad → Quad) : (s.onQuad i f).pops = s.pops := rfl
@[simp] theorem onQuad_cmds (i : Nat) (f : Quad → Quad) : (s.onQuad i f).cmds = s.cmds := rfl
@[simp] theorem onQuad_hq (i : Nat) (f : Quad → Quad) : (s.onQuad i f).hq = s.hq := rfl
@[simp] theorem onQuad_wq (i : Nat) (f : Quad → Quad) : (s.onQuad i f).wq = s.wq := rfl
@[simp] theorem onQuad_graphs (i : Nat) (f : Quad → Quad) : (s.onQuad i f).graphs = s.graphs := rfl
@[simp] theorem onQuad_nregs (i : Nat) (f : Quad → Quad) : (s.onQuad i f).nregs = s.nregs := rfl
@[simp] theorem onQuad_gated (i : Nat) (f : Quad → Quad) : (s.onQuad i f).gated = s.gated := rfl
@[simp] theorem onQuad_tags (i : Nat) (f : Quad → Quad) : (s.onQuad i f).tags = s.tags := rfl
@[simp] theorem onQuad_groups (i : Nat) (f : Quad → Quad) : (s.onQuad i f).groups = s.groups := rfl
@[simp] theorem onQuad_xcache (i : Nat) (f : Quad → Quad) : (s.onQuad i f).xcache = s.xcache := rfl
@[simp] theorem onQuad_xruns (i : Nat) (f : Quad → Quad) : (s.onQuad i f).xruns = s.xruns := rfl
@[simp] theorem onQuad_msix (i : Nat) (f : Quad → Quad) : (s.onQuad i f).msix = s.msix := rfl
@[simp] theorem onQuad_alogs (i : Nat) (f : Quad → Quad) : (s.onQuad i f).alogs = s.alogs := rfl
@[simp] theorem onQuad_vlogs (i : Nat) (f : Quad → Quad) : (s.onQuad i f).vlogs = s.vlogs := rfl
@[simp] theorem onQuad_wordErr (i : Nat) (f : Quad → Quad) : (s.onQuad i f).wordErr = s.wordErr := rfl
@[simp] theorem onQuad_beats (i : Nat) (f : Quad → Quad) : (s.onQuad i f).beats = s.beats := rfl
@[simp] theorem onQuad_alarm (i : Nat) (f : Quad → Quad) : (s.onQuad i f).alarm = s.alarm := rfl
@[simp] theorem onQuad_steps (i : Nat) (f : Quad → Quad) : (s.onQuad i f).steps = s.steps := rfl
@[simp] theorem onQuad_stepAt (i : Nat) (f : Quad → Quad) : (s.onQuad i f).stepAt = s.stepAt := rfl
@[simp] theorem onQuad_hot (i : Nat) (f : Quad → Quad) : (s.onQuad i f).hot = s.hot := rfl
@[simp] theorem onQuad_tripped (i : Nat) (f : Quad → Quad) : (s.onQuad i f).tripped = s.tripped := rfl
@[simp] theorem onQuad_linkUp (i : Nat) (f : Quad → Quad) : (s.onQuad i f).linkUp = s.linkUp := rfl
@[simp] theorem onQuad_deadNodes (i : Nat) (f : Quad → Quad) : (s.onQuad i f).deadNodes = s.deadNodes := rfl

/-! ### onCluster -/

@[simp] theorem onCluster_agenda (i : Nat) (f : Cluster → Cluster) : (s.onCluster i f).agenda = s.agenda := rfl
@[simp] theorem onCluster_turn (i : Nat) (f : Cluster → Cluster) : (s.onCluster i f).turn = s.turn := rfl
@[simp] theorem onCluster_free (i : Nat) (f : Cluster → Cluster) : (s.onCluster i f).free = s.free := rfl
@[simp] theorem onCluster_iss (i : Nat) (f : Cluster → Cluster) : (s.onCluster i f).iss = s.iss := rfl
@[simp] theorem onCluster_nextId (i : Nat) (f : Cluster → Cluster) : (s.onCluster i f).nextId = s.nextId := rfl
@[simp] theorem onCluster_form (i : Nat) (f : Cluster → Cluster) : (s.onCluster i f).form = s.form := rfl
@[simp] theorem onCluster_stepping (i : Nat) (f : Cluster → Cluster) : (s.onCluster i f).stepping = s.stepping := rfl
@[simp] theorem onCluster_keyHash1 (i : Nat) (f : Cluster → Cluster) : (s.onCluster i f).keyHash1 = s.keyHash1 := rfl
@[simp] theorem onCluster_keyHash2 (i : Nat) (f : Cluster → Cluster) : (s.onCluster i f).keyHash2 = s.keyHash2 := rfl
@[simp] theorem onCluster_rollback (i : Nat) (f : Cluster → Cluster) : (s.onCluster i f).rollback = s.rollback := rfl
@[simp] theorem onCluster_devId (i : Nat) (f : Cluster → Cluster) : (s.onCluster i f).devId = s.devId := rfl
@[simp] theorem onCluster_bootst (i : Nat) (f : Cluster → Cluster) : (s.onCluster i f).bootst = s.bootst := rfl
@[simp] theorem onCluster_bootWin (i : Nat) (f : Cluster → Cluster) : (s.onCluster i f).bootWin = s.bootWin := rfl
@[simp] theorem onCluster_verifying (i : Nat) (f : Cluster → Cluster) : (s.onCluster i f).verifying = s.verifying := rfl
@[simp] theorem onCluster_bootHash (i : Nat) (f : Cluster → Cluster) : (s.onCluster i f).bootHash = s.bootHash := rfl
@[simp] theorem onCluster_svn (i : Nat) (f : Cluster → Cluster) : (s.onCluster i f).svn = s.svn := rfl
@[simp] theorem onCluster_flash (i : Nat) (f : Cluster → Cluster) : (s.onCluster i f).flash = s.flash := rfl
@[simp] theorem onCluster_retRec (i : Nat) (f : Cluster → Cluster) : (s.onCluster i f).retRec = s.retRec := rfl
@[simp] theorem onCluster_attNonce (i : Nat) (f : Cluster → Cluster) : (s.onCluster i f).attNonce = s.attNonce := rfl
@[simp] theorem onCluster_attGo (i : Nat) (f : Cluster → Cluster) : (s.onCluster i f).attGo = s.attGo := rfl
@[simp] theorem onCluster_attReport (i : Nat) (f : Cluster → Cluster) : (s.onCluster i f).attReport = s.attReport := rfl
@[simp] theorem onCluster_invctl (i : Nat) (f : Cluster → Cluster) : (s.onCluster i f).invctl = s.invctl := rfl
@[simp] theorem onCluster_pwrlim (i : Nat) (f : Cluster → Cluster) : (s.onCluster i f).pwrlim = s.pwrlim := rfl
@[simp] theorem onCluster_evbase (i : Nat) (f : Cluster → Cluster) : (s.onCluster i f).evbase = s.evbase := rfl
@[simp] theorem onCluster_evsize (i : Nat) (f : Cluster → Cluster) : (s.onCluster i f).evsize = s.evsize := rfl
@[simp] theorem onCluster_nodeid (i : Nat) (f : Cluster → Cluster) : (s.onCluster i f).nodeid = s.nodeid := rfl
@[simp] theorem onCluster_farCap (i : Nat) (f : Cluster → Cluster) : (s.onCluster i f).farCap = s.farCap := rfl
@[simp] theorem onCluster_ns (i : Nat) (f : Cluster → Cluster) : (s.onCluster i f).ns = s.ns := rfl
@[simp] theorem onCluster_window (i : Nat) (f : Cluster → Cluster) : (s.onCluster i f).window = s.window := rfl
@[simp] theorem onCluster_mem (i : Nat) (f : Cluster → Cluster) : (s.onCluster i f).mem = s.mem := rfl
@[simp] theorem onCluster_host (i : Nat) (f : Cluster → Cluster) : (s.onCluster i f).host = s.host := rfl
@[simp] theorem onCluster_remote (i : Nat) (f : Cluster → Cluster) : (s.onCluster i f).remote = s.remote := rfl
@[simp] theorem onCluster_badLines (i : Nat) (f : Cluster → Cluster) : (s.onCluster i f).badLines = s.badLines := rfl
@[simp] theorem onCluster_l2 (i : Nat) (f : Cluster → Cluster) : (s.onCluster i f).l2 = s.l2 := rfl
@[simp] theorem onCluster_depart (i : Nat) (f : Cluster → Cluster) : (s.onCluster i f).depart = s.depart := rfl
@[simp] theorem onCluster_slices (i : Nat) (f : Cluster → Cluster) : (s.onCluster i f).slices = s.slices := rfl
@[simp] theorem onCluster_sliceErr (i : Nat) (f : Cluster → Cluster) : (s.onCluster i f).sliceErr = s.sliceErr := rfl
@[simp] theorem onCluster_chanErr (i : Nat) (f : Cluster → Cluster) : (s.onCluster i f).chanErr = s.chanErr := rfl
@[simp] theorem onCluster_chanBad (i : Nat) (f : Cluster → Cluster) : (s.onCluster i f).chanBad = s.chanBad := rfl
@[simp] theorem onCluster_cores (i : Nat) (f : Cluster → Cluster) : (s.onCluster i f).cores = s.cores := rfl
@[simp] theorem onCluster_quads (i : Nat) (f : Cluster → Cluster) : (s.onCluster i f).quads = s.quads := rfl
@[simp] theorem onCluster_ctxs (i : Nat) (f : Cluster → Cluster) : (s.onCluster i f).ctxs = s.ctxs := rfl
@[simp] theorem onCluster_grids (i : Nat) (f : Cluster → Cluster) : (s.onCluster i f).grids = s.grids := rfl
@[simp] theorem onCluster_waits (i : Nat) (f : Cluster → Cluster) : (s.onCluster i f).waits = s.waits := rfl
@[simp] theorem onCluster_cgroups (i : Nat) (f : Cluster → Cluster) : (s.onCluster i f).cgroups = s.cgroups := rfl
@[simp] theorem onCluster_blocks (i : Nat) (f : Cluster → Cluster) : (s.onCluster i f).blocks = s.blocks := rfl
@[simp] theorem onCluster_warps (i : Nat) (f : Cluster → Cluster) : (s.onCluster i f).warps = s.warps := rfl
@[simp] theorem onCluster_net (i : Nat) (f : Cluster → Cluster) : (s.onCluster i f).net = s.net := rfl
@[simp] theorem onCluster_fetches (i : Nat) (f : Cluster → Cluster) : (s.onCluster i f).fetches = s.fetches := rfl
@[simp] theorem onCluster_pages (i : Nat) (f : Cluster → Cluster) : (s.onCluster i f).pages = s.pages := rfl
@[simp] theorem onCluster_copies (i : Nat) (f : Cluster → Cluster) : (s.onCluster i f).copies = s.copies := rfl
@[simp] theorem onCluster_defs (i : Nat) (f : Cluster → Cluster) : (s.onCluster i f).defs = s.defs := rfl
@[simp] theorem onCluster_readers (i : Nat) (f : Cluster → Cluster) : (s.onCluster i f).readers = s.readers := rfl
@[simp] theorem onCluster_mats (i : Nat) (f : Cluster → Cluster) : (s.onCluster i f).mats = s.mats := rfl
@[simp] theorem onCluster_fills (i : Nat) (f : Cluster → Cluster) : (s.onCluster i f).fills = s.fills := rfl
@[simp] theorem onCluster_redos (i : Nat) (f : Cluster → Cluster) : (s.onCluster i f).redos = s.redos := rfl
@[simp] theorem onCluster_pops (i : Nat) (f : Cluster → Cluster) : (s.onCluster i f).pops = s.pops := rfl
@[simp] theorem onCluster_cmds (i : Nat) (f : Cluster → Cluster) : (s.onCluster i f).cmds = s.cmds := rfl
@[simp] theorem onCluster_hq (i : Nat) (f : Cluster → Cluster) : (s.onCluster i f).hq = s.hq := rfl
@[simp] theorem onCluster_wq (i : Nat) (f : Cluster → Cluster) : (s.onCluster i f).wq = s.wq := rfl
@[simp] theorem onCluster_graphs (i : Nat) (f : Cluster → Cluster) : (s.onCluster i f).graphs = s.graphs := rfl
@[simp] theorem onCluster_nregs (i : Nat) (f : Cluster → Cluster) : (s.onCluster i f).nregs = s.nregs := rfl
@[simp] theorem onCluster_gated (i : Nat) (f : Cluster → Cluster) : (s.onCluster i f).gated = s.gated := rfl
@[simp] theorem onCluster_tags (i : Nat) (f : Cluster → Cluster) : (s.onCluster i f).tags = s.tags := rfl
@[simp] theorem onCluster_groups (i : Nat) (f : Cluster → Cluster) : (s.onCluster i f).groups = s.groups := rfl
@[simp] theorem onCluster_xcache (i : Nat) (f : Cluster → Cluster) : (s.onCluster i f).xcache = s.xcache := rfl
@[simp] theorem onCluster_xruns (i : Nat) (f : Cluster → Cluster) : (s.onCluster i f).xruns = s.xruns := rfl
@[simp] theorem onCluster_msix (i : Nat) (f : Cluster → Cluster) : (s.onCluster i f).msix = s.msix := rfl
@[simp] theorem onCluster_alogs (i : Nat) (f : Cluster → Cluster) : (s.onCluster i f).alogs = s.alogs := rfl
@[simp] theorem onCluster_vlogs (i : Nat) (f : Cluster → Cluster) : (s.onCluster i f).vlogs = s.vlogs := rfl
@[simp] theorem onCluster_wordErr (i : Nat) (f : Cluster → Cluster) : (s.onCluster i f).wordErr = s.wordErr := rfl
@[simp] theorem onCluster_beats (i : Nat) (f : Cluster → Cluster) : (s.onCluster i f).beats = s.beats := rfl
@[simp] theorem onCluster_alarm (i : Nat) (f : Cluster → Cluster) : (s.onCluster i f).alarm = s.alarm := rfl
@[simp] theorem onCluster_steps (i : Nat) (f : Cluster → Cluster) : (s.onCluster i f).steps = s.steps := rfl
@[simp] theorem onCluster_stepAt (i : Nat) (f : Cluster → Cluster) : (s.onCluster i f).stepAt = s.stepAt := rfl
@[simp] theorem onCluster_hot (i : Nat) (f : Cluster → Cluster) : (s.onCluster i f).hot = s.hot := rfl
@[simp] theorem onCluster_tripped (i : Nat) (f : Cluster → Cluster) : (s.onCluster i f).tripped = s.tripped := rfl
@[simp] theorem onCluster_linkUp (i : Nat) (f : Cluster → Cluster) : (s.onCluster i f).linkUp = s.linkUp := rfl
@[simp] theorem onCluster_deadNodes (i : Nat) (f : Cluster → Cluster) : (s.onCluster i f).deadNodes = s.deadNodes := rfl

/-! ### onGrp -/

@[simp] theorem onGrp_agenda (i : Nat) (f : Grp → Grp) : (s.onGrp i f).agenda = s.agenda := rfl
@[simp] theorem onGrp_turn (i : Nat) (f : Grp → Grp) : (s.onGrp i f).turn = s.turn := rfl
@[simp] theorem onGrp_free (i : Nat) (f : Grp → Grp) : (s.onGrp i f).free = s.free := rfl
@[simp] theorem onGrp_iss (i : Nat) (f : Grp → Grp) : (s.onGrp i f).iss = s.iss := rfl
@[simp] theorem onGrp_nextId (i : Nat) (f : Grp → Grp) : (s.onGrp i f).nextId = s.nextId := rfl
@[simp] theorem onGrp_form (i : Nat) (f : Grp → Grp) : (s.onGrp i f).form = s.form := rfl
@[simp] theorem onGrp_stepping (i : Nat) (f : Grp → Grp) : (s.onGrp i f).stepping = s.stepping := rfl
@[simp] theorem onGrp_keyHash1 (i : Nat) (f : Grp → Grp) : (s.onGrp i f).keyHash1 = s.keyHash1 := rfl
@[simp] theorem onGrp_keyHash2 (i : Nat) (f : Grp → Grp) : (s.onGrp i f).keyHash2 = s.keyHash2 := rfl
@[simp] theorem onGrp_rollback (i : Nat) (f : Grp → Grp) : (s.onGrp i f).rollback = s.rollback := rfl
@[simp] theorem onGrp_devId (i : Nat) (f : Grp → Grp) : (s.onGrp i f).devId = s.devId := rfl
@[simp] theorem onGrp_bootst (i : Nat) (f : Grp → Grp) : (s.onGrp i f).bootst = s.bootst := rfl
@[simp] theorem onGrp_bootWin (i : Nat) (f : Grp → Grp) : (s.onGrp i f).bootWin = s.bootWin := rfl
@[simp] theorem onGrp_verifying (i : Nat) (f : Grp → Grp) : (s.onGrp i f).verifying = s.verifying := rfl
@[simp] theorem onGrp_bootHash (i : Nat) (f : Grp → Grp) : (s.onGrp i f).bootHash = s.bootHash := rfl
@[simp] theorem onGrp_svn (i : Nat) (f : Grp → Grp) : (s.onGrp i f).svn = s.svn := rfl
@[simp] theorem onGrp_flash (i : Nat) (f : Grp → Grp) : (s.onGrp i f).flash = s.flash := rfl
@[simp] theorem onGrp_retRec (i : Nat) (f : Grp → Grp) : (s.onGrp i f).retRec = s.retRec := rfl
@[simp] theorem onGrp_attNonce (i : Nat) (f : Grp → Grp) : (s.onGrp i f).attNonce = s.attNonce := rfl
@[simp] theorem onGrp_attGo (i : Nat) (f : Grp → Grp) : (s.onGrp i f).attGo = s.attGo := rfl
@[simp] theorem onGrp_attReport (i : Nat) (f : Grp → Grp) : (s.onGrp i f).attReport = s.attReport := rfl
@[simp] theorem onGrp_invctl (i : Nat) (f : Grp → Grp) : (s.onGrp i f).invctl = s.invctl := rfl
@[simp] theorem onGrp_pwrlim (i : Nat) (f : Grp → Grp) : (s.onGrp i f).pwrlim = s.pwrlim := rfl
@[simp] theorem onGrp_evbase (i : Nat) (f : Grp → Grp) : (s.onGrp i f).evbase = s.evbase := rfl
@[simp] theorem onGrp_evsize (i : Nat) (f : Grp → Grp) : (s.onGrp i f).evsize = s.evsize := rfl
@[simp] theorem onGrp_nodeid (i : Nat) (f : Grp → Grp) : (s.onGrp i f).nodeid = s.nodeid := rfl
@[simp] theorem onGrp_farCap (i : Nat) (f : Grp → Grp) : (s.onGrp i f).farCap = s.farCap := rfl
@[simp] theorem onGrp_ns (i : Nat) (f : Grp → Grp) : (s.onGrp i f).ns = s.ns := rfl
@[simp] theorem onGrp_window (i : Nat) (f : Grp → Grp) : (s.onGrp i f).window = s.window := rfl
@[simp] theorem onGrp_mem (i : Nat) (f : Grp → Grp) : (s.onGrp i f).mem = s.mem := rfl
@[simp] theorem onGrp_host (i : Nat) (f : Grp → Grp) : (s.onGrp i f).host = s.host := rfl
@[simp] theorem onGrp_remote (i : Nat) (f : Grp → Grp) : (s.onGrp i f).remote = s.remote := rfl
@[simp] theorem onGrp_badLines (i : Nat) (f : Grp → Grp) : (s.onGrp i f).badLines = s.badLines := rfl
@[simp] theorem onGrp_l2 (i : Nat) (f : Grp → Grp) : (s.onGrp i f).l2 = s.l2 := rfl
@[simp] theorem onGrp_depart (i : Nat) (f : Grp → Grp) : (s.onGrp i f).depart = s.depart := rfl
@[simp] theorem onGrp_slices (i : Nat) (f : Grp → Grp) : (s.onGrp i f).slices = s.slices := rfl
@[simp] theorem onGrp_sliceErr (i : Nat) (f : Grp → Grp) : (s.onGrp i f).sliceErr = s.sliceErr := rfl
@[simp] theorem onGrp_chanErr (i : Nat) (f : Grp → Grp) : (s.onGrp i f).chanErr = s.chanErr := rfl
@[simp] theorem onGrp_chanBad (i : Nat) (f : Grp → Grp) : (s.onGrp i f).chanBad = s.chanBad := rfl
@[simp] theorem onGrp_cores (i : Nat) (f : Grp → Grp) : (s.onGrp i f).cores = s.cores := rfl
@[simp] theorem onGrp_quads (i : Nat) (f : Grp → Grp) : (s.onGrp i f).quads = s.quads := rfl
@[simp] theorem onGrp_clusters (i : Nat) (f : Grp → Grp) : (s.onGrp i f).clusters = s.clusters := rfl
@[simp] theorem onGrp_ctxs (i : Nat) (f : Grp → Grp) : (s.onGrp i f).ctxs = s.ctxs := rfl
@[simp] theorem onGrp_grids (i : Nat) (f : Grp → Grp) : (s.onGrp i f).grids = s.grids := rfl
@[simp] theorem onGrp_waits (i : Nat) (f : Grp → Grp) : (s.onGrp i f).waits = s.waits := rfl
@[simp] theorem onGrp_cgroups (i : Nat) (f : Grp → Grp) : (s.onGrp i f).cgroups = s.cgroups := rfl
@[simp] theorem onGrp_blocks (i : Nat) (f : Grp → Grp) : (s.onGrp i f).blocks = s.blocks := rfl
@[simp] theorem onGrp_warps (i : Nat) (f : Grp → Grp) : (s.onGrp i f).warps = s.warps := rfl
@[simp] theorem onGrp_net (i : Nat) (f : Grp → Grp) : (s.onGrp i f).net = s.net := rfl
@[simp] theorem onGrp_fetches (i : Nat) (f : Grp → Grp) : (s.onGrp i f).fetches = s.fetches := rfl
@[simp] theorem onGrp_pages (i : Nat) (f : Grp → Grp) : (s.onGrp i f).pages = s.pages := rfl
@[simp] theorem onGrp_copies (i : Nat) (f : Grp → Grp) : (s.onGrp i f).copies = s.copies := rfl
@[simp] theorem onGrp_defs (i : Nat) (f : Grp → Grp) : (s.onGrp i f).defs = s.defs := rfl
@[simp] theorem onGrp_readers (i : Nat) (f : Grp → Grp) : (s.onGrp i f).readers = s.readers := rfl
@[simp] theorem onGrp_mats (i : Nat) (f : Grp → Grp) : (s.onGrp i f).mats = s.mats := rfl
@[simp] theorem onGrp_fills (i : Nat) (f : Grp → Grp) : (s.onGrp i f).fills = s.fills := rfl
@[simp] theorem onGrp_redos (i : Nat) (f : Grp → Grp) : (s.onGrp i f).redos = s.redos := rfl
@[simp] theorem onGrp_pops (i : Nat) (f : Grp → Grp) : (s.onGrp i f).pops = s.pops := rfl
@[simp] theorem onGrp_cmds (i : Nat) (f : Grp → Grp) : (s.onGrp i f).cmds = s.cmds := rfl
@[simp] theorem onGrp_hq (i : Nat) (f : Grp → Grp) : (s.onGrp i f).hq = s.hq := rfl
@[simp] theorem onGrp_wq (i : Nat) (f : Grp → Grp) : (s.onGrp i f).wq = s.wq := rfl
@[simp] theorem onGrp_graphs (i : Nat) (f : Grp → Grp) : (s.onGrp i f).graphs = s.graphs := rfl
@[simp] theorem onGrp_nregs (i : Nat) (f : Grp → Grp) : (s.onGrp i f).nregs = s.nregs := rfl
@[simp] theorem onGrp_gated (i : Nat) (f : Grp → Grp) : (s.onGrp i f).gated = s.gated := rfl
@[simp] theorem onGrp_tags (i : Nat) (f : Grp → Grp) : (s.onGrp i f).tags = s.tags := rfl
@[simp] theorem onGrp_xcache (i : Nat) (f : Grp → Grp) : (s.onGrp i f).xcache = s.xcache := rfl
@[simp] theorem onGrp_xruns (i : Nat) (f : Grp → Grp) : (s.onGrp i f).xruns = s.xruns := rfl
@[simp] theorem onGrp_msix (i : Nat) (f : Grp → Grp) : (s.onGrp i f).msix = s.msix := rfl
@[simp] theorem onGrp_alogs (i : Nat) (f : Grp → Grp) : (s.onGrp i f).alogs = s.alogs := rfl
@[simp] theorem onGrp_vlogs (i : Nat) (f : Grp → Grp) : (s.onGrp i f).vlogs = s.vlogs := rfl
@[simp] theorem onGrp_wordErr (i : Nat) (f : Grp → Grp) : (s.onGrp i f).wordErr = s.wordErr := rfl
@[simp] theorem onGrp_beats (i : Nat) (f : Grp → Grp) : (s.onGrp i f).beats = s.beats := rfl
@[simp] theorem onGrp_alarm (i : Nat) (f : Grp → Grp) : (s.onGrp i f).alarm = s.alarm := rfl
@[simp] theorem onGrp_steps (i : Nat) (f : Grp → Grp) : (s.onGrp i f).steps = s.steps := rfl
@[simp] theorem onGrp_stepAt (i : Nat) (f : Grp → Grp) : (s.onGrp i f).stepAt = s.stepAt := rfl
@[simp] theorem onGrp_hot (i : Nat) (f : Grp → Grp) : (s.onGrp i f).hot = s.hot := rfl
@[simp] theorem onGrp_tripped (i : Nat) (f : Grp → Grp) : (s.onGrp i f).tripped = s.tripped := rfl
@[simp] theorem onGrp_linkUp (i : Nat) (f : Grp → Grp) : (s.onGrp i f).linkUp = s.linkUp := rfl
@[simp] theorem onGrp_deadNodes (i : Nat) (f : Grp → Grp) : (s.onGrp i f).deadNodes = s.deadNodes := rfl

/-! ### onHq -/

@[simp] theorem onHq_agenda (i : Nat) (f : HQueue → HQueue) : (s.onHq i f).agenda = s.agenda := rfl
@[simp] theorem onHq_turn (i : Nat) (f : HQueue → HQueue) : (s.onHq i f).turn = s.turn := rfl
@[simp] theorem onHq_free (i : Nat) (f : HQueue → HQueue) : (s.onHq i f).free = s.free := rfl
@[simp] theorem onHq_iss (i : Nat) (f : HQueue → HQueue) : (s.onHq i f).iss = s.iss := rfl
@[simp] theorem onHq_nextId (i : Nat) (f : HQueue → HQueue) : (s.onHq i f).nextId = s.nextId := rfl
@[simp] theorem onHq_form (i : Nat) (f : HQueue → HQueue) : (s.onHq i f).form = s.form := rfl
@[simp] theorem onHq_stepping (i : Nat) (f : HQueue → HQueue) : (s.onHq i f).stepping = s.stepping := rfl
@[simp] theorem onHq_keyHash1 (i : Nat) (f : HQueue → HQueue) : (s.onHq i f).keyHash1 = s.keyHash1 := rfl
@[simp] theorem onHq_keyHash2 (i : Nat) (f : HQueue → HQueue) : (s.onHq i f).keyHash2 = s.keyHash2 := rfl
@[simp] theorem onHq_rollback (i : Nat) (f : HQueue → HQueue) : (s.onHq i f).rollback = s.rollback := rfl
@[simp] theorem onHq_devId (i : Nat) (f : HQueue → HQueue) : (s.onHq i f).devId = s.devId := rfl
@[simp] theorem onHq_bootst (i : Nat) (f : HQueue → HQueue) : (s.onHq i f).bootst = s.bootst := rfl
@[simp] theorem onHq_bootWin (i : Nat) (f : HQueue → HQueue) : (s.onHq i f).bootWin = s.bootWin := rfl
@[simp] theorem onHq_verifying (i : Nat) (f : HQueue → HQueue) : (s.onHq i f).verifying = s.verifying := rfl
@[simp] theorem onHq_bootHash (i : Nat) (f : HQueue → HQueue) : (s.onHq i f).bootHash = s.bootHash := rfl
@[simp] theorem onHq_svn (i : Nat) (f : HQueue → HQueue) : (s.onHq i f).svn = s.svn := rfl
@[simp] theorem onHq_flash (i : Nat) (f : HQueue → HQueue) : (s.onHq i f).flash = s.flash := rfl
@[simp] theorem onHq_retRec (i : Nat) (f : HQueue → HQueue) : (s.onHq i f).retRec = s.retRec := rfl
@[simp] theorem onHq_attNonce (i : Nat) (f : HQueue → HQueue) : (s.onHq i f).attNonce = s.attNonce := rfl
@[simp] theorem onHq_attGo (i : Nat) (f : HQueue → HQueue) : (s.onHq i f).attGo = s.attGo := rfl
@[simp] theorem onHq_attReport (i : Nat) (f : HQueue → HQueue) : (s.onHq i f).attReport = s.attReport := rfl
@[simp] theorem onHq_invctl (i : Nat) (f : HQueue → HQueue) : (s.onHq i f).invctl = s.invctl := rfl
@[simp] theorem onHq_pwrlim (i : Nat) (f : HQueue → HQueue) : (s.onHq i f).pwrlim = s.pwrlim := rfl
@[simp] theorem onHq_evbase (i : Nat) (f : HQueue → HQueue) : (s.onHq i f).evbase = s.evbase := rfl
@[simp] theorem onHq_evsize (i : Nat) (f : HQueue → HQueue) : (s.onHq i f).evsize = s.evsize := rfl
@[simp] theorem onHq_nodeid (i : Nat) (f : HQueue → HQueue) : (s.onHq i f).nodeid = s.nodeid := rfl
@[simp] theorem onHq_farCap (i : Nat) (f : HQueue → HQueue) : (s.onHq i f).farCap = s.farCap := rfl
@[simp] theorem onHq_ns (i : Nat) (f : HQueue → HQueue) : (s.onHq i f).ns = s.ns := rfl
@[simp] theorem onHq_window (i : Nat) (f : HQueue → HQueue) : (s.onHq i f).window = s.window := rfl
@[simp] theorem onHq_mem (i : Nat) (f : HQueue → HQueue) : (s.onHq i f).mem = s.mem := rfl
@[simp] theorem onHq_host (i : Nat) (f : HQueue → HQueue) : (s.onHq i f).host = s.host := rfl
@[simp] theorem onHq_remote (i : Nat) (f : HQueue → HQueue) : (s.onHq i f).remote = s.remote := rfl
@[simp] theorem onHq_badLines (i : Nat) (f : HQueue → HQueue) : (s.onHq i f).badLines = s.badLines := rfl
@[simp] theorem onHq_l2 (i : Nat) (f : HQueue → HQueue) : (s.onHq i f).l2 = s.l2 := rfl
@[simp] theorem onHq_depart (i : Nat) (f : HQueue → HQueue) : (s.onHq i f).depart = s.depart := rfl
@[simp] theorem onHq_slices (i : Nat) (f : HQueue → HQueue) : (s.onHq i f).slices = s.slices := rfl
@[simp] theorem onHq_sliceErr (i : Nat) (f : HQueue → HQueue) : (s.onHq i f).sliceErr = s.sliceErr := rfl
@[simp] theorem onHq_chanErr (i : Nat) (f : HQueue → HQueue) : (s.onHq i f).chanErr = s.chanErr := rfl
@[simp] theorem onHq_chanBad (i : Nat) (f : HQueue → HQueue) : (s.onHq i f).chanBad = s.chanBad := rfl
@[simp] theorem onHq_cores (i : Nat) (f : HQueue → HQueue) : (s.onHq i f).cores = s.cores := rfl
@[simp] theorem onHq_quads (i : Nat) (f : HQueue → HQueue) : (s.onHq i f).quads = s.quads := rfl
@[simp] theorem onHq_clusters (i : Nat) (f : HQueue → HQueue) : (s.onHq i f).clusters = s.clusters := rfl
@[simp] theorem onHq_ctxs (i : Nat) (f : HQueue → HQueue) : (s.onHq i f).ctxs = s.ctxs := rfl
@[simp] theorem onHq_grids (i : Nat) (f : HQueue → HQueue) : (s.onHq i f).grids = s.grids := rfl
@[simp] theorem onHq_waits (i : Nat) (f : HQueue → HQueue) : (s.onHq i f).waits = s.waits := rfl
@[simp] theorem onHq_cgroups (i : Nat) (f : HQueue → HQueue) : (s.onHq i f).cgroups = s.cgroups := rfl
@[simp] theorem onHq_blocks (i : Nat) (f : HQueue → HQueue) : (s.onHq i f).blocks = s.blocks := rfl
@[simp] theorem onHq_warps (i : Nat) (f : HQueue → HQueue) : (s.onHq i f).warps = s.warps := rfl
@[simp] theorem onHq_net (i : Nat) (f : HQueue → HQueue) : (s.onHq i f).net = s.net := rfl
@[simp] theorem onHq_fetches (i : Nat) (f : HQueue → HQueue) : (s.onHq i f).fetches = s.fetches := rfl
@[simp] theorem onHq_pages (i : Nat) (f : HQueue → HQueue) : (s.onHq i f).pages = s.pages := rfl
@[simp] theorem onHq_copies (i : Nat) (f : HQueue → HQueue) : (s.onHq i f).copies = s.copies := rfl
@[simp] theorem onHq_defs (i : Nat) (f : HQueue → HQueue) : (s.onHq i f).defs = s.defs := rfl
@[simp] theorem onHq_readers (i : Nat) (f : HQueue → HQueue) : (s.onHq i f).readers = s.readers := rfl
@[simp] theorem onHq_mats (i : Nat) (f : HQueue → HQueue) : (s.onHq i f).mats = s.mats := rfl
@[simp] theorem onHq_fills (i : Nat) (f : HQueue → HQueue) : (s.onHq i f).fills = s.fills := rfl
@[simp] theorem onHq_redos (i : Nat) (f : HQueue → HQueue) : (s.onHq i f).redos = s.redos := rfl
@[simp] theorem onHq_pops (i : Nat) (f : HQueue → HQueue) : (s.onHq i f).pops = s.pops := rfl
@[simp] theorem onHq_cmds (i : Nat) (f : HQueue → HQueue) : (s.onHq i f).cmds = s.cmds := rfl
@[simp] theorem onHq_wq (i : Nat) (f : HQueue → HQueue) : (s.onHq i f).wq = s.wq := rfl
@[simp] theorem onHq_graphs (i : Nat) (f : HQueue → HQueue) : (s.onHq i f).graphs = s.graphs := rfl
@[simp] theorem onHq_nregs (i : Nat) (f : HQueue → HQueue) : (s.onHq i f).nregs = s.nregs := rfl
@[simp] theorem onHq_gated (i : Nat) (f : HQueue → HQueue) : (s.onHq i f).gated = s.gated := rfl
@[simp] theorem onHq_tags (i : Nat) (f : HQueue → HQueue) : (s.onHq i f).tags = s.tags := rfl
@[simp] theorem onHq_groups (i : Nat) (f : HQueue → HQueue) : (s.onHq i f).groups = s.groups := rfl
@[simp] theorem onHq_xcache (i : Nat) (f : HQueue → HQueue) : (s.onHq i f).xcache = s.xcache := rfl
@[simp] theorem onHq_xruns (i : Nat) (f : HQueue → HQueue) : (s.onHq i f).xruns = s.xruns := rfl
@[simp] theorem onHq_msix (i : Nat) (f : HQueue → HQueue) : (s.onHq i f).msix = s.msix := rfl
@[simp] theorem onHq_alogs (i : Nat) (f : HQueue → HQueue) : (s.onHq i f).alogs = s.alogs := rfl
@[simp] theorem onHq_vlogs (i : Nat) (f : HQueue → HQueue) : (s.onHq i f).vlogs = s.vlogs := rfl
@[simp] theorem onHq_wordErr (i : Nat) (f : HQueue → HQueue) : (s.onHq i f).wordErr = s.wordErr := rfl
@[simp] theorem onHq_beats (i : Nat) (f : HQueue → HQueue) : (s.onHq i f).beats = s.beats := rfl
@[simp] theorem onHq_alarm (i : Nat) (f : HQueue → HQueue) : (s.onHq i f).alarm = s.alarm := rfl
@[simp] theorem onHq_steps (i : Nat) (f : HQueue → HQueue) : (s.onHq i f).steps = s.steps := rfl
@[simp] theorem onHq_stepAt (i : Nat) (f : HQueue → HQueue) : (s.onHq i f).stepAt = s.stepAt := rfl
@[simp] theorem onHq_hot (i : Nat) (f : HQueue → HQueue) : (s.onHq i f).hot = s.hot := rfl
@[simp] theorem onHq_tripped (i : Nat) (f : HQueue → HQueue) : (s.onHq i f).tripped = s.tripped := rfl
@[simp] theorem onHq_linkUp (i : Nat) (f : HQueue → HQueue) : (s.onHq i f).linkUp = s.linkUp := rfl
@[simp] theorem onHq_deadNodes (i : Nat) (f : HQueue → HQueue) : (s.onHq i f).deadNodes = s.deadNodes := rfl

/-! ### onWq -/

@[simp] theorem onWq_agenda (i : Nat) (f : WQueue → WQueue) : (s.onWq i f).agenda = s.agenda := rfl
@[simp] theorem onWq_turn (i : Nat) (f : WQueue → WQueue) : (s.onWq i f).turn = s.turn := rfl
@[simp] theorem onWq_free (i : Nat) (f : WQueue → WQueue) : (s.onWq i f).free = s.free := rfl
@[simp] theorem onWq_iss (i : Nat) (f : WQueue → WQueue) : (s.onWq i f).iss = s.iss := rfl
@[simp] theorem onWq_nextId (i : Nat) (f : WQueue → WQueue) : (s.onWq i f).nextId = s.nextId := rfl
@[simp] theorem onWq_form (i : Nat) (f : WQueue → WQueue) : (s.onWq i f).form = s.form := rfl
@[simp] theorem onWq_stepping (i : Nat) (f : WQueue → WQueue) : (s.onWq i f).stepping = s.stepping := rfl
@[simp] theorem onWq_keyHash1 (i : Nat) (f : WQueue → WQueue) : (s.onWq i f).keyHash1 = s.keyHash1 := rfl
@[simp] theorem onWq_keyHash2 (i : Nat) (f : WQueue → WQueue) : (s.onWq i f).keyHash2 = s.keyHash2 := rfl
@[simp] theorem onWq_rollback (i : Nat) (f : WQueue → WQueue) : (s.onWq i f).rollback = s.rollback := rfl
@[simp] theorem onWq_devId (i : Nat) (f : WQueue → WQueue) : (s.onWq i f).devId = s.devId := rfl
@[simp] theorem onWq_bootst (i : Nat) (f : WQueue → WQueue) : (s.onWq i f).bootst = s.bootst := rfl
@[simp] theorem onWq_bootWin (i : Nat) (f : WQueue → WQueue) : (s.onWq i f).bootWin = s.bootWin := rfl
@[simp] theorem onWq_verifying (i : Nat) (f : WQueue → WQueue) : (s.onWq i f).verifying = s.verifying := rfl
@[simp] theorem onWq_bootHash (i : Nat) (f : WQueue → WQueue) : (s.onWq i f).bootHash = s.bootHash := rfl
@[simp] theorem onWq_svn (i : Nat) (f : WQueue → WQueue) : (s.onWq i f).svn = s.svn := rfl
@[simp] theorem onWq_flash (i : Nat) (f : WQueue → WQueue) : (s.onWq i f).flash = s.flash := rfl
@[simp] theorem onWq_retRec (i : Nat) (f : WQueue → WQueue) : (s.onWq i f).retRec = s.retRec := rfl
@[simp] theorem onWq_attNonce (i : Nat) (f : WQueue → WQueue) : (s.onWq i f).attNonce = s.attNonce := rfl
@[simp] theorem onWq_attGo (i : Nat) (f : WQueue → WQueue) : (s.onWq i f).attGo = s.attGo := rfl
@[simp] theorem onWq_attReport (i : Nat) (f : WQueue → WQueue) : (s.onWq i f).attReport = s.attReport := rfl
@[simp] theorem onWq_invctl (i : Nat) (f : WQueue → WQueue) : (s.onWq i f).invctl = s.invctl := rfl
@[simp] theorem onWq_pwrlim (i : Nat) (f : WQueue → WQueue) : (s.onWq i f).pwrlim = s.pwrlim := rfl
@[simp] theorem onWq_evbase (i : Nat) (f : WQueue → WQueue) : (s.onWq i f).evbase = s.evbase := rfl
@[simp] theorem onWq_evsize (i : Nat) (f : WQueue → WQueue) : (s.onWq i f).evsize = s.evsize := rfl
@[simp] theorem onWq_nodeid (i : Nat) (f : WQueue → WQueue) : (s.onWq i f).nodeid = s.nodeid := rfl
@[simp] theorem onWq_farCap (i : Nat) (f : WQueue → WQueue) : (s.onWq i f).farCap = s.farCap := rfl
@[simp] theorem onWq_ns (i : Nat) (f : WQueue → WQueue) : (s.onWq i f).ns = s.ns := rfl
@[simp] theorem onWq_window (i : Nat) (f : WQueue → WQueue) : (s.onWq i f).window = s.window := rfl
@[simp] theorem onWq_mem (i : Nat) (f : WQueue → WQueue) : (s.onWq i f).mem = s.mem := rfl
@[simp] theorem onWq_host (i : Nat) (f : WQueue → WQueue) : (s.onWq i f).host = s.host := rfl
@[simp] theorem onWq_remote (i : Nat) (f : WQueue → WQueue) : (s.onWq i f).remote = s.remote := rfl
@[simp] theorem onWq_badLines (i : Nat) (f : WQueue → WQueue) : (s.onWq i f).badLines = s.badLines := rfl
@[simp] theorem onWq_l2 (i : Nat) (f : WQueue → WQueue) : (s.onWq i f).l2 = s.l2 := rfl
@[simp] theorem onWq_depart (i : Nat) (f : WQueue → WQueue) : (s.onWq i f).depart = s.depart := rfl
@[simp] theorem onWq_slices (i : Nat) (f : WQueue → WQueue) : (s.onWq i f).slices = s.slices := rfl
@[simp] theorem onWq_sliceErr (i : Nat) (f : WQueue → WQueue) : (s.onWq i f).sliceErr = s.sliceErr := rfl
@[simp] theorem onWq_chanErr (i : Nat) (f : WQueue → WQueue) : (s.onWq i f).chanErr = s.chanErr := rfl
@[simp] theorem onWq_chanBad (i : Nat) (f : WQueue → WQueue) : (s.onWq i f).chanBad = s.chanBad := rfl
@[simp] theorem onWq_cores (i : Nat) (f : WQueue → WQueue) : (s.onWq i f).cores = s.cores := rfl
@[simp] theorem onWq_quads (i : Nat) (f : WQueue → WQueue) : (s.onWq i f).quads = s.quads := rfl
@[simp] theorem onWq_clusters (i : Nat) (f : WQueue → WQueue) : (s.onWq i f).clusters = s.clusters := rfl
@[simp] theorem onWq_ctxs (i : Nat) (f : WQueue → WQueue) : (s.onWq i f).ctxs = s.ctxs := rfl
@[simp] theorem onWq_grids (i : Nat) (f : WQueue → WQueue) : (s.onWq i f).grids = s.grids := rfl
@[simp] theorem onWq_waits (i : Nat) (f : WQueue → WQueue) : (s.onWq i f).waits = s.waits := rfl
@[simp] theorem onWq_cgroups (i : Nat) (f : WQueue → WQueue) : (s.onWq i f).cgroups = s.cgroups := rfl
@[simp] theorem onWq_blocks (i : Nat) (f : WQueue → WQueue) : (s.onWq i f).blocks = s.blocks := rfl
@[simp] theorem onWq_warps (i : Nat) (f : WQueue → WQueue) : (s.onWq i f).warps = s.warps := rfl
@[simp] theorem onWq_net (i : Nat) (f : WQueue → WQueue) : (s.onWq i f).net = s.net := rfl
@[simp] theorem onWq_fetches (i : Nat) (f : WQueue → WQueue) : (s.onWq i f).fetches = s.fetches := rfl
@[simp] theorem onWq_pages (i : Nat) (f : WQueue → WQueue) : (s.onWq i f).pages = s.pages := rfl
@[simp] theorem onWq_copies (i : Nat) (f : WQueue → WQueue) : (s.onWq i f).copies = s.copies := rfl
@[simp] theorem onWq_defs (i : Nat) (f : WQueue → WQueue) : (s.onWq i f).defs = s.defs := rfl
@[simp] theorem onWq_readers (i : Nat) (f : WQueue → WQueue) : (s.onWq i f).readers = s.readers := rfl
@[simp] theorem onWq_mats (i : Nat) (f : WQueue → WQueue) : (s.onWq i f).mats = s.mats := rfl
@[simp] theorem onWq_fills (i : Nat) (f : WQueue → WQueue) : (s.onWq i f).fills = s.fills := rfl
@[simp] theorem onWq_redos (i : Nat) (f : WQueue → WQueue) : (s.onWq i f).redos = s.redos := rfl
@[simp] theorem onWq_pops (i : Nat) (f : WQueue → WQueue) : (s.onWq i f).pops = s.pops := rfl
@[simp] theorem onWq_cmds (i : Nat) (f : WQueue → WQueue) : (s.onWq i f).cmds = s.cmds := rfl
@[simp] theorem onWq_hq (i : Nat) (f : WQueue → WQueue) : (s.onWq i f).hq = s.hq := rfl
@[simp] theorem onWq_graphs (i : Nat) (f : WQueue → WQueue) : (s.onWq i f).graphs = s.graphs := rfl
@[simp] theorem onWq_nregs (i : Nat) (f : WQueue → WQueue) : (s.onWq i f).nregs = s.nregs := rfl
@[simp] theorem onWq_gated (i : Nat) (f : WQueue → WQueue) : (s.onWq i f).gated = s.gated := rfl
@[simp] theorem onWq_tags (i : Nat) (f : WQueue → WQueue) : (s.onWq i f).tags = s.tags := rfl
@[simp] theorem onWq_groups (i : Nat) (f : WQueue → WQueue) : (s.onWq i f).groups = s.groups := rfl
@[simp] theorem onWq_xcache (i : Nat) (f : WQueue → WQueue) : (s.onWq i f).xcache = s.xcache := rfl
@[simp] theorem onWq_xruns (i : Nat) (f : WQueue → WQueue) : (s.onWq i f).xruns = s.xruns := rfl
@[simp] theorem onWq_msix (i : Nat) (f : WQueue → WQueue) : (s.onWq i f).msix = s.msix := rfl
@[simp] theorem onWq_alogs (i : Nat) (f : WQueue → WQueue) : (s.onWq i f).alogs = s.alogs := rfl
@[simp] theorem onWq_vlogs (i : Nat) (f : WQueue → WQueue) : (s.onWq i f).vlogs = s.vlogs := rfl
@[simp] theorem onWq_wordErr (i : Nat) (f : WQueue → WQueue) : (s.onWq i f).wordErr = s.wordErr := rfl
@[simp] theorem onWq_beats (i : Nat) (f : WQueue → WQueue) : (s.onWq i f).beats = s.beats := rfl
@[simp] theorem onWq_alarm (i : Nat) (f : WQueue → WQueue) : (s.onWq i f).alarm = s.alarm := rfl
@[simp] theorem onWq_steps (i : Nat) (f : WQueue → WQueue) : (s.onWq i f).steps = s.steps := rfl
@[simp] theorem onWq_stepAt (i : Nat) (f : WQueue → WQueue) : (s.onWq i f).stepAt = s.stepAt := rfl
@[simp] theorem onWq_hot (i : Nat) (f : WQueue → WQueue) : (s.onWq i f).hot = s.hot := rfl
@[simp] theorem onWq_tripped (i : Nat) (f : WQueue → WQueue) : (s.onWq i f).tripped = s.tripped := rfl
@[simp] theorem onWq_linkUp (i : Nat) (f : WQueue → WQueue) : (s.onWq i f).linkUp = s.linkUp := rfl
@[simp] theorem onWq_deadNodes (i : Nat) (f : WQueue → WQueue) : (s.onWq i f).deadNodes = s.deadNodes := rfl

/-! ### onGraph -/

@[simp] theorem onGraph_agenda (i : Nat) (f : Graph → Graph) : (s.onGraph i f).agenda = s.agenda := rfl
@[simp] theorem onGraph_turn (i : Nat) (f : Graph → Graph) : (s.onGraph i f).turn = s.turn := rfl
@[simp] theorem onGraph_free (i : Nat) (f : Graph → Graph) : (s.onGraph i f).free = s.free := rfl
@[simp] theorem onGraph_iss (i : Nat) (f : Graph → Graph) : (s.onGraph i f).iss = s.iss := rfl
@[simp] theorem onGraph_nextId (i : Nat) (f : Graph → Graph) : (s.onGraph i f).nextId = s.nextId := rfl
@[simp] theorem onGraph_form (i : Nat) (f : Graph → Graph) : (s.onGraph i f).form = s.form := rfl
@[simp] theorem onGraph_stepping (i : Nat) (f : Graph → Graph) : (s.onGraph i f).stepping = s.stepping := rfl
@[simp] theorem onGraph_keyHash1 (i : Nat) (f : Graph → Graph) : (s.onGraph i f).keyHash1 = s.keyHash1 := rfl
@[simp] theorem onGraph_keyHash2 (i : Nat) (f : Graph → Graph) : (s.onGraph i f).keyHash2 = s.keyHash2 := rfl
@[simp] theorem onGraph_rollback (i : Nat) (f : Graph → Graph) : (s.onGraph i f).rollback = s.rollback := rfl
@[simp] theorem onGraph_devId (i : Nat) (f : Graph → Graph) : (s.onGraph i f).devId = s.devId := rfl
@[simp] theorem onGraph_bootst (i : Nat) (f : Graph → Graph) : (s.onGraph i f).bootst = s.bootst := rfl
@[simp] theorem onGraph_bootWin (i : Nat) (f : Graph → Graph) : (s.onGraph i f).bootWin = s.bootWin := rfl
@[simp] theorem onGraph_verifying (i : Nat) (f : Graph → Graph) : (s.onGraph i f).verifying = s.verifying := rfl
@[simp] theorem onGraph_bootHash (i : Nat) (f : Graph → Graph) : (s.onGraph i f).bootHash = s.bootHash := rfl
@[simp] theorem onGraph_svn (i : Nat) (f : Graph → Graph) : (s.onGraph i f).svn = s.svn := rfl
@[simp] theorem onGraph_flash (i : Nat) (f : Graph → Graph) : (s.onGraph i f).flash = s.flash := rfl
@[simp] theorem onGraph_retRec (i : Nat) (f : Graph → Graph) : (s.onGraph i f).retRec = s.retRec := rfl
@[simp] theorem onGraph_attNonce (i : Nat) (f : Graph → Graph) : (s.onGraph i f).attNonce = s.attNonce := rfl
@[simp] theorem onGraph_attGo (i : Nat) (f : Graph → Graph) : (s.onGraph i f).attGo = s.attGo := rfl
@[simp] theorem onGraph_attReport (i : Nat) (f : Graph → Graph) : (s.onGraph i f).attReport = s.attReport := rfl
@[simp] theorem onGraph_invctl (i : Nat) (f : Graph → Graph) : (s.onGraph i f).invctl = s.invctl := rfl
@[simp] theorem onGraph_pwrlim (i : Nat) (f : Graph → Graph) : (s.onGraph i f).pwrlim = s.pwrlim := rfl
@[simp] theorem onGraph_evbase (i : Nat) (f : Graph → Graph) : (s.onGraph i f).evbase = s.evbase := rfl
@[simp] theorem onGraph_evsize (i : Nat) (f : Graph → Graph) : (s.onGraph i f).evsize = s.evsize := rfl
@[simp] theorem onGraph_nodeid (i : Nat) (f : Graph → Graph) : (s.onGraph i f).nodeid = s.nodeid := rfl
@[simp] theorem onGraph_farCap (i : Nat) (f : Graph → Graph) : (s.onGraph i f).farCap = s.farCap := rfl
@[simp] theorem onGraph_ns (i : Nat) (f : Graph → Graph) : (s.onGraph i f).ns = s.ns := rfl
@[simp] theorem onGraph_window (i : Nat) (f : Graph → Graph) : (s.onGraph i f).window = s.window := rfl
@[simp] theorem onGraph_mem (i : Nat) (f : Graph → Graph) : (s.onGraph i f).mem = s.mem := rfl
@[simp] theorem onGraph_host (i : Nat) (f : Graph → Graph) : (s.onGraph i f).host = s.host := rfl
@[simp] theorem onGraph_remote (i : Nat) (f : Graph → Graph) : (s.onGraph i f).remote = s.remote := rfl
@[simp] theorem onGraph_badLines (i : Nat) (f : Graph → Graph) : (s.onGraph i f).badLines = s.badLines := rfl
@[simp] theorem onGraph_l2 (i : Nat) (f : Graph → Graph) : (s.onGraph i f).l2 = s.l2 := rfl
@[simp] theorem onGraph_depart (i : Nat) (f : Graph → Graph) : (s.onGraph i f).depart = s.depart := rfl
@[simp] theorem onGraph_slices (i : Nat) (f : Graph → Graph) : (s.onGraph i f).slices = s.slices := rfl
@[simp] theorem onGraph_sliceErr (i : Nat) (f : Graph → Graph) : (s.onGraph i f).sliceErr = s.sliceErr := rfl
@[simp] theorem onGraph_chanErr (i : Nat) (f : Graph → Graph) : (s.onGraph i f).chanErr = s.chanErr := rfl
@[simp] theorem onGraph_chanBad (i : Nat) (f : Graph → Graph) : (s.onGraph i f).chanBad = s.chanBad := rfl
@[simp] theorem onGraph_cores (i : Nat) (f : Graph → Graph) : (s.onGraph i f).cores = s.cores := rfl
@[simp] theorem onGraph_quads (i : Nat) (f : Graph → Graph) : (s.onGraph i f).quads = s.quads := rfl
@[simp] theorem onGraph_clusters (i : Nat) (f : Graph → Graph) : (s.onGraph i f).clusters = s.clusters := rfl
@[simp] theorem onGraph_ctxs (i : Nat) (f : Graph → Graph) : (s.onGraph i f).ctxs = s.ctxs := rfl
@[simp] theorem onGraph_grids (i : Nat) (f : Graph → Graph) : (s.onGraph i f).grids = s.grids := rfl
@[simp] theorem onGraph_waits (i : Nat) (f : Graph → Graph) : (s.onGraph i f).waits = s.waits := rfl
@[simp] theorem onGraph_cgroups (i : Nat) (f : Graph → Graph) : (s.onGraph i f).cgroups = s.cgroups := rfl
@[simp] theorem onGraph_blocks (i : Nat) (f : Graph → Graph) : (s.onGraph i f).blocks = s.blocks := rfl
@[simp] theorem onGraph_warps (i : Nat) (f : Graph → Graph) : (s.onGraph i f).warps = s.warps := rfl
@[simp] theorem onGraph_net (i : Nat) (f : Graph → Graph) : (s.onGraph i f).net = s.net := rfl
@[simp] theorem onGraph_fetches (i : Nat) (f : Graph → Graph) : (s.onGraph i f).fetches = s.fetches := rfl
@[simp] theorem onGraph_pages (i : Nat) (f : Graph → Graph) : (s.onGraph i f).pages = s.pages := rfl
@[simp] theorem onGraph_copies (i : Nat) (f : Graph → Graph) : (s.onGraph i f).copies = s.copies := rfl
@[simp] theorem onGraph_defs (i : Nat) (f : Graph → Graph) : (s.onGraph i f).defs = s.defs := rfl
@[simp] theorem onGraph_readers (i : Nat) (f : Graph → Graph) : (s.onGraph i f).readers = s.readers := rfl
@[simp] theorem onGraph_mats (i : Nat) (f : Graph → Graph) : (s.onGraph i f).mats = s.mats := rfl
@[simp] theorem onGraph_fills (i : Nat) (f : Graph → Graph) : (s.onGraph i f).fills = s.fills := rfl
@[simp] theorem onGraph_redos (i : Nat) (f : Graph → Graph) : (s.onGraph i f).redos = s.redos := rfl
@[simp] theorem onGraph_pops (i : Nat) (f : Graph → Graph) : (s.onGraph i f).pops = s.pops := rfl
@[simp] theorem onGraph_cmds (i : Nat) (f : Graph → Graph) : (s.onGraph i f).cmds = s.cmds := rfl
@[simp] theorem onGraph_hq (i : Nat) (f : Graph → Graph) : (s.onGraph i f).hq = s.hq := rfl
@[simp] theorem onGraph_wq (i : Nat) (f : Graph → Graph) : (s.onGraph i f).wq = s.wq := rfl
@[simp] theorem onGraph_nregs (i : Nat) (f : Graph → Graph) : (s.onGraph i f).nregs = s.nregs := rfl
@[simp] theorem onGraph_gated (i : Nat) (f : Graph → Graph) : (s.onGraph i f).gated = s.gated := rfl
@[simp] theorem onGraph_tags (i : Nat) (f : Graph → Graph) : (s.onGraph i f).tags = s.tags := rfl
@[simp] theorem onGraph_groups (i : Nat) (f : Graph → Graph) : (s.onGraph i f).groups = s.groups := rfl
@[simp] theorem onGraph_xcache (i : Nat) (f : Graph → Graph) : (s.onGraph i f).xcache = s.xcache := rfl
@[simp] theorem onGraph_xruns (i : Nat) (f : Graph → Graph) : (s.onGraph i f).xruns = s.xruns := rfl
@[simp] theorem onGraph_msix (i : Nat) (f : Graph → Graph) : (s.onGraph i f).msix = s.msix := rfl
@[simp] theorem onGraph_alogs (i : Nat) (f : Graph → Graph) : (s.onGraph i f).alogs = s.alogs := rfl
@[simp] theorem onGraph_vlogs (i : Nat) (f : Graph → Graph) : (s.onGraph i f).vlogs = s.vlogs := rfl
@[simp] theorem onGraph_wordErr (i : Nat) (f : Graph → Graph) : (s.onGraph i f).wordErr = s.wordErr := rfl
@[simp] theorem onGraph_beats (i : Nat) (f : Graph → Graph) : (s.onGraph i f).beats = s.beats := rfl
@[simp] theorem onGraph_alarm (i : Nat) (f : Graph → Graph) : (s.onGraph i f).alarm = s.alarm := rfl
@[simp] theorem onGraph_steps (i : Nat) (f : Graph → Graph) : (s.onGraph i f).steps = s.steps := rfl
@[simp] theorem onGraph_stepAt (i : Nat) (f : Graph → Graph) : (s.onGraph i f).stepAt = s.stepAt := rfl
@[simp] theorem onGraph_hot (i : Nat) (f : Graph → Graph) : (s.onGraph i f).hot = s.hot := rfl
@[simp] theorem onGraph_tripped (i : Nat) (f : Graph → Graph) : (s.onGraph i f).tripped = s.tripped := rfl
@[simp] theorem onGraph_linkUp (i : Nat) (f : Graph → Graph) : (s.onGraph i f).linkUp = s.linkUp := rfl
@[simp] theorem onGraph_deadNodes (i : Nat) (f : Graph → Graph) : (s.onGraph i f).deadNodes = s.deadNodes := rfl

/-! ### onNreg -/

@[simp] theorem onNreg_agenda (i : Nat) (f : NReg → NReg) : (s.onNreg i f).agenda = s.agenda := rfl
@[simp] theorem onNreg_turn (i : Nat) (f : NReg → NReg) : (s.onNreg i f).turn = s.turn := rfl
@[simp] theorem onNreg_free (i : Nat) (f : NReg → NReg) : (s.onNreg i f).free = s.free := rfl
@[simp] theorem onNreg_iss (i : Nat) (f : NReg → NReg) : (s.onNreg i f).iss = s.iss := rfl
@[simp] theorem onNreg_nextId (i : Nat) (f : NReg → NReg) : (s.onNreg i f).nextId = s.nextId := rfl
@[simp] theorem onNreg_form (i : Nat) (f : NReg → NReg) : (s.onNreg i f).form = s.form := rfl
@[simp] theorem onNreg_stepping (i : Nat) (f : NReg → NReg) : (s.onNreg i f).stepping = s.stepping := rfl
@[simp] theorem onNreg_keyHash1 (i : Nat) (f : NReg → NReg) : (s.onNreg i f).keyHash1 = s.keyHash1 := rfl
@[simp] theorem onNreg_keyHash2 (i : Nat) (f : NReg → NReg) : (s.onNreg i f).keyHash2 = s.keyHash2 := rfl
@[simp] theorem onNreg_rollback (i : Nat) (f : NReg → NReg) : (s.onNreg i f).rollback = s.rollback := rfl
@[simp] theorem onNreg_devId (i : Nat) (f : NReg → NReg) : (s.onNreg i f).devId = s.devId := rfl
@[simp] theorem onNreg_bootst (i : Nat) (f : NReg → NReg) : (s.onNreg i f).bootst = s.bootst := rfl
@[simp] theorem onNreg_bootWin (i : Nat) (f : NReg → NReg) : (s.onNreg i f).bootWin = s.bootWin := rfl
@[simp] theorem onNreg_verifying (i : Nat) (f : NReg → NReg) : (s.onNreg i f).verifying = s.verifying := rfl
@[simp] theorem onNreg_bootHash (i : Nat) (f : NReg → NReg) : (s.onNreg i f).bootHash = s.bootHash := rfl
@[simp] theorem onNreg_svn (i : Nat) (f : NReg → NReg) : (s.onNreg i f).svn = s.svn := rfl
@[simp] theorem onNreg_flash (i : Nat) (f : NReg → NReg) : (s.onNreg i f).flash = s.flash := rfl
@[simp] theorem onNreg_retRec (i : Nat) (f : NReg → NReg) : (s.onNreg i f).retRec = s.retRec := rfl
@[simp] theorem onNreg_attNonce (i : Nat) (f : NReg → NReg) : (s.onNreg i f).attNonce = s.attNonce := rfl
@[simp] theorem onNreg_attGo (i : Nat) (f : NReg → NReg) : (s.onNreg i f).attGo = s.attGo := rfl
@[simp] theorem onNreg_attReport (i : Nat) (f : NReg → NReg) : (s.onNreg i f).attReport = s.attReport := rfl
@[simp] theorem onNreg_invctl (i : Nat) (f : NReg → NReg) : (s.onNreg i f).invctl = s.invctl := rfl
@[simp] theorem onNreg_pwrlim (i : Nat) (f : NReg → NReg) : (s.onNreg i f).pwrlim = s.pwrlim := rfl
@[simp] theorem onNreg_evbase (i : Nat) (f : NReg → NReg) : (s.onNreg i f).evbase = s.evbase := rfl
@[simp] theorem onNreg_evsize (i : Nat) (f : NReg → NReg) : (s.onNreg i f).evsize = s.evsize := rfl
@[simp] theorem onNreg_nodeid (i : Nat) (f : NReg → NReg) : (s.onNreg i f).nodeid = s.nodeid := rfl
@[simp] theorem onNreg_farCap (i : Nat) (f : NReg → NReg) : (s.onNreg i f).farCap = s.farCap := rfl
@[simp] theorem onNreg_ns (i : Nat) (f : NReg → NReg) : (s.onNreg i f).ns = s.ns := rfl
@[simp] theorem onNreg_window (i : Nat) (f : NReg → NReg) : (s.onNreg i f).window = s.window := rfl
@[simp] theorem onNreg_mem (i : Nat) (f : NReg → NReg) : (s.onNreg i f).mem = s.mem := rfl
@[simp] theorem onNreg_host (i : Nat) (f : NReg → NReg) : (s.onNreg i f).host = s.host := rfl
@[simp] theorem onNreg_remote (i : Nat) (f : NReg → NReg) : (s.onNreg i f).remote = s.remote := rfl
@[simp] theorem onNreg_badLines (i : Nat) (f : NReg → NReg) : (s.onNreg i f).badLines = s.badLines := rfl
@[simp] theorem onNreg_l2 (i : Nat) (f : NReg → NReg) : (s.onNreg i f).l2 = s.l2 := rfl
@[simp] theorem onNreg_depart (i : Nat) (f : NReg → NReg) : (s.onNreg i f).depart = s.depart := rfl
@[simp] theorem onNreg_slices (i : Nat) (f : NReg → NReg) : (s.onNreg i f).slices = s.slices := rfl
@[simp] theorem onNreg_sliceErr (i : Nat) (f : NReg → NReg) : (s.onNreg i f).sliceErr = s.sliceErr := rfl
@[simp] theorem onNreg_chanErr (i : Nat) (f : NReg → NReg) : (s.onNreg i f).chanErr = s.chanErr := rfl
@[simp] theorem onNreg_chanBad (i : Nat) (f : NReg → NReg) : (s.onNreg i f).chanBad = s.chanBad := rfl
@[simp] theorem onNreg_cores (i : Nat) (f : NReg → NReg) : (s.onNreg i f).cores = s.cores := rfl
@[simp] theorem onNreg_quads (i : Nat) (f : NReg → NReg) : (s.onNreg i f).quads = s.quads := rfl
@[simp] theorem onNreg_clusters (i : Nat) (f : NReg → NReg) : (s.onNreg i f).clusters = s.clusters := rfl
@[simp] theorem onNreg_ctxs (i : Nat) (f : NReg → NReg) : (s.onNreg i f).ctxs = s.ctxs := rfl
@[simp] theorem onNreg_grids (i : Nat) (f : NReg → NReg) : (s.onNreg i f).grids = s.grids := rfl
@[simp] theorem onNreg_waits (i : Nat) (f : NReg → NReg) : (s.onNreg i f).waits = s.waits := rfl
@[simp] theorem onNreg_cgroups (i : Nat) (f : NReg → NReg) : (s.onNreg i f).cgroups = s.cgroups := rfl
@[simp] theorem onNreg_blocks (i : Nat) (f : NReg → NReg) : (s.onNreg i f).blocks = s.blocks := rfl
@[simp] theorem onNreg_warps (i : Nat) (f : NReg → NReg) : (s.onNreg i f).warps = s.warps := rfl
@[simp] theorem onNreg_net (i : Nat) (f : NReg → NReg) : (s.onNreg i f).net = s.net := rfl
@[simp] theorem onNreg_fetches (i : Nat) (f : NReg → NReg) : (s.onNreg i f).fetches = s.fetches := rfl
@[simp] theorem onNreg_pages (i : Nat) (f : NReg → NReg) : (s.onNreg i f).pages = s.pages := rfl
@[simp] theorem onNreg_copies (i : Nat) (f : NReg → NReg) : (s.onNreg i f).copies = s.copies := rfl
@[simp] theorem onNreg_defs (i : Nat) (f : NReg → NReg) : (s.onNreg i f).defs = s.defs := rfl
@[simp] theorem onNreg_readers (i : Nat) (f : NReg → NReg) : (s.onNreg i f).readers = s.readers := rfl
@[simp] theorem onNreg_mats (i : Nat) (f : NReg → NReg) : (s.onNreg i f).mats = s.mats := rfl
@[simp] theorem onNreg_fills (i : Nat) (f : NReg → NReg) : (s.onNreg i f).fills = s.fills := rfl
@[simp] theorem onNreg_redos (i : Nat) (f : NReg → NReg) : (s.onNreg i f).redos = s.redos := rfl
@[simp] theorem onNreg_pops (i : Nat) (f : NReg → NReg) : (s.onNreg i f).pops = s.pops := rfl
@[simp] theorem onNreg_cmds (i : Nat) (f : NReg → NReg) : (s.onNreg i f).cmds = s.cmds := rfl
@[simp] theorem onNreg_hq (i : Nat) (f : NReg → NReg) : (s.onNreg i f).hq = s.hq := rfl
@[simp] theorem onNreg_wq (i : Nat) (f : NReg → NReg) : (s.onNreg i f).wq = s.wq := rfl
@[simp] theorem onNreg_graphs (i : Nat) (f : NReg → NReg) : (s.onNreg i f).graphs = s.graphs := rfl
@[simp] theorem onNreg_gated (i : Nat) (f : NReg → NReg) : (s.onNreg i f).gated = s.gated := rfl
@[simp] theorem onNreg_tags (i : Nat) (f : NReg → NReg) : (s.onNreg i f).tags = s.tags := rfl
@[simp] theorem onNreg_groups (i : Nat) (f : NReg → NReg) : (s.onNreg i f).groups = s.groups := rfl
@[simp] theorem onNreg_xcache (i : Nat) (f : NReg → NReg) : (s.onNreg i f).xcache = s.xcache := rfl
@[simp] theorem onNreg_xruns (i : Nat) (f : NReg → NReg) : (s.onNreg i f).xruns = s.xruns := rfl
@[simp] theorem onNreg_msix (i : Nat) (f : NReg → NReg) : (s.onNreg i f).msix = s.msix := rfl
@[simp] theorem onNreg_alogs (i : Nat) (f : NReg → NReg) : (s.onNreg i f).alogs = s.alogs := rfl
@[simp] theorem onNreg_vlogs (i : Nat) (f : NReg → NReg) : (s.onNreg i f).vlogs = s.vlogs := rfl
@[simp] theorem onNreg_wordErr (i : Nat) (f : NReg → NReg) : (s.onNreg i f).wordErr = s.wordErr := rfl
@[simp] theorem onNreg_beats (i : Nat) (f : NReg → NReg) : (s.onNreg i f).beats = s.beats := rfl
@[simp] theorem onNreg_alarm (i : Nat) (f : NReg → NReg) : (s.onNreg i f).alarm = s.alarm := rfl
@[simp] theorem onNreg_steps (i : Nat) (f : NReg → NReg) : (s.onNreg i f).steps = s.steps := rfl
@[simp] theorem onNreg_stepAt (i : Nat) (f : NReg → NReg) : (s.onNreg i f).stepAt = s.stepAt := rfl
@[simp] theorem onNreg_hot (i : Nat) (f : NReg → NReg) : (s.onNreg i f).hot = s.hot := rfl
@[simp] theorem onNreg_tripped (i : Nat) (f : NReg → NReg) : (s.onNreg i f).tripped = s.tripped := rfl
@[simp] theorem onNreg_linkUp (i : Nat) (f : NReg → NReg) : (s.onNreg i f).linkUp = s.linkUp := rfl
@[simp] theorem onNreg_deadNodes (i : Nat) (f : NReg → NReg) : (s.onNreg i f).deadNodes = s.deadNodes := rfl

/-! ### onTag -/

@[simp] theorem onTag_agenda (i : Nat) (f : TagEnt → TagEnt) : (s.onTag i f).agenda = s.agenda := rfl
@[simp] theorem onTag_turn (i : Nat) (f : TagEnt → TagEnt) : (s.onTag i f).turn = s.turn := rfl
@[simp] theorem onTag_free (i : Nat) (f : TagEnt → TagEnt) : (s.onTag i f).free = s.free := rfl
@[simp] theorem onTag_iss (i : Nat) (f : TagEnt → TagEnt) : (s.onTag i f).iss = s.iss := rfl
@[simp] theorem onTag_nextId (i : Nat) (f : TagEnt → TagEnt) : (s.onTag i f).nextId = s.nextId := rfl
@[simp] theorem onTag_form (i : Nat) (f : TagEnt → TagEnt) : (s.onTag i f).form = s.form := rfl
@[simp] theorem onTag_stepping (i : Nat) (f : TagEnt → TagEnt) : (s.onTag i f).stepping = s.stepping := rfl
@[simp] theorem onTag_keyHash1 (i : Nat) (f : TagEnt → TagEnt) : (s.onTag i f).keyHash1 = s.keyHash1 := rfl
@[simp] theorem onTag_keyHash2 (i : Nat) (f : TagEnt → TagEnt) : (s.onTag i f).keyHash2 = s.keyHash2 := rfl
@[simp] theorem onTag_rollback (i : Nat) (f : TagEnt → TagEnt) : (s.onTag i f).rollback = s.rollback := rfl
@[simp] theorem onTag_devId (i : Nat) (f : TagEnt → TagEnt) : (s.onTag i f).devId = s.devId := rfl
@[simp] theorem onTag_bootst (i : Nat) (f : TagEnt → TagEnt) : (s.onTag i f).bootst = s.bootst := rfl
@[simp] theorem onTag_bootWin (i : Nat) (f : TagEnt → TagEnt) : (s.onTag i f).bootWin = s.bootWin := rfl
@[simp] theorem onTag_verifying (i : Nat) (f : TagEnt → TagEnt) : (s.onTag i f).verifying = s.verifying := rfl
@[simp] theorem onTag_bootHash (i : Nat) (f : TagEnt → TagEnt) : (s.onTag i f).bootHash = s.bootHash := rfl
@[simp] theorem onTag_svn (i : Nat) (f : TagEnt → TagEnt) : (s.onTag i f).svn = s.svn := rfl
@[simp] theorem onTag_flash (i : Nat) (f : TagEnt → TagEnt) : (s.onTag i f).flash = s.flash := rfl
@[simp] theorem onTag_retRec (i : Nat) (f : TagEnt → TagEnt) : (s.onTag i f).retRec = s.retRec := rfl
@[simp] theorem onTag_attNonce (i : Nat) (f : TagEnt → TagEnt) : (s.onTag i f).attNonce = s.attNonce := rfl
@[simp] theorem onTag_attGo (i : Nat) (f : TagEnt → TagEnt) : (s.onTag i f).attGo = s.attGo := rfl
@[simp] theorem onTag_attReport (i : Nat) (f : TagEnt → TagEnt) : (s.onTag i f).attReport = s.attReport := rfl
@[simp] theorem onTag_invctl (i : Nat) (f : TagEnt → TagEnt) : (s.onTag i f).invctl = s.invctl := rfl
@[simp] theorem onTag_pwrlim (i : Nat) (f : TagEnt → TagEnt) : (s.onTag i f).pwrlim = s.pwrlim := rfl
@[simp] theorem onTag_evbase (i : Nat) (f : TagEnt → TagEnt) : (s.onTag i f).evbase = s.evbase := rfl
@[simp] theorem onTag_evsize (i : Nat) (f : TagEnt → TagEnt) : (s.onTag i f).evsize = s.evsize := rfl
@[simp] theorem onTag_nodeid (i : Nat) (f : TagEnt → TagEnt) : (s.onTag i f).nodeid = s.nodeid := rfl
@[simp] theorem onTag_farCap (i : Nat) (f : TagEnt → TagEnt) : (s.onTag i f).farCap = s.farCap := rfl
@[simp] theorem onTag_ns (i : Nat) (f : TagEnt → TagEnt) : (s.onTag i f).ns = s.ns := rfl
@[simp] theorem onTag_window (i : Nat) (f : TagEnt → TagEnt) : (s.onTag i f).window = s.window := rfl
@[simp] theorem onTag_mem (i : Nat) (f : TagEnt → TagEnt) : (s.onTag i f).mem = s.mem := rfl
@[simp] theorem onTag_host (i : Nat) (f : TagEnt → TagEnt) : (s.onTag i f).host = s.host := rfl
@[simp] theorem onTag_remote (i : Nat) (f : TagEnt → TagEnt) : (s.onTag i f).remote = s.remote := rfl
@[simp] theorem onTag_badLines (i : Nat) (f : TagEnt → TagEnt) : (s.onTag i f).badLines = s.badLines := rfl
@[simp] theorem onTag_l2 (i : Nat) (f : TagEnt → TagEnt) : (s.onTag i f).l2 = s.l2 := rfl
@[simp] theorem onTag_depart (i : Nat) (f : TagEnt → TagEnt) : (s.onTag i f).depart = s.depart := rfl
@[simp] theorem onTag_slices (i : Nat) (f : TagEnt → TagEnt) : (s.onTag i f).slices = s.slices := rfl
@[simp] theorem onTag_sliceErr (i : Nat) (f : TagEnt → TagEnt) : (s.onTag i f).sliceErr = s.sliceErr := rfl
@[simp] theorem onTag_chanErr (i : Nat) (f : TagEnt → TagEnt) : (s.onTag i f).chanErr = s.chanErr := rfl
@[simp] theorem onTag_chanBad (i : Nat) (f : TagEnt → TagEnt) : (s.onTag i f).chanBad = s.chanBad := rfl
@[simp] theorem onTag_cores (i : Nat) (f : TagEnt → TagEnt) : (s.onTag i f).cores = s.cores := rfl
@[simp] theorem onTag_quads (i : Nat) (f : TagEnt → TagEnt) : (s.onTag i f).quads = s.quads := rfl
@[simp] theorem onTag_clusters (i : Nat) (f : TagEnt → TagEnt) : (s.onTag i f).clusters = s.clusters := rfl
@[simp] theorem onTag_ctxs (i : Nat) (f : TagEnt → TagEnt) : (s.onTag i f).ctxs = s.ctxs := rfl
@[simp] theorem onTag_grids (i : Nat) (f : TagEnt → TagEnt) : (s.onTag i f).grids = s.grids := rfl
@[simp] theorem onTag_waits (i : Nat) (f : TagEnt → TagEnt) : (s.onTag i f).waits = s.waits := rfl
@[simp] theorem onTag_cgroups (i : Nat) (f : TagEnt → TagEnt) : (s.onTag i f).cgroups = s.cgroups := rfl
@[simp] theorem onTag_blocks (i : Nat) (f : TagEnt → TagEnt) : (s.onTag i f).blocks = s.blocks := rfl
@[simp] theorem onTag_warps (i : Nat) (f : TagEnt → TagEnt) : (s.onTag i f).warps = s.warps := rfl
@[simp] theorem onTag_net (i : Nat) (f : TagEnt → TagEnt) : (s.onTag i f).net = s.net := rfl
@[simp] theorem onTag_fetches (i : Nat) (f : TagEnt → TagEnt) : (s.onTag i f).fetches = s.fetches := rfl
@[simp] theorem onTag_pages (i : Nat) (f : TagEnt → TagEnt) : (s.onTag i f).pages = s.pages := rfl
@[simp] theorem onTag_copies (i : Nat) (f : TagEnt → TagEnt) : (s.onTag i f).copies = s.copies := rfl
@[simp] theorem onTag_defs (i : Nat) (f : TagEnt → TagEnt) : (s.onTag i f).defs = s.defs := rfl
@[simp] theorem onTag_readers (i : Nat) (f : TagEnt → TagEnt) : (s.onTag i f).readers = s.readers := rfl
@[simp] theorem onTag_mats (i : Nat) (f : TagEnt → TagEnt) : (s.onTag i f).mats = s.mats := rfl
@[simp] theorem onTag_fills (i : Nat) (f : TagEnt → TagEnt) : (s.onTag i f).fills = s.fills := rfl
@[simp] theorem onTag_redos (i : Nat) (f : TagEnt → TagEnt) : (s.onTag i f).redos = s.redos := rfl
@[simp] theorem onTag_pops (i : Nat) (f : TagEnt → TagEnt) : (s.onTag i f).pops = s.pops := rfl
@[simp] theorem onTag_cmds (i : Nat) (f : TagEnt → TagEnt) : (s.onTag i f).cmds = s.cmds := rfl
@[simp] theorem onTag_hq (i : Nat) (f : TagEnt → TagEnt) : (s.onTag i f).hq = s.hq := rfl
@[simp] theorem onTag_wq (i : Nat) (f : TagEnt → TagEnt) : (s.onTag i f).wq = s.wq := rfl
@[simp] theorem onTag_graphs (i : Nat) (f : TagEnt → TagEnt) : (s.onTag i f).graphs = s.graphs := rfl
@[simp] theorem onTag_nregs (i : Nat) (f : TagEnt → TagEnt) : (s.onTag i f).nregs = s.nregs := rfl
@[simp] theorem onTag_gated (i : Nat) (f : TagEnt → TagEnt) : (s.onTag i f).gated = s.gated := rfl
@[simp] theorem onTag_groups (i : Nat) (f : TagEnt → TagEnt) : (s.onTag i f).groups = s.groups := rfl
@[simp] theorem onTag_xcache (i : Nat) (f : TagEnt → TagEnt) : (s.onTag i f).xcache = s.xcache := rfl
@[simp] theorem onTag_xruns (i : Nat) (f : TagEnt → TagEnt) : (s.onTag i f).xruns = s.xruns := rfl
@[simp] theorem onTag_msix (i : Nat) (f : TagEnt → TagEnt) : (s.onTag i f).msix = s.msix := rfl
@[simp] theorem onTag_alogs (i : Nat) (f : TagEnt → TagEnt) : (s.onTag i f).alogs = s.alogs := rfl
@[simp] theorem onTag_vlogs (i : Nat) (f : TagEnt → TagEnt) : (s.onTag i f).vlogs = s.vlogs := rfl
@[simp] theorem onTag_wordErr (i : Nat) (f : TagEnt → TagEnt) : (s.onTag i f).wordErr = s.wordErr := rfl
@[simp] theorem onTag_beats (i : Nat) (f : TagEnt → TagEnt) : (s.onTag i f).beats = s.beats := rfl
@[simp] theorem onTag_alarm (i : Nat) (f : TagEnt → TagEnt) : (s.onTag i f).alarm = s.alarm := rfl
@[simp] theorem onTag_steps (i : Nat) (f : TagEnt → TagEnt) : (s.onTag i f).steps = s.steps := rfl
@[simp] theorem onTag_stepAt (i : Nat) (f : TagEnt → TagEnt) : (s.onTag i f).stepAt = s.stepAt := rfl
@[simp] theorem onTag_hot (i : Nat) (f : TagEnt → TagEnt) : (s.onTag i f).hot = s.hot := rfl
@[simp] theorem onTag_tripped (i : Nat) (f : TagEnt → TagEnt) : (s.onTag i f).tripped = s.tripped := rfl
@[simp] theorem onTag_linkUp (i : Nat) (f : TagEnt → TagEnt) : (s.onTag i f).linkUp = s.linkUp := rfl
@[simp] theorem onTag_deadNodes (i : Nat) (f : TagEnt → TagEnt) : (s.onTag i f).deadNodes = s.deadNodes := rfl

/-! ### onBank -/

@[simp] theorem onBank_agenda (i : Nat) (f : Bank → Bank) : (s.onBank i f).agenda = s.agenda := rfl
@[simp] theorem onBank_turn (i : Nat) (f : Bank → Bank) : (s.onBank i f).turn = s.turn := rfl
@[simp] theorem onBank_free (i : Nat) (f : Bank → Bank) : (s.onBank i f).free = s.free := rfl
@[simp] theorem onBank_iss (i : Nat) (f : Bank → Bank) : (s.onBank i f).iss = s.iss := rfl
@[simp] theorem onBank_nextId (i : Nat) (f : Bank → Bank) : (s.onBank i f).nextId = s.nextId := rfl
@[simp] theorem onBank_form (i : Nat) (f : Bank → Bank) : (s.onBank i f).form = s.form := rfl
@[simp] theorem onBank_stepping (i : Nat) (f : Bank → Bank) : (s.onBank i f).stepping = s.stepping := rfl
@[simp] theorem onBank_keyHash1 (i : Nat) (f : Bank → Bank) : (s.onBank i f).keyHash1 = s.keyHash1 := rfl
@[simp] theorem onBank_keyHash2 (i : Nat) (f : Bank → Bank) : (s.onBank i f).keyHash2 = s.keyHash2 := rfl
@[simp] theorem onBank_rollback (i : Nat) (f : Bank → Bank) : (s.onBank i f).rollback = s.rollback := rfl
@[simp] theorem onBank_devId (i : Nat) (f : Bank → Bank) : (s.onBank i f).devId = s.devId := rfl
@[simp] theorem onBank_bootst (i : Nat) (f : Bank → Bank) : (s.onBank i f).bootst = s.bootst := rfl
@[simp] theorem onBank_bootWin (i : Nat) (f : Bank → Bank) : (s.onBank i f).bootWin = s.bootWin := rfl
@[simp] theorem onBank_verifying (i : Nat) (f : Bank → Bank) : (s.onBank i f).verifying = s.verifying := rfl
@[simp] theorem onBank_bootHash (i : Nat) (f : Bank → Bank) : (s.onBank i f).bootHash = s.bootHash := rfl
@[simp] theorem onBank_svn (i : Nat) (f : Bank → Bank) : (s.onBank i f).svn = s.svn := rfl
@[simp] theorem onBank_flash (i : Nat) (f : Bank → Bank) : (s.onBank i f).flash = s.flash := rfl
@[simp] theorem onBank_retRec (i : Nat) (f : Bank → Bank) : (s.onBank i f).retRec = s.retRec := rfl
@[simp] theorem onBank_attNonce (i : Nat) (f : Bank → Bank) : (s.onBank i f).attNonce = s.attNonce := rfl
@[simp] theorem onBank_attGo (i : Nat) (f : Bank → Bank) : (s.onBank i f).attGo = s.attGo := rfl
@[simp] theorem onBank_attReport (i : Nat) (f : Bank → Bank) : (s.onBank i f).attReport = s.attReport := rfl
@[simp] theorem onBank_invctl (i : Nat) (f : Bank → Bank) : (s.onBank i f).invctl = s.invctl := rfl
@[simp] theorem onBank_pwrlim (i : Nat) (f : Bank → Bank) : (s.onBank i f).pwrlim = s.pwrlim := rfl
@[simp] theorem onBank_evbase (i : Nat) (f : Bank → Bank) : (s.onBank i f).evbase = s.evbase := rfl
@[simp] theorem onBank_evsize (i : Nat) (f : Bank → Bank) : (s.onBank i f).evsize = s.evsize := rfl
@[simp] theorem onBank_nodeid (i : Nat) (f : Bank → Bank) : (s.onBank i f).nodeid = s.nodeid := rfl
@[simp] theorem onBank_farCap (i : Nat) (f : Bank → Bank) : (s.onBank i f).farCap = s.farCap := rfl
@[simp] theorem onBank_ns (i : Nat) (f : Bank → Bank) : (s.onBank i f).ns = s.ns := rfl
@[simp] theorem onBank_window (i : Nat) (f : Bank → Bank) : (s.onBank i f).window = s.window := rfl
@[simp] theorem onBank_mem (i : Nat) (f : Bank → Bank) : (s.onBank i f).mem = s.mem := rfl
@[simp] theorem onBank_host (i : Nat) (f : Bank → Bank) : (s.onBank i f).host = s.host := rfl
@[simp] theorem onBank_remote (i : Nat) (f : Bank → Bank) : (s.onBank i f).remote = s.remote := rfl
@[simp] theorem onBank_badLines (i : Nat) (f : Bank → Bank) : (s.onBank i f).badLines = s.badLines := rfl
@[simp] theorem onBank_l2 (i : Nat) (f : Bank → Bank) : (s.onBank i f).l2 = s.l2 := rfl
@[simp] theorem onBank_depart (i : Nat) (f : Bank → Bank) : (s.onBank i f).depart = s.depart := rfl
@[simp] theorem onBank_slices (i : Nat) (f : Bank → Bank) : (s.onBank i f).slices = s.slices := rfl
@[simp] theorem onBank_sliceErr (i : Nat) (f : Bank → Bank) : (s.onBank i f).sliceErr = s.sliceErr := rfl
@[simp] theorem onBank_chanErr (i : Nat) (f : Bank → Bank) : (s.onBank i f).chanErr = s.chanErr := rfl
@[simp] theorem onBank_chanBad (i : Nat) (f : Bank → Bank) : (s.onBank i f).chanBad = s.chanBad := rfl
@[simp] theorem onBank_cores (i : Nat) (f : Bank → Bank) : (s.onBank i f).cores = s.cores := rfl
@[simp] theorem onBank_clusters (i : Nat) (f : Bank → Bank) : (s.onBank i f).clusters = s.clusters := rfl
@[simp] theorem onBank_ctxs (i : Nat) (f : Bank → Bank) : (s.onBank i f).ctxs = s.ctxs := rfl
@[simp] theorem onBank_grids (i : Nat) (f : Bank → Bank) : (s.onBank i f).grids = s.grids := rfl
@[simp] theorem onBank_waits (i : Nat) (f : Bank → Bank) : (s.onBank i f).waits = s.waits := rfl
@[simp] theorem onBank_cgroups (i : Nat) (f : Bank → Bank) : (s.onBank i f).cgroups = s.cgroups := rfl
@[simp] theorem onBank_blocks (i : Nat) (f : Bank → Bank) : (s.onBank i f).blocks = s.blocks := rfl
@[simp] theorem onBank_warps (i : Nat) (f : Bank → Bank) : (s.onBank i f).warps = s.warps := rfl
@[simp] theorem onBank_net (i : Nat) (f : Bank → Bank) : (s.onBank i f).net = s.net := rfl
@[simp] theorem onBank_fetches (i : Nat) (f : Bank → Bank) : (s.onBank i f).fetches = s.fetches := rfl
@[simp] theorem onBank_pages (i : Nat) (f : Bank → Bank) : (s.onBank i f).pages = s.pages := rfl
@[simp] theorem onBank_copies (i : Nat) (f : Bank → Bank) : (s.onBank i f).copies = s.copies := rfl
@[simp] theorem onBank_defs (i : Nat) (f : Bank → Bank) : (s.onBank i f).defs = s.defs := rfl
@[simp] theorem onBank_readers (i : Nat) (f : Bank → Bank) : (s.onBank i f).readers = s.readers := rfl
@[simp] theorem onBank_mats (i : Nat) (f : Bank → Bank) : (s.onBank i f).mats = s.mats := rfl
@[simp] theorem onBank_fills (i : Nat) (f : Bank → Bank) : (s.onBank i f).fills = s.fills := rfl
@[simp] theorem onBank_redos (i : Nat) (f : Bank → Bank) : (s.onBank i f).redos = s.redos := rfl
@[simp] theorem onBank_pops (i : Nat) (f : Bank → Bank) : (s.onBank i f).pops = s.pops := rfl
@[simp] theorem onBank_cmds (i : Nat) (f : Bank → Bank) : (s.onBank i f).cmds = s.cmds := rfl
@[simp] theorem onBank_hq (i : Nat) (f : Bank → Bank) : (s.onBank i f).hq = s.hq := rfl
@[simp] theorem onBank_wq (i : Nat) (f : Bank → Bank) : (s.onBank i f).wq = s.wq := rfl
@[simp] theorem onBank_graphs (i : Nat) (f : Bank → Bank) : (s.onBank i f).graphs = s.graphs := rfl
@[simp] theorem onBank_nregs (i : Nat) (f : Bank → Bank) : (s.onBank i f).nregs = s.nregs := rfl
@[simp] theorem onBank_gated (i : Nat) (f : Bank → Bank) : (s.onBank i f).gated = s.gated := rfl
@[simp] theorem onBank_tags (i : Nat) (f : Bank → Bank) : (s.onBank i f).tags = s.tags := rfl
@[simp] theorem onBank_groups (i : Nat) (f : Bank → Bank) : (s.onBank i f).groups = s.groups := rfl
@[simp] theorem onBank_xcache (i : Nat) (f : Bank → Bank) : (s.onBank i f).xcache = s.xcache := rfl
@[simp] theorem onBank_xruns (i : Nat) (f : Bank → Bank) : (s.onBank i f).xruns = s.xruns := rfl
@[simp] theorem onBank_msix (i : Nat) (f : Bank → Bank) : (s.onBank i f).msix = s.msix := rfl
@[simp] theorem onBank_alogs (i : Nat) (f : Bank → Bank) : (s.onBank i f).alogs = s.alogs := rfl
@[simp] theorem onBank_vlogs (i : Nat) (f : Bank → Bank) : (s.onBank i f).vlogs = s.vlogs := rfl
@[simp] theorem onBank_wordErr (i : Nat) (f : Bank → Bank) : (s.onBank i f).wordErr = s.wordErr := rfl
@[simp] theorem onBank_beats (i : Nat) (f : Bank → Bank) : (s.onBank i f).beats = s.beats := rfl
@[simp] theorem onBank_alarm (i : Nat) (f : Bank → Bank) : (s.onBank i f).alarm = s.alarm := rfl
@[simp] theorem onBank_steps (i : Nat) (f : Bank → Bank) : (s.onBank i f).steps = s.steps := rfl
@[simp] theorem onBank_stepAt (i : Nat) (f : Bank → Bank) : (s.onBank i f).stepAt = s.stepAt := rfl
@[simp] theorem onBank_hot (i : Nat) (f : Bank → Bank) : (s.onBank i f).hot = s.hot := rfl
@[simp] theorem onBank_tripped (i : Nat) (f : Bank → Bank) : (s.onBank i f).tripped = s.tripped := rfl
@[simp] theorem onBank_linkUp (i : Nat) (f : Bank → Bank) : (s.onBank i f).linkUp = s.linkUp := rfl
@[simp] theorem onBank_deadNodes (i : Nat) (f : Bank → Bank) : (s.onBank i f).deadNodes = s.deadNodes := rfl

/-! ### fresh -/

@[simp] theorem fresh_agenda : s.fresh.2.agenda = s.agenda := rfl
@[simp] theorem fresh_turn : s.fresh.2.turn = s.turn := rfl
@[simp] theorem fresh_free : s.fresh.2.free = s.free := rfl
@[simp] theorem fresh_iss : s.fresh.2.iss = s.iss := rfl
@[simp] theorem fresh_form : s.fresh.2.form = s.form := rfl
@[simp] theorem fresh_stepping : s.fresh.2.stepping = s.stepping := rfl
@[simp] theorem fresh_keyHash1 : s.fresh.2.keyHash1 = s.keyHash1 := rfl
@[simp] theorem fresh_keyHash2 : s.fresh.2.keyHash2 = s.keyHash2 := rfl
@[simp] theorem fresh_rollback : s.fresh.2.rollback = s.rollback := rfl
@[simp] theorem fresh_devId : s.fresh.2.devId = s.devId := rfl
@[simp] theorem fresh_bootst : s.fresh.2.bootst = s.bootst := rfl
@[simp] theorem fresh_bootWin : s.fresh.2.bootWin = s.bootWin := rfl
@[simp] theorem fresh_verifying : s.fresh.2.verifying = s.verifying := rfl
@[simp] theorem fresh_bootHash : s.fresh.2.bootHash = s.bootHash := rfl
@[simp] theorem fresh_svn : s.fresh.2.svn = s.svn := rfl
@[simp] theorem fresh_flash : s.fresh.2.flash = s.flash := rfl
@[simp] theorem fresh_retRec : s.fresh.2.retRec = s.retRec := rfl
@[simp] theorem fresh_attNonce : s.fresh.2.attNonce = s.attNonce := rfl
@[simp] theorem fresh_attGo : s.fresh.2.attGo = s.attGo := rfl
@[simp] theorem fresh_attReport : s.fresh.2.attReport = s.attReport := rfl
@[simp] theorem fresh_invctl : s.fresh.2.invctl = s.invctl := rfl
@[simp] theorem fresh_pwrlim : s.fresh.2.pwrlim = s.pwrlim := rfl
@[simp] theorem fresh_evbase : s.fresh.2.evbase = s.evbase := rfl
@[simp] theorem fresh_evsize : s.fresh.2.evsize = s.evsize := rfl
@[simp] theorem fresh_nodeid : s.fresh.2.nodeid = s.nodeid := rfl
@[simp] theorem fresh_farCap : s.fresh.2.farCap = s.farCap := rfl
@[simp] theorem fresh_ns : s.fresh.2.ns = s.ns := rfl
@[simp] theorem fresh_window : s.fresh.2.window = s.window := rfl
@[simp] theorem fresh_mem : s.fresh.2.mem = s.mem := rfl
@[simp] theorem fresh_host : s.fresh.2.host = s.host := rfl
@[simp] theorem fresh_remote : s.fresh.2.remote = s.remote := rfl
@[simp] theorem fresh_badLines : s.fresh.2.badLines = s.badLines := rfl
@[simp] theorem fresh_l2 : s.fresh.2.l2 = s.l2 := rfl
@[simp] theorem fresh_depart : s.fresh.2.depart = s.depart := rfl
@[simp] theorem fresh_slices : s.fresh.2.slices = s.slices := rfl
@[simp] theorem fresh_sliceErr : s.fresh.2.sliceErr = s.sliceErr := rfl
@[simp] theorem fresh_chanErr : s.fresh.2.chanErr = s.chanErr := rfl
@[simp] theorem fresh_chanBad : s.fresh.2.chanBad = s.chanBad := rfl
@[simp] theorem fresh_cores : s.fresh.2.cores = s.cores := rfl
@[simp] theorem fresh_quads : s.fresh.2.quads = s.quads := rfl
@[simp] theorem fresh_clusters : s.fresh.2.clusters = s.clusters := rfl
@[simp] theorem fresh_ctxs : s.fresh.2.ctxs = s.ctxs := rfl
@[simp] theorem fresh_grids : s.fresh.2.grids = s.grids := rfl
@[simp] theorem fresh_waits : s.fresh.2.waits = s.waits := rfl
@[simp] theorem fresh_cgroups : s.fresh.2.cgroups = s.cgroups := rfl
@[simp] theorem fresh_blocks : s.fresh.2.blocks = s.blocks := rfl
@[simp] theorem fresh_warps : s.fresh.2.warps = s.warps := rfl
@[simp] theorem fresh_net : s.fresh.2.net = s.net := rfl
@[simp] theorem fresh_fetches : s.fresh.2.fetches = s.fetches := rfl
@[simp] theorem fresh_pages : s.fresh.2.pages = s.pages := rfl
@[simp] theorem fresh_copies : s.fresh.2.copies = s.copies := rfl
@[simp] theorem fresh_defs : s.fresh.2.defs = s.defs := rfl
@[simp] theorem fresh_readers : s.fresh.2.readers = s.readers := rfl
@[simp] theorem fresh_mats : s.fresh.2.mats = s.mats := rfl
@[simp] theorem fresh_fills : s.fresh.2.fills = s.fills := rfl
@[simp] theorem fresh_redos : s.fresh.2.redos = s.redos := rfl
@[simp] theorem fresh_pops : s.fresh.2.pops = s.pops := rfl
@[simp] theorem fresh_cmds : s.fresh.2.cmds = s.cmds := rfl
@[simp] theorem fresh_hq : s.fresh.2.hq = s.hq := rfl
@[simp] theorem fresh_wq : s.fresh.2.wq = s.wq := rfl
@[simp] theorem fresh_graphs : s.fresh.2.graphs = s.graphs := rfl
@[simp] theorem fresh_nregs : s.fresh.2.nregs = s.nregs := rfl
@[simp] theorem fresh_gated : s.fresh.2.gated = s.gated := rfl
@[simp] theorem fresh_tags : s.fresh.2.tags = s.tags := rfl
@[simp] theorem fresh_groups : s.fresh.2.groups = s.groups := rfl
@[simp] theorem fresh_xcache : s.fresh.2.xcache = s.xcache := rfl
@[simp] theorem fresh_xruns : s.fresh.2.xruns = s.xruns := rfl
@[simp] theorem fresh_msix : s.fresh.2.msix = s.msix := rfl
@[simp] theorem fresh_alogs : s.fresh.2.alogs = s.alogs := rfl
@[simp] theorem fresh_vlogs : s.fresh.2.vlogs = s.vlogs := rfl
@[simp] theorem fresh_wordErr : s.fresh.2.wordErr = s.wordErr := rfl
@[simp] theorem fresh_beats : s.fresh.2.beats = s.beats := rfl
@[simp] theorem fresh_alarm : s.fresh.2.alarm = s.alarm := rfl
@[simp] theorem fresh_steps : s.fresh.2.steps = s.steps := rfl
@[simp] theorem fresh_stepAt : s.fresh.2.stepAt = s.stepAt := rfl
@[simp] theorem fresh_hot : s.fresh.2.hot = s.hot := rfl
@[simp] theorem fresh_tripped : s.fresh.2.tripped = s.tripped := rfl
@[simp] theorem fresh_linkUp : s.fresh.2.linkUp = s.linkUp := rfl
@[simp] theorem fresh_deadNodes : s.fresh.2.deadNodes = s.deadNodes := rfl

/-! ### draw -/

@[simp] theorem draw_agenda : s.draw.2.agenda = s.agenda := rfl
@[simp] theorem draw_turn : s.draw.2.turn = s.turn := rfl
@[simp] theorem draw_iss : s.draw.2.iss = s.iss := rfl
@[simp] theorem draw_nextId : s.draw.2.nextId = s.nextId := rfl
@[simp] theorem draw_form : s.draw.2.form = s.form := rfl
@[simp] theorem draw_stepping : s.draw.2.stepping = s.stepping := rfl
@[simp] theorem draw_keyHash1 : s.draw.2.keyHash1 = s.keyHash1 := rfl
@[simp] theorem draw_keyHash2 : s.draw.2.keyHash2 = s.keyHash2 := rfl
@[simp] theorem draw_rollback : s.draw.2.rollback = s.rollback := rfl
@[simp] theorem draw_devId : s.draw.2.devId = s.devId := rfl
@[simp] theorem draw_bootst : s.draw.2.bootst = s.bootst := rfl
@[simp] theorem draw_bootWin : s.draw.2.bootWin = s.bootWin := rfl
@[simp] theorem draw_verifying : s.draw.2.verifying = s.verifying := rfl
@[simp] theorem draw_bootHash : s.draw.2.bootHash = s.bootHash := rfl
@[simp] theorem draw_svn : s.draw.2.svn = s.svn := rfl
@[simp] theorem draw_flash : s.draw.2.flash = s.flash := rfl
@[simp] theorem draw_retRec : s.draw.2.retRec = s.retRec := rfl
@[simp] theorem draw_attNonce : s.draw.2.attNonce = s.attNonce := rfl
@[simp] theorem draw_attGo : s.draw.2.attGo = s.attGo := rfl
@[simp] theorem draw_attReport : s.draw.2.attReport = s.attReport := rfl
@[simp] theorem draw_invctl : s.draw.2.invctl = s.invctl := rfl
@[simp] theorem draw_pwrlim : s.draw.2.pwrlim = s.pwrlim := rfl
@[simp] theorem draw_evbase : s.draw.2.evbase = s.evbase := rfl
@[simp] theorem draw_evsize : s.draw.2.evsize = s.evsize := rfl
@[simp] theorem draw_nodeid : s.draw.2.nodeid = s.nodeid := rfl
@[simp] theorem draw_farCap : s.draw.2.farCap = s.farCap := rfl
@[simp] theorem draw_ns : s.draw.2.ns = s.ns := rfl
@[simp] theorem draw_window : s.draw.2.window = s.window := rfl
@[simp] theorem draw_mem : s.draw.2.mem = s.mem := rfl
@[simp] theorem draw_host : s.draw.2.host = s.host := rfl
@[simp] theorem draw_remote : s.draw.2.remote = s.remote := rfl
@[simp] theorem draw_badLines : s.draw.2.badLines = s.badLines := rfl
@[simp] theorem draw_l2 : s.draw.2.l2 = s.l2 := rfl
@[simp] theorem draw_depart : s.draw.2.depart = s.depart := rfl
@[simp] theorem draw_slices : s.draw.2.slices = s.slices := rfl
@[simp] theorem draw_sliceErr : s.draw.2.sliceErr = s.sliceErr := rfl
@[simp] theorem draw_chanErr : s.draw.2.chanErr = s.chanErr := rfl
@[simp] theorem draw_chanBad : s.draw.2.chanBad = s.chanBad := rfl
@[simp] theorem draw_cores : s.draw.2.cores = s.cores := rfl
@[simp] theorem draw_quads : s.draw.2.quads = s.quads := rfl
@[simp] theorem draw_clusters : s.draw.2.clusters = s.clusters := rfl
@[simp] theorem draw_ctxs : s.draw.2.ctxs = s.ctxs := rfl
@[simp] theorem draw_grids : s.draw.2.grids = s.grids := rfl
@[simp] theorem draw_waits : s.draw.2.waits = s.waits := rfl
@[simp] theorem draw_cgroups : s.draw.2.cgroups = s.cgroups := rfl
@[simp] theorem draw_blocks : s.draw.2.blocks = s.blocks := rfl
@[simp] theorem draw_warps : s.draw.2.warps = s.warps := rfl
@[simp] theorem draw_net : s.draw.2.net = s.net := rfl
@[simp] theorem draw_fetches : s.draw.2.fetches = s.fetches := rfl
@[simp] theorem draw_pages : s.draw.2.pages = s.pages := rfl
@[simp] theorem draw_copies : s.draw.2.copies = s.copies := rfl
@[simp] theorem draw_defs : s.draw.2.defs = s.defs := rfl
@[simp] theorem draw_readers : s.draw.2.readers = s.readers := rfl
@[simp] theorem draw_mats : s.draw.2.mats = s.mats := rfl
@[simp] theorem draw_fills : s.draw.2.fills = s.fills := rfl
@[simp] theorem draw_redos : s.draw.2.redos = s.redos := rfl
@[simp] theorem draw_pops : s.draw.2.pops = s.pops := rfl
@[simp] theorem draw_cmds : s.draw.2.cmds = s.cmds := rfl
@[simp] theorem draw_hq : s.draw.2.hq = s.hq := rfl
@[simp] theorem draw_wq : s.draw.2.wq = s.wq := rfl
@[simp] theorem draw_graphs : s.draw.2.graphs = s.graphs := rfl
@[simp] theorem draw_nregs : s.draw.2.nregs = s.nregs := rfl
@[simp] theorem draw_gated : s.draw.2.gated = s.gated := rfl
@[simp] theorem draw_tags : s.draw.2.tags = s.tags := rfl
@[simp] theorem draw_groups : s.draw.2.groups = s.groups := rfl
@[simp] theorem draw_xcache : s.draw.2.xcache = s.xcache := rfl
@[simp] theorem draw_xruns : s.draw.2.xruns = s.xruns := rfl
@[simp] theorem draw_msix : s.draw.2.msix = s.msix := rfl
@[simp] theorem draw_alogs : s.draw.2.alogs = s.alogs := rfl
@[simp] theorem draw_vlogs : s.draw.2.vlogs = s.vlogs := rfl
@[simp] theorem draw_wordErr : s.draw.2.wordErr = s.wordErr := rfl
@[simp] theorem draw_beats : s.draw.2.beats = s.beats := rfl
@[simp] theorem draw_alarm : s.draw.2.alarm = s.alarm := rfl
@[simp] theorem draw_steps : s.draw.2.steps = s.steps := rfl
@[simp] theorem draw_stepAt : s.draw.2.stepAt = s.stepAt := rfl
@[simp] theorem draw_hot : s.draw.2.hot = s.hot := rfl
@[simp] theorem draw_tripped : s.draw.2.tripped = s.tripped := rfl
@[simp] theorem draw_linkUp : s.draw.2.linkUp = s.linkUp := rfl
@[simp] theorem draw_deadNodes : s.draw.2.deadNodes = s.deadNodes := rfl
/-! ## Lookups by identity -/

theorem find_map_id {α : Type} (l : List α) (key : α → Nat) (i j : Nat) (f : α → α) (hf : ∀ x, key (f x) = key x) :
    (l.map fun x => if key x = i then f x else x).find? (fun x => decide (key x = j)) =
      (l.find? fun x => decide (key x = j)).map fun x => if j = i then f x else x := by
  induction l with
  | nil => rfl
  | cons x r ih =>
    by_cases hi : key x = i <;> by_cases hj : key x = j
    · subst hj; simp [hi, hf]
    · simp [hi, hf, show ¬ i = j from hi ▸ hj, ih]
    · subst hj; simp [hi]
    · simp [hi, hj, ih]

variable {s}

theorem warp?_onWarp (i j : Nat) {f : Warp → Warp} (hf : ∀ w, (f w).id = w.id) :
    (s.onWarp i f).warp? j = (s.warp? j).map fun w => if j = i then f w else w := find_map_id s.warps (·.id) i j f hf

theorem block?_onBlock (i j : Nat) {f : Block → Block} (hf : ∀ w, (f w).id = w.id) :
    (s.onBlock i f).block? j = (s.block? j).map fun w => if j = i then f w else w := find_map_id s.blocks (·.id) i j f hf

theorem ctx?_onCtx (i j : Nat) {f : Ctx → Ctx} (hf : ∀ w, (f w).id = w.id) :
    (s.onCtx i f).ctx? j = (s.ctx? j).map fun w => if j = i then f w else w := find_map_id s.ctxs (·.id) i j f hf

theorem cgroup?_onCGroup (i j : Nat) {f : CGroup → CGroup} (hf : ∀ w, (f w).id = w.id) :
    (s.onCGroup i f).cgroup? j = (s.cgroup? j).map fun w => if j = i then f w else w := find_map_id s.cgroups (·.id) i j f hf

theorem grid?_onGrid (i j : Nat) {f : Grid → Grid} (hf : ∀ w, (f w).id = w.id) :
    (s.onGrid i f).grid? j = (s.grid? j).map fun w => if j = i then f w else w := find_map_id s.grids (·.id) i j f hf

/-! ## Lookups by number -/

theorem core_onCore (i j : Nat) (f : Core → Core) : (s.onCore i f).core j = if j = i then f (s.core i) else s.core j := sget_supd ..
theorem quad_onQuad (i j : Nat) (f : Quad → Quad) : (s.onQuad i f).quad j = if j = i then f (s.quad i) else s.quad j := sget_supd ..
theorem cluster_onCluster (i j : Nat) (f : Cluster → Cluster) : (s.onCluster i f).cluster j = if j = i then f (s.cluster i) else s.cluster j := sget_supd ..
theorem grp_onGrp (i j : Nat) (f : Grp → Grp) : (s.onGrp i f).grp j = if j = i then f (s.grp i) else s.grp j := sget_supd ..
theorem hqueue_onHq (i j : Nat) (f : HQueue → HQueue) : (s.onHq i f).hqueue j = if j = i then f (s.hqueue i) else s.hqueue j := sget_supd ..
theorem wqueue_onWq (i j : Nat) (f : WQueue → WQueue) : (s.onWq i f).wqueue j = if j = i then f (s.wqueue i) else s.wqueue j := sget_supd ..
theorem graph_onGraph (i j : Nat) (f : Graph → Graph) : (s.onGraph i f).graph j = if j = i then f (s.graph i) else s.graph j := sget_supd ..
theorem nreg_onNreg (i j : Nat) (f : NReg → NReg) : (s.onNreg i f).nreg j = if j = i then f (s.nreg i) else s.nreg j := sget_supd ..
theorem tagEnt_onTag (i j : Nat) (f : TagEnt → TagEnt) : (s.onTag i f).tagEnt j = if j = i then f (s.tagEnt i) else s.tagEnt j := sget_supd ..

/-! ## Nothing but its own field -/

/-- An update of warps changes the list of warps and nothing else. -/
theorem onWarp_only (i : Nat) (f : Warp → Warp) : s.onWarp i f = { s with warps := (s.onWarp i f).warps } := rfl
theorem onQuad_only (i : Nat) (f : Quad → Quad) : s.onQuad i f = { s with quads := (s.onQuad i f).quads } := rfl
theorem onBlock_only (i : Nat) (f : Block → Block) : s.onBlock i f = { s with blocks := (s.onBlock i f).blocks } := rfl

end Sys2Proof.Machine
end

