-- ==== Sys2Proof/Laws/Lanes.lean ====
section
/-! SUPPORT. Laws of lane masks, of lists of lanes, and of the writes of registers and predicates. -/

namespace Sys2Proof.Machine

/-! ## Masks -/

theorem mem_lanes32 (l : Nat) : l ∈ lanes32 ↔ l < 32 := by
  constructor
  · intro h; simp only [lanes32, List.mem_cons, List.not_mem_nil, or_false] at h; omega
  · intro h; interval_cases l <;> decide

theorem mem_lanesOf (m : Mask) (l : Nat) : l ∈ lanesOf m ↔ m.getLsbD l = true := by
  simp only [lanesOf, List.mem_filter, mem_lanes32]
  constructor
  · exact fun h => h.2
  · intro h
    refine ⟨?_, h⟩
    by_contra hl
    rw [BitVec.getLsbD_of_ge _ _ (by omega)] at h
    exact absurd h (by decide)

theorem getLsbD_one_shl (n l : Nat) (hl : l < 32) : (1#32 <<< n).getLsbD l = decide (l = n) := by
  rw [BitVec.getLsbD_shiftLeft]
  by_cases h : l = n
  · subst h; simp [hl]
  · by_cases h2 : l < n
    · simp [h, h2]
    · simp only [hl, h, decide_true, h2, decide_false, Bool.not_false, Bool.true_and]
      rw [show (1#32).getLsbD (l - n) = false from ?_]
      have : l - n ≠ 0 := by omega
      simp [BitVec.getLsbD_one, this]

theorem foldl_maskOf (f : Nat → Bool) (ls : List Nat) (m : Mask) (l : Nat) (hl : l < 32) :
    (ls.foldl (fun m l => if f l then m ||| (1#32 <<< l) else m) m).getLsbD l = (m.getLsbD l || (ls.contains l && f l)) := by
  induction ls generalizing m with
  | nil => simp
  | cons a r ih =>
    rw [List.foldl_cons, ih]
    by_cases hf : f a = true
    · rw [if_pos hf, BitVec.getLsbD_or, getLsbD_one_shl _ _ hl]
      by_cases h : l = a
      · subst h; simp [hf]
      · simp [h]
    · rw [if_neg hf]
      by_cases h : l = a
      · subst h; simp [hf]
      · simp [h]

theorem getLsbD_maskOf (f : Nat → Bool) (l : Nat) (hl : l < 32) : (maskOf f).getLsbD l = f l := by
  rw [maskOf, foldl_maskOf f _ _ _ hl]
  have : l ∈ lanes32 := (mem_lanes32 l).2 hl
  simp [this]

theorem maskOf_false : maskOf (fun _ => false) = 0#32 := rfl

theorem mask_ext {m n : Mask} (h : ∀ l, l < 32 → m.getLsbD l = n.getLsbD l) : m = n := BitVec.eq_of_getLsbD_eq h

theorem lanesOf_lowest {m : Mask} (h : m ≠ 0#32) : m.getLsbD (lowestLane m) = true := by
  have hne : lanesOf m ≠ [] := by
    intro he
    apply h
    apply mask_ext
    intro l hl
    have : ¬ l ∈ lanesOf m := by rw [he]; simp
    rw [mem_lanesOf] at this
    simpa using this
  obtain ⟨a, r, e⟩ := List.exists_cons_of_ne_nil hne
  rw [lowestLane, e, List.headD_cons, ← mem_lanesOf, e]
  exact List.mem_cons_self ..

/-! ## Lanes -/

@[simp] theorem mapLanesFrom_length (m : Mask) (f : Lane → Lane) (n : Nat) (l : List Lane) : (mapLanesFrom m f n l).length = l.length := by
  induction l generalizing n with
  | nil => rfl
  | cons x r ih => simp [mapLanesFrom, ih]

@[simp] theorem mapLanes_length (m : Mask) (f : Lane → Lane) (l : List Lane) : (mapLanes m f l).length = l.length := mapLanesFrom_length ..

theorem laneAt_mapLanesFrom (m : Mask) (f : Lane → Lane) (l : List Lane) (n k : Nat) (h : k < l.length) :
    laneAt (mapLanesFrom m f n l) k = if m.getLsbD (n + k) then f (laneAt l k) else laneAt l k := by
  induction l generalizing n k with
  | nil => simp at h
  | cons x r ih =>
    cases k with
    | zero => simp [mapLanesFrom, laneAt]
    | succ k =>
      have := ih (n + 1) k (by simpa using h)
      simp only [mapLanesFrom, laneAt, List.getD_cons_succ] at this ⊢
      rw [this, show n + 1 + k = n + (k + 1) by omega]

/-- A lane of a list after an update of the lanes of a mask. -/
theorem laneAt_mapLanes (m : Mask) (f : Lane → Lane) (l : List Lane) (k : Nat) (h : k < l.length) :
    laneAt (mapLanes m f l) k = if m.getLsbD k then f (laneAt l k) else laneAt l k := by
  simpa [mapLanes] using laneAt_mapLanesFrom m f l 0 k h

theorem mapLanes_mapLanes (m : Mask) (f g : Lane → Lane) (l : List Lane) : mapLanes m f (mapLanes m g l) = mapLanes m (f ∘ g) l := by
  have : ∀ n, mapLanesFrom m f n (mapLanesFrom m g n l) = mapLanesFrom m (f ∘ g) n l := by
    induction l with
    | nil => intro n; rfl
    | cons x r ih => intro n; simp only [mapLanesFrom, ih]; split <;> rfl
  exact this 0

theorem mapLanes_zero (f : Lane → Lane) (l : List Lane) : mapLanes 0#32 f l = l := by
  have : ∀ n, mapLanesFrom 0#32 f n l = l := by
    induction l with
    | nil => intro n; rfl
    | cons x r ih => intro n; simp [mapLanesFrom, ih]
  exact this 0

/-! ## Words put in registers -/

theorem sget_putWords (st b ln : Nat) (ws : List Word) (n : Nat) (m : Sparse Word) (r l : Nat) (hl : l < st) (hln : ln < st) :
    sget 0 (st * r + l) (putWords st b ln n ws m) =
      if l = ln ∧ b + n ≤ r ∧ r < b + n + ws.length then ws.getD (r - (b + n)) 0 else sget 0 (st * r + l) m := by
  induction ws generalizing n m with
  | nil => rw [putWords, if_neg (by simp)]
  | cons x q ih =>
    rw [putWords, ih, sget_sput]
    have key : (st * r + l = st * (b + n) + ln) ↔ (l = ln ∧ r = b + n) := by
      constructor
      · intro h
        have h1 := congrArg (· % st) h
        have h2 := congrArg (· / st) h
        simp only [Nat.mul_add_mod, Nat.mod_eq_of_lt hl, Nat.mod_eq_of_lt hln] at h1
        have hp : 0 < st := by omega
        simp only [Nat.mul_add_div hp, Nat.div_eq_of_lt hl, Nat.div_eq_of_lt hln] at h2
        exact ⟨h1, by omega⟩
      · rintro ⟨rfl, rfl⟩; rfl
    have hlen : (x :: q).length = q.length + 1 := rfl
    by_cases hk : l = ln
    · subst hk
      by_cases h1 : r = b + n
      · subst h1
        rw [if_neg (by omega), if_pos (key.2 ⟨rfl, rfl⟩), if_pos ⟨rfl, by omega, by omega⟩]; simp
      · by_cases h2 : b + n ≤ r ∧ r < b + n + (x :: q).length
        · rw [if_pos ⟨rfl, by omega, by omega⟩, if_pos ⟨rfl, h2.1, h2.2⟩]
          obtain ⟨c, hc⟩ : ∃ c, r - (b + n) = c + 1 := ⟨r - (b + n) - 1, by omega⟩
          rw [hc, List.getD_cons_succ]; congr 1; omega
        · rw [if_neg (by omega), if_neg (by rw [key]; tauto), if_neg (by tauto)]
    · rw [if_neg (by tauto), if_neg (by rw [key]; tauto), if_neg (by tauto)]

theorem sget_putWords_fold (st b : Nat) (ls : List Nat) (g : Nat → List Word) (m : Sparse Word) (r l : Nat) (hl : l < st) (hs : ∀ x ∈ ls, x < st) :
    sget 0 (st * r + l) ((ls.map fun x => (x, g x)).foldl (fun m v => putWords st b v.1 0 v.2 m) m) =
      if l ∈ ls ∧ b ≤ r ∧ r < b + (g l).length then (g l).getD (r - b) 0 else sget 0 (st * r + l) m := by
  induction ls generalizing m with
  | nil => simp
  | cons a q ih =>
    rw [List.map_cons, List.foldl_cons, ih _ (fun x hx => hs x (List.mem_cons_of_mem _ hx)),
      sget_putWords _ _ _ _ _ _ _ _ hl (hs a (List.mem_cons_self ..))]
    dsimp only
    by_cases ha : l = a
    · subst ha
      by_cases hb : b ≤ r ∧ r < b + (g l).length
      · by_cases hq : l ∈ q
        · rw [if_pos ⟨hq, hb⟩, if_pos ⟨List.mem_cons_self .., hb⟩]
        · rw [if_neg (by tauto), if_pos ⟨rfl, by omega, by omega⟩, if_pos ⟨List.mem_cons_self .., hb⟩]; simp
      · rw [if_neg (by tauto), if_neg (by omega), if_neg (by tauto)]
    · by_cases hq : l ∈ q ∧ b ≤ r ∧ r < b + (g l).length
      · rw [if_pos hq, if_pos ⟨List.mem_cons_of_mem _ hq.1, hq.2⟩]
      · rw [if_neg hq, if_neg (by tauto), if_neg]
        rintro ⟨h1, h2⟩
        rcases List.mem_cons.1 h1 with h | h
        · exact ha h
        · exact hq ⟨h, h2⟩

/-- A uniform register written by each lane in turn with the same words. -/
theorem sget_putWords_same (b : Nat) (ls : List Nat) (ws : List Word) (m : Sparse Word) (r : Nat) (h : ls ≠ []) :
    sget 0 r ((ls.map fun x => (x, ws)).foldl (fun m v => putWords 1 b 0 0 v.2 m) m) =
      if b ≤ r ∧ r < b + ws.length then ws.getD (r - b) 0 else sget 0 r m := by
  have one : ∀ m, sget 0 r (putWords 1 b 0 0 ws m) = if b ≤ r ∧ r < b + ws.length then ws.getD (r - b) 0 else sget 0 r m := by
    intro m
    have := sget_putWords 1 b 0 ws 0 m r 0 (by omega) (by omega)
    simpa using this
  have rest : ∀ (ls : List Nat) m, (b ≤ r ∧ r < b + ws.length → sget 0 r m = ws.getD (r - b) 0) →
      sget 0 r ((ls.map fun x => (x, ws)).foldl (fun m v => putWords 1 b 0 0 v.2 m) m) =
        if b ≤ r ∧ r < b + ws.length then ws.getD (r - b) 0 else sget 0 r m := by
    intro ls
    induction ls with
    | nil => intro m hm; simp only [List.map_nil, List.foldl_nil]; split <;> simp_all
    | cons a q ih =>
      intro m hm
      rw [List.map_cons, List.foldl_cons, ih _ (fun hr => by rw [one, if_pos hr]), one]
      split <;> simp_all
  obtain ⟨a, q, rfl⟩ := List.exists_cons_of_ne_nil h
  rw [List.map_cons, List.foldl_cons, rest _ _ (fun hr => by rw [one, if_pos hr]), one]
  split <;> simp_all

/-! ## Bits of a predicate -/

theorem getLsbD_setBit (m : Mask) (a : Nat) (b : Bool) (l : Nat) (hl : l < 32) : (setBit m a b).getLsbD l = if l = a then b else m.getLsbD l := by
  unfold setBit
  cases b
  · simp only [Bool.false_eq_true, if_false, BitVec.getLsbD_and, BitVec.getLsbD_not, getLsbD_one_shl _ _ hl, hl, decide_true, Bool.true_and]
    by_cases h : l = a <;> simp [h]
  · simp only [if_true, BitVec.getLsbD_or, getLsbD_one_shl _ _ hl]
    by_cases h : l = a <;> simp [h]

theorem getLsbD_setBits (ls : List Nat) (g : Nat → Bool) (m : Mask) (l : Nat) (hl : l < 32) :
    ((ls.map fun x => (x, g x)).foldl (fun m v => setBit m v.1 v.2) m).getLsbD l = if l ∈ ls then g l else m.getLsbD l := by
  induction ls generalizing m with
  | nil => simp
  | cons a q ih =>
    rw [List.map_cons, List.foldl_cons, ih, getLsbD_setBit _ _ _ _ hl]
    by_cases ha : l = a
    · subst ha; by_cases hq : l ∈ q <;> simp [hq]
    · by_cases hq : l ∈ q <;> simp [ha, hq]

end Sys2Proof.Machine
end

