-- ==== Sys2Proof/Laws/PerInstr.lean ====
section
/-! SUPPORT. The per-instruction laws: for each constructor, the word of a well-formed instruction decodes to the instruction, with every operand at every
value that the encoding admits. Events have no word. -/

namespace Sys2Proof.Laws.RoundTrip

/-- Decoding the word of a well-formed instruction gives it back. -/
def Statement (i : Instr) : Prop := i.wf = true → ∀ w, encode i = some w → decode w = .ok i

theorem iadd (c : Common) (m : SatMode) (r : R3) : Statement (.iadd c m r) := decodes_of rfl fun hw0 => by
  show decInt c 0x000 _ = _
  have q := decR3_enc r (mSat m) true true hw0
  simp only [decInt, bit, ext_all, R3_md, q, modSat, modBool, modSgn, modRM]
  cases m <;> rfl

theorem isub (c : Common) (m : SatMode) (r : R3) : Statement (.isub c m r) := decodes_of rfl fun hw0 => by
  show decInt c 0x001 _ = _
  have q := decR3_enc r (mSat m) true true hw0
  simp only [decInt, bit, ext_all, R3_md, q, modSat, modBool, modSgn, modRM]
  cases m <;> rfl

theorem imul (c : Common) (r : R3) : Statement (.imul c r) := decodes_of rfl fun hw0 => by
  show decInt c 0x002 _ = _
  have q := decR3_enc r (0) true true hw0
  simp only [decInt, bit, ext_all, R3_md, q, modSat, modBool, modSgn, modRM]
  rfl

theorem imulh (c : Common) (g : Sgn) (r : R3) : Statement (.imulh c g r) := decodes_of rfl fun hw0 => by
  show decInt c 0x003 _ = _
  have q := decR3_enc r (mSgn g) true true hw0
  simp only [decInt, bit, ext_all, R3_md, q, modSat, modBool, modSgn, modRM]
  cases g <;> rfl

theorem imad (c : Common) (r : R3) : Statement (.imad c r) := decodes_of rfl fun hw0 => by
  show decInt c 0x004 _ = _
  have q := decR3_enc r (0) true true hw0
  simp only [decInt, bit, ext_all, R3_md, q, modSat, modBool, modSgn, modRM]
  rfl

theorem imadw (c : Common) (g : Sgn) (r : R3) : Statement (.imadw c g r) := decodes_of rfl fun hw0 => by
  show decInt c 0x005 _ = _
  have q := decR3_enc r (mSgn g) true true hw0
  simp only [decInt, bit, ext_all, R3_md, q, modSat, modBool, modSgn, modRM]
  cases g <;> rfl

theorem iadd64 (c : Common) (r : R3) : Statement (.iadd64 c r) := decodes_of rfl fun hw0 => by
  show decInt c 0x006 _ = _
  have q := decR3_enc r (0) true true hw0
  simp only [decInt, bit, ext_all, R3_md, q, modSat, modBool, modSgn, modRM]
  rfl

theorem imin (c : Common) (g : Sgn) (r : R3) : Statement (.imin c g r) := decodes_of rfl fun hw0 => by
  show decInt c 0x007 _ = _
  have q := decR3_enc r (mSgn g) true true hw0
  simp only [decInt, bit, ext_all, R3_md, q, modSat, modBool, modSgn, modRM]
  cases g <;> rfl

theorem imax (c : Common) (g : Sgn) (r : R3) : Statement (.imax c g r) := decodes_of rfl fun hw0 => by
  show decInt c 0x008 _ = _
  have q := decR3_enc r (mSgn g) true true hw0
  simp only [decInt, bit, ext_all, R3_md, q, modSat, modBool, modSgn, modRM]
  cases g <;> rfl

theorem iabs (c : Common) (sat : Bool) (r : R2) : Statement (.iabs c sat r) := decodes_of rfl fun hw0 => by
  show decInt c 0x009 _ = _
  have q := decR2_enc r (mBool sat) hw0
  simp only [decInt, bit, ext_all, R2_md, q, modSat, modBool, modSgn, modRM]
  cases sat <;> rfl

theorem ishl (c : Common) (r : R3) : Statement (.ishl c r) := decodes_of rfl fun hw0 => by
  show decInt c 0x00A _ = _
  have q := decR3_enc r (0) true true hw0
  simp only [decInt, bit, ext_all, R3_md, q, modSat, modBool, modSgn, modRM]
  rfl

theorem ishr (c : Common) (r : R3) : Statement (.ishr c r) := decodes_of rfl fun hw0 => by
  show decInt c 0x00B _ = _
  have q := decR3_enc r (0) true true hw0
  simp only [decInt, bit, ext_all, R3_md, q, modSat, modBool, modSgn, modRM]
  rfl

theorem lshr (c : Common) (r : R3) : Statement (.lshr c r) := decodes_of rfl fun hw0 => by
  show decInt c 0x00C _ = _
  have q := decR3_enc r (0) true true hw0
  simp only [decInt, bit, ext_all, R3_md, q, modSat, modBool, modSgn, modRM]
  rfl

theorem rot (c : Common) (right : Bool) (r : R3) : Statement (.rot c right r) := decodes_of rfl fun hw0 => by
  show decInt c 0x00D _ = _
  have q := decR3_enc r (mBool right) true true hw0
  simp only [decInt, bit, ext_all, R3_md, q, modSat, modBool, modSgn, modRM]
  cases right <;> rfl

theorem and (c : Common) (r : R3) : Statement (.and c r) := decodes_of rfl fun hw0 => by
  show decInt c 0x00E _ = _
  have q := decR3_enc r (0) true true hw0
  simp only [decInt, bit, ext_all, R3_md, q, modSat, modBool, modSgn, modRM]
  rfl

theorem or (c : Common) (r : R3) : Statement (.or c r) := decodes_of rfl fun hw0 => by
  show decInt c 0x00F _ = _
  have q := decR3_enc r (0) true true hw0
  simp only [decInt, bit, ext_all, R3_md, q, modSat, modBool, modSgn, modRM]
  rfl

theorem xor (c : Common) (r : R3) : Statement (.xor c r) := decodes_of rfl fun hw0 => by
  show decInt c 0x010 _ = _
  have q := decR3_enc r (0) true true hw0
  simp only [decInt, bit, ext_all, R3_md, q, modSat, modBool, modSgn, modRM]
  rfl

theorem andn (c : Common) (r : R3) : Statement (.andn c r) := decodes_of rfl fun hw0 => by
  show decInt c 0x011 _ = _
  have q := decR3_enc r (0) true true hw0
  simp only [decInt, bit, ext_all, R3_md, q, modSat, modBool, modSgn, modRM]
  rfl

theorem popc (c : Common) (r : R2) : Statement (.popc c r) := decodes_of rfl fun hw0 => by
  show decInt c 0x012 _ = _
  have q := decR2_enc r (0) hw0
  simp only [decInt, bit, ext_all, R2_md, q, modSat, modBool, modSgn, modRM]
  rfl

theorem clz (c : Common) (r : R2) : Statement (.clz c r) := decodes_of rfl fun hw0 => by
  show decInt c 0x013 _ = _
  have q := decR2_enc r (0) hw0
  simp only [decInt, bit, ext_all, R2_md, q, modSat, modBool, modSgn, modRM]
  rfl

theorem brev (c : Common) (r : R2) : Statement (.brev c r) := decodes_of rfl fun hw0 => by
  show decInt c 0x014 _ = _
  have q := decR2_enc r (0) hw0
  simp only [decInt, bit, ext_all, R2_md, q, modSat, modBool, modSgn, modRM]
  rfl

theorem bfx (c : Common) (g : Sgn) (r : R3) : Statement (.bfx c g r) := decodes_of rfl fun hw0 => by
  show decInt c 0x015 _ = _
  have q := decR3_enc r (mBool (zOf g)) true true hw0
  simp only [decInt, bit, ext_all, R3_md, q, modSat, modBool, modSgn, modRM]
  cases g <;> rfl

theorem bfi (c : Common) (r : R3) : Statement (.bfi c r) := decodes_of rfl fun hw0 => by
  show decInt c 0x016 _ = _
  have q := decR3_enc r (0) true true hw0
  simp only [decInt, bit, ext_all, R3_md, q, modSat, modBool, modSgn, modRM]
  rfl

theorem iset (c : Common) (cc : ICmp) (g : Sgn) (r : R3) : Statement (.iset c cc g r) := decodes_of rfl fun hw0 => by
  show decInt c 0x017 _ = _
  have e0_1 := R3_bits r (encICmp cc ++ encSgn g ++ 0#1) 0 1 (by decide)
  rw [ext_lo (a := 4) (b := 1) _ _ _ _ (by decide)] at e0_1
  have e1_1 := R3_bits r (encICmp cc ++ encSgn g ++ 0#1) 1 1 (by decide)
  rw [ext_hi (a := 4) (b := 1) _ _ _ _ (by decide), ext_lo (a := 3) (b := 1) _ _ _ _ (by decide)] at e1_1
  have e2_3 := R3_bits r (encICmp cc ++ encSgn g ++ 0#1) 2 3 (by decide)
  rw [ext_hi (a := 4) (b := 1) _ _ _ _ (by decide), ext_hi (a := 3) (b := 1) _ _ _ _ (by decide)] at e2_3
  have q := decR3_enc r (encICmp cc ++ encSgn g ++ 0#1) true true hw0
  simp only [decInt, bit, ext_all, e0_1, e1_1, e2_3, R3_md, q, modSat, modBool, modSgn, modRM]
  cases cc <;> cases g <;> rfl

theorem sel (c : Common) (inv : Bool) (p : BitVec 4) (r : R3) : Statement (.sel c inv p r) := decodes_of rfl fun hw0 => by
  show decInt c 0x018 _ = _
  have e0_4 := R3_bits r (encBool inv ++ p) 0 4 (by decide)
  rw [ext_lo (a := 1) (b := 4) _ _ _ _ (by decide)] at e0_4
  have e4_1 := R3_bits r (encBool inv ++ p) 4 1 (by decide)
  rw [ext_hi (a := 1) (b := 4) _ _ _ _ (by decide)] at e4_1
  have q := decR3_enc r (encBool inv ++ p) true true hw0
  simp only [decInt, bit, ext_all, e0_4, e4_1, R3_md, q, modSat, modBool, modSgn, modRM]
  cases inv <;> rfl

theorem mov (c : Common) (wide : Bool) (r : R2) : Statement (.mov c wide r) := decodes_of rfl fun hw0 => by
  show decInt c 0x019 _ = _
  have q := decR2_enc r (mBool wide) hw0
  simp only [decInt, bit, ext_all, R2_md, q, modSat, modBool, modSgn, modRM]
  cases wide <;> rfl

theorem movi (c : Common) (d : Fld) (imm : Word) : Statement (.movi c d imm) := decodes_of rfl fun hw0 => by
  show decInt c 0x01A _ = _
  have e0_2 : Body.bits (d ++ imm ++ 0#2) 0 2 = BitVec.extractLsb' 0 2 (0#2 : BitVec 2) := by unfold Body.bits; rw [ext_lo (a := 42) (b := 2) _ _ _ _ (by decide)]
  have e2_32 : Body.bits (d ++ imm ++ 0#2) 2 32 = BitVec.extractLsb' 0 32 (imm : BitVec 32) := by unfold Body.bits; rw [ext_hi (a := 42) (b := 2) _ _ _ _ (by decide), ext_lo (a := 10) (b := 32) _ _ _ _ (by decide)]
  have e34_10 : Body.bits (d ++ imm ++ 0#2) 34 10 = BitVec.extractLsb' 0 10 (d : BitVec 10) := by unfold Body.bits; rw [ext_hi (a := 42) (b := 2) _ _ _ _ (by decide), ext_hi (a := 10) (b := 32) _ _ _ _ (by decide)]
  simp only [decInt, bit, ext_all, e0_2, e2_32, e34_10, modSat, modBool, modSgn, modRM, Body.md]
  rfl

theorem iaddi (c : Common) (d : Fld) (a : Fld) (imm : BitVec 19) : Statement (.iaddi c d a imm) := decodes_of rfl fun hw0 => by
  show decInt c 0x01B _ = _
  have e0_5 : Body.bits (d ++ a ++ imm ++ 0#5) 0 5 = BitVec.extractLsb' 0 5 (0#5 : BitVec 5) := by unfold Body.bits; rw [ext_lo (a := 39) (b := 5) _ _ _ _ (by decide)]
  have e5_19 : Body.bits (d ++ a ++ imm ++ 0#5) 5 19 = BitVec.extractLsb' 0 19 (imm : BitVec 19) := by unfold Body.bits; rw [ext_hi (a := 39) (b := 5) _ _ _ _ (by decide), ext_lo (a := 20) (b := 19) _ _ _ _ (by decide)]
  have e24_10 : Body.bits (d ++ a ++ imm ++ 0#5) 24 10 = BitVec.extractLsb' 0 10 (a : BitVec 10) := by unfold Body.bits; rw [ext_hi (a := 39) (b := 5) _ _ _ _ (by decide), ext_hi (a := 20) (b := 19) _ _ _ _ (by decide), ext_lo (a := 10) (b := 10) _ _ _ _ (by decide)]
  have e34_10 : Body.bits (d ++ a ++ imm ++ 0#5) 34 10 = BitVec.extractLsb' 0 10 (d : BitVec 10) := by unfold Body.bits; rw [ext_hi (a := 39) (b := 5) _ _ _ _ (by decide), ext_hi (a := 20) (b := 19) _ _ _ _ (by decide), ext_hi (a := 10) (b := 10) _ _ _ _ (by decide)]
  simp only [decInt, bit, ext_all, e0_5, e5_19, e24_10, e34_10, modSat, modBool, modSgn, modRM, Body.md]
  rfl

theorem movx (c : Common) (d : Fld) (a : Fld) (b : Fld) : Statement (.movx c d a b) := decodes_of rfl fun hw0 => by
  show decInt c 0x01C _ = _
  have e5_9 := encR_pb d a b .none (0) 5 9 (by decide) (by decide)
  simp only [decInt, bit, ext_all, encR_md, encR_d, encR_a, encR_b, e5_9, modSat, modBool, modSgn, modRM]
  rfl

theorem movxSt (c : Common) (d : Fld) (a : Fld) (b : Fld) : Statement (.movxSt c d a b) := decodes_of rfl fun hw0 => by
  show decInt c 0x01C _ = _
  have e5_9 := encR_pb d a b .none (1) 5 9 (by decide) (by decide)
  simp only [decInt, bit, ext_all, encR_md, encR_d, encR_a, encR_b, e5_9, modSat, modBool, modSgn, modRM]
  rfl

theorem movxw (c : Common) (k : Wide) (d : Fld) (imm : Word) : Statement (.movxw c k d imm) := decodes_of rfl fun hw0 => by
  show decInt c 0x01D _ = _
  have e0_2 : Body.bits (d ++ imm ++ encWide k) 0 2 = BitVec.extractLsb' 0 2 (encWide k : BitVec 2) := by unfold Body.bits; rw [ext_lo (a := 42) (b := 2) _ _ _ _ (by decide)]
  have e2_32 : Body.bits (d ++ imm ++ encWide k) 2 32 = BitVec.extractLsb' 0 32 (imm : BitVec 32) := by unfold Body.bits; rw [ext_hi (a := 42) (b := 2) _ _ _ _ (by decide), ext_lo (a := 10) (b := 32) _ _ _ _ (by decide)]
  have e34_10 : Body.bits (d ++ imm ++ encWide k) 34 10 = BitVec.extractLsb' 0 10 (d : BitVec 10) := by unfold Body.bits; rw [ext_hi (a := 42) (b := 2) _ _ _ _ (by decide), ext_hi (a := 10) (b := 32) _ _ _ _ (by decide)]
  simp only [decInt, bit, ext_all, e0_2, e2_32, e34_10, modSat, modBool, modSgn, modRM, Body.md]
  cases k <;> rfl

theorem lea (c : Common) (g : Sgn) (sh : BitVec 3) (r : R3) : Statement (.lea c g sh r) := decodes_of rfl fun hw0 => by
  show decInt c 0x01E _ = _
  have e0_3 := R3_bits r (0#1 ++ encBool (zOf g) ++ sh) 0 3 (by decide)
  rw [ext_lo (a := 2) (b := 3) _ _ _ _ (by decide)] at e0_3
  have e3_1 := R3_bits r (0#1 ++ encBool (zOf g) ++ sh) 3 1 (by decide)
  rw [ext_hi (a := 2) (b := 3) _ _ _ _ (by decide), ext_lo (a := 1) (b := 1) _ _ _ _ (by decide)] at e3_1
  have e4_1 := R3_bits r (0#1 ++ encBool (zOf g) ++ sh) 4 1 (by decide)
  rw [ext_hi (a := 2) (b := 3) _ _ _ _ (by decide), ext_hi (a := 1) (b := 1) _ _ _ _ (by decide)] at e4_1
  have q := decR3_enc r (0#1 ++ encBool (zOf g) ++ sh) true true hw0
  simp only [decInt, bit, ext_all, e0_3, e3_1, e4_1, R3_md, q, modSat, modBool, modSgn, modRM]
  cases g <;> rfl

theorem idot4 (c : Common) (sat : Bool) (ua : Bool) (ub : Bool) (r : R3) : Statement (.idot4 c sat ua ub r) := decodes_of rfl fun hw0 => by
  show decInt c 0x01F _ = _
  have e0_1 := R3_bits r (0#2 ++ encBool sat ++ encBool ub ++ encBool ua) 0 1 (by decide)
  rw [ext_lo (a := 4) (b := 1) _ _ _ _ (by decide)] at e0_1
  have e1_1 := R3_bits r (0#2 ++ encBool sat ++ encBool ub ++ encBool ua) 1 1 (by decide)
  rw [ext_hi (a := 4) (b := 1) _ _ _ _ (by decide), ext_lo (a := 3) (b := 1) _ _ _ _ (by decide)] at e1_1
  have e2_1 := R3_bits r (0#2 ++ encBool sat ++ encBool ub ++ encBool ua) 2 1 (by decide)
  rw [ext_hi (a := 4) (b := 1) _ _ _ _ (by decide), ext_hi (a := 3) (b := 1) _ _ _ _ (by decide), ext_lo (a := 2) (b := 1) _ _ _ _ (by decide)] at e2_1
  have e3_2 := R3_bits r (0#2 ++ encBool sat ++ encBool ub ++ encBool ua) 3 2 (by decide)
  rw [ext_hi (a := 4) (b := 1) _ _ _ _ (by decide), ext_hi (a := 3) (b := 1) _ _ _ _ (by decide), ext_hi (a := 2) (b := 1) _ _ _ _ (by decide)] at e3_2
  have q := decR3_enc r (0#2 ++ encBool sat ++ encBool ub ++ encBool ua) true true hw0
  simp only [decInt, bit, ext_all, e0_1, e1_1, e2_1, e3_2, R3_md, q, modSat, modBool, modSgn, modRM]
  cases sat <;> cases ua <;> cases ub <;> rfl

theorem fadd (c : Common) (m : RM) (r : R3) : Statement (.fadd c m r) := decodes_of rfl fun hw0 => by
  show decFloat c 0x100 _ = _
  have e0_2 := R3_bits r (mRM m) 0 2 (by decide)
  have e2_3 := R3_bits r (mRM m) 2 3 (by decide)
  have q := decR3_enc r (mRM m) true true hw0
  simp only [decFloat, bit, ext_all, e0_2, e2_3, R3_md, q, modSat, modBool, modSgn, modRM]
  cases m <;> rfl

theorem fsub (c : Common) (m : RM) (r : R3) : Statement (.fsub c m r) := decodes_of rfl fun hw0 => by
  show decFloat c 0x101 _ = _
  have e0_2 := R3_bits r (mRM m) 0 2 (by decide)
  have e2_3 := R3_bits r (mRM m) 2 3 (by decide)
  have q := decR3_enc r (mRM m) true true hw0
  simp only [decFloat, bit, ext_all, e0_2, e2_3, R3_md, q, modSat, modBool, modSgn, modRM]
  cases m <;> rfl

theorem fmul (c : Common) (m : RM) (r : R3) : Statement (.fmul c m r) := decodes_of rfl fun hw0 => by
  show decFloat c 0x102 _ = _
  have e0_2 := R3_bits r (mRM m) 0 2 (by decide)
  have e2_3 := R3_bits r (mRM m) 2 3 (by decide)
  have q := decR3_enc r (mRM m) true true hw0
  simp only [decFloat, bit, ext_all, e0_2, e2_3, R3_md, q, modSat, modBool, modSgn, modRM]
  cases m <;> rfl

theorem ffma (c : Common) (m : RM) (r : R3) : Statement (.ffma c m r) := decodes_of rfl fun hw0 => by
  show decFloat c 0x103 _ = _
  have e0_2 := R3_bits r (mRM m) 0 2 (by decide)
  have e2_3 := R3_bits r (mRM m) 2 3 (by decide)
  have q := decR3_enc r (mRM m) true true hw0
  simp only [decFloat, bit, ext_all, e0_2, e2_3, R3_md, q, modSat, modBool, modSgn, modRM]
  cases m <;> rfl

theorem fmin (c : Common) (r : R3) : Statement (.fmin c r) := decodes_of rfl fun hw0 => by
  show decFloat c 0x104 _ = _
  have q := decR3_enc r (0) true true hw0
  simp only [decFloat, bit, ext_all, R3_md, q, modSat, modBool, modSgn, modRM]
  rfl

theorem fmax (c : Common) (r : R3) : Statement (.fmax c r) := decodes_of rfl fun hw0 => by
  show decFloat c 0x105 _ = _
  have q := decR3_enc r (0) true true hw0
  simp only [decFloat, bit, ext_all, R3_md, q, modSat, modBool, modSgn, modRM]
  rfl

theorem fset (c : Common) (cc : FCmp) (r : R3) : Statement (.fset c cc r) := decodes_of rfl fun hw0 => by
  show decFloat c 0x106 _ = _
  have e0_2 := R3_bits r (encFCmp cc ++ 0#2) 0 2 (by decide)
  rw [ext_lo (a := 3) (b := 2) _ _ _ _ (by decide)] at e0_2
  have e2_3 := R3_bits r (encFCmp cc ++ 0#2) 2 3 (by decide)
  rw [ext_hi (a := 3) (b := 2) _ _ _ _ (by decide)] at e2_3
  have q := decR3_enc r (encFCmp cc ++ 0#2) true true hw0
  simp only [decFloat, bit, ext_all, e0_2, e2_3, R3_md, q, modSat, modBool, modSgn, modRM]
  cases cc <;> rfl

theorem fclass (c : Common) (f : ClassFmt) (r : R2) : Statement (.fclass c f r) := decodes_of rfl fun hw0 => by
  show decFloat c 0x107 _ = _
  have q := decR2_enc r (encClassFmt f) hw0
  simp only [decFloat, bit, ext_all, R2_md, q, modSat, modBool, modSgn, modRM]
  cases f <;> rfl

theorem frcp (c : Common) (m : RM) (r : R2) : Statement (.frcp c m r) := decodes_of rfl fun hw0 => by
  show decFloat c 0x108 _ = _
  have e0_2 := R2_bits r (mRM m) 0 2 (by decide)
  have e2_3 := R2_bits r (mRM m) 2 3 (by decide)
  have q := decR2_enc r (mRM m) hw0
  simp only [decFloat, bit, ext_all, e0_2, e2_3, R2_md, q, modSat, modBool, modSgn, modRM]
  cases m <;> rfl

theorem frsq (c : Common) (m : RM) (r : R2) : Statement (.frsq c m r) := decodes_of rfl fun hw0 => by
  show decFloat c 0x109 _ = _
  have e0_2 := R2_bits r (mRM m) 0 2 (by decide)
  have e2_3 := R2_bits r (mRM m) 2 3 (by decide)
  have q := decR2_enc r (mRM m) hw0
  simp only [decFloat, bit, ext_all, e0_2, e2_3, R2_md, q, modSat, modBool, modSgn, modRM]
  cases m <;> rfl

theorem fsqrt (c : Common) (m : RM) (r : R2) : Statement (.fsqrt c m r) := decodes_of rfl fun hw0 => by
  show decFloat c 0x10A _ = _
  have e0_2 := R2_bits r (mRM m) 0 2 (by decide)
  have e2_3 := R2_bits r (mRM m) 2 3 (by decide)
  have q := decR2_enc r (mRM m) hw0
  simp only [decFloat, bit, ext_all, e0_2, e2_3, R2_md, q, modSat, modBool, modSgn, modRM]
  cases m <;> rfl

theorem fexp2 (c : Common) (m : RM) (r : R2) : Statement (.fexp2 c m r) := decodes_of rfl fun hw0 => by
  show decFloat c 0x10B _ = _
  have e0_2 := R2_bits r (mRM m) 0 2 (by decide)
  have e2_3 := R2_bits r (mRM m) 2 3 (by decide)
  have q := decR2_enc r (mRM m) hw0
  simp only [decFloat, bit, ext_all, e0_2, e2_3, R2_md, q, modSat, modBool, modSgn, modRM]
  cases m <;> rfl

theorem flog2 (c : Common) (m : RM) (r : R2) : Statement (.flog2 c m r) := decodes_of rfl fun hw0 => by
  show decFloat c 0x10C _ = _
  have e0_2 := R2_bits r (mRM m) 0 2 (by decide)
  have e2_3 := R2_bits r (mRM m) 2 3 (by decide)
  have q := decR2_enc r (mRM m) hw0
  simp only [decFloat, bit, ext_all, e0_2, e2_3, R2_md, q, modSat, modBool, modSgn, modRM]
  cases m <;> rfl

theorem fdiv (c : Common) (m : RM) (r : R3) : Statement (.fdiv c m r) := decodes_of rfl fun hw0 => by
  show decFloat c 0x10D _ = _
  have e0_2 := R3_bits r (mRM m) 0 2 (by decide)
  have e2_3 := R3_bits r (mRM m) 2 3 (by decide)
  have q := decR3_enc r (mRM m) true true hw0
  simp only [decFloat, bit, ext_all, e0_2, e2_3, R3_md, q, modSat, modBool, modSgn, modRM]
  cases m <;> rfl

theorem frnd (c : Common) (m : RM) (r : R2) : Statement (.frnd c m r) := decodes_of rfl fun hw0 => by
  show decFloat c 0x10E _ = _
  have e0_2 := R2_bits r (mRM m) 0 2 (by decide)
  have e2_3 := R2_bits r (mRM m) 2 3 (by decide)
  have q := decR2_enc r (mRM m) hw0
  simp only [decFloat, bit, ext_all, e0_2, e2_3, R2_md, q, modSat, modBool, modSgn, modRM]
  cases m <;> rfl

theorem fcvt (c : Common) (k : Cvt) (m : RM) (r : R2) : Statement (.fcvt c k m r) := decodes_of rfl fun hw0 => by
  show decFloat c 0x10F _ = _
  have e0_2 := R2_bits r (encCvt k ++ encRM m) 0 2 (by decide)
  rw [ext_lo (a := 3) (b := 2) _ _ _ _ (by decide)] at e0_2
  have e2_3 := R2_bits r (encCvt k ++ encRM m) 2 3 (by decide)
  rw [ext_hi (a := 3) (b := 2) _ _ _ _ (by decide)] at e2_3
  have q := decR2_enc r (encCvt k ++ encRM m) (by simp only [Instr.wf, Bool.and_eq_true] at hw0; exact hw0.1)
  simp only [decFloat, bit, ext_all, e0_2, e2_3, R2_md, q, modSat, modBool, modSgn, modRM]
  cases k <;> cases m <;> first | rfl | exact absurd hw0 (by simp [Instr.wf, cvtWf])

theorem ftoi (c : Common) (g : Sgn) (m : RM) (r : R2) : Statement (.ftoi c g m r) := decodes_of rfl fun hw0 => by
  show decFloat c 0x110 _ = _
  have e0_2 := R2_bits r (0#2 ++ encSgn g ++ encRM m) 0 2 (by decide)
  rw [ext_lo (a := 3) (b := 2) _ _ _ _ (by decide)] at e0_2
  have e2_1 := R2_bits r (0#2 ++ encSgn g ++ encRM m) 2 1 (by decide)
  rw [ext_hi (a := 3) (b := 2) _ _ _ _ (by decide), ext_lo (a := 2) (b := 1) _ _ _ _ (by decide)] at e2_1
  have e3_2 := R2_bits r (0#2 ++ encSgn g ++ encRM m) 3 2 (by decide)
  rw [ext_hi (a := 3) (b := 2) _ _ _ _ (by decide), ext_hi (a := 2) (b := 1) _ _ _ _ (by decide)] at e3_2
  have q := decR2_enc r (0#2 ++ encSgn g ++ encRM m) hw0
  simp only [decFloat, bit, ext_all, e0_2, e2_1, e3_2, R2_md, q, modSat, modBool, modSgn, modRM]
  cases g <;> cases m <;> rfl

theorem itof (c : Common) (g : Sgn) (m : RM) (r : R2) : Statement (.itof c g m r) := decodes_of rfl fun hw0 => by
  show decFloat c 0x111 _ = _
  have e0_2 := R2_bits r (0#2 ++ encSgn g ++ encRM m) 0 2 (by decide)
  rw [ext_lo (a := 3) (b := 2) _ _ _ _ (by decide)] at e0_2
  have e2_1 := R2_bits r (0#2 ++ encSgn g ++ encRM m) 2 1 (by decide)
  rw [ext_hi (a := 3) (b := 2) _ _ _ _ (by decide), ext_lo (a := 2) (b := 1) _ _ _ _ (by decide)] at e2_1
  have e3_2 := R2_bits r (0#2 ++ encSgn g ++ encRM m) 3 2 (by decide)
  rw [ext_hi (a := 3) (b := 2) _ _ _ _ (by decide), ext_hi (a := 2) (b := 1) _ _ _ _ (by decide)] at e3_2
  have q := decR2_enc r (0#2 ++ encSgn g ++ encRM m) hw0
  simp only [decFloat, bit, ext_all, e0_2, e2_1, e3_2, R2_md, q, modSat, modBool, modSgn, modRM]
  cases g <;> cases m <;> rfl

theorem fsign (c : Common) (op : SignOp) (h2 : Bool) (r : R3) : Statement (.fsign c op h2 r) := decodes_of rfl fun hw0 => by
  show decFloat c 0x112 _ = _
  have e0_2 := R3_bits r (0#2 ++ encBool h2 ++ encSignOp op) 0 2 (by decide)
  rw [ext_lo (a := 3) (b := 2) _ _ _ _ (by decide)] at e0_2
  have e2_1 := R3_bits r (0#2 ++ encBool h2 ++ encSignOp op) 2 1 (by decide)
  rw [ext_hi (a := 3) (b := 2) _ _ _ _ (by decide), ext_lo (a := 2) (b := 1) _ _ _ _ (by decide)] at e2_1
  have e3_2 := R3_bits r (0#2 ++ encBool h2 ++ encSignOp op) 3 2 (by decide)
  rw [ext_hi (a := 3) (b := 2) _ _ _ _ (by decide), ext_hi (a := 2) (b := 1) _ _ _ _ (by decide)] at e3_2
  have q1 := fun hb hp => decR3a_enc r (0#2 ++ encBool h2 ++ encSignOp op) hb hp
  have q2 := fun hp => decR3_enc r (0#2 ++ encBool h2 ++ encSignOp op) true true hp
  simp only [decFloat, bit, ext_all, e0_2, e2_1, e3_2, R3_md, modSat, modBool, modSgn, modRM]
  cases op <;> simp only [Instr.wf, Bool.and_eq_true, decide_eq_true_eq] at hw0 <;> cases h2 <;>
    first | (rw [q1 hw0.1 hw0.2]; rfl) | (rw [q2 hw0]; rfl)

theorem hfma2 (c : Common) (f : HFmt) (m : RM) (r : R3) : Statement (.hfma2 c f m r) := decodes_of rfl fun hw0 => by
  show decFloat c 0x113 _ = _
  have e0_2 := R3_bits r (0#2 ++ encHFmt f ++ encRM m) 0 2 (by decide)
  rw [ext_lo (a := 3) (b := 2) _ _ _ _ (by decide)] at e0_2
  have e2_1 := R3_bits r (0#2 ++ encHFmt f ++ encRM m) 2 1 (by decide)
  rw [ext_hi (a := 3) (b := 2) _ _ _ _ (by decide), ext_lo (a := 2) (b := 1) _ _ _ _ (by decide)] at e2_1
  have e3_2 := R3_bits r (0#2 ++ encHFmt f ++ encRM m) 3 2 (by decide)
  rw [ext_hi (a := 3) (b := 2) _ _ _ _ (by decide), ext_hi (a := 2) (b := 1) _ _ _ _ (by decide)] at e3_2
  have q := decR3_enc r (0#2 ++ encHFmt f ++ encRM m) true true hw0
  simp only [decFloat, bit, ext_all, e0_2, e2_1, e3_2, R3_md, q, modSat, modBool, modSgn, modRM]
  cases f <;> cases m <;> rfl

theorem hadd2 (c : Common) (f : HFmt) (m : RM) (r : R3) : Statement (.hadd2 c f m r) := decodes_of rfl fun hw0 => by
  show decFloat c 0x114 _ = _
  have e0_2 := R3_bits r (0#2 ++ encHFmt f ++ encRM m) 0 2 (by decide)
  rw [ext_lo (a := 3) (b := 2) _ _ _ _ (by decide)] at e0_2
  have e2_1 := R3_bits r (0#2 ++ encHFmt f ++ encRM m) 2 1 (by decide)
  rw [ext_hi (a := 3) (b := 2) _ _ _ _ (by decide), ext_lo (a := 2) (b := 1) _ _ _ _ (by decide)] at e2_1
  have e3_2 := R3_bits r (0#2 ++ encHFmt f ++ encRM m) 3 2 (by decide)
  rw [ext_hi (a := 3) (b := 2) _ _ _ _ (by decide), ext_hi (a := 2) (b := 1) _ _ _ _ (by decide)] at e3_2
  have q := decR3_enc r (0#2 ++ encHFmt f ++ encRM m) true true hw0
  simp only [decFloat, bit, ext_all, e0_2, e2_1, e3_2, R3_md, q, modSat, modBool, modSgn, modRM]
  cases f <;> cases m <;> rfl

theorem hmul2 (c : Common) (f : HFmt) (m : RM) (r : R3) : Statement (.hmul2 c f m r) := decodes_of rfl fun hw0 => by
  show decFloat c 0x115 _ = _
  have e0_2 := R3_bits r (0#2 ++ encHFmt f ++ encRM m) 0 2 (by decide)
  rw [ext_lo (a := 3) (b := 2) _ _ _ _ (by decide)] at e0_2
  have e2_1 := R3_bits r (0#2 ++ encHFmt f ++ encRM m) 2 1 (by decide)
  rw [ext_hi (a := 3) (b := 2) _ _ _ _ (by decide), ext_lo (a := 2) (b := 1) _ _ _ _ (by decide)] at e2_1
  have e3_2 := R3_bits r (0#2 ++ encHFmt f ++ encRM m) 3 2 (by decide)
  rw [ext_hi (a := 3) (b := 2) _ _ _ _ (by decide), ext_hi (a := 2) (b := 1) _ _ _ _ (by decide)] at e3_2
  have q := decR3_enc r (0#2 ++ encHFmt f ++ encRM m) true true hw0
  simp only [decFloat, bit, ext_all, e0_2, e2_1, e3_2, R3_md, q, modSat, modBool, modSgn, modRM]
  cases f <;> cases m <;> rfl

theorem qdec (c : Common) (f : NFmt) (hi : Bool) (r : R3) : Statement (.qdec c f hi r) := decodes_of rfl fun hw0 => by
  show decNarrow c 0x120 _ = _
  have e0_2 := R3_bits r (0#2 ++ encBool hi ++ encNFmt f) 0 2 (by decide)
  rw [ext_lo (a := 3) (b := 2) _ _ _ _ (by decide)] at e0_2
  have e2_1 := R3_bits r (0#2 ++ encBool hi ++ encNFmt f) 2 1 (by decide)
  rw [ext_hi (a := 3) (b := 2) _ _ _ _ (by decide), ext_lo (a := 2) (b := 1) _ _ _ _ (by decide)] at e2_1
  have e3_2 := R3_bits r (0#2 ++ encBool hi ++ encNFmt f) 3 2 (by decide)
  rw [ext_hi (a := 3) (b := 2) _ _ _ _ (by decide), ext_hi (a := 2) (b := 1) _ _ _ _ (by decide)] at e3_2
  have q := decR3_enc r (0#2 ++ encBool hi ++ encNFmt f) true true hw0
  simp only [decNarrow, bit, ext_all, e0_2, e2_1, e3_2, R3_md, q, modSat, modBool, modSgn, modRM]
  cases f <;> cases hi <;> rfl

theorem qenc (c : Common) (f : NFmt) (hi : Bool) (sat : Bool) (rz : Bool) (r : R3) : Statement (.qenc c f hi sat rz r) := decodes_of rfl fun hw0 => by
  show decNarrow c 0x121 _ = _
  have e0_2 := R3_bits r (encBool rz ++ encBool sat ++ encBool hi ++ encNFmt f) 0 2 (by decide)
  rw [ext_lo (a := 3) (b := 2) _ _ _ _ (by decide)] at e0_2
  have e2_1 := R3_bits r (encBool rz ++ encBool sat ++ encBool hi ++ encNFmt f) 2 1 (by decide)
  rw [ext_hi (a := 3) (b := 2) _ _ _ _ (by decide), ext_lo (a := 2) (b := 1) _ _ _ _ (by decide)] at e2_1
  have e3_1 := R3_bits r (encBool rz ++ encBool sat ++ encBool hi ++ encNFmt f) 3 1 (by decide)
  rw [ext_hi (a := 3) (b := 2) _ _ _ _ (by decide), ext_hi (a := 2) (b := 1) _ _ _ _ (by decide), ext_lo (a := 1) (b := 1) _ _ _ _ (by decide)] at e3_1
  have e4_1 := R3_bits r (encBool rz ++ encBool sat ++ encBool hi ++ encNFmt f) 4 1 (by decide)
  rw [ext_hi (a := 3) (b := 2) _ _ _ _ (by decide), ext_hi (a := 2) (b := 1) _ _ _ _ (by decide), ext_hi (a := 1) (b := 1) _ _ _ _ (by decide)] at e4_1
  have q := decR3_enc r (encBool rz ++ encBool sat ++ encBool hi ++ encNFmt f) true true (by simp only [Instr.wf, Bool.and_eq_true] at hw0; exact hw0.1)
  simp only [decNarrow, bit, ext_all, e0_2, e2_1, e3_1, e4_1, R3_md, q, modSat, modBool, modSgn, modRM]
  cases f <;> cases hi <;> cases sat <;> cases rz <;> first | rfl | exact absurd hw0 (by simp [Instr.wf])

theorem qscale (c : Common) (f : NFmt) (hi : Bool) (xv : Bool) (r : R2) : Statement (.qscale c f hi xv r) := decodes_of rfl fun hw0 => by
  show decNarrow c 0x122 _ = _
  have e0_2 := R2_bits r (0#1 ++ encBool xv ++ encBool hi ++ encNFmt f) 0 2 (by decide)
  rw [ext_lo (a := 3) (b := 2) _ _ _ _ (by decide)] at e0_2
  have e2_1 := R2_bits r (0#1 ++ encBool xv ++ encBool hi ++ encNFmt f) 2 1 (by decide)
  rw [ext_hi (a := 3) (b := 2) _ _ _ _ (by decide), ext_lo (a := 2) (b := 1) _ _ _ _ (by decide)] at e2_1
  have e3_1 := R2_bits r (0#1 ++ encBool xv ++ encBool hi ++ encNFmt f) 3 1 (by decide)
  rw [ext_hi (a := 3) (b := 2) _ _ _ _ (by decide), ext_hi (a := 2) (b := 1) _ _ _ _ (by decide), ext_lo (a := 1) (b := 1) _ _ _ _ (by decide)] at e3_1
  have e4_1 := R2_bits r (0#1 ++ encBool xv ++ encBool hi ++ encNFmt f) 4 1 (by decide)
  rw [ext_hi (a := 3) (b := 2) _ _ _ _ (by decide), ext_hi (a := 2) (b := 1) _ _ _ _ (by decide), ext_hi (a := 1) (b := 1) _ _ _ _ (by decide)] at e4_1
  have q := decR2_enc r (0#1 ++ encBool xv ++ encBool hi ++ encNFmt f) (by simp only [Instr.wf, Bool.and_eq_true] at hw0; exact hw0.1)
  simp only [decNarrow, bit, ext_all, e0_2, e2_1, e3_1, e4_1, R2_md, q, modSat, modBool, modSgn, modRM]
  cases f <;> cases hi <;> cases xv <;> first | rfl | exact absurd hw0 (by simp [Instr.wf])

theorem qxtra (c : Common) (op : XOp) (hi : Bool) (r : R3) : Statement (.qxtra c op hi r) := decodes_of rfl fun hw0 => by
  show decNarrow c 0x123 _ = _
  have e0_2 := R3_bits r (0#2 ++ encBool hi ++ encXOp op) 0 2 (by decide)
  rw [ext_lo (a := 3) (b := 2) _ _ _ _ (by decide)] at e0_2
  have e2_1 := R3_bits r (0#2 ++ encBool hi ++ encXOp op) 2 1 (by decide)
  rw [ext_hi (a := 3) (b := 2) _ _ _ _ (by decide), ext_lo (a := 2) (b := 1) _ _ _ _ (by decide)] at e2_1
  have e3_2 := R3_bits r (0#2 ++ encBool hi ++ encXOp op) 3 2 (by decide)
  rw [ext_hi (a := 3) (b := 2) _ _ _ _ (by decide), ext_hi (a := 2) (b := 1) _ _ _ _ (by decide)] at e3_2
  have q1 := fun hb hp => decR3a_enc r (0#2 ++ encBool hi ++ encXOp op) hb hp
  have q2 := fun hp => decR3_enc r (0#2 ++ encBool hi ++ encXOp op) true true hp
  simp only [decNarrow, bit, ext_all, e0_2, e2_1, e3_2, R3_md, modSat, modBool, modSgn, modRM]
  cases op <;> simp only [Instr.wf, Bool.and_eq_true, decide_eq_true_eq] at hw0 <;> cases hi <;>
    first | (rw [q1 hw0.1 hw0.2]; rfl) | (rw [q2 hw0]; rfl)

theorem shfl (c : Common) (k : Shfl) (wide : Bool) (r : R3) : Statement (.shfl c k wide r) := decodes_of rfl fun hw0 => by
  show decCross c 0x200 _ = _
  have e0_2 := R3_bits r (0#2 ++ encBool wide ++ encShfl k) 0 2 (by decide)
  rw [ext_lo (a := 3) (b := 2) _ _ _ _ (by decide)] at e0_2
  have e2_1 := R3_bits r (0#2 ++ encBool wide ++ encShfl k) 2 1 (by decide)
  rw [ext_hi (a := 3) (b := 2) _ _ _ _ (by decide), ext_lo (a := 2) (b := 1) _ _ _ _ (by decide)] at e2_1
  have e3_2 := R3_bits r (0#2 ++ encBool wide ++ encShfl k) 3 2 (by decide)
  rw [ext_hi (a := 3) (b := 2) _ _ _ _ (by decide), ext_hi (a := 2) (b := 1) _ _ _ _ (by decide)] at e3_2
  have q := decR3_enc r (0#2 ++ encBool wide ++ encShfl k) false true hw0
  simp only [decCross, bit, ext_all, e0_2, e2_1, e3_2, R3_md, q, modSat, modBool, modSgn, modRM]
  cases k <;> cases wide <;> rfl

theorem vote (c : Common) (k : Vote) (neg : Bool) (d : Fld) (q : Fld) : Statement (.vote c k neg d q) := decodes_of rfl fun hw0 => by
  show decCross c 0x201 _ = _
  have e0_2 := encR_m d q 0 .none (0#2 ++ encBool neg ++ encVote k) 0 2 (by decide)
  rw [ext_lo (a := 3) (b := 2) _ _ _ _ (by decide)] at e0_2
  have e2_1 := encR_m d q 0 .none (0#2 ++ encBool neg ++ encVote k) 2 1 (by decide)
  rw [ext_hi (a := 3) (b := 2) _ _ _ _ (by decide), ext_lo (a := 2) (b := 1) _ _ _ _ (by decide)] at e2_1
  have e3_2 := encR_m d q 0 .none (0#2 ++ encBool neg ++ encVote k) 3 2 (by decide)
  rw [ext_hi (a := 3) (b := 2) _ _ _ _ (by decide), ext_hi (a := 2) (b := 1) _ _ _ _ (by decide)] at e3_2
  have e5_19 := encR_low19 d q (0#2 ++ encBool neg ++ encVote k)
  simp only [decCross, bit, ext_all, e0_2, e2_1, e3_2, encR_md, encR_d, encR_a, encR_b, e5_19, modSat, modBool, modSgn, modRM]
  cases k <;> cases neg <;> rfl

theorem vred (c : Common) (op : RedOp) (m : RM) (r : R2) : Statement (.vred c op m r) := decodes_of rfl fun hw0 => by
  show decCross c 0x202 _ = _
  have e0_2 := R2_bits r (encRedOp op ++ encRM m) 0 2 (by decide)
  rw [ext_lo (a := 3) (b := 2) _ _ _ _ (by decide)] at e0_2
  have e2_3 := R2_bits r (encRedOp op ++ encRM m) 2 3 (by decide)
  rw [ext_hi (a := 3) (b := 2) _ _ _ _ (by decide)] at e2_3
  have q := decR2_enc r (encRedOp op ++ encRM m) (by simp only [Instr.wf, Bool.and_eq_true] at hw0; exact hw0.1)
  simp only [decCross, bit, ext_all, e0_2, e2_3, R2_md, q, modSat, modBool, modSgn, modRM]
  cases op <;> cases m <;> first | rfl | exact absurd hw0 (by simp [Instr.wf, redWf])

theorem vscan (c : Common) (op : RedOp) (m : RM) (r : R2) : Statement (.vscan c op m r) := decodes_of rfl fun hw0 => by
  show decCross c 0x203 _ = _
  have e0_2 := R2_bits r (encRedOp op ++ encRM m) 0 2 (by decide)
  rw [ext_lo (a := 3) (b := 2) _ _ _ _ (by decide)] at e0_2
  have e2_3 := R2_bits r (encRedOp op ++ encRM m) 2 3 (by decide)
  rw [ext_hi (a := 3) (b := 2) _ _ _ _ (by decide)] at e2_3
  have q := decR2_enc r (encRedOp op ++ encRM m) (by simp only [Instr.wf, Bool.and_eq_true] at hw0; exact hw0.1)
  simp only [decCross, bit, ext_all, e0_2, e2_3, R2_md, q, modSat, modBool, modSgn, modRM]
  cases op <;> cases m <;> first | rfl | exact absurd hw0 (by simp [Instr.wf, redWf])

theorem plop (c : Common) (tt : BitVec 4) (d : Fld) (a : Fld) (b : Fld) : Statement (.plop c tt d a b) := decodes_of rfl fun hw0 => by
  show decCross c 0x204 _ = _
  have e0_4 := encR_m d a b .none (0#1 ++ tt) 0 4 (by decide)
  rw [ext_lo (a := 1) (b := 4) _ _ _ _ (by decide)] at e0_4
  have e4_1 := encR_m d a b .none (0#1 ++ tt) 4 1 (by decide)
  rw [ext_hi (a := 1) (b := 4) _ _ _ _ (by decide)] at e4_1
  have e5_9 := encR_pb d a b .none (0#1 ++ tt) 5 9 (by decide) (by decide)
  simp only [decCross, bit, ext_all, e0_4, e4_1, encR_md, encR_d, encR_a, encR_b, e5_9, modSat, modBool, modSgn, modRM]
  rfl

theorem pmov (c : Common) (toPred : Bool) (r : R2) : Statement (.pmov c toPred r) := decodes_of rfl fun hw0 => by
  show decCross c 0x205 _ = _
  have q := decR2_enc r (mBool toPred) (by cases toPred <;> simp_all [Instr.wf, R2.wf, Perm.wf])
  simp only [decCross, bit, ext_all, R2_md, q, modSat, modBool, modSgn, modRM]
  simp only [Instr.wf] at hw0
  cases toPred <;> skip
  all_goals first | rfl | simp_all [need, MMKind.isFloat] <;> rfl

theorem umov (c : Common) (first : Bool) (wide : Bool) (r : R3) : Statement (.umov c first wide r) := decodes_of rfl fun hw0 => by
  show decCross c 0x206 _ = _
  have e0_1 := R3_bits r (0#3 ++ encBool wide ++ encBool first) 0 1 (by decide)
  rw [ext_lo (a := 4) (b := 1) _ _ _ _ (by decide)] at e0_1
  have e1_1 := R3_bits r (0#3 ++ encBool wide ++ encBool first) 1 1 (by decide)
  rw [ext_hi (a := 4) (b := 1) _ _ _ _ (by decide), ext_lo (a := 3) (b := 1) _ _ _ _ (by decide)] at e1_1
  have e2_3 := R3_bits r (0#3 ++ encBool wide ++ encBool first) 2 3 (by decide)
  rw [ext_hi (a := 4) (b := 1) _ _ _ _ (by decide), ext_hi (a := 3) (b := 1) _ _ _ _ (by decide)] at e2_3
  have q1 := fun hb hp => decR3a_enc r (0#3 ++ encBool wide ++ encBool first) hb hp
  have q2 := fun hp => decR3_enc r (0#3 ++ encBool wide ++ encBool first) true true hp
  simp only [decCross, bit, ext_all, e0_1, e1_1, e2_3, R3_md, modSat, modBool, modSgn, modRM]
  cases first <;> simp only [Instr.wf, Bool.and_eq_true, decide_eq_true_eq, if_true, if_false, Bool.false_eq_true] at hw0 <;> cases wide <;>
    first | (rw [q1 hw0.1 hw0.2]; rfl) | (rw [q2 hw0]; rfl)

theorem bra (c : Common) (off : BitVec 32) : Statement (.bra c off) := decodes_of rfl fun hw0 => by
  show decControl c 0x210 _ = _
  have e0_12 : Body.bits (off ++ 0#12) 0 12 = BitVec.extractLsb' 0 12 (0#12 : BitVec 12) := by unfold Body.bits; rw [ext_lo (a := 32) (b := 12) _ _ _ _ (by decide)]
  have e12_32 : Body.bits (off ++ 0#12) 12 32 = BitVec.extractLsb' 0 32 (off : BitVec 32) := by unfold Body.bits; rw [ext_hi (a := 32) (b := 12) _ _ _ _ (by decide)]
  simp only [decControl, bit, ext_all, e0_12, e12_32, modSat, modBool, modSgn, modRM, Body.md]
  rfl

theorem brx (c : Common) (a : Fld) (p : Perm) : Statement (.brx c a p) := decodes_of rfl fun hw0 => by
  show decControl c 0x211 _ = _
  have q := decR2_encR 0 a p (0) hw0
  simp only [decControl, bit, ext_all, encR_md, encR_d, encR_a, encR_b, q, modSat, modBool, modSgn, modRM]
  rfl

theorem call (c : Common) (off : BitVec 32) (link : Fld) : Statement (.call c off link) := decodes_of rfl fun hw0 => by
  show decControl c 0x212 _ = _
  have e0_2 : Body.bits (off ++ link ++ 0#2) 0 2 = BitVec.extractLsb' 0 2 (0#2 : BitVec 2) := by unfold Body.bits; rw [ext_lo (a := 42) (b := 2) _ _ _ _ (by decide)]
  have e2_10 : Body.bits (off ++ link ++ 0#2) 2 10 = BitVec.extractLsb' 0 10 (link : BitVec 10) := by unfold Body.bits; rw [ext_hi (a := 42) (b := 2) _ _ _ _ (by decide), ext_lo (a := 32) (b := 10) _ _ _ _ (by decide)]
  have e12_32 : Body.bits (off ++ link ++ 0#2) 12 32 = BitVec.extractLsb' 0 32 (off : BitVec 32) := by unfold Body.bits; rw [ext_hi (a := 42) (b := 2) _ _ _ _ (by decide), ext_hi (a := 32) (b := 10) _ _ _ _ (by decide)]
  simp only [decControl, bit, ext_all, e0_2, e2_10, e12_32, modSat, modBool, modSgn, modRM, Body.md]
  rfl

theorem ret (c : Common) (a : Fld) (p : Perm) : Statement (.ret c a p) := decodes_of rfl fun hw0 => by
  show decControl c 0x213 _ = _
  have q := decR2_encR 0 a p (0) hw0
  simp only [decControl, bit, ext_all, encR_md, encR_d, encR_a, encR_b, q, modSat, modBool, modSgn, modRM]
  rfl

theorem exit (c : Common) : Statement (.exit c) := decodes_of rfl fun hw0 => by
  show decControl c 0x214 _ = _
  simp only [decControl, bit, ext_all, modSat, modBool, modSgn, modRM, Body.md]
  rfl

theorem cdecl (c : Common) (d : Fld) (a : Fld) (p : Perm) : Statement (.cdecl c d a p) := decodes_of rfl fun hw0 => by
  show decControl c 0x215 _ = _
  have q := decR2_encR d a p (0) hw0
  simp only [decControl, bit, ext_all, encR_md, encR_d, encR_a, encR_b, q, modSat, modBool, modSgn, modRM]
  rfl

theorem cdeclIss (c : Common) (d : Fld) : Statement (.cdeclIss c d) := decodes_of rfl fun hw0 => by
  show decControl c 0x215 _ = _
  have q := decR2_encR d 0 .none (1) (by rfl)
  simp only [decControl, bit, ext_all, encR_md, encR_d, encR_a, encR_b, q, modSat, modBool, modSgn, modRM]
  rfl

theorem csign (c : Common) (a : Fld) : Statement (.csign c a) := decodes_of rfl fun hw0 => by
  show decControl c 0x216 _ = _
  have e5_19 := encR_low19 0 a (0)
  simp only [decControl, bit, ext_all, encR_md, encR_d, encR_a, encR_b, e5_19, modSat, modBool, modSgn, modRM]
  rfl

theorem csignNw (c : Common) (a : Fld) : Statement (.csignNw c a) := decodes_of rfl fun hw0 => by
  show decControl c 0x216 _ = _
  have e5_19 := encR_low19 0 a (1)
  simp only [decControl, bit, ext_all, encR_md, encR_d, encR_a, encR_b, e5_19, modSat, modBool, modSgn, modRM]
  rfl

theorem yield (c : Common) : Statement (.yield c) := decodes_of rfl fun hw0 => by
  show decControl c 0x217 _ = _
  simp only [decControl, bit, ext_all, modSat, modBool, modSgn, modRM, Body.md]
  rfl

theorem nop (c : Common) : Statement (.nop c) := decodes_of rfl fun hw0 => by
  show decControl c 0x218 _ = _
  simp only [decControl, bit, ext_all, modSat, modBool, modSgn, modRM, Body.md]
  rfl

theorem brk (c : Common) (code : BitVec 19) : Statement (.brk c code) := decodes_of rfl fun hw0 => by
  show decControl c 0x219 _ = _
  have e0_5 : Body.bits (0#20 ++ code ++ 0#5) 0 5 = BitVec.extractLsb' 0 5 (0#5 : BitVec 5) := by unfold Body.bits; rw [ext_lo (a := 39) (b := 5) _ _ _ _ (by decide)]
  have e5_19 : Body.bits (0#20 ++ code ++ 0#5) 5 19 = BitVec.extractLsb' 0 19 (code : BitVec 19) := by unfold Body.bits; rw [ext_hi (a := 39) (b := 5) _ _ _ _ (by decide), ext_lo (a := 20) (b := 19) _ _ _ _ (by decide)]
  have e24_20 : Body.bits (0#20 ++ code ++ 0#5) 24 20 = BitVec.extractLsb' 0 20 (0#20 : BitVec 20) := by unfold Body.bits; rw [ext_hi (a := 39) (b := 5) _ _ _ _ (by decide), ext_hi (a := 20) (b := 19) _ _ _ _ (by decide)]
  simp only [decControl, bit, ext_all, e0_5, e5_19, e24_20, modSat, modBool, modSgn, modRM, Body.md]
  rfl

theorem trap (c : Common) (code : BitVec 19) : Statement (.trap c code) := decodes_of rfl fun hw0 => by
  show decControl c 0x21A _ = _
  have e0_5 : Body.bits (0#20 ++ code ++ 0#5) 0 5 = BitVec.extractLsb' 0 5 (0#5 : BitVec 5) := by unfold Body.bits; rw [ext_lo (a := 39) (b := 5) _ _ _ _ (by decide)]
  have e5_19 : Body.bits (0#20 ++ code ++ 0#5) 5 19 = BitVec.extractLsb' 0 19 (code : BitVec 19) := by unfold Body.bits; rw [ext_hi (a := 39) (b := 5) _ _ _ _ (by decide), ext_lo (a := 20) (b := 19) _ _ _ _ (by decide)]
  have e24_20 : Body.bits (0#20 ++ code ++ 0#5) 24 20 = BitVec.extractLsb' 0 20 (0#20 : BitVec 20) := by unfold Body.bits; rw [ext_hi (a := 39) (b := 5) _ _ _ _ (by decide), ext_hi (a := 20) (b := 19) _ _ _ _ (by decide)]
  simp only [decControl, bit, ext_all, e0_5, e5_19, e24_20, modSat, modBool, modSgn, modRM, Body.md]
  rfl

theorem ld (c : Common) (sx : Bool) (h : CacheHint) (m : MOp) : Statement (.ld c sx h m) := decodes_of rfl fun hw0 => by
  show decMem c 0x280 _ = _
  have e0_2 := M_bits m (encBool sx ++ encHint h ++ 0#2) 0 2 (by decide)
  rw [ext_lo (a := 3) (b := 2) _ _ _ _ (by decide)] at e0_2
  have e2_2 := M_bits m (encBool sx ++ encHint h ++ 0#2) 2 2 (by decide)
  rw [ext_hi (a := 3) (b := 2) _ _ _ _ (by decide), ext_lo (a := 1) (b := 2) _ _ _ _ (by decide)] at e2_2
  have e4_1 := M_bits m (encBool sx ++ encHint h ++ 0#2) 4 1 (by decide)
  rw [ext_hi (a := 3) (b := 2) _ _ _ _ (by decide), ext_hi (a := 1) (b := 2) _ _ _ _ (by decide)] at e4_1
  simp only [decMem, bit, ext_all, e0_2, e2_2, e4_1, M_md, decM_enc, modSat, modBool, modSgn, modRM]
  simp only [Instr.wf] at hw0
  have hn : need (loadWf sx m) = some () := by rw [hw0]; rfl
  cases sx <;> cases h <;> skip
  all_goals exact congrArg (fun o : Option Unit => o.bind fun _ => some (Instr.ld c _ _ m)) hn

theorem st (c : Common) (h : CacheHint) (m : MOp) : Statement (.st c h m) := decodes_of rfl fun hw0 => by
  show decMem c 0x281 _ = _
  have e0_2 := M_bits m (0#1 ++ encHint h ++ 0#2) 0 2 (by decide)
  rw [ext_lo (a := 3) (b := 2) _ _ _ _ (by decide)] at e0_2
  have e2_2 := M_bits m (0#1 ++ encHint h ++ 0#2) 2 2 (by decide)
  rw [ext_hi (a := 3) (b := 2) _ _ _ _ (by decide), ext_lo (a := 1) (b := 2) _ _ _ _ (by decide)] at e2_2
  have e4_1 := M_bits m (0#1 ++ encHint h ++ 0#2) 4 1 (by decide)
  rw [ext_hi (a := 3) (b := 2) _ _ _ _ (by decide), ext_hi (a := 1) (b := 2) _ _ _ _ (by decide)] at e4_1
  simp only [decMem, bit, ext_all, e0_2, e2_2, e4_1, M_md, decM_enc, modSat, modBool, modSgn, modRM]
  simp only [Instr.wf] at hw0
  cases h <;> skip
  all_goals first | rfl | simp_all [need, MMKind.isFloat] <;> rfl

theorem ldro (c : Common) (sx : Bool) (m : MOp) : Statement (.ldro c sx m) := decodes_of rfl fun hw0 => by
  show decMem c 0x282 _ = _
  have e0_4 := M_bits m (encBool sx ++ 0#4) 0 4 (by decide)
  rw [ext_lo (a := 1) (b := 4) _ _ _ _ (by decide)] at e0_4
  have e4_1 := M_bits m (encBool sx ++ 0#4) 4 1 (by decide)
  rw [ext_hi (a := 1) (b := 4) _ _ _ _ (by decide)] at e4_1
  simp only [decMem, bit, ext_all, e0_4, e4_1, M_md, decM_enc, modSat, modBool, modSgn, modRM]
  simp only [Instr.wf] at hw0
  have hn : need (loadWf sx m) = some () := by rw [hw0]; rfl
  cases sx <;> skip
  all_goals exact congrArg (fun o : Option Unit => o.bind fun _ => some (Instr.ldro c _ m)) hn

theorem lds (c : Common) (sx : Bool) (m : MOp) : Statement (.lds c sx m) := decodes_of rfl fun hw0 => by
  show decMem c 0x283 _ = _
  have e0_4 := M_bits m (encBool sx ++ 0#4) 0 4 (by decide)
  rw [ext_lo (a := 1) (b := 4) _ _ _ _ (by decide)] at e0_4
  have e4_1 := M_bits m (encBool sx ++ 0#4) 4 1 (by decide)
  rw [ext_hi (a := 1) (b := 4) _ _ _ _ (by decide)] at e4_1
  simp only [decMem, bit, ext_all, e0_4, e4_1, M_md, decM_enc, modSat, modBool, modSgn, modRM]
  simp only [Instr.wf] at hw0
  have hn : need (loadWf sx m) = some () := by rw [hw0]; rfl
  cases sx <;> skip
  all_goals exact congrArg (fun o : Option Unit => o.bind fun _ => some (Instr.lds c _ m)) hn

theorem sts (c : Common) (m : MOp) : Statement (.sts c m) := decodes_of rfl fun hw0 => by
  show decMem c 0x284 _ = _
  simp only [decMem, bit, ext_all, M_md, decM_enc, modSat, modBool, modSgn, modRM]
  simp only [Instr.wf] at hw0
  skip
  all_goals first | rfl | simp_all [need, MMKind.isFloat] <;> rfl

theorem atom (c : Common) (op : AtomOp) (m : MOp) : Statement (.atom c op m) := decodes_of rfl fun hw0 => by
  show decMem c 0x285 _ = _
  have e0_1 := M_bits m (encAtomOp op ++ 0#1) 0 1 (by decide)
  rw [ext_lo (a := 4) (b := 1) _ _ _ _ (by decide)] at e0_1
  have e1_4 := M_bits m (encAtomOp op ++ 0#1) 1 4 (by decide)
  rw [ext_hi (a := 4) (b := 1) _ _ _ _ (by decide)] at e1_4
  simp only [decMem, bit, ext_all, e0_1, e1_4, M_md, decM_enc, modSat, modBool, modSgn, modRM]
  simp only [Instr.wf] at hw0
  have hn : need (atomWf op m) = some () := by rw [hw0]; rfl
  cases op <;> skip
  all_goals exact congrArg (fun o : Option Unit => o.bind fun _ => some (Instr.atom c _ m)) hn

theorem atoms (c : Common) (op : AtomOp) (m : MOp) : Statement (.atoms c op m) := decodes_of rfl fun hw0 => by
  show decMem c 0x286 _ = _
  have e0_1 := M_bits m (encAtomOp op ++ 0#1) 0 1 (by decide)
  rw [ext_lo (a := 4) (b := 1) _ _ _ _ (by decide)] at e0_1
  have e1_4 := M_bits m (encAtomOp op ++ 0#1) 1 4 (by decide)
  rw [ext_hi (a := 4) (b := 1) _ _ _ _ (by decide)] at e1_4
  simp only [decMem, bit, ext_all, e0_1, e1_4, M_md, decM_enc, modSat, modBool, modSgn, modRM]
  simp only [Instr.wf] at hw0
  have hn : need (atomWf op m) = some () := by rw [hw0]; rfl
  cases op <;> skip
  all_goals exact congrArg (fun o : Option Unit => o.bind fun _ => some (Instr.atoms c _ m)) hn

theorem redo (c : Common) (op : AtomOp) (m : MOp) : Statement (.redo c op m) := decodes_of rfl fun hw0 => by
  show decMem c 0x287 _ = _
  have e0_1 := M_bits m (encAtomOp op ++ 0#1) 0 1 (by decide)
  rw [ext_lo (a := 4) (b := 1) _ _ _ _ (by decide)] at e0_1
  have e1_4 := M_bits m (encAtomOp op ++ 0#1) 1 4 (by decide)
  rw [ext_hi (a := 4) (b := 1) _ _ _ _ (by decide)] at e1_4
  simp only [decMem, bit, ext_all, e0_1, e1_4, M_md, decM_enc, modSat, modBool, modSgn, modRM]
  simp only [Instr.wf] at hw0
  have hn : need (atomWf op m && redoOp op) = some () := by rw [hw0]; rfl
  cases op <;> skip
  all_goals exact congrArg (fun o : Option Unit => o.bind fun _ => some (Instr.redo c _ m)) hn

theorem fence (c : Common) (k : FenceKind) (sc : Scope) (d : Fld) : Statement (.fence c k sc d) := decodes_of rfl fun hw0 => by
  show decMem c 0x288 _ = _
  have e0_2 := encR_m d 0 0 .none (0#1 ++ encScope sc ++ encFenceKind k) 0 2 (by decide)
  rw [ext_lo (a := 3) (b := 2) _ _ _ _ (by decide)] at e0_2
  have e2_2 := encR_m d 0 0 .none (0#1 ++ encScope sc ++ encFenceKind k) 2 2 (by decide)
  rw [ext_hi (a := 3) (b := 2) _ _ _ _ (by decide), ext_lo (a := 1) (b := 2) _ _ _ _ (by decide)] at e2_2
  have e4_1 := encR_m d 0 0 .none (0#1 ++ encScope sc ++ encFenceKind k) 4 1 (by decide)
  rw [ext_hi (a := 3) (b := 2) _ _ _ _ (by decide), ext_hi (a := 1) (b := 2) _ _ _ _ (by decide)] at e4_1
  have e5_29 := encR_low29 d (0#1 ++ encScope sc ++ encFenceKind k)
  simp only [decMem, bit, ext_all, e0_2, e2_2, e4_1, encR_md, encR_d, encR_a, encR_b, e5_29, modSat, modBool, modSgn, modRM]
  cases k <;> cases sc <;> rfl

theorem roinv (c : Common) : Statement (.roinv c) := decodes_of rfl fun hw0 => by
  show decMem c 0x289 _ = _
  simp only [decMem, bit, ext_all, modSat, modBool, modSgn, modRM, Body.md]
  rfl

theorem pref (c : Common) (l1 : Bool) (m : MOp) : Statement (.pref c l1 m) := decodes_of rfl fun hw0 => by
  show decMem c 0x28A _ = _
  have e0_1 := M_bits m (mBool l1) 0 1 (by decide)
  have e1_4 := M_bits m (mBool l1) 1 4 (by decide)
  simp only [decMem, bit, ext_all, e0_1, e1_4, M_md, decM_enc, modSat, modBool, modSgn, modRM]
  simp only [Instr.wf] at hw0
  cases l1 <;> skip
  all_goals first | rfl | simp_all [need, MMKind.isFloat] <;> rfl

theorem bar (c : Common) (arv : Bool) (n : BitVec 4) (a : Fld) (p : Perm) : Statement (.bar c arv n a p) := decodes_of rfl fun hw0 => by
  show decMem c 0x28B _ = _
  have e0_4 := encR_m 0 a 0 p (encBool arv ++ n) 0 4 (by decide)
  rw [ext_lo (a := 1) (b := 4) _ _ _ _ (by decide)] at e0_4
  have e4_1 := encR_m 0 a 0 p (encBool arv ++ n) 4 1 (by decide)
  rw [ext_hi (a := 1) (b := 4) _ _ _ _ (by decide)] at e4_1
  have q := decR2_encR 0 a p (encBool arv ++ n) hw0
  simp only [decMem, bit, ext_all, e0_4, e4_1, encR_md, encR_d, encR_a, encR_b, q, modSat, modBool, modSgn, modRM]
  cases arv <;> rfl

theorem cbar (c : Common) (arv : Bool) (a : Fld) (p : Perm) : Statement (.cbar c arv a p) := decodes_of rfl fun hw0 => by
  show decMem c 0x28C _ = _
  have q := decR2_encR 0 a p (mBool arv) hw0
  simp only [decMem, bit, ext_all, encR_md, encR_d, encR_a, encR_b, q, modSat, modBool, modSgn, modRM]
  cases arv <;> rfl

theorem qpush (c : Common) (rlx : Bool) (r : R3) : Statement (.qpush c rlx r) := decodes_of rfl fun hw0 => by
  show decMem c 0x28D _ = _
  have e0_1 := R3_bits r (0#3 ++ encBool rlx ++ 0#1) 0 1 (by decide)
  rw [ext_lo (a := 4) (b := 1) _ _ _ _ (by decide)] at e0_1
  have e1_1 := R3_bits r (0#3 ++ encBool rlx ++ 0#1) 1 1 (by decide)
  rw [ext_hi (a := 4) (b := 1) _ _ _ _ (by decide), ext_lo (a := 3) (b := 1) _ _ _ _ (by decide)] at e1_1
  have e2_3 := R3_bits r (0#3 ++ encBool rlx ++ 0#1) 2 3 (by decide)
  rw [ext_hi (a := 4) (b := 1) _ _ _ _ (by decide), ext_hi (a := 3) (b := 1) _ _ _ _ (by decide)] at e2_3
  have q := decR3_enc r (0#3 ++ encBool rlx ++ 0#1) true true hw0
  simp only [decMem, bit, ext_all, e0_1, e1_1, e2_3, R3_md, q, modSat, modBool, modSgn, modRM]
  cases rlx <;> rfl

theorem qpop (c : Common) (w : Bool) (rlx : Bool) (r : R3) : Statement (.qpop c w rlx r) := decodes_of rfl fun hw0 => by
  show decMem c 0x28E _ = _
  have e0_1 := R3_bits r (0#3 ++ encBool rlx ++ encBool w) 0 1 (by decide)
  rw [ext_lo (a := 4) (b := 1) _ _ _ _ (by decide)] at e0_1
  have e1_1 := R3_bits r (0#3 ++ encBool rlx ++ encBool w) 1 1 (by decide)
  rw [ext_hi (a := 4) (b := 1) _ _ _ _ (by decide), ext_lo (a := 3) (b := 1) _ _ _ _ (by decide)] at e1_1
  have e2_3 := R3_bits r (0#3 ++ encBool rlx ++ encBool w) 2 3 (by decide)
  rw [ext_hi (a := 4) (b := 1) _ _ _ _ (by decide), ext_hi (a := 3) (b := 1) _ _ _ _ (by decide)] at e2_3
  have q := decR3_enc r (0#3 ++ encBool rlx ++ encBool w) true false hw0
  simp only [decMem, bit, ext_all, e0_1, e1_1, e2_3, R3_md, q, modSat, modBool, modSgn, modRM]
  cases w <;> cases rlx <;> rfl

theorem notify (c : Common) (k : NotifyRel) (a : Fld) (b : Fld) (p : Perm) : Statement (.notify c k a b p) := decodes_of rfl fun hw0 => by
  show decMem c 0x28F _ = _
  have e0_2 := encR_m 0 a b p (0#3 ++ encNotifyRel k) 0 2 (by decide)
  rw [ext_lo (a := 3) (b := 2) _ _ _ _ (by decide)] at e0_2
  have e2_3 := encR_m 0 a b p (0#3 ++ encNotifyRel k) 2 3 (by decide)
  rw [ext_hi (a := 3) (b := 2) _ _ _ _ (by decide)] at e2_3
  have q := decR3_encR 0 a b p (0#3 ++ encNotifyRel k) true true hw0
  simp only [decMem, bit, ext_all, e0_2, e2_3, encR_md, encR_d, encR_a, encR_b, q, modSat, modBool, modSgn, modRM]
  cases k <;> rfl

theorem gtrig (c : Common) (a : Fld) (p : Perm) : Statement (.gtrig c a p) := decodes_of rfl fun hw0 => by
  show decMem c 0x290 _ = _
  have q := decR2_encR 0 a p (0) hw0
  simp only [decMem, bit, ext_all, encR_md, encR_d, encR_a, encR_b, q, modSat, modBool, modSgn, modRM]
  rfl

theorem zline (c : Common) (m : MOp) : Statement (.zline c m) := decodes_of rfl fun hw0 => by
  show decMem c 0x291 _ = _
  simp only [decMem, bit, ext_all, M_md, decM_enc, modSat, modBool, modSgn, modRM]
  simp only [Instr.wf] at hw0
  skip
  all_goals first | rfl | simp_all [need, MMKind.isFloat] <;> rfl

theorem tdef (c : Common) (t : BitVec 10) (aux : Fld) : Statement (.tdef c t aux) := decodes_of rfl fun hw0 => by
  show decTile c 0x300 _ = _
  simp only [decTile, bit, ext_all, T_md, T_acc, T_ta, T_tb, T_aux, T_cv, modSat, modBool, modSgn, modRM]
  rfl

theorem tdefs (c : Common) (t : BitVec 10) (aux : Fld) : Statement (.tdefs c t aux) := decodes_of rfl fun hw0 => by
  show decTile c 0x301 _ = _
  simp only [decTile, bit, ext_all, T_md, T_acc, T_ta, T_tb, T_aux, T_cv, modSat, modBool, modSgn, modRM]
  rfl

theorem tdefa (c : Common) (d : Fld) (aux : Fld) : Statement (.tdefa c d aux) := decodes_of rfl fun hw0 => by
  show decTile c 0x302 _ = _
  simp only [decTile, bit, ext_all, T_md, T_acc, T_ta, T_tb, T_aux, T_cv, modSat, modBool, modSgn, modRM]
  rfl

theorem tkill (c : Common) (t : BitVec 10) : Statement (.tkill c t) := decodes_of rfl fun hw0 => by
  show decTile c 0x303 _ = _
  simp only [decTile, bit, ext_all, T_md, T_acc, T_ta, T_tb, T_aux, T_cv, modSat, modBool, modSgn, modRM]
  rfl

theorem tld (c : Common) (wide : Bool) (t : BitVec 10) (d : Fld) (aux : Fld) : Statement (.tld c wide t d aux) := decodes_of rfl fun hw0 => by
  show decTile c 0x304 _ = _
  simp only [decTile, bit, ext_all, T_md, T_acc, T_ta, T_tb, T_aux, T_cv, modSat, modBool, modSgn, modRM]
  cases wide <;> rfl

theorem tst (c : Common) (k : BitVec 3) (t : BitVec 10) (aux : Fld) : Statement (.tst c k t aux) := decodes_of rfl fun hw0 => by
  show decTile c 0x305 _ = _
  have e0_3 := T_bits 0 t 0 aux 0 (0#2 ++ k) 0 3 (by decide)
  rw [ext_lo (a := 2) (b := 3) _ _ _ _ (by decide)] at e0_3
  have e3_2 := T_bits 0 t 0 aux 0 (0#2 ++ k) 3 2 (by decide)
  rw [ext_hi (a := 2) (b := 3) _ _ _ _ (by decide)] at e3_2
  simp only [decTile, bit, ext_all, e0_3, e3_2, T_md, T_acc, T_ta, T_tb, T_aux, T_cv, modSat, modBool, modSgn, modRM]
  rfl

theorem trow (c : Common) (t : BitVec 10) (d : Fld) (aux : Fld) : Statement (.trow c t d aux) := decodes_of rfl fun hw0 => by
  show decTile c 0x306 _ = _
  simp only [decTile, bit, ext_all, T_md, T_acc, T_ta, T_tb, T_aux, T_cv, modSat, modBool, modSgn, modRM]
  rfl

theorem rcfence (c : Common) (dev : Bool) : Statement (.rcfence c dev) := decodes_of rfl fun hw0 => by
  show decTile c 0x307 _ = _
  simp only [decTile, bit, ext_all, T_md, T_acc, T_ta, T_tb, T_aux, T_cv, modSat, modBool, modSgn, modRM]
  cases dev <;> rfl

theorem mma (c : Common) (k : MMKind) (acc : BitVec 6) (ta : BitVec 10) (tb : BitVec 10) (cv : BitVec 3) : Statement (.mma c k acc ta tb cv) := decodes_of rfl fun hw0 => by
  show decTile c 0x308 _ = _
  simp only [decTile, bit, ext_all, T_md, T_acc, T_ta, T_tb, T_aux, T_cv, modSat, modBool, modSgn, modRM]
  simp only [Instr.wf] at hw0
  rcases k with _ | _ | _ | _ | ⟨sat, ua, ub⟩ <;> [skip; skip; skip; skip; (cases sat <;> cases ua <;> cases ub)]
  all_goals first | rfl | simp_all [need, MMKind.isFloat] <;> rfl

theorem mmalr (c : Common) (k : MMKind) (acc : BitVec 6) (ta : BitVec 10) (tb : BitVec 10) (aux : Fld) (cv : BitVec 3) : Statement (.mmalr c k acc ta tb aux cv) := decodes_of rfl fun hw0 => by
  show decTile c 0x309 _ = _
  simp only [decTile, bit, ext_all, T_md, T_acc, T_ta, T_tb, T_aux, T_cv, modSat, modBool, modSgn, modRM]
  simp only [Instr.wf] at hw0
  rcases k with _ | _ | _ | _ | ⟨sat, ua, ub⟩ <;> [skip; skip; skip; skip; (cases sat <;> cases ua <;> cases ub)]
  all_goals first | rfl | simp_all [need, MMKind.isFloat] <;> rfl

theorem adapt (c : Common) (acc : BitVec 6) (sacc : BitVec 6) (cb : BitVec 10) (cv : BitVec 3) : Statement (.adapt c acc sacc cb cv) := decodes_of rfl fun hw0 => by
  show decTile c 0x30A _ = _
  have e28_6 := T_taBits acc (0#4 ++ sacc) cb 0 cv (0) 28 6 (by decide) (by decide)
  rw [ext_lo (a := 4) (b := 6) _ _ _ _ (by decide)] at e28_6
  have e34_4 := T_taBits acc (0#4 ++ sacc) cb 0 cv (0) 34 4 (by decide) (by decide)
  rw [ext_hi (a := 4) (b := 6) _ _ _ _ (by decide)] at e34_4
  simp only [decTile, bit, ext_all, T_md, T_acc, T_ta, T_tb, T_aux, T_cv, e28_6, e34_4, modSat, modBool, modSgn, modRM]
  simp only [Instr.wf] at hw0
  skip
  all_goals first | rfl | simp_all [need, MMKind.isFloat] <;> rfl

theorem aclr (c : Common) (acc : BitVec 6) : Statement (.aclr c acc) := decodes_of rfl fun hw0 => by
  show decTile c 0x30B _ = _
  simp only [decTile, bit, ext_all, T_md, T_acc, T_ta, T_tb, T_aux, T_cv, modSat, modBool, modSgn, modRM]
  rfl

theorem arow (c : Common) (acc : BitVec 6) (d : Fld) (aux : Fld) : Statement (.arow c acc d aux) := decodes_of rfl fun hw0 => by
  show decTile c 0x30C _ = _
  simp only [decTile, bit, ext_all, T_md, T_acc, T_ta, T_tb, T_aux, T_cv, modSat, modBool, modSgn, modRM]
  rfl

theorem arowSt (c : Common) (acc : BitVec 6) (d : Fld) (aux : Fld) : Statement (.arowSt c acc d aux) := decodes_of rfl fun hw0 => by
  show decTile c 0x30C _ = _
  simp only [decTile, bit, ext_all, T_md, T_acc, T_ta, T_tb, T_aux, T_cv, modSat, modBool, modSgn, modRM]
  rfl

theorem aflag (c : Common) (keep : Bool) (acc : BitVec 6) (d : Fld) : Statement (.aflag c keep acc d) := decodes_of rfl fun hw0 => by
  show decTile c 0x30D _ = _
  simp only [decTile, bit, ext_all, T_md, T_acc, T_ta, T_tb, T_aux, T_cv, modSat, modBool, modSgn, modRM]
  cases keep <;> rfl

theorem adpfD (c : Common) (n : BitVec 10) (aux : Fld) : Statement (.adpfD c n aux) := decodes_of rfl fun hw0 => by
  show decTile c 0x30E _ = _
  have e0_2 := T_bits 0 n 0 aux 0 (0) 0 2 (by decide)
  have e2_3 := T_bits 0 n 0 aux 0 (0) 2 3 (by decide)
  simp only [decTile, bit, ext_all, e0_2, e2_3, T_md, T_acc, T_ta, T_tb, T_aux, T_cv, modSat, modBool, modSgn, modRM]
  rfl

theorem adpfU (c : Common) (n : BitVec 10) (aux : Fld) : Statement (.adpfU c n aux) := decodes_of rfl fun hw0 => by
  show decTile c 0x30E _ = _
  have e0_2 := T_bits 0 n 0 aux 0 (1) 0 2 (by decide)
  have e2_3 := T_bits 0 n 0 aux 0 (1) 2 3 (by decide)
  simp only [decTile, bit, ext_all, e0_2, e2_3, T_md, T_acc, T_ta, T_tb, T_aux, T_cv, modSat, modBool, modSgn, modRM]
  rfl

theorem adpfInv (c : Common) : Statement (.adpfInv c) := decodes_of rfl fun hw0 => by
  show decTile c 0x30E _ = _
  have e0_2 := T_bits 0 0 0 0 0 (2) 0 2 (by decide)
  have e2_3 := T_bits 0 0 0 0 0 (2) 2 3 (by decide)
  simp only [decTile, bit, ext_all, e0_2, e2_3, T_md, T_acc, T_ta, T_tb, T_aux, T_cv, modSat, modBool, modSgn, modRM]
  rfl

theorem adpfInvd (c : Common) : Statement (.adpfInvd c) := decodes_of rfl fun hw0 => by
  show decTile c 0x30E _ = _
  have e0_2 := T_bits 0 0 0 0 0 (3) 0 2 (by decide)
  have e2_3 := T_bits 0 0 0 0 0 (3) 2 3 (by decide)
  simp only [decTile, bit, ext_all, e0_2, e2_3, T_md, T_acc, T_ta, T_tb, T_aux, T_cv, modSat, modBool, modSgn, modRM]
  rfl

theorem cpy (c : Common) (sc : Bool) (k : BitVec 3) (b : BitVec 6) : Statement (.cpy c sc k b) := decodes_of rfl fun hw0 => by
  show decTile c 0x30F _ = _
  have e0_1 : Body.bits (k ++ b ++ 0#34 ++ encBool sc) 0 1 = BitVec.extractLsb' 0 1 (encBool sc : BitVec 1) := by unfold Body.bits; rw [ext_lo (a := 43) (b := 1) _ _ _ _ (by decide)]
  have e1_34 : Body.bits (k ++ b ++ 0#34 ++ encBool sc) 1 34 = BitVec.extractLsb' 0 34 (0#34 : BitVec 34) := by unfold Body.bits; rw [ext_hi (a := 43) (b := 1) _ _ _ _ (by decide), ext_lo (a := 9) (b := 34) _ _ _ _ (by decide)]
  have e35_6 : Body.bits (k ++ b ++ 0#34 ++ encBool sc) 35 6 = BitVec.extractLsb' 0 6 (b : BitVec 6) := by unfold Body.bits; rw [ext_hi (a := 43) (b := 1) _ _ _ _ (by decide), ext_hi (a := 9) (b := 34) _ _ _ _ (by decide), ext_lo (a := 3) (b := 6) _ _ _ _ (by decide)]
  have e41_3 : Body.bits (k ++ b ++ 0#34 ++ encBool sc) 41 3 = BitVec.extractLsb' 0 3 (k : BitVec 3) := by unfold Body.bits; rw [ext_hi (a := 43) (b := 1) _ _ _ _ (by decide), ext_hi (a := 9) (b := 34) _ _ _ _ (by decide), ext_hi (a := 3) (b := 6) _ _ _ _ (by decide)]
  simp only [decTile, bit, ext_all, e0_1, e1_34, e35_6, e41_3, modSat, modBool, modSgn, modRM, Body.md]
  cases sc <;> rfl

theorem cpybt (c : Common) (sc : Bool) (k : BitVec 3) (b : BitVec 6) : Statement (.cpybt c sc k b) := decodes_of rfl fun hw0 => by
  show decTile c 0x310 _ = _
  have e0_1 : Body.bits (k ++ b ++ 0#34 ++ encBool sc) 0 1 = BitVec.extractLsb' 0 1 (encBool sc : BitVec 1) := by unfold Body.bits; rw [ext_lo (a := 43) (b := 1) _ _ _ _ (by decide)]
  have e1_34 : Body.bits (k ++ b ++ 0#34 ++ encBool sc) 1 34 = BitVec.extractLsb' 0 34 (0#34 : BitVec 34) := by unfold Body.bits; rw [ext_hi (a := 43) (b := 1) _ _ _ _ (by decide), ext_lo (a := 9) (b := 34) _ _ _ _ (by decide)]
  have e35_6 : Body.bits (k ++ b ++ 0#34 ++ encBool sc) 35 6 = BitVec.extractLsb' 0 6 (b : BitVec 6) := by unfold Body.bits; rw [ext_hi (a := 43) (b := 1) _ _ _ _ (by decide), ext_hi (a := 9) (b := 34) _ _ _ _ (by decide), ext_lo (a := 3) (b := 6) _ _ _ _ (by decide)]
  have e41_3 : Body.bits (k ++ b ++ 0#34 ++ encBool sc) 41 3 = BitVec.extractLsb' 0 3 (k : BitVec 3) := by unfold Body.bits; rw [ext_hi (a := 43) (b := 1) _ _ _ _ (by decide), ext_hi (a := 9) (b := 34) _ _ _ _ (by decide), ext_hi (a := 3) (b := 6) _ _ _ _ (by decide)]
  simp only [decTile, bit, ext_all, e0_1, e1_34, e35_6, e41_3, modSat, modBool, modSgn, modRM, Body.md]
  cases sc <;> rfl

theorem tkwait (c : Common) (k : BitVec 3) : Statement (.tkwait c k) := decodes_of rfl fun hw0 => by
  show decTile c 0x311 _ = _
  have e0_41 : Body.bits (k ++ 0#41) 0 41 = BitVec.extractLsb' 0 41 (0#41 : BitVec 41) := by unfold Body.bits; rw [ext_lo (a := 3) (b := 41) _ _ _ _ (by decide)]
  have e41_3 : Body.bits (k ++ 0#41) 41 3 = BitVec.extractLsb' 0 3 (k : BitVec 3) := by unfold Body.bits; rw [ext_hi (a := 3) (b := 41) _ _ _ _ (by decide)]
  simp only [decTile, bit, ext_all, e0_41, e41_3, modSat, modBool, modSgn, modRM, Body.md]
  rfl

theorem featq (c : Common) (d : Fld) (w : BitVec 4) : Statement (.featq c d w) := decodes_of rfl fun hw0 => by
  show decSys c 0x380 _ = _
  have e0_4 : Body.bits (d ++ 0#30 ++ w) 0 4 = BitVec.extractLsb' 0 4 (w : BitVec 4) := by unfold Body.bits; rw [ext_lo (a := 40) (b := 4) _ _ _ _ (by decide)]
  have e4_20 : Body.bits (d ++ 0#30 ++ w) 4 20 = BitVec.extractLsb' 0 20 (0#30 : BitVec 30) := by unfold Body.bits; rw [ext_hi (a := 40) (b := 4) _ _ _ _ (by decide), ext_lo (a := 10) (b := 30) _ _ _ _ (by decide)]
  have e24_10 : Body.bits (d ++ 0#30 ++ w) 24 10 = BitVec.extractLsb' 20 10 (0#30 : BitVec 30) := by unfold Body.bits; rw [ext_hi (a := 40) (b := 4) _ _ _ _ (by decide), ext_lo (a := 10) (b := 30) _ _ _ _ (by decide)]
  have e34_10 : Body.bits (d ++ 0#30 ++ w) 34 10 = BitVec.extractLsb' 0 10 (d : BitVec 10) := by unfold Body.bits; rw [ext_hi (a := 40) (b := 4) _ _ _ _ (by decide), ext_hi (a := 10) (b := 30) _ _ _ _ (by decide)]
  simp only [decSys, bit, ext_all, e0_4, e4_20, e24_10, e34_10, modSat, modBool, modSgn, modRM, Body.md]
  rfl

theorem livept (c : Common) (gm : BitVec 10) (b0 : BitVec 11) (l0 : BitVec 6) (b1 : BitVec 11) (l1 : BitVec 6) : Statement (.livept c gm b0 l0 b1 l1) := decodes_of rfl fun hw0 => by
  show decSys c 0x381 _ = _
  have e0_6 : Body.bits (gm ++ b0 ++ l0 ++ b1 ++ l1) 0 6 = BitVec.extractLsb' 0 6 (l1 : BitVec 6) := by unfold Body.bits; rw [ext_lo (a := 38) (b := 6) _ _ _ _ (by decide)]
  have e6_11 : Body.bits (gm ++ b0 ++ l0 ++ b1 ++ l1) 6 11 = BitVec.extractLsb' 0 11 (b1 : BitVec 11) := by unfold Body.bits; rw [ext_hi (a := 38) (b := 6) _ _ _ _ (by decide), ext_lo (a := 27) (b := 11) _ _ _ _ (by decide)]
  have e17_6 : Body.bits (gm ++ b0 ++ l0 ++ b1 ++ l1) 17 6 = BitVec.extractLsb' 0 6 (l0 : BitVec 6) := by unfold Body.bits; rw [ext_hi (a := 38) (b := 6) _ _ _ _ (by decide), ext_hi (a := 27) (b := 11) _ _ _ _ (by decide), ext_lo (a := 21) (b := 6) _ _ _ _ (by decide)]
  have e23_11 : Body.bits (gm ++ b0 ++ l0 ++ b1 ++ l1) 23 11 = BitVec.extractLsb' 0 11 (b0 : BitVec 11) := by unfold Body.bits; rw [ext_hi (a := 38) (b := 6) _ _ _ _ (by decide), ext_hi (a := 27) (b := 11) _ _ _ _ (by decide), ext_hi (a := 21) (b := 6) _ _ _ _ (by decide), ext_lo (a := 10) (b := 11) _ _ _ _ (by decide)]
  have e34_10 : Body.bits (gm ++ b0 ++ l0 ++ b1 ++ l1) 34 10 = BitVec.extractLsb' 0 10 (gm : BitVec 10) := by unfold Body.bits; rw [ext_hi (a := 38) (b := 6) _ _ _ _ (by decide), ext_hi (a := 27) (b := 11) _ _ _ _ (by decide), ext_hi (a := 21) (b := 6) _ _ _ _ (by decide), ext_hi (a := 10) (b := 11) _ _ _ _ (by decide)]
  simp only [decSys, bit, ext_all, e0_6, e6_11, e17_6, e23_11, e34_10, modSat, modBool, modSgn, modRM, Body.md]
  simp only [Instr.wf] at hw0
  skip
  all_goals first | rfl | simp_all [need, MMKind.isFloat] <;> rfl

theorem sysr (c : Common) (d : Fld) (n : BitVec 12) : Statement (.sysr c d n) := decodes_of rfl fun hw0 => by
  show decSys c 0x382 _ = _
  have e0_12 : Body.bits (d ++ 0#22 ++ n) 0 12 = BitVec.extractLsb' 0 12 (n : BitVec 12) := by unfold Body.bits; rw [ext_lo (a := 32) (b := 12) _ _ _ _ (by decide)]
  have e12_12 : Body.bits (d ++ 0#22 ++ n) 12 12 = BitVec.extractLsb' 0 12 (0#22 : BitVec 22) := by unfold Body.bits; rw [ext_hi (a := 32) (b := 12) _ _ _ _ (by decide), ext_lo (a := 10) (b := 22) _ _ _ _ (by decide)]
  have e24_10 : Body.bits (d ++ 0#22 ++ n) 24 10 = BitVec.extractLsb' 12 10 (0#22 : BitVec 22) := by unfold Body.bits; rw [ext_hi (a := 32) (b := 12) _ _ _ _ (by decide), ext_lo (a := 10) (b := 22) _ _ _ _ (by decide)]
  have e34_10 : Body.bits (d ++ 0#22 ++ n) 34 10 = BitVec.extractLsb' 0 10 (d : BitVec 10) := by unfold Body.bits; rw [ext_hi (a := 32) (b := 12) _ _ _ _ (by decide), ext_hi (a := 10) (b := 22) _ _ _ _ (by decide)]
  simp only [decSys, bit, ext_all, e0_12, e12_12, e24_10, e34_10, modSat, modBool, modSgn, modRM, Body.md]
  simp only [Instr.wf] at hw0
  skip
  all_goals first | rfl | simp_all [need, MMKind.isFloat] <;> rfl

theorem sysw (c : Common) (a : Fld) (n : BitVec 12) : Statement (.sysw c a n) := decodes_of rfl fun hw0 => by
  show decSys c 0x383 _ = _
  have e0_12 : Body.bits (0#10 ++ a ++ 0#12 ++ n) 0 12 = BitVec.extractLsb' 0 12 (n : BitVec 12) := by unfold Body.bits; rw [ext_lo (a := 32) (b := 12) _ _ _ _ (by decide)]
  have e12_12 : Body.bits (0#10 ++ a ++ 0#12 ++ n) 12 12 = BitVec.extractLsb' 0 12 (0#12 : BitVec 12) := by unfold Body.bits; rw [ext_hi (a := 32) (b := 12) _ _ _ _ (by decide), ext_lo (a := 20) (b := 12) _ _ _ _ (by decide)]
  have e24_10 : Body.bits (0#10 ++ a ++ 0#12 ++ n) 24 10 = BitVec.extractLsb' 0 10 (a : BitVec 10) := by unfold Body.bits; rw [ext_hi (a := 32) (b := 12) _ _ _ _ (by decide), ext_hi (a := 20) (b := 12) _ _ _ _ (by decide), ext_lo (a := 10) (b := 10) _ _ _ _ (by decide)]
  have e34_10 : Body.bits (0#10 ++ a ++ 0#12 ++ n) 34 10 = BitVec.extractLsb' 0 10 (0#10 : BitVec 10) := by unfold Body.bits; rw [ext_hi (a := 32) (b := 12) _ _ _ _ (by decide), ext_hi (a := 20) (b := 12) _ _ _ _ (by decide), ext_hi (a := 10) (b := 10) _ _ _ _ (by decide)]
  simp only [decSys, bit, ext_all, e0_12, e12_12, e24_10, e34_10, modSat, modBool, modSgn, modRM, Body.md]
  simp only [Instr.wf] at hw0
  skip
  all_goals first | rfl | simp_all [need, MMKind.isFloat] <;> rfl

theorem hretRetry (c : Common) : Statement (.hretRetry c) := decodes_of rfl fun hw0 => by
  show decSys c 0x384 _ = _
  simp only [decSys, bit, ext_all, modSat, modBool, modSgn, modRM, Body.md]
  rfl

theorem hretSkip (c : Common) : Statement (.hretSkip c) := decodes_of rfl fun hw0 => by
  show decSys c 0x384 _ = _
  simp only [decSys, bit, ext_all, modSat, modBool, modSgn, modRM, Body.md]
  rfl

theorem hretEsc (c : Common) : Statement (.hretEsc c) := decodes_of rfl fun hw0 => by
  show decSys c 0x384 _ = _
  simp only [decSys, bit, ext_all, modSat, modBool, modSgn, modRM, Body.md]
  rfl

theorem hget (c : Common) (k : HKind) (d : Fld) (x : Fld) : Statement (.hget c k d x) := decodes_of rfl fun hw0 => by
  show decSys c 0x385 _ = _
  have e0_4 : Body.bits (d ++ x ++ 0#20 ++ encHKind k) 0 4 = BitVec.extractLsb' 0 4 (encHKind k : BitVec 4) := by unfold Body.bits; rw [ext_lo (a := 40) (b := 4) _ _ _ _ (by decide)]
  have e4_20 : Body.bits (d ++ x ++ 0#20 ++ encHKind k) 4 20 = BitVec.extractLsb' 0 20 (0#20 : BitVec 20) := by unfold Body.bits; rw [ext_hi (a := 40) (b := 4) _ _ _ _ (by decide), ext_lo (a := 20) (b := 20) _ _ _ _ (by decide)]
  have e24_10 : Body.bits (d ++ x ++ 0#20 ++ encHKind k) 24 10 = BitVec.extractLsb' 0 10 (x : BitVec 10) := by unfold Body.bits; rw [ext_hi (a := 40) (b := 4) _ _ _ _ (by decide), ext_hi (a := 20) (b := 20) _ _ _ _ (by decide), ext_lo (a := 10) (b := 10) _ _ _ _ (by decide)]
  have e34_10 : Body.bits (d ++ x ++ 0#20 ++ encHKind k) 34 10 = BitVec.extractLsb' 0 10 (d : BitVec 10) := by unfold Body.bits; rw [ext_hi (a := 40) (b := 4) _ _ _ _ (by decide), ext_hi (a := 20) (b := 20) _ _ _ _ (by decide), ext_hi (a := 10) (b := 10) _ _ _ _ (by decide)]
  simp only [decSys, bit, ext_all, e0_4, e4_20, e24_10, e34_10, modSat, modBool, modSgn, modRM, Body.md]
  simp only [Instr.wf] at hw0
  cases k <;> skip
  all_goals first | rfl | simp_all [need, MMKind.isFloat] <;> rfl

theorem hset (c : Common) (k : HKind) (d : Fld) (x : Fld) : Statement (.hset c k d x) := decodes_of rfl fun hw0 => by
  show decSys c 0x386 _ = _
  have e0_4 : Body.bits (d ++ x ++ 0#20 ++ encHKind k) 0 4 = BitVec.extractLsb' 0 4 (encHKind k : BitVec 4) := by unfold Body.bits; rw [ext_lo (a := 40) (b := 4) _ _ _ _ (by decide)]
  have e4_20 : Body.bits (d ++ x ++ 0#20 ++ encHKind k) 4 20 = BitVec.extractLsb' 0 20 (0#20 : BitVec 20) := by unfold Body.bits; rw [ext_hi (a := 40) (b := 4) _ _ _ _ (by decide), ext_lo (a := 20) (b := 20) _ _ _ _ (by decide)]
  have e24_10 : Body.bits (d ++ x ++ 0#20 ++ encHKind k) 24 10 = BitVec.extractLsb' 0 10 (x : BitVec 10) := by unfold Body.bits; rw [ext_hi (a := 40) (b := 4) _ _ _ _ (by decide), ext_hi (a := 20) (b := 20) _ _ _ _ (by decide), ext_lo (a := 10) (b := 10) _ _ _ _ (by decide)]
  have e34_10 : Body.bits (d ++ x ++ 0#20 ++ encHKind k) 34 10 = BitVec.extractLsb' 0 10 (d : BitVec 10) := by unfold Body.bits; rw [ext_hi (a := 40) (b := 4) _ _ _ _ (by decide), ext_hi (a := 20) (b := 20) _ _ _ _ (by decide), ext_hi (a := 10) (b := 10) _ _ _ _ (by decide)]
  simp only [decSys, bit, ext_all, e0_4, e4_20, e24_10, e34_10, modSat, modBool, modSgn, modRM, Body.md]
  simp only [Instr.wf] at hw0
  cases k <;> skip
  all_goals first | rfl | simp_all [need, MMKind.isFloat] <;> rfl

theorem clock (c : Common) (nsec : Bool) (d : Fld) : Statement (.clock c nsec d) := decodes_of rfl fun hw0 => by
  show decSys c 0x387 _ = _
  have e0_1 : Body.bits (d ++ 0#33 ++ encBool nsec) 0 1 = BitVec.extractLsb' 0 1 (encBool nsec : BitVec 1) := by unfold Body.bits; rw [ext_lo (a := 43) (b := 1) _ _ _ _ (by decide)]
  have e1_23 : Body.bits (d ++ 0#33 ++ encBool nsec) 1 23 = BitVec.extractLsb' 0 23 (0#33 : BitVec 33) := by unfold Body.bits; rw [ext_hi (a := 43) (b := 1) _ _ _ _ (by decide), ext_lo (a := 10) (b := 33) _ _ _ _ (by decide)]
  have e24_10 : Body.bits (d ++ 0#33 ++ encBool nsec) 24 10 = BitVec.extractLsb' 23 10 (0#33 : BitVec 33) := by unfold Body.bits; rw [ext_hi (a := 43) (b := 1) _ _ _ _ (by decide), ext_lo (a := 10) (b := 33) _ _ _ _ (by decide)]
  have e34_10 : Body.bits (d ++ 0#33 ++ encBool nsec) 34 10 = BitVec.extractLsb' 0 10 (d : BitVec 10) := by unfold Body.bits; rw [ext_hi (a := 43) (b := 1) _ _ _ _ (by decide), ext_hi (a := 10) (b := 33) _ _ _ _ (by decide)]
  simp only [decSys, bit, ext_all, e0_1, e1_23, e24_10, e34_10, modSat, modBool, modSgn, modRM, Body.md]
  cases nsec <;> rfl

theorem pmc (c : Common) (d : Fld) (e : BitVec 6) : Statement (.pmc c d e) := decodes_of rfl fun hw0 => by
  show decSys c 0x388 _ = _
  have e0_6 : Body.bits (d ++ 0#28 ++ e) 0 6 = BitVec.extractLsb' 0 6 (e : BitVec 6) := by unfold Body.bits; rw [ext_lo (a := 38) (b := 6) _ _ _ _ (by decide)]
  have e6_18 : Body.bits (d ++ 0#28 ++ e) 6 18 = BitVec.extractLsb' 0 18 (0#28 : BitVec 28) := by unfold Body.bits; rw [ext_hi (a := 38) (b := 6) _ _ _ _ (by decide), ext_lo (a := 10) (b := 28) _ _ _ _ (by decide)]
  have e24_10 : Body.bits (d ++ 0#28 ++ e) 24 10 = BitVec.extractLsb' 18 10 (0#28 : BitVec 28) := by unfold Body.bits; rw [ext_hi (a := 38) (b := 6) _ _ _ _ (by decide), ext_lo (a := 10) (b := 28) _ _ _ _ (by decide)]
  have e34_10 : Body.bits (d ++ 0#28 ++ e) 34 10 = BitVec.extractLsb' 0 10 (d : BitVec 10) := by unfold Body.bits; rw [ext_hi (a := 38) (b := 6) _ _ _ _ (by decide), ext_hi (a := 10) (b := 28) _ _ _ _ (by decide)]
  simp only [decSys, bit, ext_all, e0_6, e6_18, e24_10, e34_10, modSat, modBool, modSgn, modRM, Body.md]
  simp only [Instr.wf] at hw0
  skip
  all_goals first | rfl | simp_all [need, MMKind.isFloat] <;> rfl

theorem issueSlot (q : Nat) : Statement (.issueSlot q) := fun _ w h => nomatch (h : none = some w)

theorem instructionFetchFill (n : Nat) : Statement (.instructionFetchFill n) := fun _ w h => nomatch (h : none = some w)

theorem handlerEntry (q : Nat) : Statement (.handlerEntry q) := fun _ w h => nomatch (h : none = some w)

theorem loadReturn (n : Nat) : Statement (.loadReturn n) := fun _ w h => nomatch (h : none = some w)

theorem deferredDataAbort (n : Nat) : Statement (.deferredDataAbort n) := fun _ w h => nomatch (h : none = some w)

theorem storeAck (n : Nat) : Statement (.storeAck n) := fun _ w h => nomatch (h : none = some w)

theorem storeFail (n : Nat) : Statement (.storeFail n) := fun _ w h => nomatch (h : none = some w)

theorem homeSliceAccess (n : Nat) : Statement (.homeSliceAccess n) := fun _ w h => nomatch (h : none = some w)

theorem translationWalkEnd (n : Nat) : Statement (.translationWalkEnd n) := fun _ w h => nomatch (h : none = some w)

theorem pageRequestRingRoom (g : Nat) : Statement (.pageRequestRingRoom g) := fun _ w h => nomatch (h : none = some w)

theorem pageServiceBoundExpiry (n : Nat) : Statement (.pageServiceBoundExpiry n) := fun _ w h => nomatch (h : none = some w)

theorem pageResponseWrite (g : Nat) (v : Word64) : Statement (.pageResponseWrite g v) := fun _ w h => nomatch (h : none = some w)

theorem flushnWrite (g : Nat) (v : Word) : Statement (.flushnWrite g v) := fun _ w h => nomatch (h : none = some w)

theorem flushComplete (g : Nat) : Statement (.flushComplete g) := fun _ w h => nomatch (h : none = some w)

theorem copyEngineStart (n : Nat) : Statement (.copyEngineStart n) := fun _ w h => nomatch (h : none = some w)

theorem copyLand (n : Nat) : Statement (.copyLand n) := fun _ w h => nomatch (h : none = some w)

theorem copyFail (n : Nat) : Statement (.copyFail n) := fun _ w h => nomatch (h : none = some w)

theorem tileDefinitionFetch (n : Nat) : Statement (.tileDefinitionFetch n) := fun _ w h => nomatch (h : none = some w)

theorem tileDefinitionLands (n : Nat) : Statement (.tileDefinitionLands n) := fun _ w h => nomatch (h : none = some w)

theorem tileReaderDone (n : Nat) : Statement (.tileReaderDone n) := fun _ w h => nomatch (h : none = some w)

theorem matrixEngineEntry (n : Nat) : Statement (.matrixEngineEntry n) := fun _ w h => nomatch (h : none = some w)

theorem matrixCommit (n : Nat) : Statement (.matrixCommit n) := fun _ w h => nomatch (h : none = some w)

theorem adapterFillStart (n : Nat) : Statement (.adapterFillStart n) := fun _ w h => nomatch (h : none = some w)

theorem adapterFillLands (n : Nat) : Statement (.adapterFillLands n) := fun _ w h => nomatch (h : none = some w)

theorem adapterFillFail (n : Nat) : Statement (.adapterFillFail n) := fun _ w h => nomatch (h : none = some w)

theorem adapterRowReplay (n : Nat) (row : Nat) : Statement (.adapterRowReplay n row) := fun _ w h => nomatch (h : none = some w)

theorem laneCheckFail (q : Nat) (lane : Nat) : Statement (.laneCheckFail q lane) := fun _ w h => nomatch (h : none = some w)

theorem concordanceRewriteDone (q : Nat) : Statement (.concordanceRewriteDone q) := fun _ w h => nomatch (h : none = some w)

theorem columnCheckFail (core : Nat) (col : Nat) : Statement (.columnCheckFail core col) := fun _ w h => nomatch (h : none = some w)

theorem columnRewriteDone (core : Nat) : Statement (.columnRewriteDone core) := fun _ w h => nomatch (h : none = some w)

theorem schedulerPass  : Statement (.schedulerPass) := fun _ w h => nomatch (h : none = some w)

theorem headHoldTimeout (n : Nat) : Statement (.headHoldTimeout n) := fun _ w h => nomatch (h : none = some w)

theorem bandwidthWindowEnd  : Statement (.bandwidthWindowEnd) := fun _ w h => nomatch (h : none = some w)

theorem warpEnd (n : Nat) : Statement (.warpEnd n) := fun _ w h => nomatch (h : none = some w)

theorem blockEnd (n : Nat) : Statement (.blockEnd n) := fun _ w h => nomatch (h : none = some w)

theorem redoEntryArrival (n : Nat) : Statement (.redoEntryArrival n) := fun _ w h => nomatch (h : none = some w)

theorem redoEntryResend (n : Nat) : Statement (.redoEntryResend n) := fun _ w h => nomatch (h : none = some w)

theorem channelDepartureStart (ch : Nat) : Statement (.channelDepartureStart ch) := fun _ w h => nomatch (h : none = some w)

theorem evacuatorLineStep  : Statement (.evacuatorLineStep) := fun _ w h => nomatch (h : none = some w)

theorem sliceDeparture (sl : Nat) : Statement (.sliceDeparture sl) := fun _ w h => nomatch (h : none = some w)

theorem runCommand (q : Nat) : Statement (.runCommand q) := fun _ w h => nomatch (h : none = some w)

theorem translationComplete (n : Nat) : Statement (.translationComplete n) := fun _ w h => nomatch (h : none = some w)

theorem runComplete (n : Nat) : Statement (.runComplete n) := fun _ w h => nomatch (h : none = some w)

theorem copyCommand (q : Nat) : Statement (.copyCommand q) := fun _ w h => nomatch (h : none = some w)

theorem copyCommandComplete (n : Nat) : Statement (.copyCommandComplete n) := fun _ w h => nomatch (h : none = some w)

theorem graphCommand (q : Nat) : Statement (.graphCommand q) := fun _ w h => nomatch (h : none = some w)

theorem signalCommand (q : Nat) : Statement (.signalCommand q) := fun _ w h => nomatch (h : none = some w)

theorem waitCommand (q : Nat) : Statement (.waitCommand q) := fun _ w h => nomatch (h : none = some w)

theorem waitPoll (n : Nat) : Statement (.waitPoll n) := fun _ w h => nomatch (h : none = some w)

theorem waitTimeout (n : Nat) : Statement (.waitTimeout n) := fun _ w h => nomatch (h : none = some w)

theorem loadgraphCommand (q : Nat) : Statement (.loadgraphCommand q) := fun _ w h => nomatch (h : none = some w)

theorem loadgraphComplete (n : Nat) : Statement (.loadgraphComplete n) := fun _ w h => nomatch (h : none = some w)

theorem graphRunStart (g : Nat) : Statement (.graphRunStart g) := fun _ w h => nomatch (h : none = some w)

theorem graphNodeRun (g : Nat) : Statement (.graphNodeRun g) := fun _ w h => nomatch (h : none = some w)

theorem graphNodeCopy (g : Nat) : Statement (.graphNodeCopy g) := fun _ w h => nomatch (h : none = some w)

theorem graphNodeSignal (g : Nat) : Statement (.graphNodeSignal g) := fun _ w h => nomatch (h : none = some w)

theorem graphNodeWait (g : Nat) : Statement (.graphNodeWait g) := fun _ w h => nomatch (h : none = some w)

theorem graphNodeIf (g : Nat) : Statement (.graphNodeIf g) := fun _ w h => nomatch (h : none = some w)

theorem graphNodeLoop (g : Nat) : Statement (.graphNodeLoop g) := fun _ w h => nomatch (h : none = some w)

theorem graphNodeTrigger (g : Nat) : Statement (.graphNodeTrigger g) := fun _ w h => nomatch (h : none = some w)

theorem eventRingRoom (q : Nat) : Statement (.eventRingRoom q) := fun _ w h => nomatch (h : none = some w)

theorem tagMessageArrival (t : Nat) (payload : List Byte) : Statement (.tagMessageArrival t payload) := fun _ w h => nomatch (h : none = some w)

theorem tagLaunch (t : Nat) : Statement (.tagLaunch t) := fun _ w h => nomatch (h : none = some w)

theorem queueTailWrite (q : Nat) (v : Word) : Statement (.queueTailWrite q v) := fun _ w h => nomatch (h : none = some w)

theorem queueEnable (q : Nat) : Statement (.queueEnable q) := fun _ w h => nomatch (h : none = some w)

theorem queueAck (q : Nat) (v : Word) : Statement (.queueAck q v) := fun _ w h => nomatch (h : none = some w)

theorem errsumClear (q : Nat) (v : Word64) : Statement (.errsumClear q v) := fun _ w h => nomatch (h : none = some w)

theorem graphTriggerWrite (n : Nat) (v : Word64) : Statement (.graphTriggerWrite n v) := fun _ w h => nomatch (h : none = some w)

theorem graphTriggerReset (n : Nat) (v : Word64) : Statement (.graphTriggerReset n v) := fun _ w h => nomatch (h : none = some w)

theorem hostInterruptWrite (n : Nat) (v : Word64) : Statement (.hostInterruptWrite n v) := fun _ w h => nomatch (h : none = some w)

theorem hostInterruptRead (n : Nat) : Statement (.hostInterruptRead n) := fun _ w h => nomatch (h : none = some w)

theorem hostInterruptTimer (n : Nat) : Statement (.hostInterruptTimer n) := fun _ w h => nomatch (h : none = some w)

theorem queueWakeWrite (n : Nat) (v : Word64) : Statement (.queueWakeWrite n v) := fun _ w h => nomatch (h : none = some w)

theorem queueWakeRead (n : Nat) : Statement (.queueWakeRead n) := fun _ w h => nomatch (h : none = some w)

theorem notifyLatchWrite (n : Nat) (v : Word64) : Statement (.notifyLatchWrite n v) := fun _ w h => nomatch (h : none = some w)

theorem notifyWakeMerge  : Statement (.notifyWakeMerge) := fun _ w h => nomatch (h : none = some w)

theorem notifyClassEntryWrite (n : Nat) (off : Nat) (size : Nat) (v : Word64) : Statement (.notifyClassEntryWrite n off size v) := fun _ w h => nomatch (h : none = some w)

theorem workQueueEnable (w : Nat) (v : Word) : Statement (.workQueueEnable w v) := fun _ w h => nomatch (h : none = some w)

theorem groupEnable (g : Nat) : Statement (.groupEnable g) := fun _ w h => nomatch (h : none = some w)

theorem groupDisable (g : Nat) : Statement (.groupDisable g) := fun _ w h => nomatch (h : none = some w)

theorem pctlGo (g : Nat) : Statement (.pctlGo g) := fun _ w h => nomatch (h : none = some w)

theorem pctlGoMigrate (g : Nat) : Statement (.pctlGoMigrate g) := fun _ w h => nomatch (h : none = some w)

theorem pctlRemove (g : Nat) : Statement (.pctlRemove g) := fun _ w h => nomatch (h : none = some w)

theorem preemptStop (c : Nat) : Statement (.preemptStop c) := fun _ w h => nomatch (h : none = some w)

theorem preemptBoundExpiry (c : Nat) : Statement (.preemptBoundExpiry c) := fun _ w h => nomatch (h : none = some w)

theorem saveEngine (c : Nat) : Statement (.saveEngine c) := fun _ w h => nomatch (h : none = some w)

theorem removalDrainTimeout (c : Nat) : Statement (.removalDrainTimeout c) := fun _ w h => nomatch (h : none = some w)

theorem inventoryPassStart (core : Nat) : Statement (.inventoryPassStart core) := fun _ w h => nomatch (h : none = some w)

theorem inventoryDrainTimeout (core : Nat) : Statement (.inventoryDrainTimeout core) := fun _ w h => nomatch (h : none = some w)

theorem inventoryScanEnd (core : Nat) (fails : List UnitFail) : Statement (.inventoryScanEnd core fails) := fun _ w h => nomatch (h : none = some w)

theorem uncorrectableError (site : ErrSite) : Statement (.uncorrectableError site) := fun _ w h => nomatch (h : none = some w)

theorem correctedError (site : CorrSite) : Statement (.correctedError site) := fun _ w h => nomatch (h : none = some w)

theorem verticalParityFail (cluster : Nat) (grp : Nat) (pa : Nat) (beat : Nat) : Statement (.verticalParityFail cluster grp pa beat) := fun _ w h => nomatch (h : none = some w)

theorem verticalBeatRetry (cluster : Nat) (passed : Bool) : Statement (.verticalBeatRetry cluster passed) := fun _ w h => nomatch (h : none = some w)

theorem wireTestEnd (cluster : Nat) (wire : Option Nat) (stuck : Option Bool) : Statement (.wireTestEnd cluster wire stuck) := fun _ w h => nomatch (h : none = some w)

theorem ageingMonitorRead (cluster : Nat) (driftPermille : Nat) : Statement (.ageingMonitorRead cluster driftPermille) := fun _ w h => nomatch (h : none = some w)

theorem powerSample (avg50us : Nat) (avg1ms : Nat) (tempC : Nat) : Statement (.powerSample avg50us avg1ms tempC) := fun _ w h => nomatch (h : none = some w)

theorem alarmClockStep  : Statement (.alarmClockStep) := fun _ w h => nomatch (h : none = some w)

theorem powerUpReset  : Statement (.powerUpReset) := fun _ w h => nomatch (h : none = some w)

theorem bootgo (v : Word) : Statement (.bootgo v) := fun _ w h => nomatch (h : none = some w)

theorem attgo (v : Word) : Statement (.attgo v) := fun _ w h => nomatch (h : none = some w)

theorem invctlWrite (v : Word) : Statement (.invctlWrite v) := fun _ w h => nomatch (h : none = some w)

theorem pwrlimWrite (v : Word) : Statement (.pwrlimWrite v) := fun _ w h => nomatch (h : none = some w)

theorem registerWrite (bar : Nat) (off : Nat) (size : Nat) (v : Word64) : Statement (.registerWrite bar off size v) := fun _ w h => nomatch (h : none = some w)

theorem hostLinkDown  : Statement (.hostLinkDown) := fun _ w h => nomatch (h : none = some w)

theorem remoteDeviceReset (node : Nat) : Statement (.remoteDeviceReset node) := fun _ w h => nomatch (h : none = some w)

theorem bootVerificationEnd  : Statement (.bootVerificationEnd) := fun _ w h => nomatch (h : none = some w)

theorem retirementRecordApplied  : Statement (.retirementRecordApplied) := fun _ w h => nomatch (h : none = some w)

theorem attestationReportComplete  : Statement (.attestationReportComplete) := fun _ w h => nomatch (h : none = some w)

theorem notifyApertureGating  : Statement (.notifyApertureGating) := fun _ w h => nomatch (h : none = some w)

theorem clockGlideEnd (cluster : Nat) : Statement (.clockGlideEnd cluster) := fun _ w h => nomatch (h : none = some w)

theorem powerLoss  : Statement (.powerLoss) := fun _ w h => nomatch (h : none = some w)

theorem fabricLinkDown (node : Nat) : Statement (.fabricLinkDown node) := fun _ w h => nomatch (h : none = some w)

end Sys2Proof.Laws.RoundTrip
end

