-- ==== Sys2Proof/Laws/Perform.lean ====
section
/-! SUPPORT. What every instruction shares when it acts: `performWith` on an instruction whose guard, mode, registers and dues are in order, the notes
of latencies, and the results of instructions that write registers or a predicate by lane. -/

namespace Sys2Proof.Machine

/-! ## Reads without early results -/

theorem rd_noEarly {s : State} (h : s.iss.early = []) (w : Warp) (n l : Nat) : s.rd w n l = s.reg w n l := by simp [State.rd, h]

theorem rdP_noEarly {s : State} (h : s.iss.early = []) (w : Warp) (n l : Nat) : s.rdP w n l = w.pred n l := by simp [State.rdP, h]

/-- The lanes in which an instruction acts are issuing lanes. -/
theorem guarded_sub (s : State) (w : Warp) (g : Guard) (l : Nat) (hl : l < 32) :
    (s.guarded w g).getLsbD l = (s.iss.lanes.getLsbD l && s.guardOk w g l) := getLsbD_maskOf _ _ hl

theorem guarded_ne {s : State} {w : Warp} {g : Guard} (h : s.guarded w g ≠ 0#32) : s.iss.lanes ≠ 0#32 := by
  intro e
  apply h
  apply mask_ext
  intro l hl
  rw [guarded_sub _ _ _ _ hl, e]; simp

/-! ## Acting -/

variable {i : Instr} {s : State} {w : Warp} {act : Mask}

/-- No early read is open when every result is due. -/
theorem lookEarly_none (h : (readKeys i).any (w.undue s.iss.now) = false) : s.lookEarly w i = s := by
  have : (readKeys i).filter (w.undue s.iss.now) = [] := by
    rw [List.filter_eq_nil_iff]; intro a ha hu
    rw [List.any_eq_false] at h
    exact h a ha hu
  simp [State.lookEarly, State.lookKeys, this]

theorem any_append_false {α : Type} {p : α → Bool} {a b : List α} (h : (a ++ b).any p = false) : a.any p = false ∧ b.any p = false := by
  simpa [List.any_append, Bool.or_eq_false_iff] using h

/-- Voiding a block changes nothing that the issue reads. -/
@[simp] theorem void_iss (s : State) (w : Warp) (i : Instr) : (s.void w i).iss = s.iss := by
  unfold State.void State.keepGroup
  split
  · split
    · split <;> rfl
    · rfl
  · rfl

/-- An instruction in order: its effect on the acting lanes, then the note of its latencies. -/
theorem performWith_acts (h : Acts i s w act) {extra : State → Warp → Bool} (hx : extra (s.void w i) w = true) (body : Warp → Mask → State → State) :
    performWith i extra body s = (s.void w i).note w act i (body w act (s.void w i)) := by
  obtain ⟨hw, ha, hn, he, hm, hr, hd, hl⟩ := h
  have hlook : s.lookEarly w i = s := lookEarly_none (any_append_false hd).1
  have hst : stallShort w s.iss.now i = false := by
    unfold stallShort
    split
    · rfl
    · rfl
    · exact hd
  have hne : s.iss.lanes ≠ 0#32 := guarded_ne (ha ▸ hn)
  subst ha
  unfold performWith
  simp only [hw, hne, hlook, if_false, ite_self, hst, hm, hr, hx, hn, void_iss, Bool.and_false, Bool.and_self, Bool.not_true,
    Bool.false_eq_true]

theorem perform_acts (h : Acts i s w act) (body : Warp → Mask → State → State) :
    perform i body s = .next ((s.void w i).note w act i (body w act (s.void w i))) := by
  rw [perform, performWith_acts h rfl]

/-! ## Notes of latencies -/

theorem onWarp_onWarp (i : Nat) {f : Warp → Warp} (g : Warp → Warp) (hf : ∀ w, (f w).id = w.id) :
    (s.onWarp i f).onWarp i g = s.onWarp i (g ∘ f) := by
  simp only [State.onWarp, List.map_map]
  congr 1
  apply List.map_congr_left
  intro x _
  by_cases h : x.id = i <;> simp [h, hf]

theorem onWarp_id (i : Nat) : s.onWarp i (fun x => x) = s := by
  have : (s.warps.map fun w => if w.id = i then w else w) = s.warps := by simp
  simp only [State.onWarp, this]

/-- A write overtakes no earlier one where none of its key is still to land. -/
theorem overtake_none (s : State) (wi k : Nat) (fs : List Fixed) (y : Nat → Word) (l : Nat) (h : ∀ f ∈ fs, f.reg ≠ k) : s.overtake wi k fs y l = s := by
  unfold State.overtake
  split
  · rfl
  · have : (fs.any fun f => decide (f.reg = k) && (isS k || f.lanes.getLsbD l)) = false := by
      rw [List.any_eq_false]; intro f hf; simp [h f hf]
    simp [this]

theorem foldl_same {α β : Type} (f : β → α → β) (b : β) (l : List α) (h : ∀ a, f b a = b) : l.foldl f b = b := by
  induction l with
  | nil => rfl
  | cons a r ih => rw [List.foldl_cons, h, ih]

/-- The notes of an instruction whose results are due leave everything but the warp's list of results not yet due. -/
theorem note_acts (s0 : State) (w : Warp) (act : Mask) (i : Instr) (s : State) (h : (writeKeys i).any (w.undue s0.iss.now) = false) :
    ∃ g : List Fixed → List Fixed, s0.note w act i s = s.onWarp w.id fun x => { x with fixed := g x.fixed } := by
  unfold State.note
  dsimp only
  split
  · exact ⟨id, (onWarp_id _).symm⟩
  next hm =>
  clear hm
  generalize s.wrote w.id act = m
  rw [List.any_eq_false] at h
  generalize writeKeys i = ks at h
  induction ks generalizing s with
  | nil => exact ⟨id, (onWarp_id _).symm⟩
  | cons k r ih =>
    have hk : ∀ f ∈ w.fixed.filter fun f => decide (s0.iss.now + (latency i (s0.quad w.q).beats).getD 0 < f.due), f.reg ≠ k := by
      intro f hf hc
      obtain ⟨h1, h2⟩ := List.mem_filter.1 hf
      apply h k (List.mem_cons_self ..)
      simp only [Warp.undue, List.any_eq_true, Bool.and_eq_true, decide_eq_true_eq] at h2 ⊢
      exact ⟨f, h1, hc, by omega⟩
    rw [List.foldl_cons, foldl_same _ s _ fun l => overtake_none _ _ _ _ _ _ hk]
    cases hn : latency i (s0.quad w.q).beats with
    | none =>
      simp only [hn] at ih ⊢
      exact ih s fun a ha => h a (List.mem_cons_of_mem _ ha)
    | some n =>
      simp only [hn] at ih ⊢
      obtain ⟨g, hg⟩ := ih (s.onWarp w.id fun x => { x with fixed := { reg := k, issued := s0.iss.now, lanes := m, due := s0.iss.now + n, old := lanes32.map (s0.keyVal w k) } :: (x.fixed.filter fun f => decide (s0.iss.now < f.due)) }) (fun a ha => h a (List.mem_cons_of_mem _ ha))
      refine ⟨fun l => g ({ reg := k, issued := s0.iss.now, lanes := m, due := s0.iss.now + n, old := lanes32.map (s0.keyVal w k) } ::
        (l.filter fun f => decide (s0.iss.now < f.due))), ?_⟩
      rw [hg, onWarp_onWarp]
      · rfl
      · intro; rfl

/-! ## Exception flags -/

theorem orFlags_spec (s : State) (w : Warp) (ls : List Nat) (e : Nat → Exc) (hs : ∀ l ∈ ls, l < 32) :
    ∃ F : List Lane → List Lane, (s.orFlags w (ls.map fun l => (l, e l))) = s.onWarp w.id (fun y => { y with lanes := F y.lanes }) ∧
      ∀ L, (F L).length = L.length ∧ ∀ n, n < L.length → laneAt (F L) n =
        { laneAt L n with fpfl := (laneAt L n).fpfl ||| (if n ∈ ls then e n else 0) } := by
  induction ls generalizing s with
  | nil => exact ⟨id, (onWarp_id _).symm, fun L => ⟨rfl, fun n _ => by simp⟩⟩
  | cons a r ih =>
    have hr : ∀ l ∈ r, l < 32 := fun l hl => hs l (List.mem_cons_of_mem _ hl)
    unfold State.orFlags at ih ⊢
    rw [List.map_cons, List.foldl_cons]
    by_cases h0 : e a = 0#5
    · simp only [h0, if_true]
      obtain ⟨F, hF, hL⟩ := ih s hr
      refine ⟨F, hF, fun L => ⟨(hL L).1, fun n hn => ?_⟩⟩
      rw [(hL L).2 n hn]
      by_cases hna : n = a
      · subst hna; by_cases hm : n ∈ r <;> simp [hm, h0]
      · simp [hna]
    · simp only [h0, if_false]
      obtain ⟨F, hF, hL⟩ := ih (s.onWarp w.id fun y => { y with lanes := mapLanes (1#32 <<< a) (fun l => { l with fpfl := l.fpfl ||| e a }) y.lanes }) hr
      refine ⟨fun L => F (mapLanes (1#32 <<< a) (fun l => { l with fpfl := l.fpfl ||| e a }) L), ?_, fun L => ⟨?_, fun n hn => ?_⟩⟩
      · rw [hF, onWarp_onWarp _ _ (by intro; rfl)]; rfl
      · rw [(hL _).1, mapLanes_length]
      · have hn' : n < (mapLanes (1#32 <<< a) (fun l => { l with fpfl := l.fpfl ||| e a }) L).length := by rw [mapLanes_length]; exact hn
        rw [(hL _).2 n hn', laneAt_mapLanes _ _ _ _ hn]
        by_cases hna : n = a
        · subst hna
          rw [getLsbD_one_shl _ _ (hs n (List.mem_cons_self ..))]
          by_cases hm : n ∈ r
          · simp [hm, BitVec.or_assoc]
          · simp [hm]
        · by_cases h32 : n < 32
          · rw [getLsbD_one_shl _ _ h32]; simp [hna]
          · rw [BitVec.getLsbD_of_ge _ _ (by omega)]; simp [hna]

@[simp] theorem takeTrap_nil (s : State) (w : Warp) (hnd : Bool) (cls : Nat) : s.takeTrap w hnd cls [] = s := rfl

/-! ## What a computing instruction leaves -/

theorem warp?_id {s : State} {n : Nat} {w : Warp} (h : s.warp? n = some w) : w.id = n := by
  have := List.find?_some h
  simpa using this

/-- The one shape in which a computing instruction changes the state: its warp through `G`, which keeps all but registers, lanes and results not yet due,
and, in handler mode, its quadrant's bank through `B`, which keeps all but lanes and registers. -/
structure Shape (s : State) (w : Warp) (G : Warp → Warp) (B : Bank → Bank) (t : State) : Prop where
  only : t = { s with warps := t.warps, quads := t.quads }
  warps : t.warps = (s.onWarp w.id G).warps
  warpKeeps : ∀ x, G x = { x with v := (G x).v, s := (G x).s, p := (G x).p, lanes := (G x).lanes, fixed := (G x).fixed }
  bankKeeps : ∀ b, B b = { b with lanes := (B b).lanes, h := (B b).h }
  quad : ∀ q, t.quad q = if q = w.q ∧ s.iss.hnd = true then { s.quad q with bank := (s.quad q).bank.map B } else s.quad q
  noBank : s.iss.hnd = false → t.quads = s.quads

theorem only_set {s t : State} (h : t = { s with warps := t.warps, quads := t.quads }) (a : List Warp) (b : Sparse Quad) :
    ({ t with warps := a, quads := b } : State) = { s with warps := a, quads := b } := by
  generalize t.warps = x at h; generalize t.quads = y at h; subst h; rfl

theorem Shape.refl (s : State) (w : Warp) : Shape s w id id s where
  only := rfl
  warps := by show s.warps = (s.onWarp w.id fun x => x).warps; rw [onWarp_id]
  warpKeeps _ := rfl
  bankKeeps _ := rfl
  quad q := by split <;> simp
  noBank _ := rfl

theorem Shape.onWarp {G : Warp → Warp} {B : Bank → Bank} {t : State} (h : Shape s w G B t) (g : Warp → Warp)
    (hg : ∀ x, g x = { x with v := (g x).v, s := (g x).s, p := (g x).p, lanes := (g x).lanes, fixed := (g x).fixed }) :
    Shape s w (g ∘ G) B (t.onWarp w.id g) where
  only := only_set h.only (t.onWarp w.id g).warps t.quads
  warps := by
    rw [← onWarp_onWarp _ g (fun x => by rw [h.warpKeeps] : ∀ x, (G x).id = x.id)]
    show t.warps.map _ = _
    rw [h.warps]; rfl
  warpKeeps x := by rw [Function.comp_apply, hg, h.warpKeeps]
  bankKeeps := h.bankKeeps
  quad q := h.quad q
  noBank hh := h.noBank hh

theorem Shape.onBank {G : Warp → Warp} {B : Bank → Bank} {t : State} (h : Shape s w G B t) (hh : s.iss.hnd = true) (f : Bank → Bank)
    (hf : ∀ b, f b = { b with lanes := (f b).lanes, h := (f b).h }) : Shape s w G (f ∘ B) (t.onBank w.q f) where
  only := only_set h.only t.warps (t.onBank w.q f).quads
  warps := h.warps
  warpKeeps := h.warpKeeps
  bankKeeps b := by rw [Function.comp_apply, hf, h.bankKeeps]
  quad q := by
    rw [State.onBank, quad_onQuad, h.quad q, h.quad w.q]
    by_cases hq : q = w.q
    · subst hq; simp [hh]
    · simp [hq]
  noBank hn := by rw [hh] at hn; exact absurd hn (by decide)

theorem Shape.q {G : Warp → Warp} {B : Bank → Bank} {t : State} (h : Shape s w G B t) (x : Warp) : (G x).q = x.q := by rw [h.warpKeeps]; rfl

/-- Where a shape's warp and bank lanes stand. -/
theorem Shape.moved {G : Warp → Warp} {B : Bank → Bank} {t : State} (h : Shape s w G B t) (hw : s.issWarp = some w) (hl : lanesWhole s w)
    (mv : Nat → Lane → Lane) (e : Nat → Exc)
    (hlanes : ∀ n, n < 32 → laneAt (G w).lanes n =
      { (if s.iss.hnd then laneAt w.lanes n else mv n (laneAt w.lanes n)) with fpfl := (laneAt w.lanes n).fpfl ||| e n })
    (hbank : s.iss.hnd = true → ∀ b, b.lanes.length = 32 → ∀ n, n < 32 → laneAt (B b).lanes n = mv n (laneAt b.lanes n)) :
    Moved s w mv e t (G w) where
  only := h.only
  warp := by
    have hid : ∀ x, (G x).id = x.id := fun x => by rw [h.warpKeeps]
    have hwid : s.warp? w.id = some w := by rw [warp?_id hw]; exact hw
    have : t.warp? w.id = (s.onWarp w.id G).warp? w.id := by
      show t.warps.find? _ = _
      rw [h.warps]; rfl
    rw [this, warp?_onWarp _ _ hid, hwid]; simp
  same := h.warpKeeps w
  others j hj := by
    have hid : ∀ x, (G x).id = x.id := fun x => by rw [h.warpKeeps]
    have : t.warp? j = (s.onWarp w.id G).warp? j := by
      show t.warps.find? _ = _
      rw [h.warps]; rfl
    rw [this, warp?_onWarp _ _ hid]; simp [hj]
  quads q hq := by rw [h.quad]; simp [hq]
  quad := by rw [h.quad]; split <;> rfl
  lanes := hlanes
  noBank := h.noBank
  bank hh b hb := by
    have hb32 : b.lanes.length = 32 := by have := hl.2 hh; rw [hb] at this; simpa using this
    refine ⟨B b, ?_, h.bankKeeps b, hbank hh b hb32⟩
    rw [h.quad, if_pos ⟨rfl, hh⟩, hb]; rfl

/-- A special value depends on nothing that a computing instruction changes. -/
theorem Shape.special {G : Warp → Warp} {B : Bank → Bank} {t : State} (h : Shape s w G B t) (n l : Nat) : t.special (G w) n l = s.special w n l := by
  have h1 := congrArg State.ctxs h.only
  have h2 := congrArg State.blocks h.only
  dsimp only at h1 h2
  rw [h.warpKeeps w]
  simp only [State.special, State.ctx?, State.block?, h1, h2]

/-- A register after a shape: its vector, uniform and handler registers as `G` and `B` left them. -/
theorem Shape.reg {G : Warp → Warp} {B : Bank → Bank} {t : State} (h : Shape s w G B t) (r l : Nat)
    (hv : r < 640 → sget 0 (32 * r + l) (G w).v = sget 0 (32 * r + l) w.v)
    (hs : 640 ≤ r → r < 704 → sget 0 (r - 640) (G w).s = sget 0 (r - 640) w.s)
    (hh : s.iss.hnd = true → 704 ≤ r → r < 768 → ∀ b, sget 0 (32 * (r - 704) + l) (B b).h = sget 0 (32 * (r - 704) + l) b.h) :
    t.reg (G w) r l = s.reg w r l := by
  unfold State.reg
  split
  · next h1 => exact hv h1
  · split
    · next h1 h2 => exact hs (by omega) h2
    · split
      · next h1 h2 h3 =>
        rw [State.bankRegs, h.q, h.quad]
        by_cases hn : s.iss.hnd = true
        · rw [if_pos ⟨rfl, hn⟩]
          simp only [State.bankRegs]
          cases hb : (s.quad w.q).bank with
          | none => rfl
          | some b => exact hh hn (by omega) h3 b
        · rw [if_neg (by tauto)]; rfl
      · exact h.special r l

/-! ## The destination of a result -/

/-- `n` registers from field `d` on are registers that an instruction may write (R42, R43). -/
def dstOk (hnd : Bool) (d n : Nat) : Prop := d + n ≤ 640 ∨ (640 ≤ d ∧ d + n ≤ 704) ∨ (hnd = true ∧ 704 ≤ d ∧ d + n ≤ 768)

theorem isS_iff (n : Nat) : isS n = true ↔ 640 ≤ n ∧ n < 704 := by simp [isS]

/-- A destination operand that is legal is a register, unless it is a predicate or a convergence register. -/
theorem dst_ok {o : Opnd} {g : Nat} {hnd : Bool} (h : o.ok g hnd = true) (hw : o.wr = true) (hk : o.k ≠ .pred) (hc : o.k ≠ .conv) :
    dstOk hnd o.f.toNat o.n := by
  unfold Opnd.ok at h
  simp only [hw, Bool.not_true, Bool.false_and, Bool.or_false] at h
  unfold dstOk
  cases ho : o.k <;> cases hnd <;> simp only [ho, ne_eq, not_true_eq_false] at h hk hc <;>
    simp [isS] at h <;> simp <;> omega

/-! ## Results by lane -/

/-- The lane whose sources give lane `l` its result: a uniform destination is computed once (R45). -/
def srcLane (act : Mask) (d l : Nat) : Nat := if isS d then lowestLane act else l

@[simp] theorem wr_iss (s : State) (w : Warp) (n : Nat) (v : List (Nat × List Word)) : (s.wr w n v).iss = s.iss := by
  unfold State.wr; split
  · rfl
  · split
    · rfl
    · split <;> rfl

@[simp] theorem orFlags_iss (s : State) (w : Warp) (es : List (Nat × Exc)) : (s.orFlags w es).iss = s.iss := by
  unfold State.orFlags
  induction es generalizing s with
  | nil => rfl
  | cons a r ih => rw [List.foldl_cons, ih]; split <;> rfl

theorem laneResults_eq (w : Warp) (act : Mask) (d : Nat) (f : Nat → List Word × Exc) (s : State)
    (nt : ∀ l, act.getLsbD l = true → w.traps? l (f (srcLane act d l)).2 = false) :
    laneResults w act d f s =
      ((s.wr w d ((lanesOf act).map fun l => (l, (f (srcLane act d l)).1))).orFlags w ((lanesOf act).map fun l => (l, (f (srcLane act d l)).2))).advance w
        s.iss.lanes := by
  have hrs : (if isS d then (let r := f (lowestLane act); (lanesOf act).map fun l => (l, r)) else (lanesOf act).map fun l => (l, f l)) =
      (lanesOf act).map fun l => (l, f (srcLane act d l)) := by
    unfold srcLane; split <;> rfl
  have hbad : ((lanesOf act).map fun l => (l, f (srcLane act d l))).filter (fun r => w.traps? r.1 r.2.2) = [] := by
    rw [List.filter_eq_nil_iff]
    intro r hr
    obtain ⟨l, hl, rfl⟩ := List.mem_map.1 hr
    simp [nt l ((mem_lanesOf _ _).1 hl)]
  have hok : ((lanesOf act).map fun l => (l, f (srcLane act d l))).filter (fun r => !w.traps? r.1 r.2.2) =
      (lanesOf act).map fun l => (l, f (srcLane act d l)) := by
    rw [List.filter_eq_self]
    intro r hr
    obtain ⟨l, hl, rfl⟩ := List.mem_map.1 hr
    simp [nt l ((mem_lanesOf _ _).1 hl)]
  unfold laneResults
  rw [hrs]
  simp only [hbad, hok, List.map_map, List.map_nil, List.any_nil, State.arithTrap, takeTrap_nil, maskOf_false]
  have hm : ∀ m : Mask, m &&& ~~~0#32 = m := by intro m; rw [show ~~~0#32 = BitVec.allOnes 32 by decide, BitVec.and_allOnes]
  rw [hm, orFlags_iss, wr_iss]; rfl

theorem onLanes_adv (s : State) (w : Warp) (m : Mask) (hn : s.iss.hnd = false) :
    s.advance w m = s.onWarp w.id fun x => { x with lanes := mapLanes m (Lane.goto (nextPos s.iss.hdr s.iss.idx s.iss.count)) x.lanes } := by
  simp [State.advance, State.onLanes, hn]

theorem onLanes_advH (s : State) (w : Warp) (m : Mask) (hn : s.iss.hnd = true) :
    s.advance w m = s.onBank w.q fun x => { x with lanes := mapLanes m (Lane.goto (nextPos s.iss.hdr s.iss.idx s.iss.count)) x.lanes } := by
  simp [State.advance, State.onLanes, hn]

theorem Shape.iss {G : Warp → Warp} {B : Bank → Bank} {t : State} (h : Shape s w G B t) : t.iss = s.iss := by
  have := congrArg State.iss h.only; exact this

/-- The last step of a computing instruction: its lanes move, and its latency is noted. -/
theorem finish_shape {G : Warp → Warp} {B : Bank → Bank} {t : State} (h : Acts i s w act) (hs : Shape s w G B t)
    (F : Nat → Exc) (hG : (G w).lanes.length = w.lanes.length ∧ ∀ n, n < 32 → laneAt (G w).lanes n =
      { laneAt w.lanes n with fpfl := (laneAt w.lanes n).fpfl ||| F n }) (hB : ∀ b, (B b).lanes = b.lanes) :
    ∃ G' B', Shape s w G' B' (s.note w act i (t.advance w s.iss.lanes)) ∧
      Moved s w s.movedLane F (s.note w act i (t.advance w s.iss.lanes)) (G' w) ∧
      (∀ x, (G' x).v = (G x).v ∧ (G' x).s = (G x).s ∧ (G' x).p = (G x).p) ∧ ∀ b, (B' b).h = (B b).h := by
  obtain ⟨hw, ha, hn, he, hm, hr, hd, hl⟩ := h
  have hiss : t.iss = s.iss := hs.iss
  obtain ⟨g, hg⟩ := note_acts s w act i (t.advance w s.iss.lanes) (any_append_false hd).2
  by_cases hh : s.iss.hnd = true
  · have h1 : t.advance w s.iss.lanes = t.onBank w.q fun x =>
        { x with lanes := mapLanes s.iss.lanes (Lane.goto (nextPos s.iss.hdr s.iss.idx s.iss.count)) x.lanes } := by
      rw [onLanes_advH _ _ _ (by rw [hiss]; exact hh), hiss]
    rw [hg, h1]
    have hs2 := (hs.onBank hh (fun x => { x with lanes := mapLanes s.iss.lanes (Lane.goto (nextPos s.iss.hdr s.iss.idx s.iss.count)) x.lanes })
      (fun _ => rfl)).onWarp (fun x => { x with fixed := g x.fixed }) (fun _ => rfl)
    refine ⟨_, _, hs2, hs2.moved hw hl s.movedLane F ?_ ?_, fun _ => ⟨rfl, rfl, rfl⟩, fun _ => rfl⟩
    · intro n hn32
      show laneAt (G w).lanes n = _
      rw [hG.2 n hn32, hh]; rfl
    · intro _ b hb n hn32
      show laneAt (mapLanes _ _ (B b).lanes) n = _
      rw [hB, laneAt_mapLanes _ _ _ _ (by rw [hb]; exact hn32)]
      unfold State.movedLane; split <;> rfl
  · have hf : s.iss.hnd = false := by simpa using hh
    have h1 : t.advance w s.iss.lanes = t.onWarp w.id fun x =>
        { x with lanes := mapLanes s.iss.lanes (Lane.goto (nextPos s.iss.hdr s.iss.idx s.iss.count)) x.lanes } := by
      rw [onLanes_adv _ _ _ (by rw [hiss]; exact hf), hiss]
    rw [hg, h1]
    have hs2 := (hs.onWarp (fun x => { x with lanes := mapLanes s.iss.lanes (Lane.goto (nextPos s.iss.hdr s.iss.idx s.iss.count)) x.lanes })
      (fun _ => rfl)).onWarp (fun x => { x with fixed := g x.fixed }) (fun _ => rfl)
    refine ⟨_, _, hs2, hs2.moved hw hl s.movedLane F ?_ (by intro h; exact absurd h hh), fun _ => ⟨rfl, rfl, rfl⟩, fun _ => rfl⟩
    intro n hn32
    show laneAt (mapLanes _ _ (G w).lanes) n = _
    rw [laneAt_mapLanes _ _ _ _ (by rw [hG.1, hl.1]; exact hn32), hG.2 n hn32, hf]
    unfold State.movedLane
    by_cases hi : s.iss.lanes.getLsbD n = true <;> simp [hi, Lane.goto]

/-- A result written in the acting lanes, as a shape. -/
theorem wr_shape (hl : ∀ l, act.getLsbD l = true → l < 32) (hne : act ≠ 0#32) (d n : Nat) (hn0 : 0 < n) (hd : dstOk s.iss.hnd d n) (f : Nat → List Word)
    (hf : ∀ l, (f l).length = n) :
    ∃ G B, Shape s w G B (s.wr w d ((lanesOf act).map fun l => (l, f (srcLane act d l)))) ∧ (∀ x, (G x).lanes = x.lanes ∧ (G x).p = x.p) ∧
      (∀ b, (B b).lanes = b.lanes) ∧
      (∀ r l, l < 32 → r < 640 → sget 0 (32 * r + l) (G w).v =
        if d < 640 ∧ act.getLsbD l = true ∧ d ≤ r ∧ r < d + n then (f (srcLane act d l)).getD (r - d) 0 else sget 0 (32 * r + l) w.v) ∧
      (∀ r l, 640 ≤ r → r < 704 → sget 0 (r - 640) (G w).s =
        if d < 704 ∧ d ≤ r ∧ r < d + n then (f (srcLane act d l)).getD (r - d) 0 else sget 0 (r - 640) w.s) ∧
      (s.iss.hnd = true → ∀ b r l, l < 32 → 704 ≤ r → r < 768 → sget 0 (32 * (r - 704) + l) (B b).h =
        if act.getLsbD l = true ∧ d ≤ r ∧ r < d + n then (f (srcLane act d l)).getD (r - d) 0 else sget 0 (32 * (r - 704) + l) b.h) := by
  have hls : ∀ x ∈ lanesOf act, x < 32 := fun x hx => hl x ((mem_lanesOf _ _).1 hx)
  have hlne : lanesOf act ≠ [] := by
    intro h
    have := lanesOf_lowest hne
    rw [← mem_lanesOf, h] at this
    simp at this
  have hu := isS_iff d
  unfold State.wr
  unfold dstOk at hd
  split
  · next h1 =>
    have hsd : isS d = false := by rw [Bool.eq_false_iff]; intro h; rw [hu] at h; omega
    refine ⟨_, _, (Shape.refl s w).onWarp _ (fun _ => rfl), fun _ => ⟨rfl, rfl⟩, fun _ => rfl, ?_, ?_, ?_⟩
    · intro r l hl32 hr
      show sget 0 (32 * r + l) (List.foldl _ w.v _) = _
      simp only [srcLane, hsd, Bool.false_eq_true, if_false]
      rw [sget_putWords_fold 32 d (lanesOf act) f w.v r l hl32 hls]
      simp only [mem_lanesOf, hf, h1, true_and]
    · intro r l hr1 hr2
      show sget 0 (r - 640) w.s = _
      rw [if_neg (by omega)]
    · intro _ b r l hl32 hr1 hr2
      show sget 0 _ b.h = _
      rw [if_neg (by omega)]
  · next h1 =>
    split
    · next h2 =>
      have hsd : isS d = true := by rw [hu]; omega
      refine ⟨_, _, (Shape.refl s w).onWarp _ (fun _ => rfl), fun _ => ⟨rfl, rfl⟩, fun _ => rfl, ?_, ?_, ?_⟩
      · intro r l hl32 hr
        show sget 0 _ w.v = _
        rw [if_neg (by omega)]
      · intro r l hr1 hr2
        show sget 0 (r - 640) (List.foldl _ w.s _) = _
        simp only [srcLane, hsd, if_true]
        rw [sget_putWords_same (d - 640) (lanesOf act) (f (lowestLane act)) w.s (r - 640) hlne, hf]
        by_cases hc : d ≤ r ∧ r < d + n
        · rw [if_pos (by omega), if_pos ⟨h2, hc⟩, show r - 640 - (d - 640) = r - d by omega]
        · rw [if_neg (by omega), if_neg (by tauto)]
      · intro _ b r l hl32 hr1 hr2
        show sget 0 _ b.h = _
        rw [if_neg (by omega)]
    · next h2 =>
      have hh : s.iss.hnd = true ∧ 704 ≤ d ∧ d + n ≤ 768 ∨ n = 0 := by
        rcases hd with h | h | h
        · right; omega
        · right; omega
        · left; exact h
      have hsd : isS d = false := by rw [Bool.eq_false_iff]; intro h; rw [hu] at h; omega
      split
      · next h3 =>
        by_cases hhn : s.iss.hnd = true
        · refine ⟨_, _, (Shape.refl s w).onBank hhn _ (fun _ => rfl), fun _ => ⟨rfl, rfl⟩, fun _ => rfl, ?_, ?_, ?_⟩
          · intro r l hl32 hr
            show sget 0 _ w.v = _
            rw [if_neg (by omega)]
          · intro r l hr1 hr2
            show sget 0 _ w.s = _
            rw [if_neg (by omega)]
          · intro _ b r l hl32 hr1 hr2
            show sget 0 _ (List.foldl _ b.h _) = _
            simp only [srcLane, hsd, Bool.false_eq_true, if_false]
            rw [sget_putWords_fold 32 (d - 704) (lanesOf act) f b.h (r - 704) l hl32 hls]
            simp only [mem_lanesOf, hf]
            by_cases hc : act.getLsbD l = true ∧ d ≤ r ∧ r < d + n
            · rw [if_pos ⟨hc.1, by omega, by omega⟩, if_pos hc, show r - 704 - (d - 704) = r - d by omega]
            · rw [if_neg (fun h => hc ⟨h.1, by omega, by omega⟩), if_neg hc]
        · exfalso
          rcases hd with h | h | h
          · omega
          · omega
          · exact hhn h.1
      · next h3 =>
        refine ⟨id, id, Shape.refl s w, fun _ => ⟨rfl, rfl⟩, fun _ => rfl, ?_, ?_, ?_⟩
        · intro r l hl32 hr
          show sget 0 _ w.v = _
          rw [if_neg (by omega)]
        · intro r l hr1 hr2
          show sget 0 _ w.s = _
          rw [if_neg (by omega)]
        · intro _ b r l hl32 hr1 hr2
          show sget 0 _ b.h = _
          rw [if_neg (by omega)]

/-- A legal instruction's lanes lie below 32. -/
theorem mask_lt (m : Mask) (l : Nat) (h : m.getLsbD l = true) : l < 32 := by
  by_contra hl
  rw [BitVec.getLsbD_of_ge _ _ (by omega)] at h
  exact absurd h (by decide)

/-- A vector instruction whose exceptions do not trap: its results, its flags, its lanes moved, all else as before. -/
theorem vop_acts (h : Acts i s w act) (hv : voids i = false) (d : Fld) (n : Nat) (hn0 : 0 < n) (hd : dstOk s.iss.hnd d.toNat n)
    (f : State → Warp → Nat → List Word × Exc) (hf : ∀ l, (f s w l).1.length = n)
    (nt : ∀ l, act.getLsbD l = true → w.traps? l (f s w (srcLane act d.toNat l)).2 = false) :
    ∃ t w', vop i d f s = .next t ∧
      WroteReg s w act d.toNat n (fun l k => (f s w l).1.getD k 0) (fun l => if act.getLsbD l then (f s w (srcLane act d.toNat l)).2 else 0) t w' := by
  have hact := h
  obtain ⟨hw, ha, hn, he, hm, hr, hdue, hl⟩ := h
  have hvoid : s.void w i = s := by simp [State.void, hv]
  rw [vop, perform_acts hact, hvoid]
  rw [laneResults_eq w act d.toNat (f s w) s nt]
  obtain ⟨G, B, hs, hGl, hBl, hv1, hs1, hh1⟩ := wr_shape (s := s) (w := w) (act := act) (mask_lt act) hn d.toNat n hn0 hd (fun l => (f s w l).1) hf
  obtain ⟨F, hF, hFl⟩ := orFlags_spec (s.wr w d.toNat ((lanesOf act).map fun l => (l, (f s w (srcLane act d.toNat l)).1))) w (lanesOf act)
    (fun l => (f s w (srcLane act d.toNat l)).2) (fun l hl => mask_lt act l ((mem_lanesOf _ _).1 hl))
  have hs2 := hs.onWarp (fun y => { y with lanes := F y.lanes }) (fun _ => rfl)
  rw [hF]
  obtain ⟨G', B', hs3, hmv, hG', hB'⟩ := finish_shape hact hs2 (fun l => if act.getLsbD l then (f s w (srcLane act d.toNat l)).2 else 0)
    (by
      refine ⟨?_, fun k hk => ?_⟩
      · show (F (G w).lanes).length = _; rw [(hFl _).1, (hGl w).1]
      · show laneAt (F (G w).lanes) k = _
        rw [(hFl _).2 k (by rw [(hGl w).1, hl.1]; exact hk), (hGl w).1]
        simp only [mem_lanesOf])
    (fun b => hBl b)
  have hiff := isS_iff d.toNat
  refine ⟨_, G' w, rfl, hmv, ?_, ?_, ?_⟩
  · rw [(hG' w).2.2]; exact (hGl w).2
  · intro l hl32 hal k hk
    have hsp := hd
    unfold dstOk at hsp
    show State.reg _ (G' w) (d.toNat + k) l = _
    unfold State.reg
    by_cases c1 : d.toNat + k < 640
    · rw [if_pos c1, (hG' w).1]
      show sget 0 _ (G w).v = _
      rw [hv1 _ _ hl32 c1, if_pos ⟨by omega, hal, by omega, by omega⟩, show d.toNat + k - d.toNat = k by omega]; rfl
    · by_cases c2 : d.toNat + k < 704
      · rw [if_neg c1, if_pos c2, (hG' w).2.1]
        show sget 0 _ (G w).s = _
        rw [hs1 _ l (by omega) c2, if_pos ⟨by omega, by omega, by omega⟩, show d.toNat + k - d.toNat = k by omega]; rfl
      · have h3 : s.iss.hnd = true ∧ 704 ≤ d.toNat ∧ d.toNat + n ≤ 768 := by
          rcases hsp with h | h | h
          · omega
          · omega
          · exact h
        rw [if_neg c1, if_neg c2, if_pos (by omega), State.bankRegs, hs3.q, hs3.quad, if_pos ⟨rfl, h3.1⟩]
        obtain ⟨b, hb⟩ : ∃ b, (s.quad w.q).bank = some b := by
          have := hl.2 h3.1
          cases hq : (s.quad w.q).bank with
          | none => rw [hq] at this; simp at this
          | some b => exact ⟨b, rfl⟩
        simp only [hb, Option.map_some]
        rw [hB']
        show sget 0 _ (B b).h = _
        rw [hh1 h3.1 b _ _ hl32 (by omega) (by omega), if_pos ⟨hal, by omega, by omega⟩, show d.toNat + k - d.toNat = k by omega]; rfl
  · intro r l hl32 hout
    refine hs3.reg r l ?_ ?_ ?_
    · intro hr
      rw [(hG' w).1]
      show sget 0 _ (G w).v = _
      rw [hv1 _ _ hl32 hr, if_neg (fun hc => hout ⟨hc.2.2.1, hc.2.2.2, Or.inr hc.2.1⟩)]
    · intro h1 h2
      rw [(hG' w).2.1]
      show sget 0 _ (G w).s = _
      rw [hs1 _ l h1 h2]
      rw [if_neg]
      intro hc
      apply hout
      refine ⟨hc.2.1, hc.2.2, Or.inl (hiff.2 ⟨?_, by omega⟩)⟩
      have hsp := hd
      unfold dstOk at hsp
      omega
    · intro hhn h1 h2 b
      rw [hB']
      show sget 0 _ (B b).h = _
      rw [hh1 hhn b _ _ hl32 h1 h2, if_neg (fun hc => hout ⟨hc.2.1, hc.2.2, Or.inr hc.1⟩)]

/-! ## Predicates by lane -/

@[simp] theorem wrP_iss (s : State) (w : Warp) (n : Nat) (v : List (Nat × Bool)) : (s.wrP w n v).iss = s.iss := rfl

theorem lanePreds_eq (w : Warp) (act : Mask) (d : Nat) (f : Nat → Bool × Exc) (s : State)
    (nt : ∀ l, act.getLsbD l = true → w.traps? l (f l).2 = false) :
    lanePreds w act d f s =
      ((s.wrP w d ((lanesOf act).map fun l => (l, (f l).1))).orFlags w ((lanesOf act).map fun l => (l, (f l).2))).advance w s.iss.lanes := by
  have hbad : ((lanesOf act).map fun l => (l, f l)).filter (fun r => w.traps? r.1 r.2.2) = [] := by
    rw [List.filter_eq_nil_iff]
    intro r hr
    obtain ⟨l, hl, rfl⟩ := List.mem_map.1 hr
    simp [nt l ((mem_lanesOf _ _).1 hl)]
  have hok : ((lanesOf act).map fun l => (l, f l)).filter (fun r => !w.traps? r.1 r.2.2) = (lanesOf act).map fun l => (l, f l) := by
    rw [List.filter_eq_self]
    intro r hr
    obtain ⟨l, hl, rfl⟩ := List.mem_map.1 hr
    simp [nt l ((mem_lanesOf _ _).1 hl)]
  unfold lanePreds
  simp only [hbad, hok, List.map_map, List.map_nil, List.any_nil, State.arithTrap, takeTrap_nil, maskOf_false]
  have hm : ∀ m : Mask, m &&& ~~~0#32 = m := by intro m; rw [show ~~~0#32 = BitVec.allOnes 32 by decide, BitVec.and_allOnes]
  rw [hm, orFlags_iss, wrP_iss]; rfl

/-- An instruction that writes a predicate, none of whose exceptions trap. -/
theorem pop_acts (h : Acts i s w act) (hv : voids i = false) (d : Fld) (f : State → Warp → Nat → Bool × Exc)
    (nt : ∀ l, act.getLsbD l = true → w.traps? l (f s w l).2 = false) :
    ∃ t w', pop i d f s = .next t ∧
      WrotePred s w act d.toNat (fun l => (f s w l).1) (fun l => if act.getLsbD l then (f s w l).2 else 0) t w' := by
  have hact := h
  obtain ⟨hw, ha, hn, he, hm, hr, hdue, hl⟩ := h
  have hvoid : s.void w i = s := by simp [State.void, hv]
  rw [pop, perform_acts hact, hvoid]
  rw [lanePreds_eq w act d.toNat (f s w) s nt]
  obtain ⟨F, hF, hFl⟩ := orFlags_spec (s.wrP w d.toNat ((lanesOf act).map fun l => (l, (f s w l).1))) w (lanesOf act)
    (fun l => (f s w l).2) (fun l hl => mask_lt act l ((mem_lanesOf _ _).1 hl))
  obtain ⟨G, hs1, hGp, hGl, hGv⟩ : ∃ G, Shape s w G id (s.wrP w d.toNat ((lanesOf act).map fun l => (l, (f s w l).1))) ∧
      (∀ x, (G x).p = supd 0 d.toNat (fun m => ((lanesOf act).map fun l => (l, (f s w l).1)).foldl (fun m v => setBit m v.1 v.2) m) x.p) ∧
      (∀ x, (G x).lanes = x.lanes) ∧ ∀ x, (G x).v = x.v ∧ (G x).s = x.s :=
    ⟨_, (Shape.refl s w).onWarp _ (fun _ => rfl), fun _ => rfl, fun _ => rfl, fun _ => ⟨rfl, rfl⟩⟩
  have hs2 := hs1.onWarp (fun y => { y with lanes := F y.lanes }) (fun _ => rfl)
  rw [hF]
  obtain ⟨G', B', hs3, hmv, hG', hB'⟩ := finish_shape hact hs2 (fun l => if act.getLsbD l then (f s w l).2 else 0)
    (by
      refine ⟨?_, fun k hk => ?_⟩
      · show (F (G w).lanes).length = _; rw [(hFl _).1, hGl]
      · show laneAt (F (G w).lanes) k = _
        rw [(hFl _).2 k (by rw [hGl, hl.1]; exact hk), hGl]
        simp only [mem_lanesOf])
    (fun b => rfl)
  refine ⟨_, G' w, rfl, hmv, ?_, ?_⟩
  · intro q l hl32
    unfold Warp.pred
    rw [(hG' w).2.2]
    show (sget 0 q (G w).p).getLsbD l = _
    rw [hGp, sget_supd]
    by_cases hq : q = d.toNat
    · subst hq
      rw [if_pos rfl, getLsbD_setBits _ _ _ _ hl32]
      by_cases hal : act.getLsbD l = true
      · rw [if_pos ((mem_lanesOf _ _).2 hal), if_pos ⟨rfl, hal⟩]
      · rw [if_neg (by rw [mem_lanesOf]; exact hal), if_neg (by tauto)]
    · rw [if_neg hq, if_neg (by tauto)]
  · intro r l hl32
    refine hs3.reg r l ?_ ?_ ?_
    · intro hr
      rw [(hG' w).1]
      show sget 0 _ (G w).v = _
      rw [(hGv w).1]
    · intro h1 h2
      rw [(hG' w).2.1]
      show sget 0 _ (G w).s = _
      rw [(hGv w).2]
    · intro hhn h1 h2 b; rw [hB']; rfl

end Sys2Proof.Machine
end

