-- ==== Sys2Proof/Tests/Slice0.lean ====
section
/-! SUPPORT. The model's own tests: what is refused as ill-formed, words written out bit by bit from the spec's encodings, single steps whose results come
from the spec, and a witness of the hypotheses of every statement. -/

namespace Sys2Proof.Tests

set_option Elab.async false

open Sys2Proof Sys2Proof.Machine Sys2Proof.Claims

/-! ## Small states -/

/-- The machine about to issue; its context is 1, its cluster group 2, its block 3, its warp 4. -/
def planted : State := State.reset.plant 0#64

/-- The planted warp. -/
def aWarp : Warp := plantWarp 4 1 3 0

/-- The planted warp with lane 0 changed. -/
def lane0 (l : Lane) : Warp := { aWarp with lanes := l :: List.replicate 31 { Lane.init with hdr := plantAt } }

/-- A lane at the planted clause. -/
def aLane : Lane := { Lane.init with hdr := plantAt }

/-- The latch: instruction `i` issued by lane 0. -/
def latch (i : Instr) (hnd : Bool) : Issue :=
  { q := 0, warp := 4, hnd := hnd, lanes := 1#32, hdr := plantAt, idx := 0, count := 0, now := 0, sync := false, word := (encode i).getD 0, instr := some i, early := [] }

/-- A state with the warp `w` and the instruction `i` latched for its lane 0. -/
def State.at_ (s : State) (w : Warp) (i : Instr) : State := { s with warps := [w], iss := latch i false }

def on (w : Warp) (i : Instr) : State := State.at_ planted w i

/-- The bank of a handler of class `cls`, entered by lane 0. -/
def bankOf (cls : Nat) (t : TrapLane) : Bank :=
  { warp := 4, sub := { cls := cls, since := 0, lanes := [t] }, lanes := aLane :: List.replicate 31 { aLane with exited := true },
    entry := List.replicate 32 (0x1000, 0), posSet := 0, h := [], pace := Pace.init, movx := 0 }

/-- The warp whose lane 0 is in its handler. -/
def hWarp : Warp := lane0 { aLane with park := .handler }

/-- The planted machine in the handler of a bank, about to issue `i`. -/
def inHandler (b : Bank) (i : Instr) : State :=
  let t := planted.onQuad 0 fun q => { q with bank := some b }
  { t with warps := [hWarp], iss := latch i true }

/-- A trap of lane 0. -/
def aTrap : TrapLane := TrapLane.of 0 0 0 0 0

/-- A breakpoint handler. -/
def hOn (i : Instr) : State := inHandler (bankOf 10 aTrap) i

/-- Stall count 0, no guard. -/
def c0 : Common := { stall := 0, guard := .always }

/-- Guarded by the predicate 0. -/
def cP : Common := { stall := 0, guard := .onTrue 0 }

def r3 : R3 := { d := 4, a := 6, b := 8, p := .none }
def r2 : R2 := { d := 4, a := 6, p := .none }

/-- The context changed. -/
def ctxIs (f : Ctx → Ctx) (s : State) : State := { s with ctxs := s.ctxs.map f }

/-- What holds in lane 0 holds in every lane of the mask. -/
theorem only0 {P : Nat → Prop} (h : P 0) : ∀ l, (1#32).getLsbD l = true → P l := by
  intro l hl
  match l with
  | 0 => exact h
  | n + 1 => simp [BitVec.getLsbD_one] at hl

/-! ## The hypotheses of the statements are met -/

/-- Instruction `i` acts in lane 0 of the planted warp. -/
abbrev Ok (i : Instr) : Prop := Acts i (on aWarp i) aWarp 1#32

/-- It acts in lane 0 of a handler. -/
abbrev OkH (i : Instr) : Prop := Acts i (hOn i) hWarp 1#32

/-- Witness of IntegerResult. -/
theorem witness_integer : Ok (.iadd c0 .satS r3) ∧ Ok (.imadw c0 .s r3) ∧ (intWord (.iadd c0 .satS r3)).isSome = true ∧
    (intPair (.imadw c0 .s r3)).isSome = true := by decide +kernel

/-- Witness of PredicateResult. -/
theorem witness_predicate : Ok (.iset c0 .lt .s { r3 with d := 1 }) ∧ (predOf 1#32 (.iset c0 .lt .s { r3 with d := 1 })).isSome = true ∧
    ∀ l, (1#32).getLsbD l = true → (0#5) &&& (laneAt aWarp.lanes l).fpte = 0 :=
  ⟨by decide +kernel, rfl, only0 (by decide)⟩

/-- Witness of FloatResult. -/
theorem witness_float : Ok (.fadd c0 .rne r3) ∧ Ok (.fmin c0 r3) ∧ (fltWord (.fadd c0 .rne r3)).isSome = true ∧ (fltMove (.fmin c0 r3)).isSome = true ∧
    ∀ l, (1#32).getLsbD l = true → (0x1F#5) &&& (laneAt aWarp.lanes l).fpte = 0 :=
  ⟨by decide +kernel, by decide +kernel, rfl, rfl, only0 (by decide)⟩

/-- Witness of FsignMovesSigns. -/
theorem witness_fsign : Instr.wf (.fsign c0 .neg true { r3 with b := 0 }) = true ∧ Ok (.fsign c0 .xor true r3) := by decide +kernel

/-- Witness of NarrowResult, QscaleWritesHeaders. -/
theorem witness_narrow : Ok (.qdec c0 .e2m1 false { d := 8, a := 6, b := 4, p := .none }) ∧ Ok (.qscale c0 .e4m3 false false { d := 4, a := 8, p := .none }) ∧
    (narrow (.qdec c0 .e2m1 false { d := 8, a := 6, b := 4, p := .none })).isSome = true := by decide +kernel

/-- Witness of CrossLaneResult. -/
theorem witness_cross : Ok (.shfl c0 .up false r3) ∧ Ok (.vred c0 .addF32 .rne r2) ∧ (perLane 1#32 (.shfl c0 .up false r3)).isSome = true ∧
    (shared (on aWarp (.vred c0 .addF32 .rne r2)) aWarp 1#32 (.vred c0 .addF32 .rne r2)).isSome = true := by decide +kernel

/-- Witness of PmovMovesPredicates. -/
theorem witness_pmov : Ok (.pmov c0 false { d := 4, a := 0, p := .none }) ∧ Ok (.pmov c0 true { d := 0, a := 6, p := .none }) ∧ isS (640#10).toNat = true ∧
    Instr.wf (.pmov c0 true { d := 0, a := 6, p := .none }) = true := by decide +kernel

/-- Witness of TrapsPark. -/
theorem witness_traps : (on aWarp (.nop c0)).warp? 4 = some aWarp ∧ aWarp.lanes.length = 32 ∧ [aTrap] ≠ [] ∧
    ((on aWarp (.nop c0)).ctx? 1).map (·.phase) = some .running := by decide +kernel

/-- A warp with a result of register 6 not yet due. -/
def earlyWarp : Warp := { aWarp with fixed := [{ reg := 6, issued := 0, lanes := 1, due := 3, old := [] }] }

/-- Witness of CausesInOrder. -/
theorem witness_causes :
    (ordinary (.hretRetry c0) = true ∧ (on aWarp (.hretRetry c0)).issWarp = some aWarp ∧ modeOk (.hretRetry c0) false = false ∧
      (readKeys (.hretRetry c0)).any (aWarp.undue 0) = false ∧ (on aWarp (.hretRetry c0)).guarded aWarp .always = 1#32) ∧
    (let i : Instr := .iadd c0 .wrap { r3 with d := 720 }
     ordinary i = true ∧ (on aWarp i).issWarp = some aWarp ∧ modeOk i false = true ∧ regsOk i 10 false = false ∧ (on aWarp i).guarded aWarp .always = 1#32) ∧
    (let i : Instr := .iadd c0 .wrap r3
     let s := ctxIs (fun c => { c with inter := false, chk := true }) (on earlyWarp i)
     ordinary i = true ∧ s.issWarp = some earlyWarp ∧ s.interlocked earlyWarp false = false ∧ asksBlock i = false ∧
      ((s.ctx? 1).map (·.chk)).getD false = true ∧ stallShort earlyWarp 0 i = true ∧ s.guarded earlyWarp .always ≠ 0#32 ∧ regsOk i 10 false = true) ∧
    (let i : Instr := .iadd cP .wrap r3
     ordinary i = true ∧ (on aWarp i).issWarp = some aWarp ∧ (on aWarp i).guarded aWarp (.onTrue 0) = 0#32 ∧ stallShort aWarp 0 i = false) := by
  decide +kernel

/-- Witness of EarlyReadIsOldOrNew. -/
theorem witness_early : (sget none (32 * 6 + 0) ((on earlyWarp (.popc c0 r2)).lookEarly earlyWarp (.popc c0 r2)).iss.early).isSome = true := by
  decide +kernel

/-- Witness of MovxResult. -/
theorem witness_movx : Ok (.movx c0 4 6 8) ∧ Ok (.movxSt c0 4 6 8) ∧ ∀ l, (1#32).getLsbD l = true →
    6 + ((on aWarp (.movx c0 4 6 8)).reg aWarp 8 l).toNat < min 640 (64 * aWarp.gran) ∧
    4 + ((on aWarp (.movxSt c0 4 6 8)).reg aWarp 8 l).toNat < min 640 (64 * aWarp.gran) :=
  ⟨by decide +kernel, by decide +kernel, only0 (by decide +kernel)⟩

/-- A lane that traps every exception, with signalling NaNs in its registers. -/
def nanWarp : Warp := { lane0 { aLane with fpte := 0x1F } with v := [(32 * 6, 0x7F800001#32)] }

/-- Witness of EnabledExceptionsTrap. -/
theorem witness_exceptions : Acts (.fadd c0 .rne r3) (on nanWarp (.fadd c0 .rne r3)) nanWarp 1#32 ∧
    ∃ f, fltWord (.fadd c0 .rne r3) = some (4, 1, f) ∧ (f (on nanWarp (.fadd c0 .rne r3)) nanWarp 0).2 &&& (laneAt nanWarp.lanes 0).fpte ≠ 0 :=
  ⟨by decide +kernel, _, rfl, by decide +kernel⟩

/-- Witness of BraTransfersLanes. -/
theorem witness_bra : Ok (.bra c0 0) ∧ ((0x1000 : Nat) : Int) = 0x1000 + 8 * (0#32).toInt ∧ (on aWarp (.bra c0 0)).recorded aWarp 0x1000 = true ∧
    Ok (.bra c0 1) ∧ ∀ a : Nat, (a : Int) = 0x1000 + 8 * (1#32).toInt → (on aWarp (.bra c0 1)).recorded aWarp a = false := by
  refine ⟨by decide +kernel, by decide, by decide +kernel, by decide +kernel, fun a h => ?_⟩
  have : a = 0x1008 := by simp at h; omega
  subst this
  and_intros <;> decide +kernel

/-- Witness of CallLinksAndTransfers. -/
theorem witness_call : Ok (.call c0 0 4) ∧ Ok (.call c0 1 4) ∧ OkH (.call c0 1 4) ∧ (on aWarp (.call c0 0 4)).recorded aWarp 0x1000 = true ∧
    ∀ a : Nat, (a : Int) = 0x1000 + 8 * (1#32).toInt → (on aWarp (.call c0 1 4)).recorded aWarp a = false ∧
      (hOn (.call c0 1 4)).recorded hWarp a = false := by
  refine ⟨by decide +kernel, by decide +kernel, by decide +kernel, by decide +kernel, fun a h => ?_⟩
  have : a = 0x1008 := by simp at h; omega
  subst this
  and_intros <;> decide +kernel

/-- A pair of registers that holds the planted clause's address. -/
def pairWarp : Warp := { aWarp with v := [(32 * 6, 0x1000#32)] }

/-- Witness of IndirectTransfer. -/
theorem witness_brx : Acts (.brx c0 6 .none) (on pairWarp (.brx c0 6 .none)) pairWarp 1#32 ∧ Ok (.ret c0 6 .none) ∧ ∀ l, (1#32).getLsbD l = true →
    (pair (on pairWarp (.brx c0 6 .none)) pairWarp 6 l).toNat < 2 ^ 52 ∧
    (on pairWarp (.brx c0 6 .none)).recorded pairWarp (pair (on pairWarp (.brx c0 6 .none)) pairWarp 6 l).toNat = true ∧
    (on aWarp (.ret c0 6 .none)).recorded aWarp (pair (on aWarp (.ret c0 6 .none)) aWarp 6 l).toNat = false :=
  ⟨by decide +kernel, by decide +kernel, only0 (by decide +kernel)⟩

/-- Witness of LanesAdvance. -/
theorem witness_advance : Ok (.nop c0) ∧ Ok (.yield c0) ∧ OkH (.yield c0) ∧ lanesWhole (on aWarp (.nop c0)) aWarp ∧
    (((on aWarp (.nop c0)).finishIssue (on aWarp (.nop c0))).warp? 4).isSome = true ∧ (on aWarp (.nop c0)).iss.arrives = false ∧ decode 0x8600_0000_0000_0000#64 = .ok (.nop c0) := by and_intros <;> decide +kernel

/-- Witness of ExitRemovesLanes. -/
theorem witness_exit : Ok (.exit c0) := by and_intros <;> decide +kernel

/-- Convergence register 0 declared for lane 0, and signed. -/
def signedWarp : Warp := { lane0 { aLane with park := .conv 0 } with decl := [(0, 1#32)], signed := [(0, 1#32)] }

/-- Witness of ConvergenceSets. -/
theorem witness_convergence : Ok (.cdecl c0 0 644 .none) ∧ Ok (.cdeclIss c0 0) ∧ sget 0 0 aWarp.signed = 0#32 ∧ Ok (.csign c0 0) ∧ Ok (.csignNw c0 0) ∧
    Acts (.cdecl c0 0 644 .none) (on { aWarp with signed := [(0, 1#32)] } (.cdecl c0 0 644 .none)) { aWarp with signed := [(0, 1#32)] } 1#32 ∧
    Acts (.cdeclIss c0 0) (on { aWarp with signed := [(0, 1#32)] } (.cdeclIss c0 0)) { aWarp with signed := [(0, 1#32)] } 1#32 ∧
    (on signedWarp (.nop c0)).warp? 4 = some signedWarp ∧ sget 0 0 signedWarp.signed ≠ 0#32 ∧
    (∀ n, n < 32 → (sget 0 0 signedWarp.decl).getLsbD n = true → (sget 0 0 signedWarp.signed).getLsbD n = true) ∧
    ∀ n, n < 32 → (laneAt signedWarp.lanes n).park ≠ .sync 0 := by and_intros <;> decide +kernel

/-- Witness of BrkAndTrapTrap. -/
theorem witness_brk : Ok (.brk c0 7) ∧ Ok (.trap c0 7) := by and_intros <;> decide +kernel

/-- Witness of SystemRegisters. -/
theorem witness_system : Ok (.sysr c0 4 2) ∧ (sysRead (.sysr c0 4 2)).isSome = true ∧ Ok (.featq c0 4 3) ∧ Ok (.clock c0 true 4) ∧ Ok (.pmc c0 4 5) ∧
    Ok (.sysw c0 6 0) ∧ Ok (.sysw c0 6 1) ∧ Ok (.sysw c0 644 3) ∧ Ok (.sysw c0 644 4) ∧ Ok (.sysw c0 644 5) ∧ Ok (.sysw c0 644 6) ∧ Ok (.sysw c0 644 7) := by
  and_intros <;> decide +kernel

/-- A handler whose h2 is no register's number. -/
def farOn (i : Instr) : State := inHandler { bankOf 10 aTrap with h := [(64, 700#32)] } i

/-- Witness of HandlersRunAndReturn: HGET. -/
theorem witness_hget : OkH (.hget c0 .vreg 704 706) ∧ outside 706 (hOn (.hget c0 .vreg 704 706)) hWarp 1#32 = 0#32 ∧ OkH (.hget c0 .pos 704 0) ∧
    Acts (.hget c0 .vreg 704 706) (farOn (.hget c0 .vreg 704 706)) hWarp 1#32 ∧ outside 706 (farOn (.hget c0 .vreg 704 706)) hWarp 1#32 ≠ 0#32 ∧
    OkH (.hset c0 .vreg 704 706) ∧ OkH (.hset c0 .pred 704 0) ∧ OkH (.hset c0 .fpfl 704 0) ∧ OkH (.hset c0 .fpte 704 0) ∧ OkH (.hset c0 .pos 704 0) ∧
    Acts (.hset c0 .vreg 704 706) (farOn (.hset c0 .vreg 704 706)) hWarp 1#32 ∧ outside 706 (farOn (.hset c0 .vreg 704 706)) hWarp 1#32 ≠ 0#32 := by
  and_intros <;> decide +kernel

/-- Witness of HandlersRunAndReturn: HSET. -/
theorem witness_hset : ∀ l, (1#32).getLsbD l = true → ((hOn (.hset c0 .vreg 704 706)).reg hWarp 706 l).toNat < min 640 (64 * hWarp.gran) :=
  only0 (by decide +kernel)

/-- A handler of a trap that admits no skip, and a trapped lane whose position was set to no recorded clause. -/
def noSkipOn (i : Instr) : State := inHandler (bankOf 1 { aTrap with noSkip := true }) i
def astray : Warp := lane0 { aLane with hdr := 0x1008, park := .handler }
def astrayOn (i : Instr) : State := { inHandler { bankOf 10 aTrap with posSet := 1 } i with warps := [astray] }

/-- Witness of HandlersRunAndReturn: HRET.RETRY and HRET.ESC. -/
theorem witness_hret : OkH (.hretRetry c0) ∧ (hOn (.hretRetry c0)).posBad hWarp 1#32 = 0#32 ∧ OkH (.hretSkip c0) ∧
    (hOn (.hretSkip c0)).posBad hWarp 1#32 = 0#32 ∧ OkH (.hretEsc c0) ∧ ((hOn (.hretEsc c0)).ctx? 1).map (·.phase) = some .running ∧
    Acts (.hretRetry c0) (astrayOn (.hretRetry c0)) astray 1#32 ∧ (astrayOn (.hretRetry c0)).posBad astray 1#32 ≠ 0#32 ∧
    Acts (.hretSkip c0) (noSkipOn (.hretSkip c0)) hWarp 1#32 ∧
    (maskOf fun l => (1#32).getLsbD l && (((noSkipOn (.hretSkip c0)).bankSub hWarp).lane l).noSkip) ≠ 0#32 ∧
    ((hOn (.nop c0)).quad 0).bank = some (bankOf 10 aTrap) ∧ (bankOf 10 aTrap).lanes.length = 32 ∧ (hOn (.nop c0)).warp? 4 = some hWarp := by and_intros <;> decide +kernel

/-- Witness of HandlersRunAndReturn: HRET.SKIP. -/
theorem witness_hretSkip : ∀ l, (1#32).getLsbD l = true → (((hOn (.hretSkip c0)).bankSub hWarp).lane l).noSkip = false := only0 (by decide +kernel)

/-- A context that is being stopped. -/
def stoppingOn (i : Instr) : State := ctxIs (fun c => { c with phase := .stopping 0 true 1 }) (on aWarp i)

/-- Witness of LiveptStops. -/
theorem witness_livept : Ok (.livept c0 3 0 4 0 0) ∧ (on aWarp (.livept c0 3 0 4 0 0)).stopping aWarp = false ∧ Ok (.livept c0 3 100 4 0 0) ∧
    ¬100 + 4 ≤ (((on aWarp (.livept c0 3 100 4 0 0)).ctx? 1).map fun c => c.h.scratch).getD 0 ∧
    Acts (.livept c0 3 0 4 0 0) (stoppingOn (.livept c0 3 0 4 0 0)) aWarp 1#32 ∧ (stoppingOn (.livept c0 3 0 4 0 0)).stopping aWarp = true ∧
    0 + 4 ≤ (((stoppingOn (.livept c0 3 0 4 0 0)).ctx? 1).map fun c => c.h.scratch).getD 0 := by and_intros <;> decide +kernel

/-! ### Memory -/

/-- A page table for group 0: one gigabyte at its own address, a page that is not backed above it; a tile record at 1 MiB. -/
def mapped : State := { planted with mem := [(0, 0x01), (1, 0x10), (0x1000, 0x13), (0x1008, 0x08), (0x100002, 0x20), (0x100008, 1), (0x10000A, 1), (0x10000C, 4)] }

/-- A warp whose pair 6:7 is an address. -/
def addrWarp (a : Word64) : Warp := { aWarp with v := [(32 * 6, a.extractLsb' 0 32), (32 * 7, a.extractLsb' 32 32)] }

def mAt : MOp := { data := 4, base := 6, off := 0, size := 2 }

def ldAt : Instr := .ld c0 false .dflt mAt

/-- LD at an address. -/
def ldOn (a : Word64) : State := State.at_ mapped (addrWarp a) ldAt

def xlOf (a : Word64) : Xl := ((ldOn a).coreXl 0 ((ldOn a).groupOf (addrWarp a)) a.toNat .read).1

/-- Witness of GlobalAccessCompletes, GlobalAccessChecks. -/
theorem witness_global : Acts ldAt (ldOn 0x100000) (addrWarp 0x100000) 1#32 ∧
    (runs (loadLane (addrWarp 0x100000) mAt false false .dflt 0#32) (accessors 1#32 false) ((ldOn 0x100000).void (addrWarp 0x100000) ldAt)).isSome = true ∧
    address mAt (ldOn 0x100000) (addrWarp 0x100000) 0 = 0x100000#64 ∧ (ldOn 0x100000).iss.early = [] ∧
    (0x10000000100000#64).extractLsb' 52 12 ≠ 0#12 ∧ (0x100002#64).toNat % 4 ≠ 0 ∧ xlOf 0x40000000 = .svc ∧ xlOf 0x80000000 = .fault 1 ∧
    xlOf 0x100000 = .ok (.dev 0x100000) false ∧
    (({ ldOn 0x100000 with badLines := [0] } : State).coreXl 0 0 0x100000 .read).1 = .abort 0 := by and_intros <;> decide +kernel

/-- Witness of GlobalAccessChecks: an address whose high bits are not zero. -/
theorem witness_noncanonical : Acts ldAt (ldOn 0x10000000000000) (addrWarp 0x10000000000000) 1#32 ∧ ∀ l ∈ accessors 1#32 false,
    streamOk ldAt mAt (ldOn 0x10000000000000) (addrWarp 0x10000000000000) l = true ∧
    (address mAt (ldOn 0x10000000000000) (addrWarp 0x10000000000000) l).extractLsb' 52 12 ≠ 0#12 := by and_intros <;> decide +kernel

/-- The same with the sector in L1. -/
def l1On : State := (ldOn 0x100000).onCore 0 fun c => { c with l1 := [{ sec := 0x4000, data := List.replicate 64 0, ef := false }] }

/-- Witness of GlobalAccessRequests. -/
theorem witness_requests : (sends (ldOn 0x100000) (addrWarp 0x100000) 0 ldAt).isSome = true ∧ inAperture 0x100000 = false ∧
    (ldOn 0x100000).l1find 0 0x100000 = none ∧ (∀ x ∈ ((ldOn 0x100000).core 0).ro, x.1 ≠ 0x1000) ∧ (l1On.l1find 0 0x100000).isSome = true ∧
    (l1On.coreXl 0 0 0x100000 .read).1 = .ok (.dev 0x100000) false := by and_intros <;> decide +kernel

def sAt : MOp := { data := 4, base := 6, off := 0, size := 2 }

/-- Witness of ScratchpadResult. -/
theorem witness_scratch : Ok (.lds c0 false sAt) ∧ Ok (.sts c0 sAt) ∧ Ok (.atoms c0 .add sAt) ∧ ((on aWarp (.atoms c0 .add sAt)).block? 3).isSome = true ∧
    (∀ l ∈ accessors 1#32 false, scratchAddr sAt (on aWarp (.lds c0 false sAt)) aWarp l % 4 = 0 ∧
      scratchAddr sAt (on aWarp (.lds c0 false sAt)) aWarp l + 4 ≤ (on aWarp (.lds c0 false sAt)).scratchSize aWarp) ∧
    Acts (.lds c0 false sAt) (on (addrWarp 2) (.lds c0 false sAt)) (addrWarp 2) 1#32 ∧
    (∀ l ∈ accessors 1#32 false, scratchAddr sAt (on (addrWarp 2) (.lds c0 false sAt)) (addrWarp 2) l % 4 ≠ 0) ∧
    (∀ l ∈ accessors 1#32 false, scratchAddr sAt (on (addrWarp 0x10000) (.lds c0 false sAt)) (addrWarp 0x10000) l % 4 = 0 ∧
      (on (addrWarp 0x10000) (.lds c0 false sAt)).scratchSize (addrWarp 0x10000) <
        scratchAddr sAt (on (addrWarp 0x10000) (.lds c0 false sAt)) (addrWarp 0x10000) l + 4) := by and_intros <;> decide +kernel

/-- Witness of FenceResult. Witness of CacheInstructions. -/
theorem witness_caches : Ok (.roinv c0) ∧ Ok (.pref c0 true { mAt with data := 0 }) ∧ (on aWarp (.roinv c0)).badLines = [] ∧ Ok (.rcfence c0 false) ∧
    Ok (.rcfence c0 true) ∧ Ok (.adpfD c0 3 6) ∧ Ok (.adpfU c0 3 6) ∧ Ok (.adpfInv c0) ∧ Ok (.adpfInvd c0) := by and_intros <;> decide +kernel

/-! ### Synchronising -/

theorem witness_fence : Ok (.fence c0 .ar .dev 647) := by decide +kernel

/-- A uniform register that holds a count. -/
def countWarp (n : Word) : Warp := { aWarp with s := [(4, n)] }

/-- Witness of BarrierResult. -/
theorem witness_bar : Acts (.bar c0 false 2 644 .none) (on (countWarp 2) (.bar c0 false 2 644 .none)) (countWarp 2) 1#32 ∧
    Acts (.bar c0 false 2 644 .none) (on (countWarp 1) (.bar c0 false 2 644 .none)) (countWarp 1) 1#32 ∧ Ok (.bar c0 false 2 644 .none) ∧
    2 < (((on aWarp (.bar c0 false 2 644 .none)).ctx? 1).map fun c => c.h.bars).getD 0 ∧ barOf (on aWarp (.bar c0 false 2 644 .none)) aWarp 2 = Bar.idle ∧
    ¬2 < (((ctxIs (fun c => { c with h := { c.h with bars := 1 } }) (on aWarp (.bar c0 false 2 644 .none))).ctx? 1).map fun c => c.h.bars).getD 0 ∧
    Acts (.cbar c0 true 644 .none) (on (countWarp 2) (.cbar c0 true 644 .none)) (countWarp 2) 1#32 ∧ Ok (.cbar c0 true 644 .none) ∧
    ((on aWarp (.cbar c0 true 644 .none)).warpGroup aWarp).map (fun g => (g.hasRec, g.size, g.cbar)) = some (true, 1, Bar.idle) ∧
    ((on aWarp (.nop c0)).warps.map (·.id)).Nodup := by and_intros <;> decide +kernel

/-- Witness of BarrierResult: a wrong count, a barrier that the block lacks. -/
theorem witness_miscounted : miscounted Bar.idle 0 ∧ ¬miscounted Bar.idle 2 ∧ ¬miscounted Bar.idle 1 ∧ Bar.idle.arrivals + 1 ≠ 2 ∧
    Bar.idle.arrivals + 1 = 1 := ⟨.inl rfl, by simp [miscounted], by simp [miscounted], by decide, by decide⟩

/-- Work queue 0 enabled for the context's group, selected. -/
def queueOn (i : Instr) : State :=
  (ctxIs (fun c => { c with qsel := 0x100 }) (State.at_ mapped aWarp i)).onWq 0 fun q => { q with en := true, ring := 0x200000, slots := 64 }

/-- Witness of QueuesPushAndPop. -/
theorem witness_queues : Acts (.qpush c0 false { d := 1, a := 6, b := 8, p := .none }) (queueOn (.qpush c0 false { d := 1, a := 6, b := 8, p := .none })) aWarp 1#32 ∧
    Acts (.qpop c0 false true { d := 4, a := 8, b := 1, p := .none }) (queueOn (.qpop c0 false true { d := 4, a := 8, b := 1, p := .none })) aWarp 1#32 ∧
    Acts (.qpop c0 true false { d := 4, a := 8, b := 1, p := .none }) (queueOn (.qpop c0 true false { d := 4, a := 8, b := 1, p := .none })) aWarp 1#32 ∧
    Ok (.qpush c0 false { d := 1, a := 6, b := 8, p := .none }) ∧ Ok (.qpop c0 false false { d := 4, a := 8, b := 1, p := .none }) ∧
    (queueOn (.nop c0)).queueOf aWarp 0 = .ok 0 ∧ ((queueOn (.nop c0)).wqueue 0).count = 0 ∧ (on aWarp (.nop c0)).queueOf aWarp 0 = .error 5 ∧
    (queueOn (.nop c0)).pops = [] ∧ ((queueOn (.nop c0)).readVaN 0 0x200000 8).isSome = true := by and_intros <;> decide +kernel

/-- Witness of NotifyAndGtrig. -/
theorem witness_notify : Ok (.notify c0 .none 644 648 .none) ∧ Ok (.gtrig c0 644 .none) := by and_intros <;> decide +kernel

/-! ### Copies, tiles and the matrix engine -/

/-- A warp whose uniform registers from 8 describe a copy of 64 bytes from 1 MiB to 2 MiB. -/
def copyWarp : Warp := { aWarp with s := [(8, 0x100000#32), (10, 0x200000#32), (12, 0x10040#32), (13, 0x10001#32)] }

def cpyI : Instr := .cpy c0 false 1 8

/-- Witness of CopiesAndTokens. -/
theorem witness_copies : Acts cpyI (on copyWarp cpyI) copyWarp 1#32 ∧ (copyOp (on copyWarp cpyI) copyWarp cpyI).map (·.2.1) = some none ∧
    Ok cpyI ∧ ((copyOp (on aWarp cpyI) aWarp cpyI).map fun x => x.2.1.isSome) = some true ∧ Ok (.tkwait c0 1) := by and_intros <;> decide +kernel

def defI : Instr := .tdef c0 3 644

/-- The cluster group's entries and its free order. -/
def tileOn (es : Sparse Entry) (free : List Nat) (w : Warp) (i : Instr) : State :=
  let s := State.at_ mapped w i
  { s with cgroups := s.cgroups.map fun g => { g with entries := es, free := free } }

def names16 : List Nat := List.range 16

/-- A warp whose uniform pair 644:645 is an address. -/
def uniWarp (a : Word64) : Warp := { aWarp with s := [(4, a.extractLsb' 0 32), (5, a.extractLsb' 32 32)] }

def recW : Warp := uniWarp 0x100000

def live : Entry := { Entry.init with st := .live }

/-- The record that a definition reads. -/
def recGot (s : State) : Bool := match (s.readRec recW 0x100000#64).1 with | .ok _ => true | _ => false

/-- Witness of TilesActs: TDEF and TDEFS. -/
theorem witness_tdef : Acts defI (tileOn [] names16 recW defI) recW 1#32 ∧ ((recordOf (tileOn [] names16 recW defI) recW defI).isSome = true) ∧
    recGot (tileOn [] names16 recW defI) = true ∧ ((tileOn [] names16 recW defI).slice recW 3).map (fun g => (g.entry 3).st) = some .free ∧
    ((tileOn [(3, live)] names16 recW defI).slice recW 3).map (fun g => (g.entry 3).st) = some .live ∧
    recGot (tileOn [(3, live)] names16 recW defI) = true ∧
    ((tileOn [(3, { live with st := .draining })] names16 recW defI).slice recW 3).map (fun g => (g.entry 3).st) = some .draining ∧
    (tileOn [] names16 recW (.tdef c0 20 644)).slice recW 20 = none ∧ Ok (.tdef c0 20 644) ∧
    ((tileOn [] names16 (uniWarp 0x40000000) defI).readRec (uniWarp 0x40000000) 0x40000000#64).1 = .page 0x40000000 ∧
    ((tileOn [] names16 (uniWarp 0x20) defI).readRec (uniWarp 0x20) 0x20#64).1 = .trap (6, 0, 0x20) := by and_intros <;> decide +kernel

def defaI : Instr := .tdefa c0 646 644

/-- Witness of TilesActs: TDEFA. -/
theorem witness_tdefa : Acts defaI (tileOn [] names16 recW defaI) recW 1#32 ∧ recGot (tileOn [] names16 recW defaI) = true ∧
    ((tileOn [] names16 recW defaI).slice recW 0).map (·.free) = some (0 :: (List.range 15).map (· + 1)) ∧
    ((tileOn [] [] recW defaI).slice recW 0).map (·.free) = some [] ∧ Acts defaI (tileOn [] [] recW defaI) recW 1#32 ∧
    ((tileOn [] names16 (uniWarp 0x40000000) defaI).readRec (uniWarp 0x40000000) 0x40000000#64).1 = .page 0x40000000 ∧
    ((tileOn [] names16 (uniWarp 0x20) defaI).readRec (uniWarp 0x20) 0x20#64).1 = .trap (6, 0, 0x20) := by and_intros <;> decide +kernel

/-- Witness of TilesActs: TKILL. -/
theorem witness_tkill : Ok (.tkill c0 3) ∧ ((on aWarp (.tkill c0 3)).slice aWarp 3).isSome = true ∧ Ok (.tkill c0 20) ∧
    (on aWarp (.tkill c0 20)).slice aWarp 20 = none ∧ ((on aWarp (.tkill c0 3)).cgroup? 2).map (fun g => (g.heads, (g.entry 3).waiters)) = some ([], []) := by
  and_intros <;> decide +kernel

def tldI : Instr := .tld c0 false 3 8 6

/-- Witness of TilesActs: TLD, TROW, TST. -/
theorem witness_readers : (reader (on aWarp tldI) aWarp 1#32 tldI).isSome = true ∧ Ok tldI ∧ Ok (.tld c0 false 20 8 6) ∧
    Acts tldI (tileOn [(3, live)] names16 aWarp tldI) aWarp 1#32 ∧ Acts tldI (tileOn [(3, { live with faulted := true })] names16 aWarp tldI) aWarp 1#32 ∧
    Acts tldI (on (addrWarp 2) tldI) (addrWarp 2) 1#32 ∧ ((on (addrWarp 2) tldI).slice (addrWarp 2) 3).isSome = true := by and_intros <;> decide +kernel

/-- Witness of TilesActs: illegal operands. -/
theorem witness_readerOperands : ∀ l, (1#32).getLsbD l = true → ((on aWarp tldI).reg aWarp 6 l).toNat % 4 = 0 ∧ ((on aWarp tldI).reg aWarp 6 l).toNat < 36864 ∧
    ((on (addrWarp 2) tldI).reg (addrWarp 2) 6 l).toNat % 4 ≠ 0 := only0 (by decide +kernel)

def tstI : Instr := .tst c0 1 3 644

/-- A live tile of the record's own format, and one of another. -/
def sameRec : Entry := { live with trec := readCells mapped.mem 0x100000 64 }

/-- Witness of TilesActs: TST's descriptor. -/
theorem witness_tst : Acts tstI (tileOn [(3, sameRec)] names16 recW tstI) recW 1#32 ∧ (recordOf (tileOn [(3, sameRec)] names16 recW tstI) recW tstI).isSome = true ∧
    recGot (tileOn [(3, sameRec)] names16 recW tstI) = true ∧ tFormat sameRec.trec = 1 ∧ tScaled sameRec.trec = false ∧
    ((tileOn [(3, sameRec)] names16 recW tstI).slice recW 3).map (fun g => ((g.entry 3).st, (g.entry 3).faulted)) = some (.live, false) ∧
    ((tileOn [(3, live)] names16 recW tstI).slice recW 3).map (fun g => tFormat (g.entry 3).trec) = some 0 ∧
    ((tileOn [(3, { live with faulted := true })] names16 recW tstI).slice recW 3).map (fun g => (g.entry 3).faulted) = some true ∧
    ((tileOn [] names16 recW tstI).slice recW 3).map (fun g => (g.entry 3).st) = some .free := by and_intros <;> decide +kernel

def mmaI : Instr := .mma c0 .bf16 0 0 1 0

/-- Witness of MatrixSynchronises. -/
theorem witness_matrix : syncReg mmaI = some 0 ∧ Ok mmaI ∧ (hOn mmaI).issWarp = some hWarp ∧ (hOn mmaI).iss.hnd = true ∧
    (operation (on aWarp mmaI) aWarp mmaI).isSome = true ∧ 0 < (ctxOf (on aWarp mmaI) aWarp).h.accs ∧
    (∀ n ∈ [0, 1], ((on aWarp mmaI).slice aWarp n).isSome = true) ∧ Ok (.mma c0 .bf16 0 0 20 0) ∧ (on aWarp (.mma c0 .bf16 0 0 20 0)).slice aWarp 20 = none ∧
    Ok (.mma c0 .bf16 40 0 1 0) ∧ ¬40 < (ctxOf (on aWarp (.mma c0 .bf16 40 0 1 0)) aWarp).h.accs ∧
    decode ((State.reset.plant 0xC200000000040000#64).wordAt aWarp (0x1000 + 8 * 1)) = .ok mmaI := by and_intros <;> decide +kernel

/-- Witness of AccumulatorAccess. -/
theorem witness_accumulators : Ok (.aclr c0 1) ∧ 1 < (ctxOf (on aWarp (.aclr c0 1)) aWarp).h.accs ∧ ((on aWarp (.aclr c0 1)).block? 3).isSome = true ∧
    Ok (.aclr c0 40) ∧ (ctxOf (on aWarp (.aclr c0 40)) aWarp).h.accs ≤ 40 ∧ Ok (.arow c0 1 8 6) ∧ Ok (.arowSt c0 1 8 6) ∧ Ok (.aflag c0 false 1 644) ∧
    Acts (.arow c0 1 8 6) (on (addrWarp 128) (.arow c0 1 8 6)) (addrWarp 128) 1#32 := by and_intros <;> decide +kernel

/-- Witness of AccumulatorAccess: rows. -/
theorem witness_rows : ∀ l, (1#32).getLsbD l = true → ((on aWarp (.arow c0 1 8 6)).reg aWarp 6 l).toNat < 128 ∧
    128 ≤ ((on (addrWarp 128) (.arow c0 1 8 6)).reg (addrWarp 128) 6 l).toNat := only0 (by decide +kernel)

/-! ### Issue, requests and pages -/

/-- The planted NOP, its lanes past the header test. -/
def pastWarp : Warp := { aWarp with lanes := List.replicate 32 { aLane with idx := 1 } }

def pastOn : State := { State.reset.plant 0x8600_0000_0000_0000#64 with warps := [pastWarp] }

def anIssuer : Issuer := { w := pastWarp, hnd := false, lanes := pastWarp.lanes, pace := pastWarp.pace, movx := 0 }

def anOffer : Offer :=
  { i := anIssuer, m := 0xFFFFFFFF#32, sync := false, hdr := 0x1000, idx := 1, h := decHeader (plantHeader 0x8600_0000_0000_0000#64), word := 0x8600_0000_0000_0000#64,
    fate := .run (.nop c0) }

/-- Witness of SlotIssuesTheOffer. -/
theorem witness_slot : Lone pastOn pastOn 0 anIssuer anOffer ∧ (∀ j ∈ pastOn.issuers 1, Idle pastOn 1 j) ∧ pastOn.issuers 1 = [] ∧ (pastOn.quad 1).rewriting = false ∧
    (classOf 0x218).isSome = true ∧ decode 0x8600_0000_0000_0000#64 = .ok (.nop c0) ∧ decode 0xFFC0_0000_0000_0000#64 = .error .instr ∧
    decode 0x8609_0000_0000_0000#64 = .error .guard := by
  have h0 : pastOn.issuers 0 = [anIssuer] := by decide +kernel
  refine ⟨⟨fun j hj => ?_, by decide +kernel, by decide +kernel, fun j hj hne => ?_, by decide +kernel, by decide +kernel, by decide +kernel, by decide +kernel,
    rfl, by decide +kernel, by decide +kernel⟩, fun j hj => ?_, by and_intros <;> decide +kernel⟩
  · rw [h0] at hj
    rw [List.mem_singleton.mp hj]
    exact .inr ⟨rfl, by decide +kernel, by decide +kernel⟩
  · rw [h0] at hj
    exact absurd (List.mem_singleton.mp hj) hne
  · rw [show pastOn.issuers 1 = [] by decide +kernel] at hj
    cases hj

/-- A handler past its header test, whose warp waits for it. -/
def pastBank : Bank := { bankOf 10 aTrap with lanes := { aLane with idx := 1 } :: List.replicate 31 { aLane with exited := true } }

def pastHnd : Warp := { hWarp with lanes := { aLane with park := .handler } :: List.replicate 31 { aLane with exited := true } }

def handlerSlot : State := { pastOn.onQuad 0 fun q => { q with bank := some pastBank } with warps := [pastHnd] }

def bankIssuer : Issuer := { w := pastHnd, hnd := true, lanes := pastBank.lanes, pace := pastBank.pace, movx := 0 }

/-- Witness of SlotIssuesTheOffer: a handler. Witness of SlotIssuesTheOffer: a handler. -/
theorem witness_handlerSlot : Lone handlerSlot handlerSlot 0 bankIssuer { anOffer with i := bankIssuer, m := 1#32 } := by
  have h0 : handlerSlot.issuers 0 = [{ bankIssuer with hnd := false, lanes := pastHnd.lanes, pace := pastHnd.pace }, bankIssuer] := by decide +kernel
  have hi : Idle handlerSlot 0 { bankIssuer with hnd := false, lanes := pastHnd.lanes, pace := pastHnd.pace } :=
    ⟨by decide +kernel, rfl, by decide +kernel, rfl, by decide +kernel⟩
  refine ⟨fun j hj => ?_, by decide +kernel, by decide +kernel, fun j hj hne => ?_, by decide +kernel, by decide +kernel, by decide +kernel, by decide +kernel,
    rfl, by decide +kernel, by decide +kernel⟩
  · rw [h0] at hj
    rcases List.mem_cons.mp hj with rfl | hj
    · exact .inl hi
    · rw [List.mem_singleton.mp hj]
      exact .inr ⟨rfl, by decide +kernel, by decide +kernel⟩
  · rw [h0] at hj
    rcases List.mem_cons.mp hj with rfl | hj
    · exact hi
    · exact absurd (List.mem_singleton.mp hj) hne

/-- Witness of StepRunsIssued. -/
theorem witness_step : planted.agenda = [] ∧ ({ planted with agenda := [.alarmClockStep] } : State).agenda = .alarmClockStep :: [] ∧
    (on aWarp (.nop c0)).iss.instr = some (.nop c0) ∧ planted.iss.instr = none := by and_intros <;> decide +kernel

/-- Witness of StepKeepsMemory, ResetState. -/
theorem witness_memory : Memory.wf planted ∧ Memory.wf mapped := by and_intros <;> decide +kernel

/-- Witness of MemoryReadAfterWrite. -/
theorem witness_access : (mapped.writeTgt (.dev 0x400000) [7] 0 false).isOk = true ∧ mapped.readTgt (.dev 0x100008) 4 = .ok [1, 0, 1, 0] := by
  and_intros <;> decide +kernel

def orgOf : Origin :=
  { seq := 9, core := 0, ctx := 1, grid := 0, group := 0, blk := 3, warp := 4, wi := 0, lin := 0, img := 0, pos := 0x1000, lanes := 1#32 }

def aReq (k : ReqK) (t : Tgt) (st : ReqSt) : Req :=
  { k := k, tgt := t, va := 0x400000, lane := 0, uni := 0, hnd := false, word := 0, hdr := 0x1000, idx := 1, org := orgOf, st := st, stamp := 0, poison := false,
    counted := true }

def netOn (r : Req) : State := { mapped with net := [r] }

def ldK : ReqK := .load 8 4 false false false false
def stK : ReqK := .store [1, 2, 3, 4] false

/-- Witness of RequestsActs: requests served. -/
theorem witness_served : Memory.wf (netOn (aReq stK (.dev 0x400000) .sent)) ∧ serves (netOn (aReq stK (.dev 0x400000) .sent)) (aReq stK (.dev 0x400000) .sent) ∧
    oldest (netOn (aReq stK (.dev 0x400000) .sent)) 0 (aReq stK (.dev 0x400000) .sent) ∧
    undefining (netOn (aReq stK (.dev 0x400000) .sent)) (aReq stK (.dev 0x400000) .sent) ∧ 0 < reqSize stK ∧ stK.isRedo = false ∧ stK ≠ .zline := by
  refine ⟨by decide +kernel, ⟨by decide, .inl ?_⟩, ?_, ?_, by decide, rfl, by decide⟩
  · intro l hl; cases hl
  · intro m q hm; omega
  · intro d hd; cases hd

/-- Witness of RequestsActs: requests that fail. -/
theorem witness_failing : (∃ l ∈ ({ netOn (aReq ldK (.dev 0x400000) .sent) with badLines := [0x4000] } : State).badLines,
      0x400000 / 256 ≤ l ∧ l ≤ (0x400000 + reqSize ldK - 1) / 256) ∧ ldK ≠ .zline ∧ (∀ b ef, ldK ≠ .store b ef) ∧ 0 < reqSize ldK ∧ 0x400000 < 0x30001000000 ∧
    0x30001000000 ≤ 0x30001000008 ∧ ({ netOn (aReq stK (.host 64) .sent) with linkUp := false } : State).linkUp = false ∧
    2 ∈ ({ netOn (aReq stK (.fab 2 64) .sent) with deadNodes := [2] } : State).deadNodes ∧ 2 ∉ (netOn (aReq stK (.fab 2 0x30000000000) .sent)).deadNodes := by
  refine ⟨⟨0x4000, by decide, by decide⟩, by decide, by simp [ldK], by decide, by decide, by decide, rfl, by decide, by decide⟩

/-- Witness of RequestsActs: what comes back. -/
theorem witness_return : (netOn (aReq ldK (.dev 0x400000) (.served [1, 2, 3, 4] []))).warp? 4 = some aWarp ∧ ldK.dst = some (8, 4, false) ∧
    stK.dst = none ∧ (8#10).toNat + (loadWords 4 false [1, 2, 3, 4]).length ≤ 640 ∧ staying (netOn (aReq ldK (.dev 0x400000) (.failed 3))) 1 ∧
    ldK.dst ≠ none ∧ (laneAt aWarp.lanes 0).exited = false ∧ aWarp.traps = [] ∧ aWarp.allExited = false ∧
    ((netOn (aReq stK (.dev 0x400000) (.failed 3))).ctx? 1).isSome = true ∧ ((netOn (aReq stK (.dev 0x400000) (.failed 3))).block? 3).isSome = true ∧
    ({ netOn (aReq stK (.dev 0x400000) (.failed 3)) with warps := [] } : State).warp? 4 = none := by
  refine ⟨by decide +kernel, by decide, by decide, by decide, ?_, ?_⟩
  · intro c a b d h
    rw [show (netOn (aReq ldK (.dev 0x400000) (.failed 3))).ctx? 1 = some (plantCtx 1 fullView) by decide +kernel] at h
    cases h
    intro e
    exact Phase.noConfusion e
  · and_intros <;> decide +kernel

/-- An entry of stream 0, whose word is at 2 MiB. -/
def redoK (ticket : Nat) : ReqK := .redo .add 4 5 ticket 0 0x200000 0x400000 false

def redoR (ticket : Nat) : Req := aReq (redoK ticket) (.dev 0x400000) .sent

/-- Witness of OrderedReduction. -/
theorem witness_redo : (netOn (redoR 0)).net[0]? = some (redoR 0) ∧ (redoK 0).isRedo = true ∧ (redoK 0).entry.isSome = true ∧
    (netOn (redoR 0)).nextTicket (redoR 0) = .ok 0 ∧ (netOn (redoR 0)).redos = [] ∧
    ((reduced (netOn (redoR 0)) (redoR 0) { op := .add, n := 4, x := 5, ticket := 0, word := 0x200000, void := false }).isSome = true) ∧
    2 ^ 31 ≤ (0xFFFFFFFF + 2 ^ 32 - 0) % 2 ^ 32 ∧ 0 < (1 + 2 ^ 32 - 0) % 2 ^ 32 ∧ (1 + 2 ^ 32 - 0) % 2 ^ 32 < 2 ^ 31 ∧
    ({ mapped with redos := [{ req := redoR 1, atCore := true }] } : State).redos[0]? = some { req := redoR 1, atCore := true } := by
  and_intros <;> decide +kernel

def aPage (st : PageSt) (us : List PageUser) : Page := { group := 0, page := 0x40000000, acc := .read, core := 0, users := us, st := st }

def laneUser : PageUser := .lane 4 0 0x40000000 false 0 false 9

/-- Group 0 with a page-request ring of 16 entries at 2 MiB; a page waits. -/
def pageOn (st : PageSt) (us : List PageUser) : State :=
  { mapped.onGrp 0 fun g => { g with prbase := 0x200000, prsize := 16 } with pages := [aPage st us], ns := 200000000 }

/-- A flush of 16 pages that has begun. -/
def aFlush : Flush := { va := 0x100000, n := 16, dropped := none }

/-- An adapter's entry on a shelf. -/
def aShelf : Shelf := { group := 0, adtb := 0x500000, g := 1, slice := 0, cb := 0xFFFF, tent := [], data := [], dying := false }

/-- Witness of PageService. -/
theorem witness_pages : ((pageOn (.noRoom 0) [laneUser]).pages.find? fun p => decide (p.group = 0) && p.unasked) = some (aPage (.noRoom 0) [laneUser]) ∧
    (pageOn (.noRoom 0) [laneUser]).readVaN 0 0x200000 4 = some 0 ∧ (pageOn (.noRoom 0) [laneUser]).readVaN 0 0x200004 4 = some 0 ∧ (0 + 1) % 16 ≠ 0 % 16 ∧
    (pageOn .answered [laneUser]).walk 0 0x40000000 = .svc ∧ mapped.walk 0 0x100000 ≠ .svc ∧
    0 + 1000000 * (if ((pageOn (.asked 1 0) [laneUser]).grp 0).prbound = 0 then 100 else 0) ≤ (pageOn (.asked 1 0) [laneUser]).ns ∧
    laneUser.isEngine = false ∧ PageUser.engine 9 ∈ [PageUser.engine 9] ∧ (mapped.grp 0).flushn = none ∧
    ((mapped.onGrp 0 fun g => { g with flushn := some aFlush }).grp 0).flushn = some aFlush ∧ aFlush.dropped = none ∧ scanon Core.init mapped.cores = true ∧
    scanon Cluster.init mapped.clusters = true := by and_intros <;> decide +kernel

/-- Witness of PageService: flushes. Witness of PageService: flushes that end and that wait. -/
theorem witness_flushes : ¬stillUsed mapped 0 7 ∧ stillUsed (netOn (aReq stK (.dev 0x400000) .sent)) 0 10 ∧
    stillUsed ({ mapped with redos := [{ req := redoR 1, atCore := false }] } : State) 0 9 ∧
    stillUsed (mapped.onCluster 1 fun c => { c with shelf := [{ aShelf with dying := true }] }) 0 7 := by
  refine ⟨?_, .inl ⟨aReq stK (.dev 0x400000) .sent, by decide +kernel, by decide +kernel⟩,
    .inr (.inl ⟨_, List.mem_singleton.mpr rfl, rfl, by decide⟩), .inr (.inr ⟨_, List.mem_singleton.mpr rfl, _, List.mem_singleton.mpr rfl, rfl, rfl⟩)⟩
  rintro (⟨r, h, -⟩ | ⟨r, h, -⟩ | ⟨c, h, -⟩) <;> cases h

/-! ### Engines -/

/-- The same gigabyte in host memory, and a page at the apertures of another device. -/
def hostMapped : State := { planted with mem := [(0, 0x01), (1, 0x10), (0x1000, 0x13), (0x1007, 0x10)] }
def fabMapped : State := { planted with mem := [(0, 0x01), (1, 0x10), (0x1000, 0x13), (0x1005, 0x03), (0x1006, 0x20), (0x1007, 0x20)] }

/-- A page request that has failed, of which operation 9 has yet to hear. -/
def lostPage : Page := { group := 0, page := 0x40000000, acc := .copy false, core := 0, users := [.engine 9], st := .failed }
def lostOn (_ : Nat) : State := { mapped with pages := [lostPage] }

/-- A copy of 4 bytes from 1 MiB to 4 MiB. -/
def aCopy (started : Bool) : Copy :=
  { id := 20, k := .cpy false [0x100000, 0, 0x400000, 0, 0x10004, 0x10001, 0, 0], tok := 1, org := orgOf, started := started, snap := [] }

def copyOn (started : Bool) : State := { mapped.onGrp 0 fun g => { g with en := true } with copies := [aCopy started] }

/-- The same from a page that is not backed, and to none. -/
def badCopy (src : Word) : Copy := { aCopy true with k := .cpy false [src, 0, 0x400000, 0, 0x10004, 0x10001, 0, 0] }

/-- Witness of CopyEngine. -/
theorem witness_copyEngine : (aCopy false).isTst = false ∧ (carried (copyOn true) (aCopy true)).2.2.isNone = true ∧
    ((carried { mapped with copies := [badCopy 0x80000000] } (badCopy 0x80000000)).2.2.map (·.cause)) = some 5 ∧
    ((carried { mapped with copies := [badCopy 0x40000000] } (badCopy 0x40000000)).2.2.map (·.cause)) = some 0 ∧
    mapped.pageAt 0 0 0x40000000 = none ∧ mapped.pageLost 0 0 0x40000000 9 = none ∧ (lostOn 0x40000000).pageLost 0 0 0x40000000 9 = some lostPage ∧
    hostMapped.windows 0 [(0x100000, 4)] ≠ [] ∧ hostMapped.place 0 0x400000 (.copy true) = .ok (.host 0x400000) ∧
    (hostMapped.writeVa 0 0x400000 [1, 2, 3, 4] (.copy true)).2.isNone = true ∧ (aCopy true).held 0 = none ∧
    ({ aCopy true with snap := [(2 ^ 65, [1, 2, 3, 4])] } : Copy).held 0 = some [1, 2, 3, 4] ∧
    fabMapped.place 0 0x100000 (.copy true) = .ok (.fab 2 0x30000100000) ∧ 2 ^ 63 ≤ 2 ^ 63 + 8 ∧ mapped.place 0 0x400000 (.copy true) = .ok (.dev 0x400000) ∧ 0x400000 / 256 ∉ mapped.badLines ∧
    (mapped.writeVa 0 0x400000 [1, 2, 3, 4] (.copy true)).2.isNone = true := by
  and_intros <;> decide +kernel

/-- Witness of CopyEngine: the words a copy brings. -/
theorem witness_brings : brings mapped orgOf { n := 0, src := none, dst := 0x400000 } [0, 0, 0, 0] := rfl

def aRec : List Byte := readCells mapped.mem 0x100000 64

def aDef (fetched : Bool) : Def := { cg := 2, name := 3, gen := 1, trec := aRec, scratch := false, org := orgOf, fetched := fetched, snap := [], sealed := [] }

/-- A record of the same tile with a table of one block at 3 MiB, all of it holes. -/
def tabRec : List Byte := (aRec.set 26 0x30).set 32 1

/-- A definition in flight, its name defining. -/
def defOn (d : Def) : State :=
  { mapped with defs := [d], cgroups := mapped.cgroups.map fun g => { g with entries := [(3, { Entry.init with st := .defining, gen := 1 })] } }

def imgIs (s : State) (d : Def) : Option Nat := match d.image s with | .ok _ => some 99 | .error e => some e.cause

/-- Witness of TileFetcher. -/
theorem witness_tileFetcher : (defOn (aDef false)).net = [] ∧ recOk aRec = true ∧ tTable aRec = 0 ∧ imgIs (defOn (aDef true)) (aDef true) = some 99 ∧
    hostMapped.windows 0 [(0x1000F0, 32)] = [0x1000F0, 0x100100] ∧ tTable tabRec ≠ 0 ∧ recOk tabRec = true ∧ imgIs (defOn (aDef true)) { aDef true with trec := tabRec } = some 99 ∧
    (aDef true).after (aReq stK (.dev 0x400000) .sent) = false ∧ (aDef true).after { aReq stK (.dev 0x400000) .sent with org := { orgOf with seq := 10 } } = true ∧
    (netOn { aReq stK (.dev 0x400000) .sent with org := { orgOf with seq := 8 } }).owes orgOf = true ∧ ((defOn (aDef true)).entry 2 3).st = .defining ∧
    ((defOn (aDef true)).entry 2 3).gen = 1 ∧
    imgIs { defOn (aDef true) with badLines := [0x2000] } (aDef true) = some 3 := by and_intros <;> decide +kernel

/-- Witness of TileFetcher: readers. -/
theorem witness_tileReaders : readerOf (.tld false 8 [(0, 4)]) = some (8, 1, [(0, 4)]) ∧ (8#10).toNat + 1 ≤ 640 ∧ ∀ x ∈ [(0, 4)], x.1 < 32 := by
  refine ⟨rfl, by decide, by decide⟩

/-- An operation on accumulator 0 of block 3. -/
def aMat (ready entered : Bool) : Mat :=
  { id := 30, lanes := if entered then 0 else 1, bad := false, k := .mma .bf16 0 0 1, adtb := 0, org := orgOf, cg := 2, hdr := 0x1000, idx := 1, word := 0xC200000000040000,
    readyA := ready, readyB := ready, seen := [], entered := entered, held := [], failed := [], took := [], slow := none, replays := 0 }

/-- Names 0 and 1 live with BF16 tiles; the operation waits or has entered. -/
def matOn (m : Mat) : State :=
  let e := { live with trec := aRec }
  { mapped with mats := [m], cgroups := mapped.cgroups.map fun g => { g with entries := [(0, e), (1, e)] } }

def heldMat : Mat := { aMat true true with k := .mmalr .bf16 0 0 1 (List.replicate 128 0), held := [5] }

/-- Witness of MatrixEngineActs: operations. -/
theorem witness_matrixEngine : (matOn (aMat true false)).mats[0]? = some (aMat true false) ∧ (aMat true false).lanes ≠ 0#32 ∧
    (matOn (aMat true false)).typeBad (aMat true false) = false ∧ mapped.typeBad (aMat true false) = true ∧
    (mapped.warp? 4).isSome = true ∧ (aMat true true).held = [] ∧ (aMat true true).bad = false ∧ (∀ x ∈ (matOn (aMat true false)).mats.take 0, x.entered = false) ∧
    Core.init.col 5 = 5 ∧ Core.init.deadCol = [] ∧ (aMat true true).side = none ∧ (matOn (aMat true true)).before (aMat true true) = [] ∧
    ((matOn (aMat true true)).core 0).colRewrite = false ∧ ((matOn (aMat true true)).block? 3).isSome = true ∧
    5 ∈ heldMat.held ∧ ((matOn heldMat).sideAt heldMat 5).map (heldMat.needs 5) = some [] := by and_intros <;> decide +kernel

def aFill (started : Bool) : Fill :=
  { cluster := 0, group := 0, adtb := 0x500000, g := 1, slice := 0, cb := 0xFFFF, op := none, org := orgOf, started := started, tent := [], data := [] }

def fillOn (f : Fill) : State := { mapped with fills := [f] }

/-- A good table entry of rank 8 for adapter 1, its data at 6 MiB. -/
def adOn (f : Fill) : State :=
  { mapped with fills := [f], mem := mapped.mem ++ [(0x500022, 0x60), (0x500030, 8), (0x500038, 16), (0x50003D, 1)] }

def fetchIs (s : State) (f : Fill) : Option Nat := match f.fetch s with | .ok _ => some 99 | .error e => some e.cause

/-- Witness of MatrixEngineActs: adapter fills. -/
theorem witness_fills : (aFill false).started = false ∧ (fillOn (aFill false)).net = [] ∧ fetchIs (adOn (aFill true)) (aFill true) = some 99 ∧
    fetchIs (fillOn (aFill true)) (aFill true) = some 6 ∧
    fetchIs (fillOn { aFill true with adtb := 0x40000000 }) { aFill true with adtb := 0x40000000 } = some 0 ∧
    (fillOn (aFill true)).pageAt 0 0 0x40000020 = none ∧ (fillOn (aFill true)).pageLost 0 0 0x40000020 9 = none := by and_intros <;> decide +kernel

/-- Witness of MatrixEngineActs: images. -/
theorem witness_images : ∀ t, scanon (0 : Byte) ((matOn (aMat true true)).entry 2 t).img = true := by
  intro t
  have h : (matOn (aMat true true)).entry 2 t = sget Entry.init t [(0, { live with trec := aRec }), (1, { live with trec := aRec })] := rfl
  rw [h]
  match t with
  | 0 => rfl
  | 1 => rfl
  | n + 2 => simp [sget]; rfl

/-! ### Cores, placing and the front end -/

def aFetch : Fetch := { core := 0, group := 0, line := 0x1000, pre := false }

/-- The page table with execution allowed. -/
def execMapped : State := { mapped with mem := [(0, 0x01), (1, 0x10), (0x1000, 0x15)], fetches := [aFetch] }

def trapWarp : Warp := { lane0 { aLane with park := .trap } with traps := [{ cls := 10, since := 0, lanes := [aTrap] }] }

/-- A trapped sub-warp whose class's handler, in a table at 1 MiB, is the planted clause. -/
def handlerOn (htab : Nat) : State :=
  { ctxIs (fun c => { c with htab := htab }) mapped with warps := [trapWarp], mem := [(0, 0x01), (1, 0x10), (0x1000, 0x13), (0x100051, 0x10)] }

/-- Witness of FrontOfCore: fetches and handlers. -/
theorem witness_fetches : execMapped.fetches[0]? = some aFetch ∧ ((execMapped.coreXl 0 0 0x100000 .fetch).1 = .ok (.dev 0x100000) false) ∧
    (execMapped.readTgt (.dev 0x100000) 256).isOk = true ∧ (mapped.coreXl 0 0 0x100000 .fetch).1 = .fault 5 ∧
    ((handlerOn 0x100000).nextSub 0) = some (trapWarp, { cls := 10, since := 0, lanes := [aTrap] }) ∧ (handlerOn 0).nextSub 0 ≠ none ∧
    ((handlerOn 0x100000).quad 0).bank = none ∧ (handlerOn 0x100000).quadOff 0 = false ∧
    (handlerOn 0x100000).entryReady trapWarp { cls := 10, since := 0, lanes := [aTrap] } = true ∧ (handlerOn 0x100000).warp? 4 = some trapWarp ∧
    ((handlerOn 0x100000).coreXl 0 0 (0x100000 + 8 * 10) .read).1 = .ok (.dev 0x100050) false ∧
    (handlerOn 0x100000).readTgt (.dev 0x100050) 8 = .ok [0, 0x10, 0, 0, 0, 0, 0, 0] ∧
    ((handlerOn 0x100000).ctx? 1).map (·.heads) = some [0x1000] := by and_intros <;> decide +kernel

/-- Lane 3 of quadrant 0, and column 3 of core 0, failed, recorded and reported. -/
def laneFailed : State :=
  ((planted.onQuad 0 fun x => { x with dead := insNat 3 x.dead }).onRec fun r => { r with lanes := r.lanes ++ [(0, 3)] }).postDev 3 0 1 19 0xFFFFFFFF 3

def columnFailed : State :=
  ((planted.onCore 0 fun c => c.failCol 3).onRec fun r => { r with cols := r.cols ++ [(0, 3)] }).postDev 3 0 (4 + 65536 * 0xFF) 19 0xFFFFFFFF 3

/-- Witness of FrontOfCore: lanes and columns. -/
theorem witness_lanes : 3 ∉ (planted.quad 0).dead ∧ 0 < 32 * planted.nClusters ∧ 3 ∉ (planted.core 0).deadCol ∧ 0 < 8 * planted.nClusters ∧
    ((planted.onQuad 0 fun q => { q with rewriting := true }).quad 0).rewriting = true ∧ Core.init.col 5 = 5 ∧
    (∀ k, k < 128 → Core.init.col k = 5 → k = 5) ∧ (∀ k, k < 128 → Core.init.col k ≠ 128) ∧ 128 ∉ Core.init.deadCol := by and_intros <;> decide +kernel

/-- Witness of FrontOfCore: a core that stays above its least lanes and columns. -/
theorem witness_notShort : laneFailed.short 0 = false ∧ columnFailed.short 0 = false := by
  have h : ∀ b : Bool, Config.freeBit 0 = b → laneFailed.short 0 = false ∧ columnFailed.short 0 = false := by
    intro b hb
    cases b <;> simp only [laneFailed, columnFailed, State.onRec, State.draw] <;> and_intros <;> rfl
  exact h _ rfl

/-- A context of 2 blocks, none of them dispatched, on a device of which one core is left. -/
def twoBlocks : Ctx := { plantCtx 1 fullView with h := { plantImg fullView with gx := 2, cbud := 8, pbud := 1000 }, src := .queue 0 0 false }

def placingOn : State :=
  let s := State.reset.onGrp 0 fun g => { g with cbud := 8, pbud := 1000 }
  let cs := (List.range 95).map fun k => (k + 1, { Core.init with retired := true })
  { s with ctxs := [twoBlocks], nextId := 2, ns := 3000000, form := .d90, cores := cs }

/-- The head of its blocks waiting. -/
def headWait : Wait := { ctx := 1, gidx := 0, lins := [0], since := 0, saved := none, replay := false, hold := [], leaf := none }

def headOn : State := { placingOn with waits := [headWait] }

/-- Witness of Placing. -/
theorem witness_placing : twoBlocks.phase = .running ∧ twoBlocks.src ≠ .leaf ∧ twoBlocks.cursor < twoBlocks.h.gx * twoBlocks.h.gy * twoBlocks.h.gz ∧
    leastLoad headOn.load ((headOn.takers twoBlocks 1).map (·.1)) = some 0 ∧ (0, [0]) ∈ headOn.takers twoBlocks 1 ∧
    headWait.since + 2000000 ≤ headOn.ns ∧ headOn.ns / 10000 ≠ headOn.window ∧ scanon Grp.init headOn.groups = true := by and_intros <;> decide +kernel

/-- The head while the planted block holds the one core left. -/
def heldOn : State :=
  let cs := (List.range 95).map fun k => (k + 1, { Core.init with retired := true })
  { planted with ctxs := [twoBlocks], ns := 3000000, form := .d90, cores := cs, waits := [headWait] }

/-- Witness of Placing: a head that holds cores. -/
theorem witness_hold : heldOn.waits[0]? = some headWait ∧ headWait.hold = [] ∧ headWait.since + 2000000 ≤ heldOn.ns ∧ heldOn.ctx? headWait.ctx = some twoBlocks ∧
    ((List.range heldOn.nClusters).all fun k => heldOn.leafPick k twoBlocks.h headWait.size [] = none) = true ∧
    leastLoad heldOn.load ((List.range heldOn.nClusters).filter fun k => (heldOn.holdPick k headWait.size []).isSome) = some 0 ∧
    heldOn.holdPick 0 headWait.size [] = some [0] := by and_intros <;> decide +kernel

def goneWarp : Warp := { aWarp with lanes := List.replicate 32 { aLane with exited := true } }

/-- A block whose warps have ended. -/
def endedOn : State := { planted with warps := [], blocks := planted.blocks.map fun b => { b with warpsLeft := 0 } }

/-- Witness of Placing: warps and blocks that end. -/
theorem witness_ends : goneWarp.allExited = true ∧ ({ planted with warps := [goneWarp] } : State).pending goneWarp = [] ∧ goneWarp.traps = [] ∧
    (endedOn.blocks.map fun b => (b.warpsLeft, endedOn.blockBusy b.id)) = [(0, false)] ∧
    (endedOn.cgroup? 2).map (fun g => (g.again, decide (0 < g.left))) = some (false, true) ∧ (endedOn.ctx? 1).map (·.phase) = some .running := by
  and_intros <;> decide +kernel

/-- Firmware runs, group 0 is enabled, host queue 0 has one command at 3 MiB. -/
def cmdBytes (k : Nat) (l : List (Nat × Nat)) : List Byte := patchAll (toBytes 64 k) l
where
  patchAll (b : List Byte) : List (Nat × Nat) → List Byte
    | [] => b
    | x :: r => patchAll (b.set x.1 (BitVec.ofNat 8 x.2)) r

def cmdOn (b : List Byte) : State :=
  let s := mapped.onGrp 0 fun g => { g with en := true }
  let s := s.onHq 0 fun h => { h with en := true, tail := 1, ring := 0x300000 }
  { s with bootst := 8, mem := writeCells 0x300000 b s.mem }

theorem takes_of (k : Nat) (b : List Byte) (h : (cmdOn b).readVa 0 0x300000 64 .read = .ok b) (hk : field b 0 1 = k) (ho : cmdOk b = true)
    (hm : (cmdOn b).mayStart 0 b = true) : Takes (cmdOn b) 0 k b := by
  have e : (cmdOn b).hqueue 0 = { HQueue.init with en := true, tail := 1, ring := 0x300000 } := rfl
  exact ⟨by rw [e]; decide, rfl, h, hk, hm, ho⟩

/-- COPY of 4 bytes, GRAPH, SIGNAL, WAIT, LOADGRAPH and RUN. -/
def copyB : List Byte := cmdBytes 2 [(10, 0x10), (18, 0x20), (24, 4)]
def graphB : List Byte := cmdBytes 3 []
def signalB : List Byte := cmdBytes 4 [(10, 0x10), (16, 5), (26, 0xFF), (27, 0xFF)]
def addB : List Byte := cmdBytes 4 [(10, 0x10), (16, 5), (24, 1), (26, 0xFF), (27, 0xFF)]
def waitB : List Byte := cmdBytes 5 [(10, 0x10), (28, 9)]
def loadB : List Byte := cmdBytes 6 [(9, 1), (18, 0x10)]
def runB : List Byte := cmdBytes 1 [(10, 0x10), (32, 0xFF), (33, 0xFF)]
def runN : List Byte := cmdBytes 1 [(10, 0x10), (32, 70)]

/-- Witness of CommandsAct: a command taken in its turn. -/
theorem witness_takes : Takes (cmdOn copyB) 0 2 copyB ∧ Takes (cmdOn graphB) 0 3 graphB ∧ Takes (cmdOn signalB) 0 4 signalB ∧ Takes (cmdOn addB) 0 4 addB ∧
    Takes (cmdOn waitB) 0 5 waitB ∧ Takes (cmdOn loadB) 0 6 loadB ∧ Takes (cmdOn runB) 0 1 runB ∧ Takes (cmdOn runN) 0 1 runN := by
  and_intros <;> apply takes_of <;> decide +kernel

/-- Witness of CommandsAct: SIGNAL. -/
theorem witness_signal : field signalB 26 2 = 0xFFFF ∧ field signalB 24 1 = 0 ∧ field addB 24 1 = 1 ∧
    (((passed (cmdOn signalB) 0).writeVa 0 0x100000 (toBytes 8 5) .write).2.isNone = true) ∧ (cmdOn addB).xl 0 0x100000 .atomic = .ok (.dev 0x100000) false ∧
    ((cmdOn addB).readVa 0 0x100000 8 .atomic).isOk = true ∧ ((cmdOn loadB).graph 0).running = false ∧
    (((cmdOn loadB).onGraph 0 fun x => { x with running := true }).graph 0).running = true ∧
    (cmdOn runN).classGroup 70 = 0 ∧ (((cmdOn runN).onNreg 70 fun r => { r with group := 5 }).classGroup 70 ≠ 0) := by and_intros <;> decide +kernel

/-- A command in flight. -/
def flying (k : CmdK) : Cmd := { id := 40, src := .queue 0 7 true, group := 0, k := k, comp := 0, notify := 0xFFFF }

def flyOn (k : CmdK) : State := { cmdOn copyB with cmds := [flying k], ns := 5000 }

/-- A node of kind TRIGGER. -/
def nodeT : List Byte := toBytes 32 7

/-- Witness of CommandsAct: commands in flight. -/
theorem witness_flying : (movedPieces 0 0x100000 0x200000 false [(0, 4)] (ended (flyOn (.copy 0x100000 0x200000 4 [(0, 4)])) (flying (.xlate 0 0)))).2.isNone = true ∧
    (movedPieces 0 0x80000000 0x200000 false [(0, 4)] (flyOn (.copy 0x80000000 0x200000 4 [(0, 4)]))).2.isSome = true ∧
    (flyOn (.copy 0x100000 0x200000 4 [])).frontMsg 0 0x200000 4 = false ∧
    ((flyOn (.wait 0x100000 0 0 false none)).readVa 0 0x100000 8 .read).isOk = true ∧ 5000 ≤ (flyOn (.wait 0x100000 0 0 false (some 5000))).ns ∧
    nodeOk 1 nodeT = true ∧ nodeOk 1 (toBytes 32 9) = false ∧ nodeNotify nodeT = 0xFFFF := by and_intros <;> decide +kernel

/-! ### Launches and graphs -/

/-- An image of one block of one warp, its code at 4 MiB. -/
def anImg : Img :=
  { Img.init with kind := 1, code := 0x400000, variant := 0xFF, gran := 1, gx := 1, gy := 1, gz := 1, warps := 1, gsize := 1, cbud := 1, pbud := 10, view := fullView,
                  size := 256 }

/-- A section's record: kind, stepping mask, offset, size. -/
def sectB (k m off size : Nat) : List Byte := toBytes 4 k ++ toBytes 4 m ++ toBytes 8 off ++ toBytes 8 size ++ toBytes 8 0

/-- A code object whose one code section, native or portable, is an EXIT. -/
def objB (portable : Bool) : List Byte :=
  let code := if portable then toBytes 16 (0x214 * 2 ^ 118) else toBytes 4 16 ++ toBytes 12 1 ++ toBytes 8 0 ++ toBytes 8 0x8500000000000000
  toBytes 4 0x424F434B ++ toBytes 2 1 ++ toBytes 2 3 ++ toBytes 8 64 ++ toBytes 4 1 ++ toBytes 4 (if portable then 1 else 0) ++ toBytes 8 288 ++ zeros 32 ++
    sectB (if portable then 2 else 1) (if portable then 0 else 1) 256 code.length ++ sectB 3 0 160 32 ++ sectB 4 0 192 32 ++ zeros 32 ++
    (toBytes 1 1 ++ toBytes 1 1 ++ zeros 30) ++ zeros 32 ++ code

def imgOn (h : Img) (portable : Bool) : State :=
  let s := (cmdOn runB).onGrp 0 fun g => { g with en := true, cbud := 8, pbud := 1000 }
  { s with mem := writeCells 0x400000 (objB portable) (writeCells 0x100000 h.bytes s.mem) }

def prepIs (s : State) : Nat := match (s.prepare 0 0x100000 0 none).2 with | .go _ _ _ _ => 100 | .xlate _ _ _ _ => 101 | .refuse n => n

/-- Witness of LaunchesAct. -/
theorem witness_launch : prepIs (imgOn anImg false) = 100 ∧ prepIs (imgOn anImg true) = 101 ∧ prepIs (imgOn { anImg with gran := 0 } false) = 6 ∧
    prepIs (imgOn { anImg with group := 7 } false) = 9 ∧ prepIs State.reset = 9 ∧ (State.reset.readImage 0 0x100000).isOk = false ∧
    ((imgOn anImg false).readImage 0 0x100000).isOk = true ∧ headerOk anImg.bytes = true ∧ headerOk { anImg with gran := 0 }.bytes = false := by
  and_intros <;> decide +kernel

/-- A translation under way for a command. -/
def aRun : XRun := { group := 0, form := [], step := 0, rev := 0, view := [], sect := [], ents := [], words := [], cmds := [40] }

/-- Witness of LaunchesAct: a translation. -/
theorem witness_translation : ({ flyOn (.xlate 0x100000 0) with xruns := [aRun] } : State).xruns[0]? = some aRun ∧
    ((flyOn (.xlate 0x100000 0)).cmds.find? fun c => c.id = 40) = some (flying (.xlate 0x100000 0)) ∧ (flyOn (.xlate 0x100000 0)).quota 0 = 65536 := by
  and_intros <;> decide +kernel

/-- A context whose blocks have all run, launched by a command. -/
def ranCtx : Ctx := { plantCtx 1 fullView with src := .queue 0 7 true, cursor := 1, done := 1 }

def ranOn : State := { cmdOn copyB with ctxs := [ranCtx], cgroups := [], blocks := [], warps := [], cmds := [flying (.run 1)] }

/-- Witness of LaunchesAct: a launch that ends. -/
theorem witness_run : ranCtx.phase = .running ∧ ranOn.runDone ranCtx = true ∧ ranCtx.src ≠ .leaf ∧ ranCtx.id ∉ (ranOn.grp 0).ptodo ∧ ranOn.compFails 0 = false ∧
    (ranOn.cmds.find? fun c => c.k = .run 1) = some (flying (.run 1)) ∧ ∀ t, (flying (.run 1)).src ≠ .tag t := by
  and_intros
  all_goals first | decide +kernel | (intro t h; cases h)

/-- A tag of graph 1, its four slots of 256 bytes at 2 MiB. -/
def tagB (k : Nat) : List Byte :=
  toBytes 1 k ++ toBytes 1 1 ++ toBytes 2 0 ++ toBytes 4 0 ++ toBytes 8 0x100000 ++ toBytes 8 0x200000 ++ toBytes 2 1 ++ toBytes 2 4 ++ toBytes 2 0 ++ toBytes 2 0

def tagOn (k : Nat) (queue : List Nat) : State :=
  { imgOn { anImg with args := 0x500000, argSize := 16 } false with tags := [(5, { TagEnt.init with bytes := tagB k, queue := queue })] }

/-- Witness of LaunchesAct: tagged messages. -/
theorem witness_tags : ((tagOn 1 []).tagEnt 5).valid = true ∧ ((tagOn 1 []).grp 0).en = true ∧ [7].length ≤ 256 * field (tagB 1) 24 2 ∧ ((tagOn 1 []).tagEnt 5).busy = [] ∧
    ((tagOn 1 []).writeVa 0 0x200000 [7] .write).2.isNone = true ∧ ((tagOn 1 [0]).tagEnt 5).queue = [0] ∧ ((tagOn 1 [0]).tagEnt 5).live = none ∧
    ((tagOn 1 [0]).slotFits ((tagOn 1 [0]).tagEnt 5)).1 = true ∧
    ((tagOn 1 [0]).readVa 0 (0x100000 + 40) 12 .read = .ok ((toBytes 8 0x500000) ++ toBytes 4 16)) ∧ field (tagB 1) 0 1 = 1 ∧ field (tagB 2) 0 1 = 2 ∧
    ((tagOn 2 [0]).graph (field (tagB 2) 1 1)).pending < 255 ∧ ((tagOn 1 [0]).writeVa 0 0x500000 (toBytes 8 0x200000) .write).2.isNone = true := by and_intros <;> decide +kernel

/-- Graph 3 running at a node. -/
def nodeB (k : Nat) (l : List (Nat × Nat)) : List Byte := cmdBytes.patchAll (toBytes 32 k) l

def graphOn (b : List Byte) : State := (cmdOn copyB).onGraph 3 fun x => { x with loaded := true, running := true, group := 0, nodes := [b] }

theorem atNode_of (k : Nat) (b : List Byte) (hk : field b 0 1 = k) : AtNode (graphOn b) 3 k 0 b := by
  have e : (graphOn b).graph 3 = { Graph.init with loaded := true, running := true, group := 0, nodes := [b] } := rfl
  refine ⟨by rw [e], by rw [e]; rfl, by rw [e]; rfl, hk, .inl ?_, .inr ?_⟩
  · rfl
  · intro c hc; cases hc

/-- Witness of GraphsRun: each node. -/
theorem witness_nodes : AtNode (graphOn (nodeB 1 [(10, 0x10)])) 3 1 0 (nodeB 1 [(10, 0x10)]) ∧
    AtNode (graphOn (nodeB 2 [(10, 0x10), (18, 0x20), (24, 4)])) 3 2 0 (nodeB 2 [(10, 0x10), (18, 0x20), (24, 4)]) ∧
    AtNode (graphOn (nodeB 3 [(10, 0x10), (24, 0xFF), (25, 0xFF)])) 3 3 0 (nodeB 3 [(10, 0x10), (24, 0xFF), (25, 0xFF)]) ∧
    AtNode (graphOn (nodeB 4 [(10, 0x10)])) 3 4 0 (nodeB 4 [(10, 0x10)]) ∧ AtNode (graphOn (nodeB 5 [(10, 0x10)])) 3 5 0 (nodeB 5 [(10, 0x10)]) ∧
    AtNode (graphOn (nodeB 6 [(4, 2)])) 3 6 0 (nodeB 6 [(4, 2)]) ∧ AtNode (graphOn (nodeB 7 [(8, 4)])) 3 7 0 (nodeB 7 [(8, 4)]) :=
  ⟨atNode_of _ _ rfl, atNode_of _ _ rfl, atNode_of _ _ rfl, atNode_of _ _ rfl, atNode_of _ _ rfl, atNode_of _ _ rfl, atNode_of _ _ rfl⟩

/-- Witness of RegistersAct. Witness of GraphsRun: runs and conditions. -/
theorem witness_graphs : (let s := (cmdOn copyB).onGraph 3 fun x => { x with loaded := true, pending := 1 };
      (s.graph 3).loaded = true ∧ (s.graph 3).loading = false ∧ (s.graph 3).running = false ∧ (s.graph 3).faulted = false ∧ (s.graph 3).pending ≠ 0 ∧ s.cmds = []) ∧
    ((graphOn (nodeB 3 [(10, 0x10), (24, 0xFF), (25, 0xFF)])).writeVa 0 0x100000 (toBytes 8 0) .write).2.isNone = true ∧
    (graphOn (nodeB 3 [(3, 1)])).xl 0 0x100000 .atomic = .ok (.dev 0x100000) false ∧ field (nodeB 3 [(3, 1)]) 3 1 = 1 ∧
    field (nodeB 3 [(24, 0xFF), (25, 0xFF)]) 24 2 = 0xFFFF ∧ ((graphOn (nodeB 5 [(10, 0x10)])).readVa 0 0x100000 8 .read).isOk = true ∧
    ((graphOn (nodeB 5 [(11, 0x80)])).readVa 0 0x80000000 8 .read).isOk = false ∧ 0 + 1 < field (nodeB 6 [(4, 2)]) 4 4 ∧ field (nodeB 6 [(4, 1)]) 4 4 ≤ 0 + 1 ∧
    (graphOn (nodeB 7 [])).graphBusy 3 = false ∧ ((graphOn (nodeB 7 [])).graph 3).tag = none := by and_intros <;> decide +kernel

/-! ### Registers, pre-emption, upkeep -/

theorem witness_registers : ((3#32 - ((cmdOn copyB).hqueue 0).head).toNat ≤ ((cmdOn copyB).hqueue 0).slots) ∧
    ((cmdOn copyB).hqueue 0).slots < (17#32 - ((cmdOn copyB).hqueue 0).head).toNat ∧ ({ cmdOn copyB with evsize := 64 } : State).bootst = 8 ∧
    ((cmdOn copyB).hqueue 1).en = false ∧ (cmdOn copyB).gated = false ∧ (5#64).getLsbD 63 = false ∧ (0x8000000000000000#64).getLsbD 63 = true ∧
    ((cmdOn copyB).graph 5).due = [] ∧
    (let s := (cmdOn copyB).onNreg 70 fun r => { r with cls := 2, thresh := 1, target := 9, due := some 0 };
     (s.nreg 70).cls = 2 ∧ (s.nreg 70).thresh ≤ min ((s.nreg 70).count + 1) 255 ∧ (s.nreg 70).due = some 0 ∧ 0 ≤ s.ns) ∧
    (let s := (cmdOn copyB).onNreg 70 fun r => { r with cls := 2, thresh := 9 };
     min ((s.nreg 70).count + 1) 255 < (s.nreg 70).thresh) ∧
    (((cmdOn copyB).onNreg 70 fun r => { r with cls := 3 }).nreg 70).cls = 3 ∧
    (let s : State := { (cmdOn copyB).onNreg 70 fun r => { r with cls := 2, thresh := 9, lCount := 1 } with gated := true };
     s.gated = true ∧ s.nregs.map (·.1) = [70] ∧ 0 < (s.nreg 70).lCount ∧ (s.nreg 70).cls = 2 ∧ min ((s.nreg 70).count + 1) 255 < (s.nreg 70).thresh) ∧
    (let s : State := { (cmdOn copyB).onNreg 5 fun r => { r with lCount := 1 } with gated := true };
     s.nregs.map (·.1) = [5] ∧ 0 < (s.nreg 5).lCount) ∧
    ((flyOn (.wait 0x100000 0 0 false none)).cmds.filter fun c => match c.src with | .queue p _ _ => p = 0 | _ => false) =
      [flying (.wait 0x100000 0 0 false none)] := by and_intros <;> decide +kernel

/-- Witness of RegistersAct: the windows, groups and work queues. -/
theorem witness_window : (∀ q, (State.reset.hqueue q).en = false) ∧ scanon HQueue.init State.reset.hq = true ∧ (∃ k, ((cmdOn copyB).hqueue k).en = true) ∧
    (State.reset.wqueue 5).en = false ∧ (State.reset.grp 5).en = false ∧ 256 ∣ 512 ∧ 0x20000000000 + 512 < State.reset.nearTop ∧ Memory.wf State.reset ∧
    ({ cmdOn copyB with mem := [(0, 0x01), (1, 0x10), (0x1008, 0x13), (0x100D, 0x02)] } : State).ringNear { WQueue.init with ring := 0x40000100 } = true ∧
    ((State.reset.onGrp 5 fun g => { g with cbud := 8, pbud := 100, prsize := 64, cfsize := 64 }).grp 5).ok = true ∧ (State.reset.grp 5).ok = false ∧ State.reset.ctxs = [] ∧
    (∃ c ∈ planted.ctxs, c.group = 0) := by
  refine ⟨fun q => rfl, rfl, ⟨0, rfl⟩, rfl, rfl, ⟨2, rfl⟩, by decide +kernel, by decide +kernel, by decide +kernel, by decide +kernel, by decide +kernel, rfl, ?_⟩
  exact ⟨plantCtx 1 fullView, by decide +kernel, rfl⟩

/-- Group 0 enabled; the planted context running, or in another phase. -/
def pre (p : Phase) : State := ctxIs (fun c => { c with phase := p }) (mapped.onGrp 0 fun g => { g with en := true, ptodo := [1], psize := 2 ^ 30, pimg := 0x600000 })

def preC (p : Phase) : Ctx := { plantCtx 1 fullView with phase := p }

/-- Witness of PreemptionActs. -/
theorem witness_preemption : ((pre .running).grp 0).en = true ∧ (planted.grp 0).en = false ∧
    ((mapped.onGrp 0 fun g => { g with en := true }).grp 0).ptodo = [] ∧ (mapped.onGrp 0 fun g => { g with en := true }).ctxs = [plantCtx 1 fullView] ∧
    (∃ r ∈ (netOn (aReq stK (.dev 0x400000) .sent)).net, r.counted = true ∧ r.org.ctx = 1) ∧ (∀ w ∈ mapped.warps, w.ctx = 1) ∧
    (pre (.removing 0 2 1)).ctx? 1 = some (preC (.removing 0 2 1)) ∧ 0 + 100000 ≤ ({ pre (.removing 0 2 1) with ns := 100000 } : State).ns ∧
    (pre (.stopping 0 true 1)).ctx? 1 = some (preC (.stopping 0 true 1)) ∧ (∀ g ∈ (pre (.stopping 0 true 1)).cgroups, g.leaf = .none) ∧
    ((pre (.stopping 0 true 1)).quad 0).bank = none ∧ (∃ w ∈ (pre (.stopping 0 true 1)).warps, w.ctx = 1 ∧ (pre (.stopping 0 true 1)).halted w = false) ∧
    (∀ w ∈ ({ pre (.stopping 0 true 1) with warps := [goneWarp] } : State).warps,
      ({ pre (.stopping 0 true 1) with warps := [goneWarp] } : State).halted w = true) ∧
    0 + ((pre (.stopping 0 true 1)).grp 0).bound ≤ ({ pre (.stopping 0 true 1) with ns := 20000 } : State).ns ∧
    ((hOn (.nop c0)).quad hWarp.q).bank = some (bankOf 10 aTrap) := by
  refine ⟨by decide +kernel, by decide +kernel, by decide +kernel, by decide +kernel, ?_, by decide +kernel, by decide +kernel, by decide, by decide +kernel,
    by decide +kernel, by decide +kernel, ?_, by decide +kernel, by decide +kernel, by decide +kernel⟩
  · exact ⟨aReq stK (.dev 0x400000) .sent, by decide +kernel, rfl, rfl⟩
  · exact ⟨aWarp, by decide +kernel, rfl, by decide +kernel⟩

/-- Witness of PreemptionActs: the save engine. -/
theorem witness_saving : (pre (.saving true 1)).ctx? 1 = some (preC (.saving true 1)) ∧ ((pre (.saving true 1)).draining fun o => o.ctx = 1) = false ∧
    ((pre (.saving true 1)).grp 0).ptodo = [1] ∧ (pre (.saving true 1)).endFinished 1 = pre (.saving true 1) ∧
    (({ pre (.saving true 1) with net := [aReq stK (.dev 0x400000) .sent] } : State).draining fun o => o.ctx = 1) = true ∧
    ((mapped.onCGroup 2 fun g => { g with leaf := .saving }).cgroups.map fun g => (g.ctx, g.leaf)) = [(1, .saving)] ∧ mapped.endFinished 1 = mapped := by
  and_intros <;> decide +kernel

/-- Witness of InventoryAndDepartures: passes. -/
theorem witness_inventory : (let s : State := { State.reset with ns := 100000000 };
      0 < 8 * s.nClusters ∧ (s.core 0).retired = false ∧ s.passDue 0 = true ∧ s.nextPass 0 = some 0 ∧ State.reset.passDue 0 = false) ∧
    (let s := State.reset.onCore 0 fun c => { c with retired := true, final := true };
      (s.core 0).retired = true ∧ (s.core 0).final = true ∧ (s.core 0).inv = .idle ∧ ∀ b ∈ s.blocks, b.core ≠ 0) ∧
    (let s : State := { planted.onCore 0 fun c => { c with inv := .draining 0 } with ns := 500000 };
      (s.core 0).inv = .draining 0 ∧ s.groupsOn 0 = [2] ∧ (∀ x ∈ s.cgroups, x.id = 2 → x.leaf = .none) ∧ ∃ b ∈ s.blocks, b.core = 0) := by
  refine ⟨by and_intros <;> decide +kernel, by and_intros <;> decide +kernel, by decide +kernel, by decide +kernel, by decide +kernel, ?_⟩
  exact ⟨plantBlock 3 1 2, by decide +kernel, rfl⟩

/-- A grid that ran block 0 on core 0. -/
def aGrid (state : Nat) : Grid :=
  { id := 50, group := 0, img := 0, h := plantImg fullView, comp := 0, event := false, src := .queue 0 0 false, state := state, exited := [0], replays := 0,
    replayed := false, suspects := [], nsus := 0, faulted := false, tprov := 0, tfinal := 0, set := [(0, false)], ran := [(0, 0)], unrep := [],
    pendingReplay := [], removed := false, winNow := 0, winLast := 0, ctx0 := plantCtx 1 fullView }

/-- Witness of InventoryAndDepartures: scans. -/
theorem witness_scan : (let s : State := { State.reset.onCore 0 fun c => { c with inv := .draining 0, passOk := [50] } with grids := [aGrid 0] };
      (s.core 0).inv = .draining 0 ∧ s.grids = [aGrid 0] ∧ (aGrid 0).state = 0 ∧ s.blocks = []) ∧
    ({ State.reset with grids := [aGrid 1] } : State).concerned (aGrid 1) = true ∧ (aGrid 1).affected 0 = [0] ∧
    ({ State.reset with grids := [aGrid 1] } : State).replayable (aGrid 1) ((aGrid 1).h.groupLins 0) = false := by and_intros <;> decide +kernel

/-- A channel with two uncorrectable lines in a day, and a departure under way. -/
def leaving (k : List Nat) : Depart := { ch := 1, gone := false, moved := [], kept := k, next := 0 }

/-- Witness of InventoryAndDepartures: channels and slices. -/
theorem witness_departures : (let s : State := { State.reset with chanBad := [(1, 0, 0), (1, 8, 0)] };
      s.depart = none ∧ s.retRec.chan = none ∧ 1 < s.nChans ∧ s.channelDue 1 = true) ∧
    (({ State.reset with depart := some (leaving []) } : State).slotLine 1 0).isSome = true ∧ (({ State.reset with depart := some (leaving []) } : State).slotLine 1 (2 ^ 40)) = none ∧
    (let s := State.reset.onCluster 0 fun c => { c with retired := true };
      s.sliceDue 3 = true ∧ 3 ∉ s.slices ∧ 3 < s.nSlices ∧ s.slices.length + 1 < s.nSlices) ∧ State.reset.sliceDue 3 = false := by and_intros <;> decide +kernel

def aBeat (n : Nat) : Beat := { cluster := 1, grp := 2, pa := 0x20000000400, beat := 3, retries := n }

/-- Witness of ErrorsAct. -/
theorem witness_errors : State.reset.exists? 0x400000 = true ∧ State.reset.l2 = [] ∧ 0x20000000000 ≤ 0x20000000008 ∧ 0x20000000008 < State.reset.nearEnd ∧
    State.reset.isFar 0x400000 = true ∧ 3 < State.reset.nSlices ∧ 1 < State.reset.nClusters ∧ (aBeat 0).retries < 3 ∧ 70 / 32 = (aBeat 3).grp ∧
    ({ State.reset with beats := [aBeat 3] } : State).sparesUsed 1 < 32 ∧ (0x20000000500 / 1024 = (aBeat 3).pa / 1024) ∧
    (State.reset.cluster 1).drift = 0 ∧ ageCap 70 < ageCap 0 ∧ ageCap 5 = ageCap 0 ∧ (State.reset.cluster 1).retired = false ∧ 180 ≤ 200 ∧
    ((State.reset.onCluster 1 fun c => { c with gliding := true }).cluster 1).gliding = true ∧ (planted.ctx? 1).isSome = true := by and_intros <;> decide +kernel

/-- Witness of PowerAndBootAct. -/
theorem witness_power : State.reset.tripped = false ∧ State.reset.pwrlim < 3000 ∧ State.reset.ctxs = [] ∧ planted.ctxs = [plantCtx 1 fullView] ∧
    (let s : State := { State.reset with alarm := some 0, hot := true, ns := 300000 };
      s.stepAt + 100000 ≤ s.ns ∧ 0 + 200000 ≤ s.ns ∧ s.steps < 4) ∧ 0 < ({ State.reset with steps := 2, ns := 300000 } : State).steps ∧
    1 ≤ State.reset.bootst ∧ State.reset.bootst ≤ 6 ∧ State.reset.verifying = false ∧ ({ State.reset with verifying := true } : State).bootCheck = 2 ∧
    (({ State.reset with bootst := 7 } : State).flash.filterMap id) = [Record.init, Record.init] ∧
    (({ State.reset with bootst := 7, flash := [none, none] } : State).flash.filterMap id) = [] ∧ 7 ≤ (cmdOn copyB).bootst ∧
    (copyOn true).net = [] ∧ (copyOn true).defs = [] ∧ (copyOn true).cmds = [] := by and_intros <;> decide +kernel


/-- The grid of block 0 on core 0, which may run again, with its context. -/
def redoGrid : Grid := { aGrid 0 with id := 9, ctx0 := { plantCtx 1 fullView with idem := true, grid := 9 } }
def redoCtx : Ctx := { plantCtx 1 fullView with grid := 9, src := .queue 0 7 true }
def redoWait (r : Bool) : Wait := { ctx := 1, gidx := 0, lins := [0], since := 0, saved := if r then none else some (freshGroup redoCtx 0 0 0, [], []), replay := r, hold := [], leaf := none }
def redoOn (c : List Ctx) (w : List Wait) (g : List CGroup) : State :=
  { planted with grids := [redoGrid], ctxs := c, waits := w, cgroups := g, blocks := [], warps := [] }

def again : CGroup := { freshGroup redoCtx 0 0 0 with id := 2, ctx := 1, gidx := 0, again := true, left := 1 }

/-- Witness of InventoryAndDepartures: replays. -/
theorem witness_replay : Replays (redoOn [redoCtx] [] []) 0 0 redoGrid ∧ Replays (redoOn [redoCtx] [] [again]) 0 0 redoGrid ∧
    Replays (redoOn [redoCtx] [redoWait true] []) 0 0 redoGrid ∧ Replays (redoOn [redoCtx] [redoWait false] []) 0 0 redoGrid ∧
    Replays { redoOn [] [] [] with grids := [{ redoGrid with state := 1 }] } 0 0 { redoGrid with state := 1 } ∧
    (redoWait false).saved.isSome = true ∧ redoGrid.ctx0.grid = redoGrid.id ∧ redoCtx.grid = redoGrid.id ∧ redoCtx.phase = .running ∧ redoCtx.src ≠ .leaf ∧
    (let b : Block := { plantBlock 3 1 2 with warpsLeft := 0 }
     let s : State := { redoOn [redoCtx] [] [again] with blocks := [b] };
     s.blockBusy b.id = false ∧ b.ctx = redoCtx.id ∧ b.cg = again.id ∧ again.ctx = redoCtx.id ∧ redoGrid.id = redoCtx.grid) ∧
    (State.reset.core 0).retired = false ∧ State.reset.groupsOn 0 = [] ∧ 3 ∉ (State.reset.quad 1).badGran ∧ 3 ∉ (State.reset.core 0).badBank := by
  refine ⟨⟨rfl, ?_, ⟨(0, false), ?_, rfl⟩, ?_, ?_⟩, ⟨rfl, ?_, ⟨(0, false), ?_, rfl⟩, ?_, ?_⟩, ⟨rfl, ?_, ⟨(0, false), ?_, rfl⟩, ?_, ?_⟩, ⟨rfl, ?_, ⟨(0, false), ?_, rfl⟩, ?_, ?_⟩,
    ⟨rfl, ?_, ⟨(0, false), ?_, rfl⟩, ?_, ?_⟩, ?_⟩ <;> decide +kernel

/-- A dirty line of the planted group, and a beat that brings the bytes at 1 MiB. -/
def aTag (g : Nat) : Tag := { line := 0x4000, zero := false, ef := false, group := g, below := List.replicate 256 0 }
def beatAt : Beat := { aBeat 3 with pa := 0xFF400 }

/-- Witness of ErrorsAct: lines and beats that are lost. -/
theorem witness_lost : (({ planted with l2 := [aTag 0] } : State).l2 = [aTag 0] ∧ (aTag 0).line = 0x400010 / 256 ∧ planted.ctxs = [] ++ plantCtx 1 fullView :: [] ∧
      (plantCtx 1 fullView).group = (aTag 0).group ∧ ∀ x ∈ planted.ctxs, x.group ≠ (aTag 5).group) ∧
    0x400 ∉ State.reset.badLines ∧ 3 ∉ State.reset.slices ∧ inBeat (aBeat 3) 0x20000001000 16 ∧ inBeat beatAt 0x100000 4 ∧ inBeat beatAt 0x100000 256 ∧
    ({ planted with retRec := { Record.init with wires := List.replicate 32 (1, 3, 1) } } : State).sparesUsed 1 = 32 ∧
    (copyOn true).place orgOf.group 0x100000 (.copy false) = .ok (.dev 0x100000) ∧ ((aCopy true).words.map fun w => w.src) = [some 0x100000] ∧
    mapped.place aFetch.group (256 * aFetch.line) (.copy false) = .ok (.dev 0x100000) ∧ aFetch.line < 2 ^ 90 ∧ scanon Log.init State.reset.alogs = true ∧
    scanon Cluster.init State.reset.clusters = true := by and_intros <;> decide +kernel

/-- A retirement record with a column, a cap, a wire, a lane, a granule, a bank, a core and a cluster. -/
def aRecord : Record :=
  { Record.init with cols := [(9, 3)], caps := [(1, 70)], wires := [(2, 70, 0)], lanes := [(5, 3)], grans := [(5, 7)], banks := [(3, 1)], cores := [4], clusters := [6] }

/-- Witness of PowerAndBootAct: what a boot applies. -/
theorem witness_kept : (let s : State := { State.reset with bootst := 7, flash := [some aRecord, none] };
      s.bootst = 7 ∧ s.flash.filterMap id = [aRecord] ∧ (aRecord.caps.filter fun z => z.1 = 1) = [(1, 70)] ∧ (aRecord.cols.filter fun y => y.1 = 9) = [(9, 3)] ∧
      (s.core 9).deadCol = [] ∧ (s.core 9).colmap = []) ∧
    (let s : State := { State.reset with bootst := 8, flash := [some aRecord, some Record.init] }; s.flash = [some aRecord, some Record.init]) ∧
    (let s : State := { State.reset with bootst := 7, farCap := 3 }; (s.farCap < 4)) ∧ 116 > 115 ∧
    (let r : Req := { aReq ldK (.dev 0x400000) .sent with counted := true }; r.counted = true ∧ r.org.ctx = (plantCtx 1 fullView).id) ∧
    ({ State.reset with verifying := true } : State).verifying = true ∧ ({ State.reset with attGo := true } : State).attGo = true ∧
    ({ State.reset with alarm := none, steps := 2, ns := 100000 } : State).stepAt + 100000 ≤ 100000 := by and_intros <;> decide +kernel

/-- Witness of OperandRules. -/
theorem witness_operands : planted.ctx? aWarp.ctx = some (plantCtx 1 fullView) ∧ planted.block? aWarp.blk = some (plantBlock 3 1 2) ∧ planted.iss.early = [] ∧
    (let h := (plantCtx 1 fullView).h; (plantBlock 3 1 2).lin = 0 + h.gx * (0 + h.gy * 0) ∧ 0 < h.gx ∧ 0 < h.gy ∧ h.args < 2 ^ 52) ∧
    ((handlerSlot.quad pastHnd.q).bank).isSome = true ∧ threeRegs (.iadd c0 .wrap r3) = some r3 ∧ twoRegs (.iabs c0 false r2) = some (r2.d, r2.a) ∧
    Named 1 false 2 62 ∧ ¬Named 1 false 2 64 ∧ Named 1 true 4 764 ∧ ¬Named 1 false 1 704 ∧ Source 1 false 1 782 ∧ ¬Source 1 false 1 783 ∧ Source 1 false 2 780 ∧
    ¬Named 1 false 2 780 ∧ ¬Uniform 640 [768] ∧ Uniform 640 [640, 769] := by
  and_intros <;> first | decide +kernel | (simp only [Named, Source, Uniform, OneValue]; decide +kernel)

/-! ## What no encoding stands for -/

/-- R47: the permute of IABS reads srcB, which it has none of; a mirror by 0 or 6; the permute of SHFL on srcA; of PMOV to a register. -/
theorem test_wf_permute : (Instr.iabs c0 false { r2 with p := .rot 1 .srcB }).wf = false ∧ (Instr.iadd c0 .wrap { r3 with p := .mir 0 .srcA }).wf = false ∧
    (Instr.iadd c0 .wrap { r3 with p := .mir 6 .srcA }).wf = false ∧ (Instr.shfl c0 .up false { r3 with p := .bc 1 .srcA }).wf = false ∧
    (Instr.notify c0 .none 4 6 (.mir 6 .srcB)).wf = false ∧ (Instr.brx c0 6 (.rot 1 .srcB)).wf = false ∧ (Instr.qpop c0 false false { r3 with p := .fly 1 .srcB }).wf = false ∧
    (Instr.pmov c0 false { d := 4, a := 0, p := .rot 1 .srcA }).wf = false := by decide

/-- R182, R187, R193, R263: sizes above 128 bytes' code, a sign extension of a word, byte atomics, .ADD.F32 of a pair, REDO's compare and swap. -/
theorem test_wf_memory : (Instr.ld c0 false .dflt { mAt with size := 5 }).wf = false ∧ (Instr.lds c0 true { mAt with size := 2 }).wf = false ∧
    (Instr.st c0 .dflt { mAt with size := 7 }).wf = false ∧ (Instr.atom c0 .add { mAt with size := 1 }).wf = false ∧
    (Instr.atoms c0 .addF32 { mAt with size := 3 }).wf = false ∧ (Instr.redo c0 .cas mAt).wf = false ∧ (Instr.redo c0 .inc mAt).wf = false ∧
    (Instr.pref c0 false { mAt with data := 1 }).wf = false ∧ (Instr.pref c0 false { mAt with data := 0, size := 3 }).wf = false ∧
    (Instr.zline c0 { mAt with data := 0 }).wf = false ∧ (Instr.zline c0 { mAt with size := 0 }).wf = false := by decide

/-- R150, R153, R158, R164: a rounding mode where none is taken, .SAT of E2M1, an extra value of E4M3, a source that must be zero. -/
theorem test_wf_modifier : (Instr.fcvt c0 .f16f32 .rz r2).wf = true ∧ (Instr.fcvt c0 .f32e4m3 .rz r2).wf = false ∧ (Instr.vred c0 .minF32 .rz r2).wf = false ∧
    (Instr.vscan c0 .addS32 .rup r2).wf = false ∧ (Instr.qenc c0 .e2m1 false true false r3).wf = false ∧ (Instr.qscale c0 .e4m3 false true r2).wf = false ∧
    (Instr.fsign c0 .abs false r3).wf = false ∧ (Instr.qxtra c0 .scl false r3).wf = false ∧ (Instr.umov c0 true false r3).wf = false ∧
    (Instr.pmov c0 true r2).wf = false ∧ (Instr.mmalr c0 (.i8 true false false) 0 0 1 4 0).wf = false := by decide

/-- R299, R301, R304: registers past LWID, a base of an empty range, an index of a kind that has none, events past 11. -/
theorem test_wf_system : (Instr.sysr c0 644 9).wf = false ∧ (Instr.sysw c0 644 9).wf = false ∧ (Instr.livept c0 1 4 0 0 0).wf = false ∧
    (Instr.livept c0 1 0 0 4 0).wf = false ∧ (Instr.hget c0 .pos 4 5).wf = false ∧ (Instr.hset c0 .fpfl 4 5).wf = false ∧ (Instr.pmc c0 644 12).wf = false := by decide

/-- R40, R55: an opcode that the map leaves reserved, a nonzero reserved bit of NOP, a malformed guard. -/
theorem test_refused : decode 0x0021_8000_0000_0000#64 = .error .guard ∧ decode 0xFFC0_0000_0000_0000#64 = .error .instr ∧ decode 0x8600_0000_0000_0001#64 = .error .instr := by
  decide +kernel

/-! ## Words of the spec's examples -/

def cS (n : BitVec 4) : Common := { stall := n, guard := .always }

/-- R42, R111 to R114: words of control and of the vector families. -/
theorem test_words_vector : decode 0x8540_0002_9400_0000#64 = .ok (.cdecl c0 0 660 .none) ∧ decode 0x8580_0000_0000_0000#64 = .ok (.csign c0 0) ∧
    decode 0x4094_0008_0000_4840#64 = .ok (.fmul (cS 5) .rne { d := 2, a := 0, b := 1, p := .rot 1 .srcB }) ∧
    decode 0x8600_0000_0000_0000#64 = .ok (.nop c0) := by decide +kernel

/-- R195, R214, R224, R239: words of copies and the T class. -/
theorem test_words_tile : decode 0xC400_04C0_0000_0000#64 = .ok (.cpybt c0 false 2 24) ∧ decode 0xC440_0200_0000_0000#64 = .ok (.tkwait c0 1) ∧
    decode 0xC000_0000_0002_9000#64 = .ok (.tdef c0 0 656) ∧ decode 0xC0C0_0000_1000_0000#64 = .ok (.tkill c0 1) ∧
    decode 0xC1C0_0000_0000_0001#64 = .ok (.rcfence c0 true) ∧ decode 0xC240_0000_0004_2801#64 = .ok (.mmalr c0 .f16 0 0 1 40 0) ∧
    decode 0xC280_0000_1000_0000#64 = .ok (.adapt c0 0 1 0 0) ∧ decode 0xC2C0_0040_0000_0000#64 = .ok (.aclr c0 1) ∧
    decode 0xC340_0080_0002_8500#64 = .ok (.aflag c0 false 2 645) := by decide +kernel

/-- R182 to R193, R260 to R270, R299 to R303: words of memory and of the S class. -/
theorem test_words_memory : decode 0xA2C0_0003_0800_0000#64 = .ok (.bar c0 false 0 776 .none) ∧ decode 0xA300_0003_0800_0000#64 = .ok (.cbar c0 false 776 .none) ∧
    decode 0xA1C0_0050_1800_0054#64 = .ok (.redo c0 .addF32 { data := 20, base := 24, off := 0, size := 2 }) ∧
    decode 0xA380_007A_8500_8000#64 = .ok (.qpop c0 false false { d := 30, a := 645, b := 2, p := .none }) ∧
    decode 0xE040_000C_0008_0000#64 = .ok (.livept c0 3 0 4 0 0) ∧ decode 0xE080_0A18_0000_0008#64 = .ok (.sysr c0 646 8) ∧
    decode 0xE100_0000_0000_0001#64 = .ok (.hretSkip c0) := by decide +kernel

/-- R31, R33: the headers of the spec's examples. -/
theorem test_headers : decHeader 0x0400_0000_0000_0000#64 = { cls := 0, count := 2, wait := 0, yield := false, stg0b := 0, stg0l := 0, stg1b := 0, stg1l := 0, rsvd := 0 } ∧
    decHeader 0x2404_0010_0808_0000#64 = { cls := 1, count := 2, wait := 2, yield := false, stg0b := 0, stg0l := 16, stg1b := 32, stg1l := 8, rsvd := 0 } ∧
    decHeader 0x0402_0008_0000_0000#64 = { cls := 0, count := 2, wait := 1, yield := false, stg0b := 0, stg0l := 8, stg1b := 0, stg1l := 0, rsvd := 0 } := by decide +kernel

/-! ## Single steps -/

/-- The state after an instruction. -/
def after (i : Instr) (s : State) : State := match exec i s with | .next t => t | _ => State.reset

/-- Register `n` of lane 0 of the one warp. -/
def v0 (s : State) (n : Nat) : Word := (s.warps.map fun w => sget 0 (32 * n) w.v).headD 0

def l0 (s : State) : Lane := (s.warps.map fun w => laneAt w.lanes 0).headD Lane.init

/-- A warp whose v6 and v8 hold `a` and `b` in lane 0. -/
def ab (a b : Word) : Warp := { aWarp with v := (if a = 0 then [] else [(32 * 6, a)]) ++ if b = 0 then [] else [(32 * 8, b)] }

/-- v4 of lane 0 after `i` of `a` and `b`. -/
def out (i : Instr) (a b : Word) : Word := v0 (after i (on (ab a b) i)) 4

/-- R141: a signed sum saturates at the greatest integer; an unsigned difference at zero. -/
theorem test_iadd_saturates : out (.iadd c0 .satS r3) 0x7FFFFFFF 1 = 0x7FFFFFFF ∧ out (.isub c0 .satZ r3) 1 2 = 0 := by decide +kernel

/-- R140: the high half of (−1) × (−1) is 0 signed and 2^32 − 2 unsigned. -/
theorem test_imulh_sign : out (.imulh c0 .s r3) 0xFFFFFFFF 0xFFFFFFFF = 0 ∧ out (.imulh c0 .z r3) 0xFFFFFFFF 0xFFFFFFFF = 0xFFFFFFFE := by decide +kernel

/-- R140: the sign enters an arithmetic shift and not a logical one. -/
theorem test_shifts : out (.ishr c0 r3) 0x80000000 4 = 0xF8000000 ∧ out (.lshr c0 r3) 0x80000000 4 = 0x08000000 := by decide +kernel

/-- R145: 1 + 2 = 3 in FP32; 1 + 2⁻²⁴ rounds to even under RNE and up under RUP. -/
theorem test_fadd_rounds : out (.fadd c0 .rne r3) 0x3F800000 0x40000000 = 0x40400000 ∧ out (.fadd c0 .rne r3) 0x3F800000 0x33800000 = 0x3F800000 ∧
    out (.fadd c0 .rup r3) 0x3F800000 0x33800000 = 0x3F800001 := by decide +kernel

/-- R145: 3 × 2 and −6 ÷ 2 are exact. -/
theorem test_fmul_fdiv : out (.fmul c0 .rne r3) 0x40400000 0x40000000 = 0x40C00000 ∧ out (.fdiv c0 .rne r3) 0xC0C00000 0x40000000 = 0xC0400000 := by decide +kernel

/-- The header 0x4A70 and eight values in v40 to v47 of lane 0. -/
def qencWarp : Warp :=
  { aWarp with v := [(32 * 40, 0x3E800000), (32 * 41, 0x4019999A), (32 * 42, 0xC019999A), (32 * 43, 0x40E00000), (32 * 45, 0x3F800000), (32 * 46, 0xBF400000),
    (32 * 47, 0x40100000), (32 * 60, 0x4A70)] }

/-- R155's worked example: QENC.E2M1.LO of v40 to v47 under the header 0x4A70. -/
theorem test_qenc_example : v0 (after (.qenc c0 .e2m1 false false false { d := 50, a := 40, b := 60, p := .none })
      (on qencWarp (.qenc c0 .e2m1 false false false { d := 50, a := 40, b := 60, p := .none }))) 50 = 0x6B407E81 ∧
    (l0 (after (.qenc c0 .e2m1 false false false { d := 50, a := 40, b := 60, p := .none })
      (on qencWarp (.qenc c0 .e2m1 false false false { d := 50, a := 40, b := 60, p := .none })))).fpfl = 0x14 := by and_intros <;> decide +kernel

/-- R159: SHFL.UP by 1 leaves lane 0 its own value. -/
theorem test_shfl_edge : out (.shfl c0 .up false { r3 with b := 8 }) 5 1 = 5 := by decide +kernel

/-- R140: `srcA < srcB` signed sets the predicate of lane 0. -/
theorem test_iset : ((after (.iset c0 .lt .s { r3 with d := 1 }) (on (ab 0xFFFFFFFF 1) (.iset c0 .lt .s { r3 with d := 1 }))).warps.map fun w => sget 0 1 w.p) = [1#32] := by decide +kernel

/-- R113: a lane that exits is exited. -/
theorem test_exit : (l0 (after (.exit c0) (on aWarp (.exit c0)))).exited = true := by decide +kernel

/-- R303: HRET belongs to a handler: outside, the lane takes illegal-instruction (cause 4) and waits for its handler. -/
theorem test_hret_outside : (l0 (after (.hretRetry c0) (on aWarp (.hretRetry c0)))).park = .trap := by decide +kernel

/-- R151: FSIGN.NEG of a NaN changes the sign bit and no other. -/
theorem test_fsign_neg : out (.fsign c0 .neg false { r3 with b := 0 }) 0x7F800001 0 = 0xFF800001 := by decide +kernel

/-- Witness of DecodeEncodeRoundTrip. -/
theorem witness_encode : (Instr.exit c0).wf = true ∧ (encode (.exit c0)).isSome = true ∧ (Instr.iadd c0 .satS { r3 with p := .mir 5 .srcA }).wf = true ∧
    (encode (.iadd c0 .satS { r3 with p := .mir 5 .srcA })).isSome = true := by decide

/-! ## Lanes that end differently, and what has not committed -/

/-- Instruction `i` issued by lanes 0 and 1. -/
def on2 (s : State) (w : Warp) (i : Instr) : State := { State.at_ s w i with iss := { latch i false with lanes := 3#32 } }

/-- A register of lanes 0 and 1. -/
def two (n : Nat) (a b : Word) : Warp := { aWarp with v := [(32 * n, a), (32 * n + 1, b)] }

/-- Witness of EarlyReadIsOldOrNew: a register due, and what an issue reads. -/
theorem witness_earlyRead : (on earlyWarp (.popc c0 r2)).iss.early = [] ∧ 6 ∈ readKeys (.popc c0 r2) ∧ 5 ∉ readKeys (.popc c0 r2) ∧
    (∃ f ∈ earlyWarp.fixed, f.reg = 6 ∧ (on earlyWarp (.popc c0 r2)).iss.now < f.due) ∧ (∀ f ∈ earlyWarp.fixed, f.reg = 7 → f.due ≤ 0) ∧
    sget none (32 * 6 + 0) ({ planted with iss := { latch (.popc c0 r2) false with early := [(192, some 5#32)] } } : State).iss.early = some 5#32 ∧
    sget none (32 * 6 + 1) ({ planted with iss := { latch (.popc c0 r2) false with early := [(192, some 5#32)] } } : State).iss.early = none := by
  refine ⟨rfl, by decide, by decide, ⟨_, List.mem_singleton.mpr rfl, by decide, by decide⟩, by decide, by decide, by decide⟩

/-- Witness of MovxResult: a lane whose register is out of range beside one whose is not. -/
theorem witness_movxMixed : Acts (.movx c0 4 6 8) (on2 planted (two 8 1000 0) (.movx c0 4 6 8)) (two 8 1000 0) 3#32 ∧
    picked 3#32 (fun l => min 640 (64 * aWarp.gran) ≤ 6 + ((on2 planted (two 8 1000 0) (.movx c0 4 6 8)).reg (two 8 1000 0) 8 l).toNat) = 1#32 := by
  and_intros <;> decide +kernel

/-- Witness of IndirectTransfer: a lane whose target is recorded beside one whose is not. -/
theorem witness_brxMixed : Acts (.brx c0 6 .none) (on2 planted pairWarp (.brx c0 6 .none)) pairWarp 3#32 ∧
    (on2 planted pairWarp (.brx c0 6 .none)).recorded pairWarp (pair (on2 planted pairWarp (.brx c0 6 .none)) pairWarp 6 0).toNat = true ∧
    (on2 planted pairWarp (.brx c0 6 .none)).recorded pairWarp (pair (on2 planted pairWarp (.brx c0 6 .none)) pairWarp 6 1).toNat = false := by
  and_intros <;> decide +kernel

/-- Witness of GlobalAccessChecks: a lane that completes beside one whose address is misaligned. -/
theorem witness_globalMixed : Acts ldAt (on2 mapped (two 6 0x100000 2) ldAt) (two 6 0x100000 2) 3#32 ∧ globalOp (two 6 0x100000 2) 3#32 ldAt ≠ none ∧
    (let q := endsOf (loadLane (two 6 0x100000 2) mAt false false .dflt 0#32) (accessors 3#32 false) (on2 mapped (two 6 0x100000 2) ldAt)
     q.1 = [(0, .done), (1, .trap 6 0 2)]) := by
  refine ⟨by decide +kernel, by simp [globalOp, ldAt], by decide +kernel⟩

/-- Witness of ScratchpadResult: a lane that completes, beside one misaligned and one out of range. -/
theorem witness_scratchMixed : scratchOp (.lds c0 false sAt) = some (sAt, false) ∧
    Acts (.lds c0 false sAt) (on2 planted (two 6 0 2) (.lds c0 false sAt)) (two 6 0 2) 3#32 ∧
    ((on2 planted (two 6 0 2) (.lds c0 false sAt)).block? 3).map (·.badWords) = some [] ∧
    scratchFits sAt (on2 planted (two 6 0 2) (.lds c0 false sAt)) (two 6 0 2) 0 ∧
    scratchAddr sAt (on2 planted (two 6 0 2) (.lds c0 false sAt)) (two 6 0 2) 1 % 4 ≠ 0 ∧
    (on2 planted (two 6 0x10000 0) (.sts c0 sAt)).scratchSize (two 6 0x10000 0) < scratchAddr sAt (on2 planted (two 6 0x10000 0) (.sts c0 sAt)) (two 6 0x10000 0) 0 + 4 := by
  and_intros <;> decide +kernel

/-- Witness of AccumulatorAccess: a row that is none beside one that is. -/
theorem witness_rowsMixed : Acts (.arow c0 1 8 6) (on2 planted (two 6 128 0) (.arow c0 1 8 6)) (two 6 128 0) 3#32 ∧
    picked 3#32 (fun l => 128 ≤ ((on2 planted (two 6 128 0) (.arow c0 1 8 6)).reg (two 6 128 0) 6 l).toNat) = 1#32 := by and_intros <;> decide +kernel

/-- Witness of QueuesPushAndPop: a lane of a queue that is enabled beside one of a queue that is not; an empty queue waits. -/
theorem witness_queuesMixed : (let i : Instr := .qpop c0 true false { d := 4, a := 8, b := 1, p := .none };
      let s := on2 (queueOn i) (two 8 0 1) i;
      Acts i s (two 8 0 1) 3#32 ∧ s.queueOf (two 8 0 1) 0 = .ok 0 ∧ s.queueOf (two 8 0 1) 1 ≠ .ok 0 ∧ (s.wqueue 0).count = 0) ∧
    (let i : Instr := .qpush c0 false { d := 1, a := 6, b := 8, p := .none };
      Acts i (on2 (queueOn i) (two 8 0 1) i) (two 8 0 1) 3#32) := by and_intros <;> decide +kernel

/-- Two warps of one block, each past its header test. -/
def otherWarp : Warp := { pastWarp with id := 5, wi := 1, slot := 1 }
def bothOn : State := { pastOn with warps := [pastWarp, otherWarp] }
def otherOffer : Offer := { anOffer with i := { anIssuer with w := otherWarp } }

/-- Witness of SlotIssuesTheOffer: two warps that are ready. -/
theorem witness_several : Several bothOn 0 ∧ rivals bothOn 0 = [anOffer, otherOffer] ∧ anOffer.i.pace.yielded = false ∧ otherOffer.i.pace.yielded = false ∧
    (bothOn.quad 0).lastSlot = 0 ∧ Several { pastOn with warps := [] } 0 ∧ rivals { pastOn with warps := [] } 0 = [] := by
  have h0 : bothOn.issuers 0 = [anIssuer, { anIssuer with w := otherWarp }] := by decide +kernel
  refine ⟨⟨fun j hj => ?_, fun j hj => ?_, by decide +kernel, by decide +kernel, by decide +kernel, by decide +kernel⟩, by decide +kernel, rfl, rfl, by decide +kernel,
    ⟨fun j hj => ?_, fun j hj => ?_, by decide +kernel, by decide +kernel, by decide +kernel, by decide +kernel⟩, by decide +kernel⟩
  · rw [h0] at hj
    rcases List.mem_cons.mp hj with rfl | hj
    · exact ⟨rfl, rfl, .inr ⟨by decide +kernel, by decide +kernel⟩⟩
    · rw [List.mem_singleton.mp hj]
      exact ⟨rfl, rfl, .inr ⟨by decide +kernel, by decide +kernel⟩⟩
  · rw [h0] at hj
    rcases List.mem_cons.mp hj with rfl | hj
    · decide +kernel
    · rw [List.mem_singleton.mp hj]
      decide +kernel
  · cases (show ({ pastOn with warps := [] } : State).issuers 0 = [] by decide +kernel) ▸ hj
  · cases (show ({ pastOn with warps := [] } : State).issuers 0 = [] by decide +kernel) ▸ hj

/-- What request 9 asks has been issued and has not committed. -/
def aRecent : Recent :=
  { seq := 9, instr := some (.nop c0), warp := 4, hnd := false, issued := 0, commit := 4, stall := 0,
    undo := some { lanes := 1#32, before := aWarp.lanes, regs := [(8, List.replicate 32 7#32)], decl := [], signed := [] } }

def openOn (s : State) : State := s.onQuad 0 fun q => { q with recent := [aRecent] }

/-- Witness of RequestsActs, OrderedReduction, CopyEngine, TileFetcher, MatrixEngineActs: what has committed and what has not. -/
theorem witness_uncommitted : (openOn (netOn (aReq ldK (.dev 0x400000) .sent))).uncommitted orgOf = true ∧
    (netOn (aReq ldK (.dev 0x400000) .sent)).uncommitted orgOf = false ∧ (netOn (redoR 0)).uncommitted (redoR 0).org = false ∧
    (copyOn false).uncommitted (aCopy false).org = false ∧ (aCopy false).ready = true ∧ (defOn (aDef false)).uncommitted (aDef false).org = false ∧
    (matOn (aMat true false)).uncommitted (aMat true false).org = false ∧ (fillOn (aFill false)).uncommitted (aFill false).org = false := by
  and_intros <;> decide +kernel

/-- Witness of CopyEngine: words of a TST, a line that is uncorrectable, and a TST whose tile has not been read. -/
theorem witness_copyWords : 0 < tExtent aRec ∧ tTable aRec = 0 ∧ tTable tabRec ≠ 0 ∧
    ({ mapped with badLines := [0x4000] } : State).badAt (aCopy true) { n := 0, src := some 0x100000, dst := 0x400000 } = true ∧
    (aCopy true).lineWords 0x4000 = none ∧ ({ aCopy true with k := .tst aRec none } : Copy).ready = false ∧
    (let c : Copy := { aCopy true with k := .cpy false [0x100000, 0, 0x400000, 0, 0x10100, 0x10001, 0, 0] };
     (c.lineWords 0x4000).isSome = true ∧ c.done 0 = false) := by and_intros <;> decide +kernel

/-- An operation may run a row that it has not reached where no operation is before it. -/
theorem mayRun_first {s : State} {m : Mat} {i : Nat} (h : i ∉ m.seen) (hs : m.side = none) (hb : s.before m = []) : mayRun s m i :=
  ⟨h, by rw [if_pos hs, hb]; intro e he; cases he⟩

/-- Witness of MatrixEngineActs: an operation whose turn it is, one behind another, and rows that run and are replayed. -/
theorem witness_turn : turn (matOn (aMat true true)) (aMat true true) ∧ mayRun (matOn (aMat true true)) (aMat true true) 0 ∧
    (let m := { aMat true true with id := 31 };
     ¬turn { matOn (aMat true true) with mats := [aMat true true, m] } m) ∧
    (ran (matOn (aMat true true)) (aMat true true) (plantBlock 3 1 2)).held = [] ∧ mayReplay (matOn heldMat) heldMat 5 ∧
    ((matOn (aMat true true)).onCore 0 fun c => { c with colRewrite := true }).cores ≠ [] := by
  have hs : (matOn heldMat).sideAt heldMat 5 = some { bound := 0, kpos := 0, failed := false } := by decide +kernel
  refine ⟨⟨fun x hx => ?_, .inr fun x hx _ _ i _ h => ?_⟩, mayRun_first (by decide) rfl (by decide +kernel), fun h => ?_, by decide +kernel, ⟨by decide, _, hs, by decide +kernel⟩,
    by decide +kernel⟩
  · simp [matOn, mapped] at hx
  · rw [List.mem_singleton.mp (show x ∈ [aMat true true] from hx)] at h
    exact absurd h.1 (by simp [aMat])
  · exact h.1 (aMat true true) (by decide +kernel) (by decide) (by decide) 0 (by decide) (mayRun_first (by decide) rfl (by decide +kernel))

/-- Witness of FrontOfCore: instructions that issue again, and one that is discarded. -/
theorem witness_discards : ((openOn planted).quad 0).open = [aRecent] ∧ aRecent.undo.isSome = true ∧ aRecent.hnd = false ∧ (openOn planted).warp? aRecent.warp = some aWarp ∧
    aWarp.id = aRecent.warp ∧ aWarp.lanes.length = 32 ∧ ([(8, List.replicate 32 7#32)].map (·.1)).Nodup ∧ staying (openOn planted) aWarp.ctx ∧
    keepsBack (openOn planted) 2 aRecent aRecent = 0 := by
  refine ⟨by decide +kernel, by decide, by decide, by decide +kernel, by decide, by decide, by decide, ?_, by decide +kernel⟩
  intro c a b d h
  rw [show (openOn planted).ctx? aWarp.ctx = some (plantCtx 1 fullView) by decide +kernel] at h
  cases h
  intro e
  exact Phase.noConfusion e

/-! ## The device -/

/-- Witness of LaunchesAct: messages that are sent back. -/
theorem witness_turnedAway : ((tagOn 3 []).tagEnt 5).valid = false ∧ ((tagOn 1 []).slotFits ((tagOn 1 []).tagEnt 5)).1 = true ∧
    ((tagOn 1 []).readVa 0 (0x100000 + 48) 4 .read).isOk = true ∧ 256 * field (tagB 1) 24 2 < 257 ∧
    (let s : State := { tagOn 1 [] with tags := [(5, { TagEnt.init with bytes := tagB 1, busy := [0] })] }; 0 ∈ (s.tagEnt 5).busy) := by
  and_intros <;> decide +kernel

/-- Witness of RegistersAct: a ring that is not in near store, and fields out of range. -/
theorem witness_ranges : ({ cmdOn copyB with mem := [] } : State).ringNear WQueue.init = false ∧ (State.reset.wqueue 3).en = false ∧
    InRange ((State.reset.onGrp 5 fun g => { g with cbud := 8, pbud := 100, prsize := 64, cfsize := 64 }).grp 5) ∧ ¬InRange (State.reset.grp 5) := by
  refine ⟨by decide +kernel, rfl, ?_, fun h => ?_⟩
  · exact ⟨by decide +kernel, by decide +kernel, by decide +kernel, by decide +kernel, by decide +kernel, ⟨6, by decide +kernel, by decide, by decide⟩, by decide +kernel,
      by decide +kernel, ⟨6, by decide +kernel, by decide, by decide⟩, by decide +kernel, by decide +kernel⟩
  · exact absurd h.2.1.1 (by decide +kernel)

/-- Witness of InventoryAndDepartures: a core retired as its pass drained, and units that are retired. -/
theorem witness_owed : (let s := State.reset.onCore 0 fun c => { c with inv := .draining 0, retired := true, final := true };
      (s.core 0).inv = .draining 0 ∧ (s.core 0).retired = true ∧ (s.core 0).final = true ∧ s.blocks = []) ∧
    (let s := (State.reset.onCore 0 fun c => { c with badBank := [1], badAcc := [2], badArr := [3], deadCol := [4] }).onQuad 0 fun q => { q with dead := [5], badGran := [6] };
      1 ∈ (s.core 0).badBank ∧ 2 % 32 ∈ (s.core 0).badAcc ∧ 3 % 5 ∈ (s.core 0).badArr ∧ 4 ∈ (s.core 0).deadCol ∧ 5 ∈ (s.quad 0).dead ∧ 6 ∈ (s.quad 0).badGran) ∧
    2 % 32 ∉ (State.reset.core 0).badAcc ∧ 3 % 5 ∉ (State.reset.core 0).badArr := by and_intros <;> decide +kernel

/-- Witness of ErrorsAct: who asked for the bytes of a beat; the firmware that runs and that does not. -/
theorem witness_askers : asksFor ldK 0x100000 = (0x100000, 4) ∧ inBeat beatAt 0x100000 4 ∧ Unsaved State.reset ∧ Unsaved planted ∧
    (flyOn (.copy 0x100000 0x200000 4 [(0, 4)])).place 0 (0x100000 + 0) (.copy false) = .ok (.dev 0x100000) ∧ inBeat beatAt 0x100000 (32 * 1) ∧
    0x100000 % 256 + 32 * 1 ≤ 256 ∧ (flyOn (.xlate 0x100000 0)).net = [] ∧ State.reset.bootst < 8 ∧ 8 ≤ (cmdOn copyB).bootst ∧
    (let s := ctxIs (fun c => { c with phase := .saving true 1 }) (mapped.onGrp 0 fun g => { g with pimg := 0x100000, psize := 65536 });
      s.cgroups.map (·.leaf) = [.none] ∧ (s.grp 0).pimg % 65536 = 0 ∧ 0 < (s.grp 0).psize ∧
      s.place 0 (s.grp 0).pimg (.copy false) = .ok (.dev 0x100000)) ∧ inBeat beatAt 0x100000 65536 := by
  refine ⟨by decide, ⟨by decide, by decide⟩, ?_, ?_, ?_⟩
  · intro c hc; cases hc
  · intro c hc
    rw [List.mem_singleton.mp (show c ∈ [plantCtx 1 fullView] from hc)]
    refine ⟨fun i k h => Phase.noConfusion h, fun g hg => ?_⟩
    rw [List.mem_singleton.mp (show g ∈ planted.cgroups from hg)]
    decide +kernel
  · and_intros <;> decide +kernel

/-- Witness of PowerAndBootAct: what a device that resets reaches. -/
theorem witness_reaches : linesOf (0x1000F0, 32) = [0x1000F0, 0x100100] ∧ fabMapped.place 0 0x100000 (.copy false) = .ok (.fab 2 0x30000100000) ∧
    fabMapped.reaches 0 2 [(0x1000F0, 32)] = some 0x1000F0 ∧ fabMapped.reaches 0 3 [(0x1000F0, 32)] = none ∧ (aCopy true).ranges = [(0x100000, 4), (0x400000, 4)] := by
  and_intros <;> decide +kernel

end Sys2Proof.Tests
end

/-! SUPPORT. The frame of R56 that every instruction acts in, and the order of its causes. -/

namespace Sys2Proof.Machine

open Claims

/-- `i` acts in the frame of R56, with one effect; its description adds to illegal-operand only if it is one of those that ask something of the warp's
block. -/
def InFrame (i : Instr) : Prop :=
  ∃ extra body, (∀ s, exec i s = .next (performWith i extra body s)) ∧ (asksBlock i = false → ∀ s w, extra s w = true)

/-- An instruction whose description adds nothing to illegal-operand. -/
theorem InFrame.of_perform {i : Instr} (body : Warp → Mask → State → State) (h : ∀ s, exec i s = perform i body s) : InFrame i :=
  ⟨_, body, h, fun _ _ _ => rfl⟩

/-- An instruction that asks something of the warp's block. -/
theorem InFrame.of_asks {i : Instr} (hi : asksBlock i = true) (extra : State → Warp → Bool) (body : Warp → Mask → State → State)
    (h : ∀ s, exec i s = .next (performWith i extra body s)) : InFrame i :=
  ⟨extra, body, h, fun hn => absurd hi (hn ▸ Bool.false_ne_true)⟩

/-- Every instruction but those that synchronise on a convergence register acts in the frame of R56. -/
theorem inFrame_of_ordinary {i : Instr} (h : ordinary i = true) : InFrame i := by
  cases i with
  -- V integer (R140)
  | iadd | isub | imul | imulh | imad | imadw | iadd64 | imin | imax | iabs | ishl | ishr | lshr | rot | and | or | xor | andn | popc | clz | brev
  | bfx | bfi | iset | sel | movi | iaddi | movx | movxSt | movxw | lea | idot4 => exact .of_perform _ fun _ => rfl
  | mov c wide r => cases wide <;> exact .of_perform _ fun _ => rfl
  -- V float and narrow (R145, R153)
  | fadd | fsub | fmul | ffma | fmin | fmax | fset | fclass | frcp | frsq | fsqrt | fexp2 | flog2 | fdiv | frnd | fcvt | ftoi | itof | fsign | hfma2
  | hadd2 | hmul2 | qdec | qenc | qscale | qxtra => exact .of_perform _ fun _ => rfl
  -- V cross-lane, predicate and control (R158, R109)
  | shfl | vote | vred | vscan | plop | pmov | umov | bra | brx | call | ret | exit | cdecl | cdeclIss | csign | csignNw | yield | nop | brk
  | trap => exact .of_perform _ fun _ => rfl
  -- M (R182, R259, R260, R263, R268, R270)
  | ld | st | ldro | lds | sts | atom | atoms | redo | fence | roinv | pref | qpush | qpop | notify | gtrig | zline =>
    exact .of_perform _ fun _ => rfl
  | bar | cbar => exact .of_asks rfl _ _ fun _ => rfl
  -- T and copies (R214, R239, R195)
  | tdef | tdefs | tdefa | tkill | tld | tst | trow | rcfence | adpfD | adpfU | adpfInv | adpfInvd | cpy | cpybt | tkwait =>
    exact .of_perform _ fun _ => rfl
  | aclr | arow | arowSt | aflag => exact .of_asks rfl _ _ fun _ => rfl
  -- S (R299)
  | featq | sysr | sysw | hretRetry | hretSkip | hretEsc | hget | hset | clock | pmc => exact .of_perform _ fun _ => rfl
  | livept => exact .of_asks rfl _ _ fun _ => rfl
  -- those that synchronise, and the events, which no word encodes
  | _ => exact absurd h Bool.false_ne_true

section Order

variable {i : Instr} {s : State} {w : Warp} {extra : State → Warp → Bool} {body : Warp → Mask → State → State}

/-- The state whose causes are looked at: an instruction with a guarded lane has voided its block by then (R315). -/
def State.voidBy (s : State) (w : Warp) (i : Instr) : State := if s.guarded w (common i).guard = 0#32 then s else s.void w i

/-- The issue reads no result early (R51): every result that it reads is due, or it is interlocked, or its context is checked. -/
abbrev ReadsNoneEarly (i : Instr) (s : State) (w : Warp) : Prop :=
  (readKeys i).any (w.undue s.iss.now) = false ∨ s.interlocked w s.iss.hnd = true ∨ ((s.ctx? w.ctx).map (·.chk)).getD false = true

theorem lookEarly_skipped (h : ReadsNoneEarly i s w) :
    (if !s.interlocked w s.iss.hnd && !((s.ctx? w.ctx).map (·.chk)).getD false then s.lookEarly w i else s) = s := by
  obtain h | h | h := h
  · rw [lookEarly_none h, ite_self]
  · simp [h]
  · simp [h]

/-- The causes of R56 in their order, of an issue that reads no result early. -/
theorem performWith_causes (hw : s.issWarp = some w) (hl : s.iss.lanes ≠ 0#32) (hq : ReadsNoneEarly i s w) :
    let act := s.guarded w (common i).guard
    performWith i extra body s =
      if act ≠ 0#32 ∧ modeOk i s.iss.hnd = false then trapped (s.voidBy w i) w act tILLEGAL 0 0 0
      else if act ≠ 0#32 ∧ (regsOk i w.gran s.iss.hnd = false ∨ extra (s.voidBy w i) w = false) then trapped (s.voidBy w i) w act tOPERAND 0 0 0
      else if s.interlocked w s.iss.hnd = false ∧ ((s.ctx? w.ctx).map (·.chk)).getD false = true ∧ stallShort w s.iss.now i = true then
        (s.voidBy w i).trapAll w s.iss.lanes tSTALL 0 0 0
      else if act = 0#32 then s.advance w s.iss.lanes
      else (s.voidBy w i).note w act i (body w act (s.voidBy w i)) := by
  unfold performWith
  simp only [hw, hl, if_false, lookEarly_skipped hq]
  by_cases ha : s.guarded w (common i).guard = 0#32
  · simp [ha, State.voidBy, and_assoc]
  · simp [ha, State.voidBy, trapped, and_assoc]

end Order

/-- Settles O10: `exec` runs every ordinary instruction in the frame of R56, whose causes stand in order. -/
theorem causesInOrder : Obligations.CausesInOrder := by
  unfold Obligations.CausesInOrder
  intro i s w act hi hw hl ha hq u
  obtain ⟨extra, body, hexec, hextra⟩ := inFrame_of_ordinary hi
  have hu : u = s.voidBy w i := by simp only [u, ha, State.voidBy]
  have causes := performWith_causes (extra := extra) (body := body) hw hl hq
  simp only [← ha, ← hu] at causes
  rw [hexec, causes]
  refine ⟨?forbidden, ?illegal, ?short, ?unguarded⟩
  case forbidden =>
    intro hn hm
    rw [if_pos ⟨hn, hm⟩]
  case illegal =>
    intro hn hm hr
    rw [if_neg (by simp [hm]), if_pos ⟨hn, .inl hr⟩]
  case short =>
    intro hok hint hchk hst
    obtain hz | ⟨hm, hr, hask⟩ := hok
    · simp [hz, hint, hchk, hst]
    · simp [hm, hr, hextra hask, hint, hchk, hst]
  case unguarded =>
    intro hz hst
    obtain hs | hint := hst
    · simp [hz, hs]
    · simp [hz, hint]

end Sys2Proof.Machine

/-! SUPPORT. What operands name (R8, R37, R39, R41 to R47, R112): what a register field reads, the lanes that permutes and guards pick, and which fields
an instruction may name without illegal-operand. -/

namespace Sys2Proof.Machine

open Claims

section Reading

variable (s : State) (w : Warp) (n l : Nat)

theorem reg_of_v (h : n < 640) : s.reg w n l = sget 0 (32 * n + l) w.v := if_pos h

theorem reg_of_s (h : 640 ≤ n) (h' : n < 704) : s.reg w n l = sget 0 (n - 640) w.s := by
  rw [State.reg, if_neg (by omega), if_pos h']

theorem reg_of_h {b : Bank} (h : 704 ≤ n) (h' : n < 768) (hb : (s.quad w.q).bank = some b) : s.reg w n l = sget 0 (32 * (n - 704) + l) b.h := by
  rw [State.reg, if_neg (by omega), if_neg (by omega), if_pos h', State.bankRegs, hb]

theorem reg_of_special (h : 768 ≤ n) : s.reg w n l = s.special w n l := by
  rw [State.reg, if_neg (by omega), if_neg (by omega), if_neg (by omega)]

/-- Every special value but sv.lane is one value for all lanes of the warp (R8). -/
theorem special_same_in_lanes (k : Nat) (h : n ≠ 768) : s.special w n k = s.special w n l := by
  unfold State.special
  split
  · exact absurd rfl h
  all_goals rfl

end Reading

/-- The block's coordinates in its grid, from its number (R44). -/
theorem coords_of_lin {x y z X Y : Nat} (hx : x < X) (hy : y < Y) :
    (x + X * (y + Y * z)) % X = x ∧ (x + X * (y + Y * z)) / X % Y = y ∧ (x + X * (y + Y * z)) / (X * Y) = z := by
  have hX : (x + X * (y + Y * z)) / X = y + Y * z := by
    rw [Nat.add_mul_div_left _ _ (by omega), Nat.div_eq_of_lt hx, Nat.zero_add]
  refine ⟨?_, ?_, ?_⟩
  · rw [Nat.add_mul_mod_self_left, Nat.mod_eq_of_lt hx]
  · rw [hX, Nat.add_mul_mod_self_left, Nat.mod_eq_of_lt hy]
  · rw [← Nat.div_div_eq_div_mul, hX, Nat.add_mul_div_left _ _ (by omega), Nat.div_eq_of_lt hy, Nat.zero_add]

/-- An address of 52 bits is the pair of its low word and its high 20 bits (R44). -/
theorem pair_of_addr {a : Nat} (h : a < 2 ^ 52) :
    (BitVec.ofNat 32 (a / 2 ^ 32 % 2 ^ 20)).toNat * 2 ^ 32 + (BitVec.ofNat 32 (a % 2 ^ 32)).toNat = a := by
  simp only [BitVec.toNat_ofNat]
  omega

/-- In a group of `g` lanes, a lane's mirror image stands in the same group, as far from its end as the lane from its start (R47). -/
theorem mirror_of_group {g : Nat} (hg : 0 < g) (l : Nat) :
    (l - l % g + (g - 1 - l % g)) / g = l / g ∧ (l - l % g + (g - 1 - l % g)) % g + l % g + 1 = g := by
  have hl : l - l % g = g * (l / g) := by have := Nat.div_add_mod l g; omega
  have hr : g - 1 - l % g < g := by omega
  have := Nat.mod_lt l hg
  rw [hl, Nat.mul_add_div hg, Nat.div_eq_of_lt hr, Nat.mul_add_mod, Nat.mod_eq_of_lt hr]
  omega

/-- The lane that a permute names is the one that R47 describes. -/
theorem perm_lane_reads (p : Perm) (t : Target) {l : Nat} (hl : l < 32) : Reads p t l (p.lane t l) := by
  cases p with
  | none => rfl
  | rot n u =>
    have := n.isLt
    simp only [Reads, Perm.lane]
    split
    · omega
    · rfl
  | bc n u => simp only [Reads, Perm.lane]; split <;> rfl
  | fly n u =>
    simp only [Reads, Perm.lane]
    split
    · exact fun k => Nat.testBit_xor ..
    · rfl
  | mir n u =>
    simp only [Reads, Perm.lane]
    split
    · exact mirror_of_group (Nat.two_pow_pos _) l
    · rfl

/-- Where the issue reads no predicate early, it reads the predicate register. -/
theorem rdP_of_none_early {s : State} (h : s.iss.early = []) (w : Warp) (n l : Nat) : s.rdP w n l = (sget 0 n w.p).getLsbD l := by
  simp only [State.rdP, h, sget_nil, Warp.pred]

/-! ## Legal operands (R42 to R45) -/

/-- How many registers a tuple has: one, a pair or a quad (R43). -/
def Tuple (k : Nat) : Prop := k = 1 ∨ k = 2 ∨ k = 4

theorem tuple_one : Tuple 1 := .inl rfl
theorem tuple_two : Tuple 2 := .inr (.inl rfl)

theorem tuple_dataRegs (z : BitVec 3) : Tuple (dataRegs z) := by
  unfold dataRegs Tuple
  split <;> simp

theorem tuple_wide (b : Bool) : Tuple (if b = true then 2 else 1) := by cases b <;> simp [Tuple]

theorem sizeRegs_eq_dataRegs (z : BitVec 3) : sizeRegs z = dataRegs z := by
  revert z
  decide

section Legal

variable {g : Nat} {hnd : Bool} {i : Instr} {k : Nat} (hk : Tuple k) (f : Fld)

include hk

/-- What is written names registers, whether or not it is read too. -/
theorem written_ok_iff_named (rd : Bool) : (Opnd.mk f k rd true .reg).ok g hnd = true ↔ Named g hnd k f := by
  obtain rfl | rfl | rfl := hk <;> cases hnd <;> simp [Opnd.ok, Named, isS] <;> omega

theorem src_ok_iff_source : (Opnd.src f k).ok g hnd = true ↔ Source g hnd k f := by
  change (Opnd.mk f k true false .reg).ok g hnd = true ↔ _
  obtain rfl | rfl | rfl := hk <;> cases hnd <;> simp [Opnd.ok, Source, Named, isS] <;> omega

theorem vec_ok_iff_perLane : (Opnd.dst f k .vec).ok g hnd = true ↔ PerLane g hnd k f := by
  change (Opnd.mk f k false true .vec).ok g hnd = true ↔ _
  obtain rfl | rfl | rfl := hk <;> cases hnd <;> simp [Opnd.ok, PerLane, Named] <;> omega

/-- A transfer's target names registers, never a special pair (R112). -/
theorem target_ok_iff_named : (Opnd.src f k .nosp).ok g hnd = true ↔ Named g hnd k f := by
  change (Opnd.mk f k true false .nosp).ok g hnd = true ↔ _
  obtain rfl | rfl | rfl := hk <;> cases hnd <;> simp [Opnd.ok, Named, isS] <;> omega

end Legal

theorem pred_dst_ok_iff (f : Fld) (g : Nat) (hnd : Bool) : (Opnd.dst f 1 .pred).ok g hnd = true ↔ f.toNat < 16 := decide_eq_true_iff

/-- The four bits of a predicate number always name a predicate. -/
theorem pred_src_ok (p : BitVec 4) (g : Nat) (hnd : Bool) : (Opnd.src (p.zeroExtend 10) 1 .pred).ok g hnd = true := by
  have hp : (p.zeroExtend 10).toNat = p.toNat := BitVec.toNat_setWidth_of_le (by decide)
  exact decide_eq_true (hp ▸ p.isLt)

theorem isUni_iff (f : Fld) : isUni f.toNat = true ↔ OneValue f := by simp [isUni, isS, OneValue]

theorem uniform_nil (d : Fld) : Uniform d [] := fun _ _ _ h => nomatch h

section Rule

variable {i : Instr} {g : Nat} {hnd : Bool}

/-- Whether the uniform rule asks something of an instruction: it has a destination that may be a uniform or a vector register, and is none of those that
mix them (R45). -/
def ruled (i : Instr) : Bool := !mixes i && (opnds i).any fun o => o.wr && decide (o.k = .reg)

theorem uniOk_of_unruled (h : ruled i = false) : uniOk i = true := by
  simp only [ruled, Bool.and_eq_false_iff, Bool.not_eq_false', List.any_eq_false] at h
  obtain hm | hn := h
  · simp [uniOk, hm]
  · have : ((opnds i).any fun o => o.wr && decide (o.k = .reg) && isS o.f.toNat) = false :=
      List.any_eq_false.mpr fun o ho hs => hn o ho (Bool.and_eq_true_iff.mp hs).1
    simp [uniOk, this]

theorem regsOk_iff_of_unruled (h : ruled i = false) : regsOk i g hnd = true ↔ ∀ o ∈ opnds i, o.ok g hnd = true := by
  simp [regsOk, uniOk_of_unruled h]

/-- `i` writes the `k` registers from `d` on, of sources that each name as many registers as stands beside them, under the uniform rule. -/
def Computes (i : Instr) (d : Fld) (k : Nat) (srcs : List (Fld × Nat)) : Prop :=
  mixes i = false ∧ ∃ rd, opnds i = Opnd.mk d k rd true .reg :: srcs.map fun x => .src x.1 x.2

theorem Computes.regsOk_iff {d : Fld} {k : Nat} {srcs : List (Fld × Nat)} (h : Computes i d k srcs) (hk : Tuple k) (hs : ∀ x ∈ srcs, Tuple x.2) :
    regsOk i g hnd = true ↔ Named g hnd k d ∧ (∀ x ∈ srcs, Source g hnd x.2 x.1) ∧ Uniform d (srcs.map (·.1)) := by
  obtain ⟨hm, rd, ho⟩ := h
  have legal : ((opnds i).all fun o => o.ok g hnd) = true ↔ Named g hnd k d ∧ ∀ x ∈ srcs, Source g hnd x.2 x.1 := by
    rw [ho, List.all_cons, Bool.and_eq_true, written_ok_iff_named hk, List.all_map, List.all_eq_true]
    exact and_congr_right fun _ => forall₂_congr fun x hx => src_ok_iff_source (hs x hx) x.1
  have ruled : uniOk i = true ↔ Uniform d (srcs.map (·.1)) := by
    have choice : uniOk i = true ↔ ¬isS d.toNat = true ∨ ∀ x ∈ srcs.map (·.1), OneValue x := by
      simp [uniOk, hm, ho, Opnd.src, isUni_iff]
    rw [choice, isS_iff, ← imp_iff_not_or, and_imp, Uniform]
  rw [regsOk, Bool.and_eq_true, legal, ruled, and_assoc]

section Sources

variable {d a b : Fld} {k j m : Nat}

theorem Computes.regsOk_iff_two (h : Computes i d k [(a, j), (b, m)]) (hk : Tuple k) (hj : Tuple j) (hm : Tuple m) :
    regsOk i g hnd = true ↔ Named g hnd k d ∧ Source g hnd j a ∧ Source g hnd m b ∧ Uniform d [a, b] := by
  rw [h.regsOk_iff hk (by simp [hj, hm])]
  simp [and_assoc]

theorem Computes.regsOk_iff_one (h : Computes i d k [(a, j)]) (hk : Tuple k) (hj : Tuple j) :
    regsOk i g hnd = true ↔ Named g hnd k d ∧ Source g hnd j a ∧ Uniform d [a] := by
  rw [h.regsOk_iff hk (by simp [hj])]
  simp

theorem Computes.regsOk_iff_none (h : Computes i d k []) (hk : Tuple k) : regsOk i g hnd = true ↔ Named g hnd k d := by
  rw [h.regsOk_iff hk (by simp)]
  simp [uniform_nil]

end Sources

/-- One destination and two sources of a register each. -/
theorem computes_of_threeRegs {r : R3} (h : threeRegs i = some r) : Computes i r.d 1 [(r.a, 1), (r.b, 1)] := by
  cases i with
  | iadd | isub | imul | imulh | imin | imax | ishl | ishr | lshr | rot | and | or | xor | andn | bfx | fadd | fsub | fmul | fmin | fmax | fdiv | hadd2
  | hmul2 => cases h; exact ⟨rfl, false, rfl⟩
  | imad | bfi | idot4 | ffma | hfma2 => cases h; exact ⟨rfl, true, rfl⟩
  | fsign c op => cases op <;> cases h <;> exact ⟨rfl, false, rfl⟩
  | _ => cases h

/-- One destination and one source of a register each. -/
theorem computes_of_twoRegs {d a : Fld} (h : twoRegs i = some (d, a)) : Computes i d 1 [(a, 1)] := by
  cases i with
  | iabs | popc | clz | brev | fclass | frcp | frsq | fsqrt | fexp2 | flog2 | frnd | fcvt | ftoi | itof | iaddi => cases h; exact ⟨rfl, false, rfl⟩
  | mov c wide => cases wide <;> cases h; exact ⟨rfl, false, rfl⟩
  | fsign c op => cases op <;> cases h <;> exact ⟨rfl, false, rfl⟩
  | _ => cases h

/-- A compare writes a predicate. -/
theorem regsOk_of_compare {r : R3} (ho : opnds i = [.dst r.d 1 .pred, .src r.a, .src r.b]) :
    regsOk i g hnd = true ↔ r.d.toNat < 16 ∧ Source g hnd 1 r.a ∧ Source g hnd 1 r.b := by
  rw [regsOk_iff_of_unruled (by simp [ruled, ho, Opnd.dst, Opnd.src]), ho]
  simp [pred_dst_ok_iff, src_ok_iff_source tuple_one]

/-- A store reads its data and the address of `j` registers (R37, R39). -/
theorem regsOk_of_store {m : MOp} {j : Nat} (ho : opnds i = memSt m j) (hj : Tuple j) :
    regsOk i g hnd = true ↔ Source g hnd (dataRegs m.size) m.data ∧ Source g hnd j m.base := by
  rw [regsOk_iff_of_unruled (by simp [ruled, ho, memSt, Opnd.src]), ho]
  simp [memSt, sizeRegs_eq_dataRegs, src_ok_iff_source (tuple_dataRegs m.size), src_ok_iff_source hj]

/-- A load writes its data under the uniform rule, from the address of `j` registers (R37, R39). -/
theorem regsOk_of_load {m : MOp} {j : Nat} (hm : mixes i = false) (ho : opnds i = memLd m j) (hj : Tuple j) :
    regsOk i g hnd = true ↔ Named g hnd (dataRegs m.size) m.data ∧ Source g hnd j m.base ∧ Uniform m.data [m.base] :=
  Computes.regsOk_iff_one ⟨hm, false, by rw [ho, memLd, sizeRegs_eq_dataRegs]; rfl⟩ (tuple_dataRegs m.size) hj

/-- A transfer reads its target from a pair (R112). -/
theorem regsOk_of_transfer {a : Fld} (ho : opnds i = [.src a 2 .nosp]) : regsOk i g hnd = true ↔ Named g hnd 2 a := by
  rw [regsOk_iff_of_unruled (by simp [ruled, ho, Opnd.src]), ho]
  simp [target_ok_iff_named tuple_two]

/-- The eight uniform registers of a copy's descriptor are those from s`b` on (R192, R196). -/
theorem regsOk_of_copy {c : Common} {sc : Bool} {k : BitVec 3} {b : BitVec 6} (h : i = .cpy c sc k b ∨ i = .cpybt c sc k b) :
    regsOk i g hnd = true ↔ b.toNat ≤ 56 := by
  have ho : opnds i = (List.range 8).map fun n => .src (BitVec.ofNat 10 (640 + b.toNat + n)) 1 .uni := by obtain rfl | rfl := h <;> rfl
  have hb := b.isLt
  have legal : ∀ n, n < 8 → ((Opnd.src (BitVec.ofNat 10 (640 + b.toNat + n)) 1 .uni).ok g hnd = true ↔ b.toNat + n < 64) := by
    intro n hn
    have hf : (BitVec.ofNat 10 (640 + b.toNat + n)).toNat = 640 + b.toNat + n := by rw [BitVec.toNat_ofNat]; omega
    change (Opnd.mk (BitVec.ofNat 10 (640 + b.toNat + n)) 1 true false .uni).ok g hnd = true ↔ _
    simp [Opnd.ok, hf, isS]
    omega
  rw [regsOk_iff_of_unruled (by obtain rfl | rfl := h <;> rfl), ho, List.forall_mem_map]
  constructor
  · intro hr
    have := (legal 7 (by decide)).mp (hr 7 (by simp))
    omega
  · intro hr n hn
    have hn := List.mem_range.mp hn
    exact (legal n hn).mpr (by omega)

end Rule

/-- Settles O60: the model's checks, kind by kind, are what the manual says an operand may name. -/
theorem operandRules : Obligations.OperandRules := by
  unfold Obligations.OperandRules
  refine ⟨?registers, ?specials, fun p t l hl => perm_lane_reads p t hl, ?guards, ?three, ?two, ?tuples, ?moves, ?immediates, ?memory, ?transfers, ?copies⟩
  case registers =>
    exact fun s w n l => ⟨reg_of_v s w n l, fun h h' k => ⟨reg_of_s s w n l h h', by rw [reg_of_s _ _ _ _ h h', reg_of_s _ _ _ _ h h']⟩,
      fun b => reg_of_h s w n l⟩
  case specials =>
    intro s w c b l hc hb h v
    have read : ∀ n, 768 ≤ n → s.reg w n l = s.special w n l := fun n hn => reg_of_special s w n l hn
    refine ⟨fun hl => ?lane, fun n k hn _ => ?same, ?_⟩
    case lane =>
      rw [read 768 le_rfl]
      exact Nat.mod_eq_of_lt (hl.trans (by decide))
    case same =>
      rw [read n (by omega), reg_of_special s w n k (by omega), special_same_in_lanes s w n l k (by omega)]
    simp only [v, read, Nat.reduceLeDiff, State.special, hc, hb, h, Option.map_some, Option.getD_some, true_and]
    refine ⟨fun x y z e hx hy => ?coords, pair_of_addr⟩
    obtain ⟨h1, h2, h3⟩ := coords_of_lin (z := z) hx hy
    rw [e, h1, h2, h3]
    exact ⟨rfl, rfl, rfl⟩
  case guards =>
    intro s w l hl he
    simp only [guarded_sub _ _ _ _ hl, State.guardOk, rdP_of_none_early he, Bool.and_true, implies_true, and_self]
  case three => exact fun i r g h hi => (computes_of_threeRegs hi).regsOk_iff_two tuple_one tuple_one tuple_one
  case two => exact fun i d a g h hi => (computes_of_twoRegs hi).regsOk_iff_one tuple_one tuple_one
  case tuples =>
    intro c r g h p
    refine ⟨fun m => ?_, ?_, fun m k => ?_, fun m n => regsOk_of_compare rfl, fun m => regsOk_of_compare rfl, fun m q => ?sel, fun m w => ?shfl⟩
    · exact Computes.regsOk_iff_two ⟨rfl, true, rfl⟩ tuple_two tuple_one tuple_one
    · exact Computes.regsOk_iff_two ⟨rfl, false, rfl⟩ tuple_two tuple_two tuple_two
    · exact Computes.regsOk_iff_two ⟨rfl, false, rfl⟩ tuple_two tuple_two tuple_one
    case sel =>
      rw [regsOk_iff_of_unruled rfl]
      simp [opnds, pred_src_ok, src_ok_iff_source tuple_one, vec_ok_iff_perLane tuple_one]
    case shfl =>
      rw [regsOk_iff_of_unruled rfl]
      simp [opnds, src_ok_iff_source tuple_one, src_ok_iff_source (tuple_wide w), vec_ok_iff_perLane (tuple_wide w)]
  case moves =>
    intro c r g h
    refine ⟨Computes.regsOk_iff_one ⟨rfl, false, rfl⟩ tuple_two tuple_two, fun k m => ?vred, fun k m => ?vscan⟩
    case vred =>
      rw [regsOk_iff_of_unruled rfl]
      simp [opnds, aa, src_ok_iff_source tuple_one, Opnd.dst, written_ok_iff_named tuple_one]
    case vscan =>
      rw [regsOk_iff_of_unruled rfl]
      simp [opnds, src_ok_iff_source tuple_one, vec_ok_iff_perLane tuple_one]
  case immediates =>
    exact fun c d g h => ⟨fun x => Computes.regsOk_iff_none ⟨rfl, false, rfl⟩ tuple_one, fun k x => Computes.regsOk_iff_none ⟨rfl, false, rfl⟩ tuple_two⟩
  case memory =>
    intro c m g h k
    refine ⟨fun x y => regsOk_of_load rfl rfl tuple_two, fun x => regsOk_of_load rfl rfl tuple_two, fun x => regsOk_of_load rfl rfl tuple_one,
      fun x => regsOk_of_store rfl tuple_two, regsOk_of_store rfl tuple_one, ?zline⟩
    rw [regsOk_iff_of_unruled rfl]
    simp [opnds, src_ok_iff_source tuple_two]
  case transfers =>
    exact fun c a x g h => ⟨regsOk_of_transfer rfl, regsOk_of_transfer rfl, fun o => Computes.regsOk_iff_none ⟨rfl, false, rfl⟩ tuple_two⟩
  case copies => exact fun c sc k b g h => ⟨regsOk_of_copy (.inl rfl), regsOk_of_copy (.inr rfl)⟩

end Sys2Proof.Machine

/-! SUPPORT. Where a launch holds its translated code, and what every core then drops of the lines that stood there (R23, R98). -/

namespace Sys2Proof.Machine

open Claims

section Launch

variable {s : State} {h : Img} {b : List Byte} {o : Obj} {c : Code}

/-! ## A launch whose code is a translation just made -/

/-- An image that asks for the portable form takes it for this device's stepping by the newest revision (R15, R28). -/
theorem pickCode_portable (groups : Nat) (hp : (o.kinds 2).isEmpty = false) :
    s.pickCode o 0xFE groups none = .ok (.portable s.stepping.toNat newest false) := by
  simp [State.pickCode, hp]

/-- A translation just made, which the cache did not take, is the code where it fits (R22, R24). -/
theorem codeFor_made {group step rev : Nat} {i : Bool} {r : Made}
    (hp : s.pickCode o h.variant (h.view.getD 2 0) (if h.kind = 2 then some (h.tstep, h.trev) else none) = .ok (.portable step rev i))
    (hok : o.portOk = true) (hc : s.cached (xkey group o.portable step rev h.view) = none) (hf : o.fits h.warps r = true) :
    s.codeFor group h o (some (xkey group o.portable step rev h.view, some r)) = .ok (.inl (transCode step rev i h.warps r)) := by
  rw [State.codeFor, hp]
  simp [hok, hc, hf]

/-- The checks of R360 in their order, up to the code. -/
theorem prepare_code {group img : Nat} {made : Option (XKey × Option Made)} (hr : s.readImage group img = .ok b) (hh : headerOk b = true)
    (hg : (Img.parse b).group = group ∧ (s.grp group).en = true ∧ s.bootst = 8)
    (hv : viewOk s.features (Img.parse b).view (decide ((Img.parse b).kind = 2)) = true) (hl : s.loadObj group (Img.parse b).code = .ok o)
    (hc : s.codeFor group (Img.parse b) o made = .ok (.inl c)) : s.prepare group img 0 made = s.prepLast (Img.parse b) b o c 0 := by
  obtain ⟨hown, hen, hboot⟩ := hg
  simp [State.prepare, hr, hh, hown, hen, hboot, hv, hl, hc]

/-- A fresh image's last checks: what its code needs, its budgets, its initial data (R69, R90, R353). -/
theorem prepLast_fresh (hk : h.kind ≠ 2) (hr : resourcesOk h o c = true) (ha : s.neverAdmits h = false) (hd : s.putData h o = (s, none)) :
    s.prepLast h b o c 0 = (s, .go h o c ([], [], [])) := by
  simp [State.prepLast, hk, hr, ha, hd]

/-! ## What the cores keep -/

theorem touchLine_cores (s : State) (line group : Nat) (zero ef : Bool) : (s.touchLine line group zero ef).cores = s.cores := by
  unfold State.touchLine State.pick
  split
  · rfl
  · split
    · rfl
    · split <;> rfl

theorem moveLine_cores (s : State) (line : Nat) : (s.moveLine line).cores = s.cores := by
  unfold State.moveLine
  split
  · rfl
  · split <;> rfl

theorem writeLine_cores {t : State} {pa group : Nat} {ef : Bool} (hw : s.writeLine pa b group ef = some t) : t.cores = s.cores := by
  simp only [State.writeLine, Option.ite_none_left_eq_some, Option.some.injEq] at hw
  obtain ⟨-, rfl⟩ := hw
  exact (moveLine_cores _ _).trans (touchLine_cores ..)

/-- Code words written to near store leave the cores as their stale lines' going leaves them. -/
theorem putCode_cores (s : State) (pa : Nat) (ws : List Word64) : (s.putCode pa ws).cores = (s.icDrop pa (codeSpan ws)).cores := by
  have keeps : ∀ (ps : List (Nat × List Byte)) (t : State),
      (ps.foldl (fun t p => (t.writeLine p.1 p.2 0xFFFFFFFF false).getD t) t).cores = t.cores := by
    intro ps
    induction ps with
    | nil => exact fun _ => rfl
    | cons p r ih =>
      intro t
      rw [List.foldl_cons, ih]
      cases hw : t.writeLine p.1 p.2 0xFFFFFFFF false with
      | none => rfl
      | some u => exact writeLine_cores hw
  exact keeps _ _

/-- A context's translated code that is not cached is put where the firmware's own range has room (R23, R173). -/
theorem holdCode_room {k : XKey} {a : Nat} (hk : s.cached k = none) (hr : s.codeRoom s.workRange (codeSpan c.words) = some a) :
    s.holdCode k c = (s.putCode a c.words, some a) := by
  simp [State.holdCode, hk, hr]

/-- A fresh launch with translated code that is not cached: no core keeps a line of what stood where the code is put. -/
theorem launch_cores {cmd : Cmd} {img ovr a : Nat} {made : Option (XKey × Option Made)}
    (hp : s.prepare cmd.group img ovr made = (s, .go h o c ([], [], []))) (ht : c.translated = true)
    (hk : s.cached (xkey cmd.group o.portable c.tstep c.trev h.view) = none) (hr : s.codeRoom s.workRange (codeSpan c.words) = some a) :
    (s.launch cmd img ovr made).cores = (s.icDrop a (codeSpan c.words)).cores := by
  have hheld : s.fresh.2.fresh.2.holdCode (xkey cmd.group o.portable c.tstep c.trev h.view) c = (s.fresh.2.fresh.2.putCode a c.words, some a) :=
    holdCode_room hk hr
  simp only [State.launch, hp, State.create, ht, if_true, hheld, savedGroups, List.foldl_nil]
  exact putCode_cores _ a c.words

end Launch

/-! ## A core that still holds a line of code that ended -/

/-- An image of one block of one warp, in the portable form, its object at 12 KiB. -/
def portableImg : Img :=
  { Img.init with kind := 1, code := 0x3000, variant := 0xFE, gran := 1, gx := 1, gy := 1, gz := 1, warps := 1, gsize := 1, cbud := 1, pbud := 10, view := fullView,
                  size := 256 }

/-- The record of a section of a code object that names no steppings: its kind, offset and size. -/
def sectRec (kind off size : Nat) : List Byte := toBytes 8 kind ++ toBytes 8 off ++ toBytes 8 size ++ zeros 8

/-- A code object of one entry whose portable form is an EXIT. -/
def portableObj : List Byte :=
  toBytes 4 0x424F434B ++ toBytes 2 1 ++ toBytes 2 3 ++ toBytes 8 64 ++ toBytes 4 1 ++ toBytes 4 1 ++ toBytes 8 240 ++ zeros 32 ++
    sectRec 2 224 16 ++ sectRec 3 160 32 ++ sectRec 4 192 32 ++ zeros 32 ++ (toBytes 2 0x101 ++ zeros 30) ++ toBytes 16 (0x214 * 2 ^ 118)

/-- The translation: a header and an EXIT. -/
def exitMade : Made := ([plantHeader 0x8500000000000000, 0x8500000000000000], [(0, 1, 0)])

/-- Where the firmware's own range of near store begins (R173). -/
def workBase : Nat := 0x201DC000000

/-- Group 0 maps its first GiB onto itself and holds the image at 8 KiB. Core 0 has fetched a line of translated code from the start of the firmware's range,
whose context has ended since. -/
def holdingLine : State :=
  { State.reset with
    bootst := 8, groups := [(0, { Grp.init with en := true, cbud := 8, pbud := 1000 })]
    mem := writeCells 0x3000 portableObj (writeCells 0x2000 portableImg.bytes [(0, 0x01), (1, 0x10), (0x1000, 0x13)])
    cores := [(0, { Core.init with ic := [(2 ^ 90 + workBase / 256, exitMade.1)] })] }

def portableAt : Obj := { va := 0x3000, raw := portableObj }

/-- The translation asked for. -/
def exitKey : XKey := xkey 0 portableAt.portable 0 newest fullView

def exitCode : Code := transCode 0 newest false 1 exitMade

/-- The command whose launch waited for it. -/
def exitCmd : Cmd := { id := 1, src := .queue 0 0 false, group := 0, k := .xlate 0x2000 0, comp := 0, notify := 0xFFFF }

theorem holdingLine_reads : holdingLine.readImage 0 0x2000 = .ok portableImg.bytes := by decide +kernel
theorem holdingLine_loads : holdingLine.loadObj 0 0x3000 = .ok portableAt := by decide +kernel

theorem parse_portableImg : Img.parse portableImg.bytes = portableImg := by decide +kernel

/-- The launch passes its checks with the translation just made. -/
theorem holdingLine_prepares : holdingLine.prepare 0 0x2000 0 (some (exitKey, some exitMade)) = (holdingLine, .go portableImg portableAt exitCode ([], [], [])) := by
  have hpick : holdingLine.pickCode portableAt portableImg.variant (portableImg.view.getD 2 0)
      (if portableImg.kind = 2 then some (portableImg.tstep, portableImg.trev) else none) = .ok (.portable 0 newest false) :=
    pickCode_portable _ (by decide +kernel)
  have hform : portableAt.portOk = true ∧ portableAt.fits portableImg.warps exitMade = true := by decide +kernel
  have hcode : holdingLine.codeFor 0 portableImg portableAt (some (exitKey, some exitMade)) = .ok (.inl exitCode) :=
    codeFor_made hpick hform.1 rfl hform.2
  have hhead : headerOk portableImg.bytes = true := by decide +kernel
  have hgroup : portableImg.group = 0 ∧ (holdingLine.grp 0).en = true ∧ holdingLine.bootst = 8 := by decide
  have hview : viewOk holdingLine.features portableImg.view (decide (portableImg.kind = 2)) = true := by decide +kernel
  have hneeds : resourcesOk portableImg portableAt exitCode = true ∧ holdingLine.neverAdmits portableImg = false := by decide +kernel
  have hdata : holdingLine.putData portableImg portableAt = (holdingLine, none) := by decide +kernel
  rw [← parse_portableImg] at hgroup hview hcode
  rw [prepare_code holdingLine_reads hhead hgroup hview (parse_portableImg ▸ holdingLine_loads) hcode, parse_portableImg]
  exact prepLast_fresh (by decide) hneeds.1 hneeds.2 hdata

/-- The code is put where the line stood, and core 0 drops it. -/
theorem holdingLine_launch_cores : (holdingLine.launch exitCmd 0x2000 0 (some (exitKey, some exitMade))).cores = [] := by
  have hroom : holdingLine.codeRoom holdingLine.workRange (codeSpan exitCode.words) = some workBase := by decide +kernel
  rw [launch_cores holdingLine_prepares rfl rfl hroom]
  decide +kernel

/-- Refutes O53: the statement lists what a launch with translated code changes, and the cores are not among it; but where the code is put, lines that a core's
instruction cache holds of what stood there before leave it (R98). Core 0 of `holdingLine` holds one. -/
theorem not_launchesAct : ¬ Obligations.LaunchesAct := by
  unfold Obligations.LaunchesAct
  rintro ⟨-, launches, -⟩
  obtain ⟨-, -, starts⟩ := launches holdingLine exitCmd 0x2000 0 (some (exitKey, some exitMade))
  obtain ⟨v, x, y, hlaunch, hv, -⟩ := starts _ _ _ _ _ holdingLine_prepares
  have kept : (holdingLine.launch exitCmd 0x2000 0 (some (exitKey, some exitMade))).cores = holdingLine.cores :=
    calc (holdingLine.launch exitCmd 0x2000 0 (some (exitKey, some exitMade))).cores
      _ = v.cores := by rw [hlaunch]
      _ = holdingLine.cores := by rw [hv]
  rw [holdingLine_launch_cores] at kept
  exact absurd kept (by decide)

end Sys2Proof.Machine

/-! SUPPORT. Which lanes of a warp issue next (R103, R104, R107). -/

namespace Sys2Proof.Machine

open Claims

/-! ## Lowest and greatest of a list -/

theorem le_lowAddr_iff {ls : List Lane} {a : Nat} (ha : a ≤ 2 ^ 64) : a ≤ lowAddr ls ↔ ∀ l ∈ ls, a ≤ l.addr := by
  have fold : ∀ b, a ≤ ls.foldl (fun m l => min m l.addr) b ↔ a ≤ b ∧ ∀ l ∈ ls, a ≤ l.addr := by
    induction ls with
    | nil => simp
    | cons l r ih => intro b; rw [List.foldl_cons, ih]; simp [and_assoc]
  rw [lowAddr, fold, and_iff_right ha]

theorem lowAddr_le {ls : List Lane} {l : Lane} (h : l ∈ ls) : lowAddr ls ≤ l.addr := by
  have bound : lowAddr ls ≤ 2 ^ 64 := by
    have fold : ∀ b, ls.foldl (fun m l => min m l.addr) b ≤ b := by
      clear h
      induction ls with
      | nil => exact fun _ => le_rfl
      | cons x r ih => exact fun b => (ih _).trans (min_le_left ..)
    exact fold _
  exact (le_lowAddr_iff bound).1 le_rfl l h

theorem maxPassed_le_iff {ls : List Lane} {k : Nat} : ls.foldl (fun m l => max m l.passed) 0 ≤ k ↔ ∀ l ∈ ls, l.passed ≤ k := by
  have fold : ∀ b, ls.foldl (fun m l => max m l.passed) b ≤ k ↔ b ≤ k ∧ ∀ l ∈ ls, l.passed ≤ k := by
    induction ls with
    | nil => simp
    | cons l r ih => intro b; rw [List.foldl_cons, ih]; simp [and_assoc]
  rw [fold, and_iff_right (Nat.zero_le k)]

theorem isDue_iff (l : Lane) : l.isDue = true ↔ mayDue l := by
  cases h : l.park <;> simp [Lane.isDue, mayDue, h]

theorem going_iff (l : Lane) : l.going = true ↔ mayGo l := by simp [Lane.going, mayGo]

/-! ## The lanes of a warp -/

section Groups

variable {ls : List Lane} (hlen : ls.length = 32)

include hlen

theorem laneAt_mem {n : Nat} (hn : n < 32) : laneAt ls n ∈ ls := by
  rw [laneAt, List.getD_eq_getElem _ _ (hlen ▸ hn)]
  exact List.getElem_mem _

theorem forall_lane_iff {p : Lane → Prop} : (∀ l ∈ ls, p l) ↔ ∀ n, n < 32 → p (laneAt ls n) := by
  constructor
  · exact fun h n hn => h _ (laneAt_mem hlen hn)
  · intro h l hl
    obtain ⟨n, hn, rfl⟩ := List.getElem_of_mem hl
    simpa [laneAt, hn] using h n (hlen ▸ hn)

theorem lanesAt_iff {p : Lane → Bool} {a n : Nat} (hn : n < 32) :
    (lanesAt ls p a).getLsbD n = true ↔ p (laneAt ls n) = true ∧ (laneAt ls n).addr = a := by
  rw [lanesAt, getLsbD_maskOf _ _ hn]
  simp [hlen, hn]

theorem forall_filter_iff {p : Lane → Bool} {a : Nat} :
    (∀ l ∈ ls.filter p, a ≤ l.addr) ↔ ∀ k, k < 32 → p (laneAt ls k) = true → a ≤ (laneAt ls k).addr := by
  simp only [List.mem_filter, and_imp]
  exact forall_lane_iff hlen (p := fun l => p l = true → a ≤ l.addr)

/-- The lanes that a test picks at the lowest of their addresses. -/
theorem lanesAt_lowest_iff {p : Lane → Bool} (hpos : ∀ n, n < 32 → (laneAt ls n).addr < 2 ^ 64) {n : Nat} (hn : n < 32) :
    (lanesAt ls p (lowAddr (ls.filter p))).getLsbD n = true ↔
      p (laneAt ls n) = true ∧ ∀ k, k < 32 → p (laneAt ls k) = true → (laneAt ls n).addr ≤ (laneAt ls k).addr := by
  rw [lanesAt_iff hlen hn]
  refine and_congr_right fun hp => ?_
  have least : lowAddr (ls.filter p) ≤ (laneAt ls n).addr := lowAddr_le (List.mem_filter.2 ⟨laneAt_mem hlen hn, hp⟩)
  rw [← forall_filter_iff hlen, ← le_lowAddr_iff (hpos n hn).le]
  exact ⟨fun h => h.le, fun h => h.antisymm least⟩

theorem any_isDue_iff : ls.any Lane.isDue = true ↔ ∃ k, k < 32 ∧ mayDue (laneAt ls k) := by
  rw [← not_iff_not, Bool.not_eq_true, List.any_eq_false]
  simp only [isDue_iff, not_exists, not_and]
  exact forall_lane_iff hlen

/-- Released lanes go first, from the lowest position (R107). -/
theorem groupMask_of_due (hpos : ∀ n, n < 32 → (laneAt ls n).addr < 2 ^ 64) (hdue : ∃ k, k < 32 ∧ mayDue (laneAt ls k)) {n : Nat} (hn : n < 32) :
    (groupMask ls).getLsbD n = true ↔ mayDue (laneAt ls n) ∧ ∀ k, k < 32 → mayDue (laneAt ls k) → (laneAt ls n).addr ≤ (laneAt ls k).addr := by
  rw [groupMask, if_pos ((any_isDue_iff hlen).2 hdue), lanesAt_lowest_iff hlen hpos hn]
  simp only [isDue_iff]

section NoneDue

variable (hnone : ∀ k, k < 32 → ¬mayDue (laneAt ls k))

include hnone

theorem groupMask_of_none_due : groupMask ls = lanesAt ls Lane.going (groupAddr ls) := by
  rw [groupMask, if_neg]
  rw [any_isDue_iff hlen]
  exact fun ⟨k, hk, hd⟩ => hnone k hk hd

/-- While no lane has been passed 64 times, those of lowest address go (R103). -/
theorem groupMask_of_low (hpos : ∀ n, n < 32 → (laneAt ls n).addr < 2 ^ 64) (hlow : ∀ k, k < 32 → mayGo (laneAt ls k) → (laneAt ls k).passed < 64)
    {n : Nat} (hn : n < 32) :
    (groupMask ls).getLsbD n = true ↔ mayGo (laneAt ls n) ∧ ∀ k, k < 32 → mayGo (laneAt ls k) → (laneAt ls n).addr ≤ (laneAt ls k).addr := by
  have top : (ls.filter Lane.going).foldl (fun m l => max m l.passed) 0 ≤ 63 := by
    simp only [maxPassed_le_iff, List.mem_filter, and_imp]
    exact (forall_lane_iff hlen (p := fun l => l.going = true → l.passed ≤ 63)).2 fun k hk hg => Nat.le_of_lt_succ (hlow k hk ((going_iff _).1 hg))
  have addr : groupAddr ls = lowAddr (ls.filter Lane.going) := by
    simp only [groupAddr, show ¬64 ≤ (ls.filter Lane.going).foldl (fun m l => max m l.passed) 0 by omega, if_false]
  rw [groupMask_of_none_due hlen hnone, addr, lanesAt_lowest_iff hlen hpos hn]
  simp only [going_iff]

/-- Once a lane has been passed 64 times, the lanes at the lowest address of those passed most often go (R104). -/
theorem groupMask_of_passed (hpos : ∀ n, n < 32 → (laneAt ls n).addr < 2 ^ 64) {m : Nat} (hm : m < 32) (hgo : mayGo (laneAt ls m))
    (h64 : 64 ≤ (laneAt ls m).passed)
    (hmost : ∀ k, k < 32 → mayGo (laneAt ls k) → (laneAt ls k).passed ≤ (laneAt ls m).passed ∧
      ((laneAt ls k).passed = (laneAt ls m).passed → (laneAt ls m).addr ≤ (laneAt ls k).addr)) {n : Nat} (hn : n < 32) :
    (groupMask ls).getLsbD n = true ↔ mayGo (laneAt ls n) ∧ (laneAt ls n).addr = (laneAt ls m).addr := by
  have hmem : laneAt ls m ∈ ls.filter Lane.going := List.mem_filter.2 ⟨laneAt_mem hlen hm, (going_iff _).2 hgo⟩
  have top : (ls.filter Lane.going).foldl (fun m l => max m l.passed) 0 = (laneAt ls m).passed := by
    refine le_antisymm ?_ (maxPassed_le_iff.1 le_rfl _ hmem)
    simp only [maxPassed_le_iff, List.mem_filter, and_imp]
    exact (forall_lane_iff hlen (p := fun l => l.going = true → l.passed ≤ (laneAt ls m).passed)).2
      fun k hk hg => (hmost k hk ((going_iff _).1 hg)).1
  have addr : groupAddr ls = (laneAt ls m).addr := by
    simp only [groupAddr, top, h64, if_true, List.filter_filter]
    refine le_antisymm (lowAddr_le (List.mem_filter.2 ⟨laneAt_mem hlen hm, by simp [going_iff, hgo]⟩)) ?_
    rw [le_lowAddr_iff (hpos m hm).le, forall_filter_iff hlen]
    simp only [Bool.and_eq_true, decide_eq_true_eq, going_iff, and_imp]
    exact fun k hk he hg => (hmost k hk hg).2 he
  rw [groupMask_of_none_due hlen hnone, addr, lanesAt_iff hlen hn, going_iff]

end NoneDue

end Groups

/-- A lane's count after an issue of the lanes `m` (R104). -/
theorem laneAt_passCounts (m : Mask) {ls : List Lane} {n : Nat} (hn : n < ls.length) : ∀ k, laneAt (passCounts m k ls) n =
    { laneAt ls n with passed := if m.getLsbD (k + n) = false ∧ (laneAt ls n).exited = false ∧ (laneAt ls n).park = .run then (laneAt ls n).passed + 1 else 0 } := by
  induction ls generalizing n with
  | nil => simp at hn
  | cons l r ih =>
    intro k
    cases n with
    | zero =>
      simp only [passCounts, laneAt, List.getD_cons_zero, Nat.add_zero]
      by_cases hm : m.getLsbD k = true
      · simp [hm]
      · have hgo : l.going = true ↔ l.exited = false ∧ l.park = .run := going_iff l
        by_cases hg : l.exited = false ∧ l.park = .run <;> simp [hm, hgo, hg]
    | succ n =>
      have := ih (Nat.lt_of_succ_lt_succ hn) (k + 1)
      rw [show k + 1 + n = k + (n + 1) by omega] at this
      simpa [passCounts, laneAt] using this

theorem groupsAreSelected : Claims.GroupsAreSelected := by
  refine ⟨fun ls hlen hpos => ⟨fun hdue n hn => groupMask_of_due hlen hpos hdue hn, fun hnone hlow n hn => groupMask_of_low hlen hnone hpos hlow hn,
    fun m hm hnone hgo h64 hmost n hn => groupMask_of_passed hlen hnone hpos hm hgo h64 hmost hn⟩, fun m ls n hn => ?counts⟩
  case counts => simpa using laneAt_passCounts m hn 0

end Sys2Proof.Machine

/-! SUPPORT. What a word is at its place (R16, R54, R56), what comes before a slot is given, and the record words that a warp comes to read (R207). -/

namespace Sys2Proof.Machine

open Claims

/-- The encoding causes in their order (R54, R56). -/
theorem fate_cases (view : List Nat) (h : Header) (idx : Nat) (x : Word64) :
    let op := (opcodeOf x).toNat
    let misplaced := classOf op ≠ some h.cls.toNat ∨ (op = 0x212 ∧ idx ≠ h.count.toNat + 1)
    (misplaced → fate view h idx x = .clause) ∧
    (¬misplaced → decode x = .error .guard → fate view h idx x = .guard) ∧
    (¬misplaced → decode x = .error .instr → fate view h idx x = .illegal) ∧
    ∀ i, ¬misplaced → decode x = .ok i → fate view h idx x = if (view.getD 2 0).testBit (groupOf op) then .run i else .illegal := by
  intro op misplaced
  have placed : (classOf op ≠ some h.cls.toNat || (decide (op = 0x212) && decide (idx ≠ h.count.toNat + 1))) = true ↔ misplaced := by
    simp [misplaced]
  refine ⟨fun hm => ?_, fun hm hd => ?_, fun hm hd => ?_, fun i hm hd => ?_⟩
  · simp only [fate, op, placed.2 hm, if_true]
  all_goals
    have hm := mt placed.1 hm
    simp only [fate, op, hm, if_false, hd, Bool.false_eq_true]

/-- A word runs only as the instruction that it encodes. -/
theorem decode_of_fate {view : List Nat} {h : Header} {idx : Nat} {x : Word64} {i : Instr} (hf : fate view h idx x = .run i) : decode x = .ok i := by
  simp only [fate] at hf
  split at hf
  · cases hf
  · cases hd : decode x with
    | error e => cases e <;> simp [hd] at hf
    | ok j =>
      simp only [hd] at hf
      split at hf
      · cases hf; rfl
      · cases hf

/-! ## Offers -/

section Offers

variable {s : State} {j : Issuer} {o : Offer}

/-- An offer comes from a context whose header and word have come and are in order. -/
theorem offer_eq_some (h : s.offer j = some o) : ∃ c hx x, groupMask j.lanes ≠ 0#32 ∧ s.ctx? j.w.ctx = some c ∧ j.pos.2 ≠ 0 ∧ c.recorded j.pos.1 = true ∧
    s.codeWord c j.w.core j.pos.1 = some hx ∧ s.codeWord c j.w.core (j.pos.1 + 8 * j.pos.2) = some x ∧ s.headerBad j c j.pos.1 (decHeader hx) = false ∧
    o = { i := j, m := groupMask j.lanes, sync := j.lanes.any Lane.isDue, hdr := j.pos.1, idx := j.pos.2, h := decHeader hx, word := x,
          fate := fate c.h.view (decHeader hx) j.pos.2 x } := by
  unfold State.offer at h
  dsimp only at h
  split at h
  · cases h
  next hm =>
    split at h
    · cases h
    next c hc =>
      split at h
      · cases h
      next hp =>
        simp only [Bool.or_eq_true, decide_eq_true_eq, Bool.not_eq_true', not_or, Bool.not_eq_false] at hp
        split at h
        next hx x hhx hxx =>
          split at h
          · cases h
          next hb =>
            cases h
            exact ⟨c, hx, x, hm, hc, hp.1, hp.2, hhx, hxx, by simpa using hb, rfl⟩
        · cases h

theorem offer_issuer (h : s.offer j = some o) : o.i = j := by
  obtain ⟨_, _, _, -, -, -, -, -, -, -, rfl⟩ := offer_eq_some h
  rfl

theorem offer_mask (h : s.offer j = some o) : o.m = groupMask j.lanes ∧ (o.hdr, o.idx) = j.pos ∧ o.sync = j.lanes.any Lane.isDue := by
  obtain ⟨_, _, _, -, -, -, -, -, -, -, rfl⟩ := offer_eq_some h
  exact ⟨rfl, rfl, rfl⟩

theorem offer_decodes {i : Instr} (h : s.offer j = some o) (hf : o.fate = .run i) : decode o.word = .ok i := by
  obtain ⟨_, _, _, -, -, -, -, -, -, -, rfl⟩ := offer_eq_some h
  exact decode_of_fate hf

theorem offer_idle (h : groupMask j.lanes = 0#32) : s.offer j = none := by simp [State.offer, h]

/-! ## What a cycle begins with -/

/-- An issuer that owes no acquire and whose group, where it has one, stands past its header test with its word come. -/
def Past (s : State) (j : Issuer) : Prop := j.w.acq = false ∧ (groupMask j.lanes = 0#32 ∨ (j.pos.2 ≠ 0 ∧ (s.offer j).isSome = true))

theorem Past.payAcquire (h : Past s j) : s.payAcquire j.w = s := by simp [State.payAcquire, h.1]

theorem Past.headerTest (h : Past s j) : s.headerTest j = s := by
  obtain ⟨-, hm | ⟨-, ho⟩⟩ := h
  · simp [State.headerTest, hm]
  · obtain ⟨o, ho⟩ := Option.isSome_iff_exists.1 ho
    obtain ⟨c, hx, x, hm, hc, hp, hr, hhx, -, hb, -⟩ := offer_eq_some ho
    simp [State.headerTest, hm, hc, hr, hhx, hb, hp]

theorem Past.wordFetch (h : Past s j) : s.wordFetch j = s := by
  obtain ⟨-, hm | ⟨-, ho⟩⟩ := h
  · simp [State.wordFetch, hm]
  · obtain ⟨o, ho⟩ := Option.isSome_iff_exists.1 ho
    obtain ⟨c, hx, x, hm, hc, hp, hr, hhx, hxx, -, -⟩ := offer_eq_some ho
    simp [State.wordFetch, hm, hc, hr, hhx, hxx]

theorem past_of_idle {q : Nat} (h : Idle s q j) : Past s j := ⟨h.paid, .inl h.empty⟩

end Offers

theorem foldl_unchanged {α β : Type} {f : β → α → β} {b : β} {l : List α} (h : ∀ a ∈ l, f b a = b) : l.foldl f b = b := by
  induction l with
  | nil => rfl
  | cons a r ih => rw [List.foldl_cons, h a (List.mem_cons_self ..), ih fun x hx => h x (List.mem_cons_of_mem _ hx)]

/-- The offers of a quadrant that are ready at a cycle. -/
def State.offersAt (s : State) (q now : Nat) : List Offer := ((s.issuers q).filterMap s.offer).filter fun o => s.ready o now

/-- The cycle's slot is to be given. -/
def State.slotDue (s : State) (q now : Nat) : Bool := decide ((s.quad q).slotAt ≤ now)

/-- The offer that a cycle's slot goes to. -/
def State.winner (s : State) (q now : Nat) : Option Offer :=
  if s.slotDue q now then choose (s.quad q).lastSlot now ((s.offersAt q now).filter s.eligible) else none

/-- The blocks that count a missed cycle (R306). -/
def State.missed (s : State) (q now : Nat) : State :=
  (blocksOf ((s.offersAt q now).filter fun x => some x ≠ s.winner q now)).foldl (fun s k => s.countMissed q now k) s

/-- A cycle whose ready issuers are noted: blocks count what they missed, and the slot is given where it is due. -/
def State.giveSlot (s : State) (q now : Nat) : State :=
  if s.slotDue q now then (s.missed q now).slot q now ((s.missed q now).quad q).beats ((s.missed q now).issuers q) (s.offersAt q now) else s.missed q now

/-- The rest of a cycle, once headers are tested and words fetched. -/
def State.slotCycle (s : State) (q now : Nat) : State := (s.noteReady (s.issuers q) (s.offersAt q now) now).giveSlot q now

/-- ISSUE_SLOT where every issuer stands past its header test with its word come. -/
theorem exec_issueSlot {s : State} {q : Nat} (hrw : (s.quad q).rewriting = false) (hoff : s.quadOff q = false) (hpast : ∀ j ∈ s.issuers q, Past s j) :
    exec (.issueSlot q) s = .next ((((s.issuers q).foldl (fun s j => s.recFetch j) s).slotCycle q (s.quad q).cycle).onQuad q
      fun x => { x with cycle := x.cycle + 1 }) := by
  have pays : (s.issuers q).foldl (fun s j => s.payAcquire j.w) s = s := foldl_unchanged fun j hj => (hpast j hj).payAcquire
  have tests : (s.issuers q).foldl (fun s j => s.headerTest j) s = s := foldl_unchanged fun j hj => (hpast j hj).headerTest
  have fetches : (s.issuers q).foldl (fun s j => s.wordFetch j) s = s := foldl_unchanged fun j hj => (hpast j hj).wordFetch
  change execIssueSlot q s = _
  simp only [execIssueSlot, hrw, hoff, pays, tests, fetches, Bool.false_eq_true, if_false]
  rfl

/-! ## Words of a record (R207) -/

/-- A look at a record reads words of it into the warp's own, and moves the counter of free values. -/
theorem recLook_reads (s : State) (w : Warp) (a : Nat) : ∃ (n : Nat) (f : Warp → List (Nat × List Byte)),
    s.recLook w a = { s with free := n, warps := s.warps.map fun x => { x with recs := f x } } ∧ ∀ x, x.id ≠ w.id → f x = x.recs := by
  have same : ∀ n, ({ s with free := n, warps := s.warps.map fun x => { x with recs := x.recs } } : State) = { s with free := n } := by simp
  unfold State.recLook
  split
  · exact ⟨s.free, (·.recs), (same _).symm, fun _ _ => rfl⟩
  generalize List.range 8 = ks
  suffices step : ∀ t : State, (∃ (n : Nat) (f : Warp → List (Nat × List Byte)), t = { s with free := n, warps := s.warps.map fun x => { x with recs := f x } } ∧ ∀ x, x.id ≠ w.id → f x = x.recs) →
      ∃ (n : Nat) (f : Warp → List (Nat × List Byte)), ks.foldl (fun s k =>
        let d := s.draw
        if !d.1 || (w.recs.any fun x => x.1 = a + 8 * k) then d.2
        else match d.2.readVa (s.groupOf w) (a + 8 * k) 8 .read with
          | .ok b => d.2.onWarp w.id fun x => { x with recs := (a + 8 * k, b) :: x.recs }
          | .error _ => d.2) t = { s with free := n, warps := s.warps.map fun x => { x with recs := f x } } ∧ ∀ x, x.id ≠ w.id → f x = x.recs from
    step s ⟨s.free, (·.recs), (same _).symm, fun _ _ => rfl⟩
  induction ks with
  | nil => exact fun t h => h
  | cons k r ih =>
    rintro t ⟨n, f, rfl, hf⟩
    rw [List.foldl_cons]
    apply ih
    dsimp only
    split
    · exact ⟨n + 1, f, rfl, hf⟩
    · split
      next b _ =>
        refine ⟨n + 1, fun x => if x.id = w.id then (a + 8 * k, b) :: f x else f x, ?_, fun x hx => by simp [hx, hf x hx]⟩
        simp only [State.draw, State.onWarp, List.map_map]
        congr 1
        refine List.map_congr_left fun x _ => ?_
        by_cases hx : x.id = w.id <;> simp [hx]
      · exact ⟨n + 1, f, rfl, hf⟩

theorem recFetch_reads (s : State) (i : Issuer) : ∃ (n : Nat) (f : Warp → List (Nat × List Byte)),
    s.recFetch i = { s with free := n, warps := s.warps.map fun x => { x with recs := f x } } ∧ ∀ x, x.id ≠ i.w.id → f x = x.recs := by
  have keeps : ∃ (n : Nat) (f : Warp → List (Nat × List Byte)),
      s = { s with free := n, warps := s.warps.map fun x => { x with recs := f x } } ∧ ∀ x, x.id ≠ i.w.id → f x = x.recs :=
    ⟨s.free, (·.recs), by simp, fun _ _ => rfl⟩
  have reads : ∀ a, ∃ (n : Nat) (f : Warp → List (Nat × List Byte)), (if i.hnd then s else s.recLook i.w a) =
      { s with free := n, warps := s.warps.map fun x => { x with recs := f x } } ∧ ∀ x, x.id ≠ i.w.id → f x = x.recs := fun a => by
    split
    · exact keeps
    · exact recLook_reads s i.w a
  unfold State.recFetch
  split
  · split
    · exact reads _
    · exact reads _
    · exact reads _
    · exact keeps
  · exact keeps

theorem recFetch_quads (s : State) (i : Issuer) : (s.recFetch i).quads = s.quads := by
  obtain ⟨_, _, h, -⟩ := recFetch_reads s i
  rw [h]

theorem foldl_recFetch_quads (l : List Issuer) (s : State) : (l.foldl (fun s j => s.recFetch j) s).quads = s.quads := by
  induction l generalizing s with
  | nil => rfl
  | cons j r ih => rw [List.foldl_cons, ih, recFetch_quads]

end Sys2Proof.Machine

/-! SUPPORT. Updates of a quadrant and of warps put together, and what a change of paces leaves (R105). -/

namespace Sys2Proof.Machine

open Claims

/-! ## Updates of one quadrant -/

section Quads

variable {s : State} {q : Nat}

theorem onQuad_congr {f g : Quad → Quad} (h : f (s.quad q) = g (s.quad q)) : s.onQuad q f = s.onQuad q g := by
  have value : f (sget Quad.init q s.quads) = g (sget Quad.init q s.quads) := h
  simp only [State.onQuad, supd, value]

/-- Two updates of a quadrant of a canonical state are one. -/
theorem onQuad_onQuad (hc : scanon Quad.init s.quads = true) (f g : Quad → Quad) : (s.onQuad q f).onQuad q g = s.onQuad q fun x => g (f x) := by
  have quads : supd Quad.init q g (supd Quad.init q f s.quads) = supd Quad.init q (fun x => g (f x)) s.quads := by
    refine canon_ext (supd_canon (supd_canon hc q f) q g) (supd_canon hc q _) fun k => ?_
    simp only [sget_supd]
    split <;> simp
  simp only [State.onQuad, quads]

theorem onQuad_unchanged (hc : scanon Quad.init s.quads = true) {f : Quad → Quad} (h : f (s.quad q) = s.quad q) : s.onQuad q f = s := by
  have quads : supd Quad.init q f s.quads = s.quads := by
    refine canon_ext (supd_canon hc q f) hc fun k => ?_
    rw [sget_supd]
    split
    next hk => subst hk; exact h
    · rfl
  simp only [State.onQuad, quads]

theorem onQuad_canon (hc : scanon Quad.init s.quads = true) (k : Nat) (f : Quad → Quad) : scanon Quad.init (s.onQuad k f).quads = true := supd_canon hc k f

theorem quad_onQuad_same (f : Quad → Quad) : (s.onQuad q f).quad q = f (s.quad q) := by rw [quad_onQuad, if_pos rfl]

theorem onWarp_unchanged {n : Nat} {f : Warp → Warp} (h : ∀ v ∈ s.warps, v.id = n → f v = v) : s.onWarp n f = s := by
  have warps : (s.warps.map fun w => if w.id = n then f w else w) = s.warps := by
    conv_rhs => rw [← List.map_id s.warps]
    refine List.map_congr_left fun v hv => ?_
    split
    next hn => exact h v hv hn
    · rfl
  simp only [State.onWarp, warps]

end Quads

/-! ## A change of paces -/

/-- `f` on the pace of each warp, by its identity, and `g` on that of quadrant `q`'s handler. -/
def Warp.repaced (w : Warp) (f : Nat → Pace → Pace) : Warp := { w with pace := f w.id w.pace }
def Bank.repaced (b : Bank) (g : Pace → Pace) : Bank := { b with pace := g b.pace }
def Quad.repaced (x : Quad) (g : Pace → Pace) : Quad := { x with bank := x.bank.map fun b => b.repaced g }
def State.repaced (s : State) (q : Nat) (f : Nat → Pace → Pace) (g : Pace → Pace) : State :=
  ({ s with warps := s.warps.map fun w => w.repaced f } : State).onQuad q fun x => x.repaced g

/-- The same on an issuer and on an offer. -/
def Issuer.repaced (j : Issuer) (f : Nat → Pace → Pace) (g : Pace → Pace) : Issuer :=
  { j with w := j.w.repaced f, pace := if j.hnd then g j.pace else f j.w.id j.pace }
def Offer.repaced (o : Offer) (f : Nat → Pace → Pace) (g : Pace → Pace) : Offer := { o with i := o.i.repaced f g }

section Repaced

variable {s : State} {q : Nat} {f : Nat → Pace → Pace} {g : Pace → Pace}

theorem repaced_quad (k : Nat) : (s.repaced q f g).quad k = if k = q then (s.quad q).repaced g else s.quad k := quad_onQuad ..

theorem repaced_beats (k : Nat) : ((s.repaced q f g).quad k).beats = (s.quad k).beats := by
  rw [repaced_quad]
  split
  next hk => subst hk; rfl
  · rfl

theorem repaced_interlocked (w : Warp) (hnd : Bool) : (s.repaced q f g).interlocked (w.repaced f) hnd = s.interlocked w hnd := by
  have := repaced_beats (s := s) (q := q) (f := f) (g := g) w.q
  unfold State.interlocked
  rw [show (w.repaced f).q = w.q from rfl, this]
  rfl

theorem repaced_mayIssue (w : Warp) : (s.repaced q f g).mayIssue (w.repaced f) = s.mayIssue w := rfl

theorem repaced_warp? (n : Nat) : (s.repaced q f g).warp? n = (s.warp? n).map fun w => w.repaced f := by
  change (s.warps.map fun w => w.repaced f).find? _ = _
  rw [List.find?_map]
  rfl

/-- The issuers of the quadrant are the same, at their new paces. -/
theorem repaced_issuers : (s.repaced q f g).issuers q = (s.issuers q).map fun j => j.repaced f g := by
  unfold State.issuers
  rw [List.map_append, List.map_map]
  congr 1
  · change List.map _ (List.filter _ (s.warps.map fun w => w.repaced f)) = _
    rw [List.filter_map, List.map_map]
    rfl
  · rw [repaced_quad, if_pos rfl]
    cases hb : (s.quad q).bank with
    | none => simp [Quad.repaced, hb]
    | some b =>
      simp only [Quad.repaced, hb, Option.map_some, repaced_warp?, Bank.repaced]
      cases hw : s.warp? b.warp with
      | none => rfl
      | some w =>
        by_cases hm : s.mayIssue w = true
        · simp only [Option.map_some, repaced_mayIssue, hm, if_true]
          rfl
        · simp only [Option.map_some, repaced_mayIssue, hm, if_false, List.map_nil, Bool.false_eq_true]

/-- An issuer offers the same, at its new pace. -/
theorem repaced_offer (j : Issuer) : (s.repaced q f g).offer (j.repaced f g) = (s.offer j).map fun o => o.repaced f g := by
  unfold State.offer
  dsimp only
  rw [show (j.repaced f g).lanes = j.lanes from rfl, show (j.repaced f g).pos = j.pos from rfl,
    show (s.repaced q f g).ctx? (j.repaced f g).w.ctx = s.ctx? j.w.ctx from rfl]
  split
  · rfl
  · cases hc : s.ctx? j.w.ctx with
    | none => rfl
    | some c =>
      dsimp only
      split
      · rfl
      · change (match s.codeWord c j.w.core j.pos.1, s.codeWord c j.w.core (j.pos.1 + 8 * j.pos.2) with
          | some hx, some x => _
          | _, _ => _) = _
        cases s.codeWord c j.w.core j.pos.1 with
        | none => rfl
        | some hx =>
          cases s.codeWord c j.w.core (j.pos.1 + 8 * j.pos.2) with
          | none => rfl
          | some x =>
            have hbad : (s.repaced q f g).headerBad (j.repaced f g) c j.pos.1 (decHeader hx) = s.headerBad j c j.pos.1 (decHeader hx) := by
              unfold State.headerBad
              rw [show (j.repaced f g).w = j.w.repaced f from rfl, show (j.repaced f g).hnd = j.hnd from rfl, repaced_interlocked]
              rfl
            dsimp only
            rw [hbad]
            split <;> rfl

/-- What readiness and choice read of a pace, but for the time of readiness. -/
def Pace.rest (p : Pace) : Nat × Nat × Bool × Nat := (p.notBefore, p.readyFrom, p.yielded, p.starved)

variable (hf : ∀ n p, (f n p).rest = p.rest) (hg : ∀ p, (g p).rest = p.rest)

include hf hg

theorem repaced_rest (j : Issuer) : (j.repaced f g).pace.rest = j.pace.rest := by
  unfold Issuer.repaced
  dsimp only
  split
  · exact hg _
  · exact hf _ _

/-- An offer is as ready at its new pace. -/
theorem repaced_ready (o : Offer) (now : Nat) : (s.repaced q f g).ready (o.repaced f g) now = s.ready o now := by
  have hrest := repaced_rest hf hg o.i
  simp only [Pace.rest, Prod.mk.injEq] at hrest
  obtain ⟨hbefore, hfrom, -, -⟩ := hrest
  have hkeys : ∀ ks, (s.repaced q f g).keysHeld (o.i.w.repaced f) o.i.hnd ks now = s.keysHeld o.i.w o.i.hnd ks now := by
    intro ks
    unfold State.keysHeld
    rw [repaced_interlocked]
    rfl
  have hheld : ∀ i, (s.repaced q f g).held (o.i.w.repaced f) o.i.hnd o.m i now = s.held o.i.w o.i.hnd o.m i now := by
    intro i
    unfold State.held State.regsHeld
    rw [hkeys]
    rfl
  unfold State.ready
  rw [show (o.repaced f g).i = o.i.repaced f g from rfl, show (o.repaced f g).fate = o.fate from rfl, show (o.repaced f g).word = o.word from rfl,
    show (o.repaced f g).arrives = o.arrives from rfl, show (o.repaced f g).m = o.m from rfl, hbefore, hfrom,
    show (o.i.repaced f g).w = o.i.w.repaced f from rfl, show (o.i.repaced f g).hnd = o.i.hnd from rfl, show (o.i.repaced f g).movx = o.i.movx from rfl,
    repaced_interlocked]
  cases o.fate with
  | run i => simp only [hkeys, hheld]
  | illegal => simp only [hkeys]
  | clause | guard => rfl

theorem repaced_eligible (o : Offer) : (s.repaced q f g).eligible (o.repaced f g) = s.eligible o := by
  have hrest := repaced_rest hf hg o.i
  simp only [Pace.rest, Prod.mk.injEq] at hrest
  obtain ⟨-, -, -, hstarved⟩ := hrest
  unfold State.eligible
  rw [show (o.repaced f g).i.pace.starved = o.i.pace.starved from hstarved]
  rfl

/-- The ready offers are the same, at their new paces. -/
theorem repaced_offersAt (now : Nat) : (s.repaced q f g).offersAt q now = (s.offersAt q now).map fun o => o.repaced f g := by
  have offers : (s.issuers q).filterMap (fun j => (s.repaced q f g).offer (j.repaced f g)) =
      ((s.issuers q).filterMap s.offer).map fun o => o.repaced f g := by
    rw [List.map_filterMap]
    exact List.filterMap_congr fun j _ => repaced_offer j
  unfold State.offersAt
  rw [repaced_issuers, List.filterMap_map]
  change List.filter _ ((s.issuers q).filterMap fun j => (s.repaced q f g).offer (j.repaced f g)) = _
  rw [offers, List.filter_map]
  congr 1
  exact List.filter_congr fun o _ => repaced_ready hf hg o now

theorem repaced_eligibles (now : Nat) : ((s.repaced q f g).offersAt q now).filter (s.repaced q f g).eligible =
    ((s.offersAt q now).filter s.eligible).map fun o => o.repaced f g := by
  rw [repaced_offersAt hf hg, List.filter_map]
  congr 1
  exact List.filter_congr fun o _ => repaced_eligible hf hg o

end Repaced

end Sys2Proof.Machine

/-! SUPPORT. Paces changed one issuer after another, and the offer that R105's order puts first. -/

namespace Sys2Proof.Machine

open Claims

/-! ## One issuer, and one issuer after another -/

section Pace

variable {s : State} {q : Nat}

/-- The change of paces that concerns one issuer. -/
def Issuer.warpPart (i : Issuer) (k : Pace → Pace) (n : Nat) (p : Pace) : Pace := if i.hnd = false ∧ i.w.id = n then k p else p
def Issuer.bankPart (i : Issuer) (k : Pace → Pace) (p : Pace) : Pace := if i.hnd = true then k p else p

theorem repaced_quads_canon (hc : scanon Quad.init s.quads = true) (f : Nat → Pace → Pace) (g : Pace → Pace) :
    scanon Quad.init (s.repaced q f g).quads = true := supd_canon hc q fun x => x.repaced g

theorem repaced_id (hc : scanon Quad.init s.quads = true) : s.repaced q (fun _ p => p) (fun p => p) = s := by
  have warps : (s.warps.map fun w => w.repaced fun _ p => p) = s.warps := List.map_id s.warps
  unfold State.repaced
  rw [warps]
  exact onQuad_unchanged hc (by cases s.quad q; simp [Quad.repaced, Bank.repaced])

theorem repaced_congr {f f' : Nat → Pace → Pace} {g g' : Pace → Pace} (hf : ∀ n p, f n p = f' n p) (hg : ∀ p, g p = g' p) :
    s.repaced q f g = s.repaced q f' g' := by
  rw [show f = f' from funext₂ hf, show g = g' from funext hg]

theorem repaced_repaced (hc : scanon Quad.init s.quads = true) (f f' : Nat → Pace → Pace) (g g' : Pace → Pace) :
    (s.repaced q f g).repaced q f' g' = s.repaced q (fun n p => f' n (f n p)) (fun p => g' (g p)) := by
  let t : State := { s with warps := s.warps.map fun w => w.repaced fun n p => f' n (f n p) }
  have warps : ((s.warps.map fun w => w.repaced f).map fun w => w.repaced f') = t.warps := List.map_map ..
  have quads : ((t.onQuad q fun x => x.repaced g).onQuad q fun x => x.repaced g') = t.onQuad q fun x => x.repaced fun p => g' (g p) := by
    rw [onQuad_onQuad (s := t) hc]
    congr 1
    funext x
    simp [Quad.repaced, Bank.repaced, Function.comp_def]
  change ({ (t.onQuad q fun x => x.repaced g).onQuad q fun x => x.repaced g' with warps := (s.warps.map fun w => w.repaced f).map fun w => w.repaced f' } : State) = _
  rw [warps, quads]
  rfl

theorem pace_eq_repaced (hc : scanon Quad.init s.quads = true) {i : Issuer} (hq : i.w.q = q) (k : Pace → Pace) :
    s.pace i k = s.repaced q (i.warpPart k) (i.bankPart k) := by
  cases hh : i.hnd with
  | true =>
    have warps : (s.warps.map fun w => w.repaced (i.warpPart k)) = s.warps := by
      conv_rhs => rw [← List.map_id s.warps]
      exact List.map_congr_left fun w _ => by simp [Warp.repaced, Issuer.warpPart, hh]
    unfold State.repaced
    rw [warps]
    simp only [State.pace, hh, if_true, hq, State.onBank]
    exact onQuad_congr (by simp [Quad.repaced, Bank.repaced, Issuer.bankPart, hh])
  | false =>
    have bank : ∀ t : State, scanon Quad.init t.quads = true → (t.onQuad q fun x => x.repaced (i.bankPart k)) = t :=
      fun t ht => onQuad_unchanged ht (by cases t.quad q; simp [Quad.repaced, Bank.repaced, Issuer.bankPart, hh])
    unfold State.repaced
    rw [bank _ (by exact hc)]
    simp only [State.pace, hh, State.onWarp, Bool.false_eq_true, if_false]
    congr 1
    refine List.map_congr_left fun w _ => ?_
    by_cases hw : w.id = i.w.id
    · simp [Warp.repaced, Issuer.warpPart, hh, hw]
    · simp [Warp.repaced, Issuer.warpPart, hh, hw, Ne.symm hw]

/-- Paces changed one issuer after another, `h` on each. -/
def warpPaces (l : List Issuer) (h : Issuer → Pace → Pace) (n : Nat) (p : Pace) : Pace := l.foldl (fun p i => i.warpPart (h i) n p) p
def bankPaces (l : List Issuer) (h : Issuer → Pace → Pace) (p : Pace) : Pace := l.foldl (fun p i => i.bankPart (h i) p) p

theorem foldl_pace {l : List Issuer} (h : Issuer → Pace → Pace) (hc : scanon Quad.init s.quads = true) (hq : ∀ i ∈ l, i.w.q = q) :
    l.foldl (fun s i => s.pace i (h i)) s = s.repaced q (warpPaces l h) (bankPaces l h) := by
  induction l generalizing s with
  | nil => exact (repaced_id hc).symm
  | cons i r ih =>
    rw [List.foldl_cons, pace_eq_repaced hc (hq i (List.mem_cons_self ..)), ih (repaced_quads_canon hc _ _) fun j hj => hq j (List.mem_cons_of_mem _ hj),
      repaced_repaced hc]
    rfl

theorem foldl_rest {l : List Issuer} {step : Pace → Issuer → Pace} (h : ∀ p i, (step p i).rest = p.rest) (p : Pace) : (l.foldl step p).rest = p.rest := by
  induction l generalizing p with
  | nil => rfl
  | cons i r ih => rw [List.foldl_cons, ih, h]

/-- Of issuers without repeats, one alone concerns a pace: its own change is all that happens to it. -/
theorem foldl_only {α : Type} {l : List α} {a : α} {step : Pace → α → Pace} (hn : l.Nodup) (ha : a ∈ l) (h : ∀ b ∈ l, b ≠ a → ∀ p, step p b = p) (p : Pace) :
    l.foldl step p = step p a := by
  induction l generalizing p with
  | nil => cases ha
  | cons b r ih =>
    obtain ⟨hb, hr⟩ := List.nodup_cons.1 hn
    have rest : ∀ x ∈ r, x ≠ a → ∀ p, step p x = p := fun x hx => h x (List.mem_cons_of_mem _ hx)
    rw [List.foldl_cons]
    by_cases hba : b = a
    · subst hba
      exact foldl_unchanged fun x hx => rest x hx (fun e => hb (e ▸ hx)) _
    · rw [h b (List.mem_cons_self ..) hba]
      exact ih hr ((List.mem_cons.1 ha).resolve_left (Ne.symm hba)) rest p

end Pace

/-! ## The choice -/

section Choice

variable {key : Offer → Nat} {l : List Offer} {o : Offer}

theorem leastOffer_mem (h : leastOffer key l = some o) : o ∈ l := by
  induction l generalizing o with
  | nil => cases h
  | cons x r ih =>
    simp only [leastOffer] at h
    cases hr : leastOffer key r with
    | none => simp only [hr, Option.some.injEq] at h; exact h ▸ List.mem_cons_self ..
    | some p =>
      simp only [hr] at h
      split at h
      · exact List.mem_cons_of_mem _ (ih (hr.trans h))
      · exact Option.some.inj h ▸ List.mem_cons_self ..

theorem leastOffer_eq_none (h : leastOffer key l = none) : l = [] := by
  cases l with
  | nil => rfl
  | cons x r =>
    simp only [leastOffer] at h
    split at h
    · cases h
    · split at h <;> cases h

/-- The offer whose key is below every other's. -/
theorem leastOffer_eq_some (ho : o ∈ l) (h : ∀ p ∈ l, p ≠ o → key o < key p) : leastOffer key l = some o := by
  induction l with
  | nil => cases ho
  | cons x r ih =>
    have hx : x ≠ o → key o < key x := h x (List.mem_cons_self ..)
    have below : ∀ p ∈ r, p ≠ o → key o < key p := fun p hp => h p (List.mem_cons_of_mem _ hp)
    simp only [leastOffer]
    by_cases hxo : x = o
    · subst hxo
      cases hr : leastOffer key r with
      | none => rfl
      | some p =>
        by_cases hp : p = x
        · simp [hp]
        · simp [(below p (leastOffer_mem hr) hp).le]
    · rw [ih ((List.mem_cons.1 ho).resolve_left (Ne.symm hxo)) below]
      simp [hx hxo]

/-- The slot goes to the first in order of those that have not yielded, or of all where all have. -/
theorem choose_eq_some {last now : Nat} (ho : o ∈ l) (hy : o.i.pace.yielded = false ∨ ∀ p ∈ l, p.i.pace.yielded = true)
    (h : ∀ p ∈ l, p ≠ o → p.i.pace.yielded = o.i.pace.yielded → choiceKey last o now < choiceKey last p now) : choose last now l = some o := by
  unfold choose
  dsimp only
  split
  next hnone =>
    have all : ∀ p ∈ l, p.i.pace.yielded = true := by simpa using hnone
    exact leastOffer_eq_some ho fun p hp hne => h p hp hne ((all p hp).trans (all o ho).symm)
  next hsome =>
    have hofresh : o.i.pace.yielded = false := by
      refine hy.resolve_right fun all => hsome ?_
      simpa using all
    refine leastOffer_eq_some (List.mem_filter.2 ⟨ho, by simp [hofresh]⟩) fun p hp hne => ?_
    obtain ⟨hp, hpfresh⟩ := List.mem_filter.1 hp
    exact h p hp hne (by simpa [hofresh] using hpfresh)

theorem choose_nil (last now : Nat) : choose last now [] = none := rfl

theorem choose_singleton (last now : Nat) (o : Offer) : choose last now [o] = some o := by
  refine choose_eq_some (List.mem_singleton.2 rfl) ?_ fun p hp hne => absurd (List.mem_singleton.1 hp) hne
  cases hy : o.i.pace.yielded
  · exact .inl rfl
  · exact .inr fun p hp => List.mem_singleton.1 hp ▸ hy

/-- The order of R105 is the order of keys. -/
theorem choiceKey_lt {last now : Nat} {o p : Offer} (h : goesBefore last now o p) : choiceKey last o now < choiceKey last p now := by
  have ho := Nat.mod_lt (o.i.w.slot + 31 - last) (show 16 > 0 by decide)
  have hp := Nat.mod_lt (p.i.w.slot + 31 - last) (show 16 > 0 by decide)
  unfold goesBefore at h
  dsimp only at h
  unfold choiceKey
  obtain h | ⟨hs, h | ⟨ht, hh, hh'⟩⟩ := h
  · split <;> split <;> omega
  · split <;> split <;> omega
  · simp only [hh, hh', hs, ht, if_true, if_false, Bool.false_eq_true]
    omega

end Choice

end Sys2Proof.Machine

/-! SUPPORT. A quadrant of one issuer that is not idle (R103, R105): its offer takes the slot. -/

namespace Sys2Proof.Machine

open Claims

/-! ## The paces that a change of an issuer's pace reaches -/

/-- `P` holds of every pace that a change of issuer `i`'s pace reaches. -/
def Paced (s : State) (i : Issuer) (P : Pace → Prop) : Prop :=
  (i.hnd = false → ∀ v ∈ s.warps, v.id = i.w.id → P v.pace) ∧ (i.hnd = true → ∀ b, (s.quad i.w.q).bank = some b → P b.pace)

/-- A pace that holds nothing of earlier slots. -/
def Pace.Still (p : Pace) : Prop := p.readySince = none ∧ p.yielded = false

theorem bank_unchanged {x : Quad} {f : Bank → Bank} (h : ∀ b, x.bank = some b → f b = b) : { x with bank := x.bank.map f } = x := by
  have bank : x.bank.map f = x.bank := by
    cases hb : x.bank with
    | none => rfl
    | some b => rw [Option.map_some, h b hb]
  rw [bank]

section Paced

variable {s : State} {q : Nat} {i j : Issuer} {P : Pace → Prop}

/-- A change that leaves the paces it reaches changes nothing. -/
theorem Paced.unchanged (h : Paced s i P) (hc : scanon Quad.init s.quads = true) {k : Pace → Pace} (hk : ∀ p, P p → k p = p) : s.pace i k = s := by
  obtain ⟨hwarps, hbank⟩ := h
  unfold State.pace
  split
  next hh => exact onQuad_unchanged hc (bank_unchanged fun b hb => by rw [hk _ (hbank hh b hb)])
  next hh => exact onWarp_unchanged fun v hv hid => by rw [hk _ (hwarps (Bool.eq_false_of_not_eq_true hh) v hv hid)]

theorem Paced.onWarp (h : Paced s i P) (n : Nat) {f : Warp → Warp} (hf : ∀ w, (f w).id = w.id ∧ (f w).pace = w.pace) : Paced (s.onWarp n f) i P := by
  refine ⟨fun hh v hv hid => ?_, h.2⟩
  obtain ⟨u, hu, rfl⟩ := List.mem_map.1 hv
  by_cases hun : u.id = n
  · rw [if_pos hun] at hid ⊢
    rw [(hf u).2]
    exact h.1 hh u hu ((hf u).1.symm.trans hid)
  · rw [if_neg hun] at hid ⊢
    exact h.1 hh u hu hid

theorem Paced.onQuad (h : Paced s i P) (q : Nat) {f : Quad → Quad} (hf : ∀ x b, (f x).bank = some b → ∃ a, x.bank = some a ∧ a.pace = b.pace) :
    Paced (s.onQuad q f) i P := by
  refine ⟨h.1, fun hh b hb => ?_⟩
  rw [quad_onQuad] at hb
  split at hb
  next hq =>
    obtain ⟨a, ha, hp⟩ := hf _ _ hb
    exact hp ▸ h.2 hh a (hq ▸ ha)
  · exact h.2 hh b hb

theorem Paced.onBank (h : Paced s i P) (q : Nat) {f : Bank → Bank} (hf : ∀ b, (f b).pace = b.pace) : Paced (s.onBank q f) i P :=
  h.onQuad q fun x b hb => by
    obtain ⟨a, ha, rfl⟩ := Option.map_eq_some_iff.1 hb
    exact ⟨a, ha, (hf a).symm⟩

theorem Paced.onLanes (h : Paced s i P) (w : Warp) (hnd : Bool) (m : Mask) (f : Lane → Lane) : Paced (s.onLanes w hnd m f) i P := by
  unfold State.onLanes
  split
  · exact h.onBank _ fun _ => rfl
  · exact h.onWarp _ fun _ => ⟨rfl, rfl⟩

theorem Paced.count (h : Paced s i P) (blk e n : Nat) : Paced (s.count blk e n) i P := h

/-- The issuer's own paces change as they are told. -/
theorem Paced.pace (h : Paced s i P) {Q : Pace → Prop} {k : Pace → Pace} (hk : ∀ p, P p → Q (k p)) : Paced (s.pace i k) i Q := by
  unfold State.pace
  split
  next hh =>
    refine ⟨fun hh' => absurd (hh.symm.trans hh') (by decide), fun _ b hb => ?_⟩
    simp only [State.onBank, quad_onQuad_same] at hb
    obtain ⟨a, ha, rfl⟩ := Option.map_eq_some_iff.1 hb
    exact hk _ (h.2 hh a ha)
  next hh =>
    have hh := Bool.eq_false_of_not_eq_true hh
    refine ⟨fun _ v hv hid => ?_, fun hh' => absurd (hh.symm.trans hh') (by decide)⟩
    obtain ⟨u, hu, rfl⟩ := List.mem_map.1 hv
    by_cases hui : u.id = i.w.id
    · rw [if_pos hui]
      exact hk _ (h.1 hh u hu hui)
    · rw [if_neg hui] at hid
      exact absurd hid hui

theorem paced_true (s : State) (i : Issuer) : Paced s i fun _ => True := ⟨fun _ _ _ _ => trivial, fun _ _ _ => trivial⟩

/-- Two issuers that share no pace. -/
def Apart (i j : Issuer) : Prop := i.hnd ≠ j.hnd ∨ (i.hnd = false ∧ i.w.id ≠ j.w.id)

theorem Paced.paceOther (h : Paced s j P) (ha : Apart i j) (k : Pace → Pace) : Paced (s.pace i k) j P := by
  unfold State.pace
  split
  next hi =>
    refine ⟨h.1, fun hh => ?_⟩
    obtain ha | ⟨ha, -⟩ := ha
    · exact absurd (hi.trans hh.symm) ha
    · exact absurd (hi.symm.trans ha) (by decide)
  next hi =>
    refine ⟨fun hh v hv hid => ?_, h.2⟩
    obtain ⟨u, hu, rfl⟩ := List.mem_map.1 hv
    have hne : i.w.id ≠ j.w.id := by
      obtain ha | ⟨-, ha⟩ := ha
      · exact absurd ((Bool.eq_false_of_not_eq_true hi).trans hh.symm) ha
      · exact ha
    by_cases hui : u.id = i.w.id
    · rw [if_pos hui] at hid
      exact absurd (hui.symm.trans hid) hne
    · rw [if_neg hui] at hid ⊢
      exact h.1 hh u hu hid

/-- A warp's own issuer. -/
theorem warpIssuer_of_mem (hj : j ∈ s.issuers q) (hh : j.hnd = false) : j.w ∈ s.warps ∧ j = { w := j.w, hnd := false, lanes := j.w.lanes, pace := j.w.pace, movx := j.w.movx } := by
  unfold State.issuers at hj
  obtain hj | hj := List.mem_append.1 hj
  · obtain ⟨w, hw, rfl⟩ := List.mem_map.1 hj
    exact ⟨(List.mem_filter.1 hw).1, rfl⟩
  · exfalso
    split at hj
    · cases hj
    · split at hj
      · split at hj
        · rw [List.mem_singleton.1 hj] at hh; cases hh
        · cases hj
      · cases hj

/-- A handler's issuer. -/
theorem bankIssuer_of_mem (hj : j ∈ s.issuers q) (hh : j.hnd = true) : ∃ b w, (s.quad q).bank = some b ∧ s.warp? b.warp = some w ∧
    j = { w := w, hnd := true, lanes := b.lanes, pace := b.pace, movx := b.movx } := by
  unfold State.issuers at hj
  obtain hj | hj := List.mem_append.1 hj
  · obtain ⟨w, hw, rfl⟩ := List.mem_map.1 hj
    cases hh
  · split at hj
    · cases hj
    next b hb =>
      split at hj
      next w hw =>
        split at hj
        · exact ⟨b, w, hb, hw, List.mem_singleton.1 hj⟩
        · cases hj
      · cases hj

theorem bankIssuer_unique (hi : i ∈ s.issuers q) (hj : j ∈ s.issuers q) (hih : i.hnd = true) (hjh : j.hnd = true) : i = j := by
  obtain ⟨b, w, hb, hw, rfl⟩ := bankIssuer_of_mem hi hih
  obtain ⟨b', w', hb', hw', rfl⟩ := bankIssuer_of_mem hj hjh
  obtain rfl := Option.some.inj (hb.symm.trans hb')
  obtain rfl := Option.some.inj (hw.symm.trans hw')
  rfl

theorem still_of_idle (h : Idle s q j) (hj : j ∈ s.issuers q) : Paced s j Pace.Still := by
  refine ⟨fun hh v hv hid => ?_, fun hh b hb => ?_⟩
  · obtain ⟨-, he⟩ := warpIssuer_of_mem hj hh
    have still := h.pace
    rw [he] at still
    rw [h.own v hv hid]
    exact still
  · obtain ⟨b', w, hb', -, he⟩ := bankIssuer_of_mem hj hh
    rw [h.home, hb'] at hb
    have still := h.pace
    rw [he] at still
    exact Option.some.inj hb ▸ still

theorem apart_of_idle (h : Idle s q j) (hj : j ∈ s.issuers q) (hi : i ∈ s.issuers q) (hne : j ≠ i) : Apart i j := by
  cases hih : i.hnd <;> cases hjh : j.hnd
  · refine .inr ⟨hih, fun hid => hne ?_⟩
    obtain ⟨hiw, hi'⟩ := warpIssuer_of_mem hi hih
    obtain ⟨-, hj'⟩ := warpIssuer_of_mem hj hjh
    rw [hj', hi', h.own i.w hiw hid]
  · exact .inl (by simp [hih, hjh])
  · exact .inl (by simp [hih, hjh])
  · exact absurd (bankIssuer_unique hj hi hjh hih) hne

end Paced

/-! ## Every issuer idle -/

section Idle

variable {s : State} {q : Nat}

/-- The note of an issuer that makes no offer. -/
theorem Pace.Still.unnoted {p : Pace} (h : p.Still) : { p with readySince := none } = p := by rw [← h.1]

theorem Pace.Still.cleared {p : Pace} (h : p.Still) : { p with yielded := false } = p := by rw [← h.2]

theorem offersAt_idle (hi : ∀ j ∈ s.issuers q, Idle s q j) (now : Nat) : s.offersAt q now = [] := by
  have : (s.issuers q).filterMap s.offer = [] := List.filterMap_eq_nil_iff.2 fun j hj => offer_idle (hi j hj).empty
  simp [State.offersAt, this]

theorem exec_issueSlot_idle (hi : ∀ j ∈ s.issuers q, Idle s q j) (hrw : (s.quad q).rewriting = false) (hc : scanon Quad.init s.quads = true) :
    exec (.issueSlot q) s = .next (s.onQuad q fun x =>
      { x with cycle := x.cycle + 1, slotAt := if s.quadOff q = false ∧ x.slotAt ≤ x.cycle then x.cycle + x.beats else x.slotAt }) := by
  cases hoff : s.quadOff q with
  | true =>
    change execIssueSlot q s = _
    simp only [execIssueSlot, hrw, hoff, Bool.false_eq_true, if_false, if_true]
    simp
  | false =>
    have fetches : (s.issuers q).foldl (fun s j => s.recFetch j) s = s :=
      foldl_unchanged fun j hj => by simp [State.recFetch, offer_idle (hi j hj).empty]
    have notes : s.noteReady (s.issuers q) [] (s.quad q).cycle = s :=
      foldl_unchanged fun j hj => (still_of_idle (hi j hj) hj).unchanged hc fun p hp => by simpa using hp.unnoted
    rw [exec_issueSlot hrw hoff fun j hj => past_of_idle (hi j hj), fetches, State.slotCycle, offersAt_idle hi, notes]
    have missed : s.missed q (s.quad q).cycle = s := by simp [State.missed, offersAt_idle hi, blocksOf]
    unfold State.giveSlot
    rw [missed, offersAt_idle hi]
    by_cases hdue : (s.quad q).slotAt ≤ (s.quad q).cycle
    · have clears : ∀ t : State, t = s.onQuad q (fun x => { x with slotAt := (s.quad q).cycle + (s.quad q).beats }) →
          (s.issuers q).foldl (fun s i => s.pace i fun p => { p with yielded := false }) t = t := by
        rintro t rfl
        exact foldl_unchanged fun j hj => ((still_of_idle (hi j hj) hj).onQuad q (by exact fun x b hb => ⟨b, hb, rfl⟩)).unchanged (onQuad_canon hc _ _) fun p hp => hp.cleared
      simp only [State.slotDue, hdue, decide_true, if_true, State.slot, List.filter_nil, choose_nil, List.foldl_nil, clears _ rfl]
      rw [onQuad_onQuad hc]
      exact congrArg _ (onQuad_congr (by simp [hdue]))
    · simp only [State.slotDue, hdue, decide_false, if_false, Bool.false_eq_true]
      exact congrArg _ (onQuad_congr (by simp [hdue]))

end Idle

end Sys2Proof.Machine

/-! SUPPORT. An offer that takes the slot: what is counted, and what a word with an encoding cause does (R54, R56, R104, R107). -/

namespace Sys2Proof.Machine

open Claims

/-- A pace that stands back no more (R105). -/
def Pace.cleared (p : Pace) : Pace := { p with yielded := false }

section Take

variable {s : State} {q now : Nat} {o : Offer}

/-- Lanes that wait in other groups are passed once more. -/
def passedOnce (s : State) (q : Nat) (o : Offer) : State :=
  let u := s.onLanes o.i.w o.i.hnd o.m fun l => { l with park := .run }
  if o.i.hnd then u.onBank q fun b => { b with lanes := passCounts o.m 0 b.lanes } else u.onWarp o.i.w.id fun x => { x with lanes := passCounts o.m 0 x.lanes }

theorem Paced.passedOnce {P : Pace → Prop} (h : Paced s o.i P) : Paced (passedOnce s q o) o.i P := by
  have hl := h.onLanes o.i.w o.i.hnd o.m fun l => { l with park := .run }
  unfold Machine.passedOnce
  dsimp only
  split
  · exact hl.onBank q fun _ => rfl
  · exact hl.onWarp _ fun _ => ⟨rfl, rfl⟩

theorem passedOnce_canon (hc : scanon Quad.init s.quads = true) : scanon Quad.init (passedOnce s q o).quads = true := by
  have hl : scanon Quad.init (s.onLanes o.i.w o.i.hnd o.m fun l => { l with park := .run }).quads = true := by
    unfold State.onLanes
    split
    · exact onQuad_canon hc _ _
    · exact hc
  unfold passedOnce
  dsimp only
  split
  · exact onQuad_canon hl _ _
  · exact hl

theorem counts_eq : s.counts o q = ((((passedOnce s q o).count o.i.w.blk 0 1).count o.i.w.blk 1 (lanesOf o.m).length).pace o.i Pace.cleared).onQuad q
    fun x => { x with lastSlot := o.i.w.slot } := rfl

/-- An issue counts no more than its lanes, the lanes passed, and the slot, where its issuer has not yielded. -/
theorem counts_eq_counted (hc : scanon Quad.init s.quads = true) (hy : Paced s o.i fun p => p.yielded = false) : s.counts o q = counted s q o.i o.m := by
  let t : State := ((passedOnce s q o).count o.i.w.blk 0 1).count o.i.w.blk 1 (lanesOf o.m).length
  have keeps : t.pace o.i Pace.cleared = t :=
    Paced.unchanged ((hy.passedOnce.count _ _ _).count _ _ _) (passedOnce_canon hc) fun p hp => by rw [Pace.cleared, ← hp]
  rw [counts_eq, keeps]
  rfl

/-- The guard of a word that reads no result early is read as it stands. -/
theorem lookGuard_none (h : ∀ g, decGuard o.word = some g → g.keys.any (o.i.w.undue s.iss.now) = false) : s.lookGuard o = s := by
  have none : (((decGuard o.word).map Guard.keys).getD []).filter (o.i.w.undue s.iss.now) = [] := by
    cases hg : decGuard o.word with
    | none => rfl
    | some g => simpa using h g hg
  unfold State.lookGuard State.lookKeys
  rw [none]
  exact ite_self _

/-- The lanes of a set of issuing lanes in which a word's guard holds, where nothing is read early. -/
def Offer.act (o : Offer) (m : Mask) : Mask := match decGuard o.word with | some g => o.i.w.guarded g m | none => m

theorem wordGuard_eq_act (he : s.iss.early = []) {m : Mask} (hm : m &&& s.iss.lanes = m) : s.wordGuard o m = o.act m := by
  unfold State.wordGuard Offer.act
  cases decGuard o.word with
  | none => rfl
  | some g =>
    refine mask_ext fun l hl => ?_
    have hml : (m.getLsbD l && s.iss.lanes.getLsbD l) = m.getLsbD l := by rw [← BitVec.getLsbD_and, hm]
    dsimp only
    rw [BitVec.getLsbD_and, guarded_sub _ _ _ _ hl]
    cases g <;> simp only [Warp.guarded, State.guardOk, rdP_noEarly he, getLsbD_maskOf _ _ hl] <;> rw [← hml] <;>
      cases m.getLsbD l <;> cases s.iss.lanes.getLsbD l <;> simp

/-- An encoding cause is raised in the lanes that the statement lists. -/
theorem encTrap_eq_caused (he : s.iss.early = []) {m : Mask} (hm : m &&& s.iss.lanes = m) : s.encTrap o m = caused s o m := by
  unfold State.encTrap caused
  rw [wordGuard_eq_act he hm]
  rfl

theorem arrive_congr {w : Warp} {c : Nat} {act : Mask} {bad bad' : Mask → State → State}
    (h : ∀ t : State, t.iss = s.iss → bad (act &&& ~~~sget 0 c w.decl) t = bad' (act &&& ~~~sget 0 c w.decl) t) : s.arrive w c act bad = s.arrive w c act bad' := by
  have iss : ((s.sign w c (s.iss.lanes &&& sget 0 c w.decl)).parkHere w (s.iss.lanes &&& sget 0 c w.decl) (.sync c)).iss = s.iss := by
    unfold State.parkHere State.onLanes
    split <;> rfl
  unfold State.arrive
  dsimp only
  rw [h _ iss]

/-- A word with an encoding cause acts at once on lanes whose guard reads nothing early. -/
theorem badWord_eq (he : s.iss.early = []) (hl : s.iss.lanes = o.m) :
    s.badWord o = if o.arrives then s.arrive o.i.w (convOf o.word) (o.act o.m) fun m t => caused t o m else caused s o o.m := by
  have all : o.m &&& s.iss.lanes = o.m := by rw [hl, BitVec.and_self]
  unfold State.badWord
  split
  · rw [wordGuard_eq_act he all]
    refine arrive_congr fun t ht => encTrap_eq_caused (ht ▸ he) ?_
    have sub : o.act o.m &&& o.m = o.act o.m := by
      rw [← wordGuard_eq_act he all]
      unfold State.wordGuard
      cases decGuard o.word with
      | none => exact BitVec.and_self ..
      | some g => dsimp only; rw [BitVec.and_assoc, BitVec.and_self]
    rw [ht, hl, BitVec.and_assoc, BitVec.and_comm (~~~_), ← BitVec.and_assoc, sub]
  · exact encTrap_eq_caused he all

/-- An offer that has taken the slot, latched. -/
def latched (s : State) (q now : Nat) (o : Offer) : State :=
  let p := if o.arrives then s else counted s q o.i o.m
  { p with nextId := p.nextId + 1, iss := o.latch q now }

/-- What an issue does from its latch on: an instruction is for the step to run, an encoding cause is raised at once. -/
def taken (t : State) (o : Offer) : State :=
  match o.fate with
  | .run _ => t
  | _ => (if o.arrives then t.arrive o.i.w (convOf o.word) (o.act o.m) fun m t => caused t o m else caused t o o.m).finishIssue t

theorem taken_run {t : State} {i : Instr} (h : o.fate = .run i) : taken t o = t := by simp only [taken, h]

theorem taken_bad {t : State} (h : ∀ i, o.fate ≠ .run i) :
    taken t o = (if o.arrives then t.arrive o.i.w (convOf o.word) (o.act o.m) fun m t => caused t o m else caused t o o.m).finishIssue t := by
  unfold taken
  split
  next i hi => exact absurd hi (h i)
  · rfl

/-- An offer that takes the slot, its issuer not standing back. -/
theorem take_eq (hc : scanon Quad.init s.quads = true) (hy : Paced s o.i fun p => p.yielded = false)
    (hg : o.fate = .illegal → ∀ g, decGuard o.word = some g → g.keys.any (o.i.w.undue now) = false) : s.take o q now = taken (latched s q now o) o := by
  have counts : (if o.arrives then s else s.counts o q) = if o.arrives then s else counted s q o.i o.m := by rw [counts_eq_counted hc hy]
  have bad := badWord_eq (s := latched s q now o) (o := o) rfl rfl
  unfold State.take
  dsimp only
  rw [counts]
  change (match o.fate with
    | .run _ => latched s q now o
    | .illegal => (((latched s q now o).lookGuard o).badWord o).finishIssue (latched s q now o)
    | _ => ((latched s q now o).badWord o).finishIssue (latched s q now o)) = _
  unfold taken
  cases hf : o.fate with
  | run i => rfl
  | illegal => rw [lookGuard_none (hg hf), bad]
  | clause | guard => rw [bad]

/-! ## What an issue reads of its offer beside the pace -/

section Repaced

variable {f : Nat → Pace → Pace} {g : Pace → Pace}

theorem latched_repaced : latched s q now (o.repaced f g) = latched s q now o := rfl

theorem caused_repaced (m : Mask) : caused s (o.repaced f g) m = caused s o m := rfl

theorem arrive_repaced (w : Warp) (c : Nat) (act : Mask) (bad : Mask → State → State) : s.arrive (w.repaced f) c act bad = s.arrive w c act bad := rfl

theorem taken_repaced : taken s (o.repaced f g) = taken s o := by
  by_cases h : ∃ i, o.fate = .run i
  · obtain ⟨i, h⟩ := h
    rw [taken_run h, taken_run (o := o.repaced f g) h]
  · have h : ∀ i, o.fate ≠ .run i := not_exists.1 h
    rw [taken_bad h, taken_bad (o := o.repaced f g) h]
    simp only [caused_repaced]
    rw [show (o.repaced f g).i.w = o.i.w.repaced f from rfl, arrive_repaced]
    rfl

/-- An offer takes the slot alike at another pace. -/
theorem take_repaced (hc : scanon Quad.init s.quads = true) (hy : Paced s o.i fun p => p.yielded = false)
    (hg : o.fate = .illegal → ∀ g, decGuard o.word = some g → g.keys.any (o.i.w.undue now) = false) : s.take (o.repaced f g) q now = taken (latched s q now o) o := by
  rw [take_eq (o := o.repaced f g) hc (by exact hy) hg, taken_repaced, latched_repaced]

end Repaced

end Take

end Sys2Proof.Machine

/-! SUPPORT. A quadrant of one issuer that is not idle (R103, R105): its offer takes the slot. -/

namespace Sys2Proof.Machine

open Claims

/-! ## One issuer among idle ones -/

/-- Where all elements but one, which comes once, change nothing, that one is all that happens. -/
theorem foldl_single {α β : Type} [DecidableEq α] {l : List α} {a : α} {step : β → α → β} {b : β} (h : l.filter (fun x => decide (x = a)) = [a])
    (hb : ∀ x ∈ l, x ≠ a → step b x = b) (ha : ∀ x ∈ l, x ≠ a → step (step b a) x = step b a) : l.foldl step b = step b a := by
  induction l with
  | nil => cases h
  | cons x r ih =>
    have hbr : ∀ y ∈ r, y ≠ a → step b y = b := fun y hy => hb y (List.mem_cons_of_mem _ hy)
    have har : ∀ y ∈ r, y ≠ a → step (step b a) y = step b a := fun y hy => ha y (List.mem_cons_of_mem _ hy)
    rw [List.foldl_cons]
    by_cases hx : x = a
    · subst hx
      have hr : ∀ y ∈ r, y ≠ x := by simpa [List.filter_eq_nil_iff] using h
      exact foldl_unchanged fun y hy => har y hy (hr y hy)
    · rw [hb x (List.mem_cons_self ..) hx]
      exact ih (by simpa [hx] using h) hbr har

/-- Of elements of which one alone, which comes once, has an image, the images are its. -/
theorem filterMap_single {α β : Type} [DecidableEq α] {l : List α} {a : α} {f : α → Option β} {b : β} (h : l.filter (fun x => decide (x = a)) = [a])
    (ha : f a = some b) (hn : ∀ x ∈ l, x ≠ a → f x = none) : l.filterMap f = [b] := by
  have others : l.filterMap f = (l.filter fun x => decide (x = a)).filterMap f := by
    rw [List.filterMap_filter]
    refine List.filterMap_congr fun x hx => ?_
    by_cases hxa : x = a
    · simp [hxa]
    · simp [hxa, hn x hx hxa]
  rw [others, h]
  simp [ha]

section Single

variable {s : State} {q now : Nat} {i : Issuer} {o : Offer}

/-- Two changes of one issuer's pace are one. -/
theorem pace_pace (hc : scanon Quad.init s.quads = true) (k k' : Pace → Pace) : (s.pace i k).pace i k' = s.pace i fun p => k' (k p) := by
  cases hh : i.hnd with
  | true =>
    simp only [State.pace, hh, if_true, State.onBank]
    rw [onQuad_onQuad hc]
    congr 1
    funext x
    simp [Function.comp_def]
  | false =>
    simp only [State.pace, hh, State.onWarp, List.map_map, Bool.false_eq_true, if_false]
    congr 1
    refine List.map_congr_left fun v _ => ?_
    by_cases hv : v.id = i.w.id <;> simp [hv]

/-- The time of the next slot, and a change of pace, in either order. -/
theorem pace_slotAt (hc : scanon Quad.init s.quads = true) (hq : i.w.q = q) (k : Pace → Pace) (n : Nat) :
    (s.pace i k).onQuad q (fun x => { x with slotAt := n }) = (s.onQuad q fun x => { x with slotAt := n }).pace i k := by
  cases hh : i.hnd with
  | true =>
    simp only [State.pace, hh, if_true, State.onBank, hq]
    rw [onQuad_onQuad hc, onQuad_onQuad hc]
  | false => simp only [State.pace, hh, Bool.false_eq_true, if_false]; rfl

/-- What a ready issuer notes (R105). -/
def Pace.noted (now : Nat) (p : Pace) : Pace := { p with readySince := some (p.readySince.getD now) }

/-- A quadrant whose issuers but `i` are idle. -/
structure Alone (s : State) (q : Nat) (i : Issuer) : Prop where
  one : (s.issuers q).filter (fun j => decide (j = i)) = [i]
  rest : ∀ j ∈ s.issuers q, j ≠ i → Idle s q j
  home : i.w.q = q
  canon : scanon Quad.init s.quads = true

variable (h : Alone s q i)

include h

theorem Alone.mem : i ∈ s.issuers q := by
  have : i ∈ (s.issuers q).filter fun j => decide (j = i) := by simp [h.one]
  exact (List.mem_filter.1 this).1

theorem Alone.offers (ho : s.offer i = some o) : (s.issuers q).filterMap s.offer = [o] :=
  filterMap_single h.one ho fun j hj hne => offer_idle (h.rest j hj hne).empty

theorem Alone.offersAt (ho : s.offer i = some o) (hr : s.ready o now = true) : s.offersAt q now = [o] := by
  simp [State.offersAt, h.offers ho, hr]

theorem Alone.still {j : Issuer} (hj : j ∈ s.issuers q) (hne : j ≠ i) : Paced s j Pace.Still := still_of_idle (h.rest j hj hne) hj

theorem Alone.apart {j : Issuer} (hj : j ∈ s.issuers q) (hne : j ≠ i) : Apart i j := apart_of_idle (h.rest j hj hne) hj h.mem hne

/-- A change of every issuer's pace that leaves a still one is the change of `i`'s. -/
theorem Alone.foldl_pace {t : State} (hc : scanon Quad.init t.quads = true) (ht : ∀ j ∈ s.issuers q, j ≠ i → Paced t j Pace.Still) {k : Issuer → Pace → Pace}
    (hk : ∀ j ∈ s.issuers q, j ≠ i → ∀ p, p.Still → k j p = p) : (s.issuers q).foldl (fun s j => s.pace j (k j)) t = t.pace i (k i) := by
  refine foldl_single h.one (fun j hj hne => (ht j hj hne).unchanged hc (hk j hj hne)) fun j hj hne => ?_
  have canon : scanon Quad.init (t.pace i (k i)).quads = true := by
    rw [pace_eq_repaced hc h.home]
    exact repaced_quads_canon hc _ _
  exact ((ht j hj hne).paceOther (h.apart hj hne) _).unchanged canon (hk j hj hne)

theorem Alone.noteReady (ho : s.offer i = some o) (hr : s.ready o now = true) :
    s.noteReady (s.issuers q) (s.offersAt q now) now = s.pace i (Pace.noted now) := by
  have hoi := offer_issuer ho
  rw [h.offersAt ho hr]
  refine (h.foldl_pace h.canon (fun j => h.still) (k := fun j p => { p with readySince := if [o].any fun o => o.i = j then some (p.readySince.getD now) else none })
    fun j hj hne p hp => ?_).trans ?_
  · rw [show ([o].any fun o => decide (o.i = j)) = false by simp [hoi, Ne.symm hne]]
    exact hp.unnoted
  · simp only [hoi, List.any_cons, decide_true, Bool.true_or, if_true]
    rfl

/-- The ready offer of the one issuer that is not idle takes a slot that is due. -/
theorem Alone.slotCycle (ho : s.offer i = some o) (hr : s.ready o now = true) (he : s.eligible o = true) (hs : (s.quad q).slotAt ≤ now) :
    s.slotCycle q now = (readied (s.onQuad q fun x => { x with slotAt := now + x.beats }) i now).take
      (o.repaced (i.warpPart (Pace.noted now)) (i.bankPart (Pace.noted now))) q now := by
  let f := i.warpPart (Pace.noted now)
  let g := i.bankPart (Pace.noted now)
  have hf : ∀ n p, (f n p).rest = p.rest := fun n p => by simp only [f, Issuer.warpPart]; split <;> rfl
  have hg : ∀ p, (g p).rest = p.rest := fun p => by simp only [g, Issuer.bankPart]; split <;> rfl
  have noted : s.pace i (Pace.noted now) = s.repaced q f g := pace_eq_repaced h.canon h.home _
  have offers : (s.repaced q f g).offersAt q now = [o.repaced f g] := by rw [repaced_offersAt hf hg, h.offersAt ho hr, List.map_singleton]
  have eligibles : [o.repaced f g].filter (s.repaced q f g).eligible = [o.repaced f g] := by
    simp [repaced_eligible hf hg, he]
  have due : (s.repaced q f g).slotDue q now = true := by simpa [State.slotDue, repaced_quad, Quad.repaced] using hs
  have winner : (s.repaced q f g).winner q now = some (o.repaced f g) := by
    simp only [State.winner, due, if_true, offers, eligibles, choose_singleton]
  have missed : (s.repaced q f g).missed q now = s.repaced q f g := by simp [State.missed, offers, winner, blocksOf]
  have beats : ((s.repaced q f g).quad q).beats = (s.quad q).beats := repaced_beats q
  let t := (s.repaced q f g).onQuad q fun x => { x with slotAt := now + (s.quad q).beats }
  have still : ∀ j ∈ s.issuers q, j ≠ i → Paced t j Pace.Still := fun j hj hne => by
    have := (h.still hj hne).paceOther (h.apart hj hne) (Pace.noted now)
    rw [noted] at this
    exact this.onQuad q fun x b hb => ⟨b, hb, rfl⟩
  have clears : ((s.issuers q).map fun j => j.repaced f g).foldl (fun s j => s.pace j Pace.cleared) t = t.pace i Pace.cleared := by
    rw [List.foldl_map]
    exact h.foldl_pace (k := fun _ => Pace.cleared) (onQuad_canon (repaced_quads_canon h.canon _ _) _ _) still fun j hj hne p hp => hp.cleared
  have ends : t.pace i Pace.cleared = readied (s.onQuad q fun x => { x with slotAt := now + x.beats }) i now := by
    simp only [t]
    rw [← noted, pace_slotAt h.canon h.home, pace_pace (onQuad_canon h.canon _ _)]
    exact congrArg (State.pace · i _) (onQuad_congr rfl)
  unfold State.slotCycle
  rw [h.noteReady ho hr, noted]
  unfold State.giveSlot
  rw [due, if_pos rfl, missed, beats, repaced_issuers, offers]
  unfold State.slot
  dsimp only
  rw [show (([o.repaced f g].filter ((s.repaced q f g).onQuad q fun x => { x with slotAt := now + (s.quad q).beats }).eligible)) = [o.repaced f g] from eligibles,
    choose_singleton]
  simp only [ne_eq, decide_not, List.filter_cons, decide_true, Bool.not_true, Bool.false_eq_true, if_false, List.filter_nil, List.foldl_nil]
  rw [← ends, ← clears]
  rfl

end Single

end Sys2Proof.Machine

/-! SUPPORT. What a quadrant of one issuer that is not idle does with its slot, word by word (R32, R54, R56, R107). -/

namespace Sys2Proof.Machine

open Claims

theorem arrives_iff (o : Offer) : o.arrives = true ↔
    0x308 ≤ (opcodeOf o.word).toNat ∧ (opcodeOf o.word).toNat ≤ 0x30A ∧ o.sync = false ∧ o.i.hnd = false ∧ o.fate ≠ .clause := by
  simp [Offer.arrives, syncOp, and_assoc]

section Lone

variable {s r : State} {q : Nat} {i : Issuer} {o : Offer}

theorem quads_of_lone (h : Lone s r q i o) : r.quads = s.quads := h.came ▸ foldl_recFetch_quads _ s

theorem alone_of_lone (h : Lone s r q i o) : Alone r q i := { one := h.one, rest := h.rest, home := h.home, canon := h.canon }

theorem past_of_lone (h : Lone s r q i o) : ∀ j ∈ s.issuers q, Past s j := fun j hj => by
  obtain hidle | ⟨hacq, hpos, ho⟩ := h.tested j hj
  · exact past_of_idle hidle
  · exact ⟨hacq, .inr ⟨hpos, ho⟩⟩

/-- The offer takes the slot once its readiness is noted. -/
theorem exec_of_lone (h : Lone s r q i o) : exec (.issueSlot q) s = .next (((readied (r.onQuad q fun x => { x with slotAt := (r.quad q).cycle + x.beats }) i
    (r.quad q).cycle).take (o.repaced (i.warpPart (Pace.noted (r.quad q).cycle)) (i.bankPart (Pace.noted (r.quad q).cycle))) q (r.quad q).cycle).onQuad q fun x =>
      { x with cycle := x.cycle + 1 }) := by
  have same : s.quad q = r.quad q := by simp only [State.quad, quads_of_lone h]
  rw [exec_issueSlot h.on.1 h.on.2 (past_of_lone h), h.came, same, (alone_of_lone h).slotCycle h.offer h.ready h.may h.slot]

/-- One issuer's readiness noted and its yield over leaves a pace that has not yielded. -/
theorem paced_readied (t : State) (now : Nat) : Paced (readied t i now) i fun p => p.yielded = false := (paced_true t i).pace fun _ _ => rfl

theorem readied_canon (hc : scanon Quad.init s.quads = true) (now : Nat) : scanon Quad.init (readied s i now).quads = true := by
  unfold readied
  rw [pace_eq_repaced hc rfl]
  exact repaced_quads_canon hc _ _

/-- The one ready issuer's word runs, or its cause is raised at once (R54, R56, R103, R107). -/
theorem lone_takes (h : Lone s r q i o)
    (hg : o.fate = .illegal → ∀ g, decGuard o.word = some g → g.keys.any (i.w.undue (r.quad q).cycle) = false) :
    exec (.issueSlot q) s = .next ((taken (latched (readied (r.onQuad q fun x => { x with slotAt := (r.quad q).cycle + x.beats }) i (r.quad q).cycle)
      q (r.quad q).cycle o) o).onQuad q fun x => { x with cycle := x.cycle + 1 }) := by
  obtain rfl : o.i = i := offer_issuer h.offer
  rw [exec_of_lone h, take_repaced (readied_canon (onQuad_canon h.canon _ _) _) (paced_readied _ _) hg]

end Lone

end Sys2Proof.Machine

/-! SUPPORT. A quadrant of several issuers (R105): each has one pace of its own, and a slot that goes to one of them. -/

namespace Sys2Proof.Machine

open Claims

section Issuers

variable {s : State} {q now : Nat} {i j : Issuer} {l : List Issuer} {h : Issuer → Pace → Pace}

theorem warpIssuer_unique (hids : (s.warps.map (·.id)).Nodup) (hi : i ∈ s.issuers q) (hj : j ∈ s.issuers q) (hih : i.hnd = false) (hjh : j.hnd = false)
    (hid : i.w.id = j.w.id) : i = j := by
  obtain ⟨hiw, hi'⟩ := warpIssuer_of_mem hi hih
  obtain ⟨hjw, hj'⟩ := warpIssuer_of_mem hj hjh
  rw [hi', hj', List.inj_on_of_nodup_map hids hiw hjw hid]

theorem issuers_nodup (hids : (s.warps.map (·.id)).Nodup) : (s.issuers q).Nodup := by
  unfold State.issuers
  refine List.Nodup.append ?_ ?_ ?_
  · exact ((List.Nodup.of_map _ hids).filter _).map fun a b hab => (Issuer.mk.inj hab).1
  · split
    · exact List.nodup_nil
    · split
      · split
        · exact List.nodup_singleton _
        · exact List.nodup_nil
      · exact List.nodup_nil
  · intro a ha hb
    obtain ⟨w, -, rfl⟩ := List.mem_map.1 ha
    split at hb
    · cases hb
    · split at hb
      · split at hb
        · cases List.mem_singleton.1 hb
        · cases hb
      · cases hb

/-- Where each issuer of a list changes its own pace, a warp's changes once. -/
theorem warpPaces_of_mem (hids : (s.warps.map (·.id)).Nodup) (hl : l.Nodup) (hsub : ∀ j ∈ l, j ∈ s.issuers q) (hi : i ∈ l) (hh : i.hnd = false) (p : Pace) :
    warpPaces l h i.w.id p = h i p := by
  refine (foldl_only hl hi (fun j hj hne p => ?_) p).trans (if_pos ⟨hh, rfl⟩)
  exact if_neg fun ⟨hjh, hid⟩ => hne (warpIssuer_unique hids (hsub j hj) (hsub i hi) hjh hh hid)

theorem bankPaces_of_mem (hl : l.Nodup) (hsub : ∀ j ∈ l, j ∈ s.issuers q) (hi : i ∈ l) (hh : i.hnd = true) (p : Pace) : bankPaces l h p = h i p := by
  refine (foldl_only hl hi (fun j hj hne p => ?_) p).trans (if_pos hh)
  exact if_neg fun hjh => hne (bankIssuer_unique (hsub j hj) (hsub i hi) hjh hh)

theorem repaced_pace_of_mem (hids : (s.warps.map (·.id)).Nodup) (hl : l.Nodup) (hsub : ∀ j ∈ l, j ∈ s.issuers q) (hi : i ∈ l) :
    (i.repaced (warpPaces l h) (bankPaces l h)).pace = h i i.pace := by
  unfold Issuer.repaced
  cases hh : i.hnd with
  | true => exact bankPaces_of_mem hl hsub hi hh _
  | false => exact warpPaces_of_mem hids hl hsub hi hh _

theorem mem_offersAt {o : Offer} : o ∈ s.offersAt q now ↔ o.i ∈ s.issuers q ∧ s.offer o.i = some o ∧ s.ready o now = true := by
  simp only [State.offersAt, List.mem_filter, List.mem_filterMap]
  constructor
  · rintro ⟨⟨j, hj, ho⟩, hr⟩
    obtain rfl := offer_issuer ho
    exact ⟨hj, ho, hr⟩
  · rintro ⟨hj, ho, hr⟩
    exact ⟨⟨o.i, hj, ho⟩, hr⟩

/-- An issuer makes one offer. -/
theorem offersAt_unique {o p : Offer} (ho : o ∈ s.offersAt q now) (hp : p ∈ s.offersAt q now) (h : o.i = p.i) : o = p := by
  obtain ⟨-, ho, -⟩ := mem_offersAt.1 ho
  obtain ⟨-, hp, -⟩ := mem_offersAt.1 hp
  exact Option.some.inj (ho.symm.trans (h ▸ hp))

theorem offersAt_nodup (hids : (s.warps.map (·.id)).Nodup) : (s.offersAt q now).Nodup :=
  (List.Nodup.filterMap (fun _ _ _ hj hj' => (offer_issuer hj).symm.trans (offer_issuer hj')) (issuers_nodup hids)).filter _

theorem repaced_ids {f : Nat → Pace → Pace} {g : Pace → Pace} : (s.repaced q f g).warps.map (·.id) = s.warps.map (·.id) := List.map_map ..

/-- A warp is found by its identity. -/
theorem warp?_of_mem (hids : (s.warps.map (·.id)).Nodup) {w : Warp} (hw : w ∈ s.warps) : s.warp? w.id = some w := by
  cases hf : s.warp? w.id with
  | none => simpa using List.find?_eq_none.1 hf w hw
  | some v => exact congrArg some (List.inj_on_of_nodup_map hids (List.mem_of_find?_eq_some hf) hw (warp?_id hf))

end Issuers

/-! ## What blocks count (R306) -/

section Missed

variable {s : State} {q now : Nat}

/-- Blocks count the cycles that they missed, and change in nothing else that an issuer reads. -/
theorem missed_counts (s : State) (q now : Nat) : ∃ f : Block → Block, (∀ x, (f x).id = x.id ∧ (f x).cg = x.cg) ∧
    s.missed q now = { s with blocks := s.blocks.map f } := by
  unfold State.missed
  generalize blocksOf _ = ks
  suffices fold : ∀ t : State, (∃ f : Block → Block, (∀ x, (f x).id = x.id ∧ (f x).cg = x.cg) ∧ t = { s with blocks := s.blocks.map f }) →
      ∃ f : Block → Block, (∀ x, (f x).id = x.id ∧ (f x).cg = x.cg) ∧ ks.foldl (fun s k => s.countMissed q now k) t = { s with blocks := s.blocks.map f } from
    fold s ⟨id, fun _ => ⟨rfl, rfl⟩, by rw [List.map_id]⟩
  induction ks with
  | nil => exact fun t ht => ht
  | cons k r ih =>
    rintro _ ⟨f, hf, rfl⟩
    rw [List.foldl_cons]
    refine ih _ ?_
    unfold State.countMissed State.onBlock
    dsimp only
    rw [List.map_map]
    refine ⟨_, fun x => ?_, rfl⟩
    have := hf x
    simp only [Function.comp_apply]
    split
    · split <;> exact this
    · exact this

theorem missed_issuers : (s.missed q now).issuers q = s.issuers q := by
  obtain ⟨f, hf, he⟩ := missed_counts s q now
  have group : ∀ w, (s.missed q now).warpGroup w = s.warpGroup w := fun w => by
    unfold State.warpGroup State.block?
    rw [he]
    dsimp only
    rw [List.find?_map, show (fun b : Block => decide (b.id = w.blk)) ∘ f = fun b => decide (b.id = w.blk) from funext fun x => by simp [hf]]
    cases s.blocks.find? fun b => decide (b.id = w.blk) with
    | none => rfl
    | some b => simp only [Option.map_some, Option.bind_some, (hf b).2]; rfl
  have may : ∀ w, (s.missed q now).mayIssue w = s.mayIssue w := fun w => by
    unfold State.mayIssue State.leafSaving
    rw [group, he]
    rfl
  unfold State.issuers
  simp only [may]
  rw [he]
  rfl

theorem missed_quad (k : Nat) : (s.missed q now).quad k = s.quad k := by
  obtain ⟨_, -, he⟩ := missed_counts s q now
  rw [he]
  rfl

theorem missed_quads : (s.missed q now).quads = s.quads := by
  obtain ⟨_, -, he⟩ := missed_counts s q now
  rw [he]

theorem missed_warps : (s.missed q now).warps = s.warps := by
  obtain ⟨_, -, he⟩ := missed_counts s q now
  rw [he]

theorem missed_iss : (s.missed q now).iss = s.iss := by
  obtain ⟨_, -, he⟩ := missed_counts s q now
  rw [he]

theorem missed_eligible : (s.missed q now).eligible = s.eligible := by
  obtain ⟨_, -, he⟩ := missed_counts s q now
  rw [he]
  rfl

end Missed

end Sys2Proof.Machine

/-! SUPPORT. What a slot given to one of several offers leaves (R105). -/

namespace Sys2Proof.Machine

open Claims

/-! ## What an issue counts -/

section Counts

variable {s : State} {q now : Nat} {o : Offer}

theorem onBank_slotAt (k : Nat) (f : Bank → Bank) (q : Nat) : ((s.onBank k f).quad q).slotAt = (s.quad q).slotAt := by
  simp only [State.onBank, quad_onQuad]
  split
  next hk => subst hk; rfl
  · rfl

theorem onLanes_slotAt (w : Warp) (hnd : Bool) (m : Mask) (f : Lane → Lane) (q : Nat) : ((s.onLanes w hnd m f).quad q).slotAt = (s.quad q).slotAt := by
  unfold State.onLanes
  split
  · exact onBank_slotAt ..
  · rfl

theorem pace_slotAt_same (i : Issuer) (k : Pace → Pace) (q : Nat) : ((s.pace i k).quad q).slotAt = (s.quad q).slotAt := by
  unfold State.pace
  split
  · exact onBank_slotAt ..
  · rfl

theorem passedOnce_slotAt : ((passedOnce s q o).quad q).slotAt = (s.quad q).slotAt := by
  have lanes := onLanes_slotAt (s := s) o.i.w o.i.hnd o.m (fun l => { l with park := .run }) q
  unfold passedOnce
  dsimp only
  split
  · exact (onBank_slotAt ..).trans lanes
  · exact lanes

theorem counts_slotAt : ((s.counts o q).quad q).slotAt = (s.quad q).slotAt := by
  rw [counts_eq, quad_onQuad_same]
  exact (pace_slotAt_same ..).trans passedOnce_slotAt

theorem counts_lastSlot : ((s.counts o q).quad q).lastSlot = o.i.w.slot := by rw [counts_eq, quad_onQuad_same]

theorem onWarp_warp?_of_ne {m n : Nat} (h : n ≠ m) {f : Warp → Warp} (hf : ∀ w, (f w).id = w.id) : (s.onWarp m f).warp? n = s.warp? n := by
  rw [warp?_onWarp _ _ hf]
  simp [h]

/-- An issue leaves every warp but its own, and a handler's every warp. -/
theorem counts_warp? {n : Nat} (h : o.i.hnd = true ∨ n ≠ o.i.w.id) : (s.counts o q).warp? n = s.warp? n := by
  have lanes : (s.onLanes o.i.w o.i.hnd o.m fun l => { l with park := .run }).warp? n = s.warp? n := by
    unfold State.onLanes
    split
    · rfl
    next hh => exact onWarp_warp?_of_ne (h.resolve_left hh) fun _ => rfl
  have passed : (passedOnce s q o).warp? n = s.warp? n := by
    unfold passedOnce
    dsimp only
    split
    · exact lanes
    next hh =>
      refine (onWarp_warp?_of_ne (h.resolve_left hh) ?_).trans lanes
      exact fun _ => rfl
  have paced : ∀ t : State, (t.pace o.i Pace.cleared).warp? n = t.warp? n := fun t => by
    unfold State.pace
    split
    · rfl
    next hh => exact onWarp_warp?_of_ne (h.resolve_left hh) fun _ => rfl
  rw [counts_eq]
  exact (paced _).trans passed

/-- What an offer of an instruction leaves when it takes the slot. -/
theorem take_run {i : Instr} (h : o.fate = .run i) : s.take o q now =
    { (if o.arrives then s else s.counts o q) with nextId := (if o.arrives then s else s.counts o q).nextId + 1, iss := o.latch q now } := by
  simp only [State.take, h]

theorem take_run_iss {i : Instr} (h : o.fate = .run i) : (s.take o q now).iss = o.latch q now := by rw [take_run h]

theorem take_run_slotAt {i : Instr} (h : o.fate = .run i) : ((s.take o q now).quad q).slotAt = (s.quad q).slotAt := by
  rw [take_run h]
  change ((if o.arrives then s else s.counts o q).quad q).slotAt = _
  split
  · rfl
  · exact counts_slotAt

theorem take_run_lastSlot {i : Instr} (h : o.fate = .run i) (ha : o.arrives = false) : ((s.take o q now).quad q).lastSlot = o.i.w.slot := by
  rw [take_run h, ha]
  exact counts_lastSlot

theorem take_run_warp? {i : Instr} {n : Nat} (h : o.fate = .run i) (hn : o.i.hnd = true ∨ n ≠ o.i.w.id) : (s.take o q now).warp? n = s.warp? n := by
  rw [take_run h]
  change (if o.arrives then s else s.counts o q).warp? n = _
  split
  · rfl
  · exact counts_warp? hn

end Counts

/-! ## The slot -/

section Slot

variable {s : State} {q now b : Nat} {is : List Issuer} {l : List Offer} {o : Offer}

/-- The issuers of the ready offers that did not take the slot. -/
def losers (l : List Offer) (o : Offer) : List Issuer := (l.filter fun x => x ≠ o).map (·.i)

/-- A slot of which the time is noted and which others have lost. -/
def State.lost (s : State) (q now b : Nat) (is lost : List Issuer) : State :=
  ((s.onQuad q fun x => { x with slotAt := now + b }).repaced q (warpPaces lost fun _ p => p.passedOver (now + b)) (bankPaces lost fun _ p => p.passedOver (now + b))).repaced q
    (warpPaces is fun _ => Pace.cleared) (bankPaces is fun _ => Pace.cleared)

theorem slot_eq_take (hc : scanon Quad.init s.quads = true) (hl : ∀ x ∈ l, x.i.w.q = q) (his : ∀ i ∈ is, i.w.q = q)
    (h : choose (s.quad q).lastSlot now (l.filter s.eligible) = some o) : s.slot q now b is l = (s.lost q now b is (losers l o)).take o q now := by
  have chosen : choose ((s.onQuad q fun x => { x with slotAt := now + b }).quad q).lastSlot now (l.filter (s.onQuad q fun x => { x with slotAt := now + b }).eligible) = some o := by
    rw [quad_onQuad_same]
    exact h
  have passes := foldl_pace (s := s.onQuad q fun x => { x with slotAt := now + b }) (q := q) (l := losers l o) (fun _ p => p.passedOver (now + b)) (onQuad_canon hc _ _)
    fun i hi => by
      obtain ⟨x, hx, rfl⟩ := List.mem_map.1 hi
      exact hl x (List.mem_filter.1 hx).1
  unfold State.slot
  dsimp only
  rw [chosen]
  dsimp only
  rw [losers, List.foldl_map] at passes
  rw [passes]
  refine congrArg (State.take · o q now) ?_
  exact foldl_pace (fun _ => Pace.cleared) (repaced_quads_canon (onQuad_canon hc _ _) _ _) his

theorem lost_slotAt {lost : List Issuer} : ((s.lost q now b is lost).quad q).slotAt = now + b := by
  unfold State.lost
  rw [repaced_quad, if_pos rfl, repaced_quad, if_pos rfl, quad_onQuad_same]
  rfl

theorem lost_warp? {lost : List Issuer} (n : Nat) : (s.lost q now b is lost).warp? n =
    (s.warp? n).map fun w => (w.repaced (warpPaces lost fun _ p => p.passedOver (now + b))).repaced (warpPaces is fun _ => Pace.cleared) := by
  unfold State.lost
  rw [repaced_warp?, repaced_warp?, Option.map_map]
  rfl

/-- A slot that is given to no offer leaves the latch. -/
theorem slot_none_iss (h : choose (s.quad q).lastSlot now (l.filter s.eligible) = none) : (s.slot q now b is l).iss = s.iss := by
  have paced : ∀ {α : Type} (f : α → Issuer) (k : α → Pace → Pace) (l : List α) (t : State), (l.foldl (fun s x => s.pace (f x) (k x)) t).iss = t.iss := by
    intro α f k l
    induction l with
    | nil => exact fun _ => rfl
    | cons x r ih =>
      intro t
      rw [List.foldl_cons, ih]
      unfold State.pace
      split <;> rfl
  have chosen : choose ((s.onQuad q fun x => { x with slotAt := now + b }).quad q).lastSlot now (l.filter (s.onQuad q fun x => { x with slotAt := now + b }).eligible) = none := by
    rw [quad_onQuad_same]
    exact h
  unfold State.slot
  dsimp only
  rw [chosen]
  exact (paced ..).trans (paced ..)

end Slot

end Sys2Proof.Machine

/-! SUPPORT. The slot of a quadrant of several issuers (R105): the offer that is first in order takes it, and the others are noted. -/

namespace Sys2Proof.Machine

open Claims

/-! ## Readiness noted -/

/-- What an issuer's pace notes at a cycle (R105). -/
def State.notes (s : State) (q now : Nat) (i : Issuer) (p : Pace) : Pace :=
  { p with readySince := if (s.offersAt q now).any fun o => o.i = i then some (p.readySince.getD now) else none }

def State.warpNotes (s : State) (q now : Nat) : Nat → Pace → Pace := warpPaces (s.issuers q) (s.notes q now)
def State.bankNotes (s : State) (q now : Nat) : Pace → Pace := bankPaces (s.issuers q) (s.notes q now)

/-- A quadrant whose issuers have noted their readiness, and an offer of it. -/
def State.noted (s : State) (q now : Nat) : State := s.repaced q (s.warpNotes q now) (s.bankNotes q now)
def Offer.noted (o : Offer) (s : State) (q now : Nat) : Offer := o.repaced (s.warpNotes q now) (s.bankNotes q now)

section Several

variable {s : State} {q now : Nat} {o p : Offer}

theorem notes_rest (s : State) (q now : Nat) (n : Nat) (p : Pace) : (s.warpNotes q now n p).rest = p.rest ∧ (s.bankNotes q now p).rest = p.rest := by
  constructor
  · exact foldl_rest (fun p i => by simp only [Issuer.warpPart]; split <;> rfl) p
  · exact foldl_rest (fun p i => by simp only [Issuer.bankPart]; split <;> rfl) p

theorem noted_offersAt : (s.noted q now).offersAt q now = (s.offersAt q now).map fun o => o.noted s q now :=
  repaced_offersAt (fun n p => (notes_rest s q now n p).1) (fun p => (notes_rest s q now 0 p).2) now

theorem noted_eligibles : ((s.noted q now).offersAt q now).filter (s.noted q now).eligible =
    ((s.offersAt q now).filter s.eligible).map fun o => o.noted s q now :=
  repaced_eligibles (fun n p => (notes_rest s q now n p).1) (fun p => (notes_rest s q now 0 p).2) now

theorem noted_ids : (s.noted q now).warps.map (·.id) = s.warps.map (·.id) := repaced_ids

theorem noted_quad_same : (s.noted q now).quad q = (s.quad q).repaced (s.bankNotes q now) := by
  unfold State.noted
  rw [repaced_quad, if_pos rfl]

theorem noted_yielded (o : Offer) : (o.noted s q now).i.pace.yielded = o.i.pace.yielded := by
  have rest := repaced_rest (fun n p => (notes_rest s q now n p).1) (fun p => (notes_rest s q now 0 p).2) o.i
  simp only [Pace.rest, Prod.mk.injEq] at rest
  exact rest.2.2.1

theorem noted_canon (hc : scanon Quad.init s.quads = true) : scanon Quad.init (s.noted q now).quads = true := repaced_quads_canon hc _ _

/-- A ready issuer is ready since some cycle. -/
theorem noted_readySince (hids : (s.warps.map (·.id)).Nodup) (ho : o ∈ s.offersAt q now) :
    (o.noted s q now).i.pace.readySince = some (o.i.pace.readySince.getD now) := by
  have pace := repaced_pace_of_mem (h := s.notes q now) hids (issuers_nodup hids) (fun _ hj => hj) (mem_offersAt.1 ho).1
  have own : ((s.offersAt q now).any fun x => decide (x.i = o.i)) = true := List.any_eq_true.2 ⟨o, ho, decide_eq_true rfl⟩
  change (o.i.repaced _ _).pace.readySince = _
  rw [State.warpNotes, State.bankNotes, pace, State.notes]
  dsimp only
  rw [own, if_pos rfl]

/-- The order of R105 does not see that readiness is noted. -/
theorem noted_choiceKey (hids : (s.warps.map (·.id)).Nodup) (ho : o ∈ s.offersAt q now) (last : Nat) :
    choiceKey last (o.noted s q now) now = choiceKey last o now := by
  unfold choiceKey
  rw [noted_readySince hids ho]
  rfl

/-! ## The cycle -/

section Cycle

variable (h : Several s q)

include h

theorem exec_of_several : exec (.issueSlot q) s =
    .next (((s.noted q (s.quad q).cycle).giveSlot q (s.quad q).cycle).onQuad q fun x => { x with cycle := x.cycle + 1 }) := by
  have past : ∀ j ∈ s.issuers q, Past s j := fun j hj => by
    obtain ⟨hacq, -, hgroup⟩ := h.tested j hj
    exact ⟨hacq, hgroup⟩
  have fetches : (s.issuers q).foldl (fun s j => s.recFetch j) s = s := foldl_unchanged h.came
  have notes : s.noteReady (s.issuers q) (s.offersAt q (s.quad q).cycle) (s.quad q).cycle = s.noted q (s.quad q).cycle :=
    foldl_pace (s.notes q (s.quad q).cycle) h.canon fun j hj => (h.tested j hj).2.1
  rw [exec_issueSlot h.on.1 h.on.2 past, fetches, State.slotCycle, notes]

theorem noted_slotDue : (s.noted q (s.quad q).cycle).slotDue q (s.quad q).cycle = true := by
  rw [State.slotDue, noted_quad_same]
  exact decide_eq_true h.slot

/-- The slot is given once blocks have counted the cycle. -/
theorem giveSlot_of_several : (s.noted q (s.quad q).cycle).giveSlot q (s.quad q).cycle = ((s.noted q (s.quad q).cycle).missed q (s.quad q).cycle).slot q (s.quad q).cycle
    (s.quad q).beats ((s.noted q (s.quad q).cycle).issuers q) ((s.noted q (s.quad q).cycle).offersAt q (s.quad q).cycle) := by
  have beats : ((s.noted q (s.quad q).cycle).quad q).beats = (s.quad q).beats := repaced_beats q
  rw [State.giveSlot, noted_slotDue h, if_pos rfl, missed_issuers, missed_quad, beats]

/-- Nothing is issued where no offer may take the slot. -/
theorem several_none (hr : rivals s q = []) : ∃ t, exec (.issueSlot q) s = .next t ∧ t.iss = s.iss := by
  refine ⟨_, exec_of_several h, ?_⟩
  have none : ((s.noted q (s.quad q).cycle).offersAt q (s.quad q).cycle).filter ((s.noted q (s.quad q).cycle).missed q (s.quad q).cycle).eligible = [] := by
    rw [missed_eligible, noted_eligibles]
    exact List.map_eq_nil_iff.2 hr
  rw [giveSlot_of_several h, onQuad_iss, slot_none_iss (by rw [none]; exact choose_nil _ _), missed_iss]
  rfl

/-- The rival that goes before every other is chosen. -/
theorem choose_of_several (ho : o ∈ rivals s q) (hy : o.i.pace.yielded = false ∨ ∀ p ∈ rivals s q, p.i.pace.yielded = true)
    (hb : ∀ p ∈ rivals s q, p ≠ o → p.i.pace.yielded = o.i.pace.yielded → goesBefore (s.quad q).lastSlot (s.quad q).cycle o p) :
    choose (s.quad q).lastSlot (s.quad q).cycle ((rivals s q).map fun o => o.noted s q (s.quad q).cycle) = some (o.noted s q (s.quad q).cycle) := by
  refine choose_eq_some (List.mem_map_of_mem ho) ?_ fun p' hp' hne hpy => ?_
  · rw [noted_yielded]
    refine hy.imp id fun hall p' hp' => ?_
    obtain ⟨p, hp, rfl⟩ := List.mem_map.1 hp'
    rw [noted_yielded, hall p hp]
  · obtain ⟨p, hp, rfl⟩ := List.mem_map.1 hp'
    rw [noted_yielded, noted_yielded] at hpy
    rw [noted_choiceKey h.ids (List.mem_filter.1 ho).1, noted_choiceKey h.ids (List.mem_filter.1 hp).1]
    exact choiceKey_lt (hb p hp (fun e => hne (e ▸ rfl)) hpy)

end Cycle

end Several

end Sys2Proof.Machine

/-! PROOF. R16, R32, R54, R56, R103 to R105, R107, R207, R240: which lanes issue next, and what the slot does with them. -/

namespace Sys2Proof.Machine

open Claims

/-! ## The slot of several -/

section Losers

variable {s : State} {q now : Nat} {o p : Offer}

theorem losers_nodup (hids : (s.warps.map (·.id)).Nodup) : (losers (s.offersAt q now) o).Nodup :=
  List.Nodup.map_on (fun _ hx _ hy => offersAt_unique (List.mem_filter.1 hx).1 (List.mem_filter.1 hy).1) ((offersAt_nodup hids).filter _)

theorem mem_issuers_of_loser {j : Issuer} (hj : j ∈ losers (s.offersAt q now) o) : j ∈ s.issuers q := by
  obtain ⟨x, hx, rfl⟩ := List.mem_map.1 hj
  exact (mem_offersAt.1 (List.mem_filter.1 hx).1).1

/-- A warp's ready offer shares its warp's identity with no other warp's. -/
theorem offer_eq_of_id (hids : (s.warps.map (·.id)).Nodup) (ho : o ∈ s.offersAt q now) (hp : p ∈ s.offersAt q now) (hh : p.i.hnd = false) (hoh : o.i.hnd = false)
    (hid : p.i.w.id = o.i.w.id) : p = o :=
  offersAt_unique hp ho (warpIssuer_unique hids (mem_offersAt.1 hp).1 (mem_offersAt.1 ho).1 hh hoh hid)

/-- A warp that was ready and did not take the slot: it has been ready since some cycle, but since the next slot where it stood back, and stands back no more. -/
theorem lost_warp (hids : (s.warps.map (·.id)).Nodup) (hp : p ∈ s.offersAt q now) (hne : p ≠ o) (hh : p.i.hnd = false) {t : State} (ht : t.warps = s.warps) (b : Nat) :
    ∃ v, (t.lost q now b (s.issuers q) (losers (s.offersAt q now) o)).warp? p.i.w.id = some v ∧ v.pace = (p.i.pace.passedOver (now + b)).cleared := by
  obtain ⟨hpi, -, -⟩ := mem_offersAt.1 hp
  obtain ⟨hpw, hp'⟩ := warpIssuer_of_mem hpi hh
  have found : t.warp? p.i.w.id = some p.i.w := (congrArg (List.find? _) ht).trans (warp?_of_mem hids hpw)
  have lost : p.i ∈ losers (s.offersAt q now) o := List.mem_map_of_mem (List.mem_filter.2 ⟨hp, decide_eq_true hne⟩)
  have pace : p.i.w.pace = p.i.pace := by rw [hp']
  rw [lost_warp?, found]
  refine ⟨_, rfl, ?_⟩
  unfold Warp.repaced
  dsimp only
  rw [warpPaces_of_mem hids (losers_nodup hids) (fun _ => mem_issuers_of_loser) lost hh,
    warpPaces_of_mem hids (issuers_nodup hids) (fun _ hj => hj) hpi hh, pace]

end Losers

/-- Of several that are ready the first in order takes the slot, and the others are ready since some cycle (R105). -/
theorem several_takes {s : State} {q : Nat} {o : Offer} {i : Instr} (h : Several s q) (ho : o ∈ rivals s q) (hf : o.fate = .run i)
    (hy : o.i.pace.yielded = false ∨ ∀ p ∈ rivals s q, p.i.pace.yielded = true)
    (hb : ∀ p ∈ rivals s q, p ≠ o → p.i.pace.yielded = o.i.pace.yielded → goesBefore (s.quad q).lastSlot (s.quad q).cycle o p) :
    ∃ t, exec (.issueSlot q) s = .next t ∧ t.iss = o.latch q (s.quad q).cycle ∧ (t.quad q).slotAt = (s.quad q).cycle + (s.quad q).beats ∧
      (o.arrives = false → (t.quad q).lastSlot = o.i.w.slot) ∧
      ∀ p ∈ rivals s q, p ≠ o → p.i.hnd = false → ∃ v, t.warp? p.i.w.id = some v ∧ v.pace.yielded = false ∧
        v.pace.readySince = some (if p.i.pace.yielded then (s.quad q).cycle + (s.quad q).beats else p.i.pace.readySince.getD (s.quad q).cycle) := by
  have hids : ((s.noted q (s.quad q).cycle).warps.map (·.id)).Nodup := by rw [noted_ids]; exact h.ids
  have homes : ∀ j ∈ (s.noted q (s.quad q).cycle).issuers q, j.w.q = q := fun j hj => by
    rw [State.noted, repaced_issuers] at hj
    obtain ⟨i, hi, rfl⟩ := List.mem_map.1 hj
    exact (h.tested i hi).2.1
  have last : ((s.noted q (s.quad q).cycle).quad q).lastSlot = (s.quad q).lastSlot := by rw [noted_quad_same]; rfl
  have chosen : choose (((s.noted q (s.quad q).cycle).missed q (s.quad q).cycle).quad q).lastSlot (s.quad q).cycle
      (((s.noted q (s.quad q).cycle).offersAt q (s.quad q).cycle).filter ((s.noted q (s.quad q).cycle).missed q (s.quad q).cycle).eligible) =
      some (o.noted s q (s.quad q).cycle) := by
    rw [missed_quad, last, missed_eligible, noted_eligibles]
    exact choose_of_several h ho hy hb
  have canon : scanon Quad.init ((s.noted q (s.quad q).cycle).missed q (s.quad q).cycle).quads = true := by
    rw [missed_quads]
    exact noted_canon h.canon
  have hf' : (o.noted s q (s.quad q).cycle).fate = .run i := hf
  refine ⟨_, exec_of_several h, ?_⟩
  rw [giveSlot_of_several h, slot_eq_take canon (fun x hx => homes _ (mem_offersAt.1 hx).1) homes chosen]
  refine ⟨take_run_iss hf', ?_, fun ha => ?_, fun p hp hne hh => ?_⟩
  · rw [quad_onQuad_same]
    exact (take_run_slotAt hf').trans lost_slotAt
  · rw [quad_onQuad_same]
    exact take_run_lastSlot hf' ha
  · have hor := (List.mem_filter.1 ho).1
    have hpr := (List.mem_filter.1 hp).1
    have noted : ∀ x ∈ s.offersAt q (s.quad q).cycle, x.noted s q (s.quad q).cycle ∈ (s.noted q (s.quad q).cycle).offersAt q (s.quad q).cycle := fun x hx => by
      rw [noted_offersAt]
      exact List.mem_map_of_mem hx
    have other : o.i.hnd = true ∨ p.i.w.id ≠ o.i.w.id := by
      cases hoh : o.i.hnd with
      | true => exact .inl rfl
      | false => exact .inr fun hid => hne (offer_eq_of_id h.ids hor hpr hh hoh hid)
    have hne' : p.noted s q (s.quad q).cycle ≠ o.noted s q (s.quad q).cycle := fun e => by
      have hnd : p.i.hnd = o.i.hnd := congrArg (·.i.hnd) e
      have hid : p.i.w.id = o.i.w.id := congrArg (·.i.w.id) e
      exact other.elim (fun hoh => absurd (hh.symm.trans (hnd.trans hoh)) (by decide)) fun hne => hne hid
    obtain ⟨v, hv, hpace⟩ := lost_warp hids (noted p hpr) hne' hh missed_warps (s.quad q).beats
    refine ⟨v, (take_run_warp? hf' other).trans hv, by rw [hpace]; rfl, ?_⟩
    rw [hpace]
    change (if (p.noted s q (s.quad q).cycle).i.pace.yielded then _ else (p.noted s q (s.quad q).cycle).i.pace.readySince) = _
    rw [noted_yielded, noted_readySince h.ids hpr]
    split <;> rfl

/-! ## The whole -/

theorem exec_issueSlot_rewriting {s : State} {q : Nat} (h : (s.quad q).rewriting = true) : exec (.issueSlot q) s = .next s := by
  change execIssueSlot q s = _
  simp only [execIssueSlot, h, if_true]

theorem slotTakesOffer : Claims.SlotTakesOffer := by
  refine ⟨fate_cases, fun s r q i o h hg => ?_, fun s q o i h ho hf => several_takes h ho hf, fun s q => several_none, fun s q hi hrw hc => exec_issueSlot_idle hi hrw hc,
    fun s q => exec_issueSlot_rewriting, fun s i => ?_⟩
  · obtain rfl : o.i = i := offer_issuer h.offer
    obtain ⟨hm, hpos, hsync⟩ := offer_mask h.offer
    refine ⟨arrives_iff o, hm, hpos, hsync, fun ins => offer_decodes h.offer, (lone_takes h hg).trans ?_⟩
    unfold taken
    rfl
  · obtain ⟨n, f, he, hf⟩ := recFetch_reads s i
    exact ⟨_, f, he, rfl, hf⟩

/-- Settles O40: the groups are selected as R103 and R104 say, and a slot is followed through the parts of its cycle: the changes of paces are one change of all
paces, under which issuers, offers, readiness and choice stay what they are. -/
theorem slotIssuesTheOffer : Obligations.SlotIssuesTheOffer := ⟨groupsAreSelected, slotTakesOffer⟩

end Sys2Proof.Machine

/-! SUPPORT. The round trip of every instruction, put together from the laws of the constructors, and the manual's own words. -/

namespace Sys2Proof.Laws.RoundTrip

/-- The round trip of every instruction: the laws of the constructors, in the order of the constructors. -/
theorem statement_of_instr (i : Instr) : Statement i := Instr.casesOn (motive := Statement) i
  -- V integer (R140)
  iadd isub imul imulh imad imadw iadd64 imin imax iabs ishl ishr lshr rot and or xor andn popc clz brev bfx bfi iset sel mov movi iaddi movx movxSt
  movxw lea idot4
  -- V float (R145)
  fadd fsub fmul ffma fmin fmax fset fclass frcp frsq fsqrt fexp2 flog2 fdiv frnd fcvt ftoi itof fsign hfma2 hadd2 hmul2
  -- V narrow (R153)
  qdec qenc qscale qxtra
  -- V cross-lane and predicate (R158)
  shfl vote vred vscan plop pmov umov
  -- V control (R109)
  bra brx call ret exit cdecl cdeclIss csign csignNw yield nop brk trap
  -- M (R182, R259, R260, R263, R268, R270)
  ld st ldro lds sts atom atoms redo fence roinv pref bar cbar qpush qpop notify gtrig zline
  -- T (R214, R239) and copies (R195)
  tdef tdefs tdefa tkill tld tst trow rcfence mma mmalr adapt aclr arow arowSt aflag adpfD adpfU adpfInv adpfInvd cpy cpybt tkwait
  -- S (R299)
  featq livept sysr sysw hretRetry hretSkip hretEsc hget hset clock pmc
  -- events, which no word encodes: the cores'
  issueSlot instructionFetchFill handlerEntry loadReturn deferredDataAbort storeAck storeFail homeSliceAccess translationWalkEnd pageRequestRingRoom
  pageServiceBoundExpiry pageResponseWrite flushnWrite flushComplete copyEngineStart copyLand copyFail tileDefinitionFetch tileDefinitionLands
  tileReaderDone matrixEngineEntry matrixCommit adapterFillStart adapterFillLands adapterFillFail adapterRowReplay laneCheckFail
  concordanceRewriteDone columnCheckFail columnRewriteDone
  -- placement's
  schedulerPass headHoldTimeout bandwidthWindowEnd warpEnd blockEnd redoEntryArrival redoEntryResend channelDepartureStart evacuatorLineStep
  sliceDeparture
  -- the front end's
  runCommand translationComplete runComplete copyCommand copyCommandComplete graphCommand signalCommand waitCommand waitPoll waitTimeout
  loadgraphCommand loadgraphComplete graphRunStart graphNodeRun graphNodeCopy graphNodeSignal graphNodeWait graphNodeIf graphNodeLoop
  graphNodeTrigger eventRingRoom tagMessageArrival tagLaunch queueTailWrite queueEnable queueAck errsumClear graphTriggerWrite graphTriggerReset
  hostInterruptWrite hostInterruptRead hostInterruptTimer queueWakeWrite queueWakeRead notifyLatchWrite notifyWakeMerge notifyClassEntryWrite
  workQueueEnable groupEnable groupDisable
  -- pre-emption's and removal's
  pctlGo pctlGoMigrate pctlRemove preemptStop preemptBoundExpiry saveEngine removalDrainTimeout
  -- those of the inventory, errors, power and boot
  inventoryPassStart inventoryDrainTimeout inventoryScanEnd uncorrectableError correctedError verticalParityFail verticalBeatRetry wireTestEnd
  ageingMonitorRead powerSample alarmClockStep powerUpReset bootgo attgo invctlWrite pwrlimWrite registerWrite hostLinkDown remoteDeviceReset
  bootVerificationEnd retirementRecordApplied attestationReportComplete notifyApertureGating clockGlideEnd powerLoss fabricLinkDown

/-- Settles O38, constructor by constructor: the law of each says that its fields read back as they were put in. -/
theorem decodeEncodeRoundTrip : Obligations.DecodeEncodeRoundTrip := fun i w hwf henc => statement_of_instr i hwf w henc

/-- Settles O37: each word that the manual writes out is the encoding of the instruction that it gives the word for, so it decodes to that instruction. -/
theorem decodeWords : Obligations.DecodeWords := by
  unfold Obligations.DecodeWords
  and_intros <;> exact decodeEncodeRoundTrip _ _ rfl rfl

end Sys2Proof.Laws.RoundTrip

/-! SUPPORT. What the decoder gives for a word: only instructions of the word's own opcode (R36, R54), so that a decoded instruction tells which arm of the
decoder gave it. -/

namespace Sys2Proof

/-- Everything that `o` can give has property `p`. -/
def Yields (p : Instr → Prop) (o : Option Instr) : Prop := ∀ i, o = some i → p i

/-- `i` stands in words of opcode `op`. -/
def HasOpcode (op : Nat) (i : Instr) : Prop := ∃ c b, encode i = some (encWord (BitVec.ofNat 10 op) c b)

section Yields

variable {p : Instr → Prop}

theorem Yields.none : Yields p .none := fun _ h => nomatch h

theorem Yields.some {i : Instr} (h : p i) : Yields p (.some i) := fun _ e => Option.some.inj e ▸ h

/-- What a field reads, or whether a check holds, is left open. -/
theorem Yields.bind {α : Type} {x : Option α} {f : α → Option Instr} (h : ∀ a, Yields p (f a)) : Yields p (x >>= f) := fun i e =>
  have ⟨a, _, ha⟩ := Option.bind_eq_some_iff.mp e
  h a i ha

theorem Yields.ite {c : Prop} [Decidable c] {x y : Option Instr} (hx : Yields p x) (hy : Yields p y) : Yields p (if c then x else y) := by
  split
  · exact hx
  · exact hy

end Yields

/-! ## Group by group (R55) -/

section Groups

variable (c : Common) (b : Body)

theorem decInt_opcode (op : Nat) : Yields (HasOpcode op) (decInt c op b) := by
  unfold decInt
  split
  case h_29 => -- MOVX and MOVX.ST
    refine .bind fun _ => .bind fun x => ?_
    cases x <;> exact .some ⟨_, _, rfl⟩
  case h_33 => exact .none
  all_goals
    repeat refine .bind fun _ => ?_
    exact .some ⟨_, _, rfl⟩

theorem decFloat_opcode (op : Nat) : Yields (HasOpcode op) (decFloat c op b) := by
  unfold decFloat
  split
  case h_23 => exact .none
  all_goals
    repeat refine .bind fun _ => ?_
    exact .some ⟨_, _, rfl⟩

theorem decNarrow_opcode (op : Nat) : Yields (HasOpcode op) (decNarrow c op b) := by
  unfold decNarrow
  split
  case h_5 => exact .none
  all_goals
    repeat refine .bind fun _ => ?_
    exact .some ⟨_, _, rfl⟩

theorem decCross_opcode (op : Nat) : Yields (HasOpcode op) (decCross c op b) := by
  unfold decCross
  split
  case h_8 => exact .none
  all_goals
    repeat refine .bind fun _ => ?_
    exact .some ⟨_, _, rfl⟩

theorem decControl_opcode (op : Nat) : Yields (HasOpcode op) (decControl c op b) := by
  unfold decControl
  split
  case h_6 => -- CDECL and CDECL.ISS
    refine .bind fun x => .bind fun r => ?_
    exact .ite (.ite (.ite (.some ⟨_, _, rfl⟩) .none) .none) (.some ⟨_, _, rfl⟩)
  case h_7 => -- CSIGN and CSIGN.NW
    refine .bind fun _ => .bind fun _ => .bind fun x => ?_
    cases x <;> exact .some ⟨_, _, rfl⟩
  case h_12 => exact .none
  all_goals
    repeat refine .bind fun _ => ?_
    exact .some ⟨_, _, rfl⟩

theorem decMem_opcode (op : Nat) : Yields (HasOpcode op) (decMem c op b) := by
  unfold decMem
  split
  case h_19 => exact .none
  all_goals
    repeat refine .bind fun _ => ?_
    exact .some ⟨_, _, rfl⟩

theorem decTile_opcode (op : Nat) : Yields (HasOpcode op) (decTile c op b) := by
  unfold decTile
  split
  case h_13 => -- AROW and AROW.ST
    refine .bind fun _ => .bind fun _ => .bind fun x => ?_
    cases x <;> exact .some ⟨_, _, rfl⟩
  case h_15 => -- ADPF's four forms
    refine .bind fun _ => .bind fun _ => .bind fun _ => .bind fun _ => ?_
    split
    · exact .some ⟨_, _, rfl⟩
    · exact .some ⟨_, _, rfl⟩
    · exact .ite (.ite (.some ⟨_, _, rfl⟩) .none) .none
    · exact .ite (.ite (.some ⟨_, _, rfl⟩) .none) .none
  case h_19 => exact .none
  all_goals
    repeat refine .bind fun _ => ?_
    exact .some ⟨_, _, rfl⟩

theorem decSys_opcode (op : Nat) : Yields (HasOpcode op) (decSys c op b) := by
  unfold decSys
  split
  case h_5 => -- HRET's three forms
    refine .bind fun _ => ?_
    split
    · exact .some ⟨_, _, rfl⟩
    · exact .some ⟨_, _, rfl⟩
    · exact .some ⟨_, _, rfl⟩
    · exact .none
  case h_10 => exact .none
  all_goals
    repeat refine .bind fun _ => ?_
    exact .some ⟨_, _, rfl⟩

/-- An opcode gives only instructions of that opcode. -/
theorem decOp_opcode (op : Nat) : Yields (HasOpcode op) (decOp c op b) :=
  .ite (decInt_opcode c b op) <| .ite (decFloat_opcode c b op) <| .ite (decNarrow_opcode c b op) <| .ite (decCross_opcode c b op) <|
  .ite (decControl_opcode c b op) <| .ite (decMem_opcode c b op) <| .ite (decTile_opcode c b op) <| .ite (decSys_opcode c b op) .none

end Groups

/-! ## Words -/


/-- A decoded instruction, from its word's opcode and format fields. -/
theorem decOp_of_decode {w : Word64} {i : Instr} (h : decode w = .ok i) : ∃ c, decOp c (opcodeOf w).toNat (w.extractLsb' 0 44) = some i := by
  unfold decode at h
  split at h
  · cases h
  · split at h
    · cases h
    · next hi => exact ⟨_, Except.ok.inj h ▸ hi⟩

/-- A word has the opcode of the instruction that it decodes to. -/
theorem opcode_of_decode {w : Word64} {i : Instr} {op : BitVec 10} {c : Common} {b : Body} (h : decode w = .ok i) (he : encode i = some (encWord op c b)) :
    opcodeOf w = op := by
  obtain ⟨c', hd⟩ := decOp_of_decode h
  obtain ⟨c'', b'', he'⟩ := decOp_opcode c' _ _ i hd
  rw [BitVec.ofNat_toNat, BitVec.setWidth_eq] at he'
  have hw : encWord (opcodeOf w) c'' b'' = encWord op c b := Option.some.inj (he'.symm.trans he)
  rw [← op_enc (opcodeOf w) c'' b'', hw, op_enc]

/-- A check that stands before what decodes holds. -/
theorem need_of_bind {x : Prop} [Decidable x] {o : Option Instr} {i : Instr} (h : (need (decide x) >>= fun _ => o) = some i) : x := by
  obtain ⟨_, hx, _⟩ := Option.bind_eq_some_iff.mp h
  by_contra hn
  simp [need, hn] at hx

/-- The format fields of NOP and of YIELD are zero (R105, R116). -/
theorem body_zero_of_decode {w : Word64} {c : Common} (h : decode w = .ok (.nop c) ∨ decode w = .ok (.yield c)) : w.extractLsb' 0 44 = 0#44 := by
  rcases h with h | h
  all_goals
    have hop := opcode_of_decode h rfl
    obtain ⟨c', hd⟩ := decOp_of_decode h
    rw [hop] at hd
    exact need_of_bind hd

end Sys2Proof

/-! SUPPORT. Instructions that only advance (R101, R105, R116), and what follows their issue (R48). -/

namespace Sys2Proof.Machine

open Claims

/-- Lanes moved to the position after the instruction, as a mask's lanes are. -/
theorem laneAt_advanced (s : State) (m : Mask) (L : List Lane) {n : Nat} (hn : n < L.length) :
    laneAt (mapLanes m (Lane.goto (nextPos s.iss.hdr s.iss.idx s.iss.count)) L) n =
      inMask m (fun _ => Lane.goto (nextPos s.iss.hdr s.iss.idx s.iss.count)) n (laneAt L n) := laneAt_mapLanes _ _ _ _ hn

/-- A lane whose exception flags grow by none. -/
theorem fpfl_grown_none (x : Lane) : { x with fpfl := x.fpfl ||| 0 } = x := congrArg (fun e => { x with fpfl := e }) BitVec.or_zero

/-- The lanes that advance are the bank's in a handler (R290) and the warp's outside one; no register is touched. -/
theorem advanceMovesLanes : Claims.AdvanceMovesLanes := by
  unfold Claims.AdvanceMovesLanes
  intro s w m hw hl
  cases hh : s.iss.hnd with
  | true =>
    rw [onLanes_advH s w m hh]
    have hs := (Shape.refl s w).onBank hh (fun b => { b with lanes := mapLanes m (Lane.goto (nextPos s.iss.hdr s.iss.idx s.iss.count)) b.lanes }) fun _ => rfl
    refine ⟨w, hs.moved hw hl _ _ (fun n _ => ?_) (fun _ b hb n hn => laneAt_advanced s m b.lanes (by omega)), rfl,
      fun n l _ => hs.reg n l (fun _ => rfl) (fun _ _ => rfl) fun _ _ _ _ => rfl⟩
    rw [hh, if_pos rfl]
    exact (fpfl_grown_none _).symm
  | false =>
    rw [onLanes_adv s w m hh]
    have hs := (Shape.refl s w).onWarp (fun x => { x with lanes := mapLanes m (Lane.goto (nextPos s.iss.hdr s.iss.idx s.iss.count)) x.lanes }) fun _ => rfl
    refine ⟨_, hs.moved hw hl _ _ (fun n hn => ?_) (fun h => absurd (hh.symm.trans h) Bool.false_ne_true), rfl,
      fun n l _ => hs.reg n l (fun _ => rfl) (fun _ _ => rfl) fun _ _ _ _ => rfl⟩
    rw [hh, if_neg Bool.false_ne_true]
    refine (laneAt_advanced s m w.lanes (by omega)).trans ?_
    unfold inMask
    split <;> exact (fpfl_grown_none _).symm

/-- An instruction that writes nothing leaves no note. -/
theorem note_of_writes_none (s0 : State) (w : Warp) (act : Mask) {i : Instr} (h : writeKeys i = []) (s : State) : s0.note w act i s = s := by
  unfold State.note
  rw [h]
  exact ite_self _

/-- An instruction that neither voids its block nor writes a register does its effect and nothing else. -/
theorem perform_of_writes_none {i : Instr} {s : State} {w : Warp} {act : Mask} (h : Acts i s w act) (hv : voids i = false) (hk : writeKeys i = [])
    (body : Warp → Mask → State → State) : perform i body s = .next (body w act s) := by
  rw [perform_acts h, note_of_writes_none _ _ _ hk, State.void, hv]
  rfl

theorem exec_nop {c : Common} {s : State} {w : Warp} {act : Mask} (h : Acts (.nop c) s w act) : exec (.nop c) s = .next (s.advance w s.iss.lanes) :=
  perform_of_writes_none h rfl rfl _

theorem exec_yield {c : Common} {s : State} {w : Warp} {act : Mask} (h : Acts (.yield c) s w act) :
    exec (.yield c) s = .next ((s.onPace w s.iss.hnd fun p => { p with yielded := true }).advance w s.iss.lanes) :=
  perform_of_writes_none h rfl rfl _

/-- After an issue outside a handler, its warp's next one waits for the stall count, and its readiness is to be found again. -/
theorem finishIssue_paces {s s0 : State} {w w' : Warp} (hw : s.issWarp = some w) (hh : s.iss.hnd = false) (ha : s.iss.arrives = false)
    (h : (s.finishIssue s0).warp? w.id = some w') : w'.pace.notBefore = s.iss.now + (s.iss.word.extractLsb' 50 4).toNat ∧ w'.pace.readySince = none := by
  have hid : w.id = s.iss.warp := warp?_id hw
  have hw' : s.warp? s.iss.warp = some w := hw
  unfold State.finishIssue at h
  simp only [hw', ha, hh, Bool.false_eq_true, if_false] at h
  change ((State.onWarp _ _ _).warp? _) = _ at h
  rw [warp?_onWarp _ _ (by intro; rfl), State.onPace, if_neg Bool.false_ne_true, warp?_onWarp _ _ (by intro; rfl), hid, hw'] at h
  simp only [Option.map_some, if_true, Option.some.injEq] at h
  subst h
  exact ⟨rfl, rfl⟩

theorem nopAndYieldAdvance : Claims.NopAndYieldAdvance := by
  refine ⟨fun c s w act h => exec_nop h, fun c s w act h hh => ?_, fun c s w act h hh => ?_, fun s s0 w w' => finishIssue_paces, fun w c => body_zero_of_decode⟩
  all_goals
    rw [exec_yield h, hh]
    rfl

/-- Settles O17: an advance moves lanes and nothing else, and NOP and YIELD write nothing, so that beside YIELD's note an advance is all they do; their format
fields are zero because only their own arms of the decoder give them. -/
theorem lanesAdvance : Obligations.LanesAdvance := ⟨advanceMovesLanes, nopAndYieldAdvance⟩

end Sys2Proof.Machine

/-! SUPPORT. Early reads (R51): a look draws among the old value and the new one, and records one of them for each key that is read too early. -/

namespace Sys2Proof.Machine

/-! ## Draws -/

/-- A draw gives one of its two values, moves on what is free and changes nothing else. -/
theorem pick_spec {α : Type} [DecidableEq α] (s : State) (a b : α) : ∃ x n, s.pick a b = (x, { s with free := n }) ∧ (x = a ∨ x = b) := by
  unfold State.pick
  split
  · exact ⟨a, _, rfl, .inl rfl⟩
  · split
    · exact ⟨a, _, rfl, .inl rfl⟩
    · exact ⟨b, _, rfl, .inr rfl⟩

/-- Draws between a value and others in turn end at one of them. -/
theorem picks_spec {α : Type} (fs : List α) (g : α → Word) (x : Word) (s : State) :
    ∃ y n, fs.foldl (fun (r : Word × State) f => r.2.pick r.1 (g f)) (x, s) = (y, { s with free := n }) ∧ (y = x ∨ ∃ f ∈ fs, y = g f) := by
  induction fs generalizing x s with
  | nil => exact ⟨x, _, rfl, .inl rfl⟩
  | cons a fs ih =>
    obtain ⟨z, n, hp, hz⟩ := pick_spec s x (g a)
    obtain ⟨y, m, hr, hy⟩ := ih z { s with free := n }
    refine ⟨y, m, by rw [List.foldl_cons, hp, hr], ?_⟩
    obtain rfl | ⟨f, hf, hy⟩ := hy
    · exact hz.imp id fun h => ⟨a, List.mem_cons_self .., h⟩
    · exact .inr ⟨f, List.mem_cons_of_mem _ hf, hy⟩

/-! ## What a look records -/

/-- A result of the key not yet due: a read of the key comes too early. -/
def Early (s : State) (w : Warp) (k : Nat) : Prop := ∃ f ∈ w.fixed, f.reg = k ∧ s.iss.now < f.due

theorem undue_iff {s : State} {w : Warp} {k : Nat} : w.undue s.iss.now k = true ↔ Early s w k := by
  simp [Warp.undue, Early]

/-- The key's new value in a lane, or the old one that a result not yet due keeps. -/
def OldOrNew (s : State) (w : Warp) (k l : Nat) (x : Word) : Prop :=
  x = s.keyVal w k l ∨ ∃ f ∈ w.fixed, f.reg = k ∧ s.iss.now < f.due ∧ x = f.old.getD l 0

/-- The look at one key in one lane. -/
def State.lookLane (w : Warp) (s : State) (p : Nat × Nat) : State :=
  let r := (w.fixed.filter fun f => decide (f.reg = p.1) && decide (s.iss.now < f.due)).foldl
    (fun (r : Word × State) f => r.2.pick r.1 (f.old.getD p.2 0)) (s.keyVal w p.1 p.2, s)
  { r.2 with iss := { r.2.iss with early := sput none (32 * p.1 + p.2) (some r.1) r.2.iss.early } }

/-- A look at keys is a look at each early one in each lane. -/
theorem lookKeys_eq_lanes (s : State) (w : Warp) (keys : List Nat) :
    s.lookKeys w keys = ((keys.filter (w.undue s.iss.now)).product lanes32).foldl (State.lookLane w) s := by
  rw [List.product, List.foldl_flatMap]
  simp only [List.foldl_map]
  rfl

/-- `t` is `s` after a look at the keys and lanes `seen`: each has one of its values recorded, and no other key has any. -/
structure Looked (s : State) (w : Warp) (seen : Nat × Nat → Prop) (t : State) : Prop where
  only : t = { s with free := t.free, iss := { s.iss with early := t.iss.early } }
  recorded : ∀ k l, l < 32 → seen (k, l) → ∃ x, sget none (32 * k + l) t.iss.early = some x ∧ OldOrNew s w k l x
  absent : ∀ k l, l < 32 → ¬seen (k, l) → sget none (32 * k + l) t.iss.early = none

section Looked

variable {s t : State} {w : Warp} {seen : Nat × Nat → Prop}

theorem lookLane_spec (t : State) (w : Warp) (p : Nat × Nat) :
    ∃ x n, State.lookLane w t p = { t with free := n, iss := { t.iss with early := sput none (32 * p.1 + p.2) (some x) t.iss.early } } ∧ OldOrNew t w p.1 p.2 x := by
  obtain ⟨x, n, hr, hx⟩ := picks_spec (w.fixed.filter fun f => decide (f.reg = p.1) && decide (t.iss.now < f.due)) (fun f => f.old.getD p.2 0)
    (t.keyVal w p.1 p.2) t
  refine ⟨x, n, (by unfold State.lookLane; rw [hr]), hx.imp id fun ⟨f, hf, hx⟩ => ?_⟩
  simp only [List.mem_filter, Bool.and_eq_true, decide_eq_true_eq] at hf
  exact ⟨f, hf.1, hf.2.1, hf.2.2, hx⟩

theorem Looked.lane (h : Looked s w seen t) (p : Nat × Nat) (hp : p.2 < 32) : Looked s w (fun q => seen q ∨ q = p) (State.lookLane w t p) := by
  obtain ⟨x, n, ht, hx⟩ := lookLane_spec t w p
  have hx : OldOrNew s w p.1 p.2 x := by rw [h.only] at hx; exact hx
  have read (j : Nat) : sget none j (State.lookLane w t p).iss.early = if j = 32 * p.1 + p.2 then some x else sget none j t.iss.early := by
    rw [ht]
    dsimp only
    rw [sget_sput]
  have key (k l : Nat) (hl : l < 32) : 32 * k + l = 32 * p.1 + p.2 ↔ (k, l) = p := by rw [Prod.ext_iff]; dsimp only; omega
  refine ⟨by rw [ht, h.only], fun k l hl hs => ?_, fun k l hl hs => ?_⟩
  · rw [read]
    by_cases he : (k, l) = p
    · subst he
      exact ⟨x, if_pos rfl, hx⟩
    · rw [if_neg (mt (key k l hl).mp he)]
      exact h.recorded k l hl (hs.resolve_right he)
  · rw [read, if_neg (mt (key k l hl).mp fun he => hs (.inr he))]
    exact h.absent k l hl fun hn => hs (.inl hn)

theorem Looked.lanes (h : Looked s w seen t) (ps : List (Nat × Nat)) (hp : ∀ p ∈ ps, p.2 < 32) :
    Looked s w (fun q => seen q ∨ q ∈ ps) (ps.foldl (State.lookLane w) t) := by
  induction ps generalizing t seen with
  | nil => simpa using h
  | cons p ps ih =>
    have := ih (h.lane p (hp p (List.mem_cons_self ..))) fun q hq => hp q (List.mem_cons_of_mem _ hq)
    simpa [or_assoc] using this

/-- An early look records, in every lane, the keys that the instruction reads too early. -/
theorem lookEarly_looked (w : Warp) (i : Instr) (h : s.iss.early = []) :
    Looked s w (fun q => q.1 ∈ readKeys i ∧ Early s w q.1 ∧ q.2 < 32) (s.lookEarly w i) := by
  have nothing : Looked s w (fun _ => False) s := ⟨rfl, fun _ _ _ hs => hs.elim, fun k l _ _ => by rw [h]; rfl⟩
  have pairs (q : Nat × Nat) : q ∈ ((readKeys i).filter (w.undue s.iss.now)).product lanes32 ↔ q.1 ∈ readKeys i ∧ Early s w q.1 ∧ q.2 < 32 := by
    rw [← Prod.mk.eta (p := q), List.pair_mem_product, List.mem_filter, undue_iff, mem_lanes32, and_assoc]
  rw [State.lookEarly, lookKeys_eq_lanes]
  simpa only [pairs, false_or] using nothing.lanes _ fun q hq => ((pairs q).mp hq).2.2

end Looked

/-- Settles O11: a look draws each early key's value among its old ones and its new one, and a read takes what is recorded. -/
theorem earlyReadIsOldOrNew : Obligations.EarlyReadIsOldOrNew := by
  refine ⟨fun s w i k l hs hl => ?_, fun s w n l => ⟨fun x h => ?_, fun h => ?_, fun x h => ?_, fun h => ?_⟩⟩
  · have look := lookEarly_looked w i hs
    by_cases hk : k ∈ readKeys i ∧ Early s w k
    · obtain ⟨y, hy, hyv⟩ := look.recorded k l hl ⟨hk.1, hk.2, hl⟩
      refine ⟨fun x hx => Option.some.inj (hx.symm.trans hy) ▸ hyv, fun _ _ => hy ▸ rfl, fun hn => ?_⟩
      obtain ⟨f, hf, hr, hd⟩ := hk.2
      exact hn.elim (absurd hk.1) fun hdue => absurd hd (Nat.not_lt.mpr (hdue f hf hr))
    · have hn := look.absent k l hl fun h => hk ⟨h.1, h.2.1⟩
      exact ⟨fun x hx => absurd (hn.symm.trans hx) (Option.some_ne_none x).symm, fun hr he => absurd ⟨hr, he⟩ hk, fun _ => hn⟩
  · simp only [State.rd, h]
  · simp only [State.rd, h]
  · simp only [State.rdP, h]
  · simp only [State.rdP, h]

end Sys2Proof.Machine

/-! SUPPORT. The integer and bit instructions (R141 to R143): the model's computed results are those of the tables, and what writes its words writes nothing
else. -/

namespace Sys2Proof.Machine

open Claims

/-! ## Results of arithmetic (R141) -/

theorem val_inj {g : Sgn} {a b : Word} (h : val g a = val g b) : a = b := by
  cases g with
  | s => exact BitVec.eq_of_toInt_eq h
  | z => exact BitVec.eq_of_toNat_eq (Int.ofNat.inj h)

theorem addSat_eq (m : SatMode) (a b : Word) : addSat m a b = match m with
    | .wrap => a + b
    | .satS => clamp (-2 ^ 31) (2 ^ 31 - 1) (a.toInt + b.toInt)
    | .satZ => clamp 0 (2 ^ 32 - 1) (a.toNat + b.toNat) := by cases m <;> rfl

theorem subSat_eq (m : SatMode) (a b : Word) : subSat m a b = match m with
    | .wrap => a - b
    | .satS => clamp (-2 ^ 31) (2 ^ 31 - 1) (a.toInt - b.toInt)
    | .satZ => clamp 0 (2 ^ 32 - 1) ((a.toNat : Int) - b.toNat) := by cases m <;> rfl

/-- The upper word of a product is the product over 2^32, rounded down. -/
theorem extract_ofInt (x : Int) : (BitVec.ofInt 64 x).extractLsb' 32 32 = BitVec.ofInt 32 (x / 2 ^ 32) := by
  apply BitVec.eq_of_toNat_eq
  rw [BitVec.extractLsb'_toNat, BitVec.toNat_ofInt, BitVec.toNat_ofInt, Nat.shiftRight_eq_div_pow]
  omega

theorem mulHi_eq (g : Sgn) (a b : Word) : mulHi g a b = BitVec.ofInt 32 (val g a * val g b / 2 ^ 32) := extract_ofInt _

theorem minI_eq (g : Sgn) (a b : Word) : minI g a b = if val g a ≤ val g b then a else b := by cases g <;> rfl

theorem maxI_eq (g : Sgn) (a b : Word) : maxI g a b = if val g a ≤ val g b then b else a := by
  show (if val g b ≤ val g a then a else b) = _
  split
  · split
    · next h h' => exact val_inj (Int.le_antisymm h' h)
    · rfl
  · next h => rw [if_pos (by omega)]

theorem absI_eq (sat : Bool) (a : Word) :
    absI sat a = if a = 0x80000000#32 then (if sat then 0x7FFFFFFF#32 else a) else BitVec.ofInt 32 |a.toInt| := by
  unfold absI
  split
  · rfl
  · rw [BitVec.msb_eq_toInt]
    by_cases h : a.toInt < 0
    · rw [if_pos (by simpa using h), abs_of_neg h, BitVec.ofInt_neg, BitVec.ofInt_toInt]
    · rw [if_neg (by simpa using h), abs_of_nonneg (by omega), BitVec.ofInt_toInt]

theorem dot4_eq (sat ua ub : Bool) (d a b : Word) : dot4 sat ua ub d a b =
    let x : Int := d.toInt + ∑ i ∈ Finset.range 4, byteVal ua a i * byteVal ub b i
    if sat then clamp (-2 ^ 31) (2 ^ 31 - 1) x else BitVec.ofInt 32 x := by
  simp only [Finset.sum_range_succ, Finset.sum_range_zero, zero_add, ← add_assoc]
  rfl

/-! ## Pairs (R141, R143) -/

theorem ext64_eq_wide (g : Sgn) (x : Word) : ext64 g x = wide g x := by
  cases g with
  | s => rfl
  | z => exact (BitVec.ofNat_toNat 64 x).symm.trans (BitVec.ofInt_natCast 64 x.toNat).symm

theorem shiftLeft_eq_mul (x : Word64) (n : Nat) : x <<< n = x * BitVec.ofNat 64 (2 ^ n) := by
  apply BitVec.eq_of_toNat_eq
  rw [BitVec.toNat_shiftLeft, BitVec.toNat_mul, BitVec.toNat_ofNat, Nat.shiftLeft_eq, Nat.mul_mod_mod]

theorem append_zero_eq (x : Word) : x ++ 0#32 = BitVec.ofNat 64 (x.toNat * 2 ^ 32) := by
  apply BitVec.eq_of_toNat_eq
  rw [BitVec.toNat_append, BitVec.toNat_ofNat, Nat.shiftLeft_eq, BitVec.toNat_ofNat, Nat.zero_mod, Nat.or_zero]
  omega

/-! ## Shifts, counts and reversal (R142) -/

/-- A shift by 32 or more leaves the sign alone, as a shift by 31 does. -/
theorem shrS_eq (a b : Word) : shrS a b = BitVec.ofInt 32 (a.toInt / 2 ^ min b.toNat 31) := by
  unfold shrS
  split
  · rw [Nat.min_eq_left (by omega), BitVec.sshiftRight, Int.shiftRight_eq_div_pow, Nat.cast_pow, Nat.cast_ofNat]
  · rw [Nat.min_eq_right (by omega), BitVec.msb_eq_toInt]
    have := BitVec.toInt_lt (x := a)
    have := BitVec.le_toInt (x := a)
    by_cases h : a.toInt < 0
    · rw [if_pos (by simpa using h), show a.toInt / 2 ^ 31 = -1 by omega]; rfl
    · rw [if_neg (by simpa using h), show a.toInt / 2 ^ 31 = 0 by omega]; rfl

/-- Words are equal that agree bit by bit. -/
theorem word_ext {x y : Word} (h : ∀ k, k < 32 → x.getLsbD k = y.getLsbD k) : x = y := BitVec.eq_of_getLsbD_eq h

theorem getLsbD_bitsFrom (f : Nat → Bool) {k : Nat} (hk : k < 32) : (bitsFrom f).getLsbD k = f k := by
  rw [bitsFrom, BitVec.getLsbD_ofNat, decide_eq_true hk, Bool.true_and, ← Finset.sum_filter, Bool.eq_iff_iff, ← Nat.mem_bitIndices, ← List.mem_toFinset,
    Finset.toFinset_bitIndices_sum_two_pow, Finset.mem_filter, Finset.mem_range]
  exact and_iff_right hk

theorem reverseBits_eq (a : Word) : reverseBits a = bitsFrom fun k => a.getLsbD (31 - k) :=
  word_ext fun k hk => by rw [reverseBits, getLsbD_maskOf _ _ hk, getLsbD_bitsFrom _ hk]

theorem lanes32_eq_range : lanes32 = List.range 32 := by decide

/-- Leading zeros below bit `n`: those above the highest bit set. -/
theorem takeWhile_zeros (x n : Nat) (h : x < 2 ^ n) :
    ((List.range n).reverse.takeWhile fun k => !x.testBit k).length = if x = 0 then n else n - 1 - x.log2 := by
  induction n with
  | zero =>
    obtain rfl : x = 0 := Nat.lt_one_iff.mp h
    rfl
  | succ n ih =>
    rw [List.range_succ, List.reverse_concat, List.takeWhile_cons]
    by_cases hn : x.testBit n = true
    · have hx : x ≠ 0 := by rintro rfl; simp at hn
      have hlog : x.log2 = n := (Nat.log2_eq_iff hx).mpr ⟨Nat.ge_two_pow_of_testBit hn, h⟩
      simp [hn, hx, hlog]
    · have hlt : x < 2 ^ n := Nat.lt_pow_two_of_testBit x fun i hi => by
        obtain rfl | hi := Nat.eq_or_lt_of_le hi
        · simpa using hn
        · exact Nat.testBit_lt_two_pow (h.trans_le (Nat.pow_le_pow_right (by decide) hi))
      rw [if_pos (by simpa using hn), List.length_cons, ih hlt]
      split
      · rfl
      · next hx =>
        have := (Nat.log2_lt hx).mpr hlt
        omega

theorem leadingZeros_eq (a : Word) : leadingZeros a = if a = 0 then 32 else 31 - a.toNat.log2 :=
  (takeWhile_zeros a.toNat 32 a.isLt).trans (by simp [← BitVec.toNat_inj])

/-! ## Fields of bits (R142, log entry 21) -/

/-- A word shifted right under a sign. -/
def shifted (g : Sgn) (a : Word) (p : Nat) : Word := match g with | .s => a.sshiftRight p | .z => a >>> p

theorem getLsbD_shifted (g : Sgn) (a : Word) (p : Nat) {k : Nat} (hk : k < 32) : (shifted g a p).getLsbD k = extBit g a (p + k) := by
  cases g with
  | s =>
    simp only [shifted, BitVec.getLsbD_sshiftRight, extBit, BitVec.msb_eq_getLsbD_last]
    simp [hk]
  | z =>
    simp only [shifted, BitVec.getLsbD_ushiftRight, extBit]
    split
    · rfl
    · exact BitVec.getLsbD_of_ge _ _ (by omega)

/-- The bits that a field names, as a number: the low bits of the shifted word. -/
theorem ext_div_mod (g : Sgn) (a : Word) (p n : Nat) (hn : n ≤ 32) :
    (ext g a / 2 ^ p % 2 ^ n).toNat = ((shifted g a p).setWidth n).toNat := by
  rw [BitVec.toNat_setWidth]
  cases g with
  | s =>
    have hz : ext .s a / 2 ^ p = (a.sshiftRight p).toInt := by
      rw [BitVec.toInt_sshiftRight, Int.shiftRight_eq_div_pow]
      rfl
    have hd : (2 : Int) ^ n ∣ 2 ^ 32 := pow_dvd_pow 2 hn
    have hm : (a.sshiftRight p).toInt % 2 ^ 32 = (a.sshiftRight p).toNat := by
      rw [BitVec.toInt_eq_toNat_cond]
      omega
    rw [hz, ← Int.emod_emod_of_dvd _ hd, hm]
    rfl
  | z =>
    rw [shifted, BitVec.toNat_ushiftRight, Nat.shiftRight_eq_div_pow]
    rfl

/-- A number of `n` bits less its weight where its highest bit is set: those bits under their sign. -/
theorem signed_eq_signExtend {n : Nat} (hn : n ≠ 0) (y : BitVec n) :
    (if 2 ^ (n - 1) ≤ y.toNat then BitVec.ofInt 32 ((y.toNat : Int) - 2 ^ n) else BitVec.ofNat 32 y.toNat) = y.signExtend 32 := by
  have hp : 2 ^ n = 2 * 2 ^ (n - 1) := by rw [← Nat.pow_succ', Nat.succ_eq_add_one, Nat.sub_add_cancel (by omega)]
  rw [BitVec.signExtend, BitVec.toInt_eq_toNat_cond]
  by_cases h : 2 ^ (n - 1) ≤ y.toNat
  · rw [if_pos h, if_neg (by omega)]
    norm_cast
  · rw [if_neg h, if_pos (by omega), BitVec.ofInt_natCast]

/-- The bits that a description names of a word under a sign. -/
def fieldBits (g : Sgn) (a b : Word) : BitVec (fieldLen b) := (shifted g a (min (fieldPos b) 63)).setWidth (fieldLen b)

theorem getLsbD_fieldBits (g : Sgn) (a b : Word) (k : Nat) :
    (fieldBits g a b).getLsbD k = (decide (k < fieldLen b) && extBit g a (min (fieldPos b) 63 + k)) := by
  rw [fieldBits, BitVec.getLsbD_setWidth]
  by_cases hk : k < fieldLen b
  · rw [getLsbD_shifted g a _ (hk.trans_le (Nat.min_le_right ..))]
  · simp [hk]

/-- BFX takes those bits and extends them. -/
theorem bitExtract_eq_extend (g : Sgn) (a b : Word) :
    bitExtract g a b = match g with | .s => (fieldBits .s a b).signExtend 32 | .z => (fieldBits .z a b).setWidth 32 := by
  have hf := ext_div_mod g a (min (fieldPos b) 63) (fieldLen b) (Nat.min_le_right ..)
  unfold bitExtract
  by_cases h0 : fieldLen b = 0
  · have hz (g : Sgn) (k : Nat) : (fieldBits g a b).getLsbD k = false := by rw [getLsbD_fieldBits, h0]; rfl
    simp only [h0, if_true]
    apply word_ext
    intro k _
    cases g with
    | s => simp [BitVec.getLsbD_signExtend, hz, BitVec.msb_eq_getLsbD_last]
    | z => simp [hz]
  · cases g with
    | s => exact (if_neg h0).trans (hf ▸ signed_eq_signExtend h0 (fieldBits .s a b))
    | z => exact (if_neg h0).trans (hf ▸ BitVec.ofNat_toNat 32 (fieldBits .z a b))

/-- BFX, bit by bit. -/
theorem bitExtract_eq (g : Sgn) (a b : Word) : bitExtract g a b = fieldOut g a b := by
  apply word_ext
  intro k hk
  rw [bitExtract_eq_extend]
  unfold fieldOut
  rw [getLsbD_bitsFrom _ hk]
  cases g with
  | s =>
    change BitVec.getLsbD _ k = if k < fieldLen b then extBit .s a (min (fieldPos b) 63 + k) else
      decide (fieldLen b ≠ 0) && extBit .s a (min (fieldPos b) 63 + fieldLen b - 1)
    rw [BitVec.getLsbD_signExtend, BitVec.msb_eq_getLsbD_last, getLsbD_fieldBits, getLsbD_fieldBits, decide_eq_true hk, Bool.true_and]
    split
    · next h => rw [decide_eq_true h, Bool.true_and]
    · by_cases h0 : fieldLen b = 0
      · simp [h0]
      · rw [decide_eq_true (by omega), decide_eq_true h0, Nat.add_sub_assoc (by omega)]
  | z =>
    change BitVec.getLsbD _ k = if k < fieldLen b then extBit .z a (min (fieldPos b) 63 + k) else false
    rw [BitVec.getLsbD_setWidth, getLsbD_fieldBits, decide_eq_true hk, Bool.true_and]
    by_cases h : k < fieldLen b <;> simp [h]

/-- The mask of a field's bits. -/
theorem getLsbD_fieldMask (p n : Nat) {k : Nat} (hk : k < 32) : (BitVec.ofNat 32 ((2 ^ n - 1) * 2 ^ p)).getLsbD k = decide (p ≤ k ∧ k < p + n) := by
  rw [BitVec.getLsbD_ofNat, decide_eq_true hk, Bool.true_and, Nat.testBit_mul_two_pow, Nat.testBit_two_pow_sub_one, ← Bool.decide_and, decide_eq_decide]
  omega

/-- BFI, bit by bit. -/
theorem bitInsert_eq (d a b : Word) : bitInsert d a b = fieldIn d a b := by
  apply word_ext
  intro k hk
  rw [fieldIn, getLsbD_bitsFrom _ hk]
  change (if (fieldLen b = 0 || 32 ≤ fieldPos b) = true then d else _).getLsbD k =
    if fieldPos b ≤ k ∧ k < fieldPos b + fieldLen b then a.getLsbD (k - fieldPos b) else d.getLsbD k
  by_cases hout : fieldLen b = 0 ∨ 32 ≤ fieldPos b
  · rw [if_pos (by simpa using hout), if_neg (by omega)]
  · rw [if_neg (by simpa using hout), BitVec.getLsbD_or, BitVec.getLsbD_and, BitVec.getLsbD_and, BitVec.getLsbD_not, BitVec.getLsbD_shiftLeft,
      getLsbD_fieldMask _ _ hk]
    by_cases hin : fieldPos b ≤ k ∧ k < fieldPos b + fieldLen b <;> simp [hin, hk]

/-! ## Instructions that compute words -/

/-- `i` acts by writing in each lane the `n` words `ws` from register `d` on, read of a state with no early result, and raises nothing. -/
structure WritesWords (i : Instr) (d : Fld) (n : Nat) (ws : State → Warp → Nat → List Word) : Prop where
  runs : ∃ f : State → Warp → Nat → List Word, (∀ s, exec i s = vop i d (fun s w l => (f s w l, 0)) s) ∧ ∀ s w l, s.iss.early = [] → f s w l = ws s w l
  length : ∀ s w l, (ws s w l).length = n
  quiet : voids i = false
  dest : ∃ rd k, Opnd.mk d n rd true k ∈ opnds i ∧ (k = .reg ∨ k = .vec)

section WritesWords

variable {i : Instr} {d : Fld} {n : Nat}

/-- Where it acts, its words are written in the acting lanes and nothing else changes. -/
theorem WritesWords.acts {ws : State → Warp → Nat → List Word} (h : WritesWords i d n ws) (hn : 0 < n) {s : State} {w : Warp} {act : Mask} (ha : Acts i s w act) :
    ∃ t w', exec i s = .next t ∧ WroteReg s w act d.toNat n (fun l k => (ws s w l).getD k 0) (fun _ => 0) t w' := by
  obtain ⟨f, hx, hf⟩ := h.runs
  obtain ⟨rd, k, ho, hk⟩ := h.dest
  obtain ⟨-, -, -, hearly, -, hregs, -, -⟩ := id ha
  have hok := List.all_eq_true.mp (Bool.and_eq_true_iff.mp hregs).1 _ ho
  have hd : dstOk s.iss.hnd d.toNat n := by
    obtain rfl | rfl := hk <;> exact dst_ok hok rfl Kind.noConfusion Kind.noConfusion
  obtain ⟨t, w', ht, hw⟩ := vop_acts ha h.quiet d n hn hd (fun s w l => (f s w l, 0)) (fun l => by simp only [hf s w l hearly, h.length]) fun l _ => by
    simp [Warp.traps?]
  refine ⟨t, w', (hx s).trans ht, ?_⟩
  simpa only [hf s w _ hearly, ite_self] using hw

/-! What sources read where no result is early. -/

theorem va_noEarly {s : State} (h : s.iss.early = []) (r : R3) (w : Warp) (l : Nat) : r.va s w l = va r s w l := rd_noEarly h ..
theorem vb_noEarly {s : State} (h : s.iss.early = []) (r : R3) (w : Warp) (l : Nat) : r.vb s w l = vb r s w l := rd_noEarly h ..
theorem vd_noEarly {s : State} (h : s.iss.early = []) (r : R3) (w : Warp) (l : Nat) : r.vd s w l = vd r s w l := rd_noEarly h ..
theorem ua_noEarly {s : State} (h : s.iss.early = []) (r : R2) (w : Warp) (l : Nat) : r.va s w l = ua r s w l := rd_noEarly h ..

theorem rd2_noEarly {s : State} (h : s.iss.early = []) (w : Warp) (n l : Nat) : s.rd2 w n l = pair s w n l := by
  rw [State.rd2, rd_noEarly h, rd_noEarly h, pair]

/-! How it is shown of an instruction: by the one shape that computes it, and by its first operand. -/

theorem WritesWords.of_vop1 {f g : State → Warp → Nat → Word} {rd : Bool} {k : Kind} {os : List Opnd} (hx : ∀ s, exec i s = vop1 i d f s)
    (hf : ∀ s w l, s.iss.early = [] → f s w l = g s w l) (hv : voids i = false) (ho : opnds i = ⟨d, 1, rd, true, k⟩ :: os)
    (hk : k = .reg ∨ k = .vec := by decide) : WritesWords i d 1 fun s w l => [g s w l] where
  runs := ⟨_, hx, fun s w l h => by rw [hf s w l h]⟩
  length _ _ _ := rfl
  quiet := hv
  dest := ⟨rd, k, ho ▸ List.mem_cons_self .., hk⟩

theorem WritesWords.of_vop2 {f g : State → Warp → Nat → Word64} {rd : Bool} {os : List Opnd} (hx : ∀ s, exec i s = vop2 i d f s)
    (hf : ∀ s w l, s.iss.early = [] → f s w l = g s w l) (hv : voids i = false) (ho : opnds i = ⟨d, 2, rd, true, .reg⟩ :: os) :
    WritesWords i d 2 fun s w l => words2 (g s w l) where
  runs := ⟨_, hx, fun s w l h => by rw [hf s w l h]⟩
  length _ _ _ := rfl
  quiet := hv
  dest := ⟨rd, .reg, ho ▸ List.mem_cons_self .., .inl rfl⟩

/-- A member of three operands, from its entry in the table. -/
theorem WritesWords.of_two {r : R3} {f g : Word → Word → Word} {v : State → Warp → Nat → Word} {os : List Opnd} (h : Claims.two r g = some (d, v))
    (hx : ∀ s, exec i s = int3 i r f s) (hf : ∀ a b, f a b = g a b) (hv : voids i = false) (ho : opnds i = .dst r.d :: os) :
    WritesWords i d 1 fun s w l => [v s w l] := by
  cases h
  exact .of_vop1 hx (fun s w l h => by rw [va_noEarly h, vb_noEarly h, hf]) hv ho

/-- A member of two operands, from its entry in the table. -/
theorem WritesWords.of_one {r : R2} {f g : Word → Word} {v : State → Warp → Nat → Word} {os : List Opnd} (h : Claims.one r g = some (d, v))
    (hx : ∀ s, exec i s = int2 i r f s) (hf : ∀ a, f a = g a) (hv : voids i = false) (ho : opnds i = .dst r.d :: os) :
    WritesWords i d 1 fun s w l => [v s w l] := by
  cases h
  exact .of_vop1 hx (fun s w l h => by rw [ua_noEarly h, hf]) hv ho

end WritesWords

/-- Every instruction of the table of words writes its word. -/
theorem intWord_writes {i : Instr} {d : Fld} {f : State → Warp → Nat → Word} (h : intWord i = some (d, f)) : WritesWords i d 1 fun s w l => [f s w l] := by
  cases i with
  | imul | ishl | lshr | rot | and | or | xor => rw [intWord] at h; exact .of_two h (fun _ => rfl) (fun _ _ => rfl) rfl rfl
  | iadd c m r => rw [intWord] at h; exact .of_two h (fun _ => rfl) (addSat_eq m) rfl rfl
  | isub c m r => rw [intWord] at h; exact .of_two h (fun _ => rfl) (subSat_eq m) rfl rfl
  | imulh c g r => rw [intWord] at h; exact .of_two h (fun _ => rfl) (mulHi_eq g) rfl rfl
  | imin c g r => rw [intWord] at h; exact .of_two h (fun _ => rfl) (minI_eq g) rfl rfl
  | imax c g r => rw [intWord] at h; exact .of_two h (fun _ => rfl) (maxI_eq g) rfl rfl
  | ishr => rw [intWord] at h; exact .of_two h (fun _ => rfl) shrS_eq rfl rfl
  | bfx c g r => rw [intWord] at h; exact .of_two h (fun _ => rfl) (bitExtract_eq g) rfl rfl
  | andn => rw [intWord] at h; exact .of_two (f := fun a b => a &&& ~~~b) h (fun _ => rfl) (fun _ _ => rfl) rfl rfl
  | iabs c sat r => rw [intWord] at h; exact .of_one h (fun _ => rfl) (absI_eq sat) rfl rfl
  | popc => rw [intWord] at h; exact .of_one (f := fun a => BitVec.ofNat 32 (popcount a)) h (fun _ => rfl) (fun a => by rw [popcount, lanes32_eq_range]) rfl rfl
  | clz => rw [intWord] at h; exact .of_one (f := fun a => BitVec.ofNat 32 (leadingZeros a)) h (fun _ => rfl) (fun a => by rw [leadingZeros_eq]) rfl rfl
  | brev => rw [intWord] at h; exact .of_one h (fun _ => rfl) reverseBits_eq rfl rfl
  | mov c wide r =>
    cases wide with
    | false => rw [intWord] at h; exact .of_one h (fun _ => rfl) (fun _ => rfl) rfl rfl
    | true => cases h
  | imad => cases h; exact .of_vop1 (fun _ => rfl) (fun s w l h => by rw [vd_noEarly h, va_noEarly h, vb_noEarly h]) rfl rfl
  | bfi => cases h; exact .of_vop1 (fun _ => rfl) (fun s w l h => by rw [vd_noEarly h, va_noEarly h, vb_noEarly h, bitInsert_eq]) rfl rfl
  | idot4 => cases h; exact .of_vop1 (fun _ => rfl) (fun s w l h => by rw [vd_noEarly h, va_noEarly h, vb_noEarly h, dot4_eq]) rfl rfl
  | movi => cases h; exact .of_vop1 (fun _ => rfl) (fun _ _ _ _ => rfl) rfl rfl
  | iaddi => cases h; exact .of_vop1 (fun _ => rfl) (fun s w l h => by rw [rd_noEarly h]) rfl rfl
  | sel => cases h; exact .of_vop1 (fun _ => rfl) (fun s w l h => by rw [rdP_noEarly h, va_noEarly h, vb_noEarly h]) rfl rfl
  | _ => cases h

/-- Every instruction of the table of pairs writes its pair, the even register first (R43). -/
theorem intPair_writes {i : Instr} {d : Fld} {f : State → Warp → Nat → Word64} (h : intPair i = some (d, f)) :
    WritesWords i d 2 fun s w l => words2 (f s w l) := by
  cases i with
  | imadw =>
    cases h
    exact .of_vop2 (fun _ => rfl) (fun s w l h => by rw [rd2_noEarly h, va_noEarly h, vb_noEarly h, ext64_eq_wide, ext64_eq_wide]) rfl rfl
  | iadd64 c r => cases h; exact .of_vop2 (fun _ => rfl) (fun s w l h => by rw [R3.va2, R3.vb2, rd2_noEarly h, rd2_noEarly h]) rfl rfl
  | lea => cases h; exact .of_vop2 (fun _ => rfl) (fun s w l h => by rw [R3.va2, rd2_noEarly h, vb_noEarly h, ext64_eq_wide, shiftLeft_eq_mul]) rfl rfl
  | mov c wide r =>
    cases wide with
    | false => cases h
    | true => cases h; exact .of_vop2 (fun _ => rfl) (fun s w l h => rd2_noEarly h ..) rfl rfl
  | movxw c k d imm =>
    cases h
    refine .of_vop2 (fun _ => rfl) (fun _ _ _ _ => ?_) rfl rfl
    cases k with
    | s64 => rfl
    | z64 => exact (BitVec.ofNat_toNat 64 imm).symm
    | hi => exact append_zero_eq imm
  | _ => cases h

theorem words2_getD (x : Word64) {k : Nat} (hk : k < 2) : (words2 x).getD k 0 = word x k := by
  obtain rfl | rfl : k = 0 ∨ k = 1 := by omega
  · rfl
  · rfl

theorem integerWordResult : Claims.IntegerWordResult := by
  intro i s w act d f hi ha
  obtain ⟨t, w', ht, hm, hp, hd, hr⟩ := (intWord_writes hi).acts (by decide) ha
  refine ⟨t, w', ht, hm, hp, fun l hl hal k hk => ?_, hr⟩
  obtain rfl : k = 0 := by omega
  exact hd l hl hal 0 hk

theorem integerPairResult : Claims.IntegerPairResult := by
  intro i s w act d f hi ha
  obtain ⟨t, w', ht, hm, hp, hd, hr⟩ := (intPair_writes hi).acts (by decide) ha
  exact ⟨t, w', ht, hm, hp, fun l hl hal k hk => (hd l hl hal k hk).trans (words2_getD _ hk), hr⟩

/-- Settles O1: every instruction of the two tables writes the words that its entry gives, and nothing else. -/
theorem integerResult : Obligations.IntegerResult := ⟨integerWordResult, integerPairResult⟩

end Sys2Proof.Machine

/-! PROOF. R57, R76, R266, R312, R329, R334, R339: the state after reset. -/

namespace Sys2Proof.Machine

/-- Settles O41: the reset state is given field by field, and queues that no write has touched read as their initial value. -/
theorem resetState : Obligations.ResetState := by
  refine ⟨rfl, rfl, rfl, rfl, rfl, rfl, rfl, rfl, rfl, fun q => sget_nil HQueue.init q, fun w => sget_nil WQueue.init w, rfl, rfl, rfl, rfl, rfl, rfl, rfl, ?_⟩
  exact ⟨rfl, rfl, rfl⟩

end Sys2Proof.Machine

/-! SUPPORT. What a read by virtual address depends on (R168 to R170): memory, links and the tables' roots, and nothing else of the state. -/

namespace Sys2Proof.Machine

/-- Two states in which every read by virtual address finds the same. -/
structure ReadsAlike (s t : State) : Prop where
  mem : t.mem = s.mem
  host : t.host = s.host
  remote : t.remote = s.remote
  badLines : t.badLines = s.badLines
  form : t.form = s.form
  farCap : t.farCap = s.farCap
  linkUp : t.linkUp = s.linkUp
  deadNodes : t.deadNodes = s.deadNodes
  troot : ∀ g, (t.grp g).troot = (s.grp g).troot

section Reads

variable {s t : State}

theorem ReadsAlike.readDev (h : ReadsAlike s t) (pa n : Nat) : t.readDev pa n = s.readDev pa n := by
  simp only [State.readDev, h.badLines, h.mem]

theorem ReadsAlike.pteOk (h : ReadsAlike s t) (e : Word64) (leafOk leafMust : Bool) (bits : Nat) : t.pteOk e leafOk leafMust bits = s.pteOk e leafOk leafMust bits := by
  have mappable (pa n : Nat) : t.mappable pa n = s.mappable pa n := by
    unfold State.mappable State.farTop State.farF State.nearTop
    rw [h.form, h.farCap]
  simp only [State.pteOk, mappable]

theorem ReadsAlike.walkFrom (h : ReadsAlike s t) (va : Nat) (ls : List (Nat × Nat)) (tab : Nat) : t.walkFrom va ls tab = s.walkFrom va ls tab := by
  induction ls generalizing tab with
  | nil => rfl
  | cons l r ih => simp only [State.walkFrom, h.readDev, h.pteOk, ih]

theorem ReadsAlike.xl (h : ReadsAlike s t) (group va : Nat) (a : Acc) : t.xl group va a = s.xl group va a := by
  simp only [State.xl, State.walk, h.troot, h.walkFrom]

theorem ReadsAlike.place (h : ReadsAlike s t) (group va : Nat) (a : Acc) : t.place group va a = s.place group va a := by
  simp only [State.place, h.xl]

theorem ReadsAlike.readTgt (h : ReadsAlike s t) (x : Tgt) (n : Nat) : t.readTgt x n = s.readTgt x n := by
  cases x <;> simp only [State.readTgt, h.readDev, h.linkUp, h.host, h.deadNodes, h.remote]

theorem ReadsAlike.readVa (h : ReadsAlike s t) (group va n : Nat) (a : Acc) : t.readVa group va n a = s.readVa group va n a := by
  simp only [State.readVa, h.place, h.readTgt]

end Reads

end Sys2Proof.Machine

/-! PROOF. R57 to R61, R73, R79: the commands of a host queue. -/

namespace Sys2Proof.Machine

open Claims

/-! ## The next command of a queue (R57, R58) -/

section Slots

variable {s : State} {q : Nat}

theorem passed_readsAlike (s : State) (q : Nat) : ReadsAlike s (passed s q) := ⟨rfl, rfl, rfl, rfl, rfl, rfl, rfl, rfl, fun _ => rfl⟩

theorem cmdSlot_enabled (h : mayTake s q) (hg : (s.grp (s.hqueue q).group).en = true) :
    s.cmdSlot q = some (s.readVa (s.hqueue q).group ((s.hqueue q).ring + 64 * ((s.hqueue q).head.toNat % (s.hqueue q).slots)) 64 .read) := by
  obtain ⟨hen, hstop, hheld, hne⟩ := h
  simp [State.cmdSlot, hen, hstop, hheld, hne, hg]

theorem cmdSlot_disabled (h : mayTake s q) (hg : (s.grp (s.hqueue q).group).en = false) :
    s.cmdSlot q = some (.error { cause := 5, va := (s.hqueue q).ring + 64 * ((s.hqueue q).head.toNat % (s.hqueue q).slots) }) := by
  obtain ⟨hen, hstop, hheld, hne⟩ := h
  simp [State.cmdSlot, hen, hstop, hheld, hne, hg, fXLATE]

/-- The event of a kind takes the commands of the kind; the event of kind RUN takes those of no kind as well. -/
def OfKind (kind k : Nat) : Prop := k = kind ∨ kind = 1 ∧ (k = 0 ∨ 6 < k)

/-- A command taken in its turn: what its kind does, with the queue's HEAD past it. -/
theorem takeCmd_ok {k : Nat} {b : List Byte} (h : Takes s q k b) (f : State → Src → Nat → List Byte → State) :
    s.takeCmd q k f = f (passed s q) (from_ q b) (s.hqueue q).group b := by
  have slot : s.cmdSlot q = some (.ok b) := (cmdSlot_enabled h.on h.group).trans (congrArg some h.slot)
  simp only [State.takeCmd, slot]
  simp [h.kind, h.may, h.ok]
  rfl

/-- A command that is none: its queue fails. -/
theorem takeCmd_bad {kind : Nat} {b : List Byte} (hk : OfKind kind (field b 0 1)) (slot : s.cmdSlot q = some (.ok b)) (may : s.mayStart q b = true)
    (bad : cmdOk b = false) (f : State → Src → Nat → List Byte → State) :
    s.takeCmd q kind f = (passed s q).fail (from_ q b) 8 (s.hqueue q).group 0 := by
  have kind_ok : (decide (field b 0 1 = kind) || (decide (kind = 1) && (decide (field b 0 1 = 0) || decide (6 < field b 0 1)))) = true := by
    simpa [OfKind] using hk
  simp only [State.takeCmd, slot, kind_ok, may, bad]
  rfl

/-- A slot that cannot be read: the event of kind RUN fails the queue (log entry 86). -/
theorem takeCmd_unread {e : VaErr} (slot : s.cmdSlot q = some (.error e)) (f : State → Src → Nat → List Byte → State) :
    s.takeCmd q 1 f = ((passed s q).engineErr (s.hqueue q).group e).fail (.queue q 0 false) 9 (s.hqueue q).group e.va := by
  simp only [State.takeCmd, slot]
  rfl

/-- The event that takes commands of kind `k`. -/
theorem exec_takes (s : State) (k q : Nat) : ∃ kind f, OfKind kind k ∧ exec (takes k q) s = .next (s.takeCmd q kind f) := by
  unfold takes
  split_ifs with h2 h3 h4 h5 h6
  · exact ⟨2, _, .inl h2, rfl⟩
  · exact ⟨3, _, .inl h3, rfl⟩
  · exact ⟨4, _, .inl h4, rfl⟩
  · exact ⟨5, _, .inl h5, rfl⟩
  · exact ⟨6, _, .inl h6, rfl⟩
  · exact ⟨1, _, by unfold OfKind; omega, rfl⟩

theorem badCommands : Claims.BadCommands := by
  refine ⟨fun s q b hq hg slot may bad => ?_, fun s q e hq slot => ?_⟩
  · obtain ⟨kind, f, hk, hx⟩ := exec_takes s (field b 0 1) q
    rw [hx, takeCmd_bad hk ((cmdSlot_enabled hq hg).trans (congrArg some slot)) may bad]
  · have unread : s.cmdSlot q = some (.error e) := by
      obtain ⟨hg, rfl⟩ | ⟨hg, hr⟩ := slot
      · exact cmdSlot_disabled hq hg
      · exact (cmdSlot_enabled hq hg).trans (congrArg some hr)
    exact congrArg Host.Outcome.next (takeCmd_unread unread _)

end Slots

/-! ## The pieces of a COPY (R60, log entry 57) -/

section Copies

variable {group a d : Nat}

/-- Ranges cut at line ends begin at or after the range, each before the next. -/
theorem spans_rise (fuel a n : Nat) : (∀ p ∈ spans fuel a n, a ≤ p.1) ∧ (spans fuel a n).Pairwise fun p r => p.1 < r.1 := by
  induction fuel generalizing a n with
  | zero => exact ⟨fun _ h => (List.not_mem_nil h).elim, .nil⟩
  | succ fuel ih =>
    rw [spans]
    split
    · exact ⟨fun _ h => (List.not_mem_nil h).elim, .nil⟩
    · next hn =>
      obtain ⟨low, rise⟩ := ih (a + min n (256 - a % 256)) (n - min n (256 - a % 256))
      refine ⟨fun p hp => ?_, List.pairwise_cons.2 ⟨fun p hp => ?_, rise⟩⟩
      · obtain rfl | hp := List.mem_cons.1 hp
        · exact le_refl a
        · exact (Nat.le_add_right ..).trans (low p hp)
      · have := low p hp
        show a < p.1
        omega

/-- The pieces of a range, by their offset in it. -/
def offsetPieces (d len : Nat) : List (Nat × Nat) := (spans (nSpans len) d len).map fun p => (p.1 - d, p.2)

theorem offsetPieces_nodup (d len : Nat) : ((offsetPieces d len).map (·.1)).Nodup := by
  obtain ⟨low, rise⟩ := spans_rise (nSpans len) d len
  rw [offsetPieces, List.map_map, List.Nodup, List.pairwise_map]
  refine rise.imp_of_mem fun {p r} hp _ hlt => ?_
  have := low p hp
  show p.1 - d ≠ r.1 - d
  omega

/-- The state once the bytes that a piece reads are charged (R89). -/
def State.paidFor (s : State) (group va n : Nat) : State :=
  match s.place group va (.copy false) with | .ok (.dev pa) => s.chargeGroup group pa n | _ => s

/-- A piece of a tagged message whose bytes have been read: only a link that is down, or an address that is none, fails it. -/
theorem movePiece_msg {s : State} {p : Nat × Nat} {b : List Byte} (hr : s.readVa group (a + p.1) p.2 (.copy false) = .ok b) :
    s.movePiece group a d true p = match (s.paidFor group (a + p.1) p.2).place group d (.copy true) with
      | .ok t => if beyond (s.paidFor group (a + p.1) p.2) t then (s.paidFor group (a + p.1) p.2, some { cause := 1, va := d }) else (s.paidFor group (a + p.1) p.2, none)
      | .error e => (s.paidFor group (a + p.1) p.2, some e) := by
  simp only [State.movePiece, hr]
  rfl

theorem movedPieces_msg {s : State} {p : Nat × Nat} {b : List Byte} (hr : s.readVa group (a + p.1) p.2 (.copy false) = .ok b) (ps : List (Nat × Nat)) :
    movedPieces group a d true (p :: ps) s = match (s.paidFor group (a + p.1) p.2).place group d (.copy true) with
      | .ok t => if beyond (s.paidFor group (a + p.1) p.2) t then (s.paidFor group (a + p.1) p.2, some { cause := 1, va := d })
          else movedPieces group a d true ps (s.paidFor group (a + p.1) p.2)
      | .error e => (s.paidFor group (a + p.1) p.2, some e) := by
  simp only [movedPieces, hr]
  rfl

/-- The statements' moves, piece by piece. -/
theorem movedPieces_cons (msg : Bool) (p : Nat × Nat) (ps : List (Nat × Nat)) (s : State) :
    movedPieces group a d msg (p :: ps) s = match s.movePiece group a d msg p with
      | (u, none) => movedPieces group a d msg ps u
      | (u, some e) => (u, some e) := by
  cases hr : s.readVa group (a + p.1) p.2 (.copy false) with
  | error e => simp only [movedPieces, State.movePiece, hr]
  | ok b =>
    cases msg with
    | false => simp only [movedPieces, State.movePiece, hr]; rfl
    | true =>
      rw [movePiece_msg hr, movedPieces_msg hr]
      cases (s.paidFor group (a + p.1) p.2).place group d (.copy true) with
      | error e => rfl
      | ok t => dsimp only; split <;> rfl

theorem movedPieces_one (p : Nat × Nat) (s : State) : movedPieces group a d false [p] s = s.movePiece group a d false p := by
  rw [movedPieces_cons]
  rcases s.movePiece group a d false p with ⟨u, _ | e⟩ <;> rfl

/-- One piece of a COPY's completion: moved while none has failed. -/
def moveStep (group a d : Nat) (msg : Bool) (r : State × Option VaErr) (p : Nat × Nat) : State × Option VaErr :=
  match r.2 with | some _ => r | none => r.1.movePiece group a d msg p

theorem moveStep_failed (msg : Bool) (ps : List (Nat × Nat)) (u : State) (e : VaErr) :
    ps.foldl (moveStep group a d msg) (u, some e) = (u, some e) := foldl_unchanged fun _ _ => rfl

theorem movedPieces_eq_foldl (msg : Bool) (ps : List (Nat × Nat)) (s : State) :
    ps.foldl (moveStep group a d msg) (s, none) = movedPieces group a d msg ps s := by
  induction ps generalizing s with
  | nil => rfl
  | cons p ps ih =>
    rw [List.foldl_cons, movedPieces_cons]
    show ps.foldl (moveStep group a d msg) (s.movePiece group a d msg p) = _
    rcases s.movePiece group a d msg p with ⟨u, _ | e⟩
    · exact ih u
    · exact moveStep_failed msg ps u e

/-- One piece of a COPY's start, as the machine draws. -/
def startStep (group a d : Nat) (msg : Bool) (r : State × List (Nat × Nat)) (p : Nat × Nat) : State × List (Nat × Nat) :=
  if (msg || !r.1.draw.1) = true then (r.1.draw.2, r.2 ++ [p])
  else match r.1.draw.2.movePiece group a d false p with | (u, none) => (u, r.2) | (_, some _) => (r.1.draw.2, r.2 ++ [p])

/-- One piece of a COPY's start, by given choices. -/
def chosenStep (group a d : Nat) (msg : Bool) (mv : Nat → Bool) (fr : Nat → Nat) (r : State × List (Nat × Nat)) (p : Nat × Nat) :
    State × List (Nat × Nat) :=
  if msg = true ∨ mv p.1 = false then (r.1, r.2 ++ [p])
  else match movedPieces group a d false [p] { r.1 with free := fr p.1 } with | (u, none) => (u, r.2) | (_, some _) => (r.1, r.2 ++ [p])

/-- A state beside the counter of free values. -/
abbrev SameBut (x y : State) : Prop := x = { y with free := x.free }

/-- A step looks at the choices for its own piece alone. -/
theorem chosenStep_congr (msg : Bool) {mv mv' : Nat → Bool} {fr fr' : Nat → Nat} (r : State × List (Nat × Nat)) {p : Nat × Nat} (hm : mv p.1 = mv' p.1)
    (hf : fr p.1 = fr' p.1) : chosenStep group a d msg mv fr r p = chosenStep group a d msg mv' fr' r p := by
  simp only [chosenStep, hm, hf]

/-- The same pieces left, and states that differ in the counter alone. -/
def Alike (r c : State × List (Nat × Nat)) : Prop := r.2 = c.2 ∧ SameBut r.1 c.1

/-- What the machine draws for one piece is a choice for it. -/
theorem startStep_chosen (msg : Bool) {r c : State × List (Nat × Nat)} (h : Alike r c) (p : Nat × Nat) :
    Alike (startStep group a d msg r p) (chosenStep group a d msg (fun _ => r.1.draw.1) (fun _ => r.1.free + 1) c p) := by
  obtain ⟨x, l⟩ := r
  obtain ⟨y, _⟩ := c
  obtain ⟨rfl, h⟩ := h
  have drawn := congrArg (fun z : State => ({ z with free := x.free + 1 } : State)) h
  replace drawn : x.draw.2 = { y with free := x.free + 1 } := drawn
  unfold startStep chosenStep
  dsimp only
  rw [movedPieces_one, ← drawn]
  by_cases hl : msg = true ∨ x.draw.1 = false
  · rw [if_pos hl, if_pos (by simpa using hl)]
    exact ⟨rfl, drawn⟩
  · rw [if_neg hl, if_neg (by simpa using hl)]
    rcases x.draw.2.movePiece group a d false p with ⟨u, _ | e⟩
    · exact ⟨rfl, rfl⟩
    · exact ⟨rfl, drawn⟩

/-- What the machine draws for pieces of different offsets is a choice for each. -/
theorem startSteps_chosen (msg : Bool) {ps : List (Nat × Nat)} (hn : (ps.map (·.1)).Nodup) {r c : State × List (Nat × Nat)} (h : Alike r c) :
    ∃ mv fr, Alike (ps.foldl (startStep group a d msg) r) (ps.foldl (chosenStep group a d msg mv fr) c) := by
  induction ps generalizing r c with
  | nil => exact ⟨fun _ => false, fun _ => 0, h⟩
  | cons p ps ih =>
    obtain ⟨hp, hn⟩ := List.nodup_cons.1 hn
    obtain ⟨mv, fr, rest⟩ := ih hn (startStep_chosen (group := group) (a := a) (d := d) msg h p)
    let mv' := Function.update mv p.1 r.1.draw.1
    let fr' := Function.update fr p.1 (r.1.free + 1)
    have first : chosenStep group a d msg mv' fr' c p = chosenStep group a d msg (fun _ => r.1.draw.1) (fun _ => r.1.free + 1) c p :=
      chosenStep_congr msg c (Function.update_self ..) (Function.update_self ..)
    have others (x : State × List (Nat × Nat)) (o : Nat × Nat) (ho : o ∈ ps) :
        chosenStep group a d msg mv' fr' x o = chosenStep group a d msg mv fr x o := by
      have ne : o.1 ≠ p.1 := fun e => hp (List.mem_map.2 ⟨o, ho, e⟩)
      exact chosenStep_congr msg x (Function.update_of_ne ne ..) (Function.update_of_ne ne ..)
    refine ⟨mv', fr', ?_⟩
    rw [List.foldl_cons, List.foldl_cons, List.foldl_ext _ _ _ others, first]
    exact rest

theorem inFlight_sameBut {x y : State} (h : SameBut x y) (src : Src) (group : Nat) (k : CmdK) :
    inFlight x src group k = { inFlight y src group k with free := x.free } := congrArg (fun z => inFlight z src group k) h

/-- A COPY started: some choice for its pieces begins it as the machine draws. -/
theorem copyStart_begins (s : State) (src : Src) (group a d len : Nat) : ∃ (mv : Nat → Bool) (fr : Nat → Nat) (t : State),
    s.copyStart src group a d len = t ∧ let r := begins mv fr group a d len s
      t = { inFlight r.1 src group (.copy a d len r.2) with free := t.free } := by
  obtain ⟨mv, fr, list, state⟩ := startSteps_chosen (group := group) (a := a) (d := d) (s.frontMsg group d len) (offsetPieces_nodup d len)
    (r := (s, [])) (c := (s, [])) ⟨rfl, rfl⟩
  have flies := inFlight_sameBut state src group (.copy a d len (begins mv fr group a d len s).2)
  exact ⟨mv, fr, _, rfl, (congrArg (fun l => inFlight _ src group (.copy a d len l)) list).trans flies⟩

/-- How a COPY's completion ends, from the moves of the pieces left to it. -/
def copyEnd (c : Cmd) (d : Nat) (msg : Bool) (r : State × Option VaErr) : State :=
  match r.2 with
  | some e => (r.1.engineErr c.group e).fail c.src 9 c.group e.va
  | none => if msg && r.1.draw.1 then (asked r.1).fail c.src 9 c.group d else done (asked r.1) c d

/-- A COPY's completion moves the pieces left to it in turn. -/
theorem exec_copyComplete {s : State} {n len : Nat} {c : Cmd} {todo : List (Nat × Nat)} (hc : s.cmds[n]? = some c) (hk : c.k = .copy a d len todo) :
    exec (.copyCommandComplete n) s = .next (copyEnd c d (s.frontMsg c.group d len) (movedPieces c.group a d (s.frontMsg c.group d len) todo (ended s c))) := by
  rw [← movedPieces_eq_foldl]
  show execCopyCommandComplete n s = _
  simp only [execCopyCommandComplete, hc, hk]
  rfl

end Copies

/-! ## SIGNAL, WAIT and LOADGRAPH (R60, R70, R71) -/

section Signals

variable {s : State} {group : Nat}

/-- The notify register of a SIGNAL is none, or one that its group's class entry holds (R61). -/
theorem notifyBad_false {n : Nat} (h : n = 0xFFFF ∨ s.classGroup n = group) : s.notifyBad n group = false := by
  simpa [State.notifyBad, or_iff_not_imp_left] using h

/-- A SIGNAL that writes its word. -/
theorem signal_writes {src : Src} {a v notify : Nat} {w32 : Bool} {u : State} (hn : notify = 0xFFFF ∨ s.classGroup notify = group)
    (hw : s.writeVa group a (toBytes (if w32 then 4 else 8) v) .write = (u, none)) :
    s.signal src group a v false w32 notify = ((if notify = 0xFFFF then u else u.notify notify 1).complete src 0 group a).nodeDone src := by
  have word : s.signalWrite group a v false w32 = .ok u := by
    have zero : ofBytes [] + v = v := Nat.zero_add v
    simp [State.signalWrite, zero, hw]
  simp [State.signal, notifyBad_false hn, word]

/-- A SIGNAL that adds to its word, which no host window that lets no atomic through holds. -/
theorem signal_adds {src : Src} {a v notify : Nat} {w32 : Bool} {o : List Byte} {u : State} (hn : notify = 0xFFFF ∨ s.classGroup notify = group)
    (hx : ∀ ba, s.xl group a .atomic ≠ .ok (.host ba) false) (hr : s.readVa group a (if w32 then 4 else 8) .atomic = .ok o)
    (hw : s.writeVa group a (toBytes (if w32 then 4 else 8) (ofBytes o + v)) .atomic = (u, none)) :
    s.signal src group a v true w32 notify = ((if notify = 0xFFFF then u else u.notify notify 1).complete src 0 group a).nodeDone src := by
  have word : s.signalWrite group a v true w32 = .ok u := by
    unfold State.signalWrite
    have allowed : (match s.xl group a .atomic with | .ok (.host _) ao => !ao | _ => false) = false := by
      split
      next ba ao h => cases ao with
        | false => exact absurd h (hx ba)
        | true => rfl
      next => rfl
    simp [hr, hw]
    exact allowed
  simp [State.signal, notifyBad_false hn, word]

/-- The comparison of WAIT and IF, as the statements write it (R59). -/
theorem cmpHolds_iff (cmp x v : Nat) : cmpHolds cmp x v = true ↔ if cmp = 0 then x = v else if cmp = 1 then x ≠ v else if cmp = 2 then v ≤ x else x < v := by
  unfold cmpHolds
  split
  next => simp
  next => simp
  next => simp
  next h0 h1 h2 => rw [if_neg h0, if_neg h1, if_neg h2, decide_eq_true_iff]

/-- A WAIT whose deadline has not passed reads its word. -/
theorem pollWait_reads {c : Cmd} {a v cmp : Nat} {w32 : Bool} {dl : Option Nat} {b : List Byte} (hk : c.k = .wait a v cmp w32 dl)
    (hd : ∀ d, dl = some d → s.ns < d) (hr : s.readVa c.group a (if w32 then 4 else 8) .read = .ok b) :
    s.pollWait c = if cmpHolds cmp (ofBytes b) v = true then done (ended s c) c a else s := by
  have waits : (dl.map fun d => decide (d ≤ s.ns)).getD false = false := by
    cases dl with
    | none => rfl
    | some d => exact decide_eq_false (Nat.not_le.2 (hd d rfl))
  simp only [State.pollWait, hk, waits, hr]
  rfl

/-- A LOADGRAPH of a graph that neither runs nor loads nor has a trigger to run: its array is read now or later (log entry 57). -/
theorem exec_loadgraph {q : Nat} {b : List Byte} (h : Takes s q 6 b) : exec (.loadgraphCommand q) s =
    .next (let g := field b 8 1
      let x := s.graph g
      let grp := (s.hqueue q).group
      let early := if s.draw.1 then (match s.readVa grp (field b 16 8) (32 * field b 9 1) .read with | .ok b => some b | .error _ => none) else none
      if x.running || x.loading || (x.loaded && x.pending ≠ 0) then (passed s q).fail (from_ q b) 10 grp (field b 16 8)
      else inFlight (loading { passed s q with free := s.free + 1 } g) (from_ q b) grp (.load g (field b 9 1) (field b 16 8) early)) := by
  refine (congrArg Host.Outcome.next (takeCmd_ok h _)).trans ?_
  have alike : ReadsAlike s (passed s q).draw.2 := ⟨rfl, rfl, rfl, rfl, rfl, rfl, rfl, rfl, fun _ => rfl⟩
  simp only [alike.readVa]
  rfl

/-- The nodes that a LOADGRAPH's array gives. -/
theorem exec_loadgraphComplete {n g k a : Nat} {c : Cmd} {early : Option (List Byte)} {b : List Byte} (hc : s.cmds[n]? = some c) (hk : c.k = .load g k a early)
    (hr : early = some b ∨ (early = none ∧ s.readVa c.group a (32 * k) .read = .ok b)) : exec (.loadgraphComplete n) s =
    .next (let t := (ended s c).onGraph g unloading
      if !(nodesOf k b).all (nodeOk k) then t.fail c.src 8 c.group a
      else if (nodesOf k b).any fun x => s.notifyBad (nodeNotify x) c.group then t.fail c.src 9 c.group a
      else (t.onGraph g (loaded c.group (nodesOf k b))).complete c.src 0 c.group a) := by
  show execLoadgraphComplete n s = _
  obtain rfl | ⟨rfl, hr⟩ := hr
  · simp only [execLoadgraphComplete, hc, hk]
    rfl
  · simp only [execLoadgraphComplete, hc, hk, hr]
    rfl

end Signals

/-! ## Completions and the ring (R76 to R79, log entry 56) -/

section Rings

variable {s : State} {q : Nat}

/-- The detail of a completion is the address concerned or zero; beside it only the counter of free values moves. -/
theorem detail_spec (s : State) {status : Nat} (a : Nat) (h : status ≠ 21) : ∃ d n, s.detail status a = (d, { s with free := n }) ∧ (d = a ∨ d = 0) := by
  obtain ⟨d, n, hp, hd⟩ := pick_spec s a 0
  exact ⟨d, n, (if_neg h).trans hp, hd⟩

theorem post_put {r : EvRec} (hk : r.kind ≠ 2) (hev : s.evsize ≠ 0) (hroom : s.ringFull = false) (hheld : (s.hqueue r.src).held = []) : s.post r = s.ringPut r := by
  simp [State.post, hk, hev, hroom, hheld]

theorem post_holds {r : EvRec} (hs : r.srcK = 1) (hk : r.kind ≠ 2) (hev : s.evsize ≠ 0) (hfull : s.ringFull = true) : s.post r = s.onHq r.src (holds r) := by
  simp [State.post, hs, hk, hev, hfull]
  rfl

end Rings

/-- A SIGNAL command, in the words of the statements. -/
theorem exec_signal {s : State} {q : Nat} {b : List Byte} (h : Takes s q 4 b) : exec (.signalCommand q) s =
    .next ((passed s q).signal (from_ q b) (s.hqueue q).group (field b 8 8) (field b 16 8) (decide (field b 24 1 = 1)) (decide (field b 25 1 = 1)) (field b 26 2)) :=
  congrArg Host.Outcome.next (takeCmd_ok h _)

/-- How the completion of a COPY ends: failed at the piece that failed, done, or refused by the receiver of its message. -/
theorem copyComplete_ends {s : State} {n a d len : Nat} {c : Cmd} {todo : List (Nat × Nat)} (hc : s.cmds[n]? = some c) (hk : c.k = .copy a d len todo) :
    let r := movedPieces c.group a d (s.frontMsg c.group d len) todo (ended s c)
    (∀ e, r.2 = some e → exec (.copyCommandComplete n) s = .next ((r.1.engineErr c.group e).fail c.src 9 c.group e.va)) ∧
    (r.2 = none → exec (.copyCommandComplete n) s = .next (done { r.1 with free := r.1.free + 1 } c d) ∨
      (s.frontMsg c.group d len = true ∧ exec (.copyCommandComplete n) s = .next ((asked r.1).fail c.src 9 c.group d))) := by
  rw [exec_copyComplete hc hk]
  dsimp only
  generalize movedPieces c.group a d (s.frontMsg c.group d len) todo (ended s c) = r
  obtain ⟨u, _ | e⟩ := r
  · refine ⟨fun e he => (nomatch he), fun _ => ?_⟩
    by_cases hm : s.frontMsg c.group d len = true ∧ u.draw.1 = true
    · exact .inr ⟨hm.1, by simp only [copyEnd, hm.1, hm.2]; rfl⟩
    · exact .inl (congrArg Host.Outcome.next (if_neg (by simpa using hm)))
  · refine ⟨fun e' he => ?_, fun h => nomatch h⟩
    cases he
    rfl

/-- Settles O52: each command's event takes it or leaves it as its slot and its limits say, and each completion follows from what the command reads. -/
theorem commandsAct : Obligations.CommandsAct := by
  unfold Obligations.CommandsAct
  refine ⟨badCommands, ?copy, fun s n c a d len todo hc hk => copyComplete_ends hc hk, ?graph, ?signal, ?wait, ?poll, ?load, ?loadEnd, ?room, fun s r => rfl, ?posted⟩
  case copy =>
    intro s q b h
    obtain ⟨mv, fr, t, ht, hb⟩ := copyStart_begins (passed s q) (from_ q b) (s.hqueue q).group (field b 8 8) (field b 16 8) (field b 24 8)
    exact ⟨mv, fr, t, congrArg Host.Outcome.next ((takeCmd_ok h _).trans ht), hb⟩
  case graph => exact fun s q b h => congrArg Host.Outcome.next (takeCmd_ok h _)
  case signal =>
    intro s q b h g n notify told hn
    have alike := passed_readsAlike s q
    have size : (if decide (field b 25 1 = 1) = true then 4 else 8) = n := by simp only [decide_eq_true_eq]; rfl
    refine ⟨fun u h0 hw => ?_, fun o u h1 hx hr hw => ?_⟩
    · rw [exec_signal h, h0]
      exact congrArg Host.Outcome.next (signal_writes hn (by rw [size]; exact hw))
    · rw [exec_signal h, h1]
      exact congrArg Host.Outcome.next (signal_adds hn (fun ba => by rw [alike.xl]; exact hx ba) (by rw [size, alike.readVa]; exact hr) (by rw [size]; exact hw))
  case wait => exact fun s q b h => congrArg Host.Outcome.next (takeCmd_ok h _)
  case poll =>
    intro s n c a v cmp w32 dl hc hk
    refine ⟨fun b hd hr => ?_, fun d hd hle => ?_⟩
    · show execWaitPoll n s = _
      simp only [execWaitPoll, hc, pollWait_reads hk hd hr, cmpHolds_iff]
    · subst hd
      show execWaitTimeout n s = _
      simp only [execWaitTimeout, hc, hk, if_pos hle]
      rfl
  case load =>
    intro s q b h g x grp
    rw [exec_loadgraph h]
    refine ⟨fun busy => ?_, fun hrun hload hpend => ?_⟩
    · exact congrArg Host.Outcome.next (if_pos (by simpa [or_assoc] using busy))
    · refine ⟨_, ?_, congrArg Host.Outcome.next (if_neg ?_)⟩
      · cases s.draw.1 with
        | false => exact .inl rfl
        | true =>
          cases hr : s.readVa grp (field b 16 8) (32 * field b 9 1) .read with
          | error e => exact .inl rfl
          | ok v => exact .inr ⟨v, rfl, rfl⟩
      · simp [show (s.graph (field b 8 1)).running = false from hrun, show (s.graph (field b 8 1)).loading = false from hload]
        exact hpend
  case loadEnd =>
    intro s n c g k a early b hc hk hr ns t
    rw [exec_loadgraphComplete hc hk hr]
    refine ⟨fun ⟨x, hx, bad⟩ => ?_, fun good => ?_⟩
    · have none_ok : (!(nodesOf k b).all (nodeOk k)) = true := by
        rw [Bool.not_eq_true', List.all_eq_false]
        exact ⟨x, hx, by rw [bad]; exact Bool.false_ne_true⟩
      exact congrArg Host.Outcome.next (if_pos none_ok)
    · have all_ok : (!(nodesOf k b).all (nodeOk k)) = false := by
        rw [Bool.not_eq_false', List.all_eq_true]
        exact fun x hx => (good x hx).1
      have all_held : ((nodesOf k b).any fun x => s.notifyBad (nodeNotify x) c.group) = false := by
        rw [List.any_eq_false]
        exact fun x hx => by rw [notifyBad_false (good x hx).2]; exact Bool.false_ne_true
      simp only [all_ok, all_held]
      rfl
  case room =>
    intro s q r hheld hev hroom
    show Host.Outcome.next (s.flushHeld q (s.hqueue q).held) = _
    simp [hheld, State.flushHeld, hev, hroom]
  case posted =>
    intro s q tag status group a hev hst r
    obtain ⟨d, n, hdet, hd⟩ := detail_spec s a hst
    have posts : s.complete (.queue q tag true) status group a = ({ s with free := n } : State).post (r d) := by
      simp only [State.complete, hdet]
      rfl
    have kind : (1 : Nat) ≠ 2 := by decide
    refine ⟨fun hroom hheld => ⟨{ s with free := n }, rfl, ?_⟩, fun hfull => ⟨d, hd, { s with free := n }, rfl, posts.trans (post_holds rfl kind hev hfull)⟩⟩
    have put := posts.trans (post_put (r := r d) kind hev hroom hheld)
    obtain rfl | rfl := hd
    · exact .inl put
    · exact .inr put

end Sys2Proof.Machine

/-! PROOF. R70, R71: graphs run node by node. -/

namespace Sys2Proof.Machine

open Claims

section Graphs

variable {s : State} {g : Nat}

/-- Updates that agree on a graph as it stands are one. -/
theorem onGraph_congr {f f' : Graph → Graph} (h : f (s.graph g) = f' (s.graph g)) : s.onGraph g f = s.onGraph g f' := by
  have value : f (sget Graph.init g s.graphs) = f' (sget Graph.init g s.graphs) := h
  simp only [State.onGraph, supd, value]

theorem graphBusy_false (h : ∀ c ∈ s.cmds, ∀ n e, c.src ≠ .graph g n e) : s.graphBusy g = false := by
  refine List.any_eq_false.2 fun c hc => ?_
  cases hs : c.src with
  | graph k n e => simpa using fun hk : k = g => h c hc n e (hk ▸ hs)
  | _ => exact Bool.false_ne_true

/-- A run begins. -/
theorem exec_graphRunStart (hl : (s.graph g).loaded = true) (hn : (s.graph g).loading = false) (hr : (s.graph g).running = false)
    (hf : (s.graph g).faulted = false) (hp : (s.graph g).pending ≠ 0) (hc : ∀ c ∈ s.cmds, ∀ n e, c.src ≠ .graph g n e) :
    exec (.graphRunStart g) s = .next (s.onGraph g runs_) := by
  show execGraphRunStart g s = _
  simp only [execGraphRunStart]
  rw [if_pos (by simp [hl, hn, hr, hf, hp, graphBusy_false hc])]
  exact congrArg Host.Outcome.next (onGraph_congr rfl)

/-! ## A node to which a run has come -/

section Nodes

variable {k n : Nat} {b : List Byte}

theorem nodeAt_eq_some (h : AtNode s g k n b) : s.nodeAt g k = some (n, b) := by
  obtain ⟨hrun, rfl, hnode, hkind, hfree, halone⟩ := h
  have free : (!s.graphBusy g || ((s.graph g).async && !(field b 1 1).testBit 1)) = true := by simpa using hfree
  have outstanding (h : ∀ c ∈ s.cmds, ∀ e, c.src ≠ .graph g (s.graph g).pc e) :
      (s.cmds.any fun c => match c.src with | .graph h n _ => decide (h = g) && decide (n = (s.graph g).pc) | _ => false) = false := by
    refine List.any_eq_false.2 fun c hc => ?_
    cases hs : c.src with
    | graph x m e => simpa using fun (hx : x = g) (hm : m = (s.graph g).pc) => h c hc e (by rw [hs, hx, hm])
    | _ => exact Bool.false_ne_true
  have alone : ((field b 1 1).testBit 0 ||
      !(s.cmds.any fun c => match c.src with | .graph h n _ => decide (h = g) && decide (n = (s.graph g).pc) | _ => false)) = true := by
    obtain ha | ha := halone
    · rw [ha, Bool.true_or]
    · rw [outstanding ha, Bool.not_false, Bool.or_true]
  simp only [State.nodeAt, hnode, hrun, hkind, free]
  exact if_pos (Bool.and_eq_true_iff.2 ⟨by simp, alone⟩)

/-- A node of its event's kind starts. -/
theorem startNode_eq (h : AtNode s g k n b) (f : State → Src → Nat → List Byte → State) :
    s.startNode g k f = goOn g n b (f s (ofNode g n b) (s.graph g).group b) := by
  simp only [State.startNode, nodeAt_eq_some h, State.started, goOn, Bool.and_eq_true, decide_eq_true_eq, and_assoc]
  rfl

/-- A SIGNAL node, in the words of the statements. -/
theorem exec_graphNodeSignal (h : AtNode s g 3 n b) : exec (.graphNodeSignal g) s = .next (goOn g n b
    (s.signal (ofNode g n b) (s.graph g).group (field b 8 8) (field b 16 8) (decide (field b 3 1 = 1)) ((field b 1 1).testBit 3) (field b 24 2))) :=
  congrArg Host.Outcome.next (startNode_eq h _)

/-- IF's comparison, in the words of the statements. -/
theorem cmpHolds_eq (k x y : Nat) : cmpHolds k x y = if k = 0 then decide (x = y) else if k = 1 then decide (x ≠ y) else if k = 2 then decide (y ≤ x) else decide (x < y) := by
  rw [Bool.eq_iff_iff, cmpHolds_iff]
  split_ifs <;> exact decide_eq_true_iff.symm

theorem exec_graphNodeIf (h : AtNode s g 5 n b) : exec (.graphNodeIf g) s =
    .next (match s.readVa (s.graph g).group (field b 8 8) (if (field b 1 1).testBit 3 then 4 else 8) .read with
      | .error e => (s.engineErr (s.graph g).group e).fail (ofNode g n b) 9 (s.graph g).group (field b 8 8)
      | .ok v => jumps s g n (if cmpHolds (field b 3 1) (ofBytes v) (field b 16 8) then field b 2 1 else n + 1) (field b 8 8) b) := by
  show execGraphNodeIf g s = _
  simp only [execGraphNodeIf, nodeAt_eq_some h]
  rfl

/-- LOOP counts one more pass, and goes back until its count is used up. -/
theorem exec_graphNodeLoop (h : AtNode s g 6 n b) : exec (.graphNodeLoop g) s =
    .next (let k := sget 0 n (s.graph g).ctrs
      let jump := decide (k + 1 < field b 4 4)
      jumps (s.onGraph g fun x => { x with ctrs := sput 0 n (if jump then k + 1 else 0) x.ctrs }) g n (if jump then field b 2 1 else n + 1) 0 b) := by
  show execGraphNodeLoop g s = _
  simp only [execGraphNodeLoop, nodeAt_eq_some h]
  simp only [jumps, graph_onGraph, if_pos]
  rfl

theorem trigger_group (s : State) (h g : Nat) : ((s.trigger h).graph g).group = (s.graph g).group := by
  rw [State.trigger, graph_onGraph]
  split
  next e => subst e; split <;> rfl
  next => rfl

theorem exec_graphNodeTrigger (h : AtNode s g 7 n b) :
    exec (.graphNodeTrigger g) s = .next (jumps (s.trigger (field b 8 8)) g n (n + 1) 0 b) := by
  show execGraphNodeTrigger g s = _
  simp only [execGraphNodeTrigger, nodeAt_eq_some h, jumps, trigger_group]
  rfl

end Nodes

/-! ## Where a run goes on -/

/-- A run goes on where a node is left, or one is outstanding. -/
theorem graphEnd_goes (h : (s.graph g).pc < (s.graph g).nodes.length ∨ s.graphBusy g = true) : s.graphEnd g = s := by
  refine if_neg fun hend => ?_
  rw [Bool.and_eq_true, Bool.and_eq_true, decide_eq_true_eq, Bool.not_eq_true'] at hend
  obtain ⟨⟨-, past⟩, idle⟩ := hend
  obtain hlt | busy := h
  · omega
  · exact Bool.false_ne_true (idle.symm.trans busy)

/-- A run that no tagged message caused ends past its last node. -/
theorem graphEnd_ends (hr : (s.graph g).running = true) (hp : (s.graph g).nodes.length ≤ (s.graph g).pc) (hb : s.graphBusy g = false)
    (ht : (s.graph g).tag = none) : s.graphEnd g = s.onGraph g fun x => { x with running := false, tag := none } := by
  simp [State.graphEnd, hr, hp, hb, ht]

end Graphs

/-- Settles O54: a node's event finds the node to which the run has come, does what the command of its kind does, and moves the run on. -/
theorem graphsRun : Obligations.GraphsRun := by
  unfold Obligations.GraphsRun
  refine ⟨fun s g => exec_graphRunStart, ?run, ?copy, ?signal, ?wait, ?cond, ?loop, fun s g n b h => exec_graphNodeTrigger h, fun s g => rfl, ?goes⟩
  case run =>
    intro s g n b h
    rw [Nat.mul_comm 64]
    exact congrArg Host.Outcome.next (startNode_eq h _)
  case copy =>
    intro s g n b h
    obtain ⟨mv, fr, t, ht, hb⟩ := copyStart_begins s (ofNode g n b) (s.graph g).group (field b 8 8) (field b 16 8) (field b 24 4)
    exact ⟨mv, fr, t, congrArg Host.Outcome.next ((startNode_eq h _).trans (congrArg (goOn g n b) ht)), hb⟩
  case signal =>
    intro s g n b u h grp size notify told hn
    rw [exec_graphNodeSignal h]
    refine ⟨fun h0 hw => ?_, fun o h1 hx hr hw => ?_⟩
    · rw [h0]
      exact congrArg (fun t => Host.Outcome.next (goOn g n b t)) (signal_writes hn hw)
    · rw [h1]
      exact congrArg (fun t => Host.Outcome.next (goOn g n b t)) (signal_adds hn hx hr hw)
  case wait => exact fun s g n b h => congrArg Host.Outcome.next (startNode_eq h _)
  case cond =>
    intro s g n b h
    rw [exec_graphNodeIf h]
    refine ⟨fun v hr => ?_, fun e hr => ?_⟩
    · simp only [hr, cmpHolds_eq]
    · simp only [hr]
  case loop =>
    intro s g n b h
    rw [exec_graphNodeLoop h]
    refine ⟨fun hlt => ?_, fun hle => ?_⟩
    · simp only [hlt, decide_true, if_true]
    · simp only [Nat.not_lt.2 hle, decide_false, Bool.false_eq_true, if_false]
  case goes =>
    intro s g n a hrun u
    have graph : u.graph g = { s.graph g with pc := n, async := a } := by rw [graph_onGraph, if_pos rfl]
    refine ⟨fun h => graphEnd_goes (s := u) (h.imp_left fun hlt => by rw [graph]; exact hlt), fun hle hb ht => ?_⟩
    exact graphEnd_ends (s := u) (by rw [graph]; exact hrun) (by rw [graph]; exact hle) hb (by rw [graph]; exact ht)

end Sys2Proof.Machine

/-! SUPPORT. Two writes of one key of sparse data, entries of canonical data, and the writes of a register block's fields (R334). -/

namespace Sys2Proof.Machine

/-! ## Sparse data -/

section Data

variable {α : Type}

theorem sins_sins (k : Nat) (v w : α) (m : Sparse α) : sins k w (sins k v m) = sins k w m := by
  induction m with
  | nil => simp [sins]
  | cons x r ih =>
    obtain ⟨j, u⟩ := x
    by_cases hlt : k < j
    · simp [sins, hlt]
    · by_cases heq : k = j
      · simp [sins, heq]
      · simp [sins, hlt, heq, ih]

theorem sdel_sins (k : Nat) (v : α) (m : Sparse α) : sdel k (sins k v m) = sdel k m := by
  induction m with
  | nil => simp [sins, sdel]
  | cons x r ih =>
    obtain ⟨j, u⟩ := x
    by_cases hlt : k < j
    · simp [sins, sdel, hlt]
    · by_cases heq : k = j
      · simp [sins, sdel, heq]
      · simp [sins, sdel, hlt, heq, Ne.symm heq, ih]

/-- Of two writes of a key the second is what counts, where the first leaves an entry. -/
theorem sput_sput [DecidableEq α] {d v : α} (hv : v ≠ d) (k : Nat) (w : α) (m : Sparse α) : sput d k w (sput d k v m) = sput d k w m := by
  rw [sput, sput, sput, if_neg hv, sdel_sins, sins_sins]

theorem supd_supd [DecidableEq α] {d : α} {f : α → α} {k : Nat} {m : Sparse α} (h : f (sget d k m) ≠ d) (g : α → α) :
    supd d k g (supd d k f m) = supd d k (fun x => g (f x)) m := by
  rw [supd, sget_supd_same, supd, sput_sput h, supd]

theorem supd_unchanged [DecidableEq α] {d : α} {f : α → α} {k : Nat} {m : Sparse α} (hc : scanon d m = true) (h : f (sget d k m) = sget d k m) :
    supd d k f m = m := by
  refine canon_ext (supd_canon hc k f) hc fun j => ?_
  rw [sget_supd]
  split
  next hj => rw [h, hj]
  next => rfl

theorem supd_congr [DecidableEq α] {d : α} {f g : α → α} {k : Nat} {m : Sparse α} (h : f (sget d k m) = g (sget d k m)) : supd d k f m = supd d k g m := by
  rw [supd, h, supd]

theorem le_key [DecidableEq α] {d : α} {lo : Nat} {m : Sparse α} (hc : scanonFrom d lo m = true) {x : Nat × α} (hx : x ∈ m) : lo ≤ x.1 := by
  induction m generalizing lo with
  | nil => exact (List.not_mem_nil hx).elim
  | cons y r ih =>
    simp only [scanonFrom, Bool.and_eq_true, decide_eq_true_eq] at hc
    obtain rfl | hx := List.mem_cons.1 hx
    · exact hc.1.1
    · have := ih hc.2 hx
      omega

/-- An entry of canonical data is what its key reads as. -/
theorem sget_of_mem [DecidableEq α] {d : α} {lo : Nat} {m : Sparse α} (hc : scanonFrom d lo m = true) {x : Nat × α} (hx : x ∈ m) : sget d x.1 m = x.2 := by
  induction m generalizing lo with
  | nil => exact (List.not_mem_nil hx).elim
  | cons y r ih =>
    simp only [scanonFrom, Bool.and_eq_true, decide_eq_true_eq] at hc
    obtain rfl | hx := List.mem_cons.1 hx
    · exact if_pos rfl
    · have above : y.1 + 1 ≤ x.1 := le_key hc.2 hx
      exact (if_neg (by omega)).trans (ih hc.2 hx)

/-- What does not read as the default has an entry. -/
theorem mem_of_sget_ne {d : α} {k : Nat} {m : Sparse α} (h : sget d k m ≠ d) : (k, sget d k m) ∈ m := by
  induction m with
  | nil => exact (h rfl).elim
  | cons y r ih =>
    obtain ⟨j, v⟩ := y
    by_cases hk : j = k
    · simp [sget, hk]
    · rw [sget, if_neg hk] at h ⊢
      exact List.mem_cons_of_mem _ (ih h)

end Data

/-- No bytes written leave a memory as it is. -/
theorem writeCells_nil (a : Nat) (m : Sparse Byte) : writeCells a [] m = m := by
  induction m with
  | nil => rfl
  | cons x r ih =>
    obtain ⟨j, v⟩ := x
    by_cases hj : j < a
    · rw [writeCells, if_pos hj, ih]
    · rw [writeCells, if_neg hj]
      simp [freshCells, cellsFrom, hj]

/-! ## Fields of a block -/

/-- A write of a whole field is its new value. -/
theorem fieldWrite_whole {k : Nat} {b : List Byte} (hk : 0 < k) (hb : b.length = k) (o old : Nat) : fieldWrite o k old o b = some (ofBytes b) := by
  have bytes : ((toBytes k old).zipIdx.map fun (x : Byte × Nat) => if o ≤ o + x.2 && o + x.2 < o + b.length then b.getD (o + x.2 - o) 0 else x.1) = b := by
    refine List.ext_getElem (by simp [hb]) fun i hi hib => ?_
    have inside : i < b.length := hib
    simp [inside]
  rw [fieldWrite, if_pos (by simp [hb, hk]), bytes]

/-- A write beside a field does not touch it. -/
theorem fieldWrite_apart {o k off : Nat} {b : List Byte} (h : o + k ≤ off ∨ off + b.length ≤ o) (old : Nat) : fieldWrite o k old off b = none := by
  refine if_neg fun hin => ?_
  rw [Bool.and_eq_true, decide_eq_true_eq, decide_eq_true_eq] at hin
  omega

end Sys2Proof.Machine

/-! PROOF. R57, R61, R70, R73 to R76, R312, R330, R334 to R336, R339: writes of the device's registers. -/

namespace Sys2Proof.Machine

open Claims

/-! ## Notify registers (R70, R73 to R75) -/

section Notify

variable {s : State} {n : Nat}

theorem onNreg_onNreg {f : NReg → NReg} (h : f (s.nreg n) ≠ NReg.init) (g : NReg → NReg) : (s.onNreg n f).onNreg n g = s.onNreg n fun r => g (f r) := by
  simp only [State.onNreg, supd_supd (show f (sget NReg.init n s.nregs) ≠ NReg.init from h)]

theorem nreg_onNreg_same (f : NReg → NReg) : (s.onNreg n f).nreg n = f (s.nreg n) := by rw [nreg_onNreg, if_pos rfl]

theorem notify_graph (hg : s.gated = false) (hn : n < 64) (v : Word64) : s.notify n v = if v.getLsbD 63 then s.untrigger n else s.trigger n := by
  simp [State.notify, hg, hn]

theorem notify_interrupt (hg : s.gated = false) (hn : 64 ≤ n) (hc : (s.nreg n).cls = 2) (v : Word64) : s.notify n v = s.writeInt n v := by
  simp [State.notify, hg, Nat.not_lt.2 hn, hc]

theorem notify_wake (hg : s.gated = false) (hn : 64 ≤ n) (hc : (s.nreg n).cls = 3) (v : Word64) : s.notify n v = s.writeWake n v := by
  simp [State.notify, hg, Nat.not_lt.2 hn, hc]

theorem isCls_of {c : Nat} (hn : 64 ≤ n) (hn' : n < 4096) (hc : (s.nreg n).cls = c) : s.isCls n c = true := by
  simp [State.isCls, hn, hn', hc]

theorem start_counts (v : Word64) (ns : Nat) (r : NReg) : NReg.start { r with value := r.value ||| v, count := min (r.count + 1) 255 } ns = counts v ns r := by
  simp only [NReg.start, counts]
  by_cases h : r.due = none ∧ r.timer ≠ 0
  · simp [h.1, h.2]
  · rw [if_neg (by simpa using h), if_neg h]

/-- A counted write counts, and so leaves no register at rest. -/
theorem counts_ne_init (v : Word64) (ns : Nat) (r : NReg) : counts v ns r ≠ NReg.init := fun h => by
  have count := congrArg NReg.count h
  change min (r.count + 1) 255 = 0 at count
  omega

theorem writeInt_eq (v : Word64) : s.writeInt n v = (s.onNreg n (counts v s.ns)).thresh n := by
  simp only [State.writeInt, start_counts]

/-- A write that reaches the threshold raises the register's vector (R74). -/
theorem writeInt_raises {v : Word64} (h : (s.nreg n).thresh ≤ min ((s.nreg n).count + 1) 255) :
    s.writeInt n v = message (s.onNreg n fun r => rests (counts v s.ns r)) (s.nreg n).target := by
  have reached : (decide (((s.onNreg n (counts v s.ns)).nreg n).thresh ≤ ((s.onNreg n (counts v s.ns)).nreg n).count) &&
      decide (((s.onNreg n (counts v s.ns)).nreg n).count ≠ 0)) = true := by
    rw [nreg_onNreg_same]
    have counted : (counts v s.ns (s.nreg n)).count ≠ 0 := by show min ((s.nreg n).count + 1) 255 ≠ 0; omega
    simpa using ⟨h, counted⟩
  rw [writeInt_eq, State.thresh, if_pos reached, onNreg_onNreg (counts_ne_init v s.ns (s.nreg n)), nreg_onNreg_same]
  rfl

/-- A write short of the threshold only counts (R74). -/
theorem writeInt_counts {v : Word64} (h : min ((s.nreg n).count + 1) 255 < (s.nreg n).thresh) : s.writeInt n v = s.onNreg n (counts v s.ns) := by
  rw [writeInt_eq, State.thresh, if_neg]
  rw [nreg_onNreg_same, Bool.and_eq_true, decide_eq_true_eq]
  exact fun hr => absurd hr.1 (Nat.not_le.2 h)

/-! ## Wake latches (R75, R336) -/

/-- A latched write joins those that arrived under the same class entry (R336). -/
theorem parts_eq_latchedMore (r : NReg) (v : Word64) : r.parts v = latchedMore r v := by
  unfold NReg.parts latchedMore
  cases r.lParts.getLast? with
  | none => rfl
  | some p =>
    obtain ⟨cls, thresh, timer, target, bits, count⟩ := p
    by_cases h : cls = r.cls ∧ thresh = r.thresh ∧ timer = r.timer ∧ target = r.target
    · obtain ⟨rfl, rfl, rfl, rfl⟩ := h
      simp [underNow, sat255]
    · have other : ¬(({ cls := cls, thresh := thresh, timer := timer, target := target, bits := bits, count := count } : Latched) = underNow r bits count) := by
        simpa [underNow] using h
      dsimp only
      rw [if_neg (by simpa [and_assoc] using h), if_neg other]
      rfl

/-- Latched writes arrive as their class entry says. -/
theorem mergePart_eq_arrive (s : State) (n : Nat) (p : Latched) : s.mergePart n p = arrive n s p := by
  have start (r : NReg) : { NReg.start { r with value := r.value ||| p.bits, count := min (r.count + p.count) 255, timer := p.timer } s.ns with timer := r.timer } =
      { r with value := r.value ||| p.bits, count := min (r.count + p.count) 255,
               due := if r.due = none ∧ p.timer ≠ 0 then some (s.ns + 1000 * p.timer) else r.due } := by
    by_cases h : r.due = none ∧ p.timer ≠ 0
    · simp [NReg.start, h]
    · rw [if_neg h, NReg.start, if_neg (by simpa using h)]
  unfold State.mergePart arrive
  split
  next h =>
    rw [if_pos h]
    simp only [start, Bool.and_eq_true, decide_eq_true_eq]
    rfl
  next h => rw [if_neg (by omega), if_pos h]
  next h2 h3 => rw [if_neg h2, if_neg h3]

theorem merge_eq (s : State) (n : Nat) : s.merge n =
    (let k := (s.nreg n).lCount
     let u := s.onNreg n unlatched
     if k = 0 then u
     else if n < 64 then u.onGraph n fun x => { x with pending := min (x.pending + k) 255, ovf := x.ovf || decide (255 < x.pending + k) }
     else (s.nreg n).lParts.foldl (arrive n) u) := by
  simp only [State.merge, State.each, mergePart_eq_arrive]
  rfl

/-- The aperture wakes with one register latched. -/
theorem exec_notifyWakeMerge (hg : s.gated = true) (hn : s.nregs.map (·.1) = [n]) :
    exec .notifyWakeMerge s = .next (({ s with gated := false } : State).merge n) := by
  show execNotifyWakeMerge s = _
  simp only [execNotifyWakeMerge, hg, hn]
  rfl

/-! ## Class entries (R336) -/

theorem exec_notifyClassEntryWrite {off size : Nat} (hn : 64 ≤ n) (hn' : n < 4096) (ho : off + size ≤ 16) (hs : size ≤ 8) (v : Word64) :
    exec (.notifyClassEntryWrite n off size v) s =
      .next (s.onNreg n fun r => r.setEntry (patch r.entry off (toBytes size v.toNat)) (decide (off ≤ 1) && decide (1 < off + size))) :=
  congrArg Host.Outcome.next (if_pos (by simp [hn, hn', ho, hs]))

/-- The class that an entry's bytes ask for, where its target is in the class's range. -/
theorem class_in_range (k target : Nat) :
    (if ((if k = 2 || k = 3 then k else 0) = 2 && !(decide (1 ≤ target) && decide (target ≤ 2047))) || ((if k = 2 || k = 3 then k else 0) = 3 && 63 < target) then 0
      else (if k = 2 || k = 3 then k else 0)) = if k = 2 ∧ 1 ≤ target ∧ target ≤ 2047 ∨ k = 3 ∧ target ≤ 63 then k else 0 := by
  obtain rfl | rfl | ⟨h2, h3⟩ : k = 2 ∨ k = 3 ∨ (k ≠ 2 ∧ k ≠ 3) := by omega
  · by_cases ht : 1 ≤ target ∧ target ≤ 2047
    · simp [ht]
    · simp [ht]
      omega
  · by_cases ht : target ≤ 63
    · simp [ht]
    · simp [ht]
  · simp [h2, h3]

/-- The entry that bytes leave, and what a change of class clears. -/
theorem setEntry_eq (r : NReg) (b : List Byte) (thresh : Bool) : r.setEntry b thresh =
    (let k := field b 0 1
     let target := field b 4 2
     let cls := if k = 2 ∧ 1 ≤ target ∧ target ≤ 2047 ∨ k = 3 ∧ target ≤ 63 then k else 0
     let x := { r with cls := cls, thresh := if thresh = true ∧ field b 1 1 = 0 then 1 else field b 1 1, timer := field b 2 2, target := target,
                       group := field b 8 4 }
     if cls = r.cls then x else { rests x with value := 0 }) := by
  dsimp only
  rw [← class_in_range]
  simp only [NReg.setEntry, Bool.and_eq_true, decide_eq_true_eq]
  rfl

end Notify

/-! ## Work queues (R266) -/

section WorkQueues

variable {s : State}

theorem isNear_iff {group va : Nat} : s.isNear group va = true ↔
    ∃ pa, s.place group va .read = .ok (.dev pa) ∧ 0x20000000000 ≤ pa ∧ pa < s.nearEnd := by
  unfold State.isNear
  split
  next pa h =>
    constructor
    · intro near
      rw [Bool.and_eq_true, decide_eq_true_eq, decide_eq_true_eq] at near
      exact ⟨pa, h, near⟩
    · rintro ⟨pa', h', near⟩
      cases h.symm.trans h'
      exact Bool.and_eq_true_iff.2 ⟨decide_eq_true near.1, decide_eq_true near.2⟩
  next h => simpa using fun pa hp => absurd hp (h pa)

/-- A ring whose first address is none lies nowhere. -/
theorem ringNear_beyond {w : WQueue} (h : 2 ^ 52 ≤ w.ring) : s.ringNear w = false := by
  rw [← Bool.not_eq_true]
  intro near
  simp only [State.ringNear, Bool.and_eq_true, List.all_eq_true, List.mem_range] at near
  have first := near.2 0 (Nat.succ_pos _)
  rw [if_pos rfl, isNear_iff] at first
  obtain ⟨pa, hp, -⟩ := first
  rw [State.place, if_pos h] at hp
  exact nomatch hp

/-- A ring in near store: its group is enabled, and its first address and the start of every page that it reaches lie there. -/
theorem place_of_ringNear {w : WQueue} (h : s.ringNear w = true) : (s.grp w.group).en = true ∧
    ∀ a, w.ring ≤ a → a < w.ring + 8 * w.slots → a = w.ring ∨ a % 65536 = 0 →
      ∃ pa, s.place w.group a .read = .ok (.dev pa) ∧ 0x20000000000 ≤ pa ∧ pa < s.nearEnd := by
  simp only [State.ringNear, Bool.and_eq_true, List.all_eq_true, List.mem_range] at h
  obtain ⟨en, near⟩ := h
  refine ⟨en, fun a low high ha => isNear_iff.1 ?_⟩
  have page := near (a / 65536 - w.ring / 65536) (by omega)
  by_cases hk : a / 65536 - w.ring / 65536 = 0
  · rw [if_pos hk] at page
    have first : a = w.ring := by omega
    rwa [first]
  · rw [if_neg hk] at page
    have start : (w.ring / 65536 + (a / 65536 - w.ring / 65536)) * 65536 = a := by omega
    rwa [start] at page

theorem onWq_congr {w : Nat} {f f' : WQueue → WQueue} (h : f (s.wqueue w) = f' (s.wqueue w)) : s.onWq w f = s.onWq w f' := by
  simp only [State.onWq, supd_congr (show f (sget WQueue.init w s.wq) = f' (sget WQueue.init w s.wq) from h)]

end WorkQueues

/-! ## Context groups (R335) -/

section Groups

variable {s : State} {g : Nat}

theorem isPow2_iff (n : Nat) : isPow2 64 65536 n = true ↔ ∃ k, n = 2 ^ k ∧ 6 ≤ k ∧ k ≤ 16 := by
  simp only [isPow2, List.any_eq_true, List.mem_range, Bool.and_eq_true, decide_eq_true_eq]
  constructor
  · rintro ⟨k, -, ⟨rfl, low⟩, high⟩
    exact ⟨k, rfl, (Nat.pow_le_pow_iff_right (by decide)).1 (show 2 ^ 6 ≤ 2 ^ k from low), (Nat.pow_le_pow_iff_right (by decide)).1 (show 2 ^ k ≤ 2 ^ 16 from high)⟩
  · rintro ⟨k, rfl, low, high⟩
    exact ⟨k, by omega, ⟨rfl, Nat.pow_le_pow_right (n := 2) (by decide) low⟩, Nat.pow_le_pow_right (n := 2) (by decide) high⟩

theorem ok_iff_inRange (x : Grp) : x.ok = true ↔ InRange x := by
  simp only [Grp.ok, InRange, Bool.and_eq_true, decide_eq_true_eq, isPow2_iff]
  constructor
  · rintro ⟨⟨⟨⟨⟨⟨⟨⟨⟨⟨⟨⟨⟨⟨hr, hc⟩, hc'⟩, hp⟩, hp'⟩, hb⟩, ha⟩, hs⟩, hf⟩, hz⟩, ha'⟩, hn⟩, hf'⟩, hl⟩, hi⟩
    exact ⟨hr, ⟨hc, hc'⟩, ⟨hp, hp'⟩, hb, ⟨ha, ha'⟩, hs, Nat.le_of_lt_succ hn, ⟨hf, hf'⟩, hz, hl, hi⟩
  · rintro ⟨hr, ⟨hc, hc'⟩, ⟨hp, hp'⟩, hb, ⟨ha, ha'⟩, hs, hn, ⟨hf, hf'⟩, hz, hl, hi⟩
    exact ⟨⟨⟨⟨⟨⟨⟨⟨⟨⟨⟨⟨⟨⟨hr, hc⟩, hc'⟩, hp⟩, hp'⟩, hb⟩, ha⟩, hs⟩, hf⟩, hz⟩, ha'⟩, Nat.lt_succ_of_le hn⟩, hf'⟩, hl⟩, hi⟩

theorem onGrp_congr {f f' : Grp → Grp} (h : f (s.grp g) = f' (s.grp g)) : s.onGrp g f = s.onGrp g f' := by
  simp only [State.onGrp, supd_congr (show f (sget Grp.init g s.groups) = f' (sget Grp.init g s.groups) from h)]

theorem onGrp_unchanged (hc : scanon Grp.init s.groups = true) {f : Grp → Grp} (h : f (s.grp g) = s.grp g) : s.onGrp g f = s := by
  simp only [State.onGrp, supd_unchanged hc (show f (sget Grp.init g s.groups) = sget Grp.init g s.groups from h)]

end Groups

/-! ## BAR0 and BAR2 (R334) -/

section Bars

variable {s : State}

/-- A host queue is enabled where one reads so. -/
theorem hq_any_en : (∃ q, (s.hqueue q).en = true) → (s.hq.any fun x => x.2.en) = true := by
  rintro ⟨q, hq⟩
  have listed : (q, sget HQueue.init q s.hq) ∈ s.hq := mem_of_sget_ne fun h => by
    rw [show s.hqueue q = HQueue.init from h] at hq
    exact Bool.false_ne_true hq
  exact List.any_eq_true.2 ⟨_, listed, hq⟩

theorem hq_none_en (hc : scanon HQueue.init s.hq = true) (h : ∀ q, (s.hqueue q).en = false) : (s.hq.any fun x => x.2.en) = false := by
  refine List.any_eq_false.2 fun x hx => ?_
  rw [← sget_of_mem hc hx, show (sget HQueue.init x.1 s.hq).en = false from h x.1]
  exact Bool.false_ne_true

/-- A write of BAR0 beyond the boot window and beside the nonce, while no host queue is enabled. -/
theorem writeBar0_ring {o : Nat} {b : List Byte} (hon : (s.hq.any fun x => x.2.en) = false) (ho : 0x4000000 ≤ o)
    (hn : ¬(0x4000010 ≤ o ∧ o + b.length ≤ 0x4000030)) : s.writeBar0 o b =
    { s with evbase := takeField s.evbase (fieldWrite 0x4000080 8 s.evbase o b) (fun v => decide (v % 64 = 0)),
             evsize := takeField s.evsize (fieldWrite 0x4000088 4 s.evsize o b) (isPow2 64 65536),
             nodeid := takeField s.nodeid (fieldWrite 0x400008C 4 s.nodeid o b) (fun v => decide (v ≤ 255)) } := by
  rw [State.writeBar0, hon, if_neg (Nat.not_lt.2 ho), if_neg (by simpa using hn)]
  rfl

theorem writeBar0_enabled {o : Nat} {b : List Byte} (hon : (s.hq.any fun x => x.2.en) = true) (ho : 0x4000000 ≤ o)
    (hn : ¬(0x4000010 ≤ o ∧ o + b.length ≤ 0x4000030)) : s.writeBar0 o b = s := by
  rw [State.writeBar0, hon, if_neg (Nat.not_lt.2 ho), if_neg (by simpa using hn)]
  rfl

theorem exec_registerWrite0 (off size : Nat) (v : Word64) : exec (.registerWrite 0 off size v) s = .next (s.writeBar0 off (toBytes (min size 8) v.toNat)) := rfl

/-- A write within the boot window (R329). -/
theorem writeBar0_bootWin {off : Nat} {b : List Byte} (h : off + b.length ≤ 0x4000000) : s.writeBar0 off b = { s with bootWin := writeCells off b s.bootWin } := by
  by_cases ho : off < 0x4000000
  · rw [State.writeBar0, if_pos ho, List.take_of_length_le (by omega)]
  · obtain rfl : off = 0x4000000 := by omega
    obtain rfl : b = [] := List.length_eq_zero_iff.1 (by omega)
    rw [writeCells_nil]
    cases hon : s.hq.any fun x => x.2.en with
    | true => exact writeBar0_enabled hon (le_refl _) (by decide)
    | false =>
      have apart (o k old : Nat) (ho : 0x4000000 ≤ o) : fieldWrite o k old 0x4000000 [] = none := fieldWrite_apart (.inr ho) old
      rw [writeBar0_ring hon (le_refl _) (by decide)]
      simp [apart, takeField]

/-! ### Fields of the blocks -/

theorem ofBytes_word (v : Word64) : ofBytes (toBytes 8 v.toNat) = v.toNat := (ofBytes_toBytes 8 v.toNat).trans (Nat.mod_eq_of_lt v.isLt)

theorem ofBytes_half (v : Word64) : ofBytes (toBytes 4 v.toNat) = v.toNat % 2 ^ 32 := ofBytes_toBytes 4 v.toNat

/-- A field of 8 or 4 bytes written whole. -/
theorem fieldWrite_word (o old : Nat) (v : Word64) : fieldWrite o 8 old o (toBytes 8 v.toNat) = some v.toNat := by
  rw [fieldWrite_whole (by decide) (toBytes_length ..), ofBytes_word]

theorem fieldWrite_half (o old : Nat) (v : Word64) : fieldWrite o 4 old o (toBytes 4 v.toNat) = some (v.toNat % 2 ^ 32) := by
  rw [fieldWrite_whole (by decide) (toBytes_length ..), ofBytes_half]

theorem fieldWrite_other {o k off size : Nat} (h : o + k ≤ off ∨ off + size ≤ o) (old x : Nat) : fieldWrite o k old off (toBytes size x) = none :=
  fieldWrite_apart (by rwa [toBytes_length]) old

/-- The base of a host queue's ring, written whole. -/
theorem hqueue_wr_ring (h : HQueue) (v : Word64) (hv : v.toNat % 256 = 0) : h.wr 0 (toBytes 8 v.toNat) = { h with ring := v.toNat } := by
  simp [HQueue.wr, fieldWrite_word, fieldWrite_other, takeField, hv]

theorem ofNat_half (v : Word64) : BitVec.ofNat 32 (v.toNat % 2 ^ 32) = v.setWidth 32 := BitVec.eq_of_toNat_eq (by simp)

theorem wqueue_wr_head (w : WQueue) (v : Word64) (hw : w.en = false) : w.wr 16 (toBytes 4 v.toNat) = { w with head := v.setWidth 32 } := by
  rw [← ofNat_half]
  simp [WQueue.wr, hw, fieldWrite_half, fieldWrite_other, takeField]

theorem wqueue_wr_tail (w : WQueue) (v : Word64) (hw : w.en = false) : w.wr 20 (toBytes 4 v.toNat) = { w with tail := v.setWidth 32 } := by
  rw [← ofNat_half]
  simp [WQueue.wr, hw, fieldWrite_half, fieldWrite_other, takeField]

theorem grp_wr_troot (g : Grp) (v : Word64) : g.wr 40 (toBytes 8 v.toNat) = { g with troot := if g.en then g.troot else v.toNat } := by
  simp [Grp.wr, fieldWrite_word, fieldWrite_other, takeField]

theorem grp_wr_cfbase (g : Grp) (v : Word64) : g.wr 112 (toBytes 8 v.toNat) = { g with cfbase := if g.en then g.cfbase else v.toNat } := by
  simp [Grp.wr, fieldWrite_word, fieldWrite_other, takeField]

theorem grp_wr_cbud (g : Grp) (v : Word64) : g.wr 48 (toBytes 4 v.toNat) =
    { g with cbud := if g.en = true → 1 ≤ v.toNat % 2 ^ 32 ∧ v.toNat % 2 ^ 32 ≤ 384 then v.toNat % 2 ^ 32 else g.cbud } := by
  cases hg : g.en <;> simp [Grp.wr, hg, fieldWrite_half, fieldWrite_other, takeField]

theorem grp_wr_pbound (g : Grp) (v : Word64) : g.wr 16 (toBytes 4 v.toNat) =
    { g with pbound := if g.en = true → v.toNat % 2 ^ 32 ≤ 1000 then v.toNat % 2 ^ 32 else g.pbound } := by
  cases hg : g.en <;> simp [Grp.wr, hg, fieldWrite_half, fieldWrite_other, takeField]

/-! ### Where a block stands -/

theorem exec_writeHq {q o size : Nat} (v : Word64) (hq : q < 64) (ho : o < 64) (hs : size ≤ 8) :
    exec (.registerWrite 2 (64 * q + o) size v) s = .next (s.onHq q fun h => h.wr o (toBytes size v.toNat)) := by
  show Host.Outcome.next (s.writeBar2 (64 * q + o) (toBytes (min size 8) v.toNat)) = _
  rw [Nat.min_eq_left hs, State.writeBar2, if_pos (by omega), show (64 * q + o) / 64 = q by omega, show (64 * q + o) % 64 = o by omega]

theorem exec_writeWq {w o size : Nat} (v : Word64) (hw : w < 64) (ho : o < 32) (hs : size ≤ 8) :
    exec (.registerWrite 2 (0x1000 + 32 * w + o) size v) s = .next (s.onWq w fun x => x.wr o (toBytes size v.toNat)) := by
  show Host.Outcome.next (s.writeBar2 (0x1000 + 32 * w + o) (toBytes (min size 8) v.toNat)) = _
  rw [Nat.min_eq_left hs, State.writeBar2, if_neg (by omega), if_pos (by omega), show (0x1000 + 32 * w + o - 0x1000) / 32 = w by omega,
    show (0x1000 + 32 * w + o) % 32 = o by omega]

theorem exec_writeGrp {g o size : Nat} (v : Word64) (hg : g < 256) (ho : o < 256) (hs : size ≤ 8) :
    exec (.registerWrite 2 (0x10000 + 256 * g + o) size v) s = .next (s.onGrp g fun x => x.wr o (toBytes size v.toNat)) := by
  show Host.Outcome.next (s.writeBar2 (0x10000 + 256 * g + o) (toBytes (min size 8) v.toNat)) = _
  have here : (decide (0x10000 ≤ 0x10000 + 256 * g + o) && decide (0x10000 + 256 * g + o < 0x20000)) = true := by simp; omega
  rw [Nat.min_eq_left hs, State.writeBar2, if_neg (by omega), if_neg (by omega), if_pos here,
    show (0x10000 + 256 * g + o - 0x10000) / 256 = g by omega, show (0x10000 + 256 * g + o) % 256 = o by omega]

/-! ### Reads -/

theorem getD_toBytes_bit (c : Bool) {k : Nat} (hk : k < 4) : (toBytes 4 (if c then 1 else 0)).getD k 0 = if k = 0 ∧ c = true then 1 else 0 := by
  cases c <;> (interval_cases k <;> rfl)

/-- A byte of a part of a block with four parts after it. -/
theorem getD_part {A F B C D E : List Byte} {n k : Nat} (hA : A.length = n) (hk : k < F.length) : (A ++ F ++ B ++ C ++ D ++ E).getD (n + k) 0 = F.getD k 0 := by
  subst hA
  have inside : A.length + k < (A ++ F).length := by rw [List.length_append]; omega
  rw [List.append_assoc, List.append_assoc, List.append_assoc, List.getD_append _ _ _ _ inside, List.getD_append_right _ _ _ _ (Nat.le_add_right ..),
    Nat.add_sub_cancel_left]

/-- FLUSHN's bytes in a context group's block. -/
theorem grp_bytes_flushn (g : Grp) {k : Nat} (hk : k < 4) : g.bytes.getD (104 + k) 0 = if k = 0 ∧ g.flushn ≠ none then 1 else 0 := by
  have flush : g.bytes.getD (104 + k) 0 = (toBytes 4 (if g.flushn.isSome then 1 else 0)).getD k 0 := by
    unfold Grp.bytes
    exact getD_part (by simp only [List.length_append, toBytes_length, zeros, List.length_replicate]) (by rwa [toBytes_length])
  rw [flush, getD_toBytes_bit _ hk]
  simp only [Option.isSome_iff_ne_none]

theorem barByte_grp {g o : Nat} (hg : g < 256) (ho : o < 256) : s.barByte 2 (0x10000 + 256 * g + o) = some ((s.grp g).bytes.getD o 0) := by
  have here : (decide (0x10000 ≤ 0x10000 + 256 * g + o) && decide (0x10000 + 256 * g + o < 0x20000)) = true := by simp; omega
  show some (s.bar2 (0x10000 + 256 * g + o)) = _
  rw [State.bar2, if_neg (by omega), if_neg (by omega), if_pos here, show (0x10000 + 256 * g + o - 0x10000) / 256 = g by omega,
    show (0x10000 + 256 * g + o) % 256 = o by omega]

theorem barByte_trigger {n k : Nat} (hn : n < 64) (hk : k < 8) : s.barByte 2 (0x100000 + 8 * n + k) = some ((toBytes 8 (s.graph n).word).getD k 0) := by
  have before : ¬(decide (0x10000 ≤ 0x100000 + 8 * n + k) && decide (0x100000 + 8 * n + k < 0x20000)) = true := by simp; omega
  have here : (decide (0x100000 ≤ 0x100000 + 8 * n + k) && decide (0x100000 + 8 * n + k < 0x108000)) = true := by simp; omega
  show some (s.bar2 (0x100000 + 8 * n + k)) = _
  rw [State.bar2, if_neg (by omega), if_neg (by omega), if_neg before, if_pos here, show (0x100000 + 8 * n + k - 0x100000) / 8 = n by omega,
    show (0x100000 + 8 * n + k) % 8 = k by omega, State.nregBytes, if_pos hn]

/-! ### The near store (R333) -/

/-- A write within a line touches memory, the line's tags and its place, and draws. -/
theorem touchLine_only (s : State) (line group : Nat) (zero ef : Bool) :
    s.touchLine line group zero ef = { s with l2 := (s.touchLine line group zero ef).l2, free := (s.touchLine line group zero ef).free } := by
  unfold State.touchLine State.pick
  split
  · rfl
  · split
    · rfl
    · split <;> rfl

theorem moveLine_only (s : State) (line : Nat) : s.moveLine line = { s with depart := (s.moveLine line).depart } := by
  unfold State.moveLine
  split
  · rfl
  · split <;> rfl

theorem writeLine_only {t : State} {pa group : Nat} {b : List Byte} {ef : Bool} (h : s.writeLine pa b group ef = some t) :
    t = { s with mem := writeCells pa b s.mem, badLines := t.badLines, l2 := t.l2, free := t.free, depart := t.depart } := by
  simp only [State.writeLine, Option.ite_none_left_eq_some, Option.some.injEq] at h
  obtain ⟨-, rfl⟩ := h
  rw [moveLine_only, touchLine_only]

/-- A write of part of a line that can be read. -/
theorem writeLine_part {pa group : Nat} {b : List Byte} {ef : Bool} (hb : b.length ≠ 256) (hl : pa / 256 ∉ s.badLines) :
    ∃ t, s.writeLine pa b group ef = some t ∧ t = { s with mem := writeCells pa b s.mem, l2 := t.l2, free := t.free, depart := t.depart } := by
  have readable : ¬(s.badLines.contains (pa / 256) && !decide (b.length = 256)) = true := by simp [hl]
  refine ⟨_, if_neg readable, ?_⟩
  rw [if_neg (by simpa using hb), moveLine_only, touchLine_only]

/-- Bytes within one line, from its start, are one piece. -/
theorem pieces_one {fuel pa : Nat} {b : List Byte} (hb : b ≠ []) (ha : 256 ∣ pa) (hl : b.length ≤ 256) : pieces (fuel + 1) pa b = [(pa, b)] := by
  have line : 256 - pa % 256 = 256 := by omega
  have rest : pieces fuel (pa + 256) [] = [] := by cases fuel <;> rfl
  rw [pieces, if_neg (by simpa using hb)]
  simp only [line, List.take_of_length_le hl, List.drop_eq_nil_of_le hl, rest]

/-- 8 bytes written through BAR4 at the start of a line that can be read. -/
theorem writeBar4_word {off : Nat} {v : Word64} (ho : 256 ∣ off) (ht : 0x20000000000 + off < s.nearTop) (hl : (0x20000000000 + off) / 256 ∉ s.badLines) :
    ∃ t, exec (.registerWrite 4 off 8 v) s = .next t ∧
      t = { s with mem := writeCells (0x20000000000 + off) (toBytes 8 v.toNat) s.mem, l2 := t.l2, free := t.free, depart := t.depart } := by
  obtain ⟨t, written, only⟩ := writeLine_part (s := s) (pa := 0x20000000000 + off) (b := toBytes 8 v.toNat) (group := 0xFFFFFFFF) (ef := false) (by simp) hl
  refine ⟨t, congrArg Host.Outcome.next ?_, only⟩
  have one : pieces (nSpans (toBytes 8 v.toNat).length) (nearBase + off) (toBytes 8 v.toNat) = [(nearBase + off, toBytes 8 v.toNat)] :=
    pieces_one (fun h => by simpa using congrArg List.length h) (by unfold nearBase; omega) (by simp)
  show s.writeBar4 off (toBytes 8 v.toNat) = t
  have inside : ¬s.nearTop ≤ nearBase + off := Nat.not_le.2 ht
  simp only [State.writeBar4, one, List.foldl_cons, List.foldl_nil, if_neg inside, show s.writeLine (nearBase + off) (toBytes 8 v.toNat) 0xFFFFFFFF false = some t from written]

end Bars

/-- Settles O55: each register's write does what its own equation above says. -/
theorem registersAct : Obligations.RegistersAct := by
  unfold Obligations.RegistersAct
  refine ⟨?queue, ?ack, ?trigger, ?interrupt, ?wake, ?unwaited, ?waited, ?latch, fun s => rfl, ?merge, ?entry, ?work, ?group, ?inventory, ?power, ?window, ?ring, ?locked,
    ?workFields, ?groupFields, ?lockedFields, ?reads, ?near⟩
  case queue =>
    intro s q v hq
    refine ⟨fun fits => ?_, fun full => ?_, fun hen hev hboot => ?_, fun off => ?_⟩
    · exact congrArg Host.Outcome.next ((if_neg (Nat.not_le.2 hq)).trans (if_pos fits))
    · exact congrArg Host.Outcome.next ((if_neg (Nat.not_le.2 hq)).trans (if_neg (Nat.not_le.2 full)))
    · exact congrArg Host.Outcome.next (if_pos (by simp [hq, hen, hev, hboot]))
    · refine congrArg Host.Outcome.next (if_neg fun hon => ?_)
      simp only [Bool.and_eq_true, decide_eq_true_eq, Bool.not_eq_true'] at hon
      obtain ⟨⟨⟨-, hen⟩, hev⟩, hboot⟩ := hon
      obtain h | h | h := off
      · exact hev h
      · exact h hboot
      · exact Bool.false_ne_true (hen.symm.trans h)
  case ack =>
    exact fun s q => ⟨rfl, rfl, fun v hv => congrArg Host.Outcome.next (if_neg hv), fun v hv => congrArg Host.Outcome.next (if_neg hv)⟩
  case trigger =>
    intro s n v hn hg
    refine ⟨fun h63 => ?_, fun h63 hdue => ?_⟩
    · refine congrArg Host.Outcome.next ((if_pos (by rw [h63, decide_eq_true hn]; rfl)).trans ?_)
      rw [notify_graph hg hn, h63]
      rfl
    · refine congrArg Host.Outcome.next ((if_pos (by simp [hn, h63])).trans ?_)
      rw [notify_graph hg hn, h63]
      simp [State.untrigger, State.each, hdue]
  case interrupt =>
    intro s n v hn hn' hc
    have cls := isCls_of hn hn' hc
    refine ⟨fun hg hr => ?_, fun hg hr => ?_, ?_, fun d hd hle => ?_⟩
    · exact congrArg Host.Outcome.next ((if_pos cls).trans ((notify_interrupt hg hn hc v).trans (writeInt_raises hr)))
    · exact congrArg Host.Outcome.next ((if_pos cls).trans ((notify_interrupt hg hn hc v).trans (writeInt_counts hr)))
    · refine congrArg Host.Outcome.next ((if_pos cls).trans ?_)
      simp only [State.hostRead, State.readNotify, if_neg (Nat.not_lt.2 hn), if_pos hc]
      rfl
    · show execHostInterruptTimer n s = _
      simp only [execHostInterruptTimer, hd, cls, decide_eq_true hle]
      rfl
  case wake =>
    intro s n v hn hn' hc
    have cls := isCls_of hn hn' hc
    refine ⟨fun hg => ?_, ?_⟩
    · exact congrArg Host.Outcome.next ((if_pos cls).trans (notify_wake hg hn hc v))
    · refine congrArg Host.Outcome.next ((if_pos cls).trans ?_)
      simp only [State.hostRead, State.readNotify, if_neg (Nat.not_lt.2 hn), hc]
      rfl
  case unwaited =>
    intro s q none
    have empty : (s.cmds.filter fun c => match c.src with | .queue p _ _ => p = q | _ => false) = [] := by
      refine List.filter_eq_nil_iff.2 fun c hc => ?_
      cases hsrc : c.src with
      | queue p t e =>
        have other : p ≠ q := fun h => none c hc t e (by rw [hsrc, h])
        simp [other]
      | _ => simp
    exact congrArg (fun l => List.foldl State.pollWait s l) empty
  case waited => exact fun s q c h => congrArg (fun l => List.foldl State.pollWait s l) h
  case latch =>
    intro s n v hg hn
    refine congrArg Host.Outcome.next ((if_pos (by simp [hg, hn])).trans ?_)
    simp only [State.latch, parts_eq_latchedMore, sat255]
  case merge =>
    intro s n hg hn
    have merged := (exec_notifyWakeMerge hg hn).trans (congrArg Host.Outcome.next (merge_eq { s with gated := false } n))
    refine ⟨fun h64 hk => ?_, fun h64 hk => ?_, fun hk => ?_⟩
    · exact merged.trans (congrArg Host.Outcome.next ((if_neg (Nat.ne_of_gt hk)).trans (if_pos h64)))
    · exact merged.trans (congrArg Host.Outcome.next ((if_neg (Nat.ne_of_gt hk)).trans (if_neg (Nat.not_lt.2 h64))))
    · exact merged.trans (congrArg Host.Outcome.next (if_pos hk))
  case entry =>
    intro s n off size v hn hn' ho hs
    refine (exec_notifyClassEntryWrite hn hn' ho hs v).trans (congrArg (fun f => Host.Outcome.next (s.onNreg n f)) (funext fun r => ?_))
    rw [setEntry_eq]
    simp only [Bool.and_eq_true, decide_eq_true_eq, and_assoc]
    rfl
  case work =>
    intro s w v hw
    refine ⟨fun hv => ?_, fun hv near wakes => ?_, fun hv off bad => ?_, ringNear_beyond, place_of_ringNear⟩
    · exact congrArg Host.Outcome.next ((if_neg (Nat.not_le.2 hw)).trans (if_pos (by rw [hv]; rfl)))
    · exact congrArg Host.Outcome.next ((if_neg (Nat.not_le.2 hw)).trans ((if_neg (by simp [hv])).trans (if_pos (by simp [near, wakes]))))
    · have refused : ¬((s.wqueue w).en || (s.ringNear (s.wqueue w) && ((s.wqueue w).wake = 0xFFFF || s.classGroup (s.wqueue w).wake = (s.wqueue w).group))) =
          true := by
        obtain near | ⟨set, other⟩ := bad
        · simp [off, near]
        · simp [off, set, other]
      exact congrArg Host.Outcome.next ((if_neg (Nat.not_le.2 hw)).trans ((if_neg (by simp [hv])).trans (if_neg refused)))
  case group =>
    intro s g
    refine ⟨fun hg ok => ?_, fun bad => ?_, ok_iff_inRange _, fun none => ?_, fun ⟨c, hc, hcg⟩ => ?_⟩
    · exact congrArg Host.Outcome.next (if_pos (by simp [hg, ok]))
    · exact congrArg Host.Outcome.next (if_neg (by simp [bad]))
    · exact congrArg Host.Outcome.next (if_neg (by simpa using none))
    · exact congrArg Host.Outcome.next (if_pos (List.any_eq_true.2 ⟨c, hc, decide_eq_true hcg⟩))
  case inventory =>
    intro s v
    refine ⟨fun ⟨low, high⟩ => congrArg Host.Outcome.next (if_pos (by simp [low, high])), fun out => congrArg Host.Outcome.next (if_neg ?_)⟩
    rw [Bool.and_eq_true, decide_eq_true_eq, decide_eq_true_eq]
    omega
  case power =>
    intro s v lo hi
    have range : s.pwrRange = (lo, hi) := by
      simp only [State.pwrRange, lo, hi]
      cases s.form <;> rfl
    have write : exec (.pwrlimWrite v) s = .next (if decide (lo ≤ v.toNat) && decide (v.toNat ≤ hi) then { s with pwrlim := v.toNat } else s) := by
      show execPwrlimWrite v s = _
      rw [execPwrlimWrite, range]
    rw [write]
    refine ⟨fun ⟨low, high⟩ => congrArg Host.Outcome.next (if_pos (by simp [low, high])), fun out => congrArg Host.Outcome.next (if_neg ?_)⟩
    rw [Bool.and_eq_true, decide_eq_true_eq, decide_eq_true_eq]
    omega
  case window =>
    intro s off size v hs ho
    rw [exec_registerWrite0, Nat.min_eq_left hs, writeBar0_bootWin (by rwa [toBytes_length])]
  case ring =>
    intro s v off hc
    have none := hq_none_en hc off
    refine ⟨fun hv => ?_, fun hv => ?_, fun k low high => ?_, fun hv => ?_⟩
    · rw [exec_registerWrite0, writeBar0_ring none (by decide) (by simp)]
      simp [fieldWrite_word, fieldWrite_other, takeField, hv]
    · rw [exec_registerWrite0, writeBar0_ring none (by decide) (by simp)]
      simp [fieldWrite_word, fieldWrite_other, takeField, hv]
    · have size : 2 ^ k ≤ 65536 := Nat.pow_le_pow_right (n := 2) (by decide) high
      have word (n : Nat) (hn : n ≤ 65536) : (BitVec.ofNat 64 n).toNat % 4294967296 = n := by
        rw [BitVec.toNat_ofNat]
        omega
      have half := word _ size
      rw [exec_registerWrite0, writeBar0_ring none (by decide) (by simp)]
      generalize BitVec.ofNat 64 (2 ^ k) = w at half ⊢
      simp [fieldWrite_half, fieldWrite_other, takeField, half, (isPow2_iff (2 ^ k)).2 ⟨k, rfl, low, high⟩]
    · have half : v.toNat % 4294967296 = v.toNat := Nat.mod_eq_of_lt (by omega)
      rw [exec_registerWrite0, writeBar0_ring none (by decide) (by simp)]
      simp [fieldWrite_half, fieldWrite_other, takeField, half, hv]
  case locked =>
    intro s q v on
    have any := hq_any_en on
    refine ⟨?_, ?_, ?_, fun hq hv => ?_⟩
    · rw [exec_registerWrite0, writeBar0_enabled any (by decide) (by simp)]
    · rw [exec_registerWrite0, writeBar0_enabled any (by decide) (by simp)]
    · rw [exec_registerWrite0, writeBar0_enabled any (by decide) (by simp)]
    · refine (exec_writeHq (o := 0) v hq (by decide) (le_refl 8)).trans ?_
      simp only [hqueue_wr_ring _ v hv]
  case workFields =>
    intro s w v hw off
    refine ⟨(exec_writeWq v hw (by decide) (by decide)).trans ?_, (exec_writeWq v hw (by decide) (by decide)).trans ?_⟩
    · exact congrArg Host.Outcome.next (onWq_congr (wqueue_wr_head _ v off))
    · exact congrArg Host.Outcome.next (onWq_congr (wqueue_wr_tail _ v off))
  case groupFields =>
    intro s g v hg off
    refine ⟨(exec_writeGrp v hg (by decide) (by decide)).trans ?_, (exec_writeGrp v hg (by decide) (by decide)).trans ?_⟩
    · exact congrArg Host.Outcome.next (onGrp_congr (by simp [grp_wr_troot, off]))
    · exact congrArg Host.Outcome.next (onGrp_congr (by simp [grp_wr_cfbase, off]))
  case lockedFields =>
    intro s g v hg on hc n
    have write {o size : Nat} (ho : o < 256) (hs : size ≤ 8) := exec_writeGrp (s := s) (o := o) (size := size) v hg ho hs
    refine ⟨?_, fun hn => ?_, fun hn => ?_, fun hn => ?_, fun hn => ?_⟩
    · refine (write (by decide) (by decide)).trans (congrArg Host.Outcome.next (onGrp_unchanged hc ?_))
      rw [grp_wr_troot, if_pos on]
    · refine (write (by decide) (by decide)).trans (congrArg Host.Outcome.next (onGrp_congr ?_))
      rw [grp_wr_cbud, if_pos fun _ => hn]
    · refine (write (by decide) (by decide)).trans (congrArg Host.Outcome.next (onGrp_unchanged hc ?_))
      rw [grp_wr_cbud, if_neg fun h => by have := h on; omega]
    · refine (write (by decide) (by decide)).trans (congrArg Host.Outcome.next (onGrp_congr ?_))
      rw [grp_wr_pbound, if_pos fun _ => hn]
    · refine (write (by decide) (by decide)).trans (congrArg Host.Outcome.next (onGrp_unchanged hc ?_))
      rw [grp_wr_pbound, if_neg fun h => by have := h on; omega]
  case reads =>
    refine fun s g n k hg hn => ⟨fun hk => ?_, barByte_trigger hn⟩
    rw [Nat.add_assoc, barByte_grp hg (by omega), grp_bytes_flushn _ hk]
  case near =>
    intro s off v ho ht hl wf
    obtain ⟨t, written, only⟩ := writeBar4_word (v := v) ho ht hl
    refine ⟨t, written, ?_, fun a => ?_⟩
    · rw [only]
    · rw [show t.mem = writeCells (0x20000000000 + off) (toBytes 8 v.toNat) s.mem from congrArg State.mem only]
      rw [sget_writeCells wf.1, toBytes_length]

end Sys2Proof.Machine

/-! SUPPORT. A function applied to every listed value of sparse data; what the front end's and the engines' accesses and reports leave unchanged; and their
working alike in two states that differ only in one group's request for removal. -/

namespace Sys2Proof.Machine

open Claims

section Mapped

variable {α : Type} [DecidableEq α] {d : α} {k : Nat} {m : Sparse α}

theorem sget_smap {f : α → α} (hk : sget d k m ≠ d) (hf : f (sget d k m) ≠ d) : sget d k (smap d f m) = f (sget d k m) := by
  induction m with
  | nil => exact (hk rfl).elim
  | cons x r ih =>
    obtain ⟨j, v⟩ := x
    by_cases hj : j = k
    · rw [sget, if_pos hj] at hf ⊢
      rw [smap, if_neg hf, sget, if_pos hj]
    · rw [sget, if_neg hj] at hk hf ⊢
      rw [smap]
      split
      · exact ih hk hf
      · rw [sget, if_neg hj, ih hk hf]

theorem sget_smap_sins {f : α → α} {v : α} (hf : f v ≠ d) (j : Nat) : sget d j (smap d f (sins k v m)) = if j = k then f v else sget d j (smap d f m) := by
  induction m with
  | nil => simp [sins, smap, hf, sget, eq_comm]
  | cons x r ih =>
    obtain ⟨i, w⟩ := x
    rw [sins]
    split
    · rw [smap, if_neg hf, sget]
      simp only [eq_comm]
    · split
      next hki =>
        subst hki
        by_cases hj : k = j
        · simp [smap, hf, sget, hj]
        · rw [smap, if_neg hf, sget, if_neg hj, if_neg (Ne.symm hj), smap]
          split
          · rfl
          · rw [sget, if_neg hj]
      next hki =>
        rw [smap, smap]
        split
        · exact ih
        · rw [sget, sget, ih]
          by_cases hj : i = j
          · have other : j ≠ k := fun h => hki (h.symm.trans hj.symm)
            simp [hj, other]
          · simp [hj]

end Mapped

/-! ## What accesses and reports touch -/

/-- `t` differs from `s` in no more than what the front end's and the engines' writes and reports touch. -/
structure Reported (s t : State) : Prop where
  only : t = { s with mem := t.mem, host := t.host, remote := t.remote, badLines := t.badLines, l2 := t.l2, depart := t.depart, free := t.free,
                      groups := t.groups, grids := t.grids, window := t.window, hq := t.hq, wordErr := t.wordErr, alogs := t.alogs, chanBad := t.chanBad,
                      msix := t.msix }

section Reports

variable {s t u : State}

theorem Reported.refl (s : State) : Reported s s := ⟨rfl⟩

theorem Reported.trans (h : Reported s t) (k : Reported t u) : Reported s u :=
  ⟨k.only.trans (congrArg (fun t : State => { t with
    mem := u.mem, host := u.host, remote := u.remote, badLines := u.badLines, l2 := u.l2, depart := u.depart, free := u.free, groups := u.groups,
    grids := u.grids, window := u.window, hq := u.hq, wordErr := u.wordErr, alogs := u.alogs, chanBad := u.chanBad, msix := u.msix }) h.only)⟩

theorem Reported.ctxs (h : Reported s t) : t.ctxs = s.ctxs := by rw [h.only]
theorem Reported.cgroups (h : Reported s t) : t.cgroups = s.cgroups := by rw [h.only]
theorem Reported.warps (h : Reported s t) : t.warps = s.warps := by rw [h.only]
theorem Reported.net (h : Reported s t) : t.net = s.net := by rw [h.only]
theorem Reported.ns (h : Reported s t) : t.ns = s.ns := by rw [h.only]

theorem Reported.onGrp (h : Reported s t) (g : Nat) (f : Grp → Grp) : Reported s (t.onGrp g f) := h.trans ⟨rfl⟩

theorem Reported.onGrid (h : Reported s t) (g : Nat) (f : Grid → Grid) : Reported s (t.onGrid g f) := h.trans ⟨rfl⟩

/-- A record touches the host's memory and the queues alone. -/
theorem post_only (s : State) (r : EvRec) : s.post r = { s with host := (s.post r).host, hq := (s.post r).hq } := by
  have noted (b : Bool) : (if b then s.onHq r.src fun q => { q with errsum := q.errsum ||| (1#64 <<< r.status) } else s) =
      { s with hq := (if b then s.onHq r.src fun q => { q with errsum := q.errsum ||| (1#64 <<< r.status) } else s).hq } := by
    cases b <;> rfl
  have entered (u : State) (t : State) (ht : t = if u.evsize = 0 then u
      else if r.srcK = 1 && r.kind ≠ 2 && (u.ringFull || !(u.hqueue r.src).held.isEmpty) then u.onHq r.src fun q => { q with held := q.held ++ [r] }
      else if u.ringFull then u.ringLose else u.ringPut r) : t = { u with host := t.host, hq := t.hq } := by
    subst ht
    split
    · rfl
    · split
      · rfl
      · split <;> rfl
  exact (entered _ (s.post r) rfl).trans (congrArg (fun u : State => { u with host := (s.post r).host, hq := (s.post r).hq }) (noted _))

theorem post_reported (s : State) (r : EvRec) : Reported s (s.post r) := ⟨by rw [post_only]⟩

theorem detect_only (s : State) (pa cluster core group : Nat) : s.detect pa cluster core group =
    { s with wordErr := (s.detect pa cluster core group).wordErr, alogs := (s.detect pa cluster core group).alogs,
             chanBad := (s.detect pa cluster core group).chanBad, host := (s.detect pa cluster core group).host, hq := (s.detect pa cluster core group).hq,
             msix := (s.detect pa cluster core group).msix } := by
  simp only [State.detect, State.postDev]
  rw [post_only]
  split <;> rfl

theorem detect_reported (s : State) (pa cluster core group : Nat) : Reported s (s.detect pa cluster core group) := ⟨by rw [detect_only]⟩

theorem engineErr_reported (s : State) (group : Nat) (e : VaErr) : Reported s (s.engineErr group e) := by
  unfold State.engineErr
  split
  · exact .refl s
  · split
    · exact detect_reported ..
    · exact detect_reported ..
    · exact .refl s

theorem chargeTgt_reported (s : State) (group : Nat) (x : Tgt) (n : Nat) : Reported s (s.chargeTgt group x n) := by
  have rolled : Reported s s.rollWindow := by
    unfold State.rollWindow
    split
    · exact .refl s
    · exact ⟨rfl⟩
  cases x with
  | dev pa =>
    show Reported s (s.chargeGroup group pa n)
    unfold State.chargeGroup
    split
    · exact rolled.onGrp ..
    · exact .refl s
  | _ => exact .refl s

theorem writeTgt_reported {x : Tgt} {b : List Byte} {group : Nat} {ef : Bool} (h : s.writeTgt x b group ef = .ok t) : Reported s t := by
  cases x with
  | dev pa =>
    simp only [State.writeTgt] at h
    split at h
    · cases h
    · split at h
      next u hu =>
        cases h
        exact ⟨by rw [writeLine_only hu]⟩
      · cases h
  | host a =>
    simp only [State.writeTgt] at h
    split at h
    · cases h
      exact ⟨rfl⟩
    · cases h
  | fab node pa =>
    simp only [State.writeTgt] at h
    split at h
    · cases h
    · split at h
      · cases h
      · cases h
        exact ⟨rfl⟩

/-- One piece of a write to a group's memory, after those before it. -/
def putPiece (group : Nat) (a : Acc) (r : State × Option VaErr) (p : Nat × List Byte) : State × Option VaErr :=
  match r.2 with
  | some _ => r
  | none =>
    match r.1.place group p.1 a with
    | .error e => (r.1, some e)
    | .ok t =>
      match r.1.writeTgt t p.2 group false with
      | .ok s => (s.chargeTgt group t p.2.length, none)
      | .error c => (r.1, some { cause := c, va := p.1 })

theorem writeVa_eq (s : State) (group va : Nat) (b : List Byte) (a : Acc) :
    s.writeVa group va b a = (pieces (nSpans b.length) va b).foldl (putPiece group a) (s, none) := rfl

theorem putPiece_reported (group : Nat) (a : Acc) (r : State × Option VaErr) (p : Nat × List Byte) : Reported r.1 (putPiece group a r p).1 := by
  unfold putPiece
  split
  · exact .refl _
  · split
    · exact .refl _
    · split
      next h => exact (writeTgt_reported h).trans (chargeTgt_reported ..)
      · exact .refl _

theorem writeVa_reported (s : State) (group va : Nat) (b : List Byte) (a : Acc) : Reported s (s.writeVa group va b a).1 := by
  have fold (l : List (Nat × List Byte)) (r : State × Option VaErr) : Reported r.1 (l.foldl (putPiece group a) r).1 := by
    induction l generalizing r with
    | nil => exact .refl _
    | cons p l ih => exact (putPiece_reported group a r p).trans (ih _)
  rw [writeVa_eq]
  exact fold _ (s, none)

theorem cfEvent_reported (s : State) (group detail : Nat) : Reported s (s.cfEvent group detail) := post_reported ..

theorem cfLost_reported (s : State) (group : Nat) (e : VaErr) : Reported s (s.cfLost group e) := (engineErr_reported ..).trans (cfEvent_reported ..)

theorem cfFull_reported (s : State) (group : Nat) : Reported s (s.cfFull group) := by
  simp only [State.cfFull]
  split
  · exact (writeVa_reported ..).trans ((writeVa_reported ..).trans (cfEvent_reported ..))
  · exact cfLost_reported ..
  · exact cfLost_reported ..

theorem cfEnter_reported (s : State) (group grid : Nat) (r : CfRec) : Reported s (s.cfEnter group grid r) := by
  have wrote {va : Nat} {b : List Byte} {v : State} {e : Option VaErr} (u : State) (h : u.writeVa group va b .write = (v, e)) : Reported u v := by
    have := writeVa_reported u group va b .write
    rwa [h] at this
  simp only [State.cfEnter]
  split
  · split
    · split
      next h => exact (wrote s h).trans (cfLost_reported ..)
      next h => exact (wrote s h).onGrid ..
    · split
      · exact cfFull_reported ..
      · split
        next h => exact (wrote s h).trans (cfLost_reported ..)
        next h =>
          split
          next h' => exact ((wrote s h).trans (wrote _ h')).trans (cfLost_reported ..)
          next h' => exact (((wrote s h).trans (wrote _ h')).onGrid ..).trans (cfEvent_reported ..)
  · exact cfLost_reported ..
  · exact cfLost_reported ..

end Reports

end Sys2Proof.Machine

/-! PROOF. R63, R67, R294 to R298, R319: pre-emption, saving and removal of contexts. -/

namespace Sys2Proof.Machine

open Claims

/-! ## A removal's failures, in a state whose group is marked (R298) -/

/-- A group whose removal the driver has asked for. -/
def removed (x : Grp) : Grp := { x with remove := true }

/-- The state with other groups. -/
def grouped (m : Sparse Grp) (b : State) : State := { b with groups := m }

/-- `a` is `b` but for the mark of group `g`: until the bandwidth window has rolled, the lists of groups differ in that entry alone; after, they read alike. -/
structure Marked (g : Nat) (a b : State) : Prop where
  rest : a = grouped a.groups b
  grp : ∀ k, a.grp k = if k = g then removed (b.grp g) else b.grp k
  unrolled : b.ns / 10000 = b.window ∨ a.groups = supd Grp.init g removed b.groups ∧ (b.grp g).en = true

/-- What neither reads nor writes the groups, nor moves the clock. -/
structure Aside (f : State → State) : Prop where
  groups : ∀ m b, f (grouped m b) = grouped m (f b)
  ns : ∀ b, (f b).ns = b.ns
  window : ∀ b, (f b).window = b.window

/-- A group's bandwidth window rolled (R89). -/
def rolledGrp (s : State) (x : Grp) : Grp := { x with winLast := if s.ns / 10000 = s.window + 1 then x.winNow else 0, winNow := 0 }

section Marks

variable {g : Nat} {a b : State}

theorem marked_onGrp (h : (b.grp g).en = true) : Marked g (b.onGrp g removed) b :=
  ⟨rfl, fun k => grp_onGrp g k removed, .inr ⟨rfl, h⟩⟩

theorem Marked.moved (h : Marked g a b) {u : State} (hg : u.groups = b.groups) (hn : u.ns = b.ns) (hw : u.window = b.window) :
    Marked g (grouped a.groups u) u := by
  refine ⟨rfl, fun k => ?_, ?_⟩
  · rw [State.grp, State.grp, State.grp, hg]
    exact h.grp k
  · rw [hn, hw, State.grp, hg]
    exact h.unrolled

theorem Marked.aside (h : Marked g a b) {f : State → State} (hf : Aside f) : Marked g (f a) (f b) := by
  have kept := congrArg State.groups (hf.groups b.groups b)
  have moved : f a = grouped a.groups (f b) := (congrArg f h.rest).trans (hf.groups a.groups b)
  rw [moved]
  exact h.moved kept (hf.ns b) (hf.window b)

theorem Marked.onGrp (h : Marked g a b) (hr : b.ns / 10000 = b.window) (k : Nat) {f : Grp → Grp} (hf : ∀ x, f (removed x) = removed (f x)) :
    Marked g (a.onGrp k f) (b.onGrp k f) := by
  have rest := congrArg (grouped (a.onGrp k f).groups) h.rest
  refine ⟨rest, fun j => ?_, .inl hr⟩
  rw [grp_onGrp, grp_onGrp, grp_onGrp, h.grp k, h.grp j]
  by_cases hj : j = k
  · subst hj
    by_cases hg : j = g
    · subst hg
      simp [hf]
    · simp [hg]
  · by_cases hg : j = g
    · subst hg
      simp [hj]
    · simp [hj, hg]

theorem rollWindow_new {s : State} (h : s.ns / 10000 ≠ s.window) : s.rollWindow =
    grouped (smap Grp.init (rolledGrp s) s.groups) { s with
      window := s.ns / 10000, grids := s.grids.map fun g => { g with winLast := if s.ns / 10000 = s.window + 1 then g.winNow else 0, winNow := 0 } } := by
  rw [State.rollWindow, if_neg h]
  rfl

/-- The window's roll keeps both the mark and what it marks. -/
theorem Marked.rollWindow (h : Marked g a b) : Marked g a.rollWindow b.rollWindow ∧ b.rollWindow.ns / 10000 = b.rollWindow.window := by
  obtain ⟨rest, grp, unrolled⟩ := h
  generalize a.groups = m at rest unrolled
  subst rest
  by_cases hw : b.ns / 10000 = b.window
  · rw [State.rollWindow, State.rollWindow, if_pos hw, if_pos (show (grouped m b).ns / 10000 = (grouped m b).window from hw)]
    exact ⟨⟨rfl, grp, .inl hw⟩, hw⟩
  · obtain ⟨rfl, en⟩ := unrolled.resolve_left hw
    have marked (x : Grp) : removed x ≠ Grp.init ∧ rolledGrp b (removed x) ≠ Grp.init :=
      ⟨fun h => Bool.noConfusion (congrArg Grp.remove h), fun h => Bool.noConfusion (congrArg Grp.remove h)⟩
    have enabled (x : Grp) (hx : x.en = true) : x ≠ Grp.init := fun h => by
      rw [h] at hx
      exact Bool.noConfusion hx
    have here : sget Grp.init g (smap Grp.init (rolledGrp b) b.groups) = rolledGrp b (b.grp g) := sget_smap (enabled _ en) (enabled _ en)
    have roll := rollWindow_new hw
    have roll' := rollWindow_new (s := grouped (supd Grp.init g removed b.groups) b) hw
    rw [roll', roll]
    refine ⟨⟨rfl, fun k => ?_, .inl rfl⟩, rfl⟩
    rw [State.grp, State.grp, State.grp]
    simp only [grouped, supd, sput, if_neg (marked _).1, here]
    exact (sget_smap_sins (marked _).2 k).trans rfl

/-! ### Accesses -/

theorem Marked.readsAlike (h : Marked g a b) : ReadsAlike b a := by
  have troot (k : Nat) : (a.grp k).troot = (b.grp k).troot := by
    rw [h.grp k]
    split
    next hk => rw [hk]; rfl
    · rfl
  have alike : ReadsAlike b (grouped a.groups b) := ⟨rfl, rfl, rfl, rfl, rfl, rfl, rfl, rfl, troot⟩
  rwa [← h.rest] at alike

theorem pick_grouped {α : Type} [DecidableEq α] (m : Sparse Grp) (x y : α) : (grouped m b).pick x y = ((b.pick x y).1, grouped m (b.pick x y).2) := by
  by_cases hxy : x = y
  · rw [State.pick, State.pick, if_pos hxy, if_pos hxy]
  · rw [State.pick, State.pick, if_neg hxy, if_neg hxy, show (grouped m b).draw = (b.draw.1, grouped m b.draw.2) from rfl]
    cases b.draw.1 <;> rfl

theorem touchLine_aside (line group : Nat) (zero ef : Bool) : Aside fun b => b.touchLine line group zero ef := by
  refine ⟨fun m b => ?_, fun b => ?_, fun b => ?_⟩
  · have same : (grouped m b).l2.find? (fun t => decide (t.line = line)) = b.l2.find? fun t => decide (t.line = line) := rfl
    have bytes : (grouped m b).lineBytes line = b.lineBytes line := rfl
    cases hl : b.l2.find? fun t => decide (t.line = line) with
    | none =>
      simp only [State.touchLine, same, hl]
      rfl
    | some t =>
      simp only [State.touchLine, same, hl, bytes, pick_grouped]
      rfl
  · rw [touchLine_only]
  · rw [touchLine_only]

theorem moveLine_aside (line : Nat) : Aside fun b => b.moveLine line := by
  refine ⟨fun m b => ?_, fun b => ?_, fun b => ?_⟩
  · have same : (grouped m b).depart = b.depart := rfl
    cases hd : b.depart with
    | none => simp only [State.moveLine, same, hd]
    | some d =>
      simp only [State.moveLine, same, hd]
      rw [apply_ite (grouped m)]
      rfl
  · rw [moveLine_only]
  · rw [moveLine_only]

theorem writeLine_grouped (m : Sparse Grp) (b : State) (pa : Nat) (x : List Byte) (group : Nat) (ef : Bool) :
    (grouped m b).writeLine pa x group ef = (b.writeLine pa x group ef).map (grouped m) := by
  simp only [State.writeLine, (touchLine_aside _ _ _ _).groups, (moveLine_aside _).groups]
  rw [apply_ite (Option.map (grouped m))]
  rfl

theorem writeTgt_grouped (m : Sparse Grp) (b : State) (x : Tgt) (y : List Byte) (group : Nat) (ef : Bool) :
    (grouped m b).writeTgt x y group ef = (b.writeTgt x y group ef).map (grouped m) := by
  cases x with
  | dev pa =>
    simp only [State.writeTgt, writeLine_grouped]
    split
    · rfl
    · cases b.writeLine pa y group ef <;> rfl
  | host a =>
    simp only [State.writeTgt]
    rw [apply_ite (Except.map (grouped m))]
    rfl
  | fab node pa =>
    simp only [State.writeTgt]
    rw [apply_ite (Except.map (grouped m)), apply_ite (Except.map (grouped m))]
    rfl

theorem Marked.chargeTgt (h : Marked g a b) (group : Nat) (x : Tgt) (n : Nat) : Marked g (a.chargeTgt group x n) (b.chargeTgt group x n) := by
  cases x with
  | dev pa =>
    show Marked g (a.chargeGroup group pa n) (b.chargeGroup group pa n)
    have far : a.isFar pa = b.isFar pa := by
      rw [h.rest]
      rfl
    have bytes : a.channelBytes pa n = b.channelBytes pa n := by
      rw [h.rest]
      rfl
    rw [State.chargeGroup, State.chargeGroup, far, bytes]
    split
    · exact h.rollWindow.1.onGrp h.rollWindow.2 group fun _ => rfl
    · exact h
  | _ => exact h

/-- Two results of accesses: the same failure, if any, in states that differ in the mark. -/
def MarkedEnds (g : Nat) (r r' : State × Option VaErr) : Prop := Marked g r.1 r'.1 ∧ r.2 = r'.2

theorem writeTgt_clock {x : Tgt} {y : List Byte} {group : Nat} {ef : Bool} {t : State} (h : b.writeTgt x y group ef = .ok t) :
    t.groups = b.groups ∧ t.ns = b.ns ∧ t.window = b.window := by
  cases x with
  | dev pa =>
    simp only [State.writeTgt] at h
    split at h
    · cases h
    · split at h
      next u hu =>
        cases h
        rw [writeLine_only hu]
        exact ⟨rfl, rfl, rfl⟩
      · cases h
  | host a =>
    simp only [State.writeTgt] at h
    split at h <;> cases h
    exact ⟨rfl, rfl, rfl⟩
  | fab node pa =>
    simp only [State.writeTgt] at h
    split at h
    · cases h
    · split at h <;> cases h
      exact ⟨rfl, rfl, rfl⟩

theorem Marked.putPiece {r r' : State × Option VaErr} (h : MarkedEnds g r r') (group : Nat) (c : Acc) (p : Nat × List Byte) :
    MarkedEnds g (putPiece group c r p) (putPiece group c r' p) := by
  obtain ⟨a, e⟩ := r
  obtain ⟨b, e'⟩ := r'
  obtain ⟨h, rfl⟩ : Marked g a b ∧ e = e' := h
  cases e with
  | some e => exact ⟨h, rfl⟩
  | none =>
    simp only [Machine.putPiece, h.readsAlike.place]
    cases b.place group p.1 c with
    | error e => exact ⟨h, rfl⟩
    | ok t =>
      have put : a.writeTgt t p.2 group false = (b.writeTgt t p.2 group false).map (grouped a.groups) := by
        conv_lhs => rw [h.rest]
        exact writeTgt_grouped ..
      simp only [put]
      cases hw : b.writeTgt t p.2 group false with
      | error e => exact ⟨h, rfl⟩
      | ok u =>
        obtain ⟨groups, ns, window⟩ := writeTgt_clock hw
        exact ⟨(h.moved groups ns window).chargeTgt group t _, rfl⟩

theorem Marked.writeVa (h : Marked g a b) (group va : Nat) (y : List Byte) (c : Acc) : MarkedEnds g (a.writeVa group va y c) (b.writeVa group va y c) := by
  have fold (l : List (Nat × List Byte)) (r r' : State × Option VaErr) (h : MarkedEnds g r r') :
      MarkedEnds g (l.foldl (Machine.putPiece group c) r) (l.foldl (Machine.putPiece group c) r') := by
    induction l generalizing r r' with
    | nil => exact h
    | cons p l ih => exact ih _ _ (Marked.putPiece h group c p)
  rw [writeVa_eq, writeVa_eq]
  exact fold _ _ _ ⟨h, rfl⟩

/-! ### Reports -/

theorem post_aside (r : EvRec) : Aside fun b => b.post r := by
  refine ⟨fun m b => ?_, fun b => by rw [post_only], fun b => by rw [post_only]⟩
  simp only [State.post]
  by_cases noted : (decide (r.srcK = 1) && decide (r.kind = 2)) = true
  · rw [if_pos noted, if_pos noted, apply_ite (grouped m), apply_ite (grouped m), apply_ite (grouped m)]
    rfl
  · rw [if_neg noted, if_neg noted, apply_ite (grouped m), apply_ite (grouped m), apply_ite (grouped m)]
    rfl

theorem detectUnit_aside (src tag group detail : Nat) : Aside fun b => b.detectUnit src tag group detail := by
  have posted := post_aside { kind := 2, srcK := 4, src := src, tag := tag, status := stUNCORR, group := group, detail := detail }
  refine ⟨fun m b => ?_, posted.ns, posted.window⟩
  simp only [State.detectUnit, State.postDev, posted.groups]
  rfl

/-- An uncorrectable word entered in the logs (R320, R323). -/
def logged (s : State) (pa cluster core : Nat) : State :=
  if nearBase ≤ pa then
    { s with wordErr := sput 0 (pa / 8 * 8) (sget 0 (pa / 8 * 8) s.wordErr + 1) s.wordErr,
             alogs := supd Log.init (s.section_ pa) (fun l => l.add (arrayRec 2 (s.section_ pa) (hashLine pa % 2) 0xFF (pa / 8 * 8)
               (sget 0 (pa / 8 * 8) s.wordErr + 1) cluster core s.us)) s.alogs }
  else { s with chanBad := (s.chanBad.filter fun x => !(decide (x.1 = (s.farHome pa).1) && decide (x.2.1 = pa / 256))) ++ [((s.farHome pa).1, pa / 256, s.ns)] }

theorem logged_aside (pa cluster core : Nat) : Aside fun b => logged b pa cluster core := by
  refine ⟨fun m b => ?_, fun b => ?_, fun b => ?_⟩
  · rw [logged, logged, apply_ite (grouped m)]
    rfl
  · rw [logged]
    split <;> rfl
  · rw [logged]
    split <;> rfl

theorem detect_eq (pa cluster core group : Nat) : b.detect pa cluster core group = (logged b pa cluster core).detectUnit
    (if nearBase ≤ pa then cluster else 0xFFFF) (unitTag (if nearBase ≤ pa then 9 else 8) (if nearBase ≤ pa then core else 0xFF) 0xFF) group pa := by
  simp only [State.detect, State.detectUnit, logged, decide_eq_true_eq]

theorem Marked.detect (h : Marked g a b) (pa cluster core group : Nat) : Marked g (a.detect pa cluster core group) (b.detect pa cluster core group) := by
  rw [detect_eq, detect_eq]
  exact (h.aside (logged_aside pa cluster core)).aside (detectUnit_aside ..)

theorem Marked.engineErr (h : Marked g a b) (group : Nat) (e : VaErr) : Marked g (a.engineErr group e) (b.engineErr group e) := by
  have home (pa : Nat) : a.sliceHome pa = b.sliceHome pa := by
    rw [h.rest]
    rfl
  simp only [State.engineErr, h.readsAlike.xl, home]
  split
  · exact h
  · split
    · exact h.detect ..
    · exact h.detect ..
    · exact h

theorem Marked.cfEvent (h : Marked g a b) (group detail : Nat) : Marked g (a.cfEvent group detail) (b.cfEvent group detail) := h.aside (post_aside _)

theorem Marked.cfLost (h : Marked g a b) (group : Nat) (e : VaErr) : Marked g (a.cfLost group e) (b.cfLost group e) := (h.engineErr group e).cfEvent group 0

/-- The fields of a group that its context-fault ring's entries go by. -/
theorem Marked.cfRing (h : Marked g a b) (k : Nat) : (a.grp k).cfbase = (b.grp k).cfbase ∧ (a.grp k).cfsize = (b.grp k).cfsize := by
  rw [h.grp k]
  split
  next hk => subst hk; exact ⟨rfl, rfl⟩
  · exact ⟨rfl, rfl⟩

theorem Marked.groupWord (h : Marked g a b) (group va n : Nat) : a.groupWord group va n = b.groupWord group va n := by
  simp only [State.groupWord, h.readsAlike.readVa]

theorem Marked.us (h : Marked g a b) : a.us = b.us := by
  rw [h.rest]
  rfl

theorem Marked.cfShare (h : Marked g a b) (group head tail : Nat) (r : CfRec) : a.cfShare group head tail r = b.cfShare group head tail r := by
  simp only [State.cfShare, h.readsAlike.readVa, h.us, (h.cfRing group).1, (h.cfRing group).2]

theorem Marked.cfFull (h : Marked g a b) (group : Nat) : Marked g (a.cfFull group) (b.cfFull group) := by
  simp only [State.cfFull, h.groupWord, (h.cfRing group).1]
  split
  · exact ((h.writeVa ..).1.writeVa ..).1.cfEvent ..
  · exact h.cfLost ..
  · exact h.cfLost ..

theorem Marked.cfEnter (h : Marked g a b) (group grid : Nat) (r : CfRec) : Marked g (a.cfEnter group grid r) (b.cfEnter group grid r) := by
  have held {a b : State} (h : Marked g a b) : Marked g (a.onGrid grid fun x => { x with faulted := true }) (b.onGrid grid fun x => { x with faulted := true }) :=
    h.aside (f := fun s => s.onGrid grid fun x => { x with faulted := true }) ⟨fun _ _ => rfl, fun _ => rfl, fun _ => rfl⟩
  have ends {a b : State} (h : Marked g a b) (va : Nat) (y : List Byte) : ∃ a' b' e, a.writeVa group va y .write = (a', e) ∧
      b.writeVa group va y .write = (b', e) ∧ Marked g a' b' := by
    have wrote := h.writeVa group va y .write
    exact ⟨_, _, _, rfl, Prod.ext rfl wrote.2.symm, wrote.1⟩
  simp only [State.cfEnter, h.groupWord, h.cfShare, h.us, (h.cfRing group).1, (h.cfRing group).2]
  split
  next head tail _ _ =>
    split
    next x n _ =>
      obtain ⟨a', b', e, ha, hb, wrote⟩ := ends h (x + 20) (toBytes 4 (sat255 (n + r.count)))
      rw [ha, hb]
      cases e with
      | some e => exact wrote.cfLost group e
      | none => exact held wrote
    · split
      · exact h.cfFull group
      · obtain ⟨a', b', e, ha, hb, wrote⟩ := ends h ((b.grp group).cfbase + 64 + 64 * (tail % (b.grp group).cfsize)) (r.bytes b.us)
        rw [ha, hb]
        cases e with
        | some e => exact wrote.cfLost group e
        | none =>
          obtain ⟨a', b', e, ha, hb, wrote⟩ := ends wrote ((b.grp group).cfbase + 4) (toBytes 4 ((tail + 1) % (b.grp group).cfsize))
          dsimp only
          rw [ha, hb]
          cases e with
          | some e => exact wrote.cfLost group e
          | none => exact (held wrote).cfEvent ..
  · exact h.cfLost ..
  · exact h.cfLost ..

/-! ### Failures moved (R256) -/

/-- The failures `l` entered in their groups' rings, as those of a warp whose lanes have exited. -/
def enterAll (l : List (Origin × Nat × Nat × Nat)) (s : State) : State :=
  s.each l fun s x => s.cfEnter x.1.group x.1.grid (x.1.cf 1 x.2.1 (x.2.2.1 ||| 1) 1 x.2.2.2)

/-- A warp's failure record moved to its block's. -/
def passRecord (w : Warp) (s : State) : State :=
  (s.onBlock w.blk fun b => { b with fail :=
    { count := sat255 (b.fail.count + w.fail.count), cause := if b.fail.count = 0 then w.fail.cause else b.fail.cause,
      orgs := b.fail.orgs ++ w.fail.orgs } }).onWarp w.id fun w => { w with fail := FailRec.none }

theorem moveFails_eq (s : State) (w : Warp) : s.moveFails w = passRecord w (enterAll w.fail.orgs s) := rfl

theorem Marked.enterAll (h : Marked g a b) (l : List (Origin × Nat × Nat × Nat)) : Marked g (enterAll l a) (enterAll l b) := by
  induction l generalizing a b with
  | nil => exact h
  | cons x l ih => exact ih (h.cfEnter ..)

theorem enterAll_reported (l : List (Origin × Nat × Nat × Nat)) (s : State) : Reported s (enterAll l s) := by
  induction l generalizing s with
  | nil => exact .refl s
  | cons x l ih => exact (cfEnter_reported ..).trans (ih _)

theorem Marked.moveFails (h : Marked g a b) (w : Warp) : Marked g (a.moveFails w) (b.moveFails w) := by
  rw [moveFails_eq, moveFails_eq]
  exact (h.enterAll _).aside ⟨fun _ _ => rfl, fun _ => rfl, fun _ => rfl⟩

theorem Marked.foldl_moveFails (h : Marked g a b) (l : List Warp) :
    Marked g (l.foldl (fun s w => s.moveFails w) a) (l.foldl (fun s w => s.moveFails w) b) := by
  induction l generalizing a b with
  | nil => exact h
  | cons w l ih => exact ih (h.moveFails w)

/-- A warp with nothing unreported, where it is one of `l`. -/
def unfailed (l : List Warp) (v : Warp) : Warp := if v.id ∈ l.map (·.id) then { v with fail := FailRec.none } else v

/-- Moving failures leaves contexts, requests and the clock, and of the warps all but their failures. -/
theorem foldl_moveFails_kept (l : List Warp) (s : State) :
    let t := l.foldl (fun s w => s.moveFails w) s
    t.ctxs = s.ctxs ∧ t.net = s.net ∧ t.ns = s.ns ∧ t.warps = s.warps.map (unfailed l) := by
  induction l generalizing s with
  | nil => exact ⟨rfl, rfl, rfl, (List.map_id _).symm.trans (List.map_congr_left fun v _ => by simp [unfailed])⟩
  | cons w l ih =>
    have reported := enterAll_reported w.fail.orgs s
    obtain ⟨ctxs, net, ns, warps⟩ := ih (s.moveFails w)
    refine ⟨ctxs.trans reported.ctxs, net.trans reported.net, ns.trans reported.ns, warps.trans ?_⟩
    have first : (s.moveFails w).warps = s.warps.map fun v => if v.id = w.id then { v with fail := FailRec.none } else v := by
      rw [← reported.warps]
      rfl
    rw [first, List.map_map]
    refine List.map_congr_left fun v _ => ?_
    by_cases hv : v.id = w.id
    · simp [unfailed, hv]
    · simp [unfailed, hv]

/-! ## A removal begun (R298 steps 1 to 4) -/

/-- The lanes and traps of a context's warps, its waiting groups and its names ended. -/
def exits (ctx : Nat) (s : State) : State :=
  { s with
    warps := s.warps.map (fun w => if w.ctx = ctx then { w with lanes := w.lanes.map (fun l => { l with exited := true, park := .run, passed := 0 }), traps := [] } else w),
    waits := s.waits.filter (fun w => w.ctx ≠ ctx), cgroups := s.cgroups.map (fun g => if g.ctx = ctx then { g with entries := [], heads := [] } else g) }

/-- A context begins to be removed, with `n` warps in being. -/
def phased (ctx cause n : Nat) (s : State) : State := s.onCtx ctx fun c => { c with phase := .removing s.ns cause n }

/-- A context's banks and waits freed. -/
def released (ctx : Nat) (s : State) : State :=
  let t := s.freeBanks fun w => w.ctx = ctx
  t.dropWaits (t.ofCtx ctx)

/-- What a removal does to the state once failures have moved. -/
def quit (ctx cause n : Nat) (s : State) : State := ((exits ctx (released ctx (phased ctx cause n s))).cancelWork fun o => o.ctx = ctx).sweepShelf

theorem startRemoval_eq {s : State} {ctx : Nat} {c : Ctx} (hc : s.ctx? ctx = some c) (hp : ∀ a b k, c.phase ≠ .removing a b k) (cause : Nat) :
    s.startRemoval ctx cause =
      (let ws := s.warps.filter fun w => w.ctx = ctx
       let t := quit ctx cause ws.length (ws.foldl (fun s w => s.moveFails w) s)
       if t.counting ctx then t else t.finishRemoval ctx) := by
  rw [State.startRemoval, hc]
  cases hph : c.phase with
  | removing a b k => exact (hp a b k hph).elim
  | _ =>
    simp only [hph]
    rfl

/-- What the freeing of banks and waits and the end of engines' work leave. -/
structure Leaves (s t : State) : Prop where
  net : t.net = s.net
  groups : t.groups = s.groups
  mem : t.mem = s.mem
  ctxs : t.ctxs = s.ctxs
  warps : t.warps = s.warps

theorem Leaves.trans {s t u : State} (h : Leaves s t) (k : Leaves t u) : Leaves s u :=
  ⟨k.net.trans h.net, k.groups.trans h.groups, k.mem.trans h.mem, k.ctxs.trans h.ctxs, k.warps.trans h.warps⟩

theorem released_leaves (ctx : Nat) (s : State) : Leaves s (released ctx s) :=
  .trans (t := s.freeBanks fun w => w.ctx = ctx) ⟨rfl, rfl, rfl, rfl, rfl⟩ ⟨rfl, rfl, rfl, rfl, rfl⟩

theorem cancelled_leaves (p : Origin → Bool) (s : State) : Leaves s (s.cancelWork p).sweepShelf :=
  .trans (t := s.cancelWork p) ⟨rfl, rfl, rfl, rfl, rfl⟩ ⟨rfl, rfl, rfl, rfl, rfl⟩

/-- What a removal makes of contexts and warps, and what it leaves. -/
theorem quit_keeps (ctx cause n : Nat) (s : State) :
    let t := quit ctx cause n s
    t.net = s.net ∧ t.groups = s.groups ∧ t.mem = s.mem ∧
      t.ctxs = s.ctxs.map (fun c => if c.id = ctx then { c with phase := .removing s.ns cause n } else c) ∧
      t.warps = s.warps.map fun w =>
        if w.ctx = ctx then { w with lanes := w.lanes.map (fun l => { l with exited := true, park := .run, passed := 0 }), traps := [] } else w := by
  have cancelled := cancelled_leaves (fun o => o.ctx = ctx) (exits ctx (released ctx (phased ctx cause n s)))
  have freed := released_leaves ctx (phased ctx cause n s)
  refine ⟨cancelled.net.trans freed.net, cancelled.groups.trans freed.groups, cancelled.mem.trans freed.mem, cancelled.ctxs.trans freed.ctxs,
    cancelled.warps.trans ?_⟩
  rw [exits, freed.warps]
  rfl

theorem quit_ended (ctx cause n : Nat) (u : State) :
    let t := quit ctx cause n u
    (∀ w ∈ t.waits, w.ctx ≠ ctx) ∧ (∀ x ∈ t.cgroups, x.ctx = ctx → x.entries = [] ∧ x.heads = []) ∧
      (∀ x ∈ t.copies, x.org.ctx ≠ ctx) ∧ (∀ x ∈ t.defs, x.org.ctx ≠ ctx) ∧ (∀ x ∈ t.readers, x.org.ctx ≠ ctx) ∧
      (∀ x ∈ t.mats, x.org.ctx ≠ ctx) ∧ (∀ x ∈ t.fills, x.org.ctx ≠ ctx) ∧ (∀ x ∈ t.redos, x.req.org.ctx ≠ ctx) := by
  have filtered {α : Type} {l : List α} {f : α → Nat} : ∀ x ∈ l.filter (fun x => !decide (f x = ctx)), f x ≠ ctx := fun x hx => by
    simpa using (List.mem_filter.1 hx).2
  refine ⟨fun w hw => by simpa using (List.mem_filter.1 hw).2, fun x hx hxc => ?_, filtered, filtered, filtered, filtered, filtered, filtered⟩
  obtain ⟨y, -, rfl⟩ := List.mem_map.1 hx
  by_cases hy : y.ctx = ctx
  · rw [if_pos hy]
    exact ⟨rfl, rfl⟩
  · rw [if_neg hy] at hxc
    exact (hy hxc).elim

end Marks

/-- A context removed while an operation of it is unacknowledged. -/
theorem removal_begins {s : State} {g : Nat} {c : Ctx} (hen : (s.grp g).en = true) (hs : s.ctxs = [c]) (hg : c.group = g)
    (hp : ∀ a b k, c.phase ≠ .removing a b k) (hn : ∃ r ∈ s.net, r.counted = true ∧ r.org.ctx = c.id) (hw : ∀ w ∈ s.warps, w.ctx = c.id) :
    exec (.pctlRemove g) s = .next (quit c.id 2 s.warps.length (s.warps.foldl (fun s w => s.moveFails w) (s.onGrp g removed))) := by
  have one : (s.ctxs.filter fun c => decide (c.group = g)).map (·.id) = [c.id] := by simp [hs, hg]
  have all : ((s.onGrp g removed).warps.filter fun w => decide (w.ctx = c.id)) = s.warps := List.filter_eq_self.2 fun w h => by simpa using hw w h
  have found : (s.onGrp g removed).ctx? c.id = some c := by
    show s.ctxs.find? _ = _
    simp [hs]
  have removes : exec (.pctlRemove g) s = .next ((s.onGrp g removed).startRemoval c.id 2) := by
    show execPctlRemove g s = _
    simp only [execPctlRemove, one, hen]
    rfl
  have waits : (quit c.id 2 s.warps.length (s.warps.foldl (fun s w => s.moveFails w) (s.onGrp g removed))).counting c.id = true := by
    obtain ⟨r, hr, counted, ctx⟩ := hn
    obtain ⟨-, net, -⟩ := foldl_moveFails_kept s.warps (s.onGrp g removed)
    refine List.any_eq_true.2 ⟨r, ?_, by simp [counted, ctx]⟩
    rw [(quit_keeps ..).1, net]
    exact hr
  rw [removes, startRemoval_eq found hp, all]
  exact congrArg Host.Outcome.next (if_pos waits)

/-! ## Requests (R294) -/

section Requests

variable {s : State} {g cause : Nat} {m : Bool}

theorem exec_go {ev : Instr} (h : ev = .pctlGo g ∧ cause = 1 ∧ m = false ∨ ev = .pctlGoMigrate g ∧ cause = 2 ∧ m = true) (hen : (s.grp g).en = true) :
    exec ev s = .next (s.preempt g cause m) := by
  obtain ⟨rfl, rfl, rfl⟩ | ⟨rfl, rfl, rfl⟩ := h
  · exact congrArg Host.Outcome.next (if_pos hen)
  · exact congrArg Host.Outcome.next (if_pos hen)

/-- A group that is asked for the contexts `cs`. -/
def asked (cs : List Nat) (m : Bool) (x : Grp) : Grp :=
  let y := if x.ptodo.isEmpty then { x with pneed := 0, pend := 0, pbad := 0 } else x
  let todo := y.ptodo ++ cs
  { y with ptodo := todo, go := !todo.isEmpty, migrate := m, pstate := if todo.isEmpty then 3 else if y.ptodo.isEmpty then 1 else y.pstate }

/-- Warps of the contexts `cs`, which are to stop. -/
def unmarkedOf (cs : List Nat) (w : Warp) : Warp :=
  if cs.contains w.ctx && !(w.lanes.any fun l => l.park = .stop) then { w with liveG := 0, liveR := [] } else w

theorem preempt_eq {cs : List Nat} (h : ((s.ctxs.filter fun c => decide (c.group = g) && decide (c.phase = .running)).map (·.id)) = cs) : s.preempt g cause m =
    ({ s with ctxs := s.ctxs.map (fun c => if cs.contains c.id then { c with phase := .stopping s.ns true cause } else c),
              warps := s.warps.map (unmarkedOf cs) } : State).onGrp g (asked cs m) := by
  subst h
  rfl

/-- A request of a group with no context ends at once. -/
theorem preempt_none (htodo : (s.grp g).ptodo = []) (h : ∀ c ∈ s.ctxs, c.group ≠ g) :
    s.preempt g cause m = s.onGrp g fun x => { x with pneed := 0, pend := 0, pbad := 0, go := false, migrate := m, pstate := 3 } := by
  have none : ((s.ctxs.filter fun c => decide (c.group = g) && decide (c.phase = .running)).map (·.id)) = [] := by
    rw [List.map_eq_nil_iff, List.filter_eq_nil_iff]
    intro c hc
    simp [h c hc]
  have warps : s.warps.map (unmarkedOf []) = s.warps := (List.map_congr_left fun w _ => rfl).trans (List.map_id _)
  have ctxs : s.ctxs.map (fun c => if ([] : List Nat).contains c.id then { c with phase := .stopping s.ns true cause } else c) = s.ctxs :=
    (List.map_congr_left fun c _ => rfl).trans (List.map_id _)
  rw [preempt_eq none, warps, ctxs]
  exact onGrp_congr (by simp [htodo, asked])

/-- A request of a group with one running context stops it. -/
theorem preempt_one {c : Ctx} (htodo : (s.grp g).ptodo = []) (hs : s.ctxs = [c]) (hg : c.group = g) (hp : c.phase = .running) :
    s.preempt g cause m =
      ({ s with ctxs := [stops s.ns cause c], warps := s.warps.map fun w => if w.ctx = c.id then unmarked w else w } : State).onGrp g fun x =>
        { x with pneed := 0, pend := 0, pbad := 0, ptodo := [c.id], go := true, migrate := m, pstate := 1 } := by
  have one : ((s.ctxs.filter fun c => decide (c.group = g) && decide (c.phase = .running)).map (·.id)) = [c.id] := by simp [hs, hg, hp]
  have warps : s.warps.map (unmarkedOf [c.id]) = s.warps.map fun w => if w.ctx = c.id then unmarked w else w := by
    refine List.map_congr_left fun w _ => ?_
    by_cases hw : w.ctx = c.id
    · cases hl : w.lanes.any fun l => decide (l.park = .stop) <;> simp [hw, hl, unmarked, unmarkedOf]
    · simp [hw, unmarkedOf]
  have ctxs : s.ctxs.map (fun y => if [c.id].contains y.id then { y with phase := .stopping s.ns true cause } else y) = [stops s.ns cause c] := by simp [hs, stops]
  have todo : (({ s with ctxs := [stops s.ns cause c], warps := s.warps.map fun w => if w.ctx = c.id then unmarked w else w } : State).grp g).ptodo = [] := htodo
  rw [preempt_eq one, warps, ctxs]
  exact onGrp_congr (by simp [todo, asked])

end Requests

/-! ## Halting (R295) -/

section Halts

variable {s : State} {c : Nat} {x : Ctx} {a k : Nat} {d : Bool}

/-- A warp whose quadrant's bank holds no sub-warp of it has no handler to abandon. -/
theorem abandon_unchanged {w : Warp} (h : ∀ b, (s.quad w.q).bank = some b → b.warp ≠ w.id) : s.abandon w = s := by
  rw [State.abandon]
  cases hb : (s.quad w.q).bank with
  | none => rfl
  | some b => exact if_pos (h b hb)

theorem id_of_ctx? (hc : s.ctx? c = some x) : x.id = c := by simpa using List.find?_some hc

theorem haltCtx_eq (hc : s.ctx? c = some x) (hb : ∀ w ∈ s.warps, ∀ b, (s.quad w.q).bank = some b → b.warp ≠ w.id) :
    s.haltCtx x d k = (s.onCtx c fun y => { y with phase := .saving d k }).onGrp x.group fun g => if d then { g with pstate := 2 } else g := by
  have same : (s.abandonAll fun w => w.ctx = x.id) = s := foldl_unchanged fun w hw => abandon_unchanged (hb w (List.mem_filter.1 hw).1)
  rw [State.haltCtx, same, id_of_ctx? hc]

end Halts

/-! ## A handler abandoned (R295) -/

section Abandons

variable {s : State} {w : Warp} {b : Bank}

/-- A warp whose sub-warp in a handler is given back: the lanes of `m` are trap pending again. -/
def givenBack (b : Bank) (m : Mask) (x : Warp) : Warp :=
  { x with lanes := (lanes32.zip x.lanes).map fun p => if m.getLsbD p.1 then { Lane.goto (b.entry.getD p.1 (0, 0)) p.2 with park := .trap, passed := 0 } else p.2,
           traps := { b.sub with lanes := b.sub.lanes.filter fun t => m.getLsbD t.lane } :: x.traps }

theorem abandon_eq (hb : (s.quad w.q).bank = some b) (hw : b.warp = w.id) :
    s.abandon w = (s.onWarp w.id (givenBack b (maskOf fun n => !(laneAt b.lanes n).exited))).onQuad w.q fun q => { q with bank := none } := by
  rw [State.abandon, hb]
  exact if_neg (not_not.2 hw)

theorem laneAt_givenBack (m : Mask) (hl : w.lanes.length = 32) {n : Nat} (hn : n < 32) : laneAt (givenBack b m w).lanes n =
    if m.getLsbD n then { Lane.goto (b.entry.getD n (0, 0)) (laneAt w.lanes n) with park := .trap, passed := 0 } else laneAt w.lanes n := by
  have at_ : w.lanes[n]? = some (laneAt w.lanes n) := by
    rw [laneAt, List.getD_eq_getElem?_getD, List.getElem?_eq_getElem (hl ▸ hn)]
    rfl
  have number : lanes32[n]? = some n := by
    rw [lanes32_eq_range, List.getElem?_range hn]
  rw [laneAt, givenBack, List.getD_eq_getElem?_getD, List.getElem?_map, (List.getElem?_zip_eq_some (z := (n, laneAt w.lanes n))).2 ⟨number, at_⟩]
  rfl

end Abandons

/-! ## The save engine (R296) -/

section Saves

variable {s : State} {c : Nat} {x : Ctx} {k : Nat} {d : Bool}

/-- A context whose turn it is, with nothing left to wait for, is saved, unless it has lost scratchpad data. -/
theorem exec_saveEngine {r : List Nat} (hc : s.ctx? c = some x) (hp : x.phase = .saving d k) (hd : (s.draining fun o => o.ctx = c) = false)
    (ht : (s.grp x.group).ptodo = c :: r) :
    exec (.saveEngine c) s = .next (s.loseSaved x (s.blocks.filter fun b => b.ctx = c) fun s => s.saveCtx x k) := by
  have first : ((s.grp x.group).ptodo.filter fun i => (s.ctx? i).isSome).head? = some c := by
    rw [ht, List.filter_cons_of_pos (by rw [hc]; rfl)]
    rfl
  show execSaveEngine c s = _
  simp only [execSaveEngine, hc, hp, hd, first]
  rw [if_neg (by simp)]

/-- Blocks whose scratchpad is whole lose nothing. -/
theorem loseSaved_none {bs : List Block} (h : ∀ b ∈ bs, b.badWords = []) (f : State → State) : s.loseSaved x bs f = f s := by
  have none : bs.find? (s.lostScratch x.h.scratch) = none := List.find?_eq_none.2 fun b hb => by simp [State.lostScratch, h b hb]
  rw [State.loseSaved, none]

/-- The unreported failures of a context's warps and blocks entered. -/
def failsEntered (x : Ctx) (s : State) : State := (s.enterFails (s.warps.filter fun w => w.ctx = x.id)).enterBlockFails (s.blocks.filter fun b => b.ctx = x.id)

/-- A context's groups that are to run again noted. -/
def replaysNoted (x : Ctx) (s : State) : State :=
  (s.cgroups.filter fun g => decide (g.ctx = x.id) && g.again).foldl (fun s g => s.noteReplay x.id (x.h.groupLins g.gidx)) s

/-- A saved context freed, with its event and the end of its launch. -/
def saveFreed (x : Ctx) (va : Nat) (s : State) : State :=
  let s : State := { s with mats := s.mats.filter (fun m => m.org.ctx ≠ x.id), readers := s.readers.filter fun y => y.org.ctx ≠ x.id }
  let s := (s.freeCtx x.id).postDev 1 0xFFFF 0 0 x.group va
  let s := if x.src = .leaf then (s.onGrid x.grid fun g => g.suspect x.lins).finalise x.grid else s.endRun x.id stPREEMPTED va
  s.takePreempt x.group x.id 0

/-- What follows the write of an image of `n` bytes at `off` of the group's image area. -/
def saveEnds (x : Ctx) (off n va : Nat) : State × Option VaErr → State
  | (s, some e) => (((s.engineErr x.group e).resumeCtx x).postDev 2 0xFFFF 0 stACCESS x.group e.va).takePreempt x.group x.id 5
  | (s, none) => saveFreed x va (replaysNoted x (failsEntered x (s.onGrp x.group fun x => { x with pend := off + n })))

/-- A context saved in the image `b`. -/
def saveAs (x : Ctx) (b : List Byte) (s : State) : State :=
  let g := s.grp x.group
  let off := pad256 g.pend
  let s := s.onGrp x.group fun x => { x with pneed := min (2 ^ 32 - 1) (x.pneed + b.length) }
  if g.psize < off + b.length then (s.resumeCtx x).takePreempt x.group x.id 4
  else saveEnds x off b.length (g.pimg + off) (s.writeVa x.group (g.pimg + off) b .write)

theorem saveCtx_eq (h : s.endFinished x.id = s) : s.saveCtx x k = saveAs x (savedImage s x k) { s with free := s.free + 2 } := by
  rw [State.saveCtx, h]
  unfold savedImage
  -- the image's bytes do not matter here, and are long to compare
  generalize State.imageOf = image
  rfl

theorem imageOf_head (s : State) (c : Ctx) (cause : Nat) (all : Bool) (img : Nat → Byte) :
    ∃ (h : Img) (rest : List Byte), h.kind = 2 ∧ s.imageOf c cause all img = h.bytes ++ rest := by
  unfold State.imageOf
  exact ⟨_, _, rfl, (List.append_assoc ..).trans (List.append_assoc ..)⟩

theorem Img.bytes_head (h : Img) : ∃ rest, h.bytes = [0x4B, 0x49, 0x4D, 0x47, 1, 0] ++ (toBytes 1 h.kind ++ rest) := by
  unfold Img.bytes
  simp only [List.append_assoc]
  exact ⟨_, rfl⟩

theorem saveAs_eq (s : State) (x : Ctx) (b : List Byte) : saveAs x b { s with free := s.free + 2 } =
    if (s.grp x.group).psize < pad256 (s.grp x.group).pend + b.length then ((measured s x.group b.length).resumeCtx x).takePreempt x.group x.id 4
    else saveEnds x (pad256 (s.grp x.group).pend) b.length ((s.grp x.group).pimg + pad256 (s.grp x.group).pend)
      ((measured s x.group b.length).writeVa x.group ((s.grp x.group).pimg + pad256 (s.grp x.group).pend) b .write) := rfl

/-- An image begins with its mark, its version and its kind (R63). -/
theorem savedImage_head (s : State) (x : Ctx) (k : Nat) : (savedImage s x k).take 7 = [0x4B, 0x49, 0x4D, 0x47, 1, 0, 2] := by
  obtain ⟨h, rest, kind, image⟩ := imageOf_head ({ s with free := s.free + 2 }) x k (Config.freeBit s.free) fun i => BitVec.ofNat 8 (Config.freeNat (s.free + 1) / 256 ^ i)
  obtain ⟨rest', head⟩ := Img.bytes_head h
  rw [savedImage, image, head, kind]
  rfl

theorem failsEntered_none {v : State} (hw : ∀ w ∈ v.warps, w.ctx = x.id → w.fail.orgs = []) (hb : ∀ y ∈ v.blocks, y.ctx = x.id → y.fail.orgs = []) :
    failsEntered x v = v := by
  have warps : v.enterFails (v.warps.filter fun w => w.ctx = x.id) = v := foldl_unchanged fun w h => by
    rw [List.mem_filter, decide_eq_true_eq] at h
    rw [hw w h.1 h.2]
    rfl
  rw [failsEntered, warps]
  refine foldl_unchanged fun b h => ?_
  rw [List.mem_filter, decide_eq_true_eq] at h
  rw [hb b h.1 h.2]
  rfl

theorem replaysNoted_none {v : State} (hg : ∀ g ∈ v.cgroups, g.ctx = x.id → g.again = false) : replaysNoted x v = v := by
  refine foldl_unchanged fun g h => ?_
  rw [List.mem_filter, Bool.and_eq_true, decide_eq_true_eq] at h
  exact (Bool.false_ne_true ((hg g h.1 h.2.1).symm.trans h.2.2)).elim

/-- A driver's context saved, with nothing to enter and no group to replay. -/
theorem saveEnds_saved {v : State} (off n va : Nat) (hsrc : x.src ≠ .leaf) (hw : ∀ w ∈ v.warps, w.ctx = x.id → w.fail.orgs = [])
    (hb : ∀ y ∈ v.blocks, y.ctx = x.id → y.fail.orgs = []) (hg : ∀ g ∈ v.cgroups, g.ctx = x.id → g.again = false) :
    saveEnds x off n va (v, none) =
      (let f : State := v.onGrp x.group fun g => { g with pend := off + n }
       let g : State := { f with mats := f.mats.filter (fun m => m.org.ctx ≠ x.id), readers := f.readers.filter fun y => y.org.ctx ≠ x.id }
       (((g.freeCtx x.id).postDev 1 0xFFFF 0 0 x.group va).endRun x.id stPREEMPTED va).takePreempt x.group x.id 0) := by
  rw [saveEnds, failsEntered_none (v := v.onGrp x.group _) hw hb, replaysNoted_none (v := v.onGrp x.group _) hg, saveFreed]
  simp only [if_neg hsrc]

/-- A context that has lost scratchpad data is removed (R319). -/
theorem loseSaved_some {bs : List Block} {b : Block} (hb : bs.head? = some b) (hl : s.lostScratch x.h.scratch b = true) (f : State → State) :
    s.loseSaved x bs f = (s.detectUnit (b.core / 8) (unitTag 3 (b.core % 8) 0xFF) x.group 0).startRemoval x.id 3 := by
  have found : bs.find? (s.lostScratch x.h.scratch) = some b := by
    cases bs with
    | nil => exact nomatch hb
    | cons a l =>
      cases hb
      exact List.find?_cons_of_pos hl
  rw [State.loseSaved, found]
  rfl

/-- The save of a leaf's group, the only group, of a running context. -/
theorem exec_saveEngine_leaf {g : CGroup} (hc : s.ctx? c = some x) (hp : x.phase = .running) (hs : s.cgroups = [g]) (hg : g.ctx = c) (hl : g.leaf = .saving)
    (he : s.endFinished c = s) (hb : ∀ b ∈ s.blocks, b.badWords = []) :
    exec (.saveEngine c) s = .next (if s.draining fun o => decide (s.blockCg o.blk = g.id) then s else s.saveGroup x g) := by
  have one : (s.cgroups.filter fun g => decide (g.ctx = c) && decide (g.leaf = .saving)) = [g] := by simp [hs, hg, hl]
  have found : s.cgroup? g.id = some g := by
    show s.cgroups.find? _ = _
    simp [hs]
  have whole : s.loseSaved x (s.blocks.filter fun b => decide (b.cg = g.id)) (fun s => s.saveGroup x g) = s.saveGroup x g :=
    loseSaved_none (fun b h => hb b (List.mem_filter.1 h).1) _
  show execSaveEngine c s = _
  simp only [execSaveEngine, hc, hp, one, List.foldl_cons, List.foldl_nil, he, found, whole]

/-- Nothing of a freed context is left. -/
theorem freeCtx_gone (s : State) (c : Nat) : (s.freeCtx c).ctx? c = none ∧ (∀ w ∈ (s.freeCtx c).warps, w.ctx ≠ c) ∧
    (∀ b ∈ (s.freeCtx c).blocks, b.ctx ≠ c) ∧ ∀ g ∈ (s.freeCtx c).cgroups, g.ctx ≠ c := by
  refine ⟨List.find?_eq_none.2 fun y hy => ?_, fun w hw => ?_, fun b hb => ?_, fun g hg => ?_⟩
  · simpa using (List.mem_filter.1 hy).2
  · simpa using (List.mem_filter.1 hw).2
  · simpa using (List.mem_filter.1 hb).2
  · simpa using (List.mem_filter.1 hg).2

end Saves

/-! ## A removal completed (R298 step 5) -/

theorem finishRemoval_eq {s : State} {c a k n : Nat} {x : Ctx} (hc : s.ctx? c = some x) (hp : x.phase = .removing a k n) (hsrc : x.src ≠ .leaf)
    {u v w : State}
    (hu : u = (s.freeCtx c).cfEnter x.group x.grid { kind := 3, cause := k, flags := 0, warp := 0xFF, lanes := 0, pos := 0, block := 0xFFFFFFFF, count := n,
                                                     image := x.img, addr := 0 })
    (hv : v = (u.onGrid x.grid fun g => { g with state := 4, tprov := 0, tfinal := u.us, suspects := [], nsus := 0, faulted := true, removed := true }).writeGrid
      x.grid)
    (hw : w = (v.endRun c 15 x.img).takePreempt x.group c 0) (none : ∀ y ∈ w.ctxs, y.group ≠ x.group) :
    s.finishRemoval c = w.onGrp x.group fun g => { g with remove := false } := by
  have quiet : ¬(w.ctxs.any fun d => decide (d.group = x.group) && match d.phase with | .removing _ _ _ => true | _ => false) = true := by
    rw [List.any_eq_true]
    rintro ⟨d, hd, both⟩
    rw [Bool.and_eq_true, decide_eq_true_eq] at both
    exact none d hd both.1
  subst hw hv hu
  rw [State.finishRemoval, hc]
  dsimp only
  rw [hp]
  cases hs : x.src with
  | leaf => exact (hsrc hs).elim
  | _ =>
    simp only [reduceCtorEq, if_false]
    exact if_neg quiet

/-- Settles O56: requests, halts, saves and removals, each by the equation of its own above. -/
theorem preemptionActs : Obligations.PreemptionActs := by
  unfold Obligations.PreemptionActs
  refine ⟨?disabled, ?asked, ?removal, ?drain, ?finish, ?stop, ?abandon, ?waiting, ?save, ?leaf, ?lost, freeCtx_gone⟩
  case disabled =>
    refine fun s g off => ⟨congrArg Host.Outcome.next (if_neg ?_), congrArg Host.Outcome.next (if_neg ?_), congrArg Host.Outcome.next (if_pos ?_)⟩
    · rw [off]
      exact Bool.false_ne_true
    · rw [off]
      exact Bool.false_ne_true
    · rw [off]
      rfl
  case asked =>
    intro s g ev cause m hev hen htodo
    refine ⟨fun none => ?_, fun c hs hg hp => ?_⟩
    · rw [exec_go hev hen, preempt_none htodo none]
    · exact (exec_go hev hen).trans (congrArg Host.Outcome.next (preempt_one htodo hs hg hp))
  case removal =>
    intro s g c hen hs hg hp hn hw
    obtain ⟨ctxs, net, ns, warps⟩ := foldl_moveFails_kept s.warps (s.onGrp g removed)
    have marked := (marked_onGrp hen).foldl_moveFails s.warps
    obtain ⟨qnet, qgroups, qmem, qctxs, qwarps⟩ := quit_keeps c.id 2 s.warps.length (s.warps.foldl (fun s w => s.moveFails w) (s.onGrp g removed))
    have exited : ∀ w ∈ (quit c.id 2 s.warps.length (s.warps.foldl (fun s w => s.moveFails w) (s.onGrp g removed))).warps, cleared w ∧ w.fail = FailRec.none := by
      rw [qwarps, warps, List.map_map]
      intro w hm
      obtain ⟨v, hv, rfl⟩ := List.mem_map.1 hm
      have mine : v.id ∈ List.map (·.id) s.warps := List.mem_map.2 ⟨v, hv, rfl⟩
      have ctx : (unfailed s.warps v).ctx = c.id := by
        rw [unfailed, if_pos mine]
        exact hw v hv
      rw [Function.comp_apply, if_pos ctx, unfailed, if_pos mine]
      refine ⟨⟨fun l hl => ?_, rfl⟩, rfl⟩
      obtain ⟨l', -, rfl⟩ := List.mem_map.1 hl
      rfl
    refine ⟨_, removal_begins hen hs hg hp hn hw, ?_, ?_, qnet.trans net, ?_, exited, ?_, quit_ended ..⟩
    · rw [qctxs, ctxs, ns, onGrp_ctxs, hs, List.map_singleton, if_pos rfl]
      rfl
    · rw [State.grp, qgroups]
      have mark := marked.grp g
      rw [if_pos rfl] at mark
      exact congrArg Grp.remove mark
    · rw [qmem]
      have mem := congrArg State.mem marked.rest
      exact mem
    · rw [qwarps, List.length_map, warps, List.length_map]
      rfl
  case drain =>
    intro s c x a k n hc hp
    have drains : exec (.removalDrainTimeout c) s = .next (if a + 100000 ≤ s.ns then
        ({ s with net := s.net.filter fun r => r.org.ctx ≠ c } : State).finishRemoval c else s) := by
      show execRemovalDrainTimeout c s = _
      simp only [execRemovalDrainTimeout, hc, hp]
    rw [drains]
    exact ⟨fun h => congrArg Host.Outcome.next (if_neg (Nat.not_le.2 h)), fun h => congrArg Host.Outcome.next (if_pos h)⟩
  case finish => exact fun s c x a k n hc hp hsrc none => finishRemoval_eq hc hp hsrc rfl rfl rfl none
  case stop =>
    intro s c x a d k hc hp hl hb u v
    have halts : s.haltCtx x d k = v := haltCtx_eq hc hb
    have left (b : Prop) [Decidable b] : ∀ g ∈ (if b then v else s).cgroups.filter (fun g => decide (g.ctx = c)), g.leaf = .none := by
      have groups : (if b then v else s).cgroups = s.cgroups := by split <;> rfl
      rw [groups]
      exact fun g hg => hl g (List.mem_filter.1 hg).1
    have stops : exec (.preemptStop c) s = .next (if s.warps.all fun w => decide (w.ctx ≠ c) || s.halted w then v else s) := by
      show execPreemptStop c s = _
      simp only [execPreemptStop, hc, hp, halts]
      exact congrArg Host.Outcome.next (foldl_unchanged fun g hg => by rw [left _ g hg])
    have expires : exec (.preemptBoundExpiry c) s = .next (if a + (s.grp x.group).bound ≤ s.ns then v else s) := by
      show execPreemptBoundExpiry c s = _
      simp only [execPreemptBoundExpiry, hc, hp, halts]
      exact congrArg Host.Outcome.next (foldl_unchanged fun g hg => by rw [left _ g hg])
    rw [stops, expires]
    refine ⟨fun all => congrArg Host.Outcome.next (if_pos ?_), fun ⟨w, hw, hwc, going⟩ => congrArg Host.Outcome.next (if_neg ?_),
      fun h => congrArg Host.Outcome.next (if_pos h), fun h => congrArg Host.Outcome.next (if_neg (Nat.not_le.2 h))⟩
    · simpa [imp_iff_not_or] using all
    · intro all
      have := List.all_eq_true.1 all w hw
      simp [hwc, going] at this
  case abandon =>
    intro s w b hb hw one hl
    have found : s.warp? w.id = some w := by rw [State.warp?, ← List.head?_filter, one]; rfl
    have given : (s.abandon w).warp? w.id = some (givenBack b (maskOf fun n => !(laneAt b.lanes n).exited) w) := by
      rw [abandon_eq hb hw]
      refine (warp?_onWarp w.id w.id (f := givenBack b (maskOf fun n => !(laneAt b.lanes n).exited)) (fun _ => rfl)).trans ?_
      rw [found]
      exact congrArg some (if_pos rfl)
    refine ⟨_, _, rfl, ?_, given, ?_, fun n hn => ?_⟩
    · rw [abandon_eq hb hw]
      rfl
    · rw [abandon_eq hb hw, quad_onQuad_same]
      rfl
    · rw [laneAt_givenBack _ hl hn, getLsbD_maskOf _ n hn]
      cases (laneAt b.lanes n).exited <;> rfl
  case waiting =>
    intro s c x d k hc hp hd
    show execSaveEngine c s = _
    simp only [execSaveEngine, hc, hp, hd]
    rfl
  case save =>
    intro s c x d k r hc hp hd ht he hb hg b at_ u
    have saves : exec (.saveEngine c) s = .next (saveAs x b { s with free := s.free + 2 }) := by
      rw [exec_saveEngine hc hp hd ht, loseSaved_none (fun b h => hb b (List.mem_filter.1 h).1), saveCtx_eq he]
    have head : b.take 7 = [0x4B, 0x49, 0x4D, 0x47, 1, 0, 2] := savedImage_head s x k
    rw [saveAs_eq] at saves
    clear_value b
    refine ⟨head, fun big => ?_, fun v e fits wrote => ?_, fun v fits wrote hsrc hw hy => ?_⟩
    · rw [saves, if_pos big]
    · rw [saves, if_neg (Nat.not_lt.2 fits)]
      exact congrArg (fun r => Host.Outcome.next (saveEnds x _ _ _ r)) wrote
    · have kept : v.cgroups = s.cgroups := by
        have reported := (writeVa_reported u x.group at_ b .write).cgroups
        rw [wrote] at reported
        exact reported
      have again : ∀ g ∈ v.cgroups, g.ctx = x.id → g.again = false := by
        rw [kept, id_of_ctx? hc]
        exact hg
      rw [saves, if_neg (Nat.not_lt.2 fits)]
      refine congrArg Host.Outcome.next ((congrArg (saveEnds x _ _ _) wrote).trans ?_)
      exact saveEnds_saved _ _ _ hsrc hw hy again
  case leaf => exact fun s c x g hc hp hs hg hl he hb => exec_saveEngine_leaf hc hp hs hg hl he hb
  case lost =>
    intro s c x d k r b hc hp hd ht hb hl
    rw [exec_saveEngine hc hp hd ht, loseSaved_some (by rw [List.head?_filter]; exact hb) hl, id_of_ctx? hc]

end Sys2Proof.Machine

/-! SUPPORT. Lists of numbers without repeats, and folds that keep a part of what they change. -/

namespace Sys2Proof.Machine

/-- What each step of a fold leaves as it was, the fold does. -/
theorem foldl_keeps {α β γ : Type} {f : β → α → β} (g : β → γ) (h : ∀ b a, g (f b a) = g b) (l : List α) (b : β) : g (l.foldl f b) = g b := by
  induction l generalizing b with
  | nil => rfl
  | cons a l ih => exact (ih (f b a)).trans (h b a)

theorem mem_insNat {n k : Nat} {l : List Nat} : k ∈ insNat n l ↔ k = n ∨ k ∈ l := by
  induction l with
  | nil => simp [insNat]
  | cons m r ih =>
    rw [insNat]
    split
    · exact List.mem_cons
    · split
      next h => simp [h]
      next => rw [List.mem_cons, ih, List.mem_cons, or_left_comm]

theorem insNat_sorted {n : Nat} {l : List Nat} (h : l.Pairwise (· < ·)) : (insNat n l).Pairwise (· < ·) := by
  induction l with
  | nil => exact List.pairwise_singleton ..
  | cons m r ih =>
    obtain ⟨hm, hr⟩ := List.pairwise_cons.1 h
    rw [insNat]
    split
    next hn =>
      refine List.pairwise_cons.2 ⟨fun k hk => ?_, h⟩
      obtain rfl | hk := List.mem_cons.1 hk
      · exact hn
      · exact hn.trans (hm k hk)
    next hn =>
      split
      · exact h
      next hne =>
        refine List.pairwise_cons.2 ⟨fun k hk => ?_, ih hr⟩
        obtain rfl | hk := mem_insNat.1 hk
        · omega
        · exact hm k hk

theorem nodup_of_sorted {l : List Nat} (h : l.Pairwise (· < ·)) : l.Nodup := h.imp Nat.ne_of_lt

theorem mem_foldl_insNat {k : Nat} (l r : List Nat) : k ∈ l.foldl (fun l n => insNat n l) r ↔ k ∈ l ∨ k ∈ r := by
  induction l generalizing r with
  | nil => simp
  | cons n l ih => rw [List.foldl_cons, ih, mem_insNat, List.mem_cons, or_left_comm, or_assoc]

theorem foldl_insNat_sorted (l : List Nat) {r : List Nat} (h : r.Pairwise (· < ·)) : (l.foldl (fun l n => insNat n l) r).Pairwise (· < ·) := by
  induction l generalizing r with
  | nil => exact h
  | cons n l ih => exact ih (insNat_sorted h)

end Sys2Proof.Machine

/-! PROOF. R205, R211: a look of the tile fetcher at a record whose table cannot be used yet. -/

namespace Sys2Proof.Machine

open Claims

/-- A scaled record of one row of four bytes: its rows' table at 0x300000, its headers at 0x400000. -/
def scaledRec : List Byte :=
  toBytes 8 0x200000 ++ [3, 1] ++ toBytes 2 1 ++ toBytes 2 4 ++ toBytes 10 0 ++ toBytes 8 0x300000 ++ toBytes 2 1 ++ toBytes 6 0 ++ toBytes 8 0x400000 ++ toBytes 16 0

/-- A definition of that record under way. -/
def scaledDef : Def :=
  { cg := 0, name := 0, gen := 0, trec := scaledRec, scratch := false, fetched := true, snap := [], sealed := [],
    org := { seq := 1, core := 0, ctx := 0, grid := 0, group := 0, blk := 0, warp := 0, wi := 0, lin := 0, img := 0, pos := 0, lanes := 1 } }

/-- Group 0's tables, at 0 and 0x1000, map its first GiB to far store; the one entry of the rows' table is 2^52, which is no address. -/
def noEntry : State := { State.reset with mem := [(0, 0x01), (1, 0x10), (0x1000, 0x13), (0x300006, 0x10)], defs := [scaledDef] }

theorem noEntry_early : scaledDef.early noEntry = [(0x400000, [0, 0])] := by decide +kernel

/-- Refutes O48: what a look takes down for a row is said to stand beside the row's entry of the table; but the fetcher reads a row's headers where the entry cannot
be read or is no address too, and then takes down the headers alone. -/
theorem not_tileFetcher : ¬ Obligations.TileFetcher := by
  unfold Obligations.TileFetcher
  rintro ⟨-, -, ⟨takes, -⟩, -⟩
  have ok : recOk scaledDef.trec = true := by decide
  have taken : ((0x400000, [0, 0]) : Nat × List Byte) ∈ scaledDef.early noEntry := by simp [noEntry_early]
  obtain ⟨k, -, e, hx, -⟩ | ⟨r, e, p, -, -, table | entry, -⟩ := takes noEntry scaledDef _ ok taken
  · have key : (0x400000 : Nat) = 2 ^ 64 + k := congrArg Prod.fst hx
    omega
  · exact absurd table (by decide)
  · rw [noEntry_early, List.mem_singleton] at entry
    have key : 2 ^ 64 + r / tBr scaledDef.trec = 0x400000 := congrArg Prod.fst entry
    exact absurd (key ▸ Nat.le_add_right .. : 2 ^ 64 ≤ 0x400000) (by decide)

end Sys2Proof.Machine

/-! PROOF. R80 to R90, R97, R113: placing, and the end of warps and blocks. -/

namespace Sys2Proof.Machine

open Claims

/-! ## The clusters that can take a head (R83, R84, R88 to R90) -/

section Choice

variable {s : State} {c : Ctx} {cl : Nat} {cores : List Nat} {w : Wait}

theorem mem_takers (n : Nat) : (cl, cores) ∈ s.takers c n ↔
    cl < s.nClusters ∧ s.leafPick cl c.h n [] = some cores ∧ c.h.names ≤ s.freeNames cl ∧ s.admits c cores = true := by
  have one (k : Nat) : (match s.leafPick k c.h n [] with
      | some cores => if decide (c.h.names ≤ s.freeNames k) && s.admits c cores then some (k, cores) else none
      | none => none) = some (cl, cores) ↔
      k = cl ∧ s.leafPick k c.h n [] = some cores ∧ c.h.names ≤ s.freeNames k ∧ s.admits c cores = true := by
    cases s.leafPick k c.h n [] with
    | none => simp
    | some l =>
      have same : ((k, l) = (cl, cores)) ↔ k = cl ∧ l = cores := Prod.mk_inj
      simp only [Option.ite_none_right_eq_some, Option.some.injEq, same, Bool.and_eq_true, decide_eq_true_eq]
      constructor
      · rintro ⟨⟨hn, ha⟩, rfl, rfl⟩
        exact ⟨rfl, rfl, hn, ha⟩
      · rintro ⟨rfl, rfl, hn, ha⟩
        exact ⟨⟨hn, ha⟩, rfl, rfl⟩
  simp only [State.takers, List.mem_filterMap, List.mem_range]
  constructor
  · rintro ⟨k, hk, h⟩
    obtain ⟨rfl, rest⟩ := (one k).1 h
    exact ⟨hk, rest⟩
  · rintro ⟨hk, rest⟩
    exact ⟨cl, hk, (one cl).2 ⟨rfl, rest⟩⟩

/-- The cluster of least load that can take a head gets it, on the cores that its leaf picks. -/
theorem tryHead_takes (hl : leastLoad s.load ((s.takers c w.size).map (·.1)) = some cl) (hm : (cl, cores) ∈ s.takers c w.size) :
    s.tryHead c w = s.placeWait c w cl cores := by
  have found : (s.takers c w.size).find? (fun x => x.1 = cl) = some (cl, cores) := by
    obtain ⟨x, hx⟩ : ∃ x, (s.takers c w.size).find? (fun x => x.1 = cl) = some x :=
      Option.isSome_iff_exists.1 (List.find?_isSome.2 ⟨_, hm, by simp⟩)
    obtain ⟨k, l⟩ := x
    obtain rfl : k = cl := by simpa using List.find?_some hx
    have pick := ((mem_takers w.size).1 (List.mem_of_find?_eq_some hx)).2.1
    rw [((mem_takers w.size).1 hm).2.1] at pick
    rw [hx, Option.some.inj pick]
  simp only [State.tryHead, hl, found]

theorem tryHead_none (h : s.takers c w.size = []) : s.tryHead c w = s := by
  simp only [State.tryHead, h, List.map_nil, leastLoad]

end Choice

/-! ## A pass over one running context (R82, R86, R97) -/

section Pass

variable {s : State} {c : Ctx} {w : Wait}

theorem headOf_eq (s : State) (c : Ctx) :
    s.headOf c = ((s.waits.filter fun w => decide (w.ctx = c.id) && (w.saved.isSome || w.replay)) ++ s.waits.filter fun w => w.ctx = c.id).head? := by
  have swap : (s.waits.filter fun w => decide (w.ctx = c.id) && (w.saved.isSome || w.replay)) =
      (s.waits.filter fun w => w.ctx = c.id).filter fun w => w.saved.isSome || w.replay := by
    rw [List.filter_filter]
    exact congrArg (List.filter · _) (funext fun w => Bool.and_comm ..)
  rw [swap, List.head?_append, List.head?_filter, State.headOf]
  cases (s.waits.filter fun w => w.ctx = c.id).find? fun w => w.saved.isSome || w.replay <;> rfl

theorem offerFresh_waiting (h : ∃ w ∈ s.waits, w.ctx = c.id) : s.offerFresh c = s := by
  have any : (s.waits.any fun w => w.ctx = c.id) = true := by simpa using h
  simp only [State.offerFresh, any, Bool.or_true, if_true]

theorem headOf_one (hw : s.waits = [w]) (hc : w.ctx = c.id) : s.headOf c = some w := by
  rw [headOf_eq, hw]
  cases hr : w.saved.isSome || w.replay <;> simp [hc, hr]

theorem tryHeld_waits (hc : s.ctx? w.ctx = some c) {cl : Nat} (hl : w.leaf = some cl) (hp : c.phase = .running) (hh : s.headOf c = some w) :
    s.tryHeld w = if (∀ k ∈ w.hold, s.coreRoom k c.h = true) ∧ c.h.names ≤ s.freeNames cl ∧ s.admits c w.hold = true then s.placeWait c w cl w.hold
      else s := by
  simp only [State.tryHeld, hc, hl, hp, hh, decide_true, Bool.true_and, Bool.and_eq_true, List.all_eq_true, decide_eq_true_eq, and_assoc]

/-- A pass over one running context none of whose holds can be used: its head, if it holds nothing, is offered. -/
theorem exec_schedulerPass (hs : s.ctxs = [c]) (hp : c.phase = .running) (held : ∀ w ∈ s.waits, w.hold = [] ∨ s.tryHeld w = s) (hf : (s.offerFresh c).headOf c = some w) :
    exec .schedulerPass s = .next (if w.hold = [] then (s.offerFresh c).tryHead c w else s.offerFresh c) := by
  have kept : s.waits.foldl (fun s w => if w.hold.isEmpty then s else s.tryHeld w) s = s := foldl_unchanged fun w hw => by
    obtain h | h := held w hw
    · simp [h]
    · simp [h]
  have found : s.ctx? c.id = some c := by simp [State.ctx?, hs]
  show execSchedulerPass s = _
  simp only [execSchedulerPass]
  rw [kept]
  simp only [hs, hp, List.filter_cons, List.filter_nil, decide_true, if_true, List.foldl_cons, List.foldl_nil, insCtx, found, hf,
    List.isEmpty_iff]

theorem exec_schedulerPass_head (hs : s.ctxs = [c]) (hw : s.waits = [w]) (hc : w.ctx = c.id) (hp : c.phase = .running) (hold : w.hold = []) :
    exec .schedulerPass s = .next (s.tryHead c w) := by
  have fresh : s.offerFresh c = s := offerFresh_waiting ⟨w, by simp [hw], hc⟩
  rw [exec_schedulerPass (w := w) hs hp (by simp [hw, hold]) (fresh.symm ▸ headOf_one hw hc), fresh, if_pos hold]

/-- The head of a grid's blocks not yet dispatched, as it begins to wait. -/
def freshHead (s : State) (c : Ctx) : Wait :=
  { ctx := c.id, gidx := c.cursor / c.h.gsize, lins := c.h.groupLins (c.cursor / c.h.gsize), since := s.ns, saved := none, replay := false, hold := [],
    leaf := none }

theorem offerFresh_next (hw : s.waits = []) (hsrc : c.src ≠ .leaf) (hc : c.cursor < c.h.gx * c.h.gy * c.h.gz) :
    s.offerFresh c = { s with waits := [freshHead s c] } := by
  have more : ¬c.h.total ≤ c.cursor := Nat.not_le.2 hc
  simp [State.offerFresh, hw, hsrc, more, freshHead]

theorem exec_schedulerPass_fresh (hs : s.ctxs = [c]) (hw : s.waits = []) (hp : c.phase = .running) (hsrc : c.src ≠ .leaf) (hc : c.cursor < c.h.gx * c.h.gy * c.h.gz) :
    exec .schedulerPass s = .next (({ s with waits := [freshHead s c] } : State).tryHead c (freshHead s c)) := by
  have next := offerFresh_next hw hsrc hc
  rw [exec_schedulerPass (w := freshHead s c) hs hp (by simp [hw]) (next.symm ▸ headOf_one rfl rfl), next]
  rfl

/-- The only waiting head, placed. -/
theorem placeWait_only (hw : s.waits = [w]) (cl : Nat) (cores : List Nat) : s.placeWait c w cl cores = match w.saved with
    | some v => ({ s with waits := [] } : State).placeSaved c cl v cores
    | none => if w.replay then ({ s with waits := [] } : State).placeFresh c w.gidx cl w.lins cores
        else (({ s with waits := [] } : State).placeFresh c w.gidx cl w.lins cores).onCtx c.id fun c => { c with cursor := c.cursor + w.lins.length } := by
  simp only [State.placeWait, hw, List.erase_cons_head, List.map_nil] <;> rfl

end Pass

/-! ## A fresh group (R80 to R82) -/

section Fresh

variable {s : State} {c : Ctx}

theorem placeWarp_kept (s : State) (w : Warp) (core : Nat) : (s.placeWarp w core).cgroups = s.cgroups ∧ (s.placeWarp w core).blocks = s.blocks := by
  unfold State.placeWarp
  split <;> exact ⟨rfl, rfl⟩

theorem placeWarps_kept (ws : List Warp) (core : Nat) (s : State) : (ws.foldl (fun s w => s.placeWarp w core) s).cgroups = s.cgroups ∧
    (ws.foldl (fun s w => s.placeWarp w core) s).blocks = s.blocks :=
  ⟨foldl_keeps State.cgroups (fun s w => (placeWarp_kept s w core).1) ws s, foldl_keeps State.blocks (fun s w => (placeWarp_kept s w core).2) ws s⟩

theorem freshRo_kept (s : State) (ctx core : Nat) : (s.freshRo ctx core).cgroups = s.cgroups ∧ (s.freshRo ctx core).blocks = s.blocks := by
  unfold State.freshRo
  split
  · split <;> exact ⟨rfl, rfl⟩
  · exact ⟨rfl, rfl⟩

theorem placeBlock_adds (s : State) (c : Ctx) (b : Block) (ws : List Warp) (core : Nat) :
    (s.placeBlock c b ws core).cgroups = s.cgroups ∧ (s.placeBlock c b ws core).blocks = s.blocks ++ [{ b with core := core }] := by
  obtain ⟨groups, blocks⟩ := freshRo_kept s c.id core
  unfold State.placeBlock
  constructor
  · rw [(placeWarps_kept ws core _).1]
    exact groups
  · rw [(placeWarps_kept ws core _).2]
    exact congrArg (· ++ [_]) blocks

/-- A fresh warp of a block, with its identity taken. -/
def nextWarp (c : Ctx) (blk : Nat) (p : List Warp × State) (wi : Nat) : List Warp × State := (p.1 ++ [freshWarp c p.2.nextId blk wi], p.2.fresh.2)

def freshWarps (c : Ctx) (blk : Nat) (s : State) : List Warp × State := (List.range c.h.warps).foldl (nextWarp c blk) ([], s)

theorem freshWarps_kept (c : Ctx) (blk : Nat) (s : State) : (freshWarps c blk s).2.cgroups = s.cgroups ∧ (freshWarps c blk s).2.blocks = s.blocks :=
  ⟨foldl_keeps (f := nextWarp c blk) (fun p => p.2.cgroups) (fun _ _ => rfl) _ ([], s), foldl_keeps (f := nextWarp c blk) (fun p => p.2.blocks) (fun _ _ => rfl) _ ([], s)⟩

/-- One block of a fresh group placed, with all its warps. -/
def placeOne (c : Ctx) (cg : Nat) (s : State) (x : Nat × Nat) : State :=
  let ws := freshWarps c s.nextId s.fresh.2
  ws.2.placeBlock c (freshBlock c s.nextId x.1 (x.1 % c.h.gsize) cg) ws.1 x.2

theorem placeFresh_eq (s : State) (c : Ctx) (g cl : Nat) (lins cores : List Nat) : s.placeFresh c g cl lins cores =
    (lins.zip cores).foldl (placeOne c s.nextId)
      { s with nextId := s.nextId + 1, cgroups := s.cgroups ++ [{ freshGroup c s.nextId g lins.length with cluster := cl }] } := rfl

theorem placeOne_adds (cg : Nat) (s : State) (x : Nat × Nat) : (placeOne c cg s x).cgroups = s.cgroups ∧
    (placeOne c cg s x).blocks = s.blocks ++ [{ freshBlock c s.nextId x.1 (x.1 % c.h.gsize) cg with core := x.2 }] := by
  obtain ⟨groups, blocks⟩ := freshWarps_kept c s.nextId s.fresh.2
  obtain ⟨groups', blocks'⟩ := placeBlock_adds (freshWarps c s.nextId s.fresh.2).2 c (freshBlock c s.nextId x.1 (x.1 % c.h.gsize) cg)
    (freshWarps c s.nextId s.fresh.2).1 x.2
  exact ⟨groups'.trans groups, blocks'.trans (congrArg (· ++ [_]) blocks)⟩

/-- Which block of its grid and group a block is, and where it stands. -/
def standing (b : Block) : Nat × Nat × Nat × Nat × Nat := (b.lin, b.pos, b.core, b.warpsLeft, b.cg)

theorem placeAll_adds (cg : Nat) (l : List (Nat × Nat)) (s : State) : (l.foldl (placeOne c cg) s).cgroups = s.cgroups ∧ ∃ bs,
    (l.foldl (placeOne c cg) s).blocks = s.blocks ++ bs ∧ bs.map standing = l.map fun x => (x.1, x.1 % c.h.gsize, x.2, c.h.warps, cg) := by
  induction l generalizing s with
  | nil => exact ⟨rfl, [], (List.append_nil _).symm, rfl⟩
  | cons x l ih =>
    obtain ⟨groups, blocks⟩ := placeOne_adds (c := c) cg s x
    obtain ⟨groups', bs, blocks', places⟩ := ih (placeOne c cg s x)
    refine ⟨groups'.trans groups, { freshBlock c s.nextId x.1 (x.1 % c.h.gsize) cg with core := x.2 } :: bs, ?_, congrArg (List.cons (x.1, x.1 % c.h.gsize, x.2, c.h.warps, cg)) places⟩
    rw [List.foldl_cons, blocks', blocks, List.append_assoc]
    rfl

end Fresh

/-! ## Holds (R86) and bandwidth windows (R89) -/

section Holds

variable {s : State} {c : Ctx} {w : Wait} {n cl : Nat} {cores : List Nat}

theorem exec_headHoldTimeout (hn : s.waits[n]? = some w) (hold : w.hold = []) (due : w.since + 2000000 ≤ s.ns) (hc : s.ctx? w.ctx = some c) (hp : c.phase = .running)
    (hh : s.headOf c = some w) (hfits : ∀ k, k < s.nClusters → s.leafPick k c.h w.size [] = none)
    (hl : leastLoad s.load ((List.range s.nClusters).filter fun k => (s.holdPick k w.size []).isSome) = some cl) (hk : s.holdPick cl w.size [] = some cores) :
    exec (.headHoldTimeout n) s = .next { s with waits := s.waits.map fun x => if x = w then { x with hold := cores, leaf := some cl } else x } := by
  have nowhere : s.fitsSome c w = false := by
    rw [State.fitsSome, List.any_eq_false]
    intro k hk
    simp [hfits k (List.mem_range.1 hk)]
  show execHeadHoldTimeout n s = _
  simp [execHeadHoldTimeout, hn, hc, hold, due, hp, hh, nowhere, hl, hk]

end Holds

/-- A function that keeps the default, applied to canonical data, is applied at every key. -/
theorem sget_smap_default {α : Type} [DecidableEq α] {d : α} {f : α → α} (hf : f d = d) (k : Nat) {lo : Nat} {m : Sparse α} (hc : scanonFrom d lo m) :
    sget d k (smap d f m) = f (sget d k m) := by
  induction m generalizing lo with
  | nil => exact hf.symm
  | cons x r ih =>
    obtain ⟨j, v⟩ := x
    have rest : scanonFrom d (j + 1) r := by
      simp only [scanonFrom, Bool.and_eq_true] at hc
      exact hc.2
    rw [smap, sget]
    by_cases hj : j = k
    · subst hj
      split
      next gone => rw [if_pos rfl, gone, sget_below (smap_canonFrom f rest) (Nat.lt_succ_self j)]
      next => rw [sget, if_pos rfl, if_pos rfl]
    · rw [if_neg hj]
      split
      · exact ih rest
      · rw [sget, if_neg hj, ih rest]

/-! ## The end of warps and blocks (R113) -/

section Ends

variable {s : State} {n : Nat}

theorem removingCtx_false {i : Nat} (h : staying s i) : s.removingCtx i = false := by
  unfold State.removingCtx
  cases hc : s.ctx? i with
  | none => rfl
  | some c =>
    dsimp only
    split
    next a b d hp => exact (h c a b d hc hp).elim
    next => rfl

theorem exec_warpEnd {w : Warp} (hn : s.warps[n]? = some w) (he : w.allExited = true) (hp : s.pending w = []) (ht : w.traps = []) (hs : staying s w.ctx) :
    exec (.warpEnd n) s = .next (({ s with warps := dropAt n s.warps }).onBlock w.blk fun b => { b with warpsLeft := b.warpsLeft - 1 }) := by
  show execWarpEnd n s = _
  simp [execWarpEnd, hn, he, hp, ht, removingCtx_false hs]

theorem exec_blockEnd {b : Block} (hn : s.blocks[n]? = some b) (hw : b.warpsLeft = 0) (hb : s.blockBusy b.id = false) (hs : staying s b.ctx) :
    exec (.blockEnd n) s = .next (s.endBlock b) := by
  show execBlockEnd n s = _
  simp [execBlockEnd, hn, hw, hb, removingCtx_false hs]

variable {b : Block} {c : Ctx} {g : CGroup}

/-- A group one of whose blocks has ended. -/
def CGroup.oneFewer (g : CGroup) : CGroup := { g with left := g.left - 1 }

/-- A block's end noted by its grid, its context and its group. -/
def blockCounted (s : State) (b : Block) (again : Bool) : State :=
  ((match s.ctx? b.ctx with
    | some c => s.onGrid c.grid fun g => { g with exited := insNat b.lin g.exited, pendingReplay := if again then g.pendingReplay else g.pendingReplay.erase b.lin,
                                                  unrep := if b.voided then insNat b.lin g.unrep else g.unrep }
    | none => s).onCtx b.ctx fun c => { c with done := c.done + 1 }).onCGroup b.cg CGroup.oneFewer

/-- A group whose last block has ended. -/
def CGroup.spent (g : CGroup) (i : Nat) : Bool := decide (g.id = i) && decide (g.left = 0)

/-- A block's resources freed, and with the last of a group the group. -/
def blockFreed (u : State) (b : Block) : State :=
  { u with blocks := u.blocks.filter fun x => x.id ≠ b.id, cgroups := u.cgroups.filter fun g => !g.spent b.cg }

theorem endBlock_stays {u : State} (hu : blockCounted s b ((s.cgroup? b.cg).elim false CGroup.again) = u)
    (h : ∀ g, (u.cgroups.filter fun g => g.spent b.cg).head? = some g → g.again = false) : s.endBlock b = blockFreed u b := by
  have ends : s.endBlock b = match (u.cgroups.filter fun g => g.spent b.cg).head? with
      | some g => if g.again then ((blockFreed u b).noteReplay g.ctx (((u.ctx? g.ctx).map fun c => c.h.groupLins g.gidx).getD [])).replayWait g.ctx g.gidx
          (((u.ctx? g.ctx).map fun c => c.h.groupLins g.gidx).getD []) else blockFreed u b
      | none => blockFreed u b := by
    subst hu
    unfold State.endBlock
    cases s.cgroup? b.cg <;> rfl
  rw [ends]
  split
  next g hg => rw [h g hg, if_neg Bool.false_ne_true]
  next => rfl

/-- The groups once a block of one has ended: it counts one block fewer, and leaves with its last. -/
theorem cgroups_ended {l : List CGroup} (only : ∀ h ∈ l, h.id = g.id → h = g) (hl : 0 < g.left) :
    (l.map fun h => if h.id = g.id then h.oneFewer else h).filter (fun h => !h.spent g.id) =
      if g.left = 1 then l.filter fun h => h.id ≠ g.id else l.map fun h => if h.id = g.id then h.oneFewer else h := by
  by_cases last : g.left = 1
  · have others : ∀ h ∈ l, (!(if h.id = g.id then h.oneFewer else h).spent g.id) = decide (h.id ≠ g.id) := fun h hm => by
      by_cases hi : h.id = g.id
      · obtain rfl := only h hm hi
        simp [CGroup.oneFewer, CGroup.spent, last]
      · simp [CGroup.spent, hi]
    rw [if_pos last, List.filter_map, List.filter_congr (q := fun h => decide (h.id ≠ g.id)) others, List.map_congr_left (g := id), List.map_id]
    intro h hm
    exact if_neg (by simpa using (List.mem_filter.1 hm).2)
  · rw [if_neg last, List.filter_eq_self]
    intro h hm
    obtain ⟨k, hk, rfl⟩ := List.mem_map.1 hm
    by_cases hi : k.id = g.id
    · obtain rfl := only k hk hi
      have more : k.left - 1 ≠ 0 := by omega
      simp [CGroup.oneFewer, CGroup.spent, more]
    · simp [CGroup.spent, hi]

/-- What the end of a block leaves, with the groups that are then left (R113). -/
def blockEnds (s : State) (b : Block) (c : Ctx) (l : List CGroup) : State := { s with
  grids := s.grids.map fun x => if x.id = c.grid then { x with exited := insNat b.lin x.exited, pendingReplay := x.pendingReplay.erase b.lin,
                                                               unrep := if b.voided then insNat b.lin x.unrep else x.unrep } else x
  ctxs := s.ctxs.map fun x => if x.id = b.ctx then { x with done := x.done + 1 } else x
  blocks := s.blocks.filter fun x => x.id ≠ b.id
  cgroups := l }

/-- A block of a group that is not to start again ends. -/
theorem endBlock_eq (hc : s.ctx? b.ctx = some c) (hg : s.cgroup? b.cg = some g) (hagain : g.again = false) (only : ∀ h ∈ s.cgroups, h.id = g.id → h = g)
    (hl : 0 < g.left) : s.endBlock b = blockEnds s b c
      (if g.left = 1 then s.cgroups.filter fun h => h.id ≠ g.id else s.cgroups.map fun h => if h.id = g.id then h.oneFewer else h) := by
  have hid : g.id = b.cg := by simpa using List.find?_some hg
  have counted : blockCounted s b ((s.cgroup? b.cg).elim false CGroup.again) =
      { blockEnds s b c (s.cgroups.map fun h => if h.id = g.id then h.oneFewer else h) with blocks := s.blocks } := by
    rw [hg, hid, blockCounted, hc, Option.elim_some, hagain]
    rfl
  rw [endBlock_stays counted, ← cgroups_ended only hl, hid]
  · rfl
  · intro h hh
    obtain ⟨hm, ended⟩ := List.mem_filter.1 (List.mem_of_head? hh)
    obtain ⟨k, hk, rfl⟩ := List.mem_map.1 hm
    by_cases hkg : k.id = g.id
    · obtain rfl := only k hk hkg
      rw [if_pos rfl]
      exact hagain
    · simp [CGroup.spent, hkg, ← hid] at ended

end Ends

/-- Settles O51, clause by clause: a pass of the scheduler, what waits and what is held, a fresh group, a bandwidth window, and the ends of warps and blocks. -/
theorem placing : Obligations.Placing := by
  unfold Obligations.Placing
  refine ⟨?fresh, ?head, ?waiting, ?held, ?takers, ?group, ?hold, ?window, ?warp, ?block⟩
  case fresh =>
    intro s c hs hw hp hsrc hc g lins u
    have pass : exec .schedulerPass s = .next (u.tryHead c (freshHead s c)) := exec_schedulerPass_fresh hs hw hp hsrc hc
    have again : ({ u with waits := [] } : State) = s := hw ▸ rfl
    refine ⟨fun none => ?_, fun cl cores hl hm => ?_⟩
    · rw [pass, tryHead_none none]
    · rw [pass, tryHead_takes hl hm, placeWait_only rfl, again]
      rfl
  case head => exact fun s c => ⟨headOf_eq s c, offerFresh_waiting⟩
  case waiting =>
    intro s c w hs hw hc hp done
    have pass := exec_schedulerPass_head hs hw hc hp
    refine ⟨fun hold none => ?_, fun cl cores hold hl hm => ?_, fun cl hold hl room => ?_⟩
    · rw [pass hold, tryHead_none none]
    · rw [pass hold, tryHead_takes hl hm, placeWait_only hw] <;> rfl
    · have head : s.headOf c = some w := headOf_one hw hc
      have fresh : s.offerFresh c = s := offerFresh_waiting ⟨w, by simp [hw], hc⟩
      have stays : s.tryHeld w = s := by
        rw [tryHeld_waits (by simp [State.ctx?, hs, hc]) hl hp head, if_neg room]
      rw [exec_schedulerPass hs hp (by simp [hw, stays]) (fresh.symm ▸ head), fresh, if_neg hold]
  case held =>
    intro s w c cl hc hl hp hh room names admits
    rw [tryHeld_waits hc hl hp hh, if_pos ⟨room, names, admits⟩]
  case takers => exact fun s c n cl cores => mem_takers n
  case group =>
    intro s c g cl lins cores t
    obtain ⟨groups, bs, blocks, places⟩ := placeAll_adds (c := c) s.nextId (lins.zip cores)
      { s with nextId := s.nextId + 1, cgroups := s.cgroups ++ [{ freshGroup c s.nextId g lins.length with cluster := cl }] }
    refine ⟨groups, ?_⟩
    have added : t.blocks = s.blocks ++ bs := blocks
    rw [added, List.drop_left]
    exact places
  case hold => exact fun s n w c cl cores hn hold due hc hp hh hfits hl hk => exec_headHoldTimeout hn hold due hc hp hh hfits hl hk
  case window =>
    intro s hw hg last
    refine ⟨s.rollWindow, rfl, ?_, fun g => ?_⟩
    · rw [rollWindow_new hw]
      rfl
    · rw [rollWindow_new hw]
      exact sget_smap_default (f := rolledGrp s) (by simp [rolledGrp, Grp.init]) g hg
  case warp => exact fun s n w hn he hp ht hs => exec_warpEnd hn he hp ht hs
  case block =>
    intro s n b c g hn hw hb hs hc hg again only hl
    rw [exec_blockEnd hn hw hb hs, endBlock_eq hc hg again only hl]
    rfl

end Sys2Proof.Machine

/-! PROOF. R89, R192 to R199, R219, R319, R338: the copy engine. -/

namespace Sys2Proof.Machine

open Claims

/-! ## The words of a copy (R193, R194, R219) -/

section Words

theorem mem_cpyWords (sc : Bool) (d : List Word) (x : CWord) : x ∈ cpyWords sc d ↔
    ∃ i0 i1 i2 i3, i0 < dLo d 4 / 4 ∧ i1 < dHi d 4 ∧ i2 < dLo d 5 ∧ i3 < dHi d 5 ∧
      let n := i0 + dLo d 4 / 4 * (i1 + dHi d 4 * (i2 + dLo d 5 * i3))
      let st := 4 * i0 + i1 * dw d 6 + i2 * (256 * dLo d 7) + i3 * (256 * dHi d 7)
      x = { n := n, src := some (dAddr d 0 + if sc then 4 * n else st), dst := dAddr d 2 + if sc then st else 4 * n } := by
  simp only [cpyWords, List.mem_flatMap, List.mem_map, List.mem_range]
  constructor
  · rintro ⟨i3, h3, i2, h2, i1, h1, i0, h0, rfl⟩
    exact ⟨i0, i1, i2, i3, h0, h1, h2, h3, by cases sc <;> rfl⟩
  · rintro ⟨i0, i1, i2, i3, h0, h1, h2, h3, rfl⟩
    exact ⟨i3, h3, i2, h2, i1, h1, i0, h0, by cases sc <;> rfl⟩

theorem mem_btWords (sc : Bool) (d : List Word) (i2 b : Nat) (x : CWord) : x ∈ btWords sc d i2 b ↔
    (sc = false ∨ b ≠ 0) ∧ ∃ i0 i1, i0 < dLo d 4 / 4 ∧ i1 < dHi d 4 ∧
      let n := i0 + dLo d 4 / 4 * (i1 + dHi d 4 * i2)
      let blk := b + 4 * i0 + i1 * dw d 6
      x = { n := n, src := if sc then some (dAddr d 2 + 4 * n) else if b = 0 then none else some blk, dst := if sc then blk else dAddr d 2 + 4 * n } := by
  rw [btWords]
  by_cases hole : sc = true ∧ b = 0
  · simp [hole]
  · have some : sc = false ∨ b ≠ 0 := by cases sc <;> simp_all
    have whole : (sc && decide (b = 0)) = false := by cases sc <;> simp_all
    simp only [whole, Bool.false_eq_true, if_false, some, true_and, List.mem_flatMap, List.mem_map, List.mem_range]
    constructor
    · rintro ⟨i1, h1, i0, h0, rfl⟩
      exact ⟨i0, i1, h0, h1, by cases sc <;> rfl⟩
    · rintro ⟨i0, i1, h0, h1, rfl⟩
      exact ⟨i1, h1, i0, h0, by cases sc <;> rfl⟩

/-- The words that stand `k` words from an address, for every `k` below a count. -/
theorem mem_rangeWords {c a n : Nat} {x : CWord} : (x ∈ (List.range c).map fun k => ({ n := n + k, src := none, dst := a + 4 * k } : CWord)) ↔
    x.src = none ∧ ∃ k, k < c ∧ x.n = n + k ∧ x.dst = a + 4 * k := by
  obtain ⟨n', src, dst⟩ := x
  simp only [List.mem_map, List.mem_range, CWord.mk.injEq]
  constructor
  · rintro ⟨k, hk, rfl, rfl, rfl⟩
    exact ⟨rfl, k, hk, rfl, rfl⟩
  · rintro ⟨rfl, k, hk, rfl, rfl⟩
    exact ⟨k, hk, rfl, rfl, rfl⟩

theorem rowAddr_eq_some {t : List Byte} {r a : Nat} {e : Option Nat} (hn : tTable t = 0 → e = none) (hs : tTable t ≠ 0 → ∃ y, e = some y) :
    rowAddr t r e = some a ↔ (e = none ∧ a = (tBase t + r * tStride t) % 2 ^ 64) ∨
      ∃ y, e = some y ∧ y ≠ 0 ∧ a = (y + tBase t + r % tBr t * tStride t) % 2 ^ 64 := by
  by_cases h : tTable t = 0
  · simp [rowAddr, h, hn h, eq_comm]
  · obtain ⟨y, rfl⟩ := hs h
    cases y <;> simp [rowAddr, h, eq_comm]

theorem mem_tstRow {t : List Byte} {r : Nat} {e : Option Nat} {x : CWord} : x ∈ tstRow t r e ↔ x.src = none ∧
    ((∃ k, k < tBpr t / 4 ∧ x.n = 64 * r + k ∧ ∃ a, rowAddr t r e = some a ∧ x.dst = a + 4 * k) ∨
      (tScaled t = true ∧ ∃ k, k < (tBlocks t).1 / 2 ∧ x.n = 8192 + 8 * r + k ∧ x.dst = headAddr t r + 4 * k)) := by
  have heads : (x ∈ if tScaled t = true then (List.range ((tBlocks t).1 / 2)).map fun k => ({ n := 8192 + 8 * r + k, src := none, dst := headAddr t r + 4 * k } : CWord)
      else []) ↔ x.src = none ∧ tScaled t = true ∧ ∃ k, k < (tBlocks t).1 / 2 ∧ x.n = 8192 + 8 * r + k ∧ x.dst = headAddr t r + 4 * k := by
    by_cases h : tScaled t = true
    · rw [if_pos h, mem_rangeWords]
      simp [h]
    · simp [h]
  rw [tstRow, List.mem_append, heads, and_or_left]
  cases rowAddr t r e with
  | none => simp
  | some a => simp [mem_rangeWords]

theorem tstWords : TstWords := by
  intro t r e x _ hn hs
  have row (k : Nat) : (∃ a, rowAddr t r e = some a ∧ x.dst = a + 4 * k) ↔ (e = none ∧ x.dst = (tBase t + r * tStride t) % 2 ^ 64 + 4 * k) ∨
      ∃ y, e = some y ∧ y ≠ 0 ∧ x.dst = (y + tBase t + r % tBr t * tStride t) % 2 ^ 64 + 4 * k := by
    simp only [rowAddr_eq_some hn hs]
    constructor
    · rintro ⟨a, ⟨he, rfl⟩ | ⟨y, he, hy, rfl⟩, hx⟩
      · exact .inl ⟨he, hx⟩
      · exact .inr ⟨y, he, hy, hx⟩
    · rintro (⟨he, hx⟩ | ⟨y, he, hy, hx⟩)
      · exact ⟨_, .inl ⟨he, rfl⟩, hx⟩
      · exact ⟨_, .inr ⟨y, he, hy, rfl⟩, hx⟩
  simp only [mem_tstRow, row, headAddr]

end Words

/-! ## One word (R193, R194, R219, R319, R338) -/

section Moves

variable {s : State} {c : Copy} {x : CWord} {b : List Byte}

theorem readWord_ok_iff (o : Origin) : s.readWord o x = .ok b ↔ brings s o x b := by
  unfold State.readWord brings
  cases x.src with
  | none => simp [eq_comm]
  | some a =>
    by_cases ha : 2 ^ 63 ≤ a
    · simp only [State.readSide, isScratch, ha, decide_true, if_true]
      cases s.scratchGet o.blk (a - 2 ^ 63) 4 <;> simp
    · simp only [State.readSide, isScratch, ha, decide_false, Bool.false_eq_true, if_false]

theorem wordBytes_ok_iff (hr : c.ready = true) : s.wordBytes c x = .ok b ↔ gives s c x b := by
  have noted (h : c.held x.n = (c.snap.find? fun y => y.1 = 2 ^ 65 + x.n).map (·.2)) :
      s.wordBytes c x = .ok b ↔ (c.snap.find? fun y => y.1 = 2 ^ 65 + x.n).elim (brings s c.org x b) fun y => b = y.2 := by
    rw [State.wordBytes, h]
    cases c.snap.find? fun y => y.1 = 2 ^ 65 + x.n with
    | none => exact readWord_ok_iff c.org
    | some y => simp [eq_comm]
  unfold gives
  cases hk : c.k with
  | cpy sc d =>
    rw [noted (by simp only [Copy.held, hk]; rfl)]
    cases c.snap.find? fun y => y.1 = 2 ^ 65 + x.n <;> rfl
  | cpybt sc d =>
    rw [noted (by simp only [Copy.held, hk]; rfl)]
    cases c.snap.find? fun y => y.1 = 2 ^ 65 + x.n <;> rfl
  | tst t m =>
    cases m with
    | none => simp [Copy.ready, hk] at hr
    | some m => simp [State.wordBytes, Copy.held, hk, eq_comm]

theorem moveWord_bytes (c : Copy) (msg : Bool) (x : CWord) : (∀ b, s.wordBytes c x = .ok b → s.moveWord c msg x = s.putWord c msg x b) ∧
    ∀ e, s.wordBytes c x = .error e → s.moveWord c msg x = .error e :=
  ⟨fun b h => by simp only [State.moveWord, h], fun e h => by simp only [State.moveWord, h]⟩

theorem putWord_tst (msg : Bool) (ht : c.isTst = true) (hx : 2 ^ 52 ≤ x.dst) (b : List Byte) : s.putWord c msg x b = .error { cause := 5, va := x.dst } := by
  rw [State.putWord, ht, decide_eq_true hx, Bool.and_true, if_pos rfl]
  rfl

theorem putWord_scratch (msg : Bool) (ht : c.isTst = false) (hx : 2 ^ 63 ≤ x.dst) (b : List Byte) :
    s.putWord c msg x b = .ok (s.onBlock c.org.blk fun k => k.scratchPut (x.dst - 2 ^ 63) b) := by
  have scratch : isScratch x.dst = true := decide_eq_true hx
  rw [State.putWord, ht, Bool.false_and, if_neg Bool.false_ne_true, State.writeSide, scratch, if_pos rfl]

/-- Where a word goes by the group's tables, and what comes of it there. -/
theorem putWord_global (msg : Bool) (ht : c.isTst = false ∨ x.dst < 2 ^ 52) (hx : x.dst < 2 ^ 63) (b : List Byte) :
    (∀ e, s.place c.org.group x.dst (.copy true) = .error e → s.putWord c msg x b = .error e) ∧
    ∀ p, s.place c.org.group x.dst (.copy true) = .ok p → s.putWord c msg x b =
      if tagPlace p then (if msg = false then .error { cause := fREFUSED, va := x.dst } else if s.linkDead p then .error { cause := fLINK, va := x.dst } else .ok s)
      else match s.writeTgt p b c.org.group false with
        | .ok u => .ok u
        | .error k => .error { cause := k, va := x.dst } := by
  have within : (c.isTst && decide (2 ^ 52 ≤ x.dst)) = false := by
    obtain h | h := ht
    · rw [h, Bool.false_and]
    · rw [decide_eq_false (Nat.not_le.2 h), Bool.and_false]
  have global : isScratch x.dst = false := decide_eq_false (Nat.not_le.2 hx)
  refine ⟨fun e h => ?_, fun p h => ?_⟩
  · simp only [State.putWord, within, Bool.false_eq_true, if_false, State.writeSide, global, h]
  · simp only [State.putWord, within, Bool.false_eq_true, if_false, State.writeSide, global, h]
    cases msg <;> rfl

theorem tagPlace_fab (node pa : Nat) : tagPlace (.fab node pa) = true ↔ 0x30000000000 ≤ pa ∧ pa < 0x30001000000 := by
  rw [tagPlace, Bool.and_eq_true, decide_eq_true_eq, decide_eq_true_eq]
  rfl

theorem tagPlace_eq_false {p : Tgt} (h : ∀ node pa, p = .fab node pa → pa < 0x30000000000 ∨ 0x30001000000 ≤ pa) : tagPlace p = false := by
  cases p with
  | fab node pa =>
    refine Bool.eq_false_iff.2 fun tag => ?_
    have := (tagPlace_fab node pa).1 tag
    have := h node pa rfl
    omega
  | dev pa => rfl
  | host pa => rfl

theorem endWord_done {msg : Bool} (h : c.done x.n = true) : s.endWord c msg x = .ok (s, c) := by simp only [State.endWord, h, if_true]

theorem endWord_alone {msg : Bool} (h : c.done x.n = false) (hl : s.badAt c x = false ∨ c.lineWords (x.dst / 256) = none) :
    (∀ u, s.moveWord c msg x = .ok u → s.endWord c msg x = .ok (u, { c with snap := (x.n, []) :: c.snap })) ∧
    ∀ e, s.moveWord c msg x = .error e → s.endWord c msg x = .error e := by
  have alone : (if s.badAt c x = true then c.lineWords (x.dst / 256) else none) = none := by
    obtain h | h := hl <;> simp [h]
  refine ⟨fun u hu => ?_, fun e he => ?_⟩
  · simp only [State.endWord, h, Bool.false_eq_true, if_false, alone, hu]
    rfl
  · simp only [State.endWord, h, Bool.false_eq_true, if_false, alone, he]

theorem endWord_line {msg : Bool} {l : List CWord} (h : c.done x.n = false) (hb : s.badAt c x = true) (hl : c.lineWords (x.dst / 256) = some l) :
    (∀ e, l.mapM (s.wordBytes c) = .error e → s.endWord c msg x = .error e) ∧
    ∀ bs, l.mapM (s.wordBytes c) = .ok bs →
      (∀ u, s.writeSide c.org false (256 * (x.dst / 256)) bs.flatten = .ok u → s.endWord c msg x = .ok (u, { c with snap := l.map (fun y => (y.n, [])) ++ c.snap })) ∧
      ∀ e, s.writeSide c.org false (256 * (x.dst / 256)) bs.flatten = .error e → s.endWord c msg x = .error e := by
  refine ⟨fun e he => ?_, fun bs hbs => ⟨fun u hu => ?_, fun e he => ?_⟩⟩
  · simp only [State.endWord, h, Bool.false_eq_true, if_false, hb, if_true, hl, State.moveWhole, he]
  · simp only [State.endWord, h, Bool.false_eq_true, if_false, hb, if_true, hl, State.moveWhole, hbs, hu, Copy.finish, List.map_map]
    rfl
  · simp only [State.endWord, h, Bool.false_eq_true, if_false, hb, if_true, hl, State.moveWhole, hbs, he]

theorem badAt_iff : s.badAt c x = true ↔ x.dst < 2 ^ 63 ∧ ∃ pa, s.place c.org.group x.dst (.copy true) = .ok (.dev pa) ∧ pa / 256 ∈ s.badLines := by
  unfold State.badAt
  by_cases hx : 2 ^ 63 ≤ x.dst
  · have scratch : isScratch x.dst = true := decide_eq_true hx
    rw [scratch, if_pos rfl]
    exact iff_of_false Bool.false_ne_true fun h => Nat.not_lt.2 hx h.1
  · have global : isScratch x.dst = false := decide_eq_false hx
    rw [global, if_neg Bool.false_ne_true, and_iff_right (Nat.not_le.1 hx)]
    split
    next pa h => simp [h]
    next h => exact iff_of_false Bool.false_ne_true fun ⟨pa, hp, _⟩ => h pa hp

/-- A map that loses nothing has a value at every place. -/
theorem getElem?_filterMap_full {α β : Type} {f : α → Option β} {l : List α} (h : (l.filterMap f).length = l.length) (k : Nat) :
    (l.filterMap f)[k]? = l[k]?.bind f := by
  induction l generalizing k with
  | nil => rfl
  | cons a l ih =>
    cases ha : f a with
    | none =>
      rw [List.filterMap_cons_none ha, List.length_cons] at h
      have := List.length_filterMap_le f l
      omega
    | some b =>
      rw [List.filterMap_cons_some ha] at h ⊢
      cases k with
      | zero => simp [ha]
      | succ k => exact ih (by simpa using h) k

theorem lineWords_whole {line : Nat} {l : List CWord} (h : c.lineWords line = some l) :
    l.length = 64 ∧ ∀ k x, l[k]? = some x → x ∈ c.words ∧ x.dst = 256 * line + 4 * k ∧ c.done x.n = false := by
  simp only [Copy.lineWords, Option.ite_none_right_eq_some, Option.some.injEq, Bool.and_eq_true, decide_eq_true_eq, List.all_eq_true, Bool.not_eq_true'] at h
  obtain ⟨⟨len, fresh⟩, rfl⟩ := h
  refine ⟨len, fun k x hx => ?_⟩
  have not_done := fresh x (List.mem_of_getElem? hx)
  rw [getElem?_filterMap_full (by simpa using len)] at hx
  obtain ⟨j, hj, found⟩ := Option.bind_eq_some_iff.1 hx
  obtain ⟨_, rfl⟩ := List.getElem?_eq_some_iff.1 hj
  rw [List.getElem_range] at found
  exact ⟨List.mem_of_find?_eq_some found, by simpa using List.find?_some found, not_done⟩

/-- A map that always has a value loses nothing. -/
theorem length_filterMap_full {α β : Type} {f : α → Option β} {l : List α} (h : ∀ a ∈ l, (f a).isSome = true) : (l.filterMap f).length = l.length := by
  rw [List.length_filterMap_eq_countP, List.countP_eq_length.2 h]

theorem lineWords_isSome {line : Nat} (hw : ∀ k, k < 64 → ∃ x ∈ c.words, x.dst = 256 * line + 4 * k) (hd : ∀ x ∈ c.words, x.dst / 256 = line → c.done x.n = false) :
    (c.lineWords line).isSome = true := by
  have found (k : Nat) (hk : k ∈ List.range 64) : (c.words.find? fun x => x.dst = 256 * line + 4 * k).isSome = true := by
    simpa using hw k (List.mem_range.1 hk)
  have fresh (x : CWord) (hx : x ∈ (List.range 64).filterMap fun k => c.words.find? fun x => x.dst = 256 * line + 4 * k) : c.done x.n = false := by
    obtain ⟨k, hk, hx⟩ := List.mem_filterMap.1 hx
    have here : x.dst = 256 * line + 4 * k := by simpa using List.find?_some hx
    have := List.mem_range.1 hk
    exact hd x (List.mem_of_find?_eq_some hx) (by omega)
  have whole : (decide (((List.range 64).filterMap fun k => c.words.find? fun x => x.dst = 256 * line + 4 * k).length = 64) &&
      ((List.range 64).filterMap fun k => c.words.find? fun x => x.dst = 256 * line + 4 * k).all fun x => !c.done x.n) = true := by
    rw [Bool.and_eq_true, decide_eq_true_eq, length_filterMap_full found, List.length_range, List.all_eq_true]
    exact ⟨rfl, fun x hx => by rw [fresh x hx]; rfl⟩
  rw [Copy.lineWords]
  exact (congrArg Option.isSome (if_pos whole)).trans rfl

theorem wordMoves : WordMoves := by
  refine ⟨fun s o x b => readWord_ok_iff o, fun s c x b hr => wordBytes_ok_iff hr, fun s c msg x => moveWord_bytes c msg x, fun s c msg x b =>
    ⟨fun ht hx => putWord_tst msg ht hx b, fun ht hx => putWord_scratch msg ht hx b, fun ht hx => ⟨(putWord_global msg ht hx b).1, fun p hp => ⟨fun node pa he ht₁ ht₂ => ?_,
      fun he => ⟨fun u hu => ?_, fun k hk => ?_⟩⟩⟩⟩, fun s c msg x => ⟨endWord_done, endWord_alone, fun l => endWord_line⟩, fun s c x => badAt_iff,
    fun c line => ⟨fun l => lineWords_whole, lineWords_isSome⟩⟩
  all_goals rw [(putWord_global msg ht hx b).2 p hp]
  · subst he
    rw [if_pos ((tagPlace_fab node pa).2 ⟨ht₁, ht₂⟩)]
    simp only [State.linkDead, List.contains_iff_mem]
    rfl
  · rw [tagPlace_eq_false he, if_neg Bool.false_ne_true, hu]
  · rw [tagPlace_eq_false he, if_neg Bool.false_ne_true, hk]

end Moves

/-! ## What is charged (R89, R196) -/

section Sectors

theorem mem_sectorsOf {a n k : Nat} : k ∈ sectorsOf a n ↔ 0 < n ∧ a / 64 ≤ k ∧ k ≤ (a + n - 1) / 64 := by
  rw [sectorsOf]
  split
  next h => simp [h]
  next h =>
    simp only [List.mem_map, List.mem_range]
    constructor
    · rintro ⟨j, hj, rfl⟩
      have := Nat.div_le_div_right (c := 64) (show a ≤ a + n - 1 by omega)
      omega
    · rintro ⟨_, hl, hr⟩
      exact ⟨k - a / 64, by omega, by omega⟩

theorem mem_vaSectors {ps : List (Nat × Nat)} {k : Nat} : k ∈ vaSectors ps ↔ touches (· ∈ ps) k := by
  rw [vaSectors, mem_foldl_insNat, List.mem_flatMap]
  simp only [List.not_mem_nil, or_false, touches]
  refine exists_congr fun p => and_congr_right fun _ => ?_
  by_cases h : 2 ^ 63 ≤ p.1
  · have scratch : isScratch p.1 = true := decide_eq_true h
    rw [scratch, if_pos rfl]
    exact iff_of_false List.not_mem_nil fun hp => Nat.not_lt.2 h hp.1
  · have global : isScratch p.1 = false := decide_eq_false h
    rw [global, if_neg Bool.false_ne_true, mem_sectorsOf, and_iff_right (Nat.not_le.1 h)]

theorem nodup_vaSectors (ps : List (Nat × Nat)) : (vaSectors ps).Nodup := nodup_of_sorted (foldl_insNat_sorted _ List.Pairwise.nil)

theorem touches_congr {P Q : Nat × Nat → Prop} (h : ∀ p, P p ↔ Q p) (k : Nat) : touches P k ↔ touches Q k :=
  exists_congr fun p => and_congr_left fun _ => h p

theorem tableOf_eq (c : Copy) : tableOf c = (c.blocks, c.entryAt) := by
  unfold tableOf Copy.blocks Copy.entryAt
  cases c.k <;> rfl

theorem mem_reads {c : Copy} {p : Nat × Nat} : p ∈ c.reads ↔ hasRead c p := by
  simp only [Copy.reads, hasRead, tableOf_eq, List.mem_append, List.mem_map, List.mem_filter, List.mem_filterMap, Option.map_eq_some_iff, Bool.or_eq_true]
  refine or_congr (exists_congr fun i => ?_) (exists_congr fun x => ?_)
  · rw [and_assoc, eq_comm (a := p)]
  · rw [and_assoc]
    simp only [eq_comm (a := p)]

theorem mem_writes {c : Copy} {p : Nat × Nat} : p ∈ c.writes ↔ hasWritten c p := by
  simp only [Copy.writes, hasWritten, List.mem_map, List.mem_filter, and_assoc, eq_comm (a := p)]

/-- The sectors come to between two moments. -/
theorem mem_newSectors {ps qs : List (Nat × Nat)} {P Q : Nat × Nat → Prop} (hp : ∀ p, p ∈ ps ↔ P p) (hq : ∀ p, p ∈ qs ↔ Q p) (k : Nat) :
    k ∈ ((vaSectors ps).filter fun k => !(vaSectors qs).contains k) ↔ touches P k ∧ ¬touches Q k := by
  rw [List.mem_filter, mem_vaSectors, touches_congr hp, ← touches_congr hq, ← mem_vaSectors]
  simp

theorem pays : Pays := fun _ _ _ => ⟨_, _, (nodup_vaSectors _).filter _, (nodup_vaSectors _).filter _, mem_newSectors (fun _ => mem_reads) fun _ => mem_reads,
  mem_newSectors (fun _ => mem_writes) fun _ => mem_writes, rfl⟩

end Sectors

/-! ## The engine before the landing (R197; log entry 18) -/

section Chosen

/-- Where each step that the machine draws is a step by some choice, a fold of them is a fold by choices, one for each key. -/
theorem foldl_chosen {α β γ κ : Type} {step : β → α → β} {chosen : κ → γ → α → γ} {rel : β → γ → Prop} (key : α → Nat) (some : κ)
    (h : ∀ r c a, rel r c → ∃ k, rel (step r a) (chosen k c a)) {l : List α} (hn : (l.map key).Nodup) {r : β} {c : γ} (hr : rel r c) :
    ∃ ch : Nat → κ, rel (l.foldl step r) (l.foldl (fun c a => chosen (ch (key a)) c a) c) := by
  induction l generalizing r c with
  | nil => exact ⟨fun _ => some, hr⟩
  | cons a l ih =>
    obtain ⟨ha, hn⟩ := List.nodup_cons.1 hn
    obtain ⟨k, first⟩ := h r c a hr
    obtain ⟨ch, rest⟩ := ih hn first
    have others (x : γ) (b : α) (hb : b ∈ l) : chosen (Function.update ch (key a) k (key b)) x b = chosen (ch (key b)) x b := by
      rw [Function.update_of_ne fun e => ha (List.mem_map.2 ⟨b, hb, e⟩)]
    refine ⟨Function.update ch (key a) k, ?_⟩
    rw [List.foldl_cons, List.foldl_cons, List.foldl_ext _ _ _ others, Function.update_self]
    exact rest

theorem freed_readsAlike (s : State) (n : Nat) : ReadsAlike s { s with free := n } := ⟨rfl, rfl, rfl, rfl, rfl, rfl, rfl, rfl, fun _ => rfl⟩

variable {s : State} {c : Copy}

theorem sameBut_freed {x y : State} (h : SameBut x y) (n : Nat) : ({ x with free := n } : State) = { y with free := n } :=
  (congrArg (fun z : State => ({ z with free := n } : State)) h : _)

theorem readEntry_eq (s : State) (c : Copy) (i : Nat) : s.readEntry c i = entryNow s c i := by
  rw [State.readEntry, entryNow, tableOf_eq]
  rfl

theorem readEntry_sameBut {x y : State} (h : SameBut x y) (c : Copy) (i : Nat) : x.readEntry c i = y.readEntry c i := by
  rw [h]
  simp only [State.readEntry, (freed_readsAlike y x.free).readVa]

/-- What the machine draws for an entry of the table is a choice for it. -/
theorem touchEntry_chosen (q : State × Copy) (i : Nat) (h : SameBut q.1 s) : ∃ k : Bool, SameBut (State.touchEntry q i).1 s ∧
    (State.touchEntry q i).2 = if k ∧ (q.2.entry i).isNone then
      (match entryNow s q.2 i with | .ok e => { q.2 with snap := (2 ^ 64 + i, toBytes 8 e) :: q.2.snap } | .error _ => q.2) else q.2 := by
  have drawn : SameBut q.1.draw.2 s := sameBut_freed h (q.1.free + 1)
  refine ⟨q.1.draw.1, ?_⟩
  rw [State.touchEntry, readEntry_sameBut drawn, readEntry_eq]
  by_cases hk : (q.1.draw.1 && (q.2.entry i).isNone) = true
  · rw [if_pos hk, if_pos (by simpa using hk)]
    cases entryNow s q.2 i <;> exact ⟨drawn, rfl⟩
  · rw [if_neg hk, if_neg (by simpa using hk)]
    exact ⟨drawn, rfl⟩

theorem blocks_nodup (c : Copy) : (c.blocks.map id).Nodup := by
  rw [List.map_id]
  unfold Copy.blocks
  cases c.k with
  | cpy => exact List.nodup_nil
  | cpybt => exact List.nodup_range
  | tst t m =>
    show (tEntries t).Nodup
    rw [tEntries]
    split
    · exact List.nodup_nil
    · exact List.nodup_range

theorem touchEntries_chosen (s : State) (c : Copy) : ∃ ent : Nat → Bool, SameBut (c.blocks.foldl State.touchEntry (s, c)).1 s ∧
    (c.blocks.foldl State.touchEntry (s, c)).2 = peeks s ent c := by
  obtain ⟨ent, state, copy⟩ := foldl_chosen (step := State.touchEntry) (rel := fun q d => SameBut q.1 s ∧ q.2 = d) (chosen := fun (k : Bool) d i => if k ∧ (d.entry i).isNone then
      (match entryNow s d i with | .ok e => { d with snap := (2 ^ 64 + i, toBytes 8 e) :: d.snap } | .error _ => d) else d) id false
    (fun q d i h => by obtain ⟨h, rfl⟩ := h; exact touchEntry_chosen q i h) (blocks_nodup c) (r := (s, c)) (c := c) ⟨rfl, rfl⟩
  refine ⟨ent, state, copy.trans ?_⟩
  rw [peeks, tableOf_eq]
  rfl

theorem moveWord_copies {t : State} {msg : Bool} {x : CWord} (h : s.moveWord c msg x = .ok t) : t.copies = s.copies := by
  obtain ⟨b, put⟩ : ∃ b, s.putWord c msg x b = .ok t := by
    rw [State.moveWord] at h
    split at h
    next b _ => exact ⟨b, h⟩
    next => exact nomatch h
  rw [State.putWord] at put
  split at put
  · exact nomatch put
  rw [State.writeSide] at put
  split at put
  · obtain rfl := Except.ok.inj put
    rfl
  split at put
  · exact nomatch put
  split at put
  · split at put
    · exact nomatch put
    · split at put
      · exact nomatch put
      · rw [Except.ok.inj put]
  · split at put
    next u hu =>
      obtain rfl := Except.ok.inj put
      rw [(writeTgt_reported hu).only]
    next => exact nomatch put

/-- What the machine draws for a word is a choice for it. -/
theorem touchWord_chosen (r q : State × Copy) (x : CWord) (h : SameBut r.1 q.1 ∧ r.2 = q.2) : ∃ k : Bool × Bool × Nat,
    SameBut (State.touchWord r x).1 (comesTo k.1 k.2.1 k.2.2 q x).1 ∧ (State.touchWord r x).2 = (comesTo k.1 k.2.1 k.2.2 q x).2 := by
  obtain ⟨u, c⟩ := r
  obtain ⟨v, d⟩ := q
  obtain ⟨hu, rfl⟩ := h
  have once : SameBut u.draw.2 v := sameBut_freed hu (u.free + 1)
  have twice : u.draw.2.draw.2 = { v with free := u.free + 2 } := sameBut_freed hu (u.free + 2)
  refine ⟨(u.draw.1 && u.draw.2.draw.1, u.draw.1 && !u.draw.2.draw.1, u.free + 2), ?_⟩
  unfold State.touchWord comesTo
  dsimp only
  cases c.done x.n with
  | true => exact ⟨hu, rfl⟩
  | false =>
    rw [← twice]
    cases u.draw.1 with
    | false => exact ⟨once, rfl⟩
    | true =>
      have left : SameBut u.draw.2.draw.2 v := twice
      cases u.draw.2.draw.1 with
      | true =>
        simp only [Bool.false_eq_true, if_false, if_true, Bool.not_true, Bool.and_self]
        cases u.draw.2.draw.2.moveWord c false x with
        | ok t => exact ⟨rfl, rfl⟩
        | error e => exact ⟨left, rfl⟩
      | false =>
        cases c.held x.n with
        | some b => exact ⟨left, rfl⟩
        | none =>
          simp only [Bool.false_eq_true, if_false, if_true, Option.isSome_none, Bool.not_true, Bool.and_false, Bool.not_false, Bool.and_self, Option.isNone_none, and_self]
          cases u.draw.2.draw.2.readWord c.org x with
          | ok b => exact ⟨rfl, rfl⟩
          | error e => exact ⟨left, rfl⟩

theorem comesTo_copies (mv rd : Bool) (fr : Nat) (q : State × Copy) (x : CWord) : (comesTo mv rd fr q x).1.copies = q.1.copies := by
  unfold comesTo
  dsimp only
  split
  · rfl
  split
  · split
    next t ht => exact (moveWord_copies ht :)
    next => rfl
  split
  · split <;> rfl
  · rfl

theorem touchWords_chosen (s : State) {r : State} (h : SameBut r s) (c : Copy) : ∃ (mv rd : Nat → Bool) (fr : Nat → Nat),
    let q := c.words.zipIdx.foldl (fun q y => comesTo (mv y.2) (rd y.2) (fr y.2) q y.1) (s, c)
    SameBut (c.words.foldl State.touchWord (r, c)).1 q.1 ∧ (c.words.foldl State.touchWord (r, c)).2 = q.2 := by
  obtain ⟨ch, chosen⟩ := foldl_chosen (rel := fun r q => SameBut r.1 q.1 ∧ r.2 = q.2) (step := fun q (y : CWord × Nat) => State.touchWord q y.1)
    (chosen := fun (k : Bool × Bool × Nat) q y => comesTo k.1 k.2.1 k.2.2 q y.1) (·.2) (false, false, 0) (fun r q y => touchWord_chosen r q y.1)
    (l := c.words.zipIdx) (by rw [List.zipIdx_map_snd]; exact List.nodup_range') (r := (r, c)) (c := (s, c)) ⟨h, rfl⟩
  have indexed : c.words.zipIdx.foldl (fun q y => State.touchWord q y.1) (r, c) = c.words.foldl State.touchWord (r, c) := by
    rw [← List.foldl_map (f := Prod.fst) (g := State.touchWord), List.zipIdx_map_fst]
  exact ⟨fun k => (ch k).1, fun k => (ch k).2.1, fun k => (ch k).2.2, indexed ▸ chosen⟩

theorem exec_copyEngineStart {n : Nat} (hc : s.copies[n]? = some c) : exec (.copyEngineStart n) s = .next (if (!c.ready || s.uncommitted c.org) = true then s
    else ({ (s.startCopy c).1 with copies := (s.startCopy c).1.copies.set n (s.startCopy c).2 } : State).payCopy c (s.startCopy c).2) := by
  show execCopyEngineStart n s = _
  rw [execCopyEngineStart, hc]
  rfl

/-- The engine's work on a copy's words, by given choices. -/
def workedBy (mv rd : Nat → Bool) (fr : Nat → Nat) (s : State) (c : Copy) : State × Copy :=
  if s.copyMsg c then (s, c) else c.words.zipIdx.foldl (fun q y => comesTo (mv y.2) (rd y.2) (fr y.2) q y.1) (s, c)

theorem workedBy_copies (mv rd : Nat → Bool) (fr : Nat → Nat) (s : State) (c : Copy) : (workedBy mv rd fr s c).1.copies = s.copies := by
  rw [workedBy]
  split
  · rfl
  · exact foldl_keeps (f := fun q (y : CWord × Nat) => comesTo (mv y.2) (rd y.2) (fr y.2) q y.1) (·.1.copies) (fun q y => comesTo_copies _ _ _ q y.1) _ _

theorem startCopy_chosen (s : State) (c : Copy) : ∃ (ent mv rd : Nat → Bool) (fr : Nat → Nat), let q := workedBy mv rd fr s { peeks s ent c with started := true }
    SameBut (s.startCopy c).1 q.1 ∧ (s.startCopy c).2 = q.2 := by
  obtain ⟨ent, state, copy⟩ := touchEntries_chosen s c
  obtain ⟨mv, rd, fr, words⟩ := touchWords_chosen s state { peeks s ent c with started := true }
  refine ⟨ent, mv, rd, fr, ?_⟩
  rw [State.startCopy, copy, workedBy]
  dsimp only
  split
  · exact ⟨state, rfl⟩
  · exact words

theorem starts : Starts := by
  refine ⟨fun s n c hc idle => ?_, fun s n c hc ready committed => ?_⟩
  · rw [exec_copyEngineStart hc, if_pos]
    rwa [Bool.or_eq_true, Bool.not_eq_true']
  obtain ⟨ent, mv, rd, fr, state, copy⟩ := startCopy_chosen s c
  have goes : ¬(!c.ready || s.uncommitted c.org) = true := by simp only [ready, committed, Bool.not_true, Bool.or_self, Bool.false_eq_true, not_false_iff]
  have copies : (s.startCopy c).1.copies = s.copies := (congrArg State.copies state).trans (workedBy_copies ..)
  refine ⟨ent, mv, rd, fr, { (s.startCopy c).1 with copies := s.copies.set n (s.startCopy c).2 }, ?_, ?_⟩
  · exact copy ▸ congrArg (fun z : State => ({ z with copies := s.copies.set n (s.startCopy c).2 } : State)) state
  · rw [exec_copyEngineStart hc, if_neg goes, copies]
    exact congrArg _ (congrArg (State.payCopy _ c) copy)

end Chosen
/-! ## The landing (R198, R199) -/

section Landing

variable {s : State} {n : Nat} {c : Copy}

theorem endCopy_eq (s : State) (n : Nat) (c : Copy) : s.endCopy n c = tokenFalls s n c := rfl

/-- An entry of the table is read from the copy's kind and its group alone. -/
theorem readEntry_congr {d : Copy} (hk : d.k = c.k) (ho : d.org = c.org) (i : Nat) : s.readEntry d i = s.readEntry c i := by
  simp only [State.readEntry, Copy.entryAt, hk, ho]

/-- One entry of the rest of a copy's table. -/
def tableStep (s : State) (c : Copy) (r : Copy × Option VaErr) (i : Nat) : Copy × Option VaErr :=
  if r.2.isSome || (r.1.entry i).isSome then r
  else match s.readEntry c i with | .ok e => (r.1.keepEntry i e, none) | .error e => (r.1, some e)

theorem tableSteps_entered (l : List Nat) {d : Copy} (hk : d.k = c.k) (ho : d.org = c.org) : l.foldl (tableStep s c) (d, none) = entered s l d := by
  induction l generalizing d with
  | nil => rfl
  | cons i r ih =>
    rw [List.foldl_cons, entered, tableStep, Option.isSome_none, Bool.false_or, ← readEntry_congr hk ho, readEntry_eq]
    split
    · exact ih hk ho
    · cases entryNow s d i with
      | ok e => exact ih hk ho
      | error e => exact foldl_unchanged fun _ _ => rfl

theorem readTable_eq (s : State) (c : Copy) : s.readTable c = entered s (tableOf c).1 c := by
  rw [tableOf_eq]
  exact tableSteps_entered c.blocks rfl rfl

/-- One word of those that a copy has left. -/
def endStep (msg : Bool) (q : State × Copy × Option VaErr) (x : CWord) : State × Copy × Option VaErr :=
  if q.2.2.isSome then q
  else match q.1.endWord q.2.1 msg x with | .ok u => (u.1, u.2, none) | .error e => (q.1, q.2.1, some e)

theorem endSteps_endAll (msg : Bool) (l : List CWord) (q : State × Copy) : l.foldl (endStep msg) (q.1, q.2, none) = endAll msg l q := by
  induction l generalizing q with
  | nil => rfl
  | cons x r ih =>
    rw [List.foldl_cons, endAll, endStep, Option.isSome_none, if_neg Bool.false_ne_true]
    cases q.1.endWord q.2 msg x with
    | ok u => exact ih u
    | error e => exact foldl_unchanged fun _ _ => rfl

theorem runCopy_eq (s : State) (c : Copy) : s.runCopy c = carried s c := by
  have run : s.runCopy c = (s.readTable c).1.words.foldl (endStep (s.copyMsg c)) (s, (s.readTable c).1, (s.readTable c).2) := rfl
  rw [run, readTable_eq, carried]
  rcases entered s (tableOf c).1 c with ⟨d, _ | e⟩
  · exact endSteps_endAll _ _ (s, d)
  · exact foldl_unchanged fun _ _ => rfl

/-! ### A copy keeps its origin and its token -/

/-- The copies of one origin and one token. -/
def SameOp (c d : Copy) : Prop := d.org = c.org ∧ d.tok = c.tok

theorem entered_sameOp (l : List Nat) {d : Copy} (h : SameOp c d) : SameOp c (entered s l d).1 := by
  induction l generalizing d with
  | nil => exact h
  | cons i r ih =>
    rw [entered]
    split
    · exact ih h
    · cases entryNow s d i with
      | ok e => exact ih h
      | error e => exact h

theorem endWord_sameOp {u : State × Copy} {d : Copy} {msg : Bool} {x : CWord} (h : SameOp c d) (hu : s.endWord d msg x = .ok u) : SameOp c u.2 := by
  rw [State.endWord] at hu
  split at hu
  · rw [← Except.ok.inj hu]
    exact h
  split at hu
  · split at hu
    · rw [← Except.ok.inj hu]
      exact h
    · exact nomatch hu
  · split at hu
    · rw [← Except.ok.inj hu]
      exact h
    · exact nomatch hu

theorem endAll_sameOp (msg : Bool) (l : List CWord) {q : State × Copy} (h : SameOp c q.2) : SameOp c (endAll msg l q).2.1 := by
  induction l generalizing q with
  | nil => exact h
  | cons x r ih =>
    rw [endAll]
    cases hu : q.1.endWord q.2 msg x with
    | ok u => exact ih (endWord_sameOp h hu)
    | error e => exact h

theorem carried_sameOp (s : State) (c : Copy) : SameOp c (carried s c).2.1 := by
  have table := entered_sameOp (s := s) (tableOf c).1 (show SameOp c c from ⟨rfl, rfl⟩)
  revert table
  rw [carried]
  rcases entered s (tableOf c).1 c with ⟨d, _ | e⟩
  · exact endAll_sameOp (s.copyMsg c) d.words (q := (s, d))
  · exact id

/-! ### The ends of a copy -/

theorem failCopy_eq {d : Copy} (h : SameOp c d) (s : State) (n cause va : Nat) : s.failCopy n d cause va = copyLost s n c d cause va := by
  obtain ⟨org, tok⟩ := h
  have leaves (u : State) : u.endCopy n d = tokenFalls u n c := by rw [← endCopy_eq, State.endCopy, State.endCopy, org, tok]
  rw [State.failCopy, State.loseCopy, leaves, org, copyLost, met, ite_not]
  rfl

theorem copyMiss_lost {va : Nat} {p : Page} (h : s.pageLost c.org.group c.org.core va c.org.seq = some p) :
    s.copyMiss n c va = copyLost (heard s p c.org.seq) n c c 5 va := by
  rw [← failCopy_eq ⟨rfl, rfl⟩]
  simp only [State.copyMiss, State.engineMiss, h, if_true, heard, List.isEmpty_iff]
  rfl

theorem copyMiss_asks {va : Nat} (h : s.pageLost c.org.group c.org.core va c.org.seq = none) (hp : s.pageAt c.org.group c.org.core va = none) :
    s.copyMiss n c va = s.wantPage c.org.group c.org.core va (.copy true) (.engine c.org.seq) := by
  simp only [State.copyMiss, State.engineMiss, h, hp, Option.map_none, Option.getD_none, Bool.false_eq_true, if_false]

theorem refused_mem {l : List Nat} (h : l ≠ []) : (s.refused l).1 ∈ l := by
  have pos : 0 < l.length := List.length_pos_iff.2 h
  have inside : (s.drawNat l.length).1 < l.length := Nat.mod_lt _ pos
  rw [State.refused, List.getD_eq_getElem _ _ inside]
  exact List.getElem_mem inside

section Runs

variable {t : State} {d : Copy} {e : VaErr}

theorem exec_copyLand_done (hc : s.copies[n]? = some c) (started : c.started = true) (hr : carried s c = (t, d, none)) :
    exec (.copyLand n) s = .next (tokenFalls (((t.payCopy c d).dropLines c.org d.written.1).count c.org.blk 11 d.written.2) n c) := by
  show execCopyLand n s = _
  simp only [execCopyLand, hc, started, Bool.not_true, Bool.false_eq_true, if_false, runCopy_eq, hr, endCopy_eq]

theorem exec_copyLand_missed (hc : s.copies[n]? = some c) (started : c.started = true) (hr : carried s c = (t, d, some e)) (he : e.cause = 0) :
    exec (.copyLand n) s = .next (s.copyMiss n c e.va) := by
  show execCopyLand n s = _
  simp only [execCopyLand, hc, started, Bool.not_true, Bool.false_eq_true, if_false, runCopy_eq, hr, he, if_true]

theorem exec_copyFail_missed (hc : s.copies[n]? = some c) (started : c.started = true) (hr : carried s c = (t, d, some e)) (he : e.cause = 0) :
    exec (.copyFail n) s = .next (s.copyMiss n c e.va) := by
  show execCopyFail n s = _
  simp only [execCopyFail, hc, started, Bool.not_true, Bool.false_eq_true, if_false, runCopy_eq, hr, he, if_true]

theorem exec_copyFail_failed (hc : s.copies[n]? = some c) (started : c.started = true) (hr : carried s c = (t, d, some e)) (he : e.cause ≠ 0) :
    exec (.copyFail n) s = .next (copyLost (t.payCopy c d) n c d e.cause e.va) := by
  have same : SameOp c d := by simpa only [hr] using carried_sameOp s c
  show execCopyFail n s = _
  simp only [execCopyFail, hc, started, Bool.not_true, Bool.false_eq_true, if_false, runCopy_eq, hr, he, failCopy_eq same]

theorem exec_copyFail_refused (hc : s.copies[n]? = some c) (started : c.started = true) (hr : carried s c = (t, d, none))
    (hw : s.windows c.org.group d.ranges ≠ []) :
    exec (.copyFail n) s = .next (copyLost (Claims.asked s) n c c 2 (s.refused (s.windows c.org.group d.ranges)).1) := by
  show execCopyFail n s = _
  simp only [execCopyFail, hc, started, Bool.not_true, Bool.false_eq_true, if_false, runCopy_eq, hr, List.isEmpty_iff, hw,
    failCopy_eq (show SameOp c c from ⟨rfl, rfl⟩)]
  rfl

end Runs

end Landing

/-- Settles O47: the words by their lists, the engine's work by what it draws, and the landing by the copy's run up to its first failure. -/
theorem copyEngine : Obligations.CopyEngine := by
  refine ⟨mem_cpyWords, mem_btWords, tstWords, wordMoves, pays, starts, fun s n c hc started => ?_⟩
  rcases hr : carried s c with ⟨t, d, _ | e⟩
  · refine ⟨fun _ => exec_copyLand_done hc started hr, ?_, fun _ hw => ⟨_, refused_mem hw, exec_copyFail_refused hc started hr hw⟩, ?_⟩
    · rintro _ ⟨⟩
    · rintro _ _ ⟨⟩
  · refine ⟨nofun, ?_, nofun, ?_⟩
    · rintro _ ⟨⟩ hz
      exact exec_copyFail_failed hc started hr hz
    · rintro _ ev ⟨⟩ hz hev
      have miss : exec ev s = .next (s.copyMiss n c e.va) := by
        obtain rfl | rfl := hev
        · exact exec_copyLand_missed hc started hr hz
        · exact exec_copyFail_missed hc started hr hz
      exact ⟨fun p hp => miss.trans (congrArg _ (copyMiss_lost hp)), fun lost page => miss.trans (congrArg _ (copyMiss_asks lost page))⟩

end Sys2Proof.Machine

/-! PROOF. R91 to R93, R98, R171, R287 to R291: fetched lines and the entry into handlers. -/

namespace Sys2Proof.Machine

open Claims

/-! ## What a fetched line changes (R89, R98) -/

section Fills

variable {s u : State} {f : Fetch} {t : Tgt} {n : Nat}

theorem rollWindow_reported (s : State) : Reported s s.rollWindow := by
  unfold State.rollWindow
  split
  · exact .refl s
  · exact ⟨rfl⟩

theorem chargeGroup_reported (s : State) (g pa n : Nat) : Reported s (s.chargeGroup g pa n) := by
  rw [State.chargeGroup]
  split
  · exact (rollWindow_reported s).trans ⟨rfl⟩
  · exact .refl s

theorem chargeGrid_reported (s : State) (g pa n : Nat) : Reported s (s.chargeGrid g pa n) := by
  rw [State.chargeGrid]
  split
  · exact (rollWindow_reported s).trans ⟨rfl⟩
  · exact .refl s

theorem chargeFetch_reported (s : State) (f : Fetch) (pa : Nat) : Reported s (s.chargeFetch f pa) := by
  rw [State.chargeFetch]
  generalize s.fetchGrids f = gs
  have base := chargeGroup_reported s f.group pa 256
  revert base
  generalize s.chargeGroup f.group pa 256 = r
  intro base
  induction gs generalizing r with
  | nil => exact base
  | cons g gs ih => exact ih _ (base.trans (chargeGrid_reported ..))

/-- The grid of an issuer with lanes that wait for a line joins the others. -/
def waitingGrid (s : State) (f : Fetch) (l : List Nat) (i : Issuer) : List Nat :=
  if i.lanesIn ((s.ctx? i.w.ctx).getD Ctx.init) f.line = 0#32 then l else insNat ((s.ctx? i.w.ctx).getD Ctx.init).grid l

theorem waitingGrids (s : State) (f : Fetch) (is : List Issuer) {l : List Nat} (h : l.Pairwise (· < ·)) :
    (is.foldl (waitingGrid s f) l).Pairwise (· < ·) ∧ ∀ g, g ∈ is.foldl (waitingGrid s f) l ↔
      g ∈ l ∨ ∃ i ∈ is, i.lanesIn ((s.ctx? i.w.ctx).getD Ctx.init) f.line ≠ 0#32 ∧ ((s.ctx? i.w.ctx).getD Ctx.init).grid = g := by
  induction is generalizing l with
  | nil => exact ⟨h, fun g => by simp⟩
  | cons i is ih =>
    rw [List.foldl_cons]
    by_cases hi : i.lanesIn ((s.ctx? i.w.ctx).getD Ctx.init) f.line = 0#32
    · rw [waitingGrid, if_pos hi]
      simpa [hi] using ih h
    · rw [waitingGrid, if_neg hi]
      refine ⟨(ih (insNat_sorted h)).1, fun g => ?_⟩
      have more : (∃ j ∈ i :: is, j.lanesIn ((s.ctx? j.w.ctx).getD Ctx.init) f.line ≠ 0#32 ∧ ((s.ctx? j.w.ctx).getD Ctx.init).grid = g) ↔
          ((s.ctx? i.w.ctx).getD Ctx.init).grid = g ∨ ∃ j ∈ is, j.lanesIn ((s.ctx? j.w.ctx).getD Ctx.init) f.line ≠ 0#32 ∧ ((s.ctx? j.w.ctx).getD Ctx.init).grid = g := by
        simp only [List.mem_cons, exists_eq_or_imp, ne_eq, hi, not_false_iff, true_and]
      rw [(ih (insNat_sorted h)).2, mem_insNat, more, eq_comm (a := g), or_assoc, or_left_comm]

/-- A fetched line charged where it comes from far store. -/
def chargedFor (u : State) (f : Fetch) : Tgt → State
  | .dev pa => u.chargeFetch f pa
  | _ => u

theorem fetchPaid_chargedFor (u : State) (f : Fetch) (t : Tgt) : fetchPaid u f t (chargedFor u f t) := by
  cases t with
  | dev pa =>
    obtain ⟨sorted, mem⟩ := waitingGrids u f (u.coreIssuers f.core f.group) List.Pairwise.nil
    exact ⟨u.fetchGrids f, nodup_of_sorted sorted, fun g => (mem g).trans (by simp), rfl⟩
  | host ba => exact rfl
  | fab node pa => exact rfl

theorem chargedFor_reported (u : State) (f : Fetch) (t : Tgt) : Reported u (chargedFor u f t) := by
  cases t with
  | dev pa => exact chargeFetch_reported ..
  | host ba => exact .refl u
  | fab node pa => exact .refl u

/-- A line in the instruction cache: the core's other lines are as they were, but for one that leaves a full cache. -/
theorem icFill_holds (s : State) (f : Fetch) (b : List Byte) :
    let key := 2 ^ 48 * f.group + f.line
    let old := (s.core f.core).ic.filter fun l => l.1 ≠ key
    let v := s.icFill f (codeWords b)
    ∃ rest, v = { s with cores := v.cores, free := v.free } ∧ (∀ k, k ≠ f.core → v.core k = s.core k) ∧ v.core f.core = withLine (s.core f.core) key b rest ∧
      (old.length < 512 → rest = old) ∧ (512 ≤ old.length → ∃ k, k < 512 ∧ rest = dropAt k old) := by
  intro key old v
  by_cases room : old.length < icLines
  · have fill : v = s.onCore f.core fun c => { c with ic := (key, codeWords b) :: old } := by
      simp only [v, State.icFill, key, old] at room ⊢
      rw [if_pos room]
    rw [fill]
    exact ⟨old, rfl, fun k hk => by rw [core_onCore, if_neg hk], by rw [core_onCore, if_pos rfl]; rfl, fun _ => rfl, fun full => absurd room (Nat.not_lt.2 full)⟩
  · have fill : v = (s.drawNat icLines).2.onCore f.core fun c => { c with ic := (key, codeWords b) :: dropAt (s.drawNat icLines).1 old } := by
      simp only [v, State.icFill, key, old] at room ⊢
      rw [if_neg room]
    rw [fill]
    refine ⟨dropAt (s.drawNat icLines).1 old, rfl, fun k hk => by rw [core_onCore, if_neg hk]; rfl, by rw [core_onCore, if_pos rfl]; rfl, fun small => absurd small room,
      fun _ => ⟨(s.drawNat icLines).1, Nat.mod_lt _ (by decide), rfl⟩⟩

/-- A line asked for ahead, unless it is held or on its way. -/
def wantLine (f : Fetch) (s : State) (k : Nat) : State :=
  if s.hasLine f.core f.group k || (s.fetches.any fun g => decide (g.core = f.core) && decide (g.group = f.group) && decide (g.line = k)) then s
  else { s with fetches := s.fetches ++ [{ f with line := k, pre := true }] }

theorem wantLines (f : Fetch) (l : List Nat) (s : State) : ∃ more : List Fetch, l.foldl (wantLine f) s = { s with fetches := s.fetches ++ more } ∧
    (∀ g ∈ more, g.core = f.core ∧ g.group = f.group ∧ g.pre = true ∧ g.line ∈ l) ∧
    ∀ k ∈ l, s.hasLine f.core f.group k = true ∨ ∃ g ∈ s.fetches ++ more, g.core = f.core ∧ g.group = f.group ∧ g.line = k := by
  induction l generalizing s with
  | nil => exact ⟨[], by rw [List.append_nil]; rfl, by simp, by simp⟩
  | cons k l ih =>
    rw [List.foldl_cons]
    by_cases known : (s.hasLine f.core f.group k || (s.fetches.any fun g => decide (g.core = f.core) && decide (g.group = f.group) && decide (g.line = k))) = true
    · obtain ⟨more, only, asks, held⟩ := ih s
      rw [wantLine, if_pos known]
      refine ⟨more, only, fun g hg => ?_, fun j hj => ?_⟩
      · obtain ⟨hc, hg, hp, hl⟩ := asks g hg
        exact ⟨hc, hg, hp, List.mem_cons_of_mem _ hl⟩
      · obtain rfl | hj := List.mem_cons.1 hj
        · rw [Bool.or_eq_true, List.any_eq_true] at known
          obtain known | ⟨g, hg, same⟩ := known
          · exact .inl known
          · exact .inr ⟨g, List.mem_append_left _ hg, by simpa [and_assoc] using same⟩
        · exact held j hj
    · obtain ⟨more, only, asks, held⟩ := ih { s with fetches := s.fetches ++ [{ f with line := k, pre := true }] }
      rw [wantLine, if_neg known]
      refine ⟨{ f with line := k, pre := true } :: more, only.trans ?_, fun g hg => ?_, fun j hj => ?_⟩
      · rw [List.append_assoc]
        rfl
      · obtain rfl | hg := List.mem_cons.1 hg
        · exact ⟨rfl, rfl, rfl, List.mem_cons_self ..⟩
        · obtain ⟨hc, hg, hp, hl⟩ := asks g hg
          exact ⟨hc, hg, hp, List.mem_cons_of_mem _ hl⟩
      · obtain rfl | hj := List.mem_cons.1 hj
        · exact .inr ⟨_, List.mem_append_right _ (List.mem_cons_self ..), rfl, rfl, rfl⟩
        · rw [← List.singleton_append, ← List.append_assoc]
          exact held j hj

theorem prefetch_eq (s : State) (f : Fetch) : s.prefetch f = (s.prefetchLines f).foldl (wantLine f) s := rfl

/-- INSTRUCTION_FETCH_FILL where the line's place is known. -/
theorem exec_fill (hf : s.fetches[n]? = some f) (ht : fetchedAt { s with fetches := dropAt n s.fetches } f t u) : exec (.instructionFetchFill n) s = .next (u.fillFrom f t) := by
  show execInstructionFetchFill n s = _
  obtain ⟨hl, rfl, rfl⟩ | ⟨hl, ao, miss, hx⟩ := ht
  · simp only [execInstructionFetchFill, hf, hl, if_true]
  · simp only [execInstructionFetchFill, hf, Nat.not_le.2 hl, if_false, hx]

/-- A line read at its place enters the cache, and more lines are asked for ahead. -/
theorem fillFrom_ok {b : List Byte} (hb : u.readTgt t 256 = .ok b) :
    let key := 2 ^ 48 * f.group + f.line
    let old := (u.core f.core).ic.filter fun l => l.1 ≠ key
    ∃ (p : State) (more : List Fetch) (rest : List (Nat × List Word64)), let v := u.fillFrom f t
      fetchPaid u f t p ∧ v = { p with cores := v.cores, fetches := u.fetches ++ more, free := v.free } ∧
      (∀ k, k ≠ f.core → v.core k = u.core k) ∧ v.core f.core = withLine (u.core f.core) key b rest ∧
      (old.length < 512 → rest = old) ∧ (512 ≤ old.length → ∃ k, k < 512 ∧ rest = dropAt k old) ∧
      (∀ g ∈ more, g.core = f.core ∧ g.group = f.group ∧ g.pre = true ∧ g.line ∈ v.prefetchLines f) ∧
      ∀ k ∈ v.prefetchLines f, v.hasLine f.core f.group k = true ∨ ∃ g ∈ v.fetches, g.core = f.core ∧ g.group = f.group ∧ g.line = k := by
  intro key old
  have fill : u.fillFrom f t = ((chargedFor u f t).icFill f (codeWords b)).prefetch f := by
    simp only [State.fillFrom, hb]
    rfl
  have paid := fetchPaid_chargedFor u f t
  have reported := chargedFor_reported u f t
  revert fill paid reported
  generalize chargedFor u f t = p
  intro fill paid reported
  have cores : p.cores = u.cores := by rw [reported.only]
  have core (k : Nat) : p.core k = u.core k := by rw [State.core, cores, State.core]
  have fetches : p.fetches = u.fetches := by rw [reported.only]
  obtain ⟨rest, only, others, line, room, full⟩ := icFill_holds p f b
  rw [core] at line room full
  obtain ⟨more, asked, asks, held⟩ := wantLines f ((p.icFill f (codeWords b)).prefetchLines f) (p.icFill f (codeWords b))
  have filled : (p.icFill f (codeWords b)).fetches = u.fetches := by rw [only, ← fetches]
  refine ⟨p, more, rest, paid, ?_⟩
  rw [fill, prefetch_eq, asked, filled]
  rw [filled] at held
  exact ⟨congrArg (fun z : State => ({ z with fetches := u.fetches ++ more } : State)) only, fun k hk => (others k hk).trans (core k), line, room, full, asks, held⟩

/-- A line that memory withholds, detected where it lies in the device. -/
def withheldAt (u : State) (f : Fetch) : Tgt → State
  | .dev pa => if 0x30001000000 ≤ pa then u else u.detect pa (f.core / 8) (f.core % 8) f.group
  | _ => u

theorem fillFrom_error {c : Nat} (hc : u.readTgt t 256 = .error c) :
    u.fillFrom f t = if f.pre then withheldAt u f t else (withheldAt u f t).fetchFail f 7 8 := by
  cases t with
  | dev pa =>
    have outside : (inAperture pa = true) = (0x30001000000 ≤ pa) := by rw [inAperture, decide_eq_true_eq]; rfl
    simp only [State.fillFrom, hc, outside]
    rfl
  | host ba =>
    simp only [State.fillFrom, hc]
    rfl
  | fab node pa =>
    simp only [State.fillFrom, hc]
    rfl

section Lost

variable {miss : Bool} (hf : s.fetches[n]? = some f) (hl : f.line < 2 ^ 90)

include hf hl

theorem exec_fill_svc (hx : ({ s with fetches := dropAt n s.fetches } : State).coreXl f.core f.group (256 * f.line) .fetch = (.svc, miss, u)) :
    exec (.instructionFetchFill n) s = .next (if f.pre then u else u.fetchPage f) := by
  show execInstructionFetchFill n s = _
  simp only [execInstructionFetchFill, hf, Nat.not_le.2 hl, if_false, hx]

theorem exec_fill_abort {pa : Nat} (hx : ({ s with fetches := dropAt n s.fetches } : State).coreXl f.core f.group (256 * f.line) .fetch = (.abort pa, miss, u)) :
    let v := u.detect pa (f.core / 8) (f.core % 8) f.group
    exec (.instructionFetchFill n) s = .next (if f.pre then v else v.fetchFail f 7 8) := by
  show execInstructionFetchFill n s = _
  simp only [execInstructionFetchFill, hf, Nat.not_le.2 hl, if_false, hx]
  rfl

theorem exec_fill_fault {c : Nat} (hx : ({ s with fetches := dropAt n s.fetches } : State).coreXl f.core f.group (256 * f.line) .fetch = (.fault c, miss, u)) :
    exec (.instructionFetchFill n) s = .next (if f.pre then u else u.fetchFail f 5 c) := by
  show execInstructionFetchFill n s = _
  simp only [execInstructionFetchFill, hf, Nat.not_le.2 hl, if_false, hx]
  rfl

end Lost

end Fills

/-! ## The sub-warp that takes a bank next (R287, R288; log entry 26) -/

section Order

/-- One trapped sub-warp comes no later than another: by its time, its warp's slot, its class. -/
def NoLater (a b : Warp × SubWarp) : Prop :=
  a.2.since < b.2.since ∨ (a.2.since = b.2.since ∧ (a.1.slot < b.1.slot ∨ (a.1.slot = b.1.slot ∧ a.2.cls ≤ b.2.cls)))

theorem NoLater.trans {a b c : Warp × SubWarp} (h : NoLater a b) (k : NoLater b c) : NoLater a c := by
  unfold NoLater at *
  omega

theorem subBefore_iff {a b : Warp × SubWarp} : subBefore a b = true ↔ ¬NoLater b a := by
  simp only [subBefore, NoLater, Bool.or_eq_true, Bool.and_eq_true, decide_eq_true_eq]
  omega

theorem noLater_total (a b : Warp × SubWarp) : NoLater a b ∨ NoLater b a := by
  unfold NoLater
  omega

theorem firstSub_least {l : List (Warp × SubWarp)} {a : Warp × SubWarp} (h : firstSub l = some a) : a ∈ l ∧ ∀ b ∈ l, NoLater a b := by
  induction l generalizing a with
  | nil => exact nomatch h
  | cons c l ih =>
    have self (c : Warp × SubWarp) : NoLater c c := (noLater_total c c).elim id id
    rw [firstSub] at h
    cases hl : firstSub l with
    | none =>
      obtain rfl : c = a := by simpa only [hl, Option.some.injEq] using h
      have empty : l = [] := by
        cases l with
        | nil => rfl
        | cons d l =>
          rw [firstSub] at hl
          split at hl
          · exact nomatch hl
          · split at hl <;> exact nomatch hl
      subst empty
      exact ⟨List.mem_cons_self .., fun b hb => by rw [List.mem_singleton.1 hb]; exact self c⟩
    | some d =>
      obtain ⟨hd, least⟩ := ih hl
      simp only [hl] at h
      by_cases first : subBefore d c = true
      · obtain rfl : d = a := by simpa only [if_pos first, Option.some.injEq] using h
        have before : NoLater d c := (noLater_total d c).resolve_right (subBefore_iff.1 first)
        exact ⟨List.mem_cons_of_mem _ hd, fun b hb => (List.mem_cons.1 hb).elim (fun e => e ▸ before) (least b)⟩
      · obtain rfl : c = a := by simpa only [if_neg first, Option.some.injEq] using h
        have before : NoLater c d := not_not.1 (mt subBefore_iff.2 first)
        exact ⟨List.mem_cons_self .., fun b hb => (List.mem_cons.1 hb).elim (fun e => e ▸ self c) fun hb => before.trans (least b hb)⟩

theorem nextSub_least {s : State} {q : Nat} {w : Warp} {x : SubWarp} (h : s.nextSub q = some (w, x)) :
    w ∈ s.warps ∧ w.q = q ∧ s.mayIssue w = true ∧ x ∈ w.traps ∧ ∀ v ∈ s.warps, v.q = q → s.mayIssue v = true → ∀ y ∈ v.traps,
      x.since < y.since ∨ (x.since = y.since ∧ (w.slot < v.slot ∨ (w.slot = v.slot ∧ x.cls ≤ y.cls))) := by
  obtain ⟨mem, least⟩ := firstSub_least h
  have trapped (v : Warp) (y : SubWarp) : (v, y) ∈ ((s.warps.filter fun w => decide (w.q = q) && s.mayIssue w).flatMap fun w => w.traps.map fun x => (w, x)) ↔
      v ∈ s.warps ∧ v.q = q ∧ s.mayIssue v = true ∧ y ∈ v.traps := by
    simp [and_assoc]
  obtain ⟨hw, hq, hi, hx⟩ := (trapped w x).1 mem
  exact ⟨hw, hq, hi, hx, fun v hv hvq hvi y hy => least (v, y) ((trapped v y).2 ⟨hv, hvq, hvi, hy⟩)⟩

end Order

/-! ## The entry into a handler (R289) -/

section Entry

theorem handlerFold_putWords (lane : Nat) (ws : List Word) (h : Sparse Word) (n : Nat) :
    (ws.foldl (fun a x => (sput 0 (32 * a.2 + lane) x a.1, a.2 + 1)) (h, n)).1 = putWords 32 0 lane n ws h := by
  induction ws generalizing h n with
  | nil => rfl
  | cons x ws ih => rw [List.foldl_cons, ih, putWords, Nat.zero_add]

/-- The words of a lane in the bank: those of its own trap. -/
theorem sget_bankFold (cls : Nat) (y : TrapLane) {j : Nat} (hj : j < 8) {ts : List TrapLane} (hts : ∀ z ∈ ts, z.lane < 32 ∧ (z.lane = y.lane → z = y)) (hy : y.lane < 32)
    {h : Sparse Word} (words : y ∈ ts ∨ sget 0 (32 * j + y.lane) h = (handlerWords cls y).getD j 0) :
    sget 0 (32 * j + y.lane) (ts.foldl (fun h t => putWords 32 0 t.lane 0 (handlerWords cls t) h) h) = (handlerWords cls y).getD j 0 := by
  induction ts generalizing h with
  | nil => exact words.resolve_left List.not_mem_nil
  | cons t ts ih =>
    rw [List.foldl_cons]
    refine ih (fun z hz => hts z (List.mem_cons_of_mem _ hz)) ?_
    obtain ⟨ht, own⟩ := hts t (List.mem_cons_self ..)
    rw [sget_putWords _ _ _ _ _ _ _ _ hy ht]
    have inside : 0 + 0 ≤ j ∧ j < 0 + 0 + (handlerWords cls t).length := ⟨Nat.zero_le _, hj⟩
    by_cases hl : t.lane = y.lane
    · obtain rfl := own hl
      exact .inr (if_pos ⟨rfl, inside⟩)
    · rw [if_neg fun h => hl h.1.symm]
      exact words.imp_left fun hm => (List.mem_cons.1 hm).resolve_left fun e => hl (e ▸ rfl)

theorem bankH_eq (cls : Nat) (ts : List TrapLane) : bankH cls ts = ts.foldl (fun h t => putWords 32 0 t.lane 0 (handlerWords cls t) h) [] := by
  simp only [bankH, handlerFold_putWords]

theorem sget_bankH (cls : Nat) {ts : List TrapLane} {y : TrapLane} (hy : y ∈ ts) (hts : ∀ z ∈ ts, z.lane < 32 ∧ (z.lane = y.lane → z = y)) {j : Nat} (hj : j < 8) :
    sget 0 (32 * j + y.lane) (bankH cls ts) = (handlerWords cls y).getD j 0 := by
  rw [bankH_eq]
  exact sget_bankFold cls y hj hts (hts y hy).1 (.inl hy)

/-- The bank that an entering sub-warp takes at a cycle. -/
def entryBank (w : Warp) (x : SubWarp) (entry cycle : Nat) : Bank :=
  { warp := w.id, sub := x, entry := w.lanes.map fun l => (l.hdr, l.idx), posSet := 0, h := bankH x.cls x.lanes, movx := 0,
    lanes := (List.range 32).map fun n => if (trapMask x.lanes).getLsbD n then { Lane.init with hdr := entry } else { Lane.init with exited := true },
    pace := { Pace.init with notBefore := cycle, readySince := some cycle } }

/-- The warp of an entering sub-warp. -/
def handed (x : SubWarp) (w : Warp) : Warp :=
  { w with lanes := mapLanes (trapMask x.lanes) (fun l => { l with park := .handler }) w.lanes, traps := w.traps.erase x }

variable {s u : State} {q : Nat} {w : Warp} {x : SubWarp} {c : Ctx}

theorem enterHandler_eq (u : State) (w : Warp) (x : SubWarp) (entry : Nat) : u.enterHandler w x entry =
    (u.onWarp w.id (handed x)).onQuad w.q fun k => { k with bank := some (entryBank w x entry k.cycle) } := by
  have warps : (u.onLanes w false (trapMask x.lanes) fun l => { l with park := .handler }).onWarp w.id (fun y => { y with traps := y.traps.erase x }) = u.onWarp w.id (handed x) :=
    onWarp_onWarp w.id _ fun _ => rfl
  rw [← warps]
  rfl

theorem coreXl_warps (s : State) (core group va : Nat) (a : Acc) : (s.coreXl core group va a).2.2.warps = s.warps := by
  unfold State.coreXl
  cases s.tlbHit core group va with
  | none => dsimp only; split <;> rfl
  | some l =>
    dsimp only
    split
    · rfl
    · split <;> rfl

theorem exec_handlerEntry (hbank : (s.quad q).bank = none) (on : s.quadOff q = false) (hn : s.nextSub q = some (w, x)) (hr : s.entryReady w x = true) :
    exec (.handlerEntry q) s = .next (s.enterTable w x) := by
  show execHandlerEntry q s = _
  simp only [execHandlerEntry, hbank, on, hn, hr, Option.isSome_none, Bool.or_self, Bool.false_eq_true, if_false, if_true]

theorem enterTable_none (hc : s.ctx? w.ctx = some c) (h : c.htab = 0) : s.enterTable w x = s.noHandler w x := by
  simp only [State.enterTable, hc, Option.getD_some, h, decide_true, Bool.true_or, if_true]

theorem enterTable_entry {t : Tgt} {ao miss : Bool} {b : List Byte} (hc : s.ctx? w.ctx = some c) (h : c.htab ≠ 0) (ha : c.htab + 8 * x.cls < 2 ^ 52)
    (hx : s.coreXl w.core c.group (c.htab + 8 * x.cls) .read = (.ok t ao, miss, u)) (hb : u.readTgt t 8 = .ok b) (hz : ofBytes b ≠ 0) (hh : ofBytes b ∈ c.heads) :
    s.enterTable w x = u.enterHandler w x (ofBytes b) := by
  have place : (decide (c.htab = 0) || decide (2 ^ 52 ≤ c.htab + 8 * x.cls)) = false := by
    rw [decide_eq_false h, decide_eq_false (Nat.not_le.2 ha), Bool.or_self]
  have recorded : (decide (ofBytes b ≠ 0) && c.recorded (ofBytes b)) = true := by
    rw [decide_eq_true hz, Bool.true_and]
    exact List.contains_iff_mem.2 hh
  simp only [State.enterTable, hc, Option.getD_some, place, Bool.false_eq_true, if_false, hx, hb]
  exact if_pos recorded

/-- A sub-warp that enters its handler: its lanes are away, its trap is taken, and the bank holds its lanes at the header. -/
theorem enterHandler_holds (u : State) (w : Warp) (x : SubWarp) (entry : Nat) (hw : u.warp? w.id = some w) (hl : w.lanes.length = 32) :
    ∃ (k : Bank) (w' : Warp), let v := u.enterHandler w x entry
      v = { u with warps := v.warps, quads := v.quads } ∧ v.quad w.q = { u.quad w.q with bank := some k } ∧ (∀ j, j ≠ w.q → v.quad j = u.quad j) ∧
      v.warp? w.id = some w' ∧ (∀ j, j ≠ w.id → v.warp? j = u.warp? j) ∧ w' = { w with lanes := w'.lanes, traps := w.traps.erase x } ∧
      k.warp = w.id ∧ k.sub = x ∧ k.posSet = 0 ∧ k.movx = 0 ∧ (k.entry = w.lanes.map fun l => (l.hdr, l.idx)) ∧
      (∀ l, l < 32 → laneAt w'.lanes l = if (trapMask x.lanes).getLsbD l then { laneAt w.lanes l with park := .handler } else laneAt w.lanes l) ∧
      (∀ l, l < 32 → laneAt k.lanes l = if (trapMask x.lanes).getLsbD l then { Lane.init with hdr := entry } else { Lane.init with exited := true }) ∧
      ∀ y ∈ x.lanes, (∀ z ∈ x.lanes, z.lane < 32 ∧ (z.lane = y.lane → z = y)) → ∀ j, j < 8 → sget 0 (32 * j + y.lane) k.h = (handlerWords x.cls y).getD j 0 := by
  rw [enterHandler_eq]
  refine ⟨entryBank w x entry (u.quad w.q).cycle, handed x w, rfl, quad_onQuad_same _, fun j hj => (quad_onQuad ..).trans (if_neg hj), ?_,
    fun j hj => onWarp_warp?_of_ne hj fun _ => rfl, rfl, rfl, rfl, rfl, rfl, rfl, fun l h => laneAt_mapLanes _ _ _ _ (hl.symm ▸ h), fun l h => ?_,
    fun y hy hts j hj => sget_bankH x.cls hy hts hj⟩
  · show (u.onWarp w.id (handed x)).warp? w.id = _
    rw [warp?_onWarp (f := handed x) _ _ fun _ => rfl, hw]
    exact congrArg some (if_pos rfl)
  · rw [entryBank, laneAt, List.getD_eq_getElem _ _ (by simpa using h), List.getElem_map, List.getElem_range]

end Entry

theorem fetchesAndHandlers : FetchesAndHandlers := by
  refine ⟨fun s n f t u hf ht => ⟨fun b hb => ?_, fun c hc => ?_⟩, fun s n f miss u hf hl => ⟨exec_fill_svc hf hl, fun pa => exec_fill_abort hf hl⟩,
    fun s n f c miss u hf hl => exec_fill_fault hf hl, fun s q w x => nextSub_least, fun s q w x c hbank on hn hr hc hw hl => ⟨fun hz => ?_, ?_⟩⟩
  · obtain ⟨p, more, rest, paid, filled⟩ := fillFrom_ok (f := f) hb
    exact ⟨p, _, more, rest, exec_fill hf ht, paid, filled⟩
  · exact (exec_fill hf ht).trans (congrArg _ (fillFrom_error hc))
  · rw [exec_handlerEntry hbank on hn hr, enterTable_none hc hz]
  · intro t ao miss u b hz ha hx hb hn0 hh
    obtain rfl : w.q = q := (nextSub_least hn).2.1
    have lookup (j : Nat) : u.warp? j = s.warp? j := by
      rw [State.warp?, State.warp?, ← coreXl_warps s w.core c.group (c.htab + 8 * x.cls) .read, hx]
    obtain ⟨k, w', changed, bank, quads, warp, warps, rest⟩ := enterHandler_holds u w x (ofBytes b) ((lookup _).trans hw) hl
    exact ⟨_, k, w', by rw [exec_handlerEntry hbank on hn hr, enterTable_entry hc hz ha hx hb hn0 hh], changed, bank, quads, warp,
      fun j hj => (warps j hj).trans (lookup j), rest⟩

end Sys2Proof.Machine

/-! PROOF. R93: uncommitted instructions that issue again. -/

namespace Sys2Proof.Machine

open Claims

/-! ## The cycles at which they issue again -/

section Times

variable {s : State} {t₀ b : Nat}

theorem gap_eq (s : State) (b : Nat) (r y : Recent) : s.gap b r y = keepsBack s b r y := by
  unfold State.gap keepsBack
  cases s.warp? r.warp with
  | none => rfl
  | some w =>
    cases r.instr with
    | none => rfl
    | some i =>
      cases y.instr with
      | none => rfl
      | some j =>
        have touched : ((readKeys j ++ writeKeys j).any (writeKeys i).contains = true) ↔ ∃ k ∈ readKeys j ++ writeKeys j, k ∈ writeKeys i := by
          simp only [List.any_eq_true, List.contains_iff_mem]
        simp only [touched]

/-- A cycle no earlier than a start and than what the instructions of one issuer keep back. -/
theorem foldl_latest {α : Type} (mine : α → Bool) (g : α → Nat) (l : List α) (t : Nat) :
    (t ≤ l.foldl (fun n x => if mine x then max n (g x) else n) t ∧ ∀ x ∈ l, mine x = true → g x ≤ l.foldl (fun n x => if mine x then max n (g x) else n) t) ∧
    ∀ n, t ≤ n → (∀ x ∈ l, mine x = true → g x ≤ n) → l.foldl (fun n x => if mine x then max n (g x) else n) t ≤ n := by
  induction l generalizing t with
  | nil => exact ⟨⟨le_rfl, by simp⟩, fun n hn _ => hn⟩
  | cons a l ih =>
    rw [List.foldl_cons]
    by_cases ha : mine a = true
    · obtain ⟨⟨above, each⟩, least⟩ := ih (max t (g a))
      rw [if_pos ha]
      refine ⟨⟨(le_max_left ..).trans above, fun x hx hm => ?_⟩, fun n hn h => least n (max_le hn (h a (List.mem_cons_self ..) ha)) fun x hx => h x (List.mem_cons_of_mem _ hx)⟩
      obtain rfl | hx := List.mem_cons.1 hx
      · exact (le_max_right ..).trans above
      · exact each x hx hm
    · obtain ⟨⟨above, each⟩, least⟩ := ih t
      rw [if_neg ha]
      refine ⟨⟨above, fun x hx hm => ?_⟩, fun n hn h => least n hn fun x hx => h x (List.mem_cons_of_mem _ hx)⟩
      obtain rfl | hx := List.mem_cons.1 hx
      · exact absurd hm ha
      · exact each x hx hm

/-- Instruction `k` of those that issue again may do so at a cycle: the rewrite, the one before it and its own issuer's earlier ones allow it. -/
def MayAt (s : State) (t₀ b : Nat) (rs : List (Recent × Nat)) (k : Nat) (y : Recent) (n : Nat) : Prop :=
  t₀ ≤ n ∧ (∀ x, 0 < k → rs[k - 1]? = some x → x.2 + b ≤ n) ∧
    ∀ j x, j < k → rs[j]? = some x → x.1.warp = y.warp → x.1.hnd = y.hnd → x.2 + s.gap b x.1 y ≤ n

/-- Each issues at the first cycle that it may. -/
def Timed (s : State) (t₀ b : Nat) (rs : List (Recent × Nat)) : Prop :=
  ∀ k x, rs[k]? = some x → MayAt s t₀ b rs k x.1 x.2 ∧ ∀ n, MayAt s t₀ b rs k x.1 n → x.2 ≤ n

/-- The first issue slot after those given. -/
def slotAfter (t₀ b : Nat) (rs : List (Recent × Nat)) : Nat := (rs.getLast?.map fun x => x.2 + b).getD t₀

theorem mayAt_append {rs l : List (Recent × Nat)} {k : Nat} (hk : k ≤ rs.length) (y : Recent) (n : Nat) : MayAt s t₀ b (rs ++ l) k y n ↔ MayAt s t₀ b rs k y n := by
  have before (j : Nat) (hj : j < k) : (rs ++ l)[j]? = rs[j]? := List.getElem?_append_left (by omega)
  refine and_congr_right fun _ => and_congr (forall_congr' fun x => ?_) (forall_congr' fun j => forall_congr' fun x => ?_)
  · refine forall_congr' fun hk => ?_
    rw [before _ (by omega)]
  · refine forall_congr' fun hj => ?_
    rw [before _ hj]

/-- The next instruction may issue once its slot has come and its own issuer's earlier ones allow it. -/
theorem mayAt_length {rs : List (Recent × Nat)} (h : Timed s t₀ b rs) (y : Recent) (n : Nat) : MayAt s t₀ b rs rs.length y n ↔
    slotAfter t₀ b rs ≤ n ∧ ∀ x ∈ rs, (decide (x.1.warp = y.warp) && decide (x.1.hnd = y.hnd)) = true → x.2 + s.gap b x.1 y ≤ n := by
  have slot : (t₀ ≤ n ∧ ∀ x, 0 < rs.length → rs[rs.length - 1]? = some x → x.2 + b ≤ n) ↔ slotAfter t₀ b rs ≤ n := by
    rw [slotAfter, List.getLast?_eq_getElem?]
    cases hl : rs[rs.length - 1]? with
    | none => simp
    | some x =>
      have := (h _ x hl).1.1
      have pos : 0 < rs.length := by
        have := (List.getElem?_eq_some_iff.1 hl).1
        omega
      simp only [Option.some.injEq, forall_eq', pos, true_implies, Option.map_some, Option.getD_some]
      omega
  rw [MayAt, ← and_assoc, slot]
  refine and_congr_right fun _ => ⟨fun own x hx same => ?_, fun own j x hj hx hw hh => own x (List.mem_of_getElem? hx) (by simp [hw, hh])⟩
  obtain ⟨hw, hh⟩ : x.1.warp = y.warp ∧ x.1.hnd = y.hnd := by simpa using same
  obtain ⟨j, hj, rfl⟩ := List.mem_iff_getElem.1 hx
  exact own j _ hj (List.getElem?_eq_getElem hj) hw hh

/-- The cycle at which the next one issues. -/
def issueAt (s : State) (b : Nat) (rs : List (Recent × Nat)) (y : Recent) (t : Nat) : Nat :=
  rs.foldl (fun n x => if x.1.warp = y.warp && x.1.hnd = y.hnd then max n (x.2 + s.gap b x.1 y) else n) t

theorem timed_snoc {rs : List (Recent × Nat)} (h : Timed s t₀ b rs) (y : Recent) : Timed s t₀ b (rs ++ [(y, issueAt s b rs y (slotAfter t₀ b rs))]) := by
  intro k x hx
  have inside : k ≤ rs.length := by
    have := (List.getElem?_eq_some_iff.1 hx).1
    simp only [List.length_append, List.length_singleton] at this
    omega
  simp only [mayAt_append inside]
  obtain hk | rfl := Nat.lt_or_eq_of_le inside
  · rw [List.getElem?_append_left hk] at hx
    exact h k x hx
  · obtain rfl : (y, issueAt s b rs y (slotAfter t₀ b rs)) = x := by simpa using hx
    simp only [mayAt_length h]
    obtain ⟨may, least⟩ := foldl_latest (fun x : Recent × Nat => decide (x.1.warp = y.warp) && decide (x.1.hnd = y.hnd)) (fun x => x.2 + s.gap b x.1 y) rs (slotAfter t₀ b rs)
    exact ⟨may, fun n hn => least n hn.1 hn.2⟩

theorem reissueAt_timed {got : List (Recent × Nat)} (h : Timed s t₀ b got) (l : List Recent) :
    Timed s t₀ b (s.reissueAt b (slotAfter t₀ b got) got l) ∧ (s.reissueAt b (slotAfter t₀ b got) got l).map (·.1) = got.map (·.1) ++ l := by
  induction l generalizing got with
  | nil => exact ⟨h, (List.append_nil _).symm⟩
  | cons y l ih =>
    have next : slotAfter t₀ b (got ++ [(y, issueAt s b got y (slotAfter t₀ b got))]) = issueAt s b got y (slotAfter t₀ b got) + b := by simp [slotAfter]
    have again := ih (timed_snoc h y)
    rw [next] at again
    rw [State.reissueAt]
    refine ⟨again.1, again.2.trans ?_⟩
    rw [List.map_append, List.append_assoc]
    rfl

/-- The uncommitted instructions of a quadrant, each with the cycle at which it issues again. -/
def againAt (s : State) (q : Nat) : List (Recent × Nat) := s.reissueAt (s.quad q).beats ((s.quad q).cycle + 32) [] (s.quad q).open

theorem againAt_timed (s : State) (q : Nat) : Timed s ((s.quad q).cycle + 32) (s.quad q).beats (againAt s q) ∧ (againAt s q).map (·.1) = (s.quad q).open :=
  reissueAt_timed (t₀ := (s.quad q).cycle + 32) (got := []) (fun _ _ h => nomatch h) (s.quad q).open

theorem againAt_zip (s : State) (q : Nat) : (s.quad q).open.zip ((againAt s q).map (·.2)) = againAt s q := by
  rw [← (againAt_timed s q).2]
  exact (List.zip_of_prod rfl rfl).symm

theorem againAt_spaced (s : State) (q : Nat) : Spaced s (s.quad q) ((againAt s q).map (·.2)) := by
  obtain ⟨timed, instrs⟩ := againAt_timed s q
  have length := congrArg List.length instrs
  refine ⟨by simpa using length, fun k t ht => ?_⟩
  rw [List.getElem?_map, Option.map_eq_some_iff] at ht
  obtain ⟨x, hx, rfl⟩ := ht
  have cycles (j : Nat) (u : Nat) : ((againAt s q).map (·.2))[j]? = some u ↔ ∃ y, (againAt s q)[j]? = some y ∧ y.2 = u := by
    rw [List.getElem?_map, Option.map_eq_some_iff]
  have opens (j : Nat) (y : Recent × Nat) (hy : (againAt s q)[j]? = some y) : (s.quad q).open[j]? = some y.1 := by
    rw [← instrs, List.getElem?_map, hy]
    rfl
  have may (n : Nat) : MayAt s ((s.quad q).cycle + 32) (s.quad q).beats (againAt s q) k x.1 n ↔
      (s.quad q).cycle + 32 ≤ n ∧ (∀ u, 0 < k → ((againAt s q).map (·.2))[k - 1]? = some u → u + (s.quad q).beats ≤ n) ∧
        ∀ (j u : Nat) (r y : Recent), j < k → ((againAt s q).map (·.2))[j]? = some u → (s.quad q).open[j]? = some r → (s.quad q).open[k]? = some y →
          r.warp = y.warp → r.hnd = y.hnd → u + keepsBack s (s.quad q).beats r y ≤ n := by
    refine and_congr_right fun _ => and_congr ⟨fun h u hk hu => ?_, fun h y hk hy => h _ hk ((cycles _ _).2 ⟨y, hy, rfl⟩)⟩
      ⟨fun h j u r y hj hu hr hy hw hh => ?_, fun h j y hj hy hw hh => ?_⟩
    · obtain ⟨y, hy, rfl⟩ := (cycles _ _).1 hu
      exact h y hk hy
    · obtain ⟨z, hz, rfl⟩ := (cycles _ _).1 hu
      obtain rfl : z.1 = r := by simpa [opens j z hz] using hr
      obtain rfl : x.1 = y := by simpa [opens k x hx] using hy
      rw [← gap_eq]
      exact h j z hj hz hw hh
    · rw [gap_eq]
      exact h j y.2 y.1 x.1 hj ((cycles _ _).2 ⟨y, hy, rfl⟩) (opens j y hy) (opens k x hx) hw hh
  exact ⟨(may _).1 (timed k x hx).1, fun n hn => (timed k x hx).2 n ((may n).2 hn)⟩

end Times

/-! ## What they change -/

section Effects

variable {s : State} {q b₀ b : Nat}

/-- A warp as one of its own instructions that issues again leaves it. -/
def reissued (last : Recent → Bool) (b₀ b : Nat) (w : Warp) (x : Recent × Nat) : Warp :=
  if w.id = x.1.warp then
    { w with
      fixed := w.fixed.map fun f => if f.issued = x.1.issued then { f with issued := x.2, due := x.2 + (f.due - f.issued) + b - b₀ } else f
      pace := if last x.1 = true ∧ x.1.hnd = false then { w.pace with notBefore := x.2 + x.1.stall, readyFrom := x.2 + b } else w.pace
      movx := if last x.1 = true ∧ x.1.hnd = false then (if x.1.issued < w.movx then w.movx + (x.2 - x.1.issued) else w.movx) else w.movx }
  else w

theorem reissued_id (last : Recent → Bool) (b₀ b : Nat) (w : Warp) (x : Recent × Nat) : (reissued last b₀ b w x).id = w.id := by
  rw [reissued]
  split <;> rfl

/-- Two states that differ in their warps and quadrants alone. -/
def SameElse (s t : State) : Prop := t = { s with warps := t.warps, quads := t.quads }

theorem SameElse.trans {s t u : State} (h : SameElse s t) (k : SameElse t u) : SameElse s u := by
  have lent := congrArg (fun z : State => ({ z with warps := u.warps, quads := u.quads } : State)) h
  exact Eq.trans k lent

theorem reissue_only (s : State) (q : Nat) (r : Recent) (last : Bool) (n : Nat) : let t := s.reissue q r last n b₀ b
    SameElse s t ∧ ∀ j, j ≠ q → t.quad j = s.quad j := by
  dsimp only
  unfold State.reissue
  cases last with
  | false => exact ⟨rfl, fun _ _ => rfl⟩
  | true =>
    cases r.hnd with
    | true => exact ⟨rfl, fun j hj => (quad_onQuad ..).trans (if_neg hj)⟩
    | false => exact ⟨rfl, fun _ _ => rfl⟩

theorem reissue_warps (s : State) (q : Nat) (last : Recent → Bool) (x : Recent × Nat) :
    (s.reissue q x.1 (last x.1) x.2 b₀ b).warps = s.warps.map fun w => reissued last b₀ b w x := by
  unfold State.reissue reissued
  cases last x.1 with
  | false =>
    simp only [Bool.not_false, if_true, Bool.false_eq_true, false_and, if_false]
    rfl
  | true =>
    cases x.1.hnd with
    | true =>
      simp only [Bool.not_true, Bool.false_eq_true, if_false, if_true, and_false, Bool.true_eq_false]
      rfl
    | false =>
      simp only [Bool.not_true, Bool.false_eq_true, if_false, and_self, if_true]
      rw [onWarp_onWarp]
      · simp only [decide_eq_true_eq]
        rfl
      · exact fun _ => rfl

/-- Instructions that issue again, one after another. -/
theorem reissues_hold (last : Recent → Bool) (rs : List (Recent × Nat)) (s : State) : let t := rs.foldl (fun s x => s.reissue q x.1 (last x.1) x.2 b₀ b) s
    SameElse s t ∧ (∀ j, j ≠ q → t.quad j = s.quad j) ∧ t.warps = s.warps.map fun w => rs.foldl (reissued last b₀ b) w := by
  induction rs generalizing s with
  | nil => exact ⟨rfl, fun _ _ => rfl, (List.map_id _).symm⟩
  | cons x rs ih =>
    obtain ⟨only, quads⟩ := reissue_only (b₀ := b₀) (b := b) s q x.1 (last x.1) x.2
    obtain ⟨only', quads', warps⟩ := ih (s.reissue q x.1 (last x.1) x.2 b₀ b)
    refine ⟨only.trans only', fun j hj => (quads' j hj).trans (quads j hj), ?_⟩
    rw [List.foldl_cons, warps, reissue_warps, List.map_map]
    rfl

/-! ### One warp's part -/

section Own

variable {last : Recent → Bool} {w : Warp} {rs : List (Recent × Nat)} {x : Recent × Nat}

theorem reissued_of_ne (h : x.1.warp ≠ w.id) : reissued last b₀ b w x = w := if_neg h.symm

theorem foldl_reissued_id (rs : List (Recent × Nat)) (w : Warp) : (rs.foldl (reissued last b₀ b) w).id = w.id :=
  foldl_keeps (·.id) (reissued_id last b₀ b) rs w

theorem reissued_only (last : Recent → Bool) (b₀ b : Nat) (w : Warp) (x : Recent × Nat) : let w' := reissued last b₀ b w x
    w' = { w with pace := w'.pace, fixed := w'.fixed, movx := w'.movx } := by
  unfold reissued
  by_cases h : w.id = x.1.warp
  · simp only [if_pos h]
  · simp only [if_neg h]

theorem foldl_reissued_only (rs : List (Recent × Nat)) (w : Warp) : let w' := rs.foldl (reissued last b₀ b) w
    w' = { w with pace := w'.pace, fixed := w'.fixed, movx := w'.movx } := by
  induction rs generalizing w with
  | nil => rfl
  | cons x rs ih =>
    have own := ih (reissued last b₀ b w x)
    rw [List.foldl_cons]
    generalize rs.foldl (reissued last b₀ b) (reissued last b₀ b w x) = w' at own
    have first := congrArg (fun v : Warp => ({ v with pace := w'.pace, fixed := w'.fixed, movx := w'.movx } : Warp)) (reissued_only last b₀ b w x)
    exact own.trans first

theorem foldl_reissued_of_ne (h : ∀ x ∈ rs, x.1.warp ≠ w.id) : rs.foldl (reissued last b₀ b) w = w := foldl_unchanged fun x hx => reissued_of_ne (h x hx)

/-- An instruction in a handler leaves its warp's own times. -/
theorem foldl_reissued_handler (h : ∀ x ∈ rs, x.1.warp = w.id → x.1.hnd = true) :
    (rs.foldl (reissued last b₀ b) w).pace = w.pace ∧ (rs.foldl (reissued last b₀ b) w).movx = w.movx := by
  induction rs generalizing w with
  | nil => exact ⟨rfl, rfl⟩
  | cons x rs ih =>
    have here := h x (List.mem_cons_self ..)
    obtain ⟨pace, movx⟩ := ih (w := reissued last b₀ b w x) fun y hy hw => h y (List.mem_cons_of_mem _ hy) (hw.trans (reissued_id ..))
    have kept : (reissued last b₀ b w x).pace = w.pace ∧ (reissued last b₀ b w x).movx = w.movx := by
      rw [reissued]
      split
      next hw =>
        have away : ¬(last x.1 = true ∧ x.1.hnd = false) := by simp [here hw.symm]
        exact ⟨if_neg away, if_neg away⟩
      next => exact ⟨rfl, rfl⟩
    exact ⟨pace.trans kept.1, movx.trans kept.2⟩

/-- The last instruction of a warp outside its handler gives the warp its times. -/
theorem foldl_reissued_last {l r : List (Recent × Nat)} (hw : x.1.warp = w.id) (hh : x.1.hnd = false) (hl : last x.1 = true)
    (later : ∀ y ∈ r, y.1.warp = w.id → y.1.hnd = true) : let w' := (l ++ x :: r).foldl (reissued last b₀ b) w
    w'.pace.notBefore = x.2 + x.1.stall ∧ w'.pace.readyFrom = x.2 + b := by
  dsimp only
  rw [List.foldl_append, List.foldl_cons]
  have own : (l.foldl (reissued last b₀ b) w).id = x.1.warp := (foldl_reissued_id l w).trans hw.symm
  have after := (foldl_reissued_handler (last := last) (b₀ := b₀) (b := b) (w := reissued last b₀ b (l.foldl (reissued last b₀ b) w) x) (rs := r) fun y hy hyw =>
    later y hy (hyw.trans ((reissued_id ..).trans (foldl_reissued_id l w)))).1
  rw [after, reissued, if_pos own, hl, hh]
  exact ⟨rfl, rfl⟩

/-- A warp's only instruction gives its results their times. -/
theorem foldl_reissued_only_one {l r : List (Recent × Nat)} (hw : x.1.warp = w.id) (hl : ∀ y ∈ l, y.1.warp ≠ w.id) (hr : ∀ y ∈ r, y.1.warp ≠ w.id) :
    ((l ++ x :: r).foldl (reissued last b₀ b) w).fixed =
      w.fixed.map fun f => if f.issued = x.1.issued then { f with issued := x.2, due := x.2 + (f.due - f.issued) + b - b₀ } else f := by
  rw [List.foldl_append, List.foldl_cons, foldl_reissued_of_ne hl,
    foldl_reissued_of_ne fun y hy => (reissued_id last b₀ b w x).symm ▸ hr y hy, reissued, if_pos hw.symm]

end Own

/-- An issuer's last uncommitted instruction. -/
def lastOf (l : List Recent) (r : Recent) : Bool := (l.filter fun y => decide (y.warp = r.warp) && decide (y.hnd = r.hnd)).getLast? = some r

theorem lastOf_append {l t : List Recent} {r : Recent} (h : ∀ y ∈ t, ¬(y.warp = r.warp ∧ y.hnd = r.hnd)) : lastOf (l ++ r :: t) r = true := by
  have later : (t.filter fun y => decide (y.warp = r.warp) && decide (y.hnd = r.hnd)) = [] := List.filter_eq_nil_iff.2 fun y hy => by simpa using h y hy
  rw [lastOf, List.filter_append, List.filter_cons_of_pos (by simp), later, List.getLast?_concat]
  exact decide_eq_true rfl

theorem reissueAll_eq (s : State) (q b₀ : Nat) : s.reissueAll q b₀ =
    ((againAt s q).foldl (fun t x => t.reissue q x.1 (lastOf (s.quad q).open x.1) x.2 b₀ (s.quad q).beats) s).onQuad q fun y =>
      { y with slotAt := slotAfter ((s.quad q).cycle + 32) (s.quad q).beats (againAt s q),
               recent := (againAt s q).map fun r => r.1.again r.2 b₀ (s.quad q).beats } := rfl

/-- An item of a list, with those before it and those after it. -/
theorem split_at {α : Type} {l : List α} {k : Nat} {a : α} (h : l[k]? = some a) : ∃ p r, l = p ++ a :: r ∧ p.length = k := by
  obtain ⟨hk, rfl⟩ := List.getElem?_eq_some_iff.1 h
  exact ⟨l.take k, l.drop (k + 1), by rw [← List.drop_eq_getElem_cons hk, List.take_append_drop], by rw [List.length_take]; omega⟩

theorem exists_getElem?_after {α : Type} {p l : List α} {a y : α} (h : y ∈ l) : ∃ j, p.length < j ∧ (p ++ a :: l)[j]? = some y := by
  obtain ⟨j, hj⟩ := List.mem_iff_getElem?.1 h
  refine ⟨p.length + (j + 1), by omega, ?_⟩
  rw [List.getElem?_append_right (Nat.le_add_right ..), Nat.add_sub_cancel_left, List.getElem?_cons_succ, hj]

theorem exists_getElem?_before {α : Type} {p l : List α} {y : α} (h : y ∈ p) : ∃ j, j < p.length ∧ (p ++ l)[j]? = some y := by
  obtain ⟨j, hj⟩ := List.mem_iff_getElem?.1 h
  have inside := (List.getElem?_eq_some_iff.1 hj).1
  exact ⟨j, inside, by rw [List.getElem?_append_left inside, hj]⟩

theorem warp?_of_map {s t : State} {g : Warp → Warp} (h : t.warps = s.warps.map g) (hg : ∀ w, (g w).id = w.id) (i : Nat) : t.warp? i = (s.warp? i).map g := by
  rw [State.warp?, h, List.find?_map, State.warp?]
  exact congrArg (fun p => (s.warps.find? p).map g) (funext fun w => by rw [Function.comp_apply, hg])

theorem reissues : Reissues := by
  intro s q b₀ x t
  obtain ⟨only, quads, warps⟩ := reissues_hold (q := q) (b₀ := b₀) (b := x.beats) (lastOf x.open) (againAt s q) s
  have instrs := (againAt_timed s q).2
  have opened (k : Nat) (y : Recent × Nat) (hy : (againAt s q)[k]? = some y) : x.open[k]? = some y.1 := by
    rw [← instrs, List.getElem?_map, hy]
    rfl
  have among (y : Recent × Nat) (hy : y ∈ againAt s q) : y.1 ∈ x.open := instrs ▸ List.mem_map_of_mem hy
  have all := reissueAll_eq s q b₀
  refine ⟨(againAt s q).map (·.2), againAt_spaced s q, ?_, fun j hj => ?_, ?_, ?_, fun i w hw => ?_⟩
  · rw [show t = _ from all]
    exact only.trans rfl
  · rw [show t = _ from all, quad_onQuad, if_neg hj]
    exact quads j hj
  · rw [show t = _ from all, quad_onQuad_same, List.getLast?_map, Option.map_map]
    rfl
  · rw [show t = _ from all, quad_onQuad_same, againAt_zip]
    rfl
  · have hid : w.id = i := warp?_id hw
    have issues (k : Nat) (r : Recent) (n : Nat) (hr : x.open[k]? = some r) (hn : ((againAt s q).map (·.2))[k]? = some n) : (againAt s q)[k]? = some (r, n) := by
      rw [List.getElem?_map, Option.map_eq_some_iff] at hn
      obtain ⟨y, hy, rfl⟩ := hn
      obtain rfl : y.1 = r := by simpa [opened k y hy] using hr
      exact hy
    refine ⟨(againAt s q).foldl (reissued (lastOf x.open) b₀ x.beats) w, ?_, foldl_reissued_only _ w,
      fun none => ?_, fun handlers => ?_, fun k r n hr hi hn => ⟨fun hh latest => ?_, fun one => ?_⟩⟩
    · rw [show t = _ from all]
      exact (warp?_of_map (t := State.onQuad _ _ _) warps (foldl_reissued_id _) i).trans (congrArg _ hw)
    · exact foldl_reissued_of_ne fun y hy => hid.symm ▸ none y.1 (among y hy)
    · exact foldl_reissued_handler fun y hy hyw => handlers y.1 (among y hy) (hyw.trans hid)
    · obtain ⟨p, l, list, rfl⟩ := split_at (issues k r n hr hn)
      have after (y : Recent × Nat) (hy : y ∈ l) (hyw : y.1.warp = i) : y.1.hnd = true := by
        obtain ⟨j, hj, place⟩ := exists_getElem?_after (p := p) (a := (r, n)) hy
        by_contra hy
        have := latest j y.1 (opened j y (list ▸ place)) hyw (Bool.eq_false_iff.2 hy)
        omega
      have last : lastOf x.open r = true := by
        have opens : x.open = p.map (·.1) ++ r :: l.map (·.1) := by rw [← instrs, list, List.map_append, List.map_cons]
        rw [opens]
        refine lastOf_append fun z hz same => ?_
        obtain ⟨y, hy, rfl⟩ := List.mem_map.1 hz
        have := after y hy (same.1.trans hi)
        rw [same.2, hh] at this
        exact Bool.false_ne_true this
      rw [list]
      exact foldl_reissued_last (x := (r, n)) (hi.trans hid.symm) hh last fun y hy hyw => after y hy (hyw.trans hid)
    · obtain ⟨p, l, list, rfl⟩ := split_at (issues k r n hr hn)
      rw [list]
      refine foldl_reissued_only_one (x := (r, n)) (hi.trans hid.symm) (fun y hy hyw => ?_) fun y hy hyw => ?_
      · obtain ⟨j, hj, place⟩ := exists_getElem?_before (l := (r, n) :: l) hy
        exact absurd (one j y.1 (opened j y (list ▸ place)) (hyw.trans hid)) hj.ne
      · obtain ⟨j, hj, place⟩ := exists_getElem?_after (p := p) (a := (r, n)) hy
        exact absurd (one j y.1 (opened j y (list ▸ place)) (hyw.trans hid)) hj.ne'

end Effects
end Sys2Proof.Machine

/-! PROOF. R95, R106: an uncommitted instruction that is discarded. -/

namespace Sys2Proof.Machine

open Claims

/-! ## Values put back -/

section PutBack

variable {s : State} {w : Warp}

/-- A warp with a key's value put back in a lane. -/
def putBack (k lane : Nat) (x : Word) (w : Warp) : Warp :=
  if k < 640 then { w with v := putWords 32 k lane 0 [x] w.v }
  else if k < 704 then { w with s := putWords 1 (k - 640) 0 0 [x] w.s }
  else { w with p := supd 0 (k - 1024) (fun m => setBit m lane (decide (x ≠ 0))) w.p }

/-- Two warps that differ in registers and predicates alone. -/
def SameBeside (w y : Warp) : Prop := y = { w with v := y.v, s := y.s, p := y.p }

theorem SameBeside.trans {w y z : Warp} (h : SameBeside w y) (k : SameBeside y z) : SameBeside w z := by
  have lent := congrArg (fun u : Warp => ({ u with v := z.v, s := z.s, p := z.p } : Warp)) h
  exact Eq.trans k lent

theorem SameBeside.id {w y : Warp} (h : SameBeside w y) : y.id = w.id := by rw [h]

theorem foldl_sameBeside {α : Type} {g : Warp → α → Warp} (hg : ∀ w a, SameBeside w (g w a)) (l : List α) (w : Warp) : SameBeside w (l.foldl g w) := by
  induction l generalizing w with
  | nil => rfl
  | cons a l ih => exact (hg w a).trans (ih (g w a))

theorem putBack_sameBeside (k lane : Nat) (x : Word) (w : Warp) : SameBeside w (putBack k lane x w) := by
  unfold SameBeside putBack
  by_cases hv : k < 640
  · simp only [if_pos hv]
  · by_cases hs : k < 704
    · simp only [if_neg hv, if_pos hs]
    · simp only [if_neg hv, if_neg hs]

theorem putKey_eq (s : State) (w : Warp) {k : Nat} (hk : k < 704 ∨ 1024 ≤ k) (lane : Nat) (x : Word) : s.putKey w k lane x = s.onWarp w.id (putBack k lane x) := by
  unfold State.putKey State.wr State.wrP putBack
  by_cases hv : k < 640
  · simp only [hv, if_true, show k < 1024 by omega, List.foldl_cons, List.foldl_nil]
  · by_cases hs : k < 704
    · simp only [hv, if_false, hs, if_true, show k < 1024 by omega, List.foldl_cons, List.foldl_nil]
    · simp only [hv, if_false, hs, show ¬k < 1024 by omega, List.foldl_cons, List.foldl_nil]

/-- Updates of one warp, one after another, are one update of it. -/
theorem foldl_onWarp {α : Type} (i : Nat) {g : α → Warp → Warp} (hg : ∀ a w, (g a w).id = w.id) (l : List α) (s : State) :
    l.foldl (fun s a => s.onWarp i (g a)) s = s.onWarp i fun w => l.foldl (fun w a => g a w) w := by
  induction l generalizing s with
  | nil => exact (onWarp_id i).symm
  | cons a l ih => rw [List.foldl_cons, ih, onWarp_onWarp i _ (hg a)]; rfl

/-- A key's values put back in lanes. -/
def putLanes (lanes : Nat → List Nat) (k : Nat × List Word) (w : Warp) : Warp := (lanes k.1).foldl (fun w l => putBack k.1 l (k.2.getD l 0) w) w

/-- The values of some keys put back. -/
def putAll (lanes : Nat → List Nat) (regs : List (Nat × List Word)) (w : Warp) : Warp := regs.foldl (fun w k => putLanes lanes k w) w

theorem putLanes_sameBeside (lanes : Nat → List Nat) (k : Nat × List Word) (w : Warp) : SameBeside w (putLanes lanes k w) :=
  foldl_sameBeside (fun w l => putBack_sameBeside k.1 l (k.2.getD l 0) w) _ w

theorem putAll_sameBeside (lanes : Nat → List Nat) (regs : List (Nat × List Word)) (w : Warp) : SameBeside w (putAll lanes regs w) :=
  foldl_sameBeside (fun w k => putLanes_sameBeside lanes k w) regs w

theorem foldl_putKey (s : State) (w : Warp) (lanes : Nat → List Nat) {regs : List (Nat × List Word)} (hk : ∀ k ∈ regs, k.1 < 704 ∨ 1024 ≤ k.1) :
    regs.foldl (fun s k => (lanes k.1).foldl (fun s l => s.putKey w k.1 l (k.2.getD l 0)) s) s = s.onWarp w.id (putAll lanes regs) := by
  have one (k : Nat × List Word) (h : k ∈ regs) (s : State) : (lanes k.1).foldl (fun s l => s.putKey w k.1 l (k.2.getD l 0)) s = s.onWarp w.id (putLanes lanes k) := by
    simp only [putKey_eq _ w (hk k h)]
    exact foldl_onWarp w.id (fun l v => (putBack_sameBeside k.1 l _ v).id) _ s
  rw [List.foldl_ext _ (fun s k => s.onWarp w.id (putLanes lanes k)) _ fun s k h => one k h s]
  exact foldl_onWarp w.id (fun k v => (putLanes_sameBeside lanes k v).id) regs s

/-! ### What a place then holds -/

variable {β : Type} {obs : Warp → β} {val : Word → β} {κ l : Nat} {lanes : Nat → List Nat}

/-- A place of the warp is that of a key and a lane: what is put back there is what it holds. -/
def Holds (obs : Warp → β) (val : Word → β) (κ l : Nat) (lanes : Nat → List Nat) (k : Nat) : Prop :=
  ∀ a ∈ lanes k, ∀ x w, obs (putBack k a x w) = if k = κ ∧ a = l then val x else obs w

theorem obs_putLanes {k : Nat × List Word} (h : Holds obs val κ l lanes k.1) (w : Warp) :
    obs (putLanes lanes k w) = if k.1 = κ ∧ l ∈ lanes κ then val (k.2.getD l 0) else obs w := by
  have steps (as : List Nat) (has : ∀ a ∈ as, a ∈ lanes k.1) (w : Warp) :
      obs (as.foldl (fun w a => putBack k.1 a (k.2.getD a 0) w) w) = if k.1 = κ ∧ l ∈ as then val (k.2.getD l 0) else obs w := by
    induction as generalizing w with
    | nil => simp
    | cons a as ih =>
      rw [List.foldl_cons, ih (fun b hb => has b (List.mem_cons_of_mem _ hb)), h a (has a (List.mem_cons_self ..))]
      by_cases hk : k.1 = κ
      · by_cases hl : l ∈ as
        · simp [hk, hl]
        · by_cases ha : a = l
          · simp [hk, ha]
          · simp [hk, hl, ha, Ne.symm ha]
      · simp [hk]
  rw [putLanes, steps (lanes k.1) fun _ => id]
  by_cases hk : k.1 = κ <;> simp [hk]

theorem obs_putAll {regs : List (Nat × List Word)} (h : ∀ k ∈ regs, Holds obs val κ l lanes k.1) (hn : (regs.map (·.1)).Nodup) (w : Warp) :
    obs (putAll lanes regs w) = ((regs.find? fun k => k.1 = κ).map (·.2)).elim (obs w) fun x => if l ∈ lanes κ then val (x.getD l 0) else obs w := by
  induction regs generalizing w with
  | nil => rfl
  | cons k regs ih =>
    obtain ⟨fresh, hn⟩ := List.nodup_cons.1 hn
    have rest := ih (fun j hj => h j (List.mem_cons_of_mem _ hj)) hn (putLanes lanes k w)
    rw [putAll, List.foldl_cons]
    refine rest.trans ?_
    rw [obs_putLanes (h k (List.mem_cons_self ..))]
    by_cases hk : k.1 = κ
    · have none : (regs.find? fun j => j.1 = κ) = none := List.find?_eq_none.2 fun j hj hjk => fresh (List.mem_map.2 ⟨j, hj, (of_decide_eq_true hjk).trans hk.symm⟩)
      rw [none, List.find?_cons_of_pos (by simpa using hk)]
      simp [hk]
    · rw [List.find?_cons_of_neg (by simpa using hk), if_neg fun h => hk h.1]

/-! ### The three places -/

theorem holds_v {n : Nat} (hn : n < 640) (hl : l < 32) (ha : ∀ k, isS k = false → ∀ a ∈ lanes k, a < 32) (k : Nat) :
    Holds (fun w => sget 0 (32 * n + l) w.v) id n l lanes k := by
  intro a hm x w
  unfold putBack
  by_cases hv : k < 640
  · have small : a < 32 := ha k (by rw [isS, decide_eq_false (by omega), Bool.false_and]) a hm
    rw [if_pos hv]
    refine (sget_putWords 32 k a [x] 0 w.v n l hl small).trans ?_
    by_cases hk : k = n ∧ a = l
    · obtain ⟨rfl, rfl⟩ := hk
      simp
    · have here : ¬(l = a ∧ k + 0 ≤ n ∧ n < k + 0 + [x].length) := by
        rw [List.length_singleton]
        omega
      rw [if_neg hk, if_neg here]
  · have other : ¬(k = n ∧ a = l) := fun h => hv (h.1 ▸ hn)
    rw [if_neg hv, if_neg other]
    by_cases hs : k < 704
    · rw [if_pos hs]
    · rw [if_neg hs]

theorem holds_s {n : Nat} (hn : 640 ≤ n) (hn' : n < 704) (hone : ∀ k, isS k = true → ∀ a ∈ lanes k, a = l) (k : Nat) :
    Holds (fun w => sget 0 (n - 640) w.s) id n l lanes k := by
  intro a hm x w
  unfold putBack
  by_cases hv : k < 640
  · have other : ¬(k = n ∧ a = l) := fun h => absurd hn (Nat.not_le.2 (h.1 ▸ hv))
    rw [if_pos hv, if_neg other]
  · rw [if_neg hv]
    by_cases hs : k < 704
    · have only : a = l := hone k (by rw [isS, decide_eq_true (Nat.not_lt.1 hv), decide_eq_true hs]; rfl) a hm
      rw [if_pos hs]
      have put := sget_putWords 1 (k - 640) 0 [x] 0 w.s (n - 640) 0 (by omega) (by omega)
      rw [Nat.one_mul, Nat.add_zero] at put
      refine put.trans ?_
      by_cases hk : k = n
      · simp [hk, only]
      · have here : ¬(0 = 0 ∧ k - 640 + 0 ≤ n - 640 ∧ n - 640 < k - 640 + 0 + [x].length) := by
          rw [List.length_singleton]
          omega
        have other : ¬(k = n ∧ a = l) := fun h => hk h.1
        rw [if_neg here, if_neg other]
    · have other : ¬(k = n ∧ a = l) := fun h => hs (h.1 ▸ hn')
      rw [if_neg hs, if_neg other]

theorem holds_p {n : Nat} (hl : l < 32) {k : Nat} (hk : k < 704 ∨ 1024 ≤ k) :
    Holds (fun w => w.pred n l) (fun x => decide (x ≠ 0)) (1024 + n) l lanes k := by
  intro a hm x w
  unfold putBack
  by_cases hs : k < 704
  · have other : ¬(k = 1024 + n ∧ a = l) := by omega
    rw [if_neg other, if_pos hs]
    split <;> rfl
  · have hv : ¬k < 640 := by omega
    rw [if_neg hv, if_neg hs]
    show (sget 0 n (supd 0 (k - 1024) (fun m => setBit m a (decide (x ≠ 0))) w.p)).getLsbD l = _
    rw [sget_supd]
    by_cases hp : n = k - 1024
    · rw [if_pos hp, getLsbD_setBit _ _ _ _ hl, ← hp]
      have key : k = 1024 + n := by omega
      simp only [key, true_and, eq_comm (a := a)]
      rfl
    · have other : ¬(k = 1024 + n ∧ a = l) := by omega
      rw [if_neg hp, if_neg other]
      rfl

end PutBack

/-! ## One instruction undone -/

section Undone

variable {s : State} {q : Nat} {r : Recent} {u : Undo} {w : Warp}

/-- The lanes in which a discarded instruction's registers are put back: those that have not entered a handler. -/
def undoMask (u : Undo) (w : Warp) : Mask := maskOf fun l => u.lanes.getLsbD l && decide ((laneAt w.lanes l).park ≠ .handler)

/-- The lanes in which a key's value is put back; a uniform register is put back once. -/
def backLanes (u : Undo) (w : Warp) (k : Nat) : List Nat := if isS k then [lowestLane u.lanes] else lanesOf (undoMask u w)

/-- The lanes of a warp once an instruction of it is undone. -/
def undoLanes (u : Undo) (w : Warp) : List Lane := w.lanes.zipIdx.map fun x => Lane.undo (laneAt u.before x.2) x.1 (lateTrap w.traps x.2)

/-- The lanes, convergence registers and traps of a warp with an instruction of `w` undone. -/
def undoStand (u : Undo) (w x : Warp) : Warp :=
  { x with lanes := undoLanes u w, decl := u.decl, signed := u.signed, traps := trapsOf (undoLanes u w) x.traps }

/-- A warp without an instruction's results that are not yet due. -/
def undue (r : Recent) (x : Warp) : Warp := { x with fixed := x.fixed.filter fun f => f.issued ≠ r.issued }

/-- A warp with an instruction of `w` undone. -/
def undoneWarp (r : Recent) (u : Undo) (w x : Warp) : Warp := undue r (putAll (backLanes u w) u.regs (undoStand u w x))

/-- What is left of the network and of the waits for pages. -/
def undoneAsks (r : Recent) (u : Undo) (w : Warp) (s : State) : State :=
  { s with
    net := s.net.filter fun y => y.org.seq ≠ r.seq
    pages := s.pages.map fun p => { p with users := p.users.filter fun v => match v with
      | .lane i k _ h _ _ _ => !(decide (i = w.id) && (undoMask u w).getLsbD k && decide (h = r.hnd))
      | .engine _ => true } }

theorem removalCheck_staying {c : Nat} (h : staying s c) : s.removalCheck c = s := by
  unfold State.removalCheck
  cases hc : s.ctx? c with
  | none => rfl
  | some x =>
    cases hp : x.phase with
    | removing a b d => exact absurd hp (h x a b d hc)
    | _ => simp only [hp]

theorem undone_eq (hw : s.warp? r.warp = some w) (hh : r.hnd = false) (hk : ∀ k ∈ u.regs, k.1 < 704 ∨ 1024 ≤ k.1) (hs : staying s w.ctx) :
    s.undone r u = undoneAsks r u w (s.onWarp w.id (undoneWarp r u w)) := by
  have steps : s.undone r u = (undoneAsks r u w ((u.regs.foldl (fun s k => (backLanes u w k.1).foldl (fun s l => s.putKey w k.1 l (k.2.getD l 0)) s)
      (s.onWarp w.id (undoStand u w))).onWarp w.id (undue r))).removalCheck w.ctx := by
    simp only [State.undone, hw, hh, Bool.false_eq_true, if_false, Bool.not_false, Bool.true_and]
    rw [← hh]
    rfl
  rw [steps, foldl_putKey _ w _ hk, onWarp_onWarp w.id (f := undoStand u w) _ fun _ => rfl,
    onWarp_onWarp w.id (f := putAll (backLanes u w) u.regs ∘ undoStand u w) _ fun x => (putAll_sameBeside _ _ (undoStand u w x)).id]
  exact removalCheck_staying (s := undoneAsks r u w (s.onWarp w.id (undoneWarp r u w))) hs

/-! ### Its lanes -/

theorem laneAt_undoLanes (hl : w.lanes.length = 32) {l : Nat} (h : l < 32) :
    laneAt (undoLanes u w) l = Lane.undo (laneAt u.before l) (laneAt w.lanes l) (lateTrap w.traps l) := by
  have inside : l < w.lanes.length := hl.symm ▸ h
  rw [undoLanes, laneAt, List.getD_eq_getElem _ _ (by simpa using inside), List.getElem_map, List.getElem_zipIdx, Nat.zero_add, laneAt, laneAt,
    List.getD_eq_getElem _ _ inside]

/-- A lane that stood at an instruction and waited for nothing beyond it. -/
def Stood (b : Lane) : Prop := ∃ c, b.park ∈ [.run, .conv c, .sync c, .due c]

theorem undo_kept {b n : Lane} (h : n.park = .handler ∨ ¬Stood b) (late : Bool) : Lane.undo b n late = n := by
  unfold Lane.undo
  split
  · rfl
  next away =>
    have other := h.resolve_left away
    cases hp : b.park with
    | run => exact absurd ⟨0, by rw [hp]; simp⟩ other
    | conv c => exact absurd ⟨c, by rw [hp]; simp⟩ other
    | sync c => exact absurd ⟨c, by rw [hp]; simp⟩ other
    | due c => exact absurd ⟨c, by rw [hp]; simp⟩ other
    | _ => rfl

theorem undo_stood {b n : Lane} (h : n.park ≠ .handler) (hb : Stood b) (late : Bool) :
    Lane.undo b n late = if late then { b with park := .trap, passed := 0 } else b := by
  obtain ⟨c, hb⟩ := hb
  rw [Lane.undo, if_neg h]
  cases hp : b.park with
  | run => rfl
  | conv c => rfl
  | sync c => rfl
  | due c => rfl
  | _ => simp [hp] at hb

theorem lateTrap_iff {ts : List SubWarp} {l : Nat} : lateTrap ts l = true ↔ ∃ x ∈ ts, x.cls = 8 ∧ ∃ y ∈ x.lanes, y.lane = l := by
  simp only [lateTrap, List.any_eq_true, Bool.and_eq_true, decide_eq_true_eq]
  rfl

/-! ### Its registers -/

theorem undoneWarp_beside (r : Recent) (u : Undo) (w : Warp) : let w' := undoneWarp r u w w
    w' = { w with lanes := undoLanes u w, v := w'.v, s := w'.s, p := w'.p, decl := u.decl, signed := u.signed, traps := trapsOf (undoLanes u w) w.traps,
                  fixed := w.fixed.filter fun f => f.issued ≠ r.issued } := by
  have beside := congrArg (undue r) (putAll_sameBeside (backLanes u w) u.regs (undoStand u w w))
  exact beside

theorem mem_backLanes {k l : Nat} (hk : isS k = false) (hl : l < 32) : l ∈ backLanes u w k ↔ u.lanes.getLsbD l = true ∧ (laneAt w.lanes l).park ≠ .handler := by
  rw [backLanes, hk, if_neg Bool.false_ne_true, mem_lanesOf, undoMask, getLsbD_maskOf _ _ hl, Bool.and_eq_true, decide_eq_true_eq]

theorem backLanes_lt {k : Nat} (hk : isS k = false) (a : Nat) (ha : a ∈ backLanes u w k) : a < 32 := by
  rw [backLanes, hk, if_neg Bool.false_ne_true, mem_lanesOf] at ha
  by_contra h
  rw [BitVec.getLsbD_of_ge _ _ (by omega)] at ha
  exact Bool.false_ne_true ha

theorem backLanes_uniform {k : Nat} (hk : isS k = true) : backLanes u w k = [lowestLane u.lanes] := by rw [backLanes, hk, if_pos rfl]

section Places

variable {n l : Nat} (hn : (u.regs.map (·.1)).Nodup)

include hn

theorem undone_v (h : n < 640) (hl : l < 32) : sget 0 (32 * n + l) (undoneWarp r u w w).v =
    ((u.regs.find? fun k => k.1 = n).map (·.2)).elim (sget 0 (32 * n + l) w.v) fun x =>
      if u.lanes.getLsbD l = true ∧ (laneAt w.lanes l).park ≠ .handler then x.getD l 0 else sget 0 (32 * n + l) w.v := by
  have uni : isS n = false := by rw [isS, decide_eq_false (by omega), Bool.false_and]
  simp only [← mem_backLanes uni hl]
  exact obs_putAll (fun k _ => holds_v h hl (fun k hk => backLanes_lt hk) k.1) hn (undoStand u w w)

theorem undone_s (h : 640 ≤ n) (h' : n < 704) : sget 0 (n - 640) (undoneWarp r u w w).s =
    ((u.regs.find? fun k => k.1 = n).map (·.2)).elim (sget 0 (n - 640) w.s) fun x => x.getD (lowestLane u.lanes) 0 := by
  have uni : isS n = true := by rw [isS, decide_eq_true h, decide_eq_true h']; rfl
  have put := obs_putAll (lanes := backLanes u w) (l := lowestLane u.lanes) (fun k _ => holds_s h h' (fun k hk a ha => List.mem_singleton.1 (backLanes_uniform hk ▸ ha)) k.1) hn
    (undoStand u w w)
  simp only [backLanes_uniform uni, List.mem_singleton, if_true] at put
  exact put

theorem undone_p (hk : ∀ k ∈ u.regs, k.1 < 704 ∨ 1024 ≤ k.1) (hl : l < 32) : (undoneWarp r u w w).pred n l =
    ((u.regs.find? fun k => k.1 = 1024 + n).map (·.2)).elim (w.pred n l) fun x =>
      if u.lanes.getLsbD l = true ∧ (laneAt w.lanes l).park ≠ .handler then decide (x.getD l 0 ≠ 0) else w.pred n l := by
  have uni : isS (1024 + n) = false := by rw [isS, decide_eq_false (show ¬1024 + n < 704 by omega), Bool.and_false]
  simp only [← mem_backLanes uni hl]
  exact obs_putAll (fun k h => holds_p hl (hk k h)) hn (undoStand u w w)

end Places

theorem undoAll_one (ho : (s.quad q).open = [r]) (hu : r.undo = some u) : s.undoAll q = (s.undone r u).onQuad q fun y => { y with recent := [] } := by
  simp only [State.undoAll, ho, List.reverse_singleton, List.foldl_cons, List.foldl_nil, hu]

/-- The users of a page request that are left. -/
theorem undoneAsks_pages (hh : r.hnd = false) (p : Page) : (p.users.filter fun v => match v with
      | .lane i k _ h _ _ _ => !(decide (i = w.id) && (undoMask u w).getLsbD k && decide (h = r.hnd))
      | .engine _ => true) = p.users.filter fun v => match v with
      | .lane i k _ h _ _ _ => !(decide (i = w.id) && !h && u.lanes.getLsbD k && decide ((laneAt w.lanes k).park ≠ .handler))
      | .engine _ => true := by
  refine List.filter_congr fun v _ => ?_
  cases v with
  | engine o => rfl
  | lane i k a h b c d =>
    have mask : (undoMask u w).getLsbD k = (u.lanes.getLsbD k && decide ((laneAt w.lanes k).park ≠ .handler)) := by
      by_cases hk : k < 32
      · rw [undoMask, getLsbD_maskOf _ _ hk]
      · rw [BitVec.getLsbD_of_ge _ _ (by omega), BitVec.getLsbD_of_ge _ _ (by omega), Bool.false_and]
    dsimp only
    rw [mask, hh]
    cases h <;> simp [Bool.and_assoc]

theorem undoneAsks_eq (hh : r.hnd = false) (x : State) : undoneAsks r u w x = { x with
    net := x.net.filter fun y => y.org.seq ≠ r.seq
    pages := x.pages.map fun p => { p with users := p.users.filter fun v => match v with
      | .lane i k _ h _ _ _ => !(decide (i = w.id) && !h && u.lanes.getLsbD k && decide ((laneAt w.lanes k).park ≠ .handler))
      | .engine _ => true } } := by
  rw [undoneAsks]
  simp only [undoneAsks_pages hh]

theorem undoneWarp_id (x : Warp) : (undoneWarp r u w x).id = x.id := (putAll_sameBeside (backLanes u w) u.regs (undoStand u w x)).id

theorem discards : Discards := by
  intro s q r u w ho hu hh hw hid hl hn hk hs t away ours late old
  have undone : t = (undoneAsks r u w (s.onWarp w.id (undoneWarp r u w))).onQuad q fun y => { y with recent := [] } := by
    rw [show t = _ from undoAll_one ho hu, undone_eq hw hh hk hs]
  have lanes : (undoneWarp r u w w).lanes = undoLanes u w := congrArg Warp.lanes (undoneWarp_beside r u w)
  have lane (l : Nat) (h : l < 32) : laneAt (undoneWarp r u w w).lanes l = Lane.undo (laneAt u.before l) (laneAt w.lanes l) (lateTrap w.traps l) := by
    rw [lanes, laneAt_undoLanes hl h]
  refine ⟨?_, ?_, fun j hj => ?_, undoneWarp r u w w, ?_, ?_, fun l h => ⟨fun kept => ?_, fun here stood notLate => ?_, fun here stood isLate => ?_, fun n x h640 hx hlane here => ?_,
    fun n h640 kept => ?_, fun n h640 h704 => ?_, fun n => ?_⟩⟩
  · rw [undone, undoneAsks_eq hh]
    rfl
  · rw [undone, quad_onQuad_same]
  · rw [undone, quad_onQuad, if_neg hj]
    rfl
  · rw [undone]
    show (s.onWarp w.id (undoneWarp r u w)).warp? r.warp = _
    rw [warp?_onWarp _ _ undoneWarp_id, hw, Option.map_some, if_pos hid.symm]
  · rw [lanes]
    exact undoneWarp_beside r u w
  · rw [lane l h, undo_kept kept]
  · rw [lane l h, undo_stood here stood, Bool.eq_false_iff.2 (mt lateTrap_iff.1 notLate)]
    rfl
  · rw [lane l h, undo_stood here stood, lateTrap_iff.2 isLate]
    rfl
  · rw [reg_of_v (h := h640), undone_v hn h640 h, show (u.regs.find? fun k => k.1 = n).map (·.2) = some x from hx]
    exact if_pos ⟨hlane, here⟩
  · rw [reg_of_v (h := h640), reg_of_v (h := h640), undone_v hn h640 h]
    cases hx : (u.regs.find? fun k => k.1 = n).map (·.2) with
    | none => rfl
    | some x =>
      refine if_neg fun both => ?_
      obtain none | lane | gone := kept
      · exact nomatch none.symm.trans hx
      · exact Bool.false_ne_true (lane.symm.trans both.1)
      · exact both.2 gone
  · rw [reg_of_s (h := h640) (h' := h704), reg_of_s (h := h640) (h' := h704), undone_s hn h640 h704]
    cases hx : old n <;> exact congrArg (Option.elim · _ _) hx
  · rw [undone_p hn hk h]
    cases hx : old (1024 + n) <;> exact congrArg (Option.elim · _ _) hx

end Undone
end Sys2Proof.Machine

/-! PROOF. R91 to R95, R229, R230, R324: lanes and columns that fail their check. -/

namespace Sys2Proof.Machine

open Claims

section Checks

variable {s : State} {q l : Nat}

/-- A lane that fails its check, recorded and reported, with its core retired where too little remains of it. -/
theorem failLane_eq (hl : l < 18) (hd : l ∉ (s.quad q).dead) : s.failLane q l =
    let u := ((s.onQuad q fun x => { x with dead := insNat l x.dead }).onRec fun r => { r with lanes := r.lanes ++ [(q, l)] }).postDev 3 (q / 32)
      (1 + 256 * (q / 4 % 8) + 65536 * (q % 4)) 19 0xFFFFFFFF l
    if u.short (q / 4) then u.retireCore (q / 4) else u := by
  have live : ((s.quad q).dead.contains l || decide (18 ≤ l)) = false := by
    rw [decide_eq_false (Nat.not_le.2 hl), Bool.or_false]
    simpa using hd
  rw [State.failLane, live, if_neg Bool.false_ne_true]
  rfl

/-- A lane that fails its check: its quadrant issues again what has not committed, or discards it where it has no live lane left and all of it can be undone. -/
theorem laneCheckFail_ends (hl : l < 18) (hd : l ∉ (s.quad q).dead) (hq : q < 32 * s.nClusters) (on : s.quadOff q = false) {v : State}
    (hv : (s.failLane q l).onQuad q (fun x => { x with rewriting := true }) = v) :
    ((v.quad q).perBeat ≠ 0 → exec (.laneCheckFail q l) s = .next (v.reissueAll q (s.quad q).beats)) ∧
    ((v.quad q).perBeat = 0 → (∀ r ∈ (s.quad q).open, r.undo.isSome = true) → exec (.laneCheckFail q l) s = .next (v.undoAll q)) ∧
    ((v.quad q).perBeat = 0 → (∃ r ∈ (s.quad q).open, r.undo = none) → exec (.laneCheckFail q l) s = .next s) := by
  have checks : (decide (18 ≤ l) || (s.quad q).dead.contains l || decide (32 * s.nClusters ≤ q) || s.quadOff q) = false := by
    rw [decide_eq_false (Nat.not_le.2 hl), decide_eq_false (Nat.not_le.2 hq), on, Bool.or_false, Bool.or_false, Bool.false_or]
    simpa using hd
  have ends : exec (.laneCheckFail q l) s = .next (if (v.quad q).perBeat ≠ 0 then v.reissueAll q (s.quad q).beats
      else if (∀ r ∈ (s.quad q).open, r.undo.isSome = true) then v.undoAll q else s) := by
    show execLaneCheckFail q l s = _
    simp only [execLaneCheckFail, checks, Bool.false_eq_true, if_false, List.all_eq_true, hv]
  refine ⟨fun live => ?_, fun none all => ?_, fun none any => ?_⟩
  · rw [ends, if_pos live]
  · rw [ends, if_neg (not_not.2 none), if_pos all]
  · obtain ⟨r, hr, hu⟩ := any
    have fixed : ¬∀ r ∈ (s.quad q).open, r.undo.isSome = true := fun all => by simpa [hu] using all r hr
    rw [ends, if_neg (not_not.2 none), if_neg fixed]

theorem laneCheckFail_off (h : s.quadOff q = true) : exec (.laneCheckFail q l) s = .next s := by
  show execLaneCheckFail q l s = _
  simp only [execLaneCheckFail, h, Bool.or_true, if_true]

theorem exec_concordanceRewriteDone (h : (s.quad q).rewriting = true) : exec (.concordanceRewriteDone q) s = .next
    (((s.warps.filter fun w => w.q = q).foldl (fun l w => insNat w.blk l) []).foldl (fun s b => s.count b 7 1)
      (s.onQuad q fun x => { x with rewriting := false, cycle := x.cycle + 32 })) := by
  show execConcordanceRewriteDone q s = _
  simp only [execConcordanceRewriteDone, h, if_true]
  rfl

theorem exec_columnCheckFail {k p : Nat} (hp : p < 132) (hd : p ∉ (s.core k).deadCol) (hk : k < 8 * s.nClusters) :
    let u := ((s.onCore k fun c => c.failCol p).onRec fun r => { r with cols := r.cols ++ [(k, p)] }).postDev 3 (k / 8)
      (4 + 256 * (k % 8) + 65536 * 0xFF) 19 0xFFFFFFFF p
    u.short k = false → exec (.columnCheckFail k p) s = .next (u.onCore k fun c => { c with colRewrite := true }) := by
  intro u enough
  have dead : (s.core k).deadCol.contains p = false := by simpa using hd
  have checks : (decide (132 ≤ p) || (s.core k).deadCol.contains p || decide (8 * s.nClusters ≤ k)) = false := by
    rw [decide_eq_false (Nat.not_le.2 hp), decide_eq_false (Nat.not_le.2 hk), dead]
    rfl
  have fails : s.failColumn k p = u := by
    rw [State.failColumn, dead, decide_eq_false (Nat.not_le.2 hp), Bool.or_self, if_neg Bool.false_ne_true, State.checkCore]
    exact if_neg (Bool.eq_false_iff.1 enough)
  show execColumnCheckFail k p s = _
  simp only [execColumnCheckFail, checks, Bool.false_eq_true, if_false, fails]

/-- A failing column's logical column moves to the lowest spare that is live and free. -/
theorem failCol_moves (c : Core) {p l sp : Nat} (hl : l < 128) (hp : c.col l = p) (only : ∀ k, k < 128 → c.col k = p → k = l)
    (hsp : 128 ≤ sp ∧ sp < 132 ∧ sp ≠ p ∧ sp ∉ c.deadCol ∧ ∀ k, k < 128 → c.col k ≠ sp)
    (least : ∀ r, 128 ≤ r → r < sp → r = p ∨ r ∈ c.deadCol ∨ ∃ k, k < 128 ∧ c.col k = r) :
    (∀ k, k < 128 → (c.failCol p).col k = if k = l then sp else c.col k) ∧ (c.failCol p).deadCol = insNat p c.deadCol := by
  have found : ((List.range 128).find? fun k => c.col k = p) = some l := by
    refine List.find?_range_eq_some.2 ⟨decide_eq_true hp, List.mem_range.2 hl, fun j hj => ?_⟩
    rw [decide_eq_false fun h => hj.ne (only j (hj.trans hl) h)]
    rfl
  have free (r : Nat) : (!(insNat p c.deadCol).contains r && !(List.range 128).any fun k => c.col k = r) = true ↔
      ¬(r = p ∨ r ∈ c.deadCol ∨ ∃ k, k < 128 ∧ c.col k = r) := by
    simp only [Bool.and_eq_true, Bool.not_eq_true', ← Bool.not_eq_true, List.contains_iff_mem, mem_insNat, List.any_eq_true, List.mem_range, decide_eq_true_eq,
      ← or_assoc, not_or]
  obtain ⟨low, high, other, live, unused⟩ := hsp
  have spare : ({ c with deadCol := insNat p c.deadCol } : Core).spare = some sp := by
    rw [Core.spare, List.head?_filter]
    refine (List.find?_range'_eq_some (s := 128) (n := 4)).2 ⟨(free sp).2 ?_, List.mem_range'_1.2 ⟨low, high⟩, fun r hr hr' => ?_⟩
    · rintro (rfl | dead | ⟨k, hk, used⟩)
      · exact other rfl
      · exact live dead
      · exact unused k hk used
    · rw [Bool.not_eq_true', ← Bool.not_eq_true]
      exact mt (free r).1 (not_not.2 (least r hr hr'))
  have moved : c.failCol p = { c with deadCol := insNat p c.deadCol, colmap := sput 0 l sp c.colmap } := by
    simp only [Core.failCol, found, spare]
  rw [moved]
  refine ⟨fun k hk => ?_, rfl⟩
  simp only [Core.col, sget_sput]
  by_cases h : k = l
  · rw [if_pos h, if_pos h, if_neg (by omega)]
  · rw [if_neg h, if_neg h]

theorem lanesAndColumnsFail : LanesAndColumnsFail :=
  ⟨reissues, discards, fun _ _ _ hl hd hq on => laneCheckFail_ends hl hd hq on (congrArg (State.onQuad · _ _) (failLane_eq hl hd)), fun _ _ _ => laneCheckFail_off,
    fun _ _ => exec_concordanceRewriteDone, fun _ _ _ hp hd hk => exec_columnCheckFail hp hd hk,
    fun c _ _ _ hl hp only hsp least => failCol_moves c hl hp only hsp least⟩

end Checks

/-- Settles O50: fetched lines by what a fill changes, entries by the bank, and failing lanes by the instructions that issue again or are undone. -/
theorem frontOfCore : Obligations.FrontOfCore := ⟨fetchesAndHandlers, lanesAndColumnsFail⟩

end Sys2Proof.Machine

/-! SUPPORT. Lanes of the issue that move while nothing else changes: the bank's in a handler (R290), the warp's outside one (R100). -/

namespace Sys2Proof.Machine

open Claims

section Walked

variable {s t : State} {w : Warp} {mv mv' : Nat → Lane → Lane}

/-- A warp whose lanes issue, unless its handler's do, after `L`. -/
def warpVia (hnd : Bool) (L : List Lane → List Lane) (x : Warp) : Warp := { x with lanes := if hnd then x.lanes else L x.lanes }

/-- A bank whose lanes issue, if its handler's do, after `L`. -/
def bankVia (hnd : Bool) (L : List Lane → List Lane) (b : Bank) : Bank := { b with lanes := if hnd then L b.lanes else b.lanes }

/-- `L` moves each of 32 lanes as `mv` says. -/
def MovesBy (mv : Nat → Lane → Lane) (L : List Lane → List Lane) : Prop :=
  ∀ ls, ls.length = 32 → (L ls).length = 32 ∧ ∀ n, n < 32 → laneAt (L ls) n = mv n (laneAt ls n)

/-- `t` is `s` with the lanes of the issue moved as `mv` says. -/
def Walked (s : State) (w : Warp) (mv : Nat → Lane → Lane) (t : State) : Prop :=
  ∃ L, MovesBy mv L ∧ Shape s w (warpVia s.iss.hnd L) (bankVia s.iss.hnd L) t

theorem Walked.refl (s : State) (w : Warp) : Walked s w (fun _ l => l) s := by
  have hwarp : warpVia s.iss.hnd id = id := funext fun x => by simp [warpVia]
  have hbank : bankVia s.iss.hnd id = id := funext fun b => by simp [bankVia]
  exact ⟨id, fun _ hls => ⟨hls, fun _ _ => rfl⟩, hwarp ▸ hbank ▸ Shape.refl s w⟩

theorem Walked.congr (h : Walked s w mv t) (he : ∀ n l, n < 32 → mv n l = mv' n l) : Walked s w mv' t := by
  obtain ⟨L, hL, hs⟩ := h
  exact ⟨L, fun ls hls => ⟨(hL ls hls).1, fun n hn => ((hL ls hls).2 n hn).trans (he n _ hn)⟩, hs⟩

theorem Walked.iss (h : Walked s w mv t) : t.iss = s.iss := by
  obtain ⟨L, -, hs⟩ := h
  exact hs.iss

theorem MovesBy.mapLanes {L : List Lane → List Lane} (h : MovesBy mv L) (m : Mask) (f : Lane → Lane) :
    MovesBy (fun n l => inMask m (fun _ => f) n (mv n l)) (Machine.mapLanes m f ∘ L) := by
  intro ls hls
  obtain ⟨hlen, hat⟩ := h ls hls
  refine ⟨(mapLanes_length ..).trans hlen, fun n hn => ?_⟩
  rw [Function.comp_apply, laneAt_mapLanes _ _ _ _ (by omega), hat n hn]
  rfl

/-- Lanes of a mask moved once more. -/
theorem Walked.onLanes (h : Walked s w mv t) (m : Mask) (f : Lane → Lane) :
    Walked s w (fun n l => inMask m (fun _ => f) n (mv n l)) (t.onLanes w s.iss.hnd m f) := by
  obtain ⟨L, hL, hs⟩ := h
  refine ⟨mapLanes m f ∘ L, hL.mapLanes m f, ?_⟩
  cases hh : s.iss.hnd with
  | true =>
    rw [hh] at hs
    exact hs.onBank hh (fun b => { b with lanes := mapLanes m f b.lanes }) fun _ => rfl
  | false =>
    rw [hh] at hs
    exact hs.onWarp (fun x => { x with lanes := mapLanes m f x.lanes }) fun _ => rfl

/-- Lanes of a mask moved past the instruction. -/
theorem Walked.advance (h : Walked s w mv t) (m : Mask) :
    Walked s w (fun n l => inMask m (fun _ => Lane.goto (nextPos s.iss.hdr s.iss.idx s.iss.count)) n (mv n l)) (t.advance w m) := by
  rw [State.advance, h.iss]
  exact h.onLanes m _

/-- Lanes of a mask taken to a target. -/
theorem Walked.goTo (h : Walked s w mv t) (m : Mask) (a : Nat) :
    Walked s w (fun n l => inMask m (fun _ => Lane.goto (a, 0)) n (mv n l)) (t.goTo w m a) := by
  rw [State.goTo, h.iss]
  exact h.onLanes m _

/-- What a walk moves, and that every register and predicate stands. -/
theorem Walked.moved (h : Walked s w mv t) (hw : s.issWarp = some w) (hl : lanesWhole s w) (hk : ∀ n l, (mv n l).fpfl = l.fpfl) :
    ∃ w', Moved s w mv (fun _ => 0) t w' ∧ Still s w t w' := by
  obtain ⟨L, hL, hs⟩ := h
  refine ⟨warpVia s.iss.hnd L w, hs.moved hw hl mv _ (fun n hn => ?_) (fun hh b hb n hn => ?_), rfl,
    fun n l _ => hs.reg n l (fun _ => rfl) (fun _ _ => rfl) fun _ _ _ _ => rfl⟩
  · cases hh : s.iss.hnd with
    | true => exact (fpfl_grown_none _).symm
    | false =>
      have grown : (mv n (laneAt w.lanes n)).fpfl = (laneAt w.lanes n).fpfl ||| 0 := (hk ..).trans BitVec.or_zero.symm
      exact ((hL w.lanes hl.1).2 n hn).trans (congrArg (fun e => { mv n (laneAt w.lanes n) with fpfl := e }) grown)
  · rw [hh]
    exact (hL b.lanes hb).2 n hn

/-- How lanes move where those of `act` take `f` and the other issuing lanes go on. -/
def elseOn (s : State) (act : Mask) (f : Nat → Lane → Lane) (n : Nat) (l : Lane) : Lane := if act.getLsbD n then f n l else s.movedLane n l

theorem elseOn_fpfl {f : Nat → Lane → Lane} (hf : ∀ n l, (f n l).fpfl = l.fpfl) (act : Mask) (n : Nat) (l : Lane) : (elseOn s act f n l).fpfl = l.fpfl := by
  unfold elseOn State.movedLane
  split
  · exact hf n l
  · split <;> rfl

theorem inMask_rest_inMask (s : State) (act : Mask) (f : Nat → Lane → Lane) {n : Nat} (hn : n < 32) (l : Lane) :
    inMask (s.iss.lanes &&& ~~~act) (fun _ => Lane.goto (nextPos s.iss.hdr s.iss.idx s.iss.count)) n (inMask act f n l) = elseOn s act f n l := by
  simp only [inMask, elseOn, State.movedLane, BitVec.getLsbD_and, BitVec.getLsbD_not, hn, decide_true, Bool.true_and]
  cases act.getLsbD n <;> simp only [if_true, Bool.not_true, Bool.and_false, Bool.false_eq_true, if_false, Bool.not_false, Bool.and_true]

/-- Once the lanes of `act` have moved, the other issuing lanes go on. -/
theorem Walked.rest_advance {act : Mask} {f : Nat → Lane → Lane} (h : Walked s w (inMask act f) t) :
    Walked s w (elseOn s act f) (t.advance w (s.iss.lanes &&& ~~~act)) :=
  (h.advance _).congr fun _ l hn => inMask_rest_inMask s act f hn l

end Walked

end Sys2Proof.Machine

/-! PROOF. R110, R112: transfers. -/

namespace Sys2Proof.Machine

open Claims

section Transfers

variable {s : State} {w : Warp} {act : Mask}

/-- A target is one address, if it is any (R38). -/
theorem branchTo_eq_some {hdr a : Nat} {off : BitVec 32} (h : (a : Int) = hdr + 8 * off.toInt) : branchTo hdr off = some a := by
  simp only [branchTo, ← h]
  simp

theorem branchTo_eq {hdr a : Nat} {off : BitVec 32} (h : branchTo hdr off = some a) : (a : Int) = hdr + 8 * off.toInt := by
  simp only [branchTo] at h
  split at h
  · cases h
  · cases h
    omega

theorem target_recorded {a : Nat} {off : BitVec 32} (ha : (a : Int) = s.iss.hdr + 8 * off.toInt) (hr : s.recorded w a = true) :
    s.target w (branchTo s.iss.hdr off) = some a := by
  simp only [State.target, branchTo_eq_some ha, hr, if_true]

theorem target_unrecorded {off : BitVec 32} (h : ∀ a : Nat, (a : Int) = s.iss.hdr + 8 * off.toInt → s.recorded w a = false) :
    s.target w (branchTo s.iss.hdr off) = none := by
  unfold State.target
  split
  · next a ha => rw [h a (branchTo_eq ha), if_neg Bool.false_ne_true]
  · rfl

theorem exec_bra {c : Common} {off : BitVec 32} (h : Acts (.bra c off) s w act) : exec (.bra c off) s = .next
    (match s.target w (branchTo s.iss.hdr off) with
      | some t => (s.goTo w act t).advance w (s.iss.lanes &&& ~~~act)
      | none => trapped s w act tCLAUSE 0 0 0) :=
  perform_of_writes_none h rfl rfl _

theorem goes_fpfl (s : State) (act : Mask) (target : Nat → Nat) (n : Nat) (l : Lane) : (goes s act target n l).fpfl = l.fpfl :=
  elseOn_fpfl (f := fun n l => { l with hdr := target n, idx := 0 }) (fun _ _ => rfl) act n l

/-- Settles O14: a recorded target takes the guarded lanes, then the others advance; no other target is one. -/
theorem braTransfersLanes : Obligations.BraTransfersLanes := by
  refine ⟨fun c off s w act h => ⟨fun a ha hr => ?_, fun hr => ?_⟩, by decide⟩
  · have walk : Walked s w (goes s act fun _ => a) ((s.goTo w act a).advance w (s.iss.lanes &&& ~~~act)) :=
      ((Walked.refl s w).goTo act a).rest_advance
    obtain ⟨hw, -, -, -, -, -, -, hl⟩ := id h
    obtain ⟨w', hm, hs⟩ := walk.moved hw hl (goes_fpfl s act _)
    exact ⟨_, w', by rw [exec_bra h, target_recorded ha hr], hm, hs⟩
  · rw [exec_bra h, target_unrecorded hr]

/-- Lanes of a list taken one by one to their targets. -/
theorem Walked.goEach {mv : Nat → Lane → Lane} {t : State} (h : Walked s w mv t) (x : Nat → Nat) {ls : List Nat} :
    Walked s w (fun n l => if n ∈ ls then Lane.goto (x n, 0) (mv n l) else mv n l) (ls.foldl (fun t l => t.goTo w (1#32 <<< l) (x l)) t) := by
  induction ls generalizing t mv with
  | nil => simpa using h
  | cons a r ih =>
    refine (ih (h.goTo (1#32 <<< a) (x a))).congr fun n l hn => ?_
    simp only [inMask, getLsbD_one_shl a n hn, List.mem_cons]
    by_cases hna : n = a
    · subst hna
      simp [Lane.goto]
    · simp [hna]

/-- Lanes of a mask taken each to its own target. -/
theorem walked_goEach (s : State) (w : Warp) (m : Mask) (x : Nat → Nat) :
    Walked s w (inMask m fun n l => { l with hdr := x n, idx := 0 }) ((lanesOf m).foldl (fun t l => t.goTo w (1#32 <<< l) (x l)) s) :=
  ((Walked.refl s w).goEach x).congr fun n l _ => by simp only [mem_lanesOf]; rfl

theorem getLsbD_picked (p : Nat → Prop) [DecidablePred p] {l : Nat} (hl : l < 32) : (picked act p).getLsbD l = (act.getLsbD l && decide (p l)) :=
  getLsbD_maskOf _ _ hl

end Transfers

section Indirect

variable {s : State} {w : Warp} {act : Mask} {a : Fld} {p : Perm}

/-- The address that a lane of BRX or RET goes to: the one that its own pair holds (R112). -/
abbrev pairTarget (s : State) (w : Warp) (a : Fld) (p : Perm) (l : Nat) : Nat := (pair s w a.toNat (p.lane .srcA l)).toNat

/-- The guarded lanes whose pair names no recorded header. -/
def strays (s : State) (w : Warp) (act : Mask) (a : Fld) (p : Perm) : Mask :=
  picked act fun l => 2 ^ 52 ≤ pairTarget s w a p l ∨ s.recorded w (pairTarget s w a p l) = false

/-- The other guarded lanes taken to their targets. -/
def transferred (s : State) (w : Warp) (act : Mask) (a : Fld) (p : Perm) : State :=
  (lanesOf (act &&& ~~~strays s w act a p)).foldl (fun t l => t.goTo w (1#32 <<< l) (pairTarget s w a p l)) s

theorem walked_transferred (s : State) (w : Warp) (act : Mask) (a : Fld) (p : Perm) :
    Walked s w (inMask (act &&& ~~~strays s w act a p) fun n l => { l with hdr := pairTarget s w a p n, idx := 0 }) (transferred s w act a p) :=
  walked_goEach s w _ (pairTarget s w a p)

theorem getLsbD_strays {l : Nat} (hl : l < 32) : (strays s w act a p).getLsbD l =
    (act.getLsbD l && decide (2 ^ 52 ≤ pairTarget s w a p l ∨ s.recorded w (pairTarget s w a p l) = false)) := getLsbD_picked _ hl

/-- BRX and RET: the lanes with a target go to it, the strays trap, and the issuing lanes whose guard fails go on. -/
theorem jumpLanes_eq (he : s.iss.early = []) : jumpLanes a p w act s =
    ((transferred s w act a p).trapAll w (strays s w act a p) tCLAUSE 0 0 0).advance w (s.iss.lanes &&& ~~~act) := by
  have read (l : Nat) : s.rd2 w a.toNat l = pair s w a.toNat l := rd2_noEarly he ..
  have sure : (maskOf fun l => act.getLsbD l && decide (pairTarget s w a p l < 2 ^ 52) && s.recorded w (pairTarget s w a p l)) =
      act &&& ~~~strays s w act a p := by
    refine mask_ext fun l hl => ?_
    rw [getLsbD_maskOf _ _ hl, BitVec.getLsbD_and, BitVec.getLsbD_not, getLsbD_strays hl]
    have below : decide (pairTarget s w a p l < 2 ^ 52) = !decide (2 ^ 52 ≤ pairTarget s w a p l) := by
      rw [← decide_not]
      exact decide_eq_decide.2 Nat.not_le.symm
    rw [below]
    cases act.getLsbD l <;> simp [hl]
  have lost : act &&& ~~~(act &&& ~~~strays s w act a p) = strays s w act a p := by
    refine mask_ext fun l hl => ?_
    simp only [BitVec.getLsbD_and, BitVec.getLsbD_not, getLsbD_strays hl, hl, decide_true, Bool.true_and]
    cases act.getLsbD l <;> simp
  simp only [jumpLanes, read, sure, lost]
  rfl

theorem exec_transfer {i : Instr} {c : Common} (hi : i = .brx c a p ∨ i = .ret c a p) (h : Acts i s w act) :
    exec i s = .next (((transferred s w act a p).trapAll w (strays s w act a p) tCLAUSE 0 0 0).advance w (s.iss.lanes &&& ~~~act)) := by
  obtain ⟨-, -, -, he, -⟩ := id h
  rw [← jumpLanes_eq he]
  obtain rfl | rfl := hi <;> exact perform_of_writes_none h rfl rfl _

theorem strays_none (h : ∀ l, act.getLsbD l = true → pairTarget s w a p l < 2 ^ 52 ∧ s.recorded w (pairTarget s w a p l) = true) :
    strays s w act a p = 0#32 := by
  refine mask_ext fun l hl => ?_
  rw [getLsbD_strays hl, BitVec.getLsbD_zero, Bool.and_eq_false_iff]
  by_cases ha : act.getLsbD l = true
  · obtain ⟨hlt, hr⟩ := h l ha
    exact .inr (decide_eq_false fun stray => stray.elim (Nat.not_le.2 hlt) fun unrecorded => Bool.false_ne_true (unrecorded.symm.trans hr))
  · exact .inl (Bool.not_eq_true _ ▸ ha)

theorem strays_all (h : ∀ l, act.getLsbD l = true → 2 ^ 52 ≤ pairTarget s w a p l ∨ s.recorded w (pairTarget s w a p l) = false) : strays s w act a p = act := by
  refine mask_ext fun l hl => ?_
  rw [getLsbD_strays hl]
  by_cases ha : act.getLsbD l = true
  · rw [ha, decide_eq_true (h l ha), Bool.and_self]
  · simp [ha]

theorem trapAll_none (s : State) (w : Warp) (cls cause addr info : Nat) : s.trapAll w 0#32 cls cause addr info = s := rfl

/-- Settles O16: the lanes split into those whose pair names a recorded header, which go there one by one, and the strays, which trap together. -/
theorem indirectTransfer : Obligations.IndirectTransfer := by
  intro i c a p s w act hi h x
  obtain ⟨hw, -, -, -, -, -, -, hl⟩ := id h
  have exec_eq := exec_transfer hi h
  refine ⟨fun all => ?_, fun none => ?_, ?_⟩
  · have walk := (walked_transferred s w act a p).congr (mv' := inMask act fun n l => { l with hdr := x n, idx := 0 })
      fun n l _ => by rw [strays_none all, BitVec.not_zero, BitVec.and_allOnes]
    obtain ⟨w', hm, hs⟩ := walk.rest_advance.moved hw hl (goes_fpfl s act x)
    exact ⟨_, w', by rw [exec_eq, strays_none all, trapAll_none], hm, hs⟩
  · have still : transferred s w act a p = s := by
      have : act &&& ~~~act = 0#32 := BitVec.and_not_self ..
      rw [transferred, strays_all none, this]
      rfl
    rw [exec_eq, still, strays_all none]
    rfl
  · obtain ⟨w', hm, hs⟩ := (walked_transferred s w act a p).moved hw hl fun n l => by unfold inMask; split <;> rfl
    exact ⟨_, w', hm, hs, exec_eq⟩

end Indirect

end Sys2Proof.Machine

/-! PROOF. R111: what a CALL that traps in a handler leaves. -/

namespace Sys2Proof.Machine

open Claims

/-- CALL to the word after its clause's header, which is no header, with the link pair v4, v5. -/
def strayCall : Instr := .call { stall := 0, guard := .always } 1 4

/-- The planted warp with its lane 0 in its handler. -/
def callWarp : Warp :=
  { plantWarp 4 1 3 0 with lanes := { Lane.init with hdr := plantAt, park := .handler } :: List.replicate 31 { Lane.init with hdr := plantAt } }

/-- The handler's bank of lane 0, at the planted clause. -/
def callBank : Bank :=
  { warp := 4, sub := { cls := 10, since := 0, lanes := [TrapLane.of 0 0 0 0 0] }, entry := List.replicate 32 (plantAt, 0), posSet := 0, h := [],
    lanes := { Lane.init with hdr := plantAt } :: List.replicate 31 { Lane.init with hdr := plantAt, exited := true }, pace := Pace.init, movx := 0 }

/-- A store that the warp issued before, not yet acknowledged. -/
def callStore : Req :=
  { k := .store [1, 2, 3, 4] false, tgt := .dev 0x400000, va := 0x400000, lane := 0, uni := 0, hnd := false, word := 0, hdr := plantAt, idx := 0, st := .sent,
    stamp := 0, poison := false, counted := true,
    org := { seq := 0, core := 0, ctx := 1, grid := 0, group := 0, blk := 3, warp := 4, wi := 0, lin := 0, img := 0, pos := plantAt, lanes := 1 } }

/-- The planted machine in a handler, the call latched for its lane 0 and the store in flight. -/
def strayCallInHandler : State :=
  let t := (State.reset.plant 0).onQuad 0 fun q => { q with bank := some callBank }
  { t with warps := [callWarp], net := [callStore],
           iss := { q := 0, warp := 4, hnd := true, lanes := 1#32, hdr := plantAt, idx := 0, count := 0, now := 0, sync := false,
                    word := (encode strayCall).getD 0, instr := some strayCall, early := [] } }

theorem strayCall_acts : Acts strayCall strayCallInHandler callWarp 1#32 := by decide +kernel

theorem strayCall_unrecorded (a : Nat) (h : (a : Int) = strayCallInHandler.iss.hdr + 8 * (1#32).toInt) : strayCallInHandler.recorded callWarp a = false := by
  have target : strayCallInHandler.iss.hdr + 8 * (1#32).toInt = ((0x1008 : Nat) : Int) := rfl
  obtain rfl : a = 0x1008 := Int.ofNat_inj.1 (h.trans target)
  decide +kernel

/-- The results not yet due that an outcome leaves the warp. -/
def duesLeft : Out → Option (List Fixed)
  | .next t => (t.warp? 4).map fun v => v.fixed
  | _ => none

/-- Refutes O15: outside a handler a call to an unrecorded target leaves nothing but the trap. In a handler the trap escalates, and its context's removal waits for the
stores that are in flight; as long as the warp stands, the link pair that the call did not write is noted as a result not yet due. -/
theorem not_callLinksAndTransfers : ¬ Obligations.CallLinksAndTransfers := by
  intro h
  have traps := (h _ _ _ _ _ _ strayCall_acts).2 strayCall_unrecorded
  have noted : duesLeft (exec strayCall strayCallInHandler) ≠ duesLeft (.next (strayCallInHandler.trapAll callWarp 1#32 tCLAUSE 0 0 0)) := by decide +kernel
  exact noted (congrArg duesLeft traps)

end Sys2Proof.Machine

/-! PROOF. R99 to R105, R107, R113, R117: EXIT, BRK and TRAP, and a step. -/

namespace Sys2Proof.Machine

open Claims

/-! ## EXIT (R107, R113) -/

section Exit

variable {s : State} {w : Warp} {act : Mask} {c : Common}

/-- The guarded lanes exited, the other issuing lanes moved on. -/
def exitedLanes (s : State) (w : Warp) (act : Mask) : State :=
  (s.onLanes w false act fun l => { l with exited := true }).advance w (s.iss.lanes &&& ~~~act)

theorem walked_exitedLanes (hh : s.iss.hnd = false) (w : Warp) (act : Mask) :
    Walked s w (elseOn s act fun _ l => { l with exited := true }) (exitedLanes s w act) := by
  have walk := (Walked.refl s w).onLanes act fun l => { l with exited := true }
  rw [hh] at walk
  exact walk.rest_advance

theorem exec_exit (h : Acts (.exit c) s w act) : exec (.exit c) s = .next (((exitedLanes s w act).exited w.id).convergeAll w.id) :=
  perform_of_writes_none h rfl rfl _

theorem exited_eq {t : State} {w' : Warp} (h : t.warp? w.id = some w') : t.exited w.id = if w'.allExited then t.moveFails w' else t := by
  simp only [State.exited, h]

/-- Settles O18: the guarded lanes exit and the others advance, and the rest follows from the warp that this leaves. -/
theorem exitRemovesLanes : Obligations.ExitRemovesLanes := by
  intro c s w act h
  obtain ⟨hw, -, -, -, hm, -, -, hl⟩ := id h
  have hh : s.iss.hnd = false := by simpa [modeOk] using hm
  obtain ⟨w', hmoved, hstill⟩ := (walked_exitedLanes hh w act).moved hw hl (elseOn_fpfl (f := fun _ l => { l with exited := true }) (fun _ _ => rfl) act)
  exact ⟨_, w', hmoved, hstill, by rw [exec_exit h, exited_eq hmoved.warp]; rfl⟩

end Exit

/-! ## BRK and TRAP (R117) -/

/-- Settles O20: what either does to its guarded lanes is a trap of its class, with its code beside it. -/
theorem brkAndTrapTrap : Obligations.BrkAndTrapTrap :=
  ⟨fun _ _ _ _ _ h => perform_of_writes_none h rfl rfl _, fun _ _ _ _ _ h => perform_of_writes_none h rfl rfl _⟩

/-! ## A step (R99, R101, R103, R105) -/

/-- Settles O39: a step runs `exec` on the next event and, where that latched an instruction, on it too. -/
theorem stepRunsIssued : Obligations.StepRunsIssued := by
  refine ⟨fun s e r h => ?_, fun s h => ?_, fun s => ⟨_, rfl⟩, fun s e u t hnext hexec hnone => ?_, fun s e u t i v hnext hexec hi hv => ?_⟩
  · rw [State.nextEvent, h]
  · rw [State.nextEvent, h]
  · simp only [step, hnext, hexec, issued, hnone]
  · simp only [step, hnext, hexec, issued, hi, hv]

end Sys2Proof.Machine

/-! SUPPORT. Changes of the issuing warp alone, and what a trap outside a handler does to it (R288). -/

namespace Sys2Proof.Machine

open Claims

section Became

variable {s t : State} {w w' : Warp}

/-- `t` is `s` with its warp `w` become `w'`. -/
structure Became (s : State) (w : Warp) (t : State) (w' : Warp) : Prop where
  only : t = { s with warps := t.warps }
  warp : t.warp? w.id = some w'
  others : ∀ j, j ≠ w.id → t.warp? j = s.warp? j

theorem Became.refl (h : s.warp? w.id = some w) : Became s w s w := ⟨rfl, h, fun _ _ => rfl⟩

theorem Became.id (h : Became s w t w') : w'.id = w.id := warp?_id h.warp

theorem Became.iss (h : Became s w t w') : t.iss = s.iss := by
  have := congrArg State.iss h.only
  exact this

theorem Became.nextId (h : Became s w t w') : t.nextId = s.nextId := by
  have := congrArg State.nextId h.only
  exact this

theorem Became.countAt (h : Became s w t w') (v : Warp) (a : Nat) : t.countAt v a = s.countAt v a := by
  rw [h.only]
  rfl

theorem Became.onWarp (h : Became s w t w') (f : Warp → Warp) (hf : ∀ x, (f x).id = x.id) : Became s w (t.onWarp w.id f) (f w') where
  only := congrArg (fun u : State => { u with warps := (t.onWarp w.id f).warps }) h.only
  warp := by rw [warp?_onWarp _ _ hf, h.warp, Option.map_some, if_pos rfl]
  others j hj := by
    rw [warp?_onWarp _ _ hf, ← h.others j hj]
    simp [hj]

theorem Became.onLanes (h : Became s w t w') (m : Mask) (f : Lane → Lane) :
    Became s w (t.onLanes w false m f) { w' with lanes := mapLanes m f w'.lanes } :=
  h.onWarp (fun x => { x with lanes := mapLanes m f x.lanes }) fun _ => rfl

variable (hh : s.iss.hnd = false)

include hh

theorem Became.advance (h : Became s w t w') (m : Mask) : Became s w (t.advance w m)
    { w' with lanes := mapLanes m (Lane.goto (nextPos s.iss.hdr s.iss.idx s.iss.count)) w'.lanes } := by
  rw [State.advance, h.iss, hh]
  exact h.onLanes m _

theorem Became.parkHere (h : Became s w t w') (m : Mask) (k : Park) :
    Became s w (t.parkHere w m k) { w' with lanes := mapLanes m (fun l => { l with park := k, passed := 0 }) w'.lanes } := by
  rw [State.parkHere, h.iss, hh]
  exact h.onLanes m _

omit hh

/-- The lanes of a trap of every lane of a mask are the mask's. -/
theorem trapMask_lanesOf (m : Mask) (cause addr info : Nat) (x : Word64) :
    trapMask ((lanesOf m).map fun l => TrapLane.of l cause addr info x) = m := by
  refine mask_ext fun l hl => ?_
  have fold := foldl_maskOf (fun _ => true) (lanesOf m) 0#32 l hl
  simp only [if_true, BitVec.getLsbD_zero, Bool.false_or, Bool.and_true] at fold
  rw [trapMask, List.foldl_map]
  refine fold.trans (Bool.eq_iff_iff.2 ?_)
  rw [List.contains_iff_mem, mem_lanesOf]

theorem lanesOf_ne_nil {m : Mask} (h : m ≠ 0#32) : lanesOf m ≠ [] :=
  List.ne_nil_of_mem ((mem_lanesOf ..).2 (lanesOf_lowest h))

include hh

/-- A trap outside a handler parks its lanes as one sub-warp of its class (R288). -/
theorem Became.trapAll (h : Became s w t w') (m : Mask) (cls cause addr info : Nat) : Became s w (t.trapAll w m cls cause addr info)
    { w' with lanes := mapLanes m (fun l => { l with park := .trap, passed := 0 }) w'.lanes,
              traps := if m = 0#32 then w'.traps else joinTrap cls s.nextId ((lanesOf m).map fun l => TrapLane.of l cause addr info s.iss.word) w'.traps } := by
  by_cases hm : m = 0#32
  · subst hm
    rw [mapLanes_zero]
    exact h
  · obtain ⟨a, r, ha⟩ := List.exists_cons_of_ne_nil (lanesOf_ne_nil hm)
    have taken : t.trapAll w m cls cause addr info =
        (t.onLanes w false m fun l => { l with park := .trap, passed := 0 }).onWarp w.id fun x =>
          { x with traps := joinTrap cls s.nextId ((lanesOf m).map fun l => TrapLane.of l cause addr info s.iss.word) x.traps } := by
      have mask := trapMask_lanesOf m cause addr info s.iss.word
      rw [State.trapAll, h.iss, hh, ← h.nextId]
      rw [ha, List.map_cons] at mask ⊢
      simp only [State.takeTrap, mask, Bool.false_eq_true, if_false]
    rw [taken, if_neg hm]
    exact (h.onLanes m _).onWarp _ fun _ => rfl

end Became

end Sys2Proof.Machine

/-! PROOF. R107, R114, R115: convergence registers. -/

namespace Sys2Proof.Machine

open Claims

/-! ## The completion test (R107) -/

section Completion

variable {s t : State} {w x : Warp} {c : Nat}

theorem complete_iff : w.complete c = true ↔ sget 0 c w.signed ≠ 0#32 ∧
    ∀ n, ((sget 0 c w.decl).getLsbD n && !(laneAt w.lanes n).exited) = true → (sget 0 c w.signed).getLsbD n = true := by
  have unsigned : sget 0 c w.decl &&& w.active &&& ~~~sget 0 c w.signed = 0#32 ↔
      ∀ n, ((sget 0 c w.decl).getLsbD n && !(laneAt w.lanes n).exited) = true → (sget 0 c w.signed).getLsbD n = true := by
    constructor
    · intro h n hdue
      have hn : n < 32 := mask_lt _ n (Bool.and_eq_true_iff.1 hdue).1
      have none : (sget 0 c w.decl &&& w.active &&& ~~~sget 0 c w.signed).getLsbD n = false := by rw [h, BitVec.getLsbD_zero]
      rw [BitVec.getLsbD_and, BitVec.getLsbD_and, Warp.active, getLsbD_maskOf _ _ hn, hdue, BitVec.getLsbD_not] at none
      simpa [hn] using none
    · intro h
      refine mask_ext fun n hn => ?_
      rw [BitVec.getLsbD_and, BitVec.getLsbD_and, Warp.active, getLsbD_maskOf _ _ hn, BitVec.getLsbD_not, BitVec.getLsbD_zero]
      cases hdue : (sget 0 c w.decl).getLsbD n && !(laneAt w.lanes n).exited with
      | false => rfl
      | true => rw [h n hdue, Bool.not_true, Bool.and_false, Bool.and_false]
  rw [Warp.complete, Bool.and_eq_true, decide_eq_true_iff, decide_eq_true_iff, unsigned]

/-- A lane when the set of register `c` is complete: past its CSIGN, or due in the issue of its synchronising instruction. -/
def convReleased (s : State) (w : Warp) (c : Nat) (l : Lane) : Lane :=
  if l.exited = false ∧ l.park = .conv c then
    { l with hdr := (nextPos l.hdr l.idx (s.countAt w l.hdr)).1, idx := (nextPos l.hdr l.idx (s.countAt w l.hdr)).2, park := .run, passed := 0 }
  else if l.exited = false ∧ l.park = .sync c then { l with park := .due c, passed := 0 }
  else l

/-- The lanes that wait for register `c`. -/
def waitsFor (c : Nat) (l : Lane) : Prop := l.exited = false ∧ (l.park = .conv c ∨ l.park = .sync c)

theorem convReleased_of_not_waits {l : Lane} (h : ¬waitsFor c l) : convReleased s w c l = l := by
  rw [convReleased, if_neg fun hc => h ⟨hc.1, .inl hc.2⟩, if_neg fun hc => h ⟨hc.1, .inr hc.2⟩]

theorem convReleased_waits_not (l : Lane) : ¬waitsFor c (convReleased s w c l) := by
  by_cases h : waitsFor c l
  · rintro ⟨-, hp⟩
    unfold convReleased at hp
    split at hp
    · simp at hp
    · split at hp
      · simp at hp
      · next hc hs => exact h.2.elim (fun hp => hc ⟨h.1, hp⟩) fun hp => hs ⟨h.1, hp⟩
  · rwa [convReleased_of_not_waits h]

/-- A lane as the release at a position leaves it. -/
def convReleasedAt (s : State) (w : Warp) (c : Nat) (l : Lane) (p : Nat × Nat) : Lane := if (l.hdr, l.idx) = p then convReleased s w c l else l

/-- Releases at positions in turn release a lane once, where it stood. -/
theorem foldl_convReleasedAt (ps : List (Nat × Nat)) (l : Lane) :
    ps.foldl (convReleasedAt s w c) l = if (l.hdr, l.idx) ∈ ps then convReleased s w c l else l := by
  have stays (q : List (Nat × Nat)) {y : Lane} (hy : ¬waitsFor c y) : q.foldl (convReleasedAt s w c) y = y :=
    foldl_unchanged fun p _ => by rw [convReleasedAt, convReleased_of_not_waits hy, ite_self]
  induction ps with
  | nil => rfl
  | cons p r ih =>
    rw [List.foldl_cons]
    by_cases hp : (l.hdr, l.idx) = p
    · have here : convReleasedAt s w c l p = convReleased s w c l := if_pos hp
      rw [here, stays r (convReleased_waits_not l), if_pos (hp ▸ List.mem_cons_self ..)]
    · have there : convReleasedAt s w c l p = l := if_neg hp
      rw [there, ih]
      simp only [List.mem_cons, hp, false_or]

/-- The warp `x` is `w` with other lanes, 32 of them, and other signatures. -/
def Resigned (w x : Warp) : Prop := x = { w with lanes := x.lanes, signed := x.signed } ∧ x.lanes.length = 32

theorem Resigned.countAt (h : Resigned w x) (a : Nat) : s.countAt x a = s.countAt w a := by
  rw [h.1]
  rfl

/-- The lanes of a warp at a position that are parked for a reason. -/
def waitingAt (x : Warp) (p : Nat × Nat) (k : Park) : Mask :=
  maskOf fun l => let y := laneAt x.lanes l; decide ((y.hdr, y.idx) = p) && !y.exited && decide (y.park = k)

theorem getLsbD_waitingAt {p : Nat × Nat} {k : Park} {n : Nat} (hn : n < 32) : (waitingAt x p k).getLsbD n = true ↔
    ((laneAt x.lanes n).hdr, (laneAt x.lanes n).idx) = p ∧ (laneAt x.lanes n).exited = false ∧ (laneAt x.lanes n).park = k := by
  rw [waitingAt, getLsbD_maskOf _ _ hn]
  simp [and_assoc]

theorem onLanes_of_id (t : State) (h : x.id = w.id) (m : Mask) (f : Lane → Lane) : t.onLanes x false m f = t.onLanes w false m f := by
  rw [State.onLanes, State.onLanes, if_neg Bool.false_ne_true, if_neg Bool.false_ne_true, h]

theorem Became.passLanes (h : Became s w t x) (m : Mask) : Became s w (t.passLanes x m)
    { x with lanes := mapLanes m (fun l => { Lane.goto (nextPos l.hdr l.idx (t.countAt x l.hdr)) l with park := .run, passed := 0 }) x.lanes } := by
  rw [State.passLanes, onLanes_of_id t h.id]
  exact h.onLanes m _

theorem releaseAt_became (h : Became s w t x) (hx : Resigned w x) (p : Nat × Nat) :
    ∃ y, Became s w (t.releaseAt w.id c p) y ∧ y = { x with lanes := y.lanes } ∧ y.lanes.length = 32 ∧
      ∀ n, n < 32 → laneAt y.lanes n = convReleasedAt s w c (laneAt x.lanes n) p := by
  let pass (l : Lane) : Lane := { Lane.goto (nextPos l.hdr l.idx (t.countAt x l.hdr)) l with park := .run, passed := 0 }
  have passed : Became s w (if waitingAt x p (.conv c) ≠ 0#32 then t.passLanes x (waitingAt x p (.conv c)) else t)
      { x with lanes := mapLanes (waitingAt x p (.conv c)) pass x.lanes } := by
    split
    · exact h.passLanes _
    · next hz =>
      rw [not_ne_iff.1 hz, mapLanes_zero]
      exact h
  have taken : t.releaseAt w.id c p = (if waitingAt x p (.conv c) ≠ 0#32 then t.passLanes x (waitingAt x p (.conv c)) else t).onLanes w false
      (waitingAt x p (.sync c)) fun l => { l with park := .due c, passed := 0 } := by
    rw [State.releaseAt, h.warp]
    exact onLanes_of_id _ h.id ..
  refine ⟨_, taken ▸ passed.onLanes _ _, rfl, by simpa using hx.2, fun n hn => ?_⟩
  have hlen : n < x.lanes.length := by rw [hx.2]; exact hn
  have count : t.countAt x (laneAt x.lanes n).hdr = s.countAt w (laneAt x.lanes n).hdr := by rw [h.countAt, hx.countAt]
  rw [laneAt_mapLanes _ _ _ _ (by simpa using hlen), laneAt_mapLanes _ _ _ _ hlen]
  simp only [getLsbD_waitingAt hn, convReleasedAt, convReleased, pass, count]
  by_cases hp : ((laneAt x.lanes n).hdr, (laneAt x.lanes n).idx) = p
  · by_cases he : (laneAt x.lanes n).exited = false
    · by_cases hc : (laneAt x.lanes n).park = .conv c
      · simp [hp, he, hc, Lane.goto]
      · simp [hp, he, hc]
    · simp [he]
  · simp [hp]

theorem Resigned.lanes {y : Warp} (hx : Resigned w x) (hy : y = { x with lanes := y.lanes }) (hl : y.lanes.length = 32) : Resigned w y := by
  refine ⟨?_, hl⟩
  rw [hx.1] at hy
  rw [hy]

theorem foldl_releaseAt_became (ps : List (Nat × Nat)) (h : Became s w t x) (hx : Resigned w x) :
    ∃ y, Became s w (ps.foldl (fun u p => u.releaseAt w.id c p) t) y ∧ y = { x with lanes := y.lanes } ∧
      ∀ n, n < 32 → laneAt y.lanes n = ps.foldl (convReleasedAt s w c) (laneAt x.lanes n) := by
  induction ps generalizing t x with
  | nil => exact ⟨x, h, rfl, fun _ _ => rfl⟩
  | cons p r ih =>
    obtain ⟨y, hb, hy, hl, hat⟩ := releaseAt_became (c := c) h hx p
    obtain ⟨z, hbz, hz, hatz⟩ := ih hb (hx.lanes hy hl)
    refine ⟨z, hbz, ?_, fun n hn => ?_⟩
    · rw [hz, hy]
    · rw [hatz n hn, hat n hn, List.foldl_cons]

theorem mem_insPos {p q : Nat × Nat} {r : List (Nat × Nat)} (h : q = p ∨ q ∈ r) : q ∈ insPos p r := by
  induction r with
  | nil => simpa [insPos] using h
  | cons a r ih =>
    rw [insPos]
    split
    · next hp =>
      subst hp
      simpa using h
    · split
      · simpa using h
      · rcases h with rfl | h
        · exact List.mem_cons_of_mem _ (ih (.inl rfl))
        · rcases List.mem_cons.1 h with rfl | h
          · exact List.mem_cons_self ..
          · exact List.mem_cons_of_mem _ (ih (.inr h))

/-- The positions of the completion test hold every lane that waits for its register. -/
theorem mem_convPositions {l : Lane} (hl : l ∈ w.lanes) (hw : waitsFor c l) : (l.hdr, l.idx) ∈ w.convPositions c := by
  obtain ⟨he, hp⟩ := hw
  have keeps (ls : List Lane) {r : List (Nat × Nat)} {q : Nat × Nat} (hq : q ∈ r) : q ∈ ls.foldl (fun r x =>
      if !x.exited && (decide (x.park = .conv c) || decide (x.park = .sync c)) then insPos (x.hdr, x.idx) r else r) r := by
    induction ls generalizing r with
    | nil => exact hq
    | cons a ls ih =>
      refine ih ?_
      dsimp only
      split
      · exact mem_insPos (.inr hq)
      · exact hq
  obtain ⟨before, after, hsplit⟩ := List.append_of_mem hl
  rw [Warp.convPositions, hsplit, List.foldl_append, List.foldl_cons]
  refine keeps after ?_
  rw [if_pos (by simpa [he] using hp)]
  exact mem_insPos (.inl rfl)

theorem completionReleasesTheSet : Claims.CompletionReleasesTheSet := by
  intro s w c hw hl g due
  refine ⟨fun h => ?_, fun hg hdue => ?_⟩
  · have incomplete : ¬w.complete c = true := by
      rw [complete_iff]
      rintro ⟨hne, hall⟩
      obtain hz | ⟨n, hn, hns⟩ := h
      · exact hne hz
      · exact Bool.false_ne_true (hns.symm.trans (hall n hn))
    simp only [State.converge, hw, if_neg incomplete]
  · have complete : w.complete c = true := complete_iff.2 ⟨hg, hdue⟩
    have start := (Became.refl hw).onWarp (fun x => { x with signed := sput 0 c 0 x.signed }) fun _ => rfl
    obtain ⟨y, hy, hkeeps, hat⟩ := foldl_releaseAt_became (c := c) (w.convPositions c) start ⟨rfl, hl⟩
    have run : s.converge w.id c = (w.convPositions c).foldl (fun u p => u.releaseAt w.id c p)
        (s.onWarp w.id fun x => { x with signed := sput 0 c 0 x.signed }) := by
      simp only [State.converge, hw, if_pos complete]
    refine ⟨y, run ▸ hy.warp, ?_, fun n hn => ?_⟩
    · have signed : y.signed = sput 0 c 0 w.signed := congrArg (fun v : Warp => v.signed) hkeeps
      rw [signed]
      exact sget_sput_same (0#32) c (0#32) w.signed
    · have lane : laneAt w.lanes n ∈ w.lanes := by
        rw [laneAt, List.getD_eq_getElem _ _ (by omega)]
        exact List.getElem_mem _
      rw [hat n hn, foldl_convReleasedAt]
      change (if _ then convReleased s w c (laneAt w.lanes n) else laneAt w.lanes n) = convReleased s w c (laneAt w.lanes n)
      split
      · rfl
      · next hout => exact (convReleased_of_not_waits fun hwaits => hout (mem_convPositions lane hwaits)).symm

end Completion

/-! ## CDECL and CSIGN (R114, R115) -/

section Declare

variable {i : Instr} {c : Common} {s t : State} {w w' : Warp} {act : Mask} {d a : Fld} {p : Perm}

/-- A convergence register's operand names one of the eight (R107). -/
theorem conv_lt {o : Opnd} (h : Acts i s w act) (ho : o ∈ opnds i) (hk : o.k = .conv) : o.f.toNat < 8 := by
  obtain ⟨-, -, -, -, -, hr, -⟩ := h
  have ok : o.ok w.gran s.iss.hnd = true := List.all_eq_true.1 (Bool.and_eq_true_iff.1 hr).1 o ho
  simpa only [Opnd.ok, hk, decide_eq_true_eq] using ok

theorem hnd_false_of_modeOk (h : Acts i s w act) (hm : ∀ b, modeOk i b = !b) : s.iss.hnd = false := by
  obtain ⟨-, -, -, -, hmode, -⟩ := h
  simpa [hm] using hmode

theorem warp?_of_issWarp (h : s.issWarp = some w) : s.warp? w.id = some w := by rw [warp?_id h]; exact h

/-- A mask declared on register `k`, or the trap where the register is signed. -/
def declared (s : State) (w : Warp) (act : Mask) (k : Nat) (m : Mask) : State :=
  if sget 0 k w.signed ≠ 0#32 then s.trapAll w act tOPERAND 0 0 0
  else ((s.onWarp w.id fun x => { x with decl := sput 0 k m x.decl }).advance w s.iss.lanes).converge w.id k

theorem exec_cdecl (h : Acts (.cdecl c d a p) s w act) : exec (.cdecl c d a p) s = .next (declared s w act d.toNat (s.reg w a.toNat 0)) := by
  have hd : d.toNat < 8 := conv_lt h (List.mem_cons_self ..) rfl
  have run : exec (.cdecl c d a p) s = .next (declared s w act (d.toNat % 8) (s.rd w a.toNat 0)) := perform_of_writes_none h rfl rfl _
  obtain ⟨-, -, -, he, -⟩ := h
  rw [run, Nat.mod_eq_of_lt hd, rd_noEarly he]

theorem exec_cdeclIss (h : Acts (.cdeclIss c d) s w act) : exec (.cdeclIss c d) s = .next (declared s w act d.toNat act) := by
  have hd : d.toNat < 8 := conv_lt h (List.mem_cons_self ..) rfl
  have run : exec (.cdeclIss c d) s = .next (declared s w act (d.toNat % 8) act) := perform_of_writes_none h rfl rfl _
  rw [run, Nat.mod_eq_of_lt hd]

theorem cdeclDeclares : Claims.CdeclDeclares := by
  refine ⟨fun c d a p s w act h hz => ?_, fun c d s w act h hz => ?_, fun c d a p s w act h hz => ?_, fun c d s w act h hz => ?_⟩
  · rw [exec_cdecl h, declared, if_neg (not_not.2 hz)]
  · rw [exec_cdeclIss h, declared, if_neg (not_not.2 hz)]
  · rw [exec_cdecl h, declared, if_pos hz]
  · rw [exec_cdeclIss h, declared, if_pos hz]

/-- Signing grows a register's signatures. -/
theorem Became.sign (h : Became s w t w') (k : Nat) (m : Mask) :
    Became s w (t.sign w k m) { w' with signed := sput 0 k (sget 0 k w'.signed ||| m) w'.signed } :=
  h.onWarp (fun x => { x with signed := supd 0 k (· ||| m) x.signed }) fun _ => rfl

/-- Lanes of a mask changed, and the other issuing lanes moved past the instruction. -/
theorem laneAt_elseOn (s : State) (m : Mask) (f : Lane → Lane) {L : List Lane} (hL : L.length = 32) {n : Nat} (hn : n < 32) :
    laneAt (mapLanes (s.iss.lanes &&& ~~~m) (Lane.goto (nextPos s.iss.hdr s.iss.idx s.iss.count)) (mapLanes m f L)) n =
      elseOn s m (fun _ => f) n (laneAt L n) := by
  rw [laneAt_advanced s _ _ (by simpa [hL] using hn), laneAt_mapLanes _ _ _ _ (by omega)]
  exact inMask_rest_inMask s m (fun _ => f) hn _

/-- The state that CSIGN leaves to the completion test: `m` has signed register `k` and parked there, the other issuing lanes have gone on. -/
def signedState (s : State) (w : Warp) (k : Nat) (m : Mask) : State :=
  ((s.sign w k m).parkHere w m (.conv k)).advance w (s.iss.lanes &&& ~~~m)

theorem exec_csign (h : Acts (.csign c a) s w act) : exec (.csign c a) s =
    .next ((signedState s w a.toNat (act &&& sget 0 a.toNat w.decl)).converge w.id a.toNat) := by
  have run : exec (.csign c a) s = .next ((signedState s w (a.toNat % 8) (act &&& sget 0 (a.toNat % 8) w.decl)).converge w.id (a.toNat % 8)) :=
    perform_of_writes_none h rfl rfl _
  have ha : a.toNat < 8 := conv_lt h (List.mem_cons_self ..) rfl
  rw [run, Nat.mod_eq_of_lt ha]

theorem exec_csignNw (h : Acts (.csignNw c a) s w act) : exec (.csignNw c a) s =
    .next (((s.sign w a.toNat (act &&& sget 0 a.toNat w.decl)).advance w s.iss.lanes).converge w.id a.toNat) := by
  have run : exec (.csignNw c a) s =
      .next (((s.sign w (a.toNat % 8) (act &&& sget 0 (a.toNat % 8) w.decl)).advance w s.iss.lanes).converge w.id (a.toNat % 8)) :=
    perform_of_writes_none h rfl rfl _
  have ha : a.toNat < 8 := conv_lt h (List.mem_cons_self ..) rfl
  rw [run, Nat.mod_eq_of_lt ha]

theorem csignSigns : Claims.CsignSigns := by
  refine ⟨fun c a s w act h => ?_, fun c a s w act h => exec_csignNw h⟩
  obtain ⟨hw, -, -, -, -, -, -, hl, -⟩ := id h
  have hh := hnd_false_of_modeOk h fun _ => rfl
  have became := (((Became.refl (warp?_of_issWarp hw)).sign a.toNat (act &&& sget 0 a.toNat w.decl)).parkHere hh
    (act &&& sget 0 a.toNat w.decl) (.conv a.toNat)).advance hh (s.iss.lanes &&& ~~~(act &&& sget 0 a.toNat w.decl))
  exact ⟨_, _, exec_csign h, became.only, became.warp, became.others, rfl, fun n hn => laneAt_elseOn s _ _ hl hn⟩

/-- Settles O19: CDECL and CSIGN each by its own equation, and the completion test by its releases, position after position. -/
theorem convergenceSets : Obligations.ConvergenceSets := ⟨cdeclDeclares, csignSigns, completionReleasesTheSet⟩

end Declare

end Sys2Proof.Machine

/-! PROOF. R107, R108, R239, R240: arrival at a synchronising instruction, and its one issue. -/

namespace Sys2Proof.Machine

open Claims

/-! ## Arrival (R107, R108) -/

section Arrive

variable {i : Instr} {s : State} {w : Warp} {act : Mask} {cv : BitVec 3}

theorem exec_arrives (hi : syncReg i = some cv) (hs : s.iss.sync = false) : exec i s = .next (s.arriveSync i cv.toNat) := by
  cases i with
  | mma | mmalr | adapt =>
    cases hi
    change Host.Outcome.next (if s.iss.sync then _ else _) = _
    rw [hs, if_neg Bool.false_ne_true]
  | _ => cases hi

/-- An arrival whose reads are due. -/
theorem arriveSync_eq (hw : s.issWarp = some w) (ha : act = s.guarded w (common i).guard)
    (hr : (readKeys i).any (w.undue s.iss.now) = false ∨ s.interlocked w s.iss.hnd = true) : s.arriveSync i cv.toNat =
    if s.iss.hnd then trapped s w act tILLEGAL 0 0 0 else s.arrive w cv.toNat act fun m t => t.trapAll w m tOPERAND 0 0 0 := by
  have look : (if s.interlocked w s.iss.hnd then s else s.lookEarly w i) = s := by
    obtain hr | hr := hr
    · rw [lookEarly_none hr, ite_self]
    · rw [if_pos hr]
  simp only [State.arriveSync, hw, look, ← ha]
  rfl

/-- The state that an arrival leaves to the completion test. -/
def arrivedState (s : State) (w : Warp) (k : Nat) (act : Mask) : State :=
  let d := sget 0 k w.decl
  let m := s.iss.lanes &&& d
  (((s.sign w k m).parkHere w m (.sync k)).trapAll w (act &&& ~~~d) tOPERAND 0 0 0).advance w (s.iss.lanes &&& ~~~d &&& ~~~act)

/-- Lanes of the set wait, guarded lanes outside it trap, and the other issuing lanes go on. -/
theorem laneAt_arrived {d : Mask} {k : Nat} (hact : ∀ n, n < 32 → act.getLsbD n = true → s.iss.lanes.getLsbD n = true) {L : List Lane} (hL : L.length = 32)
    {n : Nat} (hn : n < 32) :
    laneAt (mapLanes (s.iss.lanes &&& ~~~d &&& ~~~act) (Lane.goto (nextPos s.iss.hdr s.iss.idx s.iss.count))
      (mapLanes (act &&& ~~~d) (fun l => { l with park := .trap, passed := 0 })
        (mapLanes (s.iss.lanes &&& d) (fun l => { l with park := .sync k, passed := 0 }) L))) n =
      if (s.iss.lanes &&& d).getLsbD n then { laneAt L n with park := .sync k, passed := 0 }
      else if (act &&& ~~~d).getLsbD n then { laneAt L n with park := .trap, passed := 0 }
      else s.movedLane n (laneAt L n) := by
  have hlen : n < L.length := by omega
  rw [laneAt_mapLanes _ _ _ _ (by simpa using hlen), laneAt_mapLanes _ _ _ _ (by simpa using hlen), laneAt_mapLanes _ _ _ _ hlen]
  simp only [BitVec.getLsbD_and, BitVec.getLsbD_not, hn, decide_true, Bool.true_and, State.movedLane]
  have sub := hact n hn
  cases hi : s.iss.lanes.getLsbD n with
  | false =>
    have : act.getLsbD n = false := Bool.eq_false_iff.2 fun h => Bool.false_ne_true (hi.symm.trans (sub h))
    simp [this]
  | true => cases d.getLsbD n <;> cases act.getLsbD n <;> simp

theorem arrive_became (hw : s.issWarp = some w) (hh : s.iss.hnd = false) (hl : w.lanes.length = 32) (k : Nat)
    (hact : ∀ n, n < 32 → act.getLsbD n = true → s.iss.lanes.getLsbD n = true) :
    let d := sget 0 k w.decl
    let bad := act &&& ~~~d
    ∃ w', Became s w (arrivedState s w k act) w' ∧
      w' = { w with lanes := w'.lanes, signed := sput 0 k (sget 0 k w.signed ||| (s.iss.lanes &&& d)) w.signed,
                    traps := if bad = 0#32 then w.traps else joinTrap 2 s.nextId ((lanesOf bad).map fun l => TrapLane.of l 0 0 0 s.iss.word) w.traps } ∧
      ∀ n, n < 32 → laneAt w'.lanes n =
        if (s.iss.lanes &&& d).getLsbD n then { laneAt w.lanes n with park := .sync k, passed := 0 }
        else if bad.getLsbD n then { laneAt w.lanes n with park := .trap, passed := 0 }
        else s.movedLane n (laneAt w.lanes n) :=
  ⟨_, ((((Became.refl (warp?_of_issWarp hw)).sign k _).parkHere hh _ _).trapAll hh _ tOPERAND 0 0 0).advance hh _, rfl, fun _ hn => laneAt_arrived hact hl hn⟩

end Arrive

/-! ## Instructions that ask something of the warp's block -/

/-- An instruction that neither voids its block nor writes a register has its effect where its description's condition holds, and is an illegal operand elsewhere. -/
theorem performWith_of_writes_none {i : Instr} {s : State} {w : Warp} {act : Mask} (h : Acts i s w act) (hv : voids i = false) (hk : writeKeys i = [])
    (extra : State → Warp → Bool) (body : Warp → Mask → State → State) :
    performWith i extra body s = if extra s w then body w act s else trapped s w act tOPERAND 0 0 0 := by
  have unvoided : s.void w i = s := by rw [State.void, hv, if_neg Bool.false_ne_true]
  cases hx : extra s w with
  | true => rw [performWith_acts h (by rw [unvoided, hx]), note_of_writes_none _ _ _ hk, unvoided, if_pos rfl]
  | false =>
    obtain ⟨hw, ha, hn, -, hm, -, hd, -⟩ := h
    have unvoidedBy : s.voidBy w i = s := by rw [State.voidBy, unvoided, ite_self]
    have causes := performWith_causes (extra := extra) (body := body) hw (guarded_ne (ha ▸ hn)) (.inl (any_append_false hd).1)
    rw [causes, unvoidedBy, ← ha, if_neg (by simp [hm]), if_pos ⟨hn, .inr hx⟩, if_neg Bool.false_ne_true]

/-! ## The one issue of a synchronised set (R240) -/

section Issue

variable {i : Instr} {s : State} {w : Warp} {act : Mask} {k : MatK} {ns : List Nat}

theorem accOk_iff (s : State) (w : Warp) (a : Nat) : s.accOk w a = true ↔ a < (ctxOf s w).h.accs := by
  rw [State.accOk, decide_eq_true_iff, ctxOf]
  cases s.ctx? w.ctx with
  | none => rfl
  | some x => rfl

/-- The cluster group whose names an operation reads, if it reads any. -/
def namesGroup (s : State) (w : Warp) (ns : List Nat) : Nat := if ns = [] then 0 else ((s.warpGroup w).map (·.id)).getD 0

/-- The effect of a synchronised issue whose accumulators fit. -/
def started (s : State) (w : Warp) (act : Mask) (k : MatK) (ns : List Nat) : State :=
  if ∃ n ∈ ns, s.slice w n = none then trapped s w act tTILE 2 0 0 else s.newMat w k (namesGroup s w ns) ns

theorem warpGroup_of_slice {n : Nat} {g : CGroup} (h : s.slice w n = some g) : s.warpGroup w = some g := by
  obtain ⟨x, hx, hn⟩ := Option.bind_eq_some_iff.1 h
  split at hn
  · exact hx.trans hn
  · cases hn

theorem mmBody_eq (ta tb : BitVec 10) (f : State → Warp → MatK) : mmBody ta tb f w act s = started s w act (f s w) [ta.toNat, tb.toNat] := by
  rw [started]
  simp only [List.mem_cons, List.not_mem_nil, or_false, exists_eq_or_imp, exists_eq_left, mmBody]
  cases ha : s.slice w ta.toNat with
  | none =>
    rw [if_pos (.inl rfl)]
    rfl
  | some g =>
    cases hb : s.slice w tb.toNat with
    | none =>
      rw [if_pos (.inr rfl)]
      rfl
    | some g' =>
      have group : namesGroup s w [ta.toNat, tb.toNat] = g.id := by
        rw [namesGroup, if_neg (List.cons_ne_nil _ _), warpGroup_of_slice ha]
        rfl
      rw [if_neg (by simp), group]

theorem started_nil (s : State) (w : Warp) (act : Mask) (k : MatK) : started s w act k [] = s.newMat w k 0 [] := by
  rw [started, if_neg (by simp), namesGroup, if_pos rfl]

/-- A synchronised issue in the frame of R56, whose condition is that its accumulators fit. -/
theorem operation_of_perform {extra : State → Warp → Bool} {body : Warp → Mask → State → State}
    (h : Acts i s w act) (hv : voids i = false) (hk : writeKeys i = []) (hexec : exec i s = .next (performWith i extra body s))
    (hextra : extra s w = true ↔ matFits s w i) (hbody : body w act s = started s w act k ns) :
    (¬matFits s w i → exec i s = .next (trapped s w act tOPERAND 0 0 0)) ∧ (matFits s w i → exec i s = .next (started s w act k ns)) := by
  rw [hexec, performWith_of_writes_none h hv hk, hbody, ← hextra]
  exact ⟨fun hx => by rw [if_neg hx], fun hx => by rw [if_pos hx]⟩

/-- An operation is refused for its accumulators, or starts. -/
theorem exec_operation (ho : operation s w i = some (k, ns)) (h : Acts i s w act) (hs : s.iss.sync = true) :
    (¬matFits s w i → exec i s = .next (trapped s w act tOPERAND 0 0 0)) ∧ (matFits s w i → exec i s = .next (started s w act k ns)) := by
  have issue (x y : State) : (if s.iss.sync then x else y) = x := if_pos hs
  cases i with
  | mma c kk a ta tb cv =>
    cases ho
    exact operation_of_perform h rfl rfl (congrArg Host.Outcome.next (issue ..)) (accOk_iff ..) (mmBody_eq ta tb fun _ _ => .mma kk a.toNat ta.toNat tb.toNat)
  | mmalr c kk a ta tb aux cv =>
    cases ho
    refine operation_of_perform h rfl rfl (congrArg Host.Outcome.next (issue ..)) ?_ (mmBody_eq ta tb fun s w => .mmalr kk a.toNat ta.toNat tb.toNat (rowIds s w aux))
    simp only [Bool.and_eq_true, decide_eq_true_eq, accOk_iff, matFits]
    omega
  | adapt c a b cb cv =>
    cases ho
    refine operation_of_perform h rfl rfl (congrArg Host.Outcome.next (issue ..)) ?_ (started_nil s w act (.adapt a.toNat b.toNat cb.toNat)).symm
    simp only [Bool.and_eq_true, decide_eq_true_eq, accOk_iff, matFits, and_assoc]
  | _ => cases ho

/-- Settles O35: an arrival changes its warp alone and leaves it to the completion test; the one issue is refused, traps for its names, or starts its operation. -/
theorem matrixSynchronises : Obligations.MatrixSynchronises := by
  refine ⟨fun i cv s w act hi hs hw hl ha hr => ?_, fun i cv s w act k ns _ ho h hs => ?_⟩
  · have arrives : exec i s = .next (s.arriveSync i cv.toNat) := exec_arrives hi hs
    rw [arriveSync_eq hw ha hr] at arrives
    refine ⟨fun hh => by rw [arrives, if_pos hh]; rfl, fun hh => ?_⟩
    have sub (n : Nat) (hn : n < 32) (hg : act.getLsbD n = true) : s.iss.lanes.getLsbD n = true := by
      rw [ha, guarded_sub _ _ _ _ hn] at hg
      exact (Bool.and_eq_true_iff.1 hg).1
    obtain ⟨w', became, kept, lanes⟩ := arrive_became hw hh hl cv.toNat sub
    refine ⟨_, w', ?_, became.only, became.warp, became.others, kept, lanes⟩
    rw [arrives, hh, if_neg Bool.false_ne_true]
    rfl
  · obtain ⟨refused, runs⟩ := exec_operation ho h hs
    refine ⟨refused, fun hfit hmiss => by rw [runs hfit, started, if_pos hmiss]; rfl, fun hfit hall => ?_⟩
    have none : ¬∃ n ∈ ns, s.slice w n = none := fun ⟨n, hn, hz⟩ => Bool.false_ne_true (by simpa [hz] using hall n hn)
    rw [runs hfit, started, if_neg none]
    rfl

end Issue

end Sys2Proof.Machine

/-! PROOF. R101, R254, R260, R261: barriers, and the releases of waiting lanes. -/

namespace Sys2Proof.Machine

open Claims

/-! ## Releases -/

section Release

variable {s t : State} {p : Warp → Bool} {k : Park} {sc : Scope} {v : Warp}

/-- A lane released past its instruction. -/
def passedLane (s : State) (w : Warp) (l : Lane) : Lane :=
  { l with hdr := (nextPos l.hdr l.idx (s.countAt w l.hdr)).1, idx := (nextPos l.hdr l.idx (s.countAt w l.hdr)).2, park := .run, passed := 0 }

/-- A warp `x` once the lanes of `w` that wait for `k` have been released, with an acquire owed beyond the block. -/
def releasedWarp (s : State) (k : Park) (sc : Scope) (w x : Warp) : Warp :=
  { x with lanes := mapLanes (w.parkedFor k) (passedLane s w) x.lanes, acq := if sc = .blk then x.acq else true }

theorem pass_oweAcquire (ht : ∀ w a, t.countAt w a = s.countAt w a) (w : Warp) :
    (t.passLanes w (w.parkedFor k)).oweAcquire w sc = t.onWarp w.id (releasedWarp s k sc w) := by
  have passes : t.passLanes w (w.parkedFor k) = t.onWarp w.id fun x => { x with lanes := mapLanes (w.parkedFor k) (passedLane s w) x.lanes } := by
    simp only [State.passLanes, ht]
    rfl
  rw [passes]
  cases sc with
  | blk => rfl
  | cl | dev | sys => exact onWarp_onWarp _ _ fun _ => rfl

/-- The warps that a release releases. -/
def releasedOf (s : State) (p : Warp → Bool) (k : Park) : List Warp := s.warps.filter fun w => p w && decide (w.parkedFor k ≠ 0#32)

/-- A release is one update of each warp that it releases. -/
theorem releaseAll_eq (s : State) (p : Warp → Bool) (k : Park) (sc : Scope) :
    s.releaseAll p k sc = (releasedOf s p k).foldl (fun t w => t.onWarp w.id (releasedWarp s k sc w)) s := by
  have fold (l : List Warp) (t : State) (ht : ∀ w a, t.countAt w a = s.countAt w a) :
      l.foldl (fun t w => (t.passLanes w (w.parkedFor k)).oweAcquire w sc) t = l.foldl (fun t w => t.onWarp w.id (releasedWarp s k sc w)) t := by
    induction l generalizing t with
    | nil => rfl
    | cons w r ih =>
      rw [List.foldl_cons, List.foldl_cons, pass_oweAcquire ht]
      exact ih _ ht
  exact fold _ s fun _ _ => rfl

theorem releaseAll_iss (s : State) (p : Warp → Bool) (k : Park) (sc : Scope) : (s.releaseAll p k sc).iss = s.iss := by
  rw [releaseAll_eq]
  exact foldl_keeps (f := fun (t : State) w => t.onWarp w.id (releasedWarp s k sc w)) State.iss (fun _ _ => rfl) ..

/-- Updates of warps, one after another, as one warp sees them. -/
theorem warp?_foldl_onWarp {g : Warp → Warp → Warp} (hg : ∀ w x, (g w x).id = x.id) (l : List Warp) (t : State) (j : Nat) :
    (l.foldl (fun t w => t.onWarp w.id (g w)) t).warp? j = (t.warp? j).map fun x => l.foldl (fun x w => if j = w.id then g w x else x) x := by
  induction l generalizing t with
  | nil => simp
  | cons w r ih =>
    rw [List.foldl_cons, ih, warp?_onWarp _ _ (hg w), Option.map_map]
    rfl

/-- Where no two warps share an identity, a warp sees its own update alone, if it has one. -/
theorem foldl_own {g : Warp → Warp → Warp} {l : List Warp} (hids : (l.map (·.id)).Nodup) (hv : v ∈ l) :
    l.foldl (fun x w => if v.id = w.id then g w x else x) v = g v v := by
  obtain ⟨before, after, rfl⟩ := List.append_of_mem hv
  rw [List.map_append, List.map_cons, List.nodup_append] at hids
  obtain ⟨-, hafter, hbefore⟩ := hids
  have out : v.id ∉ after.map (·.id) := (List.nodup_cons.1 hafter).1
  rw [List.foldl_append, List.foldl_cons, if_pos rfl]
  have first : before.foldl (fun x w => if v.id = w.id then g w x else x) v = v := foldl_unchanged fun w hw =>
    if_neg fun he => hbefore w.id (List.mem_map_of_mem hw) v.id (List.mem_cons_self ..) he.symm
  have last : after.foldl (fun x w => if v.id = w.id then g w x else x) (g v v) = g v v := foldl_unchanged fun w hw =>
    if_neg fun (he : v.id = w.id) => out (he ▸ List.mem_map_of_mem hw)
  rw [first, last]

theorem parkedFor_getLsbD {n : Nat} (hn : n < 32) :
    (v.parkedFor k).getLsbD n = (!(laneAt v.lanes n).exited && decide ((laneAt v.lanes n).park = k)) := getLsbD_maskOf _ _ hn

theorem parkedFor_ne_zero_iff : v.parkedFor k ≠ 0#32 ↔
    ((List.range 32).any fun n => !(laneAt v.lanes n).exited && decide ((laneAt v.lanes n).park = k)) = true := by
  rw [← not_iff_not, not_ne_iff, Bool.not_eq_true, List.any_eq_false]
  refine ⟨fun h n hn => ?_, fun h => mask_ext fun n hn => ?_⟩
  · rw [← parkedFor_getLsbD (List.mem_range.1 hn), h, BitVec.getLsbD_zero]
    exact Bool.false_ne_true
  · rw [parkedFor_getLsbD hn, BitVec.getLsbD_zero]
    exact Bool.eq_false_iff.2 (h n (List.mem_range.2 hn))

/-- A warp after a release: its update if the release picks it. -/
theorem releaseAll_warp? (hids : (s.warps.map (·.id)).Nodup) (hv : v ∈ s.warps) : (s.releaseAll p k sc).warp? v.id =
    some (if p v = true ∧ v.parkedFor k ≠ 0#32 then releasedWarp s k sc v v else v) := by
  have picked : v ∈ releasedOf s p k ↔ p v = true ∧ v.parkedFor k ≠ 0#32 := by
    simp only [releasedOf, List.mem_filter, hv, true_and, Bool.and_eq_true, decide_eq_true_eq]
  have sub : List.Sublist (releasedOf s p k) s.warps := List.filter_sublist
  rw [releaseAll_eq, warp?_foldl_onWarp (g := releasedWarp s k sc) fun _ _ => rfl, warp?_of_mem hids hv, Option.map_some]
  by_cases hp : v ∈ releasedOf s p k
  · rw [foldl_own ((sub.map _).nodup hids) hp, if_pos (picked.1 hp)]
  · rw [foldl_unchanged fun w hw => if_neg fun he => hp (List.inj_on_of_nodup_map hids hv (sub.subset hw) he ▸ hw), if_neg (mt picked.2 hp)]

/-- The lanes of a released warp. -/
theorem laneAt_releasedWarp (hl : v.lanes.length = 32) {n : Nat} (hn : n < 32) : laneAt (releasedWarp s k sc v v).lanes n =
    if (laneAt v.lanes n).exited = false ∧ (laneAt v.lanes n).park = k then passedLane s v (laneAt v.lanes n) else laneAt v.lanes n := by
  rw [releasedWarp, laneAt_mapLanes _ _ _ _ (by omega), parkedFor_getLsbD hn]
  simp only [Bool.and_eq_true, Bool.not_eq_true', decide_eq_true_eq]

theorem releaseAll_releases (s : State) (p : Warp → Bool) (k : Park) (sc : Scope) (v : Warp) (hids : (s.warps.map (·.id)).Nodup) (hv : v ∈ s.warps)
    (hl : v.lanes.length = 32) : ∃ v', (s.releaseAll p k sc).warp? v.id = some v' ∧ (sc = .blk → v' = { v with lanes := v'.lanes }) ∧
      (sc ≠ .blk → v' = { v with lanes := v'.lanes, acq := v.acq || (p v && (List.range 32).any fun n => !(laneAt v.lanes n).exited &&
        decide ((laneAt v.lanes n).park = k)) }) ∧
      ∀ n, n < 32 → laneAt v'.lanes n =
        if p v = true ∧ (laneAt v.lanes n).exited = false ∧ (laneAt v.lanes n).park = k then passedLane s v (laneAt v.lanes n) else laneAt v.lanes n := by
  refine ⟨_, releaseAll_warp? hids hv, ?_⟩
  by_cases hp : p v = true ∧ v.parkedFor k ≠ 0#32
  · obtain ⟨hpv, hk⟩ := hp
    rw [if_pos ⟨hpv, hk⟩]
    refine ⟨fun hsc => by rw [releasedWarp, if_pos hsc], fun hsc => ?_, fun n hn => ?_⟩
    · rw [parkedFor_ne_zero_iff.1 hk, hpv, Bool.and_self, Bool.or_true, releasedWarp, if_neg hsc]
    · rw [laneAt_releasedWarp hl hn]
      simp only [hpv, true_and]
  · rw [if_neg hp]
    have idle : (p v && (List.range 32).any fun n => !(laneAt v.lanes n).exited && decide ((laneAt v.lanes n).park = k)) = false :=
      Bool.eq_false_iff.2 fun h => hp ⟨(Bool.and_eq_true_iff.1 h).1, parkedFor_ne_zero_iff.2 (Bool.and_eq_true_iff.1 h).2⟩
    refine ⟨fun _ => rfl, fun _ => by rw [idle, Bool.or_false], fun n hn => (if_neg ?_).symm⟩
    rintro ⟨hpv, he, hk⟩
    refine hp ⟨hpv, fun hz => Bool.false_ne_true ?_⟩
    rw [← BitVec.getLsbD_zero (w := 32) (i := n), ← hz, parkedFor_getLsbD hn, he, decide_eq_true hk]
    rfl

end Release

/-! ## Arrivals -/

section Arrivals

variable {s t : State} {w : Warp} {act : Mask} {c : Common} {arv : Bool} {a : Fld} {p : Perm} {b : Bar} {e : Nat}

theorem refuses_iff : (decide (e = 0) || decide (65535 < e) || (decide (b ≠ Bar.idle) && decide (b.expected ≠ e))) = true ↔ miscounted b e := by
  simp only [miscounted, Bool.or_eq_true, Bool.and_eq_true, decide_eq_true_eq, or_assoc]

theorem arrive_miscounted (h : miscounted b e) : b.arrive e = none := by
  rw [Bar.arrive, if_pos (refuses_iff.2 h)]

theorem arrive_counted (h : ¬miscounted b e) (he : b.arrivals + 1 ≠ e) : b.arrive e = some ({ arrivals := b.arrivals + 1, expected := e }, false) := by
  rw [Bar.arrive, if_neg (mt refuses_iff.1 h), if_neg he]

theorem arrive_last (h : ¬miscounted b e) (he : b.arrivals + 1 = e) : b.arrive e = some (Bar.idle, true) := by
  rw [Bar.arrive, if_neg (mt refuses_iff.1 h), if_pos he]

/-- An arrival that is not the last: its lanes wait, unless it is an arrival only. -/
theorem arrived_counted (ht : t.iss = s.iss) (k : Park) :
    t.arrived w act arv false k = if arv then t.advance w s.iss.lanes else (t.parkHere w act k).advance w (s.iss.lanes &&& ~~~act) := by
  rw [State.arrived, Bool.or_false, ht]

/-- The last arrival: its lanes go on. -/
theorem arrived_last (ht : t.iss = s.iss) (k : Park) : t.arrived w act arv true k = t.advance w s.iss.lanes := by
  rw [State.arrived, Bool.or_true, if_pos rfl, ht]

/-- What BAR does with its barrier's answer. -/
def barMet (s : State) (w : Warp) (act : Mask) (arv : Bool) (n : BitVec 4) : Option (Bar × Bool) → State
  | none => trapped s w act tABORT aBARCOUNT 0 0
  | some (b, last) =>
    let t := setBar s w n b
    (if last then t.releaseAll (fun v => v.blk = w.blk) (.bar n.toNat) .blk else t).arrived w act arv last (.bar n.toNat)

theorem exec_bar {n : BitVec 4} (h : Acts (.bar c arv n a p) s w act) : exec (.bar c arv n a p) s = .next
    (if decide (n.toNat < ((s.ctx? w.ctx).map fun c => c.h.bars).getD 0) then barMet s w act arv n ((Claims.barOf s w n).arrive (s.reg w a.toNat 0).toNat)
      else trapped s w act tOPERAND 0 0 0) := by
  have run : exec (.bar c arv n a p) s = .next
      (if decide (n.toNat < ((s.ctx? w.ctx).map fun c => c.h.bars).getD 0) then barMet s w act arv n ((Claims.barOf s w n).arrive (s.rd w a.toNat 0).toNat)
        else trapped s w act tOPERAND 0 0 0) :=
    congrArg Host.Outcome.next (performWith_of_writes_none h rfl rfl _ _)
  obtain ⟨-, -, -, he, -⟩ := h
  rw [run, rd_noEarly he]

/-- What CBAR does with its cluster barrier's answer. -/
def cbarMet (s : State) (w : Warp) (act : Mask) (arv : Bool) (g : CGroup) : Option (Bar × Bool) → State
  | none => trapped s w act tABORT aBARCOUNT 0 0
  | some (b, last) =>
    let t := s.onCGroup g.id fun x => { x with cbar := b }
    let u := if last then t.releaseAll (fun v => s.blockCg v.blk = g.id) .cbar .cl else t
    (if last && !arv then u.acquire w.core .cl else u).arrived w act arv last .cbar

/-- CBAR in a group that holds its record, and in none. -/
theorem exec_cbar (h : Acts (.cbar c arv a p) s w act) :
    ((∀ g, s.warpGroup w = some g → g.hasRec = false) → exec (.cbar c arv a p) s = .next (trapped s w act tOPERAND 0 0 0)) ∧
    ∀ g, s.warpGroup w = some g → g.hasRec = true →
      exec (.cbar c arv a p) s = .next (cbarMet s w act arv g (g.cbar.arrive ((s.reg w a.toNat 0).toNat * g.size))) := by
  have run : exec (.cbar c arv a p) s = .next (if ((s.warpGroup w).map (·.hasRec)).getD false then
      (match s.warpGroup w with
        | none => s
        | some g => cbarMet s w act arv g (g.cbar.arrive ((s.rd w a.toNat 0).toNat * g.size))) else trapped s w act tOPERAND 0 0 0) :=
    congrArg Host.Outcome.next (performWith_of_writes_none h rfl rfl _ _)
  obtain ⟨-, -, -, he, -⟩ := h
  refine ⟨fun lacks => ?_, fun g hg hr => ?_⟩
  · have without : ((s.warpGroup w).map (·.hasRec)).getD false = false := by
      cases hg : s.warpGroup w with
      | none => rfl
      | some g => exact lacks g hg
    rw [run, without, if_neg Bool.false_ne_true]
  · have holds : ((s.warpGroup w).map (·.hasRec)).getD false = true := by rw [hg]; exact hr
    rw [run, holds, if_pos rfl, hg, rd_noEarly he]

/-- Settles O30: an arrival by its barrier's three answers, and a release by its one update of each warp that waits. -/
theorem barrierResult : Obligations.BarrierResult := by
  refine ⟨⟨fun c arv n a p s w act h => ?_, fun c arv a p s w act h => ?_⟩, fun s p k sc v hids hv hl => releaseAll_releases s p k sc v hids hv hl⟩
  · intro i e b has
    have run := exec_bar h
    refine ⟨fun hn => ?_, fun hn hm => ?_, fun hn hm hne => ?_, fun hn hm he => ?_⟩
    · rw [run, if_neg (mt of_decide_eq_true hn)]
      rfl
    · rw [run, if_pos (decide_eq_true hn), arrive_miscounted hm]
      rfl
    · rw [run, if_pos (decide_eq_true hn), arrive_counted hm hne]
      exact congrArg Host.Outcome.next (arrived_counted rfl _)
    · rw [run, if_pos (decide_eq_true hn), arrive_last hm he]
      exact congrArg Host.Outcome.next (arrived_last (releaseAll_iss ..) _)
  · intro i
    obtain ⟨lacks, holds⟩ := exec_cbar h
    refine ⟨lacks, fun g hg hr => ?_⟩
    intro e
    have run := holds g hg hr
    refine ⟨fun hm => ?_, fun hm hne => ?_, fun hm he => ?_⟩
    · rw [run, arrive_miscounted hm]
      rfl
    · rw [run, arrive_counted hm hne]
      exact congrArg Host.Outcome.next (arrived_counted rfl _)
    · rw [run, arrive_last hm he]
      cases arv with
      | true => exact congrArg Host.Outcome.next (arrived_last (releaseAll_iss ..) _)
      | false => exact congrArg Host.Outcome.next (arrived_last (t := State.l1clear _ w.core) (releaseAll_iss ..) _)

end Arrivals

end Sys2Proof.Machine

/-! SUPPORT. Results by lane, written where no exception traps and split where some do (R45, R130): the lanes that trap keep their registers and flags, and
the others take their results. -/

namespace Sys2Proof.Machine

open Claims

section Split

variable {i : Instr} {s t : State} {w x : Warp} {act : Mask} {e : Nat → Exc}

/-! ## The lanes that trap and those that do not -/

/-- The acting lanes whose exceptions trap, ascending. -/
def raisedLanes (w : Warp) (act : Mask) (e : Nat → Exc) : List Nat := (List.range 32).filter (enabled w act e)

/-- The acting lanes whose exceptions do not trap, ascending. -/
def sparedLanes (w : Warp) (act : Mask) (e : Nat → Exc) : List Nat := (List.range 32).filter fun l => act.getLsbD l && !enabled w act e l

theorem enabled_eq (w : Warp) (act : Mask) (e : Nat → Exc) (l : Nat) : enabled w act e l = (act.getLsbD l && w.traps? l (e l)) := rfl

theorem acting_of_enabled {l : Nat} (h : enabled w act e l = true) : act.getLsbD l = true := (Bool.and_eq_true_iff.1 h).1

theorem mem_raisedLanes {l : Nat} (hl : l < 32) : l ∈ raisedLanes w act e ↔ enabled w act e l = true := by
  simp only [raisedLanes, List.mem_filter, List.mem_range, hl, true_and]

theorem mem_sparedLanes {l : Nat} : l ∈ sparedLanes w act e ↔ act.getLsbD l = true ∧ enabled w act e l = false := by
  simp only [sparedLanes, List.mem_filter, List.mem_range, Bool.and_eq_true, Bool.not_eq_true']
  exact ⟨And.right, fun h => ⟨mask_lt act l h.1, h⟩⟩

theorem filter_raised {α : Type} (w : Warp) (act : Mask) (g : Nat → α × Exc) :
    ((lanesOf act).map fun l => (l, g l)).filter (fun r => w.traps? r.1 r.2.2) = (raisedLanes w act fun l => (g l).2).map fun l => (l, g l) := by
  rw [List.filter_map, lanesOf, lanes32_eq_range, List.filter_filter]
  exact congrArg _ (List.filter_congr fun l _ => Bool.and_comm ..)

theorem filter_spared {α : Type} (w : Warp) (act : Mask) (g : Nat → α × Exc) :
    ((lanesOf act).map fun l => (l, g l)).filter (fun r => !w.traps? r.1 r.2.2) = (sparedLanes w act fun l => (g l).2).map fun l => (l, g l) := by
  rw [List.filter_map, lanesOf, lanes32_eq_range, List.filter_filter]
  refine congrArg _ (List.filter_congr fun l _ => ?_)
  rw [enabled_eq]
  cases act.getLsbD l <;> simp

theorem maskOf_raised {α : Type} (w : Warp) (act : Mask) (g : Nat → α × Exc) :
    (maskOf fun l => ((raisedLanes w act fun l => (g l).2).map fun l => (l, g l)).any fun r => decide (r.1 = l)) = maskOf (enabled w act fun l => (g l).2) := by
  refine mask_ext fun l hl => ?_
  rw [getLsbD_maskOf _ _ hl, getLsbD_maskOf _ _ hl, Bool.eq_iff_iff, ← mem_raisedLanes hl]
  simp

/-- What follows the writes of a result by lane: the flags of the lanes that do not trap, the traps of those that do, and the moves of the others. -/
def State.endLanes (t : State) (w : Warp) (act : Mask) (e : Nat → Exc) : State :=
  ((t.orFlags w ((sparedLanes w act e).map fun l => (l, e l))).arithTrap w ((raisedLanes w act e).map fun l => (l, e l))).advance w
    (t.iss.lanes &&& ~~~maskOf (enabled w act e))

theorem laneResults_split (w : Warp) (act : Mask) (d : Nat) (f : Nat → List Word × Exc) (s : State) :
    laneResults w act d f s = (s.wr w d ((sparedLanes w act fun l => (f (srcLane act d l)).2).map fun l => (l, (f (srcLane act d l)).1))).endLanes w act
      fun l => (f (srcLane act d l)).2 := by
  have hrs : (if isS d then (let r := f (lowestLane act); (lanesOf act).map fun l => (l, r)) else (lanesOf act).map fun l => (l, f l)) =
      (lanesOf act).map fun l => (l, f (srcLane act d l)) := by
    unfold srcLane; split <;> rfl
  unfold laneResults
  rw [hrs]
  simp only [filter_raised, filter_spared, maskOf_raised, List.map_map, orFlags_iss]
  rfl

theorem lanePreds_split (w : Warp) (act : Mask) (d : Nat) (f : Nat → Bool × Exc) (s : State) :
    lanePreds w act d f s = (s.wrP w d ((sparedLanes w act fun l => (f l).2).map fun l => (l, (f l).1))).endLanes w act fun l => (f l).2 := by
  unfold lanePreds
  simp only [filter_raised, filter_spared, maskOf_raised, List.map_map, orFlags_iss]
  rfl

/-! ## The traps of an issue outside a handler (R288) -/

theorem getLsbD_trapMask {ls : List Nat} {cause addr : Nat} {info : Nat → Nat} {word : Word64} {n : Nat} (hn : n < 32) :
    (trapMask (ls.map fun l => TrapLane.of l cause addr (info l) word)).getLsbD n = decide (n ∈ ls) := by
  have fold := foldl_maskOf (fun _ => true) ls 0#32 n hn
  simp only [if_true, BitVec.getLsbD_zero, Bool.false_or, Bool.and_true, List.contains_eq_mem] at fold
  rw [trapMask, List.foldl_map]
  exact fold

theorem trapMask_raised (w : Warp) (act : Mask) (e : Nat → Exc) (word : Word64) :
    trapMask ((raisedLanes w act e).map fun l => TrapLane.of l 0 0 (e l).toNat word) = maskOf (enabled w act e) := by
  refine mask_ext fun l hl => ?_
  rw [getLsbD_trapMask hl, getLsbD_maskOf _ _ hl, Bool.eq_iff_iff, decide_eq_true_iff, mem_raisedLanes hl]

/-- Traps outside a handler park their lanes as one sub-warp of their class. -/
theorem Became.takeTrap (h : Became s w t x) {cls : Nat} {ts : List TrapLane} (hts : ts ≠ []) : Became s w (t.takeTrap w false cls ts)
    { x with lanes := mapLanes (trapMask ts) (fun l => { l with park := .trap, passed := 0 }) x.lanes, traps := joinTrap cls s.nextId ts x.traps } := by
  cases ts with
  | nil => exact absurd rfl hts
  | cons a r =>
    rw [← h.nextId]
    exact (h.onLanes _ _).onWarp (fun y => { y with traps := joinTrap cls t.nextId (a :: r) y.traps }) fun _ => rfl

/-- A warp `x` whose lanes have ended so: their flags grown by `F`, those that trap parked, the others moved on. -/
def endedWarp (s : State) (w : Warp) (act : Mask) (e : Nat → Exc) (F : List Lane → List Lane) (x : Warp) : Warp :=
  { x with
    lanes := mapLanes (s.iss.lanes &&& ~~~maskOf (enabled w act e)) (Lane.goto (nextPos s.iss.hdr s.iss.idx s.iss.count))
      (mapLanes (maskOf (enabled w act e)) (fun l => { l with park := .trap, passed := 0 }) (F x.lanes))
    traps := joinTrap tARITH s.nextId ((raisedLanes w act e).map fun l => TrapLane.of l 0 0 (e l).toNat s.iss.word) x.traps }

/-- `F` grows the flags of the lanes that do not trap by their exceptions. -/
def GrowsSpared (w : Warp) (act : Mask) (e : Nat → Exc) (F : List Lane → List Lane) : Prop :=
  ∀ L, (F L).length = L.length ∧ ∀ n, n < L.length → laneAt (F L) n =
    { laneAt L n with fpfl := (laneAt L n).fpfl ||| if n ∈ sparedLanes w act e then e n else 0 }

theorem Became.endLanes (h : Became s w t x) (hh : s.iss.hnd = false) (hbad : ∃ l, l < 32 ∧ enabled w act e l = true) :
    ∃ F, GrowsSpared w act e F ∧ Became s w (t.endLanes w act e) (endedWarp s w act e F x) := by
  obtain ⟨F, hF, hgrows⟩ := orFlags_spec t w (sparedLanes w act e) e fun l hl => mask_lt act l (mem_sparedLanes.1 hl).1
  obtain ⟨a, ha, hraised⟩ := hbad
  have hts : (raisedLanes w act e).map (fun l => TrapLane.of l 0 0 (e l).toNat s.iss.word) ≠ [] :=
    List.ne_nil_of_mem (List.mem_map_of_mem ((mem_raisedLanes ha).2 hraised))
  refine ⟨F, hgrows, ?_⟩
  have flagged : Became s w (t.orFlags w ((sparedLanes w act e).map fun l => (l, e l))) { x with lanes := F x.lanes } :=
    hF ▸ h.onWarp (fun y => { y with lanes := F y.lanes }) fun _ => rfl
  have ended := (flagged.takeTrap (cls := tARITH) hts).advance hh (s.iss.lanes &&& ~~~maskOf (enabled w act e))
  rw [trapMask_raised] at ended
  rw [State.endLanes, State.arithTrap, List.map_map, flagged.iss, h.iss, hh]
  exact ended

/-- The lanes that so end. -/
theorem laneAt_endedWarp {F : List Lane → List Lane} (hF : GrowsSpared w act e F)
    (hx : x.lanes = w.lanes) (hlen : w.lanes.length = 32) {l : Nat} (hl : l < 32) : laneAt (endedWarp s w act e F x).lanes l =
      if enabled w act e l then { laneAt w.lanes l with park := .trap, passed := 0 }
      else { s.movedLane l (laneAt w.lanes l) with fpfl := (laneAt w.lanes l).fpfl ||| if act.getLsbD l then e l else 0 } := by
  obtain ⟨hFlen, hFat⟩ := hF w.lanes
  rw [endedWarp, hx, laneAt_mapLanes _ _ _ _ (by rw [mapLanes_length]; omega), laneAt_mapLanes _ _ _ _ (by omega), hFat l (by omega), BitVec.getLsbD_and,
    BitVec.getLsbD_not, getLsbD_maskOf _ _ hl]
  simp only [mem_sparedLanes, hl, decide_true, Bool.true_and]
  cases hb : enabled w act e l with
  | true => simp
  | false =>
    rw [State.movedLane]
    cases s.iss.lanes.getLsbD l <;> simp [Lane.goto]

/-- An issue with enabled exceptions, whose results have been written and so made `x` of its warp. -/
theorem Became.someTrapped (h : Became s w t x) (ha : Acts i s w act) (hh : s.iss.hnd = false) (hx : x = { w with v := x.v, s := x.s, p := x.p })
    (hbad : ∃ l, l < 32 ∧ enabled w act e l = true) :
    ∃ w', SomeTrapped s w act e (s.note w act i (t.endLanes w act e)) w' ∧ w' = { x with lanes := w'.lanes, fixed := w'.fixed, traps := w'.traps } := by
  obtain ⟨-, -, -, -, -, -, hdue, hl⟩ := ha
  obtain ⟨F, hF, ended⟩ := h.endLanes hh hbad
  obtain ⟨g, hg⟩ := note_acts s w act i (t.endLanes w act e) (any_append_false hdue).2
  have noted := ended.onWarp (fun y => { y with fixed := g y.fixed }) fun _ => rfl
  rw [← hg] at noted
  refine ⟨_, { only := noted.only, warp := noted.warp, others := noted.others, same := ?same, traps := ?traps, lanes := fun l hl32 => ?lanes }, rfl⟩
  case same => rw [hx]; rfl
  case traps => rw [hx]; rfl
  case lanes => exact laneAt_endedWarp hF (by rw [hx]) hl.1 hl32

end Split

end Sys2Proof.Machine

/-! PROOF. R125, R130, R143, R146 to R150, R152 to R155, R157 to R163, R165: results by lane and predicates, with their exceptions. -/

namespace Sys2Proof.Machine

open Claims

/-! ## Registers and predicates of the lanes that do not trap -/

section Written

variable {i : Instr} {s t : State} {w x : Warp} {act : Mask} {e : Nat → Exc}

/-- A register reads as the warp holds it: nothing else that it depends on has changed. -/
theorem reg_of_someTrapped {w' : Warp} (h : SomeTrapped s w act e t w') (hx : w' = { x with lanes := w'.lanes, fixed := w'.fixed, traps := w'.traps })
    (r l : Nat) : t.reg w' r l = s.reg x r l := by
  rw [h.only, hx]
  rfl

theorem pred_of_ended {w' : Warp} (hx : w' = { x with lanes := w'.lanes, fixed := w'.fixed, traps := w'.traps }) (q l : Nat) : w'.pred q l = x.pred q l := by
  rw [hx]
  rfl

/-- A vector result written in some lanes. -/
theorem wr_vector {ls : List Nat} {g : Nat → List Word} {d n : Nat} (hw : s.warp? w.id = some w) (hn : 0 < n) (hd : d + n ≤ 640) (hls : ∀ l ∈ ls, l < 32)
    (hlen : ∀ l ∈ ls, (g l).length = n) :
    ∃ x, Became s w (s.wr w d (ls.map fun l => (l, g l))) x ∧ x = { w with v := x.v } ∧
      ∀ r l, l < 32 → s.reg x r l = if d ≤ r ∧ r < d + n ∧ l ∈ ls then (g l).getD (r - d) 0 else s.reg w r l := by
  refine ⟨_, by rw [State.wr, if_pos (by omega)]; exact (Became.refl hw).onWarp _ fun _ => rfl, rfl, fun r l hl => ?_⟩
  by_cases hr : r < 640
  · rw [reg_of_v _ _ _ _ hr, reg_of_v _ _ _ _ hr, sget_putWords_fold 32 d ls g w.v r l hl hls]
    by_cases hm : l ∈ ls
    · rw [hlen l hm]
      exact if_congr (by tauto) rfl rfl
    · rw [if_neg fun h => hm h.1, if_neg fun h => hm h.2.2]
  · rw [if_neg (by omega), State.reg, State.reg, if_neg hr, if_neg hr]
    rfl

/-- A uniform result written by some lanes, each with the same words. -/
theorem wr_uniform {ls : List Nat} {ws : List Word} {d n : Nat} (hw : s.warp? w.id = some w) (hd : 640 ≤ d ∧ d + n ≤ 704) (hn : 0 < n)
    (hlen : ls ≠ [] → ws.length = n) :
    ∃ x, Became s w (s.wr w d (ls.map fun l => (l, ws))) x ∧ x = { w with s := x.s } ∧
      ∀ r l, s.reg x r l = if d ≤ r ∧ r < d + n ∧ ls ≠ [] then ws.getD (r - d) 0 else s.reg w r l := by
  refine ⟨_, by rw [State.wr, if_neg (by omega), if_pos (by omega)]; exact (Became.refl hw).onWarp _ fun _ => rfl, rfl, fun r l => ?_⟩
  by_cases hr : 640 ≤ r ∧ r < 704
  · rw [reg_of_s _ _ _ _ hr.1 hr.2, reg_of_s _ _ _ _ hr.1 hr.2]
    by_cases hne : ls = []
    · simp [hne]
    · rw [sget_putWords_same _ _ _ _ _ hne, hlen hne, show r - 640 - (d - 640) = r - d by omega]
      exact if_congr ⟨fun h => ⟨by omega, by omega, hne⟩, fun h => by omega⟩ rfl rfl
  · rw [if_neg (by omega), State.reg, State.reg]
    by_cases hv : r < 640
    · rw [if_pos hv, if_pos hv]
    · have hs : ¬r < 704 := fun h => hr ⟨by omega, h⟩
      rw [if_neg hv, if_neg hv, if_neg hs, if_neg hs]
      rfl

/-- Results written in some lanes outside a handler, where a uniform destination gets the same words of each. -/
theorem wr_became {ls : List Nat} {g : Nat → List Word} {d n : Nat} (hw : s.warp? w.id = some w) (hn : 0 < n) (hd : dstOk false d n)
    (hls : ∀ l ∈ ls, l < 32) (hlen : ∀ l ∈ ls, (g l).length = n) (hu : isS d = true → ∀ l, g l = g 0) :
    ∃ x, Became s w (s.wr w d (ls.map fun l => (l, g l))) x ∧ x = { w with v := x.v, s := x.s } ∧
      ∀ r l, l < 32 → s.reg x r l =
        if d ≤ r ∧ r < d + n ∧ (if isS d then ls ≠ [] else l ∈ ls) then (g l).getD (r - d) 0 else s.reg w r l := by
  obtain hvec | huni | ⟨hh, -⟩ := hd
  · have hS : isS d = false := Bool.eq_false_iff.2 fun h => by have := (isS_iff d).1 h; omega
    obtain ⟨x, hb, hx, hreg⟩ := wr_vector hw hn hvec hls hlen
    refine ⟨x, hb, by rw [hx], ?_⟩
    simpa only [hS, Bool.false_eq_true, if_false] using hreg
  · have hS : isS d = true := (isS_iff d).2 (by omega)
    have same : g = fun _ => g 0 := funext (hu hS)
    have hlen' : ls ≠ [] → (g 0).length = n := fun hne => by
      obtain ⟨a, ha⟩ := List.exists_mem_of_ne_nil ls hne
      rw [← hu hS a, hlen a ha]
    obtain ⟨x, hb, hx, hreg⟩ := wr_uniform hw huni hn hlen'
    refine ⟨x, by rw [same]; exact hb, by rw [hx], fun r l _ => ?_⟩
    simpa only [hS, if_true, hu hS l] using hreg r l
  · exact absurd hh Bool.false_ne_true

/-- A predicate written in some lanes. -/
theorem wrP_became {ls : List Nat} {g : Nat → Bool} (hw : s.warp? w.id = some w) (d : Nat) :
    ∃ x, Became s w (s.wrP w d (ls.map fun l => (l, g l))) x ∧ x = { w with p := x.p } ∧
      ∀ q l, l < 32 → x.pred q l = if q = d ∧ l ∈ ls then g l else w.pred q l := by
  refine ⟨_, (Became.refl hw).onWarp _ fun _ => rfl, rfl, fun q l hl => ?_⟩
  rw [Warp.pred, sget_supd]
  by_cases hq : q = d
  · subst hq
    rw [if_pos rfl, getLsbD_setBits _ _ _ _ hl]
    exact if_congr (by simp) rfl rfl
  · rw [if_neg hq, if_neg fun h => hq h.1]
    rfl

/-- Some acting lane is spared. -/
theorem sparedLanes_ne_nil : sparedLanes w act e ≠ [] ↔ ∃ k, k < 32 ∧ act.getLsbD k = true ∧ enabled w act e k = false := by
  rw [Ne, List.eq_nil_iff_forall_not_mem, not_forall_not]
  simp only [mem_sparedLanes]
  exact exists_congr fun k => ⟨fun h => ⟨mask_lt act k h.1, h⟩, And.right⟩

end Written

/-! ## Instructions that give each lane words and exceptions -/

/-- `i` acts on the lanes of `act` by giving each the words and the exceptions of `f`, for `n` registers from `d` on. -/
structure GivesLanes (i : Instr) (s : State) (w : Warp) (act : Mask) (d : Fld) (n : Nat) (f : Nat → List Word × Exc) : Prop where
  runs : exec i s = .next (s.note w act i (laneResults w act d.toNat f s))
  quiet : voids i = false
  length : ∀ l, act.getLsbD l = true → (f l).1.length = n
  pos : 0 < n
  dest : dstOk s.iss.hnd d.toNat n

section GivesLanes

variable {i : Instr} {s : State} {w : Warp} {act : Mask} {d : Fld} {n : Nat} {f g : Nat → List Word × Exc}

theorem void_of_quiet (h : voids i = false) (s : State) (w : Warp) : s.void w i = s := by simp [State.void, h]

/-- Only the acting lanes' results matter. -/
theorem laneResults_congr (hne : act ≠ 0#32) (h : ∀ l, act.getLsbD l = true → f l = g l) (d : Nat) (s : State) :
    laneResults w act d f s = laneResults w act d g s := by
  have lanes : (lanesOf act).map (fun l => (l, f l)) = (lanesOf act).map fun l => (l, g l) :=
    List.map_congr_left fun l hl => by rw [h l ((mem_lanesOf ..).1 hl)]
  unfold laneResults
  rw [lanes, h _ (lanesOf_lowest hne)]

/-- The lane whose sources give an acting lane its result acts. -/
theorem acting_srcLane (hne : act ≠ 0#32) (d : Nat) {l : Nat} (hl : act.getLsbD l = true) : act.getLsbD (srcLane act d l) = true := by
  unfold srcLane
  split
  · exact lanesOf_lowest hne
  · exact hl

/-- Results of the acting lanes, and `n` zeros in the others. -/
def padded (act : Mask) (n : Nat) (f : Nat → List Word × Exc) (l : Nat) : List Word × Exc := if act.getLsbD l then f l else (List.replicate n 0, 0)

theorem padded_acting {l : Nat} (hl : act.getLsbD l = true) : padded act n f l = f l := if_pos hl

theorem GivesLanes.length_padded (h : GivesLanes i s w act d n f) (l : Nat) : (padded act n f l).1.length = n := by
  unfold padded
  split
  · next hl => exact h.length l hl
  · exact List.length_replicate

/-- Where no exception is enabled to trap, every acting lane takes its result. -/
theorem GivesLanes.laneResult (h : GivesLanes i s w act d n f) (ha : Acts i s w act) : LaneResult i s w act d n f := by
  intro hquiet
  obtain ⟨-, -, hne, -, -, -, -, -⟩ := id ha
  have source {l : Nat} (hl : act.getLsbD l = true) : padded act n f (srcLane act d.toNat l) = f (srcLane act d.toNat l) :=
    padded_acting (acting_srcLane hne _ hl)
  obtain ⟨t, w', ht, hmoved, hp, hdest, hrest⟩ := vop_acts ha h.quiet d n h.pos h.dest (fun _ _ => padded act n f) h.length_padded fun l hl => by
    rw [source hl]
    exact decide_eq_false (not_not_intro (hquiet l hl))
  have run : vop i d (fun _ _ => padded act n f) s = exec i s := by
    rw [h.runs, vop, perform_acts ha, void_of_quiet h.quiet, laneResults_congr hne fun l hl => padded_acting hl]
  have flags : (fun l => if act.getLsbD l then (padded act n f (srcLane act d.toNat l)).2 else 0) =
      fun l => if act.getLsbD l then (f (srcLane act d.toNat l)).2 else 0 := by
    funext l
    split
    · next hl => rw [source hl]
    · rfl
  refine ⟨t, w', run ▸ ht, flags ▸ hmoved, hp, fun l hl hal k hk => ?_, hrest⟩
  exact (hdest l hl hal k hk).trans (congrArg (fun y : List Word × Exc => y.1.getD k 0) (source hal))

/-- Outside a handler the lanes whose exceptions are enabled trap, and the others take their results. -/
theorem GivesLanes.someTrapped (h : GivesLanes i s w act d n f) (ha : Acts i s w act) (hh : s.iss.hnd = false) :
    let g (l : Nat) : List Word × Exc := f (srcLane act d.toNat l)
    let bad := enabled w act fun l => (g l).2
    (∃ l, l < 32 ∧ bad l = true) →
    ∃ t w', exec i s = .next t ∧ SomeTrapped s w act (fun l => (g l).2) t w' ∧ w'.p = w.p ∧
      ∀ r l, l < 32 → t.reg w' r l =
        if d.toNat ≤ r ∧ r < d.toNat + n ∧
          (if isS d.toNat then ∃ k, k < 32 ∧ act.getLsbD k = true ∧ bad k = false else act.getLsbD l = true ∧ bad l = false)
        then (g l).1.getD (r - d.toNat) 0 else s.reg w r l := by
  intro g bad hbad
  obtain ⟨hw, -, hne, -, -, -, -, -⟩ := id ha
  obtain ⟨x, written, hx, hreg⟩ := wr_became (ls := sparedLanes w act fun l => (g l).2) (g := fun l => (g l).1) (by rw [warp?_id hw]; exact hw) h.pos (hh ▸ h.dest)
    (fun l hl => mask_lt act l (mem_sparedLanes.1 hl).1) (fun l hl => h.length _ (acting_srcLane hne _ (mem_sparedLanes.1 hl).1))
    fun hS l => by simp only [g, srcLane, hS, if_true]
  obtain ⟨w', trapped, hw'⟩ := written.someTrapped ha hh (by rw [hx]) hbad
  refine ⟨_, w', by rw [h.runs, laneResults_split], trapped, by rw [hw', hx], fun r l hl => ?_⟩
  rw [reg_of_someTrapped trapped hw', hreg r l hl]
  simp only [sparedLanes_ne_nil, mem_sparedLanes]
  rfl

/-! How it is shown of an instruction: by what it does, and by its first operand. -/

theorem GivesLanes.of_perform {body : Warp → Mask → State → State} {rd : Bool} {k : Kind} {os : List Opnd} (ha : Acts i s w act)
    (hx : exec i s = perform i body s) (hb : body w act s = laneResults w act d.toNat f s) (hlen : ∀ l, act.getLsbD l = true → (f l).1.length = n)
    (hn : 0 < n) (hv : voids i = false) (ho : opnds i = ⟨d, n, rd, true, k⟩ :: os) (hk : k ≠ .pred ∧ k ≠ .conv := by decide) :
    GivesLanes i s w act d n f where
  runs := by rw [hx, perform_acts ha, void_of_quiet hv, hb]
  quiet := hv
  length := hlen
  pos := hn
  dest := by
    obtain ⟨-, -, -, -, -, hregs, -, -⟩ := ha
    exact dst_ok (List.all_eq_true.mp (Bool.and_eq_true_iff.mp hregs).1 _ (ho ▸ List.mem_cons_self ..)) rfl hk.1 hk.2

theorem GivesLanes.of_vop {f₀ : State → Warp → Nat → List Word × Exc} {rd : Bool} {k : Kind} {os : List Opnd} (ha : Acts i s w act)
    (hx : exec i s = vop i d f₀ s) (hf : ∀ l, f₀ s w l = f l) (hlen : ∀ l, (f l).1.length = n)
    (hn : 0 < n) (hv : voids i = false) (ho : opnds i = ⟨d, n, rd, true, k⟩ :: os) (hk : k ≠ .pred ∧ k ≠ .conv := by decide) :
    GivesLanes i s w act d n f :=
  .of_perform ha hx (by rw [funext hf]) (fun l _ => hlen l) hn hv ho hk

/-- A member of two sources, from its entry in the table. -/
theorem GivesLanes.of_f2 {r : R3} {g : Word → Word → Word × Exc} {v : State → Warp → Nat → List Word × Exc} {os : List Opnd}
    (h : Claims.f2 r g = some (d, n, v)) (ha : Acts i s w act) (hx : exec i s = flt3 i r g s) (hv : voids i = false)
    (ho : opnds i = .dst r.d :: os) : GivesLanes i s w act d n (v s w) := by
  obtain ⟨-, -, -, hearly, -, -, -, -⟩ := id ha
  cases h
  exact .of_vop ha hx (fun l => by rw [va_noEarly hearly, vb_noEarly hearly]) (fun _ => rfl) (by decide) hv ho

/-- A member of one source, from its entry in the table. -/
theorem GivesLanes.of_f1 {r : R2} {g : Word → Word × Exc} {v : State → Warp → Nat → List Word × Exc} {os : List Opnd}
    (h : Claims.f1 r g = some (d, n, v)) (ha : Acts i s w act) (hx : exec i s = flt2 i r g s) (hv : voids i = false)
    (ho : opnds i = .dst r.d :: os) : GivesLanes i s w act d n (v s w) := by
  obtain ⟨-, -, -, hearly, -, -, -, -⟩ := id ha
  cases h
  exact .of_vop ha hx (fun l => by rw [ua_noEarly hearly]) (fun _ => rfl) (by decide) hv ho

end GivesLanes

/-! ## The tables (R146 to R155, R157, R159 to R162, R165) -/

section Tables

variable {i : Instr} {s : State} {w : Warp} {act : Mask} {d : Fld} {n : Nat} {f : State → Warp → Nat → List Word × Exc}

/-- Every instruction of float arithmetic. -/
theorem fltWord_gives (h : fltWord i = some (d, n, f)) (ha : Acts i s w act) : GivesLanes i s w act d n (f s w) := by
  obtain ⟨-, -, -, hearly, -, -, -, -⟩ := id ha
  cases i with
  | fadd | fsub | fmul | fdiv => rw [fltWord] at h; exact .of_f2 h ha rfl rfl rfl
  | frcp | frsq | fsqrt | fexp2 | flog2 => rw [fltWord] at h; exact .of_f1 h ha rfl rfl rfl
  | ffma | hfma2 =>
    cases h
    exact .of_vop ha rfl (fun l => by rw [va_noEarly hearly, vb_noEarly hearly, vd_noEarly hearly]) (fun _ => rfl) (by decide) rfl rfl
  | hadd2 | hmul2 =>
    cases h
    exact .of_vop ha rfl (fun l => by rw [va_noEarly hearly, vb_noEarly hearly]) (fun _ => rfl) (by decide) rfl rfl
  | _ => cases h

/-- Every float instruction that chooses, classifies or converts. -/
theorem fltMove_gives (h : fltMove i = some (d, n, f)) (ha : Acts i s w act) : GivesLanes i s w act d n (f s w) := by
  cases i with
  | fmin | fmax => rw [fltMove] at h; exact .of_f2 h ha rfl rfl rfl
  | frnd | fcvt | ftoi | itof | fclass => rw [fltMove] at h; exact .of_f1 h ha rfl rfl rfl
  | _ => cases h

/-- Every narrow instruction that acts lane by lane. -/
theorem narrow_gives (h : narrow i = some (d, n, f)) (ha : Acts i s w act) : GivesLanes i s w act d n (f s w) := by
  obtain ⟨-, -, -, hearly, -, -, -, -⟩ := id ha
  cases i with
  | qdec c fmt hi r =>
    cases h
    exact .of_vop ha rfl (fun l => by rw [va_noEarly hearly, vb_noEarly hearly]) (fun l => by simp) (by cases fmt <;> decide) rfl rfl
  | qenc c fmt hi sat rz r =>
    cases h
    exact .of_vop ha rfl (fun l => by simp only [rd_noEarly hearly, vb_noEarly hearly]) (fun _ => rfl) (by decide) rfl rfl
  | qxtra c op hi r =>
    cases h
    cases op <;> exact .of_vop ha rfl (fun l => by simp only [va_noEarly hearly, vb_noEarly hearly]) (fun _ => rfl) (by decide) rfl rfl
  | _ => cases h

theorem words2_rd2 (hearly : s.iss.early = []) (a l : Nat) : words2 (s.rd2 w a l) = [s.reg w a l, s.reg w (a + 1) l] := by
  rw [rd2_noEarly hearly, pair, words2, BitVec.extractLsb'_append_eq_of_add_le (by decide), BitVec.extractLsb'_append_eq_of_le (by decide)]
  simp

/-- A scan gives a result to each lane that contributes. -/
theorem scanFrom_lanes (f : Word → Word → Word × Exc) (run : Option (Word × Exc)) (xs : List (Nat × Word)) :
    (scanFrom f run xs).map (·.1) = xs.map (·.1) := by
  induction xs generalizing run with
  | nil => rfl
  | cons x r ih => cases run <;> simp [scanFrom, ih]

/-- Every cross-lane instruction whose result differs by lane. -/
theorem perLane_gives (h : perLane act i = some (d, n, f)) (ha : Acts i s w act) : GivesLanes i s w act d n (f s w) := by
  obtain ⟨-, -, -, hearly, -, -, -, -⟩ := id ha
  cases i with
  | shfl c k wide r =>
    cases h
    cases wide with
    | false => exact .of_vop ha rfl (fun l => by simp only [vb_noEarly hearly, rd_noEarly hearly]; rfl) (fun _ => rfl) (by decide) rfl rfl
    | true => exact .of_vop ha rfl (fun l => by simp only [vb_noEarly hearly, words2_rd2 hearly]; rfl) (fun _ => rfl) (by decide) rfl rfl
  | vscan c op m r =>
    cases h
    refine .of_perform ha rfl (by simp only [ua_noEarly hearly]) (fun l hl => ?_) (by decide) rfl rfl
    obtain ⟨y, hy⟩ : ∃ y, (scanFrom (combine op m) none ((lanesOf act).map fun j => (j, ua r s w j))).find? (fun y => decide (y.1 = l)) = some y := by
      have hmem : l ∈ (scanFrom (combine op m) none ((lanesOf act).map fun j => (j, ua r s w j))).map (·.1) := by
        rw [scanFrom_lanes, List.map_map]
        exact List.mem_map.2 ⟨l, (mem_lanesOf ..).2 hl, rfl⟩
      obtain ⟨y, hy, hyl⟩ := List.mem_map.1 hmem
      exact Option.isSome_iff_exists.1 (List.find?_isSome.2 ⟨y, hy, decide_eq_true hyl⟩)
    simp only [hy]
    rfl
  | _ => cases h

/-- Every instruction whose result all acting lanes share. -/
theorem shared_gives {x : List Word × Exc} (h : shared s w act i = some (d, n, x)) (ha : Acts i s w act) : GivesLanes i s w act d n fun _ => x := by
  obtain ⟨-, -, -, hearly, -, -, -, -⟩ := id ha
  cases i with
  | vote c k neg d q =>
    cases k with
    | bal =>
      cases h
      exact .of_perform ha rfl (by simp only [rdP_noEarly hearly]) (fun _ _ => rfl) (by decide) rfl rfl
    | _ => cases h
  | vred =>
    cases h
    exact .of_perform ha rfl (by simp only [ua_noEarly hearly]) (fun _ _ => rfl) (by decide) rfl rfl
  | umov c first wide r =>
    cases h
    cases first <;> cases wide <;>
      exact .of_perform ha rfl (by simp only [rd_noEarly hearly, words2_rd2 hearly]) (fun _ _ => rfl) (by decide) rfl rfl
  | _ => cases h

/-- Every instruction that raises exceptions and writes registers. -/
theorem raising_gives {f : Nat → List Word × Exc} (h : raising s w act i = some (d, n, f)) (ha : Acts i s w act) : GivesLanes i s w act d n f := by
  unfold raising at h
  split at h
  · next h' => cases h; exact fltWord_gives h' ha
  · next h' => cases h; exact fltMove_gives h' ha
  · next h' => cases h; exact narrow_gives h' ha
  · next h' => cases h; exact perLane_gives h' ha
  · next h' => cases h; exact shared_gives h' ha
  · cases h

end Tables

/-! ## Instructions that give each lane a predicate and exceptions (R143, R148, R160, R163) -/

/-- `i` acts on the lanes of `act` by giving each a value of predicate `d` and the exceptions of `f`. -/
structure GivesPreds (i : Instr) (s : State) (w : Warp) (act : Mask) (d : Fld) (f : Nat → Bool × Exc) : Prop where
  runs : exec i s = .next (s.note w act i (lanePreds w act d.toNat f s))
  quiet : voids i = false

section GivesPreds

variable {i : Instr} {s : State} {w : Warp} {act : Mask} {d : Fld} {f : Nat → Bool × Exc}

/-- Where no exception is enabled to trap, every acting lane takes its value. -/
theorem GivesPreds.wrotePred (h : GivesPreds i s w act d f) (ha : Acts i s w act)
    (hquiet : ∀ l, act.getLsbD l = true → (f l).2 &&& (laneAt w.lanes l).fpte = 0) :
    ∃ t w', exec i s = .next t ∧ WrotePred s w act d.toNat (fun l => (f l).1) (fun l => if act.getLsbD l then (f l).2 else 0) t w' := by
  obtain ⟨t, w', ht, hw⟩ := pop_acts ha h.quiet d (fun _ _ => f) fun l hl => decide_eq_false (not_not_intro (hquiet l hl))
  have run : pop i d (fun _ _ => f) s = exec i s := by rw [h.runs, pop, perform_acts ha, void_of_quiet h.quiet]
  exact ⟨t, w', run ▸ ht, hw⟩

/-- Outside a handler the lanes whose exceptions are enabled trap, and the others take their values. -/
theorem GivesPreds.someTrapped (h : GivesPreds i s w act d f) (ha : Acts i s w act) (hh : s.iss.hnd = false) :
    let bad := enabled w act fun l => (f l).2
    (∃ l, l < 32 ∧ bad l = true) →
    ∃ t w', exec i s = .next t ∧ SomeTrapped s w act (fun l => (f l).2) t w' ∧
      (∀ q l, l < 32 → w'.pred q l = if q = d.toNat ∧ act.getLsbD l = true ∧ bad l = false then (f l).1 else w.pred q l) ∧
      ∀ q l, l < 32 → t.reg w' q l = s.reg w q l := by
  intro bad hbad
  obtain ⟨hw, -, -, -, -, -, -, -⟩ := id ha
  obtain ⟨x, written, hx, hpred⟩ := wrP_became (ls := sparedLanes w act fun l => (f l).2) (g := fun l => (f l).1) (by rw [warp?_id hw]; exact hw) d.toNat
  obtain ⟨w', trapped, hw'⟩ := written.someTrapped ha hh (by rw [hx]) hbad
  refine ⟨_, w', by rw [h.runs, lanePreds_split], trapped, fun q l hl => ?_, fun q l hl => ?_⟩
  · rw [pred_of_ended hw', hpred q l hl]
    simp only [mem_sparedLanes]
    rfl
  · rw [reg_of_someTrapped trapped hw', hx]
    rfl

theorem GivesPreds.of_perform {body : Warp → Mask → State → State} (ha : Acts i s w act) (hx : exec i s = perform i body s)
    (hb : body w act s = lanePreds w act d.toNat f s) (hv : voids i = false) : GivesPreds i s w act d f where
  runs := by rw [hx, perform_acts ha, void_of_quiet hv, hb]
  quiet := hv

theorem GivesPreds.of_pop {f₀ : State → Warp → Nat → Bool × Exc} (ha : Acts i s w act) (hx : exec i s = pop i d f₀ s) (hf : ∀ l, f₀ s w l = f l)
    (hv : voids i = false) : GivesPreds i s w act d f :=
  .of_perform ha hx (by rw [funext hf]) hv

/-- Every instruction that writes one predicate. -/
theorem predOf_gives {f : State → Warp → Nat → Bool × Exc} (h : predOf act i = some (d, f)) (ha : Acts i s w act) : GivesPreds i s w act d (f s w) := by
  obtain ⟨-, -, -, hearly, -, -, -, -⟩ := id ha
  cases i with
  | iset c cc g r =>
    cases h
    exact .of_pop ha rfl (fun l => by rw [va_noEarly hearly, vb_noEarly hearly]; cases cc <;> rfl) rfl
  | fset =>
    cases h
    exact .of_pop ha rfl (fun l => by rw [va_noEarly hearly, vb_noEarly hearly]) rfl
  | plop =>
    cases h
    exact .of_pop ha rfl (fun l => by rw [rdP_noEarly hearly, rdP_noEarly hearly]) rfl
  | vote c k neg d q =>
    cases k with
    | any =>
      cases h
      exact .of_perform ha rfl (by simp only [rdP_noEarly hearly]) rfl
    | all =>
      cases h
      refine .of_perform ha rfl ?_ rfl
      have all : ((lanesOf act).all fun l => act.getLsbD l && (w.pred q.toNat l != neg)) =
          lanes32.all fun l => !act.getLsbD l || (w.pred q.toNat l != neg) := by
        rw [lanesOf, List.all_filter]
        exact congrArg (lanes32.all ·) (funext fun l => by cases act.getLsbD l <;> simp)
      simp only [rdP_noEarly hearly, all]
    | bal => cases h
  | _ => cases h

end GivesPreds

/-! ## The statements -/

/-- Settles O2: every entry of the table of predicates is what its instruction gives each lane. -/
theorem predicateResult : Obligations.PredicateResult := fun _ _ _ _ _ _ h ha hquiet => (predOf_gives h ha).wrotePred ha hquiet

/-- Settles O3: every entry of the two tables is what its instruction gives each lane. -/
theorem floatResult : Obligations.FloatResult :=
  ⟨fun _ _ _ _ _ _ _ h ha => (fltWord_gives h ha).laneResult ha, fun _ _ _ _ _ _ _ h ha => (fltMove_gives h ha).laneResult ha⟩

/-- Settles O5: the same of the table of narrow instructions. -/
theorem narrowResult : Obligations.NarrowResult := fun _ _ _ _ _ _ _ h ha => (narrow_gives h ha).laneResult ha

/-- Settles O13: the results of the lanes that are spared are written first, their flags grow, the others trap, and what is spared moves on. -/
theorem enabledExceptionsTrap : Obligations.EnabledExceptionsTrap :=
  ⟨fun _ _ _ _ _ _ _ h ha hh => (raising_gives h ha).someTrapped ha hh, fun _ _ _ _ _ _ _ _ h ha hh => (predOf_gives h ha).someTrapped ha hh⟩

end Sys2Proof.Machine

/-! SUPPORT. Registers and predicates of the issuing warp rewritten step by step while its lanes move: what an instruction leaves that writes a
register in some of its lanes or several predicates (R42, R80, R101, R289). -/

namespace Sys2Proof.Machine

open Claims

section Rewriting

variable {i : Instr} {s t : State} {w : Warp} {act : Mask} {mv : Nat → Lane → Lane} {p : Sparse Mask} {val : Nat → Nat → Word}

/-- `t` is `s` with the lanes of the issue moved as `mv` says, and with `p` for the predicates of `w` and `val` for its registers. -/
def Rewritten (s : State) (w : Warp) (mv : Nat → Lane → Lane) (p : Sparse Mask) (val : Nat → Nat → Word) (t : State) : Prop :=
  ∃ G B L, MovesBy mv L ∧ Shape s w G B t ∧ (G w).lanes = (warpVia s.iss.hnd L w).lanes ∧ (∀ b, (B b).lanes = (bankVia s.iss.hnd L b).lanes) ∧
    (G w).p = p ∧ ∀ n l, l < 32 → t.reg (G w) n l = val n l

theorem Rewritten.refl (s : State) (w : Warp) : Rewritten s w (fun _ l => l) w.p (s.reg w) s :=
  ⟨id, id, id, fun _ hls => ⟨hls, fun _ _ => rfl⟩, .refl s w, by simp [warpVia], fun b => by simp [bankVia], rfl, fun _ _ _ => rfl⟩

theorem Rewritten.iss (h : Rewritten s w mv p val t) : t.iss = s.iss := by
  obtain ⟨_, _, _, -, hs, -⟩ := h
  exact hs.iss

/-- Registers may be described otherwise. -/
theorem Rewritten.congr {val' : Nat → Nat → Word} (h : Rewritten s w mv p val t) (he : ∀ n l, l < 32 → val n l = val' n l) :
    Rewritten s w mv p val' t := by
  obtain ⟨G, B, L, hL, hs, hG, hB, hp, hreg⟩ := h
  exact ⟨G, B, L, hL, hs, hG, hB, hp, fun n l hl => (hreg n l hl).trans (he n l hl)⟩

/-- What it leaves of the warp and of the machine. -/
theorem Rewritten.moved (h : Rewritten s w mv p val t) (hw : s.issWarp = some w) (hl : lanesWhole s w) (hk : ∀ n l, (mv n l).fpfl = l.fpfl) :
    ∃ w', Moved s w mv (fun _ => 0) t w' ∧ w'.p = p ∧ ∀ n l, l < 32 → t.reg w' n l = val n l := by
  obtain ⟨G, B, L, hL, hs, hG, hB, hp, hreg⟩ := h
  refine ⟨G w, hs.moved hw hl mv _ (fun n hn => ?_) (fun hh b hb n hn => ?_), hp, hreg⟩
  · rw [hG]
    cases hh : s.iss.hnd with
    | true => exact (fpfl_grown_none _).symm
    | false =>
      have grown : (mv n (laneAt w.lanes n)).fpfl = (laneAt w.lanes n).fpfl ||| 0 := (hk ..).trans BitVec.or_zero.symm
      exact ((hL w.lanes hl.1).2 n hn).trans (congrArg (fun e => { mv n (laneAt w.lanes n) with fpfl := e }) grown)
  · rw [hB, hh]
    exact (hL b.lanes hb).2 n hn

/-! ## Steps that leave registers alone -/

theorem bank_onBank (t : State) (q : Nat) (f : Bank → Bank) : ((t.onBank q f).quad q).bank = (t.quad q).bank.map f :=
  congrArg Quad.bank (quad_onQuad_same ..)

/-- Reading a register takes of a bank its registers alone. -/
theorem reg_onBank (t : State) (q : Nat) {f : Bank → Bank} (hf : ∀ b, (f b).h = b.h) (y : Warp) (n l : Nat) : (t.onBank q f).reg y n l = t.reg y n l := by
  have regs : (t.onBank q f).bankRegs y.q = t.bankRegs y.q := by
    unfold State.bankRegs
    by_cases hq : y.q = q
    · subst hq
      rw [bank_onBank]
      cases (t.quad y.q).bank with
      | none => rfl
      | some b => exact hf b
    · rw [State.onBank, quad_onQuad, if_neg hq]
  rw [State.reg, State.reg, regs]
  rfl

/-- The lanes of a mask moved on. -/
theorem Rewritten.advance (h : Rewritten s w mv p val t) (m : Mask) :
    Rewritten s w (fun n l => inMask m (fun _ => Lane.goto (nextPos s.iss.hdr s.iss.idx s.iss.count)) n (mv n l)) p val (t.advance w m) := by
  rw [State.advance, h.iss]
  obtain ⟨G, B, L, hL, hs, hG, hB, hp, hreg⟩ := h
  have moves := hL.mapLanes m (Lane.goto (nextPos s.iss.hdr s.iss.idx s.iss.count))
  cases hh : s.iss.hnd with
  | true =>
    rw [hh] at hG hB
    refine ⟨G, _, _, moves, hs.onBank hh (fun b => { b with lanes := mapLanes m _ b.lanes }) fun _ => rfl, ?_, fun b => ?_, hp, fun n l hl => ?_⟩
    · rw [hG, hh]
      rfl
    · rw [hh]
      exact congrArg (mapLanes m _) (hB b)
    · exact (reg_onBank t w.q (f := fun b => { b with lanes := mapLanes m _ b.lanes }) (fun _ => rfl) (G w) n l).trans (hreg n l hl)
  | false =>
    rw [hh] at hG hB
    refine ⟨_, B, _, moves, hs.onWarp (fun x => { x with lanes := mapLanes m _ x.lanes }) fun _ => rfl, ?_, fun b => by rw [hB, hh]; rfl, hp, hreg⟩
    rw [hh]
    exact congrArg (mapLanes m _) hG

/-- The results not yet due noted. -/
theorem Rewritten.fixedNoted (h : Rewritten s w mv p val t) (g : List Fixed → List Fixed) : Rewritten s w mv p val (Claims.noted t w g) := by
  obtain ⟨G, B, L, hL, hs, hG, hB, hp, hreg⟩ := h
  exact ⟨_, B, L, hL, hs.onWarp (fun x => { x with fixed := g x.fixed }) fun _ => rfl, hG, hB, hp, hreg⟩

/-- A predicate written in the lanes of a list. -/
theorem Rewritten.wrP (h : Rewritten s w mv p val t) (n : Nat) (vs : List (Nat × Bool)) :
    Rewritten s w mv (supd 0 n (fun m => vs.foldl (fun m v => setBit m v.1 v.2) m) p) val (t.wrP w n vs) := by
  obtain ⟨G, B, L, hL, hs, hG, hB, rfl, hreg⟩ := h
  exact ⟨_, B, L, hL, hs.onWarp (fun x => { x with p := supd 0 n (fun m => vs.foldl (fun m v => setBit m v.1 v.2) m) x.p }) fun _ => rfl, hG, hB, rfl, hreg⟩

/-! ## Writes of one register in some lanes -/

/-- The registers `y` where each lane `l` of `ls` has taken `x l` in register `no l`. -/
def scattered (ls : List Nat) (no : Nat → Nat) (x : Nat → Word) (y : Nat → Nat → Word) (n l : Nat) : Word := if n = no l ∧ l ∈ ls then x l else y n l

/-- Words put in one of the registers that `m` holds by lane. -/
def putInLanes (d : Nat) (ls : List Nat) (x : Nat → Word) (m : Sparse Word) : Sparse Word :=
  (ls.map fun l => (l, [x l])).foldl (fun m v => putWords 32 d v.1 0 v.2 m) m

theorem sget_putInLanes {ls : List Nat} (hls : ∀ l ∈ ls, l < 32) (d : Nat) (x : Nat → Word) (m : Sparse Word) (n : Nat) {l : Nat} (hl : l < 32) :
    sget 0 (32 * n + l) (putInLanes d ls x m) = if n = d ∧ l ∈ ls then x l else sget 0 (32 * n + l) m := by
  rw [putInLanes, sget_putWords_fold 32 d ls (fun l => [x l]) m n l hl hls]
  by_cases hn : n = d
  · subst hn
    simp
  · rw [if_neg fun h => hn (by have := h.2; simp only [List.length_singleton] at this; omega), if_neg fun h => hn h.1]

theorem reg_putInLanes_v (t : State) (y : Warp) {ls : List Nat} (hls : ∀ l ∈ ls, l < 32) {d : Nat} (hd : d < 640) (x : Nat → Word) (n : Nat) {l : Nat}
    (hl : l < 32) : t.reg { y with v := putInLanes d ls x y.v } n l = scattered ls (fun _ => d) x (t.reg y) n l := by
  by_cases hn : n < 640
  · rw [scattered, reg_of_v _ _ _ _ hn, reg_of_v _ _ _ _ hn, sget_putInLanes hls d x y.v n hl]
  · rw [scattered, if_neg fun h => by omega, State.reg, State.reg, if_neg hn, if_neg hn]
    rfl

/-- Only the handler registers are the bank's. -/
theorem reg_onBank_outside (t : State) (q : Nat) (f : Bank → Bank) (y : Warp) {n : Nat} (hn : ¬(704 ≤ n ∧ n < 768)) (l : Nat) :
    (t.onBank q f).reg y n l = t.reg y n l := by
  rw [State.reg, State.reg]
  split
  · rfl
  · split
    · rfl
    · rw [if_neg (by omega), if_neg (by omega)]
      rfl

theorem reg_putInLanes_h {t : State} {y : Warp} {b : Bank} (hb : (t.quad y.q).bank = some b) {ls : List Nat} (hls : ∀ l ∈ ls, l < 32) {d : Nat}
    (hd : 704 ≤ d ∧ d < 768) (x : Nat → Word) (n : Nat) {l : Nat} (hl : l < 32) :
    (t.onBank y.q fun b => { b with h := putInLanes (d - 704) ls x b.h }).reg y n l = scattered ls (fun _ => d) x (t.reg y) n l := by
  by_cases hn : 704 ≤ n ∧ n < 768
  · rw [scattered, reg_of_h _ _ _ _ hn.1 hn.2 ((bank_onBank ..).trans (congrArg _ hb)), reg_of_h _ _ _ _ hn.1 hn.2 hb]
    exact (sget_putInLanes hls (d - 704) x b.h (n - 704) hl).trans (if_congr (and_congr_left' (by omega)) rfl rfl)
  · rw [reg_onBank_outside _ _ _ _ hn, scattered, if_neg fun h : n = d ∧ l ∈ ls => hn (h.1 ▸ hd)]

/-- The bank whose lanes issue stands. -/
theorem Shape.has_bank {G : Warp → Warp} {B : Bank → Bank} (h : Shape s w G B t) (hl : lanesWhole s w) (hh : s.iss.hnd = true) :
    ∃ b, (t.quad w.q).bank = some b := by
  have hbank := hl.2 hh
  rw [h.quad, if_pos ⟨rfl, hh⟩]
  cases hq : (s.quad w.q).bank with
  | none => rw [hq] at hbank; cases hbank
  | some b => exact ⟨B b, rfl⟩

/-- Of field `d` each lane has a register of its own. -/
def LaneReg (hnd : Bool) (d : Nat) : Prop := d < 640 ∨ hnd = true ∧ 704 ≤ d ∧ d < 768

theorem laneReg_of_perLane {g : Nat} {hnd : Bool} {d : Fld} (h : PerLane g hnd 1 d) : LaneReg hnd d.toNat := by
  obtain ⟨⟨-, hv | hs | hh⟩, hvec⟩ := h
  · exact .inl (by omega)
  · omega
  · exact .inr ⟨hh.1, by omega⟩

/-- A register written in the lanes of a list. -/
theorem Rewritten.wr (h : Rewritten s w mv p val t) (hl : lanesWhole s w) {d : Nat} (hd : LaneReg s.iss.hnd d) {ls : List Nat} (hls : ∀ l ∈ ls, l < 32)
    (x : Nat → Word) : Rewritten s w mv p (scattered ls (fun _ => d) x val) (t.wr w d (ls.map fun l => (l, [x l]))) := by
  obtain ⟨G, B, L, hL, hs, hG, hB, hp, hreg⟩ := h
  have laid {n l : Nat} (hl : l < 32) : scattered ls (fun _ => d) x (t.reg (G w)) n l = scattered ls (fun _ => d) x val n l :=
    congrArg (ite _ _) (hreg n l hl)
  obtain hv | ⟨hh, hd⟩ := hd
  · rw [State.wr, if_pos hv]
    exact ⟨_, B, L, hL, hs.onWarp (fun y => { y with v := putInLanes d ls x y.v }) fun _ => rfl, hG, hB, hp,
      fun n l hl => (reg_putInLanes_v t (G w) hls hv x n hl).trans (laid hl)⟩
  · obtain ⟨b, hb⟩ := hs.has_bank hl hh
    rw [State.wr, if_neg (by omega), if_neg (by omega), if_pos hd.2]
    refine ⟨G, _, L, hL, hs.onBank hh (fun b => { b with h := putInLanes (d - 704) ls x b.h }) fun _ => rfl, hG, hB, hp, fun n l hl => ?_⟩
    rw [← hs.q w] at hb ⊢
    exact (reg_putInLanes_h hb hls hd x n hl).trans (laid hl)

/-- Vector registers written lane by lane, each lane choosing its own. -/
theorem Rewritten.wrEach (h : Rewritten s w mv p val t) (hl : lanesWhole s w) {no : Nat → Nat} (x : Nat → Word) {ls : List Nat}
    (hls : ∀ l ∈ ls, l < 32 ∧ no l < 640) :
    Rewritten s w mv p (scattered ls no x val) (ls.foldl (fun t l => t.wr w (no l) [(l, [x l])]) t) := by
  induction ls generalizing t val with
  | nil => exact h.congr fun n l _ => (if_neg fun h => List.not_mem_nil h.2).symm
  | cons a r ih =>
    obtain ⟨⟨ha, hno⟩, hr⟩ := List.forall_mem_cons.1 hls
    have first := h.wr hl (.inl hno) (ls := [a]) (fun l hl => List.mem_singleton.1 hl ▸ ha) x
    refine (ih first hr).congr fun n l _ => ?_
    simp only [scattered, List.mem_cons]
    by_cases hla : l = a
    · subst hla
      by_cases hn : n = no l <;> simp [hn]
    · simp [hla]

/-! ## Writes of predicates -/

/-- The predicates of a list written in the lanes of another. -/
theorem Rewritten.wrPEach (h : Rewritten s w mv p val t) (ls : List Nat) (x : Nat → Nat → Bool) (ns : List Nat) :
    ∃ p', Rewritten s w mv p' val (ns.foldl (fun t n => t.wrP w n (ls.map fun l => (l, x n l))) t) ∧
      ∀ n l, l < 32 → (sget 0 n p').getLsbD l = if n ∈ ns ∧ l ∈ ls then x n l else (sget 0 n p).getLsbD l := by
  induction ns generalizing t p with
  | nil => exact ⟨p, h, fun n l _ => (if_neg fun h => List.not_mem_nil h.1).symm⟩
  | cons a r ih =>
    obtain ⟨p', written, hp'⟩ := ih (h.wrP a (ls.map fun l => (l, x a l)))
    refine ⟨p', written, fun n l hl => ?_⟩
    rw [hp' n l hl, sget_supd]
    by_cases hna : n = a
    · subst hna
      rw [if_pos rfl, getLsbD_setBits _ _ _ _ hl]
      by_cases hm : l ∈ ls <;> simp [hm]
    · simp [hna]

/-! ## The end of an instruction -/

/-- An instruction that voids nothing does its effect on the acting lanes and notes what is not yet due. -/
theorem exec_acts {body : Warp → Mask → State → State} (ha : Acts i s w act) (hx : exec i s = perform i body s) (hv : voids i = false) :
    ∃ g, exec i s = .next (noted (body w act s) w g) := by
  obtain ⟨-, -, -, -, -, -, hdue, -⟩ := id ha
  obtain ⟨g, hg⟩ := note_acts s w act i (body w act s) (any_append_false hdue).2
  exact ⟨g, by rw [hx, perform_acts ha, void_of_quiet hv, hg]; rfl⟩

theorem opnd_ok (ha : Acts i s w act) {o : Opnd} (ho : o ∈ opnds i) : o.ok w.gran s.iss.hnd = true := by
  obtain ⟨-, -, -, -, -, hregs, -, -⟩ := ha
  exact List.all_eq_true.1 (Bool.and_eq_true_iff.1 hregs).1 o ho

/-- Once its results are written, an instruction moves its lanes past itself and notes what is not yet due. -/
theorem Rewritten.ends (h : Rewritten s w (fun _ l => l) p val t) (ha : Acts i s w act) (g : List Fixed → List Fixed) :
    ∃ w', Moved s w s.movedLane (fun _ => 0) (noted (t.advance w s.iss.lanes) w g) w' ∧ w'.p = p ∧
      ∀ n l, l < 32 → (noted (t.advance w s.iss.lanes) w g).reg w' n l = val n l := by
  obtain ⟨hw, -, -, -, -, -, -, hl⟩ := ha
  exact ((h.advance s.iss.lanes).fixedNoted g).moved hw hl fun n l => by unfold inMask; split <;> rfl

end Rewriting

end Sys2Proof.Machine

/-! PROOF. R144, R151, R156, R159 to R162, R164, R165: sign bits, headers, registers that a lane computes, cross-lane results and predicates moved together. -/

namespace Sys2Proof.Machine

open Claims

section Moves

variable {i : Instr} {s : State} {w : Warp} {act : Mask}

/-- The one word that an instruction writes, in every acting lane. -/
theorem WritesWords.wroteWord {d : Fld} {f : State → Warp → Nat → Word} (h : WritesWords i d 1 fun s w l => [f s w l]) (ha : Acts i s w act) :
    ∃ t w', exec i s = .next t ∧ WroteReg s w act d.toNat 1 (fun l _ => f s w l) (fun _ => 0) t w' := by
  obtain ⟨t, w', ht, hm, hp, hd, hr⟩ := h.acts (by decide) ha
  refine ⟨t, w', ht, hm, hp, fun l hl hal k hk => ?_, hr⟩
  obtain rfl : k = 0 := by omega
  exact hd l hl hal 0 hk

/-! ## FSIGN (R151) -/

theorem newSign_eq (op : SignOp) (a b : Bool) : newSign op a b = signOf op a b := by cases op <;> rfl

theorem getLsbD_fsign (op : SignOp) (h2 : Bool) (a b : Word) {k : Nat} (hk : k < 32) : (fsign op h2 a b).getLsbD k =
    if k = 31 ∨ h2 = true ∧ k = 15 then signOf op (a.getLsbD k) (b.getLsbD k) else a.getLsbD k := by
  unfold fsign
  cases h2 with
  | false =>
    simp only [Bool.false_eq_true, if_false, getLsbD_setBit _ _ _ _ hk, newSign_eq, false_and, or_false]
    split
    · next h => rw [h]
    · rfl
  | true =>
    simp only [if_true, getLsbD_setBit _ _ _ _ hk, newSign_eq, true_and]
    by_cases h15 : k = 15
    · simp [h15]
    · by_cases h31 : k = 31 <;> simp [h15, h31]

theorem fsign_writes (c : Common) (op : SignOp) (h2 : Bool) (r : R3) :
    WritesWords (.fsign c op h2 r) r.d 1 fun s w l => [fsign op h2 (va r s w l) (vb r s w l)] := by
  have reads (s : State) (w : Warp) (l : Nat) (h : s.iss.early = []) : fsign op h2 (r.va s w l) (r.vb s w l) = fsign op h2 (va r s w l) (vb r s w l) := by
    rw [va_noEarly h, vb_noEarly h]
  cases op <;> exact .of_vop1 (fun _ => rfl) reads rfl rfl

/-- Settles O4: FSIGN computes a word whose bits are those. -/
theorem fsignMovesSigns : Obligations.FsignMovesSigns := by
  refine ⟨fun c op h2 r hwf hop => ?_, fun c op h2 r s w act ha => ?_⟩
  · obtain rfl | rfl := hop <;> exact of_decide_eq_true (Bool.and_eq_true_iff.1 hwf).1
  · obtain ⟨t, w', ht, hw⟩ := (fsign_writes c op h2 r).wroteWord ha
    exact ⟨t, w', ht, _, hw, fun l k hk => getLsbD_fsign op h2 _ _ hk⟩

/-! ## QSCALE (R156) -/

/-- A scale register `old` of lane `l` with the header of the lane's block in the half that `hi` names. -/
def withHeader (f : NFmt) (hi xv : Bool) (r : R2) (s : State) (w : Warp) (l : Nat) (old : Word) : Word :=
  let per := 32 / nBlocks f
  let xs := ((List.range per).map (· + per * l)).flatMap fun m => (List.range f.n).map fun k => s.reg w (r.a.toNat + k) (r.p.lane .srcA m)
  let h := BitVec.ofNat 16 (qscale f xv xs)
  if hi then h ++ old.extractLsb' 0 16 else old.extractLsb' 16 16 ++ h

/-- The acting lanes that have a block. -/
def blockLanes (act : Mask) (f : NFmt) : List Nat := (lanesOf act).filter (· < nBlocks f)

theorem mem_blockLanes {f : NFmt} {l : Nat} : l ∈ blockLanes act f ↔ act.getLsbD l = true ∧ l < nBlocks f := by
  rw [blockLanes, List.mem_filter, mem_lanesOf, decide_eq_true_iff]

theorem exec_qscale {c : Common} {f : NFmt} {hi xv : Bool} {r : R2} (ha : Acts (.qscale c f hi xv r) s w act) :
    ∃ g, exec (.qscale c f hi xv r) s = .next (noted ((s.wr w r.d.toNat ((blockLanes act f).map fun l =>
      (l, [withHeader f hi xv r s w l (s.reg w r.d.toNat l)]))).advance w s.iss.lanes) w g) := by
  obtain ⟨-, -, -, hearly, -, -, -, -⟩ := id ha
  obtain ⟨g, run⟩ := exec_acts ha rfl rfl
  refine ⟨g, run.trans ?_⟩
  simp only [rd_noEarly hearly]
  rfl

/-- Settles O6: the headers are written in those of the acting lanes that have a block, and the issuing lanes go on. -/
theorem qscaleWritesHeaders : Obligations.QscaleWritesHeaders := by
  intro c f hi xv r s w act ha
  obtain ⟨-, -, -, -, -, -, -, hl⟩ := id ha
  obtain ⟨g, run⟩ := exec_qscale ha
  have hd : PerLane w.gran s.iss.hnd 1 r.d := (vec_ok_iff_perLane tuple_one r.d).1 (opnd_ok ha (o := .acc r.d 1 .vec) (List.mem_cons_self ..))
  have written := (Rewritten.refl s w).wr hl (laneReg_of_perLane hd) (ls := blockLanes act f) (fun l hm => mask_lt act l (mem_blockLanes.1 hm).1)
    fun l => withHeader f hi xv r s w l (s.reg w r.d.toNat l)
  obtain ⟨w', moved, hp, hreg⟩ := written.ends ha g
  refine ⟨_, w', run, moved, hp, fun n l hl => (hreg n l hl).trans ?_⟩
  simp only [scattered, mem_blockLanes]
  split
  · next h => rw [h.1]; rfl
  · rfl

/-! ## SHFL, VOTE.BAL, VRED, VSCAN and UMOV (R159 to R162, R165) -/

/-- Settles O7: every entry of the two tables is what its instruction gives each lane. -/
theorem crossLaneResult : Obligations.CrossLaneResult :=
  ⟨fun _ _ _ _ _ _ _ h ha => (perLane_gives h ha).laneResult ha, fun _ _ _ _ _ _ _ h ha => (shared_gives h ha).laneResult ha⟩

/-! ## PMOV (R164) -/

/-- A lane's sixteen predicates as a number. -/
theorem packedPreds_eq (x : Nat → Bool) :
    (maskOf fun n => decide (n < 16) && x n) = BitVec.ofNat 32 (∑ n ∈ Finset.range 16, if x n then 2 ^ n else 0) := by
  have packed : (maskOf fun n => decide (n < 16) && x n) = bitsFrom fun n => decide (n < 16) && x n :=
    word_ext fun k hk => by rw [getLsbD_maskOf _ _ hk, getLsbD_bitsFrom _ hk]
  rw [packed, bitsFrom]
  refine congrArg _ ((Finset.sum_subset (Finset.range_subset_range.2 (by decide)) fun n _ hn => ?_).symm.trans (Finset.sum_congr rfl fun n hn => ?_))
  · rw [decide_eq_false (by simpa using hn)]
    rfl
  · rw [decide_eq_true (Finset.mem_range.1 hn), Bool.true_and]

theorem pmovR_writes (c : Common) (r : R2) : WritesWords (.pmov c false r) r.d 1
    fun _ w l => [BitVec.ofNat 32 (∑ n ∈ Finset.range 16, if w.pred n l then 2 ^ n else 0)] :=
  .of_vop1 (fun _ => rfl) (fun s w l h => (packedPreds_eq _).trans (by simp only [rdP_noEarly h])) rfl rfl

theorem exec_pmovP {c : Common} {r : R2} (ha : Acts (.pmov c true r) s w act) :
    ∃ g, exec (.pmov c true r) s = .next (noted (((List.range 16).foldl (fun t n => t.wrP w n ((lanesOf act).map fun l =>
      (l, (ua r s w l).getLsbD n))) s).advance w s.iss.lanes) w g) := by
  obtain ⟨-, -, -, hearly, -, -, -, -⟩ := id ha
  obtain ⟨g, run⟩ := exec_acts ha rfl rfl
  refine ⟨g, run.trans ?_⟩
  simp only [if_true, ua_noEarly hearly]

/-- Settles O8: PMOV.R computes one word; PMOV.P writes the predicates one by one in the acting lanes, and the issuing lanes go on. -/
theorem pmovMovesPredicates : Obligations.PmovMovesPredicates := by
  refine ⟨fun c r s w act ha => (pmovR_writes c r).wroteWord ha, fun c r g hnd hS => ?uniform, fun c r s w act ha => ?toPreds, fun c r hwf => ?zero⟩
  case uniform =>
    refine Bool.eq_false_iff.2 fun legal => ?_
    have hd : PerLane g hnd 1 r.d := (vec_ok_iff_perLane tuple_one r.d).1 ((regsOk_iff_of_unruled rfl).1 legal _ (List.mem_cons_self ..))
    exact hd.2 ((isS_iff _).1 hS)
  case toPreds =>
    obtain ⟨g, run⟩ := exec_pmovP ha
    obtain ⟨p', written, hp'⟩ := (Rewritten.refl s w).wrPEach (lanesOf act) (fun n l => (ua r s w l).getLsbD n) (List.range 16)
    obtain ⟨w', moved, rfl, hreg⟩ := written.ends ha g
    refine ⟨_, w', run, moved, fun n l hl => ?_, hreg⟩
    rw [Warp.pred, hp' n l hl]
    exact if_congr (by rw [List.mem_range, mem_lanesOf]) rfl rfl
  case zero => exact of_decide_eq_true (Bool.and_eq_true_iff.1 hwf).1

/-! ## MOVX (R144) -/

/-- The acting lanes whose number names a vector register of the warp. -/
def namingLanes (w : Warp) (act : Mask) (no : Nat → Nat) : List Nat := (lanesOf act).filter fun l => decide (no l < min 640 (64 * w.gran))

theorem mem_namingLanes {no : Nat → Nat} {l : Nat} : l ∈ namingLanes w act no ↔ act.getLsbD l = true ∧ no l < min 640 (64 * w.gran) := by
  rw [namingLanes, List.mem_filter, mem_lanesOf, decide_eq_true_iff]

/-- The acting lanes whose number names none. -/
def strayLanes (w : Warp) (act : Mask) (no : Nat → Nat) : Mask := picked act fun l => min 640 (64 * w.gran) ≤ no l

theorem getLsbD_strayLanes {no : Nat → Nat} {l : Nat} (hl : l < 32) :
    (strayLanes w act no).getLsbD l = (act.getLsbD l && decide (min 640 (64 * w.gran) ≤ no l)) := getLsbD_picked _ hl

/-- The lanes that name a register take `f`, and the others trap. -/
theorem movxLanes_eq (w : Warp) (act : Mask) (no : Nat → Nat) (f : List Nat → State → State) (s : State) : movxLanes w act no f s =
    ((f (namingLanes w act no) s).trapAll w (strayLanes w act no) 2 0 0 0).advance w (s.iss.lanes &&& ~~~strayLanes w act no) := by
  have stray : (maskOf fun l => act.getLsbD l && !decide (no l < min 640 (64 * w.gran))) = strayLanes w act no := mask_ext fun l hl => by
    rw [getLsbD_maskOf _ _ hl, getLsbD_strayLanes hl, ← decide_not, decide_eq_decide.2 Nat.not_lt]
  rw [← stray]
  rfl

/-- Holding the warp's next instruction is apart from what is not yet due. -/
theorem noted_movxHold (t : State) (w : Warp) (g : List Fixed → List Fixed) : noted (t.movxHold w) w g = (noted t w g).movxHold w := by
  cases hh : t.iss.hnd with
  | true =>
    have hh' : (noted t w g).iss.hnd = true := hh
    rw [State.movxHold, State.movxHold, if_pos hh, if_pos hh']
    rfl
  | false =>
    have hh' : (noted t w g).iss.hnd ≠ true := Bool.eq_false_iff.1 hh
    rw [State.movxHold, State.movxHold, if_neg (Bool.eq_false_iff.1 hh), if_neg hh', noted, noted, onWarp_onWarp _ _ (by intro; rfl),
      onWarp_onWarp _ _ (by intro; rfl)]
    rfl

/-- A form of MOVX acts: the lanes that name a register have made `u`, the others trap, the rest go on, and the warp's next instruction is held. -/
def MovxRuns (i : Instr) (s : State) (w : Warp) (act : Mask) (no : Nat → Nat) (u : State) : Prop :=
  ∃ g, exec i s = .next (noted (((u.trapAll w (strayLanes w act no) 2 0 0 0).advance w (s.iss.lanes &&& ~~~strayLanes w act no)).movxHold w) w g)

theorem movx_runs {no : Nat → Nat} {f : List Nat → State → State} {body : Warp → Mask → State → State} (ha : Acts i s w act)
    (hx : exec i s = perform i body s) (hb : body w act s = (movxLanes w act no f s).movxHold w) (hv : voids i = false) :
    MovxRuns i s w act no (f (namingLanes w act no) s) := by
  obtain ⟨g, run⟩ := exec_acts ha hx hv
  exact ⟨g, by rw [run, hb, movxLanes_eq]⟩

/-- Where every acting lane names a register, none traps. -/
theorem MovxRuns.all_name {no : Nat → Nat} {u : State} {val : Nat → Nat → Word} (h : MovxRuns i s w act no u)
    (wrote : Rewritten s w (fun _ l => l) w.p val u) (ha : Acts i s w act) (hall : ∀ l, act.getLsbD l = true → no l < min 640 (64 * w.gran)) :
    ∃ t w', exec i s = .next (t.movxHold w) ∧ Moved s w s.movedLane (fun _ => 0) t w' ∧ w'.p = w.p ∧ ∀ n l, l < 32 → t.reg w' n l = val n l := by
  obtain ⟨g, run⟩ := h
  have none_stray : strayLanes w act no = 0#32 := mask_ext fun l hl => by
    rw [getLsbD_strayLanes hl, BitVec.getLsbD_zero, Bool.and_eq_false_imp]
    exact fun hal => decide_eq_false (Nat.not_le.2 (hall l hal))
  obtain ⟨w', ended⟩ := wrote.ends ha g
  rw [none_stray, trapAll_none, BitVec.not_zero, BitVec.and_allOnes, noted_movxHold] at run
  exact ⟨_, w', run, ended⟩

/-- The naming lanes write, each one register, and no other does. -/
theorem Rewritten.wroteNaming {no dest : Nat → Nat} {u : State} {x : Nat → Word}
    (h : Rewritten s w (fun _ l => l) w.p (scattered (namingLanes w act no) dest x (s.reg w)) u) (ha : Acts i s w act) :
    WroteSome s w (fun n l => n = dest l ∧ act.getLsbD l = true ∧ no l < min 640 (64 * w.gran)) (fun _ l => x l) u := by
  obtain ⟨hw, -, -, -, -, -, -, hl⟩ := ha
  obtain ⟨w', moved, hp, hreg⟩ := h.moved hw hl fun _ _ => rfl
  simp only [scattered, mem_namingLanes] at hreg
  exact ⟨w', moved, hp, fun n l hl => ⟨fun here => (hreg n l hl).trans (if_pos here), fun out => (hreg n l hl).trans (if_neg out)⟩⟩

/-- The register whose number a lane computes. -/
def computedNo (s : State) (w : Warp) (base index : Fld) (l : Nat) : Nat := base.toNat + (s.reg w index.toNat l).toNat

/-- What MOVX leaves of registers, but for moves and traps. -/
def movxRead (s : State) (w : Warp) (act : Mask) (d a b : Fld) : State :=
  s.wr w d.toNat ((namingLanes w act (computedNo s w a b)).map fun l => (l, [s.reg w (computedNo s w a b l) l]))

/-- What MOVX.ST leaves of registers, but for moves and traps. -/
def movxWritten (s : State) (w : Warp) (act : Mask) (d a b : Fld) : State :=
  (namingLanes w act (computedNo s w d b)).foldl (fun t l => t.wr w (computedNo s w d b l) [(l, [s.reg w a.toNat l])]) s

section Forms

variable {c : Common} {d a b : Fld}

theorem movx_movxRuns (ha : Acts (.movx c d a b) s w act) :
    MovxRuns (.movx c d a b) s w act (computedNo s w a b) (movxRead s w act d a b) := by
  obtain ⟨-, -, -, hearly, -, -, -, -⟩ := id ha
  have runs := movx_runs (no := fun l => a.toNat + (s.rd w b.toNat l).toNat) (f := fun ls t => t.wr w d.toNat (ls.map fun l =>
    (l, [t.rd w (a.toNat + (s.rd w b.toNat l).toNat) l]))) ha rfl rfl rfl
  simp only [rd_noEarly hearly] at runs
  exact runs

theorem movxSt_movxRuns (ha : Acts (.movxSt c d a b) s w act) :
    MovxRuns (.movxSt c d a b) s w act (computedNo s w d b) (movxWritten s w act d a b) := by
  obtain ⟨-, -, -, hearly, -, -, -, -⟩ := id ha
  have runs := movx_runs (no := fun l => d.toNat + (s.rd w b.toNat l).toNat) (f := fun ls t => ls.foldl (fun t l =>
    t.wr w (d.toNat + (s.rd w b.toNat l).toNat) [(l, [s.rd w a.toNat l])]) t) ha rfl rfl rfl
  simp only [rd_noEarly hearly] at runs
  exact runs

theorem movx_dest_lt (ha : Acts (.movx c d a b) s w act) : d.toNat < 640 := by
  have named : (decide (d.toNat % 1 = 0) && decide (d.toNat + 1 ≤ min 640 (64 * w.gran))) = true :=
    opnd_ok ha (o := .dst d 1 .vonly) (List.mem_cons_self ..)
  exact (le_min_iff.1 (of_decide_eq_true (Bool.and_eq_true_iff.1 named).2)).1

theorem movxRead_rewritten (ha : Acts (.movx c d a b) s w act) : Rewritten s w (fun _ l => l) w.p
    (scattered (namingLanes w act (computedNo s w a b)) (fun _ => d.toNat) (fun l => s.reg w (computedNo s w a b l) l) (s.reg w)) (movxRead s w act d a b) := by
  obtain ⟨-, -, -, -, -, -, -, hl⟩ := id ha
  exact (Rewritten.refl s w).wr hl (.inl (movx_dest_lt ha)) (fun l hm => mask_lt act l (mem_namingLanes.1 hm).1) _

theorem movxWritten_rewritten (ha : Acts (.movxSt c d a b) s w act) : Rewritten s w (fun _ l => l) w.p
    (scattered (namingLanes w act (computedNo s w d b)) (computedNo s w d b) (s.reg w a.toNat) (s.reg w)) (movxWritten s w act d a b) := by
  obtain ⟨-, -, -, -, -, -, -, hl⟩ := id ha
  exact (Rewritten.refl s w).wrEach hl _ fun l hm => ⟨mask_lt act l (mem_namingLanes.1 hm).1, (lt_min_iff.1 (mem_namingLanes.1 hm).2).1⟩

end Forms

/-- Settles O12: the naming lanes write and the strays trap; where all name a register, none strays. -/
theorem movxResult : Obligations.MovxResult := by
  refine ⟨fun c d a b s w act ha => ?reads, fun c d a b s w act ha => ?writes, fun c d a b s w act ha hall => ?allRead,
    fun c d a b s w act ha hall => ?allWrite⟩
  case reads =>
    obtain ⟨g, run⟩ := movx_movxRuns ha
    exact ⟨_, g, (movxRead_rewritten ha).wroteNaming ha, run⟩
  case writes =>
    obtain ⟨g, run⟩ := movxSt_movxRuns ha
    exact ⟨_, g, (movxWritten_rewritten ha).wroteNaming ha, run⟩
  case allRead =>
    have notUniform : isS d.toNat = false := Bool.eq_false_iff.2 fun h => Nat.not_le.2 (movx_dest_lt ha) ((isS_iff _).1 h).1
    obtain ⟨t, w', run, moved, hp, hreg⟩ := (movx_movxRuns ha).all_name (movxRead_rewritten ha) ha hall
    refine ⟨t, w', run, moved, hp, fun l hl hal k hk => ?_, fun n l hl hn => ?_⟩
    · obtain rfl : k = 0 := by omega
      refine (hreg d.toNat l hl).trans ((if_pos ⟨rfl, mem_namingLanes.2 ⟨hal, hall l hal⟩⟩).trans ?_)
      rw [notUniform]
      rfl
    · rw [hreg n l hl, scattered, if_neg fun h => hn ⟨h.1.ge, by omega, .inr (mem_namingLanes.1 h.2).1⟩]
  case allWrite =>
    obtain ⟨t, w', run, moved, hp, hreg⟩ := (movxSt_movxRuns ha).all_name (movxWritten_rewritten ha) ha hall
    refine ⟨t, w', run, moved, hp, fun n l hl => (hreg n l hl).trans (if_congr ?_ rfl rfl)⟩
    rw [mem_namingLanes]
    exact ⟨fun h => ⟨h.2.1, h.1⟩, fun h => ⟨h.2, h.1, hall l h.1⟩⟩

end Moves

end Sys2Proof.Machine

/-! SUPPORT. The canonical form of memory (R169, R173, R76; log entry 1): one law for every operation of the model that gives a state, in the order of the
definitions. What writes memory writes it by `writeCells`, which keeps the form; the rest leave memory alone. -/

namespace Sys2Proof.Machine

open Claims Laws

section Canonical

variable {s : State}

/-- A memory in canonical form: keys rising, no byte the one that an unlisted key reads as. -/
def Tidy (m : Sparse Byte) : Prop := scanon 0 m = true

@[simp] theorem tidy_writeCells {m : Sparse Byte} (h : Tidy m) (a : Nat) (b : List Byte) : Tidy (writeCells a b m) := writeCells_canon h a b

/-- Device, host and remote memory are in canonical form. -/
def Canon (s : State) : Prop := Tidy s.mem ∧ Tidy s.host ∧ Tidy s.remote

theorem canon_iff_wf : Canon s ↔ Memory.wf s := Iff.rfl

@[simp] theorem Canon.mem (h : Canon s) : Tidy s.mem := h.1

@[simp] theorem Canon.host (h : Canon s) : Tidy s.host := h.2.1

@[simp] theorem Canon.remote (h : Canon s) : Tidy s.remote := h.2.2

/-- What a state written out field by field has of the form: its three memories. -/
@[simp] theorem canon_mk {agenda turn free iss nextId form stepping keyHash1 keyHash2 rollback devId bootst bootWin verifying bootHash svn flash retRec attNonce
    attGo attReport invctl pwrlim evbase evsize nodeid farCap ns window mem host remote badLines l2 depart slices sliceErr chanErr chanBad
    cores quads clusters ctxs grids waits cgroups blocks warps net fetches pages copies defs readers mats fills redos pops cmds hq wq
    graphs nregs gated hostGot tags groups xcache xruns msix alogs vlogs wordErr beats alarm steps stepAt hot tripped linkUp deadNodes} :
    Canon (State.mk agenda turn free iss nextId form stepping keyHash1 keyHash2 rollback devId bootst bootWin verifying bootHash svn flash retRec
      attNonce attGo attReport invctl pwrlim evbase evsize nodeid farCap ns window mem host remote badLines l2 depart slices sliceErr
      chanErr chanBad cores quads clusters ctxs grids waits cgroups blocks warps net fetches pages copies defs readers mats fills redos
      pops cmds hq wq graphs nregs gated hostGot tags groups xcache xruns msix alogs vlogs wordErr beats alarm steps stepAt hot tripped
      linkUp deadNodes) ↔
      Tidy mem ∧ Tidy host ∧ Tidy remote := Iff.rfl

/-- A state written out field by field with the memories of one in the form. -/
theorem canon_frame {agenda turn free iss nextId form stepping keyHash1 keyHash2 rollback devId bootst bootWin verifying bootHash svn flash retRec attNonce
    attGo attReport invctl pwrlim evbase evsize nodeid farCap ns window badLines l2 depart slices sliceErr chanErr chanBad
    cores quads clusters ctxs grids waits cgroups blocks warps net fetches pages copies defs readers mats fills redos pops cmds hq wq
    graphs nregs gated hostGot tags groups xcache xruns msix alogs vlogs wordErr beats alarm steps stepAt hot tripped linkUp deadNodes}
    {t : State} (hc : Canon t) :
    Canon (State.mk agenda turn free iss nextId form stepping keyHash1 keyHash2 rollback devId bootst bootWin verifying bootHash svn flash retRec
      attNonce attGo attReport invctl pwrlim evbase evsize nodeid farCap ns window t.mem t.host t.remote badLines l2 depart slices sliceErr
      chanErr chanBad cores quads clusters ctxs grids waits cgroups blocks warps net fetches pages copies defs readers mats fills redos
      pops cmds hq wq graphs nregs gated hostGot tags groups xcache xruns msix alogs vlogs wordErr beats alarm steps stepAt hot tripped
      linkUp deadNodes) := hc

@[simp] theorem canon_ite {c : Prop} [Decidable c] {t : State} (hs : Canon s) (ht : Canon t) : Canon (if c then s else t) := by
  split <;> assumption

@[simp] theorem canon_foldl {α : Type} {f : State → α → State} (l : List α) (hf : ∀ t x, Canon t → Canon (f t x)) (h : Canon s) : Canon (l.foldl f s) :=
  List.foldlRecOn (motive := Canon) _ _ h fun t ht x _ => hf t x ht

theorem Canon.fst {α : Type} {x : State × α} {t : State} {a : α} (h : Canon x.1) (e : x = (t, a)) : Canon t := by
  subst e
  exact h

theorem Canon.snd {α : Type} {x : α × State} {t : State} {a : α} (h : Canon x.2) (e : x = (a, t)) : Canon t := by
  subst e
  exact h

/-- What a meaning answers is a state in canonical form, if it goes on. -/
def CanonOut (o : Out) : Prop := ∀ t, o = .next t → Canon t

@[simp] theorem canonOut_next : CanonOut (.next s) ↔ Canon s := ⟨fun h => h s rfl, fun h _ e => by cases e; exact h⟩

theorem canonOut_refused {r : Refusal} : CanonOut (.refused r) := fun _ h => nomatch h

theorem canonOut_fault {e : Fault} : CanonOut (.fault e) := fun _ h => nomatch h

@[simp] theorem canon_settle (hc : Canon s) : Canon (s.settle) := hc

/-! ### Parts by identity, and free values -/

@[simp] theorem canon_onWarp (i : Nat) (f : Warp → Warp) (hc : Canon s) : Canon (s.onWarp i f) := hc

@[simp] theorem canon_onBlock (i : Nat) (f : Block → Block) (hc : Canon s) : Canon (s.onBlock i f) := hc

@[simp] theorem canon_onCtx (i : Nat) (f : Ctx → Ctx) (hc : Canon s) : Canon (s.onCtx i f) := hc

@[simp] theorem canon_onCGroup (i : Nat) (f : CGroup → CGroup) (hc : Canon s) : Canon (s.onCGroup i f) := hc

@[simp] theorem canon_onGrid (i : Nat) (f : Grid → Grid) (hc : Canon s) : Canon (s.onGrid i f) := hc

@[simp] theorem canon_onCore (k : Nat) (f : Core → Core) (hc : Canon s) : Canon (s.onCore k f) := hc

@[simp] theorem canon_onQuad (q : Nat) (f : Quad → Quad) (hc : Canon s) : Canon (s.onQuad q f) := hc

@[simp] theorem canon_onCluster (c : Nat) (f : Cluster → Cluster) (hc : Canon s) : Canon (s.onCluster c f) := hc

@[simp] theorem canon_onGrp (g : Nat) (f : Grp → Grp) (hc : Canon s) : Canon (s.onGrp g f) := hc

@[simp] theorem canon_onHq (q : Nat) (f : HQueue → HQueue) (hc : Canon s) : Canon (s.onHq q f) := hc

@[simp] theorem canon_onWq (q : Nat) (f : WQueue → WQueue) (hc : Canon s) : Canon (s.onWq q f) := hc

@[simp] theorem canon_onGraph (g : Nat) (f : Graph → Graph) (hc : Canon s) : Canon (s.onGraph g f) := hc

@[simp] theorem canon_onNreg (n : Nat) (f : NReg → NReg) (hc : Canon s) : Canon (s.onNreg n f) := hc

@[simp] theorem canon_onTag (t : Nat) (f : TagEnt → TagEnt) (hc : Canon s) : Canon (s.onTag t f) := hc

@[simp] theorem canon_fresh (hc : Canon s) : Canon (s.fresh).2 := hc

@[simp] theorem canon_draw (hc : Canon s) : Canon (s.draw).2 := hc

@[simp] theorem canon_drawNat (n : Nat) (hc : Canon s) : Canon (s.drawNat n).2 := hc

@[simp] theorem canon_pick {α : Type} [DecidableEq α] (a : α) (b : α) (hc : Canon s) : Canon (s.pick a b).2 := by
  unfold State.pick
  repeat' split
  all_goals simp [hc]

@[simp] theorem canon_each {α : Type} (l : List α) (f : State → α → State) (hc : Canon s) (hf : ∀ t x, Canon t → Canon (f t x)) : Canon (s.each l f) := by
  simp +contextual [State.each, hc, hf]

/-! ### Device memory (R173 to R181) -/

@[simp] theorem canon_touchLine (line group : Nat) (zero ef : Bool) (hc : Canon s) : Canon (s.touchLine line group zero ef) := by
  simp only [State.touchLine]
  split
  · exact canon_frame hc
  · exact canon_frame (canon_pick _ _ hc)
@[simp] theorem canon_moveLine (line : Nat) (hc : Canon s) : Canon (s.moveLine line) := by
  simp only [State.moveLine]
  split
  · exact hc
  · exact canon_ite (canon_frame hc) hc
@[simp] theorem canon_rollWindow (hc : Canon s) : Canon (s.rollWindow) := by
  simp only [State.rollWindow]
  exact canon_ite hc (canon_frame hc)
@[simp] theorem canon_chargeGrid (grid pa n : Nat) (hc : Canon s) : Canon (s.chargeGrid grid pa n) := by
  unfold State.chargeGrid
  split <;> simp [hc]

@[simp] theorem canon_chargeGroup (group pa n : Nat) (hc : Canon s) : Canon (s.chargeGroup group pa n) := by
  unfold State.chargeGroup
  split <;> simp [hc]

@[simp] theorem canon_charge (o : Origin) (pa n : Nat) (hc : Canon s) : Canon (s.charge o pa n) := by simp [State.charge, hc]

theorem canon_writeLine {t : State} (pa : Nat) (b : List Byte) (group : Nat) (ef : Bool) (hc : Canon s) (h : s.writeLine pa b group ef = some t) : Canon t := by
  simp only [State.writeLine] at h
  split at h
  · cases h
  · cases h
    have kept := canon_moveLine (pa / 256) (canon_touchLine (pa / 256) group (decide (b.length = 256) && allZero b) ef hc)
    exact ⟨tidy_writeCells kept.mem _ _, kept.host, kept.remote⟩

@[simp] theorem canon_tlbFill (core group : Nat) (l : Leaf) (hc : Canon s) : Canon (s.tlbFill core group l) := by
  simp only [State.tlbFill]
  exact canon_onCore _ _ hc
@[simp] theorem canon_coreXl (core group va : Nat) (a : Acc) (hc : Canon s) : Canon (s.coreXl core group va a).2.2 := by
  simp only [State.coreXl]
  split
  · split
    · dsimp only
      exact canon_draw hc
    · split
      · dsimp only
        exact canon_tlbFill _ _ _ (canon_draw hc)
      · dsimp only
        exact canon_draw hc
  · split
    · dsimp only
      exact canon_tlbFill _ _ _ hc
    · exact hc
theorem canon_writeTgt {u : State} (t : Tgt) (b : List Byte) (group : Nat) (ef : Bool) (hc : Canon s) (h : s.writeTgt t b group ef = .ok u) : Canon u := by
  cases t with
  | dev pa => grind [State.writeTgt, canon_writeLine]
  | host ba =>
    simp only [State.writeTgt] at h
    split at h
    · cases h
      exact ⟨hc.mem, tidy_writeCells hc.host _ _, hc.remote⟩
    · cases h
  | fab node pa =>
    simp only [State.writeTgt] at h
    split at h
    · cases h
    · split at h
      · cases h
      · cases h
        exact ⟨hc.mem, hc.host, tidy_writeCells hc.remote _ _⟩

@[simp] theorem canon_chargeTgt (group : Nat) (t : Tgt) (n : Nat) (hc : Canon s) : Canon (s.chargeTgt group t n) := by
  unfold State.chargeTgt
  split <;> simp [hc]

@[simp] theorem canon_writeVa (group : Nat) (va : Nat) (b : List Byte) (a : Acc) (hc : Canon s) : Canon (s.writeVa group va b a).1 := by
  refine List.foldlRecOn (motive := fun r : State × Option VaErr => Canon r.1) _ _ hc fun r hr p _ => ?_
  change Canon (putPiece group a r p).1
  grind [putPiece, canon_writeTgt, canon_chargeTgt]

/-! ### Reports (R70 to R79, R256, R292, R293) -/

@[simp] theorem canon_putHost (a : Nat) (b : List Byte) (hc : Canon s) : Canon (s.putHost a b) := by simp [State.putHost, hc]

@[simp] theorem canon_ringPut (r : EvRec) (hc : Canon s) : Canon (s.ringPut r) := by simp [State.ringPut, hc]

@[simp] theorem canon_ringLose (hc : Canon s) : Canon (s.ringLose) := by simp [State.ringLose, hc]

@[simp] theorem canon_post (r : EvRec) (hc : Canon s) : Canon (s.post r) := by
  simp only [State.post]
  exact canon_ite (canon_ite (canon_onHq _ _ hc) hc) (canon_ite (canon_onHq _ _ (canon_ite (canon_onHq _ _ hc) hc)) (canon_ite (canon_ringLose
    (canon_ite (canon_onHq _ _ hc) hc)) (canon_ringPut _ (canon_ite (canon_onHq _ _ hc) hc))))
@[simp] theorem canon_postDev (kind src tag status group detail : Nat) (hc : Canon s) : Canon (s.postDev kind src tag status group detail) := by
  simp [State.postDev, hc]

@[simp] theorem canon_detectUnit (src tag group detail : Nat) (hc : Canon s) : Canon (s.detectUnit src tag group detail) := by
  simp only [State.detectUnit]
  exact canon_frame (canon_postDev _ _ _ _ _ _ hc)
@[simp] theorem canon_detect (pa cluster core group : Nat) (hc : Canon s) : Canon (s.detect pa cluster core group) := by
  simp only [State.detect]
  exact canon_frame (canon_postDev _ _ _ _ _ _ (canon_ite (canon_frame hc) (canon_frame hc)))
@[simp] theorem canon_detectVa (group va cluster core : Nat) (hc : Canon s) : Canon (s.detectVa group va cluster core) := by
  simp only [State.detectVa]
  split
  · exact canon_detect _ _ _ _ hc
  · exact canon_detect _ _ _ _ hc
  · exact hc
@[simp] theorem canon_interrupt (v : Nat) (hc : Canon s) : Canon (s.interrupt v) := by
  simp only [State.interrupt]
  exact canon_ite hc (canon_frame hc)
@[simp] theorem canon_tagDone (t : Nat) (hc : Canon s) : Canon (s.tagDone t) := by simp [State.tagDone, hc]

@[simp] theorem canon_trigger (g : Nat) (hc : Canon s) : Canon (s.trigger g) := by simp [State.trigger, hc]

@[simp] theorem canon_untrigger (g : Nat) (hc : Canon s) : Canon (s.untrigger g) := by simp +contextual [State.untrigger, hc]

@[simp] theorem canon_thresh (n : Nat) (hc : Canon s) : Canon (s.thresh n) := by
  simp only [State.thresh]
  repeat' split
  all_goals simp +contextual [hc]

@[simp] theorem canon_writeInt (n : Nat) (v : Word64) (hc : Canon s) : Canon (s.writeInt n v) := by simp [State.writeInt, hc]

@[simp] theorem canon_detail (status a : Nat) (hc : Canon s) : Canon (s.detail status a).2 := by
  unfold State.detail
  split <;> simp [hc]

@[simp] theorem canon_complete {s0 : State} (src : Src) (status group a : Nat) (hc0 : Canon s0) : Canon (State.complete s0 src status group a) := by
  simp only [State.complete]
  split
  · exact canon_post _ (canon_detail _ _ hc0)
  · exact canon_post _ (canon_detail _ _ hc0)
  · exact canon_detail _ _ hc0
@[simp] theorem canon_graphEnd (g : Nat) (hc : Canon s) : Canon (s.graphEnd g) := by
  simp only [State.graphEnd]
  refine canon_ite ?_ ?_
  · split
    · exact canon_tagDone _ (canon_onGraph _ _ hc)
    · exact canon_onGraph _ _ hc
  · exact hc
@[simp] theorem canon_graphGo (g n : Nat) (async : Bool) (hc : Canon s) : Canon (s.graphGo g n async) := by simp [State.graphGo, hc]

@[simp] theorem canon_nodeDone (src : Src) (hc : Canon s) : Canon (s.nodeDone src) := by
  simp only [State.nodeDone]
  split
  · exact canon_ite (canon_graphGo _ _ _ hc) (canon_graphEnd _ hc)
  · exact hc
@[simp] theorem canon_fail (src : Src) (status : Nat) (group : Nat) (a : Nat) (hc : Canon s) : Canon (s.fail src status group a) := by
  simp only [State.fail]
  split
  · exact canon_post _ (canon_onHq _ _ (canon_detail _ _ hc))
  · split
    · exact canon_tagDone _ (canon_post _ (canon_ite (canon_onGraph _ _ (canon_detail _ _ hc)) (canon_detail _ _ hc)))
    · exact canon_post _ (canon_ite (canon_onGraph _ _ (canon_detail _ _ hc)) (canon_detail _ _ hc))
  · exact canon_tagDone _ (canon_post _ (canon_detail _ _ hc))
  · exact canon_detail _ _ hc
@[simp] theorem canon_engineErr (group : Nat) (e : VaErr) (hc : Canon s) : Canon (s.engineErr group e) := by
  simp only [State.engineErr]
  refine canon_ite ?_ ?_
  · exact hc
  · split
    · exact canon_detect _ _ _ _ hc
    · exact canon_detect _ _ _ _ hc
    · exact hc
@[simp] theorem canon_putMet (group va : Nat) (b : List Byte) (hc : Canon s) : Canon (s.putMet group va b) := by
  simp only [State.putMet]
  split
  next e => exact Canon.fst (canon_writeVa _ _ _ _ hc) e
  next e => exact canon_engineErr _ _ (Canon.fst (canon_writeVa _ _ _ _ hc) e)
@[simp] theorem canon_dropCmd (i : Nat) (hc : Canon s) : Canon (s.dropCmd i) := hc

@[simp] theorem canon_pollWait (c : Cmd) (hc : Canon s) : Canon (s.pollWait c) := by
  simp only [State.pollWait]
  split
  · refine canon_ite ?_ ?_
    · exact hc
    · split
      · exact canon_ite (canon_nodeDone _ (canon_complete _ _ _ _ (canon_dropCmd _ hc))) hc
      · exact canon_fail _ _ _ _ (canon_engineErr _ _ (canon_dropCmd _ hc))
  · exact hc
@[simp] theorem canon_wakeQueue (q : Nat) (hc : Canon s) : Canon (s.wakeQueue q) := by simp +contextual [State.wakeQueue, hc]

@[simp] theorem canon_writeWake (n : Nat) (v : Word64) (hc : Canon s) : Canon (s.writeWake n v) := by simp [State.writeWake, hc]

@[simp] theorem canon_latch (n : Nat) (v : Word64) (hc : Canon s) : Canon (s.latch n v) := by simp [State.latch, hc]

@[simp] theorem canon_notify (n : Nat) (v : Word64) (hc : Canon s) : Canon (s.notify n v) := by
  simp only [State.notify]
  refine canon_ite ?_ ?_
  · exact canon_latch _ _ hc
  · refine canon_ite ?_ ?_
    · exact canon_ite (canon_untrigger _ hc) (canon_trigger _ hc)
    · split
      · exact canon_writeInt _ _ hc
      · exact canon_writeWake _ _ hc
      · exact hc
@[simp] theorem canon_readNotify (n : Nat) (hc : Canon s) : Canon (s.readNotify n).2 := by
  simp only [State.readNotify]
  split
  · exact hc
  · split
    · dsimp only
      exact canon_onNreg _ _ hc
    · split
      · dsimp only
        exact canon_onNreg _ _ hc
      · exact hc
@[simp] theorem canon_cfEvent (group detail : Nat) (hc : Canon s) : Canon (s.cfEvent group detail) := by simp [State.cfEvent, hc]

@[simp] theorem canon_cfLost (group : Nat) (e : VaErr) (hc : Canon s) : Canon (s.cfLost group e) := by simp [State.cfLost, hc]

@[simp] theorem canon_cfFull (group : Nat) (hc : Canon s) : Canon (s.cfFull group) := by
  simp only [State.cfFull]
  split
  · exact canon_cfEvent _ _ (canon_writeVa _ _ _ _ (canon_writeVa _ _ _ _ hc))
  · exact canon_cfLost _ _ hc
  · exact canon_cfLost _ _ hc
@[simp] theorem canon_cfEnter (group grid : Nat) (r : CfRec) (hc : Canon s) : Canon (s.cfEnter group grid r) := by
  simp only [State.cfEnter]
  split
  · split
    · split
      next e => exact canon_cfLost _ _ (Canon.fst (canon_writeVa _ _ _ _ hc) e)
      next e => exact canon_onGrid _ _ (Canon.fst (canon_writeVa _ _ _ _ hc) e)
    · refine canon_ite ?_ ?_
      · exact canon_cfFull _ hc
      · split
        next e => exact canon_cfLost _ _ (Canon.fst (canon_writeVa _ _ _ _ hc) e)
        next e =>
          split
          next e' => exact canon_cfLost _ _ (Canon.fst (canon_writeVa _ _ _ _ (Canon.fst (canon_writeVa _ _ _ _ hc) e)) e')
          next e' => exact canon_cfEvent _ _ (canon_onGrid _ _ (Canon.fst (canon_writeVa _ _ _ _ (Canon.fst (canon_writeVa _ _ _ _ hc) e)) e'))
  · exact canon_cfLost _ _ hc
  · exact canon_cfLost _ _ hc
@[simp] theorem canon_failStore (o : Origin) (cause flags addr : Nat) (hc : Canon s) : Canon (s.failStore o cause flags addr) := by
  simp only [State.failStore]
  split
  · exact canon_ite hc (canon_cfEnter _ _ _ hc)
  · refine canon_ite ?_ ?_
    · exact canon_cfEnter _ _ _ hc
    · refine canon_ite ?_ ?_
      · exact canon_onWarp _ _ hc
      · split
        · exact canon_cfEnter _ _ _ (canon_onBlock _ _ hc)
        · exact canon_cfEnter _ _ _ hc
@[simp] theorem canon_moveFails (w : Warp) (hc : Canon s) : Canon (s.moveFails w) := by
  unfold State.moveFails
  refine canon_foldl _ (fun t x ht => ?_) hc
  simp [ht]

/-! ### Completion and removal (R298, R308 to R311) -/

@[simp] theorem canon_writeComp (g : Grid) (hc : Canon s) : Canon (s.writeComp g) := by
  unfold State.writeComp
  split <;> simp [hc]

@[simp] theorem canon_writeGrid (i : Nat) (hc : Canon s) : Canon (s.writeGrid i) := by
  unfold State.writeGrid
  split <;> simp [hc]

@[simp] theorem canon_writePending (i : Nat) (hc : Canon s) : Canon (s.writePending i) := by
  simp only [State.writePending]
  split
  · exact canon_ite hc (canon_putMet _ _ _ hc)
  · exact hc
@[simp] theorem canon_finalise (i : Nat) (hc : Canon s) : Canon (s.finalise i) := by
  simp only [State.finalise]
  split
  · refine canon_ite ?_ ?_
    · refine canon_ite ?_ ?_
      · exact canon_writeGrid _ (canon_onGrid _ _ hc)
      · split
        · exact canon_post _ (canon_writeGrid _ (canon_onGrid _ _ hc))
        · exact canon_post _ (canon_writeGrid _ (canon_onGrid _ _ hc))
        · exact canon_writeGrid _ (canon_onGrid _ _ hc)
    · exact hc
  · exact hc
@[simp] theorem canon_endRun (ctx status detail : Nat) (hc : Canon s) : Canon (s.endRun ctx status detail) := by
  simp only [State.endRun]
  split
  · exact hc
  · split
    · exact canon_tagDone _ (canon_nodeDone _ (canon_complete _ _ _ _ (canon_ite (canon_frame hc) (canon_notify _ _ (canon_frame hc)))))
    · exact canon_nodeDone _ (canon_complete _ _ _ _ (canon_ite (canon_frame hc) (canon_notify _ _ (canon_frame hc))))
@[simp] theorem canon_freeBanks (gone : Warp → Bool) (hc : Canon s) : Canon (s.freeBanks gone) := hc

@[simp] theorem canon_sweepShelf (hc : Canon s) : Canon (s.sweepShelf) := hc

@[simp] theorem canon_cancelWork (p : Origin → Bool) (hc : Canon s) : Canon (s.cancelWork p) := hc

@[simp] theorem canon_dropWaits (p : Nat → Bool) (hc : Canon s) : Canon (s.dropWaits p) := hc

@[simp] theorem canon_freeCtx (ctx : Nat) (hc : Canon s) : Canon (s.freeCtx ctx) := by
  simp only [State.freeCtx]
  exact canon_frame (canon_dropWaits _ (canon_freeBanks _ hc))
@[simp] theorem canon_takePreempt (group ctx bad : Nat) (hc : Canon s) : Canon (s.takePreempt group ctx bad) := by
  simp only [State.takePreempt]
  exact canon_ite hc (canon_onGrp _ _ hc)
@[simp] theorem canon_finishRemoval (ctx : Nat) (hc : Canon s) : Canon (s.finishRemoval ctx) := by
  simp only [State.finishRemoval]
  split
  · exact hc
  · split
    · refine canon_ite ?_ ?_
      · refine canon_takePreempt _ _ _ ?_
        refine canon_endRun _ _ _ ?_
        refine canon_ite ?_ ?_
        · split
          · exact canon_finalise _ (canon_onGrid _ _ (canon_cfEnter _ _ _ (canon_freeCtx _ hc)))
          · exact canon_onGrid _ _ (canon_cfEnter _ _ _ (canon_freeCtx _ hc))
        · refine canon_writeGrid _ ?_
          split
          · exact canon_finalise _ (canon_onGrid _ _ (canon_cfEnter _ _ _ (canon_freeCtx _ hc)))
          · exact canon_onGrid _ _ (canon_cfEnter _ _ _ (canon_freeCtx _ hc))
      · refine canon_onGrp _ _ ?_
        refine canon_takePreempt _ _ _ ?_
        refine canon_endRun _ _ _ ?_
        refine canon_ite ?_ ?_
        · split
          · exact canon_finalise _ (canon_onGrid _ _ (canon_cfEnter _ _ _ (canon_freeCtx _ hc)))
          · exact canon_onGrid _ _ (canon_cfEnter _ _ _ (canon_freeCtx _ hc))
        · refine canon_writeGrid _ ?_
          split
          · exact canon_finalise _ (canon_onGrid _ _ (canon_cfEnter _ _ _ (canon_freeCtx _ hc)))
          · exact canon_onGrid _ _ (canon_cfEnter _ _ _ (canon_freeCtx _ hc))
    · exact hc
@[simp] theorem canon_startRemoval (ctx cause : Nat) (hc : Canon s) : Canon (s.startRemoval ctx cause) := by
  simp only [State.startRemoval]
  split
  · exact hc
  · split
    · exact hc
    · exact canon_ite (canon_sweepShelf (canon_cancelWork _ (canon_frame (canon_dropWaits _ (canon_freeBanks _ (canon_onCtx _ _ (canon_foldl _ (fun t
        x ht => canon_moveFails _ ht) hc))))))) (canon_finishRemoval _ (canon_sweepShelf (canon_cancelWork _ (canon_frame (canon_dropWaits _
        (canon_freeBanks _ (canon_onCtx _ _ (canon_foldl _ (fun u y hu => canon_moveFails _ hu) hc))))))))
@[simp] theorem canon_removalCheck (ctx : Nat) (hc : Canon s) : Canon (s.removalCheck ctx) := by
  simp only [State.removalCheck]
  split
  · split
    · exact canon_ite hc (canon_finishRemoval _ hc)
    · exact hc
  · exact hc

/-! ### Lanes, traps and handlers (R288 to R291) -/

@[simp] theorem canon_onBank (q : Nat) (f : Bank → Bank) (hc : Canon s) : Canon (s.onBank q f) := by simp [State.onBank, hc]

@[simp] theorem canon_onLanes (w : Warp) (hnd : Bool) (m : Mask) (f : Lane → Lane) (hc : Canon s) : Canon (s.onLanes w hnd m f) := by simp [State.onLanes, hc]

@[simp] theorem canon_advance (w : Warp) (m : Mask) (hc : Canon s) : Canon (s.advance w m) := by simp [State.advance, hc]

@[simp] theorem canon_count (blk e n : Nat) (hc : Canon s) : Canon (s.count blk e n) := by simp [State.count, hc]

@[simp] theorem canon_escalate (w : Warp) (cls cause : Nat) (m : Mask) (pos addr : Nat) (hc : Canon s) : Canon (s.escalate w cls cause m pos addr) := by
  simp only [State.escalate]
  split
  · exact hc
  · split
    · exact hc
    · exact canon_startRemoval _ _ (canon_cfEnter _ _ _ hc)
@[simp] theorem canon_takeTrap (w : Warp) (hnd : Bool) (cls : Nat) (ts : List TrapLane) (hc : Canon s) : Canon (s.takeTrap w hnd cls ts) := by
  simp only [State.takeTrap]
  split
  · exact hc
  · exact canon_ite (canon_escalate _ _ _ _ _ _ hc) (canon_onWarp _ _ (canon_onLanes _ _ _ _ hc))
@[simp] theorem canon_trapAll (w : Warp) (m : Mask) (cls cause addr info : Nat) (hc : Canon s) : Canon (s.trapAll w m cls cause addr info) := by
  simp [State.trapAll, hc]

@[simp] theorem canon_enterHandler (w : Warp) (x : SubWarp) (entry : Nat) (hc : Canon s) : Canon (s.enterHandler w x entry) := by
  simp only [State.enterHandler]
  exact canon_onQuad _ _ (canon_onWarp _ _ (canon_onLanes _ _ _ _ hc))
@[simp] theorem canon_leaveHandler (w : Warp) (m : Mask) (pos : Nat → Lane → Nat × Nat) (hc : Canon s) : Canon (s.leaveHandler w m pos) := by
  simp only [State.leaveHandler]
  exact canon_onQuad _ _ (canon_onWarp _ _ hc)
@[simp] theorem canon_passLanes (w : Warp) (m : Mask) (hc : Canon s) : Canon (s.passLanes w m) := by simp [State.passLanes, hc]

@[simp] theorem canon_parkHere (w : Warp) (m : Mask) (p : Park) (hc : Canon s) : Canon (s.parkHere w m p) := by simp [State.parkHere, hc]

/-! ### Registers written (R41 to R45) -/

@[simp] theorem canon_wr (w : Warp) (n : Nat) (vals : List (Nat × List Word)) (hc : Canon s) : Canon (s.wr w n vals) := by
  simp only [State.wr]
  exact canon_ite (canon_onWarp _ _ hc) (canon_ite (canon_onWarp _ _ hc) (canon_ite (canon_onBank _ _ hc) hc))
@[simp] theorem canon_put (w : Warp) (d lane : Nat) (ws : List Word) (hc : Canon s) : Canon (s.put w d lane ws) := by simp [State.put, hc]

@[simp] theorem canon_wrP (w : Warp) (n : Nat) (vals : List (Nat × Bool)) (hc : Canon s) : Canon (s.wrP w n vals) := by simp [State.wrP, hc]

/-! ### Exceptions (R130) -/

@[simp] theorem canon_orFlags (w : Warp) (es : List (Nat × Exc)) (hc : Canon s) : Canon (s.orFlags w es) := by
  unfold State.orFlags
  refine canon_foldl _ (fun t x ht => ?_) hc
  simp [ht]

@[simp] theorem canon_arithTrap (w : Warp) (es : List (Nat × Exc)) (hc : Canon s) : Canon (s.arithTrap w es) := by simp [State.arithTrap, hc]

/-! ### What instructions share (R51, R56) -/

@[simp] theorem canon_lookKeys (w : Warp) (keys : List Nat) (hc : Canon s) : Canon (s.lookKeys w keys) := by
  refine canon_foldl _ (fun t k ht => canon_foldl _ (fun u l hu => ?_) ht) hc
  have picked := List.foldlRecOn (motive := fun r : Word × State => Canon r.2)
    (w.fixed.filter fun f => decide (f.reg = k) && decide (u.iss.now < f.due)) (fun r f => r.2.pick r.1 (f.old.getD l 0))
    (b := (u.keyVal w k l, u)) hu fun r hr f _ => canon_pick _ _ hr
  exact picked

@[simp] theorem canon_lookEarly (w : Warp) (i : Instr) (hc : Canon s) : Canon (s.lookEarly w i) := by simp [State.lookEarly, hc]

@[simp] theorem canon_putKey (w : Warp) (key lane : Nat) (x : Word) (hc : Canon s) : Canon (s.putKey w key lane x) := by simp [State.putKey, hc]

@[simp] theorem canon_overtake (wi k : Nat) (fs : List Fixed) (y : Nat → Word) (l : Nat) (hc : Canon s) : Canon (s.overtake wi k fs y l) := by
  simp only [State.overtake]
  split
  · exact hc
  · exact canon_ite (canon_ite (canon_pick _ _ hc) (canon_putKey _ _ _ _ (canon_pick _ _ hc))) hc
@[simp] theorem canon_note {s0 : State} (w : Warp) (act : Mask) (i : Instr) (hc : Canon s) : Canon (s0.note w act i s) := by
  simp only [State.note]
  refine canon_ite ?_ ?_
  · exact hc
  · refine canon_foldl _ ?_ ?_
    · intro t x ht
      split
      · exact canon_foldl _ (fun u y hu => canon_overtake _ _ _ _ _ hu) ht
      · exact canon_onWarp _ _ (canon_foldl _ (fun u y hu => canon_overtake _ _ _ _ _ hu) ht)
    · exact hc
@[simp] theorem canon_putLate (w : Warp) (n lane : Nat) (ws : List Word) (hc : Canon s) : Canon (s.putLate w n lane ws) := by simp +contextual [State.putLate, hc]

@[simp] theorem canon_keepGroup (w : Warp) (hc : Canon s) : Canon (s.keepGroup w) := by
  simp only [State.keepGroup]
  split
  · exact canon_ite (canon_onGrid _ _ (canon_onCGroup _ _ hc)) hc
  · exact hc
@[simp] theorem canon_void (w : Warp) (i : Instr) (hc : Canon s) : Canon (s.void w i) := by
  unfold State.void
  split <;> simp [hc]

@[simp] theorem canon_performWith (i : Instr) (extra : State → Warp → Bool) (body : Warp → Mask → State → State) (hf :
    ∀ x y t, Canon t → Canon (body x y t)) (hc : Canon s) : Canon (performWith i extra body s) := by
  simp only [performWith]
  split
  · exact hc
  · exact canon_ite hc (canon_ite (canon_advance _ _ (canon_trapAll _ _ _ _ _ _ (canon_ite (canon_ite (canon_lookEarly _ _ hc) hc) (canon_void _ _
      (canon_ite (canon_lookEarly _ _ hc) hc))))) (canon_ite (canon_advance _ _ (canon_trapAll _ _ _ _ _ _ (canon_ite (canon_ite (canon_lookEarly _ _
      hc) hc) (canon_void _ _ (canon_ite (canon_lookEarly _ _ hc) hc))))) (canon_ite (canon_trapAll _ _ _ _ _ _ (canon_ite (canon_ite
      (canon_lookEarly _ _ hc) hc) (canon_void _ _ (canon_ite (canon_lookEarly _ _ hc) hc)))) (canon_ite (canon_advance _ _ (canon_ite (canon_ite
      (canon_lookEarly _ _ hc) hc) (canon_void _ _ (canon_ite (canon_lookEarly _ _ hc) hc)))) (canon_note _ _ _ (hf _ _ _ (canon_ite (canon_ite
      (canon_lookEarly _ _ hc) hc) (canon_void _ _ (canon_ite (canon_lookEarly _ _ hc) hc)))))))))
@[simp] theorem canon_perform (i : Instr) (body : Warp → Mask → State → State) (hf : ∀ w act t, Canon t → Canon (body w act t)) (hc : Canon s) :
    CanonOut (perform i body s) := canonOut_next.2 (canon_performWith _ _ _ hf hc)

@[simp] theorem canon_laneResults (w : Warp) (act : Mask) (d : Nat) (f : Nat → List Word × Exc) (hc : Canon s) : Canon (laneResults w act d f s) := by
  simp only [laneResults]
  exact canon_advance _ _ (canon_arithTrap _ _ (canon_orFlags _ _ (canon_wr _ _ _ hc)))
@[simp] theorem canon_vop (i : Instr) (d : Fld) (f : State → Warp → Nat → List Word × Exc) (hc : Canon s) : CanonOut (vop i d f s) :=
  canon_perform _ _ (fun _ _ _ ht => canon_laneResults _ _ _ _ ht) hc

@[simp] theorem canon_vop1 (i : Instr) (d : Fld) (f : State → Warp → Nat → Word) (hc : Canon s) : CanonOut (vop1 i d f s) := canon_vop _ _ _ hc

@[simp] theorem canon_vop2 (i : Instr) (d : Fld) (f : State → Warp → Nat → Word64) (hc : Canon s) : CanonOut (vop2 i d f s) := canon_vop _ _ _ hc

@[simp] theorem canon_lanePreds (w : Warp) (act : Mask) (d : Nat) (f : Nat → Bool × Exc) (hc : Canon s) : Canon (lanePreds w act d f s) := by
  simp only [lanePreds]
  exact canon_advance _ _ (canon_arithTrap _ _ (canon_orFlags _ _ (canon_wrP _ _ _ hc)))
@[simp] theorem canon_pop (i : Instr) (d : Fld) (f : State → Warp → Nat → Bool × Exc) (hc : Canon s) : CanonOut (pop i d f s) :=
  canon_perform _ _ (fun _ _ _ ht => canon_lanePreds _ _ _ _ ht) hc

/-! ### Accesses of lanes (R166 to R191) -/

@[simp] theorem canon_askPage (p : Page) (hc : Canon s) : Canon (s.askPage p).2 := by
  grind [State.askPage, canon_engineErr, canon_writeVa, canon_onGrp, canon_notify]

@[simp] theorem canon_wantPage (group core va : Nat) (acc : Acc) (u : PageUser) (hc : Canon s) : Canon (s.wantPage group core va acc u) := by
  simp only [State.wantPage]
  split
  · exact canon_frame hc
  · exact canon_frame (canon_askPage _ hc)
@[simp] theorem canon_reach (w : Warp) (va : Word64) (size : Nat) (a : Acc) (hc : Canon s) : Canon (s.reach w va size a).2 := by
  simp only [State.reach]
  split
  · exact hc
  · split
    · exact hc
    · split
      · dsimp only
        exact canon_ite (canon_count _ _ _ (canon_coreXl _ _ _ _ hc)) (canon_coreXl _ _ _ _ hc)
      · dsimp only
        exact canon_ite (canon_count _ _ _ (canon_coreXl _ _ _ _ hc)) (canon_coreXl _ _ _ _ hc)
      · dsimp only
        exact canon_ite (canon_count _ _ _ (canon_coreXl _ _ _ _ hc)) (canon_coreXl _ _ _ _ hc)
      · dsimp only
        exact canon_detect _ _ _ _ (canon_ite (canon_count _ _ _ (canon_coreXl _ _ _ _ hc)) (canon_coreXl _ _ _ _ hc))
@[simp] theorem canon_memLanes (w : Warp) (act : Mask) (uni : Mask) (a : Acc) (f : Nat → State → Ends × State) (hf : ∀ l t, Canon t → Canon (f l t).2) (hc : Canon s) :
    Canon (memLanes w act uni a f s) := by
  have accessed := List.foldlRecOn (motive := fun r : List (Nat × Ends) × State => Canon r.2)
    (if uni ≠ 0#32 then [lowestLane act] else lanesOf act) (fun r l => let x := f l r.2; (r.1 ++ [(l, x.1)], x.2)) (b := ([], s)) hc
    fun r hr l _ => hf l _ hr
  refine canon_advance _ _ (canon_foldl _ (fun t x ht => ?_) (canon_foldl _ (fun t c ht => canon_takeTrap _ _ _ _ ht) accessed))
  split
  · exact canon_wantPage _ _ _ _ _ (canon_onLanes _ _ _ _ ht)
  · exact ht

@[simp] theorem canon_poison (p : Req → Bool) (hc : Canon s) : Canon (s.poison p) := hc

@[simp] theorem canon_l1drop (core a b : Nat) (hc : Canon s) : Canon (s.l1drop core a b) := by simp [State.l1drop, hc]

@[simp] theorem canon_l1clear (core : Nat) (hc : Canon s) : Canon (s.l1clear core) := by simp [State.l1clear, hc]

@[simp] theorem canon_l1write (core pa : Nat) (b : List Byte) (hc : Canon s) : Canon (s.l1write core pa b) := by simp [State.l1write, hc]

@[simp] theorem canon_l1fill (core : Nat) (x : L1Sec) (hc : Canon s) : Canon (s.l1fill core x) := by simp [State.l1fill, hc]

@[simp] theorem canon_roFill (core line : Nat) (b : List Byte) (hc : Canon s) : Canon (s.roFill core line b) := by
  simp only [State.roFill]
  exact canon_onCore _ _ hc
@[simp] theorem canon_send (w : Warp) (r : Req) (hc : Canon s) : Canon (s.send w r) := by
  simp only [State.send]
  refine canon_frame ?_
  split
  · exact canon_count _ _ _ hc
  · exact hc
@[simp] theorem canon_loadL1 (w : Warp) (d n : Nat) (sx : Bool) (h : CacheHint) (uni : Mask) (lane va pa : Nat) (hc : Canon s) :
    Canon (loadL1 w d n sx h uni lane va pa s) := by
  simp only [loadL1]
  refine canon_ite ?_ ?_
  · exact canon_send _ _ hc
  · split
    · exact canon_ite (canon_send _ _ (canon_count _ _ _ hc)) (canon_ite (canon_count _ _ _ (canon_put _ _ _ _ (canon_draw hc))) (canon_send _ _
        (canon_count _ _ _ (canon_onCore _ _ (canon_draw hc)))))
    · exact canon_send _ _ (canon_count _ _ _ hc)
@[simp] theorem canon_loadRo (w : Warp) (d n : Nat) (sx : Bool) (uni : Mask) (lane va pa : Nat) (hc : Canon s) : Canon (loadRo w d n sx uni lane va pa s) := by
  simp only [loadRo]
  split
  · exact canon_ite (canon_put _ _ _ _ (canon_draw hc)) (canon_send _ _ (canon_onCore _ _ (canon_draw hc)))
  · exact canon_send _ _ hc
@[simp] theorem canon_loadLane (w : Warp) (m : MOp) (sx ro : Bool) (h : CacheHint) (uni : Mask) (l : Nat) (hc : Canon s) :
    Canon (loadLane w m sx ro h uni l s).2 := by
  simp only [loadLane]
  split
  next e =>
    dsimp only
    exact Canon.snd (canon_reach _ _ _ _ hc) e
  next e =>
    dsimp only
    exact Canon.snd (canon_reach _ _ _ _ hc) e
  next e =>
    split
    · dsimp only
      exact Canon.snd (canon_reach _ _ _ _ hc) e
    · split
      · split
        · dsimp only
          exact canon_send _ _ (Canon.snd (canon_reach _ _ _ _ hc) e)
        · split
          · dsimp only
            exact canon_loadRo _ _ _ _ _ _ _ _ (Canon.snd (canon_reach _ _ _ _ hc) e)
          · dsimp only
            exact canon_loadL1 _ _ _ _ _ _ _ _ _ (Canon.snd (canon_reach _ _ _ _ hc) e)
      · dsimp only
        exact canon_send _ _ (Canon.snd (canon_reach _ _ _ _ hc) e)
@[simp] theorem canon_storeLane (w : Warp) (m : MOp) (h : CacheHint) (uni : Mask) (l : Nat) (hc : Canon s) : Canon (storeLane w m h uni l s).2 := by
  simp only [storeLane]
  split
  next e =>
    dsimp only
    exact Canon.snd (canon_reach _ _ _ _ hc) e
  next e =>
    dsimp only
    exact Canon.snd (canon_reach _ _ _ _ hc) e
  next e =>
    split
    · dsimp only
      exact Canon.snd (canon_reach _ _ _ _ hc) e
    · dsimp only
      refine canon_send _ _ ?_
      split
      · exact canon_ite (Canon.snd (canon_reach _ _ _ _ hc) e) (canon_ite (canon_l1drop _ _ _ (Canon.snd (canon_reach _ _ _ _ hc) e)) (canon_l1write
          _ _ _ (Canon.snd (canon_reach _ _ _ _ hc) e)))
      · exact Canon.snd (canon_reach _ _ _ _ hc) e
@[simp] theorem canon_atomLane (w : Warp) (op : AtomOp) (m : MOp) (uni : Mask) (l : Nat) (hc : Canon s) : Canon (atomLane w op m uni l s).2 := by
  simp only [atomLane]
  split
  next e =>
    dsimp only
    exact Canon.snd (canon_reach _ _ _ _ hc) e
  next e =>
    dsimp only
    exact Canon.snd (canon_reach _ _ _ _ hc) e
  next e =>
    split
    · split
      · dsimp only
        exact Canon.snd (canon_reach _ _ _ _ hc) e
      · dsimp only
        exact canon_send _ _ (Canon.snd (canon_reach _ _ _ _ hc) e)
    · split
      · dsimp only
        exact Canon.snd (canon_reach _ _ _ _ hc) e
      · dsimp only
        refine canon_send _ _ ?_
        split
        · exact canon_l1drop _ _ _ (Canon.snd (canon_reach _ _ _ _ hc) e)
        · exact Canon.snd (canon_reach _ _ _ _ hc) e
@[simp] theorem canon_scratchErr (core group : Nat) (hc : Canon s) : Canon (s.scratchErr core group) := by simp [State.scratchErr, hc]

@[simp] theorem canon_scratchLost (w : Warp) (m : MOp) (lane a : Nat) (uni : Mask) (hc : Canon s) : Canon (s.scratchLost w m lane a uni) := by
  simp only [State.scratchLost]
  exact canon_frame (canon_scratchErr _ _ hc)
@[simp] theorem canon_scratchLane (w : Warp) (m : MOp) (f : Nat → State → State) (l : Nat) (hf : ∀ x t, Canon t → Canon (f x t)) (hc : Canon s) :
    Canon (scratchLane w m f l s).2 := by
  simp only [scratchLane]
  repeat' split
  all_goals simp +contextual [hf, hc]

@[simp] theorem canon_prefLane (w : Warp) (n : Nat) (m : MOp) (l : Nat) (hc : Canon s) : Canon (prefLane w n m l s) := by
  simp only [prefLane]
  refine canon_ite ?_ ?_
  · exact hc
  · refine canon_foldl _ ?_ ?_
    · intro t x ht
      split
      · exact canon_ite (canon_detect _ _ _ _ ht) (canon_charge _ _ _ ht)
      · exact ht
    · exact hc
@[simp] theorem canon_zlineLane (w : Warp) (m : MOp) (l : Nat) (hc : Canon s) : Canon (zlineLane w m l s).2 := by
  simp only [zlineLane]
  split
  next e =>
    dsimp only
    exact Canon.snd (canon_reach _ _ _ _ hc) e
  next e =>
    dsimp only
    exact Canon.snd (canon_reach _ _ _ _ hc) e
  next e =>
    split
    · dsimp only
      exact Canon.snd (canon_reach _ _ _ _ hc) e
    · dsimp only
      refine canon_send _ _ ?_
      split
      · exact canon_l1drop _ _ _ (Canon.snd (canon_reach _ _ _ _ hc) e)
      · exact Canon.snd (canon_reach _ _ _ _ hc) e

/-! ### Requests and pages (R171, R174 to R189, R251 to R258) -/

@[simp] theorem canon_setReq (n : Nat) (st : ReqSt) (hc : Canon s) : Canon (s.setReq n st) := hc

@[simp] theorem canon_retire (n : Nat) (r : Req) (hc : Canon s) : Canon (s.retire n r) := by
  simp only [State.retire]
  exact canon_ite (canon_removalCheck _ (canon_frame hc)) (canon_frame hc)
@[simp] theorem canon_serveDev (r : Req) (pa : Nat) (hc : Canon s) : Canon (s.serveDev r pa).1 := by
  grind [State.serveDev, canon_detect, canon_charge, canon_writeLine]

/-- A request served by notify register `k` (R361). -/
def servedBy (s : State) (r : Req) (k : Nat) : State × ReqSt :=
  if s.classGroup k ≠ r.org.group then (s, .failed fREFUSED)
  else match r.k with
    | .store b _ => (s.notify k (BitVec.ofNat 64 (ofBytes b)), .served [] [])
    | _ => ((s.readNotify k).2, .served (toBytes 8 (s.readNotify k).1.toNat) [])

theorem serveAperture_eq (s : State) (r : Req) (pa : Nat) : s.serveAperture r pa = servedBy s r ((pa - apertureBase) / 8) := rfl

theorem canon_servedBy (r : Req) (k : Nat) (hc : Canon s) : Canon (servedBy s r k).1 := by
  simp only [servedBy]
  split
  · exact hc
  · split
    · dsimp only
      exact canon_notify _ _ hc
    · dsimp only
      exact canon_readNotify _ hc
@[simp] theorem canon_serveAperture (r : Req) (pa : Nat) (hc : Canon s) : Canon (s.serveAperture r pa).1 := by
  rw [serveAperture_eq]
  exact canon_servedBy r _ hc

theorem tidy_serveCells {m : Sparse Byte} (a : Nat) (k : ReqK) (h : Tidy m) : Tidy (serveCells m a k).1 := by
  cases k with
  | load => exact h
  | _ => exact tidy_writeCells h _ _

@[simp] theorem canon_serve (r : Req) (hc : Canon s) : Canon (s.serve r).1 := by
  unfold State.serve
  split
  · split
    · exact canon_serveAperture _ _ hc
    · exact canon_serveDev _ _ hc
  · split
    · exact ⟨hc.mem, tidy_serveCells _ _ hc.host, hc.remote⟩
    · exact hc
  · split
    · exact hc
    · split
      · exact hc
      · exact ⟨hc.mem, hc.host, tidy_serveCells _ _ hc.remote⟩

@[simp] theorem canon_land (r : Req) (d : Fld) (ws : List Word) (hc : Canon s) : Canon (s.land r d ws) := by
  simp only [State.land]
  split
  · exact hc
  · exact canon_ite (canon_putLate _ _ _ _ hc) hc
@[simp] theorem canon_l1take (r : Req) (pa : Nat) (x : L1Sec) (hc : Canon s) : Canon (s.l1take r pa x) := by
  unfold State.l1take
  split <;> simp [hc]

@[simp] theorem canon_withdraw (w : Warp) (l : Nat) (hc : Canon s) : Canon (s.withdraw w l) := by
  simp only [State.withdraw]
  refine canon_frame ?_
  split
  · exact canon_onWarp _ _ hc
  · exact canon_onWarp _ _ hc
  · exact hc
@[simp] theorem canon_defer (w : Warp) (r : Req) (k c l : Nat) (hc : Canon s) : Canon (s.defer w r k c l) := by
  simp only [State.defer]
  exact canon_ite (canon_onWarp _ _ (canon_cfEnter _ _ _ hc)) (canon_fresh (canon_onWarp _ _ (canon_withdraw _ _ hc)))
@[simp] theorem canon_deferAll (r : Req) (c : Nat) (hc : Canon s) : Canon (s.deferAll r c) := by
  simp only [State.deferAll]
  split
  · exact canon_failStore _ _ _ _ hc
  · refine canon_ite ?_ ?_
    · exact canon_ite (canon_failStore _ _ _ _ hc) hc
    · refine canon_ite ?_ ?_
      · exact canon_escalate _ _ _ _ _ _ (canon_ite (canon_failStore _ _ _ _ hc) hc)
      · refine canon_foldl _ ?_ ?_
        · intro t x ht
          split
          · exact canon_defer _ _ _ _ _ ht
          · exact ht
        · exact canon_ite (canon_failStore _ _ _ _ hc) hc
@[simp] theorem canon_pageGo (u : PageUser) (hc : Canon s) : Canon (s.pageGo u) := by
  simp only [State.pageGo]
  split
  · exact hc
  · split
    · exact canon_onLanes _ _ _ _ hc
    · exact hc
@[simp] theorem canon_pageTrap (u : PageUser) (hc : Canon s) : Canon (s.pageTrap u) := by
  simp only [State.pageTrap]
  split
  · exact hc
  · split
    · exact hc
    · exact canon_ite (canon_escalate _ _ _ _ _ _ hc) (canon_takeTrap _ _ _ _ hc)
@[simp] theorem canon_pageTraps (us : List PageUser) (hc : Canon s) : Canon (s.pageTraps us) := by
  simp only [State.pageTraps]
  exact canon_foldl _ (fun t x ht => canon_fresh (canon_foldl _ (fun u y hu => canon_pageTrap _ hu) ht)) hc
@[simp] theorem canon_endPage (p : Page) (ok : Bool) (hc : Canon s) : Canon (s.endPage p ok) := by
  simp only [State.endPage]
  exact canon_ite (canon_foldl _ (fun t x ht => canon_pageGo _ ht) (canon_frame hc)) (canon_pageTraps _ (canon_frame hc))
@[simp] theorem canon_flushDrop (g : Nat) (f : Flush) (hc : Canon s) : Canon (s.flushDrop g f) := by
  simp only [State.flushDrop]
  exact canon_sweepShelf (canon_onGrp _ _ (canon_frame hc))

/-! ### Copies (R192 to R200) -/

@[simp] theorem canon_issueCopy (w : Warp) (tok : Nat) (k : CopyK) (hc : Canon s) : Canon (s.issueCopy w tok k) := by
  simp only [State.issueCopy]
  exact canon_advance _ _ (canon_onWarp _ _ (canon_frame (canon_fresh hc)))
@[simp] theorem canon_trapWhole (w : Warp) (act : Mask) (e : DescErr) (hc : Canon s) : Canon (s.trapWhole w act e) := by simp [State.trapWhole, hc]

@[simp] theorem canon_engineMet (o : Origin) (scratch : Bool) (va : Nat) (hc : Canon s) : Canon (s.engineMet o scratch va) := by simp [State.engineMet, hc]

theorem canon_writeSide (o : Origin) (msg : Bool) (a : Nat) (b : List Byte) (hc : Canon s) : ∀ t', s.writeSide o msg a b = .ok t' → Canon t' := by
  grind [State.writeSide, canon_onBlock, canon_writeTgt]

@[simp] theorem canon_chargeSectors (o : Origin) (l : List Nat) (hc : Canon s) : Canon (s.chargeSectors o l) := by
  unfold State.chargeSectors
  refine canon_foldl _ (fun t x ht => ?_) hc
  split <;> simp [ht]

@[simp] theorem canon_engineMiss (o : Origin) (va : Nat) (acc : Acc) (hc : Canon s) : Canon (s.engineMiss o va acc).1 := by
  simp only [State.engineMiss]
  split
  · dsimp only
    exact canon_frame hc
  · split
    · exact hc
    · dsimp only
      exact canon_wantPage _ _ _ _ _ hc
@[simp] theorem canon_dropToken (warp tok : Nat) (hc : Canon s) : Canon (s.dropToken warp tok) := by
  simp only [State.dropToken]
  split
  · exact canon_ite (canon_passLanes _ _ (canon_onWarp _ _ hc)) (canon_onWarp _ _ hc)
  · exact canon_onWarp _ _ hc
@[simp] theorem canon_dropLines (o : Origin) (ls : List Nat) (hc : Canon s) : Canon (s.dropLines o ls) := by
  simp only [State.dropLines]
  refine canon_foldl _ ?_ ?_
  · intro t x ht
    refine canon_ite ?_ ?_
    · exact ht
    · split
      · exact canon_l1drop _ _ _ ht
      · exact ht
  · exact hc

/-! ### Fences, ordered reductions and work queues (R254 to R269) -/

@[simp] theorem canon_acquire (core : Nat) (sc : Scope) (hc : Canon s) : Canon (s.acquire core sc) := by
  unfold State.acquire
  split <;> simp [hc]

@[simp] theorem canon_oweAcquire (w : Warp) (sc : Scope) (hc : Canon s) : Canon (s.oweAcquire w sc) := by
  unfold State.oweAcquire
  split <;> simp [hc]

@[simp] theorem canon_releaseAll (p : Warp → Bool) (k : Park) (sc : Scope) (hc : Canon s) : Canon (s.releaseAll p k sc) := by
  unfold State.releaseAll
  refine canon_foldl _ (fun t x ht => ?_) hc
  simp [ht]

@[simp] theorem canon_arrived (w : Warp) (act : Mask) (arv last : Bool) (k : Park) (hc : Canon s) : Canon (s.arrived w act arv last k) := by
  unfold State.arrived
  split <;> simp [hc]

@[simp] theorem canon_redoLane (w : Warp) (op : AtomOp) (m : MOp) (uni : Mask) (l : Nat) (hc : Canon s) : Canon (redoLane w op m uni l s).2 := by
  simp only [redoLane]
  split
  · exact hc
  · split
    next e =>
      dsimp only
      exact Canon.snd (canon_reach _ _ _ _ hc) e
    next e =>
      dsimp only
      exact Canon.snd (canon_reach _ _ _ _ hc) e
    next e =>
      split
      · split
        · dsimp only
          exact Canon.snd (canon_reach _ _ _ _ hc) e
        · dsimp only
          exact canon_send _ _ (Canon.snd (canon_reach _ _ _ _ hc) e)
      · split
        · dsimp only
          exact Canon.snd (canon_reach _ _ _ _ hc) e
        · dsimp only
          exact canon_send _ _ (Canon.snd (canon_reach _ _ _ _ hc) e)
@[simp] theorem canon_redoSkip (w : Warp) (t : TrapLane) (hc : Canon s) : Canon (s.redoSkip w t) := by
  simp only [State.redoSkip]
  split
  · exact canon_send _ _ hc
  · exact hc
@[simp] theorem canon_serveWindow (r : Req) (hc : Canon s) : Canon (s.serveWindow r).1 := by
  simp only [State.serveWindow]
  repeat' split
  all_goals simp +contextual [hc]

/-- What an entry of an ordered reduction does at its target (R264). -/
def redone (s : State) (r : Req) (e : OrderEntry) : State × ReqSt :=
  if e.void then (s, .served [] [])
  else match r.tgt with
  | .dev pa =>
    (match s.readDev pa e.n with
     | some b =>
       match (s.charge r.org pa e.n).writeLine pa (toBytes e.n (atomNew e.op e.n (ofBytes b) e.x 0)) r.org.group false with
       | some s => (s, .served [] [])
       | none => (s, .failed fABORT)
     | none => (s.detect pa (r.org.core / 8) (r.org.core % 8) r.org.group, .failed fABORT))
  | _ => s.serveWindow r

theorem canon_redone (r : Req) (e : OrderEntry) (hc : Canon s) : Canon (redone s r e).1 := by
  unfold redone
  split
  · exact hc
  · grind [canon_charge, canon_writeLine, canon_detect, canon_serveWindow]

theorem applyRedo_fst {r : Req} {e : OrderEntry} (h : r.k.entry = some e) : (s.applyRedo r).1 = match s.nextTicket r with
    | .ok n => ((redone s r e).1.writeVa r.org.group e.word (toBytes 8 ((n + 1) % 2 ^ 32)) .write).1
    | .error _ => (redone s r e).1 := by
  simp only [State.applyRedo, h]
  cases s.nextTicket r <;> rfl

@[simp] theorem canon_applyRedo (r : Req) (hc : Canon s) : Canon (s.applyRedo r).1 := by
  cases h : r.k.entry with
  | none => simpa only [State.applyRedo, h] using hc
  | some e =>
    rw [applyRedo_fst h]
    split
    · exact canon_writeVa _ _ _ _ (canon_redone r e hc)
    · exact canon_redone r e hc

@[simp] theorem canon_drainRedo (fuel : Nat) (r : Req) (hc : Canon s) : Canon (State.drainRedo fuel r s) := by
  induction fuel generalizing s with
  | zero => exact hc
  | succ fuel ih =>
    unfold State.drainRedo
    split
    · exact hc
    · split
      · exact hc
      next h _ => exact ih (canon_applyRedo h.req (s := { s with redos := s.redos.erase h }) hc)

@[simp] theorem canon_orderEntry (r : Req) (hc : Canon s) : Canon (s.orderEntry r) := by
  simp only [State.orderEntry]
  split
  · exact canon_ite (canon_drainRedo _ _ (canon_frame (canon_applyRedo _ hc))) (canon_ite (canon_frame hc) (canon_ite (canon_frame hc) (canon_frame
      hc)))
  · exact canon_ite (canon_ite (canon_frame (canon_engineMiss _ _ _ hc)) (canon_frame (canon_engineMiss _ _ _ hc))) (canon_frame (canon_ite
      (canon_detectVa _ _ _ _ hc) hc))
  · exact hc
@[simp] theorem canon_popEntry (q : Nat) (hc : Canon s) : Canon (s.popEntry q).2 := by
  simp only [State.popEntry]
  refine canon_onWq _ _ ?_
  split
  · exact hc
  · exact canon_drawNat _ (canon_engineErr _ _ hc)
@[simp] theorem canon_popDone (w : Warp) (l : Nat) (d : Fld) (p : Nat) (v : Word64) (hc : Canon s) : Canon (s.popDone w l d p v) := by simp [State.popDone, hc]

@[simp] theorem canon_servePops (fuel q : Nat) (hc : Canon s) : Canon (State.servePops fuel q s) := by
  induction fuel generalizing s with
  | zero => exact hc
  | succ fuel ih =>
    unfold State.servePops
    split
    · exact hc
    · split
      · exact hc
      next x _ =>
        have taken : Canon { s with pops := s.pops.erase x } := hc
        grind [canon_popEntry, canon_popDone, canon_passLanes, canon_oweAcquire]

@[simp] theorem canon_push (q : Nat) (v : Word64) (hc : Canon s) : Canon (s.push q v) := by
  simp only [State.push]
  refine canon_servePops _ _ ?_
  refine canon_ite ?_ ?_
  · refine canon_onWq _ _ ?_
    split
    next e => exact Canon.fst (canon_writeVa _ _ _ _ hc) e
    next e => exact canon_engineErr _ _ (Canon.fst (canon_writeVa _ _ _ _ hc) e)
  · refine canon_notify _ _ ?_
    refine canon_onWq _ _ ?_
    split
    next e => exact Canon.fst (canon_writeVa _ _ _ _ hc) e
    next e => exact canon_engineErr _ _ (Canon.fst (canon_writeVa _ _ _ _ hc) e)
@[simp] theorem canon_queueTraps (w : Warp) (bad : List (Nat × Nat)) (hc : Canon s) : Canon (queueTraps w bad s) := by simp [queueTraps, hc]

/-! ### Tiles (R201 to R219) -/

@[simp] theorem canon_recLook (w : Warp) (a : Nat) (hc : Canon s) : Canon (s.recLook w a) := by
  simp only [State.recLook]
  refine canon_ite ?_ ?_
  · exact hc
  · refine canon_foldl _ ?_ ?_
    · intro t x ht
      refine canon_ite ?_ ?_
      · exact canon_draw ht
      · split
        · exact canon_onWarp _ _ (canon_draw ht)
        · exact canon_draw ht
    · exact hc
@[simp] theorem canon_recDrop (p : Warp → Bool) (hc : Canon s) : Canon (s.recDrop p) := hc

@[simp] theorem canon_globalRec (w : Warp) (a : Word64) (hc : Canon s) : Canon (s.globalRec w a).2 := by
  simp only [State.globalRec]
  split
  next e =>
    dsimp only
    exact Canon.snd (canon_reach _ _ _ _ hc) e
  next e =>
    dsimp only
    exact Canon.snd (canon_reach _ _ _ _ hc) e
  next e =>
    split
    · split
      · dsimp only
        split
        · exact canon_ite (canon_detect _ _ _ _ (Canon.snd (canon_reach _ _ _ _ hc) e)) (Canon.snd (canon_reach _ _ _ _ hc) e)
        · exact Canon.snd (canon_reach _ _ _ _ hc) e
      · dsimp only
        split
        · exact canon_onCluster _ _ (canon_charge _ _ _ (Canon.snd (canon_reach _ _ _ _ hc) e))
        · exact Canon.snd (canon_reach _ _ _ _ hc) e
    · split
      · dsimp only
        exact canon_draw (Canon.snd (canon_reach _ _ _ _ hc) e)
      · split
        · dsimp only
          split
          · exact canon_ite (canon_detect _ _ _ _ (canon_onCluster _ _ (canon_draw (Canon.snd (canon_reach _ _ _ _ hc) e)))) (canon_onCluster _ _
              (canon_draw (Canon.snd (canon_reach _ _ _ _ hc) e)))
          · exact canon_onCluster _ _ (canon_draw (Canon.snd (canon_reach _ _ _ _ hc) e))
        · dsimp only
          split
          · exact canon_onCluster _ _ (canon_charge _ _ _ (canon_onCluster _ _ (canon_draw (Canon.snd (canon_reach _ _ _ _ hc) e))))
          · exact canon_onCluster _ _ (canon_draw (Canon.snd (canon_reach _ _ _ _ hc) e))
@[simp] theorem canon_readRec (w : Warp) (a : Word64) (hc : Canon s) : Canon (s.readRec w a).2 := by
  simp only [State.readRec]
  split
  · exact hc
  · split
    next e =>
      dsimp only
      exact Canon.snd (canon_globalRec _ _ hc) e
    · exact canon_globalRec _ _ hc
@[simp] theorem canon_readRecS (w : Warp) (a : Nat) (hc : Canon s) : Canon (s.readRecS w a).2 := by
  simp only [State.readRecS]
  split
  · exact hc
  · split
    · exact hc
    · split
      · dsimp only
        exact canon_scratchErr _ _ hc
      · split
        · exact hc
        · split
          · exact hc
          · exact hc
@[simp] theorem canon_pageWhole (w : Warp) (act : Mask) (va : Nat) (hc : Canon s) : Canon (s.pageWhole w act va) := by
  simp only [State.pageWhole]
  exact canon_foldl _ (fun t x ht => canon_wantPage _ _ _ _ _ ht) (canon_advance _ _ (canon_parkHere _ _ _ hc))
@[simp] theorem canon_onEntry (cg n : Nat) (f : Entry → Entry) (hc : Canon s) : Canon (s.onEntry cg n f) := by simp [State.onEntry, hc]

@[simp] theorem canon_beginDef (cg n : Nat) (trec : List Byte) (scratch : Bool) (org : Origin) (hc : Canon s) : Canon (s.beginDef cg n trec scratch org) := by
  simp only [State.beginDef]
  exact canon_frame (canon_onCGroup _ _ (canon_onEntry _ _ _ hc))
@[simp] theorem canon_trapParked (wi : Nat) (m : Mask) (cls cause addr : Nat) (word : Word64) (hc : Canon s) : Canon (s.trapParked wi m cls cause addr word) := by
  unfold State.trapParked
  split <;> simp [hc]

@[simp] theorem canon_passParked (wi : Nat) (m : Mask) (hc : Canon s) : Canon (s.passParked wi m) := by
  unfold State.passParked
  split <;> simp [hc]

@[simp] theorem canon_serveHeads (fuel cg : Nat) (hc : Canon s) : Canon (State.serveHeads fuel cg s) := by
  induction fuel generalizing s with
  | zero => exact hc
  | succ fuel ih =>
    unfold State.serveHeads
    split
    · exact hc
    · split
      · grind [canon_onCGroup, canon_beginDef, canon_put, canon_passParked]
      · exact hc

@[simp] theorem canon_serveDefiners (cg n : Nat) (l : List Waiter) (hc : Canon s) : Canon (s.serveDefiners cg n l) := by
  simp only [State.serveDefiners]
  split
  · exact hc
  · split
    · exact canon_foldl _ (fun t x ht => canon_trapParked _ _ _ _ _ _ ht) (canon_passParked _ _ (canon_beginDef _ _ _ _ _ hc))
    · exact hc
@[simp] theorem canon_freeName (cg n : Nat) (hc : Canon s) : Canon (s.freeName cg n) := by
  simp only [State.freeName]
  exact canon_serveHeads _ _ (canon_serveDefiners _ _ _ (canon_onCGroup _ _ (canon_onEntry _ _ _ hc)))
@[simp] theorem canon_killName (cg n : Nat) (hc : Canon s) : Canon (s.killName cg n) := by
  unfold State.killName
  split <;> simp [hc]

@[simp] theorem canon_endReader (r : Reader) (hc : Canon s) : Canon (s.endReader r) := by
  simp only [State.endReader]
  exact canon_ite (canon_freeName _ _ (canon_frame hc)) (canon_frame hc)
@[simp] theorem canon_matReady (cg n m : Nat) (faulted : Bool) (hc : Canon s) : Canon (s.matReady cg n m faulted) := by
  simp only [State.matReady]
  split
  · exact canon_ite (canon_frame hc) (canon_frame hc)
  · exact canon_frame hc
@[simp] theorem canon_serveReader (cg n : Nat) (x : Waiter) (hc : Canon s) : Canon (s.serveReader cg n x) := by
  simp only [State.serveReader]
  split
  · exact canon_matReady _ _ _ _ hc
  · exact hc
  · exact canon_ite (canon_trapParked _ _ _ _ _ _ hc) (canon_passParked _ _ (canon_frame hc))
  · exact canon_ite (canon_trapParked _ _ _ _ _ _ hc) (canon_passParked _ _ (canon_frame hc))
  · exact canon_ite (canon_trapParked _ _ _ _ _ _ hc) (canon_ite (canon_trapParked _ _ _ _ _ _ hc) (canon_passParked _ _ (canon_onWarp _ _
      (canon_frame (canon_fresh hc)))))
@[simp] theorem canon_offerReader (w : Warp) (cg n : Nat) (ask : TileAsk) (m : Mask) (org : Origin) (hc : Canon s) : Canon (s.offerReader w cg n ask m org) := by
  simp only [State.offerReader]
  split
  · exact canon_serveReader _ _ _ hc
  · exact canon_count _ _ _ (canon_onEntry _ _ _ hc)
  · exact canon_count _ _ _ (canon_onEntry _ _ _ hc)
  · exact canon_count _ _ _ (canon_onEntry _ _ _ hc)
@[simp] theorem canon_landDef (cg n gen : Nat) (img : Sparse Byte) (faulted : Bool) (hc : Canon s) : Canon (s.landDef cg n gen img faulted) := by
  simp only [State.landDef]
  exact canon_ite (canon_ite (canon_killName _ _ (canon_foldl _ (fun t x ht => canon_serveReader _ _ _ ht) (canon_onEntry _ _ _ hc))) (canon_foldl _
    (fun u y hu => canon_serveReader _ _ _ hu) (canon_onEntry _ _ _ hc))) hc
@[simp] theorem canon_offerDef (w : Warp) (act : Mask) (g : CGroup) (n : Nat) (t : List Byte) (scratch : Bool) (hc : Canon s) :
    Canon (s.offerDef w act g n t scratch) := by
  simp only [State.offerDef]
  split
  · exact canon_advance _ _ (canon_beginDef _ _ _ _ _ hc)
  · exact canon_trapWhole _ _ _ hc
  · exact canon_trapWhole _ _ _ hc
  · exact canon_advance _ _ (canon_parkHere _ _ _ (canon_onEntry _ _ _ hc))
@[simp] theorem canon_tileRead (w : Warp) (act : Mask) (t : BitVec 10) (aux : Fld) (bad : Nat → Option (Nat × Nat)) (ask : List (Nat × Nat) → TileAsk) (hc :
    Canon s) : Canon (tileRead w act t aux bad ask s) := by
  simp only [tileRead]
  split
  · exact canon_trapWhole _ _ _ hc
  · exact canon_ite (canon_advance _ _ (canon_foldl _ (fun u x hu => canon_takeTrap _ _ _ _ hu) hc)) (canon_offerReader _ _ _ _ _ _ (canon_parkHere _
      _ _ (canon_advance _ _ (canon_foldl _ (fun v y hv => canon_takeTrap _ _ _ _ hv) hc))))
@[simp] theorem canon_refused (as : List Nat) (hc : Canon s) : Canon (s.refused as).2 := by simp [State.refused, hc]

@[simp] theorem canon_loseDef (n : Nat) (d : Def) (e : VaErr) (hc : Canon s) : Canon (s.loseDef n d e) := by
  simp only [State.loseDef]
  exact canon_landDef _ _ _ _ _ (canon_failStore _ _ _ _ (canon_frame hc))
@[simp] theorem canon_endDef (n : Nat) (d : Def) (r : Except VaErr (Sparse Byte)) (hc : Canon s) : Canon (s.endDef n d r) := by
  simp only [State.endDef]
  split
  · exact canon_landDef _ _ _ _ _ (canon_frame hc)
  · exact canon_loseDef _ _ _ (canon_ite (canon_engineMet _ _ _ hc) hc)
@[simp] theorem canon_Def_charge (d : Def) (ps : List (Nat × Nat)) (hc : Canon s) : Canon (Def.charge d ps s) := by simp [Def.charge, hc]

@[simp] theorem canon_sealDefs (r : Req) (hc : Canon s) : Canon (s.sealDefs r) := by
  simp only [State.sealDefs]
  split
  · exact canon_ite (canon_frame hc) hc
  · exact hc

/-! ### The copy engine -/

theorem canon_putWord (c : Copy) (msg : Bool) (x : CWord) (b : List Byte) (hc : Canon s) : ∀ t', s.putWord c msg x b = .ok t' → Canon t' := by
  grind [State.putWord, canon_writeSide]

theorem canon_moveWord (c : Copy) (msg : Bool) (x : CWord) (hc : Canon s) : ∀ t', s.moveWord c msg x = .ok t' → Canon t' := by
  grind [State.moveWord, canon_putWord]

theorem canon_moveWhole (c : Copy) (line : Nat) (l : List CWord) (hc : Canon s) : ∀ t', s.moveWhole c line l = .ok t' → Canon t' := by
  grind [State.moveWhole, canon_writeSide]

theorem canon_endWord (c : Copy) (msg : Bool) (x : CWord) (hc : Canon s) : ∀ t', s.endWord c msg x = .ok t' → Canon t'.1 := by
  grind [State.endWord, canon_moveWhole, canon_moveWord]

@[simp] theorem canon_touchEntry {q : State × Copy} (i : Nat) (hc : Canon q.1) : Canon (State.touchEntry q i).1 := by
  simp only [State.touchEntry]
  split
  · split
    · dsimp only
      exact canon_draw hc
    · dsimp only
      exact canon_draw hc
  · dsimp only
    exact canon_draw hc
@[simp] theorem canon_touchWord {q : State × Copy} (x : CWord) (hc : Canon q.1) : Canon (State.touchWord q x).1 := by
  grind [State.touchWord, canon_draw, canon_moveWord]

@[simp] theorem canon_startCopy (c : Copy) (hc : Canon s) : Canon (s.startCopy c).1 := by
  have looked := List.foldlRecOn (motive := fun q : State × Copy => Canon q.1) c.blocks State.touchEntry (b := (s, c)) hc
    fun q hq i _ => canon_touchEntry i hq
  simp only [State.startCopy]
  split
  · exact looked
  · exact List.foldlRecOn (motive := fun q : State × Copy => Canon q.1) _ _ looked fun q hq x _ => canon_touchWord x hq

@[simp] theorem canon_runCopy (c : Copy) (hc : Canon s) : Canon (s.runCopy c).1 := by
  refine List.foldlRecOn (motive := fun q : State × Copy × Option VaErr => Canon q.1) _ _ hc fun q hq x _ => ?_
  split
  · exact hq
  · split
    next u e => exact canon_endWord _ _ _ hq _ e
    · exact hq

@[simp] theorem canon_payCopy (c c' : Copy) (hc : Canon s) : Canon (s.payCopy c c') := by simp [State.payCopy, hc]

@[simp] theorem canon_endCopy (n : Nat) (c : Copy) (hc : Canon s) : Canon (s.endCopy n c) := by
  simp only [State.endCopy]
  exact canon_dropToken _ _ (canon_frame hc)
@[simp] theorem canon_loseCopy (n : Nat) (c : Copy) (cause va : Nat) (hc : Canon s) : Canon (s.loseCopy n c cause va) := by
  grind [State.loseCopy, canon_endCopy, canon_failStore, canon_dropLines]

@[simp] theorem canon_failCopy (n : Nat) (c : Copy) (cause va : Nat) (hc : Canon s) : Canon (s.failCopy n c cause va) := by
  unfold State.failCopy
  split <;> simp [hc]

@[simp] theorem canon_copyMiss (n : Nat) (c : Copy) (va : Nat) (hc : Canon s) : Canon (s.copyMiss n c va) := by
  simp only [State.copyMiss]
  repeat' split
  all_goals simp +contextual [hc]

/-! ### Matrix operations and adapters (R223 to R245) -/

@[simp] theorem canon_startFill (o : Origin) (adtb : Nat) (t : Tag3) (op : Option Nat) (hc : Canon s) : Canon (s.startFill o adtb t op) := by
  simp only [State.startFill]
  exact canon_ite hc (canon_frame hc)
@[simp] theorem canon_useShelf (c : Nat) (e : Shelf) (hc : Canon s) : Canon (s.useShelf c e) := by simp [State.useShelf, hc]

@[simp] theorem canon_evictShelf (c : Nat) (e : Shelf) (hc : Canon s) : Canon (s.evictShelf c e) := by simp [State.evictShelf, hc]

@[simp] theorem canon_seek (m : Mat) (t : Tag3) (hc : Canon s) : Canon (s.seek m t).1 := by
  simp only [State.seek]
  split
  · exact hc
  · split
    · dsimp only
      exact canon_startFill _ _ _ _ hc
    · split
      · dsimp only
        exact canon_useShelf _ _ (canon_draw hc)
      · dsimp only
        exact canon_startFill _ _ _ _ (canon_evictShelf _ _ (canon_draw hc))
@[simp] theorem canon_seekAll (m : Mat) (ts : List Tag3) (hc : Canon s) : Canon (s.seekAll m ts).1 :=
  List.foldlRecOn (motive := fun q : State × Mat => Canon q.1) _ _ hc fun _ hq t _ => canon_seek _ t hq

@[simp] theorem canon_putMat (m : Mat) (hc : Canon s) : Canon (s.putMat m) := hc

@[simp] theorem canon_examine (m : Mat) (hc : Canon s) : Canon (s.examine m).1 := by
  simp only [State.examine]
  split
  · exact canon_putMat _ hc
  · refine canon_putMat _ (List.foldlRecOn (motive := fun q : State × Mat => Canon q.1) _ _ hc fun q hq i _ => ?_)
    have fold := @canon_foldl
    grind [canon_startFill, canon_seekAll]

@[simp] theorem canon_dropMat (m : Mat) (hc : Canon s) : Canon (s.dropMat m) := by
  simp only [State.dropMat]
  exact canon_foldl _ (fun t x ht => canon_endReader _ ht) (canon_frame hc)
@[simp] theorem canon_trapMat (m : Mat) (cause : Nat) (hc : Canon s) : Canon (s.trapMat m cause) := by
  simp only [State.trapMat]
  split
  · exact canon_dropMat _ hc
  · exact canon_dropMat _ (canon_passParked _ _ (canon_trapParked _ _ _ _ _ _ hc))
@[simp] theorem canon_begin (m : Mat) (hc : Canon s) : Canon (s.begin m).1 := by
  simp only [State.begin]
  split
  · exact hc
  · dsimp only
    exact canon_putMat _ (canon_onCore _ _ hc)
@[simp] theorem canon_commit (m : Mat) (hc : Canon s) : Canon (s.commit m) := by
  simp only [State.commit]
  exact canon_onCore _ _ (canon_sweepShelf (canon_dropMat _ (canon_count _ _ _ (canon_onBlock _ _ hc))))
@[simp] theorem canon_Fill_pay (f : Fill) {s0 : State} (va : Nat) (hc : Canon s) : Canon (Fill.pay f s0 va s) := by simp [Fill.pay, hc]

@[simp] theorem canon_fitShelf (c k : Nat) (hc : Canon s) : Canon (s.fitShelf c k) := by
  induction k generalizing s with
  | zero => exact hc
  | succ k ih =>
    simp only [State.fitShelf]
    split
    · exact hc
    · split
      · exact hc
      · exact ih (canon_onCluster _ _ hc)

@[simp] theorem canon_fillMiss (f : Fill) (va : Nat) (hc : Canon s) : Canon (s.fillMiss f va).1 := by simp [State.fillMiss, hc]

@[simp] theorem canon_fillLand (n : Nat) (f : Fill) (t d : List Byte) (hc : Canon s) : Canon (s.fillLand n f t d) := by
  simp only [State.fillLand]
  exact canon_fitShelf _ _ (canon_onCluster _ _ (canon_frame hc))
@[simp] theorem canon_loseFill (n : Nat) (f : Fill) (cause va : Nat) (hc : Canon s) : Canon (s.loseFill n f cause va) := by
  simp only [State.loseFill]
  exact canon_ite (canon_frame hc) (canon_failStore _ _ _ _ (canon_frame hc))
@[simp] theorem canon_fillFail (n : Nat) (f : Fill) (cause va : Nat) (hc : Canon s) : Canon (s.fillFail n f cause va) := by
  unfold State.fillFail
  split <;> simp [hc]

@[simp] theorem canon_arowLanes (w : Warp) (act : Mask) (aux : Fld) (f : List (Nat × Nat) → State → State) (hf : ∀ x t, Canon t → Canon (f x t)) (hc :
    Canon s) : Canon (arowLanes w act aux f s) := by
  grind [arowLanes, canon_takeTrap, canon_advance]

@[simp] theorem canon_adpf (w : Warp) (aux : Fld) (tag : Nat → Tag3) (hc : Canon s) : Canon (adpf w aux tag s) := by
  simp only [adpf]
  exact canon_advance _ _ (canon_foldl _ (fun t x ht => canon_ite ht (canon_startFill _ _ _ _ ht)) hc)
@[simp] theorem canon_invShelf (p : Nat → Bool) (hc : Canon s) : Canon (s.invShelf p) := by
  simp only [State.invShelf]
  exact canon_sweepShelf (canon_frame hc)
@[simp] theorem canon_newMat (w : Warp) (k : MatK) (cg : Nat) (tiles : List Nat) (hc : Canon s) : Canon (s.newMat w k cg tiles) := by
  simp only [State.newMat]
  exact canon_foldl _ (fun t x ht => canon_offerReader _ _ _ _ _ _ ht) (canon_parkHere _ _ _ (canon_frame (canon_fresh hc)))
@[simp] theorem canon_mmBody (ta tb : BitVec 10) (k : State → Warp → MatK) (w : Warp) (act : Mask) (hc : Canon s) : Canon (mmBody ta tb k w act s) := by
  simp only [mmBody]
  split
  · exact canon_newMat _ _ _ _ hc
  · exact canon_trapWhole _ _ _ hc
@[simp] theorem canon_mmaIssue (c : Common) (k : MMKind) (acc : BitVec 6) (ta tb : BitVec 10) (cv : BitVec 3) (hc : Canon s) :
    Canon (mmaIssue c k acc ta tb cv s) := by
  simp +contextual [mmaIssue, hc]

@[simp] theorem canon_mmalrIssue (c : Common) (k : MMKind) (acc : BitVec 6) (ta tb : BitVec 10) (aux : Fld) (cv : BitVec 3) (hc : Canon s) :
    Canon (mmalrIssue c k acc ta tb aux cv s) := by
  simp +contextual [mmalrIssue, hc]

@[simp] theorem canon_adaptIssue (c : Common) (acc sacc : BitVec 6) (cb : BitVec 10) (cv : BitVec 3) (hc : Canon s) : Canon (adaptIssue c acc sacc cb cv s) := by
  simp only [adaptIssue]
  exact canon_performWith _ _ _ (fun x y t ht => canon_newMat _ _ _ _ ht) hc

/-! ### Convergence and transfers (R107 to R117) -/

@[simp] theorem canon_releaseAt (wi c : Nat) (p : Nat × Nat) (hc : Canon s) : Canon (s.releaseAt wi c p) := by
  simp only [State.releaseAt]
  split
  · exact hc
  · exact canon_onLanes _ _ _ _ (canon_ite (canon_passLanes _ _ hc) hc)
@[simp] theorem canon_converge (wi c : Nat) (hc : Canon s) : Canon (s.converge wi c) := by
  simp only [State.converge]
  split
  · exact hc
  · exact canon_ite (canon_foldl _ (fun t x ht => canon_releaseAt _ _ _ ht) (canon_onWarp _ _ hc)) hc
@[simp] theorem canon_convergeAll (wi : Nat) (hc : Canon s) : Canon (s.convergeAll wi) := by
  unfold State.convergeAll
  refine canon_foldl _ (fun t x ht => ?_) hc
  simp [ht]

@[simp] theorem canon_cdeclWith (d : Fld) (mask : Warp → Mask → State → Mask) (w : Warp) (act : Mask) (hc : Canon s) : Canon (cdeclWith d mask w act s) := by
  simp only [cdeclWith]
  exact canon_ite (canon_trapAll _ _ _ _ _ _ hc) (canon_converge _ _ (canon_advance _ _ (canon_onWarp _ _ hc)))
@[simp] theorem canon_sign (w : Warp) (c : Nat) (m : Mask) (hc : Canon s) : Canon (s.sign w c m) := by simp [State.sign, hc]

@[simp] theorem canon_arrive (w : Warp) (c : Nat) (act : Mask) (bad : Mask → State → State) (hc : Canon s) (hf : ∀ x t, Canon t → Canon (bad x t)) :
    Canon (s.arrive w c act bad) := by
  grind [State.arrive, canon_parkHere, canon_sign, canon_converge, canon_advance]

@[simp] theorem canon_arriveSync (i : Instr) (c : Nat) (hc : Canon s) : Canon (s.arriveSync i c) := by
  simp only [State.arriveSync]
  split
  · exact hc
  · exact canon_ite (canon_advance _ _ (canon_trapAll _ _ _ _ _ _ (canon_ite hc (canon_lookEarly _ _ hc)))) (canon_arrive _ _ _ _ (canon_ite hc
      (canon_lookEarly _ _ hc)) (fun x t ht => canon_trapAll _ _ _ _ _ _ ht))
@[simp] theorem canon_goTo (w : Warp) (m : Mask) (t : Nat) (hc : Canon s) : Canon (s.goTo w m t) := by simp [State.goTo, hc]

@[simp] theorem canon_jumpLanes (a : Fld) (p : Perm) (w : Warp) (act : Mask) (hc : Canon s) : Canon (jumpLanes a p w act s) := by
  simp only [jumpLanes]
  exact canon_advance _ _ (canon_trapAll _ _ _ _ _ _ (canon_foldl _ (fun t x ht => canon_goTo _ _ _ ht) hc))
@[simp] theorem canon_exited (wi : Nat) (hc : Canon s) : Canon (s.exited wi) := by
  unfold State.exited
  split <;> simp [hc]

@[simp] theorem canon_onPace (w : Warp) (hnd : Bool) (f : Pace → Pace) (hc : Canon s) : Canon (s.onPace w hnd f) := by simp [State.onPace, hc]

/-! ### Integer results and MOVX (R141 to R144) -/

@[simp] theorem canon_int3 (i : Instr) (r : R3) (f : Word → Word → Word) (hc : Canon s) : CanonOut (int3 i r f s) := canon_vop1 _ _ _ hc

@[simp] theorem canon_int2 (i : Instr) (r : R2) (f : Word → Word) (hc : Canon s) : CanonOut (int2 i r f s) := canon_vop1 _ _ _ hc

@[simp] theorem canon_movxHold (w : Warp) (hc : Canon s) : Canon (s.movxHold w) := by simp [State.movxHold, hc]

@[simp] theorem canon_movxLanes (w : Warp) (act : Mask) (reg : Nat → Nat) (f : List Nat → State → State) (hf : ∀ x t, Canon t → Canon (f x t)) (hc :
    Canon s) : Canon (movxLanes w act reg f s) := by
  grind [movxLanes, canon_advance, canon_trapAll]

/-! ### What holds an issue back -/

@[simp] theorem canon_payAcquire (w : Warp) (hc : Canon s) : Canon (s.payAcquire w) := by
  unfold State.payAcquire
  split <;> simp [hc]

/-! ### Issue slots (R103 to R105) -/

@[simp] theorem canon_demand (core group line : Nat) (hc : Canon s) : Canon (s.demand core group line) := by
  simp only [State.demand]
  exact canon_ite hc (canon_frame hc)
@[simp] theorem canon_fetchTrap (i : Issuer) (m : Mask) (cls cause addr : Nat) (word : Word64) (hc : Canon s) : Canon (s.fetchTrap i m cls cause addr word) := by
  simp only [State.fetchTrap]
  exact canon_ite (canon_escalate _ _ _ _ _ _ hc) (canon_fresh (canon_takeTrap _ _ _ _ hc))
@[simp] theorem canon_headerTest (i : Issuer) (hc : Canon s) : Canon (s.headerTest i) := by
  simp only [State.headerTest]
  refine canon_ite ?_ ?_
  · exact hc
  · split
    · exact hc
    · refine canon_ite ?_ ?_
      · exact canon_fetchTrap _ _ _ _ _ _ hc
      · split
        · exact canon_demand _ _ _ hc
        · exact canon_ite (canon_fetchTrap _ _ _ _ _ _ hc) (canon_ite hc (canon_ite (canon_fetchTrap _ _ _ _ _ _ hc) (canon_ite (canon_onLanes _ _ _
            _ hc) hc)))
@[simp] theorem canon_wordFetch (i : Issuer) (hc : Canon s) : Canon (s.wordFetch i) := by
  simp only [State.wordFetch]
  refine canon_ite ?_ ?_
  · exact hc
  · split
    · exact hc
    · exact canon_ite hc (canon_ite (canon_demand _ _ _ hc) hc)
@[simp] theorem canon_recFetch (i : Issuer) (hc : Canon s) : Canon (s.recFetch i) := by
  simp only [State.recFetch]
  split
  · split
    · exact canon_ite hc (canon_recLook _ _ hc)
    · exact canon_ite hc (canon_recLook _ _ hc)
    · exact canon_ite hc (canon_recLook _ _ hc)
    · exact hc
  · exact hc
@[simp] theorem canon_pace (i : Issuer) (f : Pace → Pace) (hc : Canon s) : Canon (s.pace i f) := by simp [State.pace, hc]

@[simp] theorem canon_lookGuard (o : Offer) (hc : Canon s) : Canon (s.lookGuard o) := by simp [State.lookGuard, hc]

@[simp] theorem canon_encTrap (o : Offer) (m : Mask) (hc : Canon s) : Canon (s.encTrap o m) := by
  simp only [State.encTrap]
  split
  · exact hc
  · exact canon_trapAll _ _ _ _ _ _ hc
  · exact canon_trapAll _ _ _ _ _ _ hc
  · exact canon_advance _ _ (canon_trapAll _ _ _ _ _ _ hc)
@[simp] theorem canon_badWord (o : Offer) (hc : Canon s) : Canon (s.badWord o) := by
  simp only [State.badWord]
  repeat' split
  all_goals simp +contextual [hc]

@[simp] theorem canon_remember {s0 : State} (i : Issue) (hc : Canon s) : Canon (s0.remember i s) := by simp [State.remember, hc]

@[simp] theorem canon_finishIssue {s0 : State} (hc : Canon s) : Canon (s.finishIssue s0) := by
  simp only [State.finishIssue]
  split
  · exact canon_frame hc
  · exact canon_ite (canon_frame hc) (canon_frame (canon_remember _ (canon_onWarp _ _ (canon_onPace _ _ _ hc))))
@[simp] theorem canon_counts (o : Offer) (q : Nat) (hc : Canon s) : Canon (s.counts o q) := by
  simp only [State.counts]
  exact canon_onQuad _ _ (canon_pace _ _ (canon_count _ _ _ (canon_count _ _ _ (canon_ite (canon_onBank _ _ (canon_onLanes _ _ _ _ hc)) (canon_onWarp
    _ _ (canon_onLanes _ _ _ _ hc))))))
@[simp] theorem canon_take (o : Offer) (q now : Nat) (hc : Canon s) : Canon (s.take o q now) := by
  simp only [State.take]
  split
  · exact canon_frame (canon_ite hc (canon_counts _ _ hc))
  · exact canon_finishIssue (canon_badWord _ (canon_lookGuard _ (canon_frame (canon_ite hc (canon_counts _ _ hc)))))
  · exact canon_finishIssue (canon_badWord _ (canon_frame (canon_ite hc (canon_counts _ _ hc))))
@[simp] theorem canon_countMissed (q now blk : Nat) (hc : Canon s) : Canon (s.countMissed q now blk) := by
  simp only [State.countMissed]
  exact canon_onBlock _ _ hc
@[simp] theorem canon_noteReady (is : List Issuer) (offers : List Offer) (now : Nat) (hc : Canon s) : Canon (s.noteReady is offers now) := by
  simp only [State.noteReady]
  exact canon_foldl _ (fun t x ht => canon_pace _ _ ht) hc
@[simp] theorem canon_slot (q now b : Nat) (is : List Issuer) (offers : List Offer) (hc : Canon s) : Canon (s.slot q now b is offers) := by
  simp only [State.slot]
  split
  · exact canon_foldl _ (fun t y ht => canon_pace _ _ ht) (canon_foldl _ (fun u z hu => canon_pace _ _ hu) (canon_onQuad _ _ hc))
  · exact canon_take _ _ _ (canon_foldl _ (fun t x ht => canon_pace _ _ ht) (canon_foldl _ (fun u y hu => canon_pace _ _ hu) (canon_onQuad _ _ hc)))
@[simp] theorem canon_icFill (f : Fetch) (ws : List Word64) (hc : Canon s) : Canon (s.icFill f ws) := by
  simp only [State.icFill]
  refine canon_onCore _ _ ?_
  split
  · exact hc
  · dsimp only
    exact canon_drawNat _ hc
@[simp] theorem canon_prefetch (f : Fetch) (hc : Canon s) : Canon (s.prefetch f) := by
  simp only [State.prefetch]
  exact canon_foldl _ (fun t x ht => canon_ite ht (canon_frame ht)) hc
@[simp] theorem canon_fetchFail (f : Fetch) (cls cause : Nat) (hc : Canon s) : Canon (s.fetchFail f cls cause) := by
  simp only [State.fetchFail]
  exact canon_foldl _ (fun t x ht => canon_ite ht (canon_ite (canon_fetchTrap _ _ _ _ _ _ ht) (canon_fresh (canon_takeTrap _ _ _ _ (canon_drawNat _
    ht))))) hc
@[simp] theorem canon_fetchPage (f : Fetch) (hc : Canon s) : Canon (s.fetchPage f) := by
  simp only [State.fetchPage]
  exact canon_foldl _ (fun t x ht => canon_foldl _ (fun u y hu => canon_wantPage _ _ _ _ _ (canon_onLanes _ _ _ _ hu)) ht) hc
@[simp] theorem canon_chargeFetch (f : Fetch) (pa : Nat) (hc : Canon s) : Canon (s.chargeFetch f pa) := by simp +contextual [State.chargeFetch, hc]

@[simp] theorem canon_fillFrom (f : Fetch) (t : Tgt) (hc : Canon s) : Canon (s.fillFrom f t) := by
  simp only [State.fillFrom]
  split
  · refine canon_prefetch _ ?_
    refine canon_icFill _ _ ?_
    split
    · exact canon_chargeFetch _ _ hc
    · exact hc
  · refine canon_ite ?_ ?_
    · split
      · exact canon_ite hc (canon_detect _ _ _ _ hc)
      · exact hc
    · refine canon_fetchFail _ _ _ ?_
      split
      · exact canon_ite hc (canon_detect _ _ _ _ hc)
      · exact hc

/-! ### System instructions (R286 to R306) -/

@[simp] theorem canon_liveStop (gm : BitVec 10) (rs : List (Nat × Nat)) (w : Warp) (act : Mask) (hc : Canon s) : Canon (liveStop gm rs w act s) := by
  simp only [liveStop]
  exact canon_ite (canon_advance _ _ hc) (canon_onWarp _ _ (canon_onLanes _ _ _ _ (canon_advance _ _ hc)))
@[simp] theorem canon_sysw (n : Nat) (a : Fld) (w : Warp) (act : Mask) (hc : Canon s) : Canon (sysw n a w act s) := by
  simp only [sysw]
  split
  · exact canon_advance _ _ (canon_foldl _ (fun t y ht => canon_onLanes _ _ _ _ ht) hc)
  · exact canon_advance _ _ (canon_foldl _ (fun t x ht => canon_onLanes _ _ _ _ ht) hc)
  · exact canon_ite (canon_trapWhole _ _ _ hc) (canon_advance _ _ (canon_onCtx _ _ hc))
  · exact canon_ite (canon_trapWhole _ _ _ hc) (canon_advance _ _ (canon_onCtx _ _ hc))
  · exact canon_ite (canon_trapWhole _ _ _ hc) (canon_advance _ _ (canon_onCtx _ _ hc))
  · exact canon_ite (canon_trapWhole _ _ _ hc) (canon_advance _ _ (canon_onCtx _ _ hc))
  · exact canon_advance _ _ hc
@[simp] theorem canon_cycNow (core : Nat) (hc : Canon s) : Canon (s.cycNow core).2 := by simp [State.cycNow, hc]

@[simp] theorem canon_clockNow (w : Warp) (nsec : Bool) (hc : Canon s) : Canon (s.clockNow w nsec).2 := by
  unfold State.clockNow
  split <;> simp [hc]

@[simp] theorem canon_hWrite (k : HKind) (d x : Fld) (w : Warp) {t : State} (l : Nat) (hc : Canon t) : Canon (hWrite k d x w t s l) := by
  simp only [hWrite]
  split
  · exact canon_wr _ _ _ hc
  · exact canon_foldl _ (fun u y hu => canon_wrP _ _ _ hu) hc
  · exact canon_onLanes _ _ _ _ hc
  · exact canon_onLanes _ _ _ _ hc
  · exact canon_onBank _ _ (canon_onLanes _ _ _ _ hc)
@[simp] theorem canon_retryLanes (w : Warp) (act : Mask) (hc : Canon s) : Canon (retryLanes w act s) := by simp [retryLanes, hc]

@[simp] theorem canon_skipLanes (w : Warp) (act : Mask) (hc : Canon s) : Canon (skipLanes w act s) := by
  simp only [skipLanes]
  exact canon_leaveHandler _ _ _ (canon_advance _ _ (canon_ite (canon_foldl _ (fun t x ht => canon_redoSkip _ _ ht) hc) hc))
@[simp] theorem canon_escHandler (w : Warp) (m : Mask) (hc : Canon s) : Canon (s.escHandler w m) := by simp [State.escHandler, hc]

@[simp] theorem canon_noHandler (w : Warp) (x : SubWarp) (hc : Canon s) : Canon (s.noHandler w x) := by
  unfold State.noHandler
  split <;> simp [hc]

@[simp] theorem canon_tablePage (w : Warp) (x : SubWarp) (va : Nat) (hc : Canon s) : Canon (s.tablePage w x va) := by
  simp only [State.tablePage]
  exact canon_ite (canon_noHandler _ _ (canon_engineMiss _ _ _ hc)) (canon_engineMiss _ _ _ hc)
@[simp] theorem canon_enterTable (w : Warp) (x : SubWarp) (hc : Canon s) : Canon (s.enterTable w x) := by
  simp only [State.enterTable]
  refine canon_ite ?_ ?_
  · exact canon_noHandler _ _ hc
  · split
    · exact canon_noHandler _ _ (canon_coreXl _ _ _ _ hc)
    · exact canon_noHandler _ _ (canon_detect _ _ _ _ (canon_coreXl _ _ _ _ hc))
    · exact canon_tablePage _ _ _ (canon_coreXl _ _ _ _ hc)
    · split
      · split
        · exact canon_ite (canon_noHandler _ _ (canon_detect _ _ _ _ (canon_coreXl _ _ _ _ hc))) (canon_noHandler _ _ (canon_coreXl _ _ _ _ hc))
        · exact canon_noHandler _ _ (canon_coreXl _ _ _ _ hc)
      · exact canon_ite (canon_enterHandler _ _ _ (canon_coreXl _ _ _ _ hc)) (canon_noHandler _ _ (canon_coreXl _ _ _ _ hc))

/-! ### Placing (R80 to R90, R113) -/

@[simp] theorem canon_placeWarp (w : Warp) (core : Nat) (hc : Canon s) : Canon (s.placeWarp w core) := by
  simp only [State.placeWarp]
  split
  · exact hc
  · exact canon_frame hc
@[simp] theorem canon_freshRo (ctx core : Nat) (hc : Canon s) : Canon (s.freshRo ctx core) := by
  simp only [State.freshRo]
  split
  · exact canon_ite hc (canon_poison _ (canon_onCore _ _ (canon_onCtx _ _ hc)))
  · exact hc
@[simp] theorem canon_placeBlock (c : Ctx) (b : Block) (ws : List Warp) (core : Nat) (hc : Canon s) : Canon (s.placeBlock c b ws core) := by
  simp only [State.placeBlock]
  exact canon_foldl _ (fun t x ht => canon_placeWarp _ _ ht) (canon_frame (canon_onGrid _ _ (canon_freshRo _ _ hc)))
@[simp] theorem canon_placeFresh (c : Ctx) (gidx : Nat) (cl : Nat) (lins cores : List Nat) (hc : Canon s) :
    Canon (s.placeFresh c gidx cl lins cores) := by
  refine canon_foldl _ (fun t x ht => canon_placeBlock _ _ _ _ ?_) hc
  exact List.foldlRecOn (motive := fun p : List Warp × State => Canon p.2) _ _ (canon_fresh ht) fun p hp _ _ => canon_fresh hp

@[simp] theorem canon_placeSaved (c : Ctx) (cl : Nat) (v : CGroup × List Block × List Warp) (cores : List Nat) (hc : Canon s) :
    Canon (s.placeSaved c cl v cores) := by
  simp only [State.placeSaved]
  exact canon_foldl _ (fun t x ht => canon_convergeAll _ ht) (canon_foldl _ (fun u y hu => canon_placeBlock _ _ _ _ hu) (canon_frame hc))
@[simp] theorem canon_placeWait (c : Ctx) (w : Wait) (cl : Nat) (cores : List Nat) (hc : Canon s) : Canon (s.placeWait c w cl cores) := by
  simp only [State.placeWait]
  split
  · exact canon_placeSaved _ _ _ _ (canon_frame hc)
  · exact canon_ite (canon_placeFresh _ _ _ _ _ (canon_frame hc)) (canon_onCtx _ _ (canon_placeFresh _ _ _ _ _ (canon_frame hc)))
@[simp] theorem canon_offerFresh (c : Ctx) (hc : Canon s) : Canon (s.offerFresh c) := by
  simp only [State.offerFresh]
  exact canon_ite hc (canon_frame hc)
@[simp] theorem canon_tryHeld (w : Wait) (hc : Canon s) : Canon (s.tryHeld w) := by
  simp only [State.tryHeld]
  split
  · exact canon_ite (canon_placeWait _ _ _ _ hc) hc
  · exact hc
@[simp] theorem canon_tryHead (c : Ctx) (w : Wait) (hc : Canon s) : Canon (s.tryHead c w) := by
  simp only [State.tryHead]
  split
  · split
    · exact canon_placeWait _ _ _ _ hc
    · exact hc
  · exact hc
@[simp] theorem canon_noteReplay (ctx : Nat) (lins : List Nat) (hc : Canon s) : Canon (s.noteReplay ctx lins) := by
  unfold State.noteReplay
  split <;> simp [hc]

@[simp] theorem canon_replayWait (ctx gidx : Nat) (lins : List Nat) (hc : Canon s) : Canon (s.replayWait ctx gidx lins) := hc

@[simp] theorem canon_endBlock (b : Block) (hc : Canon s) : Canon (s.endBlock b) := by
  simp only [State.endBlock]
  split
  · refine canon_ite ?_ ?_
    · refine canon_replayWait _ _ _ ?_
      refine canon_noteReplay _ _ ?_
      refine canon_frame ?_
      refine canon_onCGroup _ _ ?_
      refine canon_onCtx _ _ ?_
      split
      · exact canon_onGrid _ _ hc
      · exact hc
    · refine canon_frame ?_
      refine canon_onCGroup _ _ ?_
      refine canon_onCtx _ _ ?_
      split
      · exact canon_onGrid _ _ hc
      · exact hc
  · refine canon_frame ?_
    refine canon_onCGroup _ _ ?_
    refine canon_onCtx _ _ ?_
    split
    · exact canon_onGrid _ _ hc
    · exact hc

/-! ### Objects -/

@[simp] theorem canon_useXlat (k : XKey) (hc : Canon s) : Canon (s.useXlat k) := hc

@[simp] theorem canon_icDrop (pa n : Nat) (hc : Canon s) : Canon (s.icDrop pa n) := hc

@[simp] theorem canon_putCode (pa : Nat) (ws : List Word64) (hc : Canon s) : Canon (s.putCode pa ws) := by
  refine canon_foldl _ (fun t p ht => ?_) (canon_icDrop _ _ hc)
  cases h : t.writeLine p.1 p.2 0xFFFFFFFF false with
  | none => exact ht
  | some u => exact canon_writeLine _ _ _ _ ht h

@[simp] theorem canon_evictXlat (fuel g kib n : Nat) (hc : Canon s) : Canon (State.evictXlat fuel g kib n s) := by
  induction fuel generalizing s with
  | zero => exact hc
  | succ fuel ih =>
    unfold State.evictXlat
    split
    · exact hc
    · split
      next x _ => exact ih (s := { s with xcache := s.xcache.erase x }) hc
      · exact hc

@[simp] theorem canon_cacheXlat (x : Xlat) (hc : Canon s) : Canon (s.cacheXlat x).1 := by
  simp only [State.cacheXlat]
  split
  · split
    · dsimp only
      exact canon_frame (canon_putCode _ _ (canon_evictXlat _ _ _ _ hc))
    · dsimp only
      exact canon_evictXlat _ _ _ _ hc
  · dsimp only
    exact canon_evictXlat _ _ _ _ hc

/-! ### Launches (R58 to R69) -/

@[simp] theorem canon_noteRead (group va n : Nat) (hc : Canon s) : Canon (s.noteRead group va n) := by
  unfold State.noteRead
  split <;> simp [hc]

@[simp] theorem canon_putData (h : Img) (o : Obj) (hc : Canon s) : Canon (s.putData h o).1 := by
  simp only [State.putData]
  split
  · exact hc
  · split
    · exact hc
    · refine List.foldlRecOn (motive := fun r : State × Option Nat => Canon r.1) _ _ hc fun r hr x _ => ?_
      split
      · exact hr
      · have wrote {a : Nat} {b : List Byte} {u : State} {e : Option VaErr} {t : State} (ht : Canon t)
          (h' : t.writeVa h.group a b .write = (u, e)) : Canon u :=
          (canon_writeVa _ _ _ _ ht).fst h'
        split <;> rename_i e
        · exact canon_engineErr _ _ (wrote hr e)
        · split <;> rename_i e'
          · exact canon_engineErr _ _ (wrote (wrote hr e) e')
          · exact wrote (wrote hr e) e'

@[simp] theorem canon_prepLast (h : Img) (b : List Byte) (o : Obj) (c : Code) (ovr : Nat) (hc : Canon s) : Canon (s.prepLast h b o c ovr).1 := by
  simp only [State.prepLast]
  split
  · exact hc
  · split
    · exact hc
    · split
      next e =>
        dsimp only
        exact Canon.fst (canon_putData _ _ hc) e
      next e =>
        split
        · dsimp only
          exact canon_engineErr _ _ (Canon.fst (canon_putData _ _ hc) e)
        · dsimp only
          exact Canon.fst (canon_putData _ _ hc) e
@[simp] theorem canon_prepare (group img ovr : Nat) (made : Option (XKey × Option Made)) (hc : Canon s) : Canon (s.prepare group img ovr made).1 := by
  grind [State.prepare, canon_engineErr, canon_noteRead, canon_prepLast]

@[simp] theorem canon_restoreOne (x : Ctx) (c : Code) (recs : List GRec × List BRec × List WRec) (gidx : Nat) (hc : Canon s) :
    Canon (s.restoreOne x c recs gidx) := by
  simp only [State.restoreOne]
  change Canon (List.foldl _ _ _ : List Block × List Warp × State).2.2
  refine List.foldlRecOn (motive := fun r : List Block × List Warp × State => Canon r.2.2) _ _ (canon_fresh hc) fun r hr b _ => ?_
  exact List.foldlRecOn (motive := fun q : List Warp × State => Canon q.2) _ _ (canon_fresh hr) fun q hq w _ => canon_fresh hq

@[simp] theorem canon_holdCode (k : XKey) (c : Code) (hc : Canon s) : Canon (s.holdCode k c).1 := by
  simp only [State.holdCode]
  split
  · dsimp only
    exact canon_useXlat _ hc
  · split
    · dsimp only
      exact canon_putCode _ _ hc
    · exact hc
@[simp] theorem canon_create (group img comp : Nat) (event : Bool) (src : Src) (h : Img) (o : Obj) (c : Code) (recs : List GRec × List BRec × List WRec) (hc :
    Canon s) : Canon (s.create group img comp event src h o c recs).2 := by
  simp only [State.create]
  refine canon_foldl _ ?_ ?_
  · exact fun t x ht => canon_restoreOne _ _ _ _ ht
  · refine canon_frame ?_
    split
    · exact canon_holdCode _ _ (canon_fresh (canon_fresh hc))
    · dsimp only
      exact canon_fresh (canon_fresh hc)
@[simp] theorem canon_askXlat (k : XKey) (sect : List Byte) (ents view : List Nat) (cmd : Nat) (hc : Canon s) : Canon (s.askXlat k sect ents view cmd) := by
  simp only [State.askXlat]
  exact canon_ite (canon_frame hc) (canon_frame hc)
@[simp] theorem canon_launch (c : Cmd) (img ovr : Nat) (made : Option (XKey × Option Made)) (hc : Canon s) : Canon (s.launch c img ovr made) := by
  simp only [State.launch]
  split
  next e => exact canon_fail _ _ _ _ (Canon.fst (canon_prepare _ _ _ _ hc) e)
  next e => exact canon_askXlat _ _ _ _ _ (canon_frame (Canon.fst (canon_prepare _ _ _ _ hc) e))
  next e => exact canon_frame (canon_create _ _ _ _ _ _ _ _ _ (Canon.fst (canon_prepare _ _ _ _ hc) e))
@[simp] theorem canon_warnQuota (c : Cmd) (hc : Canon s) : Canon (s.warnQuota c) := by
  simp only [State.warnQuota]
  split
  · exact canon_post _ hc
  · exact canon_post _ hc
  · exact canon_post _ hc
  · exact hc

/-! ### Commands (R57 to R72) -/

@[simp] theorem canon_takeCmd (q kind : Nat) (f : State → Src → Nat → List Byte → State) (hc : Canon s) (hf : ∀ t x y z, Canon t → Canon (f t x y z)) :
    Canon (s.takeCmd q kind f) := by
  simp only [State.takeCmd]
  split
  · exact hc
  · exact canon_ite (canon_fail _ _ _ _ (canon_engineErr _ _ (canon_onHq _ _ hc))) hc
  · exact canon_ite hc (canon_ite (canon_fail _ _ _ _ (canon_onHq _ _ hc)) (hf _ _ _ _ (canon_onHq _ _ hc)))
@[simp] theorem canon_addCmd (src : Src) (group : Nat) (k : CmdK) (hc : Canon s) : Canon (s.addCmd src group k) := by
  simp only [State.addCmd]
  exact canon_frame (canon_fresh hc)
@[simp] theorem canon_runImage (src : Src) (group img comp ovr notify : Nat) (hc : Canon s) : Canon (s.runImage src group img comp ovr notify) := by
  unfold State.runImage
  split <;> simp [hc]

@[simp] theorem canon_failRun (ctx : Nat) (hc : Canon s) : Canon (s.failRun ctx) := by
  unfold State.failRun
  split <;> simp [hc]

@[simp] theorem canon_endGrid {s0 : State} (c : Ctx) (hc0 : Canon s0) : Canon (State.endGrid s0 c) := by
  simp only [State.endGrid]
  exact canon_ite (canon_finalise _ (canon_freeCtx _ (canon_takePreempt _ _ _ hc0))) (canon_finalise _ (canon_ite (canon_failRun _ (canon_freeCtx _
    (canon_writeGrid _ (canon_onGrid _ _ (canon_takePreempt _ _ _ hc0))))) (canon_endRun _ _ _ (canon_freeCtx _ (canon_writeGrid _ (canon_onGrid _ _
    (canon_takePreempt _ _ _ hc0)))))))
@[simp] theorem canon_movePiece (group src dst : Nat) (msg : Bool) (p : Nat × Nat) (hc : Canon s) : Canon (s.movePiece group src dst msg p).1 := by
  simp only [State.movePiece]
  split
  · exact hc
  · split
    · split
      · split
        · split
          · dsimp only
            exact canon_chargeGroup _ _ _ hc
          · dsimp only
            exact canon_chargeGroup _ _ _ hc
        · split
          · exact hc
          · exact hc
      · dsimp only
        split
        · exact canon_chargeGroup _ _ _ hc
        · exact hc
    · refine canon_writeVa _ _ _ _ ?_
      split
      · exact canon_chargeGroup _ _ _ hc
      · exact hc
@[simp] theorem canon_copyStart (src : Src) (group : Nat) (a : Nat) (d : Nat) (len : Nat) (hc : Canon s) : Canon (s.copyStart src group a d len) := by
  refine canon_addCmd _ _ _ (List.foldlRecOn (motive := fun r : State × List (Nat × Nat) => Canon r.1) _ _ hc fun r hr p _ => ?_)
  grind [canon_draw, canon_movePiece]

theorem canon_signalWrite (group a v : Nat) (add w32 : Bool) (hc : Canon s) : ∀ t', s.signalWrite group a v add w32 = .ok t' → Canon t' := by
  grind [State.signalWrite, canon_writeVa]

@[simp] theorem canon_signal (src : Src) (group a v : Nat) (add w32 : Bool) (notify : Nat) (hc : Canon s) : Canon (s.signal src group a v add w32 notify) := by
  grind [State.signal, canon_fail, canon_signalWrite, canon_engineErr, canon_nodeDone, canon_complete, canon_notify]

@[simp] theorem canon_waitStart (src : Src) (group a v cmp : Nat) (w32 : Bool) (us : Nat) (hc : Canon s) : Canon (s.waitStart src group a v cmp w32 us) := by
  simp [State.waitStart, hc]

@[simp] theorem canon_started (g node : Nat) (b : List Byte) (hc : Canon s) : Canon (s.started g node b) := by simp [State.started, hc]

@[simp] theorem canon_startNode (g kind : Nat) (f : State → Src → Nat → List Byte → State) (hc :
    Canon s) (hf : ∀ t x y z, Canon t → Canon (f t x y z)) : Canon (s.startNode g kind f) := by
  unfold State.startNode
  split <;> simp [hc, hf]

@[simp] theorem canon_jumpNode (src : Src) (group a g dest : Nat) (b : List Byte) (hc : Canon s) : Canon (s.jumpNode src group a g dest b) := by
  simp [State.jumpNode, hc]

@[simp] theorem canon_slotFits (e : TagEnt) (hc : Canon s) : Canon (s.slotFits e).2 := by
  unfold State.slotFits
  split <;> simp [hc]

@[simp] theorem canon_refuseMsg (t status a : Nat) (hc : Canon s) : Canon (s.refuseMsg t status a) := by simp [State.refuseMsg, hc]

/-! ### Notify registers and queues (R70 to R79, R336) -/

@[simp] theorem canon_flushHeld (q : Nat) (l : List EvRec) (hc : Canon s) : Canon (s.flushHeld q l) := by
  induction l generalizing s with
  | nil => exact hc
  | cons r l ih =>
    unfold State.flushHeld
    split
    · exact hc
    · exact ih (canon_ite hc (canon_ringPut _ hc))

@[simp] theorem canon_hostRead (n : Nat) (hc : Canon s) : Canon (s.hostRead n) := by
  simp only [State.hostRead]
  exact canon_frame (canon_readNotify _ hc)
@[simp] theorem canon_mergePart (n : Nat) (p : Latched) (hc : Canon s) : Canon (s.mergePart n p) := by
  simp only [State.mergePart]
  split
  · exact canon_ite (canon_interrupt _ (canon_onNreg _ _ (canon_onNreg _ _ hc))) (canon_onNreg _ _ hc)
  · exact canon_wakeQueue _ (canon_onNreg _ _ hc)
  · exact hc
@[simp] theorem canon_merge (n : Nat) (hc : Canon s) : Canon (s.merge n) := by
  simp only [State.merge]
  exact canon_ite (canon_onNreg _ _ hc) (canon_ite (canon_onGraph _ _ (canon_onNreg _ _ hc)) (canon_each _ _ (canon_onNreg _ _ hc) (fun t x ht =>
    canon_mergePart _ _ ht)))

/-! ### Pre-emption and saving (R294 to R298) -/

@[simp] theorem canon_endFinished (ctx : Nat) (hc : Canon s) : Canon (s.endFinished ctx) := by
  simp only [State.endFinished]
  exact canon_foldl _ (fun t x ht => canon_endBlock _ ht) (canon_foldl _ (fun u y hu => canon_onBlock _ _ (canon_frame hu)) hc)
@[simp] theorem canon_abandon (w : Warp) (hc : Canon s) : Canon (s.abandon w) := by
  simp only [State.abandon]
  split
  · exact canon_ite hc (canon_onQuad _ _ (canon_onWarp _ _ hc))
  · exact hc
@[simp] theorem canon_abandonAll (p : Warp → Bool) (hc : Canon s) : Canon (s.abandonAll p) := by simp +contextual [State.abandonAll, hc]

@[simp] theorem canon_haltCtx (c : Ctx) (driver : Bool) (cause : Nat) (hc : Canon s) : Canon (s.haltCtx c driver cause) := by
  unfold State.haltCtx
  refine canon_foldl _ (fun t x ht => ?_) hc
  simp [ht]

@[simp] theorem canon_haltGroup (g : CGroup) (hc : Canon s) : Canon (s.haltGroup g) := by simp [State.haltGroup, hc]

@[simp] theorem canon_preempt (g cause : Nat) (migrate : Bool) (hc : Canon s) : Canon (s.preempt g cause migrate) := by
  simp only [State.preempt]
  exact canon_frame (canon_onGrp _ _ hc)
@[simp] theorem canon_leafPreempt (g : Nat) (hc : Canon s) : Canon (s.leafPreempt g) := by
  simp only [State.leafPreempt]
  exact canon_frame (canon_onCGroup _ _ hc)
@[simp] theorem canon_enterFails (ws : List Warp) (hc : Canon s) : Canon (s.enterFails ws) := by
  simp only [State.enterFails]
  exact canon_foldl _ (fun t x ht => canon_each _ _ ht (fun u y hu => canon_cfEnter _ _ _ hu)) hc
@[simp] theorem canon_enterBlockFails (bs : List Block) (hc : Canon s) : Canon (s.enterBlockFails bs) := by
  simp only [State.enterBlockFails]
  exact canon_foldl _ (fun t x ht => canon_each _ _ ht (fun u y hu => canon_cfEnter _ _ _ hu)) hc
@[simp] theorem canon_resumeCtx (c : Ctx) (hc : Canon s) : Canon (s.resumeCtx c) := by
  simp only [State.resumeCtx]
  exact canon_frame (canon_onCtx _ _ hc)
@[simp] theorem canon_saveCtx (c : Ctx) (cause : Nat) (hc : Canon s) : Canon (s.saveCtx c cause) := by
  simp only [State.saveCtx]
  refine canon_ite ?_ ?_
  · exact canon_takePreempt _ _ _ (canon_resumeCtx _ (canon_onGrp _ _ (canon_frame (canon_draw (canon_endFinished _ hc)))))
  · split
    next e => exact canon_takePreempt _ _ _ (canon_postDev _ _ _ _ _ _ (canon_resumeCtx _ (canon_engineErr _ _ (Canon.fst (canon_writeVa _ _ _ _
      (canon_onGrp _ _ (canon_frame (canon_draw (canon_endFinished _ hc))))) e))))
    next e => exact canon_takePreempt _ _ _ (canon_ite (canon_finalise _ (canon_onGrid _ _ (canon_postDev _ _ _ _ _ _ (canon_freeCtx _ (canon_frame
      (canon_foldl _ (fun t x ht => canon_noteReplay _ _ ht) (canon_enterBlockFails _ (canon_enterFails _ (canon_onGrp _ _ (Canon.fst (canon_writeVa
      _ _ _ _ (canon_onGrp _ _ (canon_frame (canon_draw (canon_endFinished _ hc))))) e)))))))))) (canon_endRun _ _ _ (canon_postDev _ _ _ _ _ _
      (canon_freeCtx _ (canon_frame (canon_foldl _ (fun u y hu => canon_noteReplay _ _ hu) (canon_enterBlockFails _ (canon_enterFails _ (canon_onGrp
      _ _ (Canon.fst (canon_writeVa _ _ _ _ (canon_onGrp _ _ (canon_frame (canon_draw (canon_endFinished _ hc))))) e))))))))))
@[simp] theorem canon_loseSaved (c : Ctx) (bs : List Block) (f : State → State) (hc : Canon s) (hf : ∀ t, Canon t → Canon (f t)) :
    Canon (s.loseSaved c bs f) := by
  unfold State.loseSaved
  split <;> simp [hc, hf]

@[simp] theorem canon_saveGroup (c : Ctx) (g : CGroup) (hc : Canon s) : Canon (s.saveGroup c g) := by
  simp only [State.saveGroup]
  exact canon_ite (canon_replayWait _ _ _ (canon_noteReplay _ _ (canon_frame (canon_dropWaits _ (canon_freeBanks _ (canon_enterBlockFails _
    (canon_enterFails _ (canon_fresh hc)))))))) (canon_frame (canon_dropWaits _ (canon_freeBanks _ (canon_enterBlockFails _ (canon_enterFails _
    (canon_fresh hc))))))

/-! ### Failing units (R91 to R95, R324) -/

@[simp] theorem canon_unitRetired (kind cluster core quad detail : Nat) (hc : Canon s) : Canon (s.unitRetired kind cluster core quad detail) := by
  simp [State.unitRetired, hc]

@[simp] theorem canon_onRec {s0 : State} (f : Record → Record) (hc0 : Canon s0) : Canon (State.onRec s0 f) := by
  simp only [State.onRec]
  exact canon_frame (canon_draw hc0)
@[simp] theorem canon_retireCore (k : Nat) (hc : Canon s) : Canon (s.retireCore k) := by
  simp only [State.retireCore]
  exact canon_ite hc (canon_each _ _ (canon_onRec _ (canon_onCore _ _ hc)) (fun t x ht => canon_leafPreempt _ ht))
@[simp] theorem canon_checkCore (k : Nat) (hc : Canon s) : Canon (s.checkCore k) := by simp [State.checkCore, hc]

@[simp] theorem canon_failLane (q l : Nat) (hc : Canon s) : Canon (s.failLane q l) := by
  simp only [State.failLane]
  exact canon_ite hc (canon_checkCore _ (canon_unitRetired _ _ _ _ _ (canon_onRec _ (canon_onQuad _ _ hc))))
@[simp] theorem canon_reissue (q : Nat) (r : Recent) (last : Bool) (t b0 b : Nat) (hc : Canon s) : Canon (s.reissue q r last t b0 b) := by
  simp only [State.reissue]
  exact canon_ite (canon_onWarp _ _ hc) (canon_ite (canon_onBank _ _ (canon_onWarp _ _ hc)) (canon_onWarp _ _ (canon_onWarp _ _ hc)))
@[simp] theorem canon_reissueAll (q b0 : Nat) (hc : Canon s) : Canon (s.reissueAll q b0) := by
  unfold State.reissueAll
  refine canon_foldl _ (fun t x ht => ?_) hc
  simp [ht]

@[simp] theorem canon_undone (r : Recent) (u : Undo) (hc : Canon s) : Canon (s.undone r u) := by
  simp only [State.undone]
  split
  · exact hc
  · exact canon_removalCheck _ (canon_frame (canon_onWarp _ _ (canon_foldl _ (fun t x ht => canon_foldl _ (fun v y hv => canon_putKey _ _ _ _ hv) ht)
      (canon_ite (canon_onBank _ _ hc) (canon_onWarp _ _ hc)))))
@[simp] theorem canon_undoAll (q : Nat) (hc : Canon s) : Canon (s.undoAll q) := by
  unfold State.undoAll
  refine canon_foldl _ (fun t x ht => ?_) hc
  split <;> simp [ht]

@[simp] theorem canon_failColumn (k p : Nat) (hc : Canon s) : Canon (s.failColumn k p) := by
  simp only [State.failColumn]
  exact canon_ite hc (canon_checkCore _ (canon_unitRetired _ _ _ _ _ (canon_onRec _ (canon_onCore _ _ hc))))
@[simp] theorem canon_failGranule (q g : Nat) (hc : Canon s) : Canon (s.failGranule q g) := by
  simp only [State.failGranule]
  exact canon_ite hc (canon_checkCore _ (canon_unitRetired _ _ _ _ _ (canon_onRec _ (canon_onQuad _ _ hc))))
@[simp] theorem canon_failBank (k b : Nat) (hc : Canon s) : Canon (s.failBank k b) := by
  simp only [State.failBank]
  exact canon_ite hc (canon_checkCore _ (canon_unitRetired _ _ _ _ _ (canon_onRec _ (canon_onCore _ _ hc))))
@[simp] theorem canon_failAcc (k n : Nat) (hc : Canon s) : Canon (s.failAcc k n) := by
  simp only [State.failAcc]
  exact canon_ite hc (canon_checkCore _ (canon_unitRetired _ _ _ _ _ (canon_onCore _ _ hc)))
@[simp] theorem canon_failArray (k n : Nat) (hc : Canon s) : Canon (s.failArray k n) := by
  simp only [State.failArray]
  exact canon_ite hc (canon_checkCore _ (canon_unitRetired _ _ _ _ _ (canon_onCore _ _ hc)))
@[simp] theorem canon_sliceGone (sl : Nat) (hc : Canon s) : Canon (s.sliceGone sl) := by
  simp only [State.sliceGone]
  exact canon_ite hc (canon_unitRetired _ _ _ _ _ (canon_onRec _ (canon_frame hc)))

/-! ### Inventory passes (R312 to R318) -/

@[simp] theorem canon_beginPass (k : Nat) (hc : Canon s) : Canon (s.beginPass k) := by simp [State.beginPass, hc]

@[simp] theorem canon_promote (before : List Grid) (hc : Canon s) : Canon (s.promote before) := by
  simp only [State.promote]
  refine canon_each _ _ ?_ ?_
  · exact hc
  · intro t x ht
    split
    · exact canon_finalise _ (canon_ite (canon_writePending _ ht) ht)
    · exact ht
@[simp] theorem canon_passScan (k : Nat) (hc : Canon s) : Canon (s.passScan k) := by
  simp only [State.passScan]
  exact canon_promote _ (canon_frame hc)
@[simp] theorem canon_replayCtx (g : Grid) (hc : Canon s) : Canon (s.replayCtx g).2 := by
  simp only [State.replayCtx]
  split
  · exact hc
  · dsimp only
    exact canon_frame (canon_fresh hc)
@[simp] theorem canon_replayGroup (g : Grid) (gidx : Nat) (lins : List Nat) (hc : Canon s) : Canon (s.replayGroup g gidx lins) := by
  simp only [State.replayGroup]
  split
  · exact canon_leafPreempt _ (canon_onCGroup _ _ (canon_frame (canon_onCtx _ _ (canon_replayCtx _ (canon_onGrid _ _ hc)))))
  · exact canon_replayWait _ _ _ (canon_ite (canon_frame (canon_onCtx _ _ (canon_replayCtx _ (canon_onGrid _ _ hc)))) (canon_noteReplay _ _
      (canon_frame (canon_onCtx _ _ (canon_replayCtx _ (canon_onGrid _ _ hc))))))
@[simp] theorem canon_failGrid (k : Nat) (g : Grid) (hc : Canon s) : Canon (s.failGrid k g) := by
  simp only [State.failGrid]
  refine canon_ite ?_ ?_
  · exact hc
  · refine canon_onGrid _ _ ?_
    refine canon_foldl _ ?_ ?_
    · intro t x ht
      split
      · exact canon_ite (canon_replayGroup _ _ _ ht) (canon_onGrid _ _ ht)
      · exact ht
    · exact hc
@[simp] theorem canon_failScan (k : Nat) (hc : Canon s) : Canon (s.failScan k) := by
  simp only [State.failScan]
  exact canon_promote _ (canon_foldl _ (fun t x ht => canon_failGrid _ _ ht) hc)
@[simp] theorem canon_failUnit (k : Nat) (x : UnitFail) (hc : Canon s) : Canon (s.failUnit k x) := by
  simp only [State.failUnit]
  split
  · exact canon_failLane _ _ hc
  · exact canon_failGranule _ _ hc
  · exact canon_failBank _ _ hc
  · exact canon_failColumn _ _ hc
  · exact canon_failAcc _ _ hc
  · exact canon_failArray _ _ hc

/-! ### Errors (R319 to R326) -/

@[simp] theorem canon_removeGroup (g cause : Nat) (hc : Canon s) : Canon (s.removeGroup g cause) := by simp +contextual [State.removeGroup, hc]

@[simp] theorem canon_logArray (sec : Nat) (b : List Byte) (hc : Canon s) : Canon (s.logArray sec b) := hc

@[simp] theorem canon_logVert (cl : Nat) (b : List Byte) (hc : Canon s) : Canon (s.logVert cl b) := hc

@[simp] theorem canon_dropBeat (b : Beat) (hc : Canon s) : Canon (s.dropBeat b) := hc

theorem canon_use {c : Prop} [Decidable c] {g : Nat} {f : State → State} {x : Nat × (State → State)} {t : State}
    (h : (if c then some (g, f) else none) = some x) (hf : Canon (f t)) : Canon (x.2 t) := by
  obtain ⟨-, h⟩ := Option.ite_none_right_eq_some.1 h
  cases h
  exact hf

theorem canon_beatUsers (b : Beat) : ∀ x ∈ s.beatUsers b, ∀ t, Canon t → Canon (x.2 t) := by
  intro x hx t ht
  simp only [State.beatUsers, List.mem_append, List.mem_filterMap, Option.bind_eq_bind, Option.bind_eq_some_iff] at hx
  rcases hx with (((((⟨a, _, h⟩ | ⟨a, _, y, -, h⟩) | ⟨a, _, y, -, h⟩) | ⟨a, _, y, -, h⟩) | ⟨a, _, h⟩) | ⟨a, _, h⟩) | ⟨a, _, h⟩
  · split at h
    · exact canon_use h (canon_setReq _ _ ht)
    · cases h
  · exact canon_use h (canon_loseCopy _ _ _ _ ht)
  · exact canon_use h (canon_loseDef _ _ _ ht)
  · exact canon_use h (canon_loseFill _ _ _ _ ht)
  · exact canon_use h (canon_ite (canon_frame ht) (canon_fetchFail _ _ _ (canon_frame ht)))
  · split at h
    · obtain ⟨y, -, rfl⟩ := Option.map_eq_some_iff.1 h
      exact canon_fail _ _ _ _ (canon_dropCmd _ ht)
    · obtain ⟨y, -, rfl⟩ := Option.map_eq_some_iff.1 h
      exact canon_fail _ _ _ _ (canon_onGraph _ _ (canon_dropCmd _ ht))
    · obtain ⟨y, -, rfl⟩ := Option.map_eq_some_iff.1 h
      exact canon_fail _ _ _ _ (canon_dropCmd _ ht)
    · cases h
  · exact canon_use h (canon_startRemoval _ _ ht)
@[simp] theorem canon_abortBeat (b : Beat) (hc : Canon s) : Canon (s.abortBeat b).2 := by
  simp only [State.abortBeat]
  split
  next x h => exact canon_beatUsers b x (List.mem_of_getElem? h) _ (canon_drawNat _ hc)
  · exact hc

@[simp] theorem canon_loseBeat (b : Beat) (rec : List Byte) (detail : Nat) (hc : Canon s) : Canon (s.loseBeat b rec detail) := by
  grind [State.loseBeat, canon_abortBeat, canon_logVert, canon_dropBeat, canon_detectUnit]

@[simp] theorem canon_retireCluster (cl : Nat) (hc : Canon s) : Canon (s.retireCluster cl) := by
  simp only [State.retireCluster]
  exact canon_ite hc (canon_each _ _ (canon_unitRetired _ _ _ _ _ (canon_onRec _ (canon_onCluster _ _ hc))) (fun t x ht => canon_retireCore _ ht))

/-! ### Float results -/

@[simp] theorem canon_flt3 (i : Instr) (r : R3) (f : Word → Word → Word × Exc) (hc : Canon s) : CanonOut (flt3 i r f s) := canon_vop _ _ _ hc

@[simp] theorem canon_flt2 (i : Instr) (r : R2) (f : Word → Word × Exc) (hc : Canon s) : CanonOut (flt2 i r f s) := canon_vop _ _ _ hc

/-! ### Power and reset (R329 to R339) -/

theorem scanonFrom_filter {lo : Nat} {m : Sparse Byte} (p : Nat × Byte → Bool) (h : scanonFrom 0 lo m = true) : scanonFrom 0 lo (m.filter p) = true := by
  induction m generalizing lo with
  | nil => rfl
  | cons x r ih =>
    obtain ⟨j, v⟩ := x
    rw [scanonFrom, Bool.and_eq_true, Bool.and_eq_true] at h
    obtain ⟨⟨hlo, hv⟩, hr⟩ := h
    rw [List.filter_cons]
    split
    · rw [scanonFrom, hlo, hv]
      exact ih hr
    · exact scanonFrom_mono (ih hr) (le_trans (of_decide_eq_true hlo) (Nat.le_succ j))

theorem tidy_filter {m : Sparse Byte} (p : Nat × Byte → Bool) (h : Tidy m) : Tidy (m.filter p) := scanonFrom_filter p h

@[simp] theorem canon_cold (bootst : Nat) (hc : Canon s) : Canon (s.cold bootst) := ⟨tidy_filter _ hc.mem, hc.host, hc.remote⟩

@[simp] theorem canon_tear (hc : Canon s) : Canon (s.tear) := by
  simp only [State.tear]
  split
  · exact canon_ite (canon_frame (canon_drawNat _ hc)) hc
  · exact hc
@[simp] theorem canon_hold (hc : Canon s) : Canon (s.hold) := by
  simp only [State.hold]
  exact canon_ite (canon_cold _ (canon_frame (canon_each _ _ hc (fun t x ht => canon_startRemoval _ _ ht)))) (canon_frame (canon_each _ _ hc (fun u y
    hu => canon_startRemoval _ _ hu)))
@[simp] theorem canon_glideAll (hc : Canon s) : Canon (s.glideAll) := by simp +contextual [State.glideAll, hc]

@[simp] theorem canon_apply (r : Record) (hc : Canon s) : Canon (s.apply r) := by
  simp only [State.apply]
  exact canon_frame (canon_foldl _ (fun t x ht => canon_onCluster _ _ ht) (canon_foldl _ (fun u y hu => canon_onCluster _ _ hu) (canon_foldl _ (fun v
    z hv => canon_onCore _ _ hv) (canon_foldl _ (fun t₁ x₁ ht₁ => canon_onCore _ _ ht₁) (canon_foldl _ (fun t₂ x₂ ht₂ => canon_onCore _ _ ht₂)
    (canon_foldl _ (fun t₃ x₃ ht₃ => canon_onQuad _ _ ht₃) (canon_foldl _ (fun t₄ x₄ ht₄ => canon_onQuad _ _ ht₄) hc)))))))

/-! ### Registers of the device (R333 to R336) -/

@[simp] theorem canon_writeBar2 (o : Nat) (b : List Byte) (hc : Canon s) : Canon (s.writeBar2 o b) := by
  unfold State.writeBar2
  repeat' split
  all_goals simp [hc]

@[simp] theorem canon_writeBar0 (o : Nat) (b : List Byte) (hc : Canon s) : Canon (s.writeBar0 o b) := by
  unfold State.writeBar0
  repeat' split
  all_goals simp [hc]

@[simp] theorem canon_writeBar4 (o : Nat) (b : List Byte) (hc : Canon s) : Canon (s.writeBar4 o b) := by
  unfold State.writeBar4
  refine canon_foldl _ (fun t x ht => ?_) hc
  grind [canon_writeLine, canon_detect]

@[simp] theorem canon_failWindow (hit : Tgt → Bool) (cause : Nat) (hc : Canon s) : Canon (s.failWindow hit cause) := hc

@[simp] theorem canon_resetOne (started : Bool) (at_ : Option Nat) (f : State → Nat → State) (hc : Canon s) (hf : ∀ t x, Canon t → Canon (f t x)) :
    Canon (s.resetOne started at_ f) := by
  simp only [State.resetOne]
  repeat' split
  all_goals simp +contextual [hc, hf]

end Canonical

end Sys2Proof.Machine

/-! PROOF. R76, R169, R173: every step keeps the canonical form of memory. -/

namespace Sys2Proof.Machine

section Meanings

variable {s : State}

/-! ### Accesses of lanes (R166 to R191) -/

@[simp] theorem canon_execLd (c : Common) (sx : Bool) (h : CacheHint) (m : MOp) (hc : Canon s) : CanonOut (execLd c sx h m s) := by
  simp only [execLd]
  exact canon_perform _ _ (fun x y t ht => canon_memLanes _ _ _ _ _ (fun z u hu => canon_loadLane _ _ _ _ _ _ _ hu) ht) hc
@[simp] theorem canon_execLdro (c : Common) (sx : Bool) (m : MOp) (hc : Canon s) : CanonOut (execLdro c sx m s) := by
  simp only [execLdro]
  exact canon_perform _ _ (fun x y t ht => canon_memLanes _ _ _ _ _ (fun z u hu => canon_loadLane _ _ _ _ _ _ _ hu) ht) hc
@[simp] theorem canon_execSt (c : Common) (h : CacheHint) (m : MOp) (hc : Canon s) : CanonOut (execSt c h m s) := by
  simp only [execSt]
  exact canon_perform _ _ (fun x y t ht => canon_memLanes _ _ _ _ _ (fun z u hu => canon_storeLane _ _ _ _ _ hu) ht) hc
@[simp] theorem canon_execAtom (c : Common) (op : AtomOp) (m : MOp) (hc : Canon s) : CanonOut (execAtom c op m s) := by
  simp only [execAtom]
  exact canon_perform _ _ (fun x y t ht => canon_memLanes _ _ _ _ _ (fun z u hu => canon_atomLane _ _ _ _ _ hu) ht) hc
@[simp] theorem canon_execLds (c : Common) (sx : Bool) (m : MOp) (hc : Canon s) : CanonOut (execLds c sx m s) := by
  simp only [execLds]
  refine canon_perform _ _ ?_ ?_
  · intro x y t ht
    refine canon_memLanes _ _ _ _ _ ?_ ?_
    · intro z u hu
      refine canon_scratchLane _ _ _ _ ?_ ?_
      · intro x₁ v hv
        split
        · exact canon_put _ _ _ _ hv
        · exact canon_scratchLost _ _ _ _ _ hv
      · exact hu
    · exact ht
  · exact hc
@[simp] theorem canon_execSts (c : Common) (m : MOp) (hc : Canon s) : CanonOut (execSts c m s) := by
  simp only [execSts]
  exact canon_perform _ _ (fun x y t ht => canon_memLanes _ _ _ _ _ (fun z u hu => canon_scratchLane _ _ _ _ (fun x₁ v hv => canon_onBlock _ _ hv)
    hu) ht) hc
@[simp] theorem canon_execAtoms (c : Common) (op : AtomOp) (m : MOp) (hc : Canon s) : CanonOut (execAtoms c op m s) := by
  simp only [execAtoms]
  refine canon_perform _ _ ?_ ?_
  · intro x y t ht
    refine canon_memLanes _ _ _ _ _ ?_ ?_
    · intro z u hu
      refine canon_scratchLane _ _ _ _ ?_ ?_
      · intro x₁ v hv
        split
        · exact canon_put _ _ _ _ (canon_onBlock _ _ hv)
        · exact canon_scratchLost _ _ _ _ _ hv
      · exact hu
    · exact ht
  · exact hc
@[simp] theorem canon_execRoinv (c : Common) (hc : Canon s) : CanonOut (execRoinv c s) := by
  simp only [execRoinv]
  exact canon_perform _ _ (fun x y t ht => canon_advance _ _ (canon_poison _ (canon_onCore _ _ ht))) hc
@[simp] theorem canon_execPref (c : Common) (l1 : Bool) (m : MOp) (hc : Canon s) : CanonOut (execPref c l1 m s) := by
  simp only [execPref]
  exact canon_perform _ _ (fun x y t ht => canon_advance _ _ (canon_foldl _ (fun u z hu => canon_prefLane _ _ _ _ hu) ht)) hc
@[simp] theorem canon_execZline (c : Common) (m : MOp) (hc : Canon s) : CanonOut (execZline c m s) := by
  simp only [execZline]
  exact canon_perform _ _ (fun x y t ht => canon_memLanes _ _ _ _ _ (fun z u hu => canon_zlineLane _ _ _ hu) ht) hc

/-! ### Requests and pages (R171, R174 to R189, R251 to R258) -/

@[simp] theorem canon_execLoadReturn (n : Nat) (hc : Canon s) : CanonOut (execLoadReturn n s) := by
  simp only [execLoadReturn]
  refine canonOut_next.2 ?_
  split
  · split
    · refine canon_ite ?_ ?_
      · exact hc
      · refine canon_retire _ _ ?_
        split
        · exact canon_ite (canon_land _ _ _ hc) (canon_roFill _ _ _ (canon_land _ _ _ hc))
        · exact canon_l1take _ _ _ (canon_land _ _ _ hc)
        · exact canon_land _ _ _ hc
    · exact hc
  · exact hc
@[simp] theorem canon_execDeferredDataAbort (n : Nat) (hc : Canon s) : CanonOut (execDeferredDataAbort n s) := by
  simp only [execDeferredDataAbort]
  refine canonOut_next.2 ?_
  split
  · split
    · exact canon_removalCheck _ (canon_deferAll _ _ (canon_frame hc))
    · exact canon_removalCheck _ (canon_deferAll _ _ (canon_frame hc))
    · exact canon_removalCheck _ (canon_deferAll _ _ (canon_frame hc))
    · exact hc
  · exact hc
@[simp] theorem canon_execStoreAck (n : Nat) (hc : Canon s) : CanonOut (execStoreAck n s) := by
  simp only [execStoreAck]
  refine canonOut_next.2 ?_
  split
  · split
    · exact canon_retire _ _ hc
    · exact hc
  · exact hc
@[simp] theorem canon_execStoreFail (n : Nat) (hc : Canon s) : CanonOut (execStoreFail n s) := by
  simp only [execStoreFail]
  refine canonOut_next.2 ?_
  split
  · split
    · exact canon_removalCheck _ (canon_failStore _ _ _ _ (canon_frame hc))
    · exact canon_ite hc (canon_removalCheck _ (canon_failStore _ _ _ _ (canon_frame hc)))
    · exact canon_ite hc (canon_removalCheck _ (canon_failStore _ _ _ _ (canon_frame hc)))
    · exact hc
  · exact hc
@[simp] theorem canon_execTranslationWalkEnd (n : Nat) (hc : Canon s) : CanonOut (execTranslationWalkEnd n s) := by
  simp only [execTranslationWalkEnd]
  refine canonOut_next.2 ?_
  split
  · exact canon_ite (canon_endPage _ _ hc) hc
  · exact hc
@[simp] theorem canon_execPageRequestRingRoom (g : Nat) (hc : Canon s) : CanonOut (execPageRequestRingRoom g s) := by
  simp only [execPageRequestRingRoom]
  refine canonOut_next.2 ?_
  split
  · exact canon_frame (canon_askPage _ hc)
  · exact hc
@[simp] theorem canon_execPageServiceBoundExpiry (n : Nat) (hc : Canon s) : CanonOut (execPageServiceBoundExpiry n s) := by
  simp only [execPageServiceBoundExpiry]
  refine canonOut_next.2 ?_
  split
  · split
    · exact canon_ite (canon_endPage _ _ hc) hc
    · exact canon_ite (canon_endPage _ _ hc) hc
    · exact hc
  · exact hc
@[simp] theorem canon_execPageResponseWrite (g : Nat) (v : Word64) (hc : Canon s) : CanonOut (execPageResponseWrite g v s) := by
  simp only [execPageResponseWrite]
  exact canonOut_next.2 (canon_frame (canon_onGrp _ _ hc))
@[simp] theorem canon_execFlushnWrite (g : Nat) (v : Word) (hc : Canon s) : CanonOut (execFlushnWrite g v s) := by simp [execFlushnWrite, hc]

@[simp] theorem canon_execFlushComplete (g : Nat) (hc : Canon s) : CanonOut (execFlushComplete g s) := by
  simp only [execFlushComplete]
  refine canonOut_next.2 ?_
  split
  · exact hc
  · exact canon_ite (canon_onGrp _ _ (canon_ite (canon_flushDrop _ _ hc) hc)) (canon_ite (canon_flushDrop _ _ hc) hc)

/-! ### Copies (R192 to R200) -/

@[simp] theorem canon_execCpy (c : Common) (sc : Bool) (k : BitVec 3) (b : BitVec 6) (hc : Canon s) : CanonOut (execCpy c sc k b s) := by
  simp only [execCpy]
  refine canon_perform _ _ ?_ ?_
  · intro x y t ht
    split
    · exact canon_trapWhole _ _ _ ht
    · exact canon_issueCopy _ _ _ ht
  · exact hc
@[simp] theorem canon_execCpybt (c : Common) (sc : Bool) (k : BitVec 3) (b : BitVec 6) (hc : Canon s) : CanonOut (execCpybt c sc k b s) := by
  simp only [execCpybt]
  refine canon_perform _ _ ?_ ?_
  · intro x y t ht
    split
    · exact canon_trapWhole _ _ _ ht
    · exact canon_issueCopy _ _ _ ht
  · exact hc
@[simp] theorem canon_execTkwait (c : Common) (k : BitVec 3) (hc : Canon s) : CanonOut (execTkwait c k s) := by
  simp only [execTkwait]
  exact canon_perform _ _ (fun x y t ht => canon_ite (canon_advance _ _ ht) (canon_advance _ _ (canon_parkHere _ _ _ ht))) hc

/-! ### Fences, ordered reductions and work queues (R254 to R269) -/

@[simp] theorem canon_execFence (c : Common) (k : FenceKind) (sc : Scope) (d : Fld) (hc : Canon s) : CanonOut (execFence c k sc d s) := by
  simp only [execFence]
  refine canon_perform _ _ ?_ ?_
  · intro x y t ht
    refine canon_advance _ _ ?_
    refine canon_onBlock _ _ ?_
    refine canon_onWarp _ _ ?_
    refine canon_put _ _ _ _ ?_
    split
    · exact ht
    · exact canon_acquire _ _ ht
    · exact canon_acquire _ _ ht
  · exact hc
@[simp] theorem canon_execBar (c : Common) (arv : Bool) (n : BitVec 4) (a : Fld) (p : Perm) (hc : Canon s) : CanonOut (execBar c arv n a p s) := by
  simp only [execBar]
  refine canonOut_next.2 ?_
  refine canon_performWith _ _ _ ?_ ?_
  · intro x y t ht
    split
    · exact canon_trapWhole _ _ _ ht
    · exact canon_arrived _ _ _ _ _ (canon_ite (canon_releaseAll _ _ _ (canon_onBlock _ _ ht)) (canon_onBlock _ _ ht))
  · exact hc
@[simp] theorem canon_execCbar (c : Common) (arv : Bool) (a : Fld) (p : Perm) (hc : Canon s) : CanonOut (execCbar c arv a p s) := by
  simp only [execCbar]
  refine canonOut_next.2 ?_
  refine canon_performWith _ _ _ ?_ ?_
  · intro x y t ht
    split
    · exact ht
    · split
      · exact canon_trapWhole _ _ _ ht
      · exact canon_arrived _ _ _ _ _ (canon_ite (canon_acquire _ _ (canon_ite (canon_releaseAll _ _ _ (canon_onCGroup _ _ ht)) (canon_onCGroup _ _
          ht))) (canon_ite (canon_releaseAll _ _ _ (canon_onCGroup _ _ ht)) (canon_onCGroup _ _ ht)))
  · exact hc
@[simp] theorem canon_execRedo (c : Common) (op : AtomOp) (m : MOp) (hc : Canon s) : CanonOut (execRedo c op m s) := by
  simp only [execRedo]
  exact canon_perform _ _ (fun x y t ht => canon_memLanes _ _ _ _ _ (fun z u hu => canon_redoLane _ _ _ _ _ hu) ht) hc
@[simp] theorem canon_execRedoEntryArrival (n : Nat) (hc : Canon s) : CanonOut (execRedoEntryArrival n s) := by
  simp only [execRedoEntryArrival]
  refine canonOut_next.2 ?_
  split
  · exact canon_ite (canon_orderEntry _ (canon_frame hc)) hc
  · exact hc
@[simp] theorem canon_execRedoEntryResend (n : Nat) (hc : Canon s) : CanonOut (execRedoEntryResend n s) := by
  simp only [execRedoEntryResend]
  refine canonOut_next.2 ?_
  split
  · exact canon_ite (canon_orderEntry _ (canon_frame hc)) hc
  · exact hc
@[simp] theorem canon_execQpush (c : Common) (rlx : Bool) (r : R3) (hc : Canon s) : CanonOut (execQpush c rlx r s) := by
  refine canon_perform _ _ (fun w act t ht => canon_advance _ _ (canon_queueTraps _ _ ?_)) hc
  refine List.foldlRecOn (motive := fun a : State × List (Nat × Nat) => Canon a.1) _ _ ht fun a ha l _ => ?_
  dsimp only
  split
  · exact ha
  · exact canon_wrP _ _ _ (canon_ite (canon_push _ _ ha) ha)

@[simp] theorem canon_execQpop (c : Common) (wait rlx : Bool) (r : R3) (hc : Canon s) : CanonOut (execQpop c wait rlx r s) := by
  refine canon_perform _ _ (fun w act t ht => ?_) hc
  refine canon_ite (canon_advance _ _ (canon_queueTraps _ _ ?popped)) (canon_l1clear _ (canon_advance _ _ (canon_queueTraps _ _ ?popped)))
  refine List.foldlRecOn (motive := fun a : State × List (Nat × Nat) × List Nat => Canon a.1) _ _ ht fun a ha l _ => ?_
  dsimp only
  split
  · exact ha
  · split
    · exact canon_popDone _ _ _ _ _ (canon_popEntry _ ha)
    · split
      · exact canon_parkHere _ _ _ ha
      · exact canon_wrP _ _ _ ha

@[simp] theorem canon_execNotify (c : Common) (k : NotifyRel) (a b : Fld) (p : Perm) (hc : Canon s) : CanonOut (execNotify c k a b p s) := by
  simp only [execNotify]
  exact canon_perform _ _ (fun x y t ht => canon_ite (canon_trapWhole _ _ _ ht) (canon_ite (canon_trapWhole _ _ _ ht) (canon_advance _ _
    (canon_notify _ _ ht)))) hc
@[simp] theorem canon_execGtrig (c : Common) (a : Fld) (p : Perm) (hc : Canon s) : CanonOut (execGtrig c a p s) := by
  simp only [execGtrig]
  exact canon_perform _ _ (fun x y t ht => canon_ite (canon_trapWhole _ _ _ ht) (canon_ite (canon_trapWhole _ _ _ ht) (canon_advance _ _
    (canon_notify _ _ ht)))) hc

/-! ### Tiles (R201 to R219) -/

@[simp] theorem canon_execTdef (c : Common) (t : BitVec 10) (aux : Fld) (hc : Canon s) : CanonOut (execTdef c t aux s) := by
  simp only [execTdef]
  refine canon_perform _ _ ?_ ?_
  · intro x y u hu
    split
    · exact canon_trapWhole _ _ _ hu
    · split
      next e => exact canon_trapWhole _ _ _ (Canon.snd (canon_readRec _ _ hu) e)
      next e => exact canon_pageWhole _ _ _ (Canon.snd (canon_readRec _ _ hu) e)
      next e => exact canon_offerDef _ _ _ _ _ _ (Canon.snd (canon_readRec _ _ hu) e)
  · exact hc
@[simp] theorem canon_execTdefs (c : Common) (t : BitVec 10) (aux : Fld) (hc : Canon s) : CanonOut (execTdefs c t aux s) := by
  simp only [execTdefs]
  refine canon_perform _ _ ?_ ?_
  · intro x y u hu
    split
    · exact canon_trapWhole _ _ _ hu
    · split
      next e => exact canon_trapWhole _ _ _ (Canon.snd (canon_readRecS _ _ hu) e)
      next e => exact canon_pageWhole _ _ _ (Canon.snd (canon_readRecS _ _ hu) e)
      next e => exact canon_offerDef _ _ _ _ _ _ (Canon.snd (canon_readRecS _ _ hu) e)
  · exact hc
@[simp] theorem canon_execTdefa (c : Common) (d aux : Fld) (hc : Canon s) : CanonOut (execTdefa c d aux s) := by
  refine canon_perform _ _ (fun w act t ht => ?_) hc
  have read := canon_readRec w (t.rd2 w aux.toNat 0) ht
  split <;> rename_i e <;> rw [e] at read
  · exact canon_trapWhole _ _ _ read
  · exact canon_pageWhole _ _ _ read
  · split
    · exact canon_trapWhole _ _ _ read
    · split
      · exact canon_advance _ _ (canon_put _ _ _ _ (canon_beginDef _ _ _ _ _ read))
      · exact canon_advance _ _ (canon_parkHere _ _ _ (canon_onCGroup _ _ read))

@[simp] theorem canon_execTkill (c : Common) (t : BitVec 10) (hc : Canon s) : CanonOut (execTkill c t s) := by
  simp only [execTkill]
  refine canon_perform _ _ ?_ ?_
  · intro x y u hu
    split
    · exact canon_trapWhole _ _ _ hu
    · exact canon_killName _ _ (canon_advance _ _ hu)
  · exact hc
@[simp] theorem canon_execTld (c : Common) (wide : Bool) (t : BitVec 10) (d aux : Fld) (hc : Canon s) : CanonOut (execTld c wide t d aux s) := by
  simp only [execTld]
  exact canon_perform _ _ (fun x y u hu => canon_tileRead _ _ _ _ _ _ hu) hc
@[simp] theorem canon_execTrow (c : Common) (t : BitVec 10) (d aux : Fld) (hc : Canon s) : CanonOut (execTrow c t d aux s) := by
  simp +contextual [execTrow, hc]

@[simp] theorem canon_execTst (c : Common) (k : BitVec 3) (t : BitVec 10) (aux : Fld) (hc : Canon s) : CanonOut (execTst c k t aux s) := by
  simp only [execTst]
  refine canon_perform _ _ ?_ ?_
  · intro x y u hu
    split
    · exact canon_trapWhole _ _ _ hu
    · split
      next e => exact canon_trapWhole _ _ _ (Canon.snd (canon_readRec _ _ hu) e)
      next e => exact canon_pageWhole _ _ _ (Canon.snd (canon_readRec _ _ hu) e)
      next e => exact canon_offerReader _ _ _ _ _ _ (canon_advance _ _ (canon_parkHere _ _ _ (Canon.snd (canon_readRec _ _ hu) e)))
  · exact hc
@[simp] theorem canon_execRcfence (c : Common) (dev : Bool) (hc : Canon s) : CanonOut (execRcfence c dev s) := by
  simp only [execRcfence]
  exact canon_perform _ _ (fun x y t ht => canon_advance _ _ (canon_recDrop _ (canon_ite (canon_frame ht) (canon_onCluster _ _ ht)))) hc
@[simp] theorem canon_execTileDefinitionFetch (n : Nat) (hc : Canon s) : CanonOut (execTileDefinitionFetch n s) := by
  simp only [execTileDefinitionFetch]
  refine canonOut_next.2 ?_
  split
  · exact canon_ite hc (canon_frame hc)
  · exact hc
@[simp] theorem canon_execTileDefinitionLands (n : Nat) (hc : Canon s) : CanonOut (execTileDefinitionLands n s) := by
  simp only [execTileDefinitionLands]
  refine canonOut_next.2 ?_
  split
  · refine canon_ite ?_ ?_
    · exact hc
    · split
      · exact canon_ite (canon_endDef _ _ _ (canon_Def_charge _ _ (canon_refused _ (canon_draw (canon_frame hc))))) (canon_endDef _ _ _
          (canon_Def_charge _ _ (canon_draw (canon_frame hc))))
      · exact canon_ite (canon_ite (canon_endDef _ _ _ (canon_Def_charge _ _ (canon_engineMiss _ _ _ (canon_frame hc)))) (canon_engineMiss _ _ _
          (canon_frame hc))) (canon_endDef _ _ _ (canon_Def_charge _ _ (canon_frame hc)))
  · exact hc
@[simp] theorem canon_execHomeSliceAccess (n : Nat) (hc : Canon s) : CanonOut (execHomeSliceAccess n s) := by
  simp only [execHomeSliceAccess]
  refine canonOut_next.2 ?_
  split
  · exact canon_ite (canon_setReq _ _ (canon_serve _ (canon_sealDefs _ hc))) hc
  · exact hc
@[simp] theorem canon_execTileReaderDone (n : Nat) (hc : Canon s) : CanonOut (execTileReaderDone n s) := by
  refine canonOut_next.2 ?_
  split
  · exact hc
  next r _ =>
    split
    · exact hc
    · have landed (d : Fld) (vals : List (Nat × List Word)) : Canon (match s.warp? r.org.warp with
          | some w => vals.foldl (fun t v => t.putLate w d.toNat v.1 v.2) s
          | none => s) := by
        split
        · exact canon_foldl _ (fun t v ht => canon_putLate _ _ _ _ ht) hc
        · exact hc
      dsimp only
      split
      · exact canon_endReader _ (landed _ _)
      · exact canon_endReader _ (landed _ _)
      · exact canon_endReader _ hc
      · exact hc
      · exact hc

/-! ### The copy engine -/

@[simp] theorem canon_execCopyEngineStart (n : Nat) (hc : Canon s) : CanonOut (execCopyEngineStart n s) := by
  simp only [execCopyEngineStart]
  refine canonOut_next.2 ?_
  split
  · exact canon_ite hc (canon_payCopy _ _ (canon_frame (canon_startCopy _ hc)))
  · exact hc
@[simp] theorem canon_execCopyLand (n : Nat) (hc : Canon s) : CanonOut (execCopyLand n s) := by
  simp only [execCopyLand]
  refine canonOut_next.2 ?_
  split
  · refine canon_ite ?_ ?_
    · exact hc
    · split
      next e => exact canon_endCopy _ _ (canon_count _ _ _ (canon_dropLines _ _ (canon_payCopy _ _ (Canon.fst (canon_runCopy _ hc) e))))
      · exact canon_ite (canon_copyMiss _ _ _ hc) hc
  · exact hc
@[simp] theorem canon_execCopyFail (n : Nat) (hc : Canon s) : CanonOut (execCopyFail n s) := by
  simp only [execCopyFail]
  refine canonOut_next.2 ?_
  split
  · refine canon_ite ?_ ?_
    · exact hc
    · split
      next e => exact canon_ite (canon_copyMiss _ _ _ hc) (canon_failCopy _ _ _ _ (canon_payCopy _ _ (Canon.fst (canon_runCopy _ hc) e)))
      · exact canon_ite hc (canon_failCopy _ _ _ _ (canon_refused _ hc))
  · exact hc

/-! ### Narrow results -/

@[simp] theorem canon_execQdec (c : Common) (f : NFmt) (hi : Bool) (r : R3) (hc : Canon s) : CanonOut (execQdec c f hi r s) := by
  simp only [execQdec]
  exact canon_vop _ _ _ hc
@[simp] theorem canon_execQenc (c : Common) (f : NFmt) (hi sat rz : Bool) (r : R3) (hc : Canon s) : CanonOut (execQenc c f hi sat rz r s) := by
  simp [execQenc, hc]

@[simp] theorem canon_execQscale (c : Common) (f : NFmt) (hi xv : Bool) (r : R2) (hc : Canon s) : CanonOut (execQscale c f hi xv r s) := by
  simp only [execQscale]
  exact canon_perform _ _ (fun x y t ht => canon_advance _ _ (canon_wr _ _ _ ht)) hc
@[simp] theorem canon_execQxtra (c : Common) (op : XOp) (hi : Bool) (r : R3) (hc : Canon s) : CanonOut (execQxtra c op hi r s) := by
  simp only [execQxtra]
  exact canon_vop _ _ _ hc

/-! ### Matrix operations and adapters (R223 to R245) -/

@[simp] theorem canon_execMatrixEngineEntry (n : Nat) (hc : Canon s) : CanonOut (execMatrixEngineEntry n s) := by
  simp only [execMatrixEngineEntry]
  refine canonOut_next.2 ?_
  split
  · exact hc
  · exact canon_ite hc (canon_ite (canon_dropMat _ hc) (canon_ite (canon_trapMat _ _ hc) (canon_ite (canon_trapMat _ _ hc) (canon_ite hc (canon_frame
      (canon_passParked _ _ hc))))))
@[simp] theorem canon_execMatrixCommit (n : Nat) (hc : Canon s) : CanonOut (execMatrixCommit n s) := by
  simp only [execMatrixCommit]
  refine canonOut_next.2 ?_
  split
  · exact hc
  · exact canon_ite hc (canon_ite (canon_commit _ (canon_examine _ (canon_begin _ hc))) (canon_examine _ (canon_begin _ hc)))
@[simp] theorem canon_execAdapterRowReplay (n row : Nat) (hc : Canon s) : CanonOut (execAdapterRowReplay n row s) := by
  simp only [execAdapterRowReplay]
  refine canonOut_next.2 ?_
  split
  · exact hc
  · refine canon_ite ?_ ?_
    · exact hc
    · split
      · exact hc
      · exact canon_ite (canon_count _ _ _ (canon_putMat _ (canon_seekAll _ _ hc))) (canon_putMat _ (canon_seekAll _ _ hc))
@[simp] theorem canon_execColumnRewriteDone (core : Nat) (hc : Canon s) : CanonOut (execColumnRewriteDone core s) := by simp [execColumnRewriteDone, hc]

@[simp] theorem canon_execAdapterFillStart (n : Nat) (hc : Canon s) : CanonOut (execAdapterFillStart n s) := by
  simp only [execAdapterFillStart]
  refine canonOut_next.2 ?_
  split
  · exact hc
  · exact canon_ite (canon_frame hc) (canon_ite hc (canon_frame hc))
@[simp] theorem canon_execAdapterFillLands (n : Nat) (hc : Canon s) : CanonOut (execAdapterFillLands n s) := by
  simp only [execAdapterFillLands]
  refine canonOut_next.2 ?_
  split
  · exact hc
  · refine canon_ite ?_ ?_
    · exact hc
    · split
      · exact canon_fillLand _ _ _ _ (canon_chargeSectors _ _ hc)
      · exact canon_ite (canon_ite (canon_fillFail _ _ _ _ (canon_Fill_pay _ _ (canon_fillMiss _ _ hc))) (canon_fillMiss _ _ hc)) hc
@[simp] theorem canon_execAdapterFillFail (n : Nat) (hc : Canon s) : CanonOut (execAdapterFillFail n s) := by
  simp only [execAdapterFillFail]
  refine canonOut_next.2 ?_
  split
  · exact hc
  · refine canon_ite ?_ ?_
    · exact hc
    · split
      · exact canon_ite (canon_ite (canon_fillFail _ _ _ _ (canon_Fill_pay _ _ (canon_fillMiss _ _ hc))) (canon_fillMiss _ _ hc)) (canon_fillFail _ _
          _ _ (canon_Fill_pay _ _ hc))
      · exact canon_ite hc (canon_fillFail _ _ _ _ (canon_Fill_pay _ _ (canon_refused _ hc)))
@[simp] theorem canon_execAclr (c : Common) (acc : BitVec 6) (hc : Canon s) : CanonOut (execAclr c acc s) := by
  simp only [execAclr]
  exact canonOut_next.2 (canon_performWith _ _ _ (fun x y t ht => canon_advance _ _ (canon_onBlock _ _ ht)) hc)
@[simp] theorem canon_execArow (c : Common) (acc : BitVec 6) (d aux : Fld) (hc : Canon s) : CanonOut (execArow c acc d aux s) := by
  simp only [execArow]
  exact canonOut_next.2 (canon_performWith _ _ _ (fun x y t ht => canon_arowLanes _ _ _ _ (fun z u hu => canon_wr _ _ _ hu) ht) hc)
@[simp] theorem canon_execArowSt (c : Common) (acc : BitVec 6) (d aux : Fld) (hc : Canon s) : CanonOut (execArowSt c acc d aux s) := by
  simp only [execArowSt]
  exact canonOut_next.2 (canon_performWith _ _ _ (fun x y t ht => canon_arowLanes _ _ _ _ (fun z u hu => canon_onBlock _ _ hu) ht) hc)
@[simp] theorem canon_execAflag (c : Common) (keep : Bool) (acc : BitVec 6) (d : Fld) (hc : Canon s) : CanonOut (execAflag c keep acc d s) := by
  simp only [execAflag]
  exact canonOut_next.2 (canon_performWith _ _ _ (fun x y t ht => canon_advance _ _ (canon_ite (canon_put _ _ _ _ ht) (canon_onBlock _ _ (canon_put _
    _ _ _ ht)))) hc)
@[simp] theorem canon_execAdpfD (c : Common) (n : BitVec 10) (aux : Fld) (hc : Canon s) : CanonOut (execAdpfD c n aux s) := by
  simp +contextual [execAdpfD, hc]

@[simp] theorem canon_execAdpfU (c : Common) (n : BitVec 10) (aux : Fld) (hc : Canon s) : CanonOut (execAdpfU c n aux s) := by
  simp +contextual [execAdpfU, hc]

@[simp] theorem canon_execAdpfInv (c : Common) (hc : Canon s) : CanonOut (execAdpfInv c s) := by
  simp only [execAdpfInv]
  exact canon_perform _ _ (fun x y t ht => canon_advance _ _ (canon_invShelf _ ht)) hc
@[simp] theorem canon_execAdpfInvd (c : Common) (hc : Canon s) : CanonOut (execAdpfInvd c s) := by
  simp only [execAdpfInvd]
  exact canon_perform _ _ (fun x y t ht => canon_advance _ _ (canon_invShelf _ ht)) hc

/-! ### Convergence and transfers (R107 to R117) -/

@[simp] theorem canon_execCdecl (c : Common) (d a : Fld) (p : Perm) (hc : Canon s) : CanonOut (execCdecl c d a p s) := by simp +contextual [execCdecl, hc]

@[simp] theorem canon_execCdeclIss (c : Common) (d : Fld) (hc : Canon s) : CanonOut (execCdeclIss c d s) := by simp +contextual [execCdeclIss, hc]

@[simp] theorem canon_execCsign (c : Common) (a : Fld) (hc : Canon s) : CanonOut (execCsign c a s) := by
  simp only [execCsign]
  exact canon_perform _ _ (fun x y t ht => canon_converge _ _ (canon_advance _ _ (canon_parkHere _ _ _ (canon_sign _ _ _ ht)))) hc
@[simp] theorem canon_execCsignNw (c : Common) (a : Fld) (hc : Canon s) : CanonOut (execCsignNw c a s) := by
  simp only [execCsignNw]
  exact canon_perform _ _ (fun x y t ht => canon_converge _ _ (canon_advance _ _ (canon_sign _ _ _ ht))) hc
@[simp] theorem canon_execMma (c : Common) (k : MMKind) (acc : BitVec 6) (ta tb : BitVec 10) (cv : BitVec 3) (hc : Canon s) :
    CanonOut (execMma c k acc ta tb cv s) := by
  simp [execMma, hc]

@[simp] theorem canon_execMmalr (c : Common) (k : MMKind) (acc : BitVec 6) (ta tb : BitVec 10) (aux : Fld) (cv : BitVec 3) (hc : Canon s) :
    CanonOut (execMmalr c k acc ta tb aux cv s) := by
  simp [execMmalr, hc]

@[simp] theorem canon_execAdapt (c : Common) (acc sacc : BitVec 6) (cb : BitVec 10) (cv : BitVec 3) (hc : Canon s) : CanonOut (execAdapt c acc sacc cb cv s) := by
  simp [execAdapt, hc]

@[simp] theorem canon_execBra (c : Common) (off : BitVec 32) (hc : Canon s) : CanonOut (execBra c off s) := by
  simp only [execBra]
  refine canon_perform _ _ ?_ ?_
  · intro x y t ht
    split
    · exact canon_advance _ _ (canon_goTo _ _ _ ht)
    · exact canon_trapWhole _ _ _ ht
  · exact hc
@[simp] theorem canon_execCall (c : Common) (off : BitVec 32) (link : Fld) (hc : Canon s) : CanonOut (execCall c off link s) := by
  simp only [execCall]
  refine canon_perform _ _ ?_ ?_
  · intro x y t ht
    split
    · exact canon_trapAll _ _ _ _ _ _ ht
    · exact canon_advance _ _ (canon_goTo _ _ _ (canon_wr _ _ _ ht))
  · exact hc
@[simp] theorem canon_execBrx (c : Common) (a : Fld) (p : Perm) (hc : Canon s) : CanonOut (execBrx c a p s) := by simp +contextual [execBrx, hc]

@[simp] theorem canon_execRet (c : Common) (a : Fld) (p : Perm) (hc : Canon s) : CanonOut (execRet c a p s) := by simp +contextual [execRet, hc]

@[simp] theorem canon_execExit (c : Common) (hc : Canon s) : CanonOut (execExit c s) := by
  simp only [execExit]
  exact canon_perform _ _ (fun x y t ht => canon_convergeAll _ (canon_exited _ (canon_advance _ _ (canon_onLanes _ _ _ _ ht)))) hc
@[simp] theorem canon_execYield (c : Common) (hc : Canon s) : CanonOut (execYield c s) := by
  simp only [execYield]
  exact canon_perform _ _ (fun x y t ht => canon_advance _ _ (canon_onPace _ _ _ ht)) hc
@[simp] theorem canon_execNop (c : Common) (hc : Canon s) : CanonOut (execNop c s) := by simp +contextual [execNop, hc]

@[simp] theorem canon_execBrk (c : Common) (code : BitVec 19) (hc : Canon s) : CanonOut (execBrk c code s) := by
  simp only [execBrk]
  exact canon_perform _ _ (fun x y t ht => canon_advance _ _ (canon_trapAll _ _ _ _ _ _ ht)) hc
@[simp] theorem canon_execTrap (c : Common) (code : BitVec 19) (hc : Canon s) : CanonOut (execTrap c code s) := by
  simp only [execTrap]
  exact canon_perform _ _ (fun x y t ht => canon_advance _ _ (canon_trapAll _ _ _ _ _ _ ht)) hc

/-! ### Integer results and MOVX (R141 to R144) -/

@[simp] theorem canon_execIadd (c : Common) (m : SatMode) (r : R3) (hc : Canon s) : CanonOut (execIadd c m r s) := by simp [execIadd, hc]

@[simp] theorem canon_execIsub (c : Common) (m : SatMode) (r : R3) (hc : Canon s) : CanonOut (execIsub c m r s) := by simp [execIsub, hc]

@[simp] theorem canon_execImul (c : Common) (r : R3) (hc : Canon s) : CanonOut (execImul c r s) := by simp [execImul, hc]

@[simp] theorem canon_execImulh (c : Common) (g : Sgn) (r : R3) (hc : Canon s) : CanonOut (execImulh c g r s) := by simp [execImulh, hc]

@[simp] theorem canon_execImad (c : Common) (r : R3) (hc : Canon s) : CanonOut (execImad c r s) := by simp [execImad, hc]

@[simp] theorem canon_execImadw (c : Common) (g : Sgn) (r : R3) (hc : Canon s) : CanonOut (execImadw c g r s) := by simp [execImadw, hc]

@[simp] theorem canon_execIadd64 (c : Common) (r : R3) (hc : Canon s) : CanonOut (execIadd64 c r s) := by simp [execIadd64, hc]

@[simp] theorem canon_execImin (c : Common) (g : Sgn) (r : R3) (hc : Canon s) : CanonOut (execImin c g r s) := by simp [execImin, hc]

@[simp] theorem canon_execImax (c : Common) (g : Sgn) (r : R3) (hc : Canon s) : CanonOut (execImax c g r s) := by simp [execImax, hc]

@[simp] theorem canon_execIabs (c : Common) (sat : Bool) (r : R2) (hc : Canon s) : CanonOut (execIabs c sat r s) := by simp [execIabs, hc]

@[simp] theorem canon_execIshl (c : Common) (r : R3) (hc : Canon s) : CanonOut (execIshl c r s) := by simp [execIshl, hc]

@[simp] theorem canon_execIshr (c : Common) (r : R3) (hc : Canon s) : CanonOut (execIshr c r s) := by simp [execIshr, hc]

@[simp] theorem canon_execLshr (c : Common) (r : R3) (hc : Canon s) : CanonOut (execLshr c r s) := by simp [execLshr, hc]

@[simp] theorem canon_execRot (c : Common) (right : Bool) (r : R3) (hc : Canon s) : CanonOut (execRot c right r s) := by simp [execRot, hc]

@[simp] theorem canon_execAnd (c : Common) (r : R3) (hc : Canon s) : CanonOut (execAnd c r s) := by simp [execAnd, hc]

@[simp] theorem canon_execOr (c : Common) (r : R3) (hc : Canon s) : CanonOut (execOr c r s) := by simp [execOr, hc]

@[simp] theorem canon_execXor (c : Common) (r : R3) (hc : Canon s) : CanonOut (execXor c r s) := by simp [execXor, hc]

@[simp] theorem canon_execAndn (c : Common) (r : R3) (hc : Canon s) : CanonOut (execAndn c r s) := by simp [execAndn, hc]

@[simp] theorem canon_execPopc (c : Common) (r : R2) (hc : Canon s) : CanonOut (execPopc c r s) := by simp [execPopc, hc]

@[simp] theorem canon_execClz (c : Common) (r : R2) (hc : Canon s) : CanonOut (execClz c r s) := by simp [execClz, hc]

@[simp] theorem canon_execBrev (c : Common) (r : R2) (hc : Canon s) : CanonOut (execBrev c r s) := by simp [execBrev, hc]

@[simp] theorem canon_execBfx (c : Common) (g : Sgn) (r : R3) (hc : Canon s) : CanonOut (execBfx c g r s) := by simp [execBfx, hc]

@[simp] theorem canon_execBfi (c : Common) (r : R3) (hc : Canon s) : CanonOut (execBfi c r s) := by simp [execBfi, hc]

@[simp] theorem canon_execIset (c : Common) (cc : ICmp) (g : Sgn) (r : R3) (hc : Canon s) : CanonOut (execIset c cc g r s) := by simp [execIset, hc]

@[simp] theorem canon_execSel (c : Common) (inv : Bool) (p : BitVec 4) (r : R3) (hc : Canon s) : CanonOut (execSel c inv p r s) := by simp [execSel, hc]

@[simp] theorem canon_execMov (c : Common) (wide : Bool) (r : R2) (hc : Canon s) : CanonOut (execMov c wide r s) := by
  simp only [execMov]
  split
  · exact canon_vop2 _ _ _ hc
  · exact canon_int2 _ _ _ hc
@[simp] theorem canon_execMovi (c : Common) (d : Fld) (imm : Word) (hc : Canon s) : CanonOut (execMovi c d imm s) := by simp [execMovi, hc]

@[simp] theorem canon_execIaddi (c : Common) (d a : Fld) (imm : BitVec 19) (hc : Canon s) : CanonOut (execIaddi c d a imm s) := by simp [execIaddi, hc]

@[simp] theorem canon_execMovxw (c : Common) (k : Wide) (d : Fld) (imm : Word) (hc : Canon s) : CanonOut (execMovxw c k d imm s) := by simp [execMovxw, hc]

@[simp] theorem canon_execLea (c : Common) (g : Sgn) (sh : BitVec 3) (r : R3) (hc : Canon s) : CanonOut (execLea c g sh r s) := by simp [execLea, hc]

@[simp] theorem canon_execIdot4 (c : Common) (sat ua ub : Bool) (r : R3) (hc : Canon s) : CanonOut (execIdot4 c sat ua ub r s) := by simp [execIdot4, hc]

@[simp] theorem canon_execMovx (c : Common) (d a b : Fld) (hc : Canon s) : CanonOut (execMovx c d a b s) := by
  simp only [execMovx]
  exact canon_perform _ _ (fun x y t ht => canon_movxHold _ (canon_movxLanes _ _ _ _ (fun z u hu => canon_wr _ _ _ hu) ht)) hc
@[simp] theorem canon_execMovxSt (c : Common) (d a b : Fld) (hc : Canon s) : CanonOut (execMovxSt c d a b s) := by
  simp only [execMovxSt]
  exact canon_perform _ _ (fun x y t ht => canon_movxHold _ (canon_movxLanes _ _ _ _ (fun z u hu => canon_foldl _ (fun v x₁ hv => canon_wr _ _ _ hv)
    hu) ht)) hc

/-! ### Results across lanes -/

@[simp] theorem canon_execShfl (c : Common) (k : Shfl) (wide : Bool) (r : R3) (hc : Canon s) : CanonOut (execShfl c k wide r s) := by simp [execShfl, hc]

@[simp] theorem canon_execVote (c : Common) (k : Vote) (neg : Bool) (d q : Fld) (hc : Canon s) : CanonOut (execVote c k neg d q s) := by
  simp only [execVote]
  refine canon_perform _ _ ?_ ?_
  · intro x y t ht
    split
    · exact canon_lanePreds _ _ _ _ ht
    · exact canon_lanePreds _ _ _ _ ht
    · exact canon_laneResults _ _ _ _ ht
  · exact hc
@[simp] theorem canon_execVred (c : Common) (op : RedOp) (m : RM) (r : R2) (hc : Canon s) : CanonOut (execVred c op m r s) := by
  simp only [execVred]
  exact canon_perform _ _ (fun x y t ht => canon_laneResults _ _ _ _ ht) hc
@[simp] theorem canon_execVscan (c : Common) (op : RedOp) (m : RM) (r : R2) (hc : Canon s) : CanonOut (execVscan c op m r s) := by
  simp +contextual [execVscan, hc]

@[simp] theorem canon_execPlop (c : Common) (tt : BitVec 4) (d a b : Fld) (hc : Canon s) : CanonOut (execPlop c tt d a b s) := by simp [execPlop, hc]

@[simp] theorem canon_execPmov (c : Common) (toPred : Bool) (r : R2) (hc : Canon s) : CanonOut (execPmov c toPred r s) := by
  simp only [execPmov]
  exact canon_perform _ _ (fun x y t ht => canon_ite (canon_advance _ _ (canon_foldl _ (fun u z hu => canon_wrP _ _ _ hu) ht)) (canon_laneResults _ _
    _ _ ht)) hc
@[simp] theorem canon_execUmov (c : Common) (first wide : Bool) (r : R3) (hc : Canon s) : CanonOut (execUmov c first wide r s) := by
  simp +contextual [execUmov, hc]

/-! ### Issue slots (R103 to R105) -/

@[simp] theorem canon_execIssueSlot (q : Nat) (hc : Canon s) : CanonOut (execIssueSlot q s) := by
  simp only [execIssueSlot]
  exact canonOut_next.2 (canon_ite hc (canon_ite (canon_onQuad _ _ hc) (canon_onQuad _ _ (canon_ite (canon_slot _ _ _ _ _ (canon_foldl _ (fun t x ht
    => canon_countMissed _ _ _ ht) (canon_noteReady _ _ _ (canon_foldl _ (fun u y hu => canon_recFetch _ hu) (canon_foldl _ (fun v z hv =>
    canon_wordFetch _ hv) (canon_foldl _ (fun t₁ x₁ ht₁ => canon_headerTest _ ht₁) (canon_foldl _ (fun t₂ x₂ ht₂ => canon_payAcquire _ ht₂) hc)))))))
    (canon_foldl _ (fun t₃ x₃ ht₃ => canon_countMissed _ _ _ ht₃) (canon_noteReady _ _ _ (canon_foldl _ (fun t₄ x₄ ht₄ => canon_recFetch _ ht₄)
    (canon_foldl _ (fun t₅ x₅ ht₅ => canon_wordFetch _ ht₅) (canon_foldl _ (fun t₆ x₆ ht₆ => canon_headerTest _ ht₆) (canon_foldl _ (fun t19 x₇ ht19
    => canon_payAcquire _ ht19) hc))))))))))
@[simp] theorem canon_execInstructionFetchFill (n : Nat) (hc : Canon s) : CanonOut (execInstructionFetchFill n s) := by
  simp only [execInstructionFetchFill]
  refine canonOut_next.2 ?_
  split
  · exact hc
  · refine canon_ite ?_ ?_
    · exact canon_fillFrom _ _ (canon_frame hc)
    · split
      · exact canon_fillFrom _ _ (canon_coreXl _ _ _ _ (canon_frame hc))
      · exact canon_ite (canon_detect _ _ _ _ (canon_coreXl _ _ _ _ (canon_frame hc))) (canon_fetchFail _ _ _ (canon_detect _ _ _ _ (canon_coreXl _ _
          _ _ (canon_frame hc))))
      · exact canon_ite (canon_coreXl _ _ _ _ (canon_frame hc)) (canon_fetchFail _ _ _ (canon_coreXl _ _ _ _ (canon_frame hc)))
      · exact canon_ite (canon_coreXl _ _ _ _ (canon_frame hc)) (canon_fetchPage _ (canon_coreXl _ _ _ _ (canon_frame hc)))

/-! ### System instructions (R286 to R306) -/

@[simp] theorem canon_execFeatq (c : Common) (d : Fld) (k : BitVec 4) (hc : Canon s) : CanonOut (execFeatq c d k s) := by simp [execFeatq, hc]

@[simp] theorem canon_execLivept (c : Common) (gm : BitVec 10) (b0 : BitVec 11) (l0 : BitVec 6) (b1 : BitVec 11) (l1 : BitVec 6) (hc : Canon s) :
    CanonOut (execLivept c gm b0 l0 b1 l1 s) := by
  simp +contextual [execLivept, hc]

@[simp] theorem canon_execSysr (c : Common) (d : Fld) (n : BitVec 12) (hc : Canon s) : CanonOut (execSysr c d n s) := by simp [execSysr, hc]

@[simp] theorem canon_execSysw (c : Common) (a : Fld) (n : BitVec 12) (hc : Canon s) : CanonOut (execSysw c a n s) := by simp +contextual [execSysw, hc]

@[simp] theorem canon_execClock (c : Common) (nsec : Bool) (d : Fld) (hc : Canon s) : CanonOut (execClock c nsec d s) := by
  simp only [execClock]
  exact canon_perform _ _ (fun x y t ht => canon_laneResults _ _ _ _ (canon_clockNow _ _ ht)) hc
@[simp] theorem canon_execPmc (c : Common) (d : Fld) (e : BitVec 6) (hc : Canon s) : CanonOut (execPmc c d e s) := by simp [execPmc, hc]

@[simp] theorem canon_execHget (c : Common) (k : HKind) (d x : Fld) (hc : Canon s) : CanonOut (execHget c k d x s) := by
  simp only [execHget]
  exact canon_perform _ _ (fun y z t ht => canon_ite (canon_trapAll _ _ _ _ _ _ ht) (canon_advance _ _ (canon_wr _ _ _ ht))) hc
@[simp] theorem canon_execHset (c : Common) (k : HKind) (d x : Fld) (hc : Canon s) : CanonOut (execHset c k d x s) := by
  simp only [execHset]
  exact canon_perform _ _ (fun y z t ht => canon_ite (canon_trapAll _ _ _ _ _ _ ht) (canon_advance _ _ (canon_foldl _ (fun u x₁ hu => canon_hWrite _
    _ _ _ _ hu) ht))) hc
@[simp] theorem canon_execHretRetry (c : Common) (hc : Canon s) : CanonOut (execHretRetry c s) := by
  simp only [execHretRetry]
  exact canon_perform _ _ (fun x y t ht => canon_ite (canon_trapAll _ _ _ _ _ _ ht) (canon_retryLanes _ _ ht)) hc
@[simp] theorem canon_execHretSkip (c : Common) (hc : Canon s) : CanonOut (execHretSkip c s) := by
  simp only [execHretSkip]
  exact canon_perform _ _ (fun x y t ht => canon_ite (canon_trapAll _ _ _ _ _ _ ht) (canon_ite (canon_escHandler _ _ ht) (canon_skipLanes _ _ ht))) hc
@[simp] theorem canon_execHretEsc (c : Common) (hc : Canon s) : CanonOut (execHretEsc c s) := by
  simp only [execHretEsc]
  exact canon_perform _ _ (fun x y t ht => canon_ite (canon_trapAll _ _ _ _ _ _ ht) (canon_escHandler _ _ ht)) hc
@[simp] theorem canon_execHandlerEntry (q : Nat) (hc : Canon s) : CanonOut (execHandlerEntry q s) := by
  simp only [execHandlerEntry]
  refine canonOut_next.2 ?_
  refine canon_ite ?_ ?_
  · exact hc
  · split
    · exact canon_ite (canon_enterTable _ _ hc) hc
    · exact hc

/-! ### Placing (R80 to R90, R113) -/

@[simp] theorem canon_execSchedulerPass (hc : Canon s) : CanonOut (execSchedulerPass s) := by
  simp only [execSchedulerPass]
  refine canonOut_next.2 ?_
  refine canon_foldl _ ?_ ?_
  · intro t x ht
    split
    · exact ht
    · split
      · exact canon_ite (canon_tryHead _ _ (canon_offerFresh _ ht)) (canon_offerFresh _ ht)
      · exact canon_offerFresh _ ht
  · exact canon_foldl _ (fun t x ht => canon_ite ht (canon_tryHeld _ ht)) hc
@[simp] theorem canon_execHeadHoldTimeout (n : Nat) (hc : Canon s) : CanonOut (execHeadHoldTimeout n s) := by
  refine canonOut_next.2 ?_
  split
  · exact hc
  · dsimp only
    split
    · exact hc
    · refine canon_ite hc ?_
      split <;> exact hc

@[simp] theorem canon_execBandwidthWindowEnd (hc : Canon s) : CanonOut (execBandwidthWindowEnd s) := by simp [execBandwidthWindowEnd, hc]

@[simp] theorem canon_execWarpEnd (n : Nat) (hc : Canon s) : CanonOut (execWarpEnd n s) := by
  simp only [execWarpEnd]
  refine canonOut_next.2 ?_
  split
  · exact canon_ite (canon_onBlock _ _ (canon_frame hc)) hc
  · exact hc
@[simp] theorem canon_execBlockEnd (n : Nat) (hc : Canon s) : CanonOut (execBlockEnd n s) := by
  simp only [execBlockEnd]
  refine canonOut_next.2 ?_
  split
  · exact canon_ite (canon_endBlock _ hc) hc
  · exact hc

/-! ### Launches (R58 to R69) -/

@[simp] theorem canon_execTranslationComplete (n : Nat) (hc : Canon s) : CanonOut (execTranslationComplete n s) := by
  simp only [execTranslationComplete]
  refine canonOut_next.2 ?_
  split
  · exact hc
  · refine canon_each _ _ ?_ ?_
    · refine canon_ite ?_ ?_
      · split
        · refine canon_warnQuota _ ?_
          split
          · exact canon_cacheXlat _ (canon_frame hc)
          · dsimp only
            exact canon_frame hc
        · split
          · exact canon_cacheXlat _ (canon_frame hc)
          · dsimp only
            exact canon_frame hc
      · split
        · exact canon_cacheXlat _ (canon_frame hc)
        · dsimp only
          exact canon_frame hc
    · intro t y ht
      split
      · exact canon_launch _ _ _ _ (canon_dropCmd _ ht)
      · exact ht

/-! ### Commands (R57 to R72) -/

@[simp] theorem canon_execRunCommand (q : Nat) (hc : Canon s) : CanonOut (execRunCommand q s) := by simp +contextual [execRunCommand, hc]

@[simp] theorem canon_execRunComplete (n : Nat) (hc : Canon s) : CanonOut (execRunComplete n s) := by
  simp only [execRunComplete]
  refine canonOut_next.2 ?_
  split
  · split
    · exact canon_ite (canon_endGrid _ hc) hc
    · exact canon_ite (canon_endGrid _ hc) hc
    · exact hc
  · exact hc
@[simp] theorem canon_execCopyCommand (q : Nat) (hc : Canon s) : CanonOut (execCopyCommand q s) := by simp +contextual [execCopyCommand, hc]

@[simp] theorem canon_execCopyCommandComplete (n : Nat) (hc : Canon s) : CanonOut (execCopyCommandComplete n s) := by
  refine canonOut_next.2 ?_
  split
  next c _ =>
    split
    next a d len todo _ =>
      have moved : Canon (todo.foldl (fun (r : State × Option VaErr) p =>
          match r.2 with | some _ => r | none => r.1.movePiece c.group a d (s.frontMsg c.group d len) p) (s.dropCmd c.id, none)).1 := by
        refine List.foldlRecOn (motive := fun r : State × Option VaErr => Canon r.1) _ _ (canon_dropCmd _ hc) fun r hr p _ => ?_
        split
        · exact hr
        · exact canon_movePiece _ _ _ _ _ hr
      dsimp only
      split
      · exact canon_fail _ _ _ _ (canon_engineErr _ _ moved)
      · exact canon_ite (canon_fail _ _ _ _ (canon_draw moved)) (canon_nodeDone _ (canon_complete _ _ _ _ (canon_draw moved)))
    · exact hc
  · exact hc

@[simp] theorem canon_execGraphCommand (q : Nat) (hc : Canon s) : CanonOut (execGraphCommand q s) := by
  simp only [execGraphCommand]
  exact canonOut_next.2 (canon_takeCmd _ _ _ hc (fun t x y z ht => canon_complete _ _ _ _ (canon_trigger _ ht)))
@[simp] theorem canon_execSignalCommand (q : Nat) (hc : Canon s) : CanonOut (execSignalCommand q s) := by simp +contextual [execSignalCommand, hc]

@[simp] theorem canon_execWaitCommand (q : Nat) (hc : Canon s) : CanonOut (execWaitCommand q s) := by simp +contextual [execWaitCommand, hc]

@[simp] theorem canon_execWaitPoll (n : Nat) (hc : Canon s) : CanonOut (execWaitPoll n s) := by
  simp only [execWaitPoll]
  refine canonOut_next.2 ?_
  split
  · exact canon_pollWait _ hc
  · exact hc
@[simp] theorem canon_execWaitTimeout (n : Nat) (hc : Canon s) : CanonOut (execWaitTimeout n s) := by
  simp only [execWaitTimeout]
  refine canonOut_next.2 ?_
  split
  · split
    · exact canon_ite (canon_fail _ _ _ _ (canon_dropCmd _ hc)) hc
    · exact hc
  · exact hc
@[simp] theorem canon_execLoadgraphCommand (q : Nat) (hc : Canon s) : CanonOut (execLoadgraphCommand q s) := by
  simp only [execLoadgraphCommand]
  exact canonOut_next.2 (canon_takeCmd _ _ _ hc (fun t x y z ht => canon_ite (canon_fail _ _ _ _ ht) (canon_addCmd _ _ _ (canon_onGraph _ _
    (canon_draw ht)))))
@[simp] theorem canon_execLoadgraphComplete (n : Nat) (hc : Canon s) : CanonOut (execLoadgraphComplete n s) := by
  refine canonOut_next.2 ?_
  split
  next c _ =>
    split
    next g k a early _ =>
      have taken := canon_onGraph g (fun x => { x with loading := false }) (canon_dropCmd c.id hc)
      dsimp only
      split
      · exact canon_fail _ _ _ _ (canon_engineErr _ _ taken)
      · exact canon_ite (canon_fail _ _ _ _ taken) (canon_ite (canon_fail _ _ _ _ taken) (canon_complete _ _ _ _ (canon_onGraph _ _ taken)))
    · exact hc
  · exact hc

@[simp] theorem canon_execGraphRunStart (g : Nat) (hc : Canon s) : CanonOut (execGraphRunStart g s) := by
  simp only [execGraphRunStart]
  exact canonOut_next.2 (canon_ite (canon_onGraph _ _ hc) hc)
@[simp] theorem canon_execGraphNodeRun (g : Nat) (hc : Canon s) : CanonOut (execGraphNodeRun g s) := by simp +contextual [execGraphNodeRun, hc]

@[simp] theorem canon_execGraphNodeCopy (g : Nat) (hc : Canon s) : CanonOut (execGraphNodeCopy g s) := by simp +contextual [execGraphNodeCopy, hc]

@[simp] theorem canon_execGraphNodeSignal (g : Nat) (hc : Canon s) : CanonOut (execGraphNodeSignal g s) := by simp +contextual [execGraphNodeSignal, hc]

@[simp] theorem canon_execGraphNodeWait (g : Nat) (hc : Canon s) : CanonOut (execGraphNodeWait g s) := by simp +contextual [execGraphNodeWait, hc]

@[simp] theorem canon_execGraphNodeIf (g : Nat) (hc : Canon s) : CanonOut (execGraphNodeIf g s) := by
  simp only [execGraphNodeIf]
  refine canonOut_next.2 ?_
  split
  · split
    · exact canon_fail _ _ _ _ (canon_engineErr _ _ hc)
    · exact canon_jumpNode _ _ _ _ _ _ hc
  · exact hc
@[simp] theorem canon_execGraphNodeLoop (g : Nat) (hc : Canon s) : CanonOut (execGraphNodeLoop g s) := by
  simp only [execGraphNodeLoop]
  refine canonOut_next.2 ?_
  split
  · exact canon_jumpNode _ _ _ _ _ _ (canon_onGraph _ _ hc)
  · exact hc
@[simp] theorem canon_execGraphNodeTrigger (g : Nat) (hc : Canon s) : CanonOut (execGraphNodeTrigger g s) := by
  simp only [execGraphNodeTrigger]
  refine canonOut_next.2 ?_
  split
  · exact canon_jumpNode _ _ _ _ _ _ (canon_trigger _ hc)
  · exact hc
@[simp] theorem canon_execTagMessageArrival (t : Nat) (payload : List Byte) (hc : Canon s) : CanonOut (execTagMessageArrival t payload s) := by
  simp only [execTagMessageArrival]
  refine canonOut_next.2 ?_
  refine canon_ite ?_ ?_
  · exact hc
  · refine canon_ite ?_ ?_
    · exact canon_refuseMsg _ _ _ hc
    · refine canon_ite ?_ ?_
      · exact canon_refuseMsg _ _ _ (canon_slotFits _ hc)
      · refine canon_ite ?_ ?_
        · exact canon_refuseMsg _ _ _ (canon_slotFits _ hc)
        · refine canon_ite ?_ ?_
          · exact canon_refuseMsg _ _ _ (canon_slotFits _ hc)
          · refine canon_ite ?_ ?_
            · exact canon_refuseMsg _ _ _ (canon_slotFits _ hc)
            · split
              · exact canon_refuseMsg _ _ _ (canon_engineErr _ _ (canon_slotFits _ hc))
              next e => exact canon_onTag _ _ (Canon.fst (canon_writeVa _ _ _ _ (canon_slotFits _ hc)) e)
@[simp] theorem canon_execTagLaunch (t : Nat) (hc : Canon s) : CanonOut (execTagLaunch t s) := by
  simp only [execTagLaunch]
  refine canonOut_next.2 ?_
  split
  · refine canon_ite ?_ ?_
    · exact canon_fail _ _ _ _ (canon_onTag _ _ hc)
    · split
      · exact canon_fail _ _ _ _ (canon_engineErr _ _ (canon_onTag _ _ hc))
      · refine canon_ite ?_ ?_
        · exact canon_fail _ _ _ _ (canon_onTag _ _ hc)
        · split
          next e => exact canon_fail _ _ _ _ (canon_engineErr _ _ (Canon.fst (canon_writeVa _ _ _ _ (canon_onTag _ _ hc)) e))
          next e => exact canon_ite (canon_runImage _ _ _ _ _ _ (Canon.fst (canon_writeVa _ _ _ _ (canon_onTag _ _ hc)) e)) (canon_ite (canon_onGraph
            _ _ (canon_trigger _ (Canon.fst (canon_writeVa _ _ _ _ (canon_onTag _ _ hc)) e))) (canon_tagDone _ (canon_trigger _ (Canon.fst
            (canon_writeVa _ _ _ _ (canon_onTag _ _ hc)) e))))
  · exact hc

/-! ### Notify registers and queues (R70 to R79, R336) -/

@[simp] theorem canon_execEventRingRoom (q : Nat) (hc : Canon s) : CanonOut (execEventRingRoom q s) := by simp [execEventRingRoom, hc]

@[simp] theorem canon_execQueueTailWrite (q : Nat) (v : Word) (hc : Canon s) : CanonOut (execQueueTailWrite q v s) := by
  simp only [execQueueTailWrite]
  exact canonOut_next.2 (canon_ite hc (canon_ite (canon_onHq _ _ hc) (canon_post _ (canon_onHq _ _ hc))))
@[simp] theorem canon_execQueueEnable (q : Nat) (hc : Canon s) : CanonOut (execQueueEnable q s) := by
  simp only [execQueueEnable]
  exact canonOut_next.2 (canon_ite (canon_onHq _ _ hc) hc)
@[simp] theorem canon_execQueueAck (q : Nat) (v : Word) (hc : Canon s) : CanonOut (execQueueAck q v s) := by simp [execQueueAck, hc]

@[simp] theorem canon_execErrsumClear (q : Nat) (v : Word64) (hc : Canon s) : CanonOut (execErrsumClear q v s) := by simp [execErrsumClear, hc]

@[simp] theorem canon_execGraphTriggerWrite (n : Nat) (v : Word64) (hc : Canon s) : CanonOut (execGraphTriggerWrite n v s) := by
  simp [execGraphTriggerWrite, hc]

@[simp] theorem canon_execGraphTriggerReset (n : Nat) (v : Word64) (hc : Canon s) : CanonOut (execGraphTriggerReset n v s) := by
  simp [execGraphTriggerReset, hc]

@[simp] theorem canon_execHostInterruptWrite (n : Nat) (v : Word64) (hc : Canon s) : CanonOut (execHostInterruptWrite n v s) := by
  simp [execHostInterruptWrite, hc]

@[simp] theorem canon_execHostInterruptRead (n : Nat) (hc : Canon s) : CanonOut (execHostInterruptRead n s) := by simp [execHostInterruptRead, hc]

@[simp] theorem canon_execHostInterruptTimer (n : Nat) (hc : Canon s) : CanonOut (execHostInterruptTimer n s) := by
  simp only [execHostInterruptTimer]
  refine canonOut_next.2 ?_
  split
  · exact canon_ite (canon_interrupt _ (canon_onNreg _ _ hc)) hc
  · exact hc
@[simp] theorem canon_execQueueWakeWrite (n : Nat) (v : Word64) (hc : Canon s) : CanonOut (execQueueWakeWrite n v s) := by simp [execQueueWakeWrite, hc]

@[simp] theorem canon_execQueueWakeRead (n : Nat) (hc : Canon s) : CanonOut (execQueueWakeRead n s) := by simp [execQueueWakeRead, hc]

@[simp] theorem canon_execNotifyLatchWrite (n : Nat) (v : Word64) (hc : Canon s) : CanonOut (execNotifyLatchWrite n v s) := by simp [execNotifyLatchWrite, hc]

@[simp] theorem canon_execNotifyWakeMerge (hc : Canon s) : CanonOut (execNotifyWakeMerge s) := by
  simp only [execNotifyWakeMerge]
  exact canonOut_next.2 (canon_ite (canon_each _ _ (canon_frame hc) (fun t x ht => canon_merge _ ht)) hc)
@[simp] theorem canon_execNotifyApertureGating (hc : Canon s) : CanonOut (execNotifyApertureGating s) := by
  simp only [execNotifyApertureGating]
  exact canonOut_next.2 (canon_frame hc)
@[simp] theorem canon_execNotifyClassEntryWrite (n off size : Nat) (v : Word64) (hc : Canon s) : CanonOut (execNotifyClassEntryWrite n off size v s) := by
  simp only [execNotifyClassEntryWrite]
  exact canonOut_next.2 (canon_ite (canon_onNreg _ _ hc) hc)
@[simp] theorem canon_execWorkQueueEnable (w : Nat) (v : Word) (hc : Canon s) : CanonOut (execWorkQueueEnable w v s) := by
  simp only [execWorkQueueEnable]
  exact canonOut_next.2 (canon_ite hc (canon_ite (canon_onWq _ _ hc) (canon_ite (canon_onWq _ _ hc) hc)))
@[simp] theorem canon_execGroupEnable (g : Nat) (hc : Canon s) : CanonOut (execGroupEnable g s) := by simp [execGroupEnable, hc]

@[simp] theorem canon_execGroupDisable (g : Nat) (hc : Canon s) : CanonOut (execGroupDisable g s) := by
  simp only [execGroupDisable]
  exact canonOut_next.2 (canon_ite hc (canon_onGrp _ _ (canon_frame hc)))

/-! ### Pre-emption and saving (R294 to R298) -/

@[simp] theorem canon_execPreemptStop (c : Nat) (hc : Canon s) : CanonOut (execPreemptStop c s) := by
  simp only [execPreemptStop]
  refine canonOut_next.2 ?_
  split
  · exact hc
  · refine canon_foldl _ ?_ ?_
    · intro t x ht
      split
      · exact canon_ite (canon_haltGroup _ ht) ht
      · exact ht
    · split
      · exact canon_ite (canon_haltCtx _ _ _ hc) hc
      · exact hc
@[simp] theorem canon_execPreemptBoundExpiry (c : Nat) (hc : Canon s) : CanonOut (execPreemptBoundExpiry c s) := by
  simp only [execPreemptBoundExpiry]
  refine canonOut_next.2 ?_
  split
  · exact hc
  · refine canon_foldl _ ?_ ?_
    · intro t x ht
      split
      · exact canon_ite (canon_haltGroup _ ht) ht
      · exact ht
    · split
      · exact canon_ite (canon_haltCtx _ _ _ hc) hc
      · exact hc
@[simp] theorem canon_execPctlGo (g : Nat) (hc : Canon s) : CanonOut (execPctlGo g s) := by simp [execPctlGo, hc]

@[simp] theorem canon_execPctlGoMigrate (g : Nat) (hc : Canon s) : CanonOut (execPctlGoMigrate g s) := by simp [execPctlGoMigrate, hc]

@[simp] theorem canon_execPctlRemove (g : Nat) (hc : Canon s) : CanonOut (execPctlRemove g s) := by
  simp only [execPctlRemove]
  exact canonOut_next.2 (canon_ite hc (canon_each _ _ (canon_onGrp _ _ hc) (fun t x ht => canon_startRemoval _ _ ht)))
@[simp] theorem canon_execSaveEngine (c : Nat) (hc : Canon s) : CanonOut (execSaveEngine c s) := by
  refine canonOut_next.2 ?_
  split
  · exact hc
  next x _ =>
    split
    · exact canon_ite hc (canon_loseSaved _ _ _ hc fun t ht => canon_saveCtx _ _ ht)
    · exact hc
    · refine canon_foldl _ (fun t g ht => canon_ite ht ?_) hc
      have ended := canon_endFinished c ht
      dsimp only
      split
      · exact canon_loseSaved _ _ _ ended fun u hu => canon_saveGroup _ _ hu
      · exact ended

@[simp] theorem canon_execRemovalDrainTimeout (c : Nat) (hc : Canon s) : CanonOut (execRemovalDrainTimeout c s) := by
  refine canonOut_next.2 ?_
  split
  · exact hc
  · split
    · exact canon_ite (canon_finishRemoval (s := { s with net := s.net.filter fun r => r.org.ctx ≠ c }) c hc) hc
    · exact hc

/-! ### Failing units (R91 to R95, R324) -/

@[simp] theorem canon_execLaneCheckFail (q lane : Nat) (hc : Canon s) : CanonOut (execLaneCheckFail q lane s) := by
  simp only [execLaneCheckFail]
  exact canonOut_next.2 (canon_ite hc (canon_ite (canon_reissueAll _ _ (canon_onQuad _ _ (canon_failLane _ _ hc))) (canon_ite (canon_undoAll _
    (canon_onQuad _ _ (canon_failLane _ _ hc))) hc)))
@[simp] theorem canon_execConcordanceRewriteDone (q : Nat) (hc : Canon s) : CanonOut (execConcordanceRewriteDone q s) := by
  simp only [execConcordanceRewriteDone]
  exact canonOut_next.2 (canon_ite (canon_each _ _ (canon_onQuad _ _ hc) (fun t x ht => canon_count _ _ _ ht)) hc)
@[simp] theorem canon_execColumnCheckFail (core col : Nat) (hc : Canon s) : CanonOut (execColumnCheckFail core col s) := by
  simp only [execColumnCheckFail]
  exact canonOut_next.2 (canon_ite hc (canon_onCore _ _ (canon_failColumn _ _ hc)))
@[simp] theorem canon_execChannelDepartureStart (ch : Nat) (hc : Canon s) : CanonOut (execChannelDepartureStart ch s) := by
  simp only [execChannelDepartureStart]
  exact canonOut_next.2 (canon_ite (canon_unitRetired _ _ _ _ _ (canon_onRec _ (canon_frame hc))) hc)
@[simp] theorem canon_execEvacuatorLineStep (hc : Canon s) : CanonOut (execEvacuatorLineStep s) := by
  simp only [execEvacuatorLineStep]
  refine canonOut_next.2 ?_
  split
  · exact hc
  · refine canon_ite ?_ ?_
    · exact hc
    · split
      · exact canon_ite (canon_frame hc) hc
      · exact canon_ite (canon_frame hc) (canon_ite (canon_detect _ _ _ _ (canon_frame hc)) (canon_frame hc))
@[simp] theorem canon_execSliceDeparture (sl : Nat) (hc : Canon s) : CanonOut (execSliceDeparture sl s) := by simp [execSliceDeparture, hc]

/-! ### Inventory passes (R312 to R318) -/

@[simp] theorem canon_execInventoryPassStart (core : Nat) (hc : Canon s) : CanonOut (execInventoryPassStart core s) := by
  simp only [execInventoryPassStart]
  exact canonOut_next.2 (canon_ite hc (canon_ite (canon_beginPass _ hc) hc))
@[simp] theorem canon_execInventoryDrainTimeout (core : Nat) (hc : Canon s) : CanonOut (execInventoryDrainTimeout core s) := by
  refine canonOut_next.2 ?_
  split
  · exact canon_ite (canon_each _ _ hc fun t g ht => canon_leafPreempt _ ht) hc
  · exact hc

@[simp] theorem canon_execInventoryScanEnd (core : Nat) (fails : List UnitFail) (hc : Canon s) : CanonOut (execInventoryScanEnd core fails s) := by
  simp only [execInventoryScanEnd]
  refine canonOut_next.2 ?_
  split
  · exact hc
  · exact canon_ite hc (canon_onCore _ _ (canon_ite (canon_ite hc (canon_passScan _ hc)) (canon_failScan _ (canon_foldl _ (fun t x ht =>
      canon_failUnit _ _ ht) hc))))

/-! ### Errors (R319 to R326) -/

@[simp] theorem canon_execUncorrectableError (site : ErrSite) (hc : Canon s) : CanonOut (execUncorrectableError site s) := by
  refine canonOut_next.2 ?_
  cases site with
  | line pa => exact canon_ite hc (canon_ite (canon_draw hc) (canon_draw hc))
  | writeback pa =>
    dsimp only
    split
    · exact canon_removeGroup _ _ (canon_detectUnit _ _ _ _ ⟨tidy_writeCells hc.mem _ _, hc.host, hc.remote⟩)
    · exact hc
  | scratch b a => exact canon_onBlock _ _ hc
  | sliceTag sl => exact canon_ite hc (canon_sliceGone _ (canon_detectUnit _ _ _ _ hc))
  | ctxState c core acc =>
    dsimp only
    split
    · exact hc
    · split
      · exact canon_failAcc _ _ (canon_startRemoval _ _ (canon_detectUnit _ _ _ _ hc))
      · exact canon_startRemoval _ _ (canon_detectUnit _ _ _ _ hc)

@[simp] theorem canon_execCorrectedError (site : CorrSite) (hc : Canon s) : CanonOut (execCorrectedError site s) := by
  refine canonOut_next.2 ?_
  cases site with
  | near die bit pa cluster core scrubbed =>
    have counted (n : Nat) (sec : Nat) (b : List Byte) : Canon (({ s with wordErr := sput 0 (pa / 8 * 8) n s.wordErr }).logArray sec b) :=
      canon_logArray _ _ hc
    refine canon_ite hc (canon_ite (canon_postDev _ _ _ _ _ _ ?logged) ?logged)
    exact canon_ite (counted _ _ _) (canon_logArray _ _ (counted _ _ _))
  | far pa => exact canon_ite hc hc
  | slice sl => exact canon_ite hc hc

@[simp] theorem canon_execVerticalParityFail (cluster grp pa beat : Nat) (hc : Canon s) : CanonOut (execVerticalParityFail cluster grp pa beat s) := by
  simp only [execVerticalParityFail]
  exact canonOut_next.2 (canon_ite hc (canon_frame hc))
@[simp] theorem canon_execVerticalBeatRetry (cluster : Nat) (passed : Bool) (hc : Canon s) : CanonOut (execVerticalBeatRetry cluster passed s) := by
  simp only [execVerticalBeatRetry]
  refine canonOut_next.2 ?_
  split
  · exact hc
  · exact canon_ite hc (canon_ite (canon_logVert _ _ (canon_dropBeat _ hc)) (canon_frame hc))
@[simp] theorem canon_execWireTestEnd (cluster : Nat) (wire : Option Nat) (stuck : Option Bool) (hc : Canon s) :
    CanonOut (execWireTestEnd cluster wire stuck s) := by
  refine canonOut_next.2 ?_
  split
  · exact hc
  · refine canon_ite hc ?_
    split
    · exact canon_ite hc (canon_ite (canon_unitRetired _ _ _ _ _ (canon_postDev _ _ _ _ _ _ (canon_logVert _ _ (canon_onRec _ (canon_dropBeat _ hc)))))
        (canon_loseBeat _ _ _ hc))
    · exact canon_loseBeat _ _ _ hc

@[simp] theorem canon_execAgeingMonitorRead (cluster driftPermille : Nat) (hc : Canon s) : CanonOut (execAgeingMonitorRead cluster driftPermille s) := by
  simp only [execAgeingMonitorRead]
  exact canonOut_next.2 (canon_ite hc (canon_ite (canon_retireCluster _ (canon_ite (canon_postDev _ _ _ _ _ _ (canon_onRec _ (canon_onCluster _ _
    (canon_onCluster _ _ hc)))) (canon_onCluster _ _ hc))) (canon_ite (canon_postDev _ _ _ _ _ _ (canon_onRec _ (canon_onCluster _ _ (canon_onCluster
    _ _ hc)))) (canon_onCluster _ _ hc))))
@[simp] theorem canon_execClockGlideEnd (cluster : Nat) (hc : Canon s) : CanonOut (execClockGlideEnd cluster s) := by simp [execClockGlideEnd, hc]

/-! ### Float results -/

@[simp] theorem canon_execFadd (c : Common) (m : RM) (r : R3) (hc : Canon s) : CanonOut (execFadd c m r s) := by simp [execFadd, hc]

@[simp] theorem canon_execFsub (c : Common) (m : RM) (r : R3) (hc : Canon s) : CanonOut (execFsub c m r s) := by simp [execFsub, hc]

@[simp] theorem canon_execFmul (c : Common) (m : RM) (r : R3) (hc : Canon s) : CanonOut (execFmul c m r s) := by simp [execFmul, hc]

@[simp] theorem canon_execFfma (c : Common) (m : RM) (r : R3) (hc : Canon s) : CanonOut (execFfma c m r s) := by simp [execFfma, hc]

@[simp] theorem canon_execFmin (c : Common) (r : R3) (hc : Canon s) : CanonOut (execFmin c r s) := by simp [execFmin, hc]

@[simp] theorem canon_execFmax (c : Common) (r : R3) (hc : Canon s) : CanonOut (execFmax c r s) := by simp [execFmax, hc]

@[simp] theorem canon_execFset (c : Common) (cc : FCmp) (r : R3) (hc : Canon s) : CanonOut (execFset c cc r s) := by simp [execFset, hc]

@[simp] theorem canon_execFclass (c : Common) (f : ClassFmt) (r : R2) (hc : Canon s) : CanonOut (execFclass c f r s) := by simp [execFclass, hc]

@[simp] theorem canon_execFrcp (c : Common) (m : RM) (r : R2) (hc : Canon s) : CanonOut (execFrcp c m r s) := by simp [execFrcp, hc]

@[simp] theorem canon_execFrsq (c : Common) (m : RM) (r : R2) (hc : Canon s) : CanonOut (execFrsq c m r s) := by simp [execFrsq, hc]

@[simp] theorem canon_execFsqrt (c : Common) (m : RM) (r : R2) (hc : Canon s) : CanonOut (execFsqrt c m r s) := by simp [execFsqrt, hc]

@[simp] theorem canon_execFexp2 (c : Common) (m : RM) (r : R2) (hc : Canon s) : CanonOut (execFexp2 c m r s) := by simp [execFexp2, hc]

@[simp] theorem canon_execFlog2 (c : Common) (m : RM) (r : R2) (hc : Canon s) : CanonOut (execFlog2 c m r s) := by simp [execFlog2, hc]

@[simp] theorem canon_execFdiv (c : Common) (m : RM) (r : R3) (hc : Canon s) : CanonOut (execFdiv c m r s) := by simp [execFdiv, hc]

@[simp] theorem canon_execFrnd (c : Common) (m : RM) (r : R2) (hc : Canon s) : CanonOut (execFrnd c m r s) := by simp [execFrnd, hc]

@[simp] theorem canon_execFcvt (c : Common) (k : Cvt) (m : RM) (r : R2) (hc : Canon s) : CanonOut (execFcvt c k m r s) := by simp [execFcvt, hc]

@[simp] theorem canon_execFtoi (c : Common) (g : Sgn) (m : RM) (r : R2) (hc : Canon s) : CanonOut (execFtoi c g m r s) := by simp [execFtoi, hc]

@[simp] theorem canon_execItof (c : Common) (g : Sgn) (m : RM) (r : R2) (hc : Canon s) : CanonOut (execItof c g m r s) := by simp [execItof, hc]

@[simp] theorem canon_execFsign (c : Common) (op : SignOp) (h2 : Bool) (r : R3) (hc : Canon s) : CanonOut (execFsign c op h2 r s) := by simp [execFsign, hc]

@[simp] theorem canon_execHfma2 (c : Common) (f : HFmt) (m : RM) (r : R3) (hc : Canon s) : CanonOut (execHfma2 c f m r s) := by simp [execHfma2, hc]

@[simp] theorem canon_execHadd2 (c : Common) (f : HFmt) (m : RM) (r : R3) (hc : Canon s) : CanonOut (execHadd2 c f m r s) := by simp [execHadd2, hc]

@[simp] theorem canon_execHmul2 (c : Common) (f : HFmt) (m : RM) (r : R3) (hc : Canon s) : CanonOut (execHmul2 c f m r s) := by simp [execHmul2, hc]

/-! ### Power and reset (R329 to R339) -/

@[simp] theorem canon_execPowerLoss (hc : Canon s) : CanonOut (execPowerLoss s) := by simp [execPowerLoss, hc]

@[simp] theorem canon_execPowerUpReset (hc : Canon s) : CanonOut (execPowerUpReset s) := by
  simp only [execPowerUpReset]
  exact canonOut_next.2 (canon_frame (canon_cold _ (canon_tear hc)))
@[simp] theorem canon_execPowerSample (avg50us avg1ms tempC : Nat) (hc : Canon s) : CanonOut (execPowerSample avg50us avg1ms tempC s) := by
  simp only [execPowerSample]
  exact canonOut_next.2 (canon_ite (canon_hold hc) (canon_ite (canon_frame hc) (canon_ite (canon_frame hc) (canon_frame hc))))
@[simp] theorem canon_execAlarmClockStep (hc : Canon s) : CanonOut (execAlarmClockStep s) := by
  have stepped (n : Nat) : Canon { s with steps := n, stepAt := s.ns }.glideAll := canon_glideAll (s := { s with steps := n, stepAt := s.ns }) hc
  refine canonOut_next.2 ?_
  split <;> exact canon_ite (stepped _) hc

@[simp] theorem canon_execBootgo (v : Word) (hc : Canon s) : CanonOut (execBootgo v s) := by
  simp only [execBootgo]
  exact canonOut_next.2 (canon_ite (canon_frame hc) hc)
@[simp] theorem canon_execBootVerificationEnd (hc : Canon s) : CanonOut (execBootVerificationEnd s) := by
  simp only [execBootVerificationEnd]
  exact canonOut_next.2 (canon_ite hc (canon_ite (canon_frame hc) (canon_frame hc)))
@[simp] theorem canon_execRetirementRecordApplied (hc : Canon s) : CanonOut (execRetirementRecordApplied s) := by
  simp only [execRetirementRecordApplied]
  refine canonOut_next.2 ?_
  refine canon_ite ?_ ?_
  · exact hc
  · split
    · exact canon_frame hc
    · exact canon_frame (canon_apply _ hc)
@[simp] theorem canon_execAttgo (v : Word) (hc : Canon s) : CanonOut (execAttgo v s) := by
  simp only [execAttgo]
  exact canonOut_next.2 (canon_ite (canon_frame hc) hc)
@[simp] theorem canon_execAttestationReportComplete (hc : Canon s) : CanonOut (execAttestationReportComplete s) := by
  simp only [execAttestationReportComplete]
  exact canonOut_next.2 (canon_ite (canon_frame hc) hc)

/-! ### Registers of the device (R333 to R336) -/

@[simp] theorem canon_execInvctlWrite (v : Word) (hc : Canon s) : CanonOut (execInvctlWrite v s) := by
  simp only [execInvctlWrite]
  exact canonOut_next.2 (canon_ite (canon_frame hc) hc)
@[simp] theorem canon_execPwrlimWrite (v : Word) (hc : Canon s) : CanonOut (execPwrlimWrite v s) := by
  simp only [execPwrlimWrite]
  exact canonOut_next.2 (canon_ite (canon_frame hc) hc)
@[simp] theorem canon_execRegisterWrite (bar off size : Nat) (v : Word64) (hc : Canon s) : CanonOut (execRegisterWrite bar off size v s) := by
  refine canonOut_next.2 ?_
  split
  · exact canon_writeBar0 _ _ hc
  · exact canon_writeBar2 _ _ hc
  · exact canon_writeBar4 _ _ hc
  · exact ⟨hc.mem, tidy_writeCells hc.host _ _, hc.remote⟩
  · exact ⟨hc.mem, hc.host, tidy_writeCells hc.remote _ _⟩
  · exact hc

@[simp] theorem canon_execHostLinkDown (hc : Canon s) : CanonOut (execHostLinkDown s) := by
  simp only [execHostLinkDown]
  exact canonOut_next.2 (canon_failWindow _ _ (canon_frame hc))
@[simp] theorem canon_execFabricLinkDown (node : Nat) (hc : Canon s) : CanonOut (execFabricLinkDown node s) := by
  simp only [execFabricLinkDown]
  exact canonOut_next.2 (canon_failWindow _ _ (canon_frame hc))
@[simp] theorem canon_execRemoteDeviceReset (node : Nat) (hc : Canon s) : CanonOut (execRemoteDeviceReset node s) := by
  refine canonOut_next.2 (canon_each _ _ (canon_each _ _ (canon_each _ _ (canon_each _ _ (canon_each _ _ (canon_failWindow _ _ hc)
    fun t n ht => ?copies) fun t n ht => ?defs) fun t n ht => ?fills) fun t n ht => ?fetches) fun t c ht => ?cmds)
  case copies => split <;> grind [canon_resetOne, canon_failCopy]
  case defs => split <;> grind [canon_resetOne, canon_endDef]
  case fills => split <;> grind [canon_resetOne, canon_fillFail]
  case fetches =>
    split
    · refine canon_ite (canon_resetOne _ _ _ ht fun u _ hu => ?_) ht
      exact canon_ite hu (canon_fetchFail _ _ _ hu)
    · exact ht
  case cmds =>
    split
    · exact canon_resetOne _ _ _ ht fun u x hu => canon_fail _ _ _ _ (canon_onGraph _ _ (canon_dropCmd _ hu))
    · exact canon_resetOne _ _ _ ht fun u x hu => canon_fail _ _ _ _ (canon_dropCmd _ hu)
    · exact ht

/-- Every instruction and every event keeps the memories in canonical form. -/
theorem exec_canon (i : Instr) (hc : Canon s) : CanonOut (exec i s) := by
  delta exec
  cases i <;> dsimp only <;> simp [hc]

theorem canon_nextEvent (hc : Canon s) : Canon s.nextEvent.2 := by
  simp only [State.nextEvent]
  split
  · dsimp only
    exact canon_frame hc
  · dsimp only
    exact canon_frame hc
theorem CanonOut.bind {o : Out} {f : State → Out} : CanonOut o → (∀ t, Canon t → CanonOut (f t)) →
    CanonOut (match o with | .next t => f t | .fault e => .fault e | .refused r => .refused r) := by
  intro ho hf
  cases o with
  | next t => exact hf t (ho t rfl)
  | fault e => exact fun _ h => nomatch h
  | refused r => exact fun _ h => nomatch h

theorem canon_issued (hc : Canon s) : CanonOut (issued s) := by
  unfold issued
  split
  · exact canonOut_next.2 (canon_settle hc)
  next i _ => exact (exec_canon i hc).bind fun u hu => canonOut_next.2 (canon_settle (canon_finishIssue hu))

theorem step_canon (hc : Canon s) : CanonOut (step s) := (exec_canon s.nextEvent.1 (canon_nextEvent hc)).bind fun _ ht => canon_issued ht

end Meanings

/-- Settles O42. -/
theorem stepKeepsMemory : Obligations.StepKeepsMemory := fun _ t hc h => step_canon hc t h

end Sys2Proof.Machine

/-! SUPPORT. Accesses to a place (R173, R175, R176, R338): the memory that a place lies in, what a read of it returns, what a write leaves of every memory, and
where each is refused. -/

namespace Sys2Proof.Machine

open Claims Laws

variable {s : State}

/-- A run read from a canonical memory is what stands at each of its addresses. -/
theorem readCells_eq_map {m : Sparse Byte} (h : Tidy m) (a n : Nat) : readCells m a n = (List.range n).map fun k => sget 0 (a + k) m := by
  refine List.ext_getElem (by simp) fun i hi hr => ?_
  have at_i := readCells_getD h a n i (by simpa using hi)
  rw [List.getD_eq_getElem _ _ hi] at at_i
  simpa using at_i

/-- The lines of an access are the numbers from its first byte's to its last one's. -/
theorem mem_linesOf {pa n l : Nat} (hn : 0 < n) : l ∈ Machine.linesOf pa n ↔ pa / 256 ≤ l ∧ l ≤ (pa + n - 1) / 256 := by
  rw [Machine.linesOf, if_neg hn.ne', List.mem_map]
  constructor
  · rintro ⟨k, hk, rfl⟩
    rw [List.mem_range] at hk
    omega
  · rintro ⟨lo, hi⟩
    exact ⟨l - pa / 256, List.mem_range.2 (by omega), by omega⟩

theorem readDev_eq_none {pa n : Nat} (hn : 0 < n) : s.readDev pa n = none ↔ ∃ l, pa / 256 ≤ l ∧ l ≤ (pa + n - 1) / 256 ∧ l ∈ s.badLines := by
  simp [State.readDev, mem_linesOf hn, and_assoc]

theorem readDev_some {pa n : Nat} {b : List Byte} (h : s.readDev pa n = some b) : b = readCells s.mem pa n := by
  simp only [State.readDev, Option.ite_none_left_eq_some, Option.some.injEq] at h
  exact h.2.symm

theorem writeLine_eq_none {pa group : Nat} {b : List Byte} {ef : Bool} : s.writeLine pa b group ef = none ↔ pa / 256 ∈ s.badLines ∧ b.length ≠ 256 := by
  simp [State.writeLine]

/-- A memory's canonical form by its number. -/
theorem Canon.memNo (hc : Canon s) (k : Nat) : Tidy (memNo s k) := by
  unfold Claims.memNo
  split
  · exact hc.mem
  · split
    · exact hc.host
    · exact hc.remote

/-- A read that succeeds returns the run of its place's memory. -/
theorem readTgt_ok {t : Tgt} {n : Nat} {b : List Byte} (h : s.readTgt t n = .ok b) : b = readCells (memNo s (spot t).1) (spot t).2 n := by
  cases t with
  | dev pa =>
    simp only [State.readTgt] at h
    split at h
    · cases h
    · split at h
      next x hx => cases h; exact readDev_some hx
      next => cases h
  | host ba =>
    simp only [State.readTgt] at h
    split at h <;> cases h
    rfl
  | fab node pa =>
    simp only [State.readTgt] at h
    split at h
    · cases h
    · split at h <;> cases h
      rfl

/-- A write that succeeds changes the memory of its place alone, by its bytes. -/
theorem writeTgt_ok {t : Tgt} {b : List Byte} {group : Nat} {ef : Bool} {u : State} (h : s.writeTgt t b group ef = .ok u) :
    ∀ k < 3, memNo u k = if k = (spot t).1 then writeCells (spot t).2 b (memNo s k) else memNo s k := by
  intro k hk
  obtain rfl | rfl | rfl : k = 0 ∨ k = 1 ∨ k = 2 := by omega
  all_goals
    cases t with
    | dev pa =>
      simp only [State.writeTgt] at h
      split at h
      · cases h
      · split at h
        next x hx => cases h; rw [writeLine_only hx]; rfl
        next => cases h
    | host ba =>
      simp only [State.writeTgt] at h
      split at h <;> cases h
      rfl
    | fab node pa =>
      simp only [State.writeTgt] at h
      split at h
      · cases h
      · split at h <;> cases h
        rfl

/-- Where a read is refused. -/
theorem readTgt_fails (t : Tgt) {n : Nat} (hn : 0 < n) : (s.readTgt t n).isOk = false ↔ match t with
    | .dev pa => 0x30001000000 ≤ pa ∨ ∃ l, pa / 256 ≤ l ∧ l ≤ (pa + n - 1) / 256 ∧ l ∈ s.badLines
    | .host _ => s.linkUp = false
    | .fab node pa => node ∈ s.deadNodes ∨ 0x30000000000 ≤ pa := by
  cases t with
  | dev pa =>
    refine .trans ?_ (or_congr_right (readDev_eq_none hn))
    by_cases far : 0x30001000000 ≤ pa
    · simp [State.readTgt, inAperture, apertureBase, far, Except.isOk, Except.toBool]
    · cases got : s.readDev pa n <;> simp [State.readTgt, inAperture, apertureBase, far, got, Except.isOk, Except.toBool]
  | host ba => cases up : s.linkUp <;> simp [State.readTgt, up, Except.isOk, Except.toBool]
  | fab node pa =>
    by_cases dead : node ∈ s.deadNodes
    · simp [State.readTgt, dead, Except.isOk, Except.toBool]
    · by_cases tags : 0x30000000000 ≤ pa <;> simp [State.readTgt, tagBase, dead, tags, Except.isOk, Except.toBool]

/-- Where a write is refused. -/
theorem writeTgt_fails (t : Tgt) (b : List Byte) (group : Nat) (ef : Bool) : (s.writeTgt t b group ef).isOk = false ↔ match t with
    | .dev pa => 0x30001000000 ≤ pa ∨ (pa / 256 ∈ s.badLines ∧ b.length ≠ 256)
    | .host _ => s.linkUp = false
    | .fab node pa => node ∈ s.deadNodes ∨ 0x30000000000 ≤ pa := by
  cases t with
  | dev pa =>
    refine .trans ?_ (or_congr_right (writeLine_eq_none (group := group) (ef := ef)))
    by_cases far : 0x30001000000 ≤ pa
    · simp [State.writeTgt, inAperture, apertureBase, far, Except.isOk, Except.toBool]
    · cases got : s.writeLine pa b group ef <;> simp [State.writeTgt, inAperture, apertureBase, far, got, Except.isOk, Except.toBool]
  | host ba => cases up : s.linkUp <;> simp [State.writeTgt, up, Except.isOk, Except.toBool]
  | fab node pa =>
    by_cases dead : node ∈ s.deadNodes
    · simp [State.writeTgt, dead, Except.isOk, Except.toBool]
    · by_cases tags : 0x30000000000 ≤ pa <;> simp [State.writeTgt, tagBase, dead, tags, Except.isOk, Except.toBool]

/-- What a write that succeeds leaves at every byte of every memory. -/
theorem sget_writeTgt {t : Tgt} {b : List Byte} {group : Nat} {ef : Bool} {u : State} (hc : Canon s) (h : s.writeTgt t b group ef = .ok u)
    {k : Nat} (hk : k < 3) (a : Nat) : sget 0 a (memNo u k) =
      if k = (spot t).1 ∧ (spot t).2 ≤ a ∧ a < (spot t).2 + b.length then b.getD (a - (spot t).2) 0 else sget 0 a (memNo s k) := by
  rw [writeTgt_ok h k hk]
  split
  next place => rw [sget_writeCells (hc.memNo k)]; simp [place]
  next other => simp [other]

/-- Settles O43. -/
theorem memoryReadAfterWrite : Obligations.MemoryReadAfterWrite :=
  ⟨fun _ t b g ef _ hc h => ⟨canon_writeTgt t b g ef hc h, fun _ a hk => sget_writeTgt hc h hk a⟩,
    fun _ _ _ _ hc h => (readTgt_ok h).trans (readCells_eq_map (Canon.memNo hc _) _ _),
    fun _ t _ hn => readTgt_fails t hn, fun _ t b g ef => writeTgt_fails t b g ef⟩

end Sys2Proof.Machine

/-! SUPPORT. Memory instructions at issue (R167, R170, R183, R315, R318): what an issue that notes no latency does, the voiding of its block, how the accesses
of its lanes end, and what each end leaves. -/

namespace Sys2Proof.Machine

open Claims Laws

section Issue

variable {i : Instr} {s t : State} {w : Warp} {act : Mask} {m : MOp} {n : Nat} {a : Acc} {u : Bool} {f : Nat → State → Ends × State}

/-! ## Voiding (R315, R318) -/

theorem voids_eq (i : Instr) : voids i = voiding i := rfl

/-- Voiding touches records of blocks, groups and grids alone. -/
theorem void_only (s : State) (w : Warp) (i : Instr) :
    s.void w i = { s with blocks := (s.void w i).blocks, cgroups := (s.void w i).cgroups, grids := (s.void w i).grids } := by
  unfold State.void State.keepGroup
  split
  · split
    · split <;> rfl
    · rfl
  · rfl

theorem void_of_voiding (h : voiding i = true) (s : State) (w : Warp) : s.void w i = (voided s w).keepGroup w := if_pos ((voids_eq i).trans h)

/-- Voiding leaves a warp its group. -/
theorem warpGroup_voided (s : State) (w : Warp) : (voided s w).warpGroup w = s.warpGroup w := by
  unfold State.warpGroup voided
  rw [block?_onBlock w.blk w.blk (f := fun b => { b with voided := true }) fun _ => rfl]
  simp only [if_true]
  cases s.block? w.blk <;> rfl

theorem keepGroup_again (w : Warp) {g : CGroup} {c : Ctx} (hg : s.warpGroup w = some g) (ha : g.again = true) (hc : s.ctx? w.ctx = some c) :
    s.keepGroup w = (s.onCGroup g.id fun x => { x with again := false }).onGrid c.grid fun x => x.suspect (c.h.groupLins g.gidx) := by
  simp only [State.keepGroup, hg, hc, ha, if_true]

theorem keepGroup_once (w : Warp) (h : ∀ g, s.warpGroup w = some g → g.again = false) : s.keepGroup w = s := by
  unfold State.keepGroup
  split
  next g _ hg _ => rw [h g hg]; rfl
  next => rfl

/-! ## What operands read -/

/-- `t` differs from `s` in nothing that an issue reads for its operands and requests: the issue itself, the next number, contexts, banks, and of blocks
their numbers. -/
structure ReadsOperands (s t : State) : Prop where
  iss : t.iss = s.iss
  nextId : t.nextId = s.nextId
  ctxs : t.ctxs = s.ctxs
  quads : t.quads = s.quads
  block : ∀ k, (t.block? k).map (fun b => (b.lin, b.pos)) = (s.block? k).map fun b => (b.lin, b.pos)

theorem ReadsOperands.refl (s : State) : ReadsOperands s s := ⟨rfl, rfl, rfl, rfl, fun _ => rfl⟩

theorem ReadsOperands.trans {v : State} (h : ReadsOperands s t) (k : ReadsOperands t v) : ReadsOperands s v :=
  ⟨k.iss.trans h.iss, k.nextId.trans h.nextId, k.ctxs.trans h.ctxs, k.quads.trans h.quads, fun j => (k.block j).trans (h.block j)⟩

theorem ReadsOperands.onBlock (s : State) (i : Nat) {f : Block → Block} (hid : ∀ b, (f b).id = b.id) (hlin : ∀ b, (f b).lin = b.lin)
    (hpos : ∀ b, (f b).pos = b.pos) : ReadsOperands s (s.onBlock i f) := by
  refine ⟨rfl, rfl, rfl, rfl, fun k => ?_⟩
  rw [block?_onBlock _ _ hid]
  cases s.block? k with
  | none => rfl
  | some b => by_cases hk : k = i <;> simp [hk, hlin, hpos]

theorem readsOperands_void (s : State) (w : Warp) (i : Instr) : ReadsOperands s (s.void w i) := by
  have marked : ReadsOperands s (s.onBlock w.blk fun b => { b with voided := true }) := .onBlock _ _ (fun _ => rfl) (fun _ => rfl) fun _ => rfl
  unfold State.void State.keepGroup
  split
  · refine marked.trans ?_
    split
    · split <;> exact ⟨rfl, rfl, rfl, rfl, fun _ => rfl⟩
    · exact .refl _
  · exact .refl s

theorem ReadsOperands.ctx? (h : ReadsOperands s t) (k : Nat) : t.ctx? k = s.ctx? k := by rw [State.ctx?, h.ctxs, State.ctx?]

theorem ReadsOperands.special (h : ReadsOperands s t) (w : Warp) (n l : Nat) : t.special w n l = s.special w n l := by
  have numbers := h.block w.blk
  simp only [State.special, h.ctx?]
  cases ht : t.block? w.blk <;> cases hs : s.block? w.blk <;> rw [ht, hs] at numbers <;> simp_all

theorem ReadsOperands.reg (h : ReadsOperands s t) (w : Warp) (n l : Nat) : t.reg w n l = s.reg w n l := by
  simp only [State.reg, State.bankRegs, State.quad, h.quads, h.special]

theorem ReadsOperands.rd (h : ReadsOperands s t) (w : Warp) (n l : Nat) : t.rd w n l = s.rd w n l := by simp only [State.rd, h.iss, h.reg]

theorem ReadsOperands.rd2 (h : ReadsOperands s t) (w : Warp) (n l : Nat) : t.rd2 w n l = s.rd2 w n l := by simp only [State.rd2, h.rd]

theorem ReadsOperands.address (h : ReadsOperands s t) (m : MOp) (w : Warp) (l : Nat) : address m t w l = address m s w l := by
  simp only [Claims.address, pair, h.reg]

theorem ReadsOperands.rdst (h : ReadsOperands s t) (w : Warp) : t.rdst w = s.rdst w := by simp only [State.rdst, h.ctx?]

theorem ReadsOperands.redoStream (h : ReadsOperands s t) (w : Warp) (m : MOp) (l : Nat) : redoStream t w m l = redoStream s w m l := by
  simp only [Machine.redoStream, h.rd]

theorem ReadsOperands.redoPlace (h : ReadsOperands s t) (w : Warp) (x : Word64) (act : Mask) (l : Nat) : t.redoPlace w x act l = s.redoPlace w x act l := by
  simp only [State.redoPlace, h.redoStream, redoTicket, h.rd, h.rdst]

theorem ReadsOperands.memTrap (h : ReadsOperands s t) (w : Warp) (act : Mask) : memTrap t w act = memTrap s w act := by
  funext c va l
  simp only [Claims.memTrap, h.iss, h.redoPlace]

theorem MOpAddr_eq (h : s.iss.early = []) (m : MOp) (w : Warp) (l : Nat) : MOpAddr m s w l = address m s w l := by
  rw [MOpAddr, Claims.address, rd2_noEarly h]

/-! ## Issues without a latency -/

/-- An instruction of no fixed latency whose results are due leaves no note. -/
theorem note_untimed (s0 : State) (w : Warp) (act : Mask) (i : Instr) (s : State) (hn : nominal i = none)
    (h : (writeKeys i).any (w.undue s0.iss.now) = false) : s0.note w act i s = s := by
  have timeless : latency i (s0.quad w.q).beats = none := by simp [latency, hn]
  unfold State.note
  simp only [timeless]
  split
  · rfl
  · refine List.foldlRecOn (motive := (· = s)) _ _ rfl fun t ht k hk => ?_
    subst ht
    refine foldl_same _ _ _ fun l => overtake_none _ _ _ _ _ _ fun f hf hc => ?_
    obtain ⟨fixed, late⟩ := List.mem_filter.1 hf
    refine List.any_eq_false.1 h k hk ?_
    simp only [Warp.undue, List.any_eq_true, Bool.and_eq_true, decide_eq_true_eq] at late ⊢
    exact ⟨f, fixed, hc, by omega⟩

/-- An instruction of no fixed latency does its effect and no more. -/
theorem exec_untimed {body : Warp → Mask → State → State} (ha : Acts i s w act) (hx : exec i s = perform i body s) (hn : nominal i = none) :
    exec i s = .next (body w act (s.void w i)) := by
  obtain ⟨-, -, -, -, -, -, hdue, -⟩ := id ha
  rw [hx, perform_acts ha, note_untimed _ _ _ _ _ hn ?_]
  rw [void_iss]
  exact (any_append_false hdue).2

/-- The instructions on global memory, one by one. -/
inductive GlobalOp (w : Warp) (act : Mask) : Instr → MOp → Nat → Acc → Bool → (Nat → State → Ends × State) → Prop
  | ld (c sx h m) : GlobalOp w act (.ld c sx h m) m (sizeBytes m.size) .read (isS m.data.toNat)
      (loadLane w m sx false h (if isS m.data.toNat then act else 0#32))
  | ldro (c sx m) : GlobalOp w act (.ldro c sx m) m (sizeBytes m.size) .read (isS m.data.toNat)
      (loadLane w m sx true .dflt (if isS m.data.toNat then act else 0#32))
  | st (c h m) : GlobalOp w act (.st c h m) m (sizeBytes m.size) .write (uniStore m) (storeLane w m h (if uniStore m then act else 0#32))
  | atom (c op m) : GlobalOp w act (.atom c op m) m (sizeBytes m.size) .atomic (isS m.data.toNat)
      (atomLane w op m (if isS m.data.toNat then act else 0#32))
  | redo (c op m) : GlobalOp w act (.redo c op m) m (sizeBytes m.size) .atomic (uniStore m) (redoLane w op m (if uniStore m then act else 0#32))
  | zline (c m) : GlobalOp w act (.zline c m) m 256 .write false (zlineLane w m)

theorem globalOp_iff : globalOp w act i = some (m, n, a, u, f) ↔ GlobalOp w act i m n a u f := by
  constructor
  · intro h
    unfold globalOp at h
    split at h <;> cases h <;> constructor
  · rintro ⟨⟩ <;> rfl

/-- An instruction on global memory runs the accesses of its lanes. -/
theorem exec_globalOp (hg : globalOp w act i = some (m, n, a, u, f)) (ha : Acts i s w act) :
    exec i s = .next (memLanes w act (if u then act else 0#32) a f (s.void w i)) := by
  cases globalOp_iff.1 hg <;> exact exec_untimed ha rfl rfl

/-! ## How the lanes end -/

theorem endsOf_lanes (f : Nat → State → Ends × State) (ls : List Nat) (s : State) : (endsOf f ls s).1.map (·.1) = ls := by
  induction ls generalizing s with
  | nil => rfl
  | cons l r ih => simp [endsOf, ih]

/-- The model's pass over the lanes is the list of their ends. -/
theorem foldl_endsOf (f : Nat → State → Ends × State) (ls : List Nat) (es : List (Nat × Ends)) (s : State) :
    ls.foldl (fun (r : List (Nat × Ends) × State) l => let x := f l r.2; (r.1 ++ [(l, x.1)], x.2)) (es, s) = (es ++ (endsOf f ls s).1, (endsOf f ls s).2) := by
  induction ls generalizing es s with
  | nil => simp [endsOf]
  | cons l r ih => rw [List.foldl_cons, ih]; simp [endsOf]

/-- How the access that serves a lane ended: its own, or the lowest lane's that serves all. -/
def endIn (q : List (Nat × Ends)) (u : Bool) (act : Mask) (l : Nat) : Ends :=
  ((q.find? fun x => x.1 = if u then lowestLane act else l).map (·.2)).getD .done

/-- A list with one entry for each key is what a look for each key finds. -/
theorem eq_map_find {α : Type} (d : α) {q : List (Nat × α)} (h : (q.map (·.1)).Nodup) :
    q = (q.map (·.1)).map fun l => (l, ((q.find? fun x => x.1 = l).map (·.2)).getD d) := by
  rw [List.map_map]
  refine (List.map_id q).symm.trans (List.map_congr_left fun x hx => ?_)
  obtain ⟨y, hy⟩ : ∃ y, q.find? (fun y => y.1 = x.1) = some y := Option.isSome_iff_exists.1 (by simpa using ⟨x.2, hx⟩)
  have same : y = x := List.inj_on_of_nodup_map h (List.mem_of_find?_eq_some hy) hx (by simpa using List.find?_some hy)
  simp [hy, same]

theorem nodup_lanesOf (m : Mask) : (lanesOf m).Nodup := List.Nodup.filter _ (by decide : lanes32.Nodup)

/-- What each lane of a uniform issue meets: the end of its one access. -/
theorem endIn_uniform (f : Nat → State → Ends × State) (s : State) (act : Mask) (l : Nat) :
    endIn (endsOf f (accessors act true) s).1 true act l = (f (lowestLane act) s).1 := by
  simp [accessors, endsOf, endIn]

/-- Where each lane has its own access, the ends in their order are those of the lanes. -/
theorem ends_of_lanes (f : Nat → State → Ends × State) (s : State) (act : Mask) :
    (endsOf f (accessors act false) s).1 = (lanesOf act).map fun l => (l, endIn (endsOf f (accessors act false) s).1 false act l) := by
  have keys : (endsOf f (accessors act false) s).1.map (·.1) = lanesOf act := endsOf_lanes f _ s
  refine (eq_map_find .done (keys ▸ nodup_lanesOf act)).trans ?_
  rw [keys]
  rfl

theorem mem_accessors {l : Nat} (hl : act.getLsbD l = true) : (if u then lowestLane act else l) ∈ accessors act u := by
  cases u <;> simp [accessors, mem_lanesOf, hl]

/-- What is left of an issue whose accesses have run, `t`, by how each of its lanes ended: sub-warps of the lanes that trap, by class, and the others move on. -/
def afterEnds (s : State) (w : Warp) (act : Mask) (how : Nat → Ends) (t : State) : State :=
  ([5, 6, 7].foldl (fun t cls => t.takeTrap w s.iss.hnd cls ((lanesOf act).filterMap fun l => trapOf cls l (memTrap s w act) (how l))) t).advance w
    (s.iss.lanes &&& ~~~picked act fun l => how l ≠ .done)

/-- The model's last steps over the lanes' ends: `g` gives a lane's trap of a class, and `k` does nothing where no lane waits. -/
theorem afterEnds_eq {how : Nat → Ends} {g : Nat → Nat × Ends → Option TrapLane} {k : State → Nat × Ends → State}
    (hg : ∀ cls l, g cls (l, how l) = trapOf cls l (memTrap s w act) (how l)) (hk : ∀ t l, k t (l, how l) = t) {es : List (Nat × Ends)}
    (he : es = (lanesOf act).map fun l => (l, how l)) (t : State) :
    (es.foldl k ([tXLATE, tALIGN, tABORT].foldl (fun t c => t.takeTrap w s.iss.hnd c (es.filterMap (g c))) t)).advance w
      (s.iss.lanes &&& ~~~maskOf fun l => es.any fun x => decide (x.1 = l) && decide (x.2 ≠ .done)) = afterEnds s w act how t := by
  have bad : (maskOf fun l => es.any fun x => decide (x.1 = l) && decide (x.2 ≠ .done)) = picked act fun l => how l ≠ .done := by
    refine congrArg maskOf (funext fun l => Bool.eq_iff_iff.2 ?_)
    subst he
    simp [mem_lanesOf]
  rw [bad, he, List.foldl_map, foldl_same _ _ _ fun l => hk _ l]
  simp only [List.filterMap_map, Function.comp_def, hg]
  rfl

/-- An issue of which no lane waits for a page. -/
theorem memLanes_ends (hne : act ≠ 0#32) (a : Acc) (f : Nat → State → Ends × State) (s : State)
    (hp : ∀ x ∈ (endsOf f (accessors act u) s).1, ∀ va, x.2 ≠ .page va) :
    memLanes w act (if u then act else 0#32) a f s =
      afterEnds s w act (endIn (endsOf f (accessors act u) s).1 u act) (endsOf f (accessors act u) s).2 := by
  have none_waits (l : Nat) (va : Nat) : endIn (endsOf f (accessors act u) s).1 u act l ≠ .page va := by
    unfold endIn
    cases hx : (endsOf f (accessors act u) s).1.find? _ with
    | none => simp
    | some x => simpa using hp x (List.mem_of_find?_eq_some hx) va
  generalize hh : endIn (endsOf f (accessors act u) s).1 u act = how at none_waits
  unfold memLanes
  simp only [foldl_endsOf, List.nil_append]
  cases u with
  | true =>
    simp only [if_true, ne_eq, hne, not_false_eq_true]
    refine afterEnds_eq (fun cls l => ?_) (fun t l => ?_) ?_ _
    · cases how l <;> rfl
    · cases hl : how l <;> simp_all
    · simp [endsOf, ← hh, endIn_uniform]
  | false =>
    simp only [Bool.false_eq_true, if_false, ne_eq, not_true_eq_false]
    refine afterEnds_eq (fun cls l => ?_) (fun t l => ?_) ?_ _
    · cases how l <;> rfl
    · cases hl : how l <;> simp_all
    · rw [← hh]; exact ends_of_lanes f s act

/-- Where no lane traps all move on. -/
theorem afterEnds_done {how : Nat → Ends} (h : ∀ l, how l = .done) (s : State) (w : Warp) (act : Mask) (t : State) :
    afterEnds s w act how t = t.advance w s.iss.lanes := by
  have nobody : (picked act fun l => how l ≠ .done) = 0#32 := by simp [picked, h, maskOf_false]
  have untrapped (cls : Nat) : ((lanesOf act).filterMap fun l => trapOf cls l (memTrap s w act) (how l)) = [] := by simp [h, trapOf]
  have everybody (x : Mask) : x &&& ~~~(0#32) = x := by simp only [BitVec.not_zero, BitVec.and_allOnes]
  simp only [afterEnds, nobody, untrapped, everybody]
  rfl

/-- The lanes of which each access completes end so. -/
theorem endsOf_runs {ls : List Nat} (h : runs f ls s = some t) : (∀ x ∈ (endsOf f ls s).1, x.2 = .done) ∧ (endsOf f ls s).2 = t := by
  induction ls generalizing s with
  | nil => cases h; simp [endsOf]
  | cons l r ih =>
    simp only [runs] at h
    split at h
    next v hv =>
      obtain ⟨done, after⟩ := ih h
      simp only [endsOf, hv, List.mem_cons, forall_eq_or_imp, after, and_true, true_and]
      exact done
    next => cases h

theorem endIn_done {q : List (Nat × Ends)} (h : ∀ x ∈ q, x.2 = .done) (u : Bool) (act : Mask) (l : Nat) : endIn q u act l = .done := by
  unfold endIn
  cases hx : q.find? _ with
  | none => rfl
  | some x => exact h x (List.mem_of_find?_eq_some hx)

/-- An issue of which every access completes moves its lanes on. -/
theorem memLanes_runs (hne : act ≠ 0#32) (a : Acc) (h : runs f (accessors act u) s = some t) :
    memLanes w act (if u then act else 0#32) a f s = t.advance w s.iss.lanes := by
  obtain ⟨done, after⟩ := endsOf_runs h
  rw [memLanes_ends hne a f s fun x hx va => by rw [done x hx]; simp, afterEnds_done (endIn_done done u act), after]

/-- Voiding changes nothing of what the traps of an issue tell. -/
theorem afterEnds_void (s : State) (w : Warp) (i : Instr) (act : Mask) (how : Nat → Ends) (t : State) :
    afterEnds (s.void w i) w act how t = afterEnds s w act how t := by
  simp only [afterEnds, (readsOperands_void s w i).memTrap, void_iss]

end Issue

/-- Settles O24: the pass over the lanes is the run of their accesses, and voiding is told apart by what it finds of the group. -/
theorem globalAccessCompletes : Obligations.GlobalAccessCompletes := by
  refine ⟨fun i s w act m n a u f t hg ha hr => ?_, fun s w i => ⟨fun hv => void_of_quiet hv s w, fun hv hg => ?_, fun g c hv hg hagain hc => ?_⟩⟩
  · rw [exec_globalOp hg ha, memLanes_runs ha.2.2.1 a hr, void_iss]
  · rw [void_of_voiding hv, keepGroup_once w fun g h => hg g (warpGroup_voided s w ▸ h)]
  · rw [void_of_voiding hv, keepGroup_again w ((warpGroup_voided s w).trans hg) hagain hc]

end Sys2Proof.Machine

/-! SUPPORT. The checks of a global access (R167, R170): where a lane's reach ends, and what the lane's access then is. -/

namespace Sys2Proof.Machine

open Claims Laws

section Checks

variable {i : Instr} {s t : State} {w : Warp} {act : Mask} {m : MOp} {n : Nat} {a : Acc} {u : Bool} {f : Nat → State → Ends × State} {l : Nat} {va : Word64} {v : State}

/-! ## A reach -/

theorem reach_noncanonical (h : va.extractLsb' 52 12 ≠ 0#12) : t.reach w va n a = (.trap 5 2, t) := if_pos h

theorem reach_misaligned (h : va.extractLsb' 52 12 = 0#12) (hm : va.toNat % n ≠ 0) : t.reach w va n a = (.trap 6 0, t) := by
  rw [State.reach, if_neg (not_not.2 h), if_pos hm]
  rfl

/-- The machine after an aligned address has been translated, a miss counted. -/
def translated (t : State) (w : Warp) (va : Word64) (a : Acc) : State :=
  let r := t.coreXl w.core (t.groupOf w) va.toNat a
  if r.2.1 then r.2.2.count w.blk 10 1 else r.2.2

/-- A reach is its translation. -/
theorem reach_translates (h : va.extractLsb' 52 12 = 0#12) (hm : va.toNat % n = 0) : t.reach w va n a =
    match (t.coreXl w.core (t.groupOf w) va.toNat a).1 with
    | .ok x ao => (.go x ao, translated t w va a)
    | .fault c => (.trap 5 c, translated t w va a)
    | .svc => (.page, translated t w va a)
    | .abort pa => (.trap 7 8, (translated t w va a).detect pa (w.core / 8) (w.core % 8) ((translated t w va a).groupOf w)) := by
  rw [State.reach, if_neg (not_not.2 h), if_neg (not_not.2 hm)]
  rfl

/-- `v` differs from `t` in nothing that the access after a translation looks at: operands, memories, warps, requests, and the core's copies of data. -/
structure AccessAlike (t v : State) : Prop where
  operands : ReadsOperands t v
  mem : v.mem = t.mem
  host : v.host = t.host
  remote : v.remote = t.remote
  warps : v.warps = t.warps
  net : v.net = t.net
  l1 : ∀ k, (v.core k).l1 = (t.core k).l1
  ro : ∀ k, (v.core k).ro = (t.core k).ro

theorem AccessAlike.refl (t : State) : AccessAlike t t := ⟨.refl t, rfl, rfl, rfl, rfl, rfl, fun _ => rfl, fun _ => rfl⟩

theorem AccessAlike.trans {x : State} (h : AccessAlike t v) (k : AccessAlike v x) : AccessAlike t x :=
  ⟨h.operands.trans k.operands, k.mem.trans h.mem, k.host.trans h.host, k.remote.trans h.remote, k.warps.trans h.warps, k.net.trans h.net,
    fun j => (k.l1 j).trans (h.l1 j), fun j => (k.ro j).trans (h.ro j)⟩

theorem accessAlike_draw (t : State) : AccessAlike t t.draw.2 := ⟨⟨rfl, rfl, rfl, rfl, fun _ => rfl⟩, rfl, rfl, rfl, rfl, rfl, fun _ => rfl, fun _ => rfl⟩

theorem accessAlike_count (t : State) (k e n : Nat) : AccessAlike t (t.count k e n) :=
  ⟨.onBlock _ _ (fun _ => rfl) (fun _ => rfl) fun _ => rfl, rfl, rfl, rfl, rfl, rfl, fun _ => rfl, fun _ => rfl⟩

theorem accessAlike_tlbFill (t : State) (core group : Nat) (x : Leaf) : AccessAlike t (t.tlbFill core group x) := by
  refine ⟨⟨rfl, rfl, rfl, rfl, fun _ => rfl⟩, rfl, rfl, rfl, rfl, rfl, fun k => ?_, fun k => ?_⟩ <;>
  · unfold State.tlbFill
    rw [core_onCore]
    by_cases h : k = core
    · rw [if_pos h, h]
    · rw [if_neg h]

theorem accessAlike_coreXl (t : State) (core group va : Nat) (a : Acc) : AccessAlike t (t.coreXl core group va a).2.2 := by
  have walked (v : State) : AccessAlike v (match v.walk group va with
      | .leaf x => ((x.use va a, true, v.tlbFill core group x) : Xl × Bool × State) | x => (x.use va a, true, v)).2.2 := by
    split
    · exact accessAlike_tlbFill ..
    · exact .refl v
  simp only [State.coreXl]
  split
  · split
    · exact accessAlike_draw t
    · exact (accessAlike_draw t).trans (walked _)
  · exact walked t

theorem accessAlike_translated (t : State) (w : Warp) (va : Word64) (a : Acc) : AccessAlike t (translated t w va a) := by
  have walked := accessAlike_coreXl t w.core (t.groupOf w) va.toNat a
  simp only [translated]
  split
  · exact walked.trans (accessAlike_count ..)
  · exact walked

theorem ReadsOperands.streamOk (h : ReadsOperands s t) (i : Instr) (m : MOp) (w : Warp) (l : Nat) : streamOk i m t w l = streamOk i m s w l := by
  simp only [Claims.streamOk, h.redoStream]

/-! ## A lane's access that its reach ends -/

theorem globalOp_trap (hg : globalOp w act i = some (m, n, a, u, f)) (he : t.iss.early = []) (hs : streamOk i m t w l = true) {c k : Nat}
    (hr : t.reach w (address m t w l) n a = (.trap c k, v)) : f l t = (.trap c k (address m t w l).toNat, v) := by
  have same := MOpAddr_eq he m w l
  cases globalOp_iff.1 hg
  case redo =>
    have stream : ¬4096 ≤ redoStream t w m l := by simpa [streamOk] using hs
    simp only [redoLane, stream, same, hr, if_false]
  all_goals simp only [loadLane, storeLane, atomLane, zlineLane, same, hr]

theorem globalOp_page (hg : globalOp w act i = some (m, n, a, u, f)) (he : t.iss.early = []) (hs : streamOk i m t w l = true)
    (hr : t.reach w (address m t w l) n a = (.page, v)) : f l t = (.page (address m t w l).toNat, v) := by
  have same := MOpAddr_eq he m w l
  cases globalOp_iff.1 hg
  case redo =>
    have stream : ¬4096 ≤ redoStream t w m l := by simpa [streamOk] using hs
    simp only [redoLane, stream, same, hr, if_false]
  all_goals simp only [loadLane, storeLane, atomLane, zlineLane, same, hr]

/-! ## An issue of which every lane traps -/

theorem endsOf_still {ls : List Nat} {e : Nat → Ends} (h : ∀ l ∈ ls, f l s = (e l, s)) : endsOf f ls s = (ls.map fun l => (l, e l), s) := by
  induction ls with
  | nil => rfl
  | cons l r ih => simp [endsOf, h l (List.mem_cons_self ..), ih fun x hx => h x (List.mem_cons_of_mem _ hx)]

theorem endIn_map {e : Nat → Ends} {l : Nat} (h : act.getLsbD l = true) :
    endIn ((accessors act u).map fun l => (l, e l)) u act l = e (if u then lowestLane act else l) := by
  have here := mem_accessors (u := u) h
  generalize hk : (if u then lowestLane act else l) = k at here
  obtain ⟨x, hx⟩ : ∃ x, ((accessors act u).map fun l => (l, e l)).find? (fun x => x.1 = k) = some x :=
    Option.isSome_iff_exists.1 (by simpa using here)
  obtain ⟨j, -, rfl⟩ := List.mem_map.1 (List.mem_of_find?_eq_some hx)
  have key : j = k := by simpa using List.find?_some hx
  simp only [endIn, hk, hx, Option.map_some, Option.getD_some, key]

theorem afterEnds_congr {how how' : Nat → Ends} (h : ∀ l, act.getLsbD l = true → how l = how' l) (t : State) :
    afterEnds s w act how t = afterEnds s w act how' t := by
  have traps (cls : Nat) : ((lanesOf act).filterMap fun l => trapOf cls l (memTrap s w act) (how l)) =
      (lanesOf act).filterMap fun l => trapOf cls l (memTrap s w act) (how' l) :=
    List.filterMap_congr fun l hl => by rw [h l ((mem_lanesOf ..).1 hl)]
  have stay : (picked act fun l => how l ≠ .done) = picked act fun l => how' l ≠ .done := by
    refine congrArg maskOf (funext fun l => ?_)
    cases hl : act.getLsbD l with
    | false => rfl
    | true => simp only [h l hl]
  simp only [afterEnds, traps, stay]

/-- Where every lane traps of one class there is one sub-warp, and the other issuing lanes move on. -/
theorem afterEnds_trap {cls : Nat} (hc : cls = 5 ∨ cls = 6 ∨ cls = 7) (k va : Nat → Nat) (s : State) (w : Warp) (act : Mask) (t : State) :
    afterEnds s w act (fun l => .trap cls (k l) (va l)) t =
      (t.takeTrap w s.iss.hnd cls ((lanesOf act).map fun l => memTrap s w act (k l) (va l) l)).advance w (s.iss.lanes &&& ~~~act) := by
  have all : (picked act fun l => Ends.trap cls (k l) (va l) ≠ .done) = act := by
    refine mask_ext fun l hl => ?_
    rw [picked, getLsbD_maskOf _ _ hl]
    simp
  simp only [afterEnds, all, trapOf, List.foldl_cons, List.foldl_nil]
  obtain rfl | rfl | rfl := hc <;>
    simp only [if_true, Nat.reduceEqDiff, if_false, List.filterMap_none, List.filterMap_eq_map', takeTrap_nil]

end Checks

/-- Settles O25. -/
theorem globalAccessChecks : Obligations.GlobalAccessChecks := by
  refine ⟨fun i t w act m n a u f l hg he hs => ⟨fun hva => ?_, fun hva hal => ?_, fun hva hal => ⟨fun c hx => ?_, fun hx => ?_, fun pa hx => ?_, fun hx => ?_⟩⟩,
    fun i s w act m n a u f hg ha => ?_, fun i s w act m n a u f hg ha => ?_⟩
  · exact globalOp_trap hg he hs (reach_noncanonical hva)
  · exact globalOp_trap hg he hs (reach_misaligned hva hal)
  · rw [globalOp_trap hg he hs ((reach_translates hva hal).trans (by rw [hx]))]
  · rw [globalOp_page hg he hs ((reach_translates hva hal).trans (by rw [hx]))]
  · rw [globalOp_trap hg he hs ((reach_translates hva hal).trans (by rw [hx]))]
  · have looked := accessAlike_translated t w (address m t w l) a
    have kept : (translated t w (address m t w l) a).mem = t.mem ∧ (translated t w (address m t w l) a).warps = t.warps := ⟨looked.mem, looked.warps⟩
    cases hy : (t.coreXl w.core (t.groupOf w) (address m t w l).toNat a).1 with
    | ok y ao => exact absurd hy (hx y ao)
    | fault c => rwa [globalOp_trap hg he hs ((reach_translates hva hal).trans (by rw [hy]))]
    | svc => rwa [globalOp_page hg he hs ((reach_translates hva hal).trans (by rw [hy]))]
    | abort pa =>
      rw [globalOp_trap hg he hs ((reach_translates hva hal).trans (by rw [hy]))]
      rw [detect_only]
      exact kept
  · intro at_ hbad
    have alike := readsOperands_void s w i
    have each : ∀ l ∈ accessors act u, f l (s.void w i) = (.trap 5 2 (address m s w l).toNat, s.void w i) := by
      intro l hl
      obtain ⟨hs, hva⟩ := hbad l hl
      rw [← alike.streamOk] at hs
      rw [← alike.address] at hva ⊢
      exact globalOp_trap hg (by rw [void_iss]; exact ha.2.2.2.1) hs (reach_noncanonical hva)
    rw [exec_globalOp hg ha, memLanes_ends ha.2.2.1, endsOf_still each]
    · rw [afterEnds_congr fun l hl => endIn_map hl, afterEnds_void]
      exact congrArg Host.Outcome.next (afterEnds_trap (.inl rfl) (fun _ => 2) (fun l => (address m s w (at_ l)).toNat) s w act _)
    · simp [endsOf_still each]
  · intro q how hp
    rw [exec_globalOp hg ha, memLanes_ends ha.2.2.1 a f _ hp, afterEnds_void]
    rfl

end Sys2Proof.Machine

/-! SUPPORT. What a lane's access sends (R174, R183 to R191, R251): the request that it leaves, and what a load finds in L1. -/

namespace Sys2Proof.Machine

open Claims Laws

section Requests

variable {i : Instr} {s t v : State} {w : Warp} {act : Mask} {m : MOp} {n : Nat} {a : Acc} {u : Bool} {f : Nat → State → Ends × State} {l pa : Nat} {ao : Bool}

theorem ReadsOperands.request (h : ReadsOperands s t) (w : Warp) (k : ReqK) (x : Tgt) (va lane : Nat) (uni : Mask) (counted : Bool) :
    t.request w k x va lane uni counted = s.request w k x va lane uni counted := by
  have lin : (t.block? w.blk).map (·.lin) = (s.block? w.blk).map (·.lin) := by
    simpa only [Option.map_map, Function.comp_def] using congrArg (Option.map Prod.fst) (h.block w.blk)
  simp only [State.request, State.origin, h.iss, h.nextId, h.ctx?, lin]

theorem ReadsOperands.storeBytes (h : ReadsOperands s t) (w : Warp) (m : MOp) (l : Nat) : storeBytes t w m l = storeBytes s w m l := by
  simp only [Machine.storeBytes, h.rd]

theorem ReadsOperands.atomArgs (h : ReadsOperands s t) (w : Warp) (op : AtomOp) (m : MOp) (l : Nat) : atomArgs t w op m l = atomArgs s w op m l := by
  simp only [Machine.atomArgs, h.rd, h.rd2]

theorem ReadsOperands.redoReq (h : ReadsOperands s t) (w : Warp) (op : AtomOp) (m : MOp) (x : Tgt) (va l : Nat) (uni : Mask) (void : Bool) :
    redoReq t w op m x va l uni void = redoReq s w op m x va l uni void := by
  simp only [Machine.redoReq, h.request, redoX, redoTicket, h.redoStream, h.rd, h.rd2, h.rdst]

/-- A reach that its translation lets go on. -/
theorem reach_goes {va : Word64} (h : va.extractLsb' 52 12 = 0#12) (hm : va.toNat % n = 0) {x : Tgt}
    (hx : (t.coreXl w.core (t.groupOf w) va.toNat a).1 = .ok x ao) : t.reach w va n a = (.go x ao, translated t w va a) :=
  (reach_translates h hm).trans (by rw [hx])

@[simp] theorem send_net (s : State) (w : Warp) (r : Req) : (s.send w r).net = s.net ++ [r] := by
  unfold State.send
  cases r.tgt <;> rfl

@[simp] theorem send_mem (s : State) (w : Warp) (r : Req) : (s.send w r).mem = s.mem := by
  unfold State.send
  cases r.tgt <;> rfl

@[simp] theorem send_warps (s : State) (w : Warp) (r : Req) : (s.send w r).warps = s.warps := by
  unfold State.send
  cases r.tgt <;> rfl

/-- A request alone has left since `t`; requests before it may have been marked. -/
structure Sent (t : State) (q : Req) (v : State) : Prop where
  length : v.net.length = t.net.length + 1
  last : v.net.getLast? = some q
  mem : v.mem = t.mem
  warps : v.warps = t.warps

/-- `v` differs from `t` in nothing that sending a request looks at. -/
structure SendsAlike (t v : State) : Prop where
  operands : ReadsOperands t v
  length : v.net.length = t.net.length
  mem : v.mem = t.mem
  warps : v.warps = t.warps

theorem AccessAlike.sends (h : AccessAlike t v) : SendsAlike t v := ⟨h.operands, by rw [h.net], h.mem, h.warps⟩

theorem SendsAlike.count (h : SendsAlike t v) (k e j : Nat) : SendsAlike t (v.count k e j) :=
  ⟨h.operands.trans (accessAlike_count v k e j).operands, h.length, h.mem, h.warps⟩

theorem SendsAlike.draw (h : SendsAlike t v) : SendsAlike t v.draw.2 := ⟨h.operands.trans (accessAlike_draw v).operands, h.length, h.mem, h.warps⟩

theorem SendsAlike.onCore (h : SendsAlike t v) (k : Nat) (g : Core → Core) : SendsAlike t (v.onCore k g) :=
  ⟨h.operands.trans ⟨rfl, rfl, rfl, rfl, fun _ => rfl⟩, h.length, h.mem, h.warps⟩

theorem SendsAlike.poison (h : SendsAlike t v) (p : Req → Bool) : SendsAlike t (v.poison p) :=
  ⟨h.operands.trans ⟨rfl, rfl, rfl, rfl, fun _ => rfl⟩, (List.length_map ..).trans h.length, h.mem, h.warps⟩

theorem SendsAlike.l1drop (h : SendsAlike t v) (k x y : Nat) : SendsAlike t (v.l1drop k x y) := (h.onCore ..).poison _

theorem SendsAlike.l1write (h : SendsAlike t v) (k x : Nat) (b : List Byte) : SendsAlike t (v.l1write k x b) := (h.onCore ..).poison _

theorem SendsAlike.sendReq (h : SendsAlike t v) (w : Warp) (q : Req) : Sent t q (v.send w q) :=
  ⟨by simp [h.length], by simp, by simp [h.mem], by simp [h.warps]⟩

theorem SendsAlike.send (h : SendsAlike t v) (w : Warp) (k : ReqK) (x : Tgt) (va lane : Nat) (uni : Mask) (counted : Bool) :
    Sent t (t.request w k x va lane uni counted) (v.send w (v.request w k x va lane uni counted)) := by
  rw [h.operands.request]
  exact h.sendReq w _

/-! ## Loads -/

/-- A load of which L1 holds no copy leaves the core. -/
theorem loadL1_none (h : SendsAlike t v) (hl : v.l1find w.core pa = none) (d : Fld) (sx : Bool) (hint : CacheHint) (uni : Mask) (lane va : Nat) :
    Sent t (t.request w (.load d n sx false (decide (hint ≠ .cg)) (decide (hint = .ef))) (.dev pa) va lane uni false)
      (loadL1 w d.toNat n sx hint uni lane va pa v) := by
  simp only [loadL1, BitVec.ofNat_toNat, BitVec.setWidth_eq, hl]
  split
  · exact h.send ..
  · exact (h.count ..).send ..

/-- A load of which L1 holds a copy leaves the core, or is answered where no earlier load or atomic of its warp to the sector is out. -/
theorem loadL1_some (h : SendsAlike t v) {x : L1Sec} (hl : v.l1find w.core pa = some x) (d : Fld) (sx : Bool) {hint : CacheHint} (hh : hint ≠ .cg) (uni : Mask)
    (lane va : Nat) :
    Sent t (t.request w (.load d n sx false (decide (hint ≠ .cg)) (decide (hint = .ef))) (.dev pa) va lane uni false)
        (loadL1 w d.toNat n sx hint uni lane va pa v) ∨
      (v.ahead w pa = false ∧
        loadL1 w d.toNat n sx hint uni lane va pa v = (v.draw.2.put w d.toNat lane (loadWords n sx (x.data.drop (pa % 64)))).count w.blk 2 1) := by
  simp only [loadL1, BitVec.ofNat_toNat, BitVec.setWidth_eq, hl, if_neg hh]
  split
  · exact .inl ((h.count ..).send ..)
  next first =>
    split
    · exact .inr ⟨by simpa using first, rfl⟩
    · exact .inl (((h.draw.onCore ..).count ..).send ..)

/-- A load through the read-only cache that holds no copy of its line. -/
theorem loadRo_none (h : SendsAlike t v) (hl : ∀ x ∈ (v.core w.core).ro, x.1 ≠ pa / 256) (d : Fld) (sx : Bool) (uni : Mask) (lane va : Nat) :
    Sent t (t.request w (.load d n sx true false false) (.dev pa) va lane uni false) (loadRo w d.toNat n sx uni lane va pa v) := by
  have absent : (v.core w.core).ro.find? (fun x => x.1 = pa / 256) = none := List.find?_eq_none.2 fun x hx => by simpa using hl x hx
  simp only [loadRo, BitVec.ofNat_toNat, BitVec.setWidth_eq, absent]
  exact h.send ..

/-- No load or atomic of the warp to a sector is out. -/
theorem ahead_false (h : t.ahead w pa = false) {q : Req} (hq : q ∈ t.net) (hw : q.org.warp = w.id) (hd : q.k.dst ≠ none) :
    ¬∃ b, q.tgt = .dev b ∧ q.org.core = w.core ∧ b / 64 = pa / 64 := by
  rintro ⟨b, hb, hc, hs⟩
  have out := List.any_eq_false.1 h q hq
  have inside : q.within w.core (pa / 64 * 64) (pa / 64 * 64 + 64) = true := by
    simp only [Req.within, hc, hb, decide_true, Bool.true_and, Bool.and_eq_true, decide_eq_true_eq]
    omega
  cases hk : q.k <;> simp_all [ReqK.dst]

/-! ## Each instruction -/

/-- The reach of a lane that goes on to device memory outside the aperture is the access's own part: a load through its cache, or a request. -/
theorem sends_sent {k : ReqK} {counted : Bool} (hg : globalOp w act i = some (m, n, a, u, f)) (hk : sends t w l i = some (k, counted)) (he : t.iss.early = [])
    (hs : streamOk i m t w l = true) {v : State} (hv : AccessAlike t v) (hr : t.reach w (address m t w l) n a = (.go (.dev pa) ao, v))
    (hp : inAperture pa = false) (hl : t.l1find w.core pa = none) (ho : ∀ x ∈ (t.core w.core).ro, x.1 ≠ pa / 256) :
    (f l t).1 = .done ∧ Sent t (t.request w k (.dev pa) (address m t w l).toNat l (if u then act else 0#32) counted) (f l t).2 := by
  have same := MOpAddr_eq he m w l
  have l1 : v.l1find w.core pa = none := by rw [State.l1find, hv.l1]; exact hl
  have ro : ∀ x ∈ (v.core w.core).ro, x.1 ≠ pa / 256 := by rw [hv.ro]; exact ho
  have open_ : apertureOk (.dev pa) n = true := by simp [apertureOk, hp]
  cases globalOp_iff.1 hg <;> cases hk
  case ld => 
    simp only [loadLane, same, hr, open_, hp]
    exact ⟨rfl, loadL1_none hv.sends l1 ..⟩
  case ldro =>
    simp only [loadLane, same, hr, open_, hp]
    exact ⟨rfl, loadRo_none hv.sends ro ..⟩
  case st _ hint =>
    simp only [storeLane, same, hr, open_, hp, hv.operands.storeBytes]
    by_cases hc : hint = CacheHint.cg
    · simp only [hc, if_true]
      exact ⟨rfl, (hv.sends.l1drop ..).send ..⟩
    · simp only [hc, if_false]
      exact ⟨rfl, (hv.sends.l1write ..).send ..⟩
  case atom =>
    simp only [atomLane, same, hr, hv.operands.atomArgs, toAperture, hp]
    exact ⟨rfl, (hv.sends.l1drop ..).send ..⟩
  case redo =>
    have stream : ¬4096 ≤ redoStream t w m l := by simpa [streamOk] using hs
    simp only [redoLane, stream, same, hr, toAperture, hp, hv.operands.redoReq]
    exact ⟨rfl, hv.sends.sendReq ..⟩
  case zline =>
    simp only [zlineLane, same, hr, toAperture, hp]
    exact ⟨rfl, (hv.sends.l1drop ..).send ..⟩

end Requests

end Sys2Proof.Machine

namespace Sys2Proof.Machine

open Claims Laws

/-- Settles O26. -/
theorem globalAccessRequests : Obligations.GlobalAccessRequests := by
  intro i t w act m n a u f l pa ao k counted hg hk he hs va hva hal hx hp r sent
  have alike := accessAlike_translated t w va a
  have goes := reach_goes hva hal hx
  refine ⟨fun hl ho => ?_, fun c sx h x hi hh hl => ?_⟩
  · obtain ⟨done, length, last, mem, warps⟩ := sends_sent hg hk he hs alike goes hp hl ho
    exact ⟨done, length, last, mem, warps⟩
  · subst hi
    cases hg
    cases hk
    have l1 : (translated t w va .read).l1find w.core pa = some x := by rw [State.l1find, alike.l1]; exact hl
    have lane : r = (.done, loadL1 w m.data.toNat (sizeBytes m.size) sx h (if isS m.data.toNat then act else 0#32) l va.toNat pa (translated t w va .read)) := by
      have open_ : apertureOk (.dev pa) (sizeBytes m.size) = true := by simp [apertureOk, hp]
      have same : MOpAddr m t w l = va := MOpAddr_eq he m w l
      simp only [r, loadLane, same, goes, open_, hp]
      rfl
    clear_value r
    subst lane
    obtain ⟨length, last, mem, warps⟩ | ⟨first, answer⟩ := loadL1_some (n := sizeBytes m.size) alike.sends l1 m.data sx hh (if isS m.data.toNat then act else 0#32) l va.toNat
    · exact .inl ⟨rfl, length, last, mem, warps⟩
    · have now : t.ahead w pa = false := by rw [← first, State.ahead, State.ahead, alike.net]
      exact .inr ⟨rfl, fun q hq hw hd => ahead_false now hq hw hd, (translated t w va .read).draw.2, alike.warps, alike.net, alike.operands.quads, alike.mem, alike.host,
        alike.remote, answer⟩

end Sys2Proof.Machine

/-! SUPPORT. A prefetch that reads a line of the far store is charged to the bandwidth window of its group (R89), which a window that ended before it moves on. -/

namespace Sys2Proof.Machine

open Claims Laws

/-- The operands of a prefetch of one line at the address in pair 6:7. -/
def prefOperands : MOp := { data := 0, base := 6, off := 0, size := 0 }

def prefUnguarded : Common := { stall := 0, guard := .always }

/-- PREF of one line at the address in pair 6:7. -/
def prefAt : Instr := .pref prefUnguarded false prefOperands

/-- A warp whose pair 6:7 is 1 MiB. -/
def prefWarp : Warp := { plantWarp 4 1 3 0 with v := [(32 * 6, 0x100000)] }

/-- The machine about to prefetch with lane 0 at 10 µs: 1 MiB is mapped to far memory at 1 MiB, no line is in error, and no window of bandwidth has ended yet. -/
def prefOn : State :=
  { State.reset.plant 0#64 with
    ns := 10000, mem := [(0, 0x01), (1, 0x10), (0x1000, 0x13)], warps := [prefWarp]
    iss := { q := 0, warp := 4, hnd := false, lanes := 1#32, hdr := plantAt, idx := 0, count := 0, now := 0, sync := false, word := (encode prefAt).getD 0,
             instr := some prefAt, early := [] } }

theorem prefOn_acts : Acts prefAt prefOn prefWarp 1#32 := by decide +kernel

/-- What the prefetch leaves has moved the window on; a mere advance has not. -/
theorem prefOn_window : (match exec prefAt prefOn with | .next t => t.window | _ => 0) = 1 ∧ (prefOn.advance prefWarp prefOn.iss.lanes).window = 0 := by
  decide +kernel

/-- Refutes O28: PREF charges what it reads of the far store to the bandwidth windows of its group and grid (R89), so with no line in error it does not leave
all of the machine but its lanes as it was. -/
theorem not_cacheInstructions : ¬ Obligations.CacheInstructions := by
  rintro ⟨-, pref, -⟩
  have same := (pref prefUnguarded false prefOperands prefOn prefWarp 1#32 prefOn_acts).1 rfl
  obtain ⟨moved, still⟩ := prefOn_window
  rw [prefAt, same] at moved
  exact absurd (still.symm.trans moved) (by decide)

end Sys2Proof.Machine

/-! SUPPORT. The checks of a CPY descriptor (R196), and what a copy's issue leaves (R192, R198, R200). -/

namespace Sys2Proof.Machine

open Claims Laws

theorem ite_some_eq_none {α : Type} {c : Prop} [Decidable c] {x : α} {y : Option α} : (if c then some x else y) = none ↔ ¬c ∧ y = none := by
  split <;> simp [*]

theorem isScratch_iff {a : Nat} : isScratch a = true ↔ 2 ^ 63 ≤ a := decide_eq_true_iff

/-- A side passes its range check where the bytes that it spans lie in its space. -/
theorem sideRange_eq_none {scratch a n : Nat} : sideRange scratch a n = none ↔ Claims.spans scratch a n := by
  unfold sideRange Claims.spans
  by_cases h : 2 ^ 63 ≤ a
  · rw [if_pos (isScratch_iff.2 h), if_pos h, ite_some_eq_none, Nat.not_lt]
    exact and_iff_left rfl
  · rw [if_neg (mt isScratch_iff.1 h), if_neg h, ite_some_eq_none, Nat.not_lt]
    exact and_iff_left rfl

theorem sideOk_iff {a : Nat} : sideOk a = true ↔ if 2 ^ 63 ≤ a then a - 2 ^ 63 < 2 ^ 32 else a < 2 ^ 52 := by
  unfold sideOk
  by_cases h : 2 ^ 63 ≤ a
  · rw [if_pos (isScratch_iff.2 h), if_pos h, decide_eq_true_iff]
  · rw [if_neg (mt isScratch_iff.1 h), if_neg h, decide_eq_true_iff]

/-- What a CPY's descriptor must be to pass. -/
theorem cpyCheck_eq_none (sc : Bool) (d : List Word) (scratch : Nat) {total : Nat} (ht : dLo d 4 * dHi d 4 * dLo d 5 * dHi d 5 = total) :
    cpyCheck sc d scratch = none ↔
      4 ≤ dLo d 4 ∧ dLo d 4 % 4 = 0 ∧ 1 ≤ total ∧ total ≤ 2 ^ 32 ∧ sideAligned (dAddr d 0) ∧ sideAligned (dAddr d 2) ∧ dw d 6 % 4 = 0 ∧
        Claims.spans scratch (dAddr d 0) (if sc then total else stridedSpan d) ∧ Claims.spans scratch (dAddr d 2) (if sc then stridedSpan d else total) := by
  have range : (if sc = false then stridedSpan d else total) = if sc then total else stridedSpan d := by cases sc <;> rfl
  simp only [cpyCheck, ht, ite_some_eq_none, Option.or_eq_none_iff, sideRange_eq_none, range, sideAligned, ← sideOk_iff, Bool.or_eq_true, decide_eq_true_eq, not_or,
    Nat.not_lt, ne_eq, not_not, Bool.not_eq_true', Bool.not_eq_false]
  constructor
  · rintro ⟨⟨⟨⟨⟨⟨h4, hm⟩, h0⟩, h32⟩, hs⟩, hd⟩, ha, hb, h6, hx, hy⟩
    exact ⟨h4, hm, Nat.one_le_iff_ne_zero.2 h0, h32, ⟨hs, ha⟩, ⟨hd, hb⟩, h6, hx, hy⟩
  · rintro ⟨h4, hm, h0, h32, ⟨hs, ha⟩, ⟨hd, hb⟩, h6, hx, hy⟩
    exact ⟨⟨⟨⟨⟨⟨h4, hm⟩, Nat.one_le_iff_ne_zero.1 h0⟩, h32⟩, hs⟩, hd⟩, ha, hb, h6, hx, hy⟩

/-- What a copy's issue leaves, by the fault of its descriptor. -/
def copyBegins (s : State) (w : Warp) (act : Mask) (k : Nat) (y : CopyK) : Option DescErr → State
  | some x => s.trapWhole w act x
  | none => s.issueCopy w k y

theorem exec_copyOp {i : Instr} {s : State} {w : Warp} {act : Mask} {k : BitVec 3} {e : Option DescErr} {y : CopyK}
    (hc : copyOp s w i = some (k, e, y)) (ha : Acts i s w act) : exec i s = .next (copyBegins s w act k.toNat y e) := by
  unfold copyOp at hc
  split at hc <;> cases hc <;> exact (exec_untimed ha rfl rfl).trans (by rw [void_of_quiet rfl]; rfl)

/-- Settles O33. -/
theorem copiesAndTokens : Obligations.CopiesAndTokens := by
  refine ⟨⟨fun i s w act k e y hc ha => ⟨fun he => ?_, fun x he => ?_⟩, fun sc d scratch => cpyCheck_eq_none sc d scratch rfl⟩, fun c k s w act ha => ?_⟩
  · rw [exec_copyOp hc ha, he]
    rfl
  · rw [exec_copyOp hc ha, he]
    rfl
  · rw [exec_untimed ha rfl rfl, void_of_quiet rfl]
    rfl

end Sys2Proof.Machine

/-! SUPPORT. Page requests, their answers and their end (R171, R288, R335), and flushes (R172, R207, R234). -/

namespace Sys2Proof.Machine

open Claims Laws

section Pages

variable {s : State} {g n : Nat} {p : Page}

/-! ## Asking and answering -/

theorem readVaN_some {group va k x : Nat} (h : s.readVaN group va k = some x) : ∃ b, s.readVa group va k .read = .ok b ∧ ofBytes b = x := by
  unfold State.readVaN at h
  split at h
  next b hb => exact ⟨b, hb, Option.some.inj h⟩
  next => cases h

/-- The number under which a kind of access stands in the ring. -/
def accCode : Acc → Nat
  | .read => 1
  | .write => 2
  | .fetch => 3
  | .atomic => 4
  | .copy _ => 5

/-- The record of a page request with its number. -/
def pageRecord (p : Page) (seq : Nat) : List Byte :=
  toBytes 8 seq ++ toBytes 8 p.page ++ toBytes 1 (accCode p.acc) ++ toBytes 1 (p.core / 8) ++ toBytes 1 (p.core % 8) ++ List.replicate 13 0

/-- The ring after a request's record has been written behind `tail`. -/
def ringed (s : State) (p : Page) (tail : Nat) : State :=
  let x := s.grp p.group
  let u := written (s.onGrp p.group fun y => { y with prseq := x.prseq + 1 }) p.group (x.prbase + 64 + 32 * (tail % x.prsize)) (pageRecord p (x.prseq + 1))
  written u p.group (x.prbase + 4) (toBytes 4 ((tail + 1) % x.prsize))

/-- A request is written where the ring has room. -/
theorem askPage_room {head tail : Nat} (hh : s.readVaN p.group (s.grp p.group).prbase 4 = some head)
    (ht : s.readVaN p.group ((s.grp p.group).prbase + 4) 4 = some tail) (room : (tail + 1) % (s.grp p.group).prsize ≠ head % (s.grp p.group).prsize) :
    s.askPage p = (.asked ((s.grp p.group).prseq + 1) (ringed s p tail).ns, (ringed s p tail).notify (s.grp p.group).prnotify 1) := by
  obtain ⟨x, hx, rfl⟩ := readVaN_some hh
  obtain ⟨y, hy, rfl⟩ := readVaN_some ht
  simp only [State.askPage, hx, hy, if_neg room]
  cases hp : p.acc <;> simp only [ringed, pageRecord, accCode, hp] <;> rfl

theorem exec_ringRoom (hp : s.pages.find? (fun p => decide (p.group = g) && p.unasked) = some p) :
    exec (.pageRequestRingRoom g) s = .next { (s.askPage p).2 with pages := (s.askPage p).2.pages.map fun q => if q = p then { q with st := (s.askPage p).1 } else q } := by
  show execPageRequestRingRoom g s = _
  rw [execPageRequestRingRoom, hp]

/-! ## The end of a wait -/

theorem pageGo_eq : State.pageGo = goesOn := by
  funext s x
  cases x <;> simp [State.pageGo, goesOn, Lane.isPage]

theorem pageTrap_eq : State.pageTrap = Claims.traps := by
  funext s x
  cases x <;> rfl

theorem userAt_eq (s : State) : s.userAt = issueOf s := by
  funext x
  cases x with
  | engine => rfl
  | lane i l va hnd word fetch seq => cases h : s.warp? i <;> simp [State.userAt, issueOf, h]

/-- Users trapped issue by issue. -/
theorem pageTraps_eq (s : State) (us : List PageUser) : s.pageTraps us = noMap s us := by
  simp only [State.pageTraps, noMap, userAt_eq, pageTrap_eq, List.foldl_map, List.contains_iff_mem, List.filter_map, Function.comp_def]

/-- A request that ends well lets its lanes issue again. -/
theorem endPage_true (s : State) (p : Page) : s.endPage p true = p.users.foldl goesOn (Claims.settled s p) := by
  rw [← pageGo_eq]
  rfl

theorem engines_nil {us : List PageUser} : us.filter PageUser.isEngine = [] ↔ ∀ k, .engine k ∉ us := by
  rw [List.filter_eq_nil_iff]
  constructor
  · exact fun h k hk => h _ hk rfl
  · intro h x hx
    cases x with
    | engine k => exact absurd hx (h k)
    | lane => exact Bool.false_ne_true

/-- A request that fails traps its lanes. -/
theorem endPage_lanes (h : ∀ k, .engine k ∉ p.users) : s.endPage p false = noMap (Claims.settled s p) p.users := by
  simp only [State.endPage, pageTraps_eq, engines_nil.2 h]
  rfl

/-- A request that fails and for which engines wait stays, failed, for them. -/
theorem endPage_engines (h : ∃ k, .engine k ∈ p.users) : s.endPage p false = noMap { s with
    pages := s.pages.map fun q => if q = p then { q with st := .failed, users := p.users.filter PageUser.isEngine } else q } p.users := by
  have some_engine : p.users.filter PageUser.isEngine ≠ [] := by
    obtain ⟨k, hk⟩ := h
    exact fun none => engines_nil.1 none k hk
  simp only [State.endPage, pageTraps_eq, Bool.false_or, List.isEmpty_iff, some_engine, if_false]
  rfl

theorem exec_walkEnd (hp : s.pages[n]? = some p) (ha : p.st = .answered) :
    exec (.translationWalkEnd n) s = .next (s.endPage p (decide (s.walk p.group p.page ≠ .svc))) := by
  show execTranslationWalkEnd n s = _
  simp only [execTranslationWalkEnd, hp, ha, if_true]

theorem exec_boundExpiry {t : Nat} (hp : s.pages[n]? = some p) (hs : p.st = .noRoom t ∨ ∃ q, p.st = .asked q t)
    (late : t + 1000000 * (if (s.grp p.group).prbound = 0 then 100 else (s.grp p.group).prbound) ≤ s.ns) :
    exec (.pageServiceBoundExpiry n) s = .next (s.endPage p false) := by
  show execPageServiceBoundExpiry n s = _
  obtain hs | ⟨q, hs⟩ := hs <;> simp only [execPageServiceBoundExpiry, hp, hs, if_pos late]

/-! ## Flushes -/

theorem hits_eq (f : Flush) (g : Nat) : f.hits g = named g f.n f.va := by
  funext x
  simp only [Flush.hits, named, Bool.decide_and, Bool.decide_or]

theorem flushed_iff {seq : Nat} : s.flushed g seq = true ↔ ¬stillUsed s g seq := by
  simp only [State.flushed, stillUsed, Bool.and_eq_true, Bool.not_eq_true', List.any_eq_false, decide_eq_true_eq, not_or, not_exists, not_and, and_assoc,
    List.any_eq_true]

section Drops

variable {f : Flush} {k : Nat}

theorem flushDrop_only (g : Nat) (f : Flush) : s.flushDrop g f =
    { s with cores := (s.flushDrop g f).cores, clusters := (s.flushDrop g f).clusters, groups := (s.flushDrop g f).groups,
             warps := s.warps.map fun (w : Warp) => if s.groupOf w = g then { w with recs := [] } else w } := rfl

/-- Every core drops the translations that a flush names. -/
theorem core_flushDrop (hc : scanon Core.init s.cores = true) (g : Nat) (f : Flush) (k : Nat) :
    (s.flushDrop g f).core k = { s.core k with tlb := (s.core k).tlb.filter fun x => !named g f.n f.va x } :=
  (sget_smap_default (by rfl) k hc).trans (by rw [hits_eq]; rfl)

/-- Every record cache drops the group's records and every shelf the group's entries that no entered operation holds. -/
theorem cluster_flushDrop (hc : scanon Cluster.init s.clusters = true) (g : Nat) (f : Flush) (k : Nat) :
    (s.flushDrop g f).cluster k = { s.cluster k with recs := (s.cluster k).recs.filter (fun r => r.1 ≠ g), shelf := keptShelf s g (s.cluster k).shelf } := by
  show sget Cluster.init k (smap Cluster.init _ (smap Cluster.init _ s.clusters)) = _
  rw [sget_smap_default _ k (smap_canon _ hc), sget_smap_default _ k hc] <;> rfl

theorem grp_flushDrop (g : Nat) (f : Flush) (k : Nat) :
    (s.flushDrop g f).grp k = if k = g then { s.grp g with flushn := some { f with dropped := some s.nextId } } else s.grp k :=
  grp_onGrp (s := s) g k fun x => { x with flushn := some { f with dropped := some s.nextId } }

/-- A flush whose entries the caches hold drops them, and ends where nothing from before is in use. -/
theorem exec_flushComplete_drop (hf : (s.grp g).flushn = some f) (hd : f.dropped = none) : exec (.flushComplete g) s =
    .next (if (s.flushDrop g f).flushed g s.nextId then (s.flushDrop g f).onGrp g fun x => { x with flushn := none } else s.flushDrop g f) := by
  show execFlushComplete g s = _
  simp only [execFlushComplete, hf, hd, Option.isNone_none, if_true, Option.getD_none]

/-- A flush whose entries the caches have dropped ends where nothing from before is in use. -/
theorem exec_flushComplete_wait (hf : (s.grp g).flushn = some f) (hd : f.dropped = some k) : exec (.flushComplete g) s =
    .next (if s.flushed g k then s.onGrp g fun x => { x with flushn := none } else s) := by
  show execFlushComplete g s = _
  simp only [execFlushComplete, hf, hd, Option.isNone_some, Bool.false_eq_true, if_false, Option.getD_some]

end Drops

theorem flushes : Flushes := by
  refine ⟨fun g v s => ⟨fun h => ?_, fun h => ?_⟩, fun s g f hf hd hcores hclusters => ?_, fun s g f k hf hd => ⟨fun h => ?_, fun h => ?_⟩⟩
  · exact congrArg Host.Outcome.next (onGrp_congr (by simp only [h]))
  · obtain ⟨f, hf⟩ := Option.ne_none_iff_exists'.1 h
    exact congrArg Host.Outcome.next (onGrp_congr (by simp only [hf]))
  · rw [exec_flushComplete_drop hf hd]
    have others (h : Nat) (hh : h ≠ g) : (s.flushDrop g f).grp h = s.grp h := (grp_flushDrop g f h).trans (if_neg hh)
    have own : (s.flushDrop g f).grp g = { s.grp g with flushn := some { f with dropped := some s.nextId } } := (grp_flushDrop g f g).trans (if_pos rfl)
    by_cases used : stillUsed (s.flushDrop g f) g s.nextId
    · rw [if_neg fun h => flushed_iff.1 h used]
      exact ⟨_, rfl, flushDrop_only g f, core_flushDrop hcores g f, cluster_flushDrop hclusters g f, rfl, others, fun h => absurd used h, fun _ => own⟩
    · rw [if_pos (flushed_iff.2 used)]
      have ended (h : Nat) : ((s.flushDrop g f).onGrp g fun x => { x with flushn := none }).grp h =
          if h = g then { s.grp g with flushn := none } else (s.flushDrop g f).grp h := (grp_onGrp ..).trans (by rw [own])
      exact ⟨_, rfl, rfl, core_flushDrop hcores g f, cluster_flushDrop hclusters g f, rfl, fun h hh => (ended h).trans ((if_neg hh).trans (others h hh)),
        fun _ => (ended g).trans (if_pos rfl), fun h => absurd h used⟩
  · rw [exec_flushComplete_wait hf hd, if_pos (flushed_iff.2 h)]
  · rw [exec_flushComplete_wait hf hd, if_neg fun k => flushed_iff.1 k h]

end Pages

/-- Settles O46. -/
theorem pageService : Obligations.PageService := by
  refine ⟨?_, fun g v s => ?_, fun s n p hp ha hw => ?_, fun s n p ev hp hev => ?_, flushes⟩
  · intro s g p head tail hp hh ht size room seq acc b u v
    have found := List.find?_some hp
    obtain rfl : p.group = g := of_decide_eq_true (Bool.and_eq_true_iff.1 found).1
    rw [exec_ringRoom hp, askPage_room hh ht room]
    rfl
  · show execPageResponseWrite g v s = _
    simp only [execPageResponseWrite, Bool.and_eq_true, decide_eq_true_eq]
    rfl
  · rw [exec_walkEnd hp ha, decide_eq_true hw, endPage_true]
  · have fails : exec ev s = .next (s.endPage p false) := by
      obtain ⟨rfl, ha, hw⟩ | ⟨t, rfl, hs, late⟩ := hev
      · rw [exec_walkEnd hp ha, hw]
        rfl
      · exact exec_boundExpiry hp hs late
    exact ⟨fun h => fails.trans (by rw [endPage_lanes h]), fun h => fails.trans (by rw [endPage_engines h])⟩

end Sys2Proof.Machine

/-! SUPPORT. The scratchpad (R166, R167, R319): words put in one lane after another, the accesses of an issue's lanes as one run, and their ends. -/

namespace Sys2Proof.Machine

open Claims Laws

section Placing

variable {s t : State} {w : Warp} {mv : Nat → Lane → Lane} {p : Sparse Mask} {val : Nat → Nat → Word} {d k : Nat} {ws : List Word}

/-! ## Words put in one lane -/

/-- The registers `y` where the words `ws` stand from register `d` on in lane `k`, or in uniform registers for all lanes. -/
def placed (d k : Nat) (ws : List Word) (y : Nat → Nat → Word) (r l : Nat) : Word :=
  if d ≤ r ∧ r < d + ws.length ∧ (isS d = true ∨ l = k) then ws.getD (r - d) 0 else y r l

theorem reg_placed_v (t : State) (y : Warp) (hd : d + ws.length ≤ 640) (hk : k < 32) (r : Nat) {l : Nat} (hl : l < 32) :
    t.reg { y with v := putWords 32 d k 0 ws y.v } r l = placed d k ws (t.reg y) r l := by
  unfold placed
  by_cases hr : r < 640
  · rw [reg_of_v _ _ _ _ hr, reg_of_v _ _ _ _ hr, sget_putWords 32 d k ws 0 y.v r l hl hk]
    exact if_congr (by rw [isS_iff]; omega) rfl rfl
  · rw [if_neg (by omega), State.reg, State.reg, if_neg hr, if_neg hr]
    rfl

theorem reg_placed_s (t : State) (y : Warp) (hd : 640 ≤ d ∧ d + ws.length ≤ 704) (r l : Nat) :
    t.reg { y with s := putWords 1 (d - 640) 0 0 ws y.s } r l = placed d k ws (t.reg y) r l := by
  unfold placed
  by_cases hr : 640 ≤ r ∧ r < 704
  · have found := sget_putWords 1 (d - 640) 0 ws 0 y.s (r - 640) 0 (by decide) (by decide)
    simp only [one_mul, add_zero, true_and] at found
    rw [reg_of_s _ _ _ _ hr.1 hr.2, reg_of_s _ _ _ _ hr.1 hr.2, found, show r - 640 - (d - 640) = r - d by omega]
    exact if_congr (by rw [isS_iff]; omega) rfl rfl
  · rw [if_neg (by omega)]
    by_cases hv : r < 640
    · rw [reg_of_v _ _ _ _ hv, reg_of_v _ _ _ _ hv]
    · have beyond : ¬r < 704 := by omega
      simp only [State.reg, hv, beyond, if_false]
      rfl

theorem reg_placed_h {y : Warp} {b : Bank} (hb : (t.quad y.q).bank = some b) (hd : 704 ≤ d ∧ d + ws.length ≤ 768) (hk : k < 32) (r : Nat) {l : Nat}
    (hl : l < 32) : (t.onBank y.q fun b => { b with h := putWords 32 (d - 704) k 0 ws b.h }).reg y r l = placed d k ws (t.reg y) r l := by
  unfold placed
  by_cases hr : 704 ≤ r ∧ r < 768
  · rw [reg_of_h _ _ _ _ hr.1 hr.2 ((bank_onBank ..).trans (congrArg _ hb)), reg_of_h _ _ _ _ hr.1 hr.2 hb]
    refine (sget_putWords 32 (d - 704) k ws 0 b.h (r - 704) l hl hk).trans ?_
    rw [show r - 704 - (d - 704 + 0) = r - d by omega]
    exact if_congr (by rw [isS_iff]; omega) rfl rfl
  · rw [reg_onBank_outside _ _ _ _ hr, if_neg (by omega)]

/-- A lane's words put in registers that it may write. -/
theorem Rewritten.put (h : Rewritten s w mv p val t) (hl : lanesWhole s w) (hd : dstOk s.iss.hnd d ws.length) (hne : ws ≠ []) (hk : k < 32) :
    Rewritten s w mv p (placed d k ws val) (t.put w d k ws) := by
  obtain ⟨G, B, L, hL, hs, hG, hB, hp, hreg⟩ := h
  have some_word := List.length_pos_iff.2 hne
  have same {r l : Nat} (hl : l < 32) : placed d k ws (t.reg (G w)) r l = placed d k ws val r l := congrArg (ite _ _) (hreg r l hl)
  rw [State.put, State.wr]
  obtain hv | hu | ⟨hh, hb⟩ := hd
  · rw [if_pos (by omega)]
    exact ⟨_, B, L, hL, hs.onWarp (fun y => { y with v := putWords 32 d k 0 ws y.v }) fun _ => rfl, hG, hB, hp,
      fun r l hl => (reg_placed_v t (G w) hv hk r hl).trans (same hl)⟩
  · rw [if_neg (by omega), if_pos (by omega)]
    exact ⟨_, B, L, hL, hs.onWarp (fun y => { y with s := putWords 1 (d - 640) 0 0 ws y.s }) fun _ => rfl, hG, hB, hp,
      fun r l hl => (reg_placed_s t (G w) hu r l).trans (same hl)⟩
  · obtain ⟨b, bank⟩ := hs.has_bank hl hh
    rw [if_neg (by omega), if_neg (by omega), if_pos (by omega)]
    refine ⟨G, _, L, hL, hs.onBank hh (fun b => { b with h := putWords 32 (d - 704) k 0 ws b.h }) fun _ => rfl, hG, hB, hp, fun r l hl => ?_⟩
    rw [← hs.q w] at bank ⊢
    exact (reg_placed_h bank hb hk r hl).trans (same hl)

/-- Words put one lane after another. -/
def placedEach (d : Nat) (vs : List (Nat × List Word)) (y : Nat → Nat → Word) : Nat → Nat → Word := vs.foldl (fun y v => placed d v.1 v.2 y) y

/-- Lanes with registers of their own take their own words. -/
theorem placedEach_lanes {n : Nat} {x : Nat → List Word} {ls : List Nat} (hd : isS d = false) (hx : ∀ l ∈ ls, (x l).length = n) (y : Nat → Nat → Word)
    (r l : Nat) : placedEach d (ls.map fun l => (l, x l)) y r l = if d ≤ r ∧ r < d + n ∧ l ∈ ls then (x l).getD (r - d) 0 else y r l := by
  induction ls generalizing y with
  | nil => exact (if_neg fun h => List.not_mem_nil h.2.2).symm
  | cons a q ih =>
    obtain ⟨ha, hq⟩ := List.forall_mem_cons.1 hx
    refine (ih hq _).trans ?_
    simp only [placed, ha, hd, Bool.false_eq_true, false_or, List.mem_cons]
    by_cases hla : l = a
    · subst hla
      by_cases hr : d ≤ r ∧ r < d + n <;> by_cases hl : l ∈ q <;> simp [hr, hl]
    · simp [hla]

/-! ## Blocks changed beside -/

/-- A block changed, but for its number and place, changes nothing of what registers read. -/
theorem Rewritten.onBlock (h : Rewritten s w mv p val t) (i : Nat) {f : Block → Block} (hid : ∀ b, (f b).id = b.id) (hlin : ∀ b, (f b).lin = b.lin)
    (hpos : ∀ b, (f b).pos = b.pos) : Rewritten (s.onBlock i f) w mv p val (t.onBlock i f) := by
  obtain ⟨G, B, L, hL, ⟨only, warps, warpKeeps, bankKeeps, quad, noBank⟩, hG, hB, hp, hreg⟩ := h
  refine ⟨G, B, L, hL, ⟨?_, warps, warpKeeps, bankKeeps, quad, noBank⟩, hG, hB, hp, fun n l hl => ?_⟩
  · rw [only]
    rfl
  · exact ((ReadsOperands.onBlock t i hid hlin hpos).reg (G w) n l).trans (hreg n l hl)

end Placing

section Accesses

variable {i : Instr} {s t v : State} {w : Warp} {act : Mask} {m : MOp} {u : Bool} {l : Nat}

/-! ## What a lane's access leaves of the others -/

/-- Going from `t` to `v` leaves the issue, the contexts and what the other lanes' registers read. -/
structure LaneApart (w : Warp) (l : Nat) (t v : State) : Prop where
  iss : v.iss = t.iss
  ctxs : v.ctxs = t.ctxs
  reg : ∀ k, k < 32 → k ≠ l → ∀ n, v.reg w n k = t.reg w n k

theorem LaneApart.trans {x : State} (h : LaneApart w l t v) (k : LaneApart w l v x) : LaneApart w l t x :=
  ⟨k.iss.trans h.iss, k.ctxs.trans h.ctxs, fun j hj hne n => (k.reg j hj hne n).trans (h.reg j hj hne n)⟩

theorem ReadsOperands.laneApart (h : ReadsOperands t v) (w : Warp) (l : Nat) : LaneApart w l t v := ⟨h.iss, h.ctxs, fun k _ _ n => h.reg w n k⟩

/-- A lane's registers are not the others'; uniform registers are the warp's, which an issue reads as they stood. -/
theorem laneApart_put (t : State) (w : Warp) (d : Nat) (hl : l < 32) (ws : List Word) : LaneApart w l t (t.put w d l ws) := by
  rw [State.put, State.wr]
  split
  · exact ⟨rfl, rfl, fun _ _ _ _ => rfl⟩
  split
  · exact ⟨rfl, rfl, fun _ _ _ _ => rfl⟩
  split
  · refine ⟨rfl, rfl, fun k hk hne n => ?_⟩
    by_cases hn : 704 ≤ n ∧ n < 768
    · cases hb : (t.quad w.q).bank with
      | none =>
        have empty : ((t.onBank w.q fun b => { b with h := [(l, ws)].foldl (fun m v => putWords 32 (d - 704) v.1 0 v.2 m) b.h }).quad w.q).bank = none :=
          (bank_onBank ..).trans (congrArg _ hb)
        simp only [State.reg, State.bankRegs, empty, hb]
        rfl
      | some b =>
        rw [reg_of_h _ _ _ _ hn.1 hn.2 ((bank_onBank ..).trans (congrArg _ hb)), reg_of_h _ _ _ _ hn.1 hn.2 hb]
        exact (sget_putWords 32 (d - 704) l ws 0 b.h (n - 704) k hk hl).trans (if_neg fun h => hne h.1)
    · exact reg_onBank_outside _ _ _ _ hn k
  · exact ⟨rfl, rfl, fun _ _ _ _ => rfl⟩

/-- A word in error found by an access: its detection, and a request that has failed. -/
theorem scratchLost_only (s : State) (w : Warp) (m : MOp) (l a : Nat) (uni : Mask) : s.scratchLost w m l a uni =
    { s with host := (s.scratchLost w m l a uni).host, hq := (s.scratchLost w m l a uni).hq, msix := 0 :: s.msix,
             net := s.net ++ [{ (s.request w (.load m.data (sizeBytes m.size) false false false false) (.host 0) a l uni false) with st := .failed 3 }] } := by
  unfold State.scratchLost State.scratchErr State.detectUnit State.postDev
  rw [post_only]
  rfl

theorem readsOperands_scratchLost (s : State) (w : Warp) (m : MOp) (l a : Nat) (uni : Mask) : ReadsOperands s (s.scratchLost w m l a uni) := by
  rw [scratchLost_only]
  exact ⟨rfl, rfl, rfl, rfl, fun _ => rfl⟩

theorem readsOperands_scratchPut (s : State) (k a : Nat) (x : List Byte) : ReadsOperands s (s.onBlock k fun b => b.scratchPut a x) :=
  .onBlock _ _ (fun _ => rfl) (fun _ => rfl) fun _ => rfl

/-! ## How a lane's access ends -/

/-- How a lane's access to the scratchpad ends (R166, R167). -/
def scratchEnd (m : MOp) (s : State) (w : Warp) (l : Nat) : Ends :=
  if scratchAddr m s w l % sizeBytes m.size ≠ 0 then .trap 6 0 (scratchAddr m s w l)
  else if s.scratchSize w < scratchAddr m s w l + sizeBytes m.size then .trap 7 1 (scratchAddr m s w l)
  else .done

theorem scratchEnd_bent (h : scratchAddr m s w l % sizeBytes m.size ≠ 0) : scratchEnd m s w l = .trap 6 0 (scratchAddr m s w l) := if_pos h

theorem scratchEnd_out (h : scratchAddr m s w l % sizeBytes m.size = 0) (ho : s.scratchSize w < scratchAddr m s w l + sizeBytes m.size) :
    scratchEnd m s w l = .trap 7 1 (scratchAddr m s w l) := (if_neg (not_not.2 h)).trans (if_pos ho)

theorem scratchEnd_fits (h : scratchFits m s w l) : scratchEnd m s w l = .done := (if_neg (not_not.2 h.1)).trans (if_neg (Nat.not_lt.2 h.2))

/-- A lane's access is its effect where it fits, and its end. -/
theorem scratchLane_eq (he : t.iss.early = []) (f : Nat → State → State) :
    scratchLane w m f l t = (scratchEnd m t w l, if scratchFits m t w l then f (scratchAddr m t w l) t else t) := by
  have same : (t.rd w m.base.toNat l + m.off.signExtend 32).toNat = scratchAddr m t w l := by rw [rd_noEarly he, scratchAddr]
  unfold scratchLane
  simp only [same]
  by_cases hb : scratchAddr m t w l % sizeBytes m.size = 0
  · by_cases ho : t.scratchSize w < scratchAddr m t w l + sizeBytes m.size
    · simp only [hb, ho, ne_eq, not_true_eq_false, if_false, if_true, scratchEnd_out hb ho, scratchFits, Nat.not_le.2 ho, and_false]
      rfl
    · simp only [hb, ho, ne_eq, not_true_eq_false, if_false, if_true, scratchEnd_fits ⟨hb, Nat.not_lt.1 ho⟩, scratchFits, Nat.not_lt.1 ho, and_self]
  · simp only [hb, ne_eq, not_false_eq_true, if_true, scratchEnd_bent hb, scratchFits, false_and, if_false]
    rfl

theorem LaneApart.scratchSize (h : LaneApart w l t v) : v.scratchSize w = t.scratchSize w := by
  simp only [State.scratchSize, State.ctx?, h.ctxs]

theorem LaneApart.scratchAddr (h : LaneApart w l t v) (m : MOp) {k : Nat} (hk : k < 32) (hne : k ≠ l) : scratchAddr m v w k = scratchAddr m t w k := by
  simp only [Claims.scratchAddr, h.reg k hk hne]

theorem LaneApart.scratchEnd (h : LaneApart w l t v) (m : MOp) {k : Nat} (hk : k < 32) (hne : k ≠ l) : scratchEnd m v w k = scratchEnd m t w k := by
  simp only [Machine.scratchEnd, h.scratchSize, h.scratchAddr m hk hne]

theorem LaneApart.scratchFits (h : LaneApart w l t v) (m : MOp) {k : Nat} (hk : k < 32) (hne : k ≠ l) : scratchFits m v w k ↔ scratchFits m t w k := by
  simp only [Claims.scratchFits, h.scratchSize, h.scratchAddr m hk hne]

/-! ## The accesses of the lanes, one after another -/

/-- What the accesses that fit do, one after another: `f` does a lane's from its address. -/
def scratchRun (m : MOp) (s : State) (w : Warp) (f : Nat → Nat → State → State) (ls : List Nat) : State :=
  (ls.filter fun l => decide (scratchFits m s w l)).foldl (fun t l => f l (scratchAddr m s w l) t) s

theorem scratchRun_fits {f : Nat → Nat → State → State} {ls : List Nat} (h : ∀ l ∈ ls, scratchFits m s w l) :
    scratchRun m s w f ls = ls.foldl (fun t l => f l (scratchAddr m s w l) t) s := by
  rw [scratchRun, List.filter_eq_self.2 fun l hl => decide_eq_true (h l hl)]

/-- Where no lane's access touches what another lane reads, all addresses are those of the issue. -/
theorem endsOf_scratch {f : Nat → Nat → State → State} (hf : ∀ l, l < 32 → ∀ a t, LaneApart w l t (f l a t)) {ls : List Nat} (hls : ∀ l ∈ ls, l < 32)
    (hn : ls.Nodup) (he : t.iss.early = []) :
    endsOf (fun l => scratchLane w m (f l) l) ls t = (ls.map fun l => (l, scratchEnd m t w l), scratchRun m t w f ls) := by
  induction ls generalizing t with
  | nil => rfl
  | cons l r ih =>
    obtain ⟨hl, hr⟩ := List.forall_mem_cons.1 hls
    obtain ⟨fresh, hn⟩ := List.nodup_cons.1 hn
    have other {k : Nat} (hk : k ∈ r) : k ≠ l := fun h => fresh (h ▸ hk)
    simp only [endsOf, scratchLane_eq he, List.map_cons]
    by_cases hfit : scratchFits m t w l
    · have apart := hf l hl (scratchAddr m t w l) t
      have ends : (r.map fun k => (k, scratchEnd m (f l (scratchAddr m t w l) t) w k)) = r.map fun k => (k, scratchEnd m t w k) :=
        List.map_congr_left fun k hk => by rw [apart.scratchEnd m (hr k hk) (other hk)]
      have fits : (r.filter fun k => decide (scratchFits m (f l (scratchAddr m t w l) t) w k)) = r.filter fun k => decide (scratchFits m t w k) :=
        List.filter_congr fun k hk => decide_eq_decide.2 (apart.scratchFits m (hr k hk) (other hk))
      rw [if_pos hfit, ih hr hn (apart.iss ▸ he), ends]
      simp only [scratchRun, fits]
      rw [List.filter_cons_of_pos (p := fun k => decide (scratchFits m t w k)) (decide_eq_true hfit), List.foldl_cons]
      refine congrArg (Prod.mk _) (List.foldl_ext _ _ _ fun v k hk => ?_)
      rw [apart.scratchAddr m (hr k (List.mem_filter.1 hk).1) (other (List.mem_filter.1 hk).1)]
    · rw [if_neg hfit, ih hr hn he]
      rw [scratchRun, scratchRun, List.filter_cons_of_neg (p := fun k => decide (scratchFits m t w k)) fun h => hfit (of_decide_eq_true h)]

theorem accessors_lt (hne : act ≠ 0#32) : ∀ l ∈ accessors act u, l < 32 := by
  cases u with
  | false => exact fun l hl => mask_lt act l ((mem_lanesOf ..).1 hl)
  | true => exact fun l hl => List.mem_singleton.1 hl ▸ mask_lt act _ (lanesOf_lowest hne)

theorem nodup_accessors (act : Mask) (u : Bool) : (accessors act u).Nodup := by
  cases u with
  | false => exact nodup_lanesOf act
  | true => exact List.nodup_singleton _

/-- An issue that accesses the scratchpad: `f` does a lane's access. -/
def ScratchRuns (i : Instr) (s : State) (w : Warp) (act : Mask) (m : MOp) (u : Bool) (f : Nat → Nat → State → State) : Prop :=
  exec i s = .next (afterEnds s w act (fun l => scratchEnd m s w (if u then lowestLane act else l)) (scratchRun m s w f (accessors act u)))

theorem scratchRuns {a : Acc} {f : Warp → Mask → State → Nat → Nat → State → State} (ha : Acts i s w act)
    (hx : exec i s = perform i (fun w act s => memLanes w act (if u then act else 0#32) a (fun l => scratchLane w m (f w act s l) l) s) s)
    (hn : nominal i = none) (hv : voiding i = false) (hf : ∀ l, l < 32 → ∀ a t, LaneApart w l t (f w act s l a t)) :
    ScratchRuns i s w act m u (f w act s) := by
  obtain ⟨-, -, hne, he, -⟩ := id ha
  have run := endsOf_scratch (m := m) hf (accessors_lt hne) (nodup_accessors act u) he
  rw [ScratchRuns, exec_untimed ha hx hn, void_of_quiet hv, memLanes_ends hne a _ s, run]
  · exact congrArg _ (afterEnds_congr (fun l hl => endIn_map hl) _)
  · rw [run]
    intro x hx va
    obtain ⟨l, -, rfl⟩ := List.mem_map.1 hx
    unfold scratchEnd
    split
    · simp
    · split <;> simp

/-! ## LDS, STS and ATOMS -/

/-- A lane's LDS from its address. -/
def loadsAt (w : Warp) (act : Mask) (sx : Bool) (m : MOp) (l a : Nat) (t : State) : State :=
  match t.scratchGet w.blk a (sizeBytes m.size) with
  | some b => t.put w m.data.toNat l (loadWords (sizeBytes m.size) sx b)
  | none => t.scratchLost w m l a (if isS m.data.toNat then act else 0#32)

/-- A lane's STS to its address. -/
def storesAt (w : Warp) (m : MOp) (l a : Nat) (t : State) : State := t.onBlock w.blk fun b => b.scratchPut a (storeBytes t w m l)

/-- What an ATOMS that finds the number `o` writes back. -/
def atomBytes (s : State) (w : Warp) (op : AtomOp) (m : MOp) (l o : Nat) : List Byte :=
  toBytes (sizeBytes m.size) (atomNew op (sizeBytes m.size) o (atomArgs s w op m l).1 (atomArgs s w op m l).2)

/-- A lane's ATOMS at its address; operands are those of the issue's start. -/
def atomsAt (s : State) (w : Warp) (act : Mask) (op : AtomOp) (m : MOp) (l a : Nat) (t : State) : State :=
  match t.scratchGet w.blk a (sizeBytes m.size) with
  | some b => (t.onBlock w.blk fun x => x.scratchPut a (atomBytes s w op m l (ofBytes b))).put w m.data.toNat l (wordsN (sizeBytes m.size / 4) (ofBytes b))
  | none => t.scratchLost w m l a (if isS m.data.toNat then act else 0#32)

theorem lds_scratchRuns {c : Common} {sx : Bool} (ha : Acts (.lds c sx m) s w act) :
    ScratchRuns (.lds c sx m) s w act m (isS m.data.toNat) (loadsAt w act sx m) := by
  refine scratchRuns (f := fun w act _ => loadsAt w act sx m) ha rfl rfl rfl fun l hl a t => ?_
  unfold loadsAt
  split
  · exact laneApart_put t w _ hl _
  · exact (readsOperands_scratchLost ..).laneApart w l

theorem sts_scratchRuns {c : Common} (ha : Acts (.sts c m) s w act) : ScratchRuns (.sts c m) s w act m (uniStore m) (storesAt w m) :=
  scratchRuns (f := fun w _ _ => storesAt w m) ha rfl rfl rfl fun l _ _ _ => (readsOperands_scratchPut ..).laneApart w l

theorem atoms_scratchRuns {c : Common} {op : AtomOp} (ha : Acts (.atoms c op m) s w act) :
    ScratchRuns (.atoms c op m) s w act m (isS m.data.toNat) (atomsAt s w act op m) := by
  refine scratchRuns (f := fun w act s => atomsAt s w act op m) ha rfl rfl rfl fun l hl a t => ?_
  unfold atomsAt
  split
  · exact ((readsOperands_scratchPut ..).laneApart w l).trans (laneApart_put _ w _ hl _)
  · exact (readsOperands_scratchLost ..).laneApart w l

theorem scratchOp_runs (h : scratchOp i = some (m, u)) (ha : Acts i s w act) : ∃ f, ScratchRuns i s w act m u f := by
  unfold scratchOp at h
  split at h <;> cases h
  · exact ⟨_, lds_scratchRuns ha⟩
  · exact ⟨_, sts_scratchRuns ha⟩
  · exact ⟨_, atoms_scratchRuns ha⟩

/-- Where every access fits, all lanes move on. -/
theorem ScratchRuns.fits {f : Nat → Nat → State → State} (h : ScratchRuns i s w act m u f)
    (hfit : ∀ l ∈ accessors act u, scratchFits m s w l) :
    exec i s = .next (((accessors act u).foldl (fun t l => f l (scratchAddr m s w l) t) s).advance w s.iss.lanes) := by
  rw [h, scratchRun_fits hfit]
  refine congrArg _ ((afterEnds_congr (fun l hl => ?_) _).trans (afterEnds_done (how := fun _ => .done) (fun _ => rfl) s w act _))
  exact scratchEnd_fits (hfit _ (mem_accessors hl))

end Accesses

section Results

variable {s t : State} {w : Warp} {act : Mask} {m : MOp} {op : AtomOp} {mv : Nat → Lane → Lane} {p : Sparse Mask} {val : Nat → Nat → Word}

/-! ## What is read of a scratchpad -/

theorem scratchGet_none_iff {k a n : Nat} {b : Block} (hb : s.block? k = some b) :
    s.scratchGet k a n = none ↔ ∃ x ∈ b.badWords, 4 * x < a + n ∧ a < 4 * x + 4 := by
  simp [State.scratchGet, hb]

theorem scratchGet_some {k a n : Nat} {b : Block} (hb : s.block? k = some b) {x : List Byte} (h : s.scratchGet k a n = some x) : x = readCells b.scratch a n := by
  simp only [State.scratchGet, hb] at h
  split at h
  · cases h
  · exact (Option.some.inj h).symm

theorem scratchGet_clean {k : Nat} {b : Block} (hb : s.block? k = some b) (hbad : b.badWords = []) (a n : Nat) :
    s.scratchGet k a n = some (readCells b.scratch a n) := by
  simp only [State.scratchGet, hb, hbad, List.any_nil, Bool.false_eq_true, if_false]

theorem readCells_nil (a n : Nat) : readCells [] a n = List.replicate n 0 := by
  unfold readCells cellsFrom
  induction n generalizing a with
  | zero => rfl
  | succ n ih => rw [readRun, ih, List.replicate_succ]

theorem scratchGet_sound (h : sound s w) (a n : Nat) : s.scratchGet w.blk a n = some (scratchAt s w a n) := by
  cases hb : s.block? w.blk with
  | none => simp only [State.scratchGet, scratchAt, hb, Option.map_none, Option.getD_none, readCells_nil]
  | some b => simp only [scratchGet_clean hb (h b hb), scratchAt, hb, Option.map_some, Option.getD_some]

theorem scratchGet_blocks (h : t.blocks = s.blocks) (k a n : Nat) : t.scratchGet k a n = s.scratchGet k a n := by
  simp only [State.scratchGet, State.block?, h]

/-! ## Loads -/

theorem length_wordsN (n x : Nat) : (wordsN n x).length = n := by
  induction n generalizing x with
  | zero => rfl
  | succ n ih => rw [wordsN, List.length_cons, ih]

/-- A load gives its destination all its words. -/
theorem length_loadWords {z : BitVec 3} (hz : z.toNat ≤ 4) (sx : Bool) (b : List Byte) : (loadWords (sizeBytes z) sx b).length = sizeRegs z := by
  have cases_of : z = 0 ∨ z = 1 ∨ z = 2 ∨ z = 3 ∨ z = 4 := by revert hz; revert z; decide
  obtain rfl | rfl | rfl | rfl | rfl := cases_of <;> simp [loadWords, sizeBytes, sizeRegs, length_wordsN]

theorem sizeRegs_pos (z : BitVec 3) : 0 < sizeRegs z := by
  unfold sizeRegs
  split
  · decide
  · split <;> decide

/-- The words that a lane's LDS reads. -/
def loadedWords (s : State) (w : Warp) (sx : Bool) (m : MOp) (l : Nat) : List Word :=
  loadWords (sizeBytes m.size) sx (scratchAt s w (scratchAddr m s w l) (sizeBytes m.size))

theorem Rewritten.blocks (h : Rewritten s w mv p val t) : t.blocks = s.blocks := by
  obtain ⟨_, _, _, -, hs, -⟩ := h
  rw [hs.only]

/-- LDS puts the words of each lane, one lane after another. -/
theorem Rewritten.loads (h : Rewritten s w mv p val t) (hl : lanesWhole s w) (hsound : sound s w) (hz : m.size.toNat ≤ 4)
    (hd : dstOk s.iss.hnd m.data.toNat (sizeRegs m.size)) (sx : Bool) {ls : List Nat} (hls : ∀ l ∈ ls, l < 32) :
    Rewritten s w mv p (placedEach m.data.toNat (ls.map fun l => (l, loadedWords s w sx m l)) val)
      (ls.foldl (fun t l => loadsAt w act sx m l (scratchAddr m s w l) t) t) := by
  induction ls generalizing t val with
  | nil => exact h
  | cons l r ih =>
    obtain ⟨hl32, hr⟩ := List.forall_mem_cons.1 hls
    have length := length_loadWords hz sx (scratchAt s w (scratchAddr m s w l) (sizeBytes m.size))
    have done : loadsAt w act sx m l (scratchAddr m s w l) t = t.put w m.data.toNat l (loadedWords s w sx m l) := by
      rw [loadsAt, scratchGet_blocks h.blocks, scratchGet_sound hsound]
      rfl
    have first := h.put hl (ws := loadedWords s w sx m l) (d := m.data.toNat) (by rw [loadedWords, length]; exact hd)
      (List.length_pos_iff.1 (by rw [loadedWords, length]; exact sizeRegs_pos _)) hl32
    rw [List.foldl_cons, done]
    exact ih first hr

/-! ## Stores -/

theorem scratched_nil (s : State) (w : Warp) : scratched s w [] = s := by
  simp only [scratched, State.onBlock, List.foldl_nil, ite_self, List.map_id']

theorem scratched_cons (s : State) (w : Warp) (x : Nat × List Byte) (r : List (Nat × List Byte)) :
    scratched s w (x :: r) = scratched (s.onBlock w.blk fun b => b.scratchPut x.1 x.2) w r := by
  refine congrArg (fun bs => { s with blocks := bs }) ((List.map_congr_left fun b _ => ?_).trans List.map_map.symm)
  by_cases hb : b.id = w.blk <;> simp [hb, Block.scratchPut]

/-- STS puts the bytes of each lane, one lane after another. -/
theorem stores_scratched (h : ReadsOperands s t) (w : Warp) (m : MOp) (ls : List Nat) :
    ls.foldl (fun t l => storesAt w m l (scratchAddr m s w l) t) t = scratched t w (ls.map fun l => (scratchAddr m s w l, storeBytes s w m l)) := by
  induction ls generalizing t with
  | nil => exact (scratched_nil t w).symm
  | cons l r ih =>
    rw [List.foldl_cons, List.map_cons, scratched_cons, storesAt, h.storeBytes, ih (h.trans (readsOperands_scratchPut ..))]

/-! ## Atomics -/

theorem atomsRun_lanes (s : State) (w : Warp) (op : AtomOp) (m : MOp) (ls : List Nat) (c : Sparse Byte) : (atomsRun s w op m ls c).1.map (·.1) = ls := by
  induction ls generalizing c with
  | nil => rfl
  | cons l r ih => rw [atomsRun, List.map_cons, ih]

/-- The words that ATOMS gives the lanes, from what their accesses found. -/
def foundWords (m : MOp) (found : List (Nat × Nat)) : List (Nat × List Word) := found.map fun x => (x.1, wordsN (sizeBytes m.size / 4) x.2)

/-- The number that lane `l` found. -/
def foundIn (found : List (Nat × Nat)) (l : Nat) : Nat := ((found.find? fun x => x.1 = l).map (·.2)).getD 0

theorem foundWords_eq {found : List (Nat × Nat)} {ls : List Nat} (h : found.map (·.1) = ls) (hn : ls.Nodup) :
    foundWords m found = ls.map fun l => (l, wordsN (sizeBytes m.size / 4) (foundIn found l)) := by
  subst h
  rw [foundWords]
  conv_lhs => rw [eq_map_find 0 hn]
  rw [List.map_map]
  rfl

/-- ATOMS reads, writes and puts lane by lane; `s₀` is the state whose operands it takes. -/
theorem Rewritten.atoms {s₀ : State} {b : Block} (h : Rewritten s w mv p val t) (hl : lanesWhole s w) (hb : s.block? w.blk = some b) (hbad : b.badWords = [])
    (hz : 0 < sizeBytes m.size / 4) (hd : dstOk s.iss.hnd m.data.toNat (sizeBytes m.size / 4)) {ls : List Nat} (hls : ∀ l ∈ ls, l < 32) :
    Rewritten (scratched s w (atomsRun s₀ w op m ls b.scratch).2) w mv p (placedEach m.data.toNat (foundWords m (atomsRun s₀ w op m ls b.scratch).1) val)
      (ls.foldl (fun t l => atomsAt s₀ w act op m l (scratchAddr m s₀ w l) t) t) := by
  induction ls generalizing s t val b with
  | nil =>
    rw [atomsRun, scratched_nil]
    exact h
  | cons l r ih =>
    obtain ⟨hl32, hr⟩ := List.forall_mem_cons.1 hls
    let o := ofBytes (readCells b.scratch (scratchAddr m s₀ w l) (sizeBytes m.size))
    have done : atomsAt s₀ w act op m l (scratchAddr m s₀ w l) t =
        (t.onBlock w.blk fun x => x.scratchPut (scratchAddr m s₀ w l) (atomBytes s₀ w op m l o)).put w m.data.toNat l (wordsN (sizeBytes m.size / 4) o) := by
      rw [atomsAt, scratchGet_blocks h.blocks, scratchGet_clean hb hbad]
    have wrote := h.onBlock w.blk (f := fun x => x.scratchPut (scratchAddr m s₀ w l) (atomBytes s₀ w op m l o)) (fun _ => rfl) (fun _ => rfl) fun _ => rfl
    have first := wrote.put hl (d := m.data.toNat) (ws := wordsN (sizeBytes m.size / 4) o) (by rw [length_wordsN]; exact hd)
      (List.length_pos_iff.1 (by rw [length_wordsN]; exact hz)) hl32
    have here : (s.onBlock w.blk fun x => x.scratchPut (scratchAddr m s₀ w l) (atomBytes s₀ w op m l o)).block? w.blk =
        some (b.scratchPut (scratchAddr m s₀ w l) (atomBytes s₀ w op m l o)) := by
      rw [block?_onBlock (f := fun x : Block => x.scratchPut (scratchAddr m s₀ w l) (atomBytes s₀ w op m l o)) _ _ fun _ => rfl, hb]
      simp
    have clean : (b.scratchPut (scratchAddr m s₀ w l) (atomBytes s₀ w op m l o)).badWords = [] := by rw [Block.scratchPut, hbad]; rfl
    have rest := ih first hl here clean hd hr
    rw [List.foldl_cons, done]
    simp only [atomsRun, scratched_cons]
    exact rest

end Results

section Ending

variable {i : Instr} {s t u : State} {w : Warp} {act : Mask} {m : MOp} {d n : Nat} {x : Nat → List Word}

/-! ## The registers written -/

/-- What each lane reads where the lanes with an access have put their words: a uniform register's are the lowest lane's. -/
theorem placedEach_accessors (hx : ∀ l, (x l).length = n) (y : Nat → Nat → Word) (r l : Nat) :
    placedEach d ((accessors act (isS d)).map fun l => (l, x l)) y r l =
      if d ≤ r ∧ r < d + n ∧ (isS d = true ∨ act.getLsbD l = true) then (x (if isS d then lowestLane act else l)).getD (r - d) 0 else y r l := by
  cases hd : isS d with
  | false =>
    rw [placedEach_lanes hd (fun l _ => hx l)]
    exact if_congr (by simp [accessors, mem_lanesOf]) rfl rfl
  | true => simp [accessors, placedEach, placed, hx, hd]

theorem Rewritten.wroteReg (h : Rewritten s w (fun _ l => l) w.p (placedEach d ((accessors act (isS d)).map fun l => (l, x l)) (s.reg w)) t)
    (hw : s.issWarp = some w) (hl : lanesWhole s w) (hx : ∀ l, (x l).length = n) :
    ∃ w', WroteReg s w act d n (fun l k => (x l).getD k 0) (fun _ => 0) (t.advance w s.iss.lanes) w' := by
  obtain ⟨w', moved, hp, hreg⟩ := (h.advance s.iss.lanes).moved hw hl fun _ _ => by unfold inMask; split <;> rfl
  refine ⟨w', moved, hp, fun l hl hal k hk => ?_, fun r l hl hn => ?_⟩
  · rw [hreg _ l hl, placedEach_accessors hx, if_pos ⟨by omega, by omega, .inr hal⟩, Nat.add_sub_cancel_left]
  · rw [hreg r l hl, placedEach_accessors hx, if_neg hn]

theorem Rewritten.wroteSome {ls : List Nat} (h : Rewritten s w (fun _ l => l) w.p (placedEach d (ls.map fun l => (l, x l)) (s.reg w)) u)
    (hw : s.issWarp = some w) (hl : lanesWhole s w) (hd : isS d = false) (hx : ∀ l, (x l).length = n) :
    WroteSome s w (fun r l => (d ≤ r ∧ l ∈ ls) ∧ r < d + n) (fun r l => (x l).getD (r - d) 0) u := by
  obtain ⟨w', moved, hp, hreg⟩ := h.moved hw hl fun _ _ => rfl
  refine ⟨w', moved, hp, fun r l hl => ⟨fun here => ?_, fun out => ?_⟩⟩
  · rw [hreg r l hl, placedEach_lanes hd fun l _ => hx l, if_pos (by tauto)]
  · rw [hreg r l hl, placedEach_lanes hd fun l _ => hx l, if_neg (by tauto)]

/-- The registers of LDS are legal. -/
theorem lds_dst {c : Common} {sx : Bool} (ha : Acts (.lds c sx m) s w act) : dstOk s.iss.hnd m.data.toNat (sizeRegs m.size) :=
  dst_ok (opnd_ok ha (o := .dst m.data (sizeRegs m.size)) (List.mem_cons_self ..)) rfl (by simp [Opnd.dst]) (by simp [Opnd.dst])

/-- The registers of an ATOMS of 4 or 8 bytes are legal. -/
theorem atoms_dst {c : Common} {op : AtomOp} (ha : Acts (.atoms c op m) s w act) (hz : m.size = 2#3 ∨ m.size = 3#3) :
    dstOk s.iss.hnd m.data.toNat (sizeBytes m.size / 4) := by
  have legal : dstOk s.iss.hnd m.data.toNat (atomRegs op m) :=
    dst_ok (opnd_ok ha (o := .acc m.data (atomRegs op m)) (List.mem_cons_self ..)) rfl (by simp [Opnd.acc]) (by simp [Opnd.acc])
  have enough : sizeBytes m.size / 4 ≤ atomRegs op m := by
    obtain hz | hz := hz <;> by_cases hc : op = .cas <;> simp [atomRegs, sizeBytes, hz, hc]
  obtain h | h | ⟨hh, h⟩ := legal
  · exact .inl (by omega)
  · exact .inr (.inl (by omega))
  · exact .inr (.inr ⟨hh, by omega⟩)

theorem atoms_words (hz : m.size = 2#3 ∨ m.size = 3#3) : 0 < sizeBytes m.size / 4 := by
  obtain hz | hz := hz <;> simp [sizeBytes, hz]

/-- What ATOMS leaves of the scratchpad is beside what registers read. -/
theorem reg_scratched (s : State) (w : Warp) (ws : List (Nat × List Byte)) : (scratched s w ws).reg w = s.reg w := by
  induction ws generalizing s with
  | nil => rw [scratched_nil]
  | cons x r ih => rw [scratched_cons, ih]; exact funext₂ ((readsOperands_scratchPut s w.blk x.1 x.2).reg w)

/-- ATOMS from the state of its issue. -/
theorem atoms_rewritten {op : AtomOp} {b : Block} (hl : lanesWhole s w) (hb : s.block? w.blk = some b) (hbad : b.badWords = [])
    (hz : m.size = 2#3 ∨ m.size = 3#3) (hd : dstOk s.iss.hnd m.data.toNat (sizeBytes m.size / 4)) {ls : List Nat} (hls : ∀ l ∈ ls, l < 32) (hn : ls.Nodup) :
    let q := atomsRun s w op m ls b.scratch
    Rewritten (scratched s w q.2) w (fun _ l => l) w.p (placedEach m.data.toNat (ls.map fun l => (l, wordsN (sizeBytes m.size / 4) (foundIn q.1 l)))
      ((scratched s w q.2).reg w)) (ls.foldl (fun t l => atomsAt s w act op m l (scratchAddr m s w l) t) s) := by
  intro q
  have run := (Rewritten.refl s w).atoms (act := act) (op := op) (s₀ := s) hl hb hbad (atoms_words hz) hd hls
  rw [foundWords_eq (atomsRun_lanes s w op m ls b.scratch) hn, ← reg_scratched s w q.2] at run
  exact run

/-! ## The lanes that trap -/

theorem filterMap_guarded {α β : Type} (q : α → Prop) [DecidablePred q] (g : α → β) (ls : List α) :
    (ls.filterMap fun l => if q l then some (g l) else none) = (ls.filter fun l => decide (q l)).map g := by
  induction ls with
  | nil => rfl
  | cons a r ih => by_cases h : q a <;> simp [h, ih]

/-- The lanes whose accesses are not aligned. -/
def bentLanes (m : MOp) (s : State) (w : Warp) (act : Mask) : List Nat := (lanesOf act).filter fun l => decide (scratchAddr m s w l % sizeBytes m.size ≠ 0)

/-- The lanes whose accesses leave the block's scratchpad. -/
def outLanes (m : MOp) (s : State) (w : Warp) (act : Mask) : List Nat :=
  (lanesOf act).filter fun l => decide (scratchAddr m s w l % sizeBytes m.size = 0 ∧ s.scratchSize w < scratchAddr m s w l + sizeBytes m.size)

theorem scratchEnd_cases (m : MOp) (s : State) (w : Warp) (l : Nat) :
    (scratchAddr m s w l % sizeBytes m.size ≠ 0 ∧ scratchEnd m s w l = .trap 6 0 (scratchAddr m s w l)) ∨
    ((scratchAddr m s w l % sizeBytes m.size = 0 ∧ s.scratchSize w < scratchAddr m s w l + sizeBytes m.size) ∧
      scratchEnd m s w l = .trap 7 1 (scratchAddr m s w l)) ∨ (scratchFits m s w l ∧ scratchEnd m s w l = .done) := by
  by_cases hb : scratchAddr m s w l % sizeBytes m.size = 0
  · by_cases ho : s.scratchSize w < scratchAddr m s w l + sizeBytes m.size
    · exact .inr (.inl ⟨⟨hb, ho⟩, scratchEnd_out hb ho⟩)
    · exact .inr (.inr ⟨⟨hb, Nat.not_lt.1 ho⟩, scratchEnd_fits ⟨hb, Nat.not_lt.1 ho⟩⟩)
  · exact .inl ⟨hb, scratchEnd_bent hb⟩

/-- Lanes that are not aligned and lanes that are out of range each form a sub-warp, and the others move on. -/
theorem afterEnds_scratch (m : MOp) (s : State) (w : Warp) (act : Mask) (t : State) : afterEnds s w act (scratchEnd m s w) t =
    ((t.takeTrap w s.iss.hnd 6 ((bentLanes m s w act).map fun l => memTrap s w act 0 (scratchAddr m s w l) l)).takeTrap w s.iss.hnd 7
      ((outLanes m s w act).map fun l => memTrap s w act 1 (scratchAddr m s w l) l)).advance w
      (maskOf fun l => s.iss.lanes.getLsbD l && !(bentLanes m s w act).contains l && !(outLanes m s w act).contains l) := by
  have xlate : ((lanesOf act).filterMap fun l => trapOf 5 l (memTrap s w act) (scratchEnd m s w l)) = [] := by
    refine List.filterMap_eq_nil_iff.2 fun l _ => ?_
    obtain ⟨-, h⟩ | ⟨-, h⟩ | ⟨-, h⟩ := scratchEnd_cases m s w l <;> simp [h, trapOf]
  have bent : ((lanesOf act).filterMap fun l => trapOf 6 l (memTrap s w act) (scratchEnd m s w l)) =
      (bentLanes m s w act).map fun l => memTrap s w act 0 (scratchAddr m s w l) l := by
    refine Eq.trans (List.filterMap_congr fun l _ => ?_) (filterMap_guarded _ _ _)
    obtain ⟨hb, h⟩ | ⟨hb, h⟩ | ⟨hb, h⟩ := scratchEnd_cases m s w l <;> simp [h, trapOf, hb]
  have out : ((lanesOf act).filterMap fun l => trapOf 7 l (memTrap s w act) (scratchEnd m s w l)) =
      (outLanes m s w act).map fun l => memTrap s w act 1 (scratchAddr m s w l) l := by
    refine Eq.trans (List.filterMap_congr fun l _ => ?_) (filterMap_guarded _ _ _)
    obtain ⟨hb, h⟩ | ⟨hb, h⟩ | ⟨hb, h⟩ := scratchEnd_cases m s w l
    · simp [h, trapOf, hb]
    · simp [h, trapOf, hb]
    · simp [h, trapOf, Nat.not_lt.2 hb.2]
  have others : s.iss.lanes &&& ~~~picked act (fun l => scratchEnd m s w l ≠ .done) =
      maskOf fun l => s.iss.lanes.getLsbD l && !(bentLanes m s w act).contains l && !(outLanes m s w act).contains l := by
    refine mask_ext fun l hl => ?_
    rw [BitVec.getLsbD_and, BitVec.getLsbD_not, getLsbD_picked _ hl, getLsbD_maskOf _ _ hl, Bool.and_assoc]
    refine congrArg _ ?_
    obtain ⟨hb, h⟩ | ⟨hb, h⟩ | ⟨hb, h⟩ := scratchEnd_cases m s w l
    · simp [h, hl, bentLanes, outLanes, mem_lanesOf, hb]
    · simp [h, hl, bentLanes, outLanes, mem_lanesOf, hb]
    · simp [h, hl, bentLanes, outLanes, mem_lanesOf, hb.1, hb.2]
  simp only [afterEnds, List.foldl_cons, List.foldl_nil, xlate, bent, out, others, takeTrap_nil]

/-- An issue of which every access traps of one class does no access. -/
theorem ScratchRuns.traps {f : Nat → Nat → State → State} {v : Bool} {cls k : Nat} (h : ScratchRuns i s w act m v f) (hc : cls = 5 ∨ cls = 6 ∨ cls = 7)
    (hall : ∀ l ∈ accessors act v, ¬scratchFits m s w l ∧ scratchEnd m s w l = .trap cls k (scratchAddr m s w l)) :
    exec i s = .next ((s.takeTrap w s.iss.hnd cls ((lanesOf act).map fun l =>
      memTrap s w act k (scratchAddr m s w (if v then lowestLane act else l)) l)).advance w (s.iss.lanes &&& ~~~act)) := by
  have nothing : scratchRun m s w f (accessors act v) = s := by
    rw [scratchRun, List.filter_eq_nil_iff.2 fun l hl h => (hall l hl).1 (of_decide_eq_true h)]
    rfl
  rw [h, nothing, afterEnds_congr (fun l hl => (hall _ (mem_accessors hl)).2), afterEnds_trap hc]

/-- An LDS or ATOMS all of whose accesses meet words in error. -/
theorem lostEach {f : Nat → Nat → State → State} {uni : Mask} {ls : List Nat}
    (hf : ∀ l a t, t.scratchGet w.blk a (sizeBytes m.size) = none → f l a t = t.scratchLost w m l a uni) (ht : t.blocks = s.blocks)
    (hnone : ∀ l ∈ ls, s.scratchGet w.blk (scratchAddr m s w l) (sizeBytes m.size) = none) :
    ls.foldl (fun t l => f l (scratchAddr m s w l) t) t = ls.foldl (fun t l => t.scratchLost w m l (scratchAddr m s w l) uni) t := by
  induction ls generalizing t with
  | nil => rfl
  | cons l r ih =>
    obtain ⟨hl, hr⟩ := List.forall_mem_cons.1 hnone
    have lost : t.scratchGet w.blk (scratchAddr m s w l) (sizeBytes m.size) = none := (scratchGet_blocks ht ..).trans hl
    rw [List.foldl_cons, List.foldl_cons, hf l _ t lost]
    exact ih (by rw [scratchLost_only]; exact ht) hr

end Ending

/-- Settles O27: an issue is the run of its accesses, which puts and writes lane by lane, and what the ends of its lanes leave. -/
theorem scratchpadResult : Obligations.ScratchpadResult := by
  refine ⟨fun c sx m s w act ha hz hfit hs => ?loads, fun c m s w act ha hfit => ?stores, fun c op m s w act b ha hz hfit hb hbad => ?atomics,
    fun i s w act m u hi hu hsts ha hfit hnone => ?lost, fun s blk a n b hb => ⟨scratchGet_none_iff hb, fun d hd => scratchGet_some hb hd⟩,
    fun s w m l a uni => ⟨_, rfl, ?abort⟩, fun i s w act m hi ha hs => ?mixed, fun i s w act m u hi ha => ?trapped⟩
  case loads =>
    obtain ⟨hw, -, hne, -, -, -, -, hl⟩ := id ha
    have run := (Rewritten.refl s w).loads (act := act) hl hs hz (lds_dst ha) sx (accessors_lt (u := isS m.data.toNat) hne)
    obtain ⟨w', wrote⟩ := run.wroteReg hw hl fun l => length_loadWords hz sx _
    exact ⟨_, w', (lds_scratchRuns ha).fits hfit, wrote⟩
  case stores => rw [(sts_scratchRuns ha).fits hfit, stores_scratched (.refl s)]
  case atomics =>
    obtain ⟨hw, -, hne, -, -, -, -, hl⟩ := id ha
    have run := atoms_rewritten (act := act) (op := op) hl hb hbad hz (atoms_dst ha hz) (accessors_lt (u := isS m.data.toNat) hne) (nodup_accessors act _)
    obtain ⟨w', wrote⟩ := run.wroteReg hw hl fun l => length_wordsN ..
    exact ⟨_, w', (atoms_scratchRuns ha).fits hfit, wrote⟩
  case lost =>
    unfold scratchOp at hi
    split at hi <;> cases hi
    · rw [(lds_scratchRuns ha).fits hfit, lostEach (fun l a t h => by rw [loadsAt, h]) rfl hnone]
    · exact absurd rfl (hsts _)
    · rw [(atoms_scratchRuns ha).fits hfit, lostEach (fun l a t h => by rw [atomsAt, h]) rfl hnone]
  case abort =>
    rw [scratchLost_only]
    refine ⟨rfl, rfl, rfl, rfl, List.length_append, fun r hr => ?_⟩
    obtain rfl : _ = r := by simpa using hr
    exact ⟨rfl, rfl, rfl, rfl, rfl, rfl, rfl, rfl, rfl, rfl⟩
  case mixed =>
    obtain ⟨hw, -, hne, -, -, -, -, hl⟩ := id ha
    have small : ∀ l ∈ (lanesOf act).filter fun l => decide (scratchFits m s w l), l < 32 := fun l hl => mask_lt act l ((mem_lanesOf ..).1 (List.mem_filter.1 hl).1)
    have ends {i : Instr} {f} (h : ScratchRuns i s w act m false f) := h.trans (congrArg _ (afterEnds_scratch m s w act _))
    refine ⟨fun c sx hi' hz => ?_, fun c hi' => ?_, fun c op b hi' hz hb => ?_⟩ <;> subst hi'
    · have vector : isS m.data.toNat = false := by simpa [scratchOp] using hi
      have run := (Rewritten.refl s w).loads (act := act) hl hs hz (lds_dst ha) sx small
      exact ⟨_, ends (vector ▸ lds_scratchRuns ha), run.wroteSome hw hl vector fun l => length_loadWords hz sx _⟩
    · have each : uniStore m = false := by simpa [scratchOp] using hi
      rw [ends (each ▸ sts_scratchRuns ha), scratchRun, stores_scratched (.refl s)]
      rfl
    · have vector : isS m.data.toNat = false := by simpa [scratchOp] using hi
      have run := atoms_rewritten (act := act) (op := op) hl hb (hs b hb) hz (atoms_dst ha hz) small ((nodup_lanesOf act).filter _)
      exact ⟨_, ends (vector ▸ atoms_scratchRuns ha), run.wroteSome hw hl vector fun l => length_wordsN ..⟩
  case trapped =>
    obtain ⟨f, runs⟩ := scratchOp_runs hi ha
    exact ⟨fun h => runs.traps (.inr (.inl rfl)) fun l hl => ⟨fun fits => h l hl fits.1, scratchEnd_bent (h l hl)⟩,
      fun h => runs.traps (.inr (.inr rfl)) fun l hl => ⟨fun fits => Nat.not_lt.2 fits.2 (h l hl).2, scratchEnd_out (h l hl).1 (h l hl).2⟩⟩

end Sys2Proof.Machine

/-! SUPPORT. The return of a load whose destination names no register: a load of no bytes, which no instruction makes, into the first register of the handler's
bank. The model still puts its words, none of them, into the bank, and so lists the quadrant anew. -/

namespace Sys2Proof.Machine

open Claims Laws

/-- The warp that asked. -/
def emptyLoadWarp : Warp := plantWarp 4 1 3 0

/-- A load of no bytes into h0 that has been served in lane 0. -/
def emptyLoad : Req :=
  { k := .load 704#10 0 false false false false, tgt := .dev 0, va := 0, lane := 0, uni := 0, hnd := true, word := 0, hdr := 0, idx := 0,
    org := { seq := 0, core := 0, ctx := 0, grid := 0, group := 0, blk := 0, warp := 4, wi := 0, lin := 0, img := 0, pos := 0, lanes := 1#32 },
    st := .served [] [], stamp := 0, poison := false, counted := false }

/-- The bank of the warp's handler. -/
def emptyLoadBank : Bank :=
  { warp := 4, sub := { cls := 0, since := 0, lanes := [] }, lanes := [Lane.init], entry := [], posSet := 0, h := [], pace := Pace.init, movx := 0 }

/-- The machine with that request in flight. Its quadrants are listed in falling order; the canonical form would list them rising. -/
def emptyLoadOn : State :=
  { State.reset with
    warps := [emptyLoadWarp], net := [emptyLoad]
    quads := [(emptyLoadWarp.q + 1, { Quad.init with cycle := 1 }), (emptyLoadWarp.q, { Quad.init with bank := some emptyLoadBank })] }

/-- The return lists a quadrant more. -/
theorem emptyLoad_returns : (match exec (.loadReturn 0) emptyLoadOn with | .next t => t.quads.length | _ => 0) = 3 := by decide +kernel

/-- Refutes O44: the statement lets the words of a result end at register 704 also where there are none of them. A load of no bytes into h0 then returns to the
bank, and where the quadrants stand out of order in the model's list the list does not stay as it was. -/
theorem not_requestsActs : ¬ Obligations.RequestsActs := by
  rintro ⟨-, -, -, -, lands, -⟩
  obtain ⟨t, -, run, only, -⟩ := lands emptyLoadOn 0 emptyLoad emptyLoadWarp [] [] 704#10 0 false rfl rfl rfl (by decide +kernel) rfl (by decide)
    (fun _ _ _ _ h => by cases h) (.inr (by decide))
  have kept : t.quads = emptyLoadOn.quads := (congrArg State.quads only).trans rfl
  have listed : t.quads.length = 3 := by simpa only [run] using emptyLoad_returns
  rw [kept] at listed
  exact absurd listed (by decide)

end Sys2Proof.Machine
